-- ==== Sys2Proof/Word.lean ====
section
/-! DEFINITION. The word types of the GX-IX24 (spec/00_scope.md R5). -/

namespace Sys2Proof

/-- A 64-bit register, address or queue word. -/
abbrev Word := BitVec 64

/-- One byte of memory. -/
abbrev Byte := BitVec 8

/-- An instruction word (R55). -/
abbrev IWord := BitVec 32

/-- A 5-bit register field (Table 4-9 for scalar fields, R59 for vector fields). -/
abbrev Reg5 := BitVec 5

/-- A vector register: 512 bytes, little-endian (R165). -/
abbrev VReg := BitVec 4096

/-- A mask register: bit j belongs to the 32-bit container j (R167). -/
abbrev MaskReg := BitVec 128

end Sys2Proof
end

