-- ==== Sys2Proof/Syntax.lean ====
section
/-! DEFINITION. The syntax: one constructor of `Instr` for every row of spec/opcode_table.json.
The first 228 rows are instruction words (spec/04_formats_and_opcode_map.md); the other 109 are the
device's own events (spec/95_what_each_step_holds.md), which have no encoding and carry the numbers of
the units they act on and the data that comes from outside. -/

namespace Sys2Proof

/-- The scopes of R7, coded by Table 4-16. -/
inductive Scope where
  | core | clus | die | dev | sys
deriving DecidableEq, Repr

/-- The ordering kinds of atomics and reductions (R65). -/
inductive Kind where
  | rlx | acq | rel
deriving DecidableEq, Repr

/-- The kinds of FENCE (R242). -/
inductive FenceKind where
  | full | acq | rel
deriving DecidableEq, Repr

/-- The integer type field of majors 0x22, 0x26 and 0x27 (R70, Table 9-1). -/
inductive IType where
  | i8 | i16 | i32 | i64 | n8 | n16 | n32 | n64
deriving DecidableEq, Repr

/-- The integer type field of major 0x23 (R70, Table 9-1). -/
inductive WType where
  | i4 | i8 | i16 | i32 | n4 | n8 | n16 | n32
deriving DecidableEq, Repr

/-- The floating formats of major 0x24 (R71). -/
inductive FFmt where
  | f16 | bf16 | f32 | f64
deriving DecidableEq, Repr

/-- The rounding modes of Table 5-3. -/
inductive Rnd where
  | rne | rtz | rdn | rup | rna
deriving DecidableEq, Repr

/-- The mask field of a floating instruction: a governing mask, or a static rounding override (R71, R179). -/
inductive RMode where
  | masked (m : BitVec 3)
  | static (r : Rnd)
deriving DecidableEq, Repr

/-- The rounding field of major 0x25: dynamic, or a mode (R72). -/
abbrev DynRnd := Option Rnd

/-- Conversion and vector memory types (Table 4-20). -/
inductive EType where
  | i8 | i16 | i32 | i64 | n8 | n16 | n32 | n64 | f16 | bf16 | f32 | f64 | e4m3 | e5m2
deriving DecidableEq, Repr

/-- The GQ block formats (R91). -/
inductive GqFmt where
  | gq2 | gq4 | gq8
deriving DecidableEq, Repr

/-- The source formats of VCVTGQ (R191). -/
inductive GqSrc where
  | f16 | bf16 | f32
deriving DecidableEq, Repr

/-- Matrix type codes (R66). -/
inductive MType where
  | gq2 | gq4 | gq8 | e4m3 | e5m2 | bf16 | f16 | f32
deriving DecidableEq, Repr

/-- Collective type codes (R66). -/
inductive CType where
  | i32 | i64 | f32 | f64 | bf16 | f16
deriving DecidableEq, Repr

/-- Collective selectors (Table 4-15). -/
inductive CollSel where
  | ar | rs | ag
deriving DecidableEq, Repr

/-- HVOTE selectors (Table 4-14). -/
inductive VoteSel where
  | any | all | eq
deriving DecidableEq, Repr

/-- HRED selectors (Table 4-14). -/
inductive RedSel where
  | addI64 | minI64 | maxI64 | addF32
deriving DecidableEq, Repr

/-- Trap causes (Table 8-1). -/
inductive TrapCause where
  | illegal | misalign | bounds | xlate | perm | regdecl | handle | pnonfin
  | queue | warrant | brk | ucall | energy | uncorr | canon
deriving DecidableEq, Repr

/-- An admission-port command's source node and its 32-byte header (R402): the magic, the command code, the tag, CTX.ID, the
bytes that are to be zero, and the payload length. -/
structure PortHdr where
  node  : Nat
  magic : List (BitVec 8)
  code  : Nat
  tag   : Nat
  ctx   : Nat
  zeros : List (BitVec 8)
  len   : Nat
deriving DecidableEq, Repr

/-- An issuer key of the commissioning record: its digest, whether it is active, its domains (R410, R328). -/
structure IssuerKey where
  digest  : BitVec 256
  active  : Bool
  domains : List Word
deriving DecidableEq, Repr

/-- The commissioning record (R410). Its byte layout is not in the spec; the fields are R410's. -/
structure CommissionRecord where
  issuers  : List IssuerKey
  domains  : List (Word × List Nat)
  factor   : Nat
  reserve  : List (Nat × Nat)
  energy   : Option (List Nat)
  node     : Nat
  linkNode : List (Nat × Nat)
deriving DecidableEq, Repr

/-- The operands of DEFQ: a queue's definition half (Table 23-1). -/
structure QueueDef where
  base     : Word
  size     : BitVec 32
  exq      : BitVec 16
  qflags   : BitVec 16
  doorbell : Word
  status   : Word
deriving DecidableEq, Repr

/-- A capture condition (Table 26-6). -/
inductive DbgCond where
  | never
  | always
  | brkIn (lo hi : BitVec 12)
  | trapOf (c : TrapCause)
  | comparator (j : BitVec 2)
  | cycleIs (v : Word)
  | traceIs (v : Word)
  | cross
deriving DecidableEq, Repr

/-- The halt scope of a trigger (R391). -/
inductive HaltScope where
  | none | cluster | die | context
deriving DecidableEq, Repr

/-- What DBGCFG sets (R391). `period` is 0 or 2^k, `post` is P. -/
structure DbgConfig where
  start   : DbgCond
  stop    : DbgCond
  trigger : DbgCond
  comps   : List Word
  post    : Nat
  period  : Nat
  halt    : HaltScope
  region  : Word
deriving DecidableEq, Repr

/-- A flit (R397): the fields of its header, its payload, and its CRC word. -/
structure Flit where
  vc      : BitVec 4
  dst     : BitVec 16
  src     : BitVec 16
  ctx     : BitVec 16
  ftype   : BitVec 4
  len     : BitVec 8
  payload : List Byte
  crc     : BitVec 32
deriving DecidableEq, Repr

/-- A collective contribution that comes from another module (R299): its sender, its parameters, whether its peer
table names the receiver at the receiver's rank, and its data. -/
structure CollRemote where
  node   : Nat
  ctx    : Nat
  thread : Nat
  rank   : Nat
  ranks  : Nat
  n      : Nat
  name   : Word
  ty     : CType
  sel    : CollSel
  names  : Bool
  data   : List Byte
  departed : Bool
deriving DecidableEq, Repr

/-- A redemption claim as its home receives it (R331). -/
structure ClaimMsg where
  serial    : BitVec 128
  root      : BitVec 128
  notBefore : Word
  device    : Nat
deriving DecidableEq, Repr

/-- The instructions and the device events. A field `d`, `a` or `b` is the register field of the word. -/
inductive Instr where
  | add (d : Reg5) (a : Reg5) (b : Reg5)
  | sub (d : Reg5) (a : Reg5) (b : Reg5)
  | and (d : Reg5) (a : Reg5) (b : Reg5)
  | or (d : Reg5) (a : Reg5) (b : Reg5)
  | xor (d : Reg5) (a : Reg5) (b : Reg5)
  | andn (d : Reg5) (a : Reg5) (b : Reg5)
  | sll (d : Reg5) (a : Reg5) (b : Reg5)
  | srl (d : Reg5) (a : Reg5) (b : Reg5)
  | sra (d : Reg5) (a : Reg5) (b : Reg5)
  | rol (d : Reg5) (a : Reg5) (b : Reg5)
  | min (d : Reg5) (a : Reg5) (b : Reg5)
  | max (d : Reg5) (a : Reg5) (b : Reg5)
  | minu (d : Reg5) (a : Reg5) (b : Reg5)
  | maxu (d : Reg5) (a : Reg5) (b : Reg5)
  | slt (d : Reg5) (a : Reg5) (b : Reg5)
  | sltu (d : Reg5) (a : Reg5) (b : Reg5)
  | seq (d : Reg5) (a : Reg5) (b : Reg5)
  | sel (d : Reg5) (a : Reg5) (b : Reg5)
  | addi (d : Reg5) (a : Reg5) (imm : BitVec 12)
  | andi (d : Reg5) (a : Reg5) (imm : BitVec 12)
  | ori (d : Reg5) (a : Reg5) (imm : BitVec 12)
  | xori (d : Reg5) (a : Reg5) (imm : BitVec 12)
  | slli (d : Reg5) (a : Reg5) (k : BitVec 6)
  | srli (d : Reg5) (a : Reg5) (k : BitVec 6)
  | srai (d : Reg5) (a : Reg5) (k : BitVec 6)
  | roli (d : Reg5) (a : Reg5) (k : BitVec 6)
  | slti (d : Reg5) (a : Reg5) (imm : BitVec 12)
  | sltiu (d : Reg5) (a : Reg5) (imm : BitVec 12)
  | seqi (d : Reg5) (a : Reg5) (imm : BitVec 12)
  | lui (d : Reg5) (imm : BitVec 20)
  | auipc (d : Reg5) (imm : BitVec 20)
  | mul (d : Reg5) (a : Reg5) (b : Reg5)
  | mulh (d : Reg5) (a : Reg5) (b : Reg5)
  | mulhu (d : Reg5) (a : Reg5) (b : Reg5)
  | div (d : Reg5) (a : Reg5) (b : Reg5)
  | divu (d : Reg5) (a : Reg5) (b : Reg5)
  | rem (d : Reg5) (a : Reg5) (b : Reg5)
  | remu (d : Reg5) (a : Reg5) (b : Reg5)
  | clz (d : Reg5) (a : Reg5)
  | ctz (d : Reg5) (a : Reg5)
  | popc (d : Reg5) (a : Reg5)
  | brev (d : Reg5) (a : Reg5)
  | bswap (d : Reg5) (a : Reg5)
  | bfx (d : Reg5) (a : Reg5) (b : Reg5)
  | bfi (d : Reg5) (a : Reg5) (b : Reg5)
  | lb (d : Reg5) (a : Reg5) (imm : BitVec 12)
  | lbu (d : Reg5) (a : Reg5) (imm : BitVec 12)
  | lh (d : Reg5) (a : Reg5) (imm : BitVec 12)
  | lhu (d : Reg5) (a : Reg5) (imm : BitVec 12)
  | lw (d : Reg5) (a : Reg5) (imm : BitVec 12)
  | lwu (d : Reg5) (a : Reg5) (imm : BitVec 12)
  | ld (d : Reg5) (a : Reg5) (imm : BitVec 12)
  | sb (b : Reg5) (a : Reg5) (imm : BitVec 12)
  | sh (b : Reg5) (a : Reg5) (imm : BitVec 12)
  | sw (b : Reg5) (a : Reg5) (imm : BitVec 12)
  | sd (b : Reg5) (a : Reg5) (imm : BitVec 12)
  | ldo (d : Reg5) (a : Reg5) (acq : Bool) (sc : Scope) (imm : BitVec 12)
  | sto (b : Reg5) (a : Reg5) (rel : Bool) (sc : Scope) (imm : BitVec 12)
  | beq (a : Reg5) (b : Reg5) (off : BitVec 13)
  | bne (a : Reg5) (b : Reg5) (off : BitVec 13)
  | blt (a : Reg5) (b : Reg5) (off : BitVec 13)
  | bge (a : Reg5) (b : Reg5) (off : BitVec 13)
  | bltu (a : Reg5) (b : Reg5) (off : BitVec 13)
  | bgeu (a : Reg5) (b : Reg5) (off : BitVec 13)
  | jal (d : Reg5) (off : BitVec 21)
  | jalr (d : Reg5) (a : Reg5) (imm : BitVec 12)
  | csrr (d : Reg5) (csr : BitVec 12)
  | csrw (a : Reg5) (csr : BitVec 12)
  | csrs (a : Reg5) (csr : BitVec 12)
  | csrc (a : Reg5) (csr : BitVec 12)
  | trap (a : Reg5) (code : BitVec 4)
  | eret
  | ucall (n : BitVec 12)
  | brk (n : BitVec 12)
  | fence (kind : FenceKind) (sc : Scope)
  | iflush
  | winset (a : Reg5) (w : BitVec 3)
  | ldfe (d : Reg5) (a : Reg5) (imm : BitVec 12)
  | ldfeClr (d : Reg5) (a : Reg5) (imm : BitVec 12)
  | stfe (b : Reg5) (a : Reg5) (imm : BitVec 12)
  | feq (d : Reg5) (a : Reg5) (imm : BitVec 12)
  | marm (a : Reg5) (imm : BitVec 12)
  | mclr
  | mwait
  | yield
  | halt
  | fork (a : Reg5) (b : Reg5)
  | rfork (d : Reg5) (a : Reg5) (b : Reg5)
  | join (a : Reg5)
  | taskend
  | aadd (d : Reg5) (a : Reg5) (b : Reg5) (kind : Kind) (sc : Scope) (o : Bool) (w32 : Bool)
  | aand (d : Reg5) (a : Reg5) (b : Reg5) (kind : Kind) (sc : Scope) (o : Bool) (w32 : Bool)
  | aor (d : Reg5) (a : Reg5) (b : Reg5) (kind : Kind) (sc : Scope) (o : Bool) (w32 : Bool)
  | axor (d : Reg5) (a : Reg5) (b : Reg5) (kind : Kind) (sc : Scope) (o : Bool) (w32 : Bool)
  | amin (d : Reg5) (a : Reg5) (b : Reg5) (kind : Kind) (sc : Scope) (o : Bool) (w32 : Bool)
  | amax (d : Reg5) (a : Reg5) (b : Reg5) (kind : Kind) (sc : Scope) (o : Bool) (w32 : Bool)
  | aminu (d : Reg5) (a : Reg5) (b : Reg5) (kind : Kind) (sc : Scope) (o : Bool) (w32 : Bool)
  | amaxu (d : Reg5) (a : Reg5) (b : Reg5) (kind : Kind) (sc : Scope) (o : Bool) (w32 : Bool)
  | axchg (d : Reg5) (a : Reg5) (b : Reg5) (kind : Kind) (sc : Scope) (o : Bool) (w32 : Bool)
  | acas (d : Reg5) (a : Reg5) (b : Reg5) (kind : Kind) (sc : Scope) (w32 : Bool)
  | migr (a : Reg5)
  | retn
  | radd (a : Reg5) (b : Reg5) (rel : Bool) (sc : Scope) (o : Bool) (w32 : Bool)
  | rand (a : Reg5) (b : Reg5) (rel : Bool) (sc : Scope) (o : Bool) (w32 : Bool)
  | ror (a : Reg5) (b : Reg5) (rel : Bool) (sc : Scope) (o : Bool) (w32 : Bool)
  | rxor (a : Reg5) (b : Reg5) (rel : Bool) (sc : Scope) (o : Bool) (w32 : Bool)
  | rmin (a : Reg5) (b : Reg5) (rel : Bool) (sc : Scope) (o : Bool) (w32 : Bool)
  | rmax (a : Reg5) (b : Reg5) (rel : Bool) (sc : Scope) (o : Bool) (w32 : Bool)
  | rfadd (a : Reg5) (b : Reg5) (rel : Bool) (sc : Scope) (o : Bool) (w32 : Bool)
  | hjoin (d : Reg5) (a : Reg5) (t : Bool) (x : Bool) (h : BitVec 2)
  | hleave (h : BitVec 2)
  | hbar (h : BitVec 2)
  | harrv (h : BitVec 2)
  | hwait (h : BitVec 2)
  | hvote (d : Reg5) (a : Reg5) (sel : VoteSel) (h : BitVec 2)
  | hred (d : Reg5) (a : Reg5) (sel : RedSel) (h : BitVec 2)
  | hinfo (d : Reg5) (h : BitVec 2)
  | wpres (d : Reg5) (a : Reg5)
  | wsplit (d : Reg5) (a : Reg5) (b : Reg5)
  | wdeleg (d : Reg5) (a : Reg5) (b : Reg5)
  | wsurr (d : Reg5) (a : Reg5)
  | wreset (d : Reg5) (a : Reg5)
  | wqry (d : Reg5) (a : Reg5) (b : Reg5)
  | cpy (d : Reg5) (a : Reg5) (b : Reg5) (ch : BitVec 3)
  | cpys (d : Reg5) (a : Reg5) (b : Reg5) (ch : BitVec 3)
  | cpwait (a : Reg5) (ch : BitVec 3)
  | chwm (a : Reg5) (b : Reg5) (ch : BitVec 3)
  | halo (a : Reg5) (b : Reg5)
  | halowait (a : Reg5) (b : Reg5)
  | mcast (d : Reg5) (a : Reg5) (b : Reg5)
  | gath (d : Reg5) (a : Reg5) (b : Reg5) (ch : BitVec 3)
  | coll (d : Reg5) (a : Reg5) (b : Reg5) (ty : CType) (sel : CollSel)
  | qstat (d : Reg5)
  | mxop (a : Reg5) (ty : MType) (sp : Bool)
  | mxzero (a : Reg5)
  | mxst (a : Reg5) (ty : MType) (sat : Bool)
  | mxld (a : Reg5)
  | mxring (a : Reg5) (b : Reg5)
  | mxadv (a : Reg5)
  | mxwgt (a : Reg5)
  | cntr (d : Reg5) (e : BitVec 8)
  | time (d : Reg5) (late : Bool)
  | vld (d : Reg5) (a : Reg5) (ty : EType) (m : BitVec 3)
  | vlds (d : Reg5) (a : Reg5) (b : Reg5) (ty : EType) (m : BitVec 3)
  | vldx (d : Reg5) (a : Reg5) (b : Reg5) (ty : EType) (m : BitVec 3)
  | vst (d : Reg5) (a : Reg5) (ty : EType) (m : BitVec 3)
  | vsts (d : Reg5) (a : Reg5) (b : Reg5) (ty : EType) (m : BitVec 3)
  | vstx (d : Reg5) (a : Reg5) (b : Reg5) (ty : EType) (m : BitVec 3)
  | vadd (d : Reg5) (a : Reg5) (b : Reg5) (ty : IType) (m : BitVec 3)
  | vsub (d : Reg5) (a : Reg5) (b : Reg5) (ty : IType) (m : BitVec 3)
  | vadds (d : Reg5) (a : Reg5) (b : Reg5) (ty : IType) (m : BitVec 3)
  | vsubs (d : Reg5) (a : Reg5) (b : Reg5) (ty : IType) (m : BitVec 3)
  | vmul (d : Reg5) (a : Reg5) (b : Reg5) (ty : IType) (m : BitVec 3)
  | vmulh (d : Reg5) (a : Reg5) (b : Reg5) (ty : IType) (m : BitVec 3)
  | vmin (d : Reg5) (a : Reg5) (b : Reg5) (ty : IType) (m : BitVec 3)
  | vmax (d : Reg5) (a : Reg5) (b : Reg5) (ty : IType) (m : BitVec 3)
  | vabs (d : Reg5) (a : Reg5) (ty : IType) (m : BitVec 3)
  | vneg (d : Reg5) (a : Reg5) (ty : IType) (m : BitVec 3)
  | vand (d : Reg5) (a : Reg5) (b : Reg5) (ty : IType) (m : BitVec 3)
  | vor (d : Reg5) (a : Reg5) (b : Reg5) (ty : IType) (m : BitVec 3)
  | vxor (d : Reg5) (a : Reg5) (b : Reg5) (ty : IType) (m : BitVec 3)
  | vandn (d : Reg5) (a : Reg5) (b : Reg5) (ty : IType) (m : BitVec 3)
  | vsll (d : Reg5) (a : Reg5) (b : Reg5) (ty : IType) (m : BitVec 3)
  | vsrl (d : Reg5) (a : Reg5) (b : Reg5) (ty : IType) (m : BitVec 3)
  | vsra (d : Reg5) (a : Reg5) (b : Reg5) (ty : IType) (m : BitVec 3)
  | vsel (d : Reg5) (a : Reg5) (b : Reg5) (ty : IType) (m : BitVec 3)
  | vcmpEq (d : Reg5) (a : Reg5) (b : Reg5) (ty : IType) (m : BitVec 3)
  | vcmpNe (d : Reg5) (a : Reg5) (b : Reg5) (ty : IType) (m : BitVec 3)
  | vcmpLt (d : Reg5) (a : Reg5) (b : Reg5) (ty : IType) (m : BitVec 3)
  | vcmpLe (d : Reg5) (a : Reg5) (b : Reg5) (ty : IType) (m : BitVec 3)
  | vcmpGt (d : Reg5) (a : Reg5) (b : Reg5) (ty : IType) (m : BitVec 3)
  | vcmpGe (d : Reg5) (a : Reg5) (b : Reg5) (ty : IType) (m : BitVec 3)
  | vwadd (d : Reg5) (a : Reg5) (b : Reg5) (ty : WType) (m : BitVec 3)
  | vwsub (d : Reg5) (a : Reg5) (b : Reg5) (ty : WType) (m : BitVec 3)
  | vwmul (d : Reg5) (a : Reg5) (b : Reg5) (ty : WType) (m : BitVec 3)
  | vdot2 (d : Reg5) (a : Reg5) (b : Reg5) (ty : WType) (sat : Bool) (m : BitVec 3)
  | vdot4 (d : Reg5) (a : Reg5) (b : Reg5) (ty : WType) (sat : Bool) (m : BitVec 3)
  | vnarrow (d : Reg5) (a : Reg5) (ty : WType) (sat : Bool) (m : BitVec 3)
  | vfadd (d : Reg5) (a : Reg5) (b : Reg5) (f : FFmt) (rm : RMode)
  | vfsub (d : Reg5) (a : Reg5) (b : Reg5) (f : FFmt) (rm : RMode)
  | vfmul (d : Reg5) (a : Reg5) (b : Reg5) (f : FFmt) (rm : RMode)
  | vfdiv (d : Reg5) (a : Reg5) (b : Reg5) (f : FFmt) (rm : RMode)
  | vfma (d : Reg5) (a : Reg5) (b : Reg5) (f : FFmt) (rm : RMode)
  | vfms (d : Reg5) (a : Reg5) (b : Reg5) (f : FFmt) (rm : RMode)
  | vfnma (d : Reg5) (a : Reg5) (b : Reg5) (f : FFmt) (rm : RMode)
  | vfnms (d : Reg5) (a : Reg5) (b : Reg5) (f : FFmt) (rm : RMode)
  | vfmin (d : Reg5) (a : Reg5) (b : Reg5) (f : FFmt) (m : BitVec 3)
  | vfmax (d : Reg5) (a : Reg5) (b : Reg5) (f : FFmt) (m : BitVec 3)
  | vfabs (d : Reg5) (a : Reg5) (f : FFmt) (m : BitVec 3)
  | vfneg (d : Reg5) (a : Reg5) (f : FFmt) (m : BitVec 3)
  | vfsqrt (d : Reg5) (a : Reg5) (f : FFmt) (rm : RMode)
  | vfrcp (d : Reg5) (a : Reg5) (f : FFmt) (rm : RMode)
  | vfrsq (d : Reg5) (a : Reg5) (f : FFmt) (rm : RMode)
  | vfclass (d : Reg5) (a : Reg5) (f : FFmt) (m : BitVec 3)
  | vfcmpEq (d : Reg5) (a : Reg5) (b : Reg5) (f : FFmt) (m : BitVec 3)
  | vfcmpNe (d : Reg5) (a : Reg5) (b : Reg5) (f : FFmt) (m : BitVec 3)
  | vfcmpLt (d : Reg5) (a : Reg5) (b : Reg5) (f : FFmt) (m : BitVec 3)
  | vfcmpLe (d : Reg5) (a : Reg5) (b : Reg5) (f : FFmt) (m : BitVec 3)
  | vfcmpGt (d : Reg5) (a : Reg5) (b : Reg5) (f : FFmt) (m : BitVec 3)
  | vfcmpGe (d : Reg5) (a : Reg5) (b : Reg5) (f : FFmt) (m : BitVec 3)
  | vcvt (d : Reg5) (a : Reg5) (sat : Bool) (st : EType) (rnd : DynRnd) (dt : EType) (m : BitVec 3)
  | vcvtgq (d : Reg5) (a : Reg5) (sat : Bool) (st : GqSrc) (rnd : DynRnd) (dt : GqFmt) (m : BitVec 3)
  | vperm (d : Reg5) (a : Reg5) (b : Reg5) (ty : IType) (m : BitVec 3)
  | vshuf (d : Reg5) (a : Reg5) (b : Reg5) (ty : IType) (m : BitVec 3)
  | vzip (d : Reg5) (a : Reg5) (b : Reg5) (ty : IType) (m : BitVec 3)
  | vunzip (d : Reg5) (a : Reg5) (b : Reg5) (ty : IType) (m : BitVec 3)
  | vbcast (d : Reg5) (a : Reg5) (ty : IType) (m : BitVec 3)
  | vslide (d : Reg5) (a : Reg5) (b : Reg5) (ty : IType) (m : BitVec 3)
  | vredi (d : Reg5) (a : Reg5) (ty : IType) (m : BitVec 3)
  | vmvs (d : Reg5) (a : Reg5) (b : Reg5) (ty : IType) (m : BitVec 3)
  | vspl (d : Reg5) (a : Reg5) (b : Reg5) (ty : IType) (m : BitVec 3)
  | vfreds (d : Reg5) (a : Reg5) (b : Reg5) (f : FFmt) (rm : RMode)
  | mand (d : Reg5) (a : Reg5) (b : Reg5)
  | mor (d : Reg5) (a : Reg5) (b : Reg5)
  | mxor (d : Reg5) (a : Reg5) (b : Reg5)
  | mnot (d : Reg5) (a : Reg5)
  | mpopc (d : Reg5) (a : Reg5)
  | mfirst (d : Reg5) (a : Reg5)
  | mmov (d : Reg5) (a : Reg5)
  | pori2 (d : Reg5) (a : Reg5) (f64 : Bool) (nf : Bool) (sos : Bool) (m : BitVec 3)
  | pori3 (d : Reg5) (a : Reg5) (f64 : Bool) (nf : Bool) (sos : Bool) (m : BitVec 3)
  | pincir (d : Reg5) (a : Reg5) (f64 : Bool) (nf : Bool) (sos : Bool) (m : BitVec 3)
  | pinsph (d : Reg5) (a : Reg5) (f64 : Bool) (nf : Bool) (sos : Bool) (m : BitVec 3)
  | psegx (d : Reg5) (a : Reg5) (f64 : Bool) (nf : Bool) (sos : Bool) (m : BitVec 3)
  | rfetch (d : Reg5) (a : Reg5)
  | dispatch (d : Reg5) (a : Reg5) (b : Reg5)
  | sigwait (d : Reg5)
  | keyld (d : Reg5) (a : Reg5) (b : Reg5)
  | threadRejoin (slot : Nat)
  | yieldPauseEnd (slot : Nat)
  | icacheLineFill (slot : Nat)
  | offCoreLoadReply (slot : Nat)
  | storeBufferDrain (core : Nat)
  | writeReachesHome (k : Nat)
  | feRequestAtBank (slot : Nat)
  | bankWakeupDone (bank : Nat)
  | translationWalkEnd (slot : Nat)
  | atomicAtHome (slot : Nat)
  | atomicReplyArrival (slot : Nat)
  | reductionAtHome (k : Nat)
  | reductionAckArrival (k : Nat)
  | joinDecrementAtHome (slot : Nat)
  | migrBlockAccept (slot : Nat)
  | migrBlockReturn (slot : Nat)
  | dequeSpillDone (slot : Nat)
  | dequeRefill (core : Nat) (ctx : Nat)
  | idleSlotPop (slot : Nat)
  | stealRequest (core : Nat) (ctx : Nat)
  | stealAnswer (core : Nat) (ctx : Nat)
  | stealRetryTimer (core : Nat) (ctx : Nat)
  | rforkSurveyDone (slot : Nat)
  | caddieTakeRequest (core : Nat)
  | copyGranuleLand (k : Nat)
  | copyComplete (k : Nat) (refused : Bool)
  | haloDirectionArrival (k : Nat) (dir : BitVec 2)
  | mcastDelivery (k : Nat)
  | gatherComplete (k : Nat) (refused : Bool)
  | collContributionArrival (k : Nat) (remote : Option CollRemote)
  | collComplete (k : Nat)
  | messageLeaveSendQueue (slot : Nat)
  | messageDelivery (k : Nat)
  | mxringTakeEffect (slot : Nat)
  | mxadvReachUnit (slot : Nat)
  | mxwgtTakeEffect (slot : Nat)
  | matrixStep (clus : Nat)
  | matrixRecordPush (clus : Nat)
  | huddleJoinHandled (k : Nat)
  | huddleArrivalHandled (k : Nat)
  | huddleLeaveHandled (k : Nat)
  | huddleDeparture (ctx : Nat) (thread : Nat)
  | hinfoHandled (k : Nat)
  | huddleNoticeArrival (slot : Nat)
  | warrantRequestHandled (slot : Nat)
  | errorStopCycle (ctx : Nat)
  | dumpStart (die : Nat)
  | dumpWriteDone (die : Nat)
  | energyAllowanceReached (ctx : Nat)
  | energyOverrun (slot : Nat)
  | powerWindowEnd (modulemW : Nat)
  | contextExpiry (ctx : Nat)
  | watchdogExpiry (ctx : Nat)
  | backgroundScrubRead (die : Nat) (stack : Nat) (bad : Option (Nat × Nat))
  | doorbellWidxWrite (ctx : Nat) (q : Nat)
  | ctrlResume (ctx : Nat) (q : Nat)
  | ctrlSkip (ctx : Nat) (q : Nat)
  | ctrlAbort (ctx : Nat) (q : Nat)
  | packetFetch (ctx : Nat) (q : Nat)
  | launchStart (ctx : Nat) (q : Nat)
  | launchComplete (ctx : Nat)
  | fencePacketComplete (ctx : Nat) (q : Nat)
  | sliceEnd (ctx : Nat)
  | slicePlacement (ctx : Nat)
  | stopDecision (root : Nat)
  | stopHalt (root : Nat)
  | flushToken (root : Nat)
  | stateSaveDone (root : Nat)
  | restoreDone (root : Nat)
  | resumeRejoin (root : Nat)
  | claimAtHome (claim : ClaimMsg) (answer : Nat)
  | claimRetry (serial : BitVec 128)
  | claimTimeout (serial : BitVec 128)
  | spentAtHome (serial : BitVec 128)
  | powerOn
  | ident (h : PortHdr)
  | commission (h : PortHdr) (rec : CommissionRecord) (sig : List (BitVec 8))
  | beacon (h : PortHdr) (image : List (BitVec 8))
  | nonce (h : PortHdr)
  | nonceExpiry (node : Nat)
  | present (h : PortHdr) (image : List (BitVec 8)) (obj : List (BitVec 8)) (sig : List (BitVec 8))
  | redeem (h : PortHdr) (receipt : List (BitVec 8)) (sig : List (BitVec 8))
  | setwin (h : PortHdr) (w : BitVec 1) (base : BitVec 64) (len : BitVec 64)
  | defq (h : PortHdr) (q : Nat) (qd : QueueDef)
  | lock (h : PortHdr)
  | start (h : PortHdr)
  | launch (h : PortHdr) (pkt : List (BitVec 8))
  | read (h : PortHdr) (unit : Nat)
  | surr (h : PortHdr)
  | revoke (h : PortHdr) (serial : BitVec 128) (sig : List (BitVec 8))
  | dbgcfg (h : PortHdr) (clus : Nat) (cfg : DbgConfig)
  | dbgrel (h : PortHdr) (clus : Nat)
  | dbgres (h : PortHdr)
  | query (h : PortHdr) (item : Nat)
  | qctrl (h : PortHdr) (answer : BitVec 2)
  | linkTraining (link : Nat) (node : Nat)
  | flitReceive (link : Nat) (flit : Flit)
  | linkDown (link : Nat)
  | flitSend (link : Nat) (vc : BitVec 4)
  | systemAtomicReply (slot : Nat) (refused : Bool)
  | inboundAccess (node : Nat) (ctx : Nat) (off : Nat) (len : Nat) (data : Option (List (BitVec 8)))
  | traceWordMove (slot : Nat)
  | debugSample (clus : Nat)
  | captureFreeze (clus : Nat)
  | crossTriggerArrival (clus : Nat)
  | illegalWord (word : BitVec 32) (reason : Nat)
  | instructionFetchTrap (cause : TrapCause) (tval : BitVec 64)
  | debugResumeCycle (ctx : Nat)
  | captureCycleMatch (clus : Nat)
deriving DecidableEq, Repr

end Sys2Proof
end

