-- ==== Sys2Proof/Machine/Encoding.lean ====
section
/-! DEFINITION. The codes of the encoded fields, the roles of the register fields, and the checks that
are made on a decoded word (spec/04_formats_and_opcode_map.md, Table 4-22). They stand under Machine/ so
that a repair can mend them. -/

namespace Sys2Proof

/-- Bits [hi:lo] of a word, as an unsigned number (R5). -/
def fld (w hi lo : Nat) : Nat := w / 2 ^ lo % 2 ^ (hi + 1 - lo)

/-- The code of a Scope (Table 4-16). -/
def Scope.code : Scope → Nat
  | .core => 0
  | .clus => 1
  | .die => 2
  | .dev => 3
  | .sys => 4

/-- The Scope of a code; none for a reserved code (Table 4-16). -/
def Scope.ofCode : Nat → Option Scope
  | 0 => some .core
  | 1 => some .clus
  | 2 => some .die
  | 3 => some .dev
  | 4 => some .sys
  | _ => none

/-- The code of a FenceKind (R64). -/
def FenceKind.code : FenceKind → Nat
  | .full => 0
  | .acq => 1
  | .rel => 2

/-- The FenceKind of a code; none for a reserved code (R64). -/
def FenceKind.ofCode : Nat → Option FenceKind
  | 0 => some .full
  | 1 => some .acq
  | 2 => some .rel
  | _ => none

/-- The code of a Kind (R65). -/
def Kind.code : Kind → Nat
  | .rlx => 0
  | .acq => 1
  | .rel => 2

/-- The Kind of a code; none for a reserved code (R65). -/
def Kind.ofCode : Nat → Option Kind
  | 0 => some .rlx
  | 1 => some .acq
  | 2 => some .rel
  | _ => none

/-- The code of a IType (R70). -/
def IType.code : IType → Nat
  | .i8 => 0
  | .i16 => 1
  | .i32 => 2
  | .i64 => 3
  | .n8 => 4
  | .n16 => 5
  | .n32 => 6
  | .n64 => 7

/-- The IType of a code; none for a reserved code (R70). -/
def IType.ofCode : Nat → Option IType
  | 0 => some .i8
  | 1 => some .i16
  | 2 => some .i32
  | 3 => some .i64
  | 4 => some .n8
  | 5 => some .n16
  | 6 => some .n32
  | 7 => some .n64
  | _ => none

/-- The code of a WType (R70). -/
def WType.code : WType → Nat
  | .i4 => 0
  | .i8 => 1
  | .i16 => 2
  | .i32 => 3
  | .n4 => 4
  | .n8 => 5
  | .n16 => 6
  | .n32 => 7

/-- The WType of a code; none for a reserved code (R70). -/
def WType.ofCode : Nat → Option WType
  | 0 => some .i4
  | 1 => some .i8
  | 2 => some .i16
  | 3 => some .i32
  | 4 => some .n4
  | 5 => some .n8
  | 6 => some .n16
  | 7 => some .n32
  | _ => none

/-- The code of a FFmt (R71). -/
def FFmt.code : FFmt → Nat
  | .f16 => 0
  | .bf16 => 1
  | .f32 => 2
  | .f64 => 3

/-- The FFmt of a code; none for a reserved code (R71). -/
def FFmt.ofCode : Nat → Option FFmt
  | 0 => some .f16
  | 1 => some .bf16
  | 2 => some .f32
  | 3 => some .f64
  | _ => none

/-- The code of a Rnd (R71). -/
def Rnd.code : Rnd → Nat
  | .rne => 0
  | .rtz => 1
  | .rdn => 2
  | .rup => 3
  | .rna => 4

/-- The Rnd of a code; none for a reserved code (R71). -/
def Rnd.ofCode : Nat → Option Rnd
  | 0 => some .rne
  | 1 => some .rtz
  | 2 => some .rdn
  | 3 => some .rup
  | 4 => some .rna
  | _ => none

/-- The code of a EType (Table 4-20). -/
def EType.code : EType → Nat
  | .i8 => 0
  | .i16 => 1
  | .i32 => 2
  | .i64 => 3
  | .n8 => 4
  | .n16 => 5
  | .n32 => 6
  | .n64 => 7
  | .f16 => 8
  | .bf16 => 9
  | .f32 => 10
  | .f64 => 11
  | .e4m3 => 12
  | .e5m2 => 13

/-- The EType of a code; none for a reserved code (Table 4-20). -/
def EType.ofCode : Nat → Option EType
  | 0 => some .i8
  | 1 => some .i16
  | 2 => some .i32
  | 3 => some .i64
  | 4 => some .n8
  | 5 => some .n16
  | 6 => some .n32
  | 7 => some .n64
  | 8 => some .f16
  | 9 => some .bf16
  | 10 => some .f32
  | 11 => some .f64
  | 12 => some .e4m3
  | 13 => some .e5m2
  | _ => none

/-- The code of a GqFmt (R72). -/
def GqFmt.code : GqFmt → Nat
  | .gq2 => 0
  | .gq4 => 1
  | .gq8 => 2

/-- The GqFmt of a code; none for a reserved code (R72). -/
def GqFmt.ofCode : Nat → Option GqFmt
  | 0 => some .gq2
  | 1 => some .gq4
  | 2 => some .gq8
  | _ => none

/-- The code of a MType (R66). -/
def MType.code : MType → Nat
  | .gq2 => 0
  | .gq4 => 1
  | .gq8 => 2
  | .e4m3 => 3
  | .e5m2 => 4
  | .bf16 => 5
  | .f16 => 6
  | .f32 => 7

/-- The MType of a code; none for a reserved code (R66). -/
def MType.ofCode : Nat → Option MType
  | 0 => some .gq2
  | 1 => some .gq4
  | 2 => some .gq8
  | 3 => some .e4m3
  | 4 => some .e5m2
  | 5 => some .bf16
  | 6 => some .f16
  | 7 => some .f32
  | _ => none

/-- The code of a CType (R66). -/
def CType.code : CType → Nat
  | .i32 => 0
  | .i64 => 1
  | .f32 => 2
  | .f64 => 3
  | .bf16 => 4
  | .f16 => 5

/-- The CType of a code; none for a reserved code (R66). -/
def CType.ofCode : Nat → Option CType
  | 0 => some .i32
  | 1 => some .i64
  | 2 => some .f32
  | 3 => some .f64
  | 4 => some .bf16
  | 5 => some .f16
  | _ => none

/-- The code of a CollSel (Table 4-15). -/
def CollSel.code : CollSel → Nat
  | .ar => 0
  | .rs => 1
  | .ag => 2

/-- The CollSel of a code; none for a reserved code (Table 4-15). -/
def CollSel.ofCode : Nat → Option CollSel
  | 0 => some .ar
  | 1 => some .rs
  | 2 => some .ag
  | _ => none

/-- The code of a VoteSel (Table 4-14). -/
def VoteSel.code : VoteSel → Nat
  | .any => 0
  | .all => 1
  | .eq => 2

/-- The VoteSel of a code; none for a reserved code (Table 4-14). -/
def VoteSel.ofCode : Nat → Option VoteSel
  | 0 => some .any
  | 1 => some .all
  | 2 => some .eq
  | _ => none

/-- The code of a RedSel (Table 4-14). -/
def RedSel.code : RedSel → Nat
  | .addI64 => 0
  | .minI64 => 1
  | .maxI64 => 2
  | .addF32 => 3

/-- The RedSel of a code; none for a reserved code (Table 4-14). -/
def RedSel.ofCode : Nat → Option RedSel
  | 0 => some .addI64
  | 1 => some .minI64
  | 2 => some .maxI64
  | 3 => some .addF32
  | _ => none

/-- The code of a VCVTGQ source (R191). -/
def GqSrc.code : GqSrc → Nat
  | .f16 => 8
  | .bf16 => 9
  | .f32 => 10

/-- The VCVTGQ source of a code (R191). -/
def GqSrc.ofCode : Nat → Option GqSrc
  | 8 => some .f16
  | 9 => some .bf16
  | 10 => some .f32
  | _ => none

/-- The code of the rounding field of major 0x25 (R72). -/
def DynRnd.code : DynRnd → Nat
  | none => 0
  | some r => r.code + 1

/-- The rounding field of a code (R72). -/
def DynRnd.ofCode : Nat → Option DynRnd
  | 0 => some none
  | n + 1 => (Rnd.ofCode n).map some

/-- A one-bit option. -/
def boolCode (b : Bool) : Nat := if b then 1 else 0

/-- The ordering kind of a reduction: .rlx or .rel; .acq and 3 are refused (R65). -/
def relCode (b : Bool) : Nat := if b then 2 else 0

/-- The ordering kind of a reduction, from its code (R65). -/
def relOf : Nat → Option Bool
  | 0 => some false
  | 2 => some true
  | _ => none

/-- The bits that a mask field with type[10] adds to a floating word (R71). -/
def RMode.code : RMode → Nat
  | .masked m => m.toNat
  | .static r => 1024 + r.code

/-- The mask field of a floating word (R71). -/
def RMode.ofWord (w : Nat) : Option RMode :=
  if fld w 10 10 = 0 then some (.masked (BitVec.ofNat 3 (fld w 2 0)))
  else (Rnd.ofCode (fld w 2 0)).map .static

/-- Width in bits of an integer element type (Table 9-1). -/
def IType.width : IType → Nat
  | .i8 | .n8 => 8
  | .i16 | .n16 => 16
  | .i32 | .n32 => 32
  | .i64 | .n64 => 64

/-- Width in bits of a type of major 0x23 (Table 9-1). -/
def WType.width : WType → Nat
  | .i4 | .n4 => 4
  | .i8 | .n8 => 8
  | .i16 | .n16 => 16
  | .i32 | .n32 => 32

/-- Width in bits of an element type of Table 4-20. -/
def EType.width : EType → Nat
  | .i8 | .n8 | .e4m3 | .e5m2 => 8
  | .i16 | .n16 | .f16 | .bf16 => 16
  | .i32 | .n32 | .f32 => 32
  | .i64 | .n64 | .f64 => 64

/-- Is the type an integer type (Table 0-2)? -/
def EType.isInt : EType → Bool
  | .i8 | .i16 | .i32 | .i64 | .n8 | .n16 | .n32 | .n64 => true
  | _ => false

/-- Is the type one of the FP8 formats (Table 0-2)? -/
def EType.isFp8 : EType → Bool
  | .e4m3 | .e5m2 => true
  | _ => false

/-- The scalar fields an instruction reads, in the order it reads them (R45, R58, R60). -/
def Instr.scalarReads : Instr → List Reg5
  | .add _ a b => [a, b]
  | .sub _ a b => [a, b]
  | .and _ a b => [a, b]
  | .or _ a b => [a, b]
  | .xor _ a b => [a, b]
  | .andn _ a b => [a, b]
  | .sll _ a b => [a, b]
  | .srl _ a b => [a, b]
  | .sra _ a b => [a, b]
  | .rol _ a b => [a, b]
  | .min _ a b => [a, b]
  | .max _ a b => [a, b]
  | .minu _ a b => [a, b]
  | .maxu _ a b => [a, b]
  | .slt _ a b => [a, b]
  | .sltu _ a b => [a, b]
  | .seq _ a b => [a, b]
  | .sel _ a b => [a, b]
  | .addi _ a _ => [a]
  | .andi _ a _ => [a]
  | .ori _ a _ => [a]
  | .xori _ a _ => [a]
  | .slli _ a _ => [a]
  | .srli _ a _ => [a]
  | .srai _ a _ => [a]
  | .roli _ a _ => [a]
  | .slti _ a _ => [a]
  | .sltiu _ a _ => [a]
  | .seqi _ a _ => [a]
  | .lui _ _ => []
  | .auipc _ _ => []
  | .mul _ a b => [a, b]
  | .mulh _ a b => [a, b]
  | .mulhu _ a b => [a, b]
  | .div _ a b => [a, b]
  | .divu _ a b => [a, b]
  | .rem _ a b => [a, b]
  | .remu _ a b => [a, b]
  | .clz _ a => [a]
  | .ctz _ a => [a]
  | .popc _ a => [a]
  | .brev _ a => [a]
  | .bswap _ a => [a]
  | .bfx _ a b => [a, b]
  | .bfi _ a b => [a, b]
  | .lb _ a _ => [a]
  | .lbu _ a _ => [a]
  | .lh _ a _ => [a]
  | .lhu _ a _ => [a]
  | .lw _ a _ => [a]
  | .lwu _ a _ => [a]
  | .ld _ a _ => [a]
  | .sb b a _ => [a, b]
  | .sh b a _ => [a, b]
  | .sw b a _ => [a, b]
  | .sd b a _ => [a, b]
  | .ldo _ a _ _ _ => [a]
  | .sto b a _ _ _ => [a, b]
  | .beq a b _ => [a, b]
  | .bne a b _ => [a, b]
  | .blt a b _ => [a, b]
  | .bge a b _ => [a, b]
  | .bltu a b _ => [a, b]
  | .bgeu a b _ => [a, b]
  | .jal _ _ => []
  | .jalr _ a _ => [a]
  | .csrr _ _ => []
  | .csrw a _ => [a]
  | .csrs a _ => [a]
  | .csrc a _ => [a]
  | .trap a _ => [a]
  | .eret => []
  | .ucall _ => []
  | .brk _ => []
  | .fence _ _ => []
  | .iflush => []
  | .winset a _ => [a]
  | .ldfe _ a _ => [a]
  | .ldfeClr _ a _ => [a]
  | .stfe b a _ => [a, b]
  | .feq _ a _ => [a]
  | .marm a _ => [a]
  | .mclr => []
  | .mwait => []
  | .yield => []
  | .halt => []
  | .fork a b => [a, b]
  | .rfork d a b => [a, b, d]
  | .join a => [a]
  | .taskend => []
  | .aadd _ a b _ _ _ _ => [a, b]
  | .aand _ a b _ _ _ _ => [a, b]
  | .aor _ a b _ _ _ _ => [a, b]
  | .axor _ a b _ _ _ _ => [a, b]
  | .amin _ a b _ _ _ _ => [a, b]
  | .amax _ a b _ _ _ _ => [a, b]
  | .aminu _ a b _ _ _ _ => [a, b]
  | .amaxu _ a b _ _ _ _ => [a, b]
  | .axchg _ a b _ _ _ _ => [a, b]
  | .acas _ a b _ _ _ => [a, b]
  | .migr a => [a]
  | .retn => []
  | .radd a b _ _ _ _ => [a, b]
  | .rand a b _ _ _ _ => [a, b]
  | .ror a b _ _ _ _ => [a, b]
  | .rxor a b _ _ _ _ => [a, b]
  | .rmin a b _ _ _ _ => [a, b]
  | .rmax a b _ _ _ _ => [a, b]
  | .rfadd a b _ _ _ _ => [a, b]
  | .hjoin _ a _ _ _ => [a]
  | .hleave _ => []
  | .hbar _ => []
  | .harrv _ => []
  | .hwait _ => []
  | .hvote _ a _ _ => [a]
  | .hred _ a _ _ => [a]
  | .hinfo _ _ => []
  | .wpres _ a => [a]
  | .wsplit _ a b => [a, b]
  | .wdeleg _ a b => [a, b]
  | .wsurr _ a => [a]
  | .wreset _ a => [a]
  | .wqry _ a b => [a, b]
  | .cpy d a b _ => [a, b, d]
  | .cpys d a b _ => [a, b, d]
  | .cpwait a _ => [a]
  | .chwm a b _ => [a, b]
  | .halo a b => [a, b]
  | .halowait a b => [a, b]
  | .mcast d a b => [a, b, d]
  | .gath d a b _ => [a, b, d]
  | .coll d a b _ _ => [a, b, d]
  | .qstat _ => []
  | .mxop a _ _ => [a]
  | .mxzero a => [a]
  | .mxst a _ _ => [a]
  | .mxld a => [a]
  | .mxring a b => [a, b]
  | .mxadv a => [a]
  | .mxwgt a => [a]
  | .cntr _ _ => []
  | .time _ _ => []
  | .vld _ a _ _ => [a]
  | .vlds _ a b _ _ => [a, b]
  | .vldx _ a _ _ _ => [a]
  | .vst _ a _ _ => [a]
  | .vsts _ a b _ _ => [a, b]
  | .vstx _ a _ _ _ => [a]
  | .vadd _ _ _ _ _ => []
  | .vsub _ _ _ _ _ => []
  | .vadds _ _ _ _ _ => []
  | .vsubs _ _ _ _ _ => []
  | .vmul _ _ _ _ _ => []
  | .vmulh _ _ _ _ _ => []
  | .vmin _ _ _ _ _ => []
  | .vmax _ _ _ _ _ => []
  | .vabs _ _ _ _ => []
  | .vneg _ _ _ _ => []
  | .vand _ _ _ _ _ => []
  | .vor _ _ _ _ _ => []
  | .vxor _ _ _ _ _ => []
  | .vandn _ _ _ _ _ => []
  | .vsll _ _ _ _ _ => []
  | .vsrl _ _ _ _ _ => []
  | .vsra _ _ _ _ _ => []
  | .vsel _ _ _ _ _ => []
  | .vcmpEq _ _ _ _ _ => []
  | .vcmpNe _ _ _ _ _ => []
  | .vcmpLt _ _ _ _ _ => []
  | .vcmpLe _ _ _ _ _ => []
  | .vcmpGt _ _ _ _ _ => []
  | .vcmpGe _ _ _ _ _ => []
  | .vwadd _ _ _ _ _ => []
  | .vwsub _ _ _ _ _ => []
  | .vwmul _ _ _ _ _ => []
  | .vdot2 _ _ _ _ _ _ => []
  | .vdot4 _ _ _ _ _ _ => []
  | .vnarrow _ _ _ _ _ => []
  | .vfadd _ _ _ _ _ => []
  | .vfsub _ _ _ _ _ => []
  | .vfmul _ _ _ _ _ => []
  | .vfdiv _ _ _ _ _ => []
  | .vfma _ _ _ _ _ => []
  | .vfms _ _ _ _ _ => []
  | .vfnma _ _ _ _ _ => []
  | .vfnms _ _ _ _ _ => []
  | .vfmin _ _ _ _ _ => []
  | .vfmax _ _ _ _ _ => []
  | .vfabs _ _ _ _ => []
  | .vfneg _ _ _ _ => []
  | .vfsqrt _ _ _ _ => []
  | .vfrcp _ _ _ _ => []
  | .vfrsq _ _ _ _ => []
  | .vfclass _ _ _ _ => []
  | .vfcmpEq _ _ _ _ _ => []
  | .vfcmpNe _ _ _ _ _ => []
  | .vfcmpLt _ _ _ _ _ => []
  | .vfcmpLe _ _ _ _ _ => []
  | .vfcmpGt _ _ _ _ _ => []
  | .vfcmpGe _ _ _ _ _ => []
  | .vcvt _ _ _ _ _ _ _ => []
  | .vcvtgq _ _ _ _ _ _ _ => []
  | .vperm _ _ _ _ _ => []
  | .vshuf _ _ _ _ _ => []
  | .vzip _ _ _ _ _ => []
  | .vunzip _ _ _ _ _ => []
  | .vbcast _ a _ _ => [a]
  | .vslide _ _ b _ _ => [b]
  | .vredi _ _ _ _ => []
  | .vmvs _ _ b _ _ => [b]
  | .vspl _ a b _ _ => [a, b]
  | .vfreds _ _ b _ _ => [b]
  | .mand _ _ _ => []
  | .mor _ _ _ => []
  | .mxor _ _ _ => []
  | .mnot _ _ => []
  | .mpopc _ _ => []
  | .mfirst _ _ => []
  | .mmov _ _ => []
  | .pori2 _ _ _ _ _ _ => []
  | .pori3 _ _ _ _ _ _ => []
  | .pincir _ _ _ _ _ _ => []
  | .pinsph _ _ _ _ _ _ => []
  | .psegx _ _ _ _ _ _ => []
  | .rfetch _ a => [a]
  | .dispatch _ a b => [a, b]
  | .sigwait _ => []
  | .keyld _ a b => [a, b]
  | .threadRejoin _ => []
  | .yieldPauseEnd _ => []
  | .icacheLineFill _ => []
  | .offCoreLoadReply _ => []
  | .storeBufferDrain _ => []
  | .writeReachesHome _ => []
  | .feRequestAtBank _ => []
  | .bankWakeupDone _ => []
  | .translationWalkEnd _ => []
  | .atomicAtHome _ => []
  | .atomicReplyArrival _ => []
  | .reductionAtHome _ => []
  | .reductionAckArrival _ => []
  | .joinDecrementAtHome _ => []
  | .migrBlockAccept _ => []
  | .migrBlockReturn _ => []
  | .dequeSpillDone _ => []
  | .dequeRefill _ _ => []
  | .idleSlotPop _ => []
  | .stealRequest _ _ => []
  | .stealAnswer _ _ => []
  | .stealRetryTimer _ _ => []
  | .rforkSurveyDone _ => []
  | .caddieTakeRequest _ => []
  | .copyGranuleLand _ => []
  | .copyComplete _ _ => []
  | .haloDirectionArrival _ _ => []
  | .mcastDelivery _ => []
  | .gatherComplete _ _ => []
  | .collContributionArrival _ _ => []
  | .collComplete _ => []
  | .messageLeaveSendQueue _ => []
  | .messageDelivery _ => []
  | .mxringTakeEffect _ => []
  | .mxadvReachUnit _ => []
  | .mxwgtTakeEffect _ => []
  | .matrixStep _ => []
  | .matrixRecordPush _ => []
  | .huddleJoinHandled _ => []
  | .huddleArrivalHandled _ => []
  | .huddleLeaveHandled _ => []
  | .huddleDeparture _ _ => []
  | .hinfoHandled _ => []
  | .huddleNoticeArrival _ => []
  | .warrantRequestHandled _ => []
  | .errorStopCycle _ => []
  | .dumpStart _ => []
  | .dumpWriteDone _ => []
  | .energyAllowanceReached _ => []
  | .energyOverrun _ => []
  | .powerWindowEnd _ => []
  | .contextExpiry _ => []
  | .watchdogExpiry _ => []
  | .backgroundScrubRead _ _ _ => []
  | .doorbellWidxWrite _ _ => []
  | .ctrlResume _ _ => []
  | .ctrlSkip _ _ => []
  | .ctrlAbort _ _ => []
  | .packetFetch _ _ => []
  | .launchStart _ _ => []
  | .launchComplete _ => []
  | .fencePacketComplete _ _ => []
  | .sliceEnd _ => []
  | .slicePlacement _ => []
  | .stopDecision _ => []
  | .stopHalt _ => []
  | .flushToken _ => []
  | .stateSaveDone _ => []
  | .restoreDone _ => []
  | .resumeRejoin _ => []
  | .claimAtHome _ _ => []
  | .claimRetry _ => []
  | .claimTimeout _ => []
  | .spentAtHome _ => []
  | .powerOn => []
  | .ident _ => []
  | .commission _ _ _ => []
  | .beacon _ _ => []
  | .nonce _ => []
  | .nonceExpiry _ => []
  | .present _ _ _ _ => []
  | .redeem _ _ _ => []
  | .setwin _ _ _ _ => []
  | .defq _ _ _ => []
  | .lock _ => []
  | .start _ => []
  | .launch _ _ => []
  | .read _ _ => []
  | .surr _ => []
  | .revoke _ _ _ => []
  | .dbgcfg _ _ _ => []
  | .dbgrel _ _ => []
  | .dbgres _ => []
  | .query _ _ => []
  | .qctrl _ _ => []
  | .linkTraining _ _ => []
  | .flitReceive _ _ => []
  | .linkDown _ => []
  | .flitSend _ _ => []
  | .systemAtomicReply _ _ => []
  | .inboundAccess _ _ _ _ _ => []
  | .traceWordMove _ => []
  | .debugSample _ => []
  | .captureFreeze _ => []
  | .crossTriggerArrival _ => []
  | .illegalWord _ _ => []
  | .instructionFetchTrap _ _ => []
  | .debugResumeCycle _ => []
  | .captureCycleMatch _ => []

/-- The scalar fields an instruction writes (R58). -/
def Instr.scalarWrites : Instr → List Reg5
  | .add d _ _ => [d]
  | .sub d _ _ => [d]
  | .and d _ _ => [d]
  | .or d _ _ => [d]
  | .xor d _ _ => [d]
  | .andn d _ _ => [d]
  | .sll d _ _ => [d]
  | .srl d _ _ => [d]
  | .sra d _ _ => [d]
  | .rol d _ _ => [d]
  | .min d _ _ => [d]
  | .max d _ _ => [d]
  | .minu d _ _ => [d]
  | .maxu d _ _ => [d]
  | .slt d _ _ => [d]
  | .sltu d _ _ => [d]
  | .seq d _ _ => [d]
  | .sel _ _ _ => []
  | .addi d _ _ => [d]
  | .andi d _ _ => [d]
  | .ori d _ _ => [d]
  | .xori d _ _ => [d]
  | .slli d _ _ => [d]
  | .srli d _ _ => [d]
  | .srai d _ _ => [d]
  | .roli d _ _ => [d]
  | .slti d _ _ => [d]
  | .sltiu d _ _ => [d]
  | .seqi d _ _ => [d]
  | .lui d _ => [d]
  | .auipc d _ => [d]
  | .mul d _ _ => [d]
  | .mulh d _ _ => [d]
  | .mulhu d _ _ => [d]
  | .div d _ _ => [d]
  | .divu d _ _ => [d]
  | .rem d _ _ => [d]
  | .remu d _ _ => [d]
  | .clz d _ => [d]
  | .ctz d _ => [d]
  | .popc d _ => [d]
  | .brev d _ => [d]
  | .bswap d _ => [d]
  | .bfx d _ _ => [d]
  | .bfi _ _ _ => []
  | .lb d _ _ => [d]
  | .lbu d _ _ => [d]
  | .lh d _ _ => [d]
  | .lhu d _ _ => [d]
  | .lw d _ _ => [d]
  | .lwu d _ _ => [d]
  | .ld d _ _ => [d]
  | .sb _ _ _ => []
  | .sh _ _ _ => []
  | .sw _ _ _ => []
  | .sd _ _ _ => []
  | .ldo d _ _ _ _ => [d]
  | .sto _ _ _ _ _ => []
  | .beq _ _ _ => []
  | .bne _ _ _ => []
  | .blt _ _ _ => []
  | .bge _ _ _ => []
  | .bltu _ _ _ => []
  | .bgeu _ _ _ => []
  | .jal d _ => [d]
  | .jalr d _ _ => [d]
  | .csrr d _ => [d]
  | .csrw _ _ => []
  | .csrs _ _ => []
  | .csrc _ _ => []
  | .trap _ _ => []
  | .eret => []
  | .ucall _ => []
  | .brk _ => []
  | .fence _ _ => []
  | .iflush => []
  | .winset _ _ => []
  | .ldfe d _ _ => [d]
  | .ldfeClr d _ _ => [d]
  | .stfe _ _ _ => []
  | .feq d _ _ => [d]
  | .marm _ _ => []
  | .mclr => []
  | .mwait => []
  | .yield => []
  | .halt => []
  | .fork _ _ => []
  | .rfork _ _ _ => []
  | .join _ => []
  | .taskend => []
  | .aadd d _ _ _ _ _ _ => [d]
  | .aand d _ _ _ _ _ _ => [d]
  | .aor d _ _ _ _ _ _ => [d]
  | .axor d _ _ _ _ _ _ => [d]
  | .amin d _ _ _ _ _ _ => [d]
  | .amax d _ _ _ _ _ _ => [d]
  | .aminu d _ _ _ _ _ _ => [d]
  | .amaxu d _ _ _ _ _ _ => [d]
  | .axchg d _ _ _ _ _ _ => [d]
  | .acas _ _ _ _ _ _ => []
  | .migr _ => []
  | .retn => []
  | .radd _ _ _ _ _ _ => []
  | .rand _ _ _ _ _ _ => []
  | .ror _ _ _ _ _ _ => []
  | .rxor _ _ _ _ _ _ => []
  | .rmin _ _ _ _ _ _ => []
  | .rmax _ _ _ _ _ _ => []
  | .rfadd _ _ _ _ _ _ => []
  | .hjoin d _ _ _ _ => [d]
  | .hleave _ => []
  | .hbar _ => []
  | .harrv _ => []
  | .hwait _ => []
  | .hvote d _ _ _ => [d]
  | .hred d _ _ _ => [d]
  | .hinfo d _ => [d]
  | .wpres d _ => [d]
  | .wsplit d _ _ => [d]
  | .wdeleg d _ _ => [d]
  | .wsurr d _ => [d]
  | .wreset d _ => [d]
  | .wqry d _ _ => [d]
  | .cpy _ _ _ _ => []
  | .cpys _ _ _ _ => []
  | .cpwait _ _ => []
  | .chwm _ _ _ => []
  | .halo _ _ => []
  | .halowait _ _ => []
  | .mcast _ _ _ => []
  | .gath _ _ _ _ => []
  | .coll _ _ _ _ _ => []
  | .qstat d => [d]
  | .mxop _ _ _ => []
  | .mxzero _ => []
  | .mxst _ _ _ => []
  | .mxld _ => []
  | .mxring _ _ => []
  | .mxadv _ => []
  | .mxwgt _ => []
  | .cntr d _ => [d]
  | .time d _ => [d]
  | .vld _ _ _ _ => []
  | .vlds _ _ _ _ _ => []
  | .vldx _ _ _ _ _ => []
  | .vst _ _ _ _ => []
  | .vsts _ _ _ _ _ => []
  | .vstx _ _ _ _ _ => []
  | .vadd _ _ _ _ _ => []
  | .vsub _ _ _ _ _ => []
  | .vadds _ _ _ _ _ => []
  | .vsubs _ _ _ _ _ => []
  | .vmul _ _ _ _ _ => []
  | .vmulh _ _ _ _ _ => []
  | .vmin _ _ _ _ _ => []
  | .vmax _ _ _ _ _ => []
  | .vabs _ _ _ _ => []
  | .vneg _ _ _ _ => []
  | .vand _ _ _ _ _ => []
  | .vor _ _ _ _ _ => []
  | .vxor _ _ _ _ _ => []
  | .vandn _ _ _ _ _ => []
  | .vsll _ _ _ _ _ => []
  | .vsrl _ _ _ _ _ => []
  | .vsra _ _ _ _ _ => []
  | .vsel _ _ _ _ _ => []
  | .vcmpEq _ _ _ _ _ => []
  | .vcmpNe _ _ _ _ _ => []
  | .vcmpLt _ _ _ _ _ => []
  | .vcmpLe _ _ _ _ _ => []
  | .vcmpGt _ _ _ _ _ => []
  | .vcmpGe _ _ _ _ _ => []
  | .vwadd _ _ _ _ _ => []
  | .vwsub _ _ _ _ _ => []
  | .vwmul _ _ _ _ _ => []
  | .vdot2 _ _ _ _ _ _ => []
  | .vdot4 _ _ _ _ _ _ => []
  | .vnarrow _ _ _ _ _ => []
  | .vfadd _ _ _ _ _ => []
  | .vfsub _ _ _ _ _ => []
  | .vfmul _ _ _ _ _ => []
  | .vfdiv _ _ _ _ _ => []
  | .vfma _ _ _ _ _ => []
  | .vfms _ _ _ _ _ => []
  | .vfnma _ _ _ _ _ => []
  | .vfnms _ _ _ _ _ => []
  | .vfmin _ _ _ _ _ => []
  | .vfmax _ _ _ _ _ => []
  | .vfabs _ _ _ _ => []
  | .vfneg _ _ _ _ => []
  | .vfsqrt _ _ _ _ => []
  | .vfrcp _ _ _ _ => []
  | .vfrsq _ _ _ _ => []
  | .vfclass _ _ _ _ => []
  | .vfcmpEq _ _ _ _ _ => []
  | .vfcmpNe _ _ _ _ _ => []
  | .vfcmpLt _ _ _ _ _ => []
  | .vfcmpLe _ _ _ _ _ => []
  | .vfcmpGt _ _ _ _ _ => []
  | .vfcmpGe _ _ _ _ _ => []
  | .vcvt _ _ _ _ _ _ _ => []
  | .vcvtgq _ _ _ _ _ _ _ => []
  | .vperm _ _ _ _ _ => []
  | .vshuf _ _ _ _ _ => []
  | .vzip _ _ _ _ _ => []
  | .vunzip _ _ _ _ _ => []
  | .vbcast _ _ _ _ => []
  | .vslide _ _ _ _ _ => []
  | .vredi d _ _ _ => [d]
  | .vmvs d _ _ _ _ => [d]
  | .vspl _ _ _ _ _ => []
  | .vfreds d _ _ _ _ => [d]
  | .mand _ _ _ => []
  | .mor _ _ _ => []
  | .mxor _ _ _ => []
  | .mnot _ _ => []
  | .mpopc d _ => [d]
  | .mfirst d _ => [d]
  | .mmov _ _ => []
  | .pori2 _ _ _ _ _ _ => []
  | .pori3 _ _ _ _ _ _ => []
  | .pincir _ _ _ _ _ _ => []
  | .pinsph _ _ _ _ _ _ => []
  | .psegx _ _ _ _ _ _ => []
  | .rfetch d _ => [d]
  | .dispatch d _ _ => [d]
  | .sigwait d => [d]
  | .keyld d _ _ => [d]
  | .threadRejoin _ => []
  | .yieldPauseEnd _ => []
  | .icacheLineFill _ => []
  | .offCoreLoadReply _ => []
  | .storeBufferDrain _ => []
  | .writeReachesHome _ => []
  | .feRequestAtBank _ => []
  | .bankWakeupDone _ => []
  | .translationWalkEnd _ => []
  | .atomicAtHome _ => []
  | .atomicReplyArrival _ => []
  | .reductionAtHome _ => []
  | .reductionAckArrival _ => []
  | .joinDecrementAtHome _ => []
  | .migrBlockAccept _ => []
  | .migrBlockReturn _ => []
  | .dequeSpillDone _ => []
  | .dequeRefill _ _ => []
  | .idleSlotPop _ => []
  | .stealRequest _ _ => []
  | .stealAnswer _ _ => []
  | .stealRetryTimer _ _ => []
  | .rforkSurveyDone _ => []
  | .caddieTakeRequest _ => []
  | .copyGranuleLand _ => []
  | .copyComplete _ _ => []
  | .haloDirectionArrival _ _ => []
  | .mcastDelivery _ => []
  | .gatherComplete _ _ => []
  | .collContributionArrival _ _ => []
  | .collComplete _ => []
  | .messageLeaveSendQueue _ => []
  | .messageDelivery _ => []
  | .mxringTakeEffect _ => []
  | .mxadvReachUnit _ => []
  | .mxwgtTakeEffect _ => []
  | .matrixStep _ => []
  | .matrixRecordPush _ => []
  | .huddleJoinHandled _ => []
  | .huddleArrivalHandled _ => []
  | .huddleLeaveHandled _ => []
  | .huddleDeparture _ _ => []
  | .hinfoHandled _ => []
  | .huddleNoticeArrival _ => []
  | .warrantRequestHandled _ => []
  | .errorStopCycle _ => []
  | .dumpStart _ => []
  | .dumpWriteDone _ => []
  | .energyAllowanceReached _ => []
  | .energyOverrun _ => []
  | .powerWindowEnd _ => []
  | .contextExpiry _ => []
  | .watchdogExpiry _ => []
  | .backgroundScrubRead _ _ _ => []
  | .doorbellWidxWrite _ _ => []
  | .ctrlResume _ _ => []
  | .ctrlSkip _ _ => []
  | .ctrlAbort _ _ => []
  | .packetFetch _ _ => []
  | .launchStart _ _ => []
  | .launchComplete _ => []
  | .fencePacketComplete _ _ => []
  | .sliceEnd _ => []
  | .slicePlacement _ => []
  | .stopDecision _ => []
  | .stopHalt _ => []
  | .flushToken _ => []
  | .stateSaveDone _ => []
  | .restoreDone _ => []
  | .resumeRejoin _ => []
  | .claimAtHome _ _ => []
  | .claimRetry _ => []
  | .claimTimeout _ => []
  | .spentAtHome _ => []
  | .powerOn => []
  | .ident _ => []
  | .commission _ _ _ => []
  | .beacon _ _ => []
  | .nonce _ => []
  | .nonceExpiry _ => []
  | .present _ _ _ _ => []
  | .redeem _ _ _ => []
  | .setwin _ _ _ _ => []
  | .defq _ _ _ => []
  | .lock _ => []
  | .start _ => []
  | .launch _ _ => []
  | .read _ _ => []
  | .surr _ => []
  | .revoke _ _ _ => []
  | .dbgcfg _ _ _ => []
  | .dbgrel _ _ => []
  | .dbgres _ => []
  | .query _ _ => []
  | .qctrl _ _ => []
  | .linkTraining _ _ => []
  | .flitReceive _ _ => []
  | .linkDown _ => []
  | .flitSend _ _ => []
  | .systemAtomicReply _ _ => []
  | .inboundAccess _ _ _ _ _ => []
  | .traceWordMove _ => []
  | .debugSample _ => []
  | .captureFreeze _ => []
  | .crossTriggerArrival _ => []
  | .illegalWord _ _ => []
  | .instructionFetchTrap _ _ => []
  | .debugResumeCycle _ => []
  | .captureCycleMatch _ => []

/-- The scalar field an instruction both reads and writes (R58). -/
def Instr.scalarBoth : Instr → List Reg5
  | .add _ _ _ => []
  | .sub _ _ _ => []
  | .and _ _ _ => []
  | .or _ _ _ => []
  | .xor _ _ _ => []
  | .andn _ _ _ => []
  | .sll _ _ _ => []
  | .srl _ _ _ => []
  | .sra _ _ _ => []
  | .rol _ _ _ => []
  | .min _ _ _ => []
  | .max _ _ _ => []
  | .minu _ _ _ => []
  | .maxu _ _ _ => []
  | .slt _ _ _ => []
  | .sltu _ _ _ => []
  | .seq _ _ _ => []
  | .sel d _ _ => [d]
  | .addi _ _ _ => []
  | .andi _ _ _ => []
  | .ori _ _ _ => []
  | .xori _ _ _ => []
  | .slli _ _ _ => []
  | .srli _ _ _ => []
  | .srai _ _ _ => []
  | .roli _ _ _ => []
  | .slti _ _ _ => []
  | .sltiu _ _ _ => []
  | .seqi _ _ _ => []
  | .lui _ _ => []
  | .auipc _ _ => []
  | .mul _ _ _ => []
  | .mulh _ _ _ => []
  | .mulhu _ _ _ => []
  | .div _ _ _ => []
  | .divu _ _ _ => []
  | .rem _ _ _ => []
  | .remu _ _ _ => []
  | .clz _ _ => []
  | .ctz _ _ => []
  | .popc _ _ => []
  | .brev _ _ => []
  | .bswap _ _ => []
  | .bfx _ _ _ => []
  | .bfi d _ _ => [d]
  | .lb _ _ _ => []
  | .lbu _ _ _ => []
  | .lh _ _ _ => []
  | .lhu _ _ _ => []
  | .lw _ _ _ => []
  | .lwu _ _ _ => []
  | .ld _ _ _ => []
  | .sb _ _ _ => []
  | .sh _ _ _ => []
  | .sw _ _ _ => []
  | .sd _ _ _ => []
  | .ldo _ _ _ _ _ => []
  | .sto _ _ _ _ _ => []
  | .beq _ _ _ => []
  | .bne _ _ _ => []
  | .blt _ _ _ => []
  | .bge _ _ _ => []
  | .bltu _ _ _ => []
  | .bgeu _ _ _ => []
  | .jal _ _ => []
  | .jalr _ _ _ => []
  | .csrr _ _ => []
  | .csrw _ _ => []
  | .csrs _ _ => []
  | .csrc _ _ => []
  | .trap _ _ => []
  | .eret => []
  | .ucall _ => []
  | .brk _ => []
  | .fence _ _ => []
  | .iflush => []
  | .winset _ _ => []
  | .ldfe _ _ _ => []
  | .ldfeClr _ _ _ => []
  | .stfe _ _ _ => []
  | .feq _ _ _ => []
  | .marm _ _ => []
  | .mclr => []
  | .mwait => []
  | .yield => []
  | .halt => []
  | .fork _ _ => []
  | .rfork _ _ _ => []
  | .join _ => []
  | .taskend => []
  | .aadd _ _ _ _ _ _ _ => []
  | .aand _ _ _ _ _ _ _ => []
  | .aor _ _ _ _ _ _ _ => []
  | .axor _ _ _ _ _ _ _ => []
  | .amin _ _ _ _ _ _ _ => []
  | .amax _ _ _ _ _ _ _ => []
  | .aminu _ _ _ _ _ _ _ => []
  | .amaxu _ _ _ _ _ _ _ => []
  | .axchg _ _ _ _ _ _ _ => []
  | .acas d _ _ _ _ _ => [d]
  | .migr _ => []
  | .retn => []
  | .radd _ _ _ _ _ _ => []
  | .rand _ _ _ _ _ _ => []
  | .ror _ _ _ _ _ _ => []
  | .rxor _ _ _ _ _ _ => []
  | .rmin _ _ _ _ _ _ => []
  | .rmax _ _ _ _ _ _ => []
  | .rfadd _ _ _ _ _ _ => []
  | .hjoin _ _ _ _ _ => []
  | .hleave _ => []
  | .hbar _ => []
  | .harrv _ => []
  | .hwait _ => []
  | .hvote _ _ _ _ => []
  | .hred _ _ _ _ => []
  | .hinfo _ _ => []
  | .wpres _ _ => []
  | .wsplit _ _ _ => []
  | .wdeleg _ _ _ => []
  | .wsurr _ _ => []
  | .wreset _ _ => []
  | .wqry _ _ _ => []
  | .cpy _ _ _ _ => []
  | .cpys _ _ _ _ => []
  | .cpwait _ _ => []
  | .chwm _ _ _ => []
  | .halo _ _ => []
  | .halowait _ _ => []
  | .mcast _ _ _ => []
  | .gath _ _ _ _ => []
  | .coll _ _ _ _ _ => []
  | .qstat _ => []
  | .mxop _ _ _ => []
  | .mxzero _ => []
  | .mxst _ _ _ => []
  | .mxld _ => []
  | .mxring _ _ => []
  | .mxadv _ => []
  | .mxwgt _ => []
  | .cntr _ _ => []
  | .time _ _ => []
  | .vld _ _ _ _ => []
  | .vlds _ _ _ _ _ => []
  | .vldx _ _ _ _ _ => []
  | .vst _ _ _ _ => []
  | .vsts _ _ _ _ _ => []
  | .vstx _ _ _ _ _ => []
  | .vadd _ _ _ _ _ => []
  | .vsub _ _ _ _ _ => []
  | .vadds _ _ _ _ _ => []
  | .vsubs _ _ _ _ _ => []
  | .vmul _ _ _ _ _ => []
  | .vmulh _ _ _ _ _ => []
  | .vmin _ _ _ _ _ => []
  | .vmax _ _ _ _ _ => []
  | .vabs _ _ _ _ => []
  | .vneg _ _ _ _ => []
  | .vand _ _ _ _ _ => []
  | .vor _ _ _ _ _ => []
  | .vxor _ _ _ _ _ => []
  | .vandn _ _ _ _ _ => []
  | .vsll _ _ _ _ _ => []
  | .vsrl _ _ _ _ _ => []
  | .vsra _ _ _ _ _ => []
  | .vsel _ _ _ _ _ => []
  | .vcmpEq _ _ _ _ _ => []
  | .vcmpNe _ _ _ _ _ => []
  | .vcmpLt _ _ _ _ _ => []
  | .vcmpLe _ _ _ _ _ => []
  | .vcmpGt _ _ _ _ _ => []
  | .vcmpGe _ _ _ _ _ => []
  | .vwadd _ _ _ _ _ => []
  | .vwsub _ _ _ _ _ => []
  | .vwmul _ _ _ _ _ => []
  | .vdot2 _ _ _ _ _ _ => []
  | .vdot4 _ _ _ _ _ _ => []
  | .vnarrow _ _ _ _ _ => []
  | .vfadd _ _ _ _ _ => []
  | .vfsub _ _ _ _ _ => []
  | .vfmul _ _ _ _ _ => []
  | .vfdiv _ _ _ _ _ => []
  | .vfma _ _ _ _ _ => []
  | .vfms _ _ _ _ _ => []
  | .vfnma _ _ _ _ _ => []
  | .vfnms _ _ _ _ _ => []
  | .vfmin _ _ _ _ _ => []
  | .vfmax _ _ _ _ _ => []
  | .vfabs _ _ _ _ => []
  | .vfneg _ _ _ _ => []
  | .vfsqrt _ _ _ _ => []
  | .vfrcp _ _ _ _ => []
  | .vfrsq _ _ _ _ => []
  | .vfclass _ _ _ _ => []
  | .vfcmpEq _ _ _ _ _ => []
  | .vfcmpNe _ _ _ _ _ => []
  | .vfcmpLt _ _ _ _ _ => []
  | .vfcmpLe _ _ _ _ _ => []
  | .vfcmpGt _ _ _ _ _ => []
  | .vfcmpGe _ _ _ _ _ => []
  | .vcvt _ _ _ _ _ _ _ => []
  | .vcvtgq _ _ _ _ _ _ _ => []
  | .vperm _ _ _ _ _ => []
  | .vshuf _ _ _ _ _ => []
  | .vzip _ _ _ _ _ => []
  | .vunzip _ _ _ _ _ => []
  | .vbcast _ _ _ _ => []
  | .vslide _ _ _ _ _ => []
  | .vredi _ _ _ _ => []
  | .vmvs _ _ _ _ _ => []
  | .vspl _ _ _ _ _ => []
  | .vfreds _ _ _ _ _ => []
  | .mand _ _ _ => []
  | .mor _ _ _ => []
  | .mxor _ _ _ => []
  | .mnot _ _ => []
  | .mpopc _ _ => []
  | .mfirst _ _ => []
  | .mmov _ _ => []
  | .pori2 _ _ _ _ _ _ => []
  | .pori3 _ _ _ _ _ _ => []
  | .pincir _ _ _ _ _ _ => []
  | .pinsph _ _ _ _ _ _ => []
  | .psegx _ _ _ _ _ _ => []
  | .rfetch _ _ => []
  | .dispatch _ _ _ => []
  | .sigwait _ => []
  | .keyld _ _ _ => []
  | .threadRejoin _ => []
  | .yieldPauseEnd _ => []
  | .icacheLineFill _ => []
  | .offCoreLoadReply _ => []
  | .storeBufferDrain _ => []
  | .writeReachesHome _ => []
  | .feRequestAtBank _ => []
  | .bankWakeupDone _ => []
  | .translationWalkEnd _ => []
  | .atomicAtHome _ => []
  | .atomicReplyArrival _ => []
  | .reductionAtHome _ => []
  | .reductionAckArrival _ => []
  | .joinDecrementAtHome _ => []
  | .migrBlockAccept _ => []
  | .migrBlockReturn _ => []
  | .dequeSpillDone _ => []
  | .dequeRefill _ _ => []
  | .idleSlotPop _ => []
  | .stealRequest _ _ => []
  | .stealAnswer _ _ => []
  | .stealRetryTimer _ _ => []
  | .rforkSurveyDone _ => []
  | .caddieTakeRequest _ => []
  | .copyGranuleLand _ => []
  | .copyComplete _ _ => []
  | .haloDirectionArrival _ _ => []
  | .mcastDelivery _ => []
  | .gatherComplete _ _ => []
  | .collContributionArrival _ _ => []
  | .collComplete _ => []
  | .messageLeaveSendQueue _ => []
  | .messageDelivery _ => []
  | .mxringTakeEffect _ => []
  | .mxadvReachUnit _ => []
  | .mxwgtTakeEffect _ => []
  | .matrixStep _ => []
  | .matrixRecordPush _ => []
  | .huddleJoinHandled _ => []
  | .huddleArrivalHandled _ => []
  | .huddleLeaveHandled _ => []
  | .huddleDeparture _ _ => []
  | .hinfoHandled _ => []
  | .huddleNoticeArrival _ => []
  | .warrantRequestHandled _ => []
  | .errorStopCycle _ => []
  | .dumpStart _ => []
  | .dumpWriteDone _ => []
  | .energyAllowanceReached _ => []
  | .energyOverrun _ => []
  | .powerWindowEnd _ => []
  | .contextExpiry _ => []
  | .watchdogExpiry _ => []
  | .backgroundScrubRead _ _ _ => []
  | .doorbellWidxWrite _ _ => []
  | .ctrlResume _ _ => []
  | .ctrlSkip _ _ => []
  | .ctrlAbort _ _ => []
  | .packetFetch _ _ => []
  | .launchStart _ _ => []
  | .launchComplete _ => []
  | .fencePacketComplete _ _ => []
  | .sliceEnd _ => []
  | .slicePlacement _ => []
  | .stopDecision _ => []
  | .stopHalt _ => []
  | .flushToken _ => []
  | .stateSaveDone _ => []
  | .restoreDone _ => []
  | .resumeRejoin _ => []
  | .claimAtHome _ _ => []
  | .claimRetry _ => []
  | .claimTimeout _ => []
  | .spentAtHome _ => []
  | .powerOn => []
  | .ident _ => []
  | .commission _ _ _ => []
  | .beacon _ _ => []
  | .nonce _ => []
  | .nonceExpiry _ => []
  | .present _ _ _ _ => []
  | .redeem _ _ _ => []
  | .setwin _ _ _ _ => []
  | .defq _ _ _ => []
  | .lock _ => []
  | .start _ => []
  | .launch _ _ => []
  | .read _ _ => []
  | .surr _ => []
  | .revoke _ _ _ => []
  | .dbgcfg _ _ _ => []
  | .dbgrel _ _ => []
  | .dbgres _ => []
  | .query _ _ => []
  | .qctrl _ _ => []
  | .linkTraining _ _ => []
  | .flitReceive _ _ => []
  | .linkDown _ => []
  | .flitSend _ _ => []
  | .systemAtomicReply _ _ => []
  | .inboundAccess _ _ _ _ _ => []
  | .traceWordMove _ => []
  | .debugSample _ => []
  | .captureFreeze _ => []
  | .crossTriggerArrival _ => []
  | .illegalWord _ _ => []
  | .instructionFetchTrap _ _ => []
  | .debugResumeCycle _ => []
  | .captureCycleMatch _ => []

/-- The mask-register destination of an instruction (R59). -/
def Instr.maskDests : Instr → List Reg5
  | .add _ _ _ => []
  | .sub _ _ _ => []
  | .and _ _ _ => []
  | .or _ _ _ => []
  | .xor _ _ _ => []
  | .andn _ _ _ => []
  | .sll _ _ _ => []
  | .srl _ _ _ => []
  | .sra _ _ _ => []
  | .rol _ _ _ => []
  | .min _ _ _ => []
  | .max _ _ _ => []
  | .minu _ _ _ => []
  | .maxu _ _ _ => []
  | .slt _ _ _ => []
  | .sltu _ _ _ => []
  | .seq _ _ _ => []
  | .sel _ _ _ => []
  | .addi _ _ _ => []
  | .andi _ _ _ => []
  | .ori _ _ _ => []
  | .xori _ _ _ => []
  | .slli _ _ _ => []
  | .srli _ _ _ => []
  | .srai _ _ _ => []
  | .roli _ _ _ => []
  | .slti _ _ _ => []
  | .sltiu _ _ _ => []
  | .seqi _ _ _ => []
  | .lui _ _ => []
  | .auipc _ _ => []
  | .mul _ _ _ => []
  | .mulh _ _ _ => []
  | .mulhu _ _ _ => []
  | .div _ _ _ => []
  | .divu _ _ _ => []
  | .rem _ _ _ => []
  | .remu _ _ _ => []
  | .clz _ _ => []
  | .ctz _ _ => []
  | .popc _ _ => []
  | .brev _ _ => []
  | .bswap _ _ => []
  | .bfx _ _ _ => []
  | .bfi _ _ _ => []
  | .lb _ _ _ => []
  | .lbu _ _ _ => []
  | .lh _ _ _ => []
  | .lhu _ _ _ => []
  | .lw _ _ _ => []
  | .lwu _ _ _ => []
  | .ld _ _ _ => []
  | .sb _ _ _ => []
  | .sh _ _ _ => []
  | .sw _ _ _ => []
  | .sd _ _ _ => []
  | .ldo _ _ _ _ _ => []
  | .sto _ _ _ _ _ => []
  | .beq _ _ _ => []
  | .bne _ _ _ => []
  | .blt _ _ _ => []
  | .bge _ _ _ => []
  | .bltu _ _ _ => []
  | .bgeu _ _ _ => []
  | .jal _ _ => []
  | .jalr _ _ _ => []
  | .csrr _ _ => []
  | .csrw _ _ => []
  | .csrs _ _ => []
  | .csrc _ _ => []
  | .trap _ _ => []
  | .eret => []
  | .ucall _ => []
  | .brk _ => []
  | .fence _ _ => []
  | .iflush => []
  | .winset _ _ => []
  | .ldfe _ _ _ => []
  | .ldfeClr _ _ _ => []
  | .stfe _ _ _ => []
  | .feq _ _ _ => []
  | .marm _ _ => []
  | .mclr => []
  | .mwait => []
  | .yield => []
  | .halt => []
  | .fork _ _ => []
  | .rfork _ _ _ => []
  | .join _ => []
  | .taskend => []
  | .aadd _ _ _ _ _ _ _ => []
  | .aand _ _ _ _ _ _ _ => []
  | .aor _ _ _ _ _ _ _ => []
  | .axor _ _ _ _ _ _ _ => []
  | .amin _ _ _ _ _ _ _ => []
  | .amax _ _ _ _ _ _ _ => []
  | .aminu _ _ _ _ _ _ _ => []
  | .amaxu _ _ _ _ _ _ _ => []
  | .axchg _ _ _ _ _ _ _ => []
  | .acas _ _ _ _ _ _ => []
  | .migr _ => []
  | .retn => []
  | .radd _ _ _ _ _ _ => []
  | .rand _ _ _ _ _ _ => []
  | .ror _ _ _ _ _ _ => []
  | .rxor _ _ _ _ _ _ => []
  | .rmin _ _ _ _ _ _ => []
  | .rmax _ _ _ _ _ _ => []
  | .rfadd _ _ _ _ _ _ => []
  | .hjoin _ _ _ _ _ => []
  | .hleave _ => []
  | .hbar _ => []
  | .harrv _ => []
  | .hwait _ => []
  | .hvote _ _ _ _ => []
  | .hred _ _ _ _ => []
  | .hinfo _ _ => []
  | .wpres _ _ => []
  | .wsplit _ _ _ => []
  | .wdeleg _ _ _ => []
  | .wsurr _ _ => []
  | .wreset _ _ => []
  | .wqry _ _ _ => []
  | .cpy _ _ _ _ => []
  | .cpys _ _ _ _ => []
  | .cpwait _ _ => []
  | .chwm _ _ _ => []
  | .halo _ _ => []
  | .halowait _ _ => []
  | .mcast _ _ _ => []
  | .gath _ _ _ _ => []
  | .coll _ _ _ _ _ => []
  | .qstat _ => []
  | .mxop _ _ _ => []
  | .mxzero _ => []
  | .mxst _ _ _ => []
  | .mxld _ => []
  | .mxring _ _ => []
  | .mxadv _ => []
  | .mxwgt _ => []
  | .cntr _ _ => []
  | .time _ _ => []
  | .vld _ _ _ _ => []
  | .vlds _ _ _ _ _ => []
  | .vldx _ _ _ _ _ => []
  | .vst _ _ _ _ => []
  | .vsts _ _ _ _ _ => []
  | .vstx _ _ _ _ _ => []
  | .vadd _ _ _ _ _ => []
  | .vsub _ _ _ _ _ => []
  | .vadds _ _ _ _ _ => []
  | .vsubs _ _ _ _ _ => []
  | .vmul _ _ _ _ _ => []
  | .vmulh _ _ _ _ _ => []
  | .vmin _ _ _ _ _ => []
  | .vmax _ _ _ _ _ => []
  | .vabs _ _ _ _ => []
  | .vneg _ _ _ _ => []
  | .vand _ _ _ _ _ => []
  | .vor _ _ _ _ _ => []
  | .vxor _ _ _ _ _ => []
  | .vandn _ _ _ _ _ => []
  | .vsll _ _ _ _ _ => []
  | .vsrl _ _ _ _ _ => []
  | .vsra _ _ _ _ _ => []
  | .vsel _ _ _ _ _ => []
  | .vcmpEq d _ _ _ _ => [d]
  | .vcmpNe d _ _ _ _ => [d]
  | .vcmpLt d _ _ _ _ => [d]
  | .vcmpLe d _ _ _ _ => [d]
  | .vcmpGt d _ _ _ _ => [d]
  | .vcmpGe d _ _ _ _ => [d]
  | .vwadd _ _ _ _ _ => []
  | .vwsub _ _ _ _ _ => []
  | .vwmul _ _ _ _ _ => []
  | .vdot2 _ _ _ _ _ _ => []
  | .vdot4 _ _ _ _ _ _ => []
  | .vnarrow _ _ _ _ _ => []
  | .vfadd _ _ _ _ _ => []
  | .vfsub _ _ _ _ _ => []
  | .vfmul _ _ _ _ _ => []
  | .vfdiv _ _ _ _ _ => []
  | .vfma _ _ _ _ _ => []
  | .vfms _ _ _ _ _ => []
  | .vfnma _ _ _ _ _ => []
  | .vfnms _ _ _ _ _ => []
  | .vfmin _ _ _ _ _ => []
  | .vfmax _ _ _ _ _ => []
  | .vfabs _ _ _ _ => []
  | .vfneg _ _ _ _ => []
  | .vfsqrt _ _ _ _ => []
  | .vfrcp _ _ _ _ => []
  | .vfrsq _ _ _ _ => []
  | .vfclass _ _ _ _ => []
  | .vfcmpEq d _ _ _ _ => [d]
  | .vfcmpNe d _ _ _ _ => [d]
  | .vfcmpLt d _ _ _ _ => [d]
  | .vfcmpLe d _ _ _ _ => [d]
  | .vfcmpGt d _ _ _ _ => [d]
  | .vfcmpGe d _ _ _ _ => [d]
  | .vcvt _ _ _ _ _ _ _ => []
  | .vcvtgq _ _ _ _ _ _ _ => []
  | .vperm _ _ _ _ _ => []
  | .vshuf _ _ _ _ _ => []
  | .vzip _ _ _ _ _ => []
  | .vunzip _ _ _ _ _ => []
  | .vbcast _ _ _ _ => []
  | .vslide _ _ _ _ _ => []
  | .vredi _ _ _ _ => []
  | .vmvs _ _ _ _ _ => []
  | .vspl _ _ _ _ _ => []
  | .vfreds _ _ _ _ _ => []
  | .mand d _ _ => [d]
  | .mor d _ _ => [d]
  | .mxor d _ _ => [d]
  | .mnot d _ => [d]
  | .mpopc _ _ => []
  | .mfirst _ _ => []
  | .mmov d _ => [d]
  | .pori2 _ _ _ _ _ _ => []
  | .pori3 _ _ _ _ _ _ => []
  | .pincir _ _ _ _ _ _ => []
  | .pinsph _ _ _ _ _ _ => []
  | .psegx _ _ _ _ _ _ => []
  | .rfetch _ _ => []
  | .dispatch _ _ _ => []
  | .sigwait _ => []
  | .keyld _ _ _ => []
  | .threadRejoin _ => []
  | .yieldPauseEnd _ => []
  | .icacheLineFill _ => []
  | .offCoreLoadReply _ => []
  | .storeBufferDrain _ => []
  | .writeReachesHome _ => []
  | .feRequestAtBank _ => []
  | .bankWakeupDone _ => []
  | .translationWalkEnd _ => []
  | .atomicAtHome _ => []
  | .atomicReplyArrival _ => []
  | .reductionAtHome _ => []
  | .reductionAckArrival _ => []
  | .joinDecrementAtHome _ => []
  | .migrBlockAccept _ => []
  | .migrBlockReturn _ => []
  | .dequeSpillDone _ => []
  | .dequeRefill _ _ => []
  | .idleSlotPop _ => []
  | .stealRequest _ _ => []
  | .stealAnswer _ _ => []
  | .stealRetryTimer _ _ => []
  | .rforkSurveyDone _ => []
  | .caddieTakeRequest _ => []
  | .copyGranuleLand _ => []
  | .copyComplete _ _ => []
  | .haloDirectionArrival _ _ => []
  | .mcastDelivery _ => []
  | .gatherComplete _ _ => []
  | .collContributionArrival _ _ => []
  | .collComplete _ => []
  | .messageLeaveSendQueue _ => []
  | .messageDelivery _ => []
  | .mxringTakeEffect _ => []
  | .mxadvReachUnit _ => []
  | .mxwgtTakeEffect _ => []
  | .matrixStep _ => []
  | .matrixRecordPush _ => []
  | .huddleJoinHandled _ => []
  | .huddleArrivalHandled _ => []
  | .huddleLeaveHandled _ => []
  | .huddleDeparture _ _ => []
  | .hinfoHandled _ => []
  | .huddleNoticeArrival _ => []
  | .warrantRequestHandled _ => []
  | .errorStopCycle _ => []
  | .dumpStart _ => []
  | .dumpWriteDone _ => []
  | .energyAllowanceReached _ => []
  | .energyOverrun _ => []
  | .powerWindowEnd _ => []
  | .contextExpiry _ => []
  | .watchdogExpiry _ => []
  | .backgroundScrubRead _ _ _ => []
  | .doorbellWidxWrite _ _ => []
  | .ctrlResume _ _ => []
  | .ctrlSkip _ _ => []
  | .ctrlAbort _ _ => []
  | .packetFetch _ _ => []
  | .launchStart _ _ => []
  | .launchComplete _ => []
  | .fencePacketComplete _ _ => []
  | .sliceEnd _ => []
  | .slicePlacement _ => []
  | .stopDecision _ => []
  | .stopHalt _ => []
  | .flushToken _ => []
  | .stateSaveDone _ => []
  | .restoreDone _ => []
  | .resumeRejoin _ => []
  | .claimAtHome _ _ => []
  | .claimRetry _ => []
  | .claimTimeout _ => []
  | .spentAtHome _ => []
  | .powerOn => []
  | .ident _ => []
  | .commission _ _ _ => []
  | .beacon _ _ => []
  | .nonce _ => []
  | .nonceExpiry _ => []
  | .present _ _ _ _ => []
  | .redeem _ _ _ => []
  | .setwin _ _ _ _ => []
  | .defq _ _ _ => []
  | .lock _ => []
  | .start _ => []
  | .launch _ _ => []
  | .read _ _ => []
  | .surr _ => []
  | .revoke _ _ _ => []
  | .dbgcfg _ _ _ => []
  | .dbgrel _ _ => []
  | .dbgres _ => []
  | .query _ _ => []
  | .qctrl _ _ => []
  | .linkTraining _ _ => []
  | .flitReceive _ _ => []
  | .linkDown _ => []
  | .flitSend _ _ => []
  | .systemAtomicReply _ _ => []
  | .inboundAccess _ _ _ _ _ => []
  | .traceWordMove _ => []
  | .debugSample _ => []
  | .captureFreeze _ => []
  | .crossTriggerArrival _ => []
  | .illegalWord _ _ => []
  | .instructionFetchTrap _ _ => []
  | .debugResumeCycle _ => []
  | .captureCycleMatch _ => []

/-- The mask-register sources of an instruction (R59). -/
def Instr.maskSources : Instr → List Reg5
  | .add _ _ _ => []
  | .sub _ _ _ => []
  | .and _ _ _ => []
  | .or _ _ _ => []
  | .xor _ _ _ => []
  | .andn _ _ _ => []
  | .sll _ _ _ => []
  | .srl _ _ _ => []
  | .sra _ _ _ => []
  | .rol _ _ _ => []
  | .min _ _ _ => []
  | .max _ _ _ => []
  | .minu _ _ _ => []
  | .maxu _ _ _ => []
  | .slt _ _ _ => []
  | .sltu _ _ _ => []
  | .seq _ _ _ => []
  | .sel _ _ _ => []
  | .addi _ _ _ => []
  | .andi _ _ _ => []
  | .ori _ _ _ => []
  | .xori _ _ _ => []
  | .slli _ _ _ => []
  | .srli _ _ _ => []
  | .srai _ _ _ => []
  | .roli _ _ _ => []
  | .slti _ _ _ => []
  | .sltiu _ _ _ => []
  | .seqi _ _ _ => []
  | .lui _ _ => []
  | .auipc _ _ => []
  | .mul _ _ _ => []
  | .mulh _ _ _ => []
  | .mulhu _ _ _ => []
  | .div _ _ _ => []
  | .divu _ _ _ => []
  | .rem _ _ _ => []
  | .remu _ _ _ => []
  | .clz _ _ => []
  | .ctz _ _ => []
  | .popc _ _ => []
  | .brev _ _ => []
  | .bswap _ _ => []
  | .bfx _ _ _ => []
  | .bfi _ _ _ => []
  | .lb _ _ _ => []
  | .lbu _ _ _ => []
  | .lh _ _ _ => []
  | .lhu _ _ _ => []
  | .lw _ _ _ => []
  | .lwu _ _ _ => []
  | .ld _ _ _ => []
  | .sb _ _ _ => []
  | .sh _ _ _ => []
  | .sw _ _ _ => []
  | .sd _ _ _ => []
  | .ldo _ _ _ _ _ => []
  | .sto _ _ _ _ _ => []
  | .beq _ _ _ => []
  | .bne _ _ _ => []
  | .blt _ _ _ => []
  | .bge _ _ _ => []
  | .bltu _ _ _ => []
  | .bgeu _ _ _ => []
  | .jal _ _ => []
  | .jalr _ _ _ => []
  | .csrr _ _ => []
  | .csrw _ _ => []
  | .csrs _ _ => []
  | .csrc _ _ => []
  | .trap _ _ => []
  | .eret => []
  | .ucall _ => []
  | .brk _ => []
  | .fence _ _ => []
  | .iflush => []
  | .winset _ _ => []
  | .ldfe _ _ _ => []
  | .ldfeClr _ _ _ => []
  | .stfe _ _ _ => []
  | .feq _ _ _ => []
  | .marm _ _ => []
  | .mclr => []
  | .mwait => []
  | .yield => []
  | .halt => []
  | .fork _ _ => []
  | .rfork _ _ _ => []
  | .join _ => []
  | .taskend => []
  | .aadd _ _ _ _ _ _ _ => []
  | .aand _ _ _ _ _ _ _ => []
  | .aor _ _ _ _ _ _ _ => []
  | .axor _ _ _ _ _ _ _ => []
  | .amin _ _ _ _ _ _ _ => []
  | .amax _ _ _ _ _ _ _ => []
  | .aminu _ _ _ _ _ _ _ => []
  | .amaxu _ _ _ _ _ _ _ => []
  | .axchg _ _ _ _ _ _ _ => []
  | .acas _ _ _ _ _ _ => []
  | .migr _ => []
  | .retn => []
  | .radd _ _ _ _ _ _ => []
  | .rand _ _ _ _ _ _ => []
  | .ror _ _ _ _ _ _ => []
  | .rxor _ _ _ _ _ _ => []
  | .rmin _ _ _ _ _ _ => []
  | .rmax _ _ _ _ _ _ => []
  | .rfadd _ _ _ _ _ _ => []
  | .hjoin _ _ _ _ _ => []
  | .hleave _ => []
  | .hbar _ => []
  | .harrv _ => []
  | .hwait _ => []
  | .hvote _ _ _ _ => []
  | .hred _ _ _ _ => []
  | .hinfo _ _ => []
  | .wpres _ _ => []
  | .wsplit _ _ _ => []
  | .wdeleg _ _ _ => []
  | .wsurr _ _ => []
  | .wreset _ _ => []
  | .wqry _ _ _ => []
  | .cpy _ _ _ _ => []
  | .cpys _ _ _ _ => []
  | .cpwait _ _ => []
  | .chwm _ _ _ => []
  | .halo _ _ => []
  | .halowait _ _ => []
  | .mcast _ _ _ => []
  | .gath _ _ _ _ => []
  | .coll _ _ _ _ _ => []
  | .qstat _ => []
  | .mxop _ _ _ => []
  | .mxzero _ => []
  | .mxst _ _ _ => []
  | .mxld _ => []
  | .mxring _ _ => []
  | .mxadv _ => []
  | .mxwgt _ => []
  | .cntr _ _ => []
  | .time _ _ => []
  | .vld _ _ _ _ => []
  | .vlds _ _ _ _ _ => []
  | .vldx _ _ _ _ _ => []
  | .vst _ _ _ _ => []
  | .vsts _ _ _ _ _ => []
  | .vstx _ _ _ _ _ => []
  | .vadd _ _ _ _ _ => []
  | .vsub _ _ _ _ _ => []
  | .vadds _ _ _ _ _ => []
  | .vsubs _ _ _ _ _ => []
  | .vmul _ _ _ _ _ => []
  | .vmulh _ _ _ _ _ => []
  | .vmin _ _ _ _ _ => []
  | .vmax _ _ _ _ _ => []
  | .vabs _ _ _ _ => []
  | .vneg _ _ _ _ => []
  | .vand _ _ _ _ _ => []
  | .vor _ _ _ _ _ => []
  | .vxor _ _ _ _ _ => []
  | .vandn _ _ _ _ _ => []
  | .vsll _ _ _ _ _ => []
  | .vsrl _ _ _ _ _ => []
  | .vsra _ _ _ _ _ => []
  | .vsel _ _ _ _ _ => []
  | .vcmpEq _ _ _ _ _ => []
  | .vcmpNe _ _ _ _ _ => []
  | .vcmpLt _ _ _ _ _ => []
  | .vcmpLe _ _ _ _ _ => []
  | .vcmpGt _ _ _ _ _ => []
  | .vcmpGe _ _ _ _ _ => []
  | .vwadd _ _ _ _ _ => []
  | .vwsub _ _ _ _ _ => []
  | .vwmul _ _ _ _ _ => []
  | .vdot2 _ _ _ _ _ _ => []
  | .vdot4 _ _ _ _ _ _ => []
  | .vnarrow _ _ _ _ _ => []
  | .vfadd _ _ _ _ _ => []
  | .vfsub _ _ _ _ _ => []
  | .vfmul _ _ _ _ _ => []
  | .vfdiv _ _ _ _ _ => []
  | .vfma _ _ _ _ _ => []
  | .vfms _ _ _ _ _ => []
  | .vfnma _ _ _ _ _ => []
  | .vfnms _ _ _ _ _ => []
  | .vfmin _ _ _ _ _ => []
  | .vfmax _ _ _ _ _ => []
  | .vfabs _ _ _ _ => []
  | .vfneg _ _ _ _ => []
  | .vfsqrt _ _ _ _ => []
  | .vfrcp _ _ _ _ => []
  | .vfrsq _ _ _ _ => []
  | .vfclass _ _ _ _ => []
  | .vfcmpEq _ _ _ _ _ => []
  | .vfcmpNe _ _ _ _ _ => []
  | .vfcmpLt _ _ _ _ _ => []
  | .vfcmpLe _ _ _ _ _ => []
  | .vfcmpGt _ _ _ _ _ => []
  | .vfcmpGe _ _ _ _ _ => []
  | .vcvt _ _ _ _ _ _ _ => []
  | .vcvtgq _ _ _ _ _ _ _ => []
  | .vperm _ _ _ _ _ => []
  | .vshuf _ _ _ _ _ => []
  | .vzip _ _ _ _ _ => []
  | .vunzip _ _ _ _ _ => []
  | .vbcast _ _ _ _ => []
  | .vslide _ _ _ _ _ => []
  | .vredi _ _ _ _ => []
  | .vmvs _ _ _ _ _ => []
  | .vspl _ _ _ _ _ => []
  | .vfreds _ _ _ _ _ => []
  | .mand _ a b => [a, b]
  | .mor _ a b => [a, b]
  | .mxor _ a b => [a, b]
  | .mnot _ a => [a]
  | .mpopc _ a => [a]
  | .mfirst _ a => [a]
  | .mmov _ a => [a]
  | .pori2 _ _ _ _ _ _ => []
  | .pori3 _ _ _ _ _ _ => []
  | .pincir _ _ _ _ _ _ => []
  | .pinsph _ _ _ _ _ _ => []
  | .psegx _ _ _ _ _ _ => []
  | .rfetch _ _ => []
  | .dispatch _ _ _ => []
  | .sigwait _ => []
  | .keyld _ _ _ => []
  | .threadRejoin _ => []
  | .yieldPauseEnd _ => []
  | .icacheLineFill _ => []
  | .offCoreLoadReply _ => []
  | .storeBufferDrain _ => []
  | .writeReachesHome _ => []
  | .feRequestAtBank _ => []
  | .bankWakeupDone _ => []
  | .translationWalkEnd _ => []
  | .atomicAtHome _ => []
  | .atomicReplyArrival _ => []
  | .reductionAtHome _ => []
  | .reductionAckArrival _ => []
  | .joinDecrementAtHome _ => []
  | .migrBlockAccept _ => []
  | .migrBlockReturn _ => []
  | .dequeSpillDone _ => []
  | .dequeRefill _ _ => []
  | .idleSlotPop _ => []
  | .stealRequest _ _ => []
  | .stealAnswer _ _ => []
  | .stealRetryTimer _ _ => []
  | .rforkSurveyDone _ => []
  | .caddieTakeRequest _ => []
  | .copyGranuleLand _ => []
  | .copyComplete _ _ => []
  | .haloDirectionArrival _ _ => []
  | .mcastDelivery _ => []
  | .gatherComplete _ _ => []
  | .collContributionArrival _ _ => []
  | .collComplete _ => []
  | .messageLeaveSendQueue _ => []
  | .messageDelivery _ => []
  | .mxringTakeEffect _ => []
  | .mxadvReachUnit _ => []
  | .mxwgtTakeEffect _ => []
  | .matrixStep _ => []
  | .matrixRecordPush _ => []
  | .huddleJoinHandled _ => []
  | .huddleArrivalHandled _ => []
  | .huddleLeaveHandled _ => []
  | .huddleDeparture _ _ => []
  | .hinfoHandled _ => []
  | .huddleNoticeArrival _ => []
  | .warrantRequestHandled _ => []
  | .errorStopCycle _ => []
  | .dumpStart _ => []
  | .dumpWriteDone _ => []
  | .energyAllowanceReached _ => []
  | .energyOverrun _ => []
  | .powerWindowEnd _ => []
  | .contextExpiry _ => []
  | .watchdogExpiry _ => []
  | .backgroundScrubRead _ _ _ => []
  | .doorbellWidxWrite _ _ => []
  | .ctrlResume _ _ => []
  | .ctrlSkip _ _ => []
  | .ctrlAbort _ _ => []
  | .packetFetch _ _ => []
  | .launchStart _ _ => []
  | .launchComplete _ => []
  | .fencePacketComplete _ _ => []
  | .sliceEnd _ => []
  | .slicePlacement _ => []
  | .stopDecision _ => []
  | .stopHalt _ => []
  | .flushToken _ => []
  | .stateSaveDone _ => []
  | .restoreDone _ => []
  | .resumeRejoin _ => []
  | .claimAtHome _ _ => []
  | .claimRetry _ => []
  | .claimTimeout _ => []
  | .spentAtHome _ => []
  | .powerOn => []
  | .ident _ => []
  | .commission _ _ _ => []
  | .beacon _ _ => []
  | .nonce _ => []
  | .nonceExpiry _ => []
  | .present _ _ _ _ => []
  | .redeem _ _ _ => []
  | .setwin _ _ _ _ => []
  | .defq _ _ _ => []
  | .lock _ => []
  | .start _ => []
  | .launch _ _ => []
  | .read _ _ => []
  | .surr _ => []
  | .revoke _ _ _ => []
  | .dbgcfg _ _ _ => []
  | .dbgrel _ _ => []
  | .dbgres _ => []
  | .query _ _ => []
  | .qctrl _ _ => []
  | .linkTraining _ _ => []
  | .flitReceive _ _ => []
  | .linkDown _ => []
  | .flitSend _ _ => []
  | .systemAtomicReply _ _ => []
  | .inboundAccess _ _ _ _ _ => []
  | .traceWordMove _ => []
  | .debugSample _ => []
  | .captureFreeze _ => []
  | .crossTriggerArrival _ => []
  | .illegalWord _ _ => []
  | .instructionFetchTrap _ _ => []
  | .debugResumeCycle _ => []
  | .captureCycleMatch _ => []

/-- The control-register indices of Table 6-2. -/
def csrDefined (i : Nat) : Bool :=
  (1 ≤ i && i ≤ 3) || (0x10 ≤ i && i ≤ 0x15) || (0x20 ≤ i && i ≤ 0x22) || (0x30 ≤ i && i ≤ 0x34) ||
    (0x40 ≤ i && i ≤ 0x43) || (0x50 ≤ i && i ≤ 0x57) || (0x60 ≤ i && i ≤ 0x67) || (0x70 ≤ i && i ≤ 0x77)

/-- The control registers whose fields are all read-only (Table 6-2, R104). -/
def csrReadOnly (i : Nat) : Bool :=
  i == 3 || i == 0x15 || (0x20 ≤ i && i ≤ 0x22) || (0x30 ≤ i && i ≤ 0x33) || (0x60 ≤ i && i ≤ 0x67) ||
    (0x70 ≤ i && i ≤ 0x77)

/-- Registers of a predicate's operand block, without .sos (R70, Table 11-1). -/
def Instr.predRegs : Instr → Nat
  | .pori2 .. => 6
  | .pori3 .. => 9
  | .pincir .. => 8
  | .pinsph .. => 15
  | .psegx .. => 8
  | _ => 0

/-- The limits on a word's own codes beyond each field's own: a combination refused here is reason 3 of
Table 4-22. -/
def Instr.codeLimits : Instr → Bool
  | .trap _ code => code.toNat != 0 && code.toNat != 14
  | .mxop _ ty sp => !(sp && decide (ty = .f32))
  | .mxst _ ty sat => !(sat && (decide (ty = .bf16) || decide (ty = .f16) || decide (ty = .f32)))
  | .vshuf _ _ _ ty _ => ty.width != 8
  | .vdot2 _ _ _ ty _ _ => ty.width == 16
  | .vdot4 _ _ _ ty _ _ => ty.width == 8
  | .vcvt _ _ sat st _ dt _ =>
    decide (dt.width ≤ 4 * st.width) && decide (st.width ≤ 4 * dt.width) && (!sat || dt.isInt || dt.isFp8)
  | _ => true

/-- The field limit that is reason 4 of Table 4-22 on a decoded form: an atomic with .o takes no d (R262). -/
def Instr.reservedOk : Instr → Bool
  | .aadd d _ _ _ _ o _ => !o || d == 0
  | .aand d _ _ _ _ o _ => !o || d == 0
  | .aor d _ _ _ _ o _ => !o || d == 0
  | .axor d _ _ _ _ o _ => !o || d == 0
  | .amin d _ _ _ _ o _ => !o || d == 0
  | .amax d _ _ _ _ o _ => !o || d == 0
  | .aminu d _ _ _ _ o _ => !o || d == 0
  | .amaxu d _ _ _ _ o _ => !o || d == 0
  | .axchg d _ _ _ _ o _ => !o || d == 0
  | _ => true

/-- Alignment of the pair and quad groups (R59, R72): reason 5. -/
def Instr.groupsOk : Instr → Bool
  | .vwadd d .. | .vwsub d .. | .vwmul d .. => d.toNat % 2 == 0
  | .vnarrow _ a .. => a.toNat % 2 == 0
  | .vcvt d _ _ st _ dt _ => d.toNat % (dt.width / st.width) == 0 || dt.width ≤ st.width
  | _ => true

/-- Alignment of the source group of a narrowing VCVT (R59, R72): reason 5. -/
def Instr.sourceGroupsOk : Instr → Bool
  | .vcvt _ a _ st _ dt _ => a.toNat % (st.width / dt.width) == 0 || st.width ≤ dt.width
  | _ => true

/-- Is a predicate's block, with its .sos index register, within v31 (R70, R197)? -/
def Instr.blockOk (i : Instr) : Bool :=
  match i with
  | .pori2 _ a _ _ sos _ | .pori3 _ a _ _ sos _ | .pincir _ a _ _ sos _ | .pinsph _ a _ _ sos _
  | .psegx _ a _ _ sos _ => a.toNat + i.predRegs + (if sos then 1 else 0) ≤ 32
  | _ => true

/-- Registers out of range for their fields (R58, R59): reason 6. -/
def Instr.rangesOk (i : Instr) : Bool :=
  (i.scalarReads ++ i.scalarWrites ++ i.scalarBoth).all (fun r => r.toNat < 30) &&
    i.maskDests.all (fun r => 0 < r.toNat && r.toNat < 8) && i.maskSources.all (fun r => r.toNat < 8) &&
    i.blockOk

/-- Queue misuse (R58): reason 7. -/
def Instr.queuesOk (i : Instr) : Bool :=
  i.scalarReads.all (fun r => r.toNat != 29) && i.scalarBoth.all (fun r => r.toNat < 24)

/-- The control-register index (R64): reason 8. -/
def Instr.csrOk : Instr → Bool
  | .csrr _ csr => csrDefined csr.toNat
  | .csrw _ csr | .csrs _ csr | .csrc _ csr => csrDefined csr.toNat && !csrReadOnly csr.toNat
  | _ => true

/-- The first reason of Table 4-22, from 5 on, for which a decoded form is no instruction. -/
def Instr.regReason (i : Instr) : Option Nat :=
  if !(i.groupsOk && i.sourceGroupsOk) then some 5
  else if !i.rangesOk then some 6
  else if !i.queuesOk then some 7
  else if !i.csrOk then some 8
  else none

/-- Is the form an instruction word, and not a device event? -/
def Instr.isWord : Instr → Bool
  | .threadRejoin _ => false
  | .yieldPauseEnd _ => false
  | .icacheLineFill _ => false
  | .offCoreLoadReply _ => false
  | .storeBufferDrain _ => false
  | .writeReachesHome _ => false
  | .feRequestAtBank _ => false
  | .bankWakeupDone _ => false
  | .translationWalkEnd _ => false
  | .atomicAtHome _ => false
  | .atomicReplyArrival _ => false
  | .reductionAtHome _ => false
  | .reductionAckArrival _ => false
  | .joinDecrementAtHome _ => false
  | .migrBlockAccept _ => false
  | .migrBlockReturn _ => false
  | .dequeSpillDone _ => false
  | .dequeRefill _ _ => false
  | .idleSlotPop _ => false
  | .stealRequest _ _ => false
  | .stealAnswer _ _ => false
  | .stealRetryTimer _ _ => false
  | .rforkSurveyDone _ => false
  | .caddieTakeRequest _ => false
  | .copyGranuleLand _ => false
  | .copyComplete _ _ => false
  | .haloDirectionArrival _ _ => false
  | .mcastDelivery _ => false
  | .gatherComplete _ _ => false
  | .collContributionArrival _ _ => false
  | .collComplete _ => false
  | .messageLeaveSendQueue _ => false
  | .messageDelivery _ => false
  | .mxringTakeEffect _ => false
  | .mxadvReachUnit _ => false
  | .mxwgtTakeEffect _ => false
  | .matrixStep _ => false
  | .matrixRecordPush _ => false
  | .huddleJoinHandled _ => false
  | .huddleArrivalHandled _ => false
  | .huddleLeaveHandled _ => false
  | .huddleDeparture _ _ => false
  | .hinfoHandled _ => false
  | .huddleNoticeArrival _ => false
  | .warrantRequestHandled _ => false
  | .errorStopCycle _ => false
  | .dumpStart _ => false
  | .dumpWriteDone _ => false
  | .energyAllowanceReached _ => false
  | .energyOverrun _ => false
  | .powerWindowEnd _ => false
  | .contextExpiry _ => false
  | .watchdogExpiry _ => false
  | .backgroundScrubRead _ _ _ => false
  | .doorbellWidxWrite _ _ => false
  | .ctrlResume _ _ => false
  | .ctrlSkip _ _ => false
  | .ctrlAbort _ _ => false
  | .packetFetch _ _ => false
  | .launchStart _ _ => false
  | .launchComplete _ => false
  | .fencePacketComplete _ _ => false
  | .sliceEnd _ => false
  | .slicePlacement _ => false
  | .stopDecision _ => false
  | .stopHalt _ => false
  | .flushToken _ => false
  | .stateSaveDone _ => false
  | .restoreDone _ => false
  | .resumeRejoin _ => false
  | .claimAtHome _ _ => false
  | .claimRetry _ => false
  | .claimTimeout _ => false
  | .spentAtHome _ => false
  | .powerOn => false
  | .ident _ => false
  | .commission _ _ _ => false
  | .beacon _ _ => false
  | .nonce _ => false
  | .nonceExpiry _ => false
  | .present _ _ _ _ => false
  | .redeem _ _ _ => false
  | .setwin _ _ _ _ => false
  | .defq _ _ _ => false
  | .lock _ => false
  | .start _ => false
  | .launch _ _ => false
  | .read _ _ => false
  | .surr _ => false
  | .revoke _ _ _ => false
  | .dbgcfg _ _ _ => false
  | .dbgrel _ _ => false
  | .dbgres _ => false
  | .query _ _ => false
  | .qctrl _ _ => false
  | .linkTraining _ _ => false
  | .flitReceive _ _ => false
  | .linkDown _ => false
  | .flitSend _ _ => false
  | .systemAtomicReply _ _ => false
  | .inboundAccess _ _ _ _ _ => false
  | .traceWordMove _ => false
  | .debugSample _ => false
  | .captureFreeze _ => false
  | .crossTriggerArrival _ => false
  | .illegalWord _ _ => false
  | .instructionFetchTrap _ _ => false
  | .debugResumeCycle _ => false
  | .captureCycleMatch _ => false
  | _ => true

end Sys2Proof
end

