-- ==== Sys2Proof/WellFormed.lean ====
section
/-! DEFINITION. Which terms of `Instr` are instructions: the checks of Table 4-22 that a word can fail
(spec/04_formats_and_opcode_map.md R56-R74). -/

namespace Sys2Proof

/-- Every check that the word alone decides (R74): its codes, its reserved fields, its groups, its
register ranges, its queues and its control register. -/
def Instr.wf (i : Instr) : Bool :=
  i.isWord && i.codeLimits && i.reservedOk && i.regReason.isNone

/-- A well-formed instruction: a term that some word encodes and that no check of Table 4-22 refuses. -/
abbrev Instr.WellFormed (i : Instr) : Prop := i.wf = true

end Sys2Proof
end

