-- ==== Sys2Proof/Decode.lean ====
section
/-! DEFINITION. The decoder, total on every word, rejecting by the reason of Table 4-22, and after it the
encoder, both written from spec/04_formats_and_opcode_map.md Tables 4-1 to 4-21. -/

namespace Sys2Proof

/-- A decoded form with the checks that are made on its codes (reason 3) and its reserved bits (reason 4). -/
def formOf (codesOk : Bool) (i : Option Instr) (reservedZero : Bool) : Except Nat Instr :=
  match codesOk, i with
  | true, some i =>
    if !i.codeLimits then .error 3
    else if reservedZero && i.reservedOk then .ok i
    else .error 4
  | _, _ => .error 3

/-- The forms of major 0x01 (Table 4-10). -/
def decode01 (w : Nat) : Except Nat Instr :=
  match fld w 10 0 with
  | 0 => formOf (true) (some (.add (BitVec.ofNat 5 (fld w 25 21)) (BitVec.ofNat 5 (fld w 20 16)) (BitVec.ofNat 5 (fld w 15 11)))) (true)
  | 1 => formOf (true) (some (.sub (BitVec.ofNat 5 (fld w 25 21)) (BitVec.ofNat 5 (fld w 20 16)) (BitVec.ofNat 5 (fld w 15 11)))) (true)
  | 2 => formOf (true) (some (.and (BitVec.ofNat 5 (fld w 25 21)) (BitVec.ofNat 5 (fld w 20 16)) (BitVec.ofNat 5 (fld w 15 11)))) (true)
  | 3 => formOf (true) (some (.or (BitVec.ofNat 5 (fld w 25 21)) (BitVec.ofNat 5 (fld w 20 16)) (BitVec.ofNat 5 (fld w 15 11)))) (true)
  | 4 => formOf (true) (some (.xor (BitVec.ofNat 5 (fld w 25 21)) (BitVec.ofNat 5 (fld w 20 16)) (BitVec.ofNat 5 (fld w 15 11)))) (true)
  | 5 => formOf (true) (some (.andn (BitVec.ofNat 5 (fld w 25 21)) (BitVec.ofNat 5 (fld w 20 16)) (BitVec.ofNat 5 (fld w 15 11)))) (true)
  | 6 => formOf (true) (some (.sll (BitVec.ofNat 5 (fld w 25 21)) (BitVec.ofNat 5 (fld w 20 16)) (BitVec.ofNat 5 (fld w 15 11)))) (true)
  | 7 => formOf (true) (some (.srl (BitVec.ofNat 5 (fld w 25 21)) (BitVec.ofNat 5 (fld w 20 16)) (BitVec.ofNat 5 (fld w 15 11)))) (true)
  | 8 => formOf (true) (some (.sra (BitVec.ofNat 5 (fld w 25 21)) (BitVec.ofNat 5 (fld w 20 16)) (BitVec.ofNat 5 (fld w 15 11)))) (true)
  | 9 => formOf (true) (some (.rol (BitVec.ofNat 5 (fld w 25 21)) (BitVec.ofNat 5 (fld w 20 16)) (BitVec.ofNat 5 (fld w 15 11)))) (true)
  | 10 => formOf (true) (some (.min (BitVec.ofNat 5 (fld w 25 21)) (BitVec.ofNat 5 (fld w 20 16)) (BitVec.ofNat 5 (fld w 15 11)))) (true)
  | 11 => formOf (true) (some (.max (BitVec.ofNat 5 (fld w 25 21)) (BitVec.ofNat 5 (fld w 20 16)) (BitVec.ofNat 5 (fld w 15 11)))) (true)
  | 12 => formOf (true) (some (.minu (BitVec.ofNat 5 (fld w 25 21)) (BitVec.ofNat 5 (fld w 20 16)) (BitVec.ofNat 5 (fld w 15 11)))) (true)
  | 13 => formOf (true) (some (.maxu (BitVec.ofNat 5 (fld w 25 21)) (BitVec.ofNat 5 (fld w 20 16)) (BitVec.ofNat 5 (fld w 15 11)))) (true)
  | 14 => formOf (true) (some (.slt (BitVec.ofNat 5 (fld w 25 21)) (BitVec.ofNat 5 (fld w 20 16)) (BitVec.ofNat 5 (fld w 15 11)))) (true)
  | 15 => formOf (true) (some (.sltu (BitVec.ofNat 5 (fld w 25 21)) (BitVec.ofNat 5 (fld w 20 16)) (BitVec.ofNat 5 (fld w 15 11)))) (true)
  | 16 => formOf (true) (some (.seq (BitVec.ofNat 5 (fld w 25 21)) (BitVec.ofNat 5 (fld w 20 16)) (BitVec.ofNat 5 (fld w 15 11)))) (true)
  | 17 => formOf (true) (some (.sel (BitVec.ofNat 5 (fld w 25 21)) (BitVec.ofNat 5 (fld w 20 16)) (BitVec.ofNat 5 (fld w 15 11)))) (true)
  | _ => .error 3

/-- The forms of major 0x02 (Table 4-10). -/
def decode02 (w : Nat) : Except Nat Instr :=
  match fld w 15 12 with
  | 0 => formOf (true) (some (.addi (BitVec.ofNat 5 (fld w 25 21)) (BitVec.ofNat 5 (fld w 20 16)) (BitVec.ofNat 12 (fld w 11 0)))) (true)
  | _ => .error 3

/-- The forms of major 0x03 (Table 4-10). -/
def decode03 (w : Nat) : Except Nat Instr :=
  match fld w 15 12 with
  | 0 => formOf (true) (some (.andi (BitVec.ofNat 5 (fld w 25 21)) (BitVec.ofNat 5 (fld w 20 16)) (BitVec.ofNat 12 (fld w 11 0)))) (true)
  | 1 => formOf (true) (some (.ori (BitVec.ofNat 5 (fld w 25 21)) (BitVec.ofNat 5 (fld w 20 16)) (BitVec.ofNat 12 (fld w 11 0)))) (true)
  | 2 => formOf (true) (some (.xori (BitVec.ofNat 5 (fld w 25 21)) (BitVec.ofNat 5 (fld w 20 16)) (BitVec.ofNat 12 (fld w 11 0)))) (true)
  | 3 => formOf (true) (some (.slli (BitVec.ofNat 5 (fld w 25 21)) (BitVec.ofNat 5 (fld w 20 16)) (BitVec.ofNat 6 (fld w 5 0)))) (fld w 11 11 == 0 && fld w 10 6 == 0)
  | 4 => formOf (true) (some (.srli (BitVec.ofNat 5 (fld w 25 21)) (BitVec.ofNat 5 (fld w 20 16)) (BitVec.ofNat 6 (fld w 5 0)))) (fld w 11 11 == 0 && fld w 10 6 == 0)
  | 5 => formOf (true) (some (.srai (BitVec.ofNat 5 (fld w 25 21)) (BitVec.ofNat 5 (fld w 20 16)) (BitVec.ofNat 6 (fld w 5 0)))) (fld w 11 11 == 0 && fld w 10 6 == 0)
  | 6 => formOf (true) (some (.roli (BitVec.ofNat 5 (fld w 25 21)) (BitVec.ofNat 5 (fld w 20 16)) (BitVec.ofNat 6 (fld w 5 0)))) (fld w 11 11 == 0 && fld w 10 6 == 0)
  | 7 => formOf (true) (some (.slti (BitVec.ofNat 5 (fld w 25 21)) (BitVec.ofNat 5 (fld w 20 16)) (BitVec.ofNat 12 (fld w 11 0)))) (true)
  | 8 => formOf (true) (some (.sltiu (BitVec.ofNat 5 (fld w 25 21)) (BitVec.ofNat 5 (fld w 20 16)) (BitVec.ofNat 12 (fld w 11 0)))) (true)
  | 9 => formOf (true) (some (.seqi (BitVec.ofNat 5 (fld w 25 21)) (BitVec.ofNat 5 (fld w 20 16)) (BitVec.ofNat 12 (fld w 11 0)))) (true)
  | _ => .error 3

/-- The forms of major 0x04 (Table 4-10). -/
def decode04 (w : Nat) : Except Nat Instr :=
  formOf (true) (some (.lui (BitVec.ofNat 5 (fld w 25 21)) (BitVec.ofNat 20 (fld w 19 0)))) (fld w 20 20 == 0)

/-- The forms of major 0x05 (Table 4-10). -/
def decode05 (w : Nat) : Except Nat Instr :=
  formOf (true) (some (.auipc (BitVec.ofNat 5 (fld w 25 21)) (BitVec.ofNat 20 (fld w 19 0)))) (fld w 20 20 == 0)

/-- The forms of major 0x06 (Table 4-10). -/
def decode06 (w : Nat) : Except Nat Instr :=
  match fld w 10 0 with
  | 0 => formOf (true) (some (.mul (BitVec.ofNat 5 (fld w 25 21)) (BitVec.ofNat 5 (fld w 20 16)) (BitVec.ofNat 5 (fld w 15 11)))) (true)
  | 1 => formOf (true) (some (.mulh (BitVec.ofNat 5 (fld w 25 21)) (BitVec.ofNat 5 (fld w 20 16)) (BitVec.ofNat 5 (fld w 15 11)))) (true)
  | 2 => formOf (true) (some (.mulhu (BitVec.ofNat 5 (fld w 25 21)) (BitVec.ofNat 5 (fld w 20 16)) (BitVec.ofNat 5 (fld w 15 11)))) (true)
  | 3 => formOf (true) (some (.div (BitVec.ofNat 5 (fld w 25 21)) (BitVec.ofNat 5 (fld w 20 16)) (BitVec.ofNat 5 (fld w 15 11)))) (true)
  | 4 => formOf (true) (some (.divu (BitVec.ofNat 5 (fld w 25 21)) (BitVec.ofNat 5 (fld w 20 16)) (BitVec.ofNat 5 (fld w 15 11)))) (true)
  | 5 => formOf (true) (some (.rem (BitVec.ofNat 5 (fld w 25 21)) (BitVec.ofNat 5 (fld w 20 16)) (BitVec.ofNat 5 (fld w 15 11)))) (true)
  | 6 => formOf (true) (some (.remu (BitVec.ofNat 5 (fld w 25 21)) (BitVec.ofNat 5 (fld w 20 16)) (BitVec.ofNat 5 (fld w 15 11)))) (true)
  | _ => .error 3

/-- The forms of major 0x07 (Table 4-10). -/
def decode07 (w : Nat) : Except Nat Instr :=
  match fld w 10 0 with
  | 0 => formOf (true) (some (.clz (BitVec.ofNat 5 (fld w 25 21)) (BitVec.ofNat 5 (fld w 20 16)))) (fld w 15 11 == 0)
  | 1 => formOf (true) (some (.ctz (BitVec.ofNat 5 (fld w 25 21)) (BitVec.ofNat 5 (fld w 20 16)))) (fld w 15 11 == 0)
  | 2 => formOf (true) (some (.popc (BitVec.ofNat 5 (fld w 25 21)) (BitVec.ofNat 5 (fld w 20 16)))) (fld w 15 11 == 0)
  | 3 => formOf (true) (some (.brev (BitVec.ofNat 5 (fld w 25 21)) (BitVec.ofNat 5 (fld w 20 16)))) (fld w 15 11 == 0)
  | 4 => formOf (true) (some (.bswap (BitVec.ofNat 5 (fld w 25 21)) (BitVec.ofNat 5 (fld w 20 16)))) (fld w 15 11 == 0)
  | 5 => formOf (true) (some (.bfx (BitVec.ofNat 5 (fld w 25 21)) (BitVec.ofNat 5 (fld w 20 16)) (BitVec.ofNat 5 (fld w 15 11)))) (true)
  | 6 => formOf (true) (some (.bfi (BitVec.ofNat 5 (fld w 25 21)) (BitVec.ofNat 5 (fld w 20 16)) (BitVec.ofNat 5 (fld w 15 11)))) (true)
  | _ => .error 3

/-- The forms of major 0x08 (Table 4-10). -/
def decode08 (w : Nat) : Except Nat Instr :=
  match fld w 15 12 with
  | 0 => formOf (true) (some (.lb (BitVec.ofNat 5 (fld w 25 21)) (BitVec.ofNat 5 (fld w 20 16)) (BitVec.ofNat 12 (fld w 11 0)))) (true)
  | 1 => formOf (true) (some (.lbu (BitVec.ofNat 5 (fld w 25 21)) (BitVec.ofNat 5 (fld w 20 16)) (BitVec.ofNat 12 (fld w 11 0)))) (true)
  | 2 => formOf (true) (some (.lh (BitVec.ofNat 5 (fld w 25 21)) (BitVec.ofNat 5 (fld w 20 16)) (BitVec.ofNat 12 (fld w 11 0)))) (true)
  | 3 => formOf (true) (some (.lhu (BitVec.ofNat 5 (fld w 25 21)) (BitVec.ofNat 5 (fld w 20 16)) (BitVec.ofNat 12 (fld w 11 0)))) (true)
  | 4 => formOf (true) (some (.lw (BitVec.ofNat 5 (fld w 25 21)) (BitVec.ofNat 5 (fld w 20 16)) (BitVec.ofNat 12 (fld w 11 0)))) (true)
  | 5 => formOf (true) (some (.lwu (BitVec.ofNat 5 (fld w 25 21)) (BitVec.ofNat 5 (fld w 20 16)) (BitVec.ofNat 12 (fld w 11 0)))) (true)
  | 6 => formOf (true) (some (.ld (BitVec.ofNat 5 (fld w 25 21)) (BitVec.ofNat 5 (fld w 20 16)) (BitVec.ofNat 12 (fld w 11 0)))) (true)
  | _ => .error 3

/-- The forms of major 0x09 (Table 4-10). -/
def decode09 (w : Nat) : Except Nat Instr :=
  match fld w 15 12 with
  | 0 => formOf (true) (some (.sb (BitVec.ofNat 5 (fld w 25 21)) (BitVec.ofNat 5 (fld w 20 16)) (BitVec.ofNat 12 (fld w 11 0)))) (true)
  | 1 => formOf (true) (some (.sh (BitVec.ofNat 5 (fld w 25 21)) (BitVec.ofNat 5 (fld w 20 16)) (BitVec.ofNat 12 (fld w 11 0)))) (true)
  | 2 => formOf (true) (some (.sw (BitVec.ofNat 5 (fld w 25 21)) (BitVec.ofNat 5 (fld w 20 16)) (BitVec.ofNat 12 (fld w 11 0)))) (true)
  | 3 => formOf (true) (some (.sd (BitVec.ofNat 5 (fld w 25 21)) (BitVec.ofNat 5 (fld w 20 16)) (BitVec.ofNat 12 (fld w 11 0)))) (true)
  | _ => .error 3

/-- The forms of major 0x0A (Table 4-10). -/
def decode0A (w : Nat) : Except Nat Instr :=
  formOf (true) ((Scope.ofCode (fld w 14 12)).bind fun sc' => some (.ldo (BitVec.ofNat 5 (fld w 25 21)) (BitVec.ofNat 5 (fld w 20 16)) (fld w 15 15 == 1) sc' (BitVec.ofNat 12 (fld w 11 0)))) (true)

/-- The forms of major 0x0B (Table 4-10). -/
def decode0B (w : Nat) : Except Nat Instr :=
  formOf (true) ((Scope.ofCode (fld w 14 12)).bind fun sc' => some (.sto (BitVec.ofNat 5 (fld w 25 21)) (BitVec.ofNat 5 (fld w 20 16)) (fld w 15 15 == 1) sc' (BitVec.ofNat 12 (fld w 11 0)))) (true)

/-- The forms of major 0x0C (Table 4-10). -/
def decode0C (w : Nat) : Except Nat Instr :=
  match fld w 25 23 with
  | 0 => formOf (true) (some (.beq (BitVec.ofNat 5 (fld w 22 18)) (BitVec.ofNat 5 (fld w 17 13)) (BitVec.ofNat 13 (fld w 12 0)))) (true)
  | 1 => formOf (true) (some (.bne (BitVec.ofNat 5 (fld w 22 18)) (BitVec.ofNat 5 (fld w 17 13)) (BitVec.ofNat 13 (fld w 12 0)))) (true)
  | 2 => formOf (true) (some (.blt (BitVec.ofNat 5 (fld w 22 18)) (BitVec.ofNat 5 (fld w 17 13)) (BitVec.ofNat 13 (fld w 12 0)))) (true)
  | 3 => formOf (true) (some (.bge (BitVec.ofNat 5 (fld w 22 18)) (BitVec.ofNat 5 (fld w 17 13)) (BitVec.ofNat 13 (fld w 12 0)))) (true)
  | 4 => formOf (true) (some (.bltu (BitVec.ofNat 5 (fld w 22 18)) (BitVec.ofNat 5 (fld w 17 13)) (BitVec.ofNat 13 (fld w 12 0)))) (true)
  | 5 => formOf (true) (some (.bgeu (BitVec.ofNat 5 (fld w 22 18)) (BitVec.ofNat 5 (fld w 17 13)) (BitVec.ofNat 13 (fld w 12 0)))) (true)
  | _ => .error 3

/-- The forms of major 0x0D (Table 4-10). -/
def decode0D (w : Nat) : Except Nat Instr :=
  formOf (true) (some (.jal (BitVec.ofNat 5 (fld w 25 21)) (BitVec.ofNat 21 (fld w 20 0)))) (true)

/-- The forms of major 0x0E (Table 4-10). -/
def decode0E (w : Nat) : Except Nat Instr :=
  match fld w 15 12 with
  | 0 => formOf (true) (some (.jalr (BitVec.ofNat 5 (fld w 25 21)) (BitVec.ofNat 5 (fld w 20 16)) (BitVec.ofNat 12 (fld w 11 0)))) (true)
  | _ => .error 3

/-- The forms of major 0x0F (Table 4-10). -/
def decode0F (w : Nat) : Except Nat Instr :=
  match fld w 15 12 with
  | 0 => formOf (true) (some (.csrr (BitVec.ofNat 5 (fld w 25 21)) (BitVec.ofNat 12 (fld w 11 0)))) (fld w 20 16 == 0)
  | 1 => formOf (true) (some (.csrw (BitVec.ofNat 5 (fld w 20 16)) (BitVec.ofNat 12 (fld w 11 0)))) (fld w 25 21 == 0)
  | 2 => formOf (true) (some (.csrs (BitVec.ofNat 5 (fld w 20 16)) (BitVec.ofNat 12 (fld w 11 0)))) (fld w 25 21 == 0)
  | 3 => formOf (true) (some (.csrc (BitVec.ofNat 5 (fld w 20 16)) (BitVec.ofNat 12 (fld w 11 0)))) (fld w 25 21 == 0)
  | 4 => formOf (true) (some (.trap (BitVec.ofNat 5 (fld w 20 16)) (BitVec.ofNat 4 (fld w 3 0)))) (fld w 25 21 == 0 && fld w 11 11 == 0 && fld w 10 4 == 0)
  | 5 => formOf (true) (some .eret) (fld w 25 21 == 0 && fld w 20 16 == 0 && fld w 11 11 == 0 && fld w 10 0 == 0)
  | 6 => formOf (true) (some (.ucall (BitVec.ofNat 12 (fld w 11 0)))) (fld w 25 21 == 0 && fld w 20 16 == 0)
  | 7 => formOf (true) (some (.brk (BitVec.ofNat 12 (fld w 11 0)))) (fld w 25 21 == 0 && fld w 20 16 == 0)
  | 8 => formOf (true) ((FenceKind.ofCode (fld w 4 3)).bind fun kind' => (Scope.ofCode (fld w 2 0)).bind fun sc' => some (.fence kind' sc')) (fld w 25 21 == 0 && fld w 20 16 == 0 && fld w 11 11 == 0 && fld w 10 5 == 0)
  | 9 => formOf (true) (some .iflush) (fld w 25 21 == 0 && fld w 20 16 == 0 && fld w 11 11 == 0 && fld w 10 0 == 0)
  | 10 => formOf (true) (some (.winset (BitVec.ofNat 5 (fld w 20 16)) (BitVec.ofNat 3 (fld w 2 0)))) (fld w 25 21 == 0 && fld w 11 11 == 0 && fld w 10 3 == 0)
  | _ => .error 3

/-- The forms of major 0x10 (Table 4-10). -/
def decode10 (w : Nat) : Except Nat Instr :=
  match fld w 15 12 with
  | 0 => formOf (true) (some (.ldfe (BitVec.ofNat 5 (fld w 25 21)) (BitVec.ofNat 5 (fld w 20 16)) (BitVec.ofNat 12 (fld w 11 0)))) (true)
  | 1 => formOf (true) (some (.ldfeClr (BitVec.ofNat 5 (fld w 25 21)) (BitVec.ofNat 5 (fld w 20 16)) (BitVec.ofNat 12 (fld w 11 0)))) (true)
  | 2 => formOf (true) (some (.stfe (BitVec.ofNat 5 (fld w 25 21)) (BitVec.ofNat 5 (fld w 20 16)) (BitVec.ofNat 12 (fld w 11 0)))) (true)
  | 3 => formOf (true) (some (.feq (BitVec.ofNat 5 (fld w 25 21)) (BitVec.ofNat 5 (fld w 20 16)) (BitVec.ofNat 12 (fld w 11 0)))) (true)
  | _ => .error 3

/-- The forms of major 0x11 (Table 4-10). -/
def decode11 (w : Nat) : Except Nat Instr :=
  match fld w 15 12 with
  | 0 => formOf (true) (some (.marm (BitVec.ofNat 5 (fld w 20 16)) (BitVec.ofNat 12 (fld w 11 0)))) (fld w 25 21 == 0)
  | 1 => formOf (true) (some .mclr) (fld w 25 21 == 0 && fld w 20 16 == 0 && fld w 11 11 == 0 && fld w 10 0 == 0)
  | 2 => formOf (true) (some .mwait) (fld w 25 21 == 0 && fld w 20 16 == 0 && fld w 11 11 == 0 && fld w 10 0 == 0)
  | 3 => formOf (true) (some .yield) (fld w 25 21 == 0 && fld w 20 16 == 0 && fld w 11 11 == 0 && fld w 10 0 == 0)
  | 4 => formOf (true) (some .halt) (fld w 25 21 == 0 && fld w 20 16 == 0 && fld w 11 11 == 0 && fld w 10 0 == 0)
  | _ => .error 3

/-- The forms of major 0x12 (Table 4-10). -/
def decode12 (w : Nat) : Except Nat Instr :=
  match fld w 10 0 with
  | 0 => formOf (true) (some (.fork (BitVec.ofNat 5 (fld w 20 16)) (BitVec.ofNat 5 (fld w 15 11)))) (fld w 25 21 == 0)
  | 1 => formOf (true) (some (.rfork (BitVec.ofNat 5 (fld w 25 21)) (BitVec.ofNat 5 (fld w 20 16)) (BitVec.ofNat 5 (fld w 15 11)))) (true)
  | 2 => formOf (true) (some (.join (BitVec.ofNat 5 (fld w 20 16)))) (fld w 25 21 == 0 && fld w 15 11 == 0)
  | 3 => formOf (true) (some .taskend) (fld w 25 21 == 0 && fld w 20 16 == 0 && fld w 15 11 == 0)
  | _ => .error 3

/-- The forms of major 0x13 (Table 4-10). -/
def decode13 (w : Nat) : Except Nat Instr :=
  match fld w 3 0 with
  | 0 => formOf (true) ((Kind.ofCode (fld w 10 9)).bind fun kind' => (Scope.ofCode (fld w 8 6)).bind fun sc' => some (.aadd (BitVec.ofNat 5 (fld w 25 21)) (BitVec.ofNat 5 (fld w 20 16)) (BitVec.ofNat 5 (fld w 15 11)) kind' sc' (fld w 5 5 == 1) (fld w 4 4 == 1))) (true)
  | 1 => formOf (true) ((Kind.ofCode (fld w 10 9)).bind fun kind' => (Scope.ofCode (fld w 8 6)).bind fun sc' => some (.aand (BitVec.ofNat 5 (fld w 25 21)) (BitVec.ofNat 5 (fld w 20 16)) (BitVec.ofNat 5 (fld w 15 11)) kind' sc' (fld w 5 5 == 1) (fld w 4 4 == 1))) (true)
  | 2 => formOf (true) ((Kind.ofCode (fld w 10 9)).bind fun kind' => (Scope.ofCode (fld w 8 6)).bind fun sc' => some (.aor (BitVec.ofNat 5 (fld w 25 21)) (BitVec.ofNat 5 (fld w 20 16)) (BitVec.ofNat 5 (fld w 15 11)) kind' sc' (fld w 5 5 == 1) (fld w 4 4 == 1))) (true)
  | 3 => formOf (true) ((Kind.ofCode (fld w 10 9)).bind fun kind' => (Scope.ofCode (fld w 8 6)).bind fun sc' => some (.axor (BitVec.ofNat 5 (fld w 25 21)) (BitVec.ofNat 5 (fld w 20 16)) (BitVec.ofNat 5 (fld w 15 11)) kind' sc' (fld w 5 5 == 1) (fld w 4 4 == 1))) (true)
  | 4 => formOf (true) ((Kind.ofCode (fld w 10 9)).bind fun kind' => (Scope.ofCode (fld w 8 6)).bind fun sc' => some (.amin (BitVec.ofNat 5 (fld w 25 21)) (BitVec.ofNat 5 (fld w 20 16)) (BitVec.ofNat 5 (fld w 15 11)) kind' sc' (fld w 5 5 == 1) (fld w 4 4 == 1))) (true)
  | 5 => formOf (true) ((Kind.ofCode (fld w 10 9)).bind fun kind' => (Scope.ofCode (fld w 8 6)).bind fun sc' => some (.amax (BitVec.ofNat 5 (fld w 25 21)) (BitVec.ofNat 5 (fld w 20 16)) (BitVec.ofNat 5 (fld w 15 11)) kind' sc' (fld w 5 5 == 1) (fld w 4 4 == 1))) (true)
  | 6 => formOf (true) ((Kind.ofCode (fld w 10 9)).bind fun kind' => (Scope.ofCode (fld w 8 6)).bind fun sc' => some (.aminu (BitVec.ofNat 5 (fld w 25 21)) (BitVec.ofNat 5 (fld w 20 16)) (BitVec.ofNat 5 (fld w 15 11)) kind' sc' (fld w 5 5 == 1) (fld w 4 4 == 1))) (true)
  | 7 => formOf (true) ((Kind.ofCode (fld w 10 9)).bind fun kind' => (Scope.ofCode (fld w 8 6)).bind fun sc' => some (.amaxu (BitVec.ofNat 5 (fld w 25 21)) (BitVec.ofNat 5 (fld w 20 16)) (BitVec.ofNat 5 (fld w 15 11)) kind' sc' (fld w 5 5 == 1) (fld w 4 4 == 1))) (true)
  | 8 => formOf (true) ((Kind.ofCode (fld w 10 9)).bind fun kind' => (Scope.ofCode (fld w 8 6)).bind fun sc' => some (.axchg (BitVec.ofNat 5 (fld w 25 21)) (BitVec.ofNat 5 (fld w 20 16)) (BitVec.ofNat 5 (fld w 15 11)) kind' sc' (fld w 5 5 == 1) (fld w 4 4 == 1))) (true)
  | 9 => formOf (fld w 5 5 == 0) ((Kind.ofCode (fld w 10 9)).bind fun kind' => (Scope.ofCode (fld w 8 6)).bind fun sc' => some (.acas (BitVec.ofNat 5 (fld w 25 21)) (BitVec.ofNat 5 (fld w 20 16)) (BitVec.ofNat 5 (fld w 15 11)) kind' sc' (fld w 4 4 == 1))) (true)
  | 10 => formOf (fld w 10 4 == 0) (some (.migr (BitVec.ofNat 5 (fld w 20 16)))) (fld w 25 21 == 0 && fld w 15 11 == 0)
  | 11 => formOf (fld w 10 4 == 0) (some .retn) (fld w 25 21 == 0 && fld w 20 16 == 0 && fld w 15 11 == 0)
  | _ => .error 3

/-- The forms of major 0x14 (Table 4-10). -/
def decode14 (w : Nat) : Except Nat Instr :=
  match fld w 3 0 with
  | 0 => formOf (true) ((relOf (fld w 10 9)).bind fun rel' => (Scope.ofCode (fld w 8 6)).bind fun sc' => some (.radd (BitVec.ofNat 5 (fld w 20 16)) (BitVec.ofNat 5 (fld w 15 11)) rel' sc' (fld w 5 5 == 1) (fld w 4 4 == 1))) (fld w 25 21 == 0)
  | 1 => formOf (true) ((relOf (fld w 10 9)).bind fun rel' => (Scope.ofCode (fld w 8 6)).bind fun sc' => some (.rand (BitVec.ofNat 5 (fld w 20 16)) (BitVec.ofNat 5 (fld w 15 11)) rel' sc' (fld w 5 5 == 1) (fld w 4 4 == 1))) (fld w 25 21 == 0)
  | 2 => formOf (true) ((relOf (fld w 10 9)).bind fun rel' => (Scope.ofCode (fld w 8 6)).bind fun sc' => some (.ror (BitVec.ofNat 5 (fld w 20 16)) (BitVec.ofNat 5 (fld w 15 11)) rel' sc' (fld w 5 5 == 1) (fld w 4 4 == 1))) (fld w 25 21 == 0)
  | 3 => formOf (true) ((relOf (fld w 10 9)).bind fun rel' => (Scope.ofCode (fld w 8 6)).bind fun sc' => some (.rxor (BitVec.ofNat 5 (fld w 20 16)) (BitVec.ofNat 5 (fld w 15 11)) rel' sc' (fld w 5 5 == 1) (fld w 4 4 == 1))) (fld w 25 21 == 0)
  | 4 => formOf (true) ((relOf (fld w 10 9)).bind fun rel' => (Scope.ofCode (fld w 8 6)).bind fun sc' => some (.rmin (BitVec.ofNat 5 (fld w 20 16)) (BitVec.ofNat 5 (fld w 15 11)) rel' sc' (fld w 5 5 == 1) (fld w 4 4 == 1))) (fld w 25 21 == 0)
  | 5 => formOf (true) ((relOf (fld w 10 9)).bind fun rel' => (Scope.ofCode (fld w 8 6)).bind fun sc' => some (.rmax (BitVec.ofNat 5 (fld w 20 16)) (BitVec.ofNat 5 (fld w 15 11)) rel' sc' (fld w 5 5 == 1) (fld w 4 4 == 1))) (fld w 25 21 == 0)
  | 6 => formOf (true) ((relOf (fld w 10 9)).bind fun rel' => (Scope.ofCode (fld w 8 6)).bind fun sc' => some (.rfadd (BitVec.ofNat 5 (fld w 20 16)) (BitVec.ofNat 5 (fld w 15 11)) rel' sc' (fld w 5 5 == 1) (fld w 4 4 == 1))) (fld w 25 21 == 0)
  | _ => .error 3

/-- The forms of major 0x15 (Table 4-10). -/
def decode15 (w : Nat) : Except Nat Instr :=
  match fld w 3 0 with
  | 0 => formOf (true) (some (.hjoin (BitVec.ofNat 5 (fld w 25 21)) (BitVec.ofNat 5 (fld w 20 16)) (fld w 7 7 == 1) (fld w 6 6 == 1) (BitVec.ofNat 2 (fld w 5 4)))) (fld w 15 11 == 0 && fld w 10 8 == 0)
  | 1 => formOf (fld w 7 6 == 0) (some (.hleave (BitVec.ofNat 2 (fld w 5 4)))) (fld w 25 21 == 0 && fld w 20 16 == 0 && fld w 15 11 == 0 && fld w 10 8 == 0)
  | 2 => formOf (fld w 7 6 == 0) (some (.hbar (BitVec.ofNat 2 (fld w 5 4)))) (fld w 25 21 == 0 && fld w 20 16 == 0 && fld w 15 11 == 0 && fld w 10 8 == 0)
  | 3 => formOf (fld w 7 6 == 0) (some (.harrv (BitVec.ofNat 2 (fld w 5 4)))) (fld w 25 21 == 0 && fld w 20 16 == 0 && fld w 15 11 == 0 && fld w 10 8 == 0)
  | 4 => formOf (fld w 7 6 == 0) (some (.hwait (BitVec.ofNat 2 (fld w 5 4)))) (fld w 25 21 == 0 && fld w 20 16 == 0 && fld w 15 11 == 0 && fld w 10 8 == 0)
  | 5 => formOf (fld w 7 6 == 0) ((VoteSel.ofCode (fld w 10 8)).bind fun sel' => some (.hvote (BitVec.ofNat 5 (fld w 25 21)) (BitVec.ofNat 5 (fld w 20 16)) sel' (BitVec.ofNat 2 (fld w 5 4)))) (fld w 15 11 == 0)
  | 6 => formOf (fld w 7 6 == 0) ((RedSel.ofCode (fld w 10 8)).bind fun sel' => some (.hred (BitVec.ofNat 5 (fld w 25 21)) (BitVec.ofNat 5 (fld w 20 16)) sel' (BitVec.ofNat 2 (fld w 5 4)))) (fld w 15 11 == 0)
  | 7 => formOf (fld w 7 6 == 0) (some (.hinfo (BitVec.ofNat 5 (fld w 25 21)) (BitVec.ofNat 2 (fld w 5 4)))) (fld w 20 16 == 0 && fld w 15 11 == 0 && fld w 10 8 == 0)
  | _ => .error 3

/-- The forms of major 0x16 (Table 4-10). -/
def decode16 (w : Nat) : Except Nat Instr :=
  match fld w 10 0 with
  | 0 => formOf (true) (some (.wpres (BitVec.ofNat 5 (fld w 25 21)) (BitVec.ofNat 5 (fld w 20 16)))) (fld w 15 11 == 0)
  | 1 => formOf (true) (some (.wsplit (BitVec.ofNat 5 (fld w 25 21)) (BitVec.ofNat 5 (fld w 20 16)) (BitVec.ofNat 5 (fld w 15 11)))) (true)
  | 2 => formOf (true) (some (.wdeleg (BitVec.ofNat 5 (fld w 25 21)) (BitVec.ofNat 5 (fld w 20 16)) (BitVec.ofNat 5 (fld w 15 11)))) (true)
  | 3 => formOf (true) (some (.wsurr (BitVec.ofNat 5 (fld w 25 21)) (BitVec.ofNat 5 (fld w 20 16)))) (fld w 15 11 == 0)
  | 4 => formOf (true) (some (.wreset (BitVec.ofNat 5 (fld w 25 21)) (BitVec.ofNat 5 (fld w 20 16)))) (fld w 15 11 == 0)
  | 5 => formOf (true) (some (.wqry (BitVec.ofNat 5 (fld w 25 21)) (BitVec.ofNat 5 (fld w 20 16)) (BitVec.ofNat 5 (fld w 15 11)))) (true)
  | _ => .error 3

/-- The forms of major 0x17 (Table 4-10). -/
def decode17 (w : Nat) : Except Nat Instr :=
  match fld w 4 0 with
  | 0 => formOf (true) (some (.cpy (BitVec.ofNat 5 (fld w 25 21)) (BitVec.ofNat 5 (fld w 20 16)) (BitVec.ofNat 5 (fld w 15 11)) (BitVec.ofNat 3 (fld w 7 5)))) (fld w 10 8 == 0)
  | 1 => formOf (true) (some (.cpys (BitVec.ofNat 5 (fld w 25 21)) (BitVec.ofNat 5 (fld w 20 16)) (BitVec.ofNat 5 (fld w 15 11)) (BitVec.ofNat 3 (fld w 7 5)))) (fld w 10 8 == 0)
  | 2 => formOf (true) (some (.cpwait (BitVec.ofNat 5 (fld w 20 16)) (BitVec.ofNat 3 (fld w 7 5)))) (fld w 25 21 == 0 && fld w 15 11 == 0 && fld w 10 8 == 0)
  | 3 => formOf (true) (some (.chwm (BitVec.ofNat 5 (fld w 20 16)) (BitVec.ofNat 5 (fld w 15 11)) (BitVec.ofNat 3 (fld w 7 5)))) (fld w 25 21 == 0 && fld w 10 8 == 0)
  | 4 => formOf (true) (some (.halo (BitVec.ofNat 5 (fld w 20 16)) (BitVec.ofNat 5 (fld w 15 11)))) (fld w 25 21 == 0 && fld w 10 5 == 0)
  | 5 => formOf (true) (some (.halowait (BitVec.ofNat 5 (fld w 20 16)) (BitVec.ofNat 5 (fld w 15 11)))) (fld w 25 21 == 0 && fld w 10 5 == 0)
  | 6 => formOf (true) (some (.mcast (BitVec.ofNat 5 (fld w 25 21)) (BitVec.ofNat 5 (fld w 20 16)) (BitVec.ofNat 5 (fld w 15 11)))) (fld w 10 5 == 0)
  | 7 => formOf (true) (some (.gath (BitVec.ofNat 5 (fld w 25 21)) (BitVec.ofNat 5 (fld w 20 16)) (BitVec.ofNat 5 (fld w 15 11)) (BitVec.ofNat 3 (fld w 7 5)))) (fld w 10 8 == 0)
  | 8 => formOf (true) ((CType.ofCode (fld w 10 8)).bind fun ty' => (CollSel.ofCode (fld w 6 5)).bind fun sel' => some (.coll (BitVec.ofNat 5 (fld w 25 21)) (BitVec.ofNat 5 (fld w 20 16)) (BitVec.ofNat 5 (fld w 15 11)) ty' sel')) (fld w 7 7 == 0)
  | 9 => formOf (true) (some (.qstat (BitVec.ofNat 5 (fld w 25 21)))) (fld w 20 16 == 0 && fld w 15 11 == 0 && fld w 10 5 == 0)
  | 10 => formOf (true) ((MType.ofCode (fld w 10 8)).bind fun ty' => some (.mxop (BitVec.ofNat 5 (fld w 20 16)) ty' (fld w 5 5 == 1))) (fld w 25 21 == 0 && fld w 15 11 == 0 && fld w 7 6 == 0)
  | 11 => formOf (true) (some (.mxzero (BitVec.ofNat 5 (fld w 20 16)))) (fld w 25 21 == 0 && fld w 15 11 == 0 && fld w 10 5 == 0)
  | 12 => formOf (true) ((MType.ofCode (fld w 10 8)).bind fun ty' => some (.mxst (BitVec.ofNat 5 (fld w 20 16)) ty' (fld w 6 6 == 1))) (fld w 25 21 == 0 && fld w 15 11 == 0 && fld w 7 7 == 0 && fld w 5 5 == 0)
  | 13 => formOf (true) (some (.mxld (BitVec.ofNat 5 (fld w 20 16)))) (fld w 25 21 == 0 && fld w 15 11 == 0 && fld w 10 5 == 0)
  | 14 => formOf (true) (some (.mxring (BitVec.ofNat 5 (fld w 20 16)) (BitVec.ofNat 5 (fld w 15 11)))) (fld w 25 21 == 0 && fld w 10 5 == 0)
  | 15 => formOf (true) (some (.mxadv (BitVec.ofNat 5 (fld w 20 16)))) (fld w 25 21 == 0 && fld w 15 11 == 0 && fld w 10 5 == 0)
  | 16 => formOf (true) (some (.mxwgt (BitVec.ofNat 5 (fld w 20 16)))) (fld w 25 21 == 0 && fld w 15 11 == 0 && fld w 10 5 == 0)
  | _ => .error 3

/-- The forms of major 0x18 (Table 4-10). -/
def decode18 (w : Nat) : Except Nat Instr :=
  match fld w 15 12 with
  | 0 => formOf (true) (some (.cntr (BitVec.ofNat 5 (fld w 25 21)) (BitVec.ofNat 8 (fld w 7 0)))) (fld w 20 16 == 0 && fld w 11 11 == 0 && fld w 10 8 == 0)
  | 1 => formOf (fld w 11 1 == 0) (some (.time (BitVec.ofNat 5 (fld w 25 21)) (fld w 0 0 == 1))) (fld w 20 16 == 0)
  | _ => .error 3

/-- The forms of major 0x20 (Table 4-10). -/
def decode20 (w : Nat) : Except Nat Instr :=
  match fld w 6 5 with
  | 0 => formOf (true) ((EType.ofCode (fld w 10 7)).bind fun ty' => some (.vld (BitVec.ofNat 5 (fld w 25 21)) (BitVec.ofNat 5 (fld w 20 16)) ty' (BitVec.ofNat 3 (fld w 2 0)))) (fld w 15 11 == 0 && fld w 4 3 == 0)
  | 1 => formOf (true) ((EType.ofCode (fld w 10 7)).bind fun ty' => some (.vlds (BitVec.ofNat 5 (fld w 25 21)) (BitVec.ofNat 5 (fld w 20 16)) (BitVec.ofNat 5 (fld w 15 11)) ty' (BitVec.ofNat 3 (fld w 2 0)))) (fld w 4 3 == 0)
  | 2 => formOf (true) ((EType.ofCode (fld w 10 7)).bind fun ty' => some (.vldx (BitVec.ofNat 5 (fld w 25 21)) (BitVec.ofNat 5 (fld w 20 16)) (BitVec.ofNat 5 (fld w 15 11)) ty' (BitVec.ofNat 3 (fld w 2 0)))) (fld w 4 3 == 0)
  | _ => .error 3

/-- The forms of major 0x21 (Table 4-10). -/
def decode21 (w : Nat) : Except Nat Instr :=
  match fld w 6 5 with
  | 0 => formOf (true) ((EType.ofCode (fld w 10 7)).bind fun ty' => some (.vst (BitVec.ofNat 5 (fld w 25 21)) (BitVec.ofNat 5 (fld w 20 16)) ty' (BitVec.ofNat 3 (fld w 2 0)))) (fld w 15 11 == 0 && fld w 4 3 == 0)
  | 1 => formOf (true) ((EType.ofCode (fld w 10 7)).bind fun ty' => some (.vsts (BitVec.ofNat 5 (fld w 25 21)) (BitVec.ofNat 5 (fld w 20 16)) (BitVec.ofNat 5 (fld w 15 11)) ty' (BitVec.ofNat 3 (fld w 2 0)))) (fld w 4 3 == 0)
  | 2 => formOf (true) ((EType.ofCode (fld w 10 7)).bind fun ty' => some (.vstx (BitVec.ofNat 5 (fld w 25 21)) (BitVec.ofNat 5 (fld w 20 16)) (BitVec.ofNat 5 (fld w 15 11)) ty' (BitVec.ofNat 3 (fld w 2 0)))) (fld w 4 3 == 0)
  | _ => .error 3

/-- The forms of major 0x22 (Table 4-10). -/
def decode22 (w : Nat) : Except Nat Instr :=
  match fld w 7 3 with
  | 0 => formOf (true) ((IType.ofCode (fld w 10 8)).bind fun ty' => some (.vadd (BitVec.ofNat 5 (fld w 25 21)) (BitVec.ofNat 5 (fld w 20 16)) (BitVec.ofNat 5 (fld w 15 11)) ty' (BitVec.ofNat 3 (fld w 2 0)))) (true)
  | 1 => formOf (true) ((IType.ofCode (fld w 10 8)).bind fun ty' => some (.vsub (BitVec.ofNat 5 (fld w 25 21)) (BitVec.ofNat 5 (fld w 20 16)) (BitVec.ofNat 5 (fld w 15 11)) ty' (BitVec.ofNat 3 (fld w 2 0)))) (true)
  | 2 => formOf (true) ((IType.ofCode (fld w 10 8)).bind fun ty' => some (.vadds (BitVec.ofNat 5 (fld w 25 21)) (BitVec.ofNat 5 (fld w 20 16)) (BitVec.ofNat 5 (fld w 15 11)) ty' (BitVec.ofNat 3 (fld w 2 0)))) (true)
  | 3 => formOf (true) ((IType.ofCode (fld w 10 8)).bind fun ty' => some (.vsubs (BitVec.ofNat 5 (fld w 25 21)) (BitVec.ofNat 5 (fld w 20 16)) (BitVec.ofNat 5 (fld w 15 11)) ty' (BitVec.ofNat 3 (fld w 2 0)))) (true)
  | 4 => formOf (true) ((IType.ofCode (fld w 10 8)).bind fun ty' => some (.vmul (BitVec.ofNat 5 (fld w 25 21)) (BitVec.ofNat 5 (fld w 20 16)) (BitVec.ofNat 5 (fld w 15 11)) ty' (BitVec.ofNat 3 (fld w 2 0)))) (true)
  | 5 => formOf (true) ((IType.ofCode (fld w 10 8)).bind fun ty' => some (.vmulh (BitVec.ofNat 5 (fld w 25 21)) (BitVec.ofNat 5 (fld w 20 16)) (BitVec.ofNat 5 (fld w 15 11)) ty' (BitVec.ofNat 3 (fld w 2 0)))) (true)
  | 6 => formOf (true) ((IType.ofCode (fld w 10 8)).bind fun ty' => some (.vmin (BitVec.ofNat 5 (fld w 25 21)) (BitVec.ofNat 5 (fld w 20 16)) (BitVec.ofNat 5 (fld w 15 11)) ty' (BitVec.ofNat 3 (fld w 2 0)))) (true)
  | 7 => formOf (true) ((IType.ofCode (fld w 10 8)).bind fun ty' => some (.vmax (BitVec.ofNat 5 (fld w 25 21)) (BitVec.ofNat 5 (fld w 20 16)) (BitVec.ofNat 5 (fld w 15 11)) ty' (BitVec.ofNat 3 (fld w 2 0)))) (true)
  | 8 => formOf (true) ((IType.ofCode (fld w 10 8)).bind fun ty' => some (.vabs (BitVec.ofNat 5 (fld w 25 21)) (BitVec.ofNat 5 (fld w 20 16)) ty' (BitVec.ofNat 3 (fld w 2 0)))) (fld w 15 11 == 0)
  | 9 => formOf (true) ((IType.ofCode (fld w 10 8)).bind fun ty' => some (.vneg (BitVec.ofNat 5 (fld w 25 21)) (BitVec.ofNat 5 (fld w 20 16)) ty' (BitVec.ofNat 3 (fld w 2 0)))) (fld w 15 11 == 0)
  | 10 => formOf (true) ((IType.ofCode (fld w 10 8)).bind fun ty' => some (.vand (BitVec.ofNat 5 (fld w 25 21)) (BitVec.ofNat 5 (fld w 20 16)) (BitVec.ofNat 5 (fld w 15 11)) ty' (BitVec.ofNat 3 (fld w 2 0)))) (true)
  | 11 => formOf (true) ((IType.ofCode (fld w 10 8)).bind fun ty' => some (.vor (BitVec.ofNat 5 (fld w 25 21)) (BitVec.ofNat 5 (fld w 20 16)) (BitVec.ofNat 5 (fld w 15 11)) ty' (BitVec.ofNat 3 (fld w 2 0)))) (true)
  | 12 => formOf (true) ((IType.ofCode (fld w 10 8)).bind fun ty' => some (.vxor (BitVec.ofNat 5 (fld w 25 21)) (BitVec.ofNat 5 (fld w 20 16)) (BitVec.ofNat 5 (fld w 15 11)) ty' (BitVec.ofNat 3 (fld w 2 0)))) (true)
  | 13 => formOf (true) ((IType.ofCode (fld w 10 8)).bind fun ty' => some (.vandn (BitVec.ofNat 5 (fld w 25 21)) (BitVec.ofNat 5 (fld w 20 16)) (BitVec.ofNat 5 (fld w 15 11)) ty' (BitVec.ofNat 3 (fld w 2 0)))) (true)
  | 14 => formOf (true) ((IType.ofCode (fld w 10 8)).bind fun ty' => some (.vsll (BitVec.ofNat 5 (fld w 25 21)) (BitVec.ofNat 5 (fld w 20 16)) (BitVec.ofNat 5 (fld w 15 11)) ty' (BitVec.ofNat 3 (fld w 2 0)))) (true)
  | 15 => formOf (true) ((IType.ofCode (fld w 10 8)).bind fun ty' => some (.vsrl (BitVec.ofNat 5 (fld w 25 21)) (BitVec.ofNat 5 (fld w 20 16)) (BitVec.ofNat 5 (fld w 15 11)) ty' (BitVec.ofNat 3 (fld w 2 0)))) (true)
  | 16 => formOf (true) ((IType.ofCode (fld w 10 8)).bind fun ty' => some (.vsra (BitVec.ofNat 5 (fld w 25 21)) (BitVec.ofNat 5 (fld w 20 16)) (BitVec.ofNat 5 (fld w 15 11)) ty' (BitVec.ofNat 3 (fld w 2 0)))) (true)
  | 17 => formOf (true) ((IType.ofCode (fld w 10 8)).bind fun ty' => some (.vsel (BitVec.ofNat 5 (fld w 25 21)) (BitVec.ofNat 5 (fld w 20 16)) (BitVec.ofNat 5 (fld w 15 11)) ty' (BitVec.ofNat 3 (fld w 2 0)))) (true)
  | 18 => formOf (true) ((IType.ofCode (fld w 10 8)).bind fun ty' => some (.vcmpEq (BitVec.ofNat 5 (fld w 25 21)) (BitVec.ofNat 5 (fld w 20 16)) (BitVec.ofNat 5 (fld w 15 11)) ty' (BitVec.ofNat 3 (fld w 2 0)))) (true)
  | 19 => formOf (true) ((IType.ofCode (fld w 10 8)).bind fun ty' => some (.vcmpNe (BitVec.ofNat 5 (fld w 25 21)) (BitVec.ofNat 5 (fld w 20 16)) (BitVec.ofNat 5 (fld w 15 11)) ty' (BitVec.ofNat 3 (fld w 2 0)))) (true)
  | 20 => formOf (true) ((IType.ofCode (fld w 10 8)).bind fun ty' => some (.vcmpLt (BitVec.ofNat 5 (fld w 25 21)) (BitVec.ofNat 5 (fld w 20 16)) (BitVec.ofNat 5 (fld w 15 11)) ty' (BitVec.ofNat 3 (fld w 2 0)))) (true)
  | 21 => formOf (true) ((IType.ofCode (fld w 10 8)).bind fun ty' => some (.vcmpLe (BitVec.ofNat 5 (fld w 25 21)) (BitVec.ofNat 5 (fld w 20 16)) (BitVec.ofNat 5 (fld w 15 11)) ty' (BitVec.ofNat 3 (fld w 2 0)))) (true)
  | 22 => formOf (true) ((IType.ofCode (fld w 10 8)).bind fun ty' => some (.vcmpGt (BitVec.ofNat 5 (fld w 25 21)) (BitVec.ofNat 5 (fld w 20 16)) (BitVec.ofNat 5 (fld w 15 11)) ty' (BitVec.ofNat 3 (fld w 2 0)))) (true)
  | 23 => formOf (true) ((IType.ofCode (fld w 10 8)).bind fun ty' => some (.vcmpGe (BitVec.ofNat 5 (fld w 25 21)) (BitVec.ofNat 5 (fld w 20 16)) (BitVec.ofNat 5 (fld w 15 11)) ty' (BitVec.ofNat 3 (fld w 2 0)))) (true)
  | _ => .error 3

/-- The forms of major 0x23 (Table 4-10). -/
def decode23 (w : Nat) : Except Nat Instr :=
  match fld w 5 3 with
  | 0 => formOf (fld w 6 6 == 0) ((WType.ofCode (fld w 10 8)).bind fun ty' => some (.vwadd (BitVec.ofNat 5 (fld w 25 21)) (BitVec.ofNat 5 (fld w 20 16)) (BitVec.ofNat 5 (fld w 15 11)) ty' (BitVec.ofNat 3 (fld w 2 0)))) (fld w 7 7 == 0)
  | 1 => formOf (fld w 6 6 == 0) ((WType.ofCode (fld w 10 8)).bind fun ty' => some (.vwsub (BitVec.ofNat 5 (fld w 25 21)) (BitVec.ofNat 5 (fld w 20 16)) (BitVec.ofNat 5 (fld w 15 11)) ty' (BitVec.ofNat 3 (fld w 2 0)))) (fld w 7 7 == 0)
  | 2 => formOf (fld w 6 6 == 0) ((WType.ofCode (fld w 10 8)).bind fun ty' => some (.vwmul (BitVec.ofNat 5 (fld w 25 21)) (BitVec.ofNat 5 (fld w 20 16)) (BitVec.ofNat 5 (fld w 15 11)) ty' (BitVec.ofNat 3 (fld w 2 0)))) (fld w 7 7 == 0)
  | 3 => formOf (true) ((WType.ofCode (fld w 10 8)).bind fun ty' => some (.vdot2 (BitVec.ofNat 5 (fld w 25 21)) (BitVec.ofNat 5 (fld w 20 16)) (BitVec.ofNat 5 (fld w 15 11)) ty' (fld w 6 6 == 1) (BitVec.ofNat 3 (fld w 2 0)))) (fld w 7 7 == 0)
  | 4 => formOf (true) ((WType.ofCode (fld w 10 8)).bind fun ty' => some (.vdot4 (BitVec.ofNat 5 (fld w 25 21)) (BitVec.ofNat 5 (fld w 20 16)) (BitVec.ofNat 5 (fld w 15 11)) ty' (fld w 6 6 == 1) (BitVec.ofNat 3 (fld w 2 0)))) (fld w 7 7 == 0)
  | 5 => formOf (true) ((WType.ofCode (fld w 10 8)).bind fun ty' => some (.vnarrow (BitVec.ofNat 5 (fld w 25 21)) (BitVec.ofNat 5 (fld w 20 16)) ty' (fld w 6 6 == 1) (BitVec.ofNat 3 (fld w 2 0)))) (fld w 15 11 == 0 && fld w 7 7 == 0)
  | _ => .error 3

/-- The forms of major 0x24 (Table 4-10). -/
def decode24 (w : Nat) : Except Nat Instr :=
  match fld w 7 3 with
  | 0 => formOf (true) ((FFmt.ofCode (fld w 9 8)).bind fun f' => (RMode.ofWord w).bind fun rm' => some (.vfadd (BitVec.ofNat 5 (fld w 25 21)) (BitVec.ofNat 5 (fld w 20 16)) (BitVec.ofNat 5 (fld w 15 11)) f' rm')) (true)
  | 1 => formOf (true) ((FFmt.ofCode (fld w 9 8)).bind fun f' => (RMode.ofWord w).bind fun rm' => some (.vfsub (BitVec.ofNat 5 (fld w 25 21)) (BitVec.ofNat 5 (fld w 20 16)) (BitVec.ofNat 5 (fld w 15 11)) f' rm')) (true)
  | 2 => formOf (true) ((FFmt.ofCode (fld w 9 8)).bind fun f' => (RMode.ofWord w).bind fun rm' => some (.vfmul (BitVec.ofNat 5 (fld w 25 21)) (BitVec.ofNat 5 (fld w 20 16)) (BitVec.ofNat 5 (fld w 15 11)) f' rm')) (true)
  | 3 => formOf (true) ((FFmt.ofCode (fld w 9 8)).bind fun f' => (RMode.ofWord w).bind fun rm' => some (.vfdiv (BitVec.ofNat 5 (fld w 25 21)) (BitVec.ofNat 5 (fld w 20 16)) (BitVec.ofNat 5 (fld w 15 11)) f' rm')) (true)
  | 4 => formOf (true) ((FFmt.ofCode (fld w 9 8)).bind fun f' => (RMode.ofWord w).bind fun rm' => some (.vfma (BitVec.ofNat 5 (fld w 25 21)) (BitVec.ofNat 5 (fld w 20 16)) (BitVec.ofNat 5 (fld w 15 11)) f' rm')) (true)
  | 5 => formOf (true) ((FFmt.ofCode (fld w 9 8)).bind fun f' => (RMode.ofWord w).bind fun rm' => some (.vfms (BitVec.ofNat 5 (fld w 25 21)) (BitVec.ofNat 5 (fld w 20 16)) (BitVec.ofNat 5 (fld w 15 11)) f' rm')) (true)
  | 6 => formOf (true) ((FFmt.ofCode (fld w 9 8)).bind fun f' => (RMode.ofWord w).bind fun rm' => some (.vfnma (BitVec.ofNat 5 (fld w 25 21)) (BitVec.ofNat 5 (fld w 20 16)) (BitVec.ofNat 5 (fld w 15 11)) f' rm')) (true)
  | 7 => formOf (true) ((FFmt.ofCode (fld w 9 8)).bind fun f' => (RMode.ofWord w).bind fun rm' => some (.vfnms (BitVec.ofNat 5 (fld w 25 21)) (BitVec.ofNat 5 (fld w 20 16)) (BitVec.ofNat 5 (fld w 15 11)) f' rm')) (true)
  | 8 => formOf (fld w 10 10 == 0) ((FFmt.ofCode (fld w 9 8)).bind fun f' => some (.vfmin (BitVec.ofNat 5 (fld w 25 21)) (BitVec.ofNat 5 (fld w 20 16)) (BitVec.ofNat 5 (fld w 15 11)) f' (BitVec.ofNat 3 (fld w 2 0)))) (true)
  | 9 => formOf (fld w 10 10 == 0) ((FFmt.ofCode (fld w 9 8)).bind fun f' => some (.vfmax (BitVec.ofNat 5 (fld w 25 21)) (BitVec.ofNat 5 (fld w 20 16)) (BitVec.ofNat 5 (fld w 15 11)) f' (BitVec.ofNat 3 (fld w 2 0)))) (true)
  | 10 => formOf (fld w 10 10 == 0) ((FFmt.ofCode (fld w 9 8)).bind fun f' => some (.vfabs (BitVec.ofNat 5 (fld w 25 21)) (BitVec.ofNat 5 (fld w 20 16)) f' (BitVec.ofNat 3 (fld w 2 0)))) (fld w 15 11 == 0)
  | 11 => formOf (fld w 10 10 == 0) ((FFmt.ofCode (fld w 9 8)).bind fun f' => some (.vfneg (BitVec.ofNat 5 (fld w 25 21)) (BitVec.ofNat 5 (fld w 20 16)) f' (BitVec.ofNat 3 (fld w 2 0)))) (fld w 15 11 == 0)
  | 12 => formOf (true) ((FFmt.ofCode (fld w 9 8)).bind fun f' => (RMode.ofWord w).bind fun rm' => some (.vfsqrt (BitVec.ofNat 5 (fld w 25 21)) (BitVec.ofNat 5 (fld w 20 16)) f' rm')) (fld w 15 11 == 0)
  | 13 => formOf (true) ((FFmt.ofCode (fld w 9 8)).bind fun f' => (RMode.ofWord w).bind fun rm' => some (.vfrcp (BitVec.ofNat 5 (fld w 25 21)) (BitVec.ofNat 5 (fld w 20 16)) f' rm')) (fld w 15 11 == 0)
  | 14 => formOf (true) ((FFmt.ofCode (fld w 9 8)).bind fun f' => (RMode.ofWord w).bind fun rm' => some (.vfrsq (BitVec.ofNat 5 (fld w 25 21)) (BitVec.ofNat 5 (fld w 20 16)) f' rm')) (fld w 15 11 == 0)
  | 15 => formOf (fld w 10 10 == 0) ((FFmt.ofCode (fld w 9 8)).bind fun f' => some (.vfclass (BitVec.ofNat 5 (fld w 25 21)) (BitVec.ofNat 5 (fld w 20 16)) f' (BitVec.ofNat 3 (fld w 2 0)))) (fld w 15 11 == 0)
  | 16 => formOf (fld w 10 10 == 0) ((FFmt.ofCode (fld w 9 8)).bind fun f' => some (.vfcmpEq (BitVec.ofNat 5 (fld w 25 21)) (BitVec.ofNat 5 (fld w 20 16)) (BitVec.ofNat 5 (fld w 15 11)) f' (BitVec.ofNat 3 (fld w 2 0)))) (true)
  | 17 => formOf (fld w 10 10 == 0) ((FFmt.ofCode (fld w 9 8)).bind fun f' => some (.vfcmpNe (BitVec.ofNat 5 (fld w 25 21)) (BitVec.ofNat 5 (fld w 20 16)) (BitVec.ofNat 5 (fld w 15 11)) f' (BitVec.ofNat 3 (fld w 2 0)))) (true)
  | 18 => formOf (fld w 10 10 == 0) ((FFmt.ofCode (fld w 9 8)).bind fun f' => some (.vfcmpLt (BitVec.ofNat 5 (fld w 25 21)) (BitVec.ofNat 5 (fld w 20 16)) (BitVec.ofNat 5 (fld w 15 11)) f' (BitVec.ofNat 3 (fld w 2 0)))) (true)
  | 19 => formOf (fld w 10 10 == 0) ((FFmt.ofCode (fld w 9 8)).bind fun f' => some (.vfcmpLe (BitVec.ofNat 5 (fld w 25 21)) (BitVec.ofNat 5 (fld w 20 16)) (BitVec.ofNat 5 (fld w 15 11)) f' (BitVec.ofNat 3 (fld w 2 0)))) (true)
  | 20 => formOf (fld w 10 10 == 0) ((FFmt.ofCode (fld w 9 8)).bind fun f' => some (.vfcmpGt (BitVec.ofNat 5 (fld w 25 21)) (BitVec.ofNat 5 (fld w 20 16)) (BitVec.ofNat 5 (fld w 15 11)) f' (BitVec.ofNat 3 (fld w 2 0)))) (true)
  | 21 => formOf (fld w 10 10 == 0) ((FFmt.ofCode (fld w 9 8)).bind fun f' => some (.vfcmpGe (BitVec.ofNat 5 (fld w 25 21)) (BitVec.ofNat 5 (fld w 20 16)) (BitVec.ofNat 5 (fld w 15 11)) f' (BitVec.ofNat 3 (fld w 2 0)))) (true)
  | _ => .error 3

/-- The forms of major 0x25 (Table 4-10). -/
def decode25 (w : Nat) : Except Nat Instr :=
  match fld w 3 3 with
  | 0 => formOf (true) ((EType.ofCode (fld w 14 11)).bind fun st' => (DynRnd.ofCode (fld w 10 8)).bind fun rnd' => (EType.ofCode (fld w 7 4)).bind fun dt' => some (.vcvt (BitVec.ofNat 5 (fld w 25 21)) (BitVec.ofNat 5 (fld w 20 16)) (fld w 15 15 == 1) st' rnd' dt' (BitVec.ofNat 3 (fld w 2 0)))) (true)
  | 1 => formOf (true) ((GqSrc.ofCode (fld w 14 11)).bind fun st' => (DynRnd.ofCode (fld w 10 8)).bind fun rnd' => (GqFmt.ofCode (fld w 7 4)).bind fun dt' => some (.vcvtgq (BitVec.ofNat 5 (fld w 25 21)) (BitVec.ofNat 5 (fld w 20 16)) (fld w 15 15 == 1) st' rnd' dt' (BitVec.ofNat 3 (fld w 2 0)))) (true)
  | _ => .error 3

/-- The forms of major 0x26 (Table 4-10). -/
def decode26 (w : Nat) : Except Nat Instr :=
  match fld w 7 3 with
  | 0 => formOf (true) ((IType.ofCode (fld w 10 8)).bind fun ty' => some (.vperm (BitVec.ofNat 5 (fld w 25 21)) (BitVec.ofNat 5 (fld w 20 16)) (BitVec.ofNat 5 (fld w 15 11)) ty' (BitVec.ofNat 3 (fld w 2 0)))) (true)
  | 1 => formOf (true) ((IType.ofCode (fld w 10 8)).bind fun ty' => some (.vshuf (BitVec.ofNat 5 (fld w 25 21)) (BitVec.ofNat 5 (fld w 20 16)) (BitVec.ofNat 5 (fld w 15 11)) ty' (BitVec.ofNat 3 (fld w 2 0)))) (true)
  | 2 => formOf (true) ((IType.ofCode (fld w 10 8)).bind fun ty' => some (.vzip (BitVec.ofNat 5 (fld w 25 21)) (BitVec.ofNat 5 (fld w 20 16)) (BitVec.ofNat 5 (fld w 15 11)) ty' (BitVec.ofNat 3 (fld w 2 0)))) (true)
  | 3 => formOf (true) ((IType.ofCode (fld w 10 8)).bind fun ty' => some (.vunzip (BitVec.ofNat 5 (fld w 25 21)) (BitVec.ofNat 5 (fld w 20 16)) (BitVec.ofNat 5 (fld w 15 11)) ty' (BitVec.ofNat 3 (fld w 2 0)))) (true)
  | 4 => formOf (true) ((IType.ofCode (fld w 10 8)).bind fun ty' => some (.vbcast (BitVec.ofNat 5 (fld w 25 21)) (BitVec.ofNat 5 (fld w 20 16)) ty' (BitVec.ofNat 3 (fld w 2 0)))) (fld w 15 11 == 0)
  | 5 => formOf (true) ((IType.ofCode (fld w 10 8)).bind fun ty' => some (.vslide (BitVec.ofNat 5 (fld w 25 21)) (BitVec.ofNat 5 (fld w 20 16)) (BitVec.ofNat 5 (fld w 15 11)) ty' (BitVec.ofNat 3 (fld w 2 0)))) (true)
  | _ => .error 3

/-- The forms of major 0x27 (Table 4-10). -/
def decode27 (w : Nat) : Except Nat Instr :=
  match fld w 7 3 with
  | 0 => formOf (true) ((IType.ofCode (fld w 10 8)).bind fun ty' => some (.vredi (BitVec.ofNat 5 (fld w 25 21)) (BitVec.ofNat 5 (fld w 20 16)) ty' (BitVec.ofNat 3 (fld w 2 0)))) (fld w 15 11 == 0)
  | 1 => formOf (true) ((IType.ofCode (fld w 10 8)).bind fun ty' => some (.vmvs (BitVec.ofNat 5 (fld w 25 21)) (BitVec.ofNat 5 (fld w 20 16)) (BitVec.ofNat 5 (fld w 15 11)) ty' (BitVec.ofNat 3 (fld w 2 0)))) (true)
  | 2 => formOf (true) ((IType.ofCode (fld w 10 8)).bind fun ty' => some (.vspl (BitVec.ofNat 5 (fld w 25 21)) (BitVec.ofNat 5 (fld w 20 16)) (BitVec.ofNat 5 (fld w 15 11)) ty' (BitVec.ofNat 3 (fld w 2 0)))) (true)
  | 3 => formOf (true) ((FFmt.ofCode (fld w 9 8)).bind fun f' => (RMode.ofWord w).bind fun rm' => some (.vfreds (BitVec.ofNat 5 (fld w 25 21)) (BitVec.ofNat 5 (fld w 20 16)) (BitVec.ofNat 5 (fld w 15 11)) f' rm')) (true)
  | _ => .error 3

/-- The forms of major 0x28 (Table 4-10). -/
def decode28 (w : Nat) : Except Nat Instr :=
  match fld w 7 3 with
  | 0 => formOf (true) (some (.mand (BitVec.ofNat 5 (fld w 25 21)) (BitVec.ofNat 5 (fld w 20 16)) (BitVec.ofNat 5 (fld w 15 11)))) (fld w 10 8 == 0 && fld w 2 0 == 0)
  | 1 => formOf (true) (some (.mor (BitVec.ofNat 5 (fld w 25 21)) (BitVec.ofNat 5 (fld w 20 16)) (BitVec.ofNat 5 (fld w 15 11)))) (fld w 10 8 == 0 && fld w 2 0 == 0)
  | 2 => formOf (true) (some (.mxor (BitVec.ofNat 5 (fld w 25 21)) (BitVec.ofNat 5 (fld w 20 16)) (BitVec.ofNat 5 (fld w 15 11)))) (fld w 10 8 == 0 && fld w 2 0 == 0)
  | 3 => formOf (true) (some (.mnot (BitVec.ofNat 5 (fld w 25 21)) (BitVec.ofNat 5 (fld w 20 16)))) (fld w 15 11 == 0 && fld w 10 8 == 0 && fld w 2 0 == 0)
  | 4 => formOf (true) (some (.mpopc (BitVec.ofNat 5 (fld w 25 21)) (BitVec.ofNat 5 (fld w 20 16)))) (fld w 15 11 == 0 && fld w 10 8 == 0 && fld w 2 0 == 0)
  | 5 => formOf (true) (some (.mfirst (BitVec.ofNat 5 (fld w 25 21)) (BitVec.ofNat 5 (fld w 20 16)))) (fld w 15 11 == 0 && fld w 10 8 == 0 && fld w 2 0 == 0)
  | 6 => formOf (true) (some (.mmov (BitVec.ofNat 5 (fld w 25 21)) (BitVec.ofNat 5 (fld w 20 16)))) (fld w 15 11 == 0 && fld w 10 8 == 0 && fld w 2 0 == 0)
  | _ => .error 3

/-- The forms of major 0x29 (Table 4-10). -/
def decode29 (w : Nat) : Except Nat Instr :=
  match fld w 5 3 with
  | 0 => formOf (fld w 10 9 == 1) (some (.pori2 (BitVec.ofNat 5 (fld w 25 21)) (BitVec.ofNat 5 (fld w 20 16)) (fld w 8 8 == 1) (fld w 7 7 == 1) (fld w 6 6 == 1) (BitVec.ofNat 3 (fld w 2 0)))) (fld w 15 11 == 0)
  | 1 => formOf (fld w 10 9 == 1) (some (.pori3 (BitVec.ofNat 5 (fld w 25 21)) (BitVec.ofNat 5 (fld w 20 16)) (fld w 8 8 == 1) (fld w 7 7 == 1) (fld w 6 6 == 1) (BitVec.ofNat 3 (fld w 2 0)))) (fld w 15 11 == 0)
  | 2 => formOf (fld w 10 9 == 1) (some (.pincir (BitVec.ofNat 5 (fld w 25 21)) (BitVec.ofNat 5 (fld w 20 16)) (fld w 8 8 == 1) (fld w 7 7 == 1) (fld w 6 6 == 1) (BitVec.ofNat 3 (fld w 2 0)))) (fld w 15 11 == 0)
  | 3 => formOf (fld w 10 9 == 1) (some (.pinsph (BitVec.ofNat 5 (fld w 25 21)) (BitVec.ofNat 5 (fld w 20 16)) (fld w 8 8 == 1) (fld w 7 7 == 1) (fld w 6 6 == 1) (BitVec.ofNat 3 (fld w 2 0)))) (fld w 15 11 == 0)
  | 4 => formOf (fld w 10 9 == 1) (some (.psegx (BitVec.ofNat 5 (fld w 25 21)) (BitVec.ofNat 5 (fld w 20 16)) (fld w 8 8 == 1) (fld w 7 7 == 1) (fld w 6 6 == 1) (BitVec.ofNat 3 (fld w 2 0)))) (fld w 15 11 == 0)
  | _ => .error 3

/-- The forms of major 0x3C (Table 4-10). -/
def decode3C (w : Nat) : Except Nat Instr :=
  match fld w 10 0 with
  | 0 => formOf (true) (some (.rfetch (BitVec.ofNat 5 (fld w 25 21)) (BitVec.ofNat 5 (fld w 20 16)))) (fld w 15 11 == 0)
  | 1 => formOf (true) (some (.dispatch (BitVec.ofNat 5 (fld w 25 21)) (BitVec.ofNat 5 (fld w 20 16)) (BitVec.ofNat 5 (fld w 15 11)))) (true)
  | _ => .error 3

/-- The forms of major 0x3D (Table 4-10). -/
def decode3D (w : Nat) : Except Nat Instr :=
  match fld w 10 0 with
  | 0 => formOf (true) (some (.sigwait (BitVec.ofNat 5 (fld w 25 21)))) (fld w 20 16 == 0 && fld w 15 11 == 0)
  | _ => .error 3

/-- The forms of major 0x3E (Table 4-10). -/
def decode3E (w : Nat) : Except Nat Instr :=
  match fld w 10 0 with
  | 0 => formOf (true) (some (.keyld (BitVec.ofNat 5 (fld w 25 21)) (BitVec.ofNat 5 (fld w 20 16)) (BitVec.ofNat 5 (fld w 15 11)))) (true)
  | _ => .error 3

/-- The form a word's major opcode selects (Table 4-10); `ref` is referee mode (R73). -/
def decodeForm (ref : Bool) (w : Nat) : Except Nat Instr :=
  match fld w 31 26 with
  | 1 => decode01 w
  | 2 => decode02 w
  | 3 => decode03 w
  | 4 => decode04 w
  | 5 => decode05 w
  | 6 => decode06 w
  | 7 => decode07 w
  | 8 => decode08 w
  | 9 => decode09 w
  | 10 => decode0A w
  | 11 => decode0B w
  | 12 => decode0C w
  | 13 => decode0D w
  | 14 => decode0E w
  | 15 => decode0F w
  | 16 => decode10 w
  | 17 => decode11 w
  | 18 => decode12 w
  | 19 => decode13 w
  | 20 => decode14 w
  | 21 => decode15 w
  | 22 => decode16 w
  | 23 => decode17 w
  | 24 => decode18 w
  | 32 => decode20 w
  | 33 => decode21 w
  | 34 => decode22 w
  | 35 => decode23 w
  | 36 => decode24 w
  | 37 => decode25 w
  | 38 => decode26 w
  | 39 => decode27 w
  | 40 => decode28 w
  | 41 => decode29 w
  | 60 => if ref then decode3C w else .error 2
  | 61 => if ref then decode3D w else .error 2
  | 62 => if ref then decode3E w else .error 2
  | _ => .error 1

/-- Whether a word is an instruction in a mode, and which (R74); otherwise the first reason of Table 4-22. -/
def decode (ref : Bool) (w : IWord) : Except Nat Instr :=
  match decodeForm ref w.toNat with
  | .error r => .error r
  | .ok i =>
    match i.regReason with
    | some r => .error r
    | none => .ok i

/-- The word of an instruction, as a number: the base word plus the shifted field values (Tables 4-1 to
4-21). A device event has no encoding; it stands at the all-zero word, which is no instruction. -/
def encodeNat : Instr → Nat
  | .add d a b => 0x04000000 + d.toNat * 2097152 + a.toNat * 65536 + b.toNat * 2048
  | .sub d a b => 0x04000001 + d.toNat * 2097152 + a.toNat * 65536 + b.toNat * 2048
  | .and d a b => 0x04000002 + d.toNat * 2097152 + a.toNat * 65536 + b.toNat * 2048
  | .or d a b => 0x04000003 + d.toNat * 2097152 + a.toNat * 65536 + b.toNat * 2048
  | .xor d a b => 0x04000004 + d.toNat * 2097152 + a.toNat * 65536 + b.toNat * 2048
  | .andn d a b => 0x04000005 + d.toNat * 2097152 + a.toNat * 65536 + b.toNat * 2048
  | .sll d a b => 0x04000006 + d.toNat * 2097152 + a.toNat * 65536 + b.toNat * 2048
  | .srl d a b => 0x04000007 + d.toNat * 2097152 + a.toNat * 65536 + b.toNat * 2048
  | .sra d a b => 0x04000008 + d.toNat * 2097152 + a.toNat * 65536 + b.toNat * 2048
  | .rol d a b => 0x04000009 + d.toNat * 2097152 + a.toNat * 65536 + b.toNat * 2048
  | .min d a b => 0x0400000A + d.toNat * 2097152 + a.toNat * 65536 + b.toNat * 2048
  | .max d a b => 0x0400000B + d.toNat * 2097152 + a.toNat * 65536 + b.toNat * 2048
  | .minu d a b => 0x0400000C + d.toNat * 2097152 + a.toNat * 65536 + b.toNat * 2048
  | .maxu d a b => 0x0400000D + d.toNat * 2097152 + a.toNat * 65536 + b.toNat * 2048
  | .slt d a b => 0x0400000E + d.toNat * 2097152 + a.toNat * 65536 + b.toNat * 2048
  | .sltu d a b => 0x0400000F + d.toNat * 2097152 + a.toNat * 65536 + b.toNat * 2048
  | .seq d a b => 0x04000010 + d.toNat * 2097152 + a.toNat * 65536 + b.toNat * 2048
  | .sel d a b => 0x04000011 + d.toNat * 2097152 + a.toNat * 65536 + b.toNat * 2048
  | .addi d a imm => 0x08000000 + d.toNat * 2097152 + a.toNat * 65536 + imm.toNat
  | .andi d a imm => 0x0C000000 + d.toNat * 2097152 + a.toNat * 65536 + imm.toNat
  | .ori d a imm => 0x0C001000 + d.toNat * 2097152 + a.toNat * 65536 + imm.toNat
  | .xori d a imm => 0x0C002000 + d.toNat * 2097152 + a.toNat * 65536 + imm.toNat
  | .slli d a k => 0x0C003000 + d.toNat * 2097152 + a.toNat * 65536 + k.toNat
  | .srli d a k => 0x0C004000 + d.toNat * 2097152 + a.toNat * 65536 + k.toNat
  | .srai d a k => 0x0C005000 + d.toNat * 2097152 + a.toNat * 65536 + k.toNat
  | .roli d a k => 0x0C006000 + d.toNat * 2097152 + a.toNat * 65536 + k.toNat
  | .slti d a imm => 0x0C007000 + d.toNat * 2097152 + a.toNat * 65536 + imm.toNat
  | .sltiu d a imm => 0x0C008000 + d.toNat * 2097152 + a.toNat * 65536 + imm.toNat
  | .seqi d a imm => 0x0C009000 + d.toNat * 2097152 + a.toNat * 65536 + imm.toNat
  | .lui d imm => 0x10000000 + d.toNat * 2097152 + imm.toNat
  | .auipc d imm => 0x14000000 + d.toNat * 2097152 + imm.toNat
  | .mul d a b => 0x18000000 + d.toNat * 2097152 + a.toNat * 65536 + b.toNat * 2048
  | .mulh d a b => 0x18000001 + d.toNat * 2097152 + a.toNat * 65536 + b.toNat * 2048
  | .mulhu d a b => 0x18000002 + d.toNat * 2097152 + a.toNat * 65536 + b.toNat * 2048
  | .div d a b => 0x18000003 + d.toNat * 2097152 + a.toNat * 65536 + b.toNat * 2048
  | .divu d a b => 0x18000004 + d.toNat * 2097152 + a.toNat * 65536 + b.toNat * 2048
  | .rem d a b => 0x18000005 + d.toNat * 2097152 + a.toNat * 65536 + b.toNat * 2048
  | .remu d a b => 0x18000006 + d.toNat * 2097152 + a.toNat * 65536 + b.toNat * 2048
  | .clz d a => 0x1C000000 + d.toNat * 2097152 + a.toNat * 65536
  | .ctz d a => 0x1C000001 + d.toNat * 2097152 + a.toNat * 65536
  | .popc d a => 0x1C000002 + d.toNat * 2097152 + a.toNat * 65536
  | .brev d a => 0x1C000003 + d.toNat * 2097152 + a.toNat * 65536
  | .bswap d a => 0x1C000004 + d.toNat * 2097152 + a.toNat * 65536
  | .bfx d a b => 0x1C000005 + d.toNat * 2097152 + a.toNat * 65536 + b.toNat * 2048
  | .bfi d a b => 0x1C000006 + d.toNat * 2097152 + a.toNat * 65536 + b.toNat * 2048
  | .lb d a imm => 0x20000000 + d.toNat * 2097152 + a.toNat * 65536 + imm.toNat
  | .lbu d a imm => 0x20001000 + d.toNat * 2097152 + a.toNat * 65536 + imm.toNat
  | .lh d a imm => 0x20002000 + d.toNat * 2097152 + a.toNat * 65536 + imm.toNat
  | .lhu d a imm => 0x20003000 + d.toNat * 2097152 + a.toNat * 65536 + imm.toNat
  | .lw d a imm => 0x20004000 + d.toNat * 2097152 + a.toNat * 65536 + imm.toNat
  | .lwu d a imm => 0x20005000 + d.toNat * 2097152 + a.toNat * 65536 + imm.toNat
  | .ld d a imm => 0x20006000 + d.toNat * 2097152 + a.toNat * 65536 + imm.toNat
  | .sb b a imm => 0x24000000 + b.toNat * 2097152 + a.toNat * 65536 + imm.toNat
  | .sh b a imm => 0x24001000 + b.toNat * 2097152 + a.toNat * 65536 + imm.toNat
  | .sw b a imm => 0x24002000 + b.toNat * 2097152 + a.toNat * 65536 + imm.toNat
  | .sd b a imm => 0x24003000 + b.toNat * 2097152 + a.toNat * 65536 + imm.toNat
  | .ldo d a acq sc imm => 0x28000000 + d.toNat * 2097152 + a.toNat * 65536 + boolCode acq * 32768 + sc.code * 4096 + imm.toNat
  | .sto b a rel sc imm => 0x2C000000 + b.toNat * 2097152 + a.toNat * 65536 + boolCode rel * 32768 + sc.code * 4096 + imm.toNat
  | .beq a b off => 0x30000000 + a.toNat * 262144 + b.toNat * 8192 + off.toNat
  | .bne a b off => 0x30800000 + a.toNat * 262144 + b.toNat * 8192 + off.toNat
  | .blt a b off => 0x31000000 + a.toNat * 262144 + b.toNat * 8192 + off.toNat
  | .bge a b off => 0x31800000 + a.toNat * 262144 + b.toNat * 8192 + off.toNat
  | .bltu a b off => 0x32000000 + a.toNat * 262144 + b.toNat * 8192 + off.toNat
  | .bgeu a b off => 0x32800000 + a.toNat * 262144 + b.toNat * 8192 + off.toNat
  | .jal d off => 0x34000000 + d.toNat * 2097152 + off.toNat
  | .jalr d a imm => 0x38000000 + d.toNat * 2097152 + a.toNat * 65536 + imm.toNat
  | .csrr d csr => 0x3C000000 + d.toNat * 2097152 + csr.toNat
  | .csrw a csr => 0x3C001000 + a.toNat * 65536 + csr.toNat
  | .csrs a csr => 0x3C002000 + a.toNat * 65536 + csr.toNat
  | .csrc a csr => 0x3C003000 + a.toNat * 65536 + csr.toNat
  | .trap a code => 0x3C004000 + a.toNat * 65536 + code.toNat
  | .eret => 0x3C005000
  | .ucall n => 0x3C006000 + n.toNat
  | .brk n => 0x3C007000 + n.toNat
  | .fence kind sc => 0x3C008000 + kind.code * 8 + sc.code
  | .iflush => 0x3C009000
  | .winset a w => 0x3C00A000 + a.toNat * 65536 + w.toNat
  | .ldfe d a imm => 0x40000000 + d.toNat * 2097152 + a.toNat * 65536 + imm.toNat
  | .ldfeClr d a imm => 0x40001000 + d.toNat * 2097152 + a.toNat * 65536 + imm.toNat
  | .stfe b a imm => 0x40002000 + b.toNat * 2097152 + a.toNat * 65536 + imm.toNat
  | .feq d a imm => 0x40003000 + d.toNat * 2097152 + a.toNat * 65536 + imm.toNat
  | .marm a imm => 0x44000000 + a.toNat * 65536 + imm.toNat
  | .mclr => 0x44001000
  | .mwait => 0x44002000
  | .yield => 0x44003000
  | .halt => 0x44004000
  | .fork a b => 0x48000000 + a.toNat * 65536 + b.toNat * 2048
  | .rfork d a b => 0x48000001 + d.toNat * 2097152 + a.toNat * 65536 + b.toNat * 2048
  | .join a => 0x48000002 + a.toNat * 65536
  | .taskend => 0x48000003
  | .aadd d a b kind sc o w32 => 0x4C000000 + d.toNat * 2097152 + a.toNat * 65536 + b.toNat * 2048 + kind.code * 512 + sc.code * 64 + boolCode o * 32 + boolCode w32 * 16
  | .aand d a b kind sc o w32 => 0x4C000001 + d.toNat * 2097152 + a.toNat * 65536 + b.toNat * 2048 + kind.code * 512 + sc.code * 64 + boolCode o * 32 + boolCode w32 * 16
  | .aor d a b kind sc o w32 => 0x4C000002 + d.toNat * 2097152 + a.toNat * 65536 + b.toNat * 2048 + kind.code * 512 + sc.code * 64 + boolCode o * 32 + boolCode w32 * 16
  | .axor d a b kind sc o w32 => 0x4C000003 + d.toNat * 2097152 + a.toNat * 65536 + b.toNat * 2048 + kind.code * 512 + sc.code * 64 + boolCode o * 32 + boolCode w32 * 16
  | .amin d a b kind sc o w32 => 0x4C000004 + d.toNat * 2097152 + a.toNat * 65536 + b.toNat * 2048 + kind.code * 512 + sc.code * 64 + boolCode o * 32 + boolCode w32 * 16
  | .amax d a b kind sc o w32 => 0x4C000005 + d.toNat * 2097152 + a.toNat * 65536 + b.toNat * 2048 + kind.code * 512 + sc.code * 64 + boolCode o * 32 + boolCode w32 * 16
  | .aminu d a b kind sc o w32 => 0x4C000006 + d.toNat * 2097152 + a.toNat * 65536 + b.toNat * 2048 + kind.code * 512 + sc.code * 64 + boolCode o * 32 + boolCode w32 * 16
  | .amaxu d a b kind sc o w32 => 0x4C000007 + d.toNat * 2097152 + a.toNat * 65536 + b.toNat * 2048 + kind.code * 512 + sc.code * 64 + boolCode o * 32 + boolCode w32 * 16
  | .axchg d a b kind sc o w32 => 0x4C000008 + d.toNat * 2097152 + a.toNat * 65536 + b.toNat * 2048 + kind.code * 512 + sc.code * 64 + boolCode o * 32 + boolCode w32 * 16
  | .acas d a b kind sc w32 => 0x4C000009 + d.toNat * 2097152 + a.toNat * 65536 + b.toNat * 2048 + kind.code * 512 + sc.code * 64 + boolCode w32 * 16
  | .migr a => 0x4C00000A + a.toNat * 65536
  | .retn => 0x4C00000B
  | .radd a b rel sc o w32 => 0x50000000 + a.toNat * 65536 + b.toNat * 2048 + relCode rel * 512 + sc.code * 64 + boolCode o * 32 + boolCode w32 * 16
  | .rand a b rel sc o w32 => 0x50000001 + a.toNat * 65536 + b.toNat * 2048 + relCode rel * 512 + sc.code * 64 + boolCode o * 32 + boolCode w32 * 16
  | .ror a b rel sc o w32 => 0x50000002 + a.toNat * 65536 + b.toNat * 2048 + relCode rel * 512 + sc.code * 64 + boolCode o * 32 + boolCode w32 * 16
  | .rxor a b rel sc o w32 => 0x50000003 + a.toNat * 65536 + b.toNat * 2048 + relCode rel * 512 + sc.code * 64 + boolCode o * 32 + boolCode w32 * 16
  | .rmin a b rel sc o w32 => 0x50000004 + a.toNat * 65536 + b.toNat * 2048 + relCode rel * 512 + sc.code * 64 + boolCode o * 32 + boolCode w32 * 16
  | .rmax a b rel sc o w32 => 0x50000005 + a.toNat * 65536 + b.toNat * 2048 + relCode rel * 512 + sc.code * 64 + boolCode o * 32 + boolCode w32 * 16
  | .rfadd a b rel sc o w32 => 0x50000006 + a.toNat * 65536 + b.toNat * 2048 + relCode rel * 512 + sc.code * 64 + boolCode o * 32 + boolCode w32 * 16
  | .hjoin d a t x h => 0x54000000 + d.toNat * 2097152 + a.toNat * 65536 + boolCode t * 128 + boolCode x * 64 + h.toNat * 16
  | .hleave h => 0x54000001 + h.toNat * 16
  | .hbar h => 0x54000002 + h.toNat * 16
  | .harrv h => 0x54000003 + h.toNat * 16
  | .hwait h => 0x54000004 + h.toNat * 16
  | .hvote d a sel h => 0x54000005 + d.toNat * 2097152 + a.toNat * 65536 + sel.code * 256 + h.toNat * 16
  | .hred d a sel h => 0x54000006 + d.toNat * 2097152 + a.toNat * 65536 + sel.code * 256 + h.toNat * 16
  | .hinfo d h => 0x54000007 + d.toNat * 2097152 + h.toNat * 16
  | .wpres d a => 0x58000000 + d.toNat * 2097152 + a.toNat * 65536
  | .wsplit d a b => 0x58000001 + d.toNat * 2097152 + a.toNat * 65536 + b.toNat * 2048
  | .wdeleg d a b => 0x58000002 + d.toNat * 2097152 + a.toNat * 65536 + b.toNat * 2048
  | .wsurr d a => 0x58000003 + d.toNat * 2097152 + a.toNat * 65536
  | .wreset d a => 0x58000004 + d.toNat * 2097152 + a.toNat * 65536
  | .wqry d a b => 0x58000005 + d.toNat * 2097152 + a.toNat * 65536 + b.toNat * 2048
  | .cpy d a b ch => 0x5C000000 + d.toNat * 2097152 + a.toNat * 65536 + b.toNat * 2048 + ch.toNat * 32
  | .cpys d a b ch => 0x5C000001 + d.toNat * 2097152 + a.toNat * 65536 + b.toNat * 2048 + ch.toNat * 32
  | .cpwait a ch => 0x5C000002 + a.toNat * 65536 + ch.toNat * 32
  | .chwm a b ch => 0x5C000003 + a.toNat * 65536 + b.toNat * 2048 + ch.toNat * 32
  | .halo a b => 0x5C000004 + a.toNat * 65536 + b.toNat * 2048
  | .halowait a b => 0x5C000005 + a.toNat * 65536 + b.toNat * 2048
  | .mcast d a b => 0x5C000006 + d.toNat * 2097152 + a.toNat * 65536 + b.toNat * 2048
  | .gath d a b ch => 0x5C000007 + d.toNat * 2097152 + a.toNat * 65536 + b.toNat * 2048 + ch.toNat * 32
  | .coll d a b ty sel => 0x5C000008 + d.toNat * 2097152 + a.toNat * 65536 + b.toNat * 2048 + ty.code * 256 + sel.code * 32
  | .qstat d => 0x5C000009 + d.toNat * 2097152
  | .mxop a ty sp => 0x5C00000A + a.toNat * 65536 + ty.code * 256 + boolCode sp * 32
  | .mxzero a => 0x5C00000B + a.toNat * 65536
  | .mxst a ty sat => 0x5C00000C + a.toNat * 65536 + ty.code * 256 + boolCode sat * 64
  | .mxld a => 0x5C00000D + a.toNat * 65536
  | .mxring a b => 0x5C00000E + a.toNat * 65536 + b.toNat * 2048
  | .mxadv a => 0x5C00000F + a.toNat * 65536
  | .mxwgt a => 0x5C000010 + a.toNat * 65536
  | .cntr d e => 0x60000000 + d.toNat * 2097152 + e.toNat
  | .time d late => 0x60001000 + d.toNat * 2097152 + boolCode late
  | .vld d a ty m => 0x80000000 + d.toNat * 2097152 + a.toNat * 65536 + ty.code * 128 + m.toNat
  | .vlds d a b ty m => 0x80000020 + d.toNat * 2097152 + a.toNat * 65536 + b.toNat * 2048 + ty.code * 128 + m.toNat
  | .vldx d a b ty m => 0x80000040 + d.toNat * 2097152 + a.toNat * 65536 + b.toNat * 2048 + ty.code * 128 + m.toNat
  | .vst d a ty m => 0x84000000 + d.toNat * 2097152 + a.toNat * 65536 + ty.code * 128 + m.toNat
  | .vsts d a b ty m => 0x84000020 + d.toNat * 2097152 + a.toNat * 65536 + b.toNat * 2048 + ty.code * 128 + m.toNat
  | .vstx d a b ty m => 0x84000040 + d.toNat * 2097152 + a.toNat * 65536 + b.toNat * 2048 + ty.code * 128 + m.toNat
  | .vadd d a b ty m => 0x88000000 + d.toNat * 2097152 + a.toNat * 65536 + b.toNat * 2048 + ty.code * 256 + m.toNat
  | .vsub d a b ty m => 0x88000008 + d.toNat * 2097152 + a.toNat * 65536 + b.toNat * 2048 + ty.code * 256 + m.toNat
  | .vadds d a b ty m => 0x88000010 + d.toNat * 2097152 + a.toNat * 65536 + b.toNat * 2048 + ty.code * 256 + m.toNat
  | .vsubs d a b ty m => 0x88000018 + d.toNat * 2097152 + a.toNat * 65536 + b.toNat * 2048 + ty.code * 256 + m.toNat
  | .vmul d a b ty m => 0x88000020 + d.toNat * 2097152 + a.toNat * 65536 + b.toNat * 2048 + ty.code * 256 + m.toNat
  | .vmulh d a b ty m => 0x88000028 + d.toNat * 2097152 + a.toNat * 65536 + b.toNat * 2048 + ty.code * 256 + m.toNat
  | .vmin d a b ty m => 0x88000030 + d.toNat * 2097152 + a.toNat * 65536 + b.toNat * 2048 + ty.code * 256 + m.toNat
  | .vmax d a b ty m => 0x88000038 + d.toNat * 2097152 + a.toNat * 65536 + b.toNat * 2048 + ty.code * 256 + m.toNat
  | .vabs d a ty m => 0x88000040 + d.toNat * 2097152 + a.toNat * 65536 + ty.code * 256 + m.toNat
  | .vneg d a ty m => 0x88000048 + d.toNat * 2097152 + a.toNat * 65536 + ty.code * 256 + m.toNat
  | .vand d a b ty m => 0x88000050 + d.toNat * 2097152 + a.toNat * 65536 + b.toNat * 2048 + ty.code * 256 + m.toNat
  | .vor d a b ty m => 0x88000058 + d.toNat * 2097152 + a.toNat * 65536 + b.toNat * 2048 + ty.code * 256 + m.toNat
  | .vxor d a b ty m => 0x88000060 + d.toNat * 2097152 + a.toNat * 65536 + b.toNat * 2048 + ty.code * 256 + m.toNat
  | .vandn d a b ty m => 0x88000068 + d.toNat * 2097152 + a.toNat * 65536 + b.toNat * 2048 + ty.code * 256 + m.toNat
  | .vsll d a b ty m => 0x88000070 + d.toNat * 2097152 + a.toNat * 65536 + b.toNat * 2048 + ty.code * 256 + m.toNat
  | .vsrl d a b ty m => 0x88000078 + d.toNat * 2097152 + a.toNat * 65536 + b.toNat * 2048 + ty.code * 256 + m.toNat
  | .vsra d a b ty m => 0x88000080 + d.toNat * 2097152 + a.toNat * 65536 + b.toNat * 2048 + ty.code * 256 + m.toNat
  | .vsel d a b ty m => 0x88000088 + d.toNat * 2097152 + a.toNat * 65536 + b.toNat * 2048 + ty.code * 256 + m.toNat
  | .vcmpEq d a b ty m => 0x88000090 + d.toNat * 2097152 + a.toNat * 65536 + b.toNat * 2048 + ty.code * 256 + m.toNat
  | .vcmpNe d a b ty m => 0x88000098 + d.toNat * 2097152 + a.toNat * 65536 + b.toNat * 2048 + ty.code * 256 + m.toNat
  | .vcmpLt d a b ty m => 0x880000A0 + d.toNat * 2097152 + a.toNat * 65536 + b.toNat * 2048 + ty.code * 256 + m.toNat
  | .vcmpLe d a b ty m => 0x880000A8 + d.toNat * 2097152 + a.toNat * 65536 + b.toNat * 2048 + ty.code * 256 + m.toNat
  | .vcmpGt d a b ty m => 0x880000B0 + d.toNat * 2097152 + a.toNat * 65536 + b.toNat * 2048 + ty.code * 256 + m.toNat
  | .vcmpGe d a b ty m => 0x880000B8 + d.toNat * 2097152 + a.toNat * 65536 + b.toNat * 2048 + ty.code * 256 + m.toNat
  | .vwadd d a b ty m => 0x8C000000 + d.toNat * 2097152 + a.toNat * 65536 + b.toNat * 2048 + ty.code * 256 + m.toNat
  | .vwsub d a b ty m => 0x8C000008 + d.toNat * 2097152 + a.toNat * 65536 + b.toNat * 2048 + ty.code * 256 + m.toNat
  | .vwmul d a b ty m => 0x8C000010 + d.toNat * 2097152 + a.toNat * 65536 + b.toNat * 2048 + ty.code * 256 + m.toNat
  | .vdot2 d a b ty sat m => 0x8C000018 + d.toNat * 2097152 + a.toNat * 65536 + b.toNat * 2048 + ty.code * 256 + boolCode sat * 64 + m.toNat
  | .vdot4 d a b ty sat m => 0x8C000020 + d.toNat * 2097152 + a.toNat * 65536 + b.toNat * 2048 + ty.code * 256 + boolCode sat * 64 + m.toNat
  | .vnarrow d a ty sat m => 0x8C000028 + d.toNat * 2097152 + a.toNat * 65536 + ty.code * 256 + boolCode sat * 64 + m.toNat
  | .vfadd d a b f rm => 0x90000000 + d.toNat * 2097152 + a.toNat * 65536 + b.toNat * 2048 + f.code * 256 + rm.code
  | .vfsub d a b f rm => 0x90000008 + d.toNat * 2097152 + a.toNat * 65536 + b.toNat * 2048 + f.code * 256 + rm.code
  | .vfmul d a b f rm => 0x90000010 + d.toNat * 2097152 + a.toNat * 65536 + b.toNat * 2048 + f.code * 256 + rm.code
  | .vfdiv d a b f rm => 0x90000018 + d.toNat * 2097152 + a.toNat * 65536 + b.toNat * 2048 + f.code * 256 + rm.code
  | .vfma d a b f rm => 0x90000020 + d.toNat * 2097152 + a.toNat * 65536 + b.toNat * 2048 + f.code * 256 + rm.code
  | .vfms d a b f rm => 0x90000028 + d.toNat * 2097152 + a.toNat * 65536 + b.toNat * 2048 + f.code * 256 + rm.code
  | .vfnma d a b f rm => 0x90000030 + d.toNat * 2097152 + a.toNat * 65536 + b.toNat * 2048 + f.code * 256 + rm.code
  | .vfnms d a b f rm => 0x90000038 + d.toNat * 2097152 + a.toNat * 65536 + b.toNat * 2048 + f.code * 256 + rm.code
  | .vfmin d a b f m => 0x90000040 + d.toNat * 2097152 + a.toNat * 65536 + b.toNat * 2048 + f.code * 256 + m.toNat
  | .vfmax d a b f m => 0x90000048 + d.toNat * 2097152 + a.toNat * 65536 + b.toNat * 2048 + f.code * 256 + m.toNat
  | .vfabs d a f m => 0x90000050 + d.toNat * 2097152 + a.toNat * 65536 + f.code * 256 + m.toNat
  | .vfneg d a f m => 0x90000058 + d.toNat * 2097152 + a.toNat * 65536 + f.code * 256 + m.toNat
  | .vfsqrt d a f rm => 0x90000060 + d.toNat * 2097152 + a.toNat * 65536 + f.code * 256 + rm.code
  | .vfrcp d a f rm => 0x90000068 + d.toNat * 2097152 + a.toNat * 65536 + f.code * 256 + rm.code
  | .vfrsq d a f rm => 0x90000070 + d.toNat * 2097152 + a.toNat * 65536 + f.code * 256 + rm.code
  | .vfclass d a f m => 0x90000078 + d.toNat * 2097152 + a.toNat * 65536 + f.code * 256 + m.toNat
  | .vfcmpEq d a b f m => 0x90000080 + d.toNat * 2097152 + a.toNat * 65536 + b.toNat * 2048 + f.code * 256 + m.toNat
  | .vfcmpNe d a b f m => 0x90000088 + d.toNat * 2097152 + a.toNat * 65536 + b.toNat * 2048 + f.code * 256 + m.toNat
  | .vfcmpLt d a b f m => 0x90000090 + d.toNat * 2097152 + a.toNat * 65536 + b.toNat * 2048 + f.code * 256 + m.toNat
  | .vfcmpLe d a b f m => 0x90000098 + d.toNat * 2097152 + a.toNat * 65536 + b.toNat * 2048 + f.code * 256 + m.toNat
  | .vfcmpGt d a b f m => 0x900000A0 + d.toNat * 2097152 + a.toNat * 65536 + b.toNat * 2048 + f.code * 256 + m.toNat
  | .vfcmpGe d a b f m => 0x900000A8 + d.toNat * 2097152 + a.toNat * 65536 + b.toNat * 2048 + f.code * 256 + m.toNat
  | .vcvt d a sat st rnd dt m => 0x94000000 + d.toNat * 2097152 + a.toNat * 65536 + boolCode sat * 32768 + st.code * 2048 + DynRnd.code rnd * 256 + dt.code * 16 + m.toNat
  | .vcvtgq d a sat st rnd dt m => 0x94000008 + d.toNat * 2097152 + a.toNat * 65536 + boolCode sat * 32768 + st.code * 2048 + DynRnd.code rnd * 256 + dt.code * 16 + m.toNat
  | .vperm d a b ty m => 0x98000000 + d.toNat * 2097152 + a.toNat * 65536 + b.toNat * 2048 + ty.code * 256 + m.toNat
  | .vshuf d a b ty m => 0x98000008 + d.toNat * 2097152 + a.toNat * 65536 + b.toNat * 2048 + ty.code * 256 + m.toNat
  | .vzip d a b ty m => 0x98000010 + d.toNat * 2097152 + a.toNat * 65536 + b.toNat * 2048 + ty.code * 256 + m.toNat
  | .vunzip d a b ty m => 0x98000018 + d.toNat * 2097152 + a.toNat * 65536 + b.toNat * 2048 + ty.code * 256 + m.toNat
  | .vbcast d a ty m => 0x98000020 + d.toNat * 2097152 + a.toNat * 65536 + ty.code * 256 + m.toNat
  | .vslide d a b ty m => 0x98000028 + d.toNat * 2097152 + a.toNat * 65536 + b.toNat * 2048 + ty.code * 256 + m.toNat
  | .vredi d a ty m => 0x9C000000 + d.toNat * 2097152 + a.toNat * 65536 + ty.code * 256 + m.toNat
  | .vmvs d a b ty m => 0x9C000008 + d.toNat * 2097152 + a.toNat * 65536 + b.toNat * 2048 + ty.code * 256 + m.toNat
  | .vspl d a b ty m => 0x9C000010 + d.toNat * 2097152 + a.toNat * 65536 + b.toNat * 2048 + ty.code * 256 + m.toNat
  | .vfreds d a b f rm => 0x9C000018 + d.toNat * 2097152 + a.toNat * 65536 + b.toNat * 2048 + f.code * 256 + rm.code
  | .mand d a b => 0xA0000000 + d.toNat * 2097152 + a.toNat * 65536 + b.toNat * 2048
  | .mor d a b => 0xA0000008 + d.toNat * 2097152 + a.toNat * 65536 + b.toNat * 2048
  | .mxor d a b => 0xA0000010 + d.toNat * 2097152 + a.toNat * 65536 + b.toNat * 2048
  | .mnot d a => 0xA0000018 + d.toNat * 2097152 + a.toNat * 65536
  | .mpopc d a => 0xA0000020 + d.toNat * 2097152 + a.toNat * 65536
  | .mfirst d a => 0xA0000028 + d.toNat * 2097152 + a.toNat * 65536
  | .mmov d a => 0xA0000030 + d.toNat * 2097152 + a.toNat * 65536
  | .pori2 d a f64 nf sos m => 0xA4000200 + d.toNat * 2097152 + a.toNat * 65536 + boolCode f64 * 256 + boolCode nf * 128 + boolCode sos * 64 + m.toNat
  | .pori3 d a f64 nf sos m => 0xA4000208 + d.toNat * 2097152 + a.toNat * 65536 + boolCode f64 * 256 + boolCode nf * 128 + boolCode sos * 64 + m.toNat
  | .pincir d a f64 nf sos m => 0xA4000210 + d.toNat * 2097152 + a.toNat * 65536 + boolCode f64 * 256 + boolCode nf * 128 + boolCode sos * 64 + m.toNat
  | .pinsph d a f64 nf sos m => 0xA4000218 + d.toNat * 2097152 + a.toNat * 65536 + boolCode f64 * 256 + boolCode nf * 128 + boolCode sos * 64 + m.toNat
  | .psegx d a f64 nf sos m => 0xA4000220 + d.toNat * 2097152 + a.toNat * 65536 + boolCode f64 * 256 + boolCode nf * 128 + boolCode sos * 64 + m.toNat
  | .rfetch d a => 0xF0000000 + d.toNat * 2097152 + a.toNat * 65536
  | .dispatch d a b => 0xF0000001 + d.toNat * 2097152 + a.toNat * 65536 + b.toNat * 2048
  | .sigwait d => 0xF4000000 + d.toNat * 2097152
  | .keyld d a b => 0xF8000000 + d.toNat * 2097152 + a.toNat * 65536 + b.toNat * 2048
  | .threadRejoin _ => 0
  | .yieldPauseEnd _ => 0
  | .icacheLineFill _ => 0
  | .offCoreLoadReply _ => 0
  | .storeBufferDrain _ => 0
  | .writeReachesHome _ => 0
  | .feRequestAtBank _ => 0
  | .bankWakeupDone _ => 0
  | .translationWalkEnd _ => 0
  | .atomicAtHome _ => 0
  | .atomicReplyArrival _ => 0
  | .reductionAtHome _ => 0
  | .reductionAckArrival _ => 0
  | .joinDecrementAtHome _ => 0
  | .migrBlockAccept _ => 0
  | .migrBlockReturn _ => 0
  | .dequeSpillDone _ => 0
  | .dequeRefill _ _ => 0
  | .idleSlotPop _ => 0
  | .stealRequest _ _ => 0
  | .stealAnswer _ _ => 0
  | .stealRetryTimer _ _ => 0
  | .rforkSurveyDone _ => 0
  | .caddieTakeRequest _ => 0
  | .copyGranuleLand _ => 0
  | .copyComplete _ _ => 0
  | .haloDirectionArrival _ _ => 0
  | .mcastDelivery _ => 0
  | .gatherComplete _ _ => 0
  | .collContributionArrival _ _ => 0
  | .collComplete _ => 0
  | .messageLeaveSendQueue _ => 0
  | .messageDelivery _ => 0
  | .mxringTakeEffect _ => 0
  | .mxadvReachUnit _ => 0
  | .mxwgtTakeEffect _ => 0
  | .matrixStep _ => 0
  | .matrixRecordPush _ => 0
  | .huddleJoinHandled _ => 0
  | .huddleArrivalHandled _ => 0
  | .huddleLeaveHandled _ => 0
  | .huddleDeparture _ _ => 0
  | .hinfoHandled _ => 0
  | .huddleNoticeArrival _ => 0
  | .warrantRequestHandled _ => 0
  | .errorStopCycle _ => 0
  | .dumpStart _ => 0
  | .dumpWriteDone _ => 0
  | .energyAllowanceReached _ => 0
  | .energyOverrun _ => 0
  | .powerWindowEnd _ => 0
  | .contextExpiry _ => 0
  | .watchdogExpiry _ => 0
  | .backgroundScrubRead _ _ _ => 0
  | .doorbellWidxWrite _ _ => 0
  | .ctrlResume _ _ => 0
  | .ctrlSkip _ _ => 0
  | .ctrlAbort _ _ => 0
  | .packetFetch _ _ => 0
  | .launchStart _ _ => 0
  | .launchComplete _ => 0
  | .fencePacketComplete _ _ => 0
  | .sliceEnd _ => 0
  | .slicePlacement _ => 0
  | .stopDecision _ => 0
  | .stopHalt _ => 0
  | .flushToken _ => 0
  | .stateSaveDone _ => 0
  | .restoreDone _ => 0
  | .resumeRejoin _ => 0
  | .claimAtHome _ _ => 0
  | .claimRetry _ => 0
  | .claimTimeout _ => 0
  | .spentAtHome _ => 0
  | .powerOn => 0
  | .ident _ => 0
  | .commission _ _ _ => 0
  | .beacon _ _ => 0
  | .nonce _ => 0
  | .nonceExpiry _ => 0
  | .present _ _ _ _ => 0
  | .redeem _ _ _ => 0
  | .setwin _ _ _ _ => 0
  | .defq _ _ _ => 0
  | .lock _ => 0
  | .start _ => 0
  | .launch _ _ => 0
  | .read _ _ => 0
  | .surr _ => 0
  | .revoke _ _ _ => 0
  | .dbgcfg _ _ _ => 0
  | .dbgrel _ _ => 0
  | .dbgres _ => 0
  | .query _ _ => 0
  | .qctrl _ _ => 0
  | .linkTraining _ _ => 0
  | .flitReceive _ _ => 0
  | .linkDown _ => 0
  | .flitSend _ _ => 0
  | .systemAtomicReply _ _ => 0
  | .inboundAccess _ _ _ _ _ => 0
  | .traceWordMove _ => 0
  | .debugSample _ => 0
  | .captureFreeze _ => 0
  | .crossTriggerArrival _ => 0
  | .illegalWord _ _ => 0
  | .instructionFetchTrap _ _ => 0
  | .debugResumeCycle _ => 0
  | .captureCycleMatch _ => 0

/-- The word of a well-formed instruction. -/
def encode (i : Instr) : IWord := BitVec.ofNat 32 (encodeNat i)

/-- The four bytes of a word, as memory stores them (R55). -/
def wordBytes (w : IWord) : List Byte :=
  [w.extractLsb' 0 8, w.extractLsb' 8 8, w.extractLsb' 16 8, w.extractLsb' 24 8]

/-- The word that four bytes of memory hold (R55). -/
def bytesWord : List Byte → IWord
  | [b0, b1, b2, b3] => BitVec.ofNat 32 (b0.toNat + b1.toNat * 2 ^ 8 + b2.toNat * 2 ^ 16 + b3.toNat * 2 ^ 24)
  | _ => 0

/-- The instruction a word's bytes stand for in a mode (R55, R74). -/
def decodeBytes (ref : Bool) (bs : List Byte) : Except Nat Instr := decode ref (bytesWord bs)

/-- The instruction this decoder reads from an instruction whose bits are `w`, numbered as
spec/opcode_table.json numbers them. Every instruction is one 32-bit word (R55), laid out little-endian.
The referee-only rows decode in referee mode (R73), which decodes every other row as well (R18). -/
def decodeTableWord (_nbits w : Nat) : Option Instr :=
  match decodeBytes true (wordBytes (BitVec.ofNat 32 w)) with
  | .ok i => some i
  | .error _ => none

end Sys2Proof
end

