-- ==== Sys2Proof/Config.lean ====
section
/-! DEFINITION. What is fixed for the machine, and the free values: functions with no body, so that no proof
can know what they answer (notes/assumptions/7.md). -/

namespace Sys2Proof.Config

/-- A free value of the `fresh`-th draw (values the spec leaves open, with no operand to depend on). -/
opaque freeWord : Nat → BitVec 64

/-- The address of the umpire's ROM handler, which a trap in referee mode enters (R406). -/
opaque romHandler : BitVec 64

/-- Whether the referee's outbound queue, holding so many messages, is full (R408 gives it no depth). -/
opaque outboundFull : Nat → Bool

/-- The nonce bytes of a NONCE command (R403). -/
opaque nonceBytes : Nat → BitVec 256

/-- The bytes of the device's identity public key (R403, R409). -/
opaque identityKey : List (BitVec 8)

/-- The umpire's ROM version (R403, R405). -/
opaque romVersion : BitVec 64

/-- Whether the signature of a commissioning record verifies under the commissioning authority's key, whose digest is
fused into the module (R410). -/
opaque recordVerifies : CommissionRecord → List (BitVec 8) → Bool

/-- The flit type field of a message's flits on a channel (R397 gives the field no values). -/
opaque flitType : BitVec 4 → BitVec 4

/-- The flit type field of a flit with no payload that asks for link-level replay (R397 gives the field no values). -/
opaque replayType : BitVec 4

/-- What the 16-byte header of a DISPATCH names: a node and channel 0 or 1 (false or true), or none for a unit on the module
(R408 gives the header no layout). -/
opaque dispatchTo : List (BitVec 8) → Option (BitVec 16 × Bool)

/-- The address at which a referee core starts its ROM at power-on (R406 names none). -/
opaque romEntry : BitVec 64

/-- The words of a referee core's ROM, by address (R406 gives no contents). -/
opaque romWord : BitVec 64 → BitVec 32

/-- Whether an SLH-DSA-SHAKE-256s signature over a message verifies under the key whose digest is given
(R328): digest, message, signature. -/
opaque sigVerifies : BitVec 256 → List (BitVec 8) → List (BitVec 8) → Bool

/-- The device's own signature over a message with its identity key, of the 29,792 bytes of Table 27-4 (R405). -/
opaque identitySign : List (BitVec 8) → Vector (BitVec 8) 29792

/-- The key that an ML-KEM-1024 ciphertext unwraps to under the device's key (R256). -/
opaque kemUnwrap : List (BitVec 8) → List (BitVec 8)

/-- What fills up a key of fewer than the 64 bytes that AES-XTS-256 takes (R256, R339). -/
opaque keyTail : List (BitVec 8) → List (BitVec 8)

end Sys2Proof.Config
end

