-- ==== Sys2Proof/Machine/Bits.lean ====
section
/-! DEFINITION. Bit helpers: slices, little-endian bytes, elements of a vector register, saturation
(spec/00_scope.md Table 0-3, spec/05_number_formats.md R76 to R78). -/

namespace Sys2Proof.Machine

/-- Bits [hi:lo] of a word as a number (R5). -/
def bits (w : Word) (hi lo : Nat) : Nat := w.toNat / 2 ^ lo % 2 ^ (hi + 1 - lo)

/-- SInt(x, n): the low n bits of x read as two's complement (Table 0-3). -/
def sintN (x n : Nat) : Int :=
  let t := x % 2 ^ n
  if 2 * t < 2 ^ n then (t : Int) else (t : Int) - (2 ^ n : Nat)

/-- Trunc(x, n) of an integer (Table 0-3). -/
def truncN (x : Int) (n : Nat) : Nat := (x % ((2 ^ n : Nat) : Int)).toNat

/-- The ends of an integer type's range (Table 5-1). -/
def intMin (signed : Bool) (w : Nat) : Int := if signed then -((2 ^ (w - 1) : Nat) : Int) else 0

/-- The greatest value of an integer type (Table 5-1). -/
def intMax (signed : Bool) (w : Nat) : Int := if signed then (2 ^ (w - 1) : Nat) - 1 else (2 ^ w : Nat) - 1

/-- Sat(x, type) (R77). -/
def satN (x : Int) (signed : Bool) (w : Nat) : Int :=
  if x < intMin signed w then intMin signed w
  else if intMax signed w < x then intMax signed w
  else x

/-- A bit pattern read as a member of an integer type (R76). -/
def intOf (x : Nat) (signed : Bool) (w : Nat) : Int := if signed then sintN x w else ((x % 2 ^ w : Nat) : Int)

/-- The n low bytes of a number, lowest first (R5). -/
def leBytes : Nat → Nat → List Byte
  | 0, _ => []
  | n + 1, x => BitVec.ofNat 8 x :: leBytes n (x / 256)

/-- The number of little-endian bytes (R5). -/
def leNat : List Byte → Nat
  | [] => 0
  | b :: bs => b.toNat + 256 * leNat bs

/-- The 64-bit word of up to eight little-endian bytes. -/
def leWord (bs : List Byte) : Word := BitVec.ofNat 64 (leNat bs)

/-- Quotient of R78, on the exact operands. -/
def quot78 (signed : Bool) (w : Nat) (a b : Int) : Int :=
  if b = 0 then -1
  else if signed && decide (a = intMin true w) && decide (b = -1) then a
  else Int.tdiv a b

/-- Remainder of R78. -/
def rem78 (signed : Bool) (w : Nat) (a b : Int) : Int :=
  if b = 0 then a
  else if signed && decide (a = intMin true w) && decide (b = -1) then 0
  else a - Int.tdiv a b * b

/-- The number of zero bits above the highest one bit of a number below 2^n. -/
def clzN (n x : Nat) : Nat := if x = 0 then n else n - 1 - Nat.log2 x

/-- The number of zero bits below the lowest one bit of the n low bits. -/
def ctzN : Nat → Nat → Nat
  | 0, _ => 0
  | n + 1, x => if x % 2 = 1 then 0 else 1 + ctzN n (x / 2)

/-- The number of one bits among the n low bits. -/
def popcN : Nat → Nat → Nat
  | 0, _ => 0
  | n + 1, x => x % 2 + popcN n (x / 2)

/-- The n low bits in reverse order. -/
def revN : Nat → Nat → Nat
  | 0, _ => 0
  | n + 1, x => x % 2 * 2 ^ n + revN n (x / 2)

/-- Element i of width w of a register's 4,096 bits (R165). -/
def elemN (x w i : Nat) : Nat := x / 2 ^ (w * i) % 2 ^ w

/-- The number whose n elements of width w are f 0 to f (n - 1). -/
def ofElemsN (w : Nat) (f : Nat → Nat) : Nat → Nat
  | 0 => 0
  | n + 1 => ofElemsN w f n + f n % 2 ^ w * 2 ^ (w * n)

/-- Element i of width w of a vector register (R165). -/
def vElem (v : VReg) (w i : Nat) : Nat := elemN v.toNat w i

/-- The register whose elements of width w are f (R165). -/
def vOfElems (w : Nat) (f : Nat → Nat) : VReg := BitVec.ofNat 4096 (ofElemsN w f (4096 / w))

/-- The numbers below n, in ascending order. -/
def upTo (n : Nat) : List Nat := List.range n

/-- Replace the entries that a key selects, or append one. -/
def updKey {α : Type} (same : α → Bool) (new : α) : List α → List α
  | [] => [new]
  | x :: xs => if same x then new :: xs else x :: updKey same new xs

/-- Remove the first entry that a test selects. -/
def dropFirst {α : Type} (p : α → Bool) : List α → List α
  | [] => []
  | x :: xs => if p x then xs else x :: dropFirst p xs

/-- The ceiling of a quotient. -/
def ceilDiv (a b : Nat) : Nat := (a + b - 1) / b

/-- One bit of a CRC-32 register, the low bit first. -/
def crcBit (c : BitVec 32) : BitVec 32 := if c.getLsbD 0 then (c >>> 1) ^^^ 0xEDB88320#32 else c >>> 1

/-- One byte of a CRC-32. -/
def crcByte (c : BitVec 32) (b : Byte) : BitVec 32 := (upTo 8).foldl (fun c _ => crcBit c) (c ^^^ b.setWidth 32)

/-- The CRC-32 of some bytes, with the polynomial of IEEE 802.3 (R397; notes/assumptions/69.md). -/
def crc32 (bs : List Byte) : BitVec 32 := ~~~(bs.foldl crcByte (BitVec.allOnes 32))

/-- Insert a number into a strictly rising list. -/
def insertNat (x : Nat) : List Nat → List Nat
  | [] => [x]
  | y :: ys => if x < y then x :: y :: ys else if x = y then y :: ys else y :: insertNat x ys

/-- Insertion sort of numbers, without repeats. -/
def sortNats (xs : List Nat) : List Nat := xs.foldr insertNat []

/-- Set the k-th of some entries, counted from 0. -/
def setNth {α : Type} : List α → Nat → α → List α
  | [], _, _ => []
  | _ :: xs, 0, v => v :: xs
  | x :: xs, k + 1, v => x :: setNth xs k v

end Sys2Proof.Machine
end

