-- ==== Sys2Proof/Machine/State.lean ====
section
/-! DEFINITION. The state of the whole module as plain data: thread slots, memory by home, store buffers,
engines, matrix units, huddles, contexts, queues, the umpire, debug modules and links. -/

namespace Sys2Proof.Machine

/-- What a machine stop means beyond the spec's own traps, which are all next states. -/
inductive Fault where
  /-- An event of the agenda was asked for in a state in which the spec gives it no occurrence (no such
  unit, or its condition does not hold). Raised by the meanings of the device events. Safe: the hardware
  never performs such an event. -/
  | notEnabled (event : String)
deriving DecidableEq, Repr

/-- Why an instruction has no meaning. -/
inductive Refusal where
  /-- An arm of `exec` with no meaning yet. Raised by `exec` alone. Safe. -/
  | notModelled (mnemonic : String)
deriving DecidableEq, Repr

/-- Slot states (Table 7-2). -/
inductive Status where
  | vacant | idle | ready | waitMem | waitMsg | paused | stopped
deriving DecidableEq, Repr

/-- A kernel header's declarations (Table 3-5, Table 25-2). -/
structure Decl where
  vregs   : Nat
  huddles : Nat
  windows : Nat
  coresp  : Nat
  clussp  : Nat
deriving DecidableEq, Repr

/-- No declaration at all. -/
def Decl.none : Decl := { vregs := 0, huddles := 0, windows := 0, coresp := 0, clussp := 0 }

/-- A kernel header as loaded (R366): entry and handler are relocated addresses, handler 0 for none. -/
structure Kernel where
  threads : Nat
  decl    : Decl
  entry   : Word
  handler : Word
  wins    : Vector Word 8
deriving DecidableEq, Repr

/-- A valid huddle handle (R311): the name it refers to, SHORT and DEP of the last completed wait (R323), and those
of a phase that has completed with no wait for it yet. -/
structure Handle where
  name  : Word
  short : Bool
  dep   : Nat
  due   : Option (Bool × Nat)
deriving DecidableEq, Repr

/-- An armed monitor (R141, R142): the aligned 64-byte block, by home location / 64, and a pending trigger. -/
structure Monitor where
  block : Nat
  trig  : Bool
deriving DecidableEq, Repr

/-- A word on a slot's q5 side (R392). -/
structure TraceWord where
  word  : Word
  cycle : Word
  pc    : Word
deriving DecidableEq, Repr

/-- A task record (Table 7-3). `slot` and `seq` are the model's mark of the release that FORK made: the creator's slot, and the
place in its program order (R36). -/
structure TaskRec where
  entry   : Word
  arg     : Word
  ctx     : Nat
  domain  : Nat
  creator : Nat
  origin  : Nat
  slot    : Nat
  seq     : Nat
deriving DecidableEq, Repr

/-- The release points of a thread (R235, Table 14-2): for each scope, the mark in the slot's program order before which
all that it did comes before its later writes. A release of a wider scope is one of every narrower scope. -/
structure Bounds where
  core : Nat
  clus : Nat
  die  : Nat
  dev  : Nat
  sys  : Nat
deriving DecidableEq, Repr

/-- No release point. -/
def Bounds.none : Bounds := { core := 0, clus := 0, die := 0, dev := 0, sys := 0 }

/-- A write on its way: the core and slot that made it, its place in the slot's program order, the scope of the release that
it is (R235), the bytes of one single-copy atomic event of it (R230, R231), the release points before it, and its bytes, by
home location. An STFE's entry holds no byte (R223). -/
structure SbEntry where
  core   : Nat
  slot   : Nat
  seq    : Nat
  rel    : Option Scope
  unit   : Nat
  bounds : Bounds
  cells  : List Host.Cell
deriving DecidableEq, Repr

/-- A write that landed before what it follows at a scope narrower than its place (R236): the slot that made it, its
release points and its locations. The threads of that scope find the locations closed until then. -/
structure Early where
  slot   : Nat
  bounds : Bounds
  keys   : List Nat
deriving DecidableEq, Repr

/-- Data that no check can correct (R3, R258): its locations, from lo on, and the place of Table 8-3. -/
structure MemErr where
  lo    : Nat
  len   : Nat
  place : Word
deriving DecidableEq, Repr

/-- Operations of atomics and reductions (Tables 16-2 and 16-3). -/
inductive AtomOp where
  | add | and | or | xor | min | max | minu | maxu | xchg | cas | fadd
deriving DecidableEq, Repr

/-- An atomic or a reduction on its way to its home (R262, R263), with the release points before it, its own among them
(R235). -/
structure AtomReq where
  op   : AtomOp
  w32  : Bool
  va   : Word
  loc  : Nat
  val  : Word
  cmp  : Word
  ord  : Bool
  bounds : Bounds
deriving DecidableEq, Repr

/-- An entry of a core's outbound path (R263): a reduction or an atomic with .o, the pc and the word of its instruction
(R158), and whether its home has performed it. -/
structure OutReq where
  core : Nat
  slot : Nat
  seq  : Nat
  req  : AtomReq
  pc   : Word
  ir   : IWord
  done : Bool
deriving DecidableEq, Repr

/-- Full/empty operations (R225). -/
inductive FeOp where
  | ldfe | ldfeClr | stfe | feq
deriving DecidableEq, Repr

/-- Request codes of transfers (R284, Table 18-4). -/
inductive XferKind where
  | cpy | cpys | halo | mcast | gath
deriving DecidableEq, Repr

/-- One direction of a halo (R293): direction, source, the neighbour's logical core and destination offset, the
receiving slot, rows and strides, whether its source has been read and whether it is done, with its STATUS, the bytes landed,
and those read and not landed yet. -/
structure HaloDir where
  dir    : Nat
  src    : Word
  lcore  : Nat
  off    : Nat
  recv   : Nat
  rowLen : Nat
  rows   : Nat
  sstr   : Int
  dstr   : Int
  begun  : Bool
  done   : Bool
  status : Nat
  landed : Nat
  data   : List Byte
deriving DecidableEq, Repr

/-- One receiver of a multicast (R296): its entry number, logical core, space and destination offset. -/
structure McastDest where
  j      : Nat
  lcore  : Nat
  clus   : Bool
  off    : Nat
deriving DecidableEq, Repr

/-- A transfer request (R291 to R298): the declarations of its task at issue, its mailbox entry, its rows from `src`
to `dst`, what has landed, the record's STATUS, whether its engine has begun it, the bytes read and not landed
yet, and how many of the locations that it touches next have been translated (R254). A gather's element is a row, `idx` its
index array. Of a multicast, `begun` says that its source has been read, `dests` are the receivers still to serve, `landed` is
what the first of them has received, and `masks` are those delivered, refused and faulted (R297). -/
structure Xfer where
  id     : Nat
  kind   : XferKind
  ctx    : Nat
  core   : Nat
  slot   : Nat
  decl   : Decl
  entry  : Nat
  words  : List Word
  seq    : Nat
  ch     : Nat
  src    : Word
  dst    : Word
  rows   : Nat
  rowLen : Nat
  sstr   : Int
  dstr   : Int
  idx    : Word
  halos  : List HaloDir
  dests  : List McastDest
  bytes  : Nat
  landed : Nat
  status : Nat
  taken  : Bool
  begun  : Bool
  data   : List Byte
  seen   : Nat
  masks  : Nat × Nat × Nat
deriving DecidableEq, Repr

/-- A mailbox entry (R284): four words, each with its full bit. -/
structure MboxEntry where
  words : Vector Word 4
  full  : Vector Bool 4
deriving DecidableEq, Repr

/-- An entry with no word full. -/
def MboxEntry.empty : MboxEntry := { words := Vector.replicate 4 0, full := Vector.replicate 4 false }

/-- Huddle inputs: the tag of Table 20-4 (0 none, 1-3 HVOTE, 4-7 HRED) and the input. -/
structure HInput where
  tag : Nat
  val : Word
deriving DecidableEq, Repr

/-- Warrant instructions (R336). -/
inductive WarOp where
  | wpres | wsplit | wdeleg | wsurr | wreset | wqry
deriving DecidableEq, Repr

/-- What an instruction does beside its result, in the beat in which it completes (R75, R89, R388, R322,
R323): flags that it raises, a denied event, or a handle register that it writes. -/
inductive After where
  | nothing
  | raise (flags : BitVec 5)
  | deny (event : BitVec 8)
  | phase (flags : BitVec 5) (h : Nat) (handle : Option Handle)
deriving DecidableEq, Repr

/-- A migrating block in progress (R264): the slice's first address, the words sent, how many have run, the
MIGR's own pc, the locations read so far, and the stores held until RETN, newest first. -/
structure Block where
  slice  : Word
  words  : List IWord
  idx    : Nat
  home   : Word
  reads  : List Nat
  stores : List Host.Cell
deriving DecidableEq, Repr

/-- What a waiting instruction awaits, with the source values it read (R121, R122, R337). The pc stays at the
instruction until it completes. -/
inductive Wait where
  /-- A source queue lacks a word: the instruction has done nothing and issues again (R45). -/
  | sources
  /-- A descriptor, a list or a block that cannot be read yet, since its bank wakes (R214), its page is walked (R254) or its key is
  gone (R257): the instruction has done nothing and issues again. -/
  | bank
  /-- The result `w` waits for room in the destination queue `q`; the thread goes on at `npc`. -/
  | push (q : Nat) (w npc : Word) (after : After)
  /-- What was awaited has come with the result `w`: the instruction completes at the slot's next turn (R121). -/
  | done (d : Reg5) (w : Word)
  /-- What a huddle instruction awaited has come: its result and what it does beside it (R318, R322, R323). -/
  | doneWith (d : Reg5) (w : Word) (after : After)
  /-- A vector load's elements have arrived: number and value, of width `w` (R228). -/
  | vdone (d : Reg5) (w : Nat) (vals : List (Nat × Nat)) (flags : BitVec 5)
  /-- The awaited event ended in a trap of the instruction (R121, R255, R401). -/
  | trapped (cause : TrapCause) (tval : Word)
  /-- A scalar load waits for its data, a watermark or a bank (R223, R33). -/
  | load (d : Reg5) (va : Word) (n : Nat) (signed : Bool)
  /-- A vector load waits for its active elements, given as element number and address, and the descriptor and offset
  of the format window that decodes them, if any (R220, R228): those that have not come, and the values and flags of those
  that have. -/
  | vload (d : Reg5) (ty : EType) (win : Option (Word × Nat)) (elems : List (Nat × Word)) (got : List (Nat × Nat))
      (flags : BitVec 5)
  /-- A store waits for room in the store buffer (R223) for the writes that have not entered it; `unit` are the bytes of one
  event of it (R231), `since` is the mark before its first write, and `flags` are raised with its last. -/
  | store (cells : List (List Host.Cell)) (rel : Option Scope) (unit since : Nat) (flags : BitVec 5)
  /-- An STFE waits for room in the store buffer (R223). -/
  | stfe (va v : Word)
  /-- A full/empty access waits to be served (R216). -/
  | fe (op : FeOp) (d : Reg5) (va v : Word)
  /-- FENCE waits for acknowledgements (R243). -/
  | fence (sc : Scope)
  /-- IFLUSH waits until its discard is done (R245). -/
  | iflush
  /-- An atomic waits for its home (R262). -/
  | atomic (d : Reg5) (r : AtomReq)
  /-- An atomic waits for its reply with the old value (R262). -/
  | atomicReply (d : Reg5) (r : AtomReq) (old : Word)
  /-- A reduction or .o atomic waits for the outbound path (R263). -/
  | outRoom (r : AtomReq)
  /-- JOIN waits for its decrement (R138). -/
  | join (va : Word)
  /-- The last JOIN's reply. -/
  | joinReply (last : Bool)
  /-- MIGR waits to be accepted (R260). -/
  | migr (va : Word)
  /-- The block's registers return, with the trap it took, if any (R264, R265). -/
  | migrReturn (trap : Option (TrapCause × Word × Word))
  /-- The thread goes back into its block after the block's trap (R155). -/
  | remigr (b : Block)
  /-- The block's registers have come home with the trap that it took (R155, R265). -/
  | migTrapped (cause : TrapCause) (tval value : Word)
  /-- A fetch waits for its cache line (R375). -/
  | ifetch
  /-- FORK waits for the spill move (R129). -/
  | spill (t : TaskRec)
  /-- RFORK waits for its survey (R133). -/
  | rfork (entry n cell : Word)
  /-- RFORK's survey has ended and its recruits run: the end of the issuer's subrange (R137). -/
  | rforked (s3 : Word)
  /-- MWAIT waits for its trigger (R142). -/
  | mwait
  /-- A transfer request waits for a mailbox entry or a command entry (R31, R298). -/
  | xfer (x : Xfer)
  /-- A matrix command waits for room for all its words (R267). -/
  | matrix (ws : List Word)
  /-- CPWAIT (R292). -/
  | cpwait (ch : Nat) (bound : Word)
  /-- HALOWAIT (R294). -/
  | halowait (dir : Nat) (count : BitVec 32)
  /-- HJOIN waits for the home's reply (R322). -/
  | hjoin (d : Reg5) (h : Nat) (name : Word) (t : Bool)
  /-- An arrival waits until the outstanding one completes (R315), and then arrives. -/
  | harrive (d : Reg5) (h : Nat) (inp : HInput) (wait : Bool)
  /-- HBAR, HWAIT, HRED or HVOTE waits for its phase to complete (R323). -/
  | hphase (d : Reg5) (h : Nat) (result : Bool)
  /-- HINFO waits for the home's reply (R324). -/
  | hinfo (d : Reg5) (h : Nat)
  /-- A warrant instruction waits for the umpire (R336), with its source values (R337); `result` once decided. -/
  | warrant (op : WarOp) (d : Reg5) (a b : Word) (result : Option Word)
  /-- A cluster or context counter read waits (R389). -/
  | cntr (d : Reg5) (v : Word)
  /-- SIGWAIT (R408). -/
  | sigwait (d : Reg5)
  /-- DISPATCH waits while the outbound queue is full (R408). -/
  | dispatch (d : Reg5) (bytes : List Byte)
  /-- KEYLD waits for every acknowledgement (R408). -/
  | keyld (d : Reg5) (n : Nat)
deriving DecidableEq, Repr

/-- Elements written into a vector register: the bits that are written, and their values (R168, R169). -/
structure VWrite where
  reg  : Nat
  mask : VReg
  val  : VReg
deriving DecidableEq, Repr

/-- What an instruction of several beats does at its last beat (R120, R169, R199, R204): its vector elements, its mask
register, its scalar result, the writes that it stores, in events of `unit` bytes (R228, R231), its flags, and the pc it goes
on at; or a trap. -/
structure Late where
  writes : List VWrite
  mask   : Option (Nat × MaskReg)
  result : Option (Reg5 × Word)
  stores : List (List Host.Cell)
  unit   : Nat
  flags  : BitVec 5
  npc    : Word
  trap   : Option (TrapCause × Word)
deriving DecidableEq, Repr

/-- A thread slot: the thread's registers, its queues and what it waits for. `held` is the state that a stop or a halt
keeps (R148), `dbgHalt` marks a halt by a debug trigger (R394), `rels` are the thread's release points (R235), `q0tiles` are
the tile writes that the records on its q0 read side name, 0 for none, `popTiles` those whose records it has popped with no
release at .dev since, `tileSeen` the publications of tiles that it has acquired, and `q2seen` and `q3seen` those that a pop of
the words of q2 and q3 acquires (R239), `resumeAt` is the address at which
an ERET goes back into a migrating block, with the block (R155), `landed` are the writes that have landed in the slot's
registers in this cycle before its turn (R169, R209), `haloDue` are the halo arrivals of the cycle (R108), and `cls` is the class of the slot's last turn, as
0 to 3 (R392). -/
structure Slot where
  phys    : Nat
  owner   : Option Nat
  thread  : Nat
  lcore   : Nat
  lclus   : Nat
  status  : Status
  held    : Status
  busy    : Nat
  late    : Option Late
  pause   : Nat
  pc      : Word
  ir      : IWord
  regs    : Vector Word 24
  vregs   : Vector VReg 32
  masks   : Vector MaskReg 8
  handles : Vector (Option Handle) 4
  fmode   : BitVec 3
  fflags  : BitVec 5
  tcause  : BitVec 8
  tepc    : Word
  tword   : IWord
  tval    : Word
  thand   : Word
  mig     : Bool
  ref     : Bool
  inh     : Bool
  deny    : Bool
  denyEv  : BitVec 8
  halo    : Vector (BitVec 32) 4
  wins    : Vector Word 8
  decl    : Decl
  domain  : Nat
  monitor : Option Monitor
  wait    : Option Wait
  block   : Option Block
  resumeAt : Option (Word × Block)
  rels    : Bounds
  q0tiles : List Nat
  popTiles : List Nat
  tileSeen : Nat
  landed  : List (List Host.Cell)
  haloDue : List Nat
  cls     : Nat
  q0push  : List (Word × Nat)
  q0held  : Option Word
  q0read  : List Word
  mbox    : List MboxEntry
  q1read  : List Word
  q2send  : List (Word × Nat)
  q2recv  : List Word
  q2seen  : List Nat
  q3cmd   : Nat
  q3read  : List Word
  q3seen  : List Nat
  q4cmd   : Nat
  q4read  : List Word
  q5      : List TraceWord
  energyDue : Bool
  dbgHalt : Bool
deriving DecidableEq, Repr

/-- FMT 31 (identity), the value of WINn after admission (Table 12-3). -/
def winIdentity : Word := 0x1F

/-- The slot no context holds: every register zero, every queue empty (R101, R163, R211). -/
def Slot.vacant (phys : Nat) : Slot :=
  { phys := phys, owner := none, thread := 0, lcore := 0, lclus := 0, status := .vacant, held := .vacant,
    busy := 0, late := none, pause := 0, pc := 0, ir := 0, regs := Vector.replicate 24 0, vregs := Vector.replicate 32 0,
    masks := Vector.replicate 8 0, handles := Vector.replicate 4 none, fmode := 0, fflags := 0, tcause := 0,
    tepc := 0, tword := 0, tval := 0, thand := 0, mig := false, ref := false, inh := false, deny := false,
    denyEv := 0, halo := Vector.replicate 4 0, wins := Vector.replicate 8 winIdentity, decl := Decl.none,
    domain := 0, monitor := none, wait := none, block := none, resumeAt := none, rels := Bounds.none, q0tiles := [], popTiles := [],
    tileSeen := 0, landed := [], haloDue := [], cls := 3, q0push := [],
    q0held := none, q0read := [], mbox := List.replicate 2 MboxEntry.empty, q1read := [], q2send := [], q2recv := [], q2seen := [], q3cmd := 0, q3read := [],
    q3seen := [], q4cmd := 0, q4read := [],
    q5 := [], energyDue := false, dbgHalt := false }

/-- A line of an instruction cache (R374, R375): the core, the context, the way it stands in, the line's address and its
16 words. -/
structure ILine where
  core  : Nat
  ctx   : Nat
  way   : Nat
  addr  : Word
  words : List IWord
deriving DecidableEq, Repr

/-- The steal state of a core for a context (R131). -/
inductive Steal where
  | none
  | asked (cycle : Word)
  | retry (cycle : Word)
deriving DecidableEq, Repr

/-- A context's deque partition on a core (R127, R128): entries from bottom to top, and the spill page,
oldest first. -/
structure Deque where
  core  : Nat
  ctx   : Nat
  items : List TaskRec
  spill : List TaskRec
  steal : Steal
deriving DecidableEq, Repr

/-- A copy channel of a core (R286 to R288, R292): the context that holds it, its range [base, base + len),
watermark, pending bytes, the bytes filled beyond the watermark, and a range waiting to take effect. -/
structure Chan where
  core    : Nat
  ch      : Nat
  ctx     : Nat
  base    : Word
  len     : Nat
  wm      : Word
  pend    : Nat
  filled  : List Nat
  next    : Option (Word × Nat)
deriving DecidableEq, Repr

/-- A message between a send queue and a receive queue (R302), and the publications of tiles that its pop acquires (R239). -/
structure Msg where
  src   : Nat
  dst   : Nat
  words : List Word
  seen  : Nat
deriving DecidableEq, Repr

/-- A contribution to a collective (R299, R300): the issuer (on another module where `far`), its descriptor, its
data once it reached the engine, whether a peer has departed, its result once every contribution has arrived
(STATUS, FLAGS and the destination's bytes), how many of the bytes have landed, and how many of the locations that it touches
next have been translated (R254). -/
structure Coll where
  id      : Nat
  far     : Bool
  slot    : Nat
  ctx     : Nat
  thread  : Nat
  node    : Nat
  decl    : Decl
  seq     : Nat
  name    : Word
  p       : Nat
  r       : Nat
  n       : Nat
  ty      : CType
  sel     : CollSel
  src     : Word
  dst     : Word
  peers   : List Word
  arrived : Bool
  data    : List Byte
  dead    : Bool
  result  : Option (Nat × BitVec 5 × List Byte)
  landed  : Nat
  seen    : Nat
deriving DecidableEq, Repr

/-- A ring descriptor (R271). -/
structure Ring where
  base : Nat
  size : Nat
  n    : Nat
  head : BitVec 32
  tail : BitVec 32
  ovf  : Bool
  auto : Option (Nat × Nat)
deriving DecidableEq, Repr

/-- A ring as allotted: base 0, one slot of 64 bytes (R266). -/
def Ring.fresh : Ring := { base := 0, size := 64, n := 1, head := 0, tail := 0, ovf := false, auto := none }

/-- A command the unit has accepted and not retired (R275): its slot, its word, the steps done, its FLAGS so
far, and for MXST the window's descriptor at the push. -/
structure Accepted where
  slot  : Nat
  word  : Word
  steps : Nat
  flags : BitVec 5
deriving DecidableEq, Repr

/-- A completion record that is due (R270), and the tile write that it names, 0 for none (R239). -/
structure MxRecord where
  slot : Nat
  word : Word
  snap : Nat
deriving DecidableEq, Repr

/-- A matrix unit (R266 to R283): weights of the core positions, the core served last and the steps left in
its visit, the slot served last in each core, tiles that are not all zero, rings that have been set, accepted
commands, records due, and the window descriptors that pushed MXST words were given. `snaps` are the tiles as retired commands
wrote them, each under the number of its write, and `shown` those that a release has published, each with the number of its
publication, the newest first (R239). `storing` is the MXST whose bytes land: its slot, the cells to land, and its flags. -/
structure MUnit where
  clus     : Nat
  weights  : Vector Nat 8
  last     : Nat
  left     : Nat
  lastSlot : Vector Nat 8
  tiles    : List (Nat × Vector (BitVec 32) 1024)
  rings    : List (Nat × Ring)
  acc      : List Accepted
  recs     : List MxRecord
  stWins   : List (Nat × Word)
  snaps    : List (Nat × Nat × Vector (BitVec 32) 1024)
  shown    : List (Nat × Nat × Vector (BitVec 32) 1024)
  storing  : Option (Nat × List Host.Cell × BitVec 5)
deriving DecidableEq, Repr

/-- A member of a huddle, or a pending joiner (R312 to R317): its next phase, its outstanding arrival and
whether it leaves. -/
structure HMember where
  ctx     : Nat
  thread  : Nat
  slot    : Nat
  joined  : Nat
  next    : Nat
  arrived : Option HInput
  leaving : Bool
  gone    : Bool
deriving DecidableEq, Repr

/-- A directory entry (R312, Table 20-4). -/
structure Huddle where
  root    : Nat
  name    : Word
  home    : Nat
  phase   : Nat
  charged : Nat
  dep     : Nat
  members : List HMember
deriving DecidableEq, Repr

/-- What a huddle request asks of its home. -/
inductive HReqKind where
  | join (create : Bool)
  | arrive (inp : HInput)
  | leave
  | info
  | depart
deriving DecidableEq, Repr

/-- What a family holds of the huddle directory (R309, R310): its root, the root's quota, and the dies of its
reservations. -/
structure Fam where
  root  : Nat
  quota : Nat
  dies  : List Nat
deriving DecidableEq, Repr

/-- A huddle request on its way to its home (R320). -/
structure HReq where
  root   : Nat
  name   : Word
  ctx    : Nat
  thread : Nat
  slot   : Nat
  seq    : Nat
  kind   : HReqKind
deriving DecidableEq, Repr

/-- A reply or completion notice on its way to a member (R320): the member, which of the two, the result word, the flags it
raises, SHORT and DEP. -/
structure HNote where
  ctx   : Nat
  thread : Nat
  slot  : Nat
  reply : Bool
  name  : Word
  value : Word
  flags : BitVec 5
  short : Bool
  dep   : Nat
deriving DecidableEq, Repr

/-- A launch packet (Table 23-4). -/
structure Packet where
  fence  : Bool
  domain : Nat
  range  : Bool
  kernel : Nat
  wdog   : Nat
  arg    : Word
  n      : Word
  jcell  : Word
  waits  : List (Nat × BitVec 32)
deriving DecidableEq, Repr

/-- A user queue (R348): the definition half, the hardware half, the CTRL word last handled, the port queue's ring, and the
packet fetched and not completed. `widx` of an exception queue is the consumer's count (R349). `widxs` and `ctrls` are the
writes of WIDX and CTRL that have reached their home and are not handled yet, oldest first (R349). -/
structure Queue where
  q        : Nat
  qdef     : QueueDef
  widx     : Word
  ridx     : BitVec 32
  comp     : BitVec 32
  fence    : BitVec 32
  disc     : BitVec 32
  state    : Nat
  reason   : Nat
  noexc    : Bool
  produced : BitVec 32
  heldRec  : Option (List Byte)
  ctrl     : Word
  widxs    : List Word
  ctrls    : List Word
  ring     : List (List Byte)
  fetched  : Option Packet
deriving DecidableEq, Repr

/-- The running launch of a context (R351, R358): queue, index, watchdog in ms, and cycles run. -/
structure Launch where
  q    : Nat
  idx  : BitVec 32
  wdog : Nat
  ran  : Nat
deriving DecidableEq, Repr

/-- A resource record (R327, Table 21-1). -/
structure Resources where
  cls     : Nat
  threads : Nat
  coreB   : Nat
  clusB   : Nat
  devB    : Nat
  weight  : Nat
  huddles : Nat
  queues  : Nat
  energy  : Nat
  power   : Nat
  latency : Nat
deriving DecidableEq, Repr

/-- A warrant image's fields (Table 21-1). -/
structure Warrant where
  splitOk   : Bool
  delegOk   : Bool
  sealed    : Bool
  serial    : BitVec 128
  issuer    : BitVec 256
  holder    : BitVec 256
  notBefore : Word
  notAfter  : Word
  domain    : Word
  res       : Resources
  code      : BitVec 256
  allow     : BitVec 256
  keyCt     : List Byte
deriving DecidableEq, Repr

/-- The device-memory layout of a grant, as offsets from its base (R250, R251, Table 16-1). -/
structure Layout where
  g        : Nat
  dies     : List Nat
  freeEnd  : Nat
  textOff  : Nat
  textSize : Nat
  constOff : Nat
  constSize : Nat
  dataOff  : Nat
  dataSize : Nat
  saveOff  : Nat
  dumpOff  : Nat
  spillOff : Nat
deriving DecidableEq, Repr

/-- The states of Table 21-8 and Table 27-3. -/
inductive CtxState where
  | run | saved | error | unlocked | locked
deriving DecidableEq, Repr

/-- An entry of a context's table of warrant handles (R335): the generation and the context it names. -/
structure WHandle where
  gen    : Nat
  target : Option Nat
deriving DecidableEq, Repr

/-- A synchronised stop of a family (R359, R360): decided, halted, flushed, saved, restored; with T or the
resume cycle. -/
inductive Stop where
  | none
  | decided (t : Word)
  | halted
  | flushed
  | saved
  | restoring
  | resumeAt (v : Word)
deriving DecidableEq, Repr

/-- A pending entry into ERROR (R157) or a reset (R358): the fault record's bytes, its kind, the die of its dump, whether
the stop cycle has passed and which it was, its dump (0 not queued, 1 waiting or being written, 2 written or dropped),
the further faults, and the directory entries that it created or belonged to, as frozen at the stop (R159, R325). -/
structure ErrorState where
  record  : List Byte
  kind    : Nat
  die     : Nat
  stopped : Bool
  stopAt  : Word
  dumped  : Nat
  further : Nat
  first   : Option (List Byte)
  frozen  : List Huddle
deriving DecidableEq, Repr

/-- What a family holds against the sums of R332: the class and the quantities of Table 21-5, codes 1 to 13. -/
structure Commit where
  ctx : Nat
  cls : Nat
  q   : List Nat
deriving DecidableEq, Repr

/-- A context (R334, R335, R347, R378 to R381, R404). `born` counts the children created (R335), `lent` are the ranges
of its free memory that its children hold (child, first offset, end), `redeemed` says that a receipt for it has been
presented, `pairs` are the die and the number, 0 to 3, of each pair of virtual channels 8 to 15 that a sealed context holds
(R28, R400), `dbgClus` are the clusters in which a debug trigger has halted it (R394), `sliceAt` is the cycle in which its slice began (R356), and `splitter` the context and the slot that are told of a fault (R162). -/
structure Ctx where
  id       : Nat
  root     : Nat
  parent   : Option Nat
  parentSerial : BitVec 128
  state    : CtxState
  warrant  : Warrant
  serial   : BitVec 128
  holder   : BitVec 256
  delegate : Option (BitVec 256)
  splitter : Nat × Nat
  sub      : Bool
  res      : Resources
  object   : List Byte
  kernels  : List Kernel
  layout   : Layout
  lent     : List (Nat × Nat × Nat)
  slots    : List Nat
  cores    : List Nat
  clusters : List Nat
  shares   : List Nat
  pairs    : List (Nat × Nat)
  key      : List Byte
  keyValid : Bool
  kids     : Nat
  born     : Nat
  redeemed : Bool
  handles  : List WHandle
  node     : Nat
  winOut   : Option (Word × Word)
  winIn    : Option (Word × Word)
  meter    : Nat
  windowAt : Nat
  raised   : Bool
  throttle : Nat
  queues   : List Queue
  lastQ    : List (Nat × Nat)
  launch   : Option Launch
  disc     : Nat
  stop     : Stop
  err      : Option ErrorState
  halted   : Bool
  dbgClus  : List Nat
  waited   : Nat
  sliceAt  : Word
deriving DecidableEq, Repr

/-- A counter (Table 26-5): context, unit (physical slot, logical core, logical cluster, or 0), event, count. -/
structure Counter where
  ctx   : Nat
  unit  : Nat
  event : Nat
  count : Nat
deriving DecidableEq, Repr

/-- What a save area holds for a family that is saved out (R360). -/
structure Saved where
  root   : Nat
  slots  : List Slot
  huddles : List Huddle
  early  : List Early
  mem    : List Host.Cell
  full   : List Nat
  sbuf   : List SbEntry
  flight : List SbEntry
  outb   : List OutReq
  feq    : List Nat
  deques : List Deque
  chans  : List Chan
  xfers  : List Xfer
  msgs   : List Msg
  units  : List MUnit
  hreqs  : List HReq
  hnotes : List HNote
deriving DecidableEq, Repr

/-- An accepted beacon (R382, R383). -/
structure Beacon where
  cb  : Word
  eb  : Word
  lb  : Word
  seq : Word
deriving DecidableEq, Repr

/-- An entry of the redemption table (Table 21-3). -/
structure Redeemed where
  serial : BitVec 128
  device : Nat
  spent  : Bool
deriving DecidableEq, Repr

/-- Who waits for a claim's answer: a port command or a thread's WPRES. A redemption keeps the child's redemption domain
(R331). -/
inductive ClaimFor where
  | port (h : PortHdr) (warrant : Warrant) (obj : List Byte)
  | thread (slot : Nat) (warrant : Warrant) (obj : List Byte)
  | redeemPort (h : PortHdr) (child : Nat) (who : BitVec 256) (domain : Word)
  | redeemThread (slot : Nat) (child : Nat) (who : BitVec 256) (domain : Word)
deriving DecidableEq, Repr

/-- A claim sent to another device and not answered (R331). -/
structure Claim where
  msg   : ClaimMsg
  first : Word
  last  : Word
  who   : ClaimFor
deriving DecidableEq, Repr

/-- A nonce outstanding for a node (R403). -/
structure Nonce where
  node  : Nat
  value : BitVec 256
  cycle : Word
deriving DecidableEq, Repr

/-- A reply of the admission port (R402). -/
structure Reply where
  node    : Nat
  code    : Nat
  tag     : Nat
  status  : Word
  payload : List Byte
deriving DecidableEq, Repr

/-- The kinds of unsolicited notices (R403). -/
inductive NoticeKind where
  | fault | expiry | launchDone | capture | queueRecord | queueState | fenceDone
deriving DecidableEq, Repr

/-- An unsolicited notice (R403). -/
structure Notice where
  node    : Nat
  ctx     : Nat
  kind    : NoticeKind
  payload : List Byte
deriving DecidableEq, Repr

/-- A dump waiting or being written on a die (R160). -/
structure Dump where
  die     : Nat
  ctx     : Nat
  started : Bool
deriving DecidableEq, Repr

/-- A debug record (Table 26-7). -/
structure DbgRec where
  type  : Nat
  slot  : Nat
  lcore : Nat
  cycle : Word
  pc    : Word
  value : Word
deriving DecidableEq, Repr

/-- Capture states (Table 26-8). -/
inductive Capture where
  | armed | active
  | post (left : Nat)
  | frozen
deriving DecidableEq, Repr

/-- A cluster's debug module (R390 to R394), held; `pend` are the records of the cycle so far, `hit` says that CYCLE has
reached a value of condition 5. -/
structure DbgMod where
  clus    : Nat
  holder  : Nat
  cfg     : DbgConfig
  capture : Capture
  hit     : Bool
  buf     : List DbgRec
  pend    : List DbgRec
deriving DecidableEq, Repr

/-- A fabric link (R396 to R400): the far node once trained, whether it is up, the failures in a row of the flit that it
receives and of the one that it sends, free-slot counters, flits waiting to leave, those sent whose slot at the far node is
not free again, those received that hold a slot here, and the elastic flits sent since a batch flit. -/
structure Link where
  link    : Nat
  node    : Option Nat
  up      : Bool
  fails   : Nat
  nacks   : Nat
  credits : Vector Nat 16
  out     : List Flit
  sent    : List Flit
  got     : List Flit
  share   : Nat
deriving DecidableEq, Repr

/-- An item of a referee core's inbox (R408), with the core. -/
structure RefItem where
  core  : Nat
  node  : Nat
  kind  : Nat
  bytes : List Byte
deriving DecidableEq, Repr

/-- A message of a referee core's DISPATCH that waits to leave (R408): node, channel and bytes. -/
structure OutMsg where
  node  : Nat
  vc    : BitVec 4
  bytes : List Byte
deriving DecidableEq, Repr

/-- A key slot as installed in the controllers (R256, R408). -/
structure KeySlot where
  slot : Nat
  ctx  : Nat
  key  : List Byte
deriving DecidableEq, Repr

/-- The machine. `pubs` counts the publications of tiles (R239), `errs` are the errors in data that no check can correct (R3), `walks` the page walks under way or waiting, in
the order in which they came (R254), `caddies` the slot that each core's caddie served last and the cycle of its last turn
taken (R15, R123), `cross` are the triggers on their way to other clusters (holder, cluster, whether they halt its slots,
R394), `spentOut` the SPENT messages on their way, each with its redemption domain (R331), and `powerAt` is the cycle in which the last power window ended (R380). -/
structure State where
  cur     : Slot
  slots   : List Slot
  cycle   : Word
  mem     : List Host.Cell
  full    : List Nat
  sbuf    : List SbEntry
  flight  : List SbEntry
  outb    : List OutReq
  feq     : List Nat
  waking  : List Nat
  early   : List Early
  errs    : List MemErr
  tlb     : List (Nat × Nat × Nat)
  walks   : List (Nat × Nat × Nat)
  icache  : List ILine
  deques  : List Deque
  chans   : List Chan
  xfers   : List Xfer
  caddies : List (Nat × Nat × Word)
  msgs    : List Msg
  colls   : List Coll
  matrix  : List MUnit
  huddles : List Huddle
  fams    : List Fam
  hreqs   : List HReq
  hnotes  : List HNote
  ctxs    : List Ctx
  saved   : List Saved
  commits : List Commit
  commission : Option CommissionRecord
  beacon  : Option Beacon
  bootTime : Option Word
  redemption : List Redeemed
  claims  : List Claim
  spentOut : List (ClaimMsg × Word)
  nonces  : List Nonce
  dumps   : List Dump
  replies : List Reply
  notices : List Notice
  dbg     : List DbgMod
  dbgResume : List (Nat × Word)
  cross   : List (Nat × Nat × Bool)
  powerAt : Word
  links   : List Link
  inbox   : List RefItem
  refEvents : List (Nat × BitVec 6)
  outq    : List OutMsg
  keys    : List KeySlot
  retired : List (Nat × Nat × Nat)
  counters : List Counter
  seq     : Nat
  nextId  : Nat
  pubs    : Nat
  fresh   : Nat
  agenda  : List Instr
  auto    : Bool
deriving DecidableEq, Repr

/-- The module right after power-on (R409): no context, no thread, no commissioning record, no beacon. -/
def State.reset : State :=
  { cur := Slot.vacant 0, slots := [], cycle := 0, mem := [], full := [], sbuf := [], flight := [], outb := [],
    feq := [], waking := [], early := [], errs := [], tlb := [], walks := [], icache := [], deques := [], chans := [], xfers := [], caddies := [],
    msgs := [], colls := [], matrix := [], huddles := [], fams := [], hreqs := [], hnotes := [], ctxs := [], saved := [], commits := [],
    commission := none, beacon := none, bootTime := none, redemption := [], claims := [], spentOut := [],
    nonces := [], dumps := [], replies := [], notices := [], dbg := [], dbgResume := [], cross := [], powerAt := 0, links := [], inbox := [],
    refEvents := [], outq := [], keys := [], retired := [], counters := [], seq := 0, nextId := 0, pubs := 0, fresh := 0,
    agenda := [], auto := true }

end Sys2Proof.Machine
end

