-- ==== Sys2Proof/Machine/Ops.lean ====
section
/-! DEFINITION. The named operations: slots, contexts and registers, reading queue sources, memory by home,
writes landing at their homes, counters and the meter, and taking a trap and returning from one. -/

namespace Sys2Proof

/-- The code of a cause (Table 8-1). -/
def TrapCause.code : TrapCause → Nat
  | .illegal => 0x01
  | .misalign => 0x02
  | .bounds => 0x03
  | .xlate => 0x04
  | .perm => 0x05
  | .regdecl => 0x06
  | .handle => 0x07
  | .pnonfin => 0x08
  | .queue => 0x09
  | .warrant => 0x0A
  | .brk => 0x0B
  | .ucall => 0x0C
  | .energy => 0x0D
  | .uncorr => 0x0E
  | .canon => 0x0F

/-- The cause of a code (Table 8-1). -/
def TrapCause.ofCode : Nat → Option TrapCause
  | 0x01 => some .illegal
  | 0x02 => some .misalign
  | 0x03 => some .bounds
  | 0x04 => some .xlate
  | 0x05 => some .perm
  | 0x06 => some .regdecl
  | 0x07 => some .handle
  | 0x08 => some .pnonfin
  | 0x09 => some .queue
  | 0x0A => some .warrant
  | 0x0B => some .brk
  | 0x0C => some .ucall
  | 0x0D => some .energy
  | 0x0E => some .uncorr
  | 0x0F => some .canon
  | _ => none

end Sys2Proof

namespace Sys2Proof.Machine

/-- What a meaning answers. -/
abbrev Out := Host.Outcome State Fault Refusal

/-- The event's condition does not hold in this state. -/
def notNow (event : String) : Out := .fault (.notEnabled event)

/-! ### Physical numbers (R16) -/

/-- The physical core of a physical thread slot. -/
def coreOf (phys : Nat) : Nat := phys / 8

/-- The physical cluster of a physical thread slot. -/
def clusOf (phys : Nat) : Nat := phys / 64

/-- The first number of the referee cores, four to a die, behind the compute cores (R13, R18; notes/assumptions/64.md). -/
def refCore0 : Nat := 13824

/-- The die of a physical core, a compute core or a referee core. -/
def dieOfCore (core : Nat) : Nat := if core < refCore0 then core / 576 else (core - refCore0) / 4

/-- The die of a physical thread slot. -/
def dieOf (phys : Nat) : Nat := dieOfCore (coreOf phys)

/-- The die of a physical cluster. -/
def dieOfClus (clus : Nat) : Nat := clus / 72

/-- The slot number within its core. -/
def slotNo (phys : Nat) : Nat := phys % 8

/-- The die of a link (R396). -/
def dieOfLink (k : Nat) : Nat := k / 4

/-- Boundaries crossed between two dies (R12). -/
def dieDist (a b : Nat) : Nat :=
  let col := fun d : Nat => d % 4
  let row := fun d : Nat => d / 4
  (max (col a) (col b) - min (col a) (col b)) + (max (row a) (row b) - min (row a) (row b))

/-! ### Slots and contexts -/

/-- A slot that a context or the umpire holds. -/
def Slot.occupied (c : Slot) : Bool := c.owner.isSome || c.ref

/-- A slot as it stands while nothing has used it: vacant, or a referee core's thread (R13, R18). -/
def Slot.fresh (phys : Nat) : Slot := { Slot.vacant phys with ref := decide (refCore0 ≤ coreOf phys) }

/-- The slot of a physical number. -/
def State.slotAt (s : State) (phys : Nat) : Slot :=
  if s.cur.phys = phys then s.cur
  else (s.slots.find? (fun c => c.phys == phys)).getD (Slot.fresh phys)

/-- Put a slot's record back. A record that no one holds is not listed. -/
def State.setSlot (s : State) (c : Slot) : State :=
  if s.cur.phys = c.phys then { s with cur := c }
  else if c.occupied then { s with slots := updKey (fun x => x.phys == c.phys) c s.slots }
  else { s with slots := s.slots.filter (fun x => x.phys != c.phys) }

/-- Every occupied slot. -/
def State.allSlots (s : State) : List Slot := (s.cur :: s.slots).filter Slot.occupied

/-- Change every slot that a test selects. -/
def State.mapSlots (s : State) (p : Slot → Bool) (f : Slot → Slot) : State :=
  { s with cur := if p s.cur then f s.cur else s.cur, slots := s.slots.map (fun c => if p c then f c else c) }

/-- The context of an identifier. -/
def State.ctxAt (s : State) (id : Nat) : Option Ctx := s.ctxs.find? (fun x => x.id == id)

/-- Put a context's record back. -/
def State.setCtx (s : State) (x : Ctx) : State := { s with ctxs := updKey (fun y => y.id == x.id) x s.ctxs }

/-- The context that holds a slot. -/
def State.ctxOf (s : State) (c : Slot) : Option Ctx :=
  match c.owner with
  | some id => s.ctxAt id
  | none => none

/-- A context whose slots run or may run. -/
def Ctx.alive (x : Ctx) : Bool := x.state == .run || x.state == .saved

/-- No stop has halted the family: none is decided, or its cycle has not come (R359). -/
def Stop.running : Stop → Bool
  | .none | .decided _ => true
  | _ => false

/-- The context's work at a cluster's engines goes on: no stop has halted its family (R359), its key stands (R257), and no
debug trigger has halted its slots there (R394). -/
def State.clusOpen (s : State) (id clus : Nat) : Bool :=
  match s.ctxAt id with
  | none => false
  | some x => x.stop.running && x.keyValid && !x.dbgClus.contains clus

/-- A context's family: the contexts with its root (R308). -/
def State.family (s : State) (root : Nat) : List Ctx := s.ctxs.filter (fun x => x.root == root)

/-- The logical number of a physical core in a context. -/
def Ctx.lcoreOf (x : Ctx) (core : Nat) : Option Nat := x.cores.findIdx? (fun k => k == core)

/-- The logical number of a physical cluster in a context. -/
def Ctx.lclusOf (x : Ctx) (clus : Nat) : Option Nat := x.clusters.findIdx? (fun k => k == clus)

/-- The largest of a declaration over the kernel headers (R206). -/
def maxDecl (ks : List Kernel) (f : Decl → Nat) : Nat := ks.foldl (fun m k => max m (f k.decl)) 0

/-- Z of R206. -/
def Ctx.maxCoresp (x : Ctx) : Nat := maxDecl x.kernels (fun d => d.coresp)

/-- Y of R206. -/
def Ctx.maxClussp (x : Ctx) : Nat := maxDecl x.kernels (fun d => d.clussp)

/-! ### Registers and queue sources -/

/-- The value of a scalar register by number; s0 yields 0 (R58, R99). -/
def Slot.reg (c : Slot) (n : Nat) : Word := if n = 0 then 0 else (c.regs[n]?).getD 0

/-- Write a scalar register by number; a write of s0 is discarded (R58, R99). -/
def Slot.setReg (c : Slot) (n : Nat) (w : Word) : Slot :=
  if n = 0 then c else { c with regs := c.regs.setIfInBounds n w }

/-- The tile writes whose records a thread has popped, after one more pop of q0 (R239). -/
def Slot.poppedTiles (c : Slot) : List Nat :=
  match c.q0tiles with
  | [] | 0 :: _ => c.popTiles
  | n :: _ => insertNat n c.popTiles

/-- Pop a queue by its register field, 24 to 28 (Table 4-9); none while it is empty. A popped record of q0 names a tile that its
command wrote, unless the command is MXST, and a pop acquires what its push released (R35, R239). -/
def Slot.popQueue (c : Slot) (n : Nat) : Option (Word × Slot) :=
  match n with
  | 24 => match c.q0read with
    | w :: ws => some (w, { c with q0read := ws, q0tiles := c.q0tiles.drop 1, popTiles := c.poppedTiles })
    | [] => none
  | 25 => match c.q1read with
    | w :: ws => some (w, { c with q1read := ws })
    | [] => none
  | 26 => match c.q2recv with
    | w :: ws => some (w, { c with q2recv := ws, q2seen := c.q2seen.drop 1, tileSeen := max c.tileSeen (c.q2seen.headD 0) })
    | [] => none
  | 27 => match c.q3read with
    | w :: ws => some (w, { c with q3read := ws, q3seen := c.q3seen.drop 1, tileSeen := max c.tileSeen (c.q3seen.headD 0) })
    | [] => none
  | 28 => match c.q4read with
    | w :: ws => some (w, { c with q4read := ws })
    | [] => none
  | _ => some (0, c)

/-- ReadReg (Table 0-3): a register, or a popped word; none while the queue is empty. Fields 29 to 31 are
refused when the word is decoded (Table 4-9). -/
def Slot.readReg (c : Slot) (r : Reg5) : Option (Word × Slot) :=
  if r.toNat < 24 then some (c.reg r.toNat, c) else c.popQueue r.toNat

/-- A source queue lacks a word: the thread leaves the rotation with nothing popped (R45). -/
def stallSources (s : State) : Out :=
  .next { s with cur := { s.cur with wait := some .sources, status := .waitMsg } }

/-- Read one source field and go on. -/
def withSrc1 (s : State) (a : Reg5) (k : Word → Slot → Out) : Out :=
  match s.cur.readReg a with
  | some (x, c) => k x c
  | none => stallSources s

/-- Read a, then b (R45), and go on. -/
def withSrc2 (s : State) (a b : Reg5) (k : Word → Word → Slot → Out) : Out :=
  match s.cur.readReg a with
  | some (x, c) => match c.readReg b with
    | some (y, c) => k x y c
    | none => stallSources s
  | none => stallSources s

/-- Read a, then b, then d (R60), and go on. -/
def withSrc3 (s : State) (a b d : Reg5) (k : Word → Word → Word → Slot → Out) : Out :=
  match s.cur.readReg a with
  | some (x, c) => match c.readReg b with
    | some (y, c) => match c.readReg d with
      | some (z, c) => k x y z c
      | none => stallSources s
    | none => stallSources s
  | none => stallSources s

/-! ### Waiting -/

/-- The status of a thread that waits (Table 7-2). No row lists HINFO's wait for its home: the model puts it in WAITMEM (the model's
choice, notes/assumptions/34.md). -/
def Wait.status : Wait → Status
  | .rfork _ n _ => if n = 0 then .waitMem else .waitMsg
  | .bank => .waitMem
  | .sources | .push .. | .matrix .. | .xfer .. | .cpwait .. | .halowait .. | .hjoin .. | .harrive .. | .hphase ..
  | .mwait | .rforked .. | .warrant .. | .sigwait .. | .dispatch .. => .waitMsg
  | _ => .waitMem

/-- The current thread waits; its pc stays at the instruction. -/
def waitOn (s : State) (c : Slot) (w : Wait) : Out :=
  .next { s with cur := { c with wait := some w, status := w.status } }

/-- The awaited event has come for a waiting slot: a new wait record, which completes at its turn; until then the slot stays in
the state in which it waits (R121, Table 7-2), a stopped one in STOPPED (R148). -/
def Slot.waitFor (c : Slot) (w : Wait) : Slot := { c with wait := some w }

/-- The slot is back in the rotation. -/
def Slot.ready (c : Slot) : Slot := { c with wait := none, status := .ready }

/-! ### Memory cells in canonical form -/

/-- The byte of a location; an unlisted location reads 0 (R214, R252). -/
def readCell : List Host.Cell → Nat → Byte
  | [], _ => 0
  | (k, b) :: r, a => if a = k then b else if a < k then 0 else readCell r a

/-- Write a byte, keeping addresses strictly rising and no byte 0 listed. -/
def writeCell : List Host.Cell → Nat → Byte → List Host.Cell
  | [], a, b => if b = 0 then [] else [(a, b)]
  | (k, v) :: r, a, b =>
    if a < k then (if b = 0 then (k, v) :: r else (a, b) :: (k, v) :: r)
    else if a = k then (if b = 0 then r else (a, b) :: r)
    else (k, v) :: writeCell r a b

/-- Every address of the list lies above a bound, rising strictly, and no listed byte is 0. -/
def cellsFrom : Option Nat → List Host.Cell → Bool
  | _, [] => true
  | lo, (k, b) :: r => (match lo with
    | none => true
    | some l => decide (l < k)) && b != 0 && cellsFrom (some k) r

/-- The canonical form of memory. -/
def Memory.wf (m : List Host.Cell) : Bool := cellsFrom none m

/-- The cells of some bytes from a location on, in canonical form. -/
def listedCells (k : Nat) : List Byte → List Host.Cell
  | [] => []
  | b :: r => if b = 0 then listedCells (k + 1) r else (k, b) :: listedCells (k + 1) r

/-- Replace the bytes from a location on. -/
def putBytes (m : List Host.Cell) (k : Nat) (bs : List Byte) : List Host.Cell :=
  m.filter (fun c => decide (c.1 < k)) ++ listedCells k bs ++ m.filter (fun c => decide (k + bs.length ≤ c.1))

/-- Write some cells in order. -/
def writeCells (m : List Host.Cell) (cs : List Host.Cell) : List Host.Cell :=
  cs.foldl (fun m c => writeCell m c.1 c.2) m

/-- The spaces of locations: core scratchpads, cluster scratchpads, device memory, host memory, referee
scratchpads, vector register pool, scalar files, control registers, mailboxes, accumulator tiles. -/
abbrev Space.core : Nat := 0
/-- Cluster scratchpads. -/
abbrev Space.clus : Nat := 1
/-- Device memory. -/
abbrev Space.dev : Nat := 2
/-- Host memory. -/
abbrev Space.host : Nat := 3
/-- Referee scratchpads. -/
abbrev Space.ref : Nat := 4
/-- The vector register pool. -/
abbrev Space.pool : Nat := 5
/-- The scalar files. -/
abbrev Space.scalar : Nat := 6
/-- The control registers. -/
abbrev Space.ctrl : Nat := 7
/-- The mailboxes. -/
abbrev Space.mbox : Nat := 8
/-- The accumulator tiles. -/
abbrev Space.tile : Nat := 9

/-- The location of an offset in a unit of a space. -/
def keyOf (space unit off : Nat) : Nat := (space * 2 ^ 48 + unit) * 2 ^ 64 + off

/-- The space of a location. -/
def keySpace (k : Nat) : Nat := k / 2 ^ 112

/-- The unit of a location. -/
def keyUnit (k : Nat) : Nat := k / 2 ^ 64 % 2 ^ 48

/-- The offset of a location in its unit. -/
def keyOff (k : Nat) : Nat := k % 2 ^ 64

/-- The location of a device-memory address of a context. -/
def devKey (id : Nat) (va : Word) : Nat := keyOf Space.dev id (va.toNat - 0x1000000000000)

/-- The unit of a context's share of a physical core's or cluster's scratchpad: its banks (R211, R212). -/
def shareUnit (phys ctx : Nat) : Nat := phys * 2 ^ 16 + ctx

/-- The granule of a scratchpad location (R215). -/
def granuleOf (k : Nat) : Nat := k / 16

/-- Locations that carry full/empty bits: the two scratchpads (R215). -/
def hasGranule (k : Nat) : Bool := keySpace k == Space.core || keySpace k == Space.clus

/-- Whether the granule of a location is full. -/
def State.isFull (s : State) (k : Nat) : Bool := s.full.contains (granuleOf k)

/-- Set the granule of a location full or empty. -/
def State.setFull (s : State) (k : Nat) (b : Bool) : State :=
  { s with full := if b then insertNat (granuleOf k) s.full else s.full.filter (fun g => g != granuleOf k) }

/-! ### Counters and the meter -/

/-- Add to a counter (Table 26-5). -/
def addCount (ctx unit event n : Nat) : List Counter → List Counter
  | [] => [{ ctx := ctx, unit := unit, event := event, count := n }]
  | x :: xs =>
    if x.ctx == ctx && x.unit == unit && x.event == event then { x with count := x.count + n } :: xs
    else x :: addCount ctx unit event n xs

/-- Count n of an event; a count of nothing changes nothing. -/
def State.count (s : State) (ctx unit event n : Nat) : State :=
  if n = 0 then s else { s with counters := addCount ctx unit event n s.counters }

/-- The value of a counter. -/
def State.counter (s : State) (ctx unit event : Nat) : Nat :=
  match s.counters.find? (fun x => x.ctx == ctx && x.unit == unit && x.event == event) with
  | some x => x.count
  | none => 0

/-- The energy classes of Table 26-1, with the costs a GX-IX24 carries when none are commissioned, in pJ. -/
def energyDefault : List Nat := [12, 90, 10, 40, 3000, 60, 700, 50, 25, 30]

/-- The cost of a class, 0 issue to 9 standing (R378). -/
def State.energyCost (s : State) (cls : Nat) : Nat :=
  let t := match s.commission with
    | some r => r.energy.getD energyDefault
    | none => energyDefault
  t.getD cls 0

/-- Charge a context n events of a class (R378). -/
def State.charge (s : State) (ctx cls n : Nat) : State :=
  match s.ctxAt ctx with
  | some x => if n = 0 then s else s.setCtx { x with meter := x.meter + s.energyCost cls * n }
  | none => s

/-! ### Writes landing at their homes -/

/-- Trigger the monitors armed on the blocks of some locations (R142). -/
def State.trigger (s : State) (blocks : List Nat) : State :=
  let hit := fun c : Slot => match c.monitor with
    | some m => blocks.contains m.block
    | none => false
  s.mapSlots hit (fun c => { c with monitor := c.monitor.map (fun m => { m with trig := true }) })

/-- The value of a writable control register's bits from a written word: the RW fields alone (Tables 5-3, 5-6,
6-3, 6-4, 12-3, 18-7). -/
def winMask : Word := 0x3FE3FFFFF

/-- A window descriptor that the device accepts (R219). -/
def winOk (v : Word) : Bool :=
  let f := bits v 4 0
  (f ≤ 13 || f == 16 || f == 17 || f == 18 || f == 31) && bits v 33 32 ≤ 1

/-- A write of a control register by index: its RW fields take the bits of the word (R107). Indices of
read-only or undefined registers change nothing. -/
def Slot.writeCsr (c : Slot) (i : Nat) (w : Word) : Slot :=
  match i with
  | 0x001 => { c with fmode := BitVec.ofNat 3 (bits w 2 0) }
  | 0x002 => { c with fflags := BitVec.ofNat 5 (bits w 4 0) }
  | 0x010 => { c with tcause := BitVec.ofNat 8 (bits w 7 0) }
  | 0x011 => { c with tepc := w &&& ~~~3#64 }
  | 0x012 => { c with tword := BitVec.ofNat 32 (bits w 31 0) }
  | 0x013 => { c with tval := w }
  | 0x014 => { c with thand := w &&& ~~~3#64 }
  | 0x034 => { c with deny := bits w 8 8 == 1 }
  | 0x040 | 0x041 | 0x042 | 0x043 =>
    { c with halo := c.halo.setIfInBounds (i - 0x040) (BitVec.ofNat 32 (bits w 31 0)) }
  | 0x050 | 0x051 | 0x052 | 0x053 | 0x054 | 0x055 | 0x056 | 0x057 =>
    { c with wins := c.wins.setIfInBounds (i - 0x050) (w &&& winMask) }
  | _ => c

/-- A control-register write that the writer's instruction refuses (R85, R219). -/
def csrRefused (i : Nat) (w : Word) : Bool :=
  (i == 0x001 && decide (bits w 2 0 > 4)) || (decide (0x050 ≤ i) && decide (i ≤ 0x057) && !winOk w)

/-- Replace byte k of a word. -/
def setByte (w : Word) (k : Nat) (b : Byte) : Word :=
  let n := w.toNat
  BitVec.ofNat 64 (n - n / 2 ^ (8 * k) % 256 * 2 ^ (8 * k) + b.toNat * 2 ^ (8 * k))

/-- Replace byte k of a vector register. -/
def setVByte (v : VReg) (k : Nat) (b : Byte) : VReg :=
  let n := v.toNat
  BitVec.ofNat 4096 (n - n / 2 ^ (8 * k) % 256 * 2 ^ (8 * k) + b.toNat * 2 ^ (8 * k))

/-- A byte written into a slot's vector register or scalar file image (R164, R208, R209). -/
def Slot.writeImage (c : Slot) (space off : Nat) (b : Byte) : Slot :=
  if space == Space.pool then
    let n := off / 512
    { c with vregs := c.vregs.setIfInBounds n (setVByte ((c.vregs[n]?).getD 0) (off % 512) b) }
  else
    let n := off / 8
    c.setReg n (setByte (c.reg n) (off % 8) b)

/-- The bytes of some cells as one word, from the lowest location. -/
def cellsWord (cs : List Host.Cell) : Word := leWord (cs.map (fun c => c.2))

/-- The cells of one write land in a slot's registers. A control image write that would set FMODE to 5 to 7, or a window to a
reserved value, is discarded whole (R208). A byte of a vector register beyond the declaration of the task that the slot now
runs is discarded: such a register keeps nothing (R163). Two points that the spec leaves open are the model's choice
(notes/assumptions/65.md): a store to WINn with n at or above the target's .windows is written, and no monitor armed on an
image ever triggers. -/
def Slot.takeImage (c : Slot) (cs : List Host.Cell) : Slot :=
  match cs with
  | [] => c
  | (k, _) :: _ =>
    if keySpace k == Space.ctrl then
      let i := keyOff k / 8
      let w := cellsWord cs
      if csrRefused i w then c else c.writeCsr i w
    else if keySpace k == Space.pool || keySpace k == Space.scalar then
      (cs.filter (fun (x : Host.Cell) => keySpace k == Space.scalar || decide (keyOff x.1 / 512 < c.decl.vregs))).foldl
        (fun c x => c.writeImage (keySpace k) (keyOff x.1) x.2) c
    else c

/-- The slot has its turn in this cycle, and has not taken it yet (R119). -/
def State.turnAhead (s : State) (phys : Nat) : Bool := slotNo phys == s.cycle.toNat % 8 && decide (s.cur.phys ≤ phys)

/-- The slot has taken its turn in this cycle (R119). -/
def State.turnPast (s : State) (phys : Nat) : Bool := slotNo phys == s.cycle.toNat % 8 && decide (phys < s.cur.phys)

/-- A location of a register image whose slot has had its turn in this cycle: what is to land in the cycle lands before that
turn, so a write waits for the next one (R169, R209; notes/assumptions/1.md). -/
def State.imagePast (s : State) (k : Nat) : Bool :=
  (keySpace k == Space.pool || keySpace k == Space.scalar || keySpace k == Space.ctrl) && s.turnPast (keyUnit k)

/-- Land the cells of one write at their home: a register image (R209). One that comes before the slot's turn of the cycle is
kept, to stand over what the slot's own instruction writes in that turn (R108, R169, R209). -/
def State.landImage (s : State) (cs : List Host.Cell) : State :=
  match cs with
  | [] => s
  | (k, _) :: _ =>
    let c := (s.slotAt (keyUnit k)).takeImage cs
    s.setSlot (if s.turnAhead (keyUnit k) then { c with landed := c.landed ++ [cs] } else c)

/-- Cells that live in the memory list. -/
def inMem (k : Nat) : Bool := decide (keySpace k < Space.pool)

/-- The controllers hold the key of the context that a device-memory location belongs to (R257). -/
def State.keyHeld (s : State) (k : Nat) : Bool :=
  keySpace k != Space.dev || (match s.ctxAt (keyUnit k) with
    | some x => x.keyValid
    | none => true)

/-- A write touches the eight bytes at an offset of a context's device memory. -/
def touches (cs : List Host.Cell) (k : Nat) : Bool := cs.any (fun (x : Host.Cell) => decide (k ≤ x.1) && decide (x.1 < k + 8))

/-- The value of eight bytes of memory as a word. -/
def memWord (m : List Host.Cell) (k : Nat) : Word := leWord ((upTo 8).map (fun i => readCell m (k + i)))

/-- A write to a queue's WIDX or CTRL word stands to be handled, with the value that the word then has (R349). -/
def Queue.wrote (m : List Host.Cell) (cs : List Host.Cell) (id : Nat) (q : Queue) : Queue :=
  let w := devKey id q.qdef.doorbell
  if q.q = 0 then q
  else { q with
    widxs := if touches cs w then q.widxs ++ [memWord m w] else q.widxs,
    ctrls := if touches cs (w + 8) then q.ctrls ++ [memWord m (w + 8)] else q.ctrls }

/-- The queues of a context after a write to its device memory (R349). -/
def State.ringDoorbells (s : State) (cs : List Host.Cell) (k : Nat) : State :=
  if keySpace k == Space.dev then
    match s.ctxAt (keyUnit k) with
    | some x => if x.queues.isEmpty then s else s.setCtx { x with queues := x.queues.map (Queue.wrote s.mem cs x.id) }
    | none => s
  else s

/-- The errors that stand after some cells have been written: one all of whose bytes are written anew is gone
(notes/assumptions/44.md). -/
def errsAfter (es : List MemErr) (cs : List Host.Cell) : List MemErr :=
  es.filter (fun e => !(upTo e.len).all (fun i => cs.any (fun (x : Host.Cell) => x.1 == e.lo + i)))

/-- Land a write at its home (R233): memory cells are written, monitors on their blocks trigger (R142), and a queue's
doorbell words are noted (R349). A write for which no key is held is dropped (R257). -/
def State.land (s : State) (cs : List Host.Cell) : State :=
  match cs with
  | [] => s
  | (k, _) :: _ =>
    if !s.keyHeld k then s
    else if inMem k then
      (({ s with mem := writeCells s.mem (cs.filter (fun (x : Host.Cell) => inMem x.1)), errs := errsAfter s.errs cs }).trigger
        (cs.map (fun (x : Host.Cell) => x.1 / 64))).ringDoorbells cs k
    else s.landImage cs

/-- Land an engine's write: every granule of a scratchpad that it touches becomes full (R215). -/
def State.landFull (s : State) (cs : List Host.Cell) : State :=
  (cs.filter (fun (x : Host.Cell) => hasGranule x.1)).foldl (fun (s : State) (x : Host.Cell) => if s.isFull x.1 then s else s.setFull x.1 true) (s.land cs)

/-- The cells of some bytes from a location on. -/
def cellsAt (k : Nat) : List Byte → List Host.Cell
  | [] => []
  | b :: bs => (k, b) :: cellsAt (k + 1) bs

/-- A word of CSRW, CSRS or CSRC (R107). -/
def csrWriter (w : IWord) : Bool := w.toNat / 2 ^ 21 == 0x1E0 && [1, 2, 3].contains (w.toNat / 2 ^ 12 % 16)

/-- What landed in the slot's registers before its turn of the cycle stands over what its turn wrote. A turn that writes no
control register itself raises flags and denials after the write (R108), so those two registers are written again only after a
CSRW, CSRS or CSRC. -/
def Slot.reland (c : Slot) : Slot :=
  let again := fun (cs : List Host.Cell) => match cs with
    | [] => false
    | (k, _) :: _ => !(keySpace k == Space.ctrl && (keyOff k / 8 == 0x002 || keyOff k / 8 == 0x034)) || csrWriter c.ir
  { (c.landed.filter again).foldl Slot.takeImage c with landed := [] }

/-- The turn of the current slot is over: the writes of the cycle stand in its registers (R108, R169, R209). -/
def State.reland (s : State) : State := if s.cur.landed.isEmpty then s else { s with cur := s.cur.reland }

/-- A halo arrival of the cycle counts: the counter rises after every write of the cycle (R108), and a HALOWAIT that it
satisfies completes at its slot's turn (R294). A write of the counter wakes no thread (R209). -/
def Slot.countHalo (c : Slot) (i : Nat) : Slot :=
  let n := (c.halo[i]?).getD 0 + 1
  let c := { c with halo := c.halo.setIfInBounds i n }
  match c.wait with
  | some (.halowait d want) => if (d == i && decide (want ≤ n)) then c.waitFor (.done 0 0) else c
  | _ => c

/-- The halo arrivals of the cycle that ends (R108, R293). -/
def State.countHalos (s : State) : State :=
  s.mapSlots (fun c => !c.haloDue.isEmpty) (fun c => { c.haloDue.foldl Slot.countHalo c with haloDue := [] })

/-- The control-register view of a slot that its image reads, for the registers held per thread; the others are
read by the thread itself (Operands). -/
def Slot.tstat (c : Slot) : Word :=
  BitVec.ofNat 64 ((if c.mig then 4 else 0) + (if c.ref then 2 else 0) + (if c.inh then 1 else 0))

/-- This module's node number (R410). -/
def State.ownNode (s : State) : Nat := (s.commission.map (fun r => r.node)).getD 0

/-! ### Referee cores (R18, R406, R408; notes/assumptions/64.md) -/

/-- The referee cores of a die. -/
def refCores (die : Nat) : List Nat := (upTo 4).map (fun i => refCore0 + 4 * die + i)

/-- The events pending for a referee core. -/
def State.refPending (s : State) (core : Nat) : BitVec 6 := ((s.refEvents.find? (fun e => e.1 == core)).map (fun e => e.2)).getD 0

/-- An event becomes pending for some referee cores (R408). -/
def State.signalRef (s : State) (cores : List Nat) (ev : BitVec 6) : State :=
  cores.foldl (fun (s : State) k => { s with refEvents := updKey (fun e => e.1 == k) (k, s.refPending k ||| ev) s.refEvents }) s

/-! ### Umpire messages (R397, R402, R403) -/

/-- The header of a flit (R397). -/
def flitHeader (f : Flit) : Nat :=
  f.vc.toNat + 2 ^ 4 * f.dst.toNat + 2 ^ 20 * f.src.toNat + 2 ^ 36 * f.ctx.toNat + 2 ^ 52 * f.ftype.toNat + 2 ^ 56 * f.len.toNat

/-- Bytes 0 to 55 of a flit, which its CRC covers: header and payload (R397). -/
def flitCovered (f : Flit) : List Byte := leBytes 8 (flitHeader f) ++ (upTo 48).map (fun i => f.payload.getD i 0)

/-- The 64 bytes of a flit (R397). -/
def flitBytes (f : Flit) : List Byte := flitCovered f ++ leBytes 4 f.crc.toNat ++ List.replicate 4 0

/-- The flit with its CRC computed (R397). -/
def sealFlit (f : Flit) : Flit := { f with crc := crc32 (flitCovered f) }

/-- The flit's CRC holds (R397). -/
def flitCrcOk (f : Flit) : Bool := f.crc == crc32 (flitCovered f)

/-- Bytes in the payloads of flits, 48 to each. -/
def flitPayloads (bs : List Byte) : List (List Byte) := (upTo (ceilDiv bs.length 48)).map (fun i => (bs.drop (48 * i)).take 48)

/-- The link that carries umpire traffic to a node: the first that is up (R398). -/
def State.linkTo (s : State) (node : Nat) : Option Link := s.links.find? (fun l => l.up && l.node == some node)

/-- Bytes for a node are laid out in flits on a channel of a link, tagged with their context (R397, R399). -/
def State.postBy (s : State) (l : Link) (node ctx : Nat) (vc : BitVec 4) (bytes : List Byte) : State :=
  let fs := (flitPayloads bytes).map (fun p =>
    sealFlit { vc := vc, dst := BitVec.ofNat 16 node, src := BitVec.ofNat 16 s.ownNode, ctx := BitVec.ofNat 16 ctx,
               ftype := Config.flitType vc, len := BitVec.ofNat 8 p.length, payload := p, crc := 0 })
  { s with links := updKey (fun (m : Link) => m.link == l.link) { l with out := l.out ++ fs } s.links }

/-- A message of the umpire leaves on a channel of a link to its node (R397). With no link up it waits for none: the record of
the message stands in the state all the same. -/
def State.post (s : State) (node : Nat) (vc : BitVec 4) (bytes : List Byte) : State :=
  match s.linkTo node with
  | none => s
  | some l => s.postBy l node 0 vc bytes

/-- The bytes of a reply or a notice: the header of R402 and the payload. -/
def portBytes (code tag : Nat) (status : Word) (payload : List Byte) : List Byte :=
  [0x47#8, 0x58#8, 0x50#8, 0x43#8] ++ leBytes 2 code ++ leBytes 2 tag ++ leBytes 8 status.toNat ++ leBytes 8 payload.length ++
    leBytes 8 0 ++ payload

/-- The number of a notice's kind, in the order in which R403 names them (notes/assumptions/58.md). -/
def NoticeKind.code : NoticeKind → Nat
  | .fault => 0
  | .expiry => 1
  | .launchDone => 2
  | .capture => 3
  | .queueRecord => 4
  | .queueState => 5
  | .fenceDone => 6

/-- An unsolicited notice goes to the bound node of a context: code 0x8000 and tag 0 (R403). Its word at bytes 8 to 15 names the
context and the kind (notes/assumptions/58.md). -/
def State.notify (s : State) (x : Ctx) (kind : NoticeKind) (payload : List Byte) : State :=
  let n : Notice := { node := x.node, ctx := x.id, kind := kind, payload := payload }
  State.post { s with notices := s.notices ++ [n] } x.node 0
    (portBytes 0x8000 0 (BitVec.ofNat 64 (kind.code * 2 ^ 16 + x.id % 2 ^ 16)) payload)

/-! ### Traps -/

/-- The TVAL a fault record holds: a data value from a register or from memory is recorded as 0 (R158). These are the
TVAL of WARRANT, that of HANDLE for a warrant handle (a word of the warrant major, 0x16), and that of a trap raised by
TRAP, whose meaning says so itself. -/
def recordValue (cause : TrapCause) (word : IWord) (tval : Word) : Word :=
  if cause == .warrant || (cause == .handle && word.toNat / 2 ^ 26 == 0x16) then 0 else tval

/-- The bytes of a fault record (Table 8-3). -/
def faultRecord (flags : Nat) (cycle : Word) (ctx kind cause slot : Nat) (pc : Word) (word : IWord)
    (value location serial : Word) : List Byte :=
  [0x47#8, 0x58#8, 0x46#8, 0x52#8] ++ leBytes 2 1 ++ leBytes 2 flags ++ leBytes 8 cycle.toNat ++ leBytes 2 ctx
    ++ leBytes 1 kind ++ leBytes 1 cause ++ leBytes 4 slot ++ leBytes 8 pc.toNat ++ leBytes 4 word.toNat
    ++ leBytes 4 0 ++ leBytes 8 value.toNat ++ leBytes 8 location.toNat ++ leBytes 8 serial.toNat

/-- The low 8 bytes of a context's serial (R158, R335). -/
def Ctx.serialLow (x : Ctx) : Word := x.serial.setWidth 64

/-- The record's fixed flags: fatal, and sub-context (R158). -/
def Ctx.recordFlags (x : Ctx) (fatal : Bool) : Nat := (if fatal then 1 else 0) + (if x.sub then 8 else 0)

/-- Set a flag of a record. -/
def recordFlag (r : List Byte) (f : Nat) : List Byte := setNth r 6 (r.getD 6 0 ||| BitVec.ofNat 8 f)

/-- A fault that resets the context: a watchdog hang, and a fault that is no thread's trap (R157, R358). -/
def resetKind (kind : Nat) : Bool := kind == 1 || kind == 2

/-- A context enters ERROR, or counts a further fault while its first is handled; after the dump a further fault gives
a record alone (R157, R161), sent and not written over the dump's own (the model's choice, notes/assumptions/11.md), with the
flag of a missing key where none is held. A fault that comes while a reset of the context is pending, and that is no reset
itself, ends it in ERROR (R157). -/
def State.enterError (s : State) (id kind die : Nat) (record : List Byte) : State :=
  match s.ctxAt id with
  | none => s
  | some x =>
    match x.err with
    | none => s.setCtx { x with
        state := if resetKind kind then x.state else .error,
        err := some { record := record, kind := kind, die := die, stopped := false, stopAt := 0, dumped := 0, further := 0,
                      first := none, frozen := [] } }
    | some e =>
      if e.dumped = 2 then s.notify x .fault (if x.keyValid then record else recordFlag record 0x10)
      else s.setCtx { x with
        state := if resetKind kind then x.state else .error,
        err := some { e with kind := if resetKind e.kind then kind else e.kind, further := e.further + 1,
                             first := if e.first.isSome then e.first else some record } }

/-- A trap that no handler takes, of an instruction at a pc: the thread issues nothing further and its context enters ERROR; no
trap register changes (R154, R157). `value` and `loc` are the record's value and location fields. -/
def fatalTrapAt (s : State) (c : Slot) (pc : Word) (cause : TrapCause) (value : Word) (word : IWord) (loc : Word) : State :=
  let s := s.setSlot { c with status := .stopped, held := .ready, busy := 0, late := none, wait := none, block := none,
                                resumeAt := none }
  match s.ctxOf c with
  | none => s
  | some x =>
    s.enterError x.id 0 (dieOf c.phys)
      (faultRecord (x.recordFlags true) s.cycle x.id 0 cause.code c.phys pc word value loc x.serialLow)

/-- A fatal trap of the instruction at a thread's pc. -/
def fatalTrap (s : State) (c : Slot) (cause : TrapCause) (value : Word) (word : IWord) (loc : Word) : State :=
  fatalTrapAt s c c.pc cause value word loc

/-- Whether a trap of the thread is fatal (R154). -/
def trapIsFatal (c : Slot) (cause : TrapCause) : Bool := c.thand == 0 || c.inh || cause == .uncorr

/-- The thread's state after the handler is entered (R152). After a trap of a migrating block the block stays known, for an
ERET back into it (R155). -/
def Slot.enterHandler (c : Slot) (cause : TrapCause) (tval : Word) (word : IWord) (mig : Bool) : Slot :=
  { c with tcause := BitVec.ofNat 8 cause.code, tepc := c.pc, tword := word, tval := tval, inh := true, mig := mig,
           pc := c.thand, busy := 0, late := none, wait := none, status := .ready, block := none,
           resumeAt := if mig then c.resumeAt else none }

/-- Taking a trap (R152, R154). In referee mode the umpire's ROM handler is entered (R406). `value` is what a fault record
shows of TVAL. -/
def takeTrap (s : State) (c : Slot) (cause : TrapCause) (tval value : Word) (word : IWord) (mig : Bool) : State :=
  if c.ref then s.setSlot { c.enterHandler cause tval word mig with pc := Config.romHandler }
  else if trapIsFatal c cause then fatalTrap s c cause value word 0
  else s.setSlot (c.enterHandler cause tval word mig)

/-- A trap of the current thread, whose slot is c after its pops. Inside a migrating block the block's stores are
discarded and the registers travel home first (R155, R265). -/
def trapShowing (s : State) (c : Slot) (cause : TrapCause) (tval value : Word) : Out :=
  match c.block with
  | some b => .next { s with cur := { c with
      block := none, resumeAt := some (c.pc, { b with idx := b.idx - 1, reads := [], stores := [] }),
      wait := some (.migrReturn (some (cause, tval, value))), status := .waitMem } }
  | none => .next (takeTrap s c cause tval value c.ir false)

/-- A trap of the current thread, as every instruction but TRAP raises it. -/
def trap (s : State) (c : Slot) (cause : TrapCause) (tval : Word) : Out :=
  trapShowing s c cause tval (recordValue cause c.ir tval)

/-- Return from a trap: pc := TEPC, INH and MIG clear (R153). -/
def Slot.eret (c : Slot) : Slot := { c with pc := c.tepc, inh := false, mig := false, resumeAt := none }

/-- The block into which an ERET goes back: MIG is set and TEPC still names the block's trapping instruction (R155). -/
def Slot.eretBlock (c : Slot) : Option Block :=
  match c.resumeAt with
  | some (p, b) => if c.mig && p == c.tepc then some b else none
  | none => none

/-- Go on at another pc. -/
def Slot.goto (c : Slot) (pc : Word) : Slot := { c with pc := pc }

/-- The next word's address. -/
def Slot.npc (c : Slot) : Word := c.pc + 4

/-- The instruction is done and writes no register: go on at pc + 4. -/
def done (s : State) (c : Slot) : Out := .next { s with cur := c.goto c.npc }

/-- The slot's value of FFLAGS after some flags are raised (R89). -/
def Slot.raise (c : Slot) (f : BitVec 5) : Slot := { c with fflags := c.fflags ||| f }

/-- What an instruction does beside its result when it completes (R75, R89, R388). -/
def Slot.after (c : Slot) : After → Slot
  | .nothing => c
  | .raise f => c.raise f
  | .deny e => { c with deny := true, denyEv := e }
  | .phase f h x => { c.raise f with handles := c.handles.setIfInBounds h x }

/-- A free value of the next draw, and the state with the counter advanced (notes/assumptions/7.md). -/
def State.draw (s : State) : Word × State := (Config.freeWord s.fresh, { s with fresh := s.fresh + 1 })

end Sys2Proof.Machine
end

