-- ==== Sys2Proof/Machine/Operands.lean ====
section
/-! DEFINITION. Operand forms: the context-relative address map and its checks (R206 to R210, R250 to R255, R285,
R404), reads by home and through the store buffer, control-register values, vector registers and masks. -/

namespace Sys2Proof.Machine

/-- What an access is, for the permissions of the map: a scalar load or store of n bytes, a consecutive or an
indexed vector load or store, full/empty, an atomic, a fetch, or an engine's read or write. -/
inductive Acc where
  | load (n : Nat)
  | store (n : Nat)
  | vload
  | vstore
  | vidxLoad
  | vidxStore
  | fe
  | atomic
  | fetch
  | engRead
  | engWrite
deriving DecidableEq, Repr

/-- An access that writes. -/
def Acc.writes : Acc → Bool
  | .store _ | .vstore | .vidxStore | .fe | .atomic | .engWrite => true
  | _ => false

/-- A refused access: the cause and TVAL of its trap. -/
abbrev Refused := TrapCause × Word

/-- FMT of a window descriptor (Table 12-3). -/
def winFmt (w : Word) : Nat := bits w 4 0

/-- The format window w of a slot. -/
def Slot.win (c : Slot) (w : Nat) : Word := (c.wins[w]?).getD winIdentity

/-- The bound of the own core scratchpad region: the declared .coresp, within the context's bytes (R206, Table 25-6). -/
def coreBound (x : Ctx) (c : Slot) : Nat := min c.decl.coresp x.res.coreB

/-- The bound of the own cluster scratchpad region: the declared .clussp (R206, R212). -/
def clusBound (c : Slot) : Nat := c.decl.clussp

/-- The bound of the scratchpad range of a core window: Z, and within the context's bytes on the thread's own core (R208,
R344). -/
def winBound (x : Ctx) (c : Slot) (core : Nat) : Nat :=
  if core = coreOf c.phys then min x.maxCoresp x.res.coreB else x.maxCoresp

/-- Whether the context holds the matrix share of a core position of a cluster (R266). -/
def Ctx.holdsShare (x : Ctx) (clus pos : Nat) : Bool := x.shares.contains (clus * 8 + pos)

/-- The slot of a core that an image offset names: it must be one of the context's slots (R208). -/
def imageSlot (s : State) (x : Ctx) (core n : Nat) (va : Word) : Except Refused Slot :=
  if n < 7 ∧ x.slots.contains (core * 8 + n) then .ok (s.slotAt (core * 8 + n)) else .error (.perm, va)

/-- The control indices of Table 6-2 (R104). -/
def csrListed (i : Nat) : Bool := csrDefined i

/-- An access that only the homes of R225 and R259 serve, and a fetch: no image and no hole of a window permits it. -/
def Acc.homed : Acc → Bool
  | .fe | .atomic | .fetch => true
  | _ => false

/-- The refusal of an address that a region does not list: PERM for a full/empty access or an atomic, whose own rules say so
of every address outside their homes (R225, R259), and for a fetch in a window (R118); else BOUNDS (R206, R208, R210;
notes/assumptions/63.md). -/
def unlisted (acc : Acc) (va : Word) : Refused := (if acc.homed then .perm else .bounds, va)

/-- The refusal of an address in a hole: as `unlisted`, but a fetch takes BOUNDS (R118, R206). -/
def inHole (acc : Acc) (va : Word) : Refused := (if acc.homed && acc != .fetch then .perm else .bounds, va)

/-- The location of an access to an image of a core window (Table 12-2, R164, R285). -/
def resolveImage (s : State) (x : Ctx) (va : Word) (core off : Nat) (acc : Acc) : Except Refused Nat :=
  if acc.homed then .error (.perm, va)
  else if 0x400000 ≤ off ∧ off < 0x420000 then
    match imageSlot s x core ((off - 0x400000) / 0x4000) va with
    | .error e => .error e
    | .ok c =>
      if (off - 0x400000) % 0x4000 / 0x200 < c.decl.vregs then
        .ok (keyOf Space.pool c.phys ((off - 0x400000) % 0x4000))
      else .error (.bounds, va)
  else if 0x600000 ≤ off ∧ off < 0x600800 then
    match imageSlot s x core ((off - 0x600000) / 0x100) va with
    | .error e => .error e
    | .ok c =>
      if 0xC0 ≤ (off - 0x600000) % 0x100 then .error (.bounds, va)
      else match acc with
        | .load _ | .store _ => .ok (keyOf Space.scalar c.phys ((off - 0x600000) % 0x100))
        | _ => .error (.perm, va)
  else if 0x800000 ≤ off ∧ off < 0x800800 ∧ (off - 0x800000) % 0x100 < 0x40 then
    match acc, imageSlot s x core ((off - 0x800000) / 0x100) va with
    | .load 8, .ok c => .ok (keyOf Space.mbox c.phys ((off - 0x800000) % 0x100))
    | _, _ => .error (.perm, va)
  else if 0xC00000 ≤ off ∧ off < 0xC40000 then
    match imageSlot s x core ((off - 0xC00000) / 0x8000) va with
    | .error e => .error e
    | .ok c =>
      if !csrListed ((off - 0xC00000) % 0x8000 / 8) then .error (.bounds, va)
      else match acc with
        | .load 8 | .store 8 => .ok (keyOf Space.ctrl c.phys ((off - 0xC00000) % 0x8000))
        | _ => .error (.perm, va)
  else .error (.bounds, va)

/-- The location of an access in a core window (R208). -/
def resolveCoreWin (s : State) (x : Ctx) (c : Slot) (va : Word) (l off : Nat) (acc : Acc) : Except Refused Nat :=
  match x.cores[l]? with
  | none => .error (unlisted acc va)
  | some core =>
    if off < 0x40000 then
      if acc == .fetch then .error (.perm, va)
      else if off < winBound x c core then .ok (keyOf Space.core (shareUnit core x.id) off)
      else .error (.bounds, va)
    else resolveImage s x va core off acc

/-- The location of an access in a cluster window (R210, R282). -/
def resolveClusWin (x : Ctx) (va : Word) (n off : Nat) (acc : Acc) : Except Refused Nat :=
  match x.clusters[n]? with
  | none => .error (unlisted acc va)
  | some clus =>
    if off < 0x400000 then
      if acc == .fetch then .error (.perm, va)
      else if off < x.maxClussp then .ok (keyOf Space.clus (shareUnit clus x.id) off)
      else .error (.bounds, va)
    else if 0x800000 ≤ off ∧ off < 0x840000 ∧ x.holdsShare clus ((off - 0x800000) / 0x8000) then
      match acc with
      | .load _ | .vload | .vidxLoad | .engRead => .ok (keyOf Space.tile clus (off - 0x800000))
      | _ => .error (.perm, va)
    else .error (unlisted acc va)

/-- The permissions of a device-memory offset: read, write, execute (Table 16-1). -/
def Layout.perms (l : Layout) (off : Nat) : Bool × Bool × Bool :=
  if off < l.freeEnd then (true, true, false)
  else if l.textOff ≤ off ∧ off < l.textOff + l.textSize then (true, false, true)
  else if l.constOff ≤ off ∧ off < l.constOff + l.constSize then (true, false, false)
  else if l.dataOff ≤ off ∧ off < l.dataOff + l.dataSize then (true, true, false)
  else (false, false, false)

/-- A child holds the page of an offset: the context has no page there (R339). -/
def Ctx.lentAt (x : Ctx) (off : Nat) : Bool := x.lent.any (fun r => decide (r.2.1 ≤ off) && decide (off < r.2.2))

/-- The location of a device-memory access (R250 to R255). -/
def resolveDev (x : Ctx) (va : Word) (off : Nat) (acc : Acc) : Except Refused Nat :=
  if acc == .fe then .error (.perm, va)
  else if off < x.layout.g && !x.lentAt off then
    let (r, w, e) := x.layout.perms off
    if acc == .fetch then (if e then .ok (keyOf Space.dev x.id off) else .error (.perm, va))
    else if r && (w || !acc.writes) then .ok (keyOf Space.dev x.id off)
    else .error (.perm, va)
  else .error (.xlate, va)

/-- The location of a system-space access: window 0 of the context (R404). -/
def resolveSys (x : Ctx) (va : Word) (off : Nat) (acc : Acc) : Except Refused Nat :=
  if acc == .fetch || acc == .fe then .error (.perm, va)
  else match x.winOut with
    | some (base, len) =>
      if off < len.toNat then .ok (keyOf Space.host x.node (base.toNat + off)) else .error (.perm, va)
    | none => .error (.perm, va)

/-- The location of an access in a context's map, after the CANON and MISALIGN checks (R206 to R210). -/
def resolveCtx (s : State) (x : Ctx) (c : Slot) (va : Word) (acc : Acc) : Except Refused Nat :=
  let a := va.toNat
  if a < 0x40000 then
    if acc == .fetch then .error (.perm, va)
    else if a < coreBound x c then .ok (keyOf Space.core (shareUnit (coreOf c.phys) x.id) a)
    else .error (.bounds, va)
  else if a < 0x100000 then .error (inHole acc va)
  else if a < 0x300000 then
    let w := (a - 0x100000) / 0x40000
    let o := (a - 0x100000) % 0x40000
    if acc == .fetch then .error (.perm, va)
    else if c.decl.windows ≤ w then .error (.regdecl, BitVec.ofNat 64 (0x100 + w))
    else if winFmt (c.win w) ≠ 31 ∧ (acc = .atomic ∨ acc = .vidxLoad ∨ acc = .vidxStore) then .error (.perm, va)
    else if o < coreBound x c then .ok (keyOf Space.core (shareUnit (coreOf c.phys) x.id) o)
    else .error (.bounds, va)
  else if a < 0x1000000 then .error (inHole acc va)
  else if a < 0x1400000 then
    if acc == .fetch then .error (.perm, va)
    else if a - 0x1000000 < clusBound c then .ok (keyOf Space.clus (shareUnit (clusOf c.phys) x.id) (a - 0x1000000))
    else .error (.bounds, va)
  else if a < 0x100000000 then .error (inHole acc va)
  else if a < 0x200000000 then
    resolveCoreWin s x c va ((a - 0x100000000) / 0x1000000) (a % 0x1000000) acc
  else if a < 0x1000000000000 then
    resolveClusWin x va ((a - 0x200000000) / 0x1000000) (a % 0x1000000) acc
  else if a < 0x100000000000000 then resolveDev x va (a - 0x1000000000000) acc
  else resolveSys x va (a - 0x100000000000000) acc

/-- The location of an access in referee mode: the referee core's own scratchpad of 256 KiB (R406). -/
def resolveRef (c : Slot) (va : Word) : Except Refused Nat :=
  if va.toNat < 0x40000 then .ok (keyOf Space.ref (coreOf c.phys) va.toNat) else .error (.bounds, va)

/-- The checks of R207, in their order: CANON, MISALIGN, then the region. The location of the first byte where
they pass. Every aligned scalar access lies within one region (R207). -/
def resolve (s : State) (c : Slot) (va : Word) (align : Nat) (acc : Acc) : Except Refused Nat :=
  if 2 ^ 57 ≤ va.toNat then .error (.canon, va)
  else if va.toNat % align ≠ 0 then .error (.misalign, va)
  else if c.ref then resolveRef c va
  else match s.ctxOf c with
    | some x => resolveCtx s x c va acc
    | none => .error (.bounds, va)

/-- The checks of a load or store of a migrating block: R207 against the slice (R264). -/
def resolveBlock (s : State) (c : Slot) (b : Block) (va : Word) (n : Nat) (acc : Acc) : Except Refused Nat :=
  if 2 ^ 57 ≤ va.toNat then .error (.canon, va)
  else if va.toNat % n ≠ 0 then .error (.misalign, va)
  else if va.toNat / 256 ≠ b.slice.toNat / 256 then .error (.bounds, va)
  else match s.ctxOf c with
    | some x => resolveCtx s x c va acc
    | none => .error (.bounds, va)

/-! ### Device time and control-register values -/

/-- TEARLY at the global cycle (R382). Where the sum passes the 64 bits it stays at the greatest value, since the rule lets it
never decrease (notes/assumptions/70.md). -/
def State.tearly (s : State) : Nat :=
  match s.beacon with
  | none => 0
  | some b =>
    let n := (s.cycle.toNat - b.cb.toNat) * 5 / 3
    min (2 ^ 64 - 1) (b.eb.toNat + n - ceilDiv n 50000)

/-- TLATE at the global cycle (R382). -/
def State.tlate (s : State) : Nat :=
  match s.beacon with
  | none => 2 ^ 64 - 1
  | some b =>
    let n := (s.cycle.toNat - b.cb.toNat) * 5 / 3
    if 900000000000 ≤ n then 2 ^ 64 - 1 else min (2 ^ 64 - 1) (b.lb.toNat + n + 1 + ceilDiv n 50000)

/-- CFLAGS: the OR of the FFLAGS of the context's running threads in the reading thread's cluster (R90). -/
def State.cflags (s : State) (c : Slot) : BitVec 5 :=
  (s.allSlots.filter (fun d => d.owner.isSome && d.owner == c.owner && clusOf d.phys == clusOf c.phys)).foldl
    (fun f d => f ||| d.fflags) 0

/-- The copy channel n of a slot's core, when the slot's context holds it (R286). -/
def State.chanOf (s : State) (c : Slot) (n : Nat) : Option Chan :=
  match c.owner with
  | none => none
  | some id => s.chans.find? (fun h => h.core == coreOf c.phys && h.ch == n && h.ctx == id)

/-- SLOT of Table 6-4. -/
def Slot.slotCsr (c : Slot) : Word := BitVec.ofNat 64 (c.thread % 2 ^ 17 * 8 + slotNo c.phys)

/-- CORE of Table 6-4. -/
def Slot.coreCsr (c : Slot) : Word :=
  BitVec.ofNat 64 (coreOf c.phys % 8 * 2 ^ 32 + c.lclus % 2 ^ 16 * 2 ^ 16 + c.lcore % 2 ^ 16)

/-- CTX of Table 6-4: SUB, SEALED, CLASS and ID. -/
def Ctx.csr (x : Ctx) : Word :=
  BitVec.ofNat 64 ((if x.sub then 2 ^ 19 else 0) + (if x.warrant.sealed then 2 ^ 18 else 0) + x.res.cls % 4 * 2 ^ 16
    + x.id % 2 ^ 16)

/-- Value(csr): a control register as the thread reads it, reserved bits zero (R104 to R107). -/
def csrValue (s : State) (c : Slot) (i : Nat) : Word :=
  match i with
  | 0x001 => c.fmode.setWidth 64
  | 0x002 => c.fflags.setWidth 64
  | 0x003 => (s.cflags c).setWidth 64
  | 0x010 => c.tcause.setWidth 64
  | 0x011 => c.tepc
  | 0x012 => c.tword.setWidth 64
  | 0x013 => c.tval
  | 0x014 => c.thand
  | 0x015 => c.tstat
  | 0x020 => c.slotCsr
  | 0x021 => c.coreCsr
  | 0x022 => ((s.ctxOf c).map Ctx.csr).getD 0
  | 0x030 => s.cycle
  | 0x031 => BitVec.ofNat 64 s.tearly
  | 0x032 => BitVec.ofNat 64 s.tlate
  | 0x033 => BitVec.ofNat 64 (((s.ctxOf c).map (fun x => x.meter / 1000000)).getD 0)
  | 0x034 => BitVec.ofNat 64 ((if c.deny then 256 else 0) + c.denyEv.toNat)
  | 0x040 | 0x041 | 0x042 | 0x043 => ((c.halo[i - 0x040]?).getD 0).setWidth 64
  | 0x050 | 0x051 | 0x052 | 0x053 | 0x054 | 0x055 | 0x056 | 0x057 => c.win (i - 0x050)
  | 0x060 | 0x061 | 0x062 | 0x063 | 0x064 | 0x065 | 0x066 | 0x067 =>
    ((s.chanOf c (i - 0x060)).map (fun h => h.wm)).getD 0
  | 0x070 | 0x071 | 0x072 | 0x073 | 0x074 | 0x075 | 0x076 | 0x077 =>
    BitVec.ofNat 64 (((s.chanOf c (i - 0x070)).map (fun h => h.pend)).getD 0)
  | _ => 0

/-! ### Reads -/

/-- The matrix unit of a cluster, if any command or share has touched it. -/
def State.unitAt (s : State) (clus : Nat) : Option MUnit := s.matrix.find? (fun u => u.clus == clus)

/-- An element of a list of tiles, +0 where the tile is not listed (R266). -/
def tileIn (ts : List (Nat × Vector (BitVec 32) 1024)) (t i : Nat) : BitVec 32 :=
  match ts.find? (fun x => x.1 == t) with
  | some x => (x.2[i]?).getD 0
  | none => 0

/-- An element of an accumulator tile (R266). -/
def State.tileElem (s : State) (clus t i : Nat) : BitVec 32 :=
  match s.unitAt clus with
  | none => 0
  | some u => tileIn u.tiles t i

/-- An element of a tile among the published ones of at most some number, the newest first; +0 where none was (R239). -/
def shownIn (ts : List (Nat × Nat × Vector (BitVec 32) 1024)) (seen t i : Nat) : BitVec 32 :=
  match ts.find? (fun x => decide (x.1 ≤ seen) && x.2.1 == t) with
  | some x => (x.2.2[i]?).getD 0
  | none => 0

/-- The byte of an accumulator tile: the tile as it stands, or for a thread outside its cluster, which has acquired some of the
publications, as the newest of them shows it (R239). -/
def State.tileByte (s : State) (seen : Option Nat) (k : Nat) : Byte :=
  let off := keyOff k
  match s.unitAt (keyUnit k) with
  | none => 0
  | some u =>
    let v := match seen with
      | none => tileIn u.tiles (off / 4096) (off % 4096 / 4)
      | some n => shownIn u.shown n (off / 4096) (off % 4096 / 4)
    BitVec.ofNat 8 (v.toNat / 2 ^ (8 * (off % 4)))

/-- The byte of a location as its home holds it. -/
def State.readHome (s : State) (k : Nat) : Byte :=
  if inMem k then readCell s.mem k
  else
    let c := s.slotAt (keyUnit k)
    let off := keyOff k
    let sp := keySpace k
    if sp == Space.pool then BitVec.ofNat 8 (((c.vregs[off / 512]?).getD 0).toNat / 2 ^ (8 * (off % 512)))
    else if sp == Space.scalar then BitVec.ofNat 8 ((c.reg (off / 8)).toNat / 2 ^ (8 * (off % 8)))
    else if sp == Space.ctrl then BitVec.ofNat 8 ((csrValue s c (off / 8)).toNat / 2 ^ (8 * (off % 8)))
    else if sp == Space.mbox then
      match c.mbox[off / 32]? with
      | some e => BitVec.ofNat 8 (((e.words[off % 32 / 8]?).getD 0).toNat / 2 ^ (8 * (off % 8)))
      | none => 0
    else if sp == Space.tile then s.tileByte none k
    else 0

/-- The byte of a location as a slot's thread, or an engine for it, reads it at its home (R239). -/
def State.readFrom (s : State) (c : Slot) (k : Nat) : Byte :=
  if keySpace k == Space.tile && keyUnit k != clusOf c.phys then s.tileByte (some c.tileSeen) k else s.readHome k

/-- The newest byte for a location among some writes of a core, oldest first. -/
def forwardByte (core k : Nat) : List SbEntry → Option Byte
  | [] => none
  | e :: es => match forwardByte core k es with
    | some b => some b
    | none => if e.core == core then (e.cells.find? (fun x => x.1 == k)).map (fun x => x.2) else none

/-- A location whose reads the core serves from its own writes: memory. An image is read at its home (R209). -/
def forwards (k : Nat) : Bool := inMem k

/-- The byte that a thread of a core reads: the newest write in the core's store buffer, then one on its way to
its home, else the value at the home (R238). -/
def State.readCore (s : State) (core k : Nat) : Byte :=
  if forwards k then
    match forwardByte core k s.sbuf with
    | some b => b
    | none => match forwardByte core k s.flight with
      | some b => b
      | none => s.readHome k
  else s.readHome k

/-- Some bytes as a thread of a core reads them. -/
def State.readCoreN (s : State) (core k : Nat) : Nat → List Byte
  | 0 => []
  | n + 1 => s.readCore core k :: State.readCoreN s core (k + 1) n

/-- Some bytes as a slot's thread reads them (R238, R239). -/
def State.readSlotN (s : State) (c : Slot) (k n : Nat) : List Byte :=
  if keySpace k == Space.tile then (upTo n).map (fun i => s.readFrom c (k + i)) else s.readCoreN (coreOf c.phys) k n

/-- Some bytes as their home holds them. -/
def State.readHomeN (s : State) (k : Nat) : Nat → List Byte
  | 0 => []
  | n + 1 => s.readHome k :: State.readHomeN s (k + 1) n

/-- The bytes of a load of a migrating block: its own held stores, else the home (R264). -/
def State.readBlockN (s : State) (b : Block) (k : Nat) : Nat → List Byte
  | 0 => []
  | n + 1 => (match b.stores.find? (fun x => x.1 == k) with
      | some x => x.2
      | none => s.readHome k) :: State.readBlockN s b (k + 1) n

/-! ### What holds a load back -/

/-- The first location of a channel's range, in the own core or cluster scratchpad region (R288). -/
def Chan.key (h : Chan) : Nat :=
  if h.base.toNat < 0x1000000 then keyOf Space.core (shareUnit h.core h.ctx) h.base.toNat
  else keyOf Space.clus (shareUnit (h.core / 8) h.ctx) (h.base.toNat - 0x1000000)

/-- A load of n bytes at a location stalls on the channel: the last of its bytes within the range lies at or above
the watermark (R33). -/
def Chan.stalls (h : Chan) (k n : Nat) : Bool :=
  let lo := h.key
  let hi := lo + h.len
  let last := min (k + n) hi
  decide (0 < h.len) && decide (max k lo < last) && decide (h.wm.toNat + lo ≤ last - 1 + h.base.toNat)

/-- The bank of a scratchpad location, as the first location of its 16 or 64 KiB (R211, R212). -/
def bankOf (k : Nat) : Nat :=
  if keySpace k == Space.core then k / 2 ^ 14 * 2 ^ 14 else k / 2 ^ 16 * 2 ^ 16

/-- The bank still wakes (R214). -/
def State.bankWaking (s : State) (k : Nat) : Bool := hasGranule k && s.waking.contains (bankOf k)

/-- The width of an atomic or a reduction in bytes. -/
def AtomReq.bytes (r : AtomReq) : Nat := if r.w32 then 4 else 8

/-- An atomic or a reduction shares a byte with n bytes at a location. -/
def AtomReq.meets (r : AtomReq) (k n : Nat) : Bool := decide (r.loc < k + n) && decide (k < r.loc + r.bytes)

/-- A reduction or .o atomic of the slot to one of the bytes has not reached its home (po-loc, R234). -/
def State.outPending (s : State) (slot k n : Nat) : Bool :=
  s.outb.any (fun o => o.slot == slot && !o.done && o.req.meets k n)

/-! ### What is still under way (R235 to R238) -/

/-- A write shares a byte with n bytes at a location. -/
def SbEntry.meets (e : SbEntry) (k n : Nat) : Bool :=
  e.cells.any (fun (x : Host.Cell) => decide (k ≤ x.1) && decide (x.1 < k + n))

/-- A write of the core to one of n bytes at a location has not landed. -/
def State.writePending (s : State) (core k n : Nat) : Bool :=
  let hit := fun e : SbEntry => e.core == core && e.meets k n
  s.sbuf.any hit || s.flight.any hit

/-- A write that a slot made before a mark has not landed. -/
def State.pendW (s : State) (slot mark : Nat) : Bool :=
  let w := fun e : SbEntry => e.slot == slot && decide (e.seq < mark)
  s.sbuf.any w || s.flight.any w

/-- A reduction or .o atomic that a slot made before a mark has not been performed. -/
def State.pendO (s : State) (slot mark : Nat) : Bool :=
  s.outb.any (fun e => e.slot == slot && !e.done && decide (e.seq < mark))

/-- What a release of a slot follows is still under way: a write, a reduction or an .o atomic that the slot made before the
mark (R235). -/
def State.earlierPending (s : State) (slot mark : Nat) : Bool := s.pendW slot mark || s.pendO slot mark

/-- A write that landed early is still closed to the threads of a core: the core lies in the scope of a release point of its
slot whose earlier events are under way (R235, R236). Within one core only reductions count (R237); the scope of the module
takes in every core of it. -/
def Early.closed (s : State) (e : Early) (core : Nat) : Bool :=
  let own := coreOf e.slot
  (own == core && s.pendO e.slot e.bounds.core) || (own / 8 == core / 8 && s.earlierPending e.slot e.bounds.clus) ||
    (dieOfCore own == dieOfCore core && s.earlierPending e.slot e.bounds.die) || s.earlierPending e.slot e.bounds.dev

/-- Some of n bytes at a location are closed to the threads of a core. -/
def State.earlyHeld (s : State) (core k n : Nat) : Bool :=
  s.early.any (fun e => e.keys.any (fun q => decide (k ≤ q) && decide (q < k + n)) && e.closed s core)

/-- The core still holds a release that meets n bytes at a location, and what it follows is under way: a read of it waits,
since it may be an acquire (R235; notes/assumptions/9.md). -/
def State.releaseHeld (s : State) (core k n : Nat) : Bool :=
  let hit := fun e : SbEntry => e.core == core && e.meets k n && (match e.rel with
    | none => false
    | some .core => s.pendO e.slot e.seq
    | some _ => s.earlierPending e.slot e.seq)
  s.sbuf.any hit || s.flight.any hit

/-- A load of n bytes at a location has to wait: a watermark (R33), a bank that wakes (R214), the slot's own reduction on
its way, a release whose earlier events are under way (R235, R236), or a write of its core to an image (R209). -/
def State.loadStalls (s : State) (slot k n : Nat) : Bool :=
  s.chans.any (fun h => h.stalls k n) || s.bankWaking k || s.outPending slot k n || s.earlyHeld (coreOf slot) k n ||
    s.releaseHeld (coreOf slot) k n || (!forwards k && s.writePending (coreOf slot) k n)

/-- The page size P of a context's device memory (R250). Where G holds fewer than 2 n pages of 64 KiB the rule gives no P: the
model takes 64 KiB (notes/assumptions/65.md). -/
def pageSize (g n : Nat) : Nat :=
  if 2 * n * 2 ^ 30 ≤ g then 2 ^ 30 else if 2 * n * 2 ^ 21 ≤ g then 2 ^ 21 else 2 ^ 16

/-- The number of the page that holds an offset: pages of P, then of 2 MiB, then of 64 KiB (R250). -/
def pageNo (g p off : Nat) : Nat :=
  let n0 := g / p
  let e0 := n0 * p
  if off < e0 then off / p
  else
    let n1 := if p > 2 ^ 21 then (g - e0) / 2 ^ 21 else 0
    let e1 := e0 + n1 * 2 ^ 21
    if off < e1 then n0 + (off - e0) / 2 ^ 21 else n0 + n1 + (off - e1) / 2 ^ 16

/-- The page of a context's device-memory offset. -/
def Ctx.pageOf (x : Ctx) (off : Nat) : Nat :=
  pageNo x.layout.g (pageSize x.layout.g x.layout.dies.length) off

/-- The stack, numbered die × 2 + stack, behind which a page lies (R250). -/
def Ctx.stackOf (x : Ctx) (off : Nat) : Nat :=
  let n := max 1 x.layout.dies.length
  let p := x.pageOf off
  (x.layout.dies[p % n]?).getD 0 * 2 + p / n % 2

/-- The station that serves an offset, numbered stack × 2 + bit 16 of the address (R253). -/
def Ctx.stationOf (x : Ctx) (off : Nat) : Nat := x.stackOf off * 2 + off / 2 ^ 16 % 2

/-- The translation entry of a device-memory location: station, context, page (R254). -/
def State.tlbKey (s : State) (k : Nat) : Option (Nat × Nat × Nat) :=
  if keySpace k == Space.dev then
    match s.ctxAt (keyUnit k) with
    | some x => some (x.stationOf (keyOff k), x.id, x.pageOf (keyOff k))
    | none => none
  else none

/-- The station holds the entry of a location, or it needs none (R253, R254). -/
def State.tlbHas (s : State) (k : Nat) : Bool :=
  match s.tlbKey k with
  | some e => s.tlb.contains e
  | none => true

/-- A request goes through the station, and the controller holds the context's key: it drops a request that it holds no key
for, and a dropped read returns nothing (R253, R257). -/
def State.tlbHit (s : State) (k : Nat) : Bool := s.tlbHas k && s.keyHeld k

/-! ### Release points (R235, R239) -/

/-- The release points of a thread after one of a scope at a mark (R235). -/
def Bounds.release (b : Bounds) (sc : Scope) (mark : Nat) : Bounds :=
  match sc with
  | .core => { b with core := mark }
  | .clus => { b with core := mark, clus := mark }
  | .die => { b with core := mark, clus := mark, die := mark }
  | .dev => { b with core := mark, clus := mark, die := mark, dev := mark }
  | .sys => { core := mark, clus := mark, die := mark, dev := mark, sys := mark }

/-- Some writes of tiles are published, under a number (R239; notes/assumptions/66.md). -/
def MUnit.publish (u : MUnit) (ids : List Nat) (n : Nat) : MUnit :=
  { u with
    shown := ((u.snaps.filter (fun x => ids.contains x.1)).map (fun x => (n, x.2.1, x.2.2))) ++ u.shown,
    snaps := u.snaps.filter (fun x => !ids.contains x.1) }

/-- A release at .dev or .sys by a thread publishes the tile writes whose records it has popped (R239). -/
def State.publish (s : State) (c : Slot) (sc : Scope) : State :=
  match sc, s.unitAt (clusOf c.phys) with
  | .dev, some u | .sys, some u =>
    if c.popTiles.isEmpty then s
    else { s with matrix := s.matrix.map (fun v => if v.clus == u.clus then v.publish c.popTiles (s.pubs + 1) else v),
                  pubs := s.pubs + 1 }
  | _, _ => s

/-- The scope at which an instruction acquires (Table 14-2, R292). -/
def acquireScope : Instr → Option Scope
  | .ldo _ _ true sc _ => some sc
  | .aadd _ _ _ .acq sc _ _ | .aand _ _ _ .acq sc _ _ | .aor _ _ _ .acq sc _ _ | .axor _ _ _ .acq sc _ _ | .amin _ _ _ .acq sc _ _
  | .amax _ _ _ .acq sc _ _ | .aminu _ _ _ .acq sc _ _ | .amaxu _ _ _ .acq sc _ _ | .axchg _ _ _ .acq sc _ _
  | .acas _ _ _ .acq sc _ => some sc
  | .fence .full sc | .fence .acq sc => some sc
  | .ldfe .. | .ldfeClr .. | .join _ | .hbar _ | .hwait _ | .hvote .. | .hred .. | .migr _ | .cpwait .. => some .dev
  | _ => none

/-- What the instruction of a slot awaits has come: with an acquire at .dev or .sys the thread sees the tiles that have been
published (R239). -/
def State.acquired (s : State) (c : Slot) : Slot :=
  match decode c.ref c.ir with
  | .ok i => match acquireScope i with
    | some .dev | some .sys => { c with tileSeen := s.pubs }
    | _ => c
  | .error _ => c

/-- A release point of a thread at a mark (R235). -/
def Slot.release (c : Slot) (sc : Scope) (mark : Nat) : Slot :=
  { c with rels := c.rels.release sc mark, popTiles := match sc with
      | .dev | .sys => []
      | _ => c.popTiles }

/-- A thread passes a release point (R235, R239). -/
def released (s : State) (c : Slot) (sc : Scope) : State × Slot := (s.publish c sc, c.release sc s.seq)

/-- The narrowest scope whose unit holds two slots (R233). -/
def placeScope (a b : Nat) : Scope :=
  if coreOf a = coreOf b then .core
  else if clusOf a = clusOf b then .clus
  else if dieOf a = dieOf b then .die
  else .dev

/-! ### Vector registers, masks and declarations -/

/-- A vector register of a slot. -/
def Slot.vreg (c : Slot) (n : Nat) : VReg := (c.vregs[n]?).getD 0

/-- Write a vector register of a slot. -/
def Slot.setVreg (c : Slot) (n : Nat) (v : VReg) : Slot := { c with vregs := c.vregs.setIfInBounds n v }

/-- A mask register; m0 reads all ones (R167). -/
def Slot.maskReg (c : Slot) (n : Nat) : MaskReg := if n = 0 then BitVec.allOnes 128 else (c.masks[n]?).getD 0

/-- Write a mask register; m0 is not stored (R167). -/
def Slot.setMask (c : Slot) (n : Nat) (v : MaskReg) : Slot :=
  if n = 0 then c else { c with masks := c.masks.setIfInBounds n v }

/-- Active(i, w) under a mask value (R167). -/
def activeIn (m : MaskReg) (w i : Nat) : Bool :=
  if w ≤ 32 then m.getLsbD (i * w / 32) else m.getLsbD (2 * i)

/-- Active(i, w) under the mask field (R167). -/
def Slot.active (c : Slot) (m : BitVec 3) (w i : Nat) : Bool := activeIn (c.maskReg m.toNat) w i

/-- Element i of width w in a group of g registers from vd (R166). -/
def Slot.groupElem (c : Slot) (r g w i : Nat) : Nat := vElem (c.vreg (r + i % g)) w (i / g)

/-- The write of the active elements of a register; the others keep their bits (R168). -/
def elemsWrite (r w : Nat) (act : Nat → Bool) (f : Nat → Nat) : VWrite :=
  { reg := r, mask := vOfElems w (fun i => if act i then 2 ^ w - 1 else 0),
    val := vOfElems w (fun i => if act i then f i else 0) }

/-- The writes of the active elements of a group of g registers (R166, R168). -/
def groupWrites (r g w : Nat) (act : Nat → Bool) (f : Nat → Nat) : List VWrite :=
  (upTo g).map (fun (j : Nat) => elemsWrite (r + j) w (fun i => act (i * g + j)) (fun i => f (i * g + j)))

/-- A vector write lands on its register (R169). -/
def Slot.landV (c : Slot) (x : VWrite) : Slot :=
  c.setVreg x.reg ((c.vreg x.reg &&& ~~~x.mask) ||| (x.val &&& x.mask))

/-- The least of some register numbers at or beyond a bound. -/
def leastBeyond (bound : Nat) (ns : List Nat) : Option Nat :=
  (ns.filter (fun n => decide (bound ≤ n))).foldl (fun m n => match m with
    | none => some n
    | some k => some (min k n)) none

/-- The registers of a group. -/
def group (r : Reg5) (g : Nat) : List Nat := (upTo g).map (fun j => r.toNat + j)

/-- REGDECL when a vector register that the word names lies beyond the declaration; before any source is read
(R75, R163). -/
def withVregs (s : State) (ns : List Nat) (k : Unit → Out) : Out :=
  match leastBeyond s.cur.decl.vregs ns with
  | some n => trap s s.cur .regdecl (BitVec.ofNat 64 n)
  | none => k ()

/-- The handle register h, when it is declared and valid (R75, R311). -/
def Slot.handle (c : Slot) (h : Nat) : Option Handle :=
  if h < c.decl.huddles then (c.handles[h]?).getD none else none

/-- HANDLE when a handle register is not valid; before any source is read (R75, R321). -/
def withHandle (s : State) (h : BitVec 2) (k : Handle → Out) : Out :=
  match s.cur.handle h.toNat with
  | some x => k x
  | none => trap s s.cur .handle (BitVec.ofNat 64 h.toNat)

end Sys2Proof.Machine
end

