-- ==== Sys2Proof/Machine/Illegal.lean ====
section
/-! DEFINITION. ILLEGAL_WORD and INSTRUCTION_FETCH_TRAP (R74, R118). -/

namespace Sys2Proof.Machine

/-- Whether a word is refused with a reason: by the decoder, or by a migrating block (R264), in which an instruction
that a block may not run takes reason 3 and a queue name reason 7. -/
def refusedWord (c : Slot) (word : IWord) (reason : Nat) : Bool :=
  match decode c.ref word with
  | .error r => r == reason
  | .ok _ => c.block.isSome && (reason == 3 || reason == 7)

/-- ILLEGAL_WORD: a word that is not an instruction takes ILLEGAL before any operand is read (R74, R75). TEPC is
the pc, TWORD the word, TVAL the reason. -/
def execIllegalWord (word : IWord) (reason : Nat) (s : State) : Out :=
  if s.cur.occupied && refusedWord s.cur word reason then
    trap s { s.cur with ir := word } .illegal (BitVec.ofNat 64 reason)
  else notNow "ILLEGAL_WORD"

/-- The trap that the fetch at the current pc takes, if any: R207 as a 4-byte read that needs execute permission
(R118). -/
def fetchTrap (s : State) : Option Refused :=
  if s.cur.ref then none
  else match resolve s s.cur s.cur.pc 4 .fetch with
    | .error r => some r
    | .ok _ => none

/-- INSTRUCTION_FETCH_TRAP: a fetch that cannot be made traps at its target, with TEPC the target and TWORD 0
(R118). -/
def execInstructionFetchTrap (cause : TrapCause) (tval : Word) (s : State) : Out :=
  if s.cur.occupied && fetchTrap s == some (cause, tval) then trap s { s.cur with ir := 0 } cause tval
  else notNow "INSTRUCTION_FETCH_TRAP"

end Sys2Proof.Machine
end

