-- ==== Sys2Proof/Machine/Queues.lean ====
section
/-! DEFINITION. Pushing a queue word, and writing a destination field: the checks of matrix command words
(R267 to R269), message headers (R301, R302), trace words (R390, R392), raw writes of q1, q3 and q4 (R285). -/

namespace Sys2Proof.Machine

/-! ### Matrix command words (Tables 17-1 and 17-2) -/

/-- The matrix type code of a window format (Tables 4-20, 12-3, R66). -/
def fmtOfMType (t : Nat) : Nat :=
  match t with
  | 0 => 16
  | 1 => 17
  | 2 => 18
  | 3 => 12
  | 4 => 13
  | 5 => 9
  | 6 => 8
  | _ => 10

/-- The width in bits of an element of a matrix type. -/
def mtypeBits (t : Nat) : Nat :=
  match t with
  | 0 => 2
  | 1 => 4
  | 2 => 8
  | 3 => 8
  | 4 => 8
  | 5 => 16
  | 6 => 16
  | _ => 32

/-- Reserved fields of a command word that are not zero, or a reserved code (reason 2 of Table 17-3). -/
def cmdReserved (w : Word) : Bool :=
  let ty := bits w 59 57
  let opt := bits w 56 56
  match bits w 63 60 with
  | 1 => bits w 17 0 != 0 || (decide (ty ≥ 3) && bits w 31 18 != 0)
  | 2 => ty != 0 || opt != 0 || bits w 49 0 != 0
  | 3 => bits w 45 18 != 0
  | 4 => ty != 0 || opt != 0 || bits w 49 47 != 0 || bits w 45 18 != 0
  | 5 => ty != 0 || opt != 0 || bits w 39 22 != 0
  | 6 => ty != 0 || opt != 0 || bits w 43 0 != 0
  | 7 => ty != 0 || opt != 0 || bits w 51 0 != 0
  | _ => true

/-- The tile that a command names. -/
def cmdTile (w : Word) : Option Nat :=
  match bits w 63 60 with
  | 1 => some (bits w 47 42)
  | 2 | 3 | 4 => some (bits w 55 50)
  | _ => none

/-- The rings that a command names. -/
def cmdRings (w : Word) : List Nat :=
  match bits w 63 60 with
  | 1 => [bits w 55 52, bits w 51 48]
  | 5 | 6 => [bits w 55 52]
  | _ => []

/-- The first location of some bytes from an offset at or beyond a bound. -/
def firstBeyond (bound off n : Nat) : Option Nat := if off + n ≤ bound then none else some (max off bound)

/-- The address checks of MXRING, MXST and MXLD, in the order of R207 (R269). -/
def cmdAddress (x : Ctx) (c : Slot) (w : Word) : Option Refused :=
  match bits w 63 60 with
  | 3 =>
    let win := bits w 49 47
    let o := bits w 17 0
    let e := mtypeBits (bits w 59 57)
    if o % 16 ≠ 0 then some (.misalign, BitVec.ofNat 64 o)
    else if c.decl.windows ≤ win then some (.regdecl, BitVec.ofNat 64 (0x100 + win))
    else match firstBeyond (coreBound x c) o (1024 * e / 8) with
      | some a => some (.bounds, BitVec.ofNat 64 a)
      | none =>
        if bits w 59 57 < 3 then
          match firstBeyond (coreBound x c) (2 * bits (c.win win) 21 5 + 2 * (o * 8 / e / 16)) 128 with
          | some a => some (.bounds, BitVec.ofNat 64 a)
          | none => none
        else none
  | 4 =>
    let o := bits w 17 0
    if o % 16 ≠ 0 then some (.misalign, BitVec.ofNat 64 o)
    else (firstBeyond (coreBound x c) o 4096).map (fun a => (.bounds, BitVec.ofNat 64 a))
  | 5 =>
    let base := bits w 21 0
    if base % 64 ≠ 0 then some (.misalign, BitVec.ofNat 64 (0x1000000 + base))
    else (firstBeyond (clusBound c) base (64 * (bits w 47 40 + 1) * 2 ^ bits w 51 48)).map
      (fun a => (.bounds, BitVec.ofNat 64 (0x1000000 + a)))
  | _ => none

/-- The lowest reason of Table 17-3 that applies to a command word. -/
def cmdReason (x : Ctx) (c : Slot) (w : Word) : Option Nat :=
  let clus := clusOf c.phys
  let code := bits w 63 60
  if !x.holdsShare clus (coreOf c.phys % 8) || x.res.weight == 0 then some 1
  else if cmdReserved w then some 2
  else if (match cmdTile w with
      | some t => !x.holdsShare clus (t / 8)
      | none => false) then some 3
  else if (cmdRings w).any (fun r => !x.holdsShare clus (r / 2)) then some 4
  else if code == 1 && bits w 56 56 == 1 &&
      (bits w 41 34 % 2 == 0 || bits w 33 33 == 1 || bits w 59 57 == 7) then some 5
  else if code == 3 && (winFmt (c.win (bits w 49 47)) != fmtOfMType (bits w 59 57)
      || bits (c.win (bits w 49 47)) 33 32 != 0) then some 6
  else if (code == 6 && bits w 51 44 == 0) || (code == 5 && decide (bits w 51 48 > 8)) then some 7
  else if code == 7 && (bits w 55 52 == 0 || decide (bits w 55 52 > x.res.weight)) then some 8
  else none

/-- The check of an MXRING command's second word (Table 17-2). -/
def checkSecond (w : Word) : Option Refused :=
  if bits w 63 10 ≠ 0 ∨ bits w 2 0 ≠ 0 then some (.queue, 2) else none

/-- The checks of R269 on a command word, and on the second word that is pushed with it, if any: every QUEUE reason comes
before the address checks. Where a header fails with a reason of 3 to 8 and its second word with reason 2, the spec does not
say which is taken: the model takes the header's (notes/assumptions/71.md). -/
def checkCommand (x : Ctx) (c : Slot) (w : Word) (second : Option Word) : Option Refused :=
  match cmdReason x c w with
  | some r => some (.queue, BitVec.ofNat 64 r)
  | none => match second.bind checkSecond with
    | some r => some r
    | none => cmdAddress x c w

/-- Take pushed words one by one, with the header held so far: the words that enter the queue, and the header held
then (R267). -/
def takeWords (x : Ctx) (c : Slot) : Option Word → List Word → Except Refused (List Word × Option Word)
  | held, [] => .ok ([], held)
  | some h, w :: ws => match checkSecond w with
    | some r => .error r
    | none => match takeWords x c none ws with
      | .ok (out, held) => .ok (h :: w :: out, held)
      | .error r => .error r
  | none, w :: ws => match checkCommand x c w (if bits w 63 60 = 5 then ws.head? else none) with
    | some r => .error r
    | none =>
      if bits w 63 60 = 5 then takeWords x c (some w) ws
      else match takeWords x c none ws with
        | .ok (out, held) => .ok (w :: out, held)
        | .error r => .error r

/-- Push words to q0 (R267): checked, then entered in one step when the push side has room for all of them; `wait`
is what the thread waits on until then, and `a` what the instruction does beside the push. The push is a release to the unit
(R34). After a wait for room the checks of R269 are made again, and the descriptor of MXST's window is the one that the thread
holds when the words enter: the spec leaves both open (notes/assumptions/65.md). -/
def pushMatrix (s : State) (c : Slot) (ws : List Word) (npc : Word) (wait : Wait) (a : After) : Out :=
  match s.ctxOf c with
  | none => trap s c .queue 1
  | some x => match takeWords x c c.q0held ws with
    | .error (cause, tval) => trap s { c with q0held := none } cause tval
    | .ok (out, held) =>
      if c.q0push.length + out.length ≤ 4 then
        let wins := out.filterMap (fun w => if bits w 63 60 = 3 then some (c.phys, c.win (bits w 49 47)) else none)
        let s := if wins.isEmpty then s else match s.unitAt (clusOf c.phys) with
          | some u => { s with matrix := updKey (fun v => v.clus == u.clus) { u with stWins := u.stWins ++ wins } s.matrix }
          | none => s
        .next { s with cur := { (c.after a).release .clus s.seq with
          q0push := c.q0push ++ out.map (fun w => (w, s.seq)), q0held := held, pc := npc } }
      else waitOn s c wait

/-! ### Messages (R301, R302) -/

/-- N of a message header (Table 18-5). -/
def headerN (w : Word) : Nat := bits w 3 0

/-- How many body words the last header in the send queue still lacks; none when a header is expected. -/
def bodyMissing : Nat → List Word → Option Nat
  | 0, [] => none
  | n + 1, [] => some (n + 1)
  | 0, w :: ws => bodyMissing (headerN w) ws
  | n + 1, _ :: ws => bodyMissing n ws

/-- The check of a message header (R301, Table 18-3). -/
def checkHeader (x : Ctx) (w : Word) : Option Nat :=
  if bits w 63 46 ≠ 0 ∨ bits w 26 24 ≠ 0 ∨ bits w 7 7 ≠ 0 then some 2
  else match x.cores[bits w 23 8]? with
    | none => some 4
    | some core =>
      if bits w 6 4 < 7 ∧ x.slots.contains (core * 8 + bits w 6 4) then none else some 4

/-- A header as delivered: KIND 0 and the sender's THREAD (Table 18-5). -/
def sentHeader (c : Slot) (w : Word) : Word :=
  BitVec.ofNat 64 (w.toNat % 2 ^ 27 + c.thread % 2 ^ 17 * 2 ^ 27)

/-- The receiver of a message header's words: a slot of one of the context's cores. -/
def headerSlot (x : Ctx) (w : Word) : Nat := (x.cores[bits w 23 8]?).getD 0 * 8 + bits w 6 4

/-- The last header in some words of a send queue, for the words pushed after it. -/
def lastHeader : Nat → Word → List Word → Word
  | _, h, [] => h
  | 0, _, w :: ws => lastHeader (headerN w) w ws
  | n + 1, h, _ :: ws => lastHeader n h ws

/-- A header is due at the end of a slot's send queue. -/
def headerDue (c : Slot) : Bool := (bodyMissing 0 (c.q2send.map (fun e => e.1))).isNone

/-- Push a word to q2: a release to the slot that receives the message (R34). -/
def pushMessage (s : State) (c : Slot) (w npc : Word) (a : After) : Out :=
  match s.ctxOf c with
  | none => trap s c .queue 4
  | some x =>
    let isHeader := headerDue c
    match (if isHeader then checkHeader x w else none) with
    | some r => trap s c .queue (BitVec.ofNat 64 r)
    | none =>
      if c.q2send.length < 16 then
        let w := if isHeader then sentHeader c w else w
        let sc := placeScope c.phys (headerSlot x (lastHeader 0 w (c.q2send.map (fun e => e.1) ++ [w])))
        .next { s.publish c sc with cur := { (c.after a).release sc s.seq with q2send := c.q2send ++ [(w, s.seq)], pc := npc } }
      else waitOn s c (.push 26 w npc a)

/-! ### Trace words (R390, R392) -/

/-- The debug module of a cluster, when a context holds it. -/
def State.dbgAt (s : State) (clus : Nat) : Option DbgMod := s.dbg.find? (fun m => m.clus == clus)

/-- Whether a trace word of the slot is kept: its context holds the cluster's module, and capture runs (R390). -/
def State.traceKept (s : State) (c : Slot) : Bool :=
  match s.dbgAt (clusOf c.phys) with
  | none => false
  | some m => c.owner == some m.holder && (match m.capture with
    | .active | .post _ => true
    | _ => false)

/-- Push a trace word to q5, a release to the cluster's module (R34): taken and discarded when it is not kept (R390). -/
def pushTrace (s : State) (c : Slot) (w npc : Word) (a : After) : Out :=
  if s.traceKept c then
    if c.q5.length < 8 then
      .next { s with cur := { (c.after a).release .clus s.seq with
        q5 := c.q5 ++ [{ word := w, cycle := s.cycle, pc := c.pc }], pc := npc } }
    else waitOn s c (.push 29 w npc a)
  else .next { s with cur := { (c.after a).release .clus s.seq with pc := npc } }

/-- Push to the queue of a register field, 24 to 29, and go on at npc; what the instruction does beside the push happens
when the word enters, so a push that traps leaves none of it (R75, R89). -/
def pushWith (s : State) (c : Slot) (q : Nat) (w npc : Word) (a : After) : Out :=
  match q with
  | 24 => pushMatrix s c [w] npc (.push 24 w npc a) a
  | 26 => pushMessage s c w npc a
  | 29 => pushTrace s c w npc a
  | _ => trap s c .queue 2

/-- Push the result of an instruction that does nothing else. -/
def pushQueue (s : State) (c : Slot) (q : Nat) (w npc : Word) : Out := pushWith s c q w npc .nothing

/-- A destination field whose raw write takes QUEUE with TVAL 2 (R285): q1, q3 and q4. -/
def destRefused (d : Reg5) : Bool := d.toNat == 25 || d.toNat == 27 || d.toNat == 28

/-- WriteReg (Table 0-3) of the instruction's result, and go on at npc. -/
def finishAt (s : State) (c : Slot) (d : Reg5) (w npc : Word) : Out :=
  if d.toNat < 24 then .next { s with cur := { c.setReg d.toNat w with pc := npc } }
  else pushQueue s c d.toNat w npc

/-- WriteReg of the result, and go on at pc + 4. -/
def finish (s : State) (c : Slot) (d : Reg5) (w : Word) : Out := finishAt s c d w c.npc

/-- WriteReg of the result with what the instruction does beside it, and go on at npc. -/
def finishWith (s : State) (c : Slot) (d : Reg5) (w npc : Word) (a : After) : Out :=
  if d.toNat < 24 then .next { s with cur := { (c.after a).setReg d.toNat w with pc := npc } }
  else pushWith s c d.toNat w npc a

/-- The reason for which a push to the queue of a destination field is refused whatever the word (R285, R269, R301): q1, q3
and q4; and q0 and q2 of a slot that no context holds. -/
def destReason (s : State) (c : Slot) (d : Reg5) : Option Word :=
  if destRefused d then some 2
  else if (s.ctxOf c).isSome then none
  else if d.toNat == 24 then some 1
  else if d.toNat == 26 then some 4
  else none

/-- The trap that a push of a word to the queue of a destination field takes (R269, R285, R301). -/
def pushRefused (s : State) (c : Slot) (q : Nat) (w : Word) : Option Refused :=
  match q with
  | 24 => match s.ctxOf c with
    | none => some (.queue, 1)
    | some x => match takeWords x c c.q0held [w] with
      | .error r => some r
      | .ok _ => none
  | 26 => match s.ctxOf c with
    | none => some (.queue, 4)
    | some x => (if headerDue c then checkHeader x w else none).map (fun r => (.queue, BitVec.ofNat 64 r))
  | 29 => none
  | _ => some (.queue, 2)

/-- The queue of a destination field has room for a word that it takes (R31, R267, R301, R390). -/
def pushRoom (s : State) (c : Slot) (q : Nat) (w : Word) : Bool :=
  match q with
  | 24 => match s.ctxOf c with
    | none => true
    | some x => match takeWords x c c.q0held [w] with
      | .error _ => true
      | .ok (out, _) => decide (c.q0push.length + out.length ≤ 4)
  | 26 => decide (c.q2send.length < 16)
  | 29 => !s.traceKept c || decide (c.q5.length < 8)
  | _ => true

/-- An instruction whose old value or result goes to a queue that refuses it has no effect beside its trap (R75, R150). -/
def resultRefused (s : State) (c : Slot) (d : Reg5) (w : Word) : Bool :=
  decide (24 ≤ d.toNat) && (pushRefused s c d.toNat w).isSome

/-- An instruction of several beats with a scalar result takes the trap of its destination, or waits for room there, before its
first beat, with no effect (R120, R170, R178). -/
def withQueueRoom (s : State) (c : Slot) (d : Reg5) (w : Word) (k : Unit → Out) : Out :=
  if d.toNat < 24 then k ()
  else match pushRefused s c d.toNat w with
    | some (cause, tval) => trap s c cause tval
    | none => if pushRoom s c d.toNat w then k () else stallSources s

/-- Refuse such a destination before the instruction has any effect (R75, R285). -/
def withDest (s : State) (c : Slot) (d : Reg5) (k : Unit → Out) : Out :=
  match destReason s c d with
  | some r => trap s c .queue r
  | none => k ()

end Sys2Proof.Machine
end

