-- ==== Sys2Proof/Machine/Alu.lean ====
section
/-! DEFINITION. Scalar arithmetic: the register and immediate forms of Table 6-5, multiply and divide, bit
operations, upper immediates (spec/06_scalar_registers_and_control.md R110 to R115). -/

namespace Sys2Proof.Machine

/-- A two-source form: a, then b (R45), then the result into d (R110). -/
def alu2 (s : State) (d a b : Reg5) (f : Word → Word → Word) : Out :=
  withSrc2 s a b (fun x y c => finish s c d (f x y))

/-- A one-source form. -/
def alu1 (s : State) (d a : Reg5) (f : Word → Word) : Out :=
  withSrc1 s a (fun x c => finish s c d (f x))

/-- An imm12 as an operand: sign-extended (R57). -/
def immWord (imm : BitVec 12) : Word := imm.signExtend 64

/-- A truth value as a result. -/
def flagWord (b : Bool) : Word := if b then 1 else 0

/-- The field of BFX and BFI: its low bit and its width within the register (R114). -/
def bitField (b : Word) : Nat × Nat :=
  let lo := bits b 5 0
  (lo, min (bits b 13 8 + 1) (64 - lo))

/-- BFX's result (R114). -/
def bfxResult (a b : Word) : Word :=
  let (lo, f) := bitField b
  BitVec.ofNat 64 (a.toNat / 2 ^ lo % 2 ^ f)

/-- BFI's result from the old value of d (R114). -/
def bfiResult (old a b : Word) : Word :=
  let (lo, f) := bitField b
  let mask : Word := BitVec.ofNat 64 ((2 ^ f - 1) * 2 ^ lo)
  (old &&& ~~~mask) ||| BitVec.ofNat 64 (a.toNat % 2 ^ f * 2 ^ lo)

/-- imm20 of LUI and AUIPC: SInt(imm20, 20) times 4,096 (R57, R115). -/
def upperWord (imm : BitVec 20) : Word := imm.signExtend 64 <<< 12

/-- ADD: a + b (Table 6-5). -/
def execAdd (d a b : Reg5) (s : State) : Out := alu2 s d a b (fun x y => x + y)

/-- SUB: a - b (Table 6-5). -/
def execSub (d a b : Reg5) (s : State) : Out := alu2 s d a b (fun x y => x - y)

/-- AND: a AND b (Table 6-5). -/
def execAnd (d a b : Reg5) (s : State) : Out := alu2 s d a b (fun x y => x &&& y)

/-- OR: a OR b (Table 6-5). -/
def execOr (d a b : Reg5) (s : State) : Out := alu2 s d a b (fun x y => x ||| y)

/-- XOR: a XOR b (Table 6-5). -/
def execXor (d a b : Reg5) (s : State) : Out := alu2 s d a b (fun x y => x ^^^ y)

/-- ANDN: a AND NOT b (Table 6-5). -/
def execAndn (d a b : Reg5) (s : State) : Out := alu2 s d a b (fun x y => x &&& ~~~y)

/-- SLL: a shifted left by b[5:0] (Table 6-5). -/
def execSll (d a b : Reg5) (s : State) : Out := alu2 s d a b (fun x y => x <<< (y.toNat % 64))

/-- SRL: a shifted right by b[5:0], zeros in (Table 6-5). -/
def execSrl (d a b : Reg5) (s : State) : Out := alu2 s d a b (fun x y => x >>> (y.toNat % 64))

/-- SRA: a shifted right by b[5:0], sign in (Table 6-5). -/
def execSra (d a b : Reg5) (s : State) : Out := alu2 s d a b (fun x y => x.sshiftRight (y.toNat % 64))

/-- ROL: a rotated left by b[5:0] (Table 6-5). -/
def execRol (d a b : Reg5) (s : State) : Out := alu2 s d a b (fun x y => x.rotateLeft (y.toNat % 64))

/-- MIN: the lesser, signed (Table 6-5). -/
def execMin (d a b : Reg5) (s : State) : Out := alu2 s d a b (fun x y => if x.sle y then x else y)

/-- MAX: the greater, signed (Table 6-5). -/
def execMax (d a b : Reg5) (s : State) : Out := alu2 s d a b (fun x y => if y.sle x then x else y)

/-- MINU: the lesser, unsigned (Table 6-5). -/
def execMinu (d a b : Reg5) (s : State) : Out := alu2 s d a b (fun x y => if x.ule y then x else y)

/-- MAXU: the greater, unsigned (Table 6-5). -/
def execMaxu (d a b : Reg5) (s : State) : Out := alu2 s d a b (fun x y => if y.ule x then x else y)

/-- SLT: 1 when Sa < Sb, else 0 (Table 6-5). -/
def execSlt (d a b : Reg5) (s : State) : Out := alu2 s d a b (fun x y => flagWord (x.slt y))

/-- SLTU: 1 when a < b, else 0 (Table 6-5). -/
def execSltu (d a b : Reg5) (s : State) : Out := alu2 s d a b (fun x y => flagWord (x.ult y))

/-- SEQ: 1 when a = b, else 0 (Table 6-5). -/
def execSeq (d a b : Reg5) (s : State) : Out := alu2 s d a b (fun x y => flagWord (x == y))

/-- SEL: a when the old value of register d is nonzero, else b; d is read first (R60, Table 6-5). -/
def execSel (d a b : Reg5) (s : State) : Out :=
  let old := s.cur.reg d.toNat
  alu2 s d a b (fun x y => if old ≠ 0 then x else y)

/-- ADDI: a plus the signed immediate (Table 6-5). -/
def execAddi (d a : Reg5) (imm : BitVec 12) (s : State) : Out := alu1 s d a (fun x => x + immWord imm)

/-- ANDI: a AND the signed immediate (Table 6-5). -/
def execAndi (d a : Reg5) (imm : BitVec 12) (s : State) : Out := alu1 s d a (fun x => x &&& immWord imm)

/-- ORI: a OR the signed immediate (Table 6-5). -/
def execOri (d a : Reg5) (imm : BitVec 12) (s : State) : Out := alu1 s d a (fun x => x ||| immWord imm)

/-- XORI: a XOR the signed immediate (Table 6-5). -/
def execXori (d a : Reg5) (imm : BitVec 12) (s : State) : Out := alu1 s d a (fun x => x ^^^ immWord imm)

/-- SLLI: a shifted left by the amount in imm12[5:0] (Table 6-5). -/
def execSlli (d a : Reg5) (k : BitVec 6) (s : State) : Out := alu1 s d a (fun x => x <<< k.toNat)

/-- SRLI: a shifted right, zeros in by the amount in imm12[5:0] (Table 6-5). -/
def execSrli (d a : Reg5) (k : BitVec 6) (s : State) : Out := alu1 s d a (fun x => x >>> k.toNat)

/-- SRAI: a shifted right, sign in by the amount in imm12[5:0] (Table 6-5). -/
def execSrai (d a : Reg5) (k : BitVec 6) (s : State) : Out := alu1 s d a (fun x => x.sshiftRight k.toNat)

/-- ROLI: a rotated left by the amount in imm12[5:0] (Table 6-5). -/
def execRoli (d a : Reg5) (k : BitVec 6) (s : State) : Out := alu1 s d a (fun x => x.rotateLeft k.toNat)

/-- SLTI: 1 when Sa is below the signed immediate (Table 6-5). -/
def execSlti (d a : Reg5) (imm : BitVec 12) (s : State) : Out := alu1 s d a (fun x => flagWord (x.slt (immWord imm)))

/-- SLTIU: 1 when a is below the sign-extended immediate, unsigned (Table 6-5). -/
def execSltiu (d a : Reg5) (imm : BitVec 12) (s : State) : Out := alu1 s d a (fun x => flagWord (x.ult (immWord imm)))

/-- SEQI: 1 when a equals the signed immediate (Table 6-5). -/
def execSeqi (d a : Reg5) (imm : BitVec 12) (s : State) : Out := alu1 s d a (fun x => flagWord (x == immWord imm))

/-- LUI (R115). -/
def execLui (d : Reg5) (imm : BitVec 20) (s : State) : Out := finish s s.cur d (upperWord imm)

/-- AUIPC (R115). -/
def execAuipc (d : Reg5) (imm : BitVec 20) (s : State) : Out := finish s s.cur d (s.cur.pc + upperWord imm)

/-- MUL: the low 64 bits of the product (Table 6-6). -/
def execMul (d a b : Reg5) (s : State) : Out := alu2 s d a b (fun x y => x * y)

/-- MULH: the high 64 bits of the signed product (Table 6-6). -/
def execMulh (d a b : Reg5) (s : State) : Out := alu2 s d a b (fun x y => BitVec.ofInt 64 (x.toInt * y.toInt / 2 ^ 64))

/-- MULHU: the high 64 bits of the unsigned product (Table 6-6). -/
def execMulhu (d a b : Reg5) (s : State) : Out := alu2 s d a b (fun x y => BitVec.ofNat 64 (x.toNat * y.toNat / 2 ^ 64))

/-- DIV: the signed quotient of R78 (Table 6-6). -/
def execDiv (d a b : Reg5) (s : State) : Out := alu2 s d a b (fun x y => BitVec.ofInt 64 (quot78 true 64 x.toInt y.toInt))

/-- DIVU: the unsigned quotient of R78 (Table 6-6). -/
def execDivu (d a b : Reg5) (s : State) : Out := alu2 s d a b (fun x y => BitVec.ofInt 64 (quot78 false 64 x.toNat y.toNat))

/-- REM: the signed remainder of R78 (Table 6-6). -/
def execRem (d a b : Reg5) (s : State) : Out := alu2 s d a b (fun x y => BitVec.ofInt 64 (rem78 true 64 x.toInt y.toInt))

/-- REMU: the unsigned remainder of R78 (Table 6-6). -/
def execRemu (d a b : Reg5) (s : State) : Out := alu2 s d a b (fun x y => BitVec.ofInt 64 (rem78 false 64 x.toNat y.toNat))

/-- CLZ: leading zero bits, 64 for 0 (Table 6-7). -/
def execClz (d a : Reg5) (s : State) : Out := alu1 s d a (fun x => BitVec.ofNat 64 (clzN 64 x.toNat))

/-- CTZ: trailing zero bits, 64 for 0 (Table 6-7). -/
def execCtz (d a : Reg5) (s : State) : Out := alu1 s d a (fun x => BitVec.ofNat 64 (ctzN 64 x.toNat))

/-- POPC: one bits (Table 6-7). -/
def execPopc (d a : Reg5) (s : State) : Out := alu1 s d a (fun x => BitVec.ofNat 64 (popcN 64 x.toNat))

/-- BREV: bit i of the result is bit 63 - i (Table 6-7). -/
def execBrev (d a : Reg5) (s : State) : Out := alu1 s d a (fun x => BitVec.ofNat 64 (revN 64 x.toNat))

/-- BSWAP: byte i of the result is byte 7 - i (Table 6-7). -/
def execBswap (d a : Reg5) (s : State) : Out := alu1 s d a (fun x => leWord (leBytes 8 x.toNat).reverse)

/-- BFX (R114). -/
def execBfx (d a b : Reg5) (s : State) : Out := alu2 s d a b bfxResult

/-- BFI: d is read before a and b (R60, R114). -/
def execBfi (d a b : Reg5) (s : State) : Out :=
  let old := s.cur.reg d.toNat
  alu2 s d a b (fun x y => bfiResult old x y)

end Sys2Proof.Machine
end

