-- ==== Sys2Proof/Machine/Flags.lean ====
section
/-! DEFINITION. Number formats, rounding and every flag computation (spec/05_number_formats.md,
spec/10_vector_floating_point.md): exact values, Round, the arithmetic, comparisons, conversions and the GQ
block encoding. -/

namespace Sys2Proof.Machine

/-- NV of Table 5-6. -/
def flagNV : BitVec 5 := 16
/-- DZ of Table 5-6. -/
def flagDZ : BitVec 5 := 8
/-- OF of Table 5-6. -/
def flagOF : BitVec 5 := 4
/-- UF of Table 5-6. -/
def flagUF : BitVec 5 := 2
/-- NX of Table 5-6. -/
def flagNX : BitVec 5 := 1

/-- A result's bits and the flags it raises. -/
abbrev FRes := Nat × BitVec 5

/-- A floating format (Table 5-2): width, exponent bits, fraction bits, bias, and E4M3's exception. -/
structure Fmt where
  w    : Nat
  eb   : Nat
  fb   : Nat
  bias : Nat
  e4   : Bool
deriving DecidableEq, Repr

/-- FP64. -/
def fmtF64 : Fmt := { w := 64, eb := 11, fb := 52, bias := 1023, e4 := false }
/-- FP32. -/
def fmtF32 : Fmt := { w := 32, eb := 8, fb := 23, bias := 127, e4 := false }
/-- FP16. -/
def fmtF16 : Fmt := { w := 16, eb := 5, fb := 10, bias := 15, e4 := false }
/-- BF16. -/
def fmtBF16 : Fmt := { w := 16, eb := 8, fb := 7, bias := 127, e4 := false }
/-- E5M2. -/
def fmtE5M2 : Fmt := { w := 8, eb := 5, fb := 2, bias := 15, e4 := false }
/-- E4M3. -/
def fmtE4M3 : Fmt := { w := 8, eb := 4, fb := 3, bias := 7, e4 := true }

/-- An exact dyadic value (-1)^neg * m * 2^e; a zero keeps its sign (R83). -/
structure Dy where
  neg : Bool
  m   : Nat
  e   : Int
deriving DecidableEq, Repr

/-- A decoded floating value. -/
inductive FVal where
  | nan (signalling : Bool)
  | inf (neg : Bool)
  | fin (x : Dy)
deriving DecidableEq, Repr

/-- The sign bit of a format. -/
def Fmt.signBit (f : Fmt) (neg : Bool) : Nat := if neg then 2 ^ (f.w - 1) else 0

/-- The canonical NaN (Table 5-2). -/
def Fmt.nan (f : Fmt) : Nat := if f.e4 then 0x7F else (2 ^ f.eb - 1) * 2 ^ f.fb + 2 ^ (f.fb - 1)

/-- Infinity's bits; E4M3 has none (R80). -/
def Fmt.inf (f : Fmt) (neg : Bool) : Nat := f.signBit neg + (2 ^ f.eb - 1) * 2 ^ f.fb

/-- The largest finite magnitude's bits (Table 5-2). -/
def Fmt.maxFin (f : Fmt) (neg : Bool) : Nat := f.signBit neg + (if f.e4 then 0x7E else (2 ^ f.eb - 1) * 2 ^ f.fb - 1)

/-- The value that some bits encode (R80 to R82). -/
def Fmt.decode (f : Fmt) (b : Nat) : FVal :=
  let neg := b / 2 ^ (f.w - 1) % 2 == 1
  let ex := b / 2 ^ f.fb % 2 ^ f.eb
  let fr := b % 2 ^ f.fb
  if ex = 0 then .fin { neg := neg, m := fr, e := 1 - (f.bias : Int) - f.fb }
  else if !f.e4 && ex == 2 ^ f.eb - 1 then
    (if fr = 0 then .inf neg else .nan (fr / 2 ^ (f.fb - 1) == 0))
  else if f.e4 && ex == 15 && fr == 7 then .nan false
  else .fin { neg := neg, m := 2 ^ f.fb + fr, e := (ex : Int) - f.bias - f.fb }

/-- Whether a discarded part rounds the magnitude n up: its comparison with a half is `lt`, `eq` or `gt`. -/
def roundsUp (mode : Rnd) (neg : Bool) (n : Nat) (half : Ordering) : Bool :=
  match mode with
  | .rne => match half with
    | .lt => false
    | .gt => true
    | .eq => n % 2 == 1
  | .rna => half != .lt
  | .rtz => false
  | .rdn => neg
  | .rup => !neg

/-- The nearest multiple of 2^q in the mode's direction, as a count of 2^q, and whether it differs (R86). -/
def roundAt (mode : Rnd) (x : Dy) (q : Int) : Nat × Bool :=
  if q ≤ x.e then (x.m * 2 ^ (x.e - q).toNat, false)
  else
    let d := 2 ^ (q - x.e).toNat
    let n := x.m / d
    let r := x.m % d
    if r = 0 then (n, false)
    else (if roundsUp mode x.neg n (compare (2 * r) d) then n + 1 else n, true)

/-- The nearest integer to a magnitude num/den in the mode's direction, and whether it differs (R88, R95). -/
def roundRat (mode : Rnd) (neg : Bool) (num den : Nat) : Nat × Bool :=
  let n := num / den
  let r := num % den
  if r = 0 then (n, false)
  else (if roundsUp mode neg n (compare (2 * r) den) then n + 1 else n, true)

/-- The result of an overflow (Table 5-4, R87). -/
def Fmt.overflow (f : Fmt) (mode : Rnd) (sat neg : Bool) : Nat :=
  let toInf := match mode with
    | .rne | .rna => true
    | .rtz => false
    | .rdn => neg
    | .rup => !neg
  if sat && decide (f.w = 8) then f.maxFin neg
  else if toInf then (if f.e4 then f.nan else f.inf neg)
  else f.maxFin neg

/-- Round(x, mode) into a format, with OF, UF and NX (R86, R87). -/
def Fmt.round (f : Fmt) (mode : Rnd) (sat : Bool) (x : Dy) : FRes :=
  if x.m = 0 then (f.signBit x.neg, 0)
  else
    let p : Int := f.fb + 1
    let ee : Int := (Nat.log2 x.m : Int) + x.e
    let emin : Int := 1 - (f.bias : Int)
    let emax : Int := if f.e4 then 8 else f.bias
    let top : Nat := if f.e4 then 2 ^ (f.fb + 1) - 2 else 2 ^ (f.fb + 1) - 1
    let nu := (roundAt mode x (ee - p + 1)).1
    if emax < ee ∨ (ee = emax ∧ top < nu) then (f.overflow mode sat x.neg, flagOF ||| flagNX)
    else
      let qmin := emin - p + 1
      let q := max (ee - p + 1) qmin
      let (n, inexact) := roundAt mode x q
      let tiny := decide (ee < emin - 1) || (decide (ee = emin - 1) && decide (nu < 2 ^ (f.fb + 1)))
      (f.signBit x.neg + (q - qmin).toNat * 2 ^ f.fb + n,
        if inexact then (if tiny then flagUF ||| flagNX else flagNX) else 0)

/-- The sign of an exact zero sum (R83). -/
def zeroSign (mode : Rnd) (a b : Bool) : Bool := if a == b then a else mode == .rdn

/-- The exact sum; an exact zero takes its sign by R83. -/
def Dy.add (mode : Rnd) (x y : Dy) : Dy :=
  let e := min x.e y.e
  let sx : Int := x.m * 2 ^ (x.e - e).toNat
  let sy : Int := y.m * 2 ^ (y.e - e).toNat
  let t := (if x.neg then -sx else sx) + (if y.neg then -sy else sy)
  if t = 0 then { neg := if x.m = 0 ∧ y.m = 0 then zeroSign mode x.neg y.neg else mode == .rdn, m := 0, e := 0 }
  else { neg := decide (t < 0), m := t.natAbs, e := e }

/-- The exact product (R83). -/
def Dy.mul (x y : Dy) : Dy := { neg := x.neg != y.neg, m := x.m * y.m, e := x.e + y.e }

/-- The negated value. -/
def Dy.negate (x : Dy) : Dy := { x with neg := !x.neg }

/-- A quotient of nonzero values cut to at least p + 3 bits, its last bit sticky: it rounds as the quotient does. -/
def Dy.quot (p : Nat) (x y : Dy) : Dy :=
  let k := p + 3 + Nat.log2 y.m - Nat.log2 x.m
  let n := x.m * 2 ^ k
  { neg := x.neg != y.neg, m := 2 * (n / y.m) + (if n % y.m = 0 then 0 else 1), e := x.e - y.e - k - 1 }

/-- The integer square root, bit by bit from bit n - 1. -/
def isqrt (x : Nat) : Nat → Nat → Nat
  | 0, r => r
  | n + 1, r => isqrt x n (if (r + 2 ^ n) * (r + 2 ^ n) ≤ x then r + 2 ^ n else r)

/-- The integer square root. -/
def natSqrt (x : Nat) : Nat := isqrt x (Nat.log2 x / 2 + 1) 0

/-- The square root of a positive value, its last bit sticky. -/
def Dy.sqrt (p : Nat) (x : Dy) : Dy :=
  let odd := x.e % 2 != 0
  let m := (if odd then 2 * x.m else x.m) * 2 ^ (2 * (p + 3))
  let e := if odd then x.e - 1 else x.e
  let r := natSqrt m
  { neg := false, m := 2 * r + (if r * r = m then 0 else 1), e := e / 2 - (p + 3) - 1 }

/-- The reciprocal square root of a positive value, its last bit sticky. -/
def Dy.rsqrt (p : Nat) (x : Dy) : Dy :=
  let odd := x.e % 2 != 0
  let m := if odd then 2 * x.m else x.m
  let e := if odd then x.e - 1 else x.e
  let k := p + 3 + Nat.log2 m
  let r := natSqrt (2 ^ (2 * k) / m)
  { neg := false, m := 2 * r + (if r * r * m = 2 ^ (2 * k) then 0 else 1), e := -(e / 2) - k - 1 }

/-- A signalling NaN among the operands raises NV (R82). -/
def FVal.sigFlag : FVal → BitVec 5
  | .nan true => flagNV
  | _ => 0

/-- A NaN. -/
def FVal.isNan : FVal → Bool
  | .nan _ => true
  | _ => false

/-- The value's sign. -/
def FVal.neg : FVal → Bool
  | .nan _ => false
  | .inf n => n
  | .fin x => x.neg

/-- The negated value. -/
def FVal.negate : FVal → FVal
  | .nan s => .nan s
  | .inf n => .inf (!n)
  | .fin x => .fin x.negate

/-- Sum of two decoded values (R181). -/
def Fmt.addV (f : Fmt) (mode : Rnd) (a b : FVal) : FRes :=
  match a, b with
  | .nan s, y => (f.nan, (FVal.nan s).sigFlag ||| y.sigFlag)
  | x, .nan s => (f.nan, x.sigFlag ||| (FVal.nan s).sigFlag)
  | .inf p, .inf q => if p == q then (f.inf p, 0) else (f.nan, flagNV)
  | .inf p, .fin _ => (f.inf p, 0)
  | .fin _, .inf q => (f.inf q, 0)
  | .fin x, .fin y => f.round mode false (x.add mode y)

/-- Product of two decoded values (R181). -/
def Fmt.mulV (f : Fmt) (mode : Rnd) (a b : FVal) : FRes :=
  match a, b with
  | .nan s, y => (f.nan, (FVal.nan s).sigFlag ||| y.sigFlag)
  | x, .nan s => (f.nan, x.sigFlag ||| (FVal.nan s).sigFlag)
  | .inf p, .inf q => (f.inf (p != q), 0)
  | .inf p, .fin y => if y.m = 0 then (f.nan, flagNV) else (f.inf (p != y.neg), 0)
  | .fin x, .inf q => if x.m = 0 then (f.nan, flagNV) else (f.inf (x.neg != q), 0)
  | .fin x, .fin y => f.round mode false (x.mul y)

/-- Quotient of two decoded values (R181). -/
def Fmt.divV (f : Fmt) (mode : Rnd) (a b : FVal) : FRes :=
  match a, b with
  | .nan s, y => (f.nan, (FVal.nan s).sigFlag ||| y.sigFlag)
  | x, .nan s => (f.nan, x.sigFlag ||| (FVal.nan s).sigFlag)
  | .inf _, .inf _ => (f.nan, flagNV)
  | .inf p, .fin y => (f.inf (p != y.neg), 0)
  | .fin x, .inf q => (f.signBit (x.neg != q), 0)
  | .fin x, .fin y =>
    if y.m = 0 then (if x.m = 0 then (f.nan, flagNV) else (f.inf (x.neg != y.neg), flagDZ))
    else if x.m = 0 then (f.signBit (x.neg != y.neg), 0)
    else f.round mode false (Dy.quot (f.fb + 1) x y)

/-- a × b + c with one rounding; `np` and `nc` negate the product and the addend (R182). -/
def Fmt.fmaV (f : Fmt) (mode : Rnd) (np nc : Bool) (a b c : FVal) : FRes :=
  let c' := if nc then c.negate else c
  let zeroInf := match a, b with
    | .inf _, .fin y => decide (y.m = 0)
    | .fin x, .inf _ => decide (x.m = 0)
    | _, _ => false
  if zeroInf then (f.nan, flagNV)
  else if a.isNan || b.isNan || c.isNan then (f.nan, a.sigFlag ||| b.sigFlag ||| c.sigFlag)
  else
    let neg := (a.neg != b.neg) != np
    match a, b, c' with
    | .fin x, .fin y, .fin z => f.round mode false (Dy.add mode { x.mul y with neg := neg } z)
    | .fin _, .fin _, .inf q => (f.inf q, 0)
    | _, _, .inf q => if q == neg then (f.inf q, 0) else (f.nan, flagNV)
    | _, _, _ => (f.inf neg, 0)

/-- The square root (R183). -/
def Fmt.sqrtV (f : Fmt) (mode : Rnd) (a : FVal) : FRes :=
  match a with
  | .nan s => (f.nan, (FVal.nan s).sigFlag)
  | .inf n => if n then (f.nan, flagNV) else (f.inf false, 0)
  | .fin x =>
    if x.m = 0 then (f.signBit x.neg, 0)
    else if x.neg then (f.nan, flagNV)
    else f.round mode false (Dy.sqrt (f.fb + 1) x)

/-- The reciprocal (R183). -/
def Fmt.rcpV (f : Fmt) (mode : Rnd) (a : FVal) : FRes :=
  match a with
  | .nan s => (f.nan, (FVal.nan s).sigFlag)
  | .inf n => (f.signBit n, 0)
  | .fin x =>
    if x.m = 0 then (f.inf x.neg, flagDZ)
    else f.round mode false (Dy.quot (f.fb + 1) { neg := false, m := 1, e := 0 } x)

/-- The reciprocal square root (R183). -/
def Fmt.rsqV (f : Fmt) (mode : Rnd) (a : FVal) : FRes :=
  match a with
  | .nan s => (f.nan, (FVal.nan s).sigFlag)
  | .inf n => if n then (f.nan, flagNV) else (f.signBit false, 0)
  | .fin x =>
    if x.m = 0 then (f.inf x.neg, flagDZ)
    else if x.neg then (f.nan, flagNV)
    else f.round mode false (Dy.rsqrt (f.fb + 1) x)

/-- The signed value of a dyadic at a common exponent. -/
def Dy.scaled (x : Dy) (e : Int) : Int :=
  let s : Int := x.m * 2 ^ (x.e - e).toNat
  if x.neg then -s else s

/-- x < y, on exact values. -/
def Dy.lt (x y : Dy) : Bool := decide (x.scaled (min x.e y.e) < y.scaled (min x.e y.e))

/-- x < y for values that are not NaN. -/
def FVal.lt (a b : FVal) : Bool :=
  match a, b with
  | .nan _, _ => false
  | _, .nan _ => false
  | .inf p, .inf q => p && !q
  | .inf p, .fin _ => p
  | .fin _, .inf q => !q
  | .fin x, .fin y => x.lt y

/-- Equal values that are not NaN; -0 equals +0. -/
def FVal.eq (a b : FVal) : Bool := !a.isNan && !b.isNan && !a.lt b && !b.lt a

/-- a is before b in the order of VFMIN, in which -0 is less than +0 (R184). -/
def FVal.minBefore (a b : FVal) : Bool := a.lt b || (a.eq b && a.neg && !b.neg)

/-- VFMIN or VFMAX on bits (R184). -/
def Fmt.minMax (f : Fmt) (isMax : Bool) (x y : Nat) : FRes :=
  let a := f.decode x
  let b := f.decode y
  let fl := a.sigFlag ||| b.sigFlag
  if a.isNan && b.isNan then (f.nan, fl)
  else if a.isNan then (y, fl)
  else if b.isNan then (x, fl)
  else if isMax then (if a.minBefore b then y else x, fl)
  else (if b.minBefore a then y else x, fl)

/-- The class bit of Table 10-2. -/
def Fmt.classify (f : Fmt) (x : Nat) : Nat :=
  match f.decode x with
  | .nan s => if s then 2 ^ 8 else 2 ^ 9
  | .inf n => if n then 2 ^ 0 else 2 ^ 7
  | .fin d =>
    if d.m = 0 then (if d.neg then 2 ^ 3 else 2 ^ 4)
    else if d.m < 2 ^ f.fb then (if d.neg then 2 ^ 2 else 2 ^ 5)
    else (if d.neg then 2 ^ 1 else 2 ^ 6)

/-- The conditions of VCMP and VFCMP (R173, R186). -/
inductive Cond where
  | eq | ne | lt | le | gt | ge
deriving DecidableEq, Repr

/-- A condition on integers (R173). -/
def Cond.int (c : Cond) (a b : Int) : Bool :=
  match c with
  | .eq => decide (a = b)
  | .ne => decide (a ≠ b)
  | .lt => decide (a < b)
  | .le => decide (a ≤ b)
  | .gt => decide (b < a)
  | .ge => decide (b ≤ a)

/-- A condition on floating values, with the NV it raises (R186). -/
def Cond.float (c : Cond) (a b : FVal) : Bool × BitVec 5 :=
  if a.isNan || b.isNan then
    match c with
    | .eq => (false, a.sigFlag ||| b.sigFlag)
    | .ne => (true, a.sigFlag ||| b.sigFlag)
    | _ => (false, flagNV)
  else (match c with
    | .eq => a.eq b
    | .ne => !a.eq b
    | .lt => a.lt b
    | .le => !b.lt a
    | .gt => b.lt a
    | .ge => !a.lt b, 0)

/-! ### Conversions (R88, R190) -/

/-- The floating format of a type; none for an integer type. -/
def EType.fmt : EType → Option Fmt
  | .f16 => some fmtF16
  | .bf16 => some fmtBF16
  | .f32 => some fmtF32
  | .f64 => some fmtF64
  | .e4m3 => some fmtE4M3
  | .e5m2 => some fmtE5M2
  | _ => none

/-- A signed integer type. -/
def EType.signed : EType → Bool
  | .i8 | .i16 | .i32 | .i64 => true
  | _ => false

/-- The width of a type in bits (Table 4-20). -/
def EType.bits : EType → Nat
  | .i8 | .n8 | .e4m3 | .e5m2 => 8
  | .i16 | .n16 | .f16 | .bf16 => 16
  | .i32 | .n32 | .f32 => 32
  | .i64 | .n64 | .f64 => 64

/-- An integer as an exact value. -/
def dyOfInt (x : Int) : Dy := { neg := decide (x < 0), m := x.natAbs, e := 0 }

/-- A decoded value rounded into a floating format (R86, R87, R190). -/
def Fmt.conv (f : Fmt) (mode : Rnd) (sat : Bool) (a : FVal) : FRes :=
  match a with
  | .nan s => (f.nan, (FVal.nan s).sigFlag)
  | .inf n =>
    if sat && decide (f.w = 8) then (f.maxFin n, 0)
    else if f.e4 then (f.nan, flagNV)
    else (f.inf n, 0)
  | .fin x => f.round mode sat x

/-- A decoded value converted to an integer type (Table 5-5). -/
def convToInt (signed : Bool) (w : Nat) (mode : Rnd) (sat : Bool) (a : FVal) : FRes :=
  let outFlag := if sat then flagNX else flagNV
  match a with
  | .nan _ => (0, flagNV)
  | .inf n => (truncN (if n then intMin signed w else intMax signed w) w, outFlag)
  | .fin x =>
    let (n, inexact) := roundAt mode x 0
    let v : Int := if x.neg then -(n : Int) else n
    if v < intMin signed w then (truncN (intMin signed w) w, outFlag)
    else if intMax signed w < v then (truncN (intMax signed w) w, outFlag)
    else (truncN v w, if inexact then flagNX else 0)

/-- Conv of R190, from a source element's bits; the same floating format keeps the bits of all but a NaN. -/
def convElem (dt st : EType) (mode : Rnd) (sat : Bool) (x : Nat) : FRes :=
  match EType.fmt dt, EType.fmt st with
  | some fd, some fs =>
    match fs.decode x with
    | .nan s => (fd.nan, (FVal.nan s).sigFlag)
    | a => if dt = st then (x, 0) else fd.conv mode sat a
  | some fd, none => fd.round mode sat (dyOfInt (intOf x (EType.signed st) (EType.bits st)))
  | none, some fs => convToInt (EType.signed dt) (EType.bits dt) mode sat (fs.decode x)
  | none, none =>
    let v := intOf x (EType.signed st) (EType.bits st)
    (truncN (if sat && decide (EType.bits dt ≤ EType.bits st) then satN v (EType.signed dt) (EType.bits dt) else v) (EType.bits dt), 0)

/-! ### GQ blocks (R91 to R95) -/

/-- m of Table in R91: the bits of a magnitude code. -/
def GqFmt.m : GqFmt → Nat
  | .gq2 => 1
  | .gq4 => 3
  | .gq8 => 7

/-- The scale of a scale byte below 0x7F, as significand and exponent (R93). -/
def scaleVal (k : Nat) : Nat × Int := if k < 8 then (k, -9) else (8 + k % 8, (k / 8 : Nat) - 10)

/-- A scale byte whose block decodes as NaN (R94). -/
def scaleNan (k : Nat) : Bool := decide (0x7F ≤ k)

/-- The exact value of an element's code (R94). -/
def gqValue (m : Nat) (t : Int) (scale mu code : Nat) : FVal :=
  if scaleNan scale then .nan false
  else
    let (s, e) := scaleVal scale
    .fin { neg := code / 2 ^ m % 2 == 1, m := code % 2 ^ m * s, e := e - (m - 1 : Nat) - mu + t }

/-- An encoded block: scale byte, micro byte, sixteen codes, flags. -/
structure GqBlock where
  scale : Nat
  micro : Nat
  codes : List Nat
  flags : BitVec 5
deriving DecidableEq, Repr

/-- The magnitude of a value that is not NaN is at most a dyadic bound; an infinity is above every bound. -/
def magLe (a : FVal) (b : Dy) : Bool :=
  match a with
  | .nan _ => false
  | .inf _ => false
  | .fin x => !(Dy.lt b { x with neg := false })

/-- The first scale code from k on, of n, that suffices (R95). -/
def firstScale (m : Nat) (ys : List FVal) : Nat → Nat → Option Nat
  | 0, _ => none
  | n + 1, k =>
    let (s, e) := scaleVal k
    let bound : Dy := { neg := false, m := (2 ^ m - 1) * s, e := e - (m - 1 : Nat) }
    if ys.all (fun y => magLe y bound) then some k else firstScale m ys n (k + 1)

/-- The code of one element (R95): code and flags. -/
def gqCode (m : Nat) (mode : Rnd) (k mu : Nat) (y : FVal) : Nat × BitVec 5 :=
  let top := 2 ^ m - 1
  match y with
  | .nan _ => (0, 0)
  | .inf n => ((if n then 2 ^ m else 0) + top, flagNX)
  | .fin x =>
    let (s, e) := scaleVal k
    let ex : Int := x.e + (m - 1 : Nat) + mu - e
    let num := if 0 ≤ ex then x.m * 2 ^ ex.toNat else x.m
    let den := if 0 ≤ ex then s else s * 2 ^ (-ex).toNat
    let (n, inexact) := roundRat mode x.neg num den
    let c := min n top
    let nx := inexact || decide (top < n)
    ((if x.neg then 2 ^ m else 0) + c,
      (if nx then flagNX else 0) ||| (if x.m ≠ 0 ∧ c = 0 then flagUF else 0))

/-- GqEncode of R95. -/
def gqEncode (xs : List FVal) (m : Nat) (t : Int) (mode : Rnd) (sat : Bool) : GqBlock :=
  let isInf := fun v : FVal => match v with
    | .inf _ => true
    | _ => false
  let zeros := xs.map (fun _ => 0)
  if xs.any FVal.isNan || (!sat && xs.any isInf) then { scale := 0x7F, micro := 0, codes := zeros, flags := flagNV }
  else
    let ys := xs.map (fun v => match v with
      | .fin x => FVal.fin { x with e := x.e - t }
      | v => v)
    let isZero := fun v : FVal => match v with
      | .fin x => decide (x.m = 0)
      | _ => false
    if ys.all isZero then
      { scale := 0, micro := 0, codes := ys.map (fun y => if y.neg then 2 ^ m else 0), flags := 0 }
    else
      let found := firstScale m ys 126 1
      if found.isNone && !sat then { scale := 0x7F, micro := 0, codes := zeros, flags := flagNV ||| flagOF }
      else
        let k := found.getD 0x7E
        let f0 := if found.isNone then flagOF ||| flagNX else 0
        let (s, e) := scaleVal k
        let half : Dy := { neg := false, m := (2 ^ m - 1) * s, e := e - (m - 1 : Nat) - 1 }
        let mus := (upTo 8).map (fun j =>
          if magLe (ys.getD (2 * j) (.nan false)) half && magLe (ys.getD (2 * j + 1) (.nan false)) half then 1 else 0)
        let cs := (upTo 16).map (fun i => gqCode m mode k (mus.getD (i / 2) 0) (ys.getD i (.nan false)))
        { scale := k, micro := ofElemsN 1 (fun j => mus.getD j 0) 8, codes := cs.map (fun c => c.1),
          flags := cs.foldl (fun f c => f ||| c.2) f0 }

/-- The format of a floating type field. -/
def FFmt.fmt : FFmt → Fmt
  | .f16 => fmtF16
  | .bf16 => fmtBF16
  | .f32 => fmtF32
  | .f64 => fmtF64

/-- The rounding mode of an FMODE code (Table 5-3). -/
def rndOfMode (m : BitVec 3) : Rnd :=
  match m.toNat with
  | 0 => .rne
  | 1 => .rtz
  | 2 => .rdn
  | 3 => .rup
  | _ => .rna

end Sys2Proof.Machine
end

