-- ==== Sys2Proof/Machine/Banks.lean ====
section
/-! DEFINITION. Bank controllers and homes: full/empty requests (R215, R216), what an access costs (Table 26-1),
engine writes, and the order in which writes may reach their homes (R233 to R238). -/

namespace Sys2Proof.Machine

/-- The die on which a location is homed; host memory lies on no die (R233). -/
def State.homeDie (s : State) (k : Nat) : Nat :=
  let sp := keySpace k
  let u := keyUnit k
  if sp == Space.core then u / 2 ^ 16 / 576
  else if sp == Space.clus then u / 2 ^ 16 / 72
  else if sp == Space.dev then
    match s.ctxAt u with
    | some x => x.stackOf (keyOff k) / 2
    | none => 24
  else if sp == Space.host then 25 + u
  else if sp == Space.ref then dieOfCore u
  else if sp == Space.tile then u / 72
  else dieOf u

/-- The error that n bytes at a location hold. -/
def State.errorAt (s : State) (k n : Nat) : Option MemErr :=
  s.errs.find? (fun e => decide (e.lo < k + n) && decide (k < e.lo + e.len))

/-- The link and the channel that carry a context's traffic to a node: a link of a die that it uses, and the channel of its class,
or for a sealed context its own pair there (R398, R400, R401). `response` tells a response's channel from a request's. -/
def State.dataLink (s : State) (x : Ctx) (node : Nat) (response : Bool) : Option (Link × BitVec 4) :=
  let r := if response then 1 else 0
  if x.warrant.sealed then
    (s.links.filter (fun l => l.up && l.node == some node)).findSome? (fun l =>
      (x.pairs.find? (fun e => e.1 == dieOfLink l.link)).map (fun e => (l, BitVec.ofNat 4 (8 + 2 * e.2 + r))))
  else (s.links.find? (fun l => l.up && l.node == some node && x.layout.dies.contains (dieOfLink l.link))).map
    (fun l => (l, BitVec.ofNat 4 (2 * x.res.cls + 2 + r)))

/-- A context's request for system space leaves for its node: the address, and the bytes that a write carries, as they then stand
at the host port (R399, R401; notes/assumptions/12.md). -/
def State.request (s : State) (x : Ctx) (k n : Nat) (write : Bool) : State :=
  if s.links.isEmpty then s
  else match s.dataLink x (keyUnit k) false with
    | none => s
    | some (l, vc) => s.postBy l (keyUnit k) x.id vc (leBytes 8 (keyOff k) ++ (if write then s.readHomeN k n else []))

/-- Charge and count an access of n bytes at a location by a context (Tables 26-1, 26-5). -/
def State.noteAccess (s : State) (ctx : Nat) (k n : Nat) (write : Bool) : State :=
  match s.ctxAt ctx with
  | none => s
  | some x =>
    let sp := keySpace k
    let u := keyUnit k
    if sp == Space.core then
      (s.count ctx ((x.lcoreOf (u / 2 ^ 16)).getD 0) 0x4C 1).charge ctx 2 1
    else if sp == Space.clus then
      (s.count ctx ((x.lclusOf (u / 2 ^ 16)).getD 0) 0x82 1).charge ctx 3 1
    else if sp == Space.dev then
      (s.count ctx 0 (if write then 0xC1 else 0xC0) n).charge ctx 6 (ceilDiv n 64)
    else if sp == Space.host then
      if write then ((s.request x k n true).count ctx 0 0xC4 n).charge ctx 8 n else s.request x k n false
    else s

/-- Charge and count an atomic, a reduction or a block's instruction at its home: one channel-core operation in
device memory, else an access of the home (Tables 26-1, 26-5). -/
def State.noteAtomic (s : State) (ctx : Nat) (k n : Nat) : State :=
  if keySpace k == Space.dev then (s.count ctx 0 0xC3 1).charge ctx 7 1 else s.noteAccess ctx k n true

/-- A full/empty request at its bank: what it asks, its destination, its address, its location and its word. -/
structure FeReq where
  op : FeOp
  d  : Reg5
  va : Word
  k  : Nat
  v  : Word

/-- The full/empty request of a slot that waits (R216). -/
def feKey (s : State) (c : Slot) : Option FeReq :=
  match c.wait with
  | some (.fe op d va v) => match resolve s c va 8 .fe with
    | .ok k => some { op := op, d := d, va := va, k := k, v := v }
    | .error _ => none
  | _ => none

/-- A waiting request on a granule. -/
def onGranule (s : State) (g : Nat) (c : Slot) : Bool :=
  match feKey s c with
  | some r => granuleOf r.k == g
  | none => false

/-- The value of a full/empty load reaches its thread, an acquire at .dev (R225, Table 14-2). UNCORR takes the thread where the
data cannot be corrected (R3). -/
def State.feLoaded (s : State) (c : Slot) (d : Reg5) (va : Word) (k : Nat) : State :=
  match s.errorAt k 8 with
  | some e => fatalTrap s c .uncorr va c.ir e.place
  | none => s.setSlot ({ c with tileSeen := s.pubs }.waitFor (.done d (leWord (s.readHomeN k 8))))

/-- An LDFE.clr leaves its granule as it is: its word cannot be corrected (R3), or its destination refuses the word, so that the
instruction traps with no effect (R75, R150). -/
def State.clrKeeps (s : State) (c : Slot) (d : Reg5) (k : Nat) : Bool :=
  (s.errorAt k 8).isSome || resultRefused s c d (leWord (s.readHomeN k 8))

/-- Serve a full/empty request of a slot (R225): its result stands ready for the slot's next turn. -/
def State.serveFe (s : State) (c : Slot) (op : FeOp) (d : Reg5) (va : Word) (k : Nat) (v : Word) : State :=
  let s := s.noteAccess (c.owner.getD 0) k 8 (op == .stfe)
  let s := { s with feq := s.feq.filter (fun p => p != c.phys) }
  match op with
  | .ldfe => s.feLoaded c d va k
  | .ldfeClr => (if s.clrKeeps c d k then s else s.setFull k false).feLoaded c d va k
  | .feq => s.setSlot (c.waitFor (.done d (if s.isFull k then 1 else 0)))
  | .stfe => ((s.setSlot (c.waitFor (.done 0 0))).land (cellsAt k (leBytes 8 v.toNat))).setFull k true

/-- The request of a slot, if it is one of the given kind on the granule. -/
def feOn (s : State) (g : Nat) (p : Nat) (want : FeOp → Bool) : Option (Slot × FeReq) :=
  let c := s.slotAt p
  match feKey s c with
  | some r => if granuleOf r.k == g && want r.op then some (c, r) else none
  | none => none

/-- The bank controller's procedure on a granule whose bit has changed (R216), over at most n served requests: on a
full granule the waiting loads in arrival order up to the first .clr; on an empty one the earliest STFE. -/
def settleGranule (g : Nat) : Nat → State → State
  | 0, s => s
  | n + 1, s =>
    if s.full.contains g then
      match s.feq.findSome? (fun p => feOn s g p (fun o => o == .ldfe || o == .ldfeClr)) with
      | some (c, r) => settleGranule g n (s.serveFe c r.op r.d r.va r.k r.v)
      | none => s
    else
      match s.feq.findSome? (fun p => feOn s g p (fun o => o == .stfe)) with
      | some (c, r) => settleGranule g n (s.serveFe c r.op r.d r.va r.k r.v)
      | none => s

/-- Run the procedure for some granules. -/
def State.settle (s : State) (gs : List Nat) : State := gs.foldl (fun s g => settleGranule g s.feq.length s) s

/-- The granules of some cells. -/
def granulesOf (cs : List Host.Cell) : List Nat :=
  sortNats ((cs.filter (fun (x : Host.Cell) => hasGranule x.1)).map (fun (x : Host.Cell) => granuleOf x.1))

/-- An engine's write: it lands, its granules become full, and the waiting requests are served (R215, R216). -/
def State.engineWrite (s : State) (cs : List Host.Cell) : State := (s.landFull cs).settle (granulesOf cs)

/-- The cells of some with which their granules are complete: the last byte of each, or the last of all of them where `last` says
that nothing follows. -/
def granuleEnds (cs : List Host.Cell) (last : Bool) : List Host.Cell :=
  cs.filter (fun (x : Host.Cell) => hasGranule x.1 && (x.1 % 16 == 15 || (last && cs.getLast?.map (fun (y : Host.Cell) => y.1) == some x.1)))

/-- One event of an engine's write (R231): its bytes land, and a granule whose last bytes they are becomes full, with the waiting
requests served (R215, R216). -/
def State.engineEvent (s : State) (cs : List Host.Cell) (last : Bool) : State :=
  let ends := granuleEnds cs last
  (ends.foldl (fun (s : State) (x : Host.Cell) => if s.isFull x.1 then s else s.setFull x.1 true) (s.land cs)).settle (granulesOf ends)

/-- How many of n bytes at a location one event of an engine's write takes: those of its aligned 8 bytes (R231). -/
def eventLen (k n : Nat) : Nat := min n (8 - k % 8)

/-- A full/empty request that may reach its bank: earlier writes of its core to the bytes have landed, and an STFE,
a release at .dev, follows every earlier write of its thread (Table 14-2). -/
def feMayArrive (s : State) (c : Slot) (op : FeOp) (k : Nat) : Bool :=
  !s.writePending (coreOf c.phys) k 8 && !s.bankWaking k && !s.outPending c.phys k 8 && !s.earlyHeld (coreOf c.phys) k 8 &&
    (op != .stfe || !s.earlierPending c.phys (s.seq + 1))

/-- A request that its granule's bit lets be served. -/
def feServable (s : State) (op : FeOp) (k : Nat) : Bool :=
  match op with
  | .ldfe | .ldfeClr => s.isFull k
  | .stfe => !s.isFull k
  | .feq => true

/-- A full/empty request reaches its bank: served at once where it can be, else it waits in arrival order (R216). -/
def State.feArrive (s : State) (c : Slot) (op : FeOp) (d : Reg5) (va : Word) (k : Nat) (v : Word) : State :=
  if feServable s op k then
    let t := s.serveFe c op d va k v
    if op == .ldfeClr || op == .stfe then t.settle [granuleOf k] else t
  else { s with feq := s.feq ++ [c.phys] }

/-- The number of entries that a core's store buffer holds (R223). -/
def State.sbCount (s : State) (core : Nat) : Nat := (s.sbuf.filter (fun e => e.core == core)).length

/-- Enter writes into the core's store buffer, each as one entry (R223); `rel` is the scope of the release that the store
is, `unit` the bytes of one event of it, and `mark` the place of its instruction in program order, which all its entries have:
its elements may become visible in any order (R231). -/
def State.enterStores (s : State) (c : Slot) (css : List (List Host.Cell)) (rel : Option Scope) (unit mark : Nat) : State :=
  let b := match rel with
    | some sc => c.rels.release sc mark
    | none => c.rels
  { s with sbuf := s.sbuf ++ css.map (fun cs =>
             { core := coreOf c.phys, slot := c.phys, seq := mark, rel := rel, unit := unit, bounds := b, cells := cs }),
           seq := s.seq + 1 }

/-- Two writes share a byte. -/
def cellsMeet (a b : List Host.Cell) : Bool := a.any (fun (x : Host.Cell) => b.any (fun (y : Host.Cell) => x.1 == y.1))

/-- The first location of a write. -/
def SbEntry.key (e : SbEntry) : Nat :=
  match e.cells with
  | (k, _) :: _ => k
  | [] => 0

/-! ### Landing (R233 to R238) -/

/-- A location lies in a slice that a block of another slot holds (R260). -/
def State.sliceHeld (s : State) (slot k : Nat) : Bool :=
  keySpace k == Space.dev && s.allSlots.any (fun d => d.phys != slot && (match d.block with
    | some b => d.owner == some (keyUnit k) && b.slice.toNat - 0x1000000000000 == keyOff k / 256 * 256
    | none => false))

/-- A block of another slot has read one of n bytes at a location: no write may come between (Atomicity, R237). -/
def State.blockRead (s : State) (slot k n : Nat) : Bool :=
  keySpace k == Space.dev && s.allSlots.any (fun d => d.phys != slot && (match d.block with
    | some b => b.reads.any (fun q => decide (k ≤ q) && decide (q < k + n))
    | none => false))

/-- A write of the slot to a home on its own die has not landed. -/
def State.pendOwnDie (s : State) (slot : Nat) : Bool :=
  let w := fun e : SbEntry => e.slot == slot && s.homeDie e.key == dieOf slot
  s.sbuf.any w || s.flight.any w

/-- An atomic of a slot may be performed at its home, but for its page's translation: earlier stores of its core to the bytes
have landed, its own reductions on them are done, its thread's earlier writes on its own die have landed when its home lies
there (ppo-tso, R234), the slice is free, the bank is awake, and the bytes are not closed (R259, R260). -/
def State.homeReady (s : State) (slot k n : Nat) : Bool :=
  !s.writePending (coreOf slot) k n && !s.outPending slot k n && !(s.homeDie k == dieOf slot && s.pendOwnDie slot) &&
    !s.sliceHeld slot k && !s.blockRead slot k n && !s.bankWaking k && !s.earlyHeld (coreOf slot) k n

/-- Some event that a core has under way, but for one of its slots' at a mark, touches one of some locations. -/
def State.touching (s : State) (core slot seq : Nat) (keys : List Nat) : Bool :=
  let w := fun e : SbEntry => e.core == core && !(e.slot == slot && e.seq == seq) && keys.any (fun k => e.meets k 1)
  s.sbuf.any w || s.flight.any w ||
    s.outb.any (fun o => o.core == core && !o.done && o.seq != seq && keys.any (fun k => o.req.meets k 1))

/-- An event may take place at its home before what it follows at a narrower scope than that of its place: nothing that it
follows waits for a location that is closed, and nothing under way waits for the locations that would close. -/
def State.earlySafe (s : State) (slot seq : Nat) (keys : List Nat) : Bool :=
  let own := coreOf slot
  !s.early.any (fun e => s.touching own slot seq e.keys) &&
    !(own :: s.early.map (fun e => coreOf e.slot)).any (fun c => s.touching c slot seq keys) &&
    !keys.any (fun k => s.sliceHeld slot k)

/-- The mark before which everything has to be done when an event of some locations takes place: that of the widest scope at
which the locations are placed, .sys for system space, else .dev (R233, R236). -/
def Bounds.placed (b : Bounds) (keys : List Nat) : Nat := if keys.all (fun k => keySpace k == Space.host) then b.sys else b.dev

/-- What an event of a slot at some locations leaves closed when it takes place now: none where it has to wait for what it
follows at the scope of its place (R235), else the record of what it follows at narrower scopes (R236). -/
def State.passes (s : State) (slot seq : Nat) (b : Bounds) (keys : List Nat) : Option (List Early) :=
  if s.earlierPending slot (b.placed keys) then none
  else if !s.pendO slot b.core && !s.earlierPending slot b.clus && !s.earlierPending slot b.die && !s.earlierPending slot b.dev then
    some []
  else if s.earlySafe slot seq keys then some [{ slot := slot, bounds := b, keys := keys }]
  else none

/-- Add records of closed locations, and drop those that close nothing any more. -/
def State.close (s : State) (es : List Early) : State :=
  if s.early.isEmpty && es.isEmpty then s
  else { s with early := (s.early ++ es).filter (fun e => e.closed s (coreOf e.slot)) }

/-- The k-th write on its way may land, but for its page's translation: writes of one core to a common byte land in order
(Core axiom, po-loc), as do the writes of one thread to homes on its own die (Die axiom), reductions of the thread to its
bytes go before it, a bank that wakes takes nothing (R214), and a register image takes a write before its slot's turn of a
cycle (R209). -/
def State.mayLand (s : State) (k : Nat) (e : SbEntry) : Bool :=
  let before := s.flight.take k
  let die := dieOf e.slot
  !(before.any (fun f => f.core == e.core && cellsMeet f.cells e.cells)) &&
    !(s.homeDie e.key == die && before.any (fun f => f.slot == e.slot && decide (f.seq < e.seq) && s.homeDie f.key == die)) &&
    !(s.outb.any (fun o => o.slot == e.slot && !o.done && decide (o.seq < e.seq) &&
        e.cells.any (fun (x : Host.Cell) => o.req.meets x.1 1))) &&
    !s.bankWaking e.key && !s.imagePast e.key && !e.cells.any (fun (x : Host.Cell) => s.earlyHeld e.core x.1 1 || s.blockRead e.slot x.1 1)

/-- Put a cell into the group of its aligned u bytes, in place of an earlier one of the same location. -/
def putUnit (u : Nat) (x : Host.Cell) : List (List Host.Cell) → List (List Host.Cell)
  | [] => [[x]]
  | cs :: rest =>
    if (cs.head?.map (fun (y : Host.Cell) => y.1 / u)) == some (x.1 / u) then updKey (fun (y : Host.Cell) => y.1 == x.1) x cs :: rest
    else cs :: putUnit u x rest

/-- Some cells, grouped by their aligned u bytes. -/
def unitGroups (u : Nat) (cells : List Host.Cell) : List (List Host.Cell) :=
  cells.foldl (fun (css : List (List Host.Cell)) (x : Host.Cell) => putUnit u x css) []

/-- A write as it leaves the store buffer: one on its way for each single-copy atomic event of it (R230, R231). -/
def SbEntry.events (e : SbEntry) : List SbEntry := (unitGroups (max 1 e.unit) e.cells).map (fun cs => { e with cells := cs })

/-! ### Translation stations (R253, R254) -/

/-- The contexts that have pages behind the stack of a station. -/
def State.stationSharers (s : State) (st : Nat) : Nat :=
  max 1 (s.ctxs.filter (fun x => x.layout.dies.contains (st / 4))).length

/-- A request misses in its station: the walk of its page begins, or waits for its turn, unless it has come already (R254). -/
def State.startWalk (s : State) (ks : List Nat) (event : String) : Out :=
  match (ks.filter (fun k => !s.tlbHas k)).filterMap s.tlbKey |>.find? (fun e => !s.walks.contains e) with
  | some e => .next { s with walks := s.walks ++ [e] }
  | none => notNow event

/-- Go on once the pages of some locations stand in their stations (R254); a read also needs the key (R257). -/
def withPages (s : State) (ks : List Nat) (event : String) (k : Unit → Out) : Out :=
  if ks.any (fun k => !s.tlbHas k) then s.startWalk ks event
  else if ks.any (fun k => !s.keyHeld k) then notNow event
  else k ()

/-- Of some entries, the newest first, those of a station of which each context keeps at most its share. -/
def keepShares (st share : Nat) (es : List (Nat × Nat × Nat)) : List (Nat × Nat × Nat) :=
  es.foldl (fun kept e =>
    if e.1 == st && decide (share ≤ (kept.filter (fun f => f.1 == st && f.2.1 == e.2.1)).length) then kept else kept ++ [e]) []

/-- The entries after a new one of a station: each context that has pages there keeps at most its share of the 4,096, the newest
(R254). -/
def State.tlbInsert (s : State) (e : Nat × Nat × Nat) : List (Nat × Nat × Nat) :=
  keepShares e.1 (4096 / s.stationSharers e.1) (e :: s.tlb)

/-- The first of some locations, from the n-th on, whose page its station does not hold. -/
def State.missing (s : State) (ks : List Nat) (n : Nat) : Option (Nat × (Nat × Nat × Nat)) :=
  (ks.zipIdx.drop n).findSome? (fun e => if s.tlbHas e.1 then none else (s.tlbKey e.1).map (fun t => (e.2, t)))

/-- An engine's accesses go through their stations one after another (R253, R254): the page of the first location from the
`seen`-th on that misses is walked, and what comes before it has passed; once all have passed the engine goes on. `mark` keeps the
count. -/
def withWalks (s : State) (ks : List Nat) (seen : Nat) (mark : Nat → State → State) (event : String) (go : Unit → Out) : Out :=
  match s.missing ks seen with
  | some (i, e) => if s.walks.contains e then notNow event else .next (mark i { s with walks := s.walks ++ [e] })
  | none => if ks.any (fun k => !s.keyHeld k) then notNow event else go ()

/-- The walks of a context that are under way at a station: its share of 64, the first to come first (R254). -/
def State.walksUnderWay (s : State) (e : Nat × Nat × Nat) : List (Nat × Nat × Nat) :=
  (s.walks.filter (fun f => f.1 == e.1 && f.2.1 == e.2.1)).take (max 1 (64 / s.stationSharers e.1))

/-! ### Instruction caches (R374, R375) -/

/-- The context tag of the instruction lines of a slot. The ROM that a referee core fetches from stands under a
tag that no context has. -/
def fetchTag (c : Slot) : Nat :=
  match c.owner with
  | some id => id
  | none => 2 ^ 16

/-- The contexts that hold a slot on a core, by ascending identifier (R374). -/
def State.residents (s : State) (core : Nat) : List Nat :=
  sortNats ((s.allSlots.filter (fun c => coreOf c.phys == core)).filterMap (fun c => c.owner))

/-- The ways of a core that are a context's: all eight of a sealed context and of a referee core, else those of its rank among
the residents (R374). -/
def State.waysOf (s : State) (core id : Nat) : List Nat :=
  let rs := s.residents core
  match rs.findIdx? (fun x => x == id) with
  | none => if id = 2 ^ 16 then upTo 8 else []
  | some r => if (s.ctxAt id).any (fun x => x.warrant.sealed) then upTo 8 else (upTo 8).filter (fun w => w % rs.length == r)

/-- The line that holds an address in the slot's instruction cache, in a way of its own context (R374, R375). -/
def State.lineOf (s : State) (c : Slot) (a : Word) : Option ILine :=
  let ways := s.waysOf (coreOf c.phys) (fetchTag c)
  s.icache.find? (fun l => l.core == coreOf c.phys && l.ctx == fetchTag c && l.addr.toNat / 64 == a.toNat / 64 && ways.contains l.way)

/-- The ways are divided anew: a line in a way that is no longer its context's is gone (R374). -/
def State.divideWays (s : State) : State :=
  { s with icache := s.icache.filter (fun (l : ILine) => (s.waysOf l.core l.ctx).contains l.way) }

/-! ### Events at a home -/

/-- The locations of n bytes. -/
def spanKeys (k n : Nat) : List Nat := (upTo n).map (fun i => k + i)

/-- An atomic of a slot takes place at its home now, once the page is translated: what it leaves closed, and what it does
there (R235, R254, R262). -/
def atHome (s : State) (slot : Nat) (b : Bounds) (k n : Nat) (event : String) (go : State → Out) : Out :=
  if !s.homeReady slot k n then notNow event
  else match s.passes slot s.seq b (spanKeys k n) with
    | none => notNow event
    | some es => withPages s [k] event (fun _ => go (s.close es))

/-- UNCORR takes the thread of a slot whose access at an address met an error (R3). -/
def orUncorr (s : State) (c : Slot) (va : Word) (k n : Nat) (go : Out) : Out :=
  match s.errorAt k n with
  | some e => .next (fatalTrap s c .uncorr va c.ir e.place)
  | none => go

/-- An instruction reads n bytes at a location as it issues: it waits while they cannot be read (R33, R214, R235), while a page of
them is walked (R254) and once their key is gone (R257), and an error in them takes its thread (R3). -/
def withRead (s : State) (c : Slot) (va : Word) (k n : Nat) (go : State → Out) : Out :=
  let hold := fun (s : State) => (.next { s with cur := { s.cur with wait := some .bank, status := .waitMem } } : Out)
  if s.loadStalls c.phys k n || !s.keyHeld k then hold s
  else match s.missing (spanKeys k n) 0 with
    | some (_, e) => hold (if s.walks.contains e then s else { s with walks := s.walks ++ [e] })
    | none => orUncorr s c va k n (go (s.noteAccess (c.owner.getD 0) k n false))

/-- Of n bytes at a location, the first and each at a multiple of 16,384: every bank and every page that they touch. -/
def spanPoints (k n : Nat) : List Nat :=
  (k :: (upTo (n / 16384 + 1)).map (fun i => (k / 16384 + 1 + i) * 16384)).filter (fun a => decide (a < k + n))

/-! ### Beats (R120) -/

/-- The release that an access carries, if any (R235). -/
def releasedBy (s : State) (c : Slot) (rel : Option Scope) : State × Slot :=
  match rel with
  | some sc => released s c sc
  | none => (s, c)

/-- The last beat's writes, result and flags (R120, R169, R89). -/
def Slot.landLate (c : Slot) (l : Late) : Slot :=
  let c := (l.writes.foldl Slot.landV c).raise l.flags
  let c := match l.mask with
    | some (n, m) => c.setMask n m
    | none => c
  let c := match l.result with
    | some (d, w) => c.setReg d.toNat w
    | none => c
  c.goto l.npc

/-- Enter writes into the core's store buffer as far as it has room: the state, and the writes that still wait. -/
def enterSome (s : State) (c : Slot) (css : List (List Host.Cell)) (rel : Option Scope) (unit mark : Nat) :
    State × List (List Host.Cell) :=
  let room := 32 - s.sbCount (coreOf c.phys)
  (s.enterStores c (css.take room) rel unit mark, css.drop room)

/-- A store's writes enter the store buffer in order, and what the instruction does beside them happens with the last; while
the buffer is full the thread waits (R223). `since` is the mark before the first of them. -/
def enterAll (s : State) (c : Slot) (css : List (List Host.Cell)) (rel : Option Scope) (unit since : Nat) (flags : BitVec 5) :
    Out :=
  match enterSome s c css rel unit since with
  | (t, []) => done (releasedBy t c rel).1 ((releasedBy s c rel).2.ready.raise flags)
  | (t, rest) => waitOn t c (.store rest rel unit since flags)

/-- The last beat of an instruction (R120): its trap, its stores, its push to a queue with its flags, or its writes. -/
def endBeats (s : State) (c : Slot) (l : Late) : Out :=
  match l.trap, l.result with
  | some (cause, tval), _ => trap s c cause tval
  | none, some (d, w) =>
    if d.toNat < 24 then .next { s with cur := c.landLate l } else pushWith s c d.toNat w l.npc (.raise l.flags)
  | none, none =>
    if l.stores.isEmpty then .next { s with cur := c.landLate l } else enterAll s c l.stores none l.unit s.seq l.flags

/-- An instruction of k beats issues its first one: what it does stands until its last beat (R120). -/
def startBeats (s : State) (c : Slot) (k : Nat) (l : Late) : Out :=
  if k ≤ 1 then endBeats s c l
  else .next { s with cur := { c with busy := k - 1, late := some l } }

/-- A last beat that only goes on at the next word. -/
def lateNone (c : Slot) : Late :=
  { writes := [], mask := none, result := none, stores := [], unit := 1, flags := 0, npc := c.npc, trap := none }

/-- An instruction of k beats that writes vector elements and raises flags. -/
def finishBeats (s : State) (c : Slot) (k : Nat) (writes : List VWrite) (flags : BitVec 5) : Out :=
  startBeats s c k { lateNone c with writes := writes, flags := flags }

/-- An instruction of k beats that writes a mask register and raises flags (R173, R186). -/
def finishMask (s : State) (c : Slot) (k md : Nat) (m : MaskReg) (flags : BitVec 5) : Out :=
  startBeats s c k { lateNone c with mask := some (md, m), flags := flags }

/-- An instruction of k beats that traps at its last beat (R204). -/
def trapAtBeat (s : State) (c : Slot) (k : Nat) (cause : TrapCause) (tval : Word) : Out :=
  startBeats s c k { lateNone c with trap := some (cause, tval) }

/-- An instruction of k beats with a scalar result and flags (R120, R176, R188), which a register or a queue takes at the
last beat; the trap of a queue and the wait for room come before the first one (R170, R178). -/
def finishScalar (s : State) (c : Slot) (k : Nat) (d : Reg5) (w : Word) (flags : BitVec 5) : Out :=
  withQueueRoom s c d w (fun _ => startBeats s c k { lateNone c with result := some (d, w), flags := flags })

/-- A beat of an instruction after its first (R120): at the last one its effects happen, or its trap is taken. -/
def nextBeat (s : State) : Out :=
  let c := { s.cur with busy := s.cur.busy - 1 }
  match c.busy, c.late with
  | 0, some l => endBeats s { c with late := none } l
  | _, _ => .next { s with cur := c }

end Sys2Proof.Machine
end

