-- ==== Sys2Proof/Machine/Control.lean ====
section
/-! DEFINITION. Control flow, control registers and trap instructions
(spec/06_scalar_registers_and_control.md R107 to R109, R116 to R118, spec/08_traps_faults_and_dumps.md R153,
spec/12 R226, spec/14 R243 to R245). -/

namespace Sys2Proof.Machine

/-- The target of a compare-branch (R57, R116). -/
def branchTarget (pc : Word) (off : BitVec 13) : Word := pc + (off.signExtend 64 <<< 2)

/-- A compare-branch: a, then b; the target when the condition holds, else pc + 4 (R116). -/
def branch (s : State) (a b : Reg5) (off : BitVec 13) (f : Word → Word → Bool) : Out :=
  withSrc2 s a b (fun x y c => .next { s with cur := c.goto (if f x y then branchTarget c.pc off else c.npc) })

/-- BEQ: taken when a = b (Table 6-8). -/
def execBeq (a b : Reg5) (off : BitVec 13) (s : State) : Out := branch s a b off (fun x y => x == y)

/-- BNE: taken when a and b differ (Table 6-8). -/
def execBne (a b : Reg5) (off : BitVec 13) (s : State) : Out := branch s a b off (fun x y => x != y)

/-- BLT: taken when Sa < Sb (Table 6-8). -/
def execBlt (a b : Reg5) (off : BitVec 13) (s : State) : Out := branch s a b off (fun x y => x.slt y)

/-- BGE: taken when Sa is at least Sb (Table 6-8). -/
def execBge (a b : Reg5) (off : BitVec 13) (s : State) : Out := branch s a b off (fun x y => !x.slt y)

/-- BLTU: taken when a < b (Table 6-8). -/
def execBltu (a b : Reg5) (off : BitVec 13) (s : State) : Out := branch s a b off (fun x y => x.ult y)

/-- BGEU: taken when a is at least b (Table 6-8). -/
def execBgeu (a b : Reg5) (off : BitVec 13) (s : State) : Out := branch s a b off (fun x y => !x.ult y)

/-- JAL: the link, then the jump (R117). -/
def execJal (d : Reg5) (off : BitVec 21) (s : State) : Out :=
  finishAt s s.cur d s.cur.npc (s.cur.pc + (off.signExtend 64 <<< 2))

/-- JALR: a misaligned target takes MISALIGN and writes no link (R55, R117). -/
def execJalr (d a : Reg5) (imm : BitVec 12) (s : State) : Out :=
  withSrc1 s a (fun x c =>
    let t := x + immWord imm
    if t.toNat % 4 ≠ 0 then trap s c .misalign t else finishAt s c d c.npc t)

/-- CSRR: the value as it stands in the issue cycle (R107, R109). A read of WINn takes no REGDECL, whatever .windows declares:
R75 speaks of a format window that a field of the word names, and R104 refuses a CSRW alone (the model's choice,
notes/assumptions/15.md). -/
def execCsrr (d : Reg5) (csr : BitVec 12) (s : State) : Out := finish s s.cur d (csrValue s s.cur csr.toNat)

/-- A control-register write: REGDECL for a window beyond the declaration where the write acts as WINSET (R104), then
the source is read, then the value is checked (R85, R219), then the RW fields are written (R107). -/
def csrWrite (s : State) (a : Reg5) (csr : BitVec 12) (winset : Bool) (f : Word → Word → Word) : Out :=
  let i := csr.toNat
  if winset && decide (0x050 ≤ i) && decide (i ≤ 0x057) && decide (s.cur.decl.windows ≤ i - 0x050) then
    trap s s.cur .regdecl (BitVec.ofNat 64 (0x100 + (i - 0x050)))
  else
    withSrc1 s a (fun x c =>
      let new := f (csrValue s c i) x
      if csrRefused i new then trap s c .illegal 3 else done s (c.writeCsr i new))

/-- CSRW (R107). -/
def execCsrw (a : Reg5) (csr : BitVec 12) (s : State) : Out := csrWrite s a csr true (fun _ x => x)

/-- CSRS (R107). -/
def execCsrs (a : Reg5) (csr : BitVec 12) (s : State) : Out := csrWrite s a csr false (fun old x => old ||| x)

/-- CSRC (R107). -/
def execCsrc (a : Reg5) (csr : BitVec 12) (s : State) : Out := csrWrite s a csr false (fun old x => old &&& ~~~x)

/-- TRAP: the source is read, then the named cause is taken with TVAL its value, which no fault record shows (R153, R158). A code that names no cause
software may raise takes ILLEGAL. -/
def execTrap (a : Reg5) (code : BitVec 4) (s : State) : Out :=
  match TrapCause.ofCode code.toNat with
  | none => trap s s.cur .illegal 3
  | some .uncorr => trap s s.cur .illegal 3
  | some cause => withSrc1 s a (fun x c => trapShowing s c cause x 0)

/-- ERET (R153). With MIG set, to the TEPC of the block's trapping instruction, the thread goes on at the channel core, which
it first has to reach as a MIGR does (R155). -/
def execEret (s : State) : Out :=
  match s.cur.eretBlock with
  | some b => waitOn s s.cur.eret (.remigr b)
  | none => .next { s with cur := s.cur.eret }

/-- UCALL (R153). -/
def execUcall (n : BitVec 12) (s : State) : Out := trap s s.cur .ucall (n.setWidth 64)

/-- BRK (R153). -/
def execBrk (n : BitVec 12) (s : State) : Out := trap s s.cur .brk (n.setWidth 64)

/-- Every write of the slot's thread is acknowledged: none in the store buffer or on its way (R243). -/
def State.storesDone (s : State) (slot : Nat) : Bool :=
  !(s.sbuf.any (fun e => e.slot == slot)) && !(s.flight.any (fun e => e.slot == slot))

/-- Every reduction and .o atomic of the slot is acknowledged (R243). -/
def State.outDone (s : State) (slot : Nat) : Bool := !(s.outb.any (fun e => e.slot == slot))

/-- What a FENCE of kind 0 or .rel waits for (R243). -/
def fenceClear (s : State) (slot : Nat) (sc : Scope) : Bool :=
  match sc with
  | .core => s.outDone slot
  | _ => s.storesDone slot && s.outDone slot

/-- FENCE (R242 to R244). One that releases at .dev or .sys makes tiles visible (R239). -/
def execFence (kind : FenceKind) (sc : Scope) (s : State) : Out :=
  match kind with
  | .acq => done s (s.acquired s.cur)
  | _ =>
    let (s, c) := released s s.cur sc
    if fenceClear s c.phys sc then done s (s.acquired c) else waitOn s c (.fence sc)

/-- IFLUSH: the core's lines of the context are discarded, and the thread waits until that is done (R245). -/
def execIflush (s : State) : Out :=
  let c := s.cur
  waitOn { s with icache := s.icache.filter (fun l => !(l.core == coreOf c.phys && some l.ctx == c.owner)) } c .iflush

/-- WINSET (R226). -/
def execWinset (a : Reg5) (w : BitVec 3) (s : State) : Out :=
  if s.cur.decl.windows ≤ w.toNat then trap s s.cur .regdecl (BitVec.ofNat 64 (0x100 + w.toNat))
  else withSrc1 s a (fun x c =>
    if winOk x then done s (c.writeCsr (0x050 + w.toNat) x) else trap s c .illegal 3)

end Sys2Proof.Machine
end

