-- ==== Sys2Proof/Machine/Tasks.lean ====
section
/-! DEFINITION. Tasks, deques, stealing, RFORK recruitment, JOIN, monitors, YIELD and HALT
(spec/07_thread_slots_and_tasks.md R125 to R149). -/

namespace Sys2Proof.Machine

/-! ### Starting and ending a task -/

/-- The kernel of the context's running launch; kernel 0 where no launch runs. -/
def Ctx.kernel (x : Ctx) : Option Kernel :=
  match x.launch with
  | none => x.kernels[0]?
  | some l => match x.queues.find? (fun q => q.q == l.q) with
    | none => x.kernels[0]?
    | some q => match q.fetched with
      | some p => x.kernels[p.kernel]?
      | none => x.kernels[0]?

/-- The slot starts a task of a kernel (R125, R100): its queues, its halo counters and its identity stay. -/
def Slot.startTask (c : Slot) (k : Kernel) (dom : Nat) (entry s2 s3 s4 : Word) : Slot :=
  let v := Slot.vacant c.phys
  let r := ((v.setReg 2 s2).setReg 3 s3).setReg 4 s4
  { c with status := .ready, held := .ready, busy := 0, late := none, pause := 0, pc := entry, ir := 0, regs := r.regs,
           vregs := v.vregs, masks := v.masks, handles := v.handles, fmode := 0, fflags := 0, tcause := 0, tepc := 0,
           tword := 0, tval := 0, thand := k.handler, mig := false, inh := false, deny := false, denyEv := 0,
           wins := k.wins, decl := k.decl, domain := dom, monitor := none, wait := none, block := none, resumeAt := none,
           rels := Bounds.none, popTiles := [] }

/-- The slot's task ends: its registers are scrubbed, its monitor is disarmed, its flags leave CFLAGS (R139, R101). -/
def Slot.endTask (c : Slot) (st : Status) : Slot :=
  let v := Slot.vacant c.phys
  { c with status := st, held := st, busy := 0, late := none, pause := 0, pc := 0, regs := v.regs, vregs := v.vregs, masks := v.masks,
           handles := v.handles, fmode := 0, fflags := 0, tcause := 0, tepc := 0, tword := 0, tval := 0, thand := 0,
           mig := false, inh := false, deny := false, denyEv := 0, wins := v.wins, decl := Decl.none,
           monitor := none, wait := none, block := none, resumeAt := none }

/-- The root of a slot's family. -/
def State.rootOf (s : State) (c : Slot) : Nat := ((s.ctxOf c).map (fun x => x.root)).getD 0

/-- A request of a slot to the home of a huddle, released after what the thread did before it (R241). -/
def State.sendHuddle (s : State) (c : Slot) (name : Word) (kind : HReqKind) : State :=
  { s with hreqs := s.hreqs ++ [{ root := s.rootOf c, name := name, ctx := c.owner.getD 0, thread := c.thread,
                                  slot := c.phys, seq := s.seq, kind := kind }] }

/-- A task that ends leaves the huddles of its valid handles, which releases as an arrival does (R311, R323). -/
def State.leaveAll (s : State) (c : Slot) : State :=
  let s := if c.handles.toList.any (fun h => h.isSome) then s.publish c .dev else s
  c.handles.toList.foldl (fun (s : State) h => match h with
    | some h => s.sendHuddle c h.name .leave
    | none => s) s

/-- The current slot's task ends. -/
def endTask (s : State) (c : Slot) (st : Status) : Out := .next { s.leaveAll c with cur := c.endTask st }

/-- TASKEND (R139). -/
def execTaskend (s : State) : Out := endTask s s.cur .idle

/-- HALT (R140). -/
def execHalt (s : State) : Out := endTask s s.cur .vacant

/-- YIELD: the next seven turns are given up (R144). -/
def execYield (s : State) : Out :=
  .next { s with cur := { s.cur with status := .paused, pause := 7, pc := s.cur.npc } }

/-- YIELD_PAUSE_END: the last paused turn passes (R144). -/
def execYieldPauseEnd (slot : Nat) (s : State) : Out :=
  if s.cur.phys = slot ∧ s.cur.status = .paused ∧ s.cur.pause ≤ 1 then
    .next { s with cur := { s.cur with status := .ready, pause := 0 } }
  else notNow "YIELD_PAUSE_END"

/-! ### Monitors -/

/-- MARM: the address is checked as a load of one byte, and system space takes PERM (R141). -/
def execMarm (a : Reg5) (imm : BitVec 12) (s : State) : Out :=
  withSrc1 s a (fun x c =>
    let va := x + immWord imm
    match resolve s c va 1 (.load 1) with
    | .error (cause, tval) => trap s c cause tval
    | .ok k =>
      if keySpace k == Space.host then trap s c .perm va
      else done s { c with monitor := some { block := k / 64, trig := false } })

/-- MCLR (R141). -/
def execMclr (s : State) : Out := done s { s.cur with monitor := none }

/-- MWAIT: it completes at once with no monitor or with a trigger pending; else it waits (R142). -/
def execMwait (s : State) : Out :=
  match s.cur.monitor with
  | none => done s s.cur
  | some m => if m.trig then done s { s.cur with monitor := none } else waitOn s s.cur .mwait

/-! ### Deques -/

/-- The size of a partition of a context with j slots on a core (R127). -/
def partitionCap (j : Nat) : Nat := 256 * j / 7

/-- The slots that a context holds on a core. -/
def Ctx.slotsOn (x : Ctx) (core : Nat) : List Nat := x.slots.filter (fun p => coreOf p == core)

/-- A context's partition on a core, empty while nothing has used it (R127). -/
def State.dequeAt (s : State) (x : Ctx) (core : Nat) : Deque :=
  (s.deques.find? (fun d => d.core == core && d.ctx == x.id)).getD
    { core := core, ctx := x.id, items := [], spill := [], steal := .none }

/-- The records that a context's partition on a core may hold (R127). -/
def Ctx.dequeCap (x : Ctx) (core : Nat) : Nat := partitionCap (x.slotsOn core).length

/-- Put a partition back. Once it holds a record, its core need not wait out the time after an empty answer (R131). -/
def State.setDeque (s : State) (d : Deque) : State :=
  let d := match d.steal with
    | .retry _ => if d.items.isEmpty then d else { d with steal := .none }
    | _ => d
  { s with deques := updKey (fun e => e.core == d.core && e.ctx == d.ctx) d s.deques }

/-- The records that a spill page holds (R127). -/
def spillCap : Nat := 1024

/-- The release that a record carries is complete: what its creator wrote before FORK, in the slot that it then had, has reached
its home (R36), whoever holds that slot now. -/
def State.recordReleased (s : State) (t : TaskRec) : Bool := !s.earlierPending t.slot t.seq

/-- Push a record at the bottom, or wait for the spill of a full partition (R128, R129). -/
def pushTask (s : State) (c : Slot) (t : TaskRec) : Out :=
  match s.ctxOf c with
  | none => trap s c .queue (BitVec.allOnes 64)
  | some x =>
    let d := s.dequeAt x (coreOf c.phys)
    if d.items.length < x.dequeCap (coreOf c.phys) then done ((s.setDeque { d with items := t :: d.items }).count x.id c.lcore 0x48 1) c.ready
    else if d.spill.length + 32 ≤ spillCap then waitOn s c (.spill t)
    else trap s c.ready .queue (BitVec.allOnes 64)

/-- FORK: entry, then argument; a misaligned entry traps; the record carries the release (R136). -/
def execFork (a b : Reg5) (s : State) : Out :=
  withSrc2 s a b (fun e g c =>
    if e.toNat % 4 ≠ 0 then trap s c .misalign e
    else
      let (s, c) := released s c .dev
      pushTask { s with seq := s.seq + 1 } c
      { entry := e, arg := g, ctx := c.owner.getD 0, domain := c.domain, creator := c.thread, origin := c.lcore,
        slot := c.phys, seq := s.seq + 1 })

/-- DEQUE_SPILL_DONE: the 32 topmost records stand at the end of the spill page, oldest first (R129). -/
def execDequeSpillDone (slot : Nat) (s : State) : Out :=
  let c := s.slotAt slot
  match c.wait, s.ctxOf c with
  | some (.spill _), some x =>
    let d := s.dequeAt x (coreOf c.phys)
    if x.dequeCap (coreOf c.phys) ≤ d.items.length ∧ d.spill.length + 32 ≤ spillCap then
      let keep := d.items.length - 32
      .next ((s.setDeque { d with items := d.items.take keep, spill := d.spill ++ (d.items.drop keep).reverse }).count
        x.id c.lcore 0x4A 32)
    else notNow "DEQUE_SPILL_DONE"
  | _, _ => notNow "DEQUE_SPILL_DONE"

/-- An idle slot of a context on a core, the lowest-numbered. -/
def State.idleSlot (s : State) (ctx core : Nat) : Option Slot :=
  (s.allSlots.filter (fun c => c.owner == some ctx && coreOf c.phys == core && c.status == .idle)).foldl
    (fun m c => match m with
      | none => some c
      | some d => some (if c.phys < d.phys then c else d)) none

/-- DEQUE_REFILL: the 32 newest spilled records come back in their order (R129). -/
def execDequeRefill (core ctx : Nat) (s : State) : Out :=
  match s.ctxAt ctx with
  | none => notNow "DEQUE_REFILL"
  | some x =>
    let d := s.dequeAt x core
    if d.items.isEmpty && !d.spill.isEmpty && (s.idleSlot ctx core).isSome then
      let keep := d.spill.length - 32
      .next (s.setDeque { d with items := (d.spill.drop keep).reverse, spill := d.spill.take keep })
    else notNow "DEQUE_REFILL"

/-- A slot starts a task, which its counters count (R125, event 0x0B), and which acquires what FORK, RFORK or the launch released
(R36, R137, R353, R239). -/
def State.startIn (s : State) (c : Slot) (k : Kernel) (dom : Nat) (entry s2 s3 s4 : Word) : State :=
  (s.setSlot { c.startTask k dom entry s2 s3 s4 with tileSeen := s.pubs }).count (c.owner.getD 0) c.phys 0x0B 1

/-- Start a record in a slot (R125). -/
def State.startRecord (s : State) (x : Ctx) (c : Slot) (t : TaskRec) : State :=
  match x.kernel with
  | some k => s.startIn c k t.domain t.entry t.arg 0 0
  | none => s

/-- IDLE_SLOT_POP: the lowest-numbered idle slot takes the record at the bottom (R128, R146). -/
def execIdleSlotPop (slot : Nat) (s : State) : Out :=
  let c := s.slotAt slot
  match s.ctxOf c with
  | none => notNow "IDLE_SLOT_POP"
  | some x =>
    let d := s.dequeAt x (coreOf c.phys)
    match d.items with
    | [] => notNow "IDLE_SLOT_POP"
    | t :: rest =>
      if x.alive && s.idleSlot x.id (coreOf c.phys) == some c && s.recordReleased t then
        .next ((s.setDeque { d with items := rest }).startRecord x c t)
      else notNow "IDLE_SLOT_POP"

/-! ### Stealing -/

/-- Two cores lie in the same unit of a stealing domain: 0 core, 1 cluster, 2 die, 3 any (R130). -/
def inDomain (dom a b : Nat) : Bool :=
  match dom with
  | 0 => a == b
  | 1 => a / 8 == b / 8
  | 2 => dieOfCore a == dieOfCore b
  | _ => true

/-- STEAL_REQUEST: an idle slot, nothing in the partition or the spill page, and no request outstanding (R131). -/
def execStealRequest (core ctx : Nat) (s : State) : Out :=
  match s.ctxAt ctx with
  | none => notNow "STEAL_REQUEST"
  | some x =>
    let d := s.dequeAt x core
    if x.alive && d.items.isEmpty && d.spill.isEmpty && d.steal == .none && (s.idleSlot ctx core).isSome then
      .next (s.setDeque { d with steal := .asked s.cycle })
    else notNow "STEAL_REQUEST"

/-- The rank of a victim core for a thief: same cluster, same die, then dies by distance (R131). -/
def stealRank (thief victim : Nat) : Nat :=
  if thief / 8 = victim / 8 then 0
  else if dieOfCore thief = dieOfCore victim then 1
  else 1 + dieDist (dieOfCore thief) (dieOfCore victim)

/-- The victims of a thief: the context's other cores, by rank and then by logical number (R131). -/
def victims (x : Ctx) (thief : Nat) : List Nat :=
  (upTo 12).flatMap (fun r => x.cores.filter (fun k => k != thief && stealRank thief k == r))

/-- The record a thief takes from a partition: the oldest spilled, then the top, whose domain admits the thief. -/
def stealFrom (x : Ctx) (thief : Nat) (d : Deque) : Option (TaskRec × Deque) :=
  let admits := fun t : TaskRec => match x.cores[t.origin]? with
    | some k => inDomain t.domain k thief
    | none => false
  match d.spill.find? admits with
  | some t => some (t, { d with spill := dropFirst admits d.spill })
  | none => match d.items.reverse.find? admits with
    | some t => some (t, { d with items := (dropFirst admits d.items.reverse).reverse })
    | none => none

/-- STEAL_ANSWER: the first record in the order of R131, or none. A record waits for the release it carries (R132). A record that
finds no idle slot when it arrives goes to the bottom of the thief's partition: the spec does not say where, and R148 puts a
record that a stop sweeps into the thief's partition too (the model's choice, notes/assumptions/65.md). -/
def execStealAnswer (core ctx : Nat) (s : State) : Out :=
  match s.ctxAt ctx with
  | none => notNow "STEAL_ANSWER"
  | some x =>
    let d := s.dequeAt x core
    match d.steal with
    | .asked _ =>
      if !x.alive then notNow "STEAL_ANSWER"
      else match (victims x core).findSome? (fun k => stealFrom x core (s.dequeAt x k)) with
      | none => .next (s.setDeque { d with steal := .retry s.cycle })
      | some (t, v) =>
        if s.recordReleased t then
          let s := ((s.setDeque v).setDeque { d with steal := .none }).count ctx ((x.lcoreOf core).getD 0) 0x49 1
          match s.idleSlot ctx core with
          | some c => .next (s.startRecord x c t)
          | none => .next (s.setDeque { d with steal := .none, items := t :: d.items })
        else notNow "STEAL_ANSWER"
    | _ => notNow "STEAL_ANSWER"

/-- STEAL_RETRY_TIMER: 64 cycles after an answer with no record (R131). -/
def execStealRetryTimer (core ctx : Nat) (s : State) : Out :=
  match s.ctxAt ctx with
  | none => notNow "STEAL_RETRY_TIMER"
  | some x =>
    let d := s.dequeAt x core
    match d.steal with
    | .retry t =>
      if t.toNat + 64 ≤ s.cycle.toNat then .next (s.setDeque { d with steal := .none }) else notNow "STEAL_RETRY_TIMER"
    | _ => notNow "STEAL_RETRY_TIMER"

/-! ### RFORK -/

/-- The number of recruits that a trip count wants (R133). -/
def recruitsWanted (n : Nat) : Nat := min (ceilDiv n 64 - 1) 1023

/-- The slots that RFORK recruits: on other cores of the domain, with an idle slot and nothing to run (R133). -/
def State.recruits (s : State) (x : Ctx) (c : Slot) (n : Nat) : List Slot :=
  ((x.cores.filter (fun k => k != coreOf c.phys && inDomain c.domain k (coreOf c.phys))).filterMap (fun k =>
    let d := s.dequeAt x k
    if x.alive && d.items.isEmpty && d.spill.isEmpty then s.idleSlot x.id k else none)).take (recruitsWanted n)

/-- The end of the issuer's subrange of [0, n) with k subranges (R134). -/
def subrange (n k i : Nat) : Word := BitVec.ofNat 64 (i * n / k)

/-- RFORK of a count of zero: the cell takes 1 as a store does, and the issuer's range is empty; while the store buffer is full
the thread waits (R122, R137). -/
def rforkNone (s : State) (c : Slot) (cell : Word) (k : Nat) : Out :=
  if s.sbCount (coreOf c.phys) < 32 then
    done (s.enterStores c [cellsAt k (leBytes 8 1)] none 8 s.seq) ((c.ready.setReg 2 0).setReg 3 0)
  else waitOn s c (.rfork 0 0 cell)

/-- RFORK (R137): entry, count, cell. With a count of zero the cell takes 1 and the issuer's range is empty. -/
def execRfork (d a b : Reg5) (s : State) : Out :=
  withSrc3 s a b d (fun e n cell c =>
    if e.toNat % 4 ≠ 0 then trap s c .misalign e
    else if cell.toNat % 8 ≠ 0 then trap s c .misalign cell
    else match resolve s c cell 8 (.store 8) with
      | .error (cause, tval) => trap s c cause tval
      | .ok k =>
        if n = 0 then rforkNone s c cell k
        else
          let (s, c) := released s c .dev
          waitOn s c (.rfork e n cell))

/-- RFORK_SURVEY_DONE: the cell takes k, the recruits start, and the issuer goes on with its own subrange. What the
issuer's core wrote before has landed, which is the release to the recruits (R133, R134, R137). -/
def execRforkSurveyDone (slot : Nat) (s : State) : Out :=
  let c := s.slotAt slot
  match c.wait, s.ctxOf c with
  | some (.rfork e n cell), some x =>
    match resolve s c cell 8 (.store 8), x.kernel with
    | .ok k, some kn =>
      if n = 0 || s.earlierPending slot (s.seq + 1) || c.status == .stopped || s.writePending (coreOf slot) k 8 ||
          s.blockRead slot k 8 || s.earlyHeld (coreOf slot) k 8 || s.bankWaking k then notNow "RFORK_SURVEY_DONE"
      else withPages s [k] "RFORK_SURVEY_DONE" (fun _ =>
        let rs := s.recruits x c n.toNat
        let parts := rs.length + 1
        let s := (s.land (cellsAt k (leBytes 8 parts))).noteAccess x.id k 8 true
        let s := (upTo rs.length).foldl (fun (s : State) (i : Nat) => match rs[i]? with
          | some r => s.startIn r kn c.domain e (subrange n.toNat parts (i + 1)) (subrange n.toNat parts (i + 2)) cell
          | none => s) s
        .next (s.setSlot ((s.slotAt slot).waitFor (.rforked (subrange n.toNat parts 1)))))
    | _, _ => notNow "RFORK_SURVEY_DONE"
  | _, _ => notNow "RFORK_SURVEY_DONE"

/-! ### JOIN -/

/-- JOIN (R138): the address is checked as a store and as an atomic, and the thread waits for the reply. It is a release
at .dev, or .sys for a cell in system space (Table 14-2). -/
def execJoin (a : Reg5) (s : State) : Out :=
  withSrc1 s a (fun x c =>
    if x.toNat % 8 ≠ 0 then trap s c .misalign x
    else match resolve s c x 8 (.store 8) with
      | .error (cause, tval) => trap s c cause tval
      | .ok _ => match resolve s c x 8 .atomic with
        | .error (cause, tval) => trap s c cause tval
        | .ok k =>
          let (s, c) := released s c (if keySpace k == Space.host then .sys else .dev)
          waitOn s c (.join x))

/-- The decrement at the cell's home (R138): a cell of zero takes QUEUE; else the reply says whether it left zero. -/
def joinAtHome (s : State) (c : Slot) (va : Word) (k : Nat) : State :=
  let old := leNat (s.readHomeN k 8)
  let s := s.noteAtomic (c.owner.getD 0) k 8
  if old = 0 then s.setSlot (c.waitFor (.trapped .queue va))
  else (s.setSlot ((if old = 1 then s.acquired c else c).waitFor (.joinReply (old == 1)))).land (cellsAt k (leBytes 8 (old - 1)))

/-- JOIN_DECREMENT_AT_HOME: one atomic, after what the thread wrote before it (R138). -/
def execJoinDecrementAtHome (slot : Nat) (s : State) : Out :=
  let c := s.slotAt slot
  match c.wait with
  | some (.join va) => match resolve s c va 8 .atomic with
    | .error (cause, tval) => .next (s.setSlot (c.waitFor (.trapped cause tval)))
    | .ok k =>
      if keySpace k == Space.host then notNow "JOIN_DECREMENT_AT_HOME"
      else atHome s slot c.rels k 8 "JOIN_DECREMENT_AT_HOME" (fun s =>
        orUncorr s c va k 8 (.next (joinAtHome s c va k)))
  | _ => notNow "JOIN_DECREMENT_AT_HOME"

end Sys2Proof.Machine
end

