-- ==== Sys2Proof/Machine/Atomics.lean ====
section
/-! DEFINITION. Atomics, reductions and migrating blocks, and their events
(spec/16_device_memory_and_atomics.md R259 to R265, spec/27 R401). -/

namespace Sys2Proof.Machine

/-- The new value of an atomic or a reduction of width w (Tables 16-2, 16-3). -/
def AtomOp.apply (op : AtomOp) (w old v cmp : Nat) : Nat :=
  match op with
  | .add => (old + v) % 2 ^ w
  | .and => Nat.land old v
  | .or => Nat.lor old v
  | .xor => Nat.xor old v
  | .min => if sintN old w ≤ sintN v w then old else v
  | .max => if sintN v w ≤ sintN old w then old else v
  | .minu => Nat.min old v
  | .maxu => Nat.max old v
  | .xchg => v
  | .cas => if old = cmp then v else old
  | .fadd =>
    let f := if w = 32 then fmtF32 else fmtF64
    (f.addV .rne (f.decode old) (f.decode v)).1

/-- The value that d receives from the old value (R262). -/
def AtomReq.result (r : AtomReq) (old : Word) : Word :=
  if r.w32 && r.op != .minu && r.op != .maxu then BitVec.ofInt 64 (sintN old.toNat 32) else old

/-- Perform a request at its home (R262): the state, and the old value. ACAS writes only where the values agree; where they do
not, it writes nothing and triggers no monitor (R142 lists atomics and does not say; the model's choice,
notes/assumptions/65.md). -/
def State.perform (s : State) (ctx : Nat) (r : AtomReq) : State × Word :=
  let n := r.bytes
  let old := leNat (s.readHomeN r.loc n)
  let s := s.noteAtomic ctx r.loc n
  if r.op == .cas && old != r.cmp.toNat then (s, BitVec.ofNat 64 old)
  else (s.land (cellsAt r.loc (leBytes n (r.op.apply (8 * n) old r.val.toNat r.cmp.toNat))), BitVec.ofNat 64 old)

/-- Perform a slot's atomic, and answer its old value. Where the destination refuses the value the instruction traps, so the
home stays as it is (R75, R150, R262); that the home answers first and the trap comes at the push is the model's choice
(notes/assumptions/65.md). -/
def State.performFor (s : State) (c : Slot) (d : Reg5) (r : AtomReq) : State × Word :=
  let old := BitVec.ofNat 64 (leNat (s.readHomeN r.loc r.bytes))
  if resultRefused s c d (r.result old) then (s.noteAtomic (c.owner.getD 0) r.loc r.bytes, old)
  else s.perform (c.owner.getD 0) r

/-- The reply of a slot's atomic is on its way, or has come: what the thread then waits for (R262). -/
def State.answerAtomic (s : State) (slot : Nat) (w : Wait) : State := s.setSlot ((s.acquired (s.slotAt slot)).waitFor w)

/-- Hand a request to the core's outbound path, or wait while its 16 entries are taken (R263). -/
def enterOut (s : State) (c : Slot) (r : AtomReq) : Out :=
  if (s.outb.filter (fun o => o.core == coreOf c.phys)).length < 16 then
    done { s with outb := s.outb ++ [{ core := coreOf c.phys, slot := c.phys, seq := s.seq, req := r, pc := c.pc, ir := c.ir, done := false }],
                  seq := s.seq + 1 } c.ready
  else waitOn s c (.outRoom r)

/-- The word of an operand cut to a width. -/
def cutWord (w32 : Bool) (w : Word) : Word := if w32 then BitVec.ofNat 64 (w.toNat % 2 ^ 32) else w

/-- The scope at which a kind releases, if it does (R235). -/
def releaseOf (kind : Kind) (sc : Scope) : Option Scope := if kind == .rel then some sc else none

/-- A request with the thread's release points, its own among them (R235, R262). -/
def withRelease (s : State) (c : Slot) (rel : Option Scope) (r : AtomReq) (k : State → Slot → AtomReq → Out) : Out :=
  let (s, c) := releasedBy s c rel
  k s c { r with bounds := c.rels }

/-- An atomic once its operands are read (R262). -/
def atomicGo (s : State) (c : Slot) (op : AtomOp) (d : Reg5) (x v cmp : Word) (kind : Kind) (sc : Scope) (o w32 : Bool) : Out :=
  withDest s c d (fun _ =>
    match resolve s c x (if w32 then 4 else 8) .atomic with
    | .error (cause, tval) => trap s c cause tval
    | .ok k =>
      withRelease s c (releaseOf kind sc)
        { op := op, w32 := w32, va := x, loc := k, val := cutWord w32 v, cmp := cutWord w32 cmp, ord := o, bounds := c.rels }
        (fun s c r => if o then enterOut s c r else waitOn s c (.atomic d r)))

/-- An atomic (R262): a, then b. -/
def atomic (s : State) (op : AtomOp) (d a b : Reg5) (kind : Kind) (sc : Scope) (o w32 : Bool) : Out :=
  withSrc2 s a b (fun x v c => atomicGo s c op d x v 0 kind sc o w32)

/-- AADD (Table 16-2). -/
def execAadd (d a b : Reg5) (kind : Kind) (sc : Scope) (o w32 : Bool) (s : State) : Out := atomic s .add d a b kind sc o w32

/-- AAND (Table 16-2). -/
def execAand (d a b : Reg5) (kind : Kind) (sc : Scope) (o w32 : Bool) (s : State) : Out := atomic s .and d a b kind sc o w32

/-- AOR (Table 16-2). -/
def execAor (d a b : Reg5) (kind : Kind) (sc : Scope) (o w32 : Bool) (s : State) : Out := atomic s .or d a b kind sc o w32

/-- AXOR (Table 16-2). -/
def execAxor (d a b : Reg5) (kind : Kind) (sc : Scope) (o w32 : Bool) (s : State) : Out := atomic s .xor d a b kind sc o w32

/-- AMIN (Table 16-2). -/
def execAmin (d a b : Reg5) (kind : Kind) (sc : Scope) (o w32 : Bool) (s : State) : Out := atomic s .min d a b kind sc o w32

/-- AMAX (Table 16-2). -/
def execAmax (d a b : Reg5) (kind : Kind) (sc : Scope) (o w32 : Bool) (s : State) : Out := atomic s .max d a b kind sc o w32

/-- AMINU (Table 16-2). -/
def execAminu (d a b : Reg5) (kind : Kind) (sc : Scope) (o w32 : Bool) (s : State) : Out := atomic s .minu d a b kind sc o w32

/-- AMAXU (Table 16-2). -/
def execAmaxu (d a b : Reg5) (kind : Kind) (sc : Scope) (o w32 : Bool) (s : State) : Out := atomic s .maxu d a b kind sc o w32

/-- AXCHG (Table 16-2). -/
def execAxchg (d a b : Reg5) (kind : Kind) (sc : Scope) (o w32 : Bool) (s : State) : Out := atomic s .xchg d a b kind sc o w32

/-- ACAS: d is also the comparand, read from its register (R262). -/
def execAcas (d a b : Reg5) (kind : Kind) (sc : Scope) (w32 : Bool) (s : State) : Out :=
  withSrc3 s a b d (fun x v cmp c => atomicGo s c .cas d x v cmp kind sc false w32)

/-- A reduction (R263): checked as an atomic is, then handed to the outbound path. -/
def reduction (s : State) (op : AtomOp) (a b : Reg5) (rel : Bool) (sc : Scope) (o w32 : Bool) : Out :=
  withSrc2 s a b (fun x v c =>
    match resolve s c x (if w32 then 4 else 8) .atomic with
    | .error (cause, tval) => trap s c cause tval
    | .ok k =>
      withRelease s c (if rel then some sc else none)
        { op := op, w32 := w32, va := x, loc := k, val := cutWord w32 v, cmp := 0, ord := o, bounds := c.rels } enterOut)

/-- RADD (Table 16-3). -/
def execRadd (a b : Reg5) (rel : Bool) (sc : Scope) (o w32 : Bool) (s : State) : Out := reduction s .add a b rel sc o w32

/-- RAND (Table 16-3). -/
def execRand (a b : Reg5) (rel : Bool) (sc : Scope) (o w32 : Bool) (s : State) : Out := reduction s .and a b rel sc o w32

/-- ROR (Table 16-3). -/
def execRor (a b : Reg5) (rel : Bool) (sc : Scope) (o w32 : Bool) (s : State) : Out := reduction s .or a b rel sc o w32

/-- RXOR (Table 16-3). -/
def execRxor (a b : Reg5) (rel : Bool) (sc : Scope) (o w32 : Bool) (s : State) : Out := reduction s .xor a b rel sc o w32

/-- RMIN (Table 16-3). -/
def execRmin (a b : Reg5) (rel : Bool) (sc : Scope) (o w32 : Bool) (s : State) : Out := reduction s .min a b rel sc o w32

/-- RMAX (Table 16-3). -/
def execRmax (a b : Reg5) (rel : Bool) (sc : Scope) (o w32 : Bool) (s : State) : Out := reduction s .max a b rel sc o w32

/-- RFADD: floating, RNE, no flag (R263). -/
def execRfadd (a b : Reg5) (rel : Bool) (sc : Scope) (o w32 : Bool) (s : State) : Out := reduction s .fadd a b rel sc o w32

/-! ### At the homes -/

/-- ATOMIC_AT_HOME: one indivisible step at the home of a slot's atomic, after the release it carries (R262). -/
def execAtomicAtHome (slot : Nat) (s : State) : Out :=
  let c := s.slotAt slot
  match c.wait with
  | some (.atomic d r) =>
    if keySpace r.loc == Space.host then notNow "ATOMIC_AT_HOME"
    else atHome s slot r.bounds r.loc r.bytes "ATOMIC_AT_HOME" (fun s =>
      orUncorr s c r.va r.loc r.bytes (
        let (t, old) := s.performFor c d r
        .next (t.answerAtomic slot (.atomicReply d r old))))
  | _ => notNow "ATOMIC_AT_HOME"

/-- ATOMIC_REPLY_ARRIVAL: the old value reaches the waiting slot's core (R262). -/
def execAtomicReplyArrival (slot : Nat) (s : State) : Out :=
  let c := s.slotAt slot
  match c.wait with
  | some (.atomicReply d r old) => .next (s.setSlot (c.waitFor (.done d (r.result old))))
  | _ => notNow "ATOMIC_REPLY_ARRIVAL"

/-- An entry of an outbound path may reach its home, but for its page's translation: the core's earlier stores to the bytes
and the thread's earlier reductions on them have (po-loc), with .o its earlier .o entries to the slice have (R240), the slice
is free, the bank is awake, and the bytes are not closed (R236, R260, R214). -/
def State.outMayGo (s : State) (e : OutReq) : Bool :=
  let k := e.req.loc
  let n := e.req.bytes
  let w := fun f : SbEntry => f.core == e.core && decide (f.seq < e.seq) && f.meets k n
  let before := fun f : OutReq => f.slot == e.slot && !f.done && decide (f.seq < e.seq)
  !(s.sbuf.any w) && !(s.flight.any w) && !(s.outb.any (fun f => before f && f.req.meets k n)) &&
    !(e.req.ord && s.outb.any (fun f => before f && f.req.ord && f.req.loc / 256 == k / 256)) &&
    !s.sliceHeld e.slot k && !s.blockRead e.slot k n && !s.bankWaking k && !s.earlyHeld e.core k n

/-- An entry of an outbound path takes place at its home now (R235, R254, R263). -/
def outAtHome (s : State) (e : OutReq) (event : String) (go : State → Out) : Out :=
  if e.done || !s.outMayGo e then notNow event
  else match s.passes e.slot e.seq e.req.bounds (spanKeys e.req.loc e.req.bytes) with
    | none => notNow event
    | some es => withPages s [e.req.loc] event (fun _ => go (s.close es))

/-- Mark an entry of the outbound paths as performed. -/
def State.outPerformed (s : State) (e : OutReq) : State :=
  { s with outb := s.outb.map (fun f => if f.seq == e.seq then { f with done := true } else f) }

/-- A reduction that meets an error at its home: its thread takes UNCORR, with the pc and the word of the reduction (R3, R158),
and the entry is done. -/
def State.reductionError (s : State) (e : OutReq) (m : MemErr) : State :=
  fatalTrapAt (s.outPerformed e) (s.slotAt e.slot) e.pc .uncorr e.req.va e.ir m.place

/-- REDUCTION_AT_HOME: the k-th entry of the outbound paths is performed at its home (R263). -/
def execReductionAtHome (k : Nat) (s : State) : Out :=
  match s.outb[k]? with
  | none => notNow "REDUCTION_AT_HOME"
  | some e =>
    if keySpace e.req.loc == Space.host then notNow "REDUCTION_AT_HOME"
    else outAtHome s e "REDUCTION_AT_HOME" (fun s =>
      match s.errorAt e.req.loc e.req.bytes with
      | some m => .next (s.reductionError e m)
      | none => .next ((s.perform ((s.slotAt e.slot).owner.getD 0) e.req).1.outPerformed e))

/-- REDUCTION_ACK_ARRIVAL: the acknowledgement of the k-th entry reaches its core (R263). -/
def execReductionAckArrival (k : Nat) (s : State) : Out :=
  match s.outb[k]? with
  | none => notNow "REDUCTION_ACK_ARRIVAL"
  | some e =>
    if e.done then .next { s with outb := s.outb.filter (fun f => f.seq != e.seq) } else notNow "REDUCTION_ACK_ARRIVAL"

/-- The reductions of a slot to system space that may be performed now (R234, R240, R263). -/
def State.outHostReady (s : State) (slot : Nat) : List OutReq :=
  s.outb.filter (fun e => e.slot == slot && !e.done && keySpace e.req.loc == Space.host && s.outMayGo e &&
    (s.passes e.slot e.seq e.req.bounds (spanKeys e.req.loc e.req.bytes)).isSome)

/-- One of some reductions, which nothing orders among themselves (R234): the one that a free value picks (notes/assumptions/7.md),
and the state after the draw. -/
def State.pickOut (s : State) (es : List OutReq) : Option (OutReq × State) :=
  match es with
  | [] => none
  | [e] => some (e, s)
  | e :: rest =>
    let (w, t) := s.draw
    some (((e :: rest)[w.toNat % (rest.length + 1)]?).getD e, t)

/-- SYSTEM_ATOMIC_REPLY: the host node performs a slot's atomic, join or reduction on system space, or refuses it:
a waiting instruction then takes PERM with TVAL its address, and a reduction writes nothing (R401). -/
def execSystemAtomicReply (slot : Nat) (refused : Bool) (s : State) : Out :=
  let ev := "SYSTEM_ATOMIC_REPLY"
  let c := s.slotAt slot
  let outbound : Out :=
    match s.pickOut (s.outHostReady slot) with
    | none => notNow ev
    | some (e, s) => outAtHome s e ev (fun s =>
        if refused then .next (s.outPerformed e) else .next ((s.perform (c.owner.getD 0) e.req).1.outPerformed e))
  let orOutbound := fun (o : Out) => match o with
    | .next t => .next t
    | _ => outbound
  match c.wait with
  | some (.atomic d r) =>
    if keySpace r.loc != Space.host then outbound
    else orOutbound (atHome s slot r.bounds r.loc r.bytes ev (fun s =>
      if refused then .next (s.setSlot (c.waitFor (.trapped .perm r.va)))
      else
        let (t, old) := s.performFor c d r
        .next (t.answerAtomic slot (.done d (r.result old)))))
  | some (.join va) =>
    match resolve s c va 8 .atomic with
    | .error _ => outbound
    | .ok k =>
      if keySpace k != Space.host then outbound
      else orOutbound (atHome s slot c.rels k 8 ev (fun s =>
        if refused then .next (s.setSlot (c.waitFor (.trapped .perm va))) else .next (joinAtHome s c va k)))
  | _ => outbound

/-! ### Migrating blocks -/

/-- MIGR: CANON, then PERM for every address that is not device memory, then the checks of R255 as of a read of one byte;
the thread waits for the channel core (R264). -/
def execMigr (a : Reg5) (s : State) : Out :=
  withSrc1 s a (fun x c =>
    if 2 ^ 57 ≤ x.toNat then trap s c .canon x
    else if x.toNat < 2 ^ 48 ∨ 2 ^ 56 ≤ x.toNat then trap s c .perm x
    else match resolve s c x 1 (.load 1) with
      | .error (cause, tval) => trap s c cause tval
      | .ok _ =>
        let (s, c) := released s c .dev
        waitOn s c (.migr x))

/-- RETN's encoding (R264). -/
def isRetn (w : IWord) : Bool := w == 0x4C00000B

/-- The locations and the words from an address up to the first RETN, at most n; a word that cannot be fetched ends them
(R264). -/
def State.blockCode (s : State) (c : Slot) (pc : Word) : Nat → List (Nat × IWord)
  | 0 => []
  | n + 1 =>
    match resolve s c pc 4 .fetch with
    | .error _ => []
    | .ok k =>
      let w := BitVec.ofNat 32 (leNat (s.readHomeN k 4))
      if isRetn w then [(k, w)] else (k, w) :: State.blockCode s c (pc + 4) n

/-- The words of a block. -/
def State.blockWords (s : State) (c : Slot) (pc : Word) (n : Nat) : List IWord := (s.blockCode c pc n).map (fun e => e.2)

/-- The channel core of a context's offset: its stack, and bits 12 to 9 (R260). -/
def Ctx.channelCore (x : Ctx) (off : Nat) : Nat := x.stackOf off * 16 + off / 512 % 16

/-- The blocks that a channel core holds (R260). -/
def State.blocksAt (s : State) (cc : Nat) : Nat :=
  (s.allSlots.filter (fun d => match d.block, s.ctxOf d with
    | some b, some y => y.channelCore (b.slice.toNat - 0x1000000000000) == cc
    | _, _ => false)).length

/-- A channel core takes a block, which goes on at a pc: after the full fence, while fewer than eight blocks are there, no
other block holds the slice, no byte of it is closed, and no write of the thread's core to it is on its way, since the block
reads at the channel core what its core would read from its store buffer (R236, R237, R238, R260, R264). -/
def acceptBlock (s : State) (c : Slot) (x : Ctx) (k : Nat) (b : Block) (pc : Word) : Out :=
  if s.earlierPending c.phys (s.seq + 1) || c.status == .stopped || s.sliceHeld c.phys k ||
      s.writePending (coreOf c.phys) (k / 256 * 256) 256 ||
      s.earlyHeld (coreOf c.phys) (k / 256 * 256) 256 || decide (8 ≤ s.blocksAt (x.channelCore (keyOff k))) then
    notNow "MIGR_BLOCK_ACCEPT"
  else withPages s [k] "MIGR_BLOCK_ACCEPT" (fun _ =>
    .next ((s.noteAtomic x.id k 1).setSlot { c with wait := none, status := .waitMem, pc := pc, block := some b }))

/-- MIGR_BLOCK_ACCEPT: the slice's channel core takes the block of a MIGR, or the rest of the block that an ERET goes back
into (R155, R260, R264). -/
def execMigrBlockAccept (slot : Nat) (s : State) : Out :=
  let c := s.slotAt slot
  match c.wait, s.ctxOf c with
  | some (.migr va), some x =>
    match resolve s c va 1 (.load 1) with
    | .error (cause, tval) => .next (s.setSlot (c.waitFor (.trapped cause tval)))
    | .ok k =>
      let slice : Word := BitVec.ofNat 64 (va.toNat / 256 * 256)
      let code := s.blockCode c c.npc 25
      withPages s (code.map (fun e => e.1)) "MIGR_BLOCK_ACCEPT" (fun _ =>
        match code.zipIdx.findSome? (fun e => (s.errorAt e.1.1 4).map (fun m => (e.2, m))) with
        | some (i, m) => .next (fatalTrap s c .uncorr (c.npc + BitVec.ofNat 64 (4 * i)) c.ir m.place)
        | none => acceptBlock s c x k { slice := slice, words := code.map (fun e => e.2), idx := 0, home := c.pc, reads := [], stores := [] } c.npc)
  | some (.remigr b), some x =>
    match resolve s c b.slice 1 (.load 1) with
    | .error (cause, tval) => .next (s.setSlot (c.waitFor (.trapped cause tval)))
    | .ok k => acceptBlock s c x k b c.pc
  | _, _ => notNow "MIGR_BLOCK_ACCEPT"

/-- RETN: the block's stores become visible together, and the registers go home (R264); outside a block it takes
ILLEGAL. -/
def execRetn (s : State) : Out :=
  let c := s.cur
  match c.block with
  | none => trap s c .illegal 3
  | some b =>
    .next (({ s with cur := { c with block := none, wait := some (.migrReturn none), status := .waitMem } }).land
      b.stores.reverse)

/-- MIGR_BLOCK_RETURN: the registers reach the home core, with the trap that the block took (R264, R265). -/
def execMigrBlockReturn (slot : Nat) (s : State) : Out :=
  let c := s.slotAt slot
  match c.wait with
  | some (.migrReturn none) => .next (s.setSlot ({ c with tileSeen := s.pubs }.waitFor (.done 0 0)))
  | some (.migrReturn (some (cause, tval, value))) => .next (s.setSlot (c.waitFor (.migTrapped cause tval value)))
  | _ => notNow "MIGR_BLOCK_RETURN"

end Sys2Proof.Machine
end

