-- ==== Sys2Proof/Machine/Sha.lean ====
section
/-! DEFINITION. SHAKE256, which huddle homes, holder digests and serials are named by. The spec names the function;
its definition is taken from FIPS 202 (PRESUMED, notes/assumptions/10.md). -/

namespace Sys2Proof.Machine

/-- Lane i, that is x + 5 y, of a state of 1,600 bits held as one number. -/
def shaLane (st i : Nat) : Nat := elemN st 64 (i % 25)

/-- The lane at column x and row y, each taken modulo 5. -/
def shaAt (st x y : Nat) : Nat := shaLane st (x % 5 + 5 * (y % 5))

/-- The state whose lanes are f. -/
def shaOf (f : Nat → Nat) : Nat := ofElemsN 64 f 25

/-- A lane rotated towards its high end. -/
def shaTurn (v n : Nat) : Nat := (v * 2 ^ 64 + v) / 2 ^ (64 - n % 64) % 2 ^ 64

/-- The parity of a column. -/
def shaColumn (st x : Nat) : Nat := (upTo 5).foldl (fun p y => p ^^^ shaAt st x y) 0

/-- Theta: every lane takes the parities of its two neighbouring columns. -/
def shaTheta (st : Nat) : Nat :=
  shaOf (fun i => shaLane st i ^^^ shaColumn st (i + 4) ^^^ shaTurn (shaColumn st (i + 1)) 1)

/-- The walk from (1, 0) by (x, y) to (y, 2x + 3y): the number t of the step at which it meets a lane; none for (0, 0). -/
def shaStep : Nat → Nat → Nat × Nat → Nat × Nat → Option Nat
  | 0, _, _, _ => none
  | n + 1, t, at_, goal =>
    if at_ = goal then some t else shaStep n (t + 1) (at_.2, (2 * at_.1 + 3 * at_.2) % 5) goal

/-- Rho: how far a lane turns, the triangular number of its step in the walk. -/
def shaOffset (x y : Nat) : Nat :=
  match shaStep 24 0 (1, 0) (x % 5, y % 5) with
  | some t => (t + 1) * (t + 2) / 2
  | none => 0

/-- Rho, then pi: the lane at (x, y) comes from (x + 3y, x), turned. -/
def shaMove (st : Nat) : Nat :=
  shaOf (fun i => shaTurn (shaAt st (i % 5 + 3 * (i / 5)) (i % 5)) (shaOffset (i % 5 + 3 * (i / 5)) (i % 5)))

/-- Chi: a lane changes where the next one is 0 and the one after it is 1. -/
def shaChi (st : Nat) : Nat :=
  shaOf (fun i =>
    let one := shaAt st (i % 5 + 1) (i / 5)
    let two := shaAt st (i % 5 + 2) (i / 5)
    shaLane st i ^^^ (two ^^^ (one &&& two)))

/-- The register behind the round constants after n steps: eight bits, fed back by 0x171. -/
def shaReg : Nat → Nat
  | 0 => 1
  | n + 1 =>
    let r := 2 * shaReg n
    if r < 256 then r else r ^^^ 0x171

/-- Iota: round r changes bits 2^j - 1 of lane 0, by seven steps of the register. -/
def shaIota (r st : Nat) : Nat :=
  (upTo 7).foldl (fun st j => st ^^^ shaReg (7 * r + j) % 2 * 2 ^ (2 ^ j - 1)) st

/-- The permutation: 24 rounds. -/
def shaPermute (st : Nat) : Nat := (upTo 24).foldl (fun st r => shaIota r (shaChi (shaMove (shaTheta st)))) st

/-- Take in n blocks of 136 bytes. -/
def shaTake : Nat → Nat → List Byte → Nat
  | 0, st, _ => st
  | n + 1, st, bs => shaTake n (shaPermute (st ^^^ leNat (bs.take 136))) (bs.drop 136)

/-- SHAKE256 of a message, with an output of up to 136 bytes. -/
def shake256 (msg : List Byte) (n : Nat) : List Byte :=
  let len := msg.length % 136
  let pad : List Byte :=
    if len = 135 then [0x9F#8] else [0x1F#8] ++ List.replicate (134 - len) 0#8 ++ [0x80#8]
  leBytes (min n 136) (shaTake (msg.length / 136 + 1) 0 (msg ++ pad))

/-- The 256-bit digest of a message, its first byte lowest. -/
def digest (msg : List Byte) : BitVec 256 := BitVec.ofNat 256 (leNat (shake256 msg 32))

end Sys2Proof.Machine
end

