-- ==== Sys2Proof/Machine/Huddles.lean ====
section
/-! DEFINITION. Huddles: joining, leaving, arrivals, phases, departures and results (spec/20_huddles.md). -/

namespace Sys2Proof.Machine

/-! ### Instructions -/

/-- A thread's arrival is outstanding: its request, its arrival at the home or its notice is under way (R315). -/
def State.arrivalOutstanding (s : State) (c : Slot) (name : Word) : Bool :=
  let ctx := c.owner.getD 0
  s.hreqs.any (fun r => r.ctx == ctx && r.thread == c.thread && r.name == name && (match r.kind with
    | .arrive _ => true
    | _ => false)) ||
  s.hnotes.any (fun n => n.ctx == ctx && n.thread == c.thread && n.name == name) ||
  s.huddles.any (fun h => h.root == s.rootOf c && h.name == name &&
    h.members.any (fun m => m.ctx == ctx && m.thread == c.thread && m.arrived.isSome && !m.leaving && !m.gone))

/-- Set a handle register. -/
def Slot.setHandle (c : Slot) (h : Nat) (v : Option Handle) : Slot := { c with handles := c.handles.setIfInBounds h v }

/-- The arrival goes to the home, and the thread waits for the phase where the instruction waits (R323). -/
def sendArrival (s : State) (c : Slot) (d : Reg5) (h : Nat) (x : Handle) (inp : HInput) (wait : Bool) : Out :=
  let (s, c) := released s c .dev
  let s := s.sendHuddle c x.name (.arrive inp)
  let c := c.setHandle h (some { x with due := none })
  if wait then waitOn s c (.hphase d h (inp.tag != 0)) else done s c

/-- An arrival: while the last one is outstanding, the thread waits first (R315). -/
def arrive (s : State) (c : Slot) (d : Reg5) (h : Nat) (x : Handle) (inp : HInput) (wait : Bool) : Out :=
  if s.arrivalOutstanding c x.name then waitOn s c (.harrive d h inp wait)
  else sendArrival s c.ready d h x inp wait

/-- No input. -/
def HInput.nothing : HInput := { tag := 0, val := 0 }

/-- HJOIN: the handle must be declared and not valid; the request goes to the home (R311, R322). -/
def execHjoin (d a : Reg5) (t x : Bool) (h : BitVec 2) (s : State) : Out :=
  if s.cur.decl.huddles ≤ h.toNat ∨ (s.cur.handle h.toNat).isSome then trap s s.cur .handle (BitVec.ofNat 64 h.toNat)
  else withSrc1 s a (fun nm c =>
    withDest s c d (fun _ => waitOn (s.sendHuddle c nm (.join x)) c (.hjoin d h.toNat nm t)))

/-- HLEAVE: the handle is invalid at once (R314); its arrival releases (R323). -/
def execHleave (h : BitVec 2) (s : State) : Out :=
  withHandle s h (fun x =>
    let (s, c) := released s s.cur .dev
    done (s.sendHuddle c x.name .leave) (c.setHandle h.toNat none))

/-- HBAR (R323). -/
def execHbar (h : BitVec 2) (s : State) : Out := withHandle s h (fun x => arrive s s.cur 0 h.toNat x HInput.nothing true)

/-- HARRV (R323). -/
def execHarrv (h : BitVec 2) (s : State) : Out := withHandle s h (fun x => arrive s s.cur 0 h.toNat x HInput.nothing false)

/-- A wait that has completed updates SHORT and DEP (R323). -/
def Handle.took (x : Handle) : Handle :=
  match x.due with
  | some (sh, dp) => { x with short := sh, dep := dp, due := none }
  | none => x

/-- HWAIT: with no outstanding arrival it completes at once (R315, R323). -/
def execHwait (h : BitVec 2) (s : State) : Out :=
  withHandle s h (fun x =>
    if s.arrivalOutstanding s.cur x.name then waitOn s s.cur (.hphase 0 h.toNat false)
    else done s (s.cur.setHandle h.toNat (some x.took)))

/-- The tag of an HVOTE selector (Table 20-4). -/
def voteTag : VoteSel → Nat
  | .any => 1
  | .all => 2
  | .eq => 3

/-- The tag of an HRED selector (Table 20-4). -/
def redTag : RedSel → Nat
  | .addI64 => 4
  | .minI64 => 5
  | .maxI64 => 6
  | .addF32 => 7

/-- The input of a tag from the register's value (R318). -/
def inputOf (tag : Nat) (v : Word) : Word :=
  match tag with
  | 1 | 2 => if v != 0 then 1 else 0
  | 7 => (v.setWidth 32).setWidth 64
  | _ => v

/-- HVOTE (R318, R323). -/
def execHvote (d a : Reg5) (sel : VoteSel) (h : BitVec 2) (s : State) : Out :=
  withHandle s h (fun x => withSrc1 s a (fun v c =>
    withDest s c d (fun _ => arrive s c d h.toNat x { tag := voteTag sel, val := inputOf (voteTag sel) v } true)))

/-- HRED (R318, R323). -/
def execHred (d a : Reg5) (sel : RedSel) (h : BitVec 2) (s : State) : Out :=
  withHandle s h (fun x => withSrc1 s a (fun v c =>
    withDest s c d (fun _ => arrive s c d h.toNat x { tag := redTag sel, val := inputOf (redTag sel) v } true)))

/-- HINFO: the request goes to the home (R324). -/
def execHinfo (d : Reg5) (h : BitVec 2) (s : State) : Out :=
  withHandle s h (fun x => withDest s s.cur d (fun _ => waitOn (s.sendHuddle s.cur x.name .info) s.cur (.hinfo d h.toNat)))

/-! ### Homes and entries -/

/-- The home die of a name, by the dies of the family's reservations (R309). -/
def State.huddleHome (s : State) (root : Nat) (name : Word) : Nat :=
  match s.fams.find? (fun f => f.root == root) with
  | none => 0
  | some f =>
    let h := leNat (shake256 (leBytes 2 root ++ leBytes 8 name.toNat) 8)
    (f.dies[h % max 1 f.dies.length]?).getD 0

/-- The entry of a name in a family (R308). -/
def State.entryOf (s : State) (root : Nat) (name : Word) : Option Huddle :=
  s.huddles.find? (fun h => h.root == root && h.name == name)

/-- Put an entry back; one with no member and no pending joiner is freed (R310). -/
def State.setEntry (s : State) (h : Huddle) : State :=
  let same := fun g : Huddle => g.root == h.root && g.name == h.name
  if h.members.isEmpty then { s with huddles := s.huddles.filter (fun g => !same g) }
  else { s with huddles := updKey same h s.huddles }

/-- The order of ranks: CTX.ID, then THREAD (R316). -/
def memberBefore (a b : HMember) : Bool := decide (a.ctx < b.ctx) || (a.ctx == b.ctx && decide (a.thread < b.thread))

/-- Insert a member by rank. -/
def insertMember (m : HMember) : List HMember → List HMember
  | [] => [m]
  | x :: xs => if memberBefore m x then m :: x :: xs else x :: insertMember m xs

/-- Members in rank order (R316). -/
def rankSort (ms : List HMember) : List HMember := ms.foldr insertMember []

/-- The members of the entry's phase (R312). -/
def Huddle.present (h : Huddle) : List HMember := rankSort (h.members.filter (fun m => decide (m.joined ≤ h.phase)))

/-- The combination of the inputs of a tag, in rank order, with the flags it raises (R318). -/
def combine (tag : Nat) (vs : List Word) : Word × BitVec 5 :=
  match vs with
  | [] => (0, 0)
  | v :: rest =>
    match tag with
    | 1 => (if vs.any (fun x => x != 0) then 1 else 0, 0)
    | 2 => (if vs.all (fun x => x != 0) then 1 else 0, 0)
    | 3 => (if rest.all (fun x => x == v) then 1 else 0, 0)
    | 4 => (rest.foldl (fun a x => a + x) v, 0)
    | 5 => (rest.foldl (fun a x => if x.slt a then x else a) v, 0)
    | 6 => (rest.foldl (fun a x => if a.slt x then x else a) v, 0)
    | 7 =>
      let f := fmtF32
      let r := rest.foldl (fun (a : Nat × BitVec 5) x =>
        let y := f.addV .rne (f.decode a.1) (f.decode (x.toNat % 2 ^ 32))
        (y.1, a.2 ||| y.2)) (v.toNat % 2 ^ 32, 0)
      (BitVec.ofNat 64 r.1, r.2)
    | _ => (0, 0)

/-- Phase p completes: the notices of its arrivals, and the entry in phase p + 1 (R312). -/
def Huddle.next (h : Huddle) : Huddle × List HNote :=
  let ms := h.present
  let result := fun t : Nat => combine t (ms.filterMap (fun m => match m.arrived with
    | some i => if i.tag == t then some i.val else none
    | none => none))
  let notes := ms.filterMap (fun m => match m.arrived with
    | some i =>
      if m.gone || m.leaving then none
      else
        let r := result i.tag
        some { ctx := m.ctx, thread := m.thread, slot := m.slot, reply := false, name := h.name, value := r.1, flags := r.2, short := h.dep != 0, dep := h.dep : HNote }
    | none => none)
  let keep := h.members.filter (fun m => decide (h.phase < m.joined) || (!m.leaving && !m.gone))
  ({ h with phase := h.phase + 1, dep := 0,
            members := keep.map (fun m => if m.joined ≤ h.phase then { m with arrived := none, next := h.phase + 1 } else m) },
    notes)

/-- Complete every phase that can complete, at most n of them. -/
def settleHuddle : Nat → Huddle → Huddle × List HNote
  | 0, h => (h, [])
  | n + 1, h =>
    if !h.members.isEmpty && h.present.all (fun m => m.arrived.isSome || m.gone) then
      let (h1, ns) := h.next
      let (h2, ms) := settleHuddle n h1
      (h2, ns ++ ms)
    else (h, [])

/-- Put an entry back after its phases have completed; the notices leave for their members (R320). -/
def State.settleEntry (s : State) (h : Huddle) : State :=
  let (h', ns) := settleHuddle 3 h
  let s := s.setEntry h'
  { s with hnotes := s.hnotes ++ ns }

/-- The status of a join (Table 20-2). -/
def State.joinStatus (s : State) (r : HReq) (excl : Bool) : Nat :=
  let quota := ((s.ctxAt r.ctx).map (fun x => x.res.huddles)).getD 0
  match s.entryOf r.root r.name with
  | some h =>
    if excl then 1
    else if 1024 ≤ h.members.length then 4
    else if h.members.any (fun m => m.ctx == r.ctx && m.thread == r.thread && !m.leaving && !m.gone) then 5
    else 0
  | none =>
    if quota ≤ (s.huddles.filter (fun h => h.charged == r.ctx)).length then 2
    else
      let home := s.huddleHome r.root r.name
      let (q, n) := match s.fams.find? (fun f => f.root == r.root) with
        | some f => (f.quota, max 1 f.dies.length)
        | none => (0, 1)
      if ceilDiv q n ≤ (s.huddles.filter (fun h => h.root == r.root && h.home == home)).length then 3 else 0

/-- A new member whose membership takes effect at a phase (R313). -/
def HReq.member (r : HReq) (p : Nat) : HMember :=
  { ctx := r.ctx, thread := r.thread, slot := r.slot, joined := p, next := p, arrived := none, leaving := false, gone := false }

/-- The k-th request may be handled: no earlier request of its slot to that huddle is under way, and what it releases
has been done (R312, R241). -/
def State.hreqReady (s : State) (k : Nat) (r : HReq) : Bool :=
  !((s.hreqs.take k).any (fun q => q.slot == r.slot && q.name == r.name)) &&
    (match r.kind with
      | .arrive _ | .leave => !s.earlierPending r.slot r.seq
      | _ => true)

/-- Take the k-th request off the path. -/
def State.dropHreq (s : State) (k : Nat) : State := { s with hreqs := s.hreqs.take k ++ s.hreqs.drop (k + 1) }

/-- A reply to a request. -/
def HReq.reply (r : HReq) (v : Word) : HNote :=
  { ctx := r.ctx, thread := r.thread, slot := r.slot, reply := true, name := r.name, value := v, flags := 0, short := false, dep := 0 }

/-- HUDDLE_JOIN_HANDLED: the home handles the k-th request, a join (R313, R322). -/
def execHuddleJoinHandled (k : Nat) (s : State) : Out :=
  match s.hreqs[k]? with
  | none => notNow "HUDDLE_JOIN_HANDLED"
  | some r => match r.kind with
    | .join excl =>
      if !s.hreqReady k r then notNow "HUDDLE_JOIN_HANDLED"
      else
        let st := s.joinStatus r excl
        let s := s.dropHreq k
        let s := { s with hnotes := s.hnotes ++ [r.reply (BitVec.ofNat 64 st)] }
        if st ≠ 0 then .next s
        else match s.entryOf r.root r.name with
          | some h => .next (s.settleEntry { h with members := h.members ++ [r.member (h.phase + 1)] })
          | none => .next (s.setEntry { root := r.root, name := r.name, home := s.huddleHome r.root r.name, phase := 0,
                                        charged := r.ctx, dep := 0, members := [r.member 0] })
    | _ => notNow "HUDDLE_JOIN_HANDLED"

/-- Change the standing membership of a thread. -/
def Huddle.updMember (h : Huddle) (ctx thread : Nat) (f : HMember → HMember) : Huddle :=
  { h with members := h.members.map (fun m =>
      if m.ctx == ctx && m.thread == thread && !m.leaving && !m.gone then f m else m) }

/-- HUDDLE_ARRIVAL_HANDLED: the home counts the arrival for the member's phase (R312). -/
def execHuddleArrivalHandled (k : Nat) (s : State) : Out :=
  match s.hreqs[k]? with
  | none => notNow "HUDDLE_ARRIVAL_HANDLED"
  | some r => match r.kind with
    | .arrive inp =>
      if !s.hreqReady k r then notNow "HUDDLE_ARRIVAL_HANDLED"
      else
        let s := (s.dropHreq k).count r.ctx 0 0xC5 1
        match s.entryOf r.root r.name with
        | none => .next s
        | some h => .next (s.settleEntry (h.updMember r.ctx r.thread (fun m => { m with arrived := some inp })))
    | _ => notNow "HUDDLE_ARRIVAL_HANDLED"

/-- HUDDLE_LEAVE_HANDLED: with no outstanding arrival the leave counts as one; the member goes at the end of its
phase (R314). -/
def execHuddleLeaveHandled (k : Nat) (s : State) : Out :=
  match s.hreqs[k]? with
  | none => notNow "HUDDLE_LEAVE_HANDLED"
  | some r => match r.kind with
    | .leave =>
      if !s.hreqReady k r then notNow "HUDDLE_LEAVE_HANDLED"
      else
        let s := s.dropHreq k
        match s.entryOf r.root r.name with
        | none => .next s
        | some h => .next (s.settleEntry (h.updMember r.ctx r.thread (fun m =>
            { m with leaving := true, arrived := some (m.arrived.getD HInput.nothing) })))
    | _ => notNow "HUDDLE_LEAVE_HANDLED"

/-- The charge of an entry passes on when its context departs and has no member left (R310). -/
def Huddle.recharge (h : Huddle) (ctx : Nat) : Huddle :=
  let left := h.members.filter (fun m => !m.gone)
  if h.charged != ctx || left.any (fun m => m.ctx == ctx) then h
  else match (rankSort left).head? with
    | some m => { h with charged := m.ctx }
    | none => h

/-- A thread departs from an entry (R317). -/
def Huddle.depart (h : Huddle) (ctx thread : Nat) : Huddle :=
  let mine := fun m : HMember => m.ctx == ctx && m.thread == thread && !m.gone
  let early := fun m : HMember => mine m && (decide (h.phase < m.joined) || m.arrived.isNone)
  let missed := (h.members.filter (fun m => mine m && decide (m.joined ≤ h.phase) && m.arrived.isNone)).length
  { h with dep := h.dep + missed,
           members := (h.members.filter (fun m => !early m)).map (fun m => if mine m then { m with gone := true } else m) }

/-- A thread departs from every huddle it belongs to, and its requests and notices fall away (R317). -/
def State.departThread (s : State) (ctx thread : Nat) : State :=
  let mine := s.huddles.filter (fun h => h.members.any (fun m => m.ctx == ctx && m.thread == thread && !m.gone))
  let s := mine.foldl (fun (s : State) h => s.settleEntry ((h.depart ctx thread).recharge ctx)) s
  { s with hreqs := s.hreqs.filter (fun r => !(r.ctx == ctx && r.thread == thread)),
           hnotes := s.hnotes.filter (fun n => !(n.ctx == ctx && n.thread == thread)) }

/-- The charges of a context that departs pass on, of the entries in which it has no member (R310). -/
def State.passCharges (s : State) (ctx : Nat) : State := { s with huddles := s.huddles.map (fun h => h.recharge ctx) }

/-- The context's members depart: it is in ERROR or being reset, or it is gone (R317). -/
def State.departing (s : State) (ctx : Nat) : Bool :=
  match s.ctxAt ctx with
  | none => true
  | some x => match x.err with
    | some e => e.stopped
    | none => x.state == .error

/-- HUDDLE_DEPARTURE: a member whose context is in ERROR, being reset, or gone departs at its homes (R317). -/
def execHuddleDeparture (ctx thread : Nat) (s : State) : Out :=
  if s.departing ctx && s.huddles.any (fun h => h.members.any (fun m => m.ctx == ctx && m.thread == thread && !m.gone)) then
    .next (s.departThread ctx thread)
  else notNow "HUDDLE_DEPARTURE"

/-- The result of HINFO (Table 20-3). -/
def hinfoWord (h : Huddle) (x : Handle) (ctx thread : Nat) : Word :=
  let ms := h.present
  let rank := (ms.findIdx? (fun m => m.ctx == ctx && m.thread == thread && !m.leaving && !m.gone)).getD 0x3FF
  BitVec.ofNat 64 (h.phase % 2 ^ 24 * 2 ^ 40 + (if x.short then 2 ^ 39 else 0) + x.dep % 2 ^ 11 * 2 ^ 28 + rank * 2 ^ 11
    + ms.length % 2 ^ 11)

/-- HINFO_HANDLED: the home answers with the entry as it stands (R324). -/
def execHinfoHandled (k : Nat) (s : State) : Out :=
  match s.hreqs[k]? with
  | none => notNow "HINFO_HANDLED"
  | some r => match r.kind, (s.slotAt r.slot).wait with
    | .info, some (.hinfo _ h) =>
      if !s.hreqReady k r then notNow "HINFO_HANDLED"
      else
        let v := match s.entryOf r.root r.name, (s.slotAt r.slot).handle h with
          | some e, some x => hinfoWord e x r.ctx r.thread
          | _, _ => 0
        let s := s.dropHreq k
        .next { s with hnotes := s.hnotes ++ [r.reply v] }
    | _, _ => notNow "HINFO_HANDLED"

/-- A phase notice for a slot that does not wait: SHORT and DEP stand ready for the wait (R323). -/
def Slot.noteDue (c : Slot) (n : HNote) : Slot :=
  { c with handles := c.handles.map (fun h => match h with
      | some x => if x.name == n.name then some { x with due := some (n.short, n.dep) } else some x
      | none => none) }

/-- A notice reaches its slot (R320, R322 to R324). -/
def Slot.takeNote (c : Slot) (n : HNote) : Slot :=
  match n.reply, c.wait with
  | true, some (.hjoin d h name t) =>
    if n.value != 0 && t then c.waitFor (.trapped .handle (BitVec.ofNat 64 (h + 0x100 * n.value.toNat)))
    else
      c.waitFor (.doneWith d n.value
        (.phase 0 h (if n.value == 0 then some { name := name, short := false, dep := 0, due := none } else none)))
  | true, some (.hinfo d _) => c.waitFor (.done d n.value)
  | false, some (.hphase d h _) =>
    match c.handle h with
    | some x =>
      if x.name == n.name then
        c.waitFor (.doneWith d n.value (.phase n.flags h (some { x with short := n.short, dep := n.dep, due := none })))
      else c.noteDue n
    | none => c.noteDue n
  | false, _ => c.noteDue n
  | true, _ => c

/-- HUDDLE_NOTICE_ARRIVAL: the oldest reply or completion notice of a slot reaches its core, for the thread that it is
meant for (R320). -/
def execHuddleNoticeArrival (slot : Nat) (s : State) : Out :=
  match s.hnotes.find? (fun n => n.slot == slot) with
  | none => notNow "HUDDLE_NOTICE_ARRIVAL"
  | some n =>
    let s := { s with hnotes := dropFirst (fun m => m.slot == slot) s.hnotes }
    let c := s.slotAt slot
    if c.owner == some n.ctx && c.thread == n.thread then .next (s.setSlot (c.takeNote n)) else .next s

end Sys2Proof.Machine
end

