-- ==== Sys2Proof/Machine/Aes.lean ====
section
/-! DEFINITION. AES-XTS-256 over units of 64 bytes, under which device memory is stored. The spec names the cipher (R256);
its definition is taken from FIPS 197 and IEEE 1619 (PRESUMED, notes/assumptions/68.md). -/

namespace Sys2Proof.Machine

/-- The product of two elements of the field of 256, over the n lowest bits of the second. -/
def fieldMul : Nat → Nat → Nat → Nat
  | 0, _, _ => 0
  | n + 1, a, b =>
    let dbl := if a < 128 then 2 * a else (2 * a) ^^^ 0x11B
    (if b % 2 = 1 then a else 0) ^^^ fieldMul n dbl (b / 2)

/-- An element to a power. -/
def fieldPow (a : Nat) : Nat → Nat
  | 0 => 1
  | n + 1 => fieldMul 8 (fieldPow a n) a

/-- The substitution of a byte: its inverse, spread over five turns of itself. -/
def aesSub (b : Nat) : Nat :=
  let v := fieldPow b 254
  (upTo 5).foldl (fun acc k => acc ^^^ (v * 2 ^ k + v * 2 ^ k / 256) % 256) 0x63

/-- The substitution undone. -/
def aesUnsub (b : Nat) : Nat := ((upTo 256).find? (fun x => aesSub x == b)).getD 0

/-- Byte i of a block or a key. -/
def at16 (xs : List Nat) (i : Nat) : Nat := xs.getD i 0

/-- Two blocks added. -/
def addBytes (a b : List Nat) : List Nat := (a.zip b).map (fun e => e.1 ^^^ e.2)

/-- A block whose byte in row r of column c is f r c. -/
def blockOf (f : Nat → Nat → Nat) : List Nat := (upTo 16).map (fun i => f (i % 4) (i / 4))

/-- The key schedule so far, with its next word of four bytes. -/
def aesExtend (w : List (List Nat)) (i : Nat) : List (List Nat) :=
  let t := w.getD (i - 1) []
  let t := if i % 8 = 0 then addBytes ((t.drop 1 ++ t.take 1).map aesSub) [fieldPow 2 (i / 8 - 1), 0, 0, 0]
    else if i % 8 = 4 then t.map aesSub else t
  w ++ [addBytes (w.getD (i - 8) []) t]

/-- The fifteen round keys of a key of 32 bytes. -/
def aesKeys (key : List Nat) : List (List Nat) :=
  let w := (upTo 52).foldl (fun w i => aesExtend w (i + 8)) ((upTo 8).map (fun i => (key.drop (4 * i)).take 4))
  (upTo 15).map (fun r => ((w.drop (4 * r)).take 4).flatMap (fun x => x))

/-- Every column of a block through a circulant matrix, given by its first row. -/
def aesMix (m b : List Nat) : List Nat :=
  blockOf (fun r c => (upTo 4).foldl (fun acc k => acc ^^^ fieldMul 8 (at16 b (4 * c + k)) (at16 m ((k + 4 - r) % 4))) 0)

/-- Substitution, and row r turned by r columns. -/
def aesRows (b : List Nat) : List Nat := blockOf (fun r c => aesSub (at16 b (4 * ((c + r) % 4) + r)))

/-- The same undone. -/
def aesUnrows (b : List Nat) : List Nat := blockOf (fun r c => aesUnsub (at16 b (4 * ((c + 4 - r) % 4) + r)))

/-- A block enciphered under a key. -/
def aesBlock (key b : List Nat) : List Nat :=
  let ks := aesKeys key
  let b := (upTo 13).foldl (fun b r => addBytes (aesMix [2, 3, 1, 1] (aesRows b)) (ks.getD (r + 1) [])) (addBytes b (ks.getD 0 []))
  addBytes (aesRows b) (ks.getD 14 [])

/-- A block deciphered under a key. -/
def aesUnblock (key b : List Nat) : List Nat :=
  let ks := aesKeys key
  let b := (upTo 13).foldl (fun b r => aesMix [14, 11, 13, 9] (addBytes (aesUnrows b) (ks.getD (13 - r) []))) (addBytes b (ks.getD 14 []))
  addBytes (aesUnrows b) (ks.getD 0 [])

/-- The numbers of some bytes. -/
def natsOf (bs : List Byte) : List Nat := bs.map (fun b => b.toNat)

/-- A key of 64 bytes. One of fewer, as R339 gives a child, is filled up by a free value (notes/assumptions/68.md). -/
def fullKey (key : List Byte) : List Byte := if key.length < 64 then key ++ Config.keyTail key else key

/-- The mask of a unit's block j: the enciphered tweak, doubled j times. -/
def xtsMask (key : List Byte) (tweak : Word) (j : Nat) : List Nat :=
  let t := leNat ((aesBlock (natsOf ((key.drop 32).take 32)) (natsOf (leBytes 16 tweak.toNat))).map (BitVec.ofNat 8))
  let dbl := fun (v : Nat) => if v < 2 ^ 127 then 2 * v else (2 * v) % 2 ^ 128 ^^^ 0x87
  natsOf (leBytes 16 ((upTo j).foldl (fun v _ => dbl v) t))

/-- The four blocks of a unit through a cipher under the key's first half, between two masks. -/
def xtsUnit (cipher : List Nat → List Nat → List Nat) (key : List Byte) (tweak : Word) (bytes : List Byte) : List Byte :=
  let k := fullKey key
  (upTo 4).flatMap (fun j =>
    let m := xtsMask k tweak j
    (addBytes (cipher (natsOf (k.take 32)) (addBytes (natsOf ((bytes.drop (16 * j)).take 16)) m)) m).map (BitVec.ofNat 8))

/-- The ciphertext of a 64-byte unit: key, tweak, plaintext (R256). -/
def xtsEncrypt (key : List Byte) (tweak : Word) (bytes : List Byte) : List Byte := xtsUnit aesBlock key tweak bytes

/-- The plaintext of a 64-byte unit. -/
def xtsDecrypt (key : List Byte) (tweak : Word) (bytes : List Byte) : List Byte := xtsUnit aesUnblock key tweak bytes

end Sys2Proof.Machine
end

