-- ==== Sys2Proof/Machine/Loader.lean ====
section
/-! DEFINITION. Code objects: the GXO layout, the relocations and the loader (spec/25_code_objects_and_loading.md R364
to R372); and the installation of keys (R256, R408). -/

namespace Sys2Proof.Machine

/-- A little-endian number of n bytes at an offset of some bytes. -/
def arrNat (a : Array Byte) (off : Nat) : Nat → Nat
  | 0 => 0
  | n + 1 => (a.getD off 0).toNat + 256 * arrNat a (off + 1) n

/-- A 64-bit word at an offset. -/
def arrWord (a : Array Byte) (off : Nat) : Word := BitVec.ofNat 64 (arrNat a off 8)

/-- n bytes at an offset are zero. -/
def arrZero (a : Array Byte) (off n : Nat) : Bool := (upTo n).all (fun i => a.getD (off + i) 0 == 0)

/-- Write a little-endian number of n bytes. -/
def arrSet (a : Array Byte) (off v : Nat) : Nat → Array Byte
  | 0 => a
  | n + 1 => arrSet (a.setIfInBounds off (BitVec.ofNat 8 v)) (off + 1) (v / 256) n

/-- Round up to 64 KiB. -/
def unitUp (n : Nat) : Nat := ceilDiv n 65536 * 65536

/-- The link address of .text (R365). -/
def textLink : Nat := 0x1000000000000

/-- A reason and an index of Table 25-5. -/
abbrev LoadError := Nat × Nat

/-- The index of a layout error (Table 25-5). -/
def noIndex : Nat := 0xFFFFFFFF

/-- The parts of an object: the counts of its header, the sizes of its sections, and where its tables begin. -/
structure Gxo where
  bytes   : Array Byte
  kernels : Nat
  syms    : Nat
  recs    : Nat
  got     : Nat
  strs    : Nat
  sizes   : List Nat

/-- The first byte of the kernel table. -/
def Gxo.kernelAt (_g : Gxo) (i : Nat) : Nat := 160 + 128 * i

/-- The first byte of a symbol entry. -/
def Gxo.symAt (g : Gxo) (i : Nat) : Nat := 160 + 128 * g.kernels + 24 * i

/-- The first byte of a relocation record. -/
def Gxo.recAt (g : Gxo) (i : Nat) : Nat := 160 + 128 * g.kernels + 24 * g.syms + 24 * i

/-- The first byte of the section contents. -/
def Gxo.bodyAt (g : Gxo) : Nat := 160 + 128 * g.kernels + 24 * g.syms + 24 * g.recs + g.strs

/-- The size of a section, 1 .text, 2 .const, 3 .data. -/
def Gxo.size (g : Gxo) (sec : Nat) : Nat := g.sizes.getD (sec - 1) 0

/-- The offset of a section from the start of .text, as linked (R365). -/
def Gxo.secOff (g : Gxo) (sec : Nat) : Nat :=
  match sec with
  | 1 => 0
  | 2 => unitUp (g.size 1)
  | _ => unitUp (g.size 1) + unitUp (g.size 2)

/-- The first byte of a section in the object. -/
def Gxo.secFile (g : Gxo) (sec : Nat) : Nat :=
  match sec with
  | 1 => g.bodyAt
  | 2 => g.bodyAt + g.size 1
  | _ => g.bodyAt + g.size 1 + g.size 2

/-- The span of the code-object region (R369). -/
def Gxo.span (g : Gxo) : Nat := unitUp (g.size 1) + unitUp (g.size 2) + unitUp (g.size 3)

/-- The fields of an object's header and section table. -/
def gxoFields (bytes : List Byte) : Gxo :=
  let a := bytes.toArray
  { bytes := a, kernels := arrNat a 0x08 4, syms := arrNat a 0x0C 4, recs := arrNat a 0x10 4, got := arrNat a 0x14 4,
    strs := arrNat a 0x18 4, sizes := (upTo 3).map (fun i => arrNat a (64 + 32 * i + 8) 8) }

/-- The header and the section table keep their limits, and the parts follow one another to the stated length (R364,
R365). -/
def Gxo.headerOk (g : Gxo) : Bool :=
  let a := g.bytes
  let len := a.size
  decide (160 ≤ len) && decide (len ≤ 2 ^ 30) && arrNat a 0 4 == 0x424F5847 && arrNat a 4 2 == 1 && arrZero a 6 2 &&
    decide (1 ≤ g.kernels) && decide (g.kernels ≤ 256) && arrNat a 0x1C 4 == len && arrZero a 0x20 32 &&
    decide (8 * g.got ≤ g.size 3) &&
    [1, 2, 3].all (fun i =>
      let o := 64 + 32 * (i - 1)
      arrNat a o 8 == g.secFile i && decide (g.size i ≤ 2 ^ 28) && arrNat a (o + 16) 8 == textLink + g.secOff i &&
        arrZero a (o + 24) 8) &&
    g.secFile 3 + g.size 3 == len

/-- The symbol entries and records keep the limits of Table 25-3 that are no record's own (R367). -/
def Gxo.tablesOk (g : Gxo) : Bool :=
  let a := g.bytes
  (upTo g.syms).all (fun i =>
    let o := g.symAt i
    decide (arrNat a o 4 < g.strs) && decide (arrNat a (o + 4) 1 ≤ 4) && decide (arrNat a (o + 5) 1 ≤ 1) && arrZero a (o + 6) 2) &&
  (upTo g.recs).all (fun i => arrZero a (g.recAt i + 10) 2)

/-- A kernel header keeps the limits of Tables 25-2 and 3-5; `cores` is the number of cores of the grant. -/
def Gxo.kernelOk (g : Gxo) (cores i : Nat) : Bool :=
  let a := g.bytes
  let o := g.kernelAt i
  let entry := arrNat a (o + 0x18) 8
  let hand := arrNat a (o + 0x20) 8
  decide (arrNat a o 4 < g.syms) && decide (1 ≤ arrNat a (o + 4) 4) && decide (arrNat a (o + 4) 4 ≤ 7 * cores) &&
    decide (arrNat a (o + 8) 1 ≤ 32) && decide (arrNat a (o + 9) 1 ≤ 4) && decide (arrNat a (o + 10) 1 ≤ 8) &&
    arrZero a (o + 11) 1 && decide (arrNat a (o + 0x0C) 4 ≤ 262144) && arrNat a (o + 0x0C) 4 % 16 == 0 &&
    decide (arrNat a (o + 0x10) 4 ≤ 4194304) && arrNat a (o + 0x10) 4 % 16 == 0 && arrZero a (o + 0x14) 4 &&
    decide (entry < g.size 1) && entry % 4 == 0 &&
    (hand == 2 ^ 64 - 1 || (decide (hand < g.size 1) && hand % 4 == 0)) &&
    (upTo 8).all (fun w => winOk (arrWord a (o + 0x28 + 8 * w))) && arrZero a (o + 0x68) 24

/-- Steps 1 and 2 of a load: the object, well formed, or the reason (R368, Table 25-5). -/
def gxoParse (cores : Nat) (bytes : List Byte) : Except LoadError Gxo :=
  let g := gxoFields bytes
  if !g.headerOk || !g.tablesOk then .error (1, noIndex)
  else match (upTo g.kernels).find? (fun i => !g.kernelOk cores i) with
    | some i => .error (2, i)
    | none => .ok g

/-- A kernel header as loaded at a base (R366). -/
def Gxo.kernel (g : Gxo) (base : Word) (i : Nat) : Kernel :=
  let a := g.bytes
  let o := g.kernelAt i
  { threads := arrNat a (o + 4) 4,
    decl := { vregs := arrNat a (o + 8) 1, huddles := arrNat a (o + 9) 1, windows := arrNat a (o + 10) 1,
              coresp := arrNat a (o + 0x0C) 4, clussp := arrNat a (o + 0x10) 4 },
    entry := base + arrWord a (o + 0x18),
    handler := if arrWord a (o + 0x20) = BitVec.allOnes 64 then 0 else base + arrWord a (o + 0x20),
    wins := Vector.ofFn (fun (w : Fin 8) => arrWord a (o + 0x28 + 8 * w.val) &&& winMask) }

/-! ### Relocation (R370, Table 25-4) -/

/-- A relocation record. -/
structure Reloc where
  off  : Nat
  sec  : Nat
  type : Nat
  sym  : Nat
  add  : Int

/-- A record of an object. -/
def Gxo.reloc (g : Gxo) (i : Nat) : Reloc :=
  let a := g.bytes
  let o := g.recAt i
  { off := arrNat a o 8, sec := arrNat a (o + 8) 1, type := arrNat a (o + 9) 1, sym := arrNat a (o + 12) 4,
    add := sintN (arrNat a (o + 16) 8) 64 }

/-- The address S of a symbol at a slide, none where it is undefined (R368). -/
def Gxo.symAddr (g : Gxo) (slide : Int) (i : Nat) : Option Int :=
  let a := g.bytes
  let o := g.symAt i
  let v : Int := arrNat a (o + 8) 8
  if g.syms ≤ i then none
  else match arrNat a (o + 4) 1 with
    | 0 => none
    | 4 => some v
    | _ => some (v + slide)

/-- The link address of a symbol's GOT entry: the entry in the last bytes of .data whose ABS64 record names it (R367). -/
def Gxo.gotLink (g : Gxo) (sym : Nat) : Option Nat :=
  let lo := g.size 3 - 8 * g.got
  ((upTo g.recs).find? (fun i =>
    let r := g.reloc i
    r.type == 1 && r.sec == 3 && r.sym == sym && decide (lo ≤ r.off) && decide (r.off < g.size 3))).map
      (fun i => textLink + g.secOff 3 + (g.reloc i).off)

/-- hi(v) of R370. -/
def relHi (v : Int) : Int := (v + 0x800) / 4096

/-- lo(v) of R370. -/
def relLo (v : Int) : Int := v - relHi v * 4096

/-- The words that a type of record may target (Table 25-4). -/
def relForm (type : Nat) (w : Nat) : Bool :=
  let major := w / 2 ^ 26
  match type with
  | 2 => major == 4 && w / 2 ^ 20 % 2 == 0
  | 3 | 5 => [0x02, 0x08, 0x09, 0x0A, 0x0B, 0x0E, 0x10].contains major
  | 4 | 8 => major == 5 && w / 2 ^ 20 % 2 == 0
  | 6 => major == 0x0C
  | 7 => major == 0x0D
  | _ => false

/-- The width of the field that a type writes, from bit 0. -/
def relWidth (type : Nat) : Nat :=
  match type with
  | 1 => 64
  | 2 | 4 | 8 => 20
  | 3 | 5 => 12
  | 6 => 13
  | _ => 21

/-- The partner of a PCLO12: a record of type 4 or 8 on the word before, naming the same symbol and addend. -/
def Gxo.partner (g : Gxo) (r : Reloc) : Option Reloc :=
  if r.off < 4 then none
  else ((upTo g.recs).map g.reloc).find? (fun p =>
    (p.type == 4 || p.type == 8) && p.sec == r.sec && p.off + 4 == r.off && p.sym == r.sym && p.add == r.add)

/-- The value that a record writes, untruncated, and whether it overflows; or the reason (Tables 25-4, 25-5). -/
def Gxo.relValue (g : Gxo) (slide : Int) (r : Reloc) (s p : Int) : Except Nat (Int × Bool) :=
  let got := (g.gotLink r.sym).map (fun l => (l : Int) + slide)
  let high := fun (v : Int) => (relHi v, decide (relHi v < -0x80000) || decide (0x7FFFF < relHi v))
  let jump := fun (v : Int) (lim : Int) => (v / 4, v % 4 != 0 || decide (v / 4 < -lim) || decide (lim ≤ v / 4))
  match r.type with
  | 1 => .ok (s + r.add, false)
  | 2 => .ok (high (s + r.add))
  | 3 => .ok (relLo (s + r.add), false)
  | 4 => .ok (high (s + r.add - p))
  | 5 => match g.partner r with
    | none => .error 4
    | some q =>
      if q.type = 4 then .ok (relLo (s + r.add - (p - 4)), false)
      else if r.add ≠ 0 then .error 4
      else match got with
        | none => .error 4
        | some e => .ok (relLo (e - (p - 4)), false)
  | 6 => .ok (jump (s + r.add - p) 4096)
  | 7 => .ok (jump (s + r.add - p) (2 ^ 20))
  | _ =>
    if r.add ≠ 0 then .error 4
    else match got with
      | none => .error 4
      | some e => .ok (high (e - p))

/-- The section contents while the records are applied. -/
abbrev Secs := List (Array Byte)

/-- Apply record i, or the reason (R370). -/
def Gxo.applyRec (g : Gxo) (slide : Int) (secs : Secs) (i : Nat) : Except Nat Secs :=
  let r := g.reloc i
  match g.symAddr slide r.sym with
  | none => .error 3
  | some s =>
    if r.type = 0 ∨ 8 < r.type ∨ r.sec = 0 ∨ 3 < r.sec then .error 4
    else
      let body := secs.getD (r.sec - 1) #[]
      let n := if r.type = 1 then 8 else 4
      if r.off % n ≠ 0 ∨ body.size < r.off + n then .error 4
      else
        let w := arrNat body r.off n
        let k := relWidth r.type
        if (r.type ≠ 1 ∧ !relForm r.type w) ∨ w % 2 ^ k ≠ 0 then .error 4
        else
          let p : Int := textLink + g.secOff r.sec + r.off + slide
          match g.relValue slide r s p with
          | .error e => .error e
          | .ok (v, ovf) =>
            if ovf then .error 5
            else .ok (setNth secs (r.sec - 1) (arrSet body r.off (w + truncN v k) n))

/-- Apply some records in ascending index; the first that fails rejects the load (R368, R371). -/
def Gxo.applyAll (g : Gxo) (slide : Int) : List Nat → Secs → Except LoadError Secs
  | [], secs => .ok secs
  | i :: is, secs => match g.applyRec slide secs i with
    | .error e => .error (e, i)
    | .ok t => g.applyAll slide is t

/-- The contents of a section as presented. -/
def Gxo.secBytes (g : Gxo) (sec : Nat) : Array Byte := g.bytes.extract (g.secFile sec) (g.secFile sec + g.size sec)

/-- A loaded object: section contents in order, and kernel headers (R368). -/
structure Loaded where
  secs    : Secs
  kernels : List Kernel

/-- Load an object with .text at a base (R368). -/
def Gxo.load (g : Gxo) (base : Nat) : Except LoadError Loaded :=
  match g.applyAll ((base : Int) - (textLink : Int)) (upTo g.recs) [g.secBytes 1, g.secBytes 2, g.secBytes 3] with
  | .error e => .error e
  | .ok secs => .ok { secs := secs, kernels := (upTo g.kernels).map (g.kernel (BitVec.ofNat 64 base)) }

/-! ### The regions at the top of the grant (R251, R127, R159, Table 23-7) -/

/-- The bytes of a save area (Table 23-7). -/
def saveBytes (slots cores clusters shares coreB clusB huddles : Nat) : Nat :=
  65536 + 65536 * slots + cores * (16384 + ceilDiv (coreB * 129) 128) + clusters * ceilDiv (clusB * 129) 128
    + 65536 * shares + 16384 * huddles

/-- The regions of Table 16-1 for an object: none where the grant cannot hold them (R159). `spills` counts the cores
on which the context holds a slot. Each section's permissions fill whole 64 KiB units (R369). -/
def layoutOf (g : Gxo) (grant : Nat) (dies : List Nat) (save spills : Nat) : Option Layout :=
  let sv := unitUp save
  let top := g.span + sv + (sv + 65536) + 65536 * spills
  if grant < top then none
  else
    let b := grant - top
    some { g := grant, dies := dies, freeEnd := b, textOff := b, textSize := unitUp (g.size 1), constOff := b + g.secOff 2,
           constSize := unitUp (g.size 2), dataOff := b + g.secOff 3, dataSize := unitUp (g.size 3), saveOff := b + g.span,
           dumpOff := b + g.span + sv, spillOff := b + g.span + sv + (sv + 65536) }

/-- Put the loaded object into the context's code-object region, over zeroed pages (R252, R368). -/
def State.putCode (s : State) (ctx : Nat) (l : Layout) (o : Loaded) : State :=
  let inCode := fun (k : Nat) => keySpace k == Space.dev && keyUnit k == ctx && decide (l.textOff ≤ keyOff k) &&
    decide (keyOff k < l.saveOff)
  let put := fun (m : List Host.Cell) (off i : Nat) => putBytes m (keyOf Space.dev ctx off) ((o.secs.getD i #[]).toList)
  let m := s.mem.filter (fun (x : Host.Cell) => !inCode x.1)
  { s with mem := put (put (put m l.textOff 0) l.constOff 1) l.dataOff 2 }

/-! ### Keys (R256, R408) -/

/-- Under another key a context's stored units decrypt to other bytes (R256). -/
def State.rekey (s : State) (x : Ctx) (key : List Byte) : State :=
  (upTo (x.layout.g / 64)).foldl (fun (s : State) (u : Nat) =>
    let k := keyOf Space.dev x.id (64 * u)
    let tweak : Word := BitVec.ofNat 64 (0x1000000000000 + 64 * u)
    if x.lentAt (64 * u) then s
    else { s with mem := putBytes s.mem k (xtsDecrypt key tweak (xtsEncrypt x.key tweak (s.readHomeN k 64))) }) s

/-- A key slot takes a key in every controller, or none when it is zeroised; a zeroised slot stays with its context until it is
reclaimed (R157, R408). `Ctx.key` stays the key that the stored bytes are encrypted under. -/
def State.installKey (s : State) (slot ctx : Nat) (key : Option (List Byte)) : State :=
  let rest := s.keys.filter (fun e => e.slot != slot)
  let s := { s with keys := rest ++ [({ slot := slot, ctx := ctx, key := key.getD [] } : KeySlot)] }
  match s.ctxAt ctx with
  | some x =>
    let s := s.setCtx { x with key := key.getD x.key, keyValid := key.isSome }
    match key with
    | some k => if k = x.key then s else s.rekey x k
    | none => s
  | none => s

end Sys2Proof.Machine
end

