-- ==== Sys2Proof/Machine/Movement.lean ====
section
/-! DEFINITION. The caddie, copy channels, halo exchange, multicast, gathers, collectives and messages
(spec/18_movement_engines_and_messages.md). -/

namespace Sys2Proof.Machine

/-! ### Checks at issue (R290) -/

/-- The own regions and holes below the logical windows (Table 12-1). -/
def lowHole (a : Nat) : Bool :=
  (decide (0x40000 ≤ a) && decide (a < 0x100000)) || (decide (0x300000 ≤ a) && decide (a < 0x1000000)) ||
    (decide (0x1400000 ≤ a) && decide (a < 0x100000000))

/-- The check of a descriptor or list of n bytes in the own core scratchpad (R290, step 2). -/
def descCheck (x : Ctx) (c : Slot) (va : Word) (align n : Nat) : Option Refused :=
  let a := va.toNat
  if 2 ^ 57 ≤ a then some (.canon, va)
  else if a % align ≠ 0 then some (.misalign, va)
  else if a < 0x40000 then
    if a + n ≤ coreBound x c then none else some (.bounds, BitVec.ofNat 64 (max a (coreBound x c)))
  else if lowHole a then some (.bounds, va)
  else some (.perm, va)

/-- A location as an engine of the issuing slot resolves it, with translation (R290, R255). -/
def engResolve (s : State) (x : Ctx) (c : Slot) (va : Word) (write : Bool) : Except Refused Nat :=
  let a := va.toNat
  if 2 ^ 57 ≤ a then .error (.canon, va)
  else if 0x100000 ≤ a ∧ a < 0x300000 then .error (.perm, va)
  else resolveCtx s x c va (if write then .engWrite else .engRead)

/-- The region of Table 12-1 that an address lies in; windows are told apart by number and part. -/
def regionOf (a : Nat) : Nat × Nat × Nat :=
  if a < 0x40000 then (0, 0, 0)
  else if a < 0x1000000 then (1, 0, 0)
  else if a < 0x1400000 then (2, 0, 0)
  else if a < 0x100000000 then (3, 0, 0)
  else if a < 0x200000000 then (4, a / 0x1000000, a % 0x1000000 / 0x40000 / 16)
  else if a < 0x1000000000000 then (5, a / 0x1000000, a % 0x1000000 / 0x400000)
  else if a < 0x100000000000000 then (6, 0, 0)
  else (7, 0, 0)

/-- One byte's check at issue: translation of device memory and of system space is left to the transfer (R290). -/
def issueCheck (s : State) (x : Ctx) (c : Slot) (va : Word) (write : Bool) : Option Refused :=
  let a := va.toNat
  if 2 ^ 57 ≤ a then some (.canon, va)
  else if 0x1000000000000 ≤ a then none
  else match engResolve s x c va write with
    | .error r => some r
    | .ok _ => none

/-- The end of the unit of Table 12-1 that an address lies in: its region, its core or cluster of a window, or its slot of
a pool image. -/
def unitEnd (a : Nat) : Nat :=
  if a < 0x40000 then 0x40000
  else if a < 0x1000000 then 0x1000000
  else if a < 0x1400000 then 0x1400000
  else if a < 0x100000000 then 0x100000000
  else if a < 0x200000000 then
    (if a % 0x1000000 < 0x400000 then (a / 0x400000 + 1) * 0x400000 else (a / 0x4000 + 1) * 0x4000)
  else if a < 0x1000000000000 then (a / 0x400000 + 1) * 0x400000
  else 0x100000000000000

/-- The first byte of a unit that fails, between one that passes and one that fails, by halving. -/
def bisect (fails : Word → Bool) : Nat → Word → Word → Word
  | 0, _, hi => hi
  | n + 1, lo, hi =>
    if hi.toNat ≤ lo.toNat + 1 then hi
    else
      let m := BitVec.ofNat 64 ((lo.toNat + hi.toNat) / 2)
      if fails m then bisect fails n lo m else bisect fails n m hi

/-- The refusal of a range whose first byte passes and whose last byte fails a check: TVAL names its first byte that fails
(R207). -/
def firstFailing (check : Word → Option Refused) (va last : Word) : Option Refused :=
  let fails := fun (a : Word) => (check a).isSome
  let e := unitEnd va.toNat
  let hi := (([BitVec.ofNat 64 (e - 1), BitVec.ofNat 64 e] : List Word).find? (fun a => decide (a.toNat < last.toNat) && fails a)).getD last
  check (bisect fails 64 va hi)

/-- A check of the first and the last of n bytes at an address (R290, step 5). -/
def spanCheck (check : Word → Option Refused) (va : Word) (n : Nat) : Option Refused :=
  let last := va + BitVec.ofNat 64 (n - 1)
  match check va with
  | some r => some r
  | none => match check last with
    | some r => if last.toNat < va.toNat then some r else firstFailing check va last
    | none => none

/-- A range's check at issue: its first and last byte, in one region that permits the transfer (R290, step 5). `own`
asks for the own core or cluster scratchpad. -/
def rangeCheck (s : State) (x : Ctx) (c : Slot) (va : Word) (n : Nat) (write own : Bool) : Option Refused :=
  if n = 0 then none
  else match spanCheck (fun a => issueCheck s x c a write) va n with
    | some r => some r
    | none =>
      let last := va + BitVec.ofNat 64 (n - 1)
      let g := (regionOf va.toNat).1
      if own && g != 0 && g != 2 then some (.perm, va)
      else if regionOf va.toNat != regionOf last.toNat then some (.perm, last)
      else none

/-- The first refusal of some checks. -/
def firstSome {α : Type} : List (Option α) → Option α
  | [] => none
  | some r :: _ => some r
  | none :: rs => firstSome rs

/-- MISALIGN for a value that must be a multiple of 16 (R290, step 4). The chapter names no address among such values: the model
asks it of those from and to which granules move (the model's choice, notes/assumptions/72.md). -/
def mis16 (w : Word) : Option Refused := if w.toNat % 16 ≠ 0 then some (.misalign, w) else none

/-- QUEUE with a reason of Table 18-3, where it applies. -/
def reason (b : Bool) (n : Nat) : Option Refused := if b then some (.queue, BitVec.ofNat 64 n) else none

/-- An address moved by a row number and a stride. -/
def rowAddr (base : Word) (stride : Int) (i : Nat) : Word := base + BitVec.ofInt 64 (stride * i)

/-- The checks of the first and last rows of a range, which lie in one region (R290, R291). -/
def rowsCheck (s : State) (x : Ctx) (c : Slot) (base : Word) (stride : Int) (rows len : Nat) (write : Bool) :
    List (Option Refused) :=
  let last := rowAddr base stride (rows - 1)
  [rangeCheck s x c base len write false, rangeCheck s x c last len write false,
    if regionOf base.toNat != regionOf last.toNat then some (.perm, last) else none]

/-- Words of a descriptor in the own core scratchpad, as a load of the issuing core reads them. -/
def descWord (s : State) (x : Ctx) (c : Slot) (va : Word) (i : Nat) : Word :=
  leWord (s.readCoreN (coreOf c.phys) (keyOf Space.core (shareUnit (coreOf c.phys) x.id) (va.toNat + 8 * i)) 8)

/-- The locations of n bytes of a descriptor or a list in the own core scratchpad. -/
def descKeys (x : Ctx) (c : Slot) (va : Word) (n : Nat) : List Nat :=
  spanKeys (keyOf Space.core (shareUnit (coreOf c.phys) x.id) va.toNat) n

/-- Runs of locations within aligned 64 bytes: the first of each, and how many follow one another. -/
def blockRuns : List Nat → List (Nat × Nat)
  | [] => []
  | k :: ks => match blockRuns ks with
    | (q, n) :: rest => if k / 64 = q / 64 then (k, n + 1) :: rest else (k, 1) :: (q, n) :: rest
    | [] => [(k, 1)]

/-- Charge and count what an engine, or the issue of a request, reads or writes: an access for each run (Tables 26-1, 26-5). -/
def State.noteBlocks (s : State) (ctx : Nat) (ks : List Nat) (write : Bool) : State :=
  (blockRuns ks).foldl (fun (s : State) r => s.noteAccess ctx r.1 r.2 write) s

/-- Go on once descriptors and lists, given as address and length, can be read at issue: their banks are awake (R214), and an
error in one takes the thread (R3). Their accesses are counted and charged (Tables 26-1, 26-5). -/
def withDesc (s : State) (x : Ctx) (c : Slot) (spans : List (Word × Nat)) (go : State → Out) : Out :=
  let ks := spans.flatMap (fun e => descKeys x c e.1 e.2)
  if ks.any s.bankWaking then .next { s with cur := { s.cur with wait := some .bank, status := .waitMem } }
  else match spans.findSome? (fun e => (s.errorAt ((descKeys x c e.1 1).headD 0) e.2).map (fun m => (e.1, m))) with
    | some (va, m) => .next (fatalTrap s c .uncorr va c.ir m.place)
    | none => go (s.noteBlocks x.id ks false)

/-- The signed value of a 64-bit word. -/
def sword (w : Word) : Int := sintN w.toNat 64

/-! ### Channels -/

/-- Put a channel back. -/
def State.setChan (s : State) (h : Chan) : State :=
  { s with chans := updKey (fun g => g.core == h.core && g.ch == h.ch) h s.chans }

/-- Change a channel of a core. -/
def State.updChan (s : State) (core ch : Nat) (f : Chan → Chan) : State :=
  { s with chans := s.chans.map (fun h => if h.core == core && h.ch == ch then f h else h) }

/-- A range takes effect: nothing is filled (R292). -/
def Chan.start (h : Chan) (base : Word) (len : Nat) : Chan :=
  { h with base := if len = 0 then 0 else base, len := len, wm := if len = 0 then 0 else base, filled := [], next := none }

/-- Move the watermark over filled granules, at most n of them (R33). -/
def Chan.rise : Nat → Chan → Chan
  | 0, h => h
  | n + 1, h =>
    let g := h.wm.toNat / 16
    if h.wm.toNat < h.base.toNat + h.len ∧ h.filled.contains g then
      Chan.rise n { h with wm := BitVec.ofNat 64 (min (h.base.toNat + h.len) (16 * g + 16)), filled := h.filled.filter (fun k => k != g) }
    else h

/-- A granule written by a transfer on the channel, at a location (R288). -/
def Chan.fill (h : Chan) (k : Nat) : Chan :=
  let lo := h.key
  if 0 < h.len ∧ lo < k + 16 ∧ k < lo + h.len then
    let h := { h with filled := insertNat ((k + h.base.toNat - lo) / 16) h.filled }
    h.rise (h.filled.length + 1)
  else h

/-- Kinds that use a channel. -/
def XferKind.onChannel : XferKind → Bool
  | .cpy | .cpys | .gath => true
  | _ => false

/-- A transfer of a channel is under way (R292). -/
def State.chanBusy (s : State) (core ch : Nat) : Bool :=
  s.xfers.any (fun x => x.core == core && x.ch == ch && x.kind.onChannel)

/-- A waiting range takes effect once no transfer of the channel is under way (R33, R292). -/
def State.chanSettle (s : State) (core ch : Nat) : State :=
  if s.chanBusy core ch then s
  else s.updChan core ch (fun h => match h.next with
    | some (b, n) => h.start b n
    | none => h)

/-- CHWM (R292). -/
def execChwm (a b : Reg5) (ch : BitVec 3) (s : State) : Out :=
  withSrc2 s a b (fun base n c =>
    match s.ctxOf c, s.chanOf c ch.toNat with
    | some x, some h =>
      match firstSome [reason (decide (4194304 < n.toNat)) 3, mis16 base, mis16 n, rangeCheck s x c base n.toNat true true] with
      | some (cause, tval) => trap s c cause tval
      | none =>
        if s.chanBusy h.core h.ch then done (s.setChan { h with next := some (base, n.toNat) }) c
        else done (s.setChan (h.start base n.toNat)) c
    | _, _ => trap s c .queue 1)

/-- CPWAIT: until the pending count is at most the bound (R292). -/
def execCpwait (a : Reg5) (ch : BitVec 3) (s : State) : Out :=
  withSrc1 s a (fun v c =>
    match s.chanOf c ch.toNat with
    | none => trap s c .queue 1
    | some h => if h.pend ≤ v.toNat then done s c else waitOn s c (.cpwait ch.toNat v))

/-! ### Requests -/

/-- Kinds that the caddie serves. -/
def XferKind.byCaddie : XferKind → Bool
  | .gath => false
  | _ => true

/-- CODE of a kind (R284, Table 18-4). -/
def XferKind.code : XferKind → Nat
  | .cpy => 1
  | .cpys => 2
  | .halo => 3
  | .mcast => 4
  | .gath => 5

/-- A request with nothing set but its issuer and its operands. -/
def newXfer (kind : XferKind) (c : Slot) (ch : Nat) (words : List Word) : Xfer :=
  { id := 0, kind := kind, ctx := c.owner.getD 0, core := coreOf c.phys, slot := c.phys, decl := c.decl, entry := 0,
    words := BitVec.ofNat 64 (kind.code * 2 ^ 60 + ch * 2 ^ 57) :: words, seq := 0, ch := ch, src := 0, dst := 0, rows := 1,
    rowLen := 0, sstr := 0, dstr := 0, idx := 0, halos := [], dests := [], bytes := 0, landed := 0, status := 0,
    taken := false, begun := false,
    data := [], seen := 0, masks := (0, 0, 0) }

/-- The entry's four words. -/
def entryWords (ws : List Word) : Vector Word 4 := Vector.ofFn (fun (i : Fin 4) => ws.getD i.val 0)

/-- An entry none of whose words is full (R284). -/
def MboxEntry.free (e : MboxEntry) : Bool := e.full == Vector.replicate 4 false

/-- The request enters its queue: a mailbox entry of the slot, whose four words are set full together, or a command entry of
q4 (R284, R288, R298). -/
def State.enterXfer (s : State) (c : Slot) (x : Xfer) : Option (State × Slot) :=
  let x := { x with id := s.nextId, seq := s.seq }
  let s1 := if x.kind.onChannel then s.updChan x.core x.ch (fun h => { h with pend := h.pend + x.bytes }) else s
  if x.kind.byCaddie then
    match c.mbox.findIdx? MboxEntry.free with
    | none => none
    | some i =>
      some ({ s1 with xfers := s1.xfers ++ [{ x with entry := i }], nextId := s.nextId + 1 },
        { c with mbox := setNth c.mbox i { words := entryWords x.words, full := Vector.replicate 4 true } })
  else if c.q4cmd < 4 then
    some ({ s1 with xfers := s1.xfers ++ [{ x with taken := true }], nextId := s.nextId + 1 }, { c with q4cmd := c.q4cmd + 1 })
  else none

/-- An address of system space (Table 12-1). -/
def inSystem (va : Word) : Bool := decide (2 ^ 56 ≤ va.toNat)

/-- The scope at which the push of a request releases: of a copy as R291 gives it, .dev, or .sys where a range is in system space;
of another the placement of the pusher and its engine (Table 14-2), the core for the caddie and the cluster for the gather
engine. -/
def Xfer.scope (x : Xfer) : Scope :=
  match x.kind with
  | .cpy | .cpys => if inSystem x.src || inSystem x.dst then .sys else .dev
  | .halo | .mcast => .core
  | .gath => .clus

/-- Enter the request, a release (R34), and go on, or wait for an entry (R31, R291, R298). -/
def pushXfer (s : State) (c : Slot) (x : Xfer) : Out :=
  match s.enterXfer c x with
  | some (s, c) => done (released s c x.scope).1 (released s c x.scope).2.ready
  | none => waitOn s c (.xfer x)

/-- Refuse, or push the request. -/
def checkedXfer (s : State) (c : Slot) (checks : List (Option Refused)) (x : Xfer) : Out :=
  match firstSome checks with
  | some (cause, tval) => trap s c cause tval
  | none => pushXfer s c x

/-- CPY: to, from, bytes (R291). -/
def execCpy (d a b : Reg5) (ch : BitVec 3) (s : State) : Out :=
  withSrc3 s a b d (fun dst src n c =>
    match s.ctxOf c, s.chanOf c ch.toNat with
    | some x, some _ =>
      checkedXfer s c [reason (decide (2 ^ 40 - 16 < n.toNat)) 3, mis16 dst, mis16 src, mis16 n,
          rangeCheck s x c src n.toNat false false, rangeCheck s x c dst n.toNat true false]
        { newXfer .cpy c ch.toNat [dst, src, n] with src := src, dst := dst, rowLen := n.toNat, bytes := n.toNat }
    | _, _ => trap s c .queue 1)

/-- CPYS: to, from, descriptor, which is read at issue (R291). -/
def execCpys (d a b : Reg5) (ch : BitVec 3) (s : State) : Out :=
  withSrc3 s a b d (fun dst src desc c =>
    match s.ctxOf c, s.chanOf c ch.toNat with
    | some x, some _ =>
      match descCheck x c desc 32 32 with
      | some (cause, tval) => trap s c cause tval
      | none => withDesc s x c [(desc, 32)] (fun s =>
        let rows := descWord s x c desc 0
        let len := descWord s x c desc 1
        let ss := descWord s x c desc 2
        let ds := descWord s x c desc 3
        checkedXfer s c
          ([reason (rows == 0 || decide (65536 < rows.toNat)) 3, reason (decide (len.toNat < 16) || decide (1048576 < len.toNat)) 3,
            mis16 dst, mis16 src, mis16 len, mis16 ss, mis16 ds] ++
            rowsCheck s x c src (sword ss) rows.toNat len.toNat false ++ rowsCheck s x c dst (sword ds) rows.toNat len.toNat true)
          { newXfer .cpys c ch.toNat [dst, src, desc] with
              src := src, dst := dst, rows := rows.toNat, rowLen := len.toNat, sstr := sword ss, dstr := sword ds,
              bytes := rows.toNat * len.toNat })
    | _, _ => trap s c .queue 1)

/-- The columns of the logical torus: the smallest divisor of n whose square reaches n, from k up (R376). -/
def torusCols (n : Nat) : Nat → Nat → Nat
  | 0, _ => n
  | f + 1, k => if n % k = 0 ∧ n ≤ k * k then k else torusCols n f (k + 1)

/-- The neighbour of a logical core: 0 north, 1 east, 2 south, 3 west (R376). -/
def neighbour (n l dir : Nat) : Nat :=
  let x := max 1 (torusCols n n 1)
  let y := max 1 (n / x)
  let col := l % x
  let row := l / x
  match dir with
  | 0 => (row + y - 1) % y * x + col
  | 1 => row * x + (col + 1) % x
  | 2 => (row + 1) % y * x + col
  | _ => row * x + (col + x - 1) % x

/-- The address of an offset of a logical core's scratchpad window (R208). A core from 256 on has no window; what its refusal
shows as TVAL continues the formula (notes/assumptions/65.md). -/
def coreWindow (l off : Nat) : Word := BitVec.ofNat 64 (0x100000000 + l * 0x1000000 + off)

/-- The location of an address of a halo's destination, at an offset of a logical core that an engine reaches whatever its
number (R208, R293). -/
def haloResolve (s : State) (x : Ctx) (c : Slot) (l : Nat) (va : Word) : Except Refused Nat :=
  let off := va.toNat - (coreWindow l 0).toNat
  if (coreWindow l 0).toNat ≤ va.toNat ∧ off < 0x1000000 then resolveCoreWin s x c va l off .engWrite else .error (.bounds, va)

/-- The checks of the first and last rows of a halo's destination, in one part of the neighbour (R290, R293). -/
def haloRows (s : State) (x : Ctx) (c : Slot) (l off : Nat) (stride : Int) (rows len : Nat) : List (Option Refused) :=
  let check := fun (va : Word) => match haloResolve s x c l va with
    | .error r => some r
    | .ok _ => none
  let last := rowAddr (coreWindow l off) stride (rows - 1)
  [spanCheck check (coreWindow l off) len, spanCheck check last len,
    if (coreWindow l off).toNat / 0x400000 != (last + BitVec.ofNat 64 (len - 1)).toNat / 0x400000 then some (.perm, last) else none]

/-- One selected direction of a halo descriptor (R293): its checks in the steps of R290, the QUEUE reasons, MISALIGN and the
ranges, and the direction. -/
structure HaloEntry where
  reasons : List (Option Refused)
  aligned : List (Option Refused)
  ranges  : List (Option Refused)
  dir     : HaloDir

/-- A direction of a halo descriptor, with its checks (R290, R293). -/
def haloEntry (s : State) (x : Ctx) (c : Slot) (desc : Word) (d : Nat) : HaloEntry :=
  let src := descWord s x c desc (4 * d)
  let w1 := descWord s x c desc (4 * d + 1)
  let w2 := descWord s x c desc (4 * d + 2)
  let w3 := descWord s x c desc (4 * d + 3)
  let l := neighbour x.cores.length c.lcore d
  let core := (x.cores[l]?).getD 0
  let sl := bits w1 20 18
  let off := bits w1 17 0
  let len := bits w2 17 0
  let rows := bits w2 31 20 + 1
  let ss := sintN (bits w3 31 0) 32
  let ds := sintN (bits w3 63 32) 32
  let outside := if 2 ^ 57 ≤ src.toNat then some (TrapCause.canon, src)
    else if 0x40000 ≤ src.toNat then some (if lowHole src.toNat then (TrapCause.bounds, src) else (TrapCause.perm, src)) else none
  { reasons := [reason (bits w1 63 21 != 0 || bits w2 19 18 != 0 || bits w2 63 32 != 0) 2, reason (decide (len < 16)) 3,
      reason (decide (7 ≤ sl) || !x.slots.contains (core * 8 + sl)) 5],
    aligned := [mis16 src, mis16 (BitVec.ofNat 64 off), mis16 (BitVec.ofNat 64 len), mis16 (BitVec.ofInt 64 ss), mis16 (BitVec.ofInt 64 ds)],
    ranges := outside :: (rowsCheck s x c src ss rows len false ++ haloRows s x c l off ds rows len),
    dir := { dir := d, src := src, lcore := l, off := off, recv := core * 8 + sl, rowLen := len, rows := rows, sstr := ss,
             dstr := ds, begun := false, done := false, status := 0, landed := 0, data := [] } }

/-- HALO: descriptor and direction mask (R293). -/
def execHalo (a b : Reg5) (s : State) : Out :=
  withSrc2 s a b (fun desc mask c =>
    match s.ctxOf c with
    | none => trap s c .bounds desc
    | some x =>
      match descCheck x c desc 128 128 with
      | some (cause, tval) => trap s c cause tval
      | none => withDesc s x c [(desc, 128)] (fun s =>
        let es := ((upTo 4).filter (fun d => mask.getLsbD d)).map (haloEntry s x c desc)
        checkedXfer s c ([reason (bits mask 63 4 != 0) 2, reason (mask == 0) 3] ++ es.flatMap (fun e => e.reasons) ++
            es.flatMap (fun e => e.aligned) ++ es.flatMap (fun e => e.ranges))
          { newXfer .halo c 0 [desc, mask] with halos := es.map (fun e => e.dir) }))

/-- HALOWAIT: until the counter is at least the count (R294, R295). -/
def execHalowait (a b : Reg5) (s : State) : Out :=
  withSrc2 s a b (fun dir n c =>
    let d := bits dir 1 0
    let want := BitVec.ofNat 32 (bits n 31 0)
    if want ≤ (c.halo[d]?).getD 0 then done s c else waitOn s c (.halowait d want))

/-- One selected entry of a multicast list (R296): its checks and the receiver. -/
def mcastEntry (s : State) (x : Ctx) (c : Slot) (list : Word) (j : Nat) : List (Option Refused) × McastDest :=
  let w := descWord s x c list (1 + j)
  ([reason (bits w 17 17 != 0 || bits w 63 40 != 0) 2, mis16 (BitVec.ofNat 64 (bits w 39 18))],
    { j := j, lcore := bits w 15 0, clus := bits w 16 16 == 1, off := bits w 39 18 })

/-- MCAST: source, list, selection (R296). -/
def execMcast (d a b : Reg5) (s : State) : Out :=
  withSrc3 s a b d (fun src list selm c =>
    match s.ctxOf c with
    | none => trap s c .bounds list
    | some x =>
      let js := (upTo 64).filter (fun j => selm.getLsbD j)
      match firstSome (descCheck x c list 8 8 :: js.map (fun j => descCheck x c (list + BitVec.ofNat 64 (8 + 8 * j)) 8 8)) with
      | some (cause, tval) => trap s c cause tval
      | none => withDesc s x c ((list, 8) :: js.map (fun j => (list + BitVec.ofNat 64 (8 + 8 * j), 8))) (fun s =>
        let h := descWord s x c list 0
        let n := (bits h 11 0 + 1) * 16
        let es := js.map (mcastEntry s x c list)
        checkedXfer s c
          ([reason (bits h 63 12 != 0) 2] ++ es.map (fun e => (e.1[0]?).getD none) ++ [mis16 src] ++
            es.map (fun e => (e.1[1]?).getD none) ++ [rangeCheck s x c src n false true])
          { newXfer .mcast c 0 [src, list, selm] with src := src, rowLen := n, bytes := n, dests := es.map (fun e => e.2) }))

/-- GATH: to, descriptor, count (R298). An E outside 4 to 12 takes QUEUE with TVAL 3, the reason of Table 18-3 for a size out of
its range: the table names none for E (the model's choice, notes/assumptions/72.md). -/
def execGath (d a b : Reg5) (ch : BitVec 3) (s : State) : Out :=
  withSrc3 s a b d (fun dst desc n c =>
    match s.ctxOf c, s.chanOf c ch.toNat with
    | some x, some _ =>
      match descCheck x c desc 16 16 with
      | some (cause, tval) => trap s c cause tval
      | none => withDesc s x c [(desc, 16)] (fun s =>
        let base := descWord s x c desc 0
        let w := descWord s x c desc 1
        let e := bits w 63 60
        let idx := BitVec.ofNat 64 (bits w 56 0)
        let idxCheck := if n.toNat = 0 then none
          else match rangeCheck s x c idx (4 * n.toNat) false true with
            | some r => some r
            | none => if idx.toNat < 0x40000 then none else some (TrapCause.perm, idx)
        checkedXfer s c
          [reason (bits w 59 57 != 0) 2, reason (decide (e < 4) || decide (12 < e) || decide (65536 < n.toNat)) 3, mis16 dst,
            mis16 base, idxCheck, rangeCheck s x c base (min n.toNat 1) false false, rangeCheck s x c dst (2 ^ e * n.toNat) true true]
          { newXfer .gath c ch.toNat [dst, desc, n] with
              src := base, dst := dst, rows := n.toNat, rowLen := 2 ^ e, dstr := (2 ^ e : Nat), idx := idx, bytes := 2 ^ e * n.toNat })
    | _, _ => trap s c .queue 1)

/-- QSTAT (R303, Table 18-6). -/
def execQstat (d : Reg5) (s : State) : Out :=
  let c := s.cur
  finish s c d (BitVec.ofNat 64 (c.q0read.length % 16 * 2 ^ 23 + c.q4read.length % 8 * 2 ^ 20 + c.q3read.length % 8 * 2 ^ 17
    + c.q1read.length % 16 * 2 ^ 13 + (c.mbox.filter MboxEntry.free).length % 4 * 2 ^ 11
    + (16 - c.q2send.length) % 32 * 2 ^ 6 + c.q2recv.length % 64))

/-! ### The caddie and the copies -/

/-- The issuing slot's view at issue, by which its transfer resolves addresses. -/
def State.xferSlot (s : State) (x : Xfer) : Slot := { s.slotAt x.slot with owner := some x.ctx, decl := x.decl }

/-- The source and destination of byte o of a transfer of rows (R291). -/
def Xfer.place (x : Xfer) (o : Nat) : Word × Word :=
  let i := o / max 1 x.rowLen
  let j := BitVec.ofNat 64 (o % max 1 x.rowLen)
  (rowAddr x.src x.sstr i + j, rowAddr x.dst x.dstr i + j)

/-- STATUS of a refused byte (Table 18-4). -/
def statusOf (r : Refused) : Nat := if r.1 == .xlate then 1 else 2

/-- The source and destination locations of a transfer's bytes from o on, n of them, up to the first that either side
refuses, and its STATUS (R291). -/
def rowKeys (src dst : Nat → Except Refused Nat) (o : Nat) : Nat → List (Nat × Nat) × Nat
  | 0 => ([], 0)
  | n + 1 =>
    match src o, dst o with
    | .ok k, .ok d =>
      let (ks, st) := rowKeys src dst (o + 1) n
      ((k, d) :: ks, st)
    | .error r, _ => ([], statusOf r)
    | _, .error r => ([], statusOf r)

/-- The locations of n bytes of a transfer of rows (R291). -/
def Xfer.keys (s : State) (x : Ctx) (c : Slot) (t : Xfer) (n : Nat) : List (Nat × Nat) × Nat :=
  rowKeys (fun o => engResolve s x c (t.place o).1 false) (fun o => engResolve s x c (t.place o).2 true) 0 n

/-! ### What an engine touches -/

/-- An engine of a core may touch a location: its bank is awake (R214), and it is not closed to the core (R235, R236). -/
def State.engOpen (s : State) (core k : Nat) : Bool := !s.bankWaking k && !s.earlyHeld core k 1

/-- The caddie of a core may read a location: no write of its core to it is on its way, since a thread of the core may have read
that write already (Core axiom, R237). -/
def State.caddieSees (s : State) (core k : Nat) : Bool := s.engOpen core k && !s.writePending core k 1

/-- An engine may write a location: no block has read it (Atomicity, R237), and a register image takes a write before its slot's
turn of a cycle (R209). -/
def State.engMayWrite (s : State) (core k : Nat) : Bool := s.engOpen core k && !s.blockRead (2 ^ 20) k 1 && !s.imagePast k

/-- An engine that meets an error in a context's data: the context takes UNCORR (R3, R258). -/
def State.uncorrCtx (s : State) (x : Ctx) (va : Word) (e : MemErr) : State :=
  s.enterError x.id 0 (bits e.place 47 40)
    (faultRecord (x.recordFlags true) s.cycle x.id 0 TrapCause.uncorr.code 0xFFFFFFFF 0 0 va e.place x.serialLow)

/-- An engine reads some locations for a context, the i-th at an address: they are open to it, from the `seen`-th on their pages
are translated one after another (R254; notes/assumptions/67.md), and an error in one takes the context (R3). -/
def engReads (s : State) (x : Ctx) (isOpen : Nat → Bool) (ks : List Nat) (seen : Nat) (mark : Nat → State → State) (va : Nat → Word)
    (event : String) (go : Unit → Out) : Out :=
  if !ks.all isOpen then notNow event
  else withWalks s ks seen mark event (fun _ => match ks.zipIdx.find? (fun e => (s.errorAt e.1 1).isSome) with
    | some (k, i) => match s.errorAt k 1 with
      | some e => if x.err.isSome then notNow event else .next (s.uncorrCtx x (va i) e)
      | none => go ()
    | none => go ())

/-- The umpire or a port reads some spans of a context's data, each a location, a length and its address: their banks are awake
(R214), their pages are walked one after another (R254) and their key stands (R257), and an error in one takes the context
(R3, R258). -/
def umpireReads (s : State) (x : Ctx) (spans : List (Nat × Nat × Word)) (event : String) (go : Unit → Out) : Out :=
  let ks := spans.flatMap (fun e => spanPoints e.1 e.2.1)
  if ks.any s.bankWaking then notNow event
  else withPages s ks event (fun _ =>
    match spans.findSome? (fun e => (s.errorAt e.1 e.2.1).map (fun m => (e.2.2 + BitVec.ofNat 64 (m.lo - e.1), m))) with
    | some (va, m) => if x.err.isSome then notNow event else .next (s.uncorrCtx x va m)
    | none => go ())

/-- An engine writes some locations: they are open to it, and their pages are translated (R254). -/
def engWrites (s : State) (core : Nat) (ks : List Nat) (event : String) (go : Unit → Out) : Out :=
  if !ks.all (s.engMayWrite core) then notNow event else withPages s ks event go

/-- The words of a kind's record on q1. -/
def XferKind.recWords : XferKind → Nat
  | .mcast => 4
  | _ => 1

/-- The requests of a core that its caddie has in progress (R284). -/
def State.inProgress (s : State) (core : Nat) : List Xfer :=
  s.xfers.filter (fun x => x.core == core && x.kind.byCaddie && x.taken)

/-- The request of a slot that its caddie may take: its oldest untaken one, released, with room for its record
(R31, R34). -/
def State.takable (s : State) (slot : Nat) : Option Xfer :=
  match s.xfers.find? (fun x => x.slot == slot && x.kind.byCaddie && !x.taken) with
  | none => none
  | some x =>
    let held := ((s.inProgress x.core).filter (fun y => y.slot == slot)).foldl (fun n y => n + y.kind.recWords) 0
    if (s.slotAt slot).q1read.length + held + x.kind.recWords ≤ 8 && !s.earlierPending slot x.seq && s.clusOpen x.ctx (x.core / 8) then
      some x
    else none

/-- Replace a transfer's record. -/
def State.setXfer (s : State) (x : Xfer) : State := { s with xfers := s.xfers.map (fun y => if y.id == x.id then x else y) }

/-- A location as an engine reads it for a transfer's slot (R239). -/
def State.engByte (s : State) (slot k : Nat) : Byte := s.readFrom (s.slotAt slot) k

/-- CADDIE_TAKE_REQUEST: at the caddie's turn, once in it, the next request by R123, while fewer than four are in progress;
its entry is emptied, and a copy's source is read before anything lands (R15, R284, R291). -/
def execCaddieTakeRequest (core : Nat) (s : State) : Out :=
  let served := s.caddies.find? (fun e => e.1 == core)
  let last := (served.map (fun e => e.2.1)).getD 6
  let order := (upTo 7).map (fun k => core * 8 + (last + 1 + k) % 7)
  if s.cycle.toNat % 8 ≠ 7 ∨ served.any (fun e => e.2.2 == s.cycle) then notNow "CADDIE_TAKE_REQUEST"
  else match (if (s.inProgress core).length < 4 then order.findSome? s.takable else none) with
  | none => notNow "CADDIE_TAKE_REQUEST"
  | some t =>
    let take := fun (s : State) (t : Xfer) =>
      let s := { s with caddies := updKey (fun e => e.1 == core) (core, slotNo t.slot, s.cycle) s.caddies }
      let c := s.slotAt t.slot
      (s.setSlot { c with mbox := (c.mbox[t.entry]?).elim c.mbox (fun e =>
        setNth c.mbox t.entry { e with full := Vector.replicate 4 false }) }).setXfer { t with taken := true }
    match s.ctxAt t.ctx with
    | none => .next (take s t)
    | some x =>
      if t.kind == .cpy || t.kind == .cpys then
        let (ks, st) := t.keys s x (s.xferSlot t) t.bytes
        let src := ks.map (fun k => k.1)
        engReads s x (s.caddieSees core) src t.seen (fun i s => s.setXfer { t with seen := i }) (fun i => (t.place i).1)
          "CADDIE_TAKE_REQUEST" (fun _ =>
            .next (take (s.noteBlocks t.ctx src false) { t with data := src.map (s.engByte t.slot), status := st }))
      else .next (take s t)

/-- The 16-byte units that some bytes complete or begin, after those landed before (Table 26-1). -/
def unitsLanded (landed n : Nat) : Nat := ceilDiv (landed + n) 16 - ceilDiv landed 16

/-- A location of the core scratchpad of a transfer's own core. -/
def Xfer.inOwn (t : Xfer) (k : Nat) : Bool := keySpace k == Space.core && keyUnit k / 2 ^ 16 == t.core

/-- Charge and count the bytes that an engine lands for a context, after `landed` of its row or direction (Tables 26-1, 26-5): the
caddie carries those that come from or go to the issuing core's scratchpad, as `own` says of their source, and the cluster copy
engine the others (R284). `start` says that they begin an aligned 64 bytes or a row. -/
def State.noteEngine (s : State) (t : Xfer) (ks : List Nat) (landed : Nat) (start own : Bool) : State :=
  match s.ctxAt t.ctx, ks.head? with
  | some x, some k =>
    let n := ks.length
    let s := s.charge t.ctx 5 (unitsLanded landed n)
    let s := if t.kind == .gath then s
      else if own || t.inOwn k then s.count t.ctx ((x.lcoreOf t.core).getD 0) 0x4D n
      else s.count t.ctx ((x.lclusOf (t.core / 8)).getD 0) 0x83 n
    if start || keySpace k == Space.host then s.noteBlocks t.ctx ks true
    else if keySpace k == Space.dev then s.count t.ctx 0 0xC1 n
    else s
  | _, _ => s

/-- Land the next event of a transfer's write at its locations (R231); a granule that it completes counts off and may move the
watermark (R215, R288). -/
def State.landXfer (s : State) (t : Xfer) (ks : List Nat) (bs : List Byte) (landed : Nat) (start own : Bool) : State :=
  let s := (s.noteEngine t ks landed start own).engineEvent (ks.zip bs) false
  if t.kind.onChannel then
    let ends := ks.filter (fun k => k % 16 == 15)
    s.updChan t.core t.ch (fun h => (ends.map (fun k => k - 15)).foldl Chan.fill { h with pend := h.pend - 16 * ends.length })
  else s

/-- The element that a gather lands next: the location of its index, the address and the locations of its bytes with its STATUS, or
the STATUS of a refused index (R298). -/
def gatherElem (s : State) (x : Ctx) (t : Xfer) : Except Nat (Nat × Word × List (Nat × Nat) × Nat) :=
  let c := s.xferSlot t
  let i := t.landed / max 1 t.rowLen
  match engResolve s x c (t.idx + BitVec.ofNat 64 (4 * i)) false with
  | .error r => .error (statusOf r)
  | .ok ki =>
    let src := t.src + BitVec.ofNat 64 (t.rowLen * leNat (s.readHomeN ki 4))
    .ok (ki, src, Xfer.keys s x c { t with src := src, dst := t.dst + BitVec.ofNat 64 t.landed, rows := 1, sstr := 0, dstr := 0 } t.rowLen)

/-- The address of the i-th byte that a gather's element reads: its index, then the element itself (R151). -/
def gatherAddr (t : Xfer) (src : Word) (i : Nat) : Word :=
  if i < 4 then t.idx + BitVec.ofNat 64 (4 * (t.landed / max 1 t.rowLen) + i) else src + BitVec.ofNat 64 (i - 4)

/-- A gather whose turn it is at its core's engine: the slot's oldest (R298). -/
def State.gatherFirst (s : State) (t : Xfer) : Bool :=
  !(s.xfers.any (fun y => y.kind == .gath && y.slot == t.slot && decide (y.id < t.id))) && !s.earlierPending t.slot t.seq

/-- Advance the tail of a ring by c slots: an advance beyond N is discarded and OVF is set (R272). -/
def Ring.advance (r : Ring) (c : Nat) : Ring :=
  if r.n < (r.tail - r.head).toNat + c then { r with ovf := true } else { r with tail := r.tail + BitVec.ofNat 32 c }

/-- RING_AUTO_ADVANCE: a copy of b bytes on a channel of a core advances the context's AUTO rings bound to it (R272). -/
def State.autoAdvance (s : State) (ctx core ch b : Nat) : State :=
  match s.ctxAt ctx with
  | none => s
  | some x =>
    let clus := core / 8
    { s with matrix := s.matrix.map (fun u =>
        if u.clus == clus then
          { u with rings := u.rings.map (fun e =>
              if x.holdsShare clus (e.1 / 2) && e.2.auto == some (core % 8, ch) then (e.1, e.2.advance (b / max 1 e.2.size)) else e) }
        else u) }

/-- The next event of a copy's or a gather's write lands at a location (R231); with its last byte a copy with STATUS 0 advances the
rings bound to its channel (R272, R288, R291). -/
def State.landNext (s : State) (t : Xfer) (kd : Nat) (own : Bool) : State :=
  let bs := t.data.take (eventLen kd t.data.length)
  let t' := { t with landed := t.landed + bs.length, data := t.data.drop bs.length }
  let s := (s.landXfer t (spanKeys kd bs.length) bs t.landed (kd % 64 == 0 || t.landed % max 1 t.rowLen == 0) own).setXfer t'
  if t'.data.isEmpty && t.status == 0 && t.kind != .gath then s.autoAdvance t.ctx t.core t.ch t.bytes else s

/-- Whether the next byte of a copy comes from its own core's scratchpad (R284). -/
def fromOwn (s : State) (x : Ctx) (t : Xfer) : Bool :=
  match engResolve s x (s.xferSlot t) (t.place t.landed).1 false with
  | .ok k => t.inOwn k
  | .error _ => false

/-- The data of a copy or of a gather's element, read and not landed, land by the next event of their write. A destination that has
come to be refused ends the transfer there (R291, R298). -/
def landGo (s : State) (x : Ctx) (t : Xfer) (event : String) : Out :=
  match engResolve s x (s.xferSlot t) (t.place t.landed).2 true with
  | .error r => .next (s.setXfer { t with data := [], status := statusOf r })
  | .ok kd => engWrites s t.core (spanKeys kd (eventLen kd t.data.length)) event (fun _ => .next (s.landNext t kd (fromOwn s x t)))

/-- COPY_GRANULE_LAND: the next bytes of the k-th transfer land, one event of its write at a time (R231), or the next element of a
gather is read (R288, R291, R298). An error met in the source takes the context (R3). -/
def execCopyGranuleLand (k : Nat) (s : State) : Out :=
  let ev := "COPY_GRANULE_LAND"
  match s.xfers[k]? with
  | none => notNow ev
  | some t =>
    match s.ctxAt t.ctx with
    | none => notNow ev
    | some x =>
      if !s.clusOpen t.ctx (t.core / 8) then notNow ev
      else if (t.kind == .cpy || t.kind == .cpys) && t.taken && !t.data.isEmpty then landGo s x t ev
      else if t.kind == .gath && !t.data.isEmpty then landGo s x t ev
      else if t.kind == .gath && decide (t.landed < t.bytes) && t.status == 0 && s.gatherFirst t then
        match gatherElem s x t with
        | .ok (ki, src, ks, 0) =>
          let reads := spanKeys ki 4 ++ ks.map (fun e => e.1)
          engReads s x (s.engOpen t.core) reads t.seen (fun i s => s.setXfer { t with seen := i }) (gatherAddr t src) ev (fun _ =>
            .next ((s.noteBlocks t.ctx reads false).setXfer { t with data := ks.map (fun e => s.engByte t.slot e.1), seen := 0 }))
        | _ => notNow ev
      else notNow ev

/-- The record of Table 18-4. -/
def xferRecord (t : Xfer) (status done : Nat) : Word :=
  BitVec.ofNat 64 (t.kind.code * 2 ^ 60 + status * 2 ^ 56 + t.ch * 2 ^ 53 + done % 2 ^ 48)

/-- The transfer is its slot's oldest request at the caddie, so its record comes next (R31). -/
def State.recordNext (s : State) (t : Xfer) : Bool :=
  !(s.xfers.any (fun y => y.kind.byCaddie && y.slot == t.slot && decide (y.id < t.id)))

/-- Push words to the q1 read side of a transfer's slot, while its context holds it. -/
def State.pushQ1 (s : State) (t : Xfer) (ws : List Word) : State :=
  let c := s.slotAt t.slot
  if c.owner == some t.ctx then s.setSlot { c with q1read := c.q1read ++ ws } else s

/-- The transfer ends: it leaves the list, its channel's count falls by what is left, a fault empties the range
(R288), and a waiting range takes effect (R292). -/
def State.endXfer (s : State) (t : Xfer) (fault : Bool) : State :=
  let s := { s with xfers := s.xfers.filter (fun y => y.id != t.id) }
  if t.kind.onChannel then
    (s.updChan t.core t.ch (fun h =>
      let h := { h with pend := h.pend - (t.bytes - t.landed / 16 * 16) }
      if fault then { h with base := 0, len := 0, wm := 0, filled := [] } else h)).chanSettle t.core t.ch
  else s

/-- The next byte of a copy comes from or goes to system space (R401). -/
def Xfer.nextInHost (t : Xfer) : Bool :=
  decide (t.landed < t.bytes) && (inSystem (t.place t.landed).1 || inSystem (t.place t.landed).2)

/-- A halo whose directions are all done ends with its record (R293). -/
def State.endHalo (s : State) (t : Xfer) : State :=
  let st := ((t.halos.find? (fun g => g.status != 0)).map (fun g => g.status)).getD 0
  (s.endXfer t false).pushQ1 t [xferRecord t st (t.halos.foldl (fun n g => n + g.landed) 0)]

/-- The host refuses a byte among those of the next event of a copy: which of them is left open, and those before it land (R291,
R401; notes/assumptions/7.md). The transfer after them, and the state. -/
def State.hostRefuses (s : State) (x : Ctx) (t : Xfer) : State × Xfer :=
  match engResolve s x (s.xferSlot t) (t.place t.landed).2 true with
  | .error _ => (s, t)
  | .ok kd =>
    let (w, s) := s.draw
    let n := w.toNat % max 1 (eventLen kd t.data.length)
    if n = 0 then (s, t)
    else
      let t' := { t with landed := t.landed + n }
      ((s.landXfer t (spanKeys kd n) (t.data.take n) t.landed true (fromOwn s x t)).setXfer t', t')

/-- COPY_COMPLETE: a copy has landed, or ends at its first refused byte, by the host node where `refused` says so; its
record is pushed (R291, R401). A halo whose directions are all done pushes its record (R293). -/
def execCopyComplete (k : Nat) (refused : Bool) (s : State) : Out :=
  match s.xfers[k]? with
  | none => notNow "COPY_COMPLETE"
  | some t =>
    if !t.taken || !s.recordNext t || !s.clusOpen t.ctx (t.core / 8) then notNow "COPY_COMPLETE"
    else match t.kind with
      | .cpy | .cpys =>
        if refused && t.nextInHost then
          match s.ctxAt t.ctx with
          | none => notNow "COPY_COMPLETE"
          | some x =>
            let (s, t) := s.hostRefuses x t
            .next ((s.endXfer t true).pushQ1 t [xferRecord t 3 t.landed])
        else if refused || !t.data.isEmpty then notNow "COPY_COMPLETE"
        else if t.status = 0 then
          .next ((s.endXfer t false).pushQ1 t [xferRecord t 0 t.landed])
        else .next ((s.endXfer t true).pushQ1 t [xferRecord t t.status t.landed])
      | .halo =>
        if !refused && t.halos.all (fun h => h.done) then .next (s.endHalo t) else notNow "COPY_COMPLETE"
      | _ => notNow "COPY_COMPLETE"

/-- The counter that a direction's arrival raises (R293): index of HALON, HALOE, HALOS, HALOW. -/
def haloCounter (dir : Nat) : Nat := (dir + 2) % 4

/-- The transfer of one direction of a halo as rows (R293). -/
def HaloDir.rowsOf (h : HaloDir) (t : Xfer) : Xfer :=
  { t with src := h.src, dst := coreWindow h.lcore h.off, rows := h.rows, rowLen := h.rowLen, sstr := h.sstr, dstr := h.dstr }

/-- The locations of a direction's bytes, up to the first that either side refuses, and its STATUS (R291, R293). -/
def HaloDir.keys (s : State) (x : Ctx) (c : Slot) (t : Xfer) (h : HaloDir) : List (Nat × Nat) × Nat :=
  let r := h.rowsOf t
  rowKeys (fun o => engResolve s x c (r.place o).1 false) (fun o => haloResolve s x c h.lcore (r.place o).2) 0 (h.rows * h.rowLen)

/-- The receiving slot's counter for the opposite side rises in this cycle, after every write of it (R108, R293). -/
def State.raiseHalo (s : State) (t : Xfer) (h : HaloDir) : State :=
  let r := s.slotAt h.recv
  if r.owner = some t.ctx then s.setSlot { r with haloDue := r.haloDue ++ [haloCounter h.dir] } else s

/-- Put a direction back. -/
def Xfer.setDir (t : Xfer) (h : HaloDir) : Xfer := { t with halos := t.halos.map (fun g => if g.dir == h.dir then h else g) }

/-- A direction of a halo is done, and its counter rises where no byte of it was refused; the last one ends the transfer (R293). -/
def State.endDir (s : State) (t : Xfer) (h : HaloDir) : State :=
  let s := if h.status = 0 then s.raiseHalo t h else s
  let t := t.setDir { h with done := true }
  let s := s.setXfer t
  if t.halos.all (fun g => g.done) && s.recordNext t then s.endHalo t else s

/-- The next event of a direction's write lands at a location (R231). -/
def State.landDir (s : State) (t : Xfer) (h : HaloDir) (kd : Nat) : State :=
  let bs := h.data.take (eventLen kd h.data.length)
  (s.landXfer t (spanKeys kd bs.length) bs h.landed (kd % 64 == 0 || h.landed % max 1 h.rowLen == 0) true).setXfer
    (t.setDir { h with landed := h.landed + bs.length, data := h.data.drop bs.length })

/-- HALO_DIRECTION_ARRIVAL: a direction of the k-th transfer goes on. Its source is read whole, its bytes land, one event of its write
at a time (R231), and once all have landed the receiving slot's counter for the opposite side rises; after the last direction
the record is pushed where it is the slot's next (R293). -/
def execHaloDirectionArrival (k : Nat) (dir : BitVec 2) (s : State) : Out :=
  let ev := "HALO_DIRECTION_ARRIVAL"
  match s.xfers[k]? with
  | none => notNow ev
  | some t =>
    match t.halos.find? (fun h => h.dir == dir.toNat && !h.done), s.ctxAt t.ctx with
    | some h, some x =>
      if !t.taken || !s.clusOpen t.ctx (t.core / 8) then notNow ev
      else if !h.begun then
        let r := h.keys s x (s.xferSlot t) t
        let src := r.1.map (fun k => k.1)
        engReads s x (s.caddieSees t.core) src 0 (fun _ s => s) (fun i => ((h.rowsOf t).place i).1) ev (fun _ =>
          .next ((s.noteBlocks t.ctx src false).setXfer
            (t.setDir { h with begun := true, status := r.2, data := src.map (s.engByte t.slot) })))
      else if h.data.isEmpty then .next (s.endDir t h)
      else match haloResolve s x (s.xferSlot t) h.lcore ((h.rowsOf t).place h.landed).2 with
        | .error r => .next (s.setXfer (t.setDir { h with data := [], status := statusOf r }))
        | .ok kd => engWrites s t.core (spanKeys kd (eventLen kd h.data.length)) ev (fun _ => .next (s.landDir t h kd))
    | _, _ => notNow ev

/-- The bound of a multicast receiver's destination: Z or Y, and the declared bound of the issuing task where the receiver is
its own core or cluster (R297, R206, R210; notes/assumptions/65.md). -/
def mcastBound (x : Ctx) (t : Xfer) (clus : Bool) (core : Nat) : Nat :=
  if clus then (if core / 8 = t.core / 8 then min t.decl.clussp x.maxClussp else x.maxClussp)
  else if core = t.core then min (min t.decl.coresp x.res.coreB) x.maxCoresp else x.maxCoresp

/-- The destination location of a multicast receiver: none where it is faulted (R297). -/
def mcastKey (x : Ctx) (t : Xfer) (d : McastDest) : Option Nat :=
  match x.cores[d.lcore]? with
  | none => none
  | some core =>
    if d.off + t.rowLen ≤ mcastBound x t d.clus core then
      some (if d.clus then keyOf Space.clus (shareUnit (core / 8) x.id) d.off else keyOf Space.core (shareUnit core x.id) d.off)
    else none

/-- The masks of delivered, refused and faulted receivers. -/
abbrev McastMasks := Nat × Nat × Nat

/-- Deliver to one receiver. The test of its first granule and the setting of its granules full are one step at the bank controller,
so its bytes land in that step (R297, R231; notes/assumptions/65.md). -/
def mcastOne (x : Ctx) (t : Xfer) (s : State) (d : McastDest) : State × McastMasks :=
  let (dl, rf, ft) := t.masks
  match mcastKey x t d with
  | none => (s, dl, rf, ft + 2 ^ d.j)
  | some k =>
    if s.isFull k then (s, dl, rf + 2 ^ d.j, ft)
    else
      let ks := spanKeys k t.data.length
      ((s.noteEngine t ks 0 true (decide (t.src.toNat < 0x40000))).engineWrite (ks.zip t.data), dl + 2 ^ d.j, rf, ft)

/-- The locations of a multicast's source, where it has a receiver. -/
def mcastSrc (s : State) (x : Ctx) (t : Xfer) : Except Refused (List Nat) :=
  if t.dests.isEmpty then .ok []
  else match engResolve s x (s.xferSlot t) t.src false with
    | .error r => .error r
    | .ok k => .ok (spanKeys k t.rowLen)

/-- MCAST_DELIVERY: the source is read; then each selected receiver in turn is delivered, refused or faulted; and then the record's
four words are pushed (R297). -/
def execMcastDelivery (k : Nat) (s : State) : Out :=
  let ev := "MCAST_DELIVERY"
  match s.xfers[k]? with
  | none => notNow ev
  | some t =>
    match s.ctxAt t.ctx with
    | none => notNow ev
    | some x =>
      if t.kind != .mcast || !t.taken || !s.clusOpen t.ctx (t.core / 8) then notNow ev
      else if !t.begun then
        match mcastSrc s x t with
        | .error _ => notNow ev
        | .ok src =>
          engReads s x (s.caddieSees t.core) src 0 (fun _ s => s) (fun i => t.src + BitVec.ofNat 64 i) ev (fun _ =>
            .next ((s.noteBlocks t.ctx src false).setXfer { t with begun := true, data := src.map (s.engByte t.slot) }))
      else match t.dests with
        | d :: rest =>
          let ks := match mcastKey x t d with
            | some k => spanKeys k t.data.length
            | none => []
          engWrites s t.core ks ev (fun _ =>
            let r := mcastOne x t s d
            .next (r.1.setXfer { t with dests := rest, masks := r.2 }))
        | [] =>
          if !s.recordNext t then notNow ev
          else .next ((s.endXfer t false).pushQ1 t
            [xferRecord t 0 t.bytes, BitVec.ofNat 64 t.masks.1, BitVec.ofNat 64 t.masks.2.1, BitVec.ofNat 64 t.masks.2.2])

/-- GATHER_COMPLETE: a gather has landed, or ends at its first refused element; its record goes to q4, where four fit
(R298, R401). -/
def execGatherComplete (k : Nat) (refused : Bool) (s : State) : Out :=
  match s.xfers[k]? with
  | none => notNow "GATHER_COMPLETE"
  | some t =>
    let c := s.slotAt t.slot
    if t.kind != .gath || !s.gatherFirst t || decide (4 ≤ c.q4read.length) || !s.clusOpen t.ctx (t.core / 8) then notNow "GATHER_COMPLETE"
    else match s.ctxAt t.ctx with
      | none => notNow "GATHER_COMPLETE"
      | some x =>
        let fin := fun (st : Nat) =>
          let s := s.endXfer t (st != 0)
          let c := s.slotAt t.slot
          Host.Outcome.next (s.setSlot { c with q4cmd := c.q4cmd - 1, q4read := c.q4read ++ [xferRecord t st (t.landed / max 1 t.rowLen)] })
        if !t.data.isEmpty then notNow "GATHER_COMPLETE"
        else if t.landed = t.bytes then (if refused then notNow "GATHER_COMPLETE" else fin 0)
        else if refused then (if inSystem t.src then fin 3 else notNow "GATHER_COMPLETE")
        else if t.status ≠ 0 then fin t.status
        else match gatherElem s x t with
          | .error st | .ok (_, _, _, st) => if st = 0 then notNow "GATHER_COMPLETE" else fin st

/-! ### Collectives (R299, R300) -/

/-- The width of a collective element in bytes. -/
def ctypeBytes : CType → Nat
  | .i32 | .f32 => 4
  | .i64 | .f64 => 8
  | .bf16 | .f16 => 2

/-- The format of a floating collective type. -/
def ctypeFmt : CType → Option Fmt
  | .i32 | .i64 => none
  | .f32 => some fmtF32
  | .f64 => some fmtF64
  | .bf16 => some fmtBF16
  | .f16 => some fmtF16

/-- The elements of a source or a destination. -/
def collElems (sel : CollSel) (n p : Nat) (source : Bool) : Nat :=
  match sel with
  | .ar => n
  | .rs => if source then p * n else n
  | .ag => if source then n else p * n

/-- A peer-table entry: thread, context, node (R299). -/
def peerOf (w : Word) : Nat × Nat × Nat := (bits w 19 0, bits w 35 20, bits w 51 36)

/-- COLL: source, destination, descriptor, which is read at issue with its peer table (R299). The spec gives the peer table no
alignment and no place among the checks: the model asks for 8, after the QUEUE reasons 3 and 6 of the descriptor and before the
reasons of the table's own entries (the model's choice, notes/assumptions/72.md). -/
def execColl (d a b : Reg5) (ty : CType) (sel : CollSel) (s : State) : Out :=
  withSrc3 s a b d (fun src dst desc c =>
    match s.ctxOf c with
    | none => trap s c .bounds desc
    | some x =>
      match descCheck x c desc 32 32 with
      | some (cause, tval) => trap s c cause tval
      | none => withDesc s x c [(desc, 32)] (fun s =>
        let name := descWord s x c desc 0
        let pr := descWord s x c desc 1
        let n := (descWord s x c desc 2).toNat
        let table := descWord s x c desc 3
        let p := bits pr 31 0
        let r := bits pr 63 32
        match firstSome [reason (decide (16777216 < n)) 3,
            reason (p == 0 || decide (4096 < p) || decide (p ≤ r) || n == 0) 6, descCheck x c table 8 (8 * p)] with
        | some (cause, tval) => trap s c cause tval
        | none => withDesc s x c [(table, 8 * p)] (fun s =>
          let peers := (upTo p).map (fun q => descWord s x c table q)
          let eb := ctypeBytes ty
          match firstSome [reason (peers.any (fun w => bits w 63 52 != 0)) 2,
              reason (peers[r]?.map peerOf != some (c.thread, x.id, s.ownNode)) 6,
              rangeCheck s x c src (eb * collElems sel n p true) false false,
              rangeCheck s x c dst (eb * collElems sel n p false) true false,
              (if [0, 2, 6].contains (regionOf src.toNat).1 then none else some (.perm, src)),
              (if [0, 2, 6].contains (regionOf dst.toNat).1 then none else some (.perm, dst))] with
          | some (cause, tval) => trap s c cause tval
          | none =>
            let k : Coll :=
              { id := s.nextId, far := false, slot := c.phys, ctx := x.id, thread := c.thread, node := s.ownNode, decl := c.decl, seq := s.seq,
                name := name, p := p, r := r, n := n, ty := ty, sel := sel, src := src, dst := dst, peers := peers,
                arrived := false, data := [], dead := false, result := none, landed := 0, seen := 0 }
            let (s, c) := released s c (if peers.any (fun w => (peerOf w).2.2 != s.ownNode) then .sys else .dev)
            done { s with colls := s.colls ++ [k], nextId := s.nextId + 1 } c)))

/-- The issuing slot's view of a collective. -/
def State.collSlot (s : State) (k : Coll) : Slot := { s.slotAt k.slot with owner := some k.ctx, decl := k.decl }

/-- The locations of n bytes from an address on, up to the first refused. -/
def spanOf (s : State) (x : Ctx) (c : Slot) (va : Word) : Nat → List Nat
  | 0 => []
  | n + 1 => match engResolve s x c va false with
    | .ok k => k :: spanOf s x c (va + 1) n
    | .error _ => []

/-- A peer's context has entered ERROR, is reset or has ended: the collectives that name it end with STATUS 1, and its own
contributions are gone (R300; of an end by surrender or expiry the rule says nothing, notes/assumptions/20.md). -/
def State.peerGone (s : State) (ctx node : Nat) : State :=
  { s with colls := (s.colls.filter (fun e => e.ctx != ctx || e.node != node)).map (fun e =>
      if !e.far && e.result.isNone && e.peers.any (fun w => (peerOf w).2 == (ctx, node)) then { e with dead := true } else e) }

/-- Put a contribution back. -/
def State.setColl (s : State) (e : Coll) : State := { s with colls := s.colls.map (fun g => if g.id == e.id then e else g) }

/-- A contribution's bytes leave for the peers on other modules (event 0xC4, the fabric class of Table 26-1). -/
def State.noteFar (s : State) (e : Coll) (n : Nat) : State :=
  let far := (sortNats ((e.peers.map (fun w => (peerOf w).2.2)).filter (fun q => q != s.ownNode))).length
  (s.count e.ctx 0 0xC4 (n * far)).charge e.ctx 8 (n * far)

/-- COLL_CONTRIBUTION_ARRIVAL: the k-th contribution reaches the engine with its source's data, after what its thread
wrote before it; or a contribution comes from another module, which counts where its table names the receiver, or the word
that a peer there has departed (R299, R300). -/
def execCollContributionArrival (k : Nat) (remote : Option CollRemote) (s : State) : Out :=
  match remote with
  | some r =>
    if r.node == s.ownNode then notNow "COLL_CONTRIBUTION_ARRIVAL"
    else if r.departed then .next (s.peerGone r.ctx r.node)
    else if r.names then
      let e : Coll :=
        { id := s.nextId, far := true, slot := 0, ctx := r.ctx, thread := r.thread, node := r.node, decl := Decl.none, seq := 0,
          name := r.name, p := r.ranks, r := r.rank, n := r.n, ty := r.ty, sel := r.sel, src := 0, dst := 0, peers := [],
          arrived := true, data := r.data, dead := false, result := none, landed := 0, seen := 0 }
      .next { s with colls := s.colls ++ [e], nextId := s.nextId + 1 }
    else .next s
  | none =>
    match s.colls[k]? with
    | none => notNow "COLL_CONTRIBUTION_ARRIVAL"
    | some e =>
      match s.ctxAt e.ctx with
      | none => notNow "COLL_CONTRIBUTION_ARRIVAL"
      | some x =>
        if e.far || e.arrived || s.earlierPending e.slot e.seq || !s.clusOpen e.ctx (clusOf e.slot) then notNow "COLL_CONTRIBUTION_ARRIVAL"
        else
          let ks := spanOf s x (s.collSlot e) e.src (ctypeBytes e.ty * collElems e.sel e.n e.p true)
          engReads s x (s.engOpen (coreOf e.slot)) ks e.seen (fun i s => s.setColl { e with seen := i }) (fun i => e.src + BitVec.ofNat 64 i)
            "COLL_CONTRIBUTION_ARRIVAL" (fun _ =>
              .next (((s.noteBlocks e.ctx ks false).noteFar e ks.length).setColl
                { e with arrived := true, data := ks.map (s.engByte e.slot), seen := 0 }))

/-- The contribution of rank q that a participant accepts. -/
def State.contribution (s : State) (e : Coll) (q : Nat) : Option Coll :=
  match e.peers[q]? with
  | none => none
  | some w => s.colls.find? (fun g =>
      g.arrived && g.result.isNone && g.name == e.name && g.r == q && peerOf w == (g.thread, g.ctx, g.node))

/-- The contributions of every rank, once all have arrived. -/
def State.collGroup (s : State) (e : Coll) : Option (List Coll) :=
  let gs := (upTo e.p).filterMap (s.contribution e)
  if gs.length = e.p then some gs else none

/-- Element i of a contribution's data. -/
def Coll.elem (g : Coll) (i : Nat) : Nat := leNat ((g.data.drop (ctypeBytes g.ty * i)).take (ctypeBytes g.ty))

/-- S(i): the elements i of all contributions, summed from rank 0 in the type (R300). -/
def collSum (ty : CType) (gs : List Coll) (i : Nat) : Nat × BitVec 5 :=
  match gs.map (fun g => g.elem i) with
  | [] => (0, 0)
  | v :: rest => match ctypeFmt ty with
    | none => (rest.foldl (fun a x => (a + x) % 2 ^ (8 * ctypeBytes ty)) v, 0)
    | some f => rest.foldl (fun (a : Nat × BitVec 5) x =>
        let y := f.addV .rne (f.decode a.1) (f.decode x)
        (y.1, a.2 ||| y.2)) (v, 0)

/-- A participant's result: STATUS, FLAGS and the destination's bytes (R300). -/
def collResult (e : Coll) (gs : List Coll) : Nat × BitVec 5 × List Byte :=
  let eb := ctypeBytes e.ty
  if gs.any (fun g => g.p != e.p || g.n != e.n || g.ty != e.ty || g.sel != e.sel ||
      g.data.length != eb * collElems e.sel e.n e.p true) then (2, 0, [])
  else match e.sel with
    | .ag => (0, 0, gs.flatMap (fun g => g.data))
    | .ar | .rs =>
      let base := match e.sel with
        | .rs => e.r * e.n
        | _ => 0
      let vs := (upTo e.n).map (fun i => collSum e.ty gs (base + i))
      (0, vs.foldl (fun f v => f ||| v.2) 0, vs.flatMap (fun v => leBytes eb v.1))

/-- A participant accepts one of some contributions under its NAME that does not match its own (R300). -/
def collMismatch (s : State) (e : Coll) (gs : List Coll) : Bool :=
  !e.far && e.result.isNone && (upTo e.p).any (fun q => match s.contribution e q with
    | some g => gs.contains g && (g.p != e.p || g.n != e.n || g.ty != e.ty || g.sel != e.sel)
    | none => false)

/-- Every participant whose contributions have all arrived gets its result; contributions from other modules that were
used are done. Another that waits for more ranks, and accepts one of these that does not match its own, ends with STATUS 2. -/
def State.resolveColls (s : State) (gs : List Coll) : State :=
  { s with colls := s.colls.filterMap (fun e =>
      if gs.contains e && e.far then none
      else match (if gs.contains e then s.collGroup e else none) with
        | some g => some { e with result := some (collResult e g) }
        | none => some (if collMismatch s e gs then { e with result := some (2, 0, []) } else e)) }

/-- The record of a collective (R300). -/
def collRecord (status : Nat) (flags : BitVec 5) (cycle : Word) : Word :=
  BitVec.ofNat 64 (6 * 2 ^ 60 + status * 2 ^ 56 + flags.toNat * 2 ^ 45 + bits cycle 31 0)

/-- The locations of a participant's destination bytes; none where one of them may not be written. -/
def collDst (s : State) (x : Ctx) (e : Coll) (n : Nat) : Option (List Nat) :=
  let ks := (upTo n).filterMap (fun i => (engResolve s x (s.collSlot e) (e.dst + BitVec.ofNat 64 i) true).toOption)
  if ks.length = n then some ks else none

/-- A participant is finished: its record is pushed to q3 (R300). A pop of a record with STATUS 0 acquires at .dev (R239, R300). -/
def finishColl (s : State) (e : Coll) (status : Nat) (flags : BitVec 5) : State :=
  let s := { s with colls := s.colls.filter (fun g => g.id != e.id) }
  let c := s.slotAt e.slot
  if c.owner == some e.ctx then
    s.setSlot { c with q3read := c.q3read ++ [collRecord status (if status = 0 then flags else 0) s.cycle],
                       q3seen := c.q3seen ++ [if status = 0 then s.pubs else 0] }
  else s

/-- The next event of a participant's result lands at a location (R231). -/
def State.landColl (s : State) (e : Coll) (bs : List Byte) (kd : Nat) : State :=
  let n := eventLen kd (bs.length - e.landed)
  let ks := spanKeys kd n
  let cs := ks.zip ((bs.drop e.landed).take n)
  (((s.engineEvent cs (e.landed + n == bs.length)).noteBlocks e.ctx (if kd % 64 == 0 || e.landed == 0 then ks else []) true).charge
    e.ctx 5 (unitsLanded e.landed n)).setColl { e with landed := e.landed + n }

/-- A participant's result is known: its bytes land, one event at a time, where its whole destination may be written, else its
STATUS is 2; and then its record is pushed, where q3 has room (R231, R300). -/
def collGo (s : State) (e : Coll) (r : Nat × BitVec 5 × List Byte) : Out :=
  let ev := "COLL_COMPLETE"
  let record := fun (st : Nat) =>
    if 4 ≤ (s.slotAt e.slot).q3read.length then notNow ev else Host.Outcome.next (finishColl s e st r.2.1)
  match s.ctxAt e.ctx with
  | none => record r.1
  | some x =>
    if r.1 ≠ 0 ∨ r.2.2.length ≤ e.landed then record r.1
    else if e.landed = 0 ∧ (collDst s x e r.2.2.length).isNone then record 2
    else match engResolve s x (s.collSlot e) (e.dst + BitVec.ofNat 64 e.landed) true with
      | .error _ => record 2
      | .ok kd => engWrites s (coreOf e.slot) (spanKeys kd (eventLen kd (r.2.2.length - e.landed))) ev (fun _ =>
          .next (s.landColl e r.2.2 kd))

/-- A peer of a contribution is a context of this module that is in ERROR, or whose reset is pending (R300). -/
def State.peerDown (s : State) (e : Coll) : Bool :=
  e.peers.any (fun w => (peerOf w).2.2 == s.ownNode && (match s.ctxAt (peerOf w).2.1 with
    | some x => x.state == .error || x.err.isSome
    | none => false))

/-- COLL_COMPLETE: the k-th contribution's collective is complete, a peer has departed, or its contributions do not
match; its result lands, and its record is pushed (R300). -/
def execCollComplete (k : Nat) (s : State) : Out :=
  let ev := "COLL_COMPLETE"
  match s.colls[k]? with
  | none => notNow ev
  | some e =>
    if e.far || !e.arrived || !s.clusOpen e.ctx (clusOf e.slot) then notNow ev
    else match e.result with
      | some r => collGo s e r
      | none =>
        if e.dead || s.peerDown e then collGo s e (1, 0, [])
        else match s.collGroup e with
          | none => notNow ev
          | some gs => .next (s.resolveColls gs)

/-! ### Messages (R301, R302) -/

/-- The oldest complete message of a send queue: its words with their marks, and the rest. -/
def firstMessage (q : List (Word × Nat)) : Option (List (Word × Nat) × List (Word × Nat)) :=
  match q with
  | [] => none
  | (h, _) :: _ => if headerN h + 1 ≤ q.length then some (q.take (headerN h + 1), q.drop (headerN h + 1)) else none

/-- The source of the umpire's own messages (R162). -/
def umpireSrc : Nat := 2 ^ 20

/-- Words that messages under way will put into a slot's receive queue; the umpire's wait without holding others (R162). -/
def State.wordsComing (s : State) (slot : Nat) : Nat :=
  (s.msgs.filter (fun m => m.dst == slot && m.src != umpireSrc)).foldl (fun n m => n + m.words.length) 0

/-- MESSAGE_LEAVE_SEND_QUEUE: the slot's oldest complete message leaves when its receiver has room for it and what
the sender wrote before it has landed (R302, R34). -/
def execMessageLeaveSendQueue (slot : Nat) (s : State) : Out :=
  let c := s.slotAt slot
  match firstMessage c.q2send, s.ctxOf c with
  | some (ws, rest), some x =>
    let h := ((ws.head?).map (fun e => e.1)).getD 0
    let dst := (x.cores[bits h 23 8]?).getD 0 * 8 + bits h 6 4
    let mark := ws.foldl (fun m e => max m e.2) 0
    if (s.slotAt dst).q2recv.length + s.wordsComing dst + ws.length ≤ 32 && !s.earlierPending slot mark && s.clusOpen x.id (clusOf slot) then
      let s := s.setSlot { c with q2send := rest }
      .next { s with msgs := s.msgs ++ [{ src := slot, dst := dst, words := ws.map (fun e => e.1),
                                          seen := if dieOf slot = dieOf dst then 0 else s.pubs }] }
    else notNow "MESSAGE_LEAVE_SEND_QUEUE"
  | _, _ => notNow "MESSAGE_LEAVE_SEND_QUEUE"

/-- MESSAGE_DELIVERY: the k-th message enters the receive queue whole, after earlier ones of its sender to that
slot (R302). -/
def execMessageDelivery (k : Nat) (s : State) : Out :=
  match s.msgs[k]? with
  | none => notNow "MESSAGE_DELIVERY"
  | some m =>
    let c := s.slotAt m.dst
    if (s.msgs.take k).any (fun n => n.src == m.src && n.dst == m.dst) || decide (32 < c.q2recv.length + m.words.length) then
      notNow "MESSAGE_DELIVERY"
    else
      let s := { s with msgs := s.msgs.take k ++ s.msgs.drop (k + 1) }
      if c.owner.isSome then
        .next (s.setSlot { c with q2recv := c.q2recv ++ m.words, q2seen := c.q2seen ++ List.replicate m.words.length m.seen })
      else .next s

end Sys2Proof.Machine
end

