-- ==== Sys2Proof/Machine/Matrix.lean ====
section
/-! DEFINITION. Matrix units: command instructions, rings, the arbiter, steps, and completion records
(spec/17_matrix_units.md, spec/05_number_formats.md R91 to R97). -/

namespace Sys2Proof.Machine

/-! ### Instructions (R267, R281) -/

/-- The header of a command on the low bits of a register. -/
def cmdWord (code ty opt : Nat) (w : Word) : Word :=
  BitVec.ofNat 64 (code * 2 ^ 60 + ty * 2 ^ 57 + opt * 2 ^ 56 + w.toNat % 2 ^ 56)

/-- Push command words, or wait for room for all of them (R267). -/
def matrixPush (s : State) (c : Slot) (ws : List Word) : Out := pushMatrix s c.ready ws c.npc (.matrix ws) .nothing

/-- A command of one word. -/
def matrixCmd (s : State) (a : Reg5) (code ty opt : Nat) : Out :=
  withSrc1 s a (fun x c => matrixPush s c [cmdWord code ty opt x])

/-- MXOP (Table 17-1). -/
def execMxop (a : Reg5) (ty : MType) (sp : Bool) (s : State) : Out := matrixCmd s a 1 ty.code (if sp then 1 else 0)

/-- MXZERO (Table 17-2). -/
def execMxzero (a : Reg5) (s : State) : Out := matrixCmd s a 2 0 0

/-- MXST (Table 17-2). -/
def execMxst (a : Reg5) (ty : MType) (sat : Bool) (s : State) : Out := matrixCmd s a 3 ty.code (if sat then 1 else 0)

/-- MXLD (Table 17-2). -/
def execMxld (a : Reg5) (s : State) : Out := matrixCmd s a 4 0 0

/-- MXRING: two words, a then b (R267). -/
def execMxring (a b : Reg5) (s : State) : Out :=
  withSrc2 s a b (fun x y c => matrixPush s c [cmdWord 5 0 0 x, y])

/-- MXADV (Table 17-2). -/
def execMxadv (a : Reg5) (s : State) : Out := matrixCmd s a 6 0 0

/-- MXWGT (Table 17-2). -/
def execMxwgt (a : Reg5) (s : State) : Out := matrixCmd s a 7 0 0

/-! ### Units -/

/-- Put a unit back. -/
def State.setUnit (s : State) (u : MUnit) : State := { s with matrix := updKey (fun v => v.clus == u.clus) u s.matrix }

/-- A ring of the unit. -/
def MUnit.ring (u : MUnit) (r : Nat) : Ring := ((u.rings.find? (fun e => e.1 == r)).map (fun e => e.2)).getD Ring.fresh

/-- Set a ring. -/
def MUnit.setRing (u : MUnit) (r : Nat) (v : Ring) : MUnit := { u with rings := updKey (fun e => e.1 == r) (r, v) u.rings }

/-- A tile of the unit, +0 while it is not listed (R266). -/
def MUnit.tile (u : MUnit) (t : Nat) : Vector (BitVec 32) 1024 :=
  ((u.tiles.find? (fun e => e.1 == t)).map (fun e => e.2)).getD (Vector.replicate 1024 0)

/-- Set a tile; one that is all +0 is not listed. -/
def MUnit.setTile (u : MUnit) (t : Nat) (v : Vector (BitVec 32) 1024) : MUnit :=
  if v.toList.all (fun x => x == 0) then { u with tiles := u.tiles.filter (fun e => e.1 != t) }
  else { u with tiles := updKey (fun e => e.1 == t) (t, v) u.tiles }

/-- The CODE of a command word. -/
def codeOf (w : Word) : Nat := bits w 63 60

/-- n of an MXOP word (Table 17-1). -/
def opN (w : Word) : Nat := bits w 41 34 + 1

/-- .sp of an MXOP word. -/
def opSparse (w : Word) : Bool := bits w 56 56 == 1

/-- The steps of a command (Table 17-6). -/
def cmdSteps (w : Word) : Nat :=
  match codeOf w with
  | 1 => if opSparse w then opN w / 2 else opN w
  | _ => 1

/-- The cycles of a step (Tables 1-4, 17-6). -/
def stepCycles (w : Word) : Nat :=
  match codeOf w with
  | 1 => match bits w 59 57 with
    | 0 => 1
    | 1 => 2
    | 2 => 4
    | 3 | 4 => 4
    | 5 | 6 => 8
    | _ => 32
  | 2 => 8
  | 3 | 4 => 32
  | _ => 1

/-- The bytes of a tile (Table 17-5). -/
def tileBytes (ty : Nat) (sparse : Bool) : Nat :=
  2048 * mtypeBits ty / 8 + (if ty < 3 then 256 else 0) + (if sparse then 512 else 0)

/-- The accepted command of a slot. -/
def MUnit.accOf (u : MUnit) (slot : Nat) : Option Accepted := u.acc.find? (fun a => a.slot == slot)

/-- Another accepted command names a tile or ring of the command (R275). -/
def MUnit.conflict (u : MUnit) (slot : Nat) (w : Word) : Bool :=
  u.acc.any (fun a => a.slot != slot &&
    ((match cmdTile w, cmdTile a.word with
      | some t, some v => t == v
      | _, _ => false) || (cmdRings w).any (fun r => (cmdRings a.word).contains r)))

/-- The tiles in a ring beyond its head. -/
def Ring.filled (r : Ring) : Nat := (r.tail - r.head).toNat

/-- The ring tiles of step k of an MXOP are there (R275). -/
def MUnit.tilesReady (u : MUnit) (w : Word) (k : Nat) : Bool :=
  let ra := u.ring (bits w 55 52)
  let rb := u.ring (bits w 51 48)
  if opSparse w then decide (k < ra.filled) && decide (2 * k + 1 < rb.filled)
  else decide (k < ra.filled) && decide (k < rb.filled)

/-- The STATUS with which an MXOP that is not accepted completes without running (R277); 0 where it may run. -/
def MUnit.refusal (u : MUnit) (w : Word) : Nat :=
  let ra := u.ring (bits w 55 52)
  let rb := u.ring (bits w 51 48)
  let ty := bits w 59 57
  if ra.ovf || rb.ovf then 1
  else if ra.size < tileBytes ty (opSparse w) || rb.size < tileBytes ty false then 2
  else if rb.n < opN w || ra.n < (if opSparse w then opN w / 2 else opN w) then 3
  else 0

/-- A slot's next record is held by a full read side, so that no further command of it is accepted (R270). -/
def State.recordHeld (s : State) (u : MUnit) (slot : Nat) : Bool :=
  u.recs.any (fun r => r.slot == slot) && decide (8 ≤ (s.slotAt slot).q0read.length)

/-- The slot's context may use the unit now: no stop halts it (R283). -/
def State.unitOpen (s : State) (slot : Nat) : Bool :=
  match s.ctxOf (s.slotAt slot) with
  | some x => x.state == .run && s.clusOpen x.id (clusOf slot)
  | none => false

/-- The command at the head of a slot's queue can run its next step (R275). A command that is not accepted has first to reach
the unit, which it does once what its push released has landed (R34, R267). An MXOP that STATUS 1 to 3 refuses does not
complete while another accepted command names its tile or a ring of it: the spec gives the two tests no order
(notes/assumptions/65.md). -/
def State.cmdReady (s : State) (u : MUnit) (slot : Nat) : Bool :=
  match (s.slotAt slot).q0push with
  | [] => false
  | (w, mark) :: _ =>
    if !s.unitOpen slot || u.conflict slot w then false
    else match u.accOf slot with
      | some a => u.tilesReady w a.steps
      | none =>
        !s.earlierPending slot mark && !s.recordHeld u slot && (match codeOf w with
          | 1 => u.refusal w != 0 || u.tilesReady w 0
          | 2 | 3 | 4 | 5 | 7 => true
          | _ => false)

/-- The ready slot of a core that is next: above the slot served last, wrapping after 6 (R275). -/
def State.readySlot (s : State) (u : MUnit) (pos : Nat) : Option Nat :=
  let last := (u.lastSlot[pos]?).getD 6
  ((upTo 7).map (fun k => (u.clus * 8 + pos) * 8 + (last + 1 + k) % 7)).find? (s.cmdReady u)

/-- The slot that the arbiter serves next: the visited core while it is ready and has steps left, else the next ready
core in ascending position (R275). -/
def State.arbiter (s : State) (u : MUnit) : Option Nat :=
  match (if 0 < u.left then s.readySlot u u.last else none) with
  | some p => some p
  | none => ((upTo 8).map (fun k => (u.last + 1 + k) % 8)).findSome? (s.readySlot u)

/-- The unit after a step of a slot: the visit goes on or begins (R275). A visit has the steps of the weight that the core had when
it began: whether an MXWGT that takes effect in it changes its length is left open (the model's choice,
notes/assumptions/73.md). -/
def MUnit.served (u : MUnit) (slot : Nat) : MUnit :=
  let pos := coreOf slot % 8
  let left := if pos = u.last ∧ 0 < u.left then u.left - 1 else (u.weights[pos]?).getD 1 - 1
  { u with last := pos, left := left, lastSlot := u.lastSlot.setIfInBounds pos (slotNo slot) }

/-- A visit ends when the visited core is no longer ready (R275). -/
def State.endVisit (s : State) (clus : Nat) : State :=
  match s.unitAt clus with
  | none => s
  | some u => if 0 < u.left && (s.readySlot u u.last).isNone then s.setUnit { u with left := 0 } else s

/-- The visits whose core something else than a step of its unit has made not ready end (R275). -/
def State.endVisits (s : State) : State :=
  (s.matrix.filter (fun (u : MUnit) => decide (0 < u.left))).foldl (fun (s : State) (u : MUnit) => s.endVisit u.clus) s

/-- Drop n words from the head of a slot's push side. -/
def State.dropPush (s : State) (slot n : Nat) : State :=
  let c := s.slotAt slot
  s.setSlot { c with q0push := c.q0push.drop n }

/-- The record of a command without its CYC (Table 17-4). -/
def mxRecord (w : Word) (status : Nat) (flags : BitVec 5) : Word :=
  BitVec.ofNat 64 (codeOf w * 2 ^ 60 + status * 2 ^ 56 + (cmdTile w).getD 0 * 2 ^ 50 + flags.toNat * 2 ^ 45)

/-- A command with STATUS 0 that writes its tile: MXOP, MXZERO and MXLD (R239). -/
def writesTile (w : Word) (status : Nat) : Bool := status == 0 && (codeOf w == 1 || codeOf w == 2 || codeOf w == 4)

/-- The command of a slot is complete: its record is due, with the tile as it then stands where the command wrote it (R239), its
word leaves the queue, and it is no longer accepted. -/
def State.completeCmd (s : State) (u : MUnit) (slot : Nat) (w : Word) (status : Nat) (flags : BitVec 5) : State :=
  let t := (cmdTile w).getD 0
  let id := if writesTile w status then s.nextId + 1 else 0
  (State.setUnit { s with nextId := if writesTile w status then s.nextId + 1 else s.nextId }
    { u with acc := u.acc.filter (fun a => a.slot != slot),
             recs := u.recs ++ [{ slot := slot, word := mxRecord w status flags, snap := id }],
             snaps := if writesTile w status then (id, t, u.tile t) :: u.snaps else u.snaps }).dropPush slot 1

/-! ### Reading tiles -/

/-- The value at a stored position of a tile whose first byte lies at a location (R92, R94, R273). -/
def tileValue (s : State) (k ty : Nat) (shift : Int) (pos : Nat) : FVal :=
  let e := mtypeBits ty
  let raw := leNat (s.readHomeN (k + pos * e / 8) (max 1 (e / 8))) / 2 ^ (pos * e % 8) % 2 ^ e
  if ty < 3 then
    let meta_ := k + 2048 * e / 8 + 2 * (pos / 16)
    let scale := (s.readHome meta_).toNat
    let micro := (s.readHome (meta_ + 1)).toNat
    gqValue (e - 1) shift scale (micro / 2 ^ (pos % 16 / 2) % 2) raw
  else match ty with
    | 3 => fmtE4M3.decode raw
    | 4 => fmtE5M2.decode raw
    | 5 => fmtBF16.decode raw
    | 6 => fmtF16.decode raw
    | _ => fmtF32.decode raw

/-- The signed tensor shift of seven bits. -/
def shiftOf (n : Nat) : Int := sintN n 7

/-- A(m, k) of a dense tile (R273). -/
def denseA (s : State) (w : Word) (ka m k : Nat) : FVal :=
  tileValue s ka (bits w 59 57) (shiftOf (bits w 31 25)) (if bits w 33 33 = 1 then 32 * k + m else 64 * m + k)

/-- A(m, k) of a sparse tile, expanded (R273). -/
def sparseA (s : State) (w : Word) (ka m k : Nat) : FVal :=
  let ty := bits w 59 57
  let j := k / 4
  let plane := ka + tileBytes ty false
  let nib := (s.readHome (plane + 16 * m + j / 2)).toNat / 2 ^ (4 * (j % 2)) % 16
  let at_ := fun i => tileValue s ka ty (shiftOf (bits w 31 25)) (64 * m + 2 * j + i)
  if nib / 4 = k % 4 then at_ 1
  else if nib % 4 = k % 4 then at_ 0
  else .fin { neg := false, m := 0, e := 0 }

/-- B(k, n) of a tile (R273). -/
def tileB (s : State) (w : Word) (kb k n : Nat) : FVal :=
  tileValue s kb (bits w 59 57) (shiftOf (bits w 24 18)) (if bits w 32 32 = 1 then 64 * n + k else 32 * k + n)

/-! ### Chunk sums (R96) -/

/-- An exact product (R96). -/
def exactMul (a b : FVal) : FVal :=
  match a, b with
  | .nan _, _ => .nan false
  | _, .nan _ => .nan false
  | .inf p, .inf q => .inf (p != q)
  | .inf p, .fin y => if y.m = 0 then .nan false else .inf (p != y.neg)
  | .fin x, .inf q => if x.m = 0 then .nan false else .inf (x.neg != q)
  | .fin x, .fin y => .fin (x.mul y)

/-- The exact sum of finite products, with the sign of zero of R96. -/
def exactSum (ps : List Dy) : Dy :=
  let e := ps.foldl (fun m p => min m p.e) 0
  let t := ps.foldl (fun (a : Int) p => a + p.scaled e) 0
  if t = 0 then { neg := ps.all (fun p => p.m == 0 && p.neg), m := 0, e := 0 }
  else { neg := decide (t < 0), m := t.natAbs, e := e }

/-- A chunk's sum, rounded once to FP32 (R96). -/
def chunkSum (ps : List FVal) : FRes :=
  let pos := ps.any (fun p => p == .inf false)
  let neg := ps.any (fun p => p == .inf true)
  if ps.any FVal.isNan || (pos && neg) then (fmtF32.nan, flagNV)
  else if pos || neg then (fmtF32.inf neg, 0)
  else fmtF32.round .rne false (exactSum (ps.filterMap (fun p => match p with
    | .fin x => some x
    | _ => none)))

/-- One element's chunks of a step: the accumulator and flags after them (R277). -/
def accChunks (f : Nat → FVal) : Nat → FRes → FRes
  | 0, a => a
  | n + 1, a =>
    let (x, fx) := (accChunks f n a)
    let (c, fc) := chunkSum ((upTo 16).map (fun i => f (16 * n + i)))
    let (y, fy) := fmtF32.addV .rne (fmtF32.decode x) (fmtF32.decode c)
    (y, fx ||| fc ||| fy)

/-- The location of a ring slot: its j-th tile of a context's cluster scratchpad (R271). -/
def ringKey (clus ctx : Nat) (r : Ring) (j : Nat) : Nat :=
  keyOf Space.clus (shareUnit clus ctx) (r.base + r.size * (j % max 1 r.n))

/-- The locations of the ring tiles that step k of an MXOP reads (R273, R277). -/
def opKeys (u : MUnit) (ctx : Nat) (w : Word) (k : Nat) : List Nat :=
  let ra := u.ring (bits w 55 52)
  let rb := u.ring (bits w 51 48)
  let ty := bits w 59 57
  let b := fun (j : Nat) => spanKeys (ringKey u.clus ctx rb (rb.head.toNat + j)) (tileBytes ty false)
  spanKeys (ringKey u.clus ctx ra (ra.head.toNat + k)) (tileBytes ty (opSparse w)) ++
    (if opSparse w then b (2 * k) ++ b (2 * k + 1) else b k)

/-- Step k of an MXOP on its tile: the new tile and the flags (R277). When between its acceptance and its retirement an MXOP
reads a tile's bytes is left open (R40): the model reads a tile whole in the step that uses it (notes/assumptions/65.md). -/
def opStep (s : State) (u : MUnit) (ctx : Nat) (w : Word) (k : Nat) : Vector (BitVec 32) 1024 × BitVec 5 :=
  let ra := u.ring (bits w 55 52)
  let rb := u.ring (bits w 51 48)
  let old := u.tile (bits w 47 42)
  let ka := ringKey u.clus ctx ra (ra.head.toNat + k)
  let res := (upTo 1024).map (fun i =>
    let m := i / 32
    let n := i % 32
    let acc := ((old[i]?).getD 0).toNat
    if opSparse w then
      let kb := ringKey u.clus ctx rb (rb.head.toNat + 2 * k)
      let kc := ringKey u.clus ctx rb (rb.head.toNat + 2 * k + 1)
      accChunks (fun q => exactMul (sparseA s w ka m q) (if q < 64 then tileB s w kb q n else tileB s w kc (q - 64) n)) 8 (acc, 0)
    else
      let kb := ringKey u.clus ctx rb (rb.head.toNat + k)
      accChunks (fun q => exactMul (denseA s w ka m q) (tileB s w kb q n)) 4 (acc, 0))
  (Vector.ofFn (fun (i : Fin 1024) => BitVec.ofNat 32 (res.getD i.val (0, 0)).1), res.foldl (fun f r => f ||| r.2) 0)

/-! ### MXLD and MXST (R278, R279) -/

/-- The tile index of a position: 32m + n, or transposed (Table 17-2). -/
def posIndex (tr : Bool) (i : Nat) : Nat := if tr then i % 32 * 32 + i / 32 else i

/-- The tile that MXLD reads from the pushing core's scratchpad (R278). -/
def loadTile (s : State) (c : Slot) (ctx : Nat) (w : Word) : Vector (BitVec 32) 1024 :=
  let k := keyOf Space.core (shareUnit (coreOf c.phys) ctx) (bits w 17 0)
  let tr := bits w 46 46 == 1
  Vector.ofFn (fun (i : Fin 1024) => BitVec.ofNat 32 (leNat (s.readHomeN (k + 4 * posIndex tr i.val) 4)))

/-- The floating format of a matrix type that has one. -/
def mtypeFmt (t : Nat) : Fmt :=
  match t with
  | 3 => fmtE4M3
  | 4 => fmtE5M2
  | 5 => fmtBF16
  | 6 => fmtF16
  | _ => fmtF32

/-- The cells that MXST writes through its window, and its flags (R279, Table 12-4). -/
def storeTile (u : MUnit) (c : Slot) (ctx : Nat) (w win : Word) : List Host.Cell × BitVec 5 :=
  let ty := bits w 59 57
  let sat := bits w 56 56 == 1
  let tr := bits w 46 46 == 1
  let o := bits w 17 0
  let e := mtypeBits ty
  let base := keyOf Space.core (shareUnit (coreOf c.phys) ctx) 0
  let tile := u.tile (bits w 55 50)
  let val := fun i : Nat => fmtF32.decode ((tile[posIndex tr i]?).getD 0).toNat
  if ty < 3 then
    let bs := (upTo 64).map (fun b =>
      let g := gqEncode ((upTo 16).map (fun i => val (16 * b + i))) (e - 1) (shiftOf (bits win 31 25)) .rne sat
      let data := leBytes (2 * e) (ofElemsN e (fun i => g.codes.getD i 0) 16)
      let mk := base + 2 * bits win 21 5 + 2 * (o * 8 / e / 16 + b)
      (cellsAt (base + o + 2 * e * b) data, cellsAt mk [BitVec.ofNat 8 g.scale, BitVec.ofNat 8 g.micro], g.flags))
    (bs.flatMap (fun x => x.1) ++ bs.flatMap (fun x => x.2.1), bs.foldl (fun f x => f ||| x.2.2) 0)
  else
    let rs := (upTo 1024).map (fun i => (mtypeFmt ty).conv .rne sat (val i))
    (cellsAt (base + o) (rs.flatMap (fun r => leBytes (e / 8) r.1)), rs.foldl (fun f r => f ||| r.2) 0)

/-! ### Events -/

/-- Count and charge a step of a context (Tables 26-1, 26-5). -/
def State.noteStep (s : State) (x : Ctx) (clus : Nat) (w : Word) : State :=
  let l := (x.lclusOf clus).getD 0
  ((s.count x.id l 0x80 1).count x.id l 0x81 (stepCycles w)).charge x.id 4 (stepCycles w)

/-- One step of an MXOP: its first accepts it; its last retires it and completes it (R275, R277). -/
def runOp (s : State) (u : MUnit) (x : Ctx) (slot : Nat) (w : Word) : State :=
  let a := (u.accOf slot).getD { slot := slot, word := w, steps := 0, flags := 0 }
  let (tile, fl) := opStep s u x.id w a.steps
  let u := (u.served slot).setTile (bits w 47 42) tile
  let flags := a.flags ||| fl
  if a.steps + 1 = cmdSteps w then
    let n := opN w
    let ra := bits w 55 52
    let rb := bits w 51 48
    let u := u.setRing ra { u.ring ra with head := (u.ring ra).head + BitVec.ofNat 32 (if opSparse w then n / 2 else n) }
    let u := u.setRing rb { u.ring rb with head := (u.ring rb).head + BitVec.ofNat 32 n }
    s.completeCmd u slot w 0 flags
  else s.setUnit { u with acc := updKey (fun b => b.slot == slot) { a with steps := a.steps + 1, flags := flags } u.acc }

/-- One step of the command at the head of the slot's queue: MXOP, MXZERO, MXLD or MXST (R277 to R279). -/
def runStep (s : State) (u : MUnit) (x : Ctx) (slot : Nat) (w : Word) : State :=
  let c := s.slotAt slot
  match codeOf w with
  | 1 => runOp s u x slot w
  | 2 => s.completeCmd ((u.served slot).setTile (bits w 55 50) (Vector.replicate 1024 0)) slot w 0 0
  | 4 => s.completeCmd ((u.served slot).setTile (bits w 55 50) (loadTile s c x.id w)) slot w 0 0
  | _ =>
    let win := ((u.stWins.find? (fun e => e.1 == slot)).map (fun e => e.2)).getD 0
    let (cs, fl) := storeTile u c x.id w win
    s.setUnit { u.served slot with stWins := dropFirst (fun e => e.1 == slot) u.stWins, storing := some (slot, cs, fl) }

/-- The cells of some in the aligned 8 bytes of the first of them: one event of a write (R231). -/
def firstEvent (cs : List Host.Cell) : List Host.Cell :=
  match cs with
  | [] => []
  | (k, _) :: _ => cs.takeWhile (fun (x : Host.Cell) => x.1 / 8 == k / 8)

/-- The bytes of the MXST whose step runs land, one event of its write at a time; with the last the command is complete (R231,
R279). -/
def storeGo (s : State) (u : MUnit) (slot : Nat) (cs : List Host.Cell) (fl : BitVec 5) : Out :=
  match (s.slotAt slot).q0push with
  | [] => .next (s.setUnit { u with storing := none })
  | (w, _) :: _ =>
    if cs.isEmpty then .next ((s.completeCmd { u with storing := none } slot w 0 fl).endVisit u.clus)
    else
      let ev := firstEvent cs
      let rest := cs.drop ev.length
      engWrites s (coreOf slot) (ev.map (fun (x : Host.Cell) => x.1)) "MATRIX_STEP" (fun _ =>
        .next ((s.engineEvent ev rest.isEmpty).setUnit { u with storing := some (slot, rest, fl) }))

/-- The locations that the next step of a command reads, and those that it writes in scratchpads (R277 to R279). -/
def stepKeys (u : MUnit) (c : Slot) (ctx : Nat) (w : Word) : List Nat × List Nat :=
  let own := keyOf Space.core (shareUnit (coreOf c.phys) ctx) (bits w 17 0)
  match codeOf w with
  | 1 => (opKeys u ctx w (((u.accOf c.phys).map (fun a => a.steps)).getD 0), [])
  | 3 =>
    let win := ((u.stWins.find? (fun e => e.1 == c.phys)).map (fun e => e.2)).getD 0
    let e := mtypeBits (bits w 59 57)
    let blocks := keyOf Space.core (shareUnit (coreOf c.phys) ctx) (2 * bits win 21 5 + 2 * (bits w 17 0 * 8 / e / 16))
    ([], spanKeys own (128 * e) ++ (if bits w 59 57 < 3 then spanKeys blocks 128 else []))
  | 4 => (spanKeys own 4096, [])
  | _ => ([], [])

/-- The address of a scratchpad location in the own regions of a thread at its home. -/
def ownAddr (k : Nat) : Word := BitVec.ofNat 64 (keyOff k + (if keySpace k == Space.clus then 0x1000000 else 0))

/-- A step of a command goes on: what it reads and writes is open to the unit, and no error stands in it (R3, R214, R235). -/
def stepGo (s : State) (u : MUnit) (x : Ctx) (c : Slot) (w : Word) : Out :=
  let (rs, ws) := stepKeys u c x.id w
  engReads s x (s.engOpen (coreOf c.phys)) rs 0 (fun _ s => s) (fun i => ownAddr (rs.getD i 0)) "MATRIX_STEP" (fun _ =>
    engWrites s (coreOf c.phys) ws "MATRIX_STEP" (fun _ =>
      let s := (s.noteBlocks x.id rs false).noteBlocks x.id ws true
      .next (((runStep s u x c.phys w).noteStep x u.clus w).endVisit u.clus)))

/-- MATRIX_STEP: the arbiter runs one step of the command it serves next; an MXOP that may not run completes with its
STATUS and takes no step (R274, R275, R277). The step of an MXST goes on until its bytes have landed. -/
def execMatrixStep (clus : Nat) (s : State) : Out :=
  match s.unitAt clus with
  | none => notNow "MATRIX_STEP"
  | some u =>
    match u.storing, s.arbiter u with
    | some (slot, cs, fl), _ => storeGo s u slot cs fl
    | none, none => notNow "MATRIX_STEP"
    | none, some slot =>
      match (s.slotAt slot).q0push, s.ctxOf (s.slotAt slot) with
      | (w, _) :: _, some x =>
        if codeOf w = 5 ∨ codeOf w = 7 then notNow "MATRIX_STEP"
        else if codeOf w = 1 ∧ (u.accOf slot).isNone ∧ u.refusal w ≠ 0 then
          .next ((s.completeCmd u slot w (u.refusal w) 0).endVisit clus)
        else stepGo s u x (s.slotAt slot) w
      | _, _ => notNow "MATRIX_STEP"

/-- MATRIX_RECORD_PUSH: the oldest record due for a slot with room enters its read side, with the cycle of the push
(R270). -/
def execMatrixRecordPush (clus : Nat) (s : State) : Out :=
  match s.unitAt clus with
  | none => notNow "MATRIX_RECORD_PUSH"
  | some u =>
    match u.recs.find? (fun r => decide ((s.slotAt r.slot).q0read.length < 8)) with
    | none => notNow "MATRIX_RECORD_PUSH"
    | some r =>
      let s := s.setUnit { u with recs := dropFirst (fun e => e.slot == r.slot) u.recs }
      let c := s.slotAt r.slot
      .next ((s.setSlot { c with q0read := c.q0read ++ [r.word + BitVec.ofNat 64 (bits s.cycle 31 0)],
                                 q0tiles := c.q0tiles ++ [r.snap] }).endVisit clus)

/-- The ring that MXRING's two words describe (Table 17-2, R271). -/
def ringOfWords (w v : Word) : Ring :=
  { base := bits w 21 0, size := 64 * (bits w 47 40 + 1), n := 2 ^ bits w 51 48, head := 0, tail := 0, ovf := false,
    auto := if bits v 9 9 = 1 then some (bits v 8 6, bits v 5 3) else none }

/-- MXRING_TAKE_EFFECT: the arbiter dequeues the slot's MXRING and sets the ring (R271). -/
def execMxringTakeEffect (slot : Nat) (s : State) : Out :=
  match s.unitAt (clusOf slot), (s.slotAt slot).q0push, s.ctxOf (s.slotAt slot) with
  | some u, (w, _) :: (v, _) :: _, some x =>
    if codeOf w = 5 ∧ u.storing.isNone ∧ s.arbiter u = some slot then
      .next ((((s.setUnit ((u.served slot).setRing (bits w 55 52) (ringOfWords w v))).dropPush slot 2).noteStep x u.clus w).endVisit
        u.clus)
    else notNow "MXRING_TAKE_EFFECT"
  | _, _, _ => notNow "MXRING_TAKE_EFFECT"

/-- The place of an MXADV that reaches the unit: at the head, or behind MXOPs alone whose first waits for ring tiles
(R272). Of several MXOPs ahead only the first is tested, and the others, which wait behind it, are passed with it: the spec
leaves that open (notes/assumptions/65.md). -/
def State.advIndex (s : State) (u : MUnit) (slot : Nat) : Option Nat :=
  let q := (s.slotAt slot).q0push.map (fun e => e.1)
  match q.findIdx? (fun w => codeOf w != 1) with
  | none => none
  | some i =>
    if (q[i]?).map codeOf != some 6 then none
    else if i = 0 then some 0
    else match q.head? with
      | some w =>
        let k := ((u.accOf slot).map (fun a => a.steps)).getD 0
        if ((u.accOf slot).isSome || u.refusal w == 0) && !u.tilesReady w k then some i else none
      | none => none

/-- MXADV_REACH_UNIT: the ring's tail advances; the advance takes no step (R272). -/
def execMxadvReachUnit (slot : Nat) (s : State) : Out :=
  match s.unitAt (clusOf slot) with
  | none => notNow "MXADV_REACH_UNIT"
  | some u =>
    match s.advIndex u slot with
    | none => notNow "MXADV_REACH_UNIT"
    | some i =>
      let c := s.slotAt slot
      let (w, mark) := (c.q0push[i]?).getD (0, 0)
      if !s.unitOpen slot || s.earlierPending slot mark then notNow "MXADV_REACH_UNIT"
      else
        let r := bits w 55 52
        .next ((s.setUnit (u.setRing r ((u.ring r).advance (bits w 51 44)))).setSlot
          { c with q0push := c.q0push.take i ++ c.q0push.drop (i + 1) })

/-- MXWGT_TAKE_EFFECT: the arbiter dequeues the slot's MXWGT and sets the core's weight (R280). -/
def execMxwgtTakeEffect (slot : Nat) (s : State) : Out :=
  match s.unitAt (clusOf slot), (s.slotAt slot).q0push, s.ctxOf (s.slotAt slot) with
  | some u, (w, _) :: _, some x =>
    if codeOf w = 7 ∧ u.storing.isNone ∧ s.arbiter u = some slot then
      let v := u.served slot
      .next ((((s.setUnit { v with weights := v.weights.setIfInBounds (coreOf slot % 8) (bits w 55 52) }).dropPush slot 1).noteStep
        x u.clus w).endVisit u.clus)
    else notNow "MXWGT_TAKE_EFFECT"
  | _, _, _ => notNow "MXWGT_TAKE_EFFECT"

end Sys2Proof.Machine
end

