-- ==== Sys2Proof/Machine/Placement.lean ====
section
/-! DEFINITION. Capacities, sums and placement: what an admission or a slice needs and where the umpire puts it
(spec/21_warrants_and_contexts.md R332 to R334, spec/16 R250, spec/27 R400). -/

namespace Sys2Proof.Machine

/-! ### Capacities and sums (R332, Table 21-5) -/

/-- The umpire's own reserve of a resource (R332, R410). -/
def State.reserveOf (s : State) (code : Nat) : Nat :=
  match s.commission with
  | some r => ((r.reserve.filter (fun e => e.1 == code)).map (fun e => e.2)).foldl (fun a b => a + b) 0
  | none => 0

/-- The module's count of each resource of Table 21-5, codes 1 to 13 (Tables 1-1, 1-2, 1-6). -/
def moduleCount (code : Nat) : Nat :=
  match code with
  | 1 => 96768
  | 2 => 221184
  | 3 => 110592
  | 4 => 2304000000000
  | 5 => 13824
  | 6 => 98304
  | 7 => 6291456
  | 8 => 1536
  | 9 => 9200000
  | 10 => 384
  | 11 => 1024
  | 12 => 110592
  | 13 => 1728
  | _ => 0

/-- Cr of R332. -/
def State.capacity (s : State) (code : Nat) : Nat := moduleCount code - s.reserveOf code

/-- The sum of a class's commitments to a resource. -/
def State.committed (s : State) (cls code : Nat) : Nat :=
  ((s.commits.filter (fun c => c.cls == cls)).map (fun c => c.q.getD (code - 1) 0)).foldl (fun a b => a + b) 0

/-- The elastic factor F, 1 while nothing is commissioned (R332, R410). -/
def State.factor (s : State) : Nat := (s.commission.map (fun r => r.factor)).getD 1

/-- The rule of step 7 for a quantity x of a resource (R332). -/
def State.sumPasses (s : State) (cls code x : Nat) : Bool :=
  let g := s.committed 0 code
  let e := s.committed 1 code
  let c := s.capacity code
  match cls with
  | 0 => decide (g + x ≤ c) && decide (g + e + x ≤ s.factor * c)
  | 1 => decide (g + e + x ≤ s.factor * c)
  | _ => decide (x ≤ c)

/-! ### Device memory by stack (R250, R254) -/

/-- G of R250: bytes rounded up to 64 KiB. -/
def grantBytes (n : Nat) : Nat := ceilDiv n 65536 * 65536

/-- The numbers of pages of P, of 2 MiB and of 64 KiB of a grant over n dies (R250). -/
def pageCounts (g n : Nat) : Nat × Nat × Nat × Nat :=
  let p := pageSize g (max 1 n)
  let n0 := g / p
  let r0 := g - n0 * p
  let n1 := if p > 2 ^ 21 then r0 / 2 ^ 21 else 0
  let r1 := r0 - n1 * 2 ^ 21
  (p, n0, n1, if p > 2 ^ 16 then r1 / 2 ^ 16 else 0)

/-- Numbers below x that leave remainder j by m. -/
def countMod (x j m : Nat) : Nat := if x ≤ j then 0 else (x - j - 1) / m + 1

/-- The pages and the bytes of a grant that lie behind stack index j of 2n (R250). -/
def stackShare (g n j : Nat) : Nat × Nat :=
  let m := 2 * max 1 n
  let (p, n0, n1, n2) := pageCounts g n
  let a := countMod n0 j m
  let b := countMod (n0 + n1) j m - a
  let c := countMod (n0 + n1 + n2) j m - a - b
  (a + b + c, a * p + b * 2 ^ 21 + c * 2 ^ 16)

/-- What a grant takes of a stack: its pages, 16 bytes of page table for each, and 4 KiB where there is one (R333). -/
def stackCost (g n j : Nat) : Nat :=
  let (k, b) := stackShare g n j
  b + 16 * k + (if k = 0 then 0 else 4096)

/-- Quantity 4 of Table 21-5. -/
def memoryQuantity (g n : Nat) : Nat := ((upTo (2 * max 1 n)).map (stackCost g n)).foldl (fun a b => a + b) 0

/-! ### What is held -/

/-- Banks of a core for some bytes (R211). -/
def coreBanks (b : Nat) : Nat := ceilDiv b 16384

/-- Banks of a cluster for some bytes (R212). -/
def clusBanks (b : Nat) : Nat := ceilDiv b 65536

/-- A context that holds its place on the module. A saved-out context has given its place up, but for a guaranteed one,
which always keeps it (R332, R359). -/
def Ctx.placed (x : Ctx) : Bool := (!x.slots.isEmpty || !x.shares.isEmpty) && (x.stop != .saved || x.res.cls == 0)

/-- What is held of each unit: slots, free slots by core, banks by core and cluster, shares, resident contexts by
core, debug modules by cluster, bytes by stack, and huddle entries, queue slots, fabric shares and sealed contexts by die. -/
structure Usage where
  slot    : Array Bool
  free    : Array Nat
  cbank   : Array Nat
  xbank   : Array Nat
  share   : Array Bool
  res     : Array Nat
  mods    : Array Bool
  stack   : Array Nat
  huddle  : Array Nat
  hwq     : Array Nat
  fabric  : Array Nat
  pair    : Array Nat

/-- Nothing held. -/
def Usage.none : Usage :=
  { slot := Array.replicate 110592 false, free := Array.replicate 13824 7, cbank := Array.replicate 13824 0,
    xbank := Array.replicate 1728 0, share := Array.replicate 13824 false, res := Array.replicate 13824 0,
    mods := Array.replicate 1728 false,
    stack := Array.replicate 48 0, huddle := Array.replicate 24 0, hwq := Array.replicate 24 0,
    fabric := Array.replicate 24 0, pair := Array.replicate 24 0 }

/-- Add n at some indices. -/
def bump (a : Array Nat) (ks : List Nat) (n : Nat) : Array Nat := ks.foldl (fun (a : Array Nat) k => a.modify k (fun v => v + n)) a

/-- Each number once. -/
def distinct (xs : List Nat) : List Nat := xs.foldr (fun x r => if r.contains x then r else x :: r) []

/-- The dies of a context's slots, rising. -/
def diesOf (slots : List Nat) : List Nat := (upTo 24).filter (fun d => slots.any (fun p => dieOf p == d))

/-- The cores of some clusters. -/
def coresOfClus (ks : List Nat) : List Nat := ks.flatMap (fun k => (upTo 8).map (fun i => k * 8 + i))

/-- Add the slots, shares, ways, queue slots and fabric shares that a context holds; one that is saved out holds none (R332,
R359). -/
def Usage.addCtx (u : Usage) (x : Ctx) : Usage :=
  if !x.placed then u
  else
  let cores := distinct (x.slots.map coreOf)
  let ds := diesOf x.slots
  let u := { u with
    slot := x.slots.foldl (fun (a : Array Bool) p => a.setIfInBounds p true) u.slot,
    free := x.slots.foldl (fun (a : Array Nat) p => a.modify (coreOf p) (fun v => v - 1)) u.free,
    res := bump u.res cores 1, hwq := bump u.hwq ds 1,
    share := x.shares.foldl (fun (a : Array Bool) k => a.setIfInBounds k true) u.share }
  let u := if x.warrant.sealed then { u with
      free := (coresOfClus x.clusters).foldl (fun (a : Array Nat) k => a.setIfInBounds k 0) u.free } else u
  if x.res.cls == 0 then { u with fabric := bump u.fabric ds 1 } else u

/-- The bytes of a context's core banks and cluster banks: a context built sealed holds all of its cores and clusters, and a split
child of one the banks that it took (R334, R339). -/
def Ctx.bankBytes (x : Ctx) : Nat × Nat :=
  if x.warrant.sealed && x.parent.isNone then (262144, 4194304) else (x.res.coreB, x.res.clusB)

/-- Add the banks, pages and huddle entries of a family: its root's, or those of each member whose root has ended. -/
def Usage.addFamily (u : Usage) (x : Ctx) (members : List Ctx) : Usage :=
  let here := members.filter Ctx.placed
  let cores := distinct (here.flatMap (fun y => y.cores))
  let clus := distinct (here.flatMap (fun y => y.clusters))
  let (cb, xb) := x.bankBytes
  let n := x.layout.dies.length
  { u with
    cbank := bump u.cbank cores (coreBanks cb), xbank := bump u.xbank clus (clusBanks xb),
    stack := (upTo (2 * n)).foldl (fun (a : Array Nat) j =>
      a.modify ((x.layout.dies[j % max 1 n]?).getD 0 * 2 + j / max 1 n) (fun v => v + stackCost x.layout.g n j)) u.stack,
    huddle := if here.isEmpty then u.huddle else bump u.huddle x.layout.dies (ceilDiv x.warrant.res.huddles (max 1 n)) }

/-- The pairs of virtual channels that some contexts hold, each once, numbered die × 4 + pair (R400). -/
def pairsOf (xs : List Ctx) : List Nat := distinct (xs.flatMap (fun x => x.pairs.map (fun e => e.1 * 4 + e.2)))

/-- The lowest pair of a die that no context holds (R400). -/
def freePair (held : List Nat) (die : Nat) : Option (Nat × Nat) :=
  ((upTo 4).find? (fun k => !held.contains (die * 4 + k))).map (fun k => (die, k))

/-- What some contexts hold. -/
def usageOf (xs : List Ctx) : Usage :=
  let u := xs.foldl Usage.addCtx Usage.none
  let u := { u with pair := (pairsOf xs).foldl (fun (a : Array Nat) k => a.modify (k / 4) (fun v => v + 1)) u.pair }
  xs.foldl (fun (u : Usage) x =>
    match x.parent with
    | none => u.addFamily x (xs.filter (fun y => y.root == x.id))
    | some _ => if xs.any (fun y => y.id == x.root) then u else u.addFamily x [x]) u

/-! ### Placement (R334) -/

/-- What is to be placed. -/
structure Need where
  threads : Nat
  coreB   : Nat
  clusB   : Nat
  g       : Nat
  weight  : Nat
  huddles : Nat
  cls     : Nat
  sealed  : Bool

/-- The need of a warrant. -/
def Warrant.need (w : Warrant) : Need :=
  { threads := w.res.threads, coreB := w.res.coreB, clusB := w.res.clusB, g := grantBytes w.res.devB, weight := w.res.weight,
    huddles := w.res.huddles, cls := w.res.cls, sealed := w.sealed }

/-- The free slots of a core that the need can take, with the conditions of the resources up to a code (R334). -/
def coreRoom (u : Usage) (n : Need) (code core : Nat) : Nat :=
  let f := u.free.getD core 0
  let cb := if n.sealed then 16 else coreBanks n.coreB
  let xb := if n.sealed then 64 else clusBanks n.clusB
  if (decide (2 ≤ code) && decide (16 < u.cbank.getD core 0 + cb)) ||
      (decide (3 ≤ code) && decide (64 < u.xbank.getD (core / 8) 0 + xb)) ||
      (decide (5 ≤ code) && (n.weight != 0 || n.sealed) && u.share.getD core false) ||
      (decide (12 ≤ code) && (n.sealed && u.res.getD core 0 != 0)) then 0
  else f

/-- The free slots of a cluster that the need can take. A sealed context takes whole clusters, whose debug modules no other context
holds (code 13; R28, R390). -/
def clusRoom (u : Usage) (n : Need) (code clus : Nat) : Nat :=
  let r := ((upTo 8).map (fun i => coreRoom u n code (clus * 8 + i))).foldl (fun a b => a + b) 0
  if n.sealed && decide (13 ≤ code) then (if r = 56 && !u.mods.getD clus false then 56 else 0) else r

/-- The sum of the k largest numbers, all at most `top`. -/
def topSum (xs : List Nat) : Nat → Nat → Nat
  | 0, _ => 0
  | top + 1, k =>
    if k = 0 then 0
    else
      let m := min k (xs.filter (fun x => x == top + 1)).length
      m * (top + 1) + topSum xs top (k - m)

/-- The sum of the k largest rooms of some units. -/
def bestSum (xs : List (Nat × Nat)) (k : Nat) : Nat :=
  topSum (xs.map (fun e => e.2)) (xs.foldl (fun m e => max m e.2) 0) k

/-- The first sets of k units, in lexicographic order, whose rooms reach a need and which a test accepts. -/
def pickUnits {α : Type} (ok : List Nat → Option α) : List (Nat × Nat) → Nat → Nat → List Nat → Option α
  | _, 0, need, acc => if need = 0 then ok acc.reverse else none
  | [], _ + 1, _, _ => none
  | (d, r) :: rest, k + 1, need, acc =>
    if r + bestSum rest k < need then pickUnits ok rest (k + 1) need acc
    else match pickUnits ok rest k (need - r) (d :: acc) with
      | some a => some a
      | none => if need ≤ bestSum rest (k + 1) then pickUnits ok rest (k + 1) need acc else none

/-- The least number of the largest rooms that reaches a need, from k up. -/
def leastUnits (xs : List (Nat × Nat)) (need : Nat) : Nat → Nat → Option Nat
  | 0, _ => none
  | f + 1, k => if need ≤ bestSum xs k then some k else leastUnits xs need f (k + 1)

/-- The clusters of some dies with their rooms. -/
def clusList (u : Usage) (n : Need) (code : Nat) (dies : List Nat) : List (Nat × Nat) :=
  (dies.flatMap (fun d => (upTo 72).map (fun i => (d * 72 + i, clusRoom u n code (d * 72 + i))))).filter (fun e => e.2 != 0)

/-- The slots of some dies: on the fewest clusters, the first in lexicographic order, and then in ascending number. -/
def slotsIn (u : Usage) (n : Need) (code : Nat) (dies : List Nat) : Option (List Nat) :=
  let cs := clusList u n code dies
  match leastUnits cs n.threads (cs.length + 1) 1 with
  | none => none
  | some k => pickUnits (fun ks =>
      let free := (coresOfClus ks).flatMap (fun c =>
        if coreRoom u n code c = 0 then [] else (upTo 7).filterMap (fun i => if u.slot.getD (c * 8 + i) true then none else some (c * 8 + i)))
      if n.threads ≤ free.length then some (free.take n.threads) else none) cs k n.threads []

/-- The conditions that belong to the dies, with the resources up to a code (R252, R310, R347, R400). -/
def diesOk (u : Usage) (n : Need) (code : Nat) (ds : List Nat) : Bool :=
  let k := ds.length
  let each := fun (p : Nat → Bool) => ds.all p
  (decide (code < 4) || (upTo (2 * k)).all (fun j =>
    decide (u.stack.getD ((ds[j % max 1 k]?).getD 0 * 2 + j / max 1 k) 0 + stackCost n.g k j ≤ 48000000000))) &&
  (decide (code < 6) || each (fun d => decide (u.huddle.getD d 0 + ceilDiv n.huddles (max 1 k) ≤ 4096))) &&
  (decide (code < 8) || each (fun d => decide (u.hwq.getD d 0 < 64))) &&
  (decide (code < 10) || ((n.cls != 0 || each (fun d => decide (u.fabric.getD d 0 < 16))) &&
    (!n.sealed || each (fun d => decide (u.pair.getD d 0 < 4)))))

/-- The placement with the conditions of the resources up to a code: the fewest dies, the first set of them (R334). -/
def placeUpTo (u : Usage) (n : Need) (code : Nat) : Option (List Nat) :=
  let ds := (upTo 24).map (fun d => (d, (clusList u n code [d]).foldl (fun a e => a + e.2) 0))
  ((upTo 24).map (fun k => k + 1)).findSome? (fun k =>
    if bestSum ds k < n.threads then none
    else pickUnits (fun dies => match slotsIn u n code dies with
      | some ps => if diesOf ps == dies && diesOk u n code dies then some ps else none
      | none => none) ds k n.threads [])

/-- The placement of a need, or the code of the resource that leaves none (R334). -/
def placeNeed (u : Usage) (n : Need) : Except Nat (List Nat) :=
  match placeUpTo u n 13 with
  | some ps => .ok ps
  | none => match ([1, 2, 3, 4, 5, 6, 8, 10, 12, 13].filter (fun c => (placeUpTo u n c).isNone)).head? with
    | some c => .error c
    | none => .error 13

/-- The cores, clusters and shares of a placement: those of the slots, or all of the clusters of a sealed context. -/
def placedCores (n : Need) (ps : List Nat) : List Nat :=
  if n.sealed then coresOfClus ((upTo 1728).filter (fun k => ps.any (fun p => clusOf p == k)))
  else (upTo 13824).filter (fun k => ps.any (fun p => coreOf p == k))

/-- The quantities of Table 21-5, codes 1 to 13, of a placement (R333). -/
def quantities (r : Resources) (sealed : Bool) (ps cores : List Nat) : List Nat :=
  let nc := cores.length
  let nx := (distinct (cores.map (fun k => k / 8))).length
  let ds := (diesOf ps).length
  [r.threads,
   if sealed then 16 * nc else coreBanks r.coreB * nc,
   if sealed then 64 * nx else clusBanks r.clusB * nx,
   memoryQuantity (grantBytes r.devB) ds,
   if sealed then nc else if r.weight = 0 then 0 else nc,
   r.huddles, r.queues, ds, r.power,
   if r.cls = 0 then ds else 0,
   1,
   if sealed then 8 * nc else nc,
   if sealed then ceilDiv r.threads 56 else 0]

/-- The first resource of a list whose rule fails (R332). -/
def State.firstOver (s : State) (cls : Nat) (qs : List (Nat × Nat)) : Option Nat :=
  (qs.find? (fun e => !s.sumPasses cls e.1 e.2)).map (fun e => e.1)

/-- The contexts against which a class is placed at step 7: all, or the guaranteed alone (R332). -/
def State.holders (s : State) (cls : Nat) : List Ctx := s.ctxs.filter (fun x => cls == 0 || x.res.cls == 0)

/-- What the holders of places hold, with the debug modules (R390) and the pages that are retired, which are no room of their stack
(R258). -/
def State.usage (s : State) (xs : List Ctx) : Usage :=
  let u := usageOf xs
  { u with stack := s.retired.foldl (fun (a : Array Nat) e => a.modify (e.1 * 2 + e.2.1) (fun v => v + 65536)) u.stack,
           mods := s.dbg.foldl (fun (a : Array Bool) d => a.setIfInBounds d.clus true) u.mods }

/-- Step 7 of admission: the placement and its quantities, or the code of the first resource that fails (R332, R334,
R351). -/
def State.feasible (s : State) (w : Warrant) : Except Nat (List Nat × List Nat) :=
  let r := w.res
  let u := s.usage (s.holders r.cls)
  match placeNeed u w.need with
  | .error c =>
    let plain := [(1, r.threads), (6, r.huddles), (7, r.queues), (9, r.power), (11, 1),
                  (13, if w.sealed then ceilDiv r.threads 56 else 0)]
    .error (match s.firstOver r.cls plain with
      | some k => min k c
      | none => c)
  | .ok ps =>
    let qs := quantities r w.sealed ps (placedCores w.need ps)
    let n := max 1 (diesOf ps).length
    let sums := s.firstOver r.cls ((upTo 13).map (fun i => (i + 1, qs.getD i 0)))
    let slow := if r.cls = 0 && decide (r.latency < 2 * ceilDiv r.queues n) then some 7 else none
    match sums, slow with
    | none, none => .ok (ps, qs)
    | some k, none => .error k
    | none, some k => .error k
    | some k, some j => .error (min k j)

end Sys2Proof.Machine
end

