-- ==== Sys2Proof/Machine/Lifecycle.lean ====
section
/-! DEFINITION. The life of a context: allotting its units, stopping it, scrubbing and reclaiming what it holds, ending
it, and the entry into ERROR with its record and dump (spec/08_traps_faults_and_dumps.md R157 to R162, spec/21 R334,
R341, R345, spec/18 R286, spec/17 R266). -/

namespace Sys2Proof.Machine

/-! ### Places (R360) -/

/-- A map of physical clusters. A slot keeps its core's position and its number there: a program can name both (Table 6-4,
R208; notes/assumptions/38.md). -/
abbrev ClusMap := List (Nat × Nat)

/-- The new cluster of an old one. -/
def mapClus (m : ClusMap) (k : Nat) : Nat := ((m.find? (fun e => e.1 == k)).map (fun e => e.2)).getD k

/-- The new core of an old one. -/
def mapCore (m : ClusMap) (k : Nat) : Nat := mapClus m (k / 8) * 8 + k % 8

/-- The new slot of an old one. -/
def mapSlot (m : ClusMap) (p : Nat) : Nat := mapClus m (p / 64) * 64 + p % 64

/-- The new location of an old one: units move with their cluster. -/
def mapKey (m : ClusMap) (k : Nat) : Nat :=
  let u := keyUnit k
  match keySpace k with
  | 0 => keyOf Space.core (shareUnit (mapCore m (u / 2 ^ 16)) (u % 2 ^ 16)) (keyOff k)
  | 1 => keyOf Space.clus (shareUnit (mapClus m (u / 2 ^ 16)) (u % 2 ^ 16)) (keyOff k)
  | 5 | 6 | 7 | 8 => keyOf (keySpace k) (mapSlot m u) (keyOff k)
  | 9 => keyOf Space.tile (mapClus m u) (keyOff k)
  | _ => k

/-- Cells at their new locations. -/
def mapCells (m : ClusMap) (cs : List Host.Cell) : List Host.Cell := cs.map (fun (c : Host.Cell) => (mapKey m c.1, c.2))

/-- The family is saved out: its state stands in its save areas, and its slots are others' (R359, R360). -/
def Ctx.away (x : Ctx) : Bool := x.stop == .saved || x.stop == .restoring

/-- The save area of a family. -/
def State.savedOf (s : State) (root : Nat) : Option Saved := s.saved.find? (fun v => v.root == root)

/-- A save area with nothing in it but slots. -/
def Saved.fresh (root : Nat) (slots : List Slot) : Saved :=
  { root := root, slots := slots, huddles := [], early := [], mem := [], full := [], sbuf := [], flight := [], outb := [], feq := [], deques := [], chans := [],
    xfers := [], msgs := [], units := [], hreqs := [], hnotes := [] }

/-- The location belongs to a scratchpad bank of one of some contexts. -/
def inBanksOf (ids : List Nat) (k : Nat) : Bool := hasGranule k && ids.contains (keyUnit k % 2 ^ 16)

/-- A save area standing for the chip: its family's slots alone, and what it holds in place of what is on the chip. -/
def State.withSaved (s : State) (v : Saved) : State :=
  { s with cur := Slot.vacant (2 ^ 20), slots := v.slots, mem := writeCells s.mem v.mem,
           full := v.full.foldl (fun f g => insertNat g f) s.full, sbuf := v.sbuf, flight := v.flight, outb := v.outb, feq := v.feq,
           deques := v.deques, chans := v.chans, xfers := v.xfers, msgs := v.msgs, matrix := v.units, huddles := v.huddles,
           early := v.early, hreqs := v.hreqs, hnotes := v.hnotes }

/-- What a state holds of a family, as its save area, with the banks of some contexts. -/
def State.packed (t : State) (root : Nat) (ids : List Nat) (slots : List Slot) : Saved :=
  { root := root, slots := slots, huddles := t.huddles, early := t.early,
    mem := t.mem.filter (fun (c : Host.Cell) => inBanksOf ids c.1), full := t.full.filter (fun g => inBanksOf ids (16 * g)),
    sbuf := t.sbuf, flight := t.flight, outb := t.outb, feq := t.feq, deques := t.deques, chans := t.chans, xfers := t.xfers,
    msgs := t.msgs, units := t.matrix, hreqs := t.hreqs, hnotes := t.hnotes }

/-- A change of a family's state where that state is: on the chip, or in the save areas of a family that is saved out. -/
def State.atFamily (s : State) (root : Nat) (f : State → State) : State :=
  match s.savedOf root with
  | none => f s
  | some v =>
    let ids := (s.family root).map (fun x => x.id)
    let t := f (s.withSaved v)
    { t with cur := s.cur, slots := s.slots, mem := t.mem.filter (fun (c : Host.Cell) => !inBanksOf ids c.1),
             full := t.full.filter (fun g => !inBanksOf ids (16 * g)), sbuf := s.sbuf, flight := s.flight, outb := s.outb,
             feq := s.feq, deques := s.deques, chans := s.chans, xfers := s.xfers, msgs := s.msgs, matrix := s.matrix,
             huddles := s.huddles, early := s.early, hreqs := s.hreqs, hnotes := s.hnotes,
             saved := t.saved.map (fun (w : Saved) => if w.root == root then t.packed root ids t.slots else w) }

/-! ### Allotting (R334) -/

/-- A slot as allotted to a context: scrubbed, with its thread number (R124). -/
def allottedSlot (x : Ctx) (phys thread : Nat) (st : Status) : Slot :=
  { Slot.vacant phys with
    owner := some x.id, thread := thread, status := st, held := st,
    lcore := (x.lcoreOf (coreOf phys)).getD 0, lclus := (x.lclusOf (clusOf phys)).getD 0 }

/-- Give a context its slots, each scrubbed, in a state. -/
def State.allotSlots (s : State) (x : Ctx) (st : Status) : State :=
  (upTo x.slots.length).foldl (fun (s : State) (i : Nat) => match x.slots[i]? with
    | some p => s.setSlot (allottedSlot x p i st)
    | none => s) s

/-- An empty channel (R286). -/
def Chan.fresh (core ch ctx : Nat) : Chan :=
  { core := core, ch := ch, ctx := ctx, base := 0, len := 0, wm := 0, pend := 0, filled := [], next := none }

/-- The eight channels of a core go to a context, in its family's save areas where it is saved out. -/
def State.giveChans (s : State) (core ctx : Nat) : State :=
  match s.ctxAt ctx with
  | none => s
  | some x => s.atFamily x.root (fun s =>
      { s with chans := s.chans.filter (fun h => h.core != core) ++ (upTo 8).map (fun n => Chan.fresh core n ctx) })

/-- The cores whose channels a context may take: those of its slots, or all of a sealed context's (R286). -/
def Ctx.chanCores (x : Ctx) : List Nat := if x.warrant.sealed then x.cores else distinct (x.slots.map coreOf)

/-- A context holds the channels of a core: on the chip, or in the save area of a family that keeps its place there (R286,
R304). -/
def State.chansHeld (s : State) (core : Nat) : Bool :=
  s.chans.any (fun h => h.core == core) ||
    s.saved.any (fun v => (s.family v.root).any Ctx.placed && v.chans.any (fun h => h.core == core))

/-- The context takes the channels of each of its cores that no context holds (R286). -/
def State.allotChans (s : State) (x : Ctx) : State :=
  x.chanCores.foldl (fun (s : State) k => if s.chansHeld k then s else s.giveChans k x.id) s

/-- A matrix unit with nothing in it (R266). -/
def MUnit.fresh (clus : Nat) : MUnit :=
  { clus := clus, weights := Vector.replicate 8 1, last := 7, left := 0, lastSlot := Vector.replicate 8 6, tiles := [],
    rings := [], acc := [], recs := [], stWins := [], snaps := [], shown := [], storing := none }

/-- The units of the clusters in which the context holds a share are listed. -/
def State.allotUnits (s : State) (x : Ctx) : State :=
  (distinct (x.shares.map (fun k => k / 8))).foldl (fun (s : State) k =>
    if (s.unitAt k).isSome then s else { s with matrix := s.matrix ++ [MUnit.fresh k] }) s

/-- The first locations of the context's banks (R211, R212). -/
def Ctx.banks (x : Ctx) : List Nat :=
  x.cores.flatMap (fun k => (upTo (coreBanks x.res.coreB)).map (fun i => keyOf Space.core (shareUnit k x.id) (i * 16384))) ++
    x.clusters.flatMap (fun k => (upTo (clusBanks x.res.clusB)).map (fun i => keyOf Space.clus (shareUnit k x.id) (i * 65536)))

/-- The context's units are allotted: slots, channels, matrix shares, and banks that wake up (R214, R334). -/
def State.allot (s : State) (x : Ctx) (st : Status) : State :=
  let s := (((s.allotSlots x st).allotChans x).allotUnits x).divideWays
  { s with waking := s.waking ++ x.banks }

/-- The context on some slots: its cores, clusters, shares and dies (R334). -/
def Ctx.onSlots (x : Ctx) (ps : List Nat) : Ctx :=
  let cores := placedCores x.warrant.need ps
  { x with slots := ps, cores := cores, clusters := distinct (cores.map (fun k => k / 8)),
           shares := if x.warrant.sealed || x.res.weight != 0 then cores else [],
           layout := { x.layout with dies := diesOf ps } }

/-! ### Stopping and scrubbing -/

/-- The slot's thread is abandoned: its pc stays, and no effect of its instruction happens (R157, step 1). -/
def Slot.abandon (c : Slot) : Slot :=
  { c with held := c.status, status := .stopped, busy := 0, late := none, pause := 0, wait := none, block := none }

/-- The slots of a context. -/
def ownedBy (id : Nat) (c : Slot) : Bool := c.owner == some id

/-- The entry belongs to one of the context's slots. -/
def State.slotOf (s : State) (id p : Nat) : Bool := (s.slotAt p).owner == some id

/-- The context's stores and reductions that have not reached their homes do so; with the key gone, those to device
memory are dropped (R157, R162, R257). -/
def State.drain (s : State) (id : Nat) (noKey : Bool) : State :=
  let gone := fun (k : Nat) => noKey && keySpace k == Space.dev
  let es := (s.flight ++ s.sbuf).filter (fun e => s.slotOf id e.slot)
  let os := s.outb.filter (fun e => s.slotOf id e.slot && !e.done)
  let t := { s with flight := s.flight.filter (fun e => !s.slotOf id e.slot), sbuf := s.sbuf.filter (fun e => !s.slotOf id e.slot),
                    outb := s.outb.filter (fun e => !s.slotOf id e.slot) }
  let t := es.foldl (fun (t : State) e => if gone e.key then t else t.land e.cells) t
  (os.foldl (fun (t : State) e => if gone e.req.loc then t else (t.perform id e.req).1) t).close []

/-- The writes of a vector store that has not entered all of them in its core's store buffer fall away, as far as they have
not landed: the instruction is abandoned with none of its effects (R157). -/
def State.dropPart (s : State) (id : Nat) : State :=
  let part := fun (e : SbEntry) => match (s.slotAt e.slot).wait with
    | some (.store _ _ _ since _) => (s.slotAt e.slot).owner == some id && decide (since ≤ e.seq)
    | _ => false
  { s with sbuf := s.sbuf.filter (fun e => !part e), flight := s.flight.filter (fun e => !part e) }

/-- The context's engine work is cancelled (R157, step 2; R304): transfers land nothing more and push no record, their
channels' ranges are emptied; its collectives are gone and its peers' are marked (R300); its matrix commands and records are
cancelled. -/
def State.cancel (s : State) (id : Nat) : State :=
  let busy := fun (h : Chan) => s.xfers.any (fun x => x.ctx == id && x.core == h.core && x.ch == h.ch && x.kind.onChannel)
  { s.peerGone id s.ownNode with
    chans := s.chans.map (fun h => if h.ctx == id && busy h then { h with len := 0, filled := [], next := none } else h),
    xfers := s.xfers.filter (fun x => x.ctx != id),
    matrix := s.matrix.map (fun u => { u with acc := u.acc.filter (fun a => !s.slotOf id a.slot),
                                              recs := u.recs.filter (fun r => !s.slotOf id r.slot),
                                              stWins := u.stWins.filter (fun w => !s.slotOf id w.1),
                                              storing := if u.storing.any (fun e => s.slotOf id e.1) then none else u.storing }) }

/-- The context stops (R157, steps 1 and 2): every slot is abandoned, its waiting requests are withdrawn, its stores and
reductions drain, and its engine work is cancelled; a core of it that a matrix unit visits is no longer ready (R275). -/
def State.haltHere (s : State) (id : Nat) (noKey : Bool) : State :=
  let mine := (s.allSlots.filter (ownedBy id)).map (fun c => c.phys)
  let s := s.dropPart id
  let s := s.mapSlots (ownedBy id) (fun c => if c.status == .stopped && c.wait.isNone && c.busy == 0 then c else c.abandon)
  let s := { s with feq := s.feq.filter (fun p => !mine.contains p),
                    hreqs := s.hreqs.filter (fun r => r.ctx != id),
                    hnotes := s.hnotes.filter (fun n => n.ctx != id),
                    msgs := s.msgs.filter (fun m => !mine.contains m.src && !mine.contains m.dst) }
  ((s.cancel id).endVisits).drain id noKey

/-- The context stops, on the chip or in its family's save areas. -/
def State.haltCtx (s : State) (x : Ctx) (noKey : Bool) : State := s.atFamily x.root (fun s => s.haltHere x.id noKey)

/-- The cores whose channels a context holds, on the chip or in a save area. -/
def State.chanCoresOf (s : State) (id : Nat) : List Nat :=
  distinct (((s.chans ++ s.saved.flatMap (fun v => v.chans)).filter (fun h => h.ctx == id)).map (fun h => h.core))

/-- The channels of a core that a context holds are no one's. -/
def State.dropChans (s : State) (core id : Nat) : State :=
  let other := fun (h : Chan) => !(h.core == core && h.ctx == id)
  { s with chans := s.chans.filter other, saved := s.saved.map (fun (v : Saved) => { v with chans := v.chans.filter other }) }

/-- The channels that a context gives up pass on: to the first context in the order of allotment that holds a slot on the
core, or to the next that takes one (R286). The cores of a family that is saved out without its place are others' by now. -/
def State.passChans (s : State) (x : Ctx) (keeps : Bool) : State :=
  let here := fun (y : Ctx) => if x.placed then y.placed else y.root == x.root
  (s.chanCoresOf x.id).foldl (fun (s : State) k =>
    let s := s.dropChans k x.id
    let holds := fun (y : Ctx) => y.slots.any (fun p => coreOf p == k)
    if keeps && (s.ctxAt x.id).any holds then s.giveChans k x.id
    else match s.ctxs.find? (fun y => (y.id != x.id || keeps) && here y && holds y) with
      | some y => s.giveChans k y.id
      | none => s) s

/-- The location lies in a scratchpad bank of the context. -/
def inBanks (id k : Nat) : Bool := hasGranule k && keyUnit k % 2 ^ 16 == id

/-- The context's tiles, rings and weights return to their allotment state (R266). -/
def MUnit.scrub (u : MUnit) (shares : List Nat) : MUnit :=
  let mine := fun (p : Nat) => shares.contains (u.clus * 8 + p)
  { u with tiles := u.tiles.filter (fun e => !mine (e.1 / 8)), snaps := u.snaps.filter (fun e => !mine (e.2.1 / 8)),
           shown := u.shown.filter (fun e => !mine (e.2.1 / 8)), rings := u.rings.filter (fun e => !mine (e.1 / 2)),
           left := if mine u.last then 0 else u.left,
           weights := Vector.ofFn (fun (p : Fin 8) => if mine p.val then 1 else u.weights[p]) }

/-- What a context holds in its slots' registers, scratchpads and their bits, tiles and rings, deque records and instruction
lines is scrubbed; its slots are left vacant. -/
def State.scrubHere (s : State) (x : Ctx) : State :=
  let s := { s with
    mem := s.mem.filter (fun (c : Host.Cell) => !inBanks x.id c.1),
    full := s.full.filter (fun g => !inBanks x.id (16 * g)),
    waking := s.waking.filter (fun k => !inBanks x.id k),
    errs := s.errs.filter (fun e => !inBanks x.id e.lo),
    matrix := s.matrix.map (fun (u : MUnit) => u.scrub x.shares),
    deques := s.deques.filter (fun d => d.ctx != x.id),
    icache := s.icache.filter (fun l => l.ctx != x.id) }
  s.allotSlots x .vacant

/-- What a context holds on the chip, or in its family's save areas, is scrubbed (R157, step 5; R101, R149, R252). -/
def State.scrub (s : State) (x : Ctx) : State := s.atFamily x.root (fun s => s.scrubHere x)

/-- The context's slots are no one's. -/
def State.freeSlots (s : State) (x : Ctx) : State :=
  (s.atFamily x.root (fun s =>
    { s with cur := if ownedBy x.id s.cur then Slot.vacant s.cur.phys else s.cur,
             slots := s.slots.filter (fun c => !ownedBy x.id c) })).divideWays

/-- The debug modules of a sealed context's clusters are its own, but for those that a sealed context of its family holds (R390). -/
def State.holdModules (s : State) (x : Ctx) : State :=
  if !x.warrant.sealed then s
  else
    let cfg : DbgConfig := { start := .never, stop := .never, trigger := .never, comps := [], post := 0, period := 0, halt := .none, region := 0 }
    { s with dbg := s.dbg ++ (x.clusters.filter (fun k => !s.dbg.any (fun d => d.clus == k))).map (fun k =>
        ({ clus := k, holder := x.id, cfg := cfg, capture := .armed, hit := false, buf := [], pend := [] } : DbgMod)) }

/-! ### Ending a context (R341, R345) -/

/-- The messages to the home of a serial carry this device's node (R331). -/
def State.claimMsg (s : State) (x : Ctx) (serial : BitVec 128) : ClaimMsg :=
  let root := s.ctxAt x.root
  { serial := serial, root := (root.map (fun r => r.warrant.serial)).getD x.warrant.serial,
    notBefore := x.warrant.notBefore, device := s.ownNode }

/-- Remove a commitment. -/
def State.dropCommit (s : State) (id : Nat) : State := { s with commits := s.commits.filter (fun c => c.ctx != id) }

/-- Subtract quantities. -/
def minusQ (a b : List Nat) : List Nat := (upTo 13).map (fun i => a.getD i 0 - b.getD i 0)

/-- The nearest context, from one up to its root, that has a commitment of its own. -/
def State.commitOwner : Nat → State → Nat → Option Nat
  | 0, _, _ => none
  | n + 1, s, id =>
    if s.commits.any (fun c => c.ctx == id) then some id
    else match s.ctxAt id with
      | some x => match x.parent with
        | some p => State.commitOwner n s p
        | none => none
      | none => none

/-- Take quantities out of a commitment. -/
def State.lessCommit (s : State) (id : Nat) (q : List Nat) : State :=
  { s with commits := s.commits.map (fun c => if c.ctx == id then { c with q := minusQ c.q q } else c) }

/-- A context and its descendants, but for those that have commitments of their own. -/
def State.subtree : Nat → State → Ctx → List Ctx
  | 0, _, x => [x]
  | n + 1, s, x =>
    x :: (s.ctxs.filter (fun y => y.parent == some x.id && !s.commits.any (fun c => c.ctx == y.id))).flatMap (fun y => State.subtree n s y)

/-- The sum of a quantity over some contexts. -/
def sumOver (xs : List Ctx) (f : Ctx → Nat) : Nat := (xs.map f).foldl (fun a b => a + b) 0

/-- The quantities that a context holds with its descendants: what a split subtracted of the context counts with the child,
and the banks, pages and shares of a child lie within the context's own (R339). -/
def State.treeQuantities (s : State) (x : Ctx) : List Nat :=
  let xs := State.subtree s.ctxs.length s x
  Sys2Proof.Machine.quantities
    { x.res with threads := sumOver xs (fun y => y.res.threads), huddles := sumOver xs (fun y => y.res.huddles),
                 queues := sumOver xs (fun y => y.res.queues), power := sumOver xs (fun y => y.res.power) }
    x.warrant.sealed (xs.flatMap (fun y => y.slots)) x.cores

/-- The commitments of the redeemed children that stay are counted as their own from now on, and no longer in their
ancestor's (R341, R345). -/
def State.detachKids (s : State) (x : Ctx) (kids : List Ctx) : State :=
  let from_ := State.commitOwner 64 s x.id
  kids.foldl (fun (s : State) k =>
    let q := s.treeQuantities k
    let s := match from_ with
      | some o => s.lessCommit o q
      | none => s
    { s with commits := s.commits ++ [{ ctx := k.id, cls := k.res.cls, q := q }] }) s

/-- The free ranges of a context's memory, from the top: below the end of free memory, less what is lent. -/
def freeRanges (hi : Nat) (lent : List (Nat × Nat × Nat)) : Nat → List (Nat × Nat)
  | 0 => []
  | n + 1 =>
    if hi = 0 then []
    else
      -- the lent range that ends highest at or below hi
      match (lent.filter (fun r => decide (r.2.1 < hi))).foldl (fun (m : Option (Nat × Nat)) r => match m with
          | none => some r.2
          | some b => if b.2 < r.2.2 then some r.2 else m) none with
      | none => [(0, hi)]
      | some (lo, e) => if e < hi then (e, hi) :: freeRanges lo lent n else freeRanges lo lent n

/-- The free ranges of a context. -/
def Ctx.free (x : Ctx) : List (Nat × Nat) := freeRanges x.layout.freeEnd x.lent (x.lent.length + 1)

/-- The whole pages in a range of a grant: those of 64 KiB, of 2 MiB and of P, the highest first, each with its page size
(R250). -/
def pageSegs (g p lo hi : Nat) : List (Nat × Nat × Nat) :=
  let e0 := g / p * p
  let e1 := e0 + (if p > 2 ^ 21 then (g - e0) / 2 ^ 21 * 2 ^ 21 else 0)
  let seg := fun (u b top : Nat) => (u, b + ceilDiv (max lo b - b) u * u, b + (min hi top - b) / u * u)
  ([seg (2 ^ 16) e1 g, seg (2 ^ 21) e0 e1, seg p 0 e0]).filter (fun r => decide (r.2.1 < r.2.2))

/-- The whole pages of a context's free memory, the highest first (R250, R339). -/
def Ctx.freePages (x : Ctx) : List (Nat × Nat × Nat) :=
  x.free.flatMap (fun r => pageSegs x.layout.g (pageSize x.layout.g (max 1 x.layout.dies.length)) r.1 r.2)

/-- The bytes of some pages. -/
def pageBytes (ps : List (Nat × Nat × Nat)) : Nat := (ps.map (fun r => r.2.2 - r.2.1)).foldl (fun a b => a + b) 0

/-- The highest of some pages that hold n bytes. -/
def takePages : Nat → List (Nat × Nat × Nat) → List (Nat × Nat)
  | _, [] => []
  | n, (u, lo, hi) :: rs =>
    if n = 0 then []
    else
      let t := min (hi - lo) (ceilDiv n u * u)
      (hi - t, hi) :: takePages (n - t) rs

/-- Take n bytes from the highest of some ranges. -/
def takeTop : Nat → List (Nat × Nat) → List (Nat × Nat)
  | _, [] => []
  | n, (lo, hi) :: rs => if n = 0 then [] else if n ≤ hi - lo then [(hi - n, hi)] else (lo, hi) :: takeTop (n - (hi - lo)) rs

/-- Some ranges without n bytes of the highest. -/
def dropTop : Nat → List (Nat × Nat) → List (Nat × Nat)
  | _, [] => []
  | n, (lo, hi) :: rs => if n < hi - lo then (lo, hi - n) :: rs else dropTop (n - (hi - lo)) rs

/-- What the redeemed children of a context that ends hold of its memory, out of the ranges that were lent to it. -/
def keepLent : List (Nat × Nat × Nat) → List (Nat × Nat) → List (Nat × Nat × Nat)
  | [], _ => []
  | r :: rs, mine => (takeTop (r.2.2 - r.2.1) mine).map (fun e => (r.1, e)) ++ keepLent rs (dropTop (r.2.2 - r.2.1) mine)

/-- An offset of free memory that the context holds. -/
def Ctx.freeAt (x : Ctx) (off : Nat) : Bool := decide (off < x.layout.freeEnd) && !x.lentAt off

/-- Resources that a child gives back: the counts it still holds, and its allowance less its ENERGY (R345). -/
def Resources.giveBack (p c : Resources) (energy : Nat) : Resources :=
  { p with threads := p.threads + c.threads, huddles := p.huddles + c.huddles, queues := p.queues + c.queues,
           power := p.power + c.power, energy := p.energy + (c.energy - energy) }

/-- ENERGY of a context, in µJ (R378). -/
def Ctx.energyUsed (x : Ctx) : Nat := x.meter / 1000000

/-- A child that ends gives its slots, shares, memory and quantities back to its parent (R345). What its redeemed
descendants `alive` hold of its memory stays lent to them. -/
def Ctx.takeBack (p x : Ctx) (alive : Nat → Bool) : Ctx :=
  let mine := ((p.lent.filter (fun r => r.1 == x.id)).map (fun r => r.2))
  let kept := keepLent (x.lent.filter (fun r => alive r.1)) mine
  { p with res := p.res.giveBack x.res x.energyUsed, slots := sortNats (p.slots ++ x.slots),
           shares := sortNats (p.shares ++ x.shares), kids := p.kids - 1,
           lent := p.lent.filter (fun r => r.1 != x.id) ++ kept }

/-- THREAD numbers follow the physical order of a context's slots (R106, R339): in its slots, and in what names its threads on
the way to huddles and collectives. -/
def State.renumber (s : State) (x : Ctx) : State :=
  let number := fun (p old : Nat) => (x.slots.findIdx? (fun q => q == p)).getD old
  s.atFamily x.root (fun s =>
    { s.mapSlots (ownedBy x.id) (fun c => { c with thread := number c.phys c.thread }) with
      huddles := s.huddles.map (fun (h : Huddle) => { h with members := h.members.map (fun (m : HMember) =>
        if m.ctx == x.id then { m with thread := number m.slot m.thread } else m) }),
      hreqs := s.hreqs.map (fun (r : HReq) => if r.ctx == x.id then { r with thread := number r.slot r.thread } else r),
      hnotes := s.hnotes.map (fun (n : HNote) => if n.ctx == x.id then { n with thread := number n.slot n.thread } else n),
      colls := s.colls.map (fun (e : Coll) =>
        if !e.far && e.ctx == x.id then { e with thread := number e.slot e.thread } else e) })

/-- An event that is counted per slot (Table 26-5). -/
def slotEvent (e : Nat) : Bool := decide (e < 0x40)

/-- A slot that is allotted to a context counts from now on (R385). -/
def State.clearCounts (s : State) (ctx : Nat) (ps : List Nat) : State :=
  { s with counters := s.counters.filter (fun (e : Counter) => !(e.ctx == ctx && slotEvent e.event && ps.contains e.unit)) }

/-- A parent takes back what a child held (R345). -/
def State.returnTo (s : State) (pid : Nat) (x : Ctx) : State :=
  match s.ctxAt pid with
  | none => s
  | some p =>
    let p := p.takeBack x (fun id => (s.ctxAt id).isSome)
    let s := s.setCtx p
    let new := x.slots.map (fun q => allottedSlot p q ((p.slots.findIdx? (fun r => r == q)).getD 0) .vacant)
    let s := s.atFamily x.root (fun s => new.foldl (fun (s : State) c => s.setSlot c) s)
    ((s.clearCounts pid x.slots).renumber p).divideWays

/-- The handles that name a context are freed in every table (R335). -/
def State.freeHandles (s : State) (id : Nat) : State :=
  { s with ctxs := s.ctxs.map (fun y => { y with handles := y.handles.map (fun h =>
      if h.target == some id then { h with target := none } else h) }) }

/-- The rest of a context's end: it is stopped, scrubbed, its key zeroised and its pages overwritten; its resources return,
and its serial is sent SPENT (R341, R345). -/
def State.finishEnd (s : State) (x : Ctx) : State :=
  let kids := s.ctxs.filter (fun y => y.parent == some x.id)
  let s := s.haltCtx x !x.keyValid
  let s := s.scrub x
  let s := ((s.freeSlots x).detachKids x kids).passCharges x.id
  let s := s.dropCommit x.id
  let spent := s.claimMsg x x.serial
  let s := { s with
    ctxs := s.ctxs.filter (fun y => y.id != x.id),
    mem := s.mem.filter (fun (c : Host.Cell) => !(keySpace c.1 == Space.dev && keyUnit c.1 == x.id)),
    keys := s.keys.filter (fun k => k.ctx != x.id), tlb := s.tlb.filter (fun e => e.2.1 != x.id),
    walks := s.walks.filter (fun e => e.2.1 != x.id),
    errs := s.errs.filter (fun e => !(keySpace e.lo == Space.dev && keyUnit e.lo == x.id)),
    counters := s.counters.filter (fun c => c.ctx != x.id), dbg := s.dbg.filter (fun m => m.holder != x.id),
    dbgResume := s.dbgResume.filter (fun e => e.1 != x.id), dumps := s.dumps.filter (fun d => d.ctx != x.id),
    spentOut := s.spentOut ++ [(spent, x.warrant.domain)] }
  let s := match x.parent with
    | some p => s.returnTo p x
    | none => s
  let s := ((s.passChans x false).freeHandles x.id)
  let s := s.ctxs.foldl (fun (s : State) y => s.holdModules y) s
  { s with fams := s.fams.filter (fun f => s.ctxs.any (fun y => y.root == f.root)), saved := s.saved.filter (fun v => s.ctxs.any (fun y => y.root == v.root)) }

/-- End a context, after each of its children that no receipt has redeemed (R341). -/
def endCtx : Nat → State → Nat → State
  | 0, s, _ => s
  | n + 1, s, id =>
    let kids := (s.ctxs.filter (fun y => y.parent == some id && !y.redeemed)).map (fun y => y.id)
    let s := kids.foldl (fun (s : State) k => endCtx n s k) s
    match s.ctxAt id with
    | some x => s.finishEnd x
    | none => s

/-- End a context with its descendants. A family is never deeper than the contexts that exist. -/
def State.endContext (s : State) (id : Nat) : State := endCtx (s.ctxs.length + 1) s id

/-! ### ERROR, records and dumps (R157 to R162) -/

/-- The record of a fault that is no thread's (R158): no slot, no pc and no word. -/
def ctxRecord (s : State) (x : Ctx) (kind : Nat) (location : Word) : List Byte :=
  faultRecord (x.recordFlags (kind == 3 || kind == 4)) s.cycle x.id kind 0 0xFFFFFFFF 0 0 0 location x.serialLow

/-- A context-level fault: key revoked, frozen window written, watchdog, or an engine's (R157, R158, R160). -/
def State.ctxFault (s : State) (x : Ctx) (kind : Nat) : State :=
  s.enterError x.id kind ((x.layout.dies.head?).getD 0) (ctxRecord s x kind 0)

/-- The record is written into the first 64 bytes of the dump area, where a key lets it (R158). -/
def State.writeRecord (s : State) (x : Ctx) (r : List Byte) : State :=
  if x.keyValid then { s with mem := putBytes s.mem (keyOf Space.dev x.id x.layout.dumpOff) r } else s

/-- The dumps that wait on a die (R160). -/
def State.dumpsWaiting (s : State) (die : Nat) : Nat := (s.dumps.filter (fun d => d.die == die && !d.started)).length

/-- After the dump (R157, step 5): the context's on-chip state is scrubbed; a root's units return to the admission accounts,
a child's stay set aside for it. -/
def State.reclaim (s : State) (x : Ctx) : State :=
  let s := s.scrub x
  if x.parent.isSome then s.passChans x true
  else
    let live := s.ctxs.filter (fun y => y.parent == some x.id && !s.commits.any (fun c => c.ctx == y.id))
    let onChip := fun (i : Nat) => [0, 1, 2, 4, 5, 7, 11, 12].contains i
    let kept := fun (i : Nat) => sumOver live (fun y => (s.treeQuantities y).getD i 0)
    let s := (s.freeSlots x).setCtx { x with slots := [], cores := [], clusters := [], shares := [], pairs := [] }
    let s := { s with commits := s.commits.map (fun (c : Commit) =>
      if c.ctx == x.id then { c with q := (upTo 13).map (fun i => if onChip i then kept i else c.q.getD i 0) } else c) }
    s.passChans x false

/-- The slots of a context, on the chip or in its save area. -/
def State.slotsOf (s : State) (x : Ctx) : List Slot :=
  (((s.savedOf x.root).map (fun v => v.slots)).getD s.allSlots).filter (ownedBy x.id)

/-- The slot runs a task; a stopped one goes on with it (R148). -/
def Slot.runsTask (c : Slot) : Bool :=
  let st := if c.status == .stopped then c.held else c.status
  st != .idle && st != .vacant

/-- The slot that hears of a child's fault: the one that split it or presented its receipt, while it runs a task of its
context, else that context's lowest THREAD (R162). -/
def State.faultTold (s : State) (x : Ctx) : Option (Ctx × Slot) :=
  match s.ctxAt x.splitter.1 with
  | none => none
  | some p =>
    let cs := s.slotsOf p
    match cs.find? (fun c => c.phys == x.splitter.2 && c.runsTask) with
    | some c => some (p, c)
    | none => (cs.find? (fun c => cs.all (fun d => decide (c.thread ≤ d.thread)))).map (fun c => (p, c))

/-- The message of a child's fault: a header of KIND 1 and the record as eight words (R162, Table 18-5). For a family that is
saved out it waits with the family's state (R304). -/
def State.tellParent (s : State) (x : Ctx) (r : List Byte) : State :=
  match s.faultTold x with
  | none => s
  | some (p, c) =>
    let h : Word := BitVec.ofNat 64 (2 ^ 44 + c.lcore % 2 ^ 16 * 2 ^ 8 + slotNo c.phys * 16 + 8)
    let m : Msg := { src := umpireSrc, dst := c.phys, words := h :: (upTo 8).map (fun i => leWord ((r.drop (8 * i)).take 8)), seen := 0 }
    s.atFamily p.root (fun s => { s with msgs := s.msgs ++ [m] })

end Sys2Proof.Machine
end

