-- ==== Sys2Proof/Machine/Stops.lean ====
section
/-! DEFINITION. Synchronised stops, saving out, restoring and resuming a family, and time slices
(spec/23_queues_scheduling_and_preemption.md R356, R359 to R361, spec/07 R148, spec/20 R319). -/

namespace Sys2Proof.Machine

/-- The stop of a family, which its contexts share (R308). -/
def State.stopOf (s : State) (root : Nat) : Stop := (((s.family root).head?).map (fun x => x.stop)).getD .none

/-- Set the stop of a family. -/
def State.setStop (s : State) (root : Nat) (st : Stop) : State :=
  { s with ctxs := s.ctxs.map (fun x => if x.root == root then { x with stop := st } else x) }

/-- The smallest multiple of 64 that is no less than the cycle plus 4,096 (R359, R360). -/
def agreedCycle (c : Word) : Word := BitVec.ofNat 64 (ceilDiv (c.toNat + 4096) 64 * 64)

/-- The slot belongs to the family. -/
def State.inFamily (s : State) (root : Nat) (c : Slot) : Bool :=
  match s.ctxOf c with
  | some x => x.root == root
  | none => false

/-- A stop is decided (R359, step 1), which the umpire's referee core hears of (R408). -/
def State.decideStop (s : State) (root : Nat) : State :=
  (s.setStop root (.decided (agreedCycle s.cycle))).signalRef [refCore0] 0b000100

/-- STOP_DECISION (R359, step 1). -/
def execStopDecision (root : Nat) (s : State) : Out :=
  if !(s.family root).isEmpty && s.stopOf root == .none then .next (s.decideStop root) else notNow "STOP_DECISION"

/-- A reset of a context of the family has been decided and is not complete (R361). -/
def State.resetPending (s : State) (root : Nat) : Bool :=
  (s.family root).any (fun x => match x.err with
    | some e => e.kind == 1 || e.kind == 2
    | none => false)

/-- A slot stops and keeps its state (R148). -/
def Slot.freeze (c : Slot) : Slot := if c.status == .stopped then c else { c with held := c.status, status := .stopped }

/-- STOP_HALT: in cycle T every slot of the family stops, but for one whose accepted block runs through (R359, step 2;
R265). -/
def execStopHalt (root : Nat) (s : State) : Out :=
  match s.stopOf root with
  | .decided t =>
    if t ≤ s.cycle && !s.resetPending root then
      .next ((s.mapSlots (fun c => s.inFamily root c && c.block.isNone) Slot.freeze).setStop root .halted)
    else notNow "STOP_HALT"
  | _ => notNow "STOP_HALT"

/-- FLUSH_TOKEN: the family's accepted blocks have returned, every huddle request of it has been handled, and what is on its
way is swept up (R359, step 3; R265, R319). -/
def execFlushToken (root : Nat) (s : State) : Out :=
  if s.stopOf root == .halted && !s.allSlots.any (fun c => s.inFamily root c && c.block.isSome) &&
      !s.hreqs.any (fun r => r.root == root) then
    .next ((s.mapSlots (fun c => s.inFamily root c) Slot.freeze).setStop root .flushed)
  else notNow "FLUSH_TOKEN"

/-! ### The save (R359, step 4; R360) -/

/-- A claim of the family's threads is under way, which the umpire carries through first (R337). -/
def State.claimBusy (s : State) (root : Nat) : Bool :=
  s.claims.any (fun k => match k.who with
    | .thread p _ _ | .redeemThread p _ _ _ => s.inFamily root (s.slotAt p)
    | _ => false)

/-- The part of a matrix unit that belongs to some shares and slots, and the rest. -/
def MUnit.part (u : MUnit) (shares : List Nat) (mine : Nat → Bool) : MUnit × MUnit :=
  let pos := fun (p : Nat) => shares.contains (u.clus * 8 + p)
  let keep := fun (b : Bool) => { u with
    tiles := u.tiles.filter (fun e => pos (e.1 / 8) == b), rings := u.rings.filter (fun e => pos (e.1 / 2) == b),
    snaps := u.snaps.filter (fun e => pos (e.2.1 / 8) == b), shown := u.shown.filter (fun e => pos (e.2.1 / 8) == b),
    storing := if b then none else u.storing,
    acc := u.acc.filter (fun a => mine a.slot == b), recs := u.recs.filter (fun r => mine r.slot == b),
    stWins := u.stWins.filter (fun w => mine w.1 == b) }
  (keep true, { keep false with weights := Vector.ofFn (fun (p : Fin 8) => if pos p.val then 1 else u.weights[p]) })

/-- The state with a family's on-chip state in its save areas (R360): its directory entries as frozen (R319), and the channels
of its cores passed on, unless it keeps its place (R286). -/
def State.saveFamily (s : State) (root : Nat) : State :=
  let xs := s.family root
  let ids := xs.map (fun x => x.id)
  let shares := xs.flatMap (fun x => x.shares)
  let slots := s.allSlots.filter (fun c => s.inFamily root c)
  let mine := fun (p : Nat) => slots.any (fun c => c.phys == p)
  let units := s.matrix.map (fun (u : MUnit) => u.part shares mine)
  let v : Saved :=
    { root := root, slots := slots, huddles := s.huddles.filter (fun h => h.root == root), early := s.early.filter (fun e => mine e.slot),
      mem := s.mem.filter (fun (c : Host.Cell) => inBanksOf ids c.1),
      full := s.full.filter (fun g => inBanksOf ids (16 * g)), sbuf := s.sbuf.filter (fun e => mine e.slot),
      flight := s.flight.filter (fun e => mine e.slot), outb := s.outb.filter (fun e => mine e.slot),
      feq := s.feq.filter mine, deques := s.deques.filter (fun d => ids.contains d.ctx),
      chans := s.chans.filter (fun h => ids.contains h.ctx), xfers := s.xfers.filter (fun x => ids.contains x.ctx),
      msgs := s.msgs.filter (fun m => mine m.dst), units := units.map (fun e => e.1),
      hreqs := s.hreqs.filter (fun r => r.root == root), hnotes := s.hnotes.filter (fun n => ids.contains n.ctx) }
  let t : State := { s with
    cur := if mine s.cur.phys then Slot.vacant s.cur.phys else s.cur, slots := s.slots.filter (fun c => !mine c.phys),
    mem := s.mem.filter (fun (c : Host.Cell) => !inBanksOf ids c.1), full := s.full.filter (fun g => !inBanksOf ids (16 * g)),
    waking := s.waking.filter (fun k => !inBanksOf ids k), sbuf := s.sbuf.filter (fun e => !mine e.slot),
    flight := s.flight.filter (fun e => !mine e.slot), outb := s.outb.filter (fun e => !mine e.slot),
    feq := s.feq.filter (fun p => !mine p), icache := s.icache.filter (fun l => !ids.contains l.ctx),
    deques := s.deques.filter (fun d => !ids.contains d.ctx), chans := s.chans.filter (fun h => !ids.contains h.ctx),
    xfers := s.xfers.filter (fun x => !ids.contains x.ctx), msgs := s.msgs.filter (fun m => !mine m.dst),
    matrix := units.map (fun e => e.2), hreqs := s.hreqs.filter (fun r => r.root != root),
    hnotes := s.hnotes.filter (fun n => !ids.contains n.ctx), huddles := s.huddles.filter (fun h => h.root != root),
    early := s.early.filter (fun e => !mine e.slot), tlb := s.tlb.filter (fun (e : Nat × Nat × Nat) => !ids.contains e.2.1),
    walks := s.walks.filter (fun (e : Nat × Nat × Nat) => !ids.contains e.2.1), saved := s.saved ++ [v],
    ctxs := s.ctxs.map (fun (x : Ctx) => if x.root == root then
      { x with state := if x.state == .run then .saved else x.state, waited := s.cycle.toNat, stop := .saved } else x) }
  let t := t.divideWays
  if xs.all (fun x => x.res.cls == 0) then t
  else (xs.flatMap Ctx.chanCores).foldl (fun (t : State) k =>
    match t.ctxs.find? (fun y => y.root != root && y.slots.any (fun p => coreOf p == k) && y.placed) with
    | some y => if t.chansHeld k then t else t.giveChans k y.id
    | none => t) t

/-- An error in a bank of the family that the save meets, and the context whose bank it is (R3, R258). -/
def State.saveError (s : State) (root : Nat) : Option (MemErr × Ctx) :=
  (s.family root).findSome? (fun x => (s.errs.find? (fun e => inBanks x.id e.lo)).map (fun e => (e, x)))

/-- A matrix step of the family is still in progress: the unit finishes it (R283). -/
def State.stepping (s : State) (root : Nat) : Bool :=
  s.matrix.any (fun u => u.storing.any (fun e => s.inFamily root (s.slotAt e.1)))

/-- STATE_SAVE_DONE: the family's state stands in its save areas, and its units are free (R359, step 4). An error in a bank
that is read for it takes its context first (R3). -/
def execStateSaveDone (root : Nat) (s : State) : Out :=
  if s.stopOf root == .flushed && !s.claimBusy root && !s.stepping root then
    match s.saveError root with
    | some (e, x) => .next (State.uncorrCtx { s with errs := s.errs.filter (fun f => f != e) } x 0 e)
    | none => .next (s.saveFamily root)
  else notNow "STATE_SAVE_DONE"

/-! ### Placing a family again (R360) -/

/-- A request at its new location. -/
def AtomReq.move (r : AtomReq) (m : ClusMap) : AtomReq := { r with loc := mapKey m r.loc }

/-- A transfer at its new place. -/
def Xfer.move (x : Xfer) (m : ClusMap) : Xfer :=
  { x with core := mapCore m x.core, slot := mapSlot m x.slot,
           halos := x.halos.map (fun (h : HaloDir) => { h with recv := mapSlot m h.recv }) }

/-- A task record at its new place. -/
def TaskRec.move (t : TaskRec) (m : ClusMap) : TaskRec := { t with slot := mapSlot m t.slot }

/-- What a waiting instruction holds, at its new locations. -/
def Wait.move (w : Wait) (m : ClusMap) : Wait :=
  match w with
  | .store css rel unit since flags => .store (css.map (mapCells m)) rel unit since flags
  | .atomic d r => .atomic d (r.move m)
  | .atomicReply d r old => .atomicReply d (r.move m) old
  | .outRoom r => .outRoom (r.move m)
  | .spill t => .spill (t.move m)
  | .xfer x => .xfer (x.move m)
  | w => w

/-- A slot at its new place. -/
def Slot.move (c : Slot) (m : ClusMap) : Slot :=
  { c with phys := mapSlot m c.phys, late := c.late.map (fun (l : Late) => { l with stores := l.stores.map (mapCells m) }),
           wait := c.wait.map (fun (w : Wait) => w.move m),
           monitor := c.monitor.map (fun (q : Monitor) => { q with block := mapKey m (q.block * 64) / 64 }) }

/-- A part of a unit at its new place. -/
def MUnit.move (u : MUnit) (m : ClusMap) : MUnit :=
  { u with clus := mapClus m u.clus, acc := u.acc.map (fun a => { a with slot := mapSlot m a.slot }),
           recs := u.recs.map (fun r => { r with slot := mapSlot m r.slot }),
           stWins := u.stWins.map (fun w => (mapSlot m w.1, w.2)) }

/-- An entry on its way, at its new place. -/
def SbEntry.move (e : SbEntry) (m : ClusMap) : SbEntry :=
  { e with core := mapCore m e.core, slot := mapSlot m e.slot, cells := mapCells m e.cells }

/-- A write that landed early, at its new place. -/
def Early.move (e : Early) (m : ClusMap) : Early := { e with slot := mapSlot m e.slot, keys := e.keys.map (mapKey m) }

/-- A directory entry whose members are at their new places. -/
def Huddle.move (h : Huddle) (m : ClusMap) : Huddle :=
  { h with members := h.members.map (fun (q : HMember) => { q with slot := mapSlot m q.slot }) }

/-- An entry of an outbound path, at its new place. -/
def OutReq.move (e : OutReq) (m : ClusMap) : OutReq :=
  { e with core := mapCore m e.core, slot := mapSlot m e.slot, req := e.req.move m }

/-- A deque partition at its new place. -/
def Deque.move (d : Deque) (m : ClusMap) : Deque :=
  { d with core := mapCore m d.core, items := d.items.map (fun t => t.move m), spill := d.spill.map (fun t => t.move m) }

/-- A message at its new place. The umpire has no slot. -/
def Msg.move (g : Msg) (m : ClusMap) : Msg :=
  { g with src := if g.src == umpireSrc then g.src else mapSlot m g.src, dst := mapSlot m g.dst }

/-- A save area for the new place of its family. -/
def Saved.move (v : Saved) (m : ClusMap) : Saved :=
  { v with
    slots := v.slots.map (fun c => c.move m), huddles := v.huddles.map (fun h => h.move m), early := v.early.map (fun e => e.move m),
    mem := writeCells [] (mapCells m v.mem), full := v.full.foldl (fun f g => insertNat (mapKey m (16 * g) / 16) f) [],
    sbuf := v.sbuf.map (fun e => e.move m), flight := v.flight.map (fun e => e.move m), outb := v.outb.map (fun e => e.move m),
    feq := v.feq.map (mapSlot m), deques := v.deques.map (fun d => d.move m),
    chans := v.chans.map (fun (h : Chan) => { h with core := mapCore m h.core }), xfers := v.xfers.map (fun x => x.move m),
    msgs := v.msgs.map (fun g => g.move m), units := v.units.map (fun u => u.move m),
    hreqs := v.hreqs.map (fun (r : HReq) => { r with slot := mapSlot m r.slot }),
    hnotes := v.hnotes.map (fun (n : HNote) => { n with slot := mapSlot m n.slot }) }

/-- A context at its new place (R250, R376). -/
def Ctx.move (x : Ctx) (m : ClusMap) : Ctx :=
  let slots := x.slots.map (mapSlot m)
  { x with slots := slots, cores := x.cores.map (mapCore m), clusters := x.clusters.map (mapClus m),
           shares := x.shares.map (mapCore m), dbgClus := x.dbgClus.map (mapClus m),
           layout := { x.layout with dies := diesOf slots } }

/-- The family at its new place: its contexts, its save areas, and what else names its slots and clusters. Counts per slot go with
their slot (R385). -/
def State.moveFamily (s : State) (root : Nat) (m : ClusMap) : State :=
  let ids := (s.family root).map (fun x => x.id)
  { s with
    ctxs := s.ctxs.map (fun (x : Ctx) =>
      let x := if ids.contains x.splitter.1 then { x with splitter := (x.splitter.1, mapSlot m x.splitter.2) } else x
      if x.root == root then x.move m else x),
    saved := s.saved.map (fun (v : Saved) => if v.root == root then v.move m else v),
    colls := s.colls.map (fun (e : Coll) => if !e.far && ids.contains e.ctx then { e with slot := mapSlot m e.slot } else e),
    dbg := s.dbg.map (fun (d : DbgMod) => if ids.contains d.holder then { d with clus := mapClus m d.clus } else d),
    counters := s.counters.map (fun (e : Counter) =>
      if ids.contains e.ctx && slotEvent e.event then { e with unit := mapSlot m e.unit } else e) }

/-- A family can take a cluster in place of one of its own: its slots, banks, shares and modules are free there, no context that is
sealed holds it, and no other context holds the channels that it brings. -/
def clusFits (s : State) (u : Usage) (xs : List Ctx) (v : Saved) (old new : Nat) : Bool :=
  let m : ClusMap := [(old, new)]
  let cores := (distinct (xs.flatMap (fun x => x.cores))).filter (fun k => k / 8 == old)
  let slots := (xs.flatMap (fun x => x.slots)).filter (fun p => p / 64 == old)
  let root := xs.head?
  let (cb, xb) := (root.map Ctx.bankBytes).getD (0, 0)
  let whole := (root.map (fun x => x.warrant.sealed)).getD false
  let ours := fun (d : DbgMod) => xs.any (fun x => x.id == d.holder)
  slots.all (fun p => !u.slot.getD (mapSlot m p) true) &&
    cores.all (fun k => decide ((slots.filter (fun p => coreOf p == k)).length ≤ u.free.getD (mapCore m k) 0)) &&
    cores.all (fun k => decide (u.cbank.getD (mapCore m k) 0 + coreBanks cb ≤ 16)) &&
    decide (u.xbank.getD new 0 + clusBanks xb ≤ 64) &&
    xs.all (fun x => x.shares.all (fun k => k / 8 != old || !u.share.getD (mapCore m k) true)) &&
    v.chans.all (fun h => h.core / 8 != old || !s.chansHeld (mapCore m h.core)) &&
    !(s.dbg.any (fun d => ours d && d.clus == old) && s.dbg.any (fun d => !ours d && d.clus == new)) &&
    (!whole || (upTo 8).all (fun i => u.free.getD (new * 8 + i) 0 == 7 && u.res.getD (new * 8 + i) 0 == 0))

/-- A new cluster of some for each old one: the first choice in lexicographic order. -/
def fitAll (fits : Nat → Nat → Bool) (clus : List Nat) : List Nat → ClusMap → Option ClusMap
  | [], m => some m
  | k :: ks, m => clus.findSome? (fun n =>
      if !m.any (fun e => e.2 == n) && fits k n then fitAll fits clus ks (m ++ [(k, n)]) else none)

/-- The place of a saved family by the rules of R334: the fewest dies, the first set of them in lexicographic order, and the
lowest clusters in them, each for one that it had, so that slots and cores keep their places within their clusters (R360;
notes/assumptions/38.md). -/
def State.placeFamily (s : State) (root : Nat) : Option ClusMap :=
  match s.family root, s.savedOf root with
  | x :: xs, some v =>
    let fam := x :: xs
    let u := s.usage (s.ctxs.filter (fun y => y.root != root))
    let ks := (upTo 1728).filter (fun k => fam.any (fun y => y.slots.any (fun p => p / 64 == k) || y.shares.any (fun c => c / 8 == k)))
    let fits := clusFits s u fam v
    let rooms := (upTo 24).map (fun d => (d, ((upTo 72).filter (fun i => ks.any (fun k => fits k (d * 72 + i)))).length))
    let dies := fun (m : ClusMap) => diesOf (fam.flatMap (fun y => y.slots.map (mapSlot m)))
    (upTo 24).findSome? (fun j => pickUnits (fun ds =>
      match fitAll fits (ds.flatMap (fun d => (upTo 72).map (fun i => d * 72 + i))) ks [] with
      | some m => if dies m == ds && diesOk u x.warrant.need 12 ds then some m else none
      | none => none) rooms (j + 1) ks.length [])
  | _, _ => none

/-- Where a slice places a family: on the slots of a context that has never run, or by a map of the clusters that the family
had. -/
inductive Place where
  | slots (ps : List Nat)
  | clusters (m : ClusMap)
deriving DecidableEq, Repr

/-- The context that a family consists of while its save area holds nothing of a run: its first slice places it on any free slots
(R332, R334). -/
def State.neverRan (s : State) (root : Nat) : Option Ctx :=
  match s.family root, s.savedOf root with
  | [x], some v =>
    if x.id == root && !s.dbg.any (fun d => d.holder == root) &&
        v == Saved.fresh root (v.slots.map (fun c => allottedSlot x c.phys c.thread c.status)) then some x else none
  | _, _ => none

/-- The place that a slice gives a family: by R334 for a context that has never run, and else so that every logical number stays
(R332, R360; notes/assumptions/38.md). -/
def State.slicePlace (s : State) (root : Nat) : Option Place :=
  match s.neverRan root with
  | some x =>
    match placeUpTo (s.usage (s.ctxs.filter (fun y => y.root != root))) x.warrant.need 13 with
    | some ps => some (.slots ps)
    | none => none
  | none => (s.placeFamily root).map .clusters

/-- The family at the place that a slice gives it. -/
def State.takePlace (s : State) (root : Nat) (p : Place) : State :=
  match p with
  | .clusters m => s.moveFamily root m
  | .slots ps => match s.ctxAt root with
    | none => s
    | some x =>
      let y := x.onSlots ps
      let old := (s.savedOf root).map (fun v => v.slots)
      let st := ((old.bind (fun cs => cs.head?)).map (fun c => c.status)).getD .vacant
      let slots := (upTo ps.length).filterMap (fun i => (ps[i]?).map (fun p => allottedSlot y p i st))
      let t := s.setCtx y
      { t with saved := t.saved.map (fun (v : Saved) => if v.root == root then Saved.fresh root slots else v) }

/-- The context has something to run: a launch, or a packet fetched (R356). -/
def Ctx.hasWork (x : Ctx) : Bool := x.launch.isSome || x.queues.any (fun q => q.fetched.isSome)

/-- The context stands for its family: its root, or the first that is left of it. -/
def State.heads (s : State) (x : Ctx) : Bool := ((s.family x.root).head?).map (fun y => y.id) == some x.id

/-- A saved-out elastic or batch family that waits to be placed (R356). -/
def State.waits (s : State) (x : Ctx) : Bool :=
  s.heads x && x.res.cls != 0 && x.stop == .saved && (s.family x.root).any Ctx.hasWork

/-- The order in which waiting contexts are placed: elastic before batch, then the longest waiting, then the lowest
CTX.ID (R356). -/
def placedBefore (x y : Ctx) : Bool :=
  decide (x.res.cls < y.res.cls) || (x.res.cls == y.res.cls &&
    (decide (x.waited < y.waited) || (x.waited == y.waited && decide (x.id < y.id))))

/-- A family begins its slice: its state is on its way back to the chip. -/
def State.beginSlice (s : State) (root : Nat) : State :=
  { s with ctxs := s.ctxs.map (fun (y : Ctx) => if y.root == root then { y with stop := .restoring, sliceAt := s.cycle } else y) }

/-- SLICE_PLACEMENT: the next waiting family takes its place and its slice begins (R356, R360). -/
def execSlicePlacement (ctx : Nat) (s : State) : Out :=
  match s.ctxAt ctx with
  | none => notNow "SLICE_PLACEMENT"
  | some x =>
    if !s.waits x || s.ctxs.any (fun y => s.waits y && placedBefore y x && (s.slicePlace y.root).isSome) then
      notNow "SLICE_PLACEMENT"
    else match s.slicePlace x.root with
      | none => notNow "SLICE_PLACEMENT"
      | some p => .next ((s.takePlace x.root p).beginSlice x.root)

/-! ### The restore (R360) -/

/-- A matrix unit takes back a part; its arbiter goes on where it stood, where the unit is the family's alone (R276, R283). A unit
that other contexts use has served them meanwhile, and goes on after the core that it served last (R275). -/
def MUnit.join (u p : MUnit) (shares : List Nat) (alone : Bool) : MUnit :=
  { u with tiles := u.tiles ++ p.tiles, rings := u.rings ++ p.rings, acc := u.acc ++ p.acc, recs := u.recs ++ p.recs,
           stWins := u.stWins ++ p.stWins, snaps := u.snaps ++ p.snaps, shown := u.shown ++ p.shown,
           last := if alone then p.last else u.last, left := if alone then p.left else u.left,
           weights := Vector.ofFn (fun (i : Fin 8) => if shares.contains (u.clus * 8 + i.val) then p.weights[i] else u.weights[i]) }

/-- The parts of units return. -/
def State.joinUnits (s : State) (root : Nat) (ps : List MUnit) (shares : List Nat) : State :=
  let alone := fun (k : Nat) => !s.ctxs.any (fun x => x.root != root && x.placed && x.shares.any (fun c => c / 8 == k))
  ps.foldl (fun (s : State) (p : MUnit) =>
    let s := if (s.unitAt p.clus).isSome then s else { s with matrix := s.matrix ++ [MUnit.fresh p.clus] }
    { s with matrix := s.matrix.map (fun (u : MUnit) => if u.clus == p.clus then u.join p shares (alone p.clus) else u) }) s

/-- The dies of a family's reservations are those of its slots (R309). -/
def State.rehome (s : State) (root : Nat) : State :=
  { s with fams := s.fams.map (fun (f : Fam) => if f.root == root then { f with dies := diesOf ((s.family root).flatMap (fun y => y.slots)) } else f) }

/-- The family's state comes back to the chip, at its place (R214, R360); its huddles are homed by its dies (R309). -/
def State.restoreFamily (s : State) (root : Nat) (v : Saved) : State :=
  let shares := (s.family root).flatMap (fun x => x.shares)
  let s := s.rehome root
  let s := { s with
    huddles := s.huddles ++ v.huddles.map (fun (h : Huddle) => { h with home := s.huddleHome root h.name }),
    early := s.early ++ v.early, mem := writeCells s.mem v.mem, full := v.full.foldl (fun f g => insertNat g f) s.full,
    sbuf := s.sbuf ++ v.sbuf, flight := s.flight ++ v.flight, outb := s.outb ++ v.outb, feq := s.feq ++ v.feq,
    deques := s.deques ++ v.deques, chans := s.chans ++ v.chans, xfers := s.xfers ++ v.xfers, msgs := s.msgs ++ v.msgs,
    hreqs := s.hreqs ++ v.hreqs, hnotes := s.hnotes ++ v.hnotes, saved := s.saved.filter (fun w => w.root != root) }
  let s := v.slots.foldl (fun (s : State) (c : Slot) => s.setSlot c) s
  let s := s.joinUnits root v.units shares
  ((s.family root).foldl (fun (s : State) (x : Ctx) => (s.allotChans x).allotUnits x) s).divideWays

/-- RESTORE_DONE: the state of a placed family stands on the chip again; it resumes in an agreed cycle (R360). A guaranteed
family comes back to the place that it kept. -/
def execRestoreDone (root : Nat) (s : State) : Out :=
  match s.savedOf root, (s.family root).head? with
  | some v, some x =>
    if x.stop == .restoring || (x.stop == .saved && x.res.cls == 0) then
      .next ((s.restoreFamily root v).setStop root (.resumeAt (agreedCycle s.cycle)))
    else notNow "RESTORE_DONE"
  | _, _ => notNow "RESTORE_DONE"

/-- A slot goes on from where it stopped; a thread in MWAIT completes it (R143, R148). -/
def Slot.resume (c : Slot) : Slot :=
  let c := match c.wait with
    | some .mwait => { c with wait := some (.done 0 0), monitor := none }
    | _ => c
  if c.dbgHalt then c else { c with status := c.held }

/-- RESUME_REJOIN: in the agreed cycle every slot of the family rejoins, but for those that a debug trigger has halted and
those of a context in ERROR (R360, R395). -/
def execResumeRejoin (root : Nat) (s : State) : Out :=
  match s.stopOf root with
  | .resumeAt v =>
    if v ≤ s.cycle then
      let goes := fun (c : Slot) => c.status == .stopped && (match s.ctxOf c with
        | some x => x.root == root && x.err.isNone && x.state != .error
        | none => false)
      let s := (s.mapSlots goes Slot.resume).setStop root .none
      .next { s with ctxs := s.ctxs.map (fun x => if x.root == root then
        { x with state := if x.state == .saved then .run else x.state, sliceAt := s.cycle } else x) }
    else notNow "RESUME_REJOIN"
  | _ => notNow "RESUME_REJOIN"

/-! ### Slices (R356) -/

/-- The state without the places of some families. -/
def State.without (s : State) (roots : List Nat) : State :=
  { s with ctxs := s.ctxs.filter (fun x => !roots.contains x.root),
           chans := s.chans.filter (fun h => match s.ctxAt h.ctx with
             | some x => !roots.contains x.root
             | none => true) }

/-- The elastic and batch families that hold a place, but for one. -/
def State.sliced (s : State) (root : Nat) : List Nat :=
  distinct ((s.ctxs.filter (fun x => x.root != root && x.res.cls != 0 && x.placed)).map (fun x => x.root))

/-- Another elastic or batch context with work waits for units that the family holds: with some of the other families out, it
could be placed if this one were out too, and not else (R356; notes/assumptions/38.md). -/
def State.wanted (s : State) (root : Nat) : Bool :=
  let others := s.sliced root
  s.ctxs.any (fun y => s.waits y && (upTo (others.length + 1)).any (fun i =>
    ((s.without (others.take i)).slicePlace y.root).isNone &&
      ((s.without (root :: others.take i)).slicePlace y.root).isSome))

/-- SLICE_END: the slice of an elastic or batch family is over, its root in ERROR or not; it is stopped to be saved out when another waits for what it
holds, and else keeps its place (R356). -/
def execSliceEnd (ctx : Nat) (s : State) : Out :=
  match s.ctxAt ctx with
  | none => notNow "SLICE_END"
  | some x =>
    if !s.heads x || x.res.cls == 0 || x.stop != .none ||
        decide (s.cycle.toNat < x.sliceAt.toNat + 600 * x.res.latency) then notNow "SLICE_END"
    else if s.wanted x.root then .next ((s.setCtx { x with sliceAt := s.cycle }).decideStop x.root)
    else .next (s.setCtx { x with sliceAt := s.cycle })

end Sys2Proof.Machine
end

