-- ==== Sys2Proof/Machine/LaunchQueues.lean ====
section
/-! DEFINITION. User queues: doorbells, packets, launches, fences, suspension and answers, and resets with replay
(spec/23_queues_scheduling_and_preemption.md R347 to R358). -/

namespace Sys2Proof.Machine

/-! ### Queues -/

/-- A queue of a context. -/
def Ctx.queue (x : Ctx) (q : Nat) : Option Queue := x.queues.find? (fun e => e.q == q)

/-- Put a queue back. -/
def Ctx.setQueue (x : Ctx) (q : Queue) : Ctx := { x with queues := updKey (fun e => e.q == q.q) q x.queues }

/-- A queue as defined (R349): nothing fetched or completed. -/
def Queue.fresh (q : Nat) (d : QueueDef) : Queue :=
  { q := q, qdef := d, widx := 0, ridx := 0, comp := 0, fence := BitVec.allOnes 32, disc := 0, state := 0, reason := 0,
    noexc := false, produced := 0, heldRec := none, ctrl := 0, widxs := [], ctrls := [], ring := if q = 0 then List.replicate 64 [] else [], fetched := none }

/-- The port queue: REPLAY set, a ring of 64 entries, and no exception queue (R348). -/
def Queue.port : Queue :=
  Queue.fresh 0 { base := 0, size := 64, exq := 0, qflags := 1, doorbell := 0, status := 0 }

/-- REPLAY (Table 23-1). -/
def Queue.replay (q : Queue) : Bool := q.qdef.qflags.getLsbD 0

/-- EXC (Table 23-1). -/
def Queue.exc (q : Queue) : Bool := q.qdef.qflags.getLsbD 1

/-- n bytes from an address lie within the context's writable free memory (Table 16-1). -/
def Ctx.freeSpan (x : Ctx) (va : Word) (n : Nat) : Bool :=
  decide (0x1000000000000 ≤ va.toNat) &&
    x.free.any (fun r => decide (r.1 ≤ va.toNat - 0x1000000000000) && decide (va.toNat - 0x1000000000000 + n ≤ r.2))

/-- STAT (Table 23-3). -/
def Queue.stat (q : Queue) : Word := BitVec.ofNat 64 (q.reason % 256 * 256 + (if q.noexc then 8 else 0) + q.state % 8)

/-- The status block (Table 23-2). -/
def Queue.statusBlock (q : Queue) : List Byte :=
  leBytes 4 q.ridx.toNat ++ leBytes 4 (if q.exc then q.produced else q.comp).toNat ++ leBytes 4 q.fence.toNat ++
    leBytes 4 q.disc.toNat ++ leBytes 8 q.stat.toNat ++ leBytes 8 0

/-- The hardware half of a queue (R348): the fields of its status block, the records produced and the record held. -/
def Queue.half (q : Queue) : List Byte × BitVec 32 × Option (List Byte) := (q.statusBlock, q.produced, q.heldRec)

/-- Put a queue back. When a field of its hardware half has changed, the scheduler writes its status block (R349); the state of
the port queue, which has none, goes to the bound node (R348; notes/assumptions/37.md). -/
def State.putQueue (s : State) (id : Nat) (q : Queue) : State :=
  match s.ctxAt id with
  | none => s
  | some x =>
    let t := s.setCtx (x.setQueue q)
    if (x.queue q.q).map Queue.half == some q.half then t
    else if q.q = 0 then t.notify x .queueState q.statusBlock
    else if !x.keyValid then t else t.land (cellsAt (devKey id q.qdef.status) q.statusBlock)

/-- The state of a queue that runs and is not suspended: 0 empty, 1 waiting (Table 23-3). -/
def Queue.going (q : Queue) : Nat := if q.fetched.isNone && q.ridx == q.widx.setWidth 32 then 0 else 1

/-! ### Suspension (R352, R357) -/

/-- A power of two from 64 to 2^20. -/
def ringSize (n : Nat) : Bool := (upTo 15).any (fun k => n == 2 ^ (k + 6))

/-- The checks of a queue's definition: reasons 1 and 2 (Table 23-5). -/
def defReason (x : Ctx) (q : Queue) : Option Nat :=
  if q.q = 0 then none
  else if !ringSize q.qdef.size.toNat || decide (4 ≤ q.qdef.qflags.toNat) then some 1
  else if q.qdef.base.toNat % 64 ≠ 0 ∨ !x.freeSpan q.qdef.base (64 * q.qdef.size.toNat) then some 2
  else none

/-- The checks of a queue at a fetch or a WIDX write: reasons 1 to 3 (Table 23-5). The word of an exception queue counts the
records taken and not the packets, so only its bits [63:32] are checked (R349; notes/assumptions/39.md). -/
def queueReason (x : Ctx) (q : Queue) : Option Nat :=
  match defReason x q with
  | some r => some r
  | none =>
    if bits q.widx 63 32 != 0 || (!q.exc && decide (q.qdef.size.toNat < (q.widx.setWidth 32 - q.ridx).toNat)) then some 3 else none

/-- An exception record (Table 23-6). -/
def excRecord (s : State) (x : Ctx) (q : Queue) (reason : Nat) : List Byte :=
  [0x47#8, 0x58#8, 0x51#8, 0x46#8] ++ leBytes 2 1 ++ leBytes 1 reason ++ leBytes 1 0 ++ leBytes 2 q.q ++ leBytes 2 x.id ++
    leBytes 4 q.ridx.toNat ++ leBytes 8 s.cycle.toNat ++ leBytes 4 (bits q.widx 31 0) ++ List.replicate 36 0

/-- The exception queue that takes a record of a queue: another that is defined, has EXC and is not suspended (R357). -/
def excTarget (x : Ctx) (q : Queue) : Option Queue :=
  if q.qdef.exq.toNat = q.q then none
  else match x.queue q.qdef.exq.toNat with
    | none => none
    | some e => if e.exc && e.state != 3 then some e else none

/-- The exception queue has no room (R357). -/
def Queue.excFull (e : Queue) : Bool := (e.produced - e.widx.setWidth 32).toNat == e.qdef.size.toNat

/-- A record is written to an exception queue, and the count produced rises (R357). The write is one of the context: where its
free memory does not hold the place, no byte lands (notes/assumptions/39.md). -/
def State.writeExc (s : State) (x : Ctx) (e : Queue) (r : List Byte) : State :=
  let at_ := e.qdef.base + BitVec.ofNat 64 (64 * (e.produced.toNat % max 1 e.qdef.size.toNat))
  (if x.freeSpan at_ 64 then s.land (cellsAt (devKey x.id at_) r) else s).putQueue x.id { e with produced := e.produced + 1 }

/-- Deliver the record of a suspended queue (R357): a port queue's goes to the bound node; else to EXQ, held while it is
full, or dropped. -/
def State.deliver (s : State) (x : Ctx) (q : Queue) (r : List Byte) : State :=
  if q.q = 0 then (s.putQueue x.id { q with noexc := false }).notify x .queueRecord r
  else match excTarget x q with
    | none => s.putQueue x.id { q with noexc := true }
    | some e =>
      if q.heldRec.isSome then s.putQueue x.id { q with noexc := true }
      else if e.excFull then s.putQueue x.id { q with noexc := false, heldRec := some r }
      else (s.writeExc x e r).putQueue x.id { q with noexc := false }

/-- A queue is suspended with a reason (R352, R357). -/
def State.suspend (s : State) (x : Ctx) (q : Queue) (reason : Nat) : State :=
  let q := { q with state := 3, reason := reason }
  s.deliver x q (excRecord s x q reason)

/-- The record that a queue holds for an exception queue, once that queue is full no longer: it is delivered, or dropped where the
queue is suspended (R357). -/
def State.deliverOne (s : State) (x : Ctx) (q : Queue) : State :=
  match q.heldRec, x.queue q.qdef.exq.toNat with
  | some r, some e =>
    if e.excFull then s
    else match excTarget x q with
      | some t => (s.writeExc x t r).putQueue x.id { q with heldRec := none }
      | none => s.putQueue x.id { q with heldRec := none, noexc := true }
  | _, _ => s

/-- The records held for an exception queue whose count of records taken has moved (R357). -/
def State.deliverHeld (s : State) (id e : Nat) : State :=
  match s.ctxAt id with
  | none => s
  | some x =>
    (x.queues.filter (fun q => q.qdef.exq.toNat == e && q.heldRec.isSome)).foldl (fun (s : State) (q : Queue) =>
      match s.ctxAt id with
      | some y => s.deliverOne y q
      | none => s) s

/-- The queues of a context are served: it runs or is saved out, it is not in ERROR, and a reset that is decided has not begun
(R361). -/
def Ctx.served (x : Ctx) : Bool := x.alive && x.err.all (fun e => resetKind e.kind && !e.stopped)

/-- DOORBELL_WIDX_WRITE: the scheduler handles the first write of the WIDX word that has reached its home and is not handled
(R349, R361). The checks of R352 are made whatever the queue's state, and a failure suspends it with that reason; where they
pass, a suspended or closed queue stays so. -/
def execDoorbellWidxWrite (ctx q : Nat) (s : State) : Out :=
  match s.ctxAt ctx with
  | none => notNow "DOORBELL_WIDX_WRITE"
  | some x => match x.queue q with
    | none => notNow "DOORBELL_WIDX_WRITE"
    | some e => match e.widxs with
      | [] => notNow "DOORBELL_WIDX_WRITE"
      | w :: ws =>
        if !x.served then notNow "DOORBELL_WIDX_WRITE"
        else
          let e := { e with widx := w, widxs := ws }
          let t := match queueReason x e with
            | some r => s.suspend x e r
            | none => s.putQueue ctx { e with state := if e.exc || decide (2 ≤ e.state) then e.state else e.going }
          .next (if e.exc then t.deliverHeld ctx q else t)

/-- A queue goes on at RIDX after the checks, or suspends again with a new record (R357). -/
def State.resumeQueue (s : State) (x : Ctx) (q : Queue) : State :=
  match queueReason x q with
  | some r => s.suspend x q r
  | none =>
    let runs := match x.launch with
      | some l => l.q == q.q
      | none => false
    s.putQueue x.id { q with state := if runs then 2 else q.going }

/-- A queue whose COMP passes the packet that it has fetched has that packet no more, unless it is the running launch's. -/
def Queue.moved (q : Queue) (x : Ctx) (i : BitVec 32) : Queue :=
  let runs := match x.launch with
    | some l => l.q == q.q
    | none => false
  { q with ridx := i, comp := i, fetched := if runs then q.fetched else none }

/-- An answer to a suspended or closed queue (R357): 1 resume, 2 skip, 3 abort; in any other state it is ignored. -/
def State.answer (s : State) (x : Ctx) (q : Queue) (a : Nat) : State :=
  if q.state ≠ 3 ∧ q.state ≠ 4 then s.setCtx (x.setQueue q)
  else match a with
    | 1 => s.resumeQueue x q
    | 2 => s.resumeQueue x (q.moved x (q.ridx + 1))
    | 3 => s.putQueue x.id { q.moved x (q.widx.setWidth 32) with state := 4 }
    | _ => s.setCtx (x.setQueue q)

/-- The next CTRL write of a queue that is not handled, and the writes after it; one whose bits [1:0] are 0 is ignored (R357). -/
def Queue.nextCtrl (q : Queue) : Option (Word × List Word) :=
  match q.ctrls.dropWhile (fun w => bits w 1 0 == 0) with
  | [] => none
  | w :: ws => some (w, ws)

/-- The first CTRL write that has reached its home and is not handled is handled (R349, R357, R361). -/
def ctrlWrite (ctx q a : Nat) (name : String) (s : State) : Out :=
  match s.ctxAt ctx with
  | none => notNow name
  | some x => match x.queue q with
    | none => notNow name
    | some e => match e.nextCtrl with
      | none => notNow name
      | some (w, ws) =>
        if !x.served ∨ bits w 1 0 ≠ a then notNow name
        else .next (s.answer x { e with ctrl := w, ctrls := ws } a)

/-- CTRL_RESUME (R357). -/
def execCtrlResume (ctx q : Nat) (s : State) : Out := ctrlWrite ctx q 1 "CTRL_RESUME" s

/-- CTRL_SKIP (R357). -/
def execCtrlSkip (ctx q : Nat) (s : State) : Out := ctrlWrite ctx q 2 "CTRL_SKIP" s

/-- CTRL_ABORT (R357). -/
def execCtrlAbort (ctx q : Nat) (s : State) : Out := ctrlWrite ctx q 3 "CTRL_ABORT" s

/-! ### Packets (R350 to R352, R355) -/

/-- The address of packet RIDX of a queue (R350). -/
def Queue.packetAddr (q : Queue) : Word := q.qdef.base + BitVec.ofNat 64 (64 * (q.ridx.toNat % max 1 q.qdef.size.toNat))

/-- The 64 bytes of packet RIDX of a queue (R350). -/
def State.packetBytes (s : State) (x : Ctx) (q : Queue) : List Byte :=
  if q.q = 0 then q.ring.getD (q.ridx.toNat % 64) []
  else s.readHomeN (devKey x.id q.packetAddr) 64

/-- A word of a packet. -/
def packetWord (bs : List Byte) (i : Nat) : Word := leWord ((bs.drop (8 * i)).take 8)

/-- The packet of some bytes (Table 23-4). -/
def packetOf (bs : List Byte) : Packet :=
  let h := packetWord bs 0
  { fence := bits h 7 0 == 1, domain := bits h 10 8, range := bits h 14 14 == 1, kernel := bits h 31 16, wdog := bits h 47 32,
    arg := packetWord bs 1, n := packetWord bs 2, jcell := packetWord bs 3,
    waits := (upTo (bits h 13 11)).map (fun k => (bits (packetWord bs (4 + k)) 15 0, BitVec.ofNat 32 (bits (packetWord bs (4 + k)) 47 16))) }

/-- A join cell that every participant of a range can name and write (R352, reason 6). -/
def State.jcellOk (s : State) (x : Ctx) (va : Word) : Bool :=
  let a := va.toNat
  let c := { Slot.vacant ((x.slots.head?).getD 0) with owner := some x.id }
  let shared := decide (0x1000000000000 ≤ a) || (decide (0x100000000 ≤ a) && decide (a < 0x200000000) && decide (a % 0x1000000 < 0x40000)) ||
    (decide (0x200000000 ≤ a) && decide (a < 0x1000000000000) && decide (a % 0x1000000 < 0x400000))
  a % 8 == 0 && shared && (resolve s c va 8 (.store 8)).toOption.isSome

/-- A packet's own checks: reasons 4 to 6 (Table 23-5). A fence packet ignores every field but KIND, NWAIT and the
waits. -/
def packetReason (s : State) (x : Ctx) (q : Queue) (bs : List Byte) : Option Nat :=
  let h := packetWord bs 0
  let p := packetOf bs
  let nw := bits h 13 11
  let launch := bits h 7 0 == 0
  if bits h 7 0 > 1 ∨ nw > 4 ∨ (launch ∧ (bits h 15 15 ≠ 0 ∨ bits h 63 48 ≠ 0 ∨ p.domain > 3 ∨ x.kernels.length ≤ p.kernel)) ∨
      (upTo (min nw 4)).any (fun k => bits (packetWord bs (4 + k)) 63 48 != 0) then some 4
  else if p.waits.any (fun w => decide (x.res.queues ≤ w.1) ||
      (w.1 == q.q && ((q.ridx - w.2).toNat == 0 || decide (2 ^ 31 < (q.ridx - w.2).toNat)))) then some 5
  else if launch ∧ (((x.kernels[p.kernel]?).map (fun k => decide (x.slots.length < k.threads))).getD true ∨
      (p.range ∧ !s.jcellOk x p.jcell)) then some 6
  else none

/-- The hardware queue slot that serves a queue, as an index of D (R351). -/
def Ctx.hwSlot (x : Ctx) (q : Nat) : Nat := q % max 1 x.layout.dies.length

/-- A queue that a visit would serve (R351). -/
def Queue.visited (q : Queue) : Bool :=
  !q.exc && q.state != 3 && q.state != 4 && q.fetched.isNone && q.ridx != q.widx.setWidth 32

/-- The queue that a hardware slot serves next: round robin from the one after the last served (R351). -/
def Ctx.nextServed (x : Ctx) (hw : Nat) : Option Nat :=
  let qs := sortNats ((x.queues.filter (fun q => q.visited && x.hwSlot q.q == hw)).map (fun q => q.q))
  match x.lastQ.find? (fun e => e.1 == hw) with
  | none => qs.head?
  | some (_, l) => match (qs.filter (fun q => decide (l < q))).head? with
    | some q => some q
    | none => qs.head?

/-- Packets of the context may be fetched: no stop of its family is decided and not over (R359); the queues of an elastic or batch
context that is saved out still fetch (R356; notes/assumptions/37.md). -/
def Ctx.fetches (x : Ctx) : Bool :=
  x.alive && x.err.isNone && (x.stop == .none || (x.stop == .saved && x.res.cls != 0))

/-- The error that the fetch of a queue's next packet meets: the port queue's ring lies in reserved memory (R3, R348). -/
def State.packetError (s : State) (x : Ctx) (q : Queue) : Option MemErr := if q.q = 0 then none else s.errorAt (devKey x.id q.packetAddr) 64

/-- PACKET_FETCH: the queue's next packet is fetched and checked (R351, R352). An error in it takes the context (R3, R258). -/
def execPacketFetch (ctx q : Nat) (s : State) : Out :=
  match s.ctxAt ctx with
  | none => notNow "PACKET_FETCH"
  | some x => match x.queue q with
    | none => notNow "PACKET_FETCH"
    | some e =>
      if !x.fetches || x.nextServed (x.hwSlot q) != some q then notNow "PACKET_FETCH"
      else
        let x := { x with lastQ := updKey (fun p => p.1 == x.hwSlot q) (x.hwSlot q, q) x.lastQ }
        let s := s.setCtx x
        match queueReason x e, s.packetError x e with
        | some r, _ => .next (s.suspend x e r)
        | none, some m => .next (s.uncorrCtx x e.packetAddr m)
        | none, none =>
          let bs := s.packetBytes x e
          match packetReason s x e bs with
          | some r => .next (s.suspend x e r)
          | none => .next (s.putQueue ctx { e with ridx := e.ridx + 1, state := 1, fetched := some (packetOf bs) })

/-- The index of the packet that a queue has fetched. -/
def Queue.index (q : Queue) : BitVec 32 := q.ridx - 1

/-- A wait is met (R355). -/
def waitMet (x : Ctx) (w : Nat × BitVec 32) : Bool :=
  match x.queue w.1 with
  | none => false
  | some u => u.state == 4 || (decide (1 ≤ (u.comp - w.2).toNat) && decide ((u.comp - w.2).toNat ≤ 2 ^ 31))

/-- A packet of a queue completes: COMP moves on to the index after it, unless an answer has moved it further (R354,
R357). -/
def Queue.complete (q : Queue) (i : BitVec 32) : Queue :=
  let c := i + 1
  let q := { q with fetched := none, comp := if (q.comp - c).toNat < 2 ^ 31 then q.comp else c }
  { q with state := if q.state = 3 ∨ q.state = 4 then q.state else q.going }

/-- FENCE_PACKET_COMPLETE: a fetched fence packet whose waits are met (R354); one that the port launched is told to the bound
node (Table 27-2). -/
def execFencePacketComplete (ctx q : Nat) (s : State) : Out :=
  match s.ctxAt ctx with
  | none => notNow "FENCE_PACKET_COMPLETE"
  | some x => match x.queue q with
    | none => notNow "FENCE_PACKET_COMPLETE"
    | some e => match e.fetched with
      | none => notNow "FENCE_PACKET_COMPLETE"
      | some p =>
        if p.fence && x.served && e.state == 1 && p.waits.all (waitMet x) then
          let s := s.putQueue ctx { e.complete e.index with fence := e.index }
          .next (if q = 0 then s.notify x .fenceDone (leBytes 4 e.index.toNat) else s)
        else notNow "FENCE_PACKET_COMPLETE"

/-! ### Launches (R353, R354) -/

/-- The slot of a thread of a context. -/
def State.threadSlot (s : State) (x : Ctx) (t : Nat) : Slot := s.slotAt ((x.slots[t]?).getD 0)

/-- A launch without RANGE: a task in the slot of each of THREAD 0 to T − 1 (R353). -/
def State.launchAll (s : State) (x : Ctx) (k : Kernel) (p : Packet) (i : BitVec 32) : State :=
  (upTo (min k.threads x.slots.length)).foldl (fun (s : State) (t : Nat) =>
    s.startIn (s.threadSlot x t) k p.domain k.entry p.arg p.n (i.setWidth 64)) s

/-- A launch with RANGE: the slots of THREAD 1 to T − 1 enter IDLE, and THREAD 0 starts as if it had issued RFORK, with its
recruits (R353, R133, R134, R137). -/
def State.launchRange (s : State) (x : Ctx) (k : Kernel) (p : Packet) : State :=
  let s := (upTo (min k.threads x.slots.length)).foldl (fun (s : State) (t : Nat) =>
    if t = 0 then s else s.setSlot { s.threadSlot x t with status := .idle, held := .idle }) s
  let c := { s.threadSlot x 0 with domain := p.domain }
  let rs := if p.n = 0 then [] else s.recruits x c p.n.toNat
  let parts := rs.length + 1
  let s := match resolve s c p.jcell 8 (.store 8) with
    | .ok key => (s.land (cellsAt key (leBytes 8 parts))).noteAccess x.id key 8 true
    | .error _ => s
  let s := (upTo rs.length).foldl (fun (s : State) (i : Nat) => match rs[i]? with
    | some r => s.startIn r k p.domain k.entry (subrange p.n.toNat parts (i + 1)) (subrange p.n.toNat parts (i + 2)) p.jcell
    | none => s) s
  s.startIn (s.threadSlot x 0) k p.domain k.entry 0 (subrange p.n.toNat parts 1) p.jcell

/-- LAUNCH_START: a fetched launch packet whose waits are met starts, while the context runs no launch (R351, R353,
R361). -/
def execLaunchStart (ctx q : Nat) (s : State) : Out :=
  match s.ctxAt ctx with
  | none => notNow "LAUNCH_START"
  | some x => match x.queue q with
    | none => notNow "LAUNCH_START"
    | some e => match e.fetched with
      | none => notNow "LAUNCH_START"
      | some p => match x.kernels[p.kernel]? with
        | none => notNow "LAUNCH_START"
        | some k =>
          if !p.fence && x.state == .run && x.err.isNone && x.stop == .none && x.launch.isNone && e.state == 1 &&
              p.waits.all (waitMet x) && x.slots.all (fun t => (s.slotAt t).status == .idle || (s.slotAt t).status == .vacant) then
            let x := { x with launch := some { q := q, idx := e.index, wdog := p.wdog, ran := 0 } }
            let s := (s.setCtx x).putQueue ctx { e with state := 2 }
            .next (if p.range then s.launchRange x k p else s.launchAll x k p e.index)
          else notNow "LAUNCH_START"

/-- An idle slot of the context can still take a record, of its own core or of another that it can steal from (R140). -/
def State.taskWaits (s : State) (x : Ctx) : Bool :=
  x.slots.any (fun p =>
    let k := coreOf p
    let d := s.dequeAt x k
    (s.slotAt p).status == .idle && (!(d.items.isEmpty && d.spill.isEmpty) ||
      (victims x k).any (fun v => (stealFrom x k (s.dequeAt x v)).isSome)))

/-- Every slot of the context is IDLE or VACANT, and nothing of it is outstanding (R354). -/
def State.launchDone (s : State) (x : Ctx) : Bool :=
  x.slots.all (fun t => (s.slotAt t).status == .idle || (s.slotAt t).status == .vacant) &&
    !s.outb.any (fun e => s.slotOf x.id e.slot) && !s.sbuf.any (fun e => s.slotOf x.id e.slot) &&
    !s.flight.any (fun e => s.slotOf x.id e.slot) && !s.xfers.any (fun t => t.ctx == x.id) &&
    !s.colls.any (fun e => !e.far && e.ctx == x.id) && !s.taskWaits x

/-- LAUNCH_COMPLETE: what is left in the deques is discarded and counted, idle slots are vacant, and the packet completes
(R354, R140). -/
def execLaunchComplete (ctx : Nat) (s : State) : Out :=
  match s.ctxAt ctx with
  | none => notNow "LAUNCH_COMPLETE"
  | some x => match x.launch with
    | none => notNow "LAUNCH_COMPLETE"
    | some l => match x.queue l.q with
      | none => notNow "LAUNCH_COMPLETE"
      | some e =>
        if x.state == .run && x.err.isNone && s.launchDone x then
          let disc := ((s.deques.filter (fun d => d.ctx == ctx)).map (fun d => d.items.length + d.spill.length)).foldl (fun a b => a + b) 0
          let s := { s with deques := s.deques.filter (fun d => d.ctx != ctx) }
          let s := s.mapSlots (fun c => ownedBy ctx c && c.status == .idle) (fun c => { c with status := .vacant, held := .vacant })
          let s := s.setCtx { x with launch := none, disc := disc }
          let s := s.putQueue ctx { e.complete l.idx with disc := BitVec.ofNat 32 (min disc (2 ^ 32 - 1)) }
          .next (if l.q = 0 then s.notify x .launchDone (leBytes 4 l.idx.toNat ++ leBytes 4 (min disc (2 ^ 32 - 1))) else s)
        else notNow "LAUNCH_COMPLETE"

/-! ### Reset and replay (R358) -/

/-- The cycles of a millisecond. -/
def msCycles : Nat := 600000

/-- WATCHDOG_EXPIRY: the launch has run its WDOG milliseconds; the context is reset (R358). -/
def execWatchdogExpiry (ctx : Nat) (s : State) : Out :=
  match s.ctxAt ctx with
  | none => notNow "WATCHDOG_EXPIRY"
  | some x => match x.launch with
    | none => notNow "WATCHDOG_EXPIRY"
    | some l =>
      if l.wdog ≠ 0 ∧ l.wdog * msCycles ≤ l.ran ∧ x.err.isNone ∧ x.stop.running then
        .next ((s.ctxFault x 1).signalRef [refCore0] 0b010000)
      else notNow "WATCHDOG_EXPIRY"

/-- A queue after a reset (R358, step 4). -/
def State.replayQueue (s : State) (id : Nat) (l : Option Launch) (q : Queue) : State :=
  match s.ctxAt id with
  | none => s
  | some x =>
    if q.replay then
      let f := q.fence + 1
      let q := { q with ridx := f, comp := f, fetched := none }
      if q.qdef.size.toNat < (q.widx.setWidth 32 - f).toNat then s.suspend x q 8
      else s.putQueue id { q with state := if q.state = 3 ∨ q.state = 4 then q.state else q.going }
    else if (l.map (fun e => e.q)) == some q.q then s.suspend x { q with comp := q.ridx, fetched := none } 7
    else s

/-- The context is reset (R358, steps 3 to 5): its members depart, the charges of its huddles pass on (R310), its records go, its code is loaded again, its queues
replay, and it returns to RUN with the same units. -/
def State.resetCtx (s : State) (x : Ctx) : State :=
  let s := (upTo x.slots.length).foldl (fun (s : State) (t : Nat) => s.departThread x.id t) s
  let s := ((s.scrub x).passChans x true).passCharges x.id
  let s := match gxoParse 13824 x.object with
    | .ok g => match g.load (textLink + x.layout.textOff) with
      | .ok o => s.putCode x.id x.layout o
      | .error _ => s
    | .error _ => s
  let s := s.setCtx { x with launch := none, err := none, halted := false, dbgClus := [] }
  let s := { s with waking := s.waking ++ x.banks }
  (x.queues.map (fun q => q.q)).foldl (fun (s : State) (n : Nat) => match (s.ctxAt x.id).bind (fun y => y.queue n) with
    | some q => s.replayQueue x.id x.launch q
    | none => s) s

end Sys2Proof.Machine
end

