-- ==== Sys2Proof/Machine/Admission.lean ====
section
/-! DEFINITION. Warrant images, the eight steps of admission, the build, receipts and redemption claims
(spec/21_warrants_and_contexts.md R326 to R338). -/

namespace Sys2Proof.Machine

/-! ### Images and records (R326, R327) -/

/-- A resource record at an offset of some bytes (R327). -/
def resourcesAt (a : Array Byte) (o : Nat) : Resources :=
  { cls := arrNat a o 4, threads := arrNat a (o + 4) 4, coreB := arrNat a (o + 8) 4, clusB := arrNat a (o + 0x0C) 4,
    devB := arrNat a (o + 0x10) 8, weight := arrNat a (o + 0x18) 2, huddles := arrNat a (o + 0x1A) 2,
    queues := arrNat a (o + 0x1C) 4, energy := arrNat a (o + 0x20) 8, power := arrNat a (o + 0x28) 4,
    latency := arrNat a (o + 0x2C) 4 }

/-- The limits of Table 21-1 for a record's fields. -/
def Resources.ok (r : Resources) : Bool :=
  decide (r.cls ≤ 2) && decide (1 ≤ r.threads) && decide (r.threads ≤ 96768) && r.coreB % 16 == 0 && decide (r.coreB ≤ 262144) &&
    r.clusB % 16 == 0 && decide (r.clusB ≤ 4194304) && decide (r.devB ≠ 0) && decide (r.weight ≤ 15) && decide (1 ≤ r.queues) &&
    decide (r.queues ≤ 4096) && decide (r.energy ≠ 0) && decide (r.power ≤ 9200000) && decide (r.latency ≠ 0)

/-- The 64 bytes of a record (R327). -/
def Resources.bytes (r : Resources) : List Byte :=
  leBytes 4 r.cls ++ leBytes 4 r.threads ++ leBytes 4 r.coreB ++ leBytes 4 r.clusB ++ leBytes 8 r.devB ++ leBytes 2 r.weight ++
    leBytes 2 r.huddles ++ leBytes 4 r.queues ++ leBytes 8 r.energy ++ leBytes 4 r.power ++ leBytes 4 r.latency ++
    List.replicate 16 0

/-- The bytes of a warrant image (R326). -/
def imageSize : Nat := 31616

/-- The bytes of an image that its signature covers. -/
def imageSigned : Nat := 0x720

/-- A well-formed warrant image (R326, Table 21-1). -/
def imageOf (bs : List Byte) : Option Warrant :=
  let a := bs.toArray
  let flags := arrNat a 6 2
  let w : Warrant :=
    { splitOk := flags % 2 == 1, delegOk := flags / 2 % 2 == 1, sealed := flags / 4 % 2 == 1,
      serial := BitVec.ofNat 128 (arrNat a 8 16), issuer := BitVec.ofNat 256 (arrNat a 0x18 32),
      holder := BitVec.ofNat 256 (arrNat a 0x38 32), notBefore := arrWord a 0x58, notAfter := arrWord a 0x60,
      domain := arrWord a 0x68, res := resourcesAt a 0x70, code := BitVec.ofNat 256 (arrNat a 0xA0 32),
      allow := BitVec.ofNat 256 (arrNat a 0xC0 32), keyCt := (a.extract 0x100 imageSigned).toList }
  if a.size = imageSize ∧ arrNat a 0 4 = 0x54575847 ∧ arrNat a 4 2 = 1 ∧ flags < 8 ∧ w.notBefore.toNat < w.notAfter.toNat ∧
      w.res.ok ∧ (w.sealed → w.res.cls = 0) ∧ arrZero a 0xE0 32 then some w else none

/-! ### Steps 1 to 5 (R328 to R330) -/

/-- The issuer key of a digest in the commissioning record. -/
def State.issuerOf (s : State) (dig : BitVec 256) : Option IssuerKey :=
  s.commission.bind (fun r => r.issuers.find? (fun k => k.digest == dig))

/-- The ordered members of a redemption domain (R331, R410). -/
def State.members (s : State) (domain : Word) : List Nat :=
  ((s.commission.bind (fun r => r.domains.find? (fun e => e.1 == domain))).map (fun e => e.2)).getD []

/-- Steps 1 to 5 of Table 21-2 for an image: the warrant, or the status of the first step that fails. While TLATE is all ones no
warrant passes step 3 (R329). -/
def State.examineImage (s : State) (img : List Byte) (holderOk : BitVec 256 → Bool) : Except Nat Warrant :=
  match imageOf img with
  | none => .error 0x01
  | some w => match s.issuerOf w.issuer with
    | none => .error 0x02
    | some k =>
      if !Config.sigVerifies w.issuer (img.take imageSigned) (img.drop imageSigned) then .error 0x02
      else if !k.active || !k.domains.contains w.domain then .error 0x03
      else if s.tearly < w.notBefore.toNat ∨ w.notAfter.toNat < s.tlate ∨ s.tlate = 2 ^ 64 - 1 then .error 0x04
      else if !(s.members w.domain).contains s.ownNode then .error 0x05
      else if !holderOk w.holder then .error 0x06
      else .ok w

/-! ### Replies (R336, R402) -/

/-- A refusal: bit 63, the resource code for 0x0A, and the status (R336). -/
def refusal (status res : Nat) : Word := BitVec.ofNat 64 (2 ^ 63 + res * 256 + status)

/-- A reply of the port: its code has bit 15 set (R402). -/
def State.reply (s : State) (h : PortHdr) (code : Nat) (status : Word) (payload : List Byte) : State :=
  let r : Reply := { node := h.node, code := code + 0x8000, tag := h.tag, status := status, payload := payload }
  State.post { s with replies := s.replies ++ [r] } h.node 0 (portBytes (code + 0x8000) h.tag status payload)

/-! ### Handles (R335) -/

/-- A table as built: entry 0 names the context itself, with handle 0x40. -/
def freshHandles (id : Nat) : List WHandle :=
  { gen := 1, target := some id } :: List.replicate 63 { gen := 0, target := none }

/-- The context that a live handle names. -/
def Ctx.lookHandle (x : Ctx) (h : Word) : Option Nat :=
  if h.toNat / 2 ^ 32 ≠ 0 then none
  else match x.handles[h.toNat % 64]? with
    | some e => if e.gen ≠ 0 ∧ e.gen = h.toNat / 64 then e.target else none
    | none => none

/-- Give the lowest free entry its next handle; none where no entry is free. -/
def Ctx.giveHandle (x : Ctx) (target : Nat) : Option (Word × Ctx) :=
  match x.handles.findIdx? (fun e => e.target.isNone) with
  | none => none
  | some k =>
    let g := ((x.handles[k]?).map (fun e => e.gen)).getD 0 + 1
    some (BitVec.ofNat 64 (g * 64 + k), { x with handles := setNth x.handles k { gen := g, target := some target } })

/-! ### The build (R334) -/

/-- The child whose redemption a claim asks for. -/
def ClaimFor.child : ClaimFor → Option Nat
  | .port _ _ _ | .thread _ _ _ => none
  | .redeemPort _ c _ _ | .redeemThread _ c _ _ => some c

/-- CTX.ID values that a context, its kin, a claim or a huddle still goes by. -/
def State.idUsed (s : State) (id : Nat) : Bool :=
  let inHuddle := fun (h : Huddle) => h.root == id || h.charged == id || h.members.any (fun m => m.ctx == id)
  s.ctxs.any (fun x => x.id == id || x.root == id || x.parent == some id || x.splitter.1 == id || x.lent.any (fun r => r.1 == id)) ||
    s.huddles.any inHuddle ||
    s.saved.any (fun v => v.huddles.any inHuddle) || s.claims.any (fun c => c.who.child == some id) || s.fams.any (fun f => f.root == id) ||
    s.hreqs.any (fun r => r.root == id || r.ctx == id) || s.hnotes.any (fun n => n.ctx == id)

/-- A CTX.ID for a new context: the spec gives no rule, so a free value where it serves (notes/assumptions/7.md). -/
def State.newId (s : State) : Nat × State :=
  let (w, t) := s.draw
  let k := w.toNat % 2 ^ 16
  if k ≠ 0 ∧ !s.idUsed k then (k, t)
  else (((upTo 65535).find? (fun i => !s.idUsed (i + 1))).getD 0 + 1, t)

/-- A free key slot of the 1,024 (R256). -/
def State.freeKey (s : State) : Option Nat := (upTo 1024).find? (fun k => !s.keys.any (fun e => e.slot == k))

/-- What a context holds when it is built: its own identity, one port queue, and nothing used. -/
def Ctx.built (id node : Nat) (w : Warrant) (obj : List Byte) (lay : Layout) (kernels : List Kernel) (key : List Byte)
    (now : Word) : Ctx :=
  { id := id, root := id, parent := none, parentSerial := 0, state := .unlocked, warrant := w, serial := w.serial, holder := w.holder, delegate := none,
    splitter := (id, 0), sub := false, res := w.res, object := obj, kernels := kernels, layout := lay, lent := [], slots := [],
    cores := [], clusters := [], shares := [], pairs := [], key := key, keyValid := true, kids := 0, born := 0, redeemed := false,
    handles := freshHandles id, node := node, winOut := none, winIn := none, meter := 0, windowAt := 0, raised := false,
    throttle := 0, queues := [Queue.port], lastQ := [], launch := none, disc := 0, stop := .none, err := none, halted := false, dbgClus := [],
    waited := now.toNat, sliceAt := now }

/-- A load that failed, or another refusal of the build: the word, and the reason and index of Table 25-5. -/
abbrev BuildError := Word × Nat × Nat

/-- The object of a build as loaded, with its layout, on a placement: the digest, the object, the scratchpads, the regions
and the relocations, in this order (R334, R368, R159, R206). -/
def loadFor (w : Warrant) (obj : List Byte) (ps : List Nat) : Except BuildError (Layout × Loaded) :=
  let cores := placedCores w.need ps
  let clus := distinct (cores.map (fun k => k / 8))
  let shares := if w.sealed || w.res.weight != 0 then cores.length else 0
  if digest obj ≠ w.code then .error (refusal 0x0B 0, 0, 0)
  else match gxoParse cores.length obj with
    | .error (r, i) => .error (refusal 0x0C 0, r, i)
    | .ok g =>
      let g0 := grantBytes w.res.devB
      let kernels := (upTo g.kernels).map (g.kernel 0)
      if w.res.coreB < maxDecl kernels (fun d => d.coresp) then .error (refusal 0x0A 2, 0, 0)
      else if w.res.clusB < maxDecl kernels (fun d => d.clussp) then .error (refusal 0x0A 3, 0, 0)
      else match layoutOf g g0 (diesOf ps)
          (saveBytes w.res.threads cores.length clus.length shares w.res.coreB w.res.clusB w.res.huddles)
          (distinct (ps.map coreOf)).length with
        | none => .error (refusal 0x0A 4, 0, 0)
        | some lay => match g.load (textLink + lay.textOff) with
          | .error (r, i) => .error (refusal 0x0C 0, r, i)
          | .ok o => .ok (lay, o)

/-- The context takes its units: at once, or when its slices begin (R332, R334). -/
def State.takeUnits (s : State) (x : Ctx) (st : Status) : State :=
  if x.res.cls = 0 then ((s.setCtx x).allot x st).holdModules x
  else
    let slots := (upTo x.slots.length).filterMap (fun i => (x.slots[i]?).map (fun p => allottedSlot x p i st))
    let x := { x with stop := .saved, state := if x.state == .run then .saved else x.state }
    let s := s.setCtx x
    { s with saved := s.saved ++ [Saved.fresh x.id slots] }

/-- Steps 7 and 8 of a presentation (R332, R334): the new state and CTX.ID, or the refusal. -/
def State.buildRoot (s : State) (w : Warrant) (obj : List Byte) (node : Nat) (run : Bool) : Except BuildError (State × Nat) :=
  match s.feasible w with
  | .error c => .error (refusal 0x0A c, 0, 0)
  | .ok (ps, qs) => match s.freeKey with
    | none => .error (refusal 0x0A 11, 0, 0)
    | some ks => match loadFor w obj ps with
      | .error e => .error e
      | .ok (lay, o) =>
        let (id, s) := s.newId
        let key := Config.kemUnwrap w.keyCt
        let x := (Ctx.built id node w obj lay o.kernels key s.cycle).onSlots ps
        let x := if run then { x with state := .run } else x
        let x := if w.sealed then { x with pairs := x.layout.dies.filterMap (freePair (pairsOf s.ctxs)) } else x
        let s := s.takeUnits x (if run then .idle else .vacant)
        let s := { s with fams := s.fams ++ [({ root := id, quota := w.res.huddles, dies := x.layout.dies } : Fam)] }
        let s := s.installKey ks id (some key)
        let s := { s with commits := s.commits ++ [({ ctx := id, cls := w.res.cls, q := qs } : Commit)] }
        .ok (s.putCode id lay o, id)

/-! ### Receipts (R338, Table 21-7) -/

/-- The bytes of a receipt. -/
def receiptBytes (parent child : BitVec 128) (delegate : BitVec 256) (node : Nat) (res : Resources) (root : BitVec 128) : List Byte :=
  [0x47#8, 0x58#8, 0x44#8, 0x52#8] ++ leBytes 2 1 ++ leBytes 2 0 ++ leBytes 16 parent.toNat ++ leBytes 16 child.toNat ++
    leBytes 32 delegate.toNat ++ leBytes 8 node ++ leBytes 32 (digest res.bytes).toNat ++ leBytes 16 root.toNat

/-- The serial of the warrant that a context's family was built from. -/
def State.rootSerial (s : State) (x : Ctx) : BitVec 128 := ((s.ctxAt x.root).map (fun r => r.warrant.serial)).getD x.warrant.serial

/-- The checks of a receipt but for its claim: the child and the delegatee, or the status (R338). -/
def State.checkReceipt (s : State) (bs : List Byte) (proof : BitVec 256 → Bool) : Except Nat (Ctx × BitVec 256) :=
  let a := bs.toArray
  if a.size ≠ 128 ∨ arrNat a 0 4 ≠ 0x52445847 ∨ arrNat a 4 2 ≠ 1 ∨ !arrZero a 6 2 then .error 0x01
  else if arrNat a 0x48 8 ≠ s.ownNode then .error 0x10
  else match s.ctxs.find? (fun x => x.sub && x.serial == BitVec.ofNat 128 (arrNat a 0x18 16) && x.delegate.isSome) with
    | none => .error 0x10
    | some x =>
      let who := BitVec.ofNat 256 (arrNat a 0x28 32)
      if BitVec.ofNat 256 (arrNat a 0x50 32) ≠ digest x.warrant.res.bytes ∨
          BitVec.ofNat 128 (arrNat a 0x70 16) ≠ s.rootSerial x then .error 0x10
      else if !proof who then .error 0x06
      else .ok (x, who)

/-- A receipt's claim is granted: the child has a new holder and a new bound node, and its parent's handle is freed (R338,
R403). -/
def State.redeemChild (s : State) (child : Nat) (who : BitVec 256) (node : Nat) (splitter : Option (Nat × Nat)) : State :=
  match s.ctxAt child with
  | none => s
  | some x =>
    let s := s.setCtx { x with holder := who, delegate := none, redeemed := true, node := node, splitter := splitter.getD x.splitter }
    { s with ctxs := s.ctxs.map (fun (y : Ctx) => if y.id == child then y else { y with handles := y.handles.map (fun h =>
        if h.target == some child then { h with target := none } else h) }) }

/-! ### Claims (R331) -/

/-- The redemption domain of a claim. -/
def ClaimFor.domain : ClaimFor → Word
  | .port _ w _ | .thread _ w _ => w.domain
  | .redeemPort _ _ _ d | .redeemThread _ _ _ d => d

/-- The node of the home of a root serial in a domain (R331). -/
def State.homeOf (s : State) (domain : Word) (root : BitVec 128) : Nat :=
  let m := s.members domain
  let h := leNat (shake256 (leBytes 16 root.toNat) 8)
  (m[h % max 1 m.length]?).getD s.ownNode

/-- The bytes of a claim. Table 27-1 gives the channel; the layout is the model's. -/
def claimBytes (c : ClaimMsg) : List Byte :=
  leBytes 16 c.serial.toNat ++ leBytes 16 c.root.toNat ++ leBytes 8 c.notBefore.toNat ++ leBytes 8 c.device

/-- The thread's warrant instruction still waits for the umpire. -/
def State.warrantWaits (s : State) (slot : Nat) : Bool :=
  match (s.slotAt slot).wait with
  | some (.warrant _ _ _ _ none) => true
  | _ => false

/-- The umpire's answer to a warrant instruction reaches its thread (R336). -/
def State.setResult (s : State) (slot : Nat) (w : Word) : State :=
  let c := s.slotAt slot
  match c.wait with
  | some (.warrant op d a b none) => s.setSlot { c with wait := some (.warrant op d a b (some w)) }
  | _ => s

/-- A presentation or a redemption is refused. -/
def State.refuseClaim (s : State) (who : ClaimFor) (status : Nat) : State :=
  match who with
  | .port h _ _ => s.reply h 0x05 (refusal status 0) []
  | .redeemPort h _ _ _ => s.reply h 0x06 (refusal status 0) []
  | .thread p _ _ | .redeemThread p _ _ _ => s.setResult p (refusal status 0)

/-- A serial lives in a context of this device (R331). -/
def State.serialLive (s : State) (serial : BitVec 128) : Bool := s.ctxs.any (fun x => x.serial == serial)

/-- The claim is one of a presentation. -/
def ClaimFor.presents : ClaimFor → Bool
  | .port .. | .thread .. => true
  | _ => false

/-- The next presentation's claim is sent; one whose serial is live here is refused before (R328, R331). -/
def sendClaim : Nat → State → State
  | 0, s => s
  | n + 1, s => match s.claims with
    | [] => s
    | c :: rest =>
      if c.who.presents && s.serialLive c.msg.serial then sendClaim n (State.refuseClaim { s with claims := rest } c.who 0x07)
      else
        let home := s.homeOf c.who.domain c.msg.root
        let s := { s with claims := { c with first := s.cycle, last := s.cycle } :: rest }
        if home = s.ownNode then s else s.post home 1 (claimBytes c.msg)

/-- A claim joins those that wait for their turn. -/
def State.addClaim (s : State) (msg : ClaimMsg) (who : ClaimFor) : State :=
  let t := { s with claims := s.claims ++ [({ msg := msg, first := 0, last := 0, who := who } : Claim)] }
  if s.claims.isEmpty then sendClaim 1 t else t

/-- The first claim is over. -/
def State.nextClaim (s : State) : State :=
  let t := { s with claims := s.claims.drop 1 }
  sendClaim (t.claims.length + 1) t

/-- The child lives and a receipt for it is still outstanding (R338, R340). -/
def State.receiptOut (s : State) (child : Nat) : Bool := (s.ctxAt child).any (fun x => x.delegate.isSome)

/-- The claim of a presentation is granted: steps 7 and 8 (R328). A receipt that another presentation has redeemed meanwhile is
outstanding no more (R338). A WPRES whose table has no free entry is refused with 0x11,
and with 0x0C tells reason and index in its block (R335, R371). -/
def State.present (s : State) (who : ClaimFor) : State :=
  match who with
  | .port h w obj => match s.buildRoot w obj h.node false with
    | .ok (t, id) => t.reply h 0x05 0 (leBytes 8 id)
    | .error (e, r, i) => s.reply h 0x05 e (if e = refusal 0x0C 0 then leBytes 4 i ++ leBytes 4 r else [])
  | .redeemPort h c d _ =>
    if s.receiptOut c then (s.redeemChild c d h.node none).reply h 0x06 0 (leBytes 8 c) else s.reply h 0x06 (refusal 0x10 0) []
  | .thread p w obj =>
    let c := s.slotAt p
    match s.ctxOf c, c.wait with
    | some x, some (.warrant _ _ a _ none) => match s.buildRoot w obj x.node true with
      | .ok (t, id) => match (t.ctxAt x.id).bind (fun y => y.giveHandle id) with
        | some (h, y) => (t.setCtx y).setResult p h
        | none => s.setResult p (refusal 0x11 0)
      | .error (e, r, i) =>
        let s := if e = refusal 0x0C 0 then
            (match resolve s c (a + 0x20) 1 .vstore with
              | .ok k => s.land (cellsAt k (leBytes 4 i ++ leBytes 4 r))
              | .error _ => s)
          else s
        s.setResult p e
    | _, _ => s
  | .redeemThread p k d _ =>
    let c := s.slotAt p
    match s.ctxOf c with
    | none => s
    | some x =>
      if !s.warrantWaits p then s
      else if !s.receiptOut k then s.setResult p (refusal 0x10 0)
      else
        let t := s.redeemChild k d x.node (some (x.id, p))
        match (t.ctxAt x.id).bind (fun y => y.giveHandle k) with
        | some (h, y) => (t.setCtx y).setResult p h
        | none => s.setResult p (refusal 0x11 0)

/-- The redemption table's answer to a claim (Table 21-3, R411), and the table after it. -/
def State.tableClaim (s : State) (c : ClaimMsg) : Nat × List Redeemed :=
  match s.bootTime with
  | none => (0x09, s.redemption)
  | some b =>
    if c.notBefore.toNat < b.toNat then (0x09, s.redemption)
    else match s.redemption.find? (fun e => e.serial == c.serial) with
      | none => (0, s.redemption ++ [({ serial := c.serial, device := c.device, spent := false } : Redeemed)])
      | some e => if !e.spent && e.device == c.device then (0, s.redemption) else (0x07, s.redemption)

/-- The answer to the first claim is carried out. -/
def State.claimAnswer (s : State) (who : ClaimFor) (status : Nat) : State :=
  (if status = 0 then s.present who else s.refuseClaim who status).nextClaim

/-- CLAIM_AT_HOME: the home handles a claim. A claim of this device whose home is another device is answered from there with
`answer`; a claim of another device is answered by this device's table (R331, Table 21-3). -/
def execClaimAtHome (claim : ClaimMsg) (answer : Nat) (s : State) : Out :=
  match s.claims with
  | c :: _ =>
    if c.msg = claim then
      if s.homeOf c.who.domain claim.root = s.ownNode then
        let (st, red) := s.tableClaim claim
        .next (State.claimAnswer { s with redemption := red } c.who st)
      else if answer = 0 ∨ answer = 0x07 ∨ answer = 0x09 then .next (s.claimAnswer c.who answer)
      else notNow "CLAIM_AT_HOME"
    else if claim.device = s.ownNode then notNow "CLAIM_AT_HOME"
    else
      let (st, red) := s.tableClaim claim
      .next (State.post { s with redemption := red } claim.device 1 (leBytes 16 claim.serial.toNat ++ leBytes 8 st))
  | [] =>
    if claim.device = s.ownNode ∨ s.commission.isNone then notNow "CLAIM_AT_HOME"
    else
      let (st, red) := s.tableClaim claim
      .next (State.post { s with redemption := red } claim.device 1 (leBytes 16 claim.serial.toNat ++ leBytes 8 st))

/-- The cycles of 100 µs. -/
def claimResend : Nat := 60000

/-- The cycles of 10 ms. -/
def claimLimit : Nat := 6000000

/-- CLAIM_RETRY (R331). -/
def execClaimRetry (serial : BitVec 128) (s : State) : Out :=
  match s.claims with
  | c :: rest =>
    if c.msg.serial = serial ∧ c.last.toNat + claimResend ≤ s.cycle.toNat then
      let home := s.homeOf c.who.domain c.msg.root
      let t := { s with claims := { c with last := s.cycle } :: rest }
      .next (if home = s.ownNode then t else t.post home 1 (claimBytes c.msg))
    else notNow "CLAIM_RETRY"
  | [] => notNow "CLAIM_RETRY"

/-- CLAIM_TIMEOUT (R331). -/
def execClaimTimeout (serial : BitVec 128) (s : State) : Out :=
  match s.claims with
  | c :: _ =>
    if c.msg.serial = serial ∧ c.first.toNat + claimLimit ≤ s.cycle.toNat then .next (s.claimAnswer c.who 0x08)
    else notNow "CLAIM_TIMEOUT"
  | [] => notNow "CLAIM_TIMEOUT"

/-- Mark a serial SPENT in the redemption table. -/
def markSpent (serial : BitVec 128) (device : Nat) (red : List Redeemed) : List Redeemed :=
  updKey (fun (e : Redeemed) => e.serial == serial)
    { serial := serial, device := ((red.find? (fun e => e.serial == serial)).map (fun e => e.device)).getD device, spent := true } red

/-- SPENT_AT_HOME: a SPENT of this device reaches its home, or one of another device reaches the table here (R331). -/
def execSpentAtHome (serial : BitVec 128) (s : State) : Out :=
  match s.spentOut.find? (fun e => e.1.serial == serial) with
  | some (m, dom) =>
    let t := { s with spentOut := dropFirst (fun e => e.1.serial == serial) s.spentOut }
    let home := s.homeOf dom m.root
    .next (if home = s.ownNode then { t with redemption := markSpent serial s.ownNode s.redemption }
           else t.post home 1 (leBytes 16 serial.toNat ++ leBytes 16 m.root.toNat))
  | none =>
    if s.redemption.any (fun e => e.serial == serial && e.device != s.ownNode && !e.spent) then
      .next { s with redemption := markSpent serial 0 s.redemption }
    else notNow "SPENT_AT_HOME"

end Sys2Proof.Machine
end

