-- ==== Sys2Proof/Machine/Counters.lean ====
section
/-! DEFINITION. Counter reads and device time: major 0x18 (spec/26_energy_time_counters_and_capture.md R384, R387 to
R389). -/

namespace Sys2Proof.Machine

/-- An event that Table 26-5 lists. -/
def eventListed (e : Nat) : Bool :=
  decide (e ≤ 0x0B) || (decide (0x40 ≤ e) && decide (e ≤ 0x4D)) || (decide (0x80 ≤ e) && decide (e ≤ 0x83)) ||
    (decide (0xC0 ≤ e) && decide (e ≤ 0xC6))

/-- The unit whose count of an event a thread reads: its slot, its core, its cluster, or its context (R387). -/
def eventUnit (c : Slot) (e : Nat) : Nat :=
  if e < 0x40 then c.phys else if e < 0x80 then c.lcore else if e < 0xC0 then c.lclus else 0

/-- CNTR (R388, R389). A slot or core count is read in one beat; a cluster or context count holds the thread in
WAITMEM. -/
def execCntr (d : Reg5) (e : BitVec 8) (s : State) : Out :=
  match s.ctxOf s.cur with
  | none => finishWith s s.cur d 0 s.cur.npc (.deny e)
  | some x =>
    if eventListed e.toNat && x.warrant.allow.getLsbD e.toNat then
      let v := BitVec.ofNat 64 (s.counter x.id (eventUnit s.cur e.toNat) e.toNat)
      if e.toNat < 0x80 then finish s s.cur d v else withDest s s.cur d (fun _ => waitOn s s.cur (.cntr d v))
    else finishWith s s.cur d 0 s.cur.npc (.deny e)

/-- TIME (R384). -/
def execTime (d : Reg5) (late : Bool) (s : State) : Out :=
  finish s s.cur d (BitVec.ofNat 64 (if late then s.tlate else s.tearly))

end Sys2Proof.Machine
end

