-- ==== Sys2Proof/Machine/Faults.lean ====
section
/-! DEFINITION. The entry into ERROR, dumps, energy traps, power windows, expiry and background reads
(spec/08_traps_faults_and_dumps.md R156 to R162, spec/26 R378 to R381, R393, spec/16 R258, spec/21 R329). -/

namespace Sys2Proof.Machine

/-! ### The capture buffer (R392, R393) -/

/-- The bytes of a debug record (Table 26-7). -/
def DbgRec.bytes (r : DbgRec) : List Byte :=
  leBytes 1 r.type ++ leBytes 1 r.slot ++ leBytes 2 r.lcore ++ leBytes 4 0 ++ leBytes 8 r.cycle.toNat ++ leBytes 8 r.pc.toNat ++
    leBytes 8 r.value.toNat

/-- A module's buffer is written into its capture region, oldest first, and its completion is reported (R393). An empty
buffer has been written before. -/
def State.writeCapture (s : State) (m : DbgMod) : State :=
  match s.ctxAt m.holder with
  | none => s
  | some x =>
    if m.buf.isEmpty then s
    else
      let s := if x.keyValid then s.land (cellsAt (devKey x.id m.cfg.region) (m.buf.flatMap DbgRec.bytes)) else s
      let s := { s with dbg := updKey (fun (y : DbgMod) => y.clus == m.clus) { m with buf := [], capture := .frozen } s.dbg }
      (s.signalRef (refCores (dieOfClus m.clus)) 0b100000).notify x .capture (leBytes 8 m.clus)

/-! ### The dump (Table 8-4). The encoding of the items within a section is the model's (notes/assumptions/11.md). -/

/-- A word of a dump. -/
def w8 (n : Nat) : List Byte := leBytes 8 n

/-- A list of words, after its length. -/
def w8s (ws : List Word) : List Byte := w8 ws.length ++ ws.flatMap (fun w => w8 w.toNat)

/-- A section begins on a 64-byte boundary. -/
def pad64 (bs : List Byte) : List Byte := bs ++ List.replicate ((64 - bs.length % 64) % 64) 0

/-- A slot state as 0 to 6 (Table 7-2). -/
def Status.code : Status → Nat
  | .vacant => 0
  | .idle => 1
  | .ready => 2
  | .waitMem => 3
  | .waitMsg => 4
  | .paused => 5
  | .stopped => 6

/-- The control registers of Table 6-2 that are held per thread. -/
def threadCsrs : List Nat :=
  [0x001, 0x002, 0x010, 0x011, 0x012, 0x013, 0x014, 0x015, 0x020, 0x021, 0x034, 0x040, 0x041, 0x042, 0x043, 0x050, 0x051, 0x052,
   0x053, 0x054, 0x055, 0x056, 0x057]

/-- A handle register: valid, name, DEP and SHORT. -/
def handleBytes : Option Handle → List Byte
  | none => List.replicate 24 0
  | some h => w8 1 ++ w8 h.name.toNat ++ w8 (h.dep * 2 + (if h.short then 1 else 0))

/-- Section 3 for a thread. -/
def threadBytes (s : State) (c : Slot) : List Byte :=
  w8 c.pc.toNat ++ w8 c.held.code ++ (upTo 23).flatMap (fun i => w8 (c.reg (i + 1)).toNat) ++
    threadCsrs.flatMap (fun i => w8 (csrValue s c i).toNat) ++ (upTo 7).flatMap (fun i => leBytes 16 (c.maskReg (i + 1)).toNat) ++
    (upTo 4).flatMap (fun i => handleBytes ((c.handles[i]?).getD none)) ++
    (upTo c.decl.vregs).flatMap (fun i => leBytes 512 (c.vreg i).toNat)

/-- Some bits as bytes, eight to a byte. -/
def bitBytes (n : Nat) (f : Nat → Bool) : List Byte :=
  (upTo (ceilDiv n 8)).map (fun k => BitVec.ofNat 8 (((upTo 8).map (fun j => if f (8 * k + j) then 2 ^ j else 0)).foldl (fun a b => a + b) 0))

/-- A scratchpad's bytes and its full/empty bits. -/
def scratchBytes (s : State) (k n : Nat) : List Byte := s.readHomeN k n ++ bitBytes (n / 16) (fun g => s.isFull (k + 16 * g))

/-- The queue contents of a slot. -/
def queueBytes (c : Slot) : List Byte :=
  w8s (c.q0push.map (fun e => e.1)) ++ w8s c.q0held.toList ++ w8s c.q0read ++
    c.mbox.flatMap (fun e => w8s e.words.toList ++ e.full.toList.flatMap (fun b => w8 (if b then 1 else 0))) ++
    w8s c.q1read ++ w8s (c.q2send.map (fun e => e.1)) ++ w8s c.q2recv ++ w8 c.q3cmd ++ w8s c.q3read ++ w8 c.q4cmd ++ w8s c.q4read ++
    w8s (c.q5.map (fun t => t.word))

/-- The 64 bytes of a task record (Table 7-3). -/
def taskBytes (t : TaskRec) : List Byte :=
  leBytes 64 (t.origin % 2 ^ 16 * 2 ^ 224 + t.creator % 2 ^ 32 * 2 ^ 192 + t.domain % 8 * 2 ^ 144 + t.ctx % 2 ^ 16 * 2 ^ 128 +
    t.arg.toNat * 2 ^ 64 + t.entry.toNat / 4 * 4)

/-- Section 4 for a logical core. -/
def coreBytes (s : State) (x : Ctx) (core : Nat) : List Byte :=
  let chan := fun (f : Chan → Nat) => (upTo 8).flatMap (fun n =>
    w8 (((s.chans.find? (fun h => h.core == core && h.ch == n && h.ctx == x.id)).map f).getD 0))
  let mine := (x.slots.filter (fun p => coreOf p == core)).map s.slotAt
  let deq := s.deques.find? (fun d => d.core == core && d.ctx == x.id)
  scratchBytes s (keyOf Space.core (shareUnit core x.id) 0) x.res.coreB ++ chan (fun h => h.wm.toNat) ++ chan (fun h => h.pend) ++
    mine.flatMap queueBytes ++ (deq.map (fun d => w8 d.items.length ++ d.items.flatMap taskBytes)).getD (w8 0) ++
    mine.flatMap (fun c => match c.monitor with
      | some m => w8 1 ++ w8 m.block ++ w8 (if m.trig then 1 else 0)
      | none => List.replicate 24 0)

/-- A ring descriptor. -/
def ringBytes (r : Nat × Ring) : List Byte :=
  w8 r.1 ++ w8 r.2.base ++ w8 r.2.size ++ w8 r.2.n ++ w8 r.2.head.toNat ++ w8 r.2.tail.toNat ++ w8 (if r.2.ovf then 1 else 0)

/-- Section 5 for a logical cluster. -/
def clusBytes (s : State) (x : Ctx) (clus : Nat) : List Byte :=
  let pos := (upTo 8).filter (fun p => x.holdsShare clus p)
  scratchBytes s (keyOf Space.clus (shareUnit clus x.id) 0) x.res.clusB ++
    pos.flatMap (fun p => (upTo 8).flatMap (fun t => (upTo 1024).flatMap (fun i => leBytes 4 (s.tileElem clus (8 * p + t) i).toNat))) ++
    ((s.unitAt clus).map (fun u => (u.rings.filter (fun r => pos.contains (r.1 / 2))).flatMap ringBytes)).getD []

/-- The state of a member in an entry image (Table 20-4). -/
def HMember.code (m : HMember) (phase : Nat) : Nat :=
  if phase < m.joined then 2 else if m.leaving then 3 else if m.arrived.isSome then 1 else 0

/-- The 16-byte record of a member or a pending joiner (Table 20-4). -/
def HMember.bytes (m : HMember) (phase : Nat) : List Byte :=
  let i := m.arrived.getD { tag := 0, val := 0 }
  leBytes 4 m.thread ++ leBytes 2 m.ctx ++ leBytes 1 (m.code phase) ++ leBytes 1 i.tag ++ leBytes 8 i.val.toNat

/-- An entry image: the header, then the members in rank order, and the pending joiners last (R325, Table 20-4). -/
def Huddle.bytes (h : Huddle) : List Byte :=
  let ms := h.present ++ rankSort (h.members.filter (fun m => decide (h.phase < m.joined)))
  leBytes 8 h.name.toNat ++ leBytes 8 h.phase ++ leBytes 2 h.charged ++ leBytes 2 ms.length ++ leBytes 2 h.dep ++
    List.replicate 10 0 ++ ms.flatMap (fun m => m.bytes h.phase)

/-- The directory entries that a context created or belongs to, on the chip or in its family's save area (R325). -/
def State.entriesOf (s : State) (x : Ctx) : List Huddle :=
  (((s.savedOf x.root).map (fun v => v.huddles)).getD s.huddles).filter (fun h =>
    h.root == x.root && (h.charged == x.id || h.members.any (fun m => m.ctx == x.id)))

/-- Section 7. -/
def trailerBytes (e : ErrorState) : List Byte :=
  pad64 ([0x47#8, 0x58#8, 0x44#8, 0x54#8] ++ leBytes 4 0 ++ w8 e.further) ++ pad64 (e.first.getD (List.replicate 64 0))

/-- The dump of a context, with the record's final flags (Table 8-4). -/
def dumpBytes (s : State) (x : Ctx) (e : ErrorState) : List Byte :=
  let s := match s.savedOf x.root with
    | some v => s.withSaved v
    | none => s
  let threads := pad64 (x.slots.flatMap (fun p => threadBytes s (s.slotAt p)))
  let cores := pad64 (x.cores.flatMap (coreBytes s x))
  let clusters := pad64 (x.clusters.flatMap (clusBytes s x))
  let huddles := pad64 (e.frozen.flatMap Huddle.bytes)
  let len := 64 + 64 + threads.length + cores.length + clusters.length + huddles.length + 128
  let summary := w8 x.id ++ leBytes 16 x.serial.toNat ++ w8 e.stopAt.toNat ++ w8 x.slots.length ++ w8 x.cores.length ++
    w8 x.clusters.length ++ w8 len
  e.record ++ summary ++ threads ++ cores ++ clusters ++ huddles ++ trailerBytes e

/-! ### The stop cycle and the dump (R157 to R162) -/

/-- What follows once the dump is written or dropped: a context in ERROR has its capture buffers written and is reclaimed,
and its parent is told; a context that is reset goes on (R157, R162, R358). -/
def State.afterDump (s : State) (id : Nat) : State :=
  match s.ctxAt id with
  | none => s
  | some x => match x.err with
    | none => s
    | some e =>
      if resetKind e.kind then s.resetCtx x
      else
        let s := (s.dbg.filter (fun m => m.holder == id)).foldl (fun (s : State) m => s.writeCapture m) s
        let s := s.reclaim x
        if x.parent.isSome then s.tellParent x e.record else s

/-- The cycle of a fault, from its record. -/
def ErrorState.cycle (e : ErrorState) : Nat := leNat ((e.record.drop 8).take 8)

/-- The latest stop cycle of a fault (R157, step 1). -/
def ErrorState.latest (e : ErrorState) : Nat := e.cycle + 1024

/-- The context's stop cycle may be chosen now: a cycle after the fault's, and for a reset not while a stop of the family that came
first is under way (R157, R361). -/
def Ctx.stopDue (x : Ctx) (now : Word) : Option ErrorState :=
  match x.err with
  | none => none
  | some e =>
    if e.stopped || decide (now.toNat ≤ e.cycle) || (resetKind e.kind && !x.stop.running) then none
    else some e

/-- The fault enters its die's queue before another (R160). -/
def enqueuedBefore (a b : ErrorState × Nat) : Bool :=
  a.1.die == b.1.die && (decide (a.1.cycle < b.1.cycle) || (a.1.cycle == b.1.cycle && decide (a.2 < b.2)))

/-- ERROR_STOP_CYCLE: in a cycle after the fault's the context issues no more, its engine work is cancelled, its record is
written and sent, and its dump is queued or dropped (R157, steps 1 to 4; R160). Faults enter a die's queue by cycle and
context. The charges of its huddles pass on (R310). -/
def execErrorStopCycle (ctx : Nat) (s : State) : Out :=
  match (s.ctxAt ctx).bind (fun x => (x.stopDue s.cycle).map (fun e => (x, e))) with
  | none => notNow "ERROR_STOP_CYCLE"
  | some (x, e) =>
    if s.ctxs.any (fun y => match y.stopDue s.cycle with
        | some f => enqueuedBefore (f, y.id) (e, ctx)
        | none => false) then notNow "ERROR_STOP_CYCLE"
    else
      let frozen := s.entriesOf x
      let s := (s.haltCtx x !x.keyValid).passCharges ctx
      let dropped := !x.keyValid || decide (16 ≤ s.dumpsWaiting e.die)
      let r := recordFlag e.record (if !x.keyValid then 0x10 else if dropped then 4 else 0)
      match s.ctxAt ctx with
      | none => .next s
      | some x =>
        let s := s.setCtx { x with err := some { e with
          record := r, stopped := true, stopAt := BitVec.ofNat 64 (min s.cycle.toNat e.latest), dumped := if dropped then 2 else 1,
          frozen := frozen } }
        let s := ((s.writeRecord x r).notify x .fault r).signalRef (refCores e.die) 0b000010
        .next (if dropped then s.afterDump ctx
               else { s with dumps := s.dumps ++ [({ die := e.die, ctx := ctx, started := false } : Dump)] })

/-- The dump that a die writes next: the first in its queue (R160). -/
def State.nextDump (s : State) (die : Nat) : Option Dump :=
  if s.dumps.any (fun d => d.die == die && d.started) then none else s.dumps.find? (fun d => d.die == die)

/-- DUMP_START (R160). -/
def execDumpStart (die : Nat) (s : State) : Out :=
  match s.nextDump die with
  | none => notNow "DUMP_START"
  | some d => .next { s with dumps := s.dumps.map (fun e => if e.die == die && e.ctx == d.ctx then { e with started := true } else e) }

/-- DUMP_WRITE_DONE: the dump stands in the dump area, through the context's own encryption, and the context is reclaimed, or
goes on with its reset (R157, step 5; R159 to R162). A key revoked meanwhile drops it. -/
def execDumpWriteDone (die : Nat) (s : State) : Out :=
  match s.dumps.find? (fun d => d.die == die && d.started) with
  | none => notNow "DUMP_WRITE_DONE"
  | some d =>
    let s' := { s with dumps := s.dumps.filter (fun e => !(e.die == die && e.ctx == d.ctx)) }
    match s.ctxAt d.ctx with
    | none => .next s'
    | some x => match x.err with
      | none => .next s'
      | some e =>
        let flags := (if x.keyValid then 2 else 0x10) + (if 0 < e.further then 0x20 else 0)
        let e := { e with record := recordFlag e.record flags, dumped := 2 }
        let s := s'.setCtx { x with err := some e }
        let s := if x.keyValid then
            { s with mem := putBytes s.mem (keyOf Space.dev x.id x.layout.dumpOff) ((dumpBytes s x e).take (x.layout.spillOff - x.layout.dumpOff)) }
          else s
        .next (s.afterDump d.ctx)

/-! ### Energy (R156) -/

/-- The meter's count at which ENERGY is raised, in pJ. -/
def Ctx.allowance (x : Ctx) : Nat := x.res.energy * 1000000

/-- ENERGY_ALLOWANCE_REACHED: every thread of the context that is in a slot is to take ENERGY once, at its next issue turn
(R156). -/
def execEnergyAllowanceReached (ctx : Nat) (s : State) : Out :=
  match s.ctxAt ctx with
  | none => notNow "ENERGY_ALLOWANCE_REACHED"
  | some x =>
    if x.allowance ≤ x.meter ∧ !x.raised then
      let s := s.mapSlots (fun c => ownedBy ctx c && c.status != .vacant && c.status != .idle &&
        !(c.status == .stopped && (c.held == .vacant || c.held == .idle))) (fun c => { c with energyDue := true })
      .next (s.setCtx { x with raised := true })
    else notNow "ENERGY_ALLOWANCE_REACHED"

/-- The meter has passed the allowance by a further 1/64 of it (R156). -/
def Ctx.overrun (x : Ctx) : Bool := decide (65 * x.allowance < 64 * x.meter)

/-- ENERGY_OVERRUN: the thread that issues next faults fatally (R154, R156). -/
def execEnergyOverrun (slot : Nat) (s : State) : Out :=
  let c := s.slotAt slot
  match s.ctxOf c with
  | none => notNow "ENERGY_OVERRUN"
  | some x =>
    if x.overrun && c.status == .ready && c.busy == 0 && x.err.all (fun e => !e.stopped) then
      .next (fatalTrap s c .energy (csrValue s c 0x033) (BitVec.ofNat 32 (leNat (s.readHomeN (devKey x.id c.pc) 4))) 0)
    else notNow "ENERGY_OVERRUN"

/-! ### Power (R380, R381) -/

/-- A context's level after its own draw of a window, in pJ, with the module's draw in mW (Table 26-2, first two rows). -/
def ownLevel (x : Ctx) (draw modulemW : Nat) : Nat :=
  let l := if 5 * 2 ^ 20 * x.res.power < 3 * draw then min 7 (x.throttle + 1) else x.throttle
  if 8 * 3 * draw < 7 * 5 * 2 ^ 20 * x.res.power ∧ modulemW < 8740000 then l - 1 else l

/-- Raise the level of a class. -/
def raiseLevel (cls : Nat) (x : Ctx) : Ctx := if x.res.cls == cls then { x with throttle := min 7 (x.throttle + 1) } else x

/-- POWER_WINDOW_END: the throttle levels change at the end of a window of 2^20 cycles, the rows in order (Table 26-2). The
module's draw comes from its power monitors. -/
def execPowerWindowEnd (modulemW : Nat) (s : State) : Out :=
  if s.cycle.toNat % 2 ^ 20 ≠ 0 ∨ s.cycle = s.powerAt then notNow "POWER_WINDOW_END"
  else
    let xs := s.ctxs.map (fun (x : Ctx) => { x with throttle := ownLevel x (x.meter - x.windowAt) modulemW, windowAt := x.meter })
    let hot := decide (9200000 < modulemW)
    let xs := if hot && xs.any (fun x => x.res.cls == 2 && decide (x.throttle < 7)) then xs.map (raiseLevel 2) else xs
    let xs := if hot && xs.all (fun x => x.res.cls != 2 || x.throttle == 7) then xs.map (raiseLevel 1) else xs
    .next { s with ctxs := xs, powerAt := s.cycle }

/-! ### Expiry (R329) -/

/-- The descendants of a context and the context itself, each after its own descendants. -/
def State.withKin : Nat → State → Nat → List Nat
  | 0, _, id => [id]
  | n + 1, s, id => (s.ctxs.filter (fun y => y.parent == some id)).flatMap (fun y => State.withKin n s y.id) ++ [id]

/-- A context expires: the bound node is told, and it ends (R329). -/
def State.expire (s : State) (id : Nat) : State :=
  match s.ctxAt id with
  | none => s
  | some x => (s.notify x .expiry (leBytes 16 x.serial.toNat)).finishEnd x

/-- CONTEXT_EXPIRY: TEARLY exceeds not-after: the context and its split children, delegated or not, end, and the expiry is
reported (R329, R345). -/
def execContextExpiry (ctx : Nat) (s : State) : Out :=
  match s.ctxAt ctx with
  | none => notNow "CONTEXT_EXPIRY"
  | some x =>
    if x.warrant.notAfter.toNat < s.tearly then
      .next ((State.withKin s.ctxs.length s ctx).foldl State.expire (s.signalRef [refCore0] 0b001000))
    else notNow "CONTEXT_EXPIRY"

/-! ### Uncorrectable errors (R3, R258) -/

/-- An error of the state that a read of a stack meets, and the context that owns the data (R258). -/
def State.scrubFinds (s : State) (die stack : Nat) : Option (MemErr × Ctx) :=
  s.errs.findSome? (fun e =>
    if keySpace e.lo == Space.dev && bits e.place 47 40 == die && bits e.place 39 32 == stack then
      (s.ctxAt (keyUnit e.lo)).map (fun x => (e, x))
    else none)

/-- A read of a stack may find bits that the code corrects, in the pages of a context of the die: the spec states neither, so a draw
decides (event 0xC6; R258, R387; notes/assumptions/7.md). -/
def State.scrubCount (s : State) (die : Nat) : State :=
  let (w, t) := s.draw
  let xs := s.ctxs.filter (fun x => x.layout.dies.contains die)
  match xs[w.toNat / 2 % max 1 xs.length]? with
  | some x => t.count x.id 0 0xC6 (w.toNat % 2)
  | none => t

/-- BACKGROUND_SCRUB_READ: a read that finds no uncorrectable error may correct one, which a context's counter tells. `bad` is an error that no
check can correct: the context that owns the data, 0 for none, and the channel and row as the record's location holds them;
with none, it may still meet an error that the state holds, whose address is known. The owner takes UNCORR at once; a page
that no context owns is retired (R258, R3, R154). -/
def execBackgroundScrubRead (die stack : Nat) (bad : Option (Nat × Nat)) (s : State) : Out :=
  if 24 ≤ die ∨ 2 ≤ stack then notNow "BACKGROUND_SCRUB_READ"
  else match bad with
    | none => match s.scrubFinds die stack with
      | none => .next (s.scrubCount die)
      | some (e, x) =>
        .next (State.uncorrCtx { s with errs := s.errs.filter (fun f => f != e) } x
          (BitVec.ofNat 64 (0x1000000000000 + keyOff e.lo)) e)
    | some (0, loc) => .next { s with retired := s.retired ++ [(die, stack, loc)] }
    | some (id, loc) => match s.ctxAt id with
      | none => notNow "BACKGROUND_SCRUB_READ"
      | some x =>
        if x.layout.dies.contains die then
          .next (s.uncorrCtx x 0 { lo := 0, len := 0, place := BitVec.ofNat 64 (die * 2 ^ 40 + stack * 2 ^ 32 + loc % 2 ^ 32) })
        else notNow "BACKGROUND_SCRUB_READ"

end Sys2Proof.Machine
end

