-- ==== Sys2Proof/Machine/Debug.lean ====
section
/-! DEFINITION. The debug modules' own events: trace words, samples, frozen buffers, cross-triggers and the resume
(spec/26_energy_time_counters_and_capture.md R390 to R395), and the classes of a turn. -/

namespace Sys2Proof.Machine

/-- The classes of a turn (Table 7-2). -/
inductive TurnClass where
  | issued | notReadyMem | notReadyMsg | vacant
deriving DecidableEq, Repr

/-- The slot event of a class (Table 26-5). -/
def TurnClass.event : TurnClass → Nat
  | .issued => 0
  | .notReadyMem => 1
  | .notReadyMsg => 2
  | .vacant => 3

/-- The class of a turn that does not issue, by the slot's state. -/
def Status.turnClass : Status → TurnClass
  | .waitMem => .notReadyMem
  | .waitMsg => .notReadyMsg
  | .ready => .issued
  | _ => .vacant

/-- The slots that a trigger's halt scope halts at once: those of its cluster, where the holder's work at the engines freezes with
them; the others follow when the trigger arrives there (R394). -/
def haltCluster (s : State) (holder clus : Nat) : State :=
  let t := s.mapSlots (fun c => c.owner == some holder && clusOf c.phys == clus) (fun c => { c.freeze with dbgHalt := true })
  { t with ctxs := t.ctxs.map (fun (x : Ctx) => if x.id == holder then { x with halted := true, dbgClus := clus :: x.dbgClus } else x) }

/-- TRACE_WORD_MOVE: a core moves one word a cycle from its slots' q5 sides into the buffer, with the cycle and the pc of
its push (R392). A word of a context that no longer holds the module is dropped. -/
def execTraceWordMove (slot : Nat) (s : State) : Out :=
  let c := s.slotAt slot
  match c.q5 with
  | [] => notNow "TRACE_WORD_MOVE"
  | w :: ws =>
    let t := s.setSlot { c with q5 := ws }
    match s.dbg.find? (fun m => m.clus == clusOf slot && c.owner == some m.holder) with
    | none => .next t
    | some m =>
      if m.pend.any (fun r => r.type == 1 && r.lcore == c.lcore) then notNow "TRACE_WORD_MOVE"
      else
        let r : DbgRec := { type := 1, slot := slotNo slot, lcore := c.lcore, cycle := w.cycle, pc := w.pc, value := w.word }
        .next { t with dbg := updKey (fun (x : DbgMod) => x.clus == m.clus) { m with pend := m.pend ++ [r] } s.dbg }

/-- A sample record of a slot: the class of its turn in the rotation that has ended (R392; notes/assumptions/32.md). -/
def sampleRec (cycle : Word) (c : Slot) : DbgRec :=
  { type := 4, slot := slotNo c.phys, lcore := c.lcore, cycle := cycle,
    pc := if c.status == .idle || c.status == .vacant then 0 else c.pc, value := BitVec.ofNat 64 c.cls }

/-- DEBUG_SAMPLE: at each multiple of the sample period, a record for each slot of the holder in the cluster (R392). -/
def execDebugSample (clus : Nat) (s : State) : Out :=
  match s.dbg.find? (fun m => m.clus == clus) with
  | none => notNow "DEBUG_SAMPLE"
  | some m =>
    let mine := s.allSlots.filter (fun c => c.owner == some m.holder && clusOf c.phys == clus)
    if m.cfg.period = 0 ∨ s.cycle.toNat % m.cfg.period ≠ 0 ∨ mine.isEmpty ∨ m.pend.any (fun r => r.type == 4) then notNow "DEBUG_SAMPLE"
    else .next { s with dbg := updKey (fun (x : DbgMod) => x.clus == clus) { m with pend := m.pend ++ mine.map (sampleRec s.cycle) } s.dbg }

/-- CAPTURE_FREEZE: a frozen buffer is written out, and the port hears of it (R393). -/
def execCaptureFreeze (clus : Nat) (s : State) : Out :=
  match s.dbg.find? (fun m => m.clus == clus) with
  | none => notNow "CAPTURE_FREEZE"
  | some m => if m.capture = .frozen ∧ !m.buf.isEmpty then .next (s.writeCapture m) else notNow "CAPTURE_FREEZE"

/-- CROSS_TRIGGER_ARRIVAL: a trigger of another cluster of the holder arrives: condition 7 there, and, within its halt scope,
the halt of the holder's slots (R394, Table 26-6). -/
def execCrossTriggerArrival (clus : Nat) (s : State) : Out :=
  match s.cross.find? (fun e => e.2.1 == clus) with
  | none => notNow "CROSS_TRIGGER_ARRIVAL"
  | some (holder, k, halts) =>
    let t := { s with cross := dropFirst (fun e => e.2.1 == clus) s.cross }
    let r : DbgRec := { type := 9, slot := 0, lcore := 0, cycle := s.cycle, pc := 0, value := 0 }
    let t := { t with dbg := t.dbg.map (fun (m : DbgMod) => if m.clus == k && m.holder == holder then { m with pend := m.pend ++ [r] } else m) }
    .next (if halts then haltCluster t holder k else t)

/-- A halted slot returns: to what it was, unless a stop or a fault keeps it (R394, R395). -/
def Slot.unhalt (c : Slot) (free : Bool) : Slot :=
  if c.dbgHalt then { c with dbgHalt := false, status := if free then c.held else c.status } else c

/-- DEBUG_RESUME_CYCLE: every halted slot of the holder returns in the agreed cycle (R394). -/
def execDebugResumeCycle (ctx : Nat) (s : State) : Out :=
  match s.ctxAt ctx, s.dbgResume.find? (fun e => e.1 == ctx && decide (e.2 ≤ s.cycle)) with
  | some x, some e =>
    let free := x.stop.running && x.err.isNone
    let t := (s.atFamily x.root (fun s => s.mapSlots (ownedBy ctx) (fun c => c.unhalt free))).setCtx { x with halted := false, dbgClus := [] }
    .next { t with dbgResume := dropFirst (fun d => d == e) s.dbgResume }
  | _, _ => notNow "DEBUG_RESUME_CYCLE"

/-- The cycle that a condition waits for (Table 26-6, code 5). -/
def condCycle : DbgCond → Option Word
  | .cycleIs v => some v
  | _ => none

/-- CAPTURE_CYCLE_MATCH: CYCLE reaches a value of condition code 5 (R393). -/
def execCaptureCycleMatch (clus : Nat) (s : State) : Out :=
  match s.dbg.find? (fun m => m.clus == clus) with
  | none => notNow "CAPTURE_CYCLE_MATCH"
  | some m =>
    if !m.hit && [m.cfg.start, m.cfg.stop, m.cfg.trigger].any (fun c => condCycle c == some s.cycle) then
      .next { s with dbg := updKey (fun (x : DbgMod) => x.clus == clus) { m with hit := true } s.dbg }
    else notNow "CAPTURE_CYCLE_MATCH"

end Sys2Proof.Machine
end

