-- ==== Sys2Proof/Machine/Warrants.lean ====
section
/-! DEFINITION. The warrant instructions, major 0x16, and the umpire's handling of them
(spec/21_warrants_and_contexts.md R335 to R345). -/

namespace Sys2Proof.Machine

/-! ### Memory checks (R207, R336) -/

/-- The first byte of some that an access may not reach, looked for at every multiple of `step`, which divides every
bound of a region there. -/
def firstRefused (s : State) (c : Slot) (acc : Acc) (step : Nat) : Nat → Nat → Nat → Option Refused
  | 0, _, _ => none
  | k + 1, a, e =>
    if e ≤ a then none
    else match resolve s c (BitVec.ofNat 64 a) 1 acc with
      | .error r => some r
      | .ok _ => firstRefused s c acc step k ((a / step + 1) * step) e

/-- The location of n bytes from an address, all of which the access may reach, or the trap (R207). -/
def checkExtent (s : State) (c : Slot) (va : Word) (n align : Nat) (acc : Acc) : Except Refused Nat :=
  match resolve s c va align acc with
  | .error r => .error r
  | .ok k =>
    let step := if va.toNat < 2 ^ 48 then 16 else 65536
    match firstRefused s c acc step (n / step + 2) va.toNat (va.toNat + n) with
    | some r => .error r
    | none => .ok k

/-! ### Issue (R336, steps 1 to 4) -/

/-- The thread makes its full fence at .dev and waits for the umpire with the source values that it read (R336, steps 3
and 4). -/
def askUmpire (s : State) (c : Slot) (op : WarOp) (d : Reg5) (a b : Word) : Out :=
  let r := released s c .dev
  waitOn r.1 r.2 (.warrant op d a b none)

/-- The context that a live handle of the thread's context names. -/
def State.targetOf (s : State) (c : Slot) (h : Word) : Option Ctx :=
  match s.ctxOf c with
  | none => none
  | some x => (x.lookHandle h).bind s.ctxAt

/-- HANDLE for a value that is not a live handle of the thread's context (R335). -/
def withTarget (s : State) (c : Slot) (h : Word) (k : Unit → Out) : Out :=
  match s.targetOf c h with
  | none => trap s c .handle h
  | some _ => k ()

/-- A presentation block (R338): kind, image, object, its bytes, and whether the kind is known and the rest zero. -/
structure PresBlock where
  kind  : Word
  image : Word
  obj   : Word
  bytes : Word
  good  : Bool

/-- The presentation block of some bytes. -/
def presBlock (bs : List Byte) : PresBlock :=
  let w := fun (i : Nat) => leWord ((bs.drop (8 * i)).take 8)
  { kind := w 0, image := w 1, obj := w 2, bytes := w 3, good := decide ((w 0).toNat ≤ 1) && (bs.drop 32).all (fun b => b == 0) }

/-- The bytes of the image that a block names. -/
def PresBlock.size (p : PresBlock) : Nat := if p.kind = 0 then imageSize else 128

/-- The checks of what a block names: the image, aligned to 128, and the code object (R338). -/
def presCheck (s : State) (c : Slot) (p : PresBlock) : Except Refused (Nat × Nat) :=
  match checkExtent s c p.image p.size 128 .vload with
  | .error r => .error r
  | .ok k =>
    if p.kind ≠ 0 ∨ p.bytes = 0 then .ok (k, 0)
    else match checkExtent s c p.obj p.bytes.toNat 1 .vload with
      | .error r => .error r
      | .ok o => .ok (k, o)

/-- WPRES (R338). -/
def execWpres (d a : Reg5) (s : State) : Out :=
  withSrc1 s a (fun x c =>
    withDest s c d (fun _ =>
      match checkExtent s c x 64 64 .vload with
      | .error (cause, tval) => trap s c cause tval
      | .ok k => withRead s c x k 64 (fun s =>
        let p := presBlock (s.readCoreN (coreOf c.phys) k 64)
        if !p.good then askUmpire s c .wpres d x 0
        else match presCheck s c p with
          | .error (cause, tval) => trap s c cause tval
          | .ok _ => askUmpire s c .wpres d x 0)))

/-- WSPLIT (R339). -/
def execWsplit (d a b : Reg5) (s : State) : Out :=
  withSrc2 s a b (fun h r c =>
    withDest s c d (fun _ =>
      match checkExtent s c r 64 64 .vload with
      | .error (cause, tval) => trap s c cause tval
      | .ok _ => withTarget s c h (fun _ => askUmpire s c .wsplit d h r)))

/-- The checks of a delegation area: 64 bytes that are read and 128 that are written (R340). -/
def delegCheck (s : State) (c : Slot) (b : Word) : Except Refused (Nat × Nat) :=
  match checkExtent s c b 64 64 .vload with
  | .error r => .error r
  | .ok k => match checkExtent s c (b + 0x40) 128 64 .vstore with
    | .error r => .error r
    | .ok w => .ok (k, w)

/-- WDELEG (R340). -/
def execWdeleg (d a b : Reg5) (s : State) : Out :=
  withSrc2 s a b (fun h r c =>
    withDest s c d (fun _ =>
      match delegCheck s c r with
      | .error (cause, tval) => trap s c cause tval
      | .ok _ => withTarget s c h (fun _ => askUmpire s c .wdeleg d h r)))

/-- WSURR (R341). -/
def execWsurr (d a : Reg5) (s : State) : Out :=
  withSrc1 s a (fun h c => withDest s c d (fun _ => withTarget s c h (fun _ => askUmpire s c .wsurr d h 0)))

/-- WRESET (R342). -/
def execWreset (d a : Reg5) (s : State) : Out :=
  withSrc1 s a (fun h c => withDest s c d (fun _ => withTarget s c h (fun _ => askUmpire s c .wreset d h 0)))

/-- WQRY (R343): an item above 15 takes WARRANT. -/
def execWqry (d a b : Reg5) (s : State) : Out :=
  withSrc2 s a b (fun h i c =>
    withDest s c d (fun _ =>
      withTarget s c h (fun _ => if 15 < i.toNat then trap s c .warrant i else askUmpire s c .wqry d h i)))

/-! ### WQRY's items (R343, Table 21-8) -/

/-- STATE of Table 21-8. -/
def CtxState.code : CtxState → Nat
  | .run => 0
  | .saved => 1
  | .error => 2
  | .unlocked => 3
  | .locked => 4

/-- The state word (Table 21-8). -/
def Ctx.stateWord (x : Ctx) : Word :=
  BitVec.ofNat 64 (x.state.code * 2 ^ 48 + (if x.delegate.isSome then 2 ^ 47 else 0) + (if x.warrant.sealed then 2 ^ 46 else 0) +
    (if x.sub then 2 ^ 45 else 0) + x.res.cls % 4 * 2 ^ 43 + x.id % 2 ^ 16 * 2 ^ 16 + x.kids % 2 ^ 16)

/-- Item k of a context (R343): the record as granted, the serial, ENERGY and not-after. -/
def Ctx.item (x : Ctx) (k : Nat) : Word :=
  let r := x.warrant.res
  match k with
  | 0 => x.stateWord
  | 1 => BitVec.ofNat 64 r.cls
  | 2 => BitVec.ofNat 64 r.threads
  | 3 => BitVec.ofNat 64 r.coreB
  | 4 => BitVec.ofNat 64 r.clusB
  | 5 => BitVec.ofNat 64 r.devB
  | 6 => BitVec.ofNat 64 r.weight
  | 7 => BitVec.ofNat 64 r.huddles
  | 8 => BitVec.ofNat 64 r.queues
  | 9 => BitVec.ofNat 64 r.energy
  | 10 => BitVec.ofNat 64 r.power
  | 11 => BitVec.ofNat 64 r.latency
  | 12 => x.serial.setWidth 64
  | 13 => (x.serial >>> 64).setWidth 64
  | 14 => BitVec.ofNat 64 x.energyUsed
  | _ => x.warrant.notAfter

/-! ### WSPLIT (R339) -/

/-- The contexts that hold some of a context's grant: its children, and the redeemed descendants whose parents between have
ended (R341, R345). -/
def State.takers (s : State) (p : Ctx) : List Ctx := s.ctxs.filter (fun y => p.lent.any (fun r => r.1 == y.id))

/-- The banks of a core that the takers of a context hold. -/
def State.kidCoreBanks (s : State) (p : Ctx) (core : Nat) : Nat :=
  sumOver ((s.takers p).filter (fun y => y.cores.contains core)) (fun y => coreBanks y.warrant.res.coreB)

/-- The banks of a cluster that the takers of a context hold. -/
def State.kidClusBanks (s : State) (p : Ctx) (clus : Nat) : Nat :=
  sumOver ((s.takers p).filter (fun y => y.clusters.contains clus)) (fun y => clusBanks y.warrant.res.clusB)

/-- A child's units: its slots, the parent's slots that stay, its cores, clusters and shares (R339). -/
structure Take where
  slots    : List Nat
  stay     : List Nat
  cores    : List Nat
  clusters : List Nat
  shares   : List Nat

/-- What a child of r.threads takes from its parent. -/
def Ctx.takes (p : Ctx) (r : Resources) : Take :=
  let n := p.slots.length - r.threads
  let slots := p.slots.drop n
  let stay := p.slots.take n
  let cores := sortNats (slots.map coreOf)
  { slots := slots, stay := stay, cores := cores, clusters := sortNats (cores.map (fun k => k / 8)),
    shares := if r.weight = 0 ∧ !p.warrant.sealed then []
      else p.shares.filter (fun k => cores.contains k && !stay.any (fun q => coreOf q == k)) }

/-- The layout of a child's grant, with its copy of the code object (R339, R159). -/
def childLayout (p : Ctx) (r : Resources) (t : Take) : Option (Layout × Gxo) :=
  match gxoParse 13824 p.object with
  | .error _ => none
  | .ok g => (layoutOf g (grantBytes r.devB) (diesOf t.slots)
      (saveBytes r.threads t.cores.length t.clusters.length t.shares.length r.coreB r.clusB r.huddles) t.cores.length).map (fun l => (l, g))

/-- The first resource, by its code in Table 21-5, that the parent cannot cover (R339). -/
def State.uncovered (s : State) (p : Ctx) (r : Resources) : Option Nat :=
  let t := p.takes r
  let (cb, xb) := p.bankBytes
  let z := coreBanks p.maxCoresp
  let y := clusBanks p.maxClussp
  let nc := coreBanks r.coreB
  let nx := clusBanks r.clusB
  if p.slots.length ≤ r.threads then some 1
  else if nc ≠ 0 ∧ t.cores.any (fun k => decide (coreBanks cb < s.kidCoreBanks p k + nc + z)) then some 2
  else if nx ≠ 0 ∧ t.clusters.any (fun k => decide (clusBanks xb < s.kidClusBanks p k + nx + y)) then some 3
  else if pageBytes p.freePages < grantBytes r.devB ∨ (childLayout p r t).isNone then some 4
  else if p.res.weight < r.weight then some 5
  else if p.res.huddles < r.huddles then some 6
  else if p.res.queues ≤ r.queues then some 7
  else if p.res.power < r.power then some 9
  else if p.warrant.sealed ∧ (diesOf t.slots).any (fun d => (freePair (pairsOf s.ctxs) d).isNone) then some 10
  else if s.freeKey.isNone then some 11
  else if p.res.energy - p.energyUsed < r.energy then some 14
  else none

/-- The quantities that a child takes are subtracted (R339). -/
def Resources.lessChild (p c : Resources) : Resources :=
  { p with threads := p.threads - c.threads, huddles := p.huddles - c.huddles, queues := p.queues - c.queues,
           energy := p.energy - c.energy, power := p.power - c.power }

/-- The serial of child j (R335). -/
def childSerial (parent : BitVec 128) (j : Nat) : BitVec 128 := (digest (leBytes 16 parent.toNat ++ leBytes 4 j)).setWidth 128

/-- The pages that a child takes leave the parent: they read zero for no one but the child (R339, R254). -/
def State.lendPages (s : State) (p : Ctx) (rs : List (Nat × Nat)) : State :=
  let lent := fun (k : Nat) => keySpace k == Space.dev && keyUnit k == p.id &&
    rs.any (fun r => decide (r.1 ≤ keyOff k) && decide (keyOff k < r.2))
  { s with mem := s.mem.filter (fun (c : Host.Cell) => !lent c.1), tlb := s.tlb.filter (fun e => e.2.1 != p.id),
           walks := s.walks.filter (fun e => e.2.1 != p.id), errs := s.errs.filter (fun e => !lent e.lo) }

/-- The records of a context's partitions that its slots leave no room for pass to the end of the spill pages, the oldest
first (R127; notes/assumptions/65.md). -/
def State.fitDeques (s : State) (p : Ctx) : State :=
  { s with deques := s.deques.map (fun (d : Deque) =>
      if d.ctx == p.id then
        { d with items := d.items.take (p.dequeCap d.core), spill := d.spill ++ (d.items.drop (p.dequeCap d.core)).reverse }
      else d) }

/-- The child is built from the parent (R339): the new state and its CTX.ID. It takes the highest whole pages of the parent's
free memory, and as a sealed context a pair of channels of its own on each of its dies (R28, R400). -/
def State.splitOff (s : State) (p : Ctx) (r : Resources) (ks : Nat) (lay : Layout) (g : Gxo) (who : Nat × Nat) : State × Nat :=
  let t := p.takes r
  let (id, s) := s.newId
  let j := p.born + 1
  let serial := childSerial p.serial j
  let key := shake256 (p.key ++ leBytes 16 serial.toNat) 32
  let base := textLink + lay.textOff
  let w := { p.warrant with res := r }
  let kernels := (upTo g.kernels).map (g.kernel (BitVec.ofNat 64 base))
  let x := { Ctx.built id p.node w p.object lay kernels key s.cycle with
    root := p.root, parent := some p.id, parentSerial := p.serial, state := .run, serial := serial, holder := p.holder, sub := true,
    splitter := who, slots := t.slots, cores := t.cores, clusters := t.clusters, shares := t.shares,
    pairs := if p.warrant.sealed then (diesOf t.slots).filterMap (freePair (pairsOf s.ctxs)) else [] }
  let ranges := takePages lay.g p.freePages
  let p := { p with
    slots := t.stay, shares := p.shares.filter (fun k => !t.shares.contains k), res := p.res.lessChild r, kids := p.kids + 1, born := j,
    lent := p.lent ++ ranges.map (fun e => (id, e.1, e.2)) }
  let s := (((s.lendPages p ranges).setCtx p).fitDeques p).setCtx x
  let s := s.installKey ks id (some key)
  let s := s.allot x .vacant
  let s := match g.load base with
    | .ok o => s.putCode id lay o
    | .error _ => s
  (s, id)

/-- WSPLIT as the umpire handles it: d's word (R339). -/
def wsplitDo (s : State) (c : Slot) (p : Ctx) (rec : List Byte) : State :=
  let a := rec.toArray
  let r := resourcesAt a 0
  let take := (p.takes r).slots
  let deny := fun (st res : Nat) => s.setResult c.phys (refusal st res)
  if p.state != .run then deny 0x10 0
  else if !p.warrant.splitOk then deny 0x0D 0
  else if !arrZero a 0x30 16 || !r.ok || r.cls != p.res.cls || decide (r.latency < p.warrant.res.latency) then deny 0x01 0
  else if r.threads < p.slots.length ∧ take.any (fun q => (s.slotAt q).status != .vacant) then deny 0x10 0
  else match s.uncovered p r, s.freeKey, childLayout p r (p.takes r), s.ctxOf c with
    | none, some ks, some (lay, g), some i =>
      let (t, id) := s.splitOff p r ks lay g (i.id, c.phys)
      match (t.ctxAt i.id).bind (fun y => y.giveHandle id) with
      | some (h, y) => (t.setCtx y).setResult c.phys h
      | none => deny 0x11 0
    | some k, _, _, _ => deny 0x0A k
    | _, _, _, _ => deny 0x0A 4

/-! ### The others -/

/-- WPRES as the umpire handles it (R338). -/
def wpresDo (s : State) (c : Slot) (y : Ctx) (a : Word) : Out :=
  let ev := "WARRANT_REQUEST_HANDLED"
  let bad : Out := .next (s.setResult c.phys (refusal 0x01 0))
  match checkExtent s c a 64 64 .vload with
  | .error _ => bad
  | .ok k => umpireReads s y [(k, 64, a)] ev (fun _ =>
    let p := presBlock (s.readHomeN k 64)
    let holder := fun (h : BitVec 256) => h == y.holder
    if !p.good then bad
    else match presCheck s c p with
      | .error _ => bad
      | .ok (ki, ko) =>
        let obj := if p.kind = 0 then p.bytes.toNat else 0
        umpireReads s y [(ki, p.size, p.image), (ko, obj, p.obj)] ev (fun _ =>
          let img := s.readHomeN ki p.size
          if p.kind = 0 then
            match s.examineImage img holder with
            | .error st => .next (s.setResult c.phys (refusal st 0))
            | .ok w =>
              .next (s.addClaim { serial := w.serial, root := w.serial, notBefore := w.notBefore, device := s.ownNode }
                (.thread c.phys w (s.readHomeN ko obj)))
          else match s.checkReceipt img holder with
            | .error st => .next (s.setResult c.phys (refusal st 0))
            | .ok (x, who) => .next (s.addClaim (s.claimMsg x x.serial) (.redeemThread c.phys x.id who x.warrant.domain))))

/-- WDELEG as the umpire handles it (R340). -/
def wdelegDo (s : State) (c : Slot) (y x : Ctx) (b : Word) : Out :=
  let ev := "WARRANT_REQUEST_HANDLED"
  let deny := fun (st : Nat) => (.next (s.setResult c.phys (refusal st 0)) : Out)
  if !x.sub then deny 0x10
  else if !x.warrant.delegOk then deny 0x0E
  else if x.state != .run || x.delegate.isSome then deny 0x10
  else match delegCheck s c b with
    | .error _ => deny 0x01
    | .ok (k, w) => umpireReads s y [(k, 64, b)] ev (fun _ =>
      let area := s.readHomeN k 64
      if !(area.drop 32).all (fun e => e == 0) then deny 0x01
      else if (spanPoints w 128).any s.bankWaking then notNow ev
      else withPages s (spanPoints w 128) ev (fun _ =>
        let who := BitVec.ofNat 256 (leNat (area.take 32))
        let receipt := receiptBytes x.parentSerial x.serial who s.ownNode x.warrant.res (s.rootSerial x)
        .next (((s.setCtx { x with delegate := some who }).land (cellsAt w receipt)).setResult c.phys 0)))

/-- WRESET as the umpire handles it (R342): a member of the child whose departure has not come yet departs (R317). -/
def wresetDo (s : State) (c : Slot) (x : Ctx) : State :=
  match x.err with
  | none => s.setResult c.phys (refusal 0x10 0)
  | some e =>
    if !x.sub || x.state != .error || e.dumped != 2 then s.setResult c.phys (refusal 0x10 0)
    else
      let s := match gxoParse 13824 x.object with
        | .ok g => match g.load (textLink + x.layout.textOff) with
          | .ok o => s.putCode x.id x.layout o
          | .error _ => s
        | .error _ => s
      let queues := x.queues.map (fun (q : Queue) =>
        if (x.launch.map (fun l => l.q)) == some q.q then
          (let q := { q with fetched := none }
           { q with state := if q.state = 3 ∨ q.state = 4 then q.state else q.going })
        else q)
      let s := (upTo x.slots.length).foldl (fun (s : State) (t : Nat) => s.departThread x.id t) s
      let s := s.setCtx { x with state := .run, err := none, launch := none, queues := queues, halted := false, dbgClus := [] }
      State.setResult { s with waking := s.waking ++ x.banks } c.phys 0

/-- WARRANT_REQUEST_HANDLED: with the thread's earlier writes at their homes (R336, step 3), the umpire takes up its request
and answers it, one request of a family at a time; none is taken up from a stop's decision on (R337). -/
def execWarrantRequestHandled (slot : Nat) (s : State) : Out :=
  let c := s.slotAt slot
  let root := ((s.ctxOf c).map (fun x => x.root)).getD 0
  match c.wait, s.ctxOf c with
  | some (.warrant op _ a b none), some y =>
    if !fenceClear s slot .dev || c.status == .stopped || s.claimBusy root || y.stop != .none then notNow "WARRANT_REQUEST_HANDLED"
    else if op = .wpres then wpresDo s c y a
    else match s.targetOf c a with
      | none => .next (s.setSlot (c.waitFor (.trapped .handle a)))
      | some x => match op with
        | .wpres => .next s
        | .wsplit => match checkExtent s c b 64 64 .vload with
          | .error _ => .next (s.setResult slot (refusal 0x01 0))
          | .ok k => umpireReads s y [(k, 64, b)] "WARRANT_REQUEST_HANDLED" (fun _ => .next (wsplitDo s c x (s.readHomeN k 64)))
        | .wdeleg => wdelegDo s c y x b
        | .wsurr => .next ((s.endContext x.id).setResult slot 0)
        | .wreset => .next (wresetDo s c x)
        | .wqry => .next (s.setResult slot (x.item b.toNat))
  | _, _ => notNow "WARRANT_REQUEST_HANDLED"

end Sys2Proof.Machine
end

