-- ==== Sys2Proof/Machine/Port.lean ====
section
/-! DEFINITION. Power-on, commissioning, beacons and the commands of the admission port
(spec/27_fabric_host_and_firmware.md R402 to R411, spec/26 R382, R383, R390 to R394, spec/16 R257). -/

namespace Sys2Proof.Machine

/-! ### Power-on, commissioning and time (R409 to R411) -/

/-- The thread of a referee core at the start of its ROM (R406; notes/assumptions/64.md). -/
def refThread (core : Nat) : Slot := { Slot.fresh (8 * core) with status := .ready, pc := Config.romEntry }

/-- POWER_ON: the module starts afresh, and its referee cores start their ROM (R406, R409). What is not the module's stays: host
memory, what is still to come from outside, and the model's own counters. -/
def execPowerOn (s : State) : Out :=
  .next { State.reset with
    slots := ((upTo 24).flatMap refCores).map refThread,
    mem := s.mem.filter (fun (c : Host.Cell) => keySpace c.1 == Space.host), agenda := s.agenda, auto := s.auto, fresh := s.fresh,
    seq := s.seq, nextId := s.nextId, pubs := s.pubs }

/-! ### Command headers (R402, R403, R409) -/

/-- The node whose command waits for a claim's answer. -/
def ClaimFor.sender : ClaimFor → Option Nat
  | .port h .. => some h.node
  | .redeemPort h .. => some h.node
  | .thread .. | .redeemThread .. => none

/-- A command of the node is being handled: its later ones wait (R402). -/
def State.nodeBusy (s : State) (node : Nat) : Bool := s.claims.any (fun c => c.who.sender == some node)

/-- The codes of Table 27-2. -/
def listedCode (code : Nat) : Bool := decide (1 ≤ code) && decide (code ≤ 0x13)

/-- A header of R402, with the length of its payload where that is known. -/
def hdrOk (h : PortHdr) (len : Option Nat) : Bool :=
  h.magic == [0x47#8, 0x58#8, 0x50#8, 0x43#8] && h.zeros.all (fun b => b == 0) && len.all (fun n => h.len == n)

/-- A command: its node's commands are handled in order (R402); until a record is accepted every code but those of IDENT and
COMMISSION gives 0x12 (R409); an unlisted code gives 0x01 (R403), and so does a header that is not R402's
(notes/assumptions/50.md). -/
def portCmd (h : PortHdr) (code : Nat) (len : Option Nat) (name : String) (s : State) (go : Out) : Out :=
  if s.nodeBusy h.node then notNow name
  else if s.commission.isNone && h.code != 1 && h.code != 2 then .next (s.reply h (h.code % 0x8000) (refusal 0x12 0) [])
  else if !listedCode h.code || !hdrOk h len then .next (s.reply h (h.code % 0x8000) (refusal 0x01 0) [])
  else if h.code ≠ code then notNow name
  else go

/-- IDENT: identity public key, node number, ROM version and boot state (Table 27-2). -/
def execIdent (h : PortHdr) (s : State) : Out :=
  portCmd h 0x01 none "IDENT" s (.next (s.reply h 0x01 0 (Config.identityKey ++ leBytes 8 s.ownNode ++
    leBytes 8 Config.romVersion.toNat ++ leBytes 8 (if s.commission.isSome then 1 else 0))))

/-- The limits of a commissioning record: F from 1 to 4, up to 256 members of a domain, and node numbers of 16 bits (R331, R332,
R398). -/
def recordOk (r : CommissionRecord) : Bool :=
  decide (1 ≤ r.factor) && decide (r.factor ≤ 4) && r.domains.all (fun e => decide (e.2.length ≤ 256)) &&
    (r.node :: r.linkNode.map (fun e => e.2) ++ r.domains.flatMap (fun e => e.2)).all (fun n => decide (n < 2 ^ 16))

/-- COMMISSION: accepted once per boot (R410). -/
def execCommission (h : PortHdr) (rec_ : CommissionRecord) (sig : List Byte) (s : State) : Out :=
  portCmd h 0x02 none "COMMISSION" s (
    if s.commission.isSome then .next (s.reply h 0x02 (refusal 0x12 0) [])
    else if !Config.recordVerifies rec_ sig then .next (s.reply h 0x02 (refusal 0x02 0) [])
    else if !recordOk rec_ then .next (s.reply h 0x02 (refusal 0x01 0) [])
    else .next (State.reply { s with commission := some rec_ } h 0x02 0 []))

/-- The bytes of a beacon image (R383). -/
def beaconSize : Nat := 29856

/-- A well-formed beacon: sequence, domain, E and L (Table 26-3). -/
def beaconOf (bs : List Byte) : Option (Word × Word × Word × Word) :=
  let a := bs.toArray
  if a.size = beaconSize ∧ arrNat a 0 4 = 0x42545847 ∧ arrNat a 4 2 = 1 ∧ arrZero a 6 2 ∧ arrZero a 0x28 24 then
    some (arrWord a 8, arrWord a 0x10, arrWord a 0x18, arrWord a 0x20)
  else none

/-- The umpire accepts a beacon (R383). -/
def State.beaconOk (s : State) (image : List Byte) (seq dom e l : Word) : Bool :=
  (match s.commission with
    | some r => r.issuers.any (fun k => k.domains.contains dom && Config.sigVerifies k.digest (image.take 64) (image.drop 64))
    | none => false) &&
  (s.members dom).contains s.ownNode &&
  (match s.beacon with
    | some b => decide (b.seq < seq)
    | none => true) &&
  decide (e ≤ l) && decide (e.toNat ≤ s.tlate) && decide (s.tearly ≤ l.toNat)

/-- BEACON (R383, R411). -/
def execBeacon (h : PortHdr) (image : List Byte) (s : State) : Out :=
  portCmd h 0x03 (some image.length) "BEACON" s (match beaconOf image with
    | none => .next (s.reply h 0x03 (refusal 0x14 0) [])
    | some (seq, dom, e, l) =>
      if s.beaconOk image seq dom e l then
        let eb : Word := BitVec.ofNat 64 (max e.toNat s.tearly)
        let lb : Word := BitVec.ofNat 64 (min l.toNat s.tlate)
        .next (State.reply { s with beacon := some { cb := s.cycle, eb := eb, lb := lb, seq := seq },
                                    bootTime := some (s.bootTime.getD eb) } h 0x03 0 [])
      else .next (s.reply h 0x03 (refusal 0x14 0) []))

/-! ### Nonces and presentations (R330, R403) -/

/-- The cycles of 60 s. -/
def nonceLife : Nat := 36000000000

/-- NONCE: 32 fresh bytes for the node's next presentation (Table 27-2). -/
def execNonce (h : PortHdr) (s : State) : Out :=
  let v := Config.nonceBytes s.fresh
  let n : Nonce := { node := h.node, value := v, cycle := s.cycle }
  portCmd h 0x04 none "NONCE" s (
    .next (State.reply { s with nonces := updKey (fun (e : Nonce) => e.node == h.node) n s.nonces, fresh := s.fresh + 1 } h 0x04 0
      (leBytes 32 v.toNat)))

/-- A nonce's 60 s are over. -/
def Nonce.over (n : Nonce) (cycle : Word) : Bool := decide (n.cycle.toNat + nonceLife < cycle.toNat)

/-- NONCE_EXPIRY (Table 27-2). -/
def execNonceExpiry (node : Nat) (s : State) : Out :=
  if s.nonces.any (fun n => n.node == node && n.over s.cycle) then
    .next { s with nonces := s.nonces.filter (fun n => n.node != node) }
  else notNow "NONCE_EXPIRY"

/-- The holder proof through the port: a signature over the node's nonce, under the holder's key (R330). -/
def State.portProof (s : State) (node : Nat) (sig : List Byte) (holder : BitVec 256) : Bool :=
  match s.nonces.find? (fun n => n.node == node && !n.over s.cycle) with
  | some n => Config.sigVerifies holder (leBytes 32 n.value.toNat) sig
  | none => false

/-- A nonce is valid once. -/
def State.useNonce (s : State) (node : Nat) : State := { s with nonces := s.nonces.filter (fun n => n.node != node) }

/-- PRESENT: steps 1 to 5, and the claim that step 6 waits for (R328). -/
def execPresent (h : PortHdr) (image obj sig : List Byte) (s : State) : Out :=
  let t := s.useNonce h.node
  portCmd h 0x05 (some (image.length + obj.length + sig.length)) "PRESENT" s (
    match s.examineImage image (s.portProof h.node sig) with
    | .error st => .next (t.reply h 0x05 (refusal st 0) [])
    | .ok w =>
      .next (t.addClaim { serial := w.serial, root := w.serial, notBefore := w.notBefore, device := s.ownNode } (.port h w obj)))

/-- REDEEM: a receipt, without a presenting thread (R338). -/
def execRedeem (h : PortHdr) (receipt sig : List Byte) (s : State) : Out :=
  let t := s.useNonce h.node
  portCmd h 0x06 (some (receipt.length + sig.length)) "REDEEM" s (
    match s.checkReceipt receipt (s.portProof h.node sig) with
    | .error st => .next (t.reply h 0x06 (refusal st 0) [])
    | .ok (x, who) => .next (t.addClaim (s.claimMsg x x.serial) (.redeemPort h x.id who x.warrant.domain)))

/-! ### The bound node's commands (Tables 27-2 and 27-3) -/

/-- RUN of Table 27-2: a context that runs, whether it is on the module or saved out. -/
def CtxState.running (st : CtxState) : Bool := st == .run || st == .saved

/-- A marked command: the context is there, the node is the bound one, tested before the state, and the state is one that the
table lists (R403). -/
def boundCmd (h : PortHdr) (code : Nat) (len : Option Nat) (name : String) (states : CtxState → Bool) (s : State) (k : Ctx → State) :
    Out :=
  portCmd h code len name s (match s.ctxAt h.ctx with
    | none => .next (s.reply h code (refusal 0x12 0) [])
    | some x =>
      if x.node ≠ h.node then .next (s.reply h code (refusal 0x13 0) [])
      else if !states x.state then .next (s.reply h code (refusal 0x12 0) [])
      else .next (k x))

/-- SETWIN: in UNLOCKED it sets a window; any to a context whose bases are frozen puts it in ERROR (R404). -/
def execSetwin (h : PortHdr) (w : BitVec 1) (base len : Word) (s : State) : Out :=
  boundCmd h 0x07 none "SETWIN" (fun st => st == .unlocked || st == .locked || st.running) s (fun x =>
    if x.state != .unlocked then (s.ctxFault x 4).reply h 0x07 0 []
    else if base.toNat % 65536 ≠ 0 ∨ len.toNat % 65536 ≠ 0 then s.reply h 0x07 (refusal 0x01 0) []
    else (s.setCtx (if w = 0 then { x with winOut := some (base, len) } else { x with winIn := some (base, len) })).reply h 0x07 0 [])

/-- The port refuses a definition whose doorbell or status block is not in writable free memory, or not aligned (R348). -/
def defOk (x : Ctx) (d : QueueDef) : Bool :=
  d.doorbell.toNat % 16 == 0 && d.status.toNat % 32 == 0 && x.freeSpan d.doorbell 16 && x.freeSpan d.status 32

/-- DEFQ: queue q is defined once (R347, R348). -/
def execDefq (h : PortHdr) (q : Nat) (qd : QueueDef) (s : State) : Out :=
  boundCmd h 0x08 none "DEFQ" (fun st => st == .unlocked || st.running) s (fun x =>
    if q = 0 ∨ x.res.queues ≤ q then s.reply h 0x08 (refusal 0x01 0) []
    else if (x.queue q).isSome then s.reply h 0x08 (refusal 0x12 0) []
    else if !defOk x qd then s.reply h 0x08 (refusal 0x01 0) []
    else (s.putQueue x.id (Queue.fresh q qd)).reply h 0x08 0 [])

/-- The interface report (Table 27-4). The packing of the fields at 0x038 and 0x048 is the model's. -/
def interfaceReport (s : State) (x : Ctx) : List Byte :=
  let l := x.layout
  let n := x.cores.length
  let cols := max 1 (torusCols n n 1)
  let adr := fun (o : Nat) => leBytes 8 (textLink + o)
  let win := fun (w : Option (Word × Word)) => (w.map (fun e => leBytes 8 e.1.toNat ++ leBytes 8 e.2.toNat)).getD (List.replicate 16 0)
  let cap := ((s.dbg.find? (fun m => m.holder == x.id)).map (fun m => m.cfg.region)).getD 0
  let body := [0x47#8, 0x58#8, 0x49#8, 0x52#8] ++ leBytes 2 1 ++ leBytes 2 x.id ++ leBytes 16 x.serial.toNat ++
    leBytes 32 x.warrant.code.toNat ++ leBytes 4 s.ownNode ++ leBytes 4 x.node ++ leBytes 8 Config.romVersion.toNat ++
    leBytes 2 (pageSize l.g l.dies.length / 65536) ++ leBytes 2 n ++ leBytes 2 cols ++ leBytes 2 (n / cols) ++
    adr l.textOff ++ adr l.saveOff ++ adr l.dumpOff ++ adr l.spillOff ++ leBytes 8 cap.toNat ++ adr l.freeEnd ++
    win x.winOut ++ win x.winIn ++ l.dies.map (fun d => BitVec.ofNat 8 d) ++ List.replicate (96 - l.dies.length) 0xFF#8 ++
    x.cores.flatMap (leBytes 4) ++ (upTo 10).flatMap (fun c => leBytes 8 (s.energyCost c))
  body ++ (Config.identitySign body).toList

/-- LOCK: bases and binding are frozen, and the interface report is issued (R404, R405). -/
def execLock (h : PortHdr) (s : State) : Out :=
  boundCmd h 0x09 none "LOCK" (fun st => st == .unlocked) s (fun x =>
    (s.setCtx { x with state := .locked }).reply h 0x09 0 (interfaceReport s x))

/-- A vacant slot becomes idle. -/
def Slot.toIdle (c : Slot) : Slot := if c.status == .vacant then { c with status := .idle, held := .idle } else c

/-- START: the context's slots become IDLE, and launches are accepted (R404). One that is placed when its slices begin is
saved out until then (R332). -/
def execStart (h : PortHdr) (s : State) : Out :=
  boundCmd h 0x0A none "START" (fun st => st == .locked) s (fun x =>
    let t := s.setCtx (if x.away then { x with state := .saved } else { x with state := .run, sliceAt := s.cycle })
    (t.atFamily x.root (fun (u : State) => u.mapSlots (ownedBy x.id) Slot.toIdle)).reply h 0x0A 0 [])

/-- LAUNCH: one packet enters port queue 0; the reply holds its index (R348, R352, Table 27-2). -/
def execLaunch (h : PortHdr) (pkt : List Byte) (s : State) : Out :=
  boundCmd h 0x0B (some pkt.length) "LAUNCH" CtxState.running s (fun x =>
    if pkt.length ≠ 64 then s.reply h 0x0B (refusal 0x01 0) []
    else match x.queue 0 with
      | none => s.reply h 0x0B (refusal 0x12 0) []
      | some q =>
        let i : BitVec 32 := q.widx.setWidth 32
        let q := { q with ring := setNth q.ring (i.toNat % 64) pkt, widx := (i + 1).setWidth 64 }
        let t := match queueReason x q with
          | some r => s.suspend x q r
          | none => s.putQueue x.id { q with state := if 2 ≤ q.state then q.state else q.going }
        t.reply h 0x0B 0 (leBytes 4 i.toNat))

/-- An error in 64 bytes that the umpire reads takes their context once (R3, R258). -/
def State.noteError (s : State) (x : Ctx) (k : Nat) (va : Word) : State :=
  match s.errorAt k 64 with
  | some e => if x.err.isSome then s else s.uncorrCtx x va e
  | none => s

/-- READ: a stored ciphertext unit of the dump area, whose first holds the record, with its tweak (R256, Table 27-2). -/
def execRead (h : PortHdr) (unit : Nat) (s : State) : Out :=
  boundCmd h 0x0C none "READ" (fun _ => true) s (fun x =>
    if x.layout.spillOff ≤ x.layout.dumpOff + 64 * unit then s.reply h 0x0C (refusal 0x01 0) []
    else
      let off := x.layout.dumpOff + 64 * unit
      let tweak : Word := BitVec.ofNat 64 (textLink + off)
      (s.noteError x (keyOf Space.dev x.id off) tweak).reply h 0x0C 0
        (xtsEncrypt x.key tweak (s.readHomeN (keyOf Space.dev x.id off) 64) ++ leBytes 8 tweak.toNat))

/-- SURR: as WSURR on the context (R341). -/
def execSurr (h : PortHdr) (s : State) : Out :=
  boundCmd h 0x0D none "SURR" (fun _ => true) s (fun x => (s.endContext x.id).reply h 0x0D 0 [])

/-- REVOKE: the issuer of the family's warrant signs the serial and this device's node; the key slot is zeroised, and the
context enters ERROR with record kind 3 (R257). -/
def execRevoke (h : PortHdr) (serial : BitVec 128) (sig : List Byte) (s : State) : Out :=
  portCmd h 0x0E (some (16 + sig.length)) "REVOKE" s (match s.ctxs.find? (fun x => x.serial == serial) with
    | none => .next (s.reply h 0x0E (refusal 0x12 0) [])
    | some x =>
      if !Config.sigVerifies x.warrant.issuer (leBytes 16 serial.toNat ++ leBytes 8 s.ownNode) sig then
        .next (s.reply h 0x0E (refusal 0x02 0) [])
      else if !x.keyValid then .next (s.reply h 0x0E 0 [])
      else
        let s := s.setCtx { x with keyValid := false }
        let s := { s with keys := s.keys.map (fun (k : KeySlot) => if k.ctx == x.id then { k with key := [] } else k) }
        .next ((s.ctxFault { x with keyValid := false } 3).reply h 0x0E 0 []))

/-- QUERY: an item of WQRY, or the interface report (R343, R405). -/
def execQuery (h : PortHdr) (item : Nat) (s : State) : Out :=
  boundCmd h 0x12 none "QUERY" (fun _ => true) s (fun x =>
    if item = 16 then s.reply h 0x12 0 (interfaceReport s x)
    else if 16 < item then s.reply h 0x12 (refusal 0x01 0) []
    else s.reply h 0x12 0 (leBytes 8 (x.item item).toNat))

/-- QCTRL: an answer to port queue 0, as a CTRL write (R357). -/
def execQctrl (h : PortHdr) (answer : BitVec 2) (s : State) : Out :=
  boundCmd h 0x13 (some 8) "QCTRL" CtxState.running s (fun x => match x.queue 0 with
    | none => s.reply h 0x13 (refusal 0x12 0) []
    | some q => (s.answer x q answer.toNat).reply h 0x13 0 [])

/-! ### Debug modules (R390, R391, R394) -/

/-- The limits of a configuration (R391). -/
def cfgOk (x : Ctx) (c : DbgConfig) : Bool :=
  decide (c.comps.length ≤ 4) && decide (c.post ≤ 4095) && (c.period == 0 || (upTo 15).any (fun k => c.period == 2 ^ (k + 6))) &&
    c.region.toNat % 131072 == 0 && x.freeSpan c.region 131072

/-- DBGCFG: the context takes a free module of one of its clusters, by logical number, or sets its own anew; capture is
armed (R390, R391, R393). -/
def execDbgcfg (h : PortHdr) (clus : Nat) (cfg : DbgConfig) (s : State) : Out :=
  boundCmd h 0x0F none "DBGCFG" CtxState.running s (fun x => match x.clusters[clus]? with
    | none => s.reply h 0x0F (refusal 0x01 0) []
    | some k =>
      if !cfgOk x cfg then s.reply h 0x0F (refusal 0x01 0) []
      else if s.dbg.any (fun m => m.clus == k && m.holder != x.id) then s.reply h 0x0F (refusal 0x12 0) []
      else
        let m : DbgMod := { clus := k, holder := x.id, cfg := cfg, capture := .armed, hit := false, buf := [], pend := [] }
        State.reply { s with dbg := updKey (fun (e : DbgMod) => e.clus == k) m s.dbg } h 0x0F 0 [])

/-- DBGREL: a held module is released (R390). -/
def execDbgrel (h : PortHdr) (clus : Nat) (s : State) : Out :=
  boundCmd h 0x10 none "DBGREL" CtxState.running s (fun x => match x.clusters[clus]? with
    | none => s.reply h 0x10 (refusal 0x01 0) []
    | some k =>
      if s.dbg.any (fun m => m.clus == k && m.holder == x.id) then
        (State.holdModules { s with dbg := s.dbg.filter (fun m => m.clus != k) } x).reply h 0x10 0 []
      else s.reply h 0x10 (refusal 0x12 0) [])

/-- DBGRES: the holder's halted slots return in an agreed cycle (R394). -/
def execDbgres (h : PortHdr) (s : State) : Out :=
  boundCmd h 0x11 none "DBGRES" CtxState.running s (fun x =>
    State.reply { s with dbgResume := s.dbgResume ++ [(x.id, agreedCycle s.cycle)] } h 0x11 0 [])

end Sys2Proof.Machine
end

