-- ==== Sys2Proof/Machine/Fabric.lean ====
section
/-! DEFINITION. The fabric links and inbound accesses (spec/27_fabric_host_and_firmware.md R396 to R404): flits, their replay, their
channels and credits. What a data flit's payload says is the model's (notes/assumptions/12.md). -/

namespace Sys2Proof.Machine

/-- A link that nothing has trained. -/
def Link.fresh (k : Nat) : Link :=
  { link := k, node := none, up := false, fails := 0, nacks := 0, credits := Vector.replicate 16 0, out := [], sent := [], got := [],
    share := 0 }

/-- A link of the module, from its state or untrained. -/
def State.linkAt (s : State) (k : Nat) : Link := (s.links.find? (fun l => l.link == k)).getD (Link.fresh k)

/-- Put a link's record back. -/
def State.setLink (s : State) (l : Link) : State := { s with links := updKey (fun (m : Link) => m.link == l.link) l s.links }

/-- LINK_TRAINING: the node at the far end is identified against the commissioning record; each channel has 32 free slots
there (R398, R399). A node that the record does not name for the link leaves it down. -/
def execLinkTraining (link node : Nat) (s : State) : Out :=
  if 96 ≤ link then notNow "LINK_TRAINING"
  else
    let known := match s.commission.bind (fun r => r.linkNode.find? (fun e => e.1 == link)) with
      | some e => e.2 == node
      | none => true
    .next (s.setLink { s.linkAt link with
      node := if known then some node else none, up := known, fails := 0, nacks := 0, credits := Vector.replicate 16 32, sent := [],
      got := [] })

/-! ### Credits and replay (R397, R399; notes/assumptions/12.md) -/

/-- One flit of the link has failed its first passage and 8 replays (R397). -/
def Link.spent (l : Link) : Bool := decide (9 ≤ l.fails) || decide (9 ≤ l.nacks)

/-- The free slots of a channel at the far end. -/
def Link.free (l : Link) (vc : BitVec 4) : Nat := (l.credits[vc.toNat]?).getD 0

/-- A slot of a channel at the far end is free again, of the 32 (R399). -/
def Link.credit (l : Link) (vc : BitVec 4) : Link := { l with credits := l.credits.setIfInBounds vc.toNat (min 32 (l.free vc + 1)) }

/-- A flit with no payload, for the node at the far end of a link. -/
def State.bareFlit (s : State) (l : Link) (vc type : BitVec 4) : Flit :=
  sealFlit { vc := vc, dst := BitVec.ofNat 16 (l.node.getD 0), src := BitVec.ofNat 16 s.ownNode, ctx := 0, ftype := type, len := 0,
             payload := [], crc := 0 }

/-- A slot of a channel here is free again, and the far end is told (R399). -/
def State.giveBack (s : State) (l : Link) (vc : BitVec 4) : Link := { l with out := l.out ++ [s.bareFlit l vc (Config.flitType vc)] }

/-- A flit with no payload has come: a request to send the channel's last flit again, or a slot that is free again. -/
def Link.takeBare (l : Link) (f : Flit) : Link :=
  if f.ftype = Config.replayType then
    match (l.sent.filter (fun (g : Flit) => g.vc == f.vc)).getLast? with
    | some g => { l.credit f.vc with
        nacks := l.nacks + 1, out := g :: l.out, sent := (dropFirst (fun (h : Flit) => h.vc == f.vc) l.sent.reverse).reverse }
    | none => l
  else { l.credit f.vc with nacks := 0, sent := dropFirst (fun (g : Flit) => g.vc == f.vc) l.sent }

/-- A flit may enter a channel: umpire traffic on 0 and 1, else that of a context on the pair of its class, or on its own pair on
the link's die (R400). -/
def State.mayEnter (s : State) (l : Link) (f : Flit) : Bool :=
  decide (f.vc.toNat ≤ 1) || (match s.ctxAt f.ctx.toNat with
    | none => false
    | some x =>
      if x.warrant.sealed then x.pairs.any (fun e => e.1 == dieOfLink l.link && 4 + e.2 == f.vc.toNat / 2)
      else x.res.cls + 1 == f.vc.toNat / 2)

/-- What a flit with a payload does at the module: umpire traffic becomes an item of the referee inbox; a request holds its slot
until its access is carried out; a response is taken at once (R398, R399, R408). -/
def State.takeFlit (s : State) (l : Link) (f : Flit) : State :=
  if f.vc.toNat ≤ 1 then
    { s.setLink (s.giveBack l f.vc) with
      inbox := s.inbox ++ [({ core := refCore0, node := f.src.toNat, kind := f.vc.toNat, bytes := f.payload.take f.len.toNat } : RefItem)] }
  else if f.vc.toNat % 2 = 1 then s.setLink (s.giveBack l f.vc)
  else if (l.got.filter (fun (g : Flit) => g.vc == f.vc)).length < 32 then s.setLink { l with got := l.got ++ [f] }
  else s

/-- FLIT_RECEIVE: a flit whose CRC fails is asked for again; one from another source than the link's node, for another node, or on
a channel that is not its context's is discarded (R397, R398, R400). -/
def execFlitReceive (link : Nat) (flit : Flit) (s : State) : Out :=
  let l := s.linkAt link
  if !l.up || l.spent then notNow "FLIT_RECEIVE"
  else if !flitCrcOk flit then
    .next (s.setLink { l with fails := l.fails + 1, out := s.bareFlit l flit.vc Config.replayType :: l.out })
  else if some flit.src.toNat ≠ l.node ∨ flit.dst.toNat ≠ s.ownNode then .next s
  else
    let l := { l with fails := 0 }
    if flit.len = 0 then .next (s.setLink (l.takeBare flit))
    else if s.mayEnter l flit then .next (s.takeFlit l flit)
    else .next (s.setLink (s.giveBack l flit.vc))

/-! ### Links that go down (R397, R358) -/

/-- An address of system space. -/
def sysAddr (va : Word) : Bool := decide (0x100000000000000 ≤ va.toNat)

/-- What a thread waits for is to come from system space (R401). -/
def Wait.onFabric : Wait → Bool
  | .atomic _ r | .atomicReply _ r _ => keySpace r.loc == Space.host
  | .load _ va _ _ | .join va => sysAddr va
  | .vload _ _ _ es _ _ => es.any (fun e => sysAddr e.2)
  | _ => false

/-- A transfer touches system space. -/
def Xfer.onFabric (t : Xfer) : Bool := sysAddr t.src || sysAddr t.dst || t.halos.any (fun h => sysAddr h.src)

/-- A write or a request of the context is on its way over the links of a die (R299, R401). -/
def State.hostPending (s : State) (x : Ctx) (die : Nat) : Bool :=
  let mine := fun (p : Nat) => x.slots.contains p && dieOf p == die
  s.flight.any (fun e => mine e.slot && e.cells.any (fun c => keySpace c.1 == Space.host)) ||
    s.outb.any (fun e => mine e.slot && keySpace e.req.loc == Space.host) ||
    s.allSlots.any (fun c => mine c.phys && c.wait.any Wait.onFabric) ||
    s.xfers.any (fun t => mine t.slot && t.taken && t.onFabric) ||
    s.colls.any (fun e => mine e.slot && !e.far && e.peers.any (fun w => (peerOf w).2.2 != s.ownNode))

/-- LINK_DOWN: a link on which a flit has failed replay 8 times is taken down; its traffic moves to the other links of its
die, and when none is left each context with a request in flight there takes a fault of kind 2 (R397, R358). -/
def execLinkDown (link : Nat) (s : State) : Out :=
  let l := s.linkAt link
  if !l.up || !l.spent then notNow "LINK_DOWN"
  else
    let t := s.setLink { l with up := false, out := [], sent := [] }
    match t.links.find? (fun m => dieOfLink m.link == dieOfLink link && m.up) with
    | some m => .next (t.setLink { m with out := m.out ++ l.out.filter (fun (f : Flit) => f.len != 0) })
    | none =>
      .next ((t.ctxs.filter (fun x => t.hostPending x (dieOfLink link))).foldl (fun (t : State) x => t.ctxFault x 2) t)

/-! ### Flits that leave -/

/-- The oldest message of a referee's DISPATCH that is for a link's node on a channel goes into flits (R397, R408). -/
def State.fillLink (s : State) (link : Nat) (vc : BitVec 4) : State :=
  let here := fun (m : OutMsg) => m.vc == vc && (s.linkTo m.node).any (fun l => l.link == link)
  match s.outq.find? here with
  | none => s
  | some m => State.post { s with outq := dropFirst here s.outq } m.node vc m.bytes

/-- Whether a flit with a payload waits on a channel, and may leave. -/
def Link.waits (l : Link) (vc : BitVec 4) : Bool := decide (0 < l.free vc) && l.out.any (fun f => f.vc == vc && f.len != 0)

/-- Of the elastic and the batch channels, those that may send next: where both have flits that may leave, two elastic ones go for
one batch flit (R400). -/
def Link.turnOf (l : Link) (vc : BitVec 4) : Bool :=
  let els := l.waits 4 || l.waits 5
  let bat := l.waits 6 || l.waits 7
  if vc.toNat / 2 = 2 then !bat || decide (l.share < 2)
  else if vc.toNat / 2 = 3 then !els || decide (2 ≤ l.share)
  else true

/-- The elastic flits sent since a batch flit, after one more flit. -/
def Link.shareAfter (l : Link) (vc : BitVec 4) : Nat :=
  if vc.toNat / 2 = 2 then min 2 (l.share + 1) else if vc.toNat / 2 = 3 then 0 else l.share

/-- FLIT_SEND: the next flit of a channel leaves: one with no payload takes no slot; any other leaves while the far node has a free
slot for the channel, and stays until that slot is free again, for replay (R397, R399, R400). -/
def execFlitSend (link : Nat) (vc : BitVec 4) (s : State) : Out :=
  let s := if (s.linkAt link).out.any (fun f => f.vc == vc) then s else s.fillLink link vc
  let l := s.linkAt link
  let rest := dropFirst (fun (f : Flit) => f.vc == vc) l.out
  match l.out.find? (fun f => f.vc == vc) with
  | none => notNow "FLIT_SEND"
  | some f =>
    if !l.up || l.spent then notNow "FLIT_SEND"
    else if f.len = 0 then .next (s.setLink { l with out := rest })
    else if 0 < l.free vc ∧ l.turnOf vc = true then
      .next (s.setLink { l with out := rest, sent := l.sent ++ [f], share := l.shareAfter vc,
                                credits := l.credits.setIfInBounds vc.toNat (l.free vc - 1) })
    else notNow "FLIT_SEND"

/-! ### Inbound accesses (R404) -/

/-- The bytes of an inbound read leave for the node, counted and charged as fabric bytes (Tables 26-1, 26-5). -/
def State.respond (s : State) (x : Ctx) (node : Nat) (bytes : List Byte) : State :=
  match s.dataLink x node true with
  | none => s
  | some (l, vc) => ((s.postBy l node x.id vc bytes).count x.id 0 0xC4 bytes.length).charge x.id 8 bytes.length

/-- The flits of a node's access to a context have been taken: their slots here are free again (R399). -/
def State.takeGot (s : State) (node ctx : Nat) : State :=
  let its := fun (f : Flit) => f.src.toNat == node && f.ctx.toNat == ctx
  { s with links := s.links.map (fun (l : Link) =>
      (l.got.filter its).foldl (fun l f => s.giveBack l f.vc) { l with got := l.got.filter (fun f => !its f) }) }

/-- An inbound access at an offset of window 1, of n bytes, where the bound node makes it and it keeps within the window: the
address and the location (R404). -/
def Ctx.inbound (x : Ctx) (node off n : Nat) (acc : Acc) : Option (Word × Nat) :=
  match x.winIn with
  | none => none
  | some (base, size) =>
    let o := base.toNat + off - 0x1000000000000
    let va : Word := BitVec.ofNat 64 (base.toNat + off)
    if x.node ≠ node ∨ size.toNat < off + n ∨ base.toNat < 0x1000000000000 ∨ !x.keyValid ∨ n = 0 then none
    else match resolveDev x va o acc, resolveDev x va (o + n - 1) acc with
      | .ok k, .ok _ => some (va, k)
      | _, _ => none

/-- INBOUND_ACCESS: the bound node's access through window 1 reaches the context's device memory like an access of its own;
any other is refused and reaches no byte (R404). `data` are the bytes of a write; a read's bytes leave on the context's
response channel, or none where they hold an error, which takes the context (R258; notes/assumptions/44.md). One that names
CTX.ID 0, which no context has, is another agent's store to the node's own memory, which
system-space addresses of this module reach too (notes/assumptions/12.md). -/
def execInboundAccess (node ctx off len : Nat) (data : Option (List Byte)) (s : State) : Out :=
  let t := s.takeGot node ctx
  match s.ctxAt ctx, data with
  | none, some bs =>
    if ctx = 0 ∧ node < 2 ^ 16 ∧ off + bs.length ≤ 2 ^ 64 then .next (t.land (cellsAt (keyOf Space.host node off) bs)) else .next t
  | none, none => .next t
  | some x, some bs => match x.inbound node off bs.length .engWrite with
    | none => .next t
    | some (_, k) => withPages s (spanPoints k bs.length) "INBOUND_ACCESS" (fun _ =>
        .next ((t.land (cellsAt k bs)).noteAccess ctx k bs.length true))
  | some x, none => match x.inbound node off len .engRead with
    | none => .next t
    | some (va, k) => withPages s (spanPoints k len) "INBOUND_ACCESS" (fun _ => match s.errorAt k len with
        | some e => .next (if x.err.isSome then t else t.uncorrCtx x (va + BitVec.ofNat 64 (e.lo - k)) e)
        | none => .next ((t.noteAccess ctx k len false).respond x node (s.readHomeN k len)))

end Sys2Proof.Machine
end

