-- ==== Sys2Proof/Machine/Windows.lean ====
section
/-! DEFINITION. Format windows: where an element of a window access lies, its checks, and its conversion
(spec/12_scratchpads_and_windows.md R220 to R222). -/

namespace Sys2Proof.Machine

/-- The bits of a code of a GQ window: 2, 4 or 8 (Table 12-3). -/
def gqBits (fmt : Nat) : Nat :=
  if fmt = 16 then 2 else if fmt = 17 then 4 else 8

/-- A GQ window format (Table 12-3). -/
def isGqFmt (fmt : Nat) : Bool := fmt == 16 || fmt == 17 || fmt == 18

/-- The type of a window format 0 to 13 (Table 12-3). -/
def winType (fmt : Nat) : EType := (EType.ofCode fmt).getD .i8

/-- The window and the offset within it of an address, for a thread of a context (Table 12-1). -/
def windowOf (c : Slot) (va : Word) : Option (Nat × Nat) :=
  let a := va.toNat
  if !c.ref && decide (0x100000 ≤ a) && decide (a < 0x300000) then some ((a - 0x100000) / 0x40000, (a - 0x100000) % 0x40000)
  else none

/-- Whether a descriptor has the span layout (Table 12-3). -/
def winSpan (desc : Word) : Bool := bits desc 33 32 == 1

/-- The offset of the first data byte of element i, and for a GQ format the bit within it (Table 12-4). -/
def winData (desc : Word) (o i : Nat) : Nat × Nat :=
  let fmt := winFmt desc
  if isGqFmt fmt then (o + i * gqBits fmt / 8, (o * 8 + i * gqBits fmt) % 8)
  else (o + i * (EType.bits (winType fmt) / 8), 0)

/-- The offset of the scale byte of a GQ element's block, and the element's number in the block (Table 12-4). -/
def winMeta (desc : Word) (o i : Nat) : Nat × Nat :=
  let e := gqBits (winFmt desc)
  if winSpan desc then
    let j := o % 512 * 8 / e + i
    (o - o % 512 + 448 + 2 * (j / 16), j % 16)
  else
    let j := o * 8 / e + i
    (2 * bits desc 21 5 + 2 * (j / 16), j % 16)

/-- The bounds of element i (R207, R220): its data at its window address, its metadata at its own. -/
def winElemCheck (bound : Nat) (desc : Word) (base : Word) (o i : Nat) : Option Refused :=
  let va := fun (off : Nat) => base + BitVec.ofNat 64 off - BitVec.ofNat 64 o
  let fmt := winFmt desc
  let off := (winData desc o i).1
  if isGqFmt fmt then
    if winSpan desc && decide (447 < off - (o - o % 512)) then some (.bounds, va off)
    else if bound ≤ off then some (.bounds, va off)
    else
      let mo := (winMeta desc o i).1
      if bound ≤ mo then some (.bounds, BitVec.ofNat 64 mo)
      else if bound ≤ mo + 1 then some (.bounds, BitVec.ofNat 64 (mo + 1))
      else none
  else
    let n := EType.bits (winType fmt) / 8
    if off + n ≤ bound then none else some (.bounds, va (max off bound))

/-- The checks of a consecutive vector access through a window that is not the identity (R207, R220 to R222, R228), for
the active elements `idx`. PERM of an access through a GQ window names its base, also where the leading elements are
inactive (the model's choice, notes/assumptions/28.md). -/
def winCheck (x : Ctx) (c : Slot) (ty : EType) (store : Bool) (desc base : Word) (w o : Nat) (idx : List Nat) :
    Option Refused :=
  let fmt := winFmt desc
  let first := idx.headD 0
  if isGqFmt fmt then
    if o % (2 * gqBits fmt) ≠ 0 then some (.misalign, base)
    else if c.decl.windows ≤ w then some (.regdecl, BitVec.ofNat 64 (0x100 + w))
    else if store || (EType.fmt ty).isNone then some (.perm, base)
    else idx.findSome? (winElemCheck (coreBound x c) desc base o)
  else
    let n := EType.bits (winType fmt) / 8
    if o % n ≠ 0 then some (.misalign, base + BitVec.ofNat 64 (n * first))
    else if c.decl.windows ≤ w then some (.regdecl, BitVec.ofNat 64 (0x100 + w))
    else idx.findSome? (winElemCheck (coreBound x c) desc base o)

/-- The location of an offset of the slot's own core scratchpad. -/
def ownKey (x : Ctx) (c : Slot) (off : Nat) : Nat := keyOf Space.core (shareUnit (coreOf c.phys) x.id) off

/-- The locations that an element of a window load reads, as first byte and length. -/
def winKeys (x : Ctx) (c : Slot) (desc : Word) (o i : Nat) : List (Nat × Nat) :=
  let fmt := winFmt desc
  let d := ownKey x c (winData desc o i).1
  if isGqFmt fmt then [(d, 1), (ownKey x c (winMeta desc o i).1, 2)] else [(d, EType.bits (winType fmt) / 8)]

/-- A decoded GQ value as an element of a floating type (R94, R221): a block that decodes as NaN raises NV. -/
def gqToType (ty : EType) (v : FVal) : FRes :=
  match EType.fmt ty with
  | some f => match v with
    | .nan _ => (f.nan, flagNV)
    | v => f.conv .rne false v
  | none => (0, 0)

/-- Element i of a window load, converted to the load's type in RNE, and the flags it raises (R220, R221). -/
def winLoad (s : State) (x : Ctx) (c : Slot) (ty : EType) (desc : Word) (o i : Nat) : FRes :=
  let fmt := winFmt desc
  let core := coreOf c.phys
  let (off, bit) := winData desc o i
  if isGqFmt fmt then
    let e := gqBits fmt
    let (mo, j) := winMeta desc o i
    let code := (s.readCore core (ownKey x c off)).toNat / 2 ^ bit % 2 ^ e
    let scale := (s.readCore core (ownKey x c mo)).toNat
    let micro := (s.readCore core (ownKey x c (mo + 1))).toNat
    gqToType ty (gqValue (e - 1) (sintN (bits desc 31 25) 7) scale (micro / 2 ^ (j / 2) % 2) code)
  else
    let st := winType fmt
    convElem ty st .rne false (leNat (s.readCoreN core (ownKey x c off) (EType.bits st / 8)))

end Sys2Proof.Machine
end

