-- ==== Sys2Proof/Machine/Memory.lean ====
section
/-! DEFINITION. Scalar loads and stores, LDO and STO, full/empty accesses, and the events of the memory system
(spec/12_scratchpads_and_windows.md R223 to R225, R214 to R216, spec/14 R233, spec/16 R254, spec/25 R375). -/

namespace Sys2Proof.Machine

/-- The value of a load from its bytes (R223). -/
def loadValue (signed : Bool) (bs : List Byte) : Word :=
  if signed then BitVec.ofInt 64 (sintN (leNat bs) (8 * bs.length)) else leWord bs

/-- A location that the slot's own core serves within the rotation: its own core scratchpad (R223), or a referee
core's (R406). -/
def ownCore (c : Slot) (k : Nat) : Bool :=
  (keySpace k == Space.core && keyUnit k / 2 ^ 16 == coreOf c.phys) ||
    (keySpace k == Space.ref && keyUnit k == coreOf c.phys)

/-- A load of the current slot's thread has its data: the result, or UNCORR where no check can correct them (R3). -/
def loadDone (s : State) (c : Slot) (d : Reg5) (va : Word) (k n : Nat) (signed : Bool) : Out :=
  match s.errorAt k n with
  | some e => .next (fatalTrap s c .uncorr va c.ir e.place)
  | none => finish s (s.acquired c) d (loadValue signed (s.readSlotN c k n))

/-- A block has read some bytes (R237). -/
def Block.read (b : Block) (k n : Nat) : Block := { b with reads := (upTo n).map (fun i => k + i) ++ b.reads }

/-- The effect of a scalar load (R223, R264). -/
def load (s : State) (d a : Reg5) (imm : BitVec 12) (n : Nat) (signed : Bool) : Out :=
  withSrc1 s a (fun x c =>
    withDest s c d (fun _ =>
      let va := x + immWord imm
      match c.block with
      | some b => match resolveBlock s c b va n (.load n) with
        | .error (cause, tval) => trap s c cause tval
        | .ok k => match s.errorAt k n with
          | some e => .next (fatalTrap s c .uncorr va c.ir e.place)
          | none => finish s { c with block := some (b.read k n) } d (loadValue signed (s.readBlockN b k n))
      | none => match resolve s c va n (.load n) with
        | .error (cause, tval) => trap s c cause tval
        | .ok k =>
          if ownCore c k && !s.loadStalls c.phys k n then loadDone s c d va k n signed
          else waitOn s c (.load d va n signed)))

/-- The effect of a scalar store (R223, R264): base and data are read before the access is checked. `rel` is the scope of the
release that it is. -/
def store (s : State) (b a : Reg5) (imm : BitVec 12) (n : Nat) (rel : Option Scope) : Out :=
  withSrc2 s a b (fun x v c =>
    let va := x + immWord imm
    match c.block with
    | some bl => match resolveBlock s c bl va n (.store n) with
      | .error (cause, tval) => trap s c cause tval
      | .ok k => done s { c with block := some { bl with stores := cellsAt k (leBytes n v.toNat) ++ bl.stores } }
    | none => match resolve s c va n (.store n) with
      | .error (cause, tval) => trap s c cause tval
      | .ok k =>
        enterAll s c [cellsAt k (leBytes n v.toNat)] rel n s.seq 0)

/-- LB (Table 12-5). -/
def execLb (d a : Reg5) (imm : BitVec 12) (s : State) : Out := load s d a imm 1 true

/-- LBU (Table 12-5). -/
def execLbu (d a : Reg5) (imm : BitVec 12) (s : State) : Out := load s d a imm 1 false

/-- LH (Table 12-5). -/
def execLh (d a : Reg5) (imm : BitVec 12) (s : State) : Out := load s d a imm 2 true

/-- LHU (Table 12-5). -/
def execLhu (d a : Reg5) (imm : BitVec 12) (s : State) : Out := load s d a imm 2 false

/-- LW (Table 12-5). -/
def execLw (d a : Reg5) (imm : BitVec 12) (s : State) : Out := load s d a imm 4 true

/-- LWU (Table 12-5). -/
def execLwu (d a : Reg5) (imm : BitVec 12) (s : State) : Out := load s d a imm 4 false

/-- LD (Table 12-5). -/
def execLd (d a : Reg5) (imm : BitVec 12) (s : State) : Out := load s d a imm 8 false

/-- SB (Table 12-5). -/
def execSb (b a : Reg5) (imm : BitVec 12) (s : State) : Out := store s b a imm 1 none

/-- SH (Table 12-5). -/
def execSh (b a : Reg5) (imm : BitVec 12) (s : State) : Out := store s b a imm 2 none

/-- SW (Table 12-5). -/
def execSw (b a : Reg5) (imm : BitVec 12) (s : State) : Out := store s b a imm 4 none

/-- SD (Table 12-5). -/
def execSd (b a : Reg5) (imm : BitVec 12) (s : State) : Out := store s b a imm 8 none

/-- LDO: a load of 8 bytes; a read holds its thread until it has its value, so .acq adds no wait (R224, R234). A read of a
release that its core still holds waits for what the release follows, .acq or not, since a later FENCE.acq makes an acquire of
any read (R235, R243). -/
def execLdo (d a : Reg5) (_acq : Bool) (_sc : Scope) (imm : BitVec 12) (s : State) : Out := load s d a imm 8 false

/-- STO: a store of 8 bytes; .rel makes it a release of its scope (R224, R235). -/
def execSto (b a : Reg5) (rel : Bool) (sc : Scope) (imm : BitVec 12) (s : State) : Out :=
  store s b a imm 8 (if rel then some sc else none)

/-- A full/empty request goes to its bank (R225): one of the own core is served in its beat where it can be. An STFE that
does not leave at once takes an entry of the store buffer, and waits for room where there is none (R223). -/
def feGo (s : State) (c : Slot) (op : FeOp) (d : Reg5) (va v : Word) (k : Nat) : Out :=
  let c' := { c with wait := some (.fe op d va v), status := (Wait.fe op d va v).status }
  let room := op != .stfe || decide (s.sbCount (coreOf c.phys) < 32)
  if !room then waitOn s c (.stfe va v)
  else if ownCore c k && feMayArrive s c op k then
    let t := ({ s with cur := c' }).feArrive c' op d va k v
    match t.cur.wait with
    | some (.done d w) => finish t t.cur.ready d w
    | _ => .next t
  else if op == .stfe then .next { s.enterStores c [[]] (some .dev) 8 s.seq with cur := c' }
  else .next { s with cur := c' }

/-- A full/empty access: the address is checked, then the request goes to its bank (R225). An STFE is a release at .dev
(Table 14-2). -/
def feAccess (s : State) (c : Slot) (op : FeOp) (d : Reg5) (va v : Word) : Out :=
  match resolve s c va 8 .fe with
  | .error (cause, tval) => trap s c cause tval
  | .ok k =>
    if !hasGranule k then trap s c .perm va
    else if op == .stfe then feGo (released s c .dev).1 (released s c .dev).2 op d va v k
    else feGo s c op d va v k

/-- LDFE (R225). -/
def execLdfe (d a : Reg5) (imm : BitVec 12) (s : State) : Out :=
  withSrc1 s a (fun x c => withDest s c d (fun _ => feAccess s c .ldfe d (x + immWord imm) 0))

/-- LDFE.clr (R225). -/
def execLdfeClr (d a : Reg5) (imm : BitVec 12) (s : State) : Out :=
  withSrc1 s a (fun x c => withDest s c d (fun _ => feAccess s c .ldfeClr d (x + immWord imm) 0))

/-- STFE (R225). -/
def execStfe (b a : Reg5) (imm : BitVec 12) (s : State) : Out :=
  withSrc2 s a b (fun x v c => feAccess s c .stfe 0 (x + immWord imm) v)

/-- FEQ (R225): the bit as it stands when the request reaches the bank; no wait on it and no change. -/
def execFeq (d a : Reg5) (imm : BitVec 12) (s : State) : Out :=
  withSrc1 s a (fun x c => withDest s c d (fun _ => feAccess s c .feq d (x + immWord imm) 0))

/-! ### The elements of vector loads -/

/-- The bytes of an element of a type. -/
def elemBytes (ty : EType) : Nat := EType.bits ty / 8

/-- An active element of a vector load: its number and the locations that it reads, each as first byte and length. -/
structure VElem where
  i    : Nat
  keys : List (Nat × Nat)
deriving DecidableEq, Repr

/-- The active elements of a plain vector load, each checked by R207; the first that fails decides the trap (R228). -/
def plainElems (s : State) (c : Slot) (n : Nat) (acc : Acc) : List (Nat × Word) → Except Refused (List VElem)
  | [] => .ok []
  | (i, va) :: es => match resolve s c va n acc with
    | .error r => .error r
    | .ok k => match plainElems s c n acc es with
      | .error r => .error r
      | .ok vs => .ok ({ i := i, keys := [(k, n)] } :: vs)

/-- The elements of a waiting vector load. -/
def vloadElems (s : State) (c : Slot) (ty : EType) (win : Option (Word × Nat)) (elems : List (Nat × Word)) :
    Except Refused (List VElem) :=
  match win, s.ctxOf c with
  | some (desc, o), some x => .ok (elems.map (fun e => ({ i := e.1, keys := winKeys x c desc o e.1 } : VElem)))
  | _, _ => plainElems s c (elemBytes ty) .vload elems

/-- Something that holds a scalar load holds an element of the load (R33, R214, R235). -/
def vloadHeld (s : State) (c : Slot) (es : List VElem) : Bool :=
  es.any (fun e => e.keys.any (fun k => s.loadStalls c.phys k.1 k.2))

/-- The error that an element of the load meets, the first in order, with the element's number (R3). -/
def vloadError (s : State) (es : List VElem) : Option (Nat × MemErr) :=
  es.findSome? (fun e => (e.keys.findSome? (fun k => s.errorAt k.1 k.2)).map (fun m => (e.i, m)))

/-- The address of an element among those of a load. -/
def elemAddr (elems : List (Nat × Word)) (i : Nat) : Word := ((elems.find? (fun e => e.1 == i)).map (fun e => e.2)).getD 0

/-- The values of a vector load's elements, and the flags that a window's conversion raises (R221). -/
def vloadValues (s : State) (c : Slot) (ty : EType) (win : Option (Word × Nat)) (es : List VElem) :
    List (Nat × Nat) × BitVec 5 :=
  match win, s.ctxOf c with
  | some (desc, o), some x =>
    let rs := es.map (fun e => (e.i, winLoad s x c ty desc o e.i))
    (rs.map (fun r => (r.1, r.2.1)), rs.foldl (fun (f : BitVec 5) r => f ||| r.2.2) 0)
  | _, _ =>
    (es.map (fun e => (e.i, match e.keys with
      | (k, n) :: _ => leNat (s.readSlotN c k n)
      | [] => 0)), 0)

/-- The vector register write of some elements' values (R228). -/
def valuesWrite (d w : Nat) (vals : List (Nat × Nat)) : VWrite :=
  let at_ := fun (i : Nat) => vals.find? (fun v => v.1 == i)
  elemsWrite d w (fun i => (at_ i).isSome) (fun i => ((at_ i).map (fun v => v.2)).getD 0)

/-! ### Events -/

/-- What a vector load waits for once some of its elements have come: the others, or its turn (R228). -/
def vloadNext (d : Reg5) (ty : EType) (win : Option (Word × Nat)) (rest : List (Nat × Word)) (got : List (Nat × Nat))
    (flags : BitVec 5) : Wait :=
  if rest.isEmpty then .vdone d (EType.bits ty) got flags else .vload d ty win rest got flags

/-- OFF_CORE_LOAD_REPLY: the data of a waiting load reaches its core (R223, R228), those of a vector load one element at a time,
since each is an event of its own (R231). A load that a watermark, a waking
bank, a release under way or a page walk still holds is not answered (R33, R214, R235, R254); one that meets an error that no
check can correct takes UNCORR (R3). -/
def execOffCoreLoadReply (slot : Nat) (s : State) : Out :=
  let ev := "OFF_CORE_LOAD_REPLY"
  let c := s.slotAt slot
  let id := c.owner.getD 0
  match c.wait with
  | some (.load d va n signed) =>
    match resolve s c va n (.load n) with
    | .error (cause, tval) => .next (s.setSlot (c.waitFor (.trapped cause tval)))
    | .ok k =>
      if s.loadStalls c.phys k n then notNow ev
      else withPages s [k] ev (fun _ =>
        match s.errorAt k n with
        | some e => .next (fatalTrap s c .uncorr va c.ir e.place)
        | none =>
          let w := loadValue signed (s.readSlotN c k n)
          .next ((s.noteAccess id k n false).setSlot ((s.acquired c).waitFor (.done d w))))
  | some (.vload d ty win elems got flags) =>
    match vloadElems s c ty win (elems.take 1) with
    | .error (cause, tval) => .next (s.setSlot (c.waitFor (.trapped cause tval)))
    | .ok es =>
      if vloadHeld s c es then notNow ev
      else withPages s (es.flatMap (fun e => e.keys.map (fun k => k.1))) ev (fun _ =>
        match vloadError s es with
        | some (i, e) => .next (fatalTrap s c .uncorr (elemAddr elems i) c.ir e.place)
        | none =>
          let t := es.foldl (fun (s : State) (e : VElem) =>
            e.keys.foldl (fun (s : State) (k : Nat × Nat) => s.noteAccess id k.1 k.2 false) s) s
          let r := vloadValues s c ty win es
          .next (t.setSlot (c.waitFor (vloadNext d ty win (elems.drop 1) (got ++ r.1) (flags ||| r.2)))))
  | _ => notNow ev

/-- STORE_BUFFER_DRAIN: the oldest write of the core's store buffer leaves for its home (R223). -/
def execStoreBufferDrain (core : Nat) (s : State) : Out :=
  match s.sbuf.find? (fun e => e.core == core) with
  | none => notNow "STORE_BUFFER_DRAIN"
  | some e => .next { s with sbuf := dropFirst (fun f => f.core == core) s.sbuf, flight := s.flight ++ e.events }

/-- WRITE_REACHES_HOME: the k-th write on its way lands, and monitors on its block trigger (R233, R142). -/
def execWriteReachesHome (k : Nat) (s : State) : Out :=
  let ev := "WRITE_REACHES_HOME"
  match s.flight[k]? with
  | none => notNow ev
  | some e =>
    if !s.mayLand k e then notNow ev
    else match s.passes e.slot e.seq e.bounds (e.cells.map (fun (x : Host.Cell) => x.1)) with
      | none => notNow ev
      | some es =>
        if !s.tlbHas e.key then s.startWalk [e.key] ev
        else
          let id := ((s.slotAt e.slot).owner).getD 0
          let t := (({ s with flight := s.flight.take k ++ s.flight.drop (k + 1) }).close es).land e.cells
          .next (t.noteAccess id e.key e.cells.length true)

/-- FE_REQUEST_AT_BANK: a slot's full/empty request reaches its bank and is served, or waits there (R216). -/
def execFeRequestAtBank (slot : Nat) (s : State) : Out :=
  let c := s.slotAt slot
  match feKey s c with
  | some r =>
    if s.feq.contains slot || !feMayArrive s c r.op r.k then notNow "FE_REQUEST_AT_BANK"
    else .next (s.feArrive c r.op r.d r.va r.k r.v)
  | none => notNow "FE_REQUEST_AT_BANK"

/-- BANK_WAKEUP_DONE: a bank, named by its first location, has woken (R214). -/
def execBankWakeupDone (bank : Nat) (s : State) : Out :=
  if s.waking.contains bank then .next { s with waking := s.waking.filter (fun b => b != bank) }
  else notNow "BANK_WAKEUP_DONE"

/-- TRANSLATION_WALK_END: the k-th walk, one of those under way, ends and its station keeps the entry (R254). A walk that
finds no page keeps none; the access that it was made for ends with its XLATE (R255). -/
def execTranslationWalkEnd (k : Nat) (s : State) : Out :=
  match s.walks[k]? with
  | none => notNow "TRANSLATION_WALK_END"
  | some e =>
    if (s.walksUnderWay e).contains e then
      .next ({ s with walks := s.walks.take k ++ s.walks.drop (k + 1), tlb := s.tlbInsert e }.count e.2.1 0 0xC2 1)
    else notNow "TRANSLATION_WALK_END"

/-- Put a line into a core's instruction cache: into an empty way of its context in its set, or in place of the least
recently used line among those ways (R375). -/
def State.fillLine (s : State) (l : ILine) : State :=
  let ways := s.waysOf l.core l.ctx
  let mine := s.icache.filter (fun (m : ILine) =>
    m.core == l.core && ways.contains m.way && m.addr.toNat / 64 % 128 == l.addr.toNat / 64 % 128)
  match ways.find? (fun w => !mine.any (fun m => m.way == w)) with
  | some w => { s with icache := { l with way := w } :: s.icache }
  | none => match mine.getLast? with
    | some old => { s with icache := { l with way := old.way } :: dropFirst (fun m => m == old) s.icache }
    | none => s

/-- The sixteen words of a line at a location. -/
def State.lineWords (s : State) (k : Nat) : List IWord :=
  (upTo 16).map (fun i => BitVec.ofNat 32 (leNat (s.readHomeN (k + 4 * i) 4)))

/-- The sixteen words of a line of a referee core's ROM (R406). -/
def romLine (a : Word) : List IWord := (upTo 16).map (fun i => Config.romWord (a + BitVec.ofNat 64 (4 * i)))

/-- ICACHE_LINE_FILL: the line that a slot's fetch waits for arrives (R375), for a referee core from its ROM (R406). -/
def execIcacheLineFill (slot : Nat) (s : State) : Out :=
  let c := s.slotAt slot
  match c.wait, c.owner with
  | some .ifetch, none =>
    if !c.ref || (s.lineOf c c.pc).isSome then notNow "ICACHE_LINE_FILL"
    else
      let a : Word := BitVec.ofNat 64 (c.pc.toNat / 64 * 64)
      .next (s.fillLine { core := coreOf c.phys, ctx := fetchTag c, way := 0, addr := a, words := romLine a })
  | some .ifetch, some id =>
    match resolve s c c.pc 4 .fetch with
    | .error (cause, tval) => .next (s.setSlot (c.waitFor (.trapped cause tval)))
    | .ok k =>
      if (s.lineOf c c.pc).isSome then notNow "ICACHE_LINE_FILL"
      else withPages s [k] "ICACHE_LINE_FILL" (fun _ =>
        let off := c.pc.toNat % 64
        match s.errorAt (k - off) 64 with
        | some e => .next (fatalTrap s c .uncorr c.pc 0 e.place)
        | none =>
          let l : ILine := { core := coreOf c.phys, ctx := id, way := 0, addr := BitVec.ofNat 64 (c.pc.toNat - off),
                             words := s.lineWords (k - off) }
          .next (((s.fillLine l).count id c.lcore 0x4B 1).noteAccess id k 64 false))
  | _, _ => notNow "ICACHE_LINE_FILL"

end Sys2Proof.Machine
end

