-- ==== Sys2Proof/Machine/Vector.lean ====
section
/-! DEFINITION. Integer vector instructions: majors 0x22, 0x23, 0x26, 0x27 and 0x28
(spec/09_vector_registers_and_integer.md R165 to R177). -/

namespace Sys2Proof.Machine

/-- A signed integer type (Table 9-1). -/
def itypeSigned : IType → Bool
  | .i8 | .i16 | .i32 | .i64 => true
  | _ => false

/-- A signed type of major 0x23 (Table 9-1). -/
def wtypeSigned : WType → Bool
  | .i4 | .i8 | .i16 | .i32 => true
  | _ => false

/-- The registers that some register fields name. -/
def fieldNums (rs : List Reg5) : List Nat := rs.map (fun r => r.toNat)

/-- Element i of a register, as a member of an integer type (R172). -/
def Slot.ielem (c : Slot) (r : Nat) (ty : IType) (i : Nat) : Int :=
  intOf (vElem (c.vreg r) ty.width i) (itypeSigned ty) ty.width

/-- An element-wise operation on one or two sources (R172): f answers the result's low bits from the exact operands. -/
def vInt (s : State) (regs : List Reg5) (d a b : Reg5) (ty : IType) (m : BitVec 3) (beats : Nat)
    (f : Int → Int → Int) : Out :=
  withVregs s (fieldNums regs) (fun _ =>
    let c := s.cur
    let w := ty.width
    finishBeats s c beats
      [elemsWrite d.toNat w (c.active m w)
        (fun i => truncN (f (c.ielem a.toNat ty i) (c.ielem b.toNat ty i)) w)] 0)

/-- VADD (Table 9-2). -/
def execVadd (d a b : Reg5) (ty : IType) (m : BitVec 3) (s : State) : Out :=
  vInt s [d, a, b] d a b ty m 4 (fun x y => x + y)

/-- VSUB (Table 9-2). -/
def execVsub (d a b : Reg5) (ty : IType) (m : BitVec 3) (s : State) : Out :=
  vInt s [d, a, b] d a b ty m 4 (fun x y => x - y)

/-- VADDS (Table 9-2). -/
def execVadds (d a b : Reg5) (ty : IType) (m : BitVec 3) (s : State) : Out :=
  vInt s [d, a, b] d a b ty m 4 (fun x y => satN (x + y) (itypeSigned ty) ty.width)

/-- VSUBS (Table 9-2). -/
def execVsubs (d a b : Reg5) (ty : IType) (m : BitVec 3) (s : State) : Out :=
  vInt s [d, a, b] d a b ty m 4 (fun x y => satN (x - y) (itypeSigned ty) ty.width)

/-- The beats of a vector multiplication (Table 9-2). -/
def mulBeats (ty : IType) : Nat := if ty.width = 64 then 8 else 4

/-- VMUL (Table 9-2). -/
def execVmul (d a b : Reg5) (ty : IType) (m : BitVec 3) (s : State) : Out :=
  vInt s [d, a, b] d a b ty m (mulBeats ty) (fun x y => x * y)

/-- VMULH: floor(a × b / 2^w) (Table 9-2). -/
def execVmulh (d a b : Reg5) (ty : IType) (m : BitVec 3) (s : State) : Out :=
  vInt s [d, a, b] d a b ty m (mulBeats ty) (fun x y => x * y / ((2 ^ ty.width : Nat) : Int))

/-- VMIN (Table 9-2). -/
def execVmin (d a b : Reg5) (ty : IType) (m : BitVec 3) (s : State) : Out :=
  vInt s [d, a, b] d a b ty m 4 (fun x y => if x ≤ y then x else y)

/-- VMAX (Table 9-2). -/
def execVmax (d a b : Reg5) (ty : IType) (m : BitVec 3) (s : State) : Out :=
  vInt s [d, a, b] d a b ty m 4 (fun x y => if y ≤ x then x else y)

/-- VABS: the most negative value stays itself (Table 9-2). -/
def execVabs (d a : Reg5) (ty : IType) (m : BitVec 3) (s : State) : Out :=
  vInt s [d, a] d a a ty m 4 (fun x _ => if x < 0 then -x else x)

/-- VNEG (Table 9-2). -/
def execVneg (d a : Reg5) (ty : IType) (m : BitVec 3) (s : State) : Out :=
  vInt s [d, a] d a a ty m 4 (fun x _ => -x)

/-- An element-wise operation on bit patterns (R172): f answers the result from the unsigned elements. -/
def vBits (s : State) (d a b : Reg5) (ty : IType) (m : BitVec 3) (f : Nat → Nat → Nat) : Out :=
  withVregs s (fieldNums [d, a, b]) (fun _ =>
    let c := s.cur
    let w := ty.width
    finishBeats s c 4
      [elemsWrite d.toNat w (c.active m w) (fun i => f (vElem (c.vreg a.toNat) w i) (vElem (c.vreg b.toNat) w i))] 0)

/-- VAND (Table 9-2). -/
def execVand (d a b : Reg5) (ty : IType) (m : BitVec 3) (s : State) : Out :=
  vBits s d a b ty m (fun x y => x &&& y)

/-- VOR (Table 9-2). -/
def execVor (d a b : Reg5) (ty : IType) (m : BitVec 3) (s : State) : Out :=
  vBits s d a b ty m (fun x y => x ||| y)

/-- VXOR (Table 9-2). -/
def execVxor (d a b : Reg5) (ty : IType) (m : BitVec 3) (s : State) : Out :=
  vBits s d a b ty m (fun x y => x ^^^ y)

/-- VANDN (Table 9-2). -/
def execVandn (d a b : Reg5) (ty : IType) (m : BitVec 3) (s : State) : Out :=
  vBits s d a b ty m (fun x y => x &&& (2 ^ ty.width - 1 - y))

/-- VSLL: 0 for an amount of w or more (Table 9-2). -/
def execVsll (d a b : Reg5) (ty : IType) (m : BitVec 3) (s : State) : Out :=
  vBits s d a b ty m (fun x k => if k < ty.width then x * 2 ^ k else 0)

/-- VSRL: 0 for an amount of w or more (Table 9-2). -/
def execVsrl (d a b : Reg5) (ty : IType) (m : BitVec 3) (s : State) : Out :=
  vBits s d a b ty m (fun x k => if k < ty.width then x / 2 ^ k else 0)

/-- VSRA: by the sign of the element's bits; an amount of w or more fills with the sign (Table 9-2). -/
def execVsra (d a b : Reg5) (ty : IType) (m : BitVec 3) (s : State) : Out :=
  vBits s d a b ty m (fun x k => truncN (sintN x ty.width / ((2 ^ min k (ty.width - 1) : Nat) : Int)) ty.width)

/-- VSEL: a where active, else b; every element is written (Table 9-2). -/
def execVsel (d a b : Reg5) (ty : IType) (m : BitVec 3) (s : State) : Out :=
  withVregs s (fieldNums [d, a, b]) (fun _ =>
    let c := s.cur
    let w := ty.width
    finishBeats s c 4
      [elemsWrite d.toNat w (fun _ => true)
        (fun i => if c.active m w i then vElem (c.vreg a.toNat) w i else vElem (c.vreg b.toNat) w i)] 0)

/-- The mask that a comparison writes (R173, R186): the bit of a container is whether every element in it passes; a
64-bit element's two bits are its own. Containers whose first element is not active keep their bits. -/
def cmpMask (w : Nat) (old : MaskReg) (act pass : Nat → Bool) : MaskReg :=
  let bit := fun (j : Nat) =>
    if w ≤ 32 then
      let p := 32 / w
      if act (j * p) then (upTo p).all (fun e => pass (j * p + e)) else old.getLsbD j
    else if act (j / 2) then pass (j / 2) else old.getLsbD j
  BitVec.ofNat 128 (ofElemsN 1 (fun j => if bit j then 1 else 0) 128)

/-- VCMP (R173). -/
def vcmp (s : State) (d a b : Reg5) (ty : IType) (m : BitVec 3) (cond : Cond) : Out :=
  withVregs s (fieldNums [a, b]) (fun _ =>
    let c := s.cur
    let w := ty.width
    finishMask s c 4 d.toNat
      (cmpMask w (c.maskReg d.toNat) (c.active m w)
        (fun i => Cond.int cond (c.ielem a.toNat ty i) (c.ielem b.toNat ty i))) 0)

/-- VCMP.eq (Table 9-3). -/
def execVcmpEq (d a b : Reg5) (ty : IType) (m : BitVec 3) (s : State) : Out := vcmp s d a b ty m .eq

/-- VCMP.ne (Table 9-3). -/
def execVcmpNe (d a b : Reg5) (ty : IType) (m : BitVec 3) (s : State) : Out := vcmp s d a b ty m .ne

/-- VCMP.lt (Table 9-3). -/
def execVcmpLt (d a b : Reg5) (ty : IType) (m : BitVec 3) (s : State) : Out := vcmp s d a b ty m .lt

/-- VCMP.le (Table 9-3). -/
def execVcmpLe (d a b : Reg5) (ty : IType) (m : BitVec 3) (s : State) : Out := vcmp s d a b ty m .le

/-- VCMP.gt (Table 9-3). -/
def execVcmpGt (d a b : Reg5) (ty : IType) (m : BitVec 3) (s : State) : Out := vcmp s d a b ty m .gt

/-- VCMP.ge (Table 9-3). -/
def execVcmpGe (d a b : Reg5) (ty : IType) (m : BitVec 3) (s : State) : Out := vcmp s d a b ty m .ge

/-! ### Widen, dot products, narrow (R174) -/

/-- Element i of a register, as a member of a type of major 0x23. -/
def Slot.welem (c : Slot) (r : Nat) (ty : WType) (i : Nat) : Int :=
  intOf (vElem (c.vreg r) ty.width i) (wtypeSigned ty) ty.width

/-- A widening operation into the pair at vd (R174). -/
def vwiden (s : State) (d a b : Reg5) (ty : WType) (m : BitVec 3) (f : Int → Int → Int) : Out :=
  withVregs s (group d 2 ++ fieldNums [a, b]) (fun _ =>
    let c := s.cur
    let w := ty.width
    finishBeats s c 8
      (groupWrites d.toNat 2 (2 * w) (c.active m w)
        (fun i => truncN (f (c.welem a.toNat ty i) (c.welem b.toNat ty i)) (2 * w))) 0)

/-- VWADD (R174). -/
def execVwadd (d a b : Reg5) (ty : WType) (m : BitVec 3) (s : State) : Out := vwiden s d a b ty m (fun x y => x + y)

/-- VWSUB (R174). -/
def execVwsub (d a b : Reg5) (ty : WType) (m : BitVec 3) (s : State) : Out := vwiden s d a b ty m (fun x y => x - y)

/-- VWMUL (R174). -/
def execVwmul (d a b : Reg5) (ty : WType) (m : BitVec 3) (s : State) : Out := vwiden s d a b ty m (fun x y => x * y)

/-- A dot product of p products per 32-bit lane, added to vd; the total is exact (R174, R79). -/
def vdot (s : State) (p : Nat) (d a b : Reg5) (ty : WType) (sat : Bool) (m : BitVec 3) : Out :=
  withVregs s (fieldNums [d, a, b]) (fun _ =>
    let c := s.cur
    let sg := wtypeSigned ty
    let total := fun (j : Nat) => (upTo p).foldl
      (fun (x : Int) (k : Nat) => x + c.welem a.toNat ty (p * j + k) * c.welem b.toNat ty (p * j + k))
      (intOf (vElem (c.vreg d.toNat) 32 j) sg 32)
    finishBeats s c 4
      [elemsWrite d.toNat 32 (c.active m 32)
        (fun j => truncN (if sat then satN (total j) sg 32 else total j) 32)] 0)

/-- VDOT2 (R174). -/
def execVdot2 (d a b : Reg5) (ty : WType) (sat : Bool) (m : BitVec 3) (s : State) : Out := vdot s 2 d a b ty sat m

/-- VDOT4 (R174). -/
def execVdot4 (d a b : Reg5) (ty : WType) (sat : Bool) (m : BitVec 3) (s : State) : Out := vdot s 4 d a b ty sat m

/-- VNARROW (R174): the type is the destination's; the source is the pair at va. -/
def execVnarrow (d a : Reg5) (ty : WType) (sat : Bool) (m : BitVec 3) (s : State) : Out :=
  withVregs s (d.toNat :: group a 2) (fun _ =>
    let c := s.cur
    let w := ty.width
    let sg := wtypeSigned ty
    finishBeats s c 8
      [elemsWrite d.toNat w (c.active m w) (fun i =>
        let x := intOf (c.groupElem a.toNat 2 (2 * w) i) sg (2 * w)
        truncN (if sat then satN x sg w else x) w)] 0)

/-! ### Permute, broadcast, slide (R175) -/

/-- Element j of va followed by vb (R175). -/
def Slot.pairElem (c : Slot) (a b w j : Nat) : Nat :=
  let n := 4096 / w
  if j < n then vElem (c.vreg a) w j else vElem (c.vreg b) w (j - n)

/-- A movement of elements: f answers element i of the result from the slot as it stands at the first beat. -/
def vMove (s : State) (d a b : Reg5) (ty : IType) (m : BitVec 3) (beats : Nat) (f : Slot → Nat → Nat → Nat) : Out :=
  withVregs s (fieldNums [d, a, b]) (fun _ =>
    let c := s.cur
    let w := ty.width
    finishBeats s c beats [elemsWrite d.toNat w (c.active m w) (f c w)] 0)

/-- VPERM (R175). -/
def execVperm (d a b : Reg5) (ty : IType) (m : BitVec 3) (s : State) : Out :=
  vMove s d a b ty m 8 (fun c w i =>
    let g := min (2 ^ w) (4096 / w)
    vElem (c.vreg a.toNat) w (i - i % g + vElem (c.vreg b.toNat) w i % g))

/-- VSHUF (R175): the indices are the old elements of vd. -/
def execVshuf (d a b : Reg5) (ty : IType) (m : BitVec 3) (s : State) : Out :=
  vMove s d a b ty m 8 (fun c w i => c.pairElem a.toNat b.toNat w (vElem (c.vreg d.toNat) w i % (2 * (4096 / w))))

/-- VZIP (R175). -/
def execVzip (d a b : Reg5) (ty : IType) (m : BitVec 3) (s : State) : Out :=
  vMove s d a b ty m 4 (fun c w i => vElem (c.vreg (if i % 2 = 0 then a.toNat else b.toNat)) w (i / 2))

/-- VUNZIP (R175). -/
def execVunzip (d a b : Reg5) (ty : IType) (m : BitVec 3) (s : State) : Out :=
  vMove s d a b ty m 4 (fun c w i => c.pairElem a.toNat b.toNat w (2 * i))

/-- VBCAST (R175). -/
def execVbcast (d a : Reg5) (ty : IType) (m : BitVec 3) (s : State) : Out :=
  withVregs s (fieldNums [d]) (fun _ =>
    withSrc1 s a (fun x c =>
      let w := ty.width
      finishBeats s c 4 [elemsWrite d.toNat w (c.active m w) (fun _ => x.toNat % 2 ^ w)] 0))

/-- VSLIDE (R175). -/
def execVslide (d a b : Reg5) (ty : IType) (m : BitVec 3) (s : State) : Out :=
  withVregs s (fieldNums [d, a]) (fun _ =>
    withSrc1 s b (fun x c =>
      let w := ty.width
      finishBeats s c 4
        [elemsWrite d.toNat w (c.active m w) (fun i =>
          let j : Int := (i : Int) + x.toInt
          if 0 ≤ j ∧ j < ((4096 / w : Nat) : Int) then vElem (c.vreg a.toNat) w j.toNat else 0)] 0))

/-! ### Reduction and scalar moves (R176) -/

/-- VREDI's sum over the active elements, exact before it is cut to 64 bits (R176). -/
def vrediSum (c : Slot) (a : Nat) (ty : IType) (m : BitVec 3) : Int :=
  (upTo (4096 / ty.width)).foldl
    (fun (x : Int) (i : Nat) => if c.active m ty.width i then x + c.ielem a ty i else x) 0

/-- VREDI (R176). -/
def execVredi (d a : Reg5) (ty : IType) (m : BitVec 3) (s : State) : Out :=
  withVregs s (fieldNums [a]) (fun _ =>
    finishScalar s s.cur 6 d (BitVec.ofInt 64 (vrediSum s.cur a.toNat ty m)) 0)

/-- VMVS (R176): 0 for an index beyond the register or an inactive element. -/
def execVmvs (d a b : Reg5) (ty : IType) (m : BitVec 3) (s : State) : Out :=
  withVregs s (fieldNums [a]) (fun _ =>
    withSrc1 s b (fun k c =>
      finish s c d (if k.toNat < 4096 / ty.width && c.active m ty.width k.toNat then
        BitVec.ofInt 64 (c.ielem a.toNat ty k.toNat) else 0)))

/-- VSPL (R176): a is popped before b. -/
def execVspl (d a b : Reg5) (ty : IType) (m : BitVec 3) (s : State) : Out :=
  withVregs s (fieldNums [d]) (fun _ =>
    withSrc2 s a b (fun x k c =>
      let w := ty.width
      finishBeats s c 1
        [elemsWrite d.toNat w (fun i => i == k.toNat && c.active m w i) (fun _ => x.toNat % 2 ^ w)] 0))

/-! ### Mask instructions (R177) -/

/-- A mask instruction that writes a mask register. -/
def maskOp (s : State) (d : Reg5) (m : MaskReg) : Out := finishMask s s.cur 1 d.toNat m 0

/-- MAND (Table 9-7). -/
def execMand (d a b : Reg5) (s : State) : Out := maskOp s d (s.cur.maskReg a.toNat &&& s.cur.maskReg b.toNat)

/-- MOR (Table 9-7). -/
def execMor (d a b : Reg5) (s : State) : Out := maskOp s d (s.cur.maskReg a.toNat ||| s.cur.maskReg b.toNat)

/-- MXOR (Table 9-7). -/
def execMxor (d a b : Reg5) (s : State) : Out := maskOp s d (s.cur.maskReg a.toNat ^^^ s.cur.maskReg b.toNat)

/-- MNOT (Table 9-7). -/
def execMnot (d a : Reg5) (s : State) : Out := maskOp s d (~~~s.cur.maskReg a.toNat)

/-- MPOPC (Table 9-7). -/
def execMpopc (d a : Reg5) (s : State) : Out :=
  finish s s.cur d (BitVec.ofNat 64 (popcN 128 (s.cur.maskReg a.toNat).toNat))

/-- MFIRST: 128 when no bit is one (Table 9-7). -/
def execMfirst (d a : Reg5) (s : State) : Out :=
  finish s s.cur d (BitVec.ofNat 64 (ctzN 128 (s.cur.maskReg a.toNat).toNat))

/-- MMOV (Table 9-7). -/
def execMmov (d a : Reg5) (s : State) : Out := maskOp s d (s.cur.maskReg a.toNat)

end Sys2Proof.Machine
end

