-- ==== Sys2Proof/Machine/VFloat.lean ====
section
/-! DEFINITION. Floating vector instructions and conversions: majors 0x24 and 0x25, and VFREDS
(spec/10_vector_floating_point.md R178 to R191). -/

namespace Sys2Proof.Machine

/-- The rounding mode of an instruction: its override, or FMODE (R179, R84). -/
def roundingOf (c : Slot) : RMode → Rnd
  | .masked _ => rndOfMode c.fmode
  | .static r => r

/-- The governing mask: with an override every lane is active (R179). -/
def maskOf : RMode → BitVec 3
  | .masked m => m
  | .static _ => 0

/-- The width of a floating format. -/
def fwidth (f : FFmt) : Nat := (FFmt.fmt f).w

/-- Beats by width: 16 and 32 bits, or 64 (Table 10-3). -/
def fbeats (f : FFmt) (narrow wide : Nat) : Nat := if fwidth f = 64 then wide else narrow

/-- The results of the active elements, and the flags they raise (R178, R89). -/
def lanes (n : Nat) (act : Nat → Bool) (f : Nat → FRes) : List Nat × BitVec 5 :=
  let rs := (upTo n).map (fun (i : Nat) => if act i then f i else ((0, 0) : FRes))
  (rs.map (fun r => r.1), rs.foldl (fun (x : BitVec 5) (r : FRes) => x ||| r.2) 0)

/-- Write the active elements of vd from lane results, and raise their flags. -/
def finishLanes (s : State) (c : Slot) (beats : Nat) (d : Reg5) (w : Nat) (act : Nat → Bool) (f : Nat → FRes) : Out :=
  let r := lanes (4096 / w) act f
  finishBeats s c beats [elemsWrite d.toNat w act (fun i => r.1.getD i 0)] r.2

/-- An instruction that rounds (R180): F takes the mode and the elements of va, vb and vd. -/
def vfOp (s : State) (regs : List Reg5) (d a b : Reg5) (f : FFmt) (rm : RMode) (beats : Nat)
    (F : Rnd → FVal → FVal → FVal → FRes) : Out :=
  withVregs s (fieldNums regs) (fun _ =>
    let c := s.cur
    let w := fwidth f
    let mode := roundingOf c rm
    let at_ := fun (r : Reg5) (i : Nat) => (FFmt.fmt f).decode (vElem (c.vreg r.toNat) w i)
    finishLanes s c beats d w (c.active (maskOf rm) w) (fun i => F mode (at_ a i) (at_ b i) (at_ d i)))

/-- VFADD (R181). -/
def execVfadd (d a b : Reg5) (f : FFmt) (rm : RMode) (s : State) : Out :=
  vfOp s [d, a, b] d a b f rm (fbeats f 4 8) (fun mode x y _ => (FFmt.fmt f).addV mode x y)

/-- VFSUB (R181). -/
def execVfsub (d a b : Reg5) (f : FFmt) (rm : RMode) (s : State) : Out :=
  vfOp s [d, a, b] d a b f rm (fbeats f 4 8) (fun mode x y _ => (FFmt.fmt f).addV mode x y.negate)

/-- VFMUL (R181). -/
def execVfmul (d a b : Reg5) (f : FFmt) (rm : RMode) (s : State) : Out :=
  vfOp s [d, a, b] d a b f rm (fbeats f 4 8) (fun mode x y _ => (FFmt.fmt f).mulV mode x y)

/-- VFDIV (R181). -/
def execVfdiv (d a b : Reg5) (f : FFmt) (rm : RMode) (s : State) : Out :=
  vfOp s [d, a, b] d a b f rm (fbeats f 16 32) (fun mode x y _ => (FFmt.fmt f).divV mode x y)

/-- VFMA: a × b + c (R182). -/
def execVfma (d a b : Reg5) (f : FFmt) (rm : RMode) (s : State) : Out :=
  vfOp s [d, a, b] d a b f rm (fbeats f 4 8) (fun mode x y z => (FFmt.fmt f).fmaV mode false false x y z)

/-- VFMS: a × b - c (R182). -/
def execVfms (d a b : Reg5) (f : FFmt) (rm : RMode) (s : State) : Out :=
  vfOp s [d, a, b] d a b f rm (fbeats f 4 8) (fun mode x y z => (FFmt.fmt f).fmaV mode false true x y z)

/-- VFNMA: -(a × b) - c (R182). -/
def execVfnma (d a b : Reg5) (f : FFmt) (rm : RMode) (s : State) : Out :=
  vfOp s [d, a, b] d a b f rm (fbeats f 4 8) (fun mode x y z => (FFmt.fmt f).fmaV mode true true x y z)

/-- VFNMS: -(a × b) + c (R182). -/
def execVfnms (d a b : Reg5) (f : FFmt) (rm : RMode) (s : State) : Out :=
  vfOp s [d, a, b] d a b f rm (fbeats f 4 8) (fun mode x y z => (FFmt.fmt f).fmaV mode true false x y z)

/-- VFSQRT (R183). -/
def execVfsqrt (d a : Reg5) (f : FFmt) (rm : RMode) (s : State) : Out :=
  vfOp s [d, a] d a a f rm (fbeats f 16 32) (fun mode x _ _ => (FFmt.fmt f).sqrtV mode x)

/-- VFRCP (R183). -/
def execVfrcp (d a : Reg5) (f : FFmt) (rm : RMode) (s : State) : Out :=
  vfOp s [d, a] d a a f rm (fbeats f 8 16) (fun mode x _ _ => (FFmt.fmt f).rcpV mode x)

/-- VFRSQ (R183). -/
def execVfrsq (d a : Reg5) (f : FFmt) (rm : RMode) (s : State) : Out :=
  vfOp s [d, a] d a a f rm (fbeats f 8 16) (fun mode x _ _ => (FFmt.fmt f).rsqV mode x)

/-- An instruction that does not round (R184, R185): F takes the elements' bits. -/
def vfRaw (s : State) (regs : List Reg5) (d a b : Reg5) (f : FFmt) (m : BitVec 3) (F : Nat → Nat → FRes) : Out :=
  withVregs s (fieldNums regs) (fun _ =>
    let c := s.cur
    let w := fwidth f
    finishLanes s c (fbeats f 4 8) d w (c.active m w)
      (fun i => F (vElem (c.vreg a.toNat) w i) (vElem (c.vreg b.toNat) w i)))

/-- VFMIN (R184). -/
def execVfmin (d a b : Reg5) (f : FFmt) (m : BitVec 3) (s : State) : Out :=
  vfRaw s [d, a, b] d a b f m ((FFmt.fmt f).minMax false)

/-- VFMAX (R184). -/
def execVfmax (d a b : Reg5) (f : FFmt) (m : BitVec 3) (s : State) : Out :=
  vfRaw s [d, a, b] d a b f m ((FFmt.fmt f).minMax true)

/-- VFABS clears the sign bit (R185). -/
def execVfabs (d a : Reg5) (f : FFmt) (m : BitVec 3) (s : State) : Out :=
  vfRaw s [d, a] d a a f m (fun x _ => (x % 2 ^ (fwidth f - 1), 0))

/-- VFNEG inverts the sign bit (R185). -/
def execVfneg (d a : Reg5) (f : FFmt) (m : BitVec 3) (s : State) : Out :=
  vfRaw s [d, a] d a a f m (fun x _ => (x ^^^ 2 ^ (fwidth f - 1), 0))

/-- VFCLASS (R185, Table 10-2). -/
def execVfclass (d a : Reg5) (f : FFmt) (m : BitVec 3) (s : State) : Out :=
  vfRaw s [d, a] d a a f m (fun x _ => ((FFmt.fmt f).classify x, 0))

/-- VFCMP (R186). A container is active when its first element is; every element of an active container raises its
flags. -/
def vfcmp (s : State) (d a b : Reg5) (f : FFmt) (m : BitVec 3) (cond : Cond) : Out :=
  withVregs s (fieldNums [a, b]) (fun _ =>
    let c := s.cur
    let w := fwidth f
    let rs := (upTo (4096 / w)).map (fun (i : Nat) =>
      Cond.float cond ((FFmt.fmt f).decode (vElem (c.vreg a.toNat) w i)) ((FFmt.fmt f).decode (vElem (c.vreg b.toNat) w i)))
    let fl := (upTo (4096 / w)).foldl (fun (x : BitVec 5) (i : Nat) =>
      if c.active m w i then x ||| (rs.getD i (false, 0)).2 else x) 0
    finishMask s c (fbeats f 4 8) d.toNat
      (cmpMask w (c.maskReg d.toNat) (c.active m w) (fun i => (rs.getD i (false, 0)).1)) fl)

/-- VFCMP.eq (R186). -/
def execVfcmpEq (d a b : Reg5) (f : FFmt) (m : BitVec 3) (s : State) : Out := vfcmp s d a b f m .eq

/-- VFCMP.ne (R186). -/
def execVfcmpNe (d a b : Reg5) (f : FFmt) (m : BitVec 3) (s : State) : Out := vfcmp s d a b f m .ne

/-- VFCMP.lt (R186). -/
def execVfcmpLt (d a b : Reg5) (f : FFmt) (m : BitVec 3) (s : State) : Out := vfcmp s d a b f m .lt

/-- VFCMP.le (R186). -/
def execVfcmpLe (d a b : Reg5) (f : FFmt) (m : BitVec 3) (s : State) : Out := vfcmp s d a b f m .le

/-- VFCMP.gt (R186). -/
def execVfcmpGt (d a b : Reg5) (f : FFmt) (m : BitVec 3) (s : State) : Out := vfcmp s d a b f m .gt

/-- VFCMP.ge (R186). -/
def execVfcmpGe (d a b : Reg5) (f : FFmt) (m : BitVec 3) (s : State) : Out := vfcmp s d a b f m .ge

/-! ### Ordered reduction (R188) -/

/-- VFREDS's sum in ascending element order, one rounding per addition, and the flags of every step (R188). -/
def vfredsSum (c : Slot) (f : FFmt) (rm : RMode) (a : Reg5) (start : Nat) : FRes :=
  let w := fwidth f
  let mode := roundingOf c rm
  (upTo (4096 / w)).foldl (fun (x : FRes) (i : Nat) =>
    if c.active (maskOf rm) w i then
      let r := (FFmt.fmt f).addV mode ((FFmt.fmt f).decode x.1) ((FFmt.fmt f).decode (vElem (c.vreg a.toNat) w i))
      (r.1, x.2 ||| r.2)
    else x) (start, 0)

/-- VFREDS (R188). -/
def execVfreds (d a b : Reg5) (f : FFmt) (rm : RMode) (s : State) : Out :=
  withVregs s (fieldNums [a]) (fun _ =>
    withSrc1 s b (fun x c =>
      let w := fwidth f
      let r := vfredsSum c f rm a (x.toNat % 2 ^ w)
      finishScalar s c (4096 / w / 8 + 2) d (BitVec.ofNat 64 r.1) r.2))

/-! ### Conversions (R189 to R191) -/

/-- The rounding mode of a conversion (R189, R72). -/
def convMode (c : Slot) : DynRnd → Rnd
  | some r => r
  | none => rndOfMode c.fmode

/-- The number of registers of the destination and of the source group of a conversion (R190). -/
def convGroups (wd ws : Nat) : Nat × Nat := (max 1 (wd / ws), max 1 (ws / wd))

/-- VCVT (R190). -/
def execVcvt (d a : Reg5) (sat : Bool) (st : EType) (rnd : DynRnd) (dt : EType) (m : BitVec 3) (s : State) : Out :=
  let wd := EType.bits dt
  let ws := EType.bits st
  let (gd, gs) := convGroups wd ws
  withVregs s (group d gd ++ group a gs) (fun _ =>
    let c := s.cur
    let wm := min wd ws
    let act := c.active m wm
    let r := lanes (4096 / wm) act (fun i => convElem dt st (convMode c rnd) sat (c.groupElem a.toNat gs ws i))
    let beats := max (4 * max gd gs) (if wd = 64 ∨ ws = 64 then 8 else 0)
    finishBeats s c beats (groupWrites d.toNat gd wd act (fun i => r.1.getD i 0)) r.2)

/-- The floating format of a VCVTGQ source (R191). -/
def gqSrcFmt : GqSrc → Fmt
  | .f16 => fmtF16
  | .bf16 => fmtBF16
  | .f32 => fmtF32

/-- The data bytes of an encoded block (R92). -/
def blockData (m : Nat) (codes : List Nat) : List Nat :=
  let e := m + 1
  let x := ofElemsN e (fun i => codes.getD i 0) 16
  (upTo (2 * e)).map (fun (j : Nat) => x / 2 ^ (8 * j) % 256)

/-- The register that VCVTGQ writes from its blocks (R191): data planes, metadata from byte 448, every other byte 0. -/
def gqImage (m : Nat) (bs : List GqBlock) : VReg :=
  let data := bs.flatMap (fun b => blockData m b.codes)
  let mt := bs.flatMap (fun b => [b.scale, b.micro])
  vOfElems 8 (fun j => if j < 448 then data.getD j 0 else mt.getD (j - 448) 0)

/-- VCVTGQ (R191): inactive elements count as +0, and every byte of vd is written. -/
def execVcvtgq (d a : Reg5) (sat : Bool) (st : GqSrc) (rnd : DynRnd) (dt : GqFmt) (m : BitVec 3) (s : State) : Out :=
  withVregs s (fieldNums [d, a]) (fun _ =>
    let c := s.cur
    let f := gqSrcFmt st
    let g := GqFmt.m dt
    let val := fun (i : Nat) =>
      if c.active m f.w i then f.decode (vElem (c.vreg a.toNat) f.w i) else FVal.fin { neg := false, m := 0, e := 0 }
    let bs := (upTo (4096 / f.w / 16)).map (fun (b : Nat) =>
      gqEncode ((upTo 16).map (fun (i : Nat) => val (16 * b + i))) g 0 (convMode c rnd) sat)
    finishBeats s c 8 [{ reg := d.toNat, mask := BitVec.allOnes 4096, val := gqImage g bs }]
      (bs.foldl (fun (x : BitVec 5) (b : GqBlock) => x ||| b.flags) 0))

end Sys2Proof.Machine
end

