-- ==== Sys2Proof/Machine/Predicates.lean ====
section
/-! DEFINITION. Exact geometric predicates: major 0x29 (spec/11_geometric_predicates.md R192 to R205). -/

namespace Sys2Proof.Machine

/-- The predicates of Table 11-1. -/
inductive Pred where
  | ori2 | ori3 | incir | insph | segx
deriving DecidableEq, Repr

/-- The points of a predicate and the coordinates of each (Table 11-1). -/
def predShape : Pred → Nat × Nat
  | .ori2 => (3, 2)
  | .ori3 => (3, 3)
  | .incir => (4, 2)
  | .insph => (5, 3)
  | .segx => (4, 2)

/-- The coordinate registers of a predicate (Table 11-1). -/
def predCoords (p : Pred) : Nat := (predShape p).1 * (predShape p).2

/-- The stage-3 beats of a lane, or of an orientation of PSEGX, for f64; f32 takes half (Table 11-3). -/
def predExact : Pred → Nat
  | .ori2 => 16
  | .ori3 => 24
  | .incir => 40
  | .insph => 64
  | .segx => 16

/-- A matrix by its rows. -/
abbrev Mat := List (List Int)

/-- The matrix without its first row and without column j. -/
def minorOf (rows : Mat) (j : Nat) : Mat := (rows.drop 1).map (fun r => r.eraseIdx j)

/-- The determinant of the n by n matrix, along its first row. -/
def detN : Nat → Mat → Int
  | 0, _ => 1
  | n + 1, rows =>
    (upTo (n + 1)).foldl (fun (x : Int) (j : Nat) =>
      let t := (rows.headD []).getD j 0 * detN n (minorOf rows j)
      if j % 2 = 0 then x + t else x - t) 0

/-- The permanent of the n by n matrix of absolute values (R196). -/
def permN : Nat → Mat → Int
  | 0, _ => 1
  | n + 1, rows =>
    (upTo (n + 1)).foldl (fun (x : Int) (j : Nat) =>
      x + ((rows.headD []).getD j 0).natAbs * permN n (minorOf rows j)) 0

/-- The sign of an integer. -/
def signOf (x : Int) : Int := if 0 < x then 1 else if x < 0 then -1 else 0

/-- A point by its coordinates. -/
abbrev Point := List Int

/-- The sum of the squares of some coordinates. -/
def normSq (p : Point) : Int := p.foldl (fun (x : Int) (y : Int) => x + y * y) 0

/-- p - q, coordinate by coordinate. -/
def minus (p q : Point) : Point := p.zipWith (fun x y => x - y) q

/-- The matrix whose determinant is D (Table 11-2). -/
def predMatrix (p : Pred) (pts : List Point) : Mat :=
  match p with
  | .ori3 => pts
  | .ori2 | .segx => (pts.drop 1).map (fun q => minus q (pts.headD []))
  | .incir | .insph =>
    let l := pts.getLastD []
    pts.dropLast.map (fun q => minus q l ++ [normSq (minus q l)])

/-- The row form (Table 11-2). -/
def rowForm (p : Pred) (pts : List Point) : Mat :=
  match p with
  | .ori3 => pts
  | .ori2 | .segx => pts.map (fun q => q ++ [1])
  | .incir | .insph => pts.map (fun q => q ++ [normSq q, 1])

/-- K, the number of perturbed columns (R201). -/
def predColumns : Pred → Nat
  | .ori2 | .segx => 2
  | .ori3 | .incir => 3
  | .insph => 4

/-- D and P of some points (R196, R198). -/
def predDP (p : Pred) (pts : List Point) : Int × Int :=
  let m := predMatrix p pts
  (detN m.length m, permN m.length m)

/-! ### The symbolic tie-break (R201) -/

/-- The sets of perturbed entries, no two in one row or one column, in ascending order of their power of ε: with the
entries in ascending order, the sets of the first entries come before those that hold the next. -/
def entrySets : List (Nat × Nat) → List (List (Nat × Nat))
  | [] => [[]]
  | e :: lower =>
    let l := entrySets lower
    l ++ (l.filter (fun t => t.all (fun f => f.1 != e.1 && f.2 != e.2))).map (fun t => e :: t)

/-- The entries in descending order of their power of ε: rank first, then column. `rows` maps a rank to its row. -/
def entriesDown (k : Nat) (rows : List Nat) : List (Nat × Nat) :=
  (rows.flatMap (fun r => (upTo k).map (fun (j : Nat) => (r, j)))).reverse

/-- The coefficient of a set: the determinant in which each row of the set holds 1 in its column of the set and 0
elsewhere. -/
def setCoeff (m : Mat) (t : List (Nat × Nat)) : Int :=
  let n := m.length
  detN n ((upTo n).map (fun (i : Nat) => match t.find? (fun e => e.1 == i) with
    | some e => (upTo n).map (fun (j : Nat) => if j = e.2 then (1 : Int) else 0)
    | none => m.getD i []))

/-- The sign of D(ε) of a row form whose rows stand in the order of rank given: its nonzero coefficient of lowest
power (R201). -/
def symbolicSign (k : Nat) (m : Mat) (rows : List Nat) : Int :=
  match ((entrySets (entriesDown k rows)).map (setCoeff m)).find? (fun x => x != 0) with
  | some x => signOf x
  | none => 0

/-- The positions of some points by ascending index: position r of the result is the row of rank r (R201). -/
def rankRows (idx : List Nat) : List Nat :=
  (sortNats idx).flatMap (fun v => (upTo idx.length).filter (fun i => idx.getD i 0 == v))

/-- No two points carry equal indices (R202). -/
def pointsDistinct (idx : List Nat) : Bool := (sortNats idx).length == idx.length

/-- The sign of a predicate other than PSEGX on some points, with the point indices under .sos (R196, R201, R202). -/
def predSign (p : Pred) (pts : List Point) (sos : Option (List Nat)) : Int :=
  let d := (predDP p pts).1
  if d ≠ 0 then signOf d
  else match sos with
    | some idx => if pointsDistinct idx then symbolicSign (predColumns p) (rowForm p pts) (rankRows idx) else 0
    | none => 0

/-! ### Segment crossing (R203) -/

/-- The points of the four orientations: (a, b, c), (a, b, d), (c, d, a), (c, d, b). -/
def segTriples : List (List Nat) := [[0, 1, 2], [0, 1, 3], [2, 3, 0], [2, 3, 1]]

/-- The points at some positions. -/
def pick {α : Type} (xs : List α) (dflt : α) (is : List Nat) : List α := is.map (fun i => xs.getD i dflt)

/-- A value within the closed range of two others. -/
def within (v x y : Int) : Bool := decide (min x y ≤ v) && decide (v ≤ max x y)

/-- q lies in the box of the segment from p to r (R203). -/
def inBox (q p r : Point) : Bool :=
  within (q.getD 0 0) (p.getD 0 0) (r.getD 0 0) && within (q.getD 1 0) (p.getD 1 0) (r.getD 1 0)

/-- Two closed ranges share a value. -/
def overlap (a b c d : Int) : Bool := decide (max (min a b) (min c d) ≤ min (max a b) (max c d))

/-- The code of a pair of segments from its orientations (R203). -/
def segCode (pts : List Point) (o : List Int) : Int :=
  let pt := fun (i : Nat) => pts.getD i []
  let o1 := o.getD 0 0
  let o2 := o.getD 1 0
  let o3 := o.getD 2 0
  let o4 := o.getD 3 0
  let co := fun (i j : Nat) => (pt i).getD j 0
  if o1 * o2 < 0 ∧ o3 * o4 < 0 then 1
  else if o1 = 0 ∧ o2 = 0 ∧ o3 = 0 ∧ o4 = 0 ∧ overlap (co 0 0) (co 1 0) (co 2 0) (co 3 0) = true ∧
      overlap (co 0 1) (co 1 1) (co 2 1) (co 3 1) = true then -1
  else if (o1 = 0 ∧ inBox (pt 2) (pt 0) (pt 1) = true) ∨ (o2 = 0 ∧ inBox (pt 3) (pt 0) (pt 1) = true) ∨
      (o3 = 0 ∧ inBox (pt 0) (pt 2) (pt 3) = true) ∨ (o4 = 0 ∧ inBox (pt 1) (pt 2) (pt 3) = true) then -1
  else 0

/-- The result of a lane (R196, R201 to R203). -/
def predResult (p : Pred) (pts : List Point) (sos : Option (List Nat)) : Int :=
  match p with
  | .segx =>
    let ok := match sos with
      | some idx => pointsDistinct idx
      | none => false
    segCode pts (segTriples.map (fun t =>
      predSign .ori2 (pick pts [] t) (if ok then sos.map (fun idx => pick idx 0 t) else none)))
  | _ => predSign p pts sos

/-! ### Escalation (R198, R199) -/

/-- A ratio above 2^-k: |D| / P, and 0 when P is 0 (R198). -/
def passes (k : Nat) (dp : Int × Int) : Bool := decide (dp.2 < dp.1.natAbs * (2 ^ k : Nat))

/-- The determinants that a lane's stage depends on: D, or the four orientations of PSEGX (R198). -/
def laneDPs (p : Pred) (pts : List Point) : List (Int × Int) :=
  match p with
  | .segx => segTriples.map (fun t => predDP .ori2 (pick pts [] t))
  | _ => [predDP p pts]

/-- The exponents of the thresholds τ1 and τ2 (R198). -/
def thresholds (f64 : Bool) : Nat × Nat := if f64 then (40, 90) else (16, 40)

/-- Whether a lane passes to stage 2, and the number of its determinants that fail the stage-2 test (R198). -/
def laneStage (p : Pred) (f64 : Bool) (pts : List Point) : Bool × Nat :=
  let dps := laneDPs p pts
  let t := thresholds f64
  (dps.any (fun x => !passes t.1 x), (dps.filter (fun x => !passes t.2 x)).length)

/-- The beat count (R199): `lanes` holds, for each finite active lane, whether it passes to stage 2, and how many stage-3
costs it has. -/
def predBeats (p : Pred) (f64 : Bool) (lanes : List (Bool × Nat)) : Nat :=
  let u2 := (lanes.filter (fun l => l.1)).length
  let n3 := lanes.foldl (fun (n : Nat) (l : Bool × Nat) => if l.1 then n + l.2 else n) 0
  (if f64 then 8 else 4) + 16 * ceilDiv u2 8 + (if f64 then predExact p else predExact p / 2) * n3

/-- The coordinates of a lane as decoded values. -/
def laneValues (c : Slot) (a n : Nat) (f64 : Bool) (i : Nat) : List FVal :=
  let f := if f64 then fmtF64 else fmtF32
  (upTo n).map (fun (k : Nat) => f.decode (vElem (c.vreg (a + k)) f.w i))

/-- A finite value. -/
def FVal.isFin : FVal → Bool
  | .fin _ => true
  | _ => false

/-- Finite values as integers at one common exponent, their least: signs, ratios and comparisons are those of the exact
values. -/
def commonInts (vs : List FVal) : List Int :=
  let ds := vs.filterMap (fun v => match v with
    | .fin x => some x
    | _ => none)
  let e := ds.foldl (fun (m : Int) (x : Dy) => if x.m = 0 then m else min m x.e) (ds.foldl (fun (m : Int) (x : Dy) => max m x.e) (-1074))
  ds.map (fun x => if x.m = 0 then 0 else x.scaled e)

/-- Cut coordinates into points of k coordinates. -/
def toPoints (k : Nat) : Nat → List Int → List Point
  | 0, _ => []
  | n + 1, xs => xs.take k :: toPoints k n (xs.drop k)

/-- The point indices of a lane: F bits for each point (R201). -/
def laneIndices (c : Slot) (r n : Nat) (f64 : Bool) (i : Nat) : List Nat :=
  let w := if f64 then 64 else 32
  let f := if f64 then 12 else 6
  (upTo n).map (fun (p : Nat) => vElem (c.vreg r) w i / 2 ^ (f * p) % 2 ^ f)

/-- TVAL of PNONFIN from the offending lanes (R204). -/
def badLanes (f64 : Bool) (bad : List Nat) : Word :=
  BitVec.ofNat 64 ((sortNats (bad.map (fun i => if f64 then i else i / 2))).foldl (fun (x : Nat) (j : Nat) => x + 2 ^ j) 0)

/-- Count the lanes decided at each stage (Table 26-5); a non-finite lane under .nf is decided at stage 1 (R204). -/
def countStages (s : State) (c : Slot) (stages : List (Bool × Nat)) (nonfinite : Nat) : State :=
  match c.owner with
  | none => s
  | some id =>
    let n3 := (stages.filter (fun l => l.1 && decide (0 < l.2))).length
    let n2 := (stages.filter (fun l => l.1)).length - n3
    let n1 := stages.length - n2 - n3 + nonfinite
    ((s.count id c.phys 0x06 n1).count id c.phys 0x07 n2).count id c.phys 0x08 n3

/-- A predicate (R199). -/
def predicate (s : State) (p : Pred) (d a : Reg5) (f64 nf sos : Bool) (m : BitVec 3) : Out :=
  let (n, k) := predShape p
  let nc := predCoords p
  withVregs s (d.toNat :: group a (if sos then nc + 1 else nc)) (fun _ =>
    let c := s.cur
    let w := if f64 then 64 else 32
    let act := (upTo (4096 / w)).filter (c.active m w)
    let vals := act.map (fun (i : Nat) => (i, laneValues c a.toNat nc f64 i))
    let bad := (vals.filter (fun v => !(v.2.all FVal.isFin))).map (fun v => v.1)
    if !bad.isEmpty && !nf then trapAtBeat s c (if f64 then 8 else 4) .pnonfin (badLanes f64 bad)
    else
      let fin := (vals.filter (fun v => v.2.all FVal.isFin)).map (fun v => (v.1, toPoints k n (commonInts v.2)))
      let idx := fun (i : Nat) => if sos then some (laneIndices c (a.toNat + nc) n f64 i) else none
      let res := fin.map (fun v => (v.1, truncN (predResult p v.2 (idx v.1)) 32)) ++ bad.map (fun i => (i, 2))
      let at_ := fun (i : Nat) => res.find? (fun v => v.1 == i)
      let stages := fin.map (fun v => laneStage p f64 v.2)
      let s := countStages s c stages bad.length
      finishBeats s c (predBeats p f64 stages)
        [elemsWrite d.toNat 32 (fun i => (at_ i).isSome) (fun i => ((at_ i).map (fun v => v.2)).getD 0)]
        (if bad.isEmpty then 0 else flagNV))

/-- PORI2 (R194 to R204). -/
def execPori2 (d a : Reg5) (f64 nf sos : Bool) (m : BitVec 3) (s : State) : Out := predicate s .ori2 d a f64 nf sos m

/-- PORI3 (R194 to R204). -/
def execPori3 (d a : Reg5) (f64 nf sos : Bool) (m : BitVec 3) (s : State) : Out := predicate s .ori3 d a f64 nf sos m

/-- PINCIR (R194 to R204). -/
def execPincir (d a : Reg5) (f64 nf sos : Bool) (m : BitVec 3) (s : State) : Out := predicate s .incir d a f64 nf sos m

/-- PINSPH (R194 to R204). -/
def execPinsph (d a : Reg5) (f64 nf sos : Bool) (m : BitVec 3) (s : State) : Out := predicate s .insph d a f64 nf sos m

/-- PSEGX (R194 to R204). -/
def execPsegx (d a : Reg5) (f64 nf sos : Bool) (m : BitVec 3) (s : State) : Out := predicate s .segx d a f64 nf sos m

end Sys2Proof.Machine
end

