-- ==== Sys2Proof/Machine/Referee.lean ====
section
/-! DEFINITION. The referee-only instructions: majors 0x3C to 0x3E (spec/27_fabric_host_and_firmware.md R406 to
R408). -/

namespace Sys2Proof.Machine

/-- The first location of some bytes of the referee core's own scratchpad, or the trap of the first byte beyond it
(R406). -/
def refRange (c : Slot) (x : Word) (n : Nat) : Except Refused Nat :=
  if x.toNat + n ≤ 0x40000 then .ok (keyOf Space.ref (coreOf c.phys) x.toNat)
  else .error (.bounds, BitVec.ofNat 64 (max x.toNat 0x40000))

/-- RFETCH: the oldest item of the core's own inbox (R408; notes/assumptions/64.md). -/
def execRfetch (d a : Reg5) (s : State) : Out :=
  withSrc1 s a (fun x c =>
    withDest s c d (fun _ =>
      if x.toNat % 64 ≠ 0 then trap s c .misalign x
      else match s.inbox.find? (fun i => i.core == coreOf c.phys) with
        | none => finish s c d 0
        | some i =>
          let rest := dropFirst (fun i => i.core == coreOf c.phys) s.inbox
          let data := i.bytes.take 32768
          match refRange c x data.length with
          | .error (cause, tval) => trap s c cause tval
          | .ok k =>
            let t := ({ s with inbox := rest, cur := c }).land (cellsAt k data)
            finish t t.cur d
              (BitVec.ofNat 64 (i.node % 2 ^ 16 * 2 ^ 48 + i.kind % 2 ^ 16 * 2 ^ 32 + data.length))))

/-- The mask of SIGWAIT on a core: bit 0 while its inbox holds an item, the other bits as its events are pending (R408). -/
def State.signals (s : State) (core : Nat) : BitVec 6 :=
  (s.refPending core &&& 0b111110#6) ||| (if s.inbox.any (fun i => i.core == core) then 1 else 0)

/-- SIGWAIT with something to report: the mask is written and the reported events clear (R408). -/
def sigDone (s : State) (c : Slot) (d : Reg5) : Out :=
  finish { s with refEvents := s.refEvents.filter (fun e => e.1 != coreOf c.phys) } c d ((s.signals (coreOf c.phys)).setWidth 64)

/-- SIGWAIT (R408). -/
def execSigwait (d : Reg5) (s : State) : Out :=
  withDest s s.cur d (fun _ => if s.signals (coreOf s.cur.phys) = 0 then waitOn s s.cur (.sigwait d) else sigDone s s.cur d)

/-- The outbound queue has no room; an empty one has (R408). -/
def State.outFull (s : State) : Bool := !s.outq.isEmpty && Config.outboundFull s.outq.length

/-- DISPATCH goes: the referee's earlier stores have landed and the queue has room (R408). -/
def State.dispatchReady (s : State) (c : Slot) : Bool := s.storesDone c.phys && !s.outFull

/-- A message goes to what its header, the first 16 bytes, names: a node, on channel 0 or 1, or a unit on the module, which takes
it at once (R408; notes/assumptions/64.md). -/
def State.dispatchOut (s : State) (bytes : List Byte) : State :=
  match Config.dispatchTo (bytes.take 16) with
  | none => s
  | some (node, one) =>
    { s with outq := s.outq ++ [({ node := node.toNat, vc := if one then 1 else 0, bytes := bytes } : OutMsg)] }

/-- DISPATCH (R408). -/
def execDispatch (d a b : Reg5) (s : State) : Out :=
  withSrc2 s a b (fun x n c =>
    withDest s c d (fun _ =>
      if n.toNat < 16 ∨ 32768 < n.toNat then trap s c .bounds n
      else match refRange c x n.toNat with
        | .error (cause, tval) => trap s c cause tval
        | .ok k =>
          let bytes := s.readCoreN (coreOf c.phys) k n.toNat
          if s.dispatchReady c then finish (s.dispatchOut bytes) c d 0
          else waitOn s c (.dispatch d bytes)))

/-- The number of pages of a context's device memory (R250). -/
def Ctx.pages (x : Ctx) : Nat := if x.layout.g = 0 then 0 else x.pageOf (x.layout.g - 1) + 1

/-- The number of controllers that serve a context's pages: one a stack (R250, R256). -/
def controllersOf (s : State) (id : Nat) : Nat :=
  match s.ctxAt id with
  | some x => min x.pages (2 * x.layout.dies.length)
  | none => 0

/-- KEYLD's operand b: slot, context, and whether its upper bits are zero (R408). -/
def keyOperand (b : Word) : Nat × Nat × Bool := (bits b 9 0, bits b 25 10, bits b 63 26 == 0)

/-- KEYLD (R408): the thread waits for every controller's acknowledgement. -/
def execKeyld (d a b : Reg5) (s : State) : Out :=
  withSrc2 s a b (fun k o c =>
    withDest s c d (fun _ =>
      let (slot, ctx, ok) := keyOperand o
      if !ok then trap s c .bounds o
      else if k = 0 then waitOn (s.installKey slot ctx none) c (.keyld d (controllersOf s ctx))
      else match refRange c k 64 with
        | .error (cause, tval) => trap s c cause tval
        | .ok loc =>
          waitOn (s.installKey slot ctx (some (s.readCoreN (coreOf c.phys) loc 64))) c (.keyld d (controllersOf s ctx))))

end Sys2Proof.Machine
end

