-- ==== Sys2Proof/Machine/VMem.lean ====
section
/-! DEFINITION. Vector loads and stores (spec/12_scratchpads_and_windows.md R227, R228; R220 to R222 through
windows). -/

namespace Sys2Proof.Machine

/-- The active elements of a vector access, in ascending order. -/
def activeIdx (c : Slot) (m : BitVec 3) (w : Nat) : List Nat := (upTo (4096 / w)).filter (c.active m w)

/-- The beats of a strided or indexed access (R228). -/
def stridedBeats (w : Nat) : Nat := max 8 (4096 / w / 16)

/-- A vector load whose elements have been checked: from the own core scratchpad it is written at its last beat, else
its thread waits for its last element (R228). -/
def vloadGo (s : State) (c : Slot) (d : Reg5) (ty : EType) (win : Option (Word × Nat)) (elems : List (Nat × Word))
    (es : List VElem) (beats : Nat) : Out :=
  if es.all (fun e => e.keys.all (fun k => ownCore c k.1)) && !vloadHeld s c es then
    match vloadError s es with
    | some (i, e) => .next (fatalTrap s c .uncorr (elemAddr elems i) c.ir e.place)
    | none =>
      let r := vloadValues s c ty win es
      finishBeats s c beats [valuesWrite d.toNat (EType.bits ty) r.1] r.2
  else waitOn s { c with busy := beats - 1 } (.vload d ty win elems [] 0)

/-- A vector load of plain elements at some addresses. -/
def vloadPlain (s : State) (c : Slot) (d : Reg5) (ty : EType) (acc : Acc) (elems : List (Nat × Word)) (beats : Nat) : Out :=
  match plainElems s c (elemBytes ty) acc elems with
  | .error (cause, tval) => trap s c cause tval
  | .ok es => vloadGo s c d ty none elems es beats

/-- The descriptor of the window that a consecutive access begins in, when it is not the identity (R220), with the
window's number, the offset and the context. An access that begins in an identity window and runs on into a window of another
format is a plain access throughout: the spec does not say which descriptor rules its later elements (the model's choice,
notes/assumptions/28.md). -/
def formatWindow (s : State) (c : Slot) (base : Word) : Option (Word × Nat × Nat × Ctx) :=
  match windowOf c base, s.ctxOf c with
  | some (w, o), some x => if winFmt (c.win w) = 31 then none else some (c.win w, w, o, x)
  | _, _ => none

/-- VLD (R227, R228). -/
def execVld (d a : Reg5) (ty : EType) (m : BitVec 3) (s : State) : Out :=
  withVregs s [d.toNat] (fun _ =>
    withSrc1 s a (fun base c =>
      let idx := activeIdx c m (EType.bits ty)
      match formatWindow s c base with
      | some (desc, w, o, x) =>
        let elems := idx.map (fun i => (i, base + BitVec.ofNat 64 (winData desc o i).1 - BitVec.ofNat 64 o))
        if idx.isEmpty then finishBeats s c 4 [] 0
        else match winCheck x c ty false desc base w o idx with
          | some (cause, tval) => trap s c cause tval
          | none =>
            vloadGo s c d ty (some (desc, o)) elems
              (idx.map (fun i => ({ i := i, keys := winKeys x c desc o i } : VElem))) 4
      | none =>
        vloadPlain s c d ty .vload (idx.map (fun i => (i, base + BitVec.ofNat 64 (elemBytes ty * i)))) 4))

/-- VLDS (R227, R228). -/
def execVlds (d a b : Reg5) (ty : EType) (m : BitVec 3) (s : State) : Out :=
  withVregs s [d.toNat] (fun _ =>
    withSrc2 s a b (fun base stride c =>
      vloadPlain s c d ty .vidxLoad
        ((activeIdx c m (EType.bits ty)).map (fun i => (i, base + BitVec.ofNat 64 i * stride)))
        (stridedBeats (EType.bits ty))))

/-- The address of element i of an indexed access (R227). -/
def indexedAddr (c : Slot) (b : Reg5) (ty : EType) (base : Word) (i : Nat) : Word :=
  base + BitVec.ofNat 64 (elemBytes ty * vElem (c.vreg b.toNat) (EType.bits ty) i)

/-- VLDX (R227, R228). -/
def execVldx (d a b : Reg5) (ty : EType) (m : BitVec 3) (s : State) : Out :=
  withVregs s (fieldNums [d, b]) (fun _ =>
    withSrc1 s a (fun base c =>
      vloadPlain s c d ty .vidxLoad
        ((activeIdx c m (EType.bits ty)).map (fun i => (i, indexedAddr c b ty base i)))
        (stridedBeats (EType.bits ty))))

/-! ### Stores -/

/-- A vector store whose elements have been checked: its writes, one for each aligned 64-byte block that its active elements
touch, enter the store buffer at its last beat, a later element standing over an earlier one (R228, R223). `unit` are the
bytes of an element. -/
def vstoreGo (s : State) (c : Slot) (cells : List Host.Cell) (unit : Nat) (flags : BitVec 5) (beats : Nat) : Out :=
  startBeats s c beats { lateNone c with stores := unitGroups 64 cells, unit := unit, flags := flags }

/-- The cells of a store's elements at their checked locations, from the elements' values. -/
def elemCells (es : List VElem) (val : Nat → Nat) : List Host.Cell :=
  es.flatMap (fun e => match e.keys with
    | (k, n) :: _ => cellsAt k (leBytes n (val e.i))
    | [] => [])

/-- A vector store of plain elements at some addresses. -/
def vstorePlain (s : State) (c : Slot) (d : Reg5) (ty : EType) (acc : Acc) (elems : List (Nat × Word)) (beats : Nat) :
    Out :=
  match plainElems s c (elemBytes ty) acc elems with
  | .error (cause, tval) => trap s c cause tval
  | .ok es => vstoreGo s c (elemCells es (vElem (c.vreg d.toNat) (EType.bits ty))) (elemBytes ty) 0 beats

/-- VST (R227, R228, R222). -/
def execVst (d a : Reg5) (ty : EType) (m : BitVec 3) (s : State) : Out :=
  withVregs s [d.toNat] (fun _ =>
    withSrc1 s a (fun base c =>
      let idx := activeIdx c m (EType.bits ty)
      match formatWindow s c base with
      | some (desc, w, o, x) =>
        if idx.isEmpty then finishBeats s c 4 [] 0
        else match winCheck x c ty true desc base w o idx with
          | some (cause, tval) => trap s c cause tval
          | none =>
            let rs := idx.map (fun i =>
              (i, convElem (winType (winFmt desc)) ty .rne false (vElem (c.vreg d.toNat) (EType.bits ty) i)))
            let val := fun (i : Nat) => ((rs.find? (fun r => r.1 == i)).map (fun r => r.2.1)).getD 0
            vstoreGo s c (elemCells (idx.map (fun i => ({ i := i, keys := winKeys x c desc o i } : VElem))) val)
              (EType.bits (winType (winFmt desc)) / 8) (rs.foldl (fun (f : BitVec 5) r => f ||| r.2.2) 0) 4
      | none =>
        vstorePlain s c d ty .vstore (idx.map (fun i => (i, base + BitVec.ofNat 64 (elemBytes ty * i)))) 4))

/-- VSTS (R227, R228). -/
def execVsts (d a b : Reg5) (ty : EType) (m : BitVec 3) (s : State) : Out :=
  withVregs s [d.toNat] (fun _ =>
    withSrc2 s a b (fun base stride c =>
      vstorePlain s c d ty .vidxStore
        ((activeIdx c m (EType.bits ty)).map (fun i => (i, base + BitVec.ofNat 64 i * stride)))
        (stridedBeats (EType.bits ty))))

/-- VSTX (R227, R228). -/
def execVstx (d a b : Reg5) (ty : EType) (m : BitVec 3) (s : State) : Out :=
  withVregs s (fieldNums [d, b]) (fun _ =>
    withSrc1 s a (fun base c =>
      vstorePlain s c d ty .vidxStore
        ((activeIdx c m (EType.bits ty)).map (fun i => (i, indexedAddr c b ty base i)))
        (stridedBeats (EType.bits ty))))

end Sys2Proof.Machine
end

