-- ==== Sys2Proof/Machine/Rejoin.lean ====
section
/-! DEFINITION. How a waiting thread completes its instruction at its turn (spec/07_thread_slots_and_tasks.md R121, R122,
R147). -/

namespace Sys2Proof.Machine

/-- The name of the event. -/
def rejoinName : String := "THREAD_REJOIN"

/-- An attempt counts only when the thread no longer waits as it did. -/
def unlessSame (w : Wait) (o : Out) : Out :=
  match o with
  | .next t => if t.cur.wait = some w then notNow rejoinName else .next t
  | o => o

/-- Go on when a condition holds. -/
def onlyIf (b : Bool) (o : Out) : Out := if b then o else notNow rejoinName

/-- An RFORK of a count of zero has room in the store buffer (R122, R137). -/
def rejoinRfork (s : State) (cell : Word) : Out :=
  match resolve s s.cur cell 8 (.store 8) with
  | .error (cause, tval) => trap s s.cur.ready cause tval
  | .ok k => rforkNone s s.cur cell k

/-- The last JOIN goes on; any other ends its task (R138). -/
def rejoinJoin (s : State) (last : Bool) : Out := if last then done s s.cur.ready else endTask s s.cur .idle

/-- A channel's pending bytes have fallen to the bound (R292). -/
def rejoinCpwait (s : State) (ch : Nat) (bound : Word) : Out :=
  match s.chanOf s.cur ch with
  | none => trap s s.cur.ready .queue 1
  | some h => onlyIf (decide (h.pend ≤ bound.toNat)) (done s s.cur.ready)

/-- The outstanding arrival has completed, and the next one goes (R315). -/
def rejoinArrive (s : State) (d : Reg5) (h : Nat) (inp : HInput) (wait : Bool) : Out :=
  match s.cur.handle h with
  | none => trap s s.cur.ready .handle (BitVec.ofNat 64 h)
  | some x => onlyIf (!s.arrivalOutstanding s.cur x.name) (sendArrival s s.cur.ready d h x inp wait)

/-- What a waiting thread does when its condition has come true at its core (R121, R147). The waits that an event ends are
ended by their own events. -/
def rejoin (s : State) (w : Wait) : Out :=
  let c := s.cur
  let r := c.ready
  match w with
  | .done d v => finish s r d v
  | .vdone d w vals flags => done s ((r.landV (valuesWrite d.toNat w vals)).raise flags)
  | .trapped cause tval => trap s r cause tval
  | .migTrapped cause tval value => .next (takeTrap s r cause tval value r.ir true)
  | .push q v npc a => pushWith s r q v npc a
  | .doneWith d v a => finishWith s r d v r.npc a
  | .store css rel unit since flags => enterAll s c css rel unit since flags
  | .stfe va v => feAccess s c .stfe 0 va v
  | .rfork _ 0 cell => rejoinRfork s cell
  | .fence sc => onlyIf (fenceClear s c.phys sc) (done s (s.acquired r))
  | .iflush => done s r
  | .outRoom q => enterOut s c q
  | .joinReply last => rejoinJoin s last
  | .spill t => pushTask s c t
  | .rforked s3 => done s ((r.setReg 2 0).setReg 3 s3)
  | .mwait => onlyIf ((c.monitor.map (fun m => m.trig)).getD true) (done s { r with monitor := none })
  | .xfer x => pushXfer s c x
  | .matrix ws => pushMatrix s r ws r.npc w .nothing
  | .cpwait ch bound => rejoinCpwait s ch bound
  | .harrive d h inp wait => rejoinArrive s d h inp wait
  | .warrant _ d _ _ (some v) => finish s r d v
  | .cntr d v => finish s r d v
  | .sigwait d => onlyIf (s.signals (coreOf c.phys) != 0) (sigDone s r d)
  | .dispatch d bytes => onlyIf (s.dispatchReady c) (finish (s.dispatchOut bytes) r d 0)
  | .keyld d n => finish s r d (BitVec.ofNat 64 n)
  | .sources | .bank | .ifetch | .halowait .. | .load .. | .vload .. | .fe .. | .atomic .. | .atomicReply .. | .join .. | .migr .. | .remigr .. | .migrReturn ..
  | .rfork .. | .hjoin .. | .hphase .. | .hinfo .. | .warrant _ _ _ _ none => notNow rejoinName

/-- THREAD_REJOIN: the current slot's thread, whose condition has come true, completes its instruction (R147). -/
def execThreadRejoin (slot : Nat) (s : State) : Out :=
  let c := s.cur
  if c.phys ≠ slot ∨ !(c.status == .waitMem || c.status == .waitMsg) ∨ 0 < c.busy then notNow rejoinName
  else match c.wait with
    | none => notNow rejoinName
    | some w => unlessSame w (rejoin s w)

end Sys2Proof.Machine
end

