-- ==== Sys2Proof/Machine/Dispatch.lean ====
section
/-! DEFINITION. The dispatch: one arm per constructor of `Instr`, each one direct call of its meaning. -/

namespace Sys2Proof.Machine

/-- The meaning of an instruction or an event. -/
def exec (i : Instr) (s : State) : Host.Outcome State Fault Refusal :=
  match i with
  | .add d a b => Sys2Proof.Machine.execAdd d a b s
  | .sub d a b => Sys2Proof.Machine.execSub d a b s
  | .and d a b => Sys2Proof.Machine.execAnd d a b s
  | .or d a b => Sys2Proof.Machine.execOr d a b s
  | .xor d a b => Sys2Proof.Machine.execXor d a b s
  | .andn d a b => Sys2Proof.Machine.execAndn d a b s
  | .sll d a b => Sys2Proof.Machine.execSll d a b s
  | .srl d a b => Sys2Proof.Machine.execSrl d a b s
  | .sra d a b => Sys2Proof.Machine.execSra d a b s
  | .rol d a b => Sys2Proof.Machine.execRol d a b s
  | .min d a b => Sys2Proof.Machine.execMin d a b s
  | .max d a b => Sys2Proof.Machine.execMax d a b s
  | .minu d a b => Sys2Proof.Machine.execMinu d a b s
  | .maxu d a b => Sys2Proof.Machine.execMaxu d a b s
  | .slt d a b => Sys2Proof.Machine.execSlt d a b s
  | .sltu d a b => Sys2Proof.Machine.execSltu d a b s
  | .seq d a b => Sys2Proof.Machine.execSeq d a b s
  | .sel d a b => Sys2Proof.Machine.execSel d a b s
  | .addi d a imm => Sys2Proof.Machine.execAddi d a imm s
  | .andi d a imm => Sys2Proof.Machine.execAndi d a imm s
  | .ori d a imm => Sys2Proof.Machine.execOri d a imm s
  | .xori d a imm => Sys2Proof.Machine.execXori d a imm s
  | .slli d a k => Sys2Proof.Machine.execSlli d a k s
  | .srli d a k => Sys2Proof.Machine.execSrli d a k s
  | .srai d a k => Sys2Proof.Machine.execSrai d a k s
  | .roli d a k => Sys2Proof.Machine.execRoli d a k s
  | .slti d a imm => Sys2Proof.Machine.execSlti d a imm s
  | .sltiu d a imm => Sys2Proof.Machine.execSltiu d a imm s
  | .seqi d a imm => Sys2Proof.Machine.execSeqi d a imm s
  | .lui d imm => Sys2Proof.Machine.execLui d imm s
  | .auipc d imm => Sys2Proof.Machine.execAuipc d imm s
  | .mul d a b => Sys2Proof.Machine.execMul d a b s
  | .mulh d a b => Sys2Proof.Machine.execMulh d a b s
  | .mulhu d a b => Sys2Proof.Machine.execMulhu d a b s
  | .div d a b => Sys2Proof.Machine.execDiv d a b s
  | .divu d a b => Sys2Proof.Machine.execDivu d a b s
  | .rem d a b => Sys2Proof.Machine.execRem d a b s
  | .remu d a b => Sys2Proof.Machine.execRemu d a b s
  | .clz d a => Sys2Proof.Machine.execClz d a s
  | .ctz d a => Sys2Proof.Machine.execCtz d a s
  | .popc d a => Sys2Proof.Machine.execPopc d a s
  | .brev d a => Sys2Proof.Machine.execBrev d a s
  | .bswap d a => Sys2Proof.Machine.execBswap d a s
  | .bfx d a b => Sys2Proof.Machine.execBfx d a b s
  | .bfi d a b => Sys2Proof.Machine.execBfi d a b s
  | .lb d a imm => Sys2Proof.Machine.execLb d a imm s
  | .lbu d a imm => Sys2Proof.Machine.execLbu d a imm s
  | .lh d a imm => Sys2Proof.Machine.execLh d a imm s
  | .lhu d a imm => Sys2Proof.Machine.execLhu d a imm s
  | .lw d a imm => Sys2Proof.Machine.execLw d a imm s
  | .lwu d a imm => Sys2Proof.Machine.execLwu d a imm s
  | .ld d a imm => Sys2Proof.Machine.execLd d a imm s
  | .sb b a imm => Sys2Proof.Machine.execSb b a imm s
  | .sh b a imm => Sys2Proof.Machine.execSh b a imm s
  | .sw b a imm => Sys2Proof.Machine.execSw b a imm s
  | .sd b a imm => Sys2Proof.Machine.execSd b a imm s
  | .ldo d a acq sc imm => Sys2Proof.Machine.execLdo d a acq sc imm s
  | .sto b a rel sc imm => Sys2Proof.Machine.execSto b a rel sc imm s
  | .beq a b off => Sys2Proof.Machine.execBeq a b off s
  | .bne a b off => Sys2Proof.Machine.execBne a b off s
  | .blt a b off => Sys2Proof.Machine.execBlt a b off s
  | .bge a b off => Sys2Proof.Machine.execBge a b off s
  | .bltu a b off => Sys2Proof.Machine.execBltu a b off s
  | .bgeu a b off => Sys2Proof.Machine.execBgeu a b off s
  | .jal d off => Sys2Proof.Machine.execJal d off s
  | .jalr d a imm => Sys2Proof.Machine.execJalr d a imm s
  | .csrr d csr => Sys2Proof.Machine.execCsrr d csr s
  | .csrw a csr => Sys2Proof.Machine.execCsrw a csr s
  | .csrs a csr => Sys2Proof.Machine.execCsrs a csr s
  | .csrc a csr => Sys2Proof.Machine.execCsrc a csr s
  | .trap a code => Sys2Proof.Machine.execTrap a code s
  | .eret => Sys2Proof.Machine.execEret s
  | .ucall n => Sys2Proof.Machine.execUcall n s
  | .brk n => Sys2Proof.Machine.execBrk n s
  | .fence kind sc => Sys2Proof.Machine.execFence kind sc s
  | .iflush => Sys2Proof.Machine.execIflush s
  | .winset a w => Sys2Proof.Machine.execWinset a w s
  | .ldfe d a imm => Sys2Proof.Machine.execLdfe d a imm s
  | .ldfeClr d a imm => Sys2Proof.Machine.execLdfeClr d a imm s
  | .stfe b a imm => Sys2Proof.Machine.execStfe b a imm s
  | .feq d a imm => Sys2Proof.Machine.execFeq d a imm s
  | .marm a imm => Sys2Proof.Machine.execMarm a imm s
  | .mclr => Sys2Proof.Machine.execMclr s
  | .mwait => Sys2Proof.Machine.execMwait s
  | .yield => Sys2Proof.Machine.execYield s
  | .halt => Sys2Proof.Machine.execHalt s
  | .fork a b => Sys2Proof.Machine.execFork a b s
  | .rfork d a b => Sys2Proof.Machine.execRfork d a b s
  | .join a => Sys2Proof.Machine.execJoin a s
  | .taskend => Sys2Proof.Machine.execTaskend s
  | .aadd d a b kind sc o w32 => Sys2Proof.Machine.execAadd d a b kind sc o w32 s
  | .aand d a b kind sc o w32 => Sys2Proof.Machine.execAand d a b kind sc o w32 s
  | .aor d a b kind sc o w32 => Sys2Proof.Machine.execAor d a b kind sc o w32 s
  | .axor d a b kind sc o w32 => Sys2Proof.Machine.execAxor d a b kind sc o w32 s
  | .amin d a b kind sc o w32 => Sys2Proof.Machine.execAmin d a b kind sc o w32 s
  | .amax d a b kind sc o w32 => Sys2Proof.Machine.execAmax d a b kind sc o w32 s
  | .aminu d a b kind sc o w32 => Sys2Proof.Machine.execAminu d a b kind sc o w32 s
  | .amaxu d a b kind sc o w32 => Sys2Proof.Machine.execAmaxu d a b kind sc o w32 s
  | .axchg d a b kind sc o w32 => Sys2Proof.Machine.execAxchg d a b kind sc o w32 s
  | .acas d a b kind sc w32 => Sys2Proof.Machine.execAcas d a b kind sc w32 s
  | .migr a => Sys2Proof.Machine.execMigr a s
  | .retn => Sys2Proof.Machine.execRetn s
  | .radd a b rel sc o w32 => Sys2Proof.Machine.execRadd a b rel sc o w32 s
  | .rand a b rel sc o w32 => Sys2Proof.Machine.execRand a b rel sc o w32 s
  | .ror a b rel sc o w32 => Sys2Proof.Machine.execRor a b rel sc o w32 s
  | .rxor a b rel sc o w32 => Sys2Proof.Machine.execRxor a b rel sc o w32 s
  | .rmin a b rel sc o w32 => Sys2Proof.Machine.execRmin a b rel sc o w32 s
  | .rmax a b rel sc o w32 => Sys2Proof.Machine.execRmax a b rel sc o w32 s
  | .rfadd a b rel sc o w32 => Sys2Proof.Machine.execRfadd a b rel sc o w32 s
  | .hjoin d a t x h => Sys2Proof.Machine.execHjoin d a t x h s
  | .hleave h => Sys2Proof.Machine.execHleave h s
  | .hbar h => Sys2Proof.Machine.execHbar h s
  | .harrv h => Sys2Proof.Machine.execHarrv h s
  | .hwait h => Sys2Proof.Machine.execHwait h s
  | .hvote d a sel h => Sys2Proof.Machine.execHvote d a sel h s
  | .hred d a sel h => Sys2Proof.Machine.execHred d a sel h s
  | .hinfo d h => Sys2Proof.Machine.execHinfo d h s
  | .wpres d a => Sys2Proof.Machine.execWpres d a s
  | .wsplit d a b => Sys2Proof.Machine.execWsplit d a b s
  | .wdeleg d a b => Sys2Proof.Machine.execWdeleg d a b s
  | .wsurr d a => Sys2Proof.Machine.execWsurr d a s
  | .wreset d a => Sys2Proof.Machine.execWreset d a s
  | .wqry d a b => Sys2Proof.Machine.execWqry d a b s
  | .cpy d a b ch => Sys2Proof.Machine.execCpy d a b ch s
  | .cpys d a b ch => Sys2Proof.Machine.execCpys d a b ch s
  | .cpwait a ch => Sys2Proof.Machine.execCpwait a ch s
  | .chwm a b ch => Sys2Proof.Machine.execChwm a b ch s
  | .halo a b => Sys2Proof.Machine.execHalo a b s
  | .halowait a b => Sys2Proof.Machine.execHalowait a b s
  | .mcast d a b => Sys2Proof.Machine.execMcast d a b s
  | .gath d a b ch => Sys2Proof.Machine.execGath d a b ch s
  | .coll d a b ty sel => Sys2Proof.Machine.execColl d a b ty sel s
  | .qstat d => Sys2Proof.Machine.execQstat d s
  | .mxop a ty sp => Sys2Proof.Machine.execMxop a ty sp s
  | .mxzero a => Sys2Proof.Machine.execMxzero a s
  | .mxst a ty sat => Sys2Proof.Machine.execMxst a ty sat s
  | .mxld a => Sys2Proof.Machine.execMxld a s
  | .mxring a b => Sys2Proof.Machine.execMxring a b s
  | .mxadv a => Sys2Proof.Machine.execMxadv a s
  | .mxwgt a => Sys2Proof.Machine.execMxwgt a s
  | .cntr d e => Sys2Proof.Machine.execCntr d e s
  | .time d late => Sys2Proof.Machine.execTime d late s
  | .vld d a ty m => Sys2Proof.Machine.execVld d a ty m s
  | .vlds d a b ty m => Sys2Proof.Machine.execVlds d a b ty m s
  | .vldx d a b ty m => Sys2Proof.Machine.execVldx d a b ty m s
  | .vst d a ty m => Sys2Proof.Machine.execVst d a ty m s
  | .vsts d a b ty m => Sys2Proof.Machine.execVsts d a b ty m s
  | .vstx d a b ty m => Sys2Proof.Machine.execVstx d a b ty m s
  | .vadd d a b ty m => Sys2Proof.Machine.execVadd d a b ty m s
  | .vsub d a b ty m => Sys2Proof.Machine.execVsub d a b ty m s
  | .vadds d a b ty m => Sys2Proof.Machine.execVadds d a b ty m s
  | .vsubs d a b ty m => Sys2Proof.Machine.execVsubs d a b ty m s
  | .vmul d a b ty m => Sys2Proof.Machine.execVmul d a b ty m s
  | .vmulh d a b ty m => Sys2Proof.Machine.execVmulh d a b ty m s
  | .vmin d a b ty m => Sys2Proof.Machine.execVmin d a b ty m s
  | .vmax d a b ty m => Sys2Proof.Machine.execVmax d a b ty m s
  | .vabs d a ty m => Sys2Proof.Machine.execVabs d a ty m s
  | .vneg d a ty m => Sys2Proof.Machine.execVneg d a ty m s
  | .vand d a b ty m => Sys2Proof.Machine.execVand d a b ty m s
  | .vor d a b ty m => Sys2Proof.Machine.execVor d a b ty m s
  | .vxor d a b ty m => Sys2Proof.Machine.execVxor d a b ty m s
  | .vandn d a b ty m => Sys2Proof.Machine.execVandn d a b ty m s
  | .vsll d a b ty m => Sys2Proof.Machine.execVsll d a b ty m s
  | .vsrl d a b ty m => Sys2Proof.Machine.execVsrl d a b ty m s
  | .vsra d a b ty m => Sys2Proof.Machine.execVsra d a b ty m s
  | .vsel d a b ty m => Sys2Proof.Machine.execVsel d a b ty m s
  | .vcmpEq d a b ty m => Sys2Proof.Machine.execVcmpEq d a b ty m s
  | .vcmpNe d a b ty m => Sys2Proof.Machine.execVcmpNe d a b ty m s
  | .vcmpLt d a b ty m => Sys2Proof.Machine.execVcmpLt d a b ty m s
  | .vcmpLe d a b ty m => Sys2Proof.Machine.execVcmpLe d a b ty m s
  | .vcmpGt d a b ty m => Sys2Proof.Machine.execVcmpGt d a b ty m s
  | .vcmpGe d a b ty m => Sys2Proof.Machine.execVcmpGe d a b ty m s
  | .vwadd d a b ty m => Sys2Proof.Machine.execVwadd d a b ty m s
  | .vwsub d a b ty m => Sys2Proof.Machine.execVwsub d a b ty m s
  | .vwmul d a b ty m => Sys2Proof.Machine.execVwmul d a b ty m s
  | .vdot2 d a b ty sat m => Sys2Proof.Machine.execVdot2 d a b ty sat m s
  | .vdot4 d a b ty sat m => Sys2Proof.Machine.execVdot4 d a b ty sat m s
  | .vnarrow d a ty sat m => Sys2Proof.Machine.execVnarrow d a ty sat m s
  | .vfadd d a b f rm => Sys2Proof.Machine.execVfadd d a b f rm s
  | .vfsub d a b f rm => Sys2Proof.Machine.execVfsub d a b f rm s
  | .vfmul d a b f rm => Sys2Proof.Machine.execVfmul d a b f rm s
  | .vfdiv d a b f rm => Sys2Proof.Machine.execVfdiv d a b f rm s
  | .vfma d a b f rm => Sys2Proof.Machine.execVfma d a b f rm s
  | .vfms d a b f rm => Sys2Proof.Machine.execVfms d a b f rm s
  | .vfnma d a b f rm => Sys2Proof.Machine.execVfnma d a b f rm s
  | .vfnms d a b f rm => Sys2Proof.Machine.execVfnms d a b f rm s
  | .vfmin d a b f m => Sys2Proof.Machine.execVfmin d a b f m s
  | .vfmax d a b f m => Sys2Proof.Machine.execVfmax d a b f m s
  | .vfabs d a f m => Sys2Proof.Machine.execVfabs d a f m s
  | .vfneg d a f m => Sys2Proof.Machine.execVfneg d a f m s
  | .vfsqrt d a f rm => Sys2Proof.Machine.execVfsqrt d a f rm s
  | .vfrcp d a f rm => Sys2Proof.Machine.execVfrcp d a f rm s
  | .vfrsq d a f rm => Sys2Proof.Machine.execVfrsq d a f rm s
  | .vfclass d a f m => Sys2Proof.Machine.execVfclass d a f m s
  | .vfcmpEq d a b f m => Sys2Proof.Machine.execVfcmpEq d a b f m s
  | .vfcmpNe d a b f m => Sys2Proof.Machine.execVfcmpNe d a b f m s
  | .vfcmpLt d a b f m => Sys2Proof.Machine.execVfcmpLt d a b f m s
  | .vfcmpLe d a b f m => Sys2Proof.Machine.execVfcmpLe d a b f m s
  | .vfcmpGt d a b f m => Sys2Proof.Machine.execVfcmpGt d a b f m s
  | .vfcmpGe d a b f m => Sys2Proof.Machine.execVfcmpGe d a b f m s
  | .vcvt d a sat st rnd dt m => Sys2Proof.Machine.execVcvt d a sat st rnd dt m s
  | .vcvtgq d a sat st rnd dt m => Sys2Proof.Machine.execVcvtgq d a sat st rnd dt m s
  | .vperm d a b ty m => Sys2Proof.Machine.execVperm d a b ty m s
  | .vshuf d a b ty m => Sys2Proof.Machine.execVshuf d a b ty m s
  | .vzip d a b ty m => Sys2Proof.Machine.execVzip d a b ty m s
  | .vunzip d a b ty m => Sys2Proof.Machine.execVunzip d a b ty m s
  | .vbcast d a ty m => Sys2Proof.Machine.execVbcast d a ty m s
  | .vslide d a b ty m => Sys2Proof.Machine.execVslide d a b ty m s
  | .vredi d a ty m => Sys2Proof.Machine.execVredi d a ty m s
  | .vmvs d a b ty m => Sys2Proof.Machine.execVmvs d a b ty m s
  | .vspl d a b ty m => Sys2Proof.Machine.execVspl d a b ty m s
  | .vfreds d a b f rm => Sys2Proof.Machine.execVfreds d a b f rm s
  | .mand d a b => Sys2Proof.Machine.execMand d a b s
  | .mor d a b => Sys2Proof.Machine.execMor d a b s
  | .mxor d a b => Sys2Proof.Machine.execMxor d a b s
  | .mnot d a => Sys2Proof.Machine.execMnot d a s
  | .mpopc d a => Sys2Proof.Machine.execMpopc d a s
  | .mfirst d a => Sys2Proof.Machine.execMfirst d a s
  | .mmov d a => Sys2Proof.Machine.execMmov d a s
  | .pori2 d a f64 nf sos m => Sys2Proof.Machine.execPori2 d a f64 nf sos m s
  | .pori3 d a f64 nf sos m => Sys2Proof.Machine.execPori3 d a f64 nf sos m s
  | .pincir d a f64 nf sos m => Sys2Proof.Machine.execPincir d a f64 nf sos m s
  | .pinsph d a f64 nf sos m => Sys2Proof.Machine.execPinsph d a f64 nf sos m s
  | .psegx d a f64 nf sos m => Sys2Proof.Machine.execPsegx d a f64 nf sos m s
  | .rfetch d a => Sys2Proof.Machine.execRfetch d a s
  | .dispatch d a b => Sys2Proof.Machine.execDispatch d a b s
  | .sigwait d => Sys2Proof.Machine.execSigwait d s
  | .keyld d a b => Sys2Proof.Machine.execKeyld d a b s
  | .threadRejoin slot => Sys2Proof.Machine.execThreadRejoin slot s
  | .yieldPauseEnd slot => Sys2Proof.Machine.execYieldPauseEnd slot s
  | .icacheLineFill slot => Sys2Proof.Machine.execIcacheLineFill slot s
  | .offCoreLoadReply slot => Sys2Proof.Machine.execOffCoreLoadReply slot s
  | .storeBufferDrain core => Sys2Proof.Machine.execStoreBufferDrain core s
  | .writeReachesHome k => Sys2Proof.Machine.execWriteReachesHome k s
  | .feRequestAtBank slot => Sys2Proof.Machine.execFeRequestAtBank slot s
  | .bankWakeupDone bank => Sys2Proof.Machine.execBankWakeupDone bank s
  | .translationWalkEnd slot => Sys2Proof.Machine.execTranslationWalkEnd slot s
  | .atomicAtHome slot => Sys2Proof.Machine.execAtomicAtHome slot s
  | .atomicReplyArrival slot => Sys2Proof.Machine.execAtomicReplyArrival slot s
  | .reductionAtHome k => Sys2Proof.Machine.execReductionAtHome k s
  | .reductionAckArrival k => Sys2Proof.Machine.execReductionAckArrival k s
  | .joinDecrementAtHome slot => Sys2Proof.Machine.execJoinDecrementAtHome slot s
  | .migrBlockAccept slot => Sys2Proof.Machine.execMigrBlockAccept slot s
  | .migrBlockReturn slot => Sys2Proof.Machine.execMigrBlockReturn slot s
  | .dequeSpillDone slot => Sys2Proof.Machine.execDequeSpillDone slot s
  | .dequeRefill core ctx => Sys2Proof.Machine.execDequeRefill core ctx s
  | .idleSlotPop slot => Sys2Proof.Machine.execIdleSlotPop slot s
  | .stealRequest core ctx => Sys2Proof.Machine.execStealRequest core ctx s
  | .stealAnswer core ctx => Sys2Proof.Machine.execStealAnswer core ctx s
  | .stealRetryTimer core ctx => Sys2Proof.Machine.execStealRetryTimer core ctx s
  | .rforkSurveyDone slot => Sys2Proof.Machine.execRforkSurveyDone slot s
  | .caddieTakeRequest core => Sys2Proof.Machine.execCaddieTakeRequest core s
  | .copyGranuleLand k => Sys2Proof.Machine.execCopyGranuleLand k s
  | .copyComplete k refused => Sys2Proof.Machine.execCopyComplete k refused s
  | .haloDirectionArrival k dir => Sys2Proof.Machine.execHaloDirectionArrival k dir s
  | .mcastDelivery k => Sys2Proof.Machine.execMcastDelivery k s
  | .gatherComplete k refused => Sys2Proof.Machine.execGatherComplete k refused s
  | .collContributionArrival k remote => Sys2Proof.Machine.execCollContributionArrival k remote s
  | .collComplete k => Sys2Proof.Machine.execCollComplete k s
  | .messageLeaveSendQueue slot => Sys2Proof.Machine.execMessageLeaveSendQueue slot s
  | .messageDelivery k => Sys2Proof.Machine.execMessageDelivery k s
  | .mxringTakeEffect slot => Sys2Proof.Machine.execMxringTakeEffect slot s
  | .mxadvReachUnit slot => Sys2Proof.Machine.execMxadvReachUnit slot s
  | .mxwgtTakeEffect slot => Sys2Proof.Machine.execMxwgtTakeEffect slot s
  | .matrixStep clus => Sys2Proof.Machine.execMatrixStep clus s
  | .matrixRecordPush clus => Sys2Proof.Machine.execMatrixRecordPush clus s
  | .huddleJoinHandled k => Sys2Proof.Machine.execHuddleJoinHandled k s
  | .huddleArrivalHandled k => Sys2Proof.Machine.execHuddleArrivalHandled k s
  | .huddleLeaveHandled k => Sys2Proof.Machine.execHuddleLeaveHandled k s
  | .huddleDeparture ctx thread => Sys2Proof.Machine.execHuddleDeparture ctx thread s
  | .hinfoHandled k => Sys2Proof.Machine.execHinfoHandled k s
  | .huddleNoticeArrival slot => Sys2Proof.Machine.execHuddleNoticeArrival slot s
  | .warrantRequestHandled slot => Sys2Proof.Machine.execWarrantRequestHandled slot s
  | .errorStopCycle ctx => Sys2Proof.Machine.execErrorStopCycle ctx s
  | .dumpStart die => Sys2Proof.Machine.execDumpStart die s
  | .dumpWriteDone die => Sys2Proof.Machine.execDumpWriteDone die s
  | .energyAllowanceReached ctx => Sys2Proof.Machine.execEnergyAllowanceReached ctx s
  | .energyOverrun slot => Sys2Proof.Machine.execEnergyOverrun slot s
  | .powerWindowEnd modulemW => Sys2Proof.Machine.execPowerWindowEnd modulemW s
  | .contextExpiry ctx => Sys2Proof.Machine.execContextExpiry ctx s
  | .watchdogExpiry ctx => Sys2Proof.Machine.execWatchdogExpiry ctx s
  | .backgroundScrubRead die stack bad => Sys2Proof.Machine.execBackgroundScrubRead die stack bad s
  | .doorbellWidxWrite ctx q => Sys2Proof.Machine.execDoorbellWidxWrite ctx q s
  | .ctrlResume ctx q => Sys2Proof.Machine.execCtrlResume ctx q s
  | .ctrlSkip ctx q => Sys2Proof.Machine.execCtrlSkip ctx q s
  | .ctrlAbort ctx q => Sys2Proof.Machine.execCtrlAbort ctx q s
  | .packetFetch ctx q => Sys2Proof.Machine.execPacketFetch ctx q s
  | .launchStart ctx q => Sys2Proof.Machine.execLaunchStart ctx q s
  | .launchComplete ctx => Sys2Proof.Machine.execLaunchComplete ctx s
  | .fencePacketComplete ctx q => Sys2Proof.Machine.execFencePacketComplete ctx q s
  | .sliceEnd ctx => Sys2Proof.Machine.execSliceEnd ctx s
  | .slicePlacement ctx => Sys2Proof.Machine.execSlicePlacement ctx s
  | .stopDecision root => Sys2Proof.Machine.execStopDecision root s
  | .stopHalt root => Sys2Proof.Machine.execStopHalt root s
  | .flushToken root => Sys2Proof.Machine.execFlushToken root s
  | .stateSaveDone root => Sys2Proof.Machine.execStateSaveDone root s
  | .restoreDone root => Sys2Proof.Machine.execRestoreDone root s
  | .resumeRejoin root => Sys2Proof.Machine.execResumeRejoin root s
  | .claimAtHome claim answer => Sys2Proof.Machine.execClaimAtHome claim answer s
  | .claimRetry serial => Sys2Proof.Machine.execClaimRetry serial s
  | .claimTimeout serial => Sys2Proof.Machine.execClaimTimeout serial s
  | .spentAtHome serial => Sys2Proof.Machine.execSpentAtHome serial s
  | .powerOn => Sys2Proof.Machine.execPowerOn s
  | .ident h => Sys2Proof.Machine.execIdent h s
  | .commission h rec_ sig => Sys2Proof.Machine.execCommission h rec_ sig s
  | .beacon h image => Sys2Proof.Machine.execBeacon h image s
  | .nonce h => Sys2Proof.Machine.execNonce h s
  | .nonceExpiry node => Sys2Proof.Machine.execNonceExpiry node s
  | .present h image obj sig => Sys2Proof.Machine.execPresent h image obj sig s
  | .redeem h receipt sig => Sys2Proof.Machine.execRedeem h receipt sig s
  | .setwin h w base len => Sys2Proof.Machine.execSetwin h w base len s
  | .defq h q qd => Sys2Proof.Machine.execDefq h q qd s
  | .lock h => Sys2Proof.Machine.execLock h s
  | .start h => Sys2Proof.Machine.execStart h s
  | .launch h pkt => Sys2Proof.Machine.execLaunch h pkt s
  | .read h unit => Sys2Proof.Machine.execRead h unit s
  | .surr h => Sys2Proof.Machine.execSurr h s
  | .revoke h serial sig => Sys2Proof.Machine.execRevoke h serial sig s
  | .dbgcfg h clus cfg => Sys2Proof.Machine.execDbgcfg h clus cfg s
  | .dbgrel h clus => Sys2Proof.Machine.execDbgrel h clus s
  | .dbgres h => Sys2Proof.Machine.execDbgres h s
  | .query h item => Sys2Proof.Machine.execQuery h item s
  | .qctrl h answer => Sys2Proof.Machine.execQctrl h answer s
  | .linkTraining link node => Sys2Proof.Machine.execLinkTraining link node s
  | .flitReceive link flit => Sys2Proof.Machine.execFlitReceive link flit s
  | .linkDown link => Sys2Proof.Machine.execLinkDown link s
  | .flitSend link vc => Sys2Proof.Machine.execFlitSend link vc s
  | .systemAtomicReply slot refused => Sys2Proof.Machine.execSystemAtomicReply slot refused s
  | .inboundAccess node ctx off len data => Sys2Proof.Machine.execInboundAccess node ctx off len data s
  | .traceWordMove slot => Sys2Proof.Machine.execTraceWordMove slot s
  | .debugSample clus => Sys2Proof.Machine.execDebugSample clus s
  | .captureFreeze clus => Sys2Proof.Machine.execCaptureFreeze clus s
  | .crossTriggerArrival clus => Sys2Proof.Machine.execCrossTriggerArrival clus s
  | .illegalWord word reason => Sys2Proof.Machine.execIllegalWord word reason s
  | .instructionFetchTrap cause tval => Sys2Proof.Machine.execInstructionFetchTrap cause tval s
  | .debugResumeCycle ctx => Sys2Proof.Machine.execDebugResumeCycle ctx s
  | .captureCycleMatch clus => Sys2Proof.Machine.execCaptureCycleMatch clus s

end Sys2Proof.Machine
end

