-- ==== Sys2Proof/Machine/Schedule.lean ====
section
/-! DEFINITION. The model's own order of background events (notes/assumptions/6.md): the first event that is due, from
debug and stops to queues. It takes no event that comes from outside: no port command, no link input, no refusal by a
host, no answer of another module's umpire, no background read. -/

namespace Sys2Proof.Machine

/-- The state after the first event of a list that is enabled. -/
def firstNext {α : Type} (f : α → Out) : List α → Option State
  | [] => none
  | a :: as => match f a with
    | .next t => some t
    | _ => firstNext f as

/-- The roots of the families. -/
def State.roots (s : State) : List Nat := (s.ctxs.filter (fun (x : Ctx) => x.id == x.root)).map (fun (x : Ctx) => x.root)

/-- The physical numbers of the slots that wait. -/
def State.waiters (s : State) : List Nat :=
  (s.allSlots.filter (fun (c : Slot) => c.wait.isSome)).map (fun (c : Slot) => c.phys)

/-- The indices of a list. -/
def indices {α : Type} (l : List α) : List Nat := upTo l.length

/-- Captures, samples, traces and triggers (R390 to R394). -/
def dueDebug (s : State) : Option State :=
  if s.dbg.isEmpty && s.cross.isEmpty && s.dbgResume.isEmpty then none
  else
    let clus := s.dbg.map (fun (m : DbgMod) => m.clus)
    firstNext (fun (e : Nat × Word) => execDebugResumeCycle e.1 s) s.dbgResume
      <|> firstNext (fun (e : Nat × Nat × Bool) => execCrossTriggerArrival e.2.1 s) s.cross
      <|> firstNext (fun k => execCaptureCycleMatch k s) clus
      <|> firstNext (fun k => execDebugSample k s) clus
      <|> firstNext (fun k => execCaptureFreeze k s) clus

/-- The words on the slots' trace sides (R392). -/
def dueTrace (s : State) : Option State :=
  firstNext (fun (c : Slot) => execTraceWordMove c.phys s) (s.allSlots.filter (fun (c : Slot) => !c.q5.isEmpty))

/-- Stops, saves and restores that are under way (R359, R360). -/
def dueStops (s : State) : Option State :=
  let rs := s.roots
  firstNext (fun r => execResumeRejoin r s) rs <|> firstNext (fun r => execRestoreDone r s) rs
    <|> firstNext (fun r => execStateSaveDone r s) rs <|> firstNext (fun r => execFlushToken r s) rs
    <|> firstNext (fun r => execStopHalt r s) rs

/-- Expiry, watchdog, energy, error stops and dumps (R156 to R160, R329, R358). -/
def dueErrors (s : State) : Option State :=
  let xs := s.ctxs.map (fun (x : Ctx) => x.id)
  let dies := s.dumps.map (fun (d : Dump) => d.die)
  firstNext (fun x => execContextExpiry x s) xs <|> firstNext (fun x => execWatchdogExpiry x s) xs
    <|> firstNext (fun x => execEnergyAllowanceReached x s) xs <|> firstNext (fun p => execEnergyOverrun p s) [s.cur.phys]
    <|> firstNext (fun x => execErrorStopCycle x s) xs
    <|> firstNext (fun d => execDumpWriteDone d s) dies <|> firstNext (fun d => execDumpStart d s) dies

/-- The memory system: banks, walks, lines, loads, stores, full/empty, atomics, reductions, blocks. -/
def dueMemory (s : State) : Option State :=
  let ws := s.waiters
  firstNext (fun b => execBankWakeupDone b s) s.waking
    <|> firstNext (fun (e : SbEntry) => execStoreBufferDrain e.core s) (s.sbuf.take 1)
    <|> firstNext (fun k => execWriteReachesHome k s) (indices s.flight)
    <|> firstNext (fun k => execTranslationWalkEnd k s) (indices s.walks)
    <|> firstNext (fun p => execIcacheLineFill p s) ws
    <|> firstNext (fun p => execOffCoreLoadReply p s) ws
    <|> firstNext (fun p => execFeRequestAtBank p s) ws
    <|> firstNext (fun p => execAtomicAtHome p s) ws
    <|> firstNext (fun p => execAtomicReplyArrival p s) ws
    <|> firstNext (fun k => execReductionAtHome k s) (indices s.outb)
    <|> firstNext (fun k => execReductionAckArrival k s) (indices s.outb)
    <|> firstNext (fun p => execSystemAtomicReply p false s) (ws ++ s.outb.map (fun (e : OutReq) => e.slot))
    <|> firstNext (fun p => execJoinDecrementAtHome p s) ws
    <|> firstNext (fun p => execMigrBlockAccept p s) ws
    <|> firstNext (fun p => execMigrBlockReturn p s) ws

/-- The cores on which a context has a thread slot, and the context: those that may move task records. -/
def State.taskUnits (s : State) : List (Nat × Nat) :=
  s.ctxs.flatMap (fun (x : Ctx) => if x.launch.isSome then x.cores.map (fun k => (k, x.id)) else [])

/-- Task records: spills, refills, pops, steals and surveys (R126 to R138). -/
def dueTasks (s : State) : Option State :=
  let us := s.taskUnits
  firstNext (fun p => execDequeSpillDone p s) s.waiters
    <|> firstNext (fun p => execRforkSurveyDone p s) s.waiters
    <|> firstNext (fun (u : Nat × Nat) => execDequeRefill u.1 u.2 s) us
    <|> firstNext (fun (c : Slot) => execIdleSlotPop c.phys s) (s.allSlots.filter (fun (c : Slot) => c.status == .idle))
    <|> firstNext (fun (u : Nat × Nat) => execStealRetryTimer u.1 u.2 s) us
    <|> firstNext (fun (u : Nat × Nat) => execStealAnswer u.1 u.2 s) us
    <|> firstNext (fun (u : Nat × Nat) => execStealRequest u.1 u.2 s) us

/-- Copy engines, collectives and messages (R284 to R302). -/
def dueEngines (s : State) : Option State :=
  let cores := s.xfers.map (fun (t : Xfer) => t.core)
  let ks := indices s.xfers
  firstNext (fun k => execCaddieTakeRequest k s) cores
    <|> firstNext (fun k => execCopyGranuleLand k s) ks
    <|> firstNext (fun k => execCopyComplete k false s) ks
    <|> firstNext (fun k => (firstNext (fun (h : HaloDir) => execHaloDirectionArrival k (BitVec.ofNat 2 h.dir) s)
          ((s.xfers[k]?).elim [] (fun (t : Xfer) => t.halos))).elim (notNow "HALO_DIRECTION_ARRIVAL") Host.Outcome.next) ks
    <|> firstNext (fun k => execMcastDelivery k s) ks
    <|> firstNext (fun k => execGatherComplete k false s) ks
    <|> firstNext (fun k => execCollContributionArrival k none s) (indices s.colls)
    <|> firstNext (fun k => execCollComplete k s) (indices s.colls)
    <|> firstNext (fun (c : Slot) => execMessageLeaveSendQueue c.phys s) (s.allSlots.filter (fun (c : Slot) => !c.q2send.isEmpty))
    <|> firstNext (fun k => execMessageDelivery k s) (indices s.msgs)

/-- Matrix units (R266 to R283). -/
def dueMatrix (s : State) : Option State :=
  let ps := (s.allSlots.filter (fun (c : Slot) => !c.q0push.isEmpty)).map (fun (c : Slot) => c.phys)
  let us := s.matrix.map (fun (u : MUnit) => u.clus)
  firstNext (fun k => execMatrixRecordPush k s) us
    <|> firstNext (fun p => execMxadvReachUnit p s) ps
    <|> firstNext (fun p => execMxringTakeEffect p s) ps
    <|> firstNext (fun p => execMxwgtTakeEffect p s) ps
    <|> firstNext (fun k => execMatrixStep k s) us

/-- Huddle homes and their notices (R309 to R324). -/
def dueHuddles (s : State) : Option State :=
  let ks := indices s.hreqs
  firstNext (fun (n : HNote) => execHuddleNoticeArrival n.slot s) s.hnotes
    <|> firstNext (fun k => execHuddleJoinHandled k s) ks <|> firstNext (fun k => execHuddleArrivalHandled k s) ks
    <|> firstNext (fun k => execHuddleLeaveHandled k s) ks <|> firstNext (fun k => execHinfoHandled k s) ks
    <|> firstNext (fun (m : HMember) => execHuddleDeparture m.ctx m.thread s)
          (s.huddles.flatMap (fun (h : Huddle) => h.members))

/-- User queues and launches (R346 to R358). -/
def dueQueues (s : State) : Option State :=
  let qs := s.ctxs.flatMap (fun (x : Ctx) => x.queues.map (fun (q : Queue) => (x.id, q)))
  firstNext (fun (e : Nat × Queue) => execDoorbellWidxWrite e.1 e.2.q s)
      (qs.filter (fun (e : Nat × Queue) => !e.2.widxs.isEmpty))
    <|> firstNext (fun (e : Nat × Queue) => match execCtrlResume e.1 e.2.q s with
          | .next t => .next t
          | _ => match execCtrlSkip e.1 e.2.q s with
            | .next t => .next t
            | _ => execCtrlAbort e.1 e.2.q s)
      (qs.filter (fun (e : Nat × Queue) => !e.2.ctrls.isEmpty))
    <|> firstNext (fun (e : Nat × Queue) => execFencePacketComplete e.1 e.2.q s) qs
    <|> firstNext (fun (e : Nat × Queue) => execLaunchStart e.1 e.2.q s) qs
    <|> firstNext (fun (x : Ctx) => execLaunchComplete x.id s) s.ctxs
    <|> firstNext (fun (e : Nat × Queue) => execPacketFetch e.1 e.2.q s) qs

/-- The module's draw in the power window that ends, in mW (R380). -/
def State.drawMW (s : State) : Nat :=
  3 * s.ctxs.foldl (fun n (x : Ctx) => n + (x.meter - x.windowAt)) 0 / (5 * 2 ^ 20)

/-- The umpire: warrants, placement, slices, the power window, claims and nonces. -/
def dueUmpire (s : State) : Option State :=
  firstNext (fun p => execWarrantRequestHandled p s) s.waiters
    <|> firstNext (fun (x : Ctx) => execSlicePlacement x.id s) s.ctxs
    <|> firstNext (fun (x : Ctx) => execSliceEnd x.id s) s.ctxs
    <|> firstNext (fun w => execPowerWindowEnd w s) (if s.cycle.toNat % 2 ^ 20 = 0 then [s.drawMW] else [])
    <|> firstNext (fun (c : Claim) => if s.homeOf c.who.domain c.msg.root = s.ownNode then execClaimAtHome c.msg 0 s
          else match execClaimTimeout c.msg.serial s with
            | .next t => .next t
            | _ => execClaimRetry c.msg.serial s) (s.claims.take 1)
    <|> firstNext (fun (e : ClaimMsg × Word) => execSpentAtHome e.1.serial s) s.spentOut
    <|> firstNext (fun (n : Nonce) => execNonceExpiry n.node s) s.nonces
    <|> firstNext (fun (e : Nat × BitVec 4) => execFlitSend e.1 e.2 s)
          (s.links.flatMap (fun (l : Link) => l.out.map (fun (f : Flit) => (l.link, f.vc))) ++
            s.outq.filterMap (fun (m : OutMsg) => (s.linkTo m.node).map (fun l => (l.link, m.vc))))

/-- The state after the first background event that is due. -/
def due (s : State) : Option State :=
  dueDebug s <|> dueTrace s <|> dueStops s <|> dueErrors s <|> dueMemory s <|> dueTasks s <|> dueEngines s
    <|> dueMatrix s <|> dueHuddles s <|> dueQueues s <|> dueUmpire s

end Sys2Proof.Machine
end

