-- ==== Sys2Proof/Machine/Turn.lean ====
section
/-! DEFINITION. One turn of the rotation (R119 to R122): fetching an instruction's word, running it, the class of
the turn, the counters and the meter, the debug module's cycle, and the next turn. -/

namespace Sys2Proof.Machine

/-- The word at an address of a line. -/
def ILine.word (l : ILine) (a : Word) : IWord := (l.words[a.toNat % 64 / 4]?).getD 0

/-- A line becomes the most recently used (R375). -/
def State.touchLine (s : State) (l : ILine) : State :=
  { s with icache := l :: dropFirst (fun m => m.core == l.core && m.ctx == l.ctx && m.addr == l.addr) s.icache }

/-- What a fetch answers: the word, a trap at the fetch, or a miss (R118, R207, R375). -/
inductive Fetched where
  | word (w : IWord) (s : State)
  | trap (cause : TrapCause) (tval : Word)
  | miss

/-- Fetch the word at the current slot's pc. -/
def fetch (s : State) : Fetched :=
  let c := s.cur
  match (if c.ref then .ok 0 else resolve s c c.pc 4 .fetch) with
  | .error (cause, tval) => .trap cause tval
  | .ok _ => match s.lineOf c c.pc with
    | some l => .word (l.word c.pc) (s.touchLine l)
    | none => .miss

/-- Run a fetched word of the current slot: the instruction it decodes to, or its ILLEGAL trap (R74). -/
def runWord (s : State) (w : IWord) : Out :=
  let s := { s with cur := { s.cur with ir := w } }
  match decode s.cur.ref w with
  | .ok i => exec i s
  | .error r => execIllegalWord w r s

/-- Fetch and run the current slot's next instruction. A miss holds the slot in WAITMEM (R375). -/
def issue (s : State) : Out :=
  match fetch s with
  | .word w s => runWord s w
  | .trap cause tval => execInstructionFetchTrap cause tval { s with cur := { s.cur with ir := 0 } }
  | .miss => waitOn s s.cur .ifetch

/-- The majors that a migrating block may run besides RETN (R264). -/
def blockMajor (w : IWord) : Bool := [1, 2, 3, 4, 6, 7, 8, 9].contains (w.toNat / 2 ^ 26)

/-- A queue name stands in a field of the instruction (R264). -/
def namesQueue (i : Instr) : Bool :=
  (i.scalarReads ++ i.scalarWrites ++ i.scalarBoth).any (fun r => decide (24 ≤ r.toNat))

/-- RETN's word (R264). -/
def retnWord : IWord := 0x4C00000B

/-- Run the next instruction of a migrating block: a channel-core operation (R264, Table 26-1). A word that the decoder refuses
takes the decoder's reason, before the block's own reason 3 for a word outside its list or a 25th word: R74 gives the
reasons 3 to 8 no order (the model's choice, notes/assumptions/16.md). -/
def runBlock (s : State) (b : Block) : Out :=
  match b.words[b.idx]? with
  | none => trap s { s.cur with ir := 0, block := some { b with idx := b.idx + 1 } } .perm s.cur.pc
  | some w =>
    let s := { s with cur := { s.cur with ir := w, block := some { b with idx := b.idx + 1 } } }
    let id := s.cur.owner.getD 0
    let s := s.noteAtomic id (devKey id b.slice) 8
    match decode s.cur.ref w with
    | .error r => execIllegalWord w r s
    | .ok i =>
      if w = retnWord then exec i s
      else if !blockMajor w || decide (24 ≤ b.idx) then execIllegalWord w 3 s
      else if namesQueue i then execIllegalWord w 7 s
      else exec i s

/-- The ENERGY trap of a thread whose context has used its energy, in place of its next instruction (R152, R156):
TWORD is the word at the pc, and no instruction issues. -/
def energyTrap (s : State) : Out :=
  let go := fun (s : State) (w : IWord) =>
    (.next (takeTrap s { s.cur with energyDue := false, ir := 0 } .energy (csrValue s s.cur 0x033) (csrValue s s.cur 0x033) w false) : Out)
  match fetch s with
  | .word w s => go s w
  | .trap _ _ => go s 0
  | .miss => waitOn s s.cur .ifetch

/-- The fatal ENERGY of a thread that issues once the meter has passed the allowance by a further 1/64 of it (R154, R156). -/
def overrunTrap (s : State) : Out :=
  let go := fun (s : State) (w : IWord) =>
    (.next (fatalTrap s { s.cur with energyDue := false, ir := 0 } .energy (csrValue s s.cur 0x033) w 0) : Out)
  match fetch s with
  | .word w s => go s w
  | .trap _ _ => go s 0
  | .miss => waitOn s s.cur .ifetch

/-- What the current slot issues at its turn: an ENERGY trap that is due, or what it would issue else (R156). -/
def issueOr (s : State) (go : Out) : Out :=
  if (s.ctxOf s.cur).any (fun x => x.overrun && x.err.all (fun e => !e.stopped)) then overrunTrap s
  else if s.cur.energyDue then energyTrap s
  else go

/-- The stop cycle of the slot's context has passed at the latest: it issues no beat (R157, step 1). -/
def State.pastStop (s : State) (c : Slot) : Bool :=
  match s.ctxOf c with
  | none => false
  | some x => match x.err with
    | some e => !e.stopped && decide (e.latest ≤ s.cycle.toNat)
    | none => false

/-- The class of a turn that fetches: with a miss nothing issues, and the slot waits on memory (R375, R386). A turn at which an
instruction first finds a source queue empty or its destination full is counted as issued: R122 does not say (the model's
choice, notes/assumptions/34.md). -/
def fetchClass (o : Out) : Out × TurnClass :=
  (o, match o with
    | .next t => if t.cur.wait = some .ifetch then .notReadyMem else .issued
    | _ => .issued)

/-- What the current slot does at its turn, and the class of the turn. -/
def runTurn (s : State) : Out × TurnClass :=
  let c := s.cur
  if s.pastStop c then (.next s, .vacant)
  else match c.status with
  | .vacant | .idle | .stopped => (.next s, .vacant)
  | .paused =>
    if 1 < c.pause then (.next { s with cur := { c with pause := c.pause - 1 } }, .vacant)
    else (exec (.yieldPauseEnd c.phys) s, .vacant)
  | .ready =>
    if 0 < c.busy then (nextBeat s, .issued)
    else fetchClass (issueOr s (issue s))
  | .waitMem | .waitMsg =>
    if 0 < c.busy then (nextBeat s, .issued)
    else match c.block, c.wait with
      | some b, none => (runBlock s b, .notReadyMem)
      | _, some .sources | _, some .bank =>
        let r := { s with cur := c.ready }
        let o := runWord r c.ir
        match o with
        | .next t =>
          if t.cur.wait = some .sources then (o, .notReadyMsg)
          else if t.cur.wait = some .bank then (o, .notReadyMem)
          else fetchClass (issueOr r o)
        | _ => (o, .issued)
      | _, some .ifetch =>
        match s.lineOf c c.pc with
        | some _ => fetchClass (issueOr { s with cur := c.ready } (issue { s with cur := c.ready }))
        | none => (.next s, .notReadyMem)
      | _, _ => match exec (.threadRejoin c.phys) s with
        | .next t => (.next t, if t.cur.wait.isSome then t.cur.status.turnClass else .issued)
        | _ => (.next s, c.status.turnClass)

/-! ### Counters and the meter -/

/-- The beat is a vector or predicate beat: majors 0x20 to 0x29 (Table 26-1). -/
def vectorWord (w : IWord) : Bool := decide (0x20 ≤ w.toNat / 2 ^ 26) && decide (w.toNat / 2 ^ 26 ≤ 0x29)

/-- A load that completed from the own core scratchpad: one access (Table 26-1). A load that was served elsewhere has waited
for its reply. -/
def coreLoad (pre post : Slot) : Bool :=
  (match pre.wait with
    | none | some .ifetch | some .sources | some (.load ..) | some (.vload ..) => true
    | _ => false) && post.wait.isNone && post.block.isNone && !(post.inh && !pre.inh) && post.status != .stopped &&
    [0x08, 0x0A, 0x20].contains (post.ir.toNat / 2 ^ 26)

/-- The handler was entered in the turn. -/
def entered (pre post : Slot) : Bool := post.inh && !pre.inh

/-- Account a turn of a context's slot: its class, beats, completed instruction, trap entry, and energy (R378,
R386, R387). Event 256 is the model's own count of the turns issued in the running rotation. -/
def account (pre : Slot) (cls : TurnClass) (s : State) : State :=
  match pre.owner with
  | none => s
  | some id =>
    let post := s.slotAt pre.phys
    let issued := cls == .issued
    let vec := issued && vectorWord post.ir
    let s := s.setSlot { post with cls := cls.event }
    let retired := issued && post.wait.isNone && post.busy == 0 && !entered pre post && post.status != .stopped
    let s := s.count id pre.phys cls.event 1
    let s := s.count id pre.phys 0x04 (if retired then 1 else 0)
    let s := s.count id pre.phys 0x05 (if vec then 1 else 0)
    let s := s.count id pre.phys 0x0A (if entered pre post then 1 else 0)
    let s := s.count id pre.lcore 256 (if issued then 1 else 0)
    let s := s.charge id 0 (if issued then 1 else 0)
    let s := s.charge id 1 (if vec then 1 else 0)
    if issued && pre.busy == 0 && coreLoad pre post then (s.count id pre.lcore 0x4C 1).charge id 2 1 else s

/-- The records that an issuing instruction and a trap entry make in the cluster's debug module (R392). An ENERGY trap and a trap of
the fetch take the place of an instruction, and leave 0 as the slot's word. -/
def debugNote (pre : Slot) (cls : TurnClass) (s : State) : State :=
  match s.dbgAt (clusOf pre.phys) with
  | none => s
  | some m =>
    if pre.owner == some m.holder && cls == .issued then
      let post := s.slotAt pre.phys
      let mk := fun (t : Nat) (v : Word) =>
        ({ type := t, slot := slotNo pre.phys, lcore := pre.lcore, cycle := s.cycle, pc := pre.pc, value := v } : DbgRec)
      let fresh := pre.busy == 0 && (pre.wait.isNone || pre.wait == some .ifetch) && post.ir != 0
      let brk := if fresh && post.ir.toNat / 2 ^ 12 == 0x3C007 then [mk 2 (BitVec.ofNat 64 (post.ir.toNat % 2 ^ 12))] else []
      let tr := if entered pre post then [mk 3 (post.tcause.setWidth 64)] else []
      let cmp := if fresh then
          ((upTo m.cfg.comps.length).filter (fun j => m.cfg.comps[j]? == some pre.pc)).map (fun j => mk 5 (BitVec.ofNat 64 j))
        else []
      { s with dbg := updKey (fun x => x.clus == m.clus) { m with pend := m.pend ++ brk ++ tr ++ cmp } s.dbg }
    else s

/-! ### The end of a cycle -/

/-- A capture condition in a cycle, from the cycle's records (Table 26-6). -/
def condTrue (cycle : Word) (hit : Bool) (rs : List DbgRec) : DbgCond → Bool
  | .never => false
  | .always => true
  | .brkIn lo hi => rs.any (fun r => r.type == 2 && decide (lo.toNat ≤ r.value.toNat) && decide (r.value.toNat ≤ hi.toNat))
  | .trapOf c => rs.any (fun r => r.type == 3 && r.value.toNat == c.code)
  | .comparator j => rs.any (fun r => r.type == 5 && r.value.toNat == j.toNat)
  | .cycleIs v => hit && cycle == v
  | .traceIs v => rs.any (fun r => r.type == 1 && r.value == v)
  | .cross => rs.any (fun r => r.type == 9)

/-- Append records to the circular buffer of 4,096 (R392). -/
def bufAppend (buf new : List DbgRec) : List DbgRec := (buf ++ new).drop ((buf ++ new).length - 4096)

/-- A start, stop or trigger record of the cycle. -/
def markRec (cycle : Word) (t : Nat) : DbgRec := { type := t, slot := 0, lcore := 0, cycle := cycle, pc := 0, value := 0 }

/-- Records enter the buffer in ascending logical core, then slot, then type (R392). -/
def recBefore (a b : DbgRec) : Bool :=
  decide (a.lcore < b.lcore) || (a.lcore == b.lcore && (decide (a.slot < b.slot) || (a.slot == b.slot && decide (a.type < b.type))))

/-- Insert a record behind those that it does not precede. -/
def insertRec (r : DbgRec) : List DbgRec → List DbgRec
  | [] => [r]
  | x :: xs => if recBefore r x then r :: x :: xs else x :: insertRec r xs

/-- The records of a cycle in their order (R392). -/
def sortRecs (rs : List DbgRec) : List DbgRec := rs.foldl (fun acc r => insertRec r acc) []

/-- A module's capture at the end of a cycle (Table 26-8): the module, and whether its trigger fired. -/
def captureCycle (cycle : Word) (m : DbgMod) : DbgMod × Bool :=
  let rs := sortRecs m.pend
  let m0 := { m with pend := [], hit := false }
  let on := condTrue cycle m.hit rs
  match m.capture with
  | .armed =>
    if on m.cfg.start then
      if on m.cfg.stop then ({ m0 with buf := bufAppend m.buf ([markRec cycle 7] ++ rs ++ [markRec cycle 8]) }, false)
      else ({ m0 with buf := bufAppend m.buf (markRec cycle 7 :: rs), capture := .active }, false)
    else (m0, false)
  | .active =>
    if on m.cfg.trigger then
      ({ m0 with buf := bufAppend m.buf (rs ++ [markRec cycle 6]),
                 capture := if m.cfg.post = 0 then .frozen else .post m.cfg.post }, true)
    else if on m.cfg.stop then ({ m0 with buf := bufAppend m.buf (rs ++ [markRec cycle 8]), capture := .armed }, false)
    else ({ m0 with buf := bufAppend m.buf rs }, false)
  | .post n =>
    let kept := rs.take n
    ({ m0 with buf := bufAppend m.buf kept, capture := if n ≤ kept.length then .frozen else .post (n - kept.length) }, false)
  | .frozen => (m0, false)

/-- Every debug module's cycle (R393, R394). -/
def debugCycle (s : State) : State :=
  s.dbg.foldl (fun (s : State) (m : DbgMod) =>
    let (m', fired) := captureCycle s.cycle m
    let s := { s with dbg := updKey (fun x => x.clus == m.clus) m' s.dbg }
    if fired && m.cfg.halt != .none then
      let s := haltCluster s m.holder m.clus
      match s.ctxAt m.holder with
      | some x =>
        let others := (x.clusters.filter (fun k => k != m.clus)).map (fun k =>
          (m.holder, k, m.cfg.halt == .context || (m.cfg.halt == .die && dieOfClus k == dieOfClus m.clus)))
        { s with cross := s.cross ++ others }
      | none => s
    else s) s

/-- The logical cores of a context on which it holds a slot. -/
def Ctx.heldCores (x : Ctx) : List Nat :=
  (upTo x.cores.length).filter (fun l => x.slots.any (fun p => some (coreOf p) == x.cores[l]?))

/-- The histogram bins of a rotation that ends (R386), and the meter's standing charge of a cycle, for each context that holds
its slots on the chip (Table 26-1, R124, R379). -/
def endContexts (s : State) : State :=
  s.ctxs.foldl (fun (s : State) (x : Ctx) =>
    if !x.slots.isEmpty && x.stop != .saved then
      let s := s.charge x.id 9 x.slots.length
      if s.cycle.toNat % 8 = 7 then
        x.heldCores.foldl (fun (s : State) (l : Nat) =>
          let k := s.counter x.id l 256
          let s := { s with counters := s.counters.filter (fun e => !(e.ctx == x.id && e.unit == l && e.event == 256)) }
          s.count x.id l (0x40 + min k 7) 1) s
      else s
    else s) s

/-- A launch that runs counts a cycle for its watchdog, unless its context is stopped, saved out or halted (R358, R359,
R394). -/
def watchdogCycle (s : State) : State :=
  { s with ctxs := s.ctxs.map (fun x => match x.launch with
      | some l => if x.state == .run && !x.halted && x.stop.running then
          { x with launch := some { l with ran := l.ran + 1 } } else x
      | none => x) }

/-- The end of a global cycle; the halo arrivals of the cycle count after every write of it (R108). -/
def endCycle (s : State) : State :=
  let s := watchdogCycle (endContexts (debugCycle s.countHalos))
  { s with cycle := s.cycle + 1 }

/-- The least occupied slot of a turn number above a bound. -/
def nextSlot (s : State) (n lo : Nat) : Option Slot :=
  (s.slots.filter (fun c => slotNo c.phys == n && decide (lo < c.phys))).foldl (fun m c => match m with
    | none => some c
    | some d => some (if c.phys < d.phys then c else d)) none

/-- Check the current slot in and another out. -/
def State.switchTo (s : State) (c : Slot) : State :=
  let rest := s.slots.filter (fun x => x.phys != c.phys && x.phys != s.cur.phys)
  { s with cur := c, slots := if s.cur.occupied then s.cur :: rest else rest }

/-- The next turn: the next core's slot of the same cycle, or the first of the next cycle (R119). What landed in the registers of
the slot in this cycle stands over what its turn wrote (R108, R169, R209). -/
def advance (s : State) : State :=
  let s := s.reland
  match nextSlot s (s.cycle.toNat % 8) s.cur.phys with
  | some c => s.switchTo c
  | none =>
    let s := endCycle s
    let n := s.cycle.toNat % 8
    let first := (s.cur :: s.slots).filter (fun c => slotNo c.phys == n && c.occupied)
    match first.foldl (fun m c => match m with
      | none => some c
      | some d => some (if c.phys < d.phys then c else d)) none with
    | some c => if c.phys = s.cur.phys then s else s.switchTo c
    | none => s.switchTo (Slot.vacant n)

/-- A throttled slot gives up its turn in the first L rotations of each group of eight (R381). -/
def throttled (s : State) : Bool :=
  match s.ctxOf s.cur with
  | some x => decide (s.cycle.toNat / 8 % 8 < x.throttle)
  | none => false

/-- A turn that is given up: a paused slot passes it all the same (R144). -/
def idleTurn (s : State) : State :=
  if s.cur.status == .paused then
    match runTurn s with
    | (.next t, _) => t
    | _ => s
  else s

/-- One turn of the current slot, and the next one. -/
def turn (s : State) : Out :=
  if throttled s then
    match s.cur.owner with
    | some id => .next (advance (account s.cur .vacant ((idleTurn s).count id s.cur.phys 0x09 1)))
    | none => .next (advance s)
  else
    match runTurn s with
    | (.next t, cls) => .next (advance (debugNote s.cur cls (account s.cur cls t)))
    | (o, _) => o

/-- One step: the next event of the agenda; else, where the model orders background events itself, the first that is
due; else a turn (notes/assumptions/6.md). -/
def stepBody (s : State) : Out :=
  match s.agenda with
  | i :: rest => exec i { s with agenda := rest }
  | [] =>
    match (if s.auto then due s else none) with
    | some t => .next t
    | none => turn s

/-! ### A program placed from outside -/

/-- The unit that `State.withFetchWord` builds: context 1 on core 0 of die 0. -/
def placedLayout : Layout :=
  { g := 2 ^ 20, dies := [0], freeEnd := 2 ^ 16, textOff := 2 ^ 16, textSize := 2 ^ 16, constOff := 2 ^ 17, constSize := 0,
    dataOff := 2 ^ 17, dataSize := 0, saveOff := 2 ^ 18, dumpOff := 2 ^ 19, spillOff := 2 ^ 19 + 2 ^ 18 }

/-- The declarations of the placed kernel: everything a header can declare. -/
def placedDecl : Decl := { vregs := 32, huddles := 4, windows := 8, coresp := 262144, clussp := 4194304 }

/-- The resources of the placed context. -/
def placedRes : Resources :=
  { cls := 0, threads := 1, coreB := 262144, clusB := 4194304, devB := 2 ^ 20, weight := 15, huddles := 8, queues := 1,
    energy := 2 ^ 60, power := 100000, latency := 0 }

/-- The placed context's warrant. -/
def placedWarrant : Warrant :=
  { splitOk := true, delegOk := true, sealed := false, serial := 1, issuer := 0, holder := 0, notBefore := 0,
    notAfter := BitVec.allOnes 64, domain := 0, res := placedRes, code := 0, allow := BitVec.allOnes 256, keyCt := [] }

/-- The placed context, holding one slot. -/
def placedCtx (phys : Nat) : Ctx :=
  { id := 1, root := 1, parent := none, parentSerial := 0, state := .run, warrant := placedWarrant, serial := 1, holder := 0, delegate := none,
    splitter := (0, 0), sub := false, res := placedRes, object := [],
    kernels := [{ threads := 1, decl := placedDecl, entry := 0x1000000010000, handler := 0,
                  wins := Vector.replicate 8 winIdentity }],
    layout := placedLayout, lent := [], slots := [phys], cores := [coreOf phys], clusters := [clusOf phys],
    shares := [clusOf phys * 8 + coreOf phys % 8], pairs := [], key := [], keyValid := true, kids := 0, born := 0, redeemed := false, handles := [], node := 0,
    winOut := none, winIn := none, meter := 0, windowAt := 0, raised := false, throttle := 0, queues := [], lastQ := [],
    launch := none, disc := 0, stop := .none, err := none, halted := false, dbgClus := [], waited := 0, sliceAt := 0 }

/-- The placed thread: ready, its pc at the first word of .text. -/
def placedSlot (phys : Nat) : Slot :=
  { Slot.vacant phys with owner := some 1, status := .ready, pc := 0x1000000010000, decl := placedDecl }

/-- The instruction word of a table row's bits. -/
def placedWord (w : Nat) : IWord := BitVec.ofNat 32 w

/-- A word that only a referee core runs (R73). -/
def placedRef (w : Nat) : Bool := decide (0x3C ≤ w / 2 ^ 26) && decide (w / 2 ^ 26 ≤ 0x3E)

/-- The slot whose turn it is; slot 7 is the caddie, so the turn after it is taken. -/
def placedPhys (s : State) : Nat := if s.cycle.toNat % 8 = 7 then 0 else s.cycle.toNat % 8

/-- A referee core's next turn comes in a cycle that is a multiple of 8 (notes/assumptions/64.md). -/
def placedCycle (s : State) (w : Nat) : Word :=
  if placedRef w then BitVec.ofNat 64 (ceilDiv s.cycle.toNat 8 * 8) else if s.cycle.toNat % 8 = 7 then s.cycle + 1 else s.cycle

/-- The line of a slot's cache that holds a word at the placed pc, in a way of the slot's own. -/
def State.withLine (s : State) (iw : IWord) : State :=
  let core := coreOf s.cur.phys
  let l : ILine := { core := core, ctx := fetchTag s.cur, way := ((s.waysOf core (fetchTag s.cur)).head?).getD 0,
                     addr := 0x1000000010000, words := iw :: List.replicate 15 0 }
  { s with icache := l :: s.icache }

/-- s with a word where the next step fetches it, in a context or a referee core built for it. -/
def placeWord (s : State) (w : Nat) : State :=
  let iw := placedWord w
  let phys := if placedRef w then refCore0 * 8 else placedPhys s
  let t := { s with agenda := [], auto := false, cycle := placedCycle s w,
                    slots := s.slots.filter (fun c => c.phys != phys && c.phys != s.cur.phys) }
  if placedRef w then
    State.withLine { t with cur := { Slot.fresh phys with status := .ready, pc := 0x1000000010000 } } iw
  else
    State.withLine { t with
      cur := placedSlot phys, ctxs := placedCtx phys :: s.ctxs.filter (fun x => x.id != 1),
      mem := writeCells s.mem (cellsAt (keyOf Space.dev 1 (2 ^ 16)) (leBytes 4 iw.toNat)),
      matrix := s.matrix ++ [MUnit.fresh (clusOf phys)] } iw

end Sys2Proof.Machine
end

