-- ==== Sys2Proof/Machine/Step.lean ====
section
/-! DEFINITION. The step, and a program's word placed where the next step fetches it. -/

namespace Sys2Proof.Machine

/-- One step of the machine: one event, or one turn of the rotation. -/
def step (s : State) : Host.Outcome State Fault Refusal := stepBody s

/-- s with the instruction of an opcode-table row stored where step fetches its next instruction. -/
def State.withFetchWord (s : State) (_nbits w : Nat) : State := placeWord s w

end Sys2Proof.Machine
end

