-- ==== Sys2Proof/Safety.lean ====
section
/-! DEFINITION. What a run keeps: the invariants that statements about steps use. -/

namespace Sys2Proof.Machine

/-- Memory keeps its canonical form: addresses strictly rising, and no byte listed that an unlisted address reads. -/
abbrev State.MemInv (s : State) : Prop := Memory.wf s.mem = true

end Sys2Proof.Machine
end

