-- ==== Sys2Proof/Certificates/Slice0/Obligations.lean ====
section
/-! DEFINITION. The statements for the provers. Each family has a table first, an inductive relation with one line for an
instruction: its operands and what the spec gives it. Then come the statements. -/

namespace Sys2Proof.Machine

/-! ### Tables: scalar results (Tables 6-5 to 6-7) -/

/-- A result reaches its destination field: a register (s0 discards it), or the queue that the field names. -/
def Writes (i : Instr) (s : State) (c : Slot) (d : Reg5) (w npc : Word) : Prop :=
  (d.toNat < 24 → exec i s = .next { s with cur := { c.setReg d.toNat w with pc := npc } }) ∧
    (24 ≤ d.toNat → exec i s = pushQueue s c d.toNat w npc)

/-- A truth value as a register value. -/
def truth (p : Prop) [Decidable p] : Word := if p then 1 else 0

/-- Two-source scalar instructions: the fields d, a and b, and the value from the old register d, a and b. -/
inductive TwoSource : Instr → Reg5 → Reg5 → Reg5 → (Word → Word → Word → Word) → Prop
  | add d a b : TwoSource (.add d a b) d a b (fun _ x y => x + y)
  | sub d a b : TwoSource (.sub d a b) d a b (fun _ x y => x - y)
  | and d a b : TwoSource (.and d a b) d a b (fun _ x y => x &&& y)
  | or d a b : TwoSource (.or d a b) d a b (fun _ x y => x ||| y)
  | xor d a b : TwoSource (.xor d a b) d a b (fun _ x y => x ^^^ y)
  | andn d a b : TwoSource (.andn d a b) d a b (fun _ x y => x &&& ~~~y)
  | sll d a b : TwoSource (.sll d a b) d a b (fun _ x y => x <<< (y.toNat % 64))
  | srl d a b : TwoSource (.srl d a b) d a b (fun _ x y => x >>> (y.toNat % 64))
  | sra d a b : TwoSource (.sra d a b) d a b (fun _ x y => x.sshiftRight (y.toNat % 64))
  | rol d a b : TwoSource (.rol d a b) d a b (fun _ x y => x.rotateLeft (y.toNat % 64))
  | min d a b : TwoSource (.min d a b) d a b (fun _ x y => if x.toInt ≤ y.toInt then x else y)
  | max d a b : TwoSource (.max d a b) d a b (fun _ x y => if y.toInt ≤ x.toInt then x else y)
  | minu d a b : TwoSource (.minu d a b) d a b (fun _ x y => if x.toNat ≤ y.toNat then x else y)
  | maxu d a b : TwoSource (.maxu d a b) d a b (fun _ x y => if y.toNat ≤ x.toNat then x else y)
  | slt d a b : TwoSource (.slt d a b) d a b (fun _ x y => truth (x.toInt < y.toInt))
  | sltu d a b : TwoSource (.sltu d a b) d a b (fun _ x y => truth (x.toNat < y.toNat))
  | seq d a b : TwoSource (.seq d a b) d a b (fun _ x y => truth (x = y))
  | sel d a b : TwoSource (.sel d a b) d a b (fun z x y => if z = 0 then y else x)
  | mul d a b : TwoSource (.mul d a b) d a b (fun _ x y => x * y)
  | mulh d a b : TwoSource (.mulh d a b) d a b (fun _ x y => BitVec.ofInt 64 (x.toInt * y.toInt / 2 ^ 64))
  | mulhu d a b : TwoSource (.mulhu d a b) d a b (fun _ x y => BitVec.ofNat 64 (x.toNat * y.toNat / 2 ^ 64))
  | div d a b : TwoSource (.div d a b) d a b (fun _ x y =>
      if y = 0 then BitVec.allOnes 64 else if x = BitVec.intMin 64 ∧ y = BitVec.allOnes 64 then x
      else BitVec.ofInt 64 (Int.tdiv x.toInt y.toInt))
  | divu d a b : TwoSource (.divu d a b) d a b (fun _ x y =>
      if y = 0 then BitVec.allOnes 64 else BitVec.ofNat 64 (x.toNat / y.toNat))
  | rem d a b : TwoSource (.rem d a b) d a b (fun _ x y =>
      if y = 0 then x else if x = BitVec.intMin 64 ∧ y = BitVec.allOnes 64 then 0
      else BitVec.ofInt 64 (x.toInt - Int.tdiv x.toInt y.toInt * y.toInt))
  | remu d a b : TwoSource (.remu d a b) d a b (fun _ x y =>
      if y = 0 then x else BitVec.ofNat 64 (x.toNat - x.toNat / y.toNat * y.toNat))
  | bfx d a b : TwoSource (.bfx d a b) d a b (fun _ x y =>
      BitVec.ofNat 64 (x.toNat / 2 ^ (y.toNat % 64) % 2 ^ min (y.toNat / 256 % 64 + 1) (64 - y.toNat % 64)))
  | bfi d a b : TwoSource (.bfi d a b) d a b (fun z x y =>
      let lo := y.toNat % 64
      let f := min (y.toNat / 256 % 64 + 1) (64 - lo)
      let mask : Word := BitVec.ofNat 64 ((2 ^ f - 1) * 2 ^ lo)
      (z &&& ~~~mask) ||| BitVec.ofNat 64 (x.toNat % 2 ^ f * 2 ^ lo))

/-- One-source scalar instructions, with their immediates: the fields d and a, and the value. -/
inductive OneSource : Instr → Reg5 → Reg5 → (Word → Word) → Prop
  | addi d a imm : OneSource (.addi d a imm) d a (fun x => x + imm.signExtend 64)
  | andi d a imm : OneSource (.andi d a imm) d a (fun x => x &&& imm.signExtend 64)
  | ori d a imm : OneSource (.ori d a imm) d a (fun x => x ||| imm.signExtend 64)
  | xori d a imm : OneSource (.xori d a imm) d a (fun x => x ^^^ imm.signExtend 64)
  | slli d a k : OneSource (.slli d a k) d a (fun x => x <<< k.toNat)
  | srli d a k : OneSource (.srli d a k) d a (fun x => x >>> k.toNat)
  | srai d a k : OneSource (.srai d a k) d a (fun x => x.sshiftRight k.toNat)
  | roli d a k : OneSource (.roli d a k) d a (fun x => x.rotateLeft k.toNat)
  | slti d a imm : OneSource (.slti d a imm) d a (fun x => truth (x.toInt < (imm.signExtend 64).toInt))
  | sltiu d a imm : OneSource (.sltiu d a imm) d a (fun x => truth (x.toNat < (imm.signExtend 64).toNat))
  | seqi d a imm : OneSource (.seqi d a imm) d a (fun x => truth (x = imm.signExtend 64))
  | clz d a : OneSource (.clz d a) d a (fun x => BitVec.ofNat 64 (clzN 64 x.toNat))
  | ctz d a : OneSource (.ctz d a) d a (fun x => BitVec.ofNat 64 (ctzN 64 x.toNat))
  | popc d a : OneSource (.popc d a) d a (fun x => BitVec.ofNat 64 (popcN 64 x.toNat))
  | brev d a : OneSource (.brev d a) d a (fun x => BitVec.ofNat 64 (revN 64 x.toNat))
  | bswap d a : OneSource (.bswap d a) d a (fun x => leWord (leBytes 8 x.toNat).reverse)

/-- Instructions that read no source field: the field d and the value. -/
inductive NoSource : Instr → State → Reg5 → Word → Prop
  | lui d imm s : NoSource (.lui d imm) s d (imm.signExtend 64 <<< 12)
  | auipc d imm s : NoSource (.auipc d imm) s d (s.cur.pc + imm.signExtend 64 <<< 12)
  | csrr d csr s : NoSource (.csrr d csr) s d (csrValue s s.cur csr.toNat)

/-- The compare-branches: fields and condition (Table 6-8). -/
inductive Branch : Instr → Reg5 → Reg5 → BitVec 13 → (Word → Word → Prop) → Prop
  | beq a b off : Branch (.beq a b off) a b off (fun x y => x = y)
  | bne a b off : Branch (.bne a b off) a b off (fun x y => x ≠ y)
  | blt a b off : Branch (.blt a b off) a b off (fun x y => x.toInt < y.toInt)
  | bge a b off : Branch (.bge a b off) a b off (fun x y => y.toInt ≤ x.toInt)
  | bltu a b off : Branch (.bltu a b off) a b off (fun x y => x.toNat < y.toNat)
  | bgeu a b off : Branch (.bgeu a b off) a b off (fun x y => y.toNat ≤ x.toNat)

/-- Control-register writes: the field a, the register, and the value from the old one and the source (R107). -/
inductive CsrWrite : Instr → Reg5 → Nat → (Word → Word → Word) → Bool → Prop
  | csrw a csr : CsrWrite (.csrw a csr) a csr.toNat (fun _ x => x) true
  | csrs a csr : CsrWrite (.csrs a csr) a csr.toNat (fun old x => old ||| x) false
  | csrc a csr : CsrWrite (.csrc a csr) a csr.toNat (fun old x => old &&& ~~~x) false
  | winset a w : CsrWrite (.winset a w) a (0x050 + w.toNat) (fun _ x => x) true

end Sys2Proof.Machine

open Sys2Proof Sys2Proof.Machine

/-- R409 and Table 7-2: after power-on no context, no thread, no commissioning record and no beacon exist, and no command
of a port is outstanding. -/
def Obligations.ResetHoldsNothing : Prop :=
  State.reset.ctxs = [] ∧ State.reset.commission = none ∧ State.reset.beacon = none ∧ State.reset.keys = [] ∧
    State.reset.slots = [] ∧ State.reset.cur.occupied = false ∧ State.reset.cur.status = .vacant ∧
    State.reset.nonces = [] ∧ State.reset.replies = [] ∧ State.reset.notices = []

/-- The canonical form of memory holds after power-on.
What an unlisted byte reads as is said in log 4. -/
def Obligations.ResetMemoryCanonical : Prop := State.reset.MemInv

/-- Every step keeps memory in its canonical form. -/
def Obligations.StepKeepsMemoryCanonical : Prop :=
  ∀ s t : State, s.MemInv → step s = .next t → t.MemInv

/-- For every well-formed instruction, with every operand at every value its encoding admits, the decoder reads back from
the encoder's word exactly that instruction: in referee mode every word, outside it the words below major 0x3C (R73).
Which fields a well-formed instruction may hold is read from Tables 4-2 to 4-13. -/
def Obligations.DecodeEncodeRoundTrip : Prop :=
  ∀ i : Instr, i.WellFormed → ∀ ref : Bool, (ref = true ∨ fld (encodeNat i) 31 26 < 60) → decode ref (encode i) = .ok i

/-- Words written out from the spec's encodings decode to the instructions they stand for. -/
def Obligations.WordsDecodeAsWritten : Prop :=
  decode false 0x04A31000#32 = .ok (.add 5 3 2) ∧ decode false 0x08A3FFFF#32 = .error 3 ∧
    decode false 0x08A30FFF#32 = .ok (.addi 5 3 0xFFF) ∧ decode false 0x20A36010#32 = .ok (.ld 5 3 16) ∧
    decode false 0x24C36008#32 = .error 3 ∧ decode false 0x3C005000#32 = .ok .eret ∧
    decode false 0x3C007001#32 = .ok (.brk 1) ∧ decode false 0x58C30005#32 = .ok (.wqry 6 3 0) ∧
    decode false 0x00000000#32 = .error 1 ∧ decode false 0xF8000000#32 = .error 2

/-- A step runs the next event of the agenda; with none, and no background event due (the model orders none itself, or none is
due), a turn of the current thread that fetches a word decoding to an instruction runs that instruction, and then the turn is
accounted and the next one chosen.
The order in which a step takes events and turns is the model's choice (log 1, 6). -/
def Obligations.StepRunsTheDecodedInstruction : Prop :=
  (∀ (s : State) (i : Instr) (rest : List Instr), s.agenda = i :: rest → step s = exec i { s with agenda := rest }) ∧
  (∀ (s s' t : State) (w : IWord) (i : Instr), s.agenda = [] → s.auto = false ∨ due s = none → throttled s = false →
    s.pastStop s.cur = false → (∀ x, s.ctxOf s.cur = some x → x.overrun = false ∨ ∃ e, x.err = some e ∧ e.stopped = true) →
    s.cur.status = .ready → s.cur.busy = 0 → s.cur.energyDue = false → fetch s = .word w s' →
    decode s'.cur.ref w = .ok i → exec i { s' with cur := { s'.cur with ir := w } } = .next t →
    t.cur.wait ≠ some .ifetch → step s = .next (advance (debugNote s.cur .issued (account s.cur .issued t))))

/-- R58, R99: s0 reads as zero and discards what is written; a register reads what was written to it and no write changes
another; a source field below 24 reads its register and changes nothing; a queue field pops the oldest word of its queue, and has
none while the queue is empty; an empty queue holds the thread in WAITMSG with nothing popped, and the pc stands. What else a pop
notes serves R239 (log 66): a matrix record's tile write, and what the push of a word of q2 or q3 released. -/
def Obligations.RegistersAndQueuesAsSources : Prop :=
  (∀ (c : Slot) (n m : Nat) (w : Word),
     c.reg 0 = 0 ∧ c.setReg 0 w = c ∧ (0 < n → n < 24 → (c.setReg n w).reg n = w) ∧ (n ≠ m → (c.setReg n w).reg m = c.reg m)) ∧
  ((∀ (c : Slot) (r : Reg5), r.toNat < 24 → c.readReg r = some (c.reg r.toNat, c)) ∧
   (∀ (c : Slot) (w : Word) (ws : List Word),
     (c.q0read = w :: ws → c.readReg 24 = some (w, { c with
       q0read := ws, q0tiles := c.q0tiles.drop 1,
       popTiles := if c.q0tiles.headD 0 = 0 then c.popTiles else insertNat (c.q0tiles.headD 0) c.popTiles })) ∧
     (c.q1read = w :: ws → c.readReg 25 = some (w, { c with q1read := ws })) ∧
     (c.q2recv = w :: ws → c.readReg 26 = some (w, { c with
       q2recv := ws, q2seen := c.q2seen.drop 1, tileSeen := max c.tileSeen (c.q2seen.headD 0) })) ∧
     (c.q3read = w :: ws → c.readReg 27 = some (w, { c with
       q3read := ws, q3seen := c.q3seen.drop 1, tileSeen := max c.tileSeen (c.q3seen.headD 0) })) ∧
     (c.q4read = w :: ws → c.readReg 28 = some (w, { c with q4read := ws }))) ∧
   (∀ c : Slot,
     (c.q0read = [] → c.readReg 24 = none) ∧ (c.q1read = [] → c.readReg 25 = none) ∧ (c.q2recv = [] → c.readReg 26 = none) ∧
     (c.q3read = [] → c.readReg 27 = none) ∧ (c.q4read = [] → c.readReg 28 = none)) ∧
   (∀ (i : Instr) (d a b : Reg5) (f : Word → Word → Word → Word) (s : State), TwoSource i d a b f →
     (s.cur.readReg a = none ∨ ∃ x c, s.cur.readReg a = some (x, c) ∧ c.readReg b = none) →
     exec i s = .next { s with cur := { s.cur with wait := some .sources, status := .waitMsg } }))

/-- Tables 6-5, 6-6 and 6-7: the two-source scalar instructions write the value that the tables give of the old register d,
a and b, go on at pc + 4, and change nothing else. -/
def Obligations.TwoSourceScalarResults : Prop :=
  ∀ (i : Instr) (d a b : Reg5) (f : Word → Word → Word → Word) (s : State) (x y : Word) (c₁ c₂ : Slot),
    TwoSource i d a b f → s.cur.readReg a = some (x, c₁) → c₁.readReg b = some (y, c₂) →
    Writes i s c₂ d (f (s.cur.reg d.toNat) x y) c₂.npc

/-- Tables 6-5 and 6-7: the one-source scalar instructions, immediates sign-extended (R57); R107, R115: LUI, AUIPC and CSRR,
which have no source. That CSRR of a window that the kernel does not declare reads its value and takes no REGDECL, and that CFLAGS
is as it stands in the issue cycle, are the model's readings (log 15, 32). -/
def Obligations.OneSourceScalarResults : Prop :=
  (∀ (i : Instr) (d a : Reg5) (f : Word → Word) (s : State) (x : Word) (c : Slot),
     OneSource i d a f → s.cur.readReg a = some (x, c) → Writes i s c d (f x) c.npc) ∧
  (∀ (i : Instr) (d : Reg5) (w : Word) (s : State), NoSource i s d w → Writes i s s.cur d w s.cur.npc)

/-- Table 6-7 by bits: what CLZ, CTZ, POPC, BREV and BSWAP count or move. -/
def Obligations.BitOperationsByBits : Prop :=
  ∀ x : Word,
    (∀ i, i < 64 → ((BitVec.ofNat 64 (revN 64 x.toNat)).getLsbD i = x.getLsbD (63 - i))) ∧
    (∀ i, i < 64 → ((leWord (leBytes 8 x.toNat).reverse).getLsbD i = x.getLsbD (8 * (7 - i / 8) + i % 8))) ∧
    (x = 0 → clzN 64 x.toNat = 64 ∧ ctzN 64 x.toNat = 64) ∧
    (x ≠ 0 → clzN 64 x.toNat < 64 ∧ x.getLsbD (63 - clzN 64 x.toNat) = true ∧
      ∀ i, 63 - clzN 64 x.toNat < i → x.getLsbD i = false) ∧
    (x ≠ 0 → ctzN 64 x.toNat < 64 ∧ x.getLsbD (ctzN 64 x.toNat) = true ∧ ∀ i, i < ctzN 64 x.toNat → x.getLsbD i = false) ∧
    popcN 64 x.toNat = ((List.range 64).filter (fun i => x.getLsbD i)).length

/-- R58, R267, R285, R301, R390: a result for q1, q3 or q4 takes QUEUE; a word for q0 is checked as a command word (R269): one
that passes enters while the push side has room for it, a header of MXRING is held and the next word enters with it, and one that
fails takes its trap, a second word with the held header dropped; a word for q5 is kept with its cycle and pc while the context
is traced and q5 has fewer than 8, waits with 8, and is dropped untraced; a word for q2 is appended while it holds fewer than 16,
a header once its check passes, and waits otherwise; a header that its check refuses takes QUEUE. R34, R235: a push is a release to the queue's consumer: to the
cluster's matrix unit or debug module, and to the slot that receives the message. What an MXST word's window is given is log 65. -/
def Obligations.QueueDestinations : Prop :=
  ∀ (s : State) (c : Slot) (w npc : Word),
    (pushQueue s c 25 w npc = trap s c .queue 2 ∧ pushQueue s c 27 w npc = trap s c .queue 2 ∧
      pushQueue s c 28 w npc = trap s c .queue 2) ∧
    (∀ x, s.ctxOf c = some x → c.q0held = none →
      (∀ r, checkCommand x c w none = some r → pushQueue s c 24 w npc = trap s c r.1 r.2) ∧
      (checkCommand x c w none = none → bits w 63 60 = 5 → c.q0push.length ≤ 4 →
        pushQueue s c 24 w npc = .next { s with cur := { c.release .clus s.seq with q0held := some w, pc := npc } }) ∧
      (checkCommand x c w none = none → bits w 63 60 ≠ 5 → bits w 63 60 ≠ 3 → c.q0push.length < 4 →
        pushQueue s c 24 w npc = .next { s with
          cur := { c.release .clus s.seq with q0push := c.q0push ++ [(w, s.seq)], pc := npc } }) ∧
      (∀ u, checkCommand x c w none = none → bits w 63 60 = 3 → c.q0push.length < 4 → s.unitAt (clusOf c.phys) = some u →
        pushQueue s c 24 w npc = .next { s with
          cur := { c.release .clus s.seq with q0push := c.q0push ++ [(w, s.seq)], pc := npc },
          matrix := updKey (fun v => v.clus == u.clus) { u with stWins := u.stWins ++ [(c.phys, c.win (bits w 49 47))] } s.matrix }) ∧
      (checkCommand x c w none = none → bits w 63 60 ≠ 5 → 4 ≤ c.q0push.length →
        pushQueue s c 24 w npc = .next { s with cur := { c with wait := some (.push 24 w npc .nothing), status := .waitMsg } })) ∧
    (∀ x h, s.ctxOf c = some x → c.q0held = some h →
      (∀ r, checkSecond w = some r → pushQueue s c 24 w npc = trap s { c with q0held := none } r.1 r.2) ∧
      (checkSecond w = none → bits h 63 60 = 5 → c.q0push.length ≤ 2 →
        pushQueue s c 24 w npc = .next { s with
          cur := { c.release .clus s.seq with q0push := c.q0push ++ [(h, s.seq), (w, s.seq)], q0held := none, pc := npc } }) ∧
      (checkSecond w = none → 2 < c.q0push.length →
        pushQueue s c 24 w npc = .next { s with cur := { c with wait := some (.push 24 w npc .nothing), status := .waitMsg } })) ∧
    (s.traceKept c = false → pushQueue s c 29 w npc = .next { s with cur := { c.release .clus s.seq with pc := npc } }) ∧
    (s.traceKept c = true → c.q5.length < 8 →
      pushQueue s c 29 w npc = .next { s with
        cur := { c.release .clus s.seq with q5 := c.q5 ++ [{ word := w, cycle := s.cycle, pc := c.pc }], pc := npc } }) ∧
    (s.traceKept c = true → 8 ≤ c.q5.length →
      pushQueue s c 29 w npc = .next { s with cur := { c with wait := some (.push 29 w npc .nothing), status := .waitMsg } }) ∧
    (∀ x sc, s.ctxOf c = some x → bodyMissing 0 (c.q2send.map (fun e => e.1)) ≠ none → c.q2send.length < 16 →
      sc = placeScope c.phys (headerSlot x (lastHeader 0 w (c.q2send.map (fun e => e.1) ++ [w]))) →
      pushQueue s c 26 w npc = .next { s.publish c sc with
        cur := { c.release sc s.seq with q2send := c.q2send ++ [(w, s.seq)], pc := npc } }) ∧
    (∀ x sc, s.ctxOf c = some x → bodyMissing 0 (c.q2send.map (fun e => e.1)) = none → checkHeader x w = none →
      c.q2send.length < 16 → sc = placeScope c.phys (headerSlot x w) →
      pushQueue s c 26 w npc = .next { s.publish c sc with
        cur := { c.release sc s.seq with q2send := c.q2send ++ [(sentHeader c w, s.seq)], pc := npc } }) ∧
    (∀ x, s.ctxOf c = some x → 16 ≤ c.q2send.length →
      (bodyMissing 0 (c.q2send.map (fun e => e.1)) ≠ none ∨ checkHeader x w = none) →
      pushQueue s c 26 w npc = .next { s with cur := { c with wait := some (.push 26 w npc .nothing), status := .waitMsg } }) ∧
    (∀ x r, s.ctxOf c = some x → bodyMissing 0 (c.q2send.map (fun e => e.1)) = none → checkHeader x w = some r →
      pushQueue s c 26 w npc = trap s c .queue (BitVec.ofNat 64 r))

/-- R116, Table 6-8: a compare-branch reads a, then b, and goes to pc + 4 × SInt(off13, 13) when its condition holds, else
to pc + 4; nothing else changes. R55, R117: JAL and JALR write the link pc + 4 and jump; a JALR target that is not a multiple of
4 takes MISALIGN with TVAL the target and writes no link. -/
def Obligations.BranchesAndJumpsGo : Prop :=
  (∀ (i : Instr) (a b : Reg5) (off : BitVec 13) (p : Word → Word → Prop) (s : State) (x y : Word) (c₁ c₂ : Slot),
     Branch i a b off p → s.cur.readReg a = some (x, c₁) → c₁.readReg b = some (y, c₂) →
     (p x y → exec i s = .next { s with cur := { c₂ with pc := c₂.pc + (off.signExtend 64 <<< 2) } }) ∧
     (¬ p x y → exec i s = .next { s with cur := { c₂ with pc := c₂.pc + 4 } })) ∧
  (∀ (s : State) (d a : Reg5) (off : BitVec 21) (imm : BitVec 12) (x : Word) (c : Slot),
     Writes (.jal d off) s s.cur d (s.cur.pc + 4) (s.cur.pc + (off.signExtend 64 <<< 2)) ∧
     (s.cur.readReg a = some (x, c) →
       ((x + imm.signExtend 64).toNat % 4 = 0 → Writes (.jalr d a imm) s c d (c.pc + 4) (x + imm.signExtend 64)) ∧
       ((x + imm.signExtend 64).toNat % 4 ≠ 0 → exec (.jalr d a imm) s = trap s c .misalign (x + imm.signExtend 64))))

/-- R85, R104, R107, R219: CSRW, CSRS, CSRC and WINSET write the read-write fields of their register and go on; a value the
register does not take is ILLEGAL with TVAL 3: FMODE 5 to 7, and a window descriptor whose FMT is reserved (14, 15, 19 to 30) or
whose LAYOUT is 2 or 3; CSRW and WINSET of an undeclared window take REGDECL before the source is read.
Tables 5-3, 5-6, 6-3, 6-4 and 12-3: what was written is read back in the read-write fields, and reserved bits read zero.
That CSRS and CSRC of an undeclared window take no REGDECL is the model's reading (log 15). -/
def Obligations.ControlRegisterWrites : Prop :=
  (∀ (i : Instr) (a : Reg5) (n : Nat) (f : Word → Word → Word) (decl : Bool) (s : State),
     CsrWrite i a n f decl → n ∈ [0x001, 0x002, 0x010, 0x011, 0x012, 0x013, 0x014, 0x034, 0x040, 0x041, 0x042, 0x043, 0x050,
       0x051, 0x052, 0x053, 0x054, 0x055, 0x056, 0x057] →
     ((decl = true ∧ 0x050 ≤ n ∧ s.cur.decl.windows ≤ n - 0x050 →
       exec i s = trap s s.cur .regdecl (BitVec.ofNat 64 (0x100 + (n - 0x050)))) ∧
     (∀ x c, s.cur.readReg a = some (x, c) → ¬(decl = true ∧ 0x050 ≤ n ∧ s.cur.decl.windows ≤ n - 0x050) →
       (csrRefused n (f (csrValue s c n) x) = false →
         exec i s = .next { s with cur := { c.writeCsr n (f (csrValue s c n) x) with pc := c.pc + 4 } }) ∧
       (csrRefused n (f (csrValue s c n) x) = true → exec i s = trap s c .illegal 3)))) ∧
  (∀ (n : Nat) (w : Word),
     (csrRefused 0x001 w = true ↔ w.toNat % 8 = 5 ∨ w.toNat % 8 = 6 ∨ w.toNat % 8 = 7) ∧
     (0x050 ≤ n → n ≤ 0x057 → (csrRefused n w = true ↔
       w.toNat % 32 = 14 ∨ w.toNat % 32 = 15 ∨ (19 ≤ w.toNat % 32 ∧ w.toNat % 32 ≤ 30) ∨ 2 ≤ w.toNat / 2 ^ 32 % 4)) ∧
     (n ≠ 0x001 → n < 0x050 ∨ 0x057 < n → csrRefused n w = false)) ∧
  (∀ (s : State) (c : Slot) (w : Word),
     csrValue s (c.writeCsr 0x001 w) 0x001 = w &&& 7 ∧ csrValue s (c.writeCsr 0x002 w) 0x002 = w &&& 31 ∧
     csrValue s (c.writeCsr 0x010 w) 0x010 = w &&& 0xFF ∧ csrValue s (c.writeCsr 0x011 w) 0x011 = w &&& ~~~3 ∧
     csrValue s (c.writeCsr 0x012 w) 0x012 = w &&& 0xFFFFFFFF ∧ csrValue s (c.writeCsr 0x013 w) 0x013 = w ∧
     csrValue s (c.writeCsr 0x014 w) 0x014 = w &&& ~~~3 ∧
     csrValue s (c.writeCsr 0x034 w) 0x034 = (w &&& 0x100) ||| c.denyEv.setWidth 64 ∧
     (∀ n, n < 4 → csrValue s (c.writeCsr (0x040 + n) w) (0x040 + n) = w &&& 0xFFFFFFFF) ∧
     (∀ n, n < 8 → csrValue s (c.writeCsr (0x050 + n) w) (0x050 + n) = w &&& 0x3FE3FFFFF))

namespace Sys2Proof.Machine

/-! ### Tables: traps, memory, tasks -/

/-- Some instructions or events run one after the other. -/
def Runs : List Instr → State → State → Prop
  | [], s, t => s = t
  | i :: is, s, t => ∃ u, exec i s = .next u ∧ Runs is u t

/-- The current thread waits for something, its pc at the instruction. -/
def waiting (s : State) (c : Slot) (w : Wait) : State := { s with cur := { c with wait := some w, status := w.status } }

/-- The current thread goes on at the next word. -/
def goesOn (s : State) (c : Slot) : State := { s with cur := { c with pc := c.pc + 4 } }

/-- The instructions that raise a trap as their effect (Table 8-2): the slot after their pops, the cause and TVAL. -/
inductive Raises : Instr → State → Slot → TrapCause → Word → Prop
  | trap a code s cause x c : TrapCause.ofCode code.toNat = some cause → cause ≠ .uncorr → s.cur.readReg a = some (x, c) →
      Raises (.trap a code) s c cause x
  | ucall n s : Raises (.ucall n) s s.cur .ucall (n.setWidth 64)
  | brk n s : Raises (.brk n) s s.cur .brk (n.setWidth 64)

/-- Scalar loads: fields, bytes, and whether the value is sign-extended (Table 12-5). -/
inductive ScalarLoad : Instr → Reg5 → Reg5 → BitVec 12 → Nat → Bool → Prop
  | lb d a imm : ScalarLoad (.lb d a imm) d a imm 1 true
  | lbu d a imm : ScalarLoad (.lbu d a imm) d a imm 1 false
  | lh d a imm : ScalarLoad (.lh d a imm) d a imm 2 true
  | lhu d a imm : ScalarLoad (.lhu d a imm) d a imm 2 false
  | lw d a imm : ScalarLoad (.lw d a imm) d a imm 4 true
  | lwu d a imm : ScalarLoad (.lwu d a imm) d a imm 4 false
  | ld d a imm : ScalarLoad (.ld d a imm) d a imm 8 false
  | ldo d a acq sc imm : ScalarLoad (.ldo d a acq sc imm) d a imm 8 false

/-- Scalar stores: the data field, the base field, bytes, and the scope of the release that the store is (Table 12-5, R224). -/
inductive ScalarStore : Instr → Reg5 → Reg5 → BitVec 12 → Nat → Option Scope → Prop
  | sb b a imm : ScalarStore (.sb b a imm) b a imm 1 none
  | sh b a imm : ScalarStore (.sh b a imm) b a imm 2 none
  | sw b a imm : ScalarStore (.sw b a imm) b a imm 4 none
  | sd b a imm : ScalarStore (.sd b a imm) b a imm 8 none
  | sto b a rel sc imm : ScalarStore (.sto b a rel sc imm) b a imm 8 (if rel then some sc else none)

/-- A thread's release points after an access that is a release of a scope, or none (R235). -/
def boundsAfter (s : State) (c : Slot) (rel : Option Scope) : Bounds :=
  match rel with
  | some sc => c.rels.release sc s.seq
  | none => c.rels

/-- The state and the thread after an access that is a release of a scope, or none (R235, R239). -/
def afterRelease (s : State) (c : Slot) (rel : Option Scope) : State × Slot :=
  match rel with
  | some sc => (s.publish c sc, c.release sc s.seq)
  | none => (s, c)

/-- The value of some bytes, sign-extended or zero-extended (R223). -/
def extended (signed : Bool) (n : Nat) (bs : List Byte) : Word :=
  if signed then (BitVec.ofNat (8 * n) (leNat bs)).signExtend 64 else BitVec.ofNat 64 (leNat bs)

/-- Atomics (Table 16-2). -/
inductive Atomic : Instr → AtomOp → Reg5 → Reg5 → Reg5 → Kind → Scope → Bool → Bool → Prop
  | aadd d a b kind sc o w32 : Atomic (.aadd d a b kind sc o w32) .add d a b kind sc o w32
  | aand d a b kind sc o w32 : Atomic (.aand d a b kind sc o w32) .and d a b kind sc o w32
  | aor d a b kind sc o w32 : Atomic (.aor d a b kind sc o w32) .or d a b kind sc o w32
  | axor d a b kind sc o w32 : Atomic (.axor d a b kind sc o w32) .xor d a b kind sc o w32
  | amin d a b kind sc o w32 : Atomic (.amin d a b kind sc o w32) .min d a b kind sc o w32
  | amax d a b kind sc o w32 : Atomic (.amax d a b kind sc o w32) .max d a b kind sc o w32
  | aminu d a b kind sc o w32 : Atomic (.aminu d a b kind sc o w32) .minu d a b kind sc o w32
  | amaxu d a b kind sc o w32 : Atomic (.amaxu d a b kind sc o w32) .maxu d a b kind sc o w32
  | axchg d a b kind sc o w32 : Atomic (.axchg d a b kind sc o w32) .xchg d a b kind sc o w32

/-- Reductions (Table 16-3). -/
inductive Reduction : Instr → AtomOp → Reg5 → Reg5 → Option Scope → Bool → Bool → Prop
  | radd a b rel sc o w32 : Reduction (.radd a b rel sc o w32) .add a b (if rel then some sc else none) o w32
  | rand a b rel sc o w32 : Reduction (.rand a b rel sc o w32) .and a b (if rel then some sc else none) o w32
  | ror a b rel sc o w32 : Reduction (.ror a b rel sc o w32) .or a b (if rel then some sc else none) o w32
  | rxor a b rel sc o w32 : Reduction (.rxor a b rel sc o w32) .xor a b (if rel then some sc else none) o w32
  | rmin a b rel sc o w32 : Reduction (.rmin a b rel sc o w32) .min a b (if rel then some sc else none) o w32
  | rmax a b rel sc o w32 : Reduction (.rmax a b rel sc o w32) .max a b (if rel then some sc else none) o w32
  | rfadd a b rel sc o w32 : Reduction (.rfadd a b rel sc o w32) .fadd a b (if rel then some sc else none) o w32

/-- The request of an atomic from its operands, with the release points before it. -/
def request (op : AtomOp) (w32 : Bool) (x v cmp : Word) (k : Nat) (o : Bool) (b : Bounds) : AtomReq :=
  { op := op, w32 := w32, va := x, loc := k, val := if w32 then (v.setWidth 32).setWidth 64 else v,
    cmp := if w32 then (cmp.setWidth 32).setWidth 64 else cmp, ord := o, bounds := b }

/-- The slot after the entry of its handler (R152): what the entry sets, and that the thread is back in the rotation. -/
def handled (c : Slot) (cause : TrapCause) (tval : Word) (word : IWord) (mig : Bool) : Slot :=
  { c with tcause := BitVec.ofNat 8 cause.code, tepc := c.pc, tword := word, tval := tval, inh := true, mig := mig, pc := c.thand,
           status := .ready, busy := 0, late := none, wait := none, block := none,
           resumeAt := if mig then c.resumeAt else none }

/-- A thread has stopped at a fatal trap, and its context is in ERROR (R154, R157). -/
def FatalEnd (s : State) (c : Slot) (x : Ctx) (t : State) : Prop :=
  t.cur.status = .stopped ∧ t.cur.tcause = c.tcause ∧ t.cur.tepc = c.tepc ∧ t.cur.tword = c.tword ∧ t.cur.tval = c.tval ∧
    t.cur.inh = c.inh ∧ t.cur.mig = c.mig ∧ t.cur.regs = c.regs ∧ t.mem = s.mem ∧
    ∃ y e, t.ctxAt x.id = some y ∧ y.state = .error ∧ y.err = some e ∧ e.kind = 0 ∧ e.further = 0

end Sys2Proof.Machine

/-- R152: a trap with a handler, outside it, sets TCAUSE, TEPC, TWORD, TVAL, INH and MIG and goes to THAND, and nothing else
changes; one that arose inside a migrating block sets MIG, once its registers have travelled home; a fetch that failed leaves
TWORD 0. R74: a word that is not an instruction takes ILLEGAL so, with the word in TWORD and its reason in TVAL. -/
def Obligations.TrapEntersTheHandler : Prop :=
  (∀ (s : State) (c : Slot) (cause : TrapCause) (tval : Word), c.phys = s.cur.phys → c.ref = false → c.thand ≠ 0 → c.inh = false →
    cause ≠ .uncorr →
    (c.block = none → trap s c cause tval = .next { s with cur := handled c cause tval c.ir false }) ∧
    (∀ b, c.block = some b → c.busy = 0 →
      ∃ t, trap s c cause tval = .next t ∧ { t with cur := s.cur } = s ∧ t.cur.block = none ∧
        Runs [.migrBlockReturn s.cur.phys, .threadRejoin s.cur.phys] t { s with
          cur := handled { c with resumeAt := some (c.pc, { b with idx := b.idx - 1, reads := [], stores := [] }) }
            cause tval c.ir true })) ∧
  (∀ (s : State) (cause : TrapCause) (tval : Word), s.cur.occupied = true → s.cur.ref = false → s.cur.thand ≠ 0 →
    s.cur.inh = false → s.cur.block = none → resolve s s.cur s.cur.pc 4 .fetch = .error (cause, tval) → cause ≠ .uncorr →
    exec (.instructionFetchTrap cause tval) s = .next { s with
      cur := handled { s.cur with ir := 0 } cause tval 0 false }) ∧
  (∀ (s : State) (word : IWord) (reason : Nat), s.cur.occupied = true → s.cur.ref = false → s.cur.thand ≠ 0 → s.cur.inh = false →
    s.cur.block = none → decode false word = .error reason →
    exec (.illegalWord word reason) s = .next { s with
      cur := handled { s.cur with ir := word } .illegal (BitVec.ofNat 64 reason) word false })

/-- R154, R157: with no handler, in a handler, or with UNCORR a trap is fatal: no trap register changes, the thread is
stopped, and its context enters ERROR with a fault record of kind 0; inside a migrating block, once the registers have
travelled home. -/
def Obligations.FatalTrapStopsTheContext : Prop :=
  ∀ (s : State) (c : Slot) (x : Ctx) (cause : TrapCause) (tval : Word), c.phys = s.cur.phys → c.ref = false →
    (c.thand = 0 ∨ c.inh = true ∨ cause = .uncorr) → s.ctxOf c = some x → x.err = none →
    (c.block = none → ∃ t, trap s c cause tval = .next t ∧ FatalEnd s c x t) ∧
    (c.block ≠ none → c.busy = 0 → ∃ t u, trap s c cause tval = .next t ∧ t.mem = s.mem ∧ t.cur.block = none ∧
      Runs [.migrBlockReturn s.cur.phys, .threadRejoin s.cur.phys] t u ∧ FatalEnd s c x u)

/-- R153, R152: TRAP, UCALL and BRK take their trap with a handler outside it, with the TVAL that Table 8-2 gives; ERET goes
to TEPC and clears INH and MIG; R155: with MIG set, to the TEPC of a block's trapping instruction, the thread goes on at the
channel core, in the block's rest. -/
def Obligations.TrapInstructionsTakeTheirTrap : Prop :=
  (∀ (i : Instr) (s : State) (c : Slot) (cause : TrapCause) (tval : Word), Raises i s c cause tval →
    c.phys = s.cur.phys → c.block = none → c.ref = false → c.thand ≠ 0 → c.inh = false →
    ∃ t, exec i s = .next t ∧ { t with cur := s.cur } = s ∧ t.cur.tcause = BitVec.ofNat 8 cause.code ∧ t.cur.tepc = c.pc ∧
      t.cur.tword = c.ir ∧ t.cur.tval = tval ∧ t.cur.inh = true ∧ t.cur.mig = false ∧ t.cur.pc = c.thand ∧
      t.cur.regs = c.regs) ∧
  (∀ s : State, s.cur.mig = false ∨ (∀ p b, s.cur.resumeAt = some (p, b) → p ≠ s.cur.tepc) →
    exec .eret s = .next { s with cur := { s.cur with pc := s.cur.tepc, inh := false, mig := false, resumeAt := none } }) ∧
  (∀ (s : State) (b : Block) (x : Ctx), s.cur.mig = true → s.cur.resumeAt = some (s.cur.tepc, b) → s.ctxOf s.cur = some x →
    s.cur.ref = false → s.cur.status = .ready → (∃ off, b.slice.toNat = 2 ^ 48 + off ∧ off < 2 ^ 55 ∧
      resolveDev x b.slice off (.load 1) = .ok (devKey x.id b.slice) ∧
      s.earlyHeld (coreOf s.cur.phys) (devKey x.id b.slice / 256 * 256) 256 = false ∧
      s.writePending (coreOf s.cur.phys) (devKey x.id b.slice / 256 * 256) 256 = false ∧
      s.blocksAt (x.channelCore off) < 8) →
    s.earlierPending s.cur.phys (s.seq + 1) = false → s.sliceHeld s.cur.phys (devKey x.id b.slice) = false →
    s.tlbHit (devKey x.id b.slice) = true →
    ∃ t, Runs [.eret, .migrBlockAccept s.cur.phys] s t ∧ t.cur.block = some b ∧ t.cur.wait = none ∧ t.cur.pc = s.cur.tepc ∧
      t.cur.inh = false ∧ t.cur.mig = false ∧ t.cur.regs = s.cur.regs ∧ t.mem = s.mem)

/-- R207: the checks of an access in their order: CANON, then MISALIGN with TVAL the address, and only then the region. In a hole
a full/empty access or an atomic takes PERM, by its own rule (R225, R259), where any other takes BOUNDS (log 63). -/
def Obligations.AccessChecksInOrder : Prop :=
  ∀ (s : State) (c : Slot) (va : Word) (n : Nat) (acc : Acc),
    (2 ^ 57 ≤ va.toNat → resolve s c va n acc = .error (.canon, va)) ∧
    (va.toNat < 2 ^ 57 → va.toNat % n ≠ 0 → resolve s c va n acc = .error (.misalign, va)) ∧
    (∀ x, s.ctxOf c = some x → c.ref = false → va.toNat % n = 0 → acc ≠ .fetch →
      (va.toNat < 0x40000 → va.toNat < coreBound x c →
        resolve s c va n acc = .ok (keyOf Space.core (shareUnit (coreOf c.phys) x.id) va.toNat)) ∧
      (va.toNat < 0x40000 → coreBound x c ≤ va.toNat → resolve s c va n acc = .error (.bounds, va)) ∧
      (0x40000 ≤ va.toNat → va.toNat < 0x100000 →
        (acc ≠ .fe → acc ≠ .atomic → resolve s c va n acc = .error (.bounds, va)) ∧
        (acc = .fe ∨ acc = .atomic → resolve s c va n acc = .error (.perm, va))) ∧
      (0x100000 ≤ va.toNat → va.toNat < 0x300000 → c.decl.windows ≤ (va.toNat - 0x100000) / 0x40000 →
        resolve s c va n acc = .error (.regdecl, BitVec.ofNat 64 (0x100 + (va.toNat - 0x100000) / 0x40000))))

/-- R223: a scalar load of the own core scratchpad, which nothing holds back, writes its bytes, extended, and goes on; any
other waits for its data; an access that a check refuses traps. R3: data that no check can correct takes UNCORR. A load that is an
acquire sees the tiles that have been published by then (log 66). -/
def Obligations.ScalarLoadResults : Prop :=
  ∀ (i : Instr) (d a : Reg5) (imm : BitVec 12) (n : Nat) (signed : Bool) (s : State) (x : Word) (c : Slot),
    ScalarLoad i d a imm n signed → s.cur.readReg a = some (x, c) → c.block = none → destReason s c d = none →
    (∀ k, resolve s c (x + imm.signExtend 64) n (.load n) = .ok k →
      (ownCore c k = true → s.loadStalls c.phys k n = false →
        (s.errorAt k n = none → Writes i s (s.acquired c) d (extended signed n (s.readCoreN (coreOf c.phys) k n)) (c.pc + 4)) ∧
        (∀ e, s.errorAt k n = some e →
          exec i s = .next (fatalTrap s c .uncorr (x + imm.signExtend 64) c.ir e.place))) ∧
      (ownCore c k = false ∨ s.loadStalls c.phys k n = true →
        exec i s = .next (waiting s c (.load d (x + imm.signExtend 64) n signed)))) ∧
    (∀ cause tval, resolve s c (x + imm.signExtend 64) n (.load n) = .error (cause, tval) → exec i s = trap s c cause tval)

/-- R223, R224: a scalar store enters its bytes, low byte first, at the location of its address into the core's store
buffer and goes on; memory at its home is unchanged; with the buffer full the thread waits. R235: a release carries its scope, and
is a release point of its thread. -/
def Obligations.ScalarStoreResults : Prop :=
  ∀ (i : Instr) (b a : Reg5) (imm : BitVec 12) (n : Nat) (rel : Option Scope) (s : State) (x v : Word) (c₁ c : Slot),
    ScalarStore i b a imm n rel → s.cur.readReg a = some (x, c₁) → c₁.readReg b = some (v, c) → c.block = none →
    (∀ k, resolve s c (x + imm.signExtend 64) n (.store n) = .ok k →
      (s.sbCount (coreOf c.phys) < 32 →
        exec i s = .next { (afterRelease s c rel).1 with
          cur := { (afterRelease s c rel).2.ready with pc := c.pc + 4 },
          sbuf := s.sbuf ++ [{ core := coreOf c.phys, slot := c.phys, seq := s.seq, rel := rel, unit := n,
                               bounds := boundsAfter s c rel, cells := cellsAt k (leBytes n v.toNat) }],
          seq := s.seq + 1 }) ∧
      (32 ≤ s.sbCount (coreOf c.phys) →
        ∃ t, exec i s = .next t ∧ { t with seq := s.seq } = waiting s c (.store [cellsAt k (leBytes n v.toNat)] rel n s.seq 0))) ∧
    (∀ cause tval, resolve s c (x + imm.signExtend 64) n (.store n) = .error (cause, tval) → exec i s = trap s c cause tval)

/-- R238: after a scalar store to memory (R209: an image is read at its home) has gone on, the threads of its core read its bytes
at its location, and every other memory location reads as before. R233: a write that lands writes its bytes at its home in memory, and every other byte of memory reads
as before. -/
def Obligations.StoredBytesAreRead : Prop :=
  (∀ (i : Instr) (b a : Reg5) (imm : BitVec 12) (n : Nat) (rel : Option Scope) (s t : State) (x v : Word) (c₁ c : Slot) (k : Nat),
     ScalarStore i b a imm n rel → s.cur.readReg a = some (x, c₁) → c₁.readReg b = some (v, c) → c.block = none →
     resolve s c (x + imm.signExtend 64) n (.store n) = .ok k → inMem k = true → inMem (k + n - 1) = true →
     s.sbCount (coreOf c.phys) < 32 → exec i s = .next t →
     (∀ j, j < n → t.readCore (coreOf c.phys) (k + j) = BitVec.ofNat 8 (v.toNat / 256 ^ j)) ∧
     (∀ l, (l < k ∨ k + n ≤ l) → inMem l = true → t.readCore (coreOf c.phys) l = s.readCore (coreOf c.phys) l)) ∧
  (∀ (s : State) (k : Nat) (bs : List Byte), s.MemInv → inMem k = true → inMem (k + bs.length) = true → s.keyHeld k = true →
     (∀ j, j < bs.length → readCell (s.land (cellsAt k bs)).mem (k + j) = bs.getD j 0) ∧
     (∀ l, (l < k ∨ k + bs.length ≤ l) → readCell (s.land (cellsAt k bs)).mem l = readCell s.mem l) ∧
     (s.land (cellsAt k bs)).MemInv)

/-- R216, R225: the full/empty accesses of the own core, with no other access in the way: LDFE and LDFE.clr of a full
granule load it (the latter empties it), FEQ reads the bit, and STFE of an empty granule stores and fills it. -/
def Obligations.FullEmptyAccesses : Prop :=
  ∀ (s : State) (d a b : Reg5) (imm : BitVec 12) (x v : Word) (c₁ c : Slot) (k : Nat),
    s.cur.phys = c.phys → c.status = .ready → 0 < d.toNat → d.toNat < 24 → s.feq = [] → keySpace k = Space.core →
    resolve s c (x + imm.signExtend 64) 8 .fe = .ok k → ownCore c k = true → s.errorAt k 8 = none →
    (s.cur.readReg a = some (x, c) →
      (s.isFull k = true → feMayArrive s c .ldfe k = true →
        ∃ t, exec (.ldfe d a imm) s = .next t ∧ t.cur.reg d.toNat = leWord (s.readHomeN k 8) ∧ t.cur.pc = c.pc + 4 ∧
          t.full = s.full ∧ t.mem = s.mem) ∧
      (s.isFull k = true → feMayArrive s c .ldfeClr k = true →
        ∃ t, exec (.ldfeClr d a imm) s = .next t ∧ t.cur.reg d.toNat = leWord (s.readHomeN k 8) ∧ t.cur.pc = c.pc + 4 ∧
          t.isFull k = false ∧ t.mem = s.mem) ∧
      (feMayArrive s c .feq k = true →
        ∃ t, exec (.feq d a imm) s = .next t ∧ t.cur.reg d.toNat = (if s.isFull k then 1 else 0) ∧ t.cur.pc = c.pc + 4 ∧
          t.full = s.full ∧ t.mem = s.mem)) ∧
    (s.cur.readReg a = some (x, c₁) → c₁.readReg b = some (v, c) → s.isFull k = false → feMayArrive s c .stfe k = true →
      s.sbCount (coreOf c.phys) < 32 → ∃ t, exec (.stfe b a imm) s = .next t ∧ t.isFull k = true ∧ t.cur.pc = c.pc + 4 ∧ t.cur.regs = c.regs ∧
        t.mem = writeCells s.mem (cellsAt k (leBytes 8 v.toNat)))

/-- R242 to R245, R139 to R144: FENCE .acq goes on at once and the other kinds wait until the thread's writes are acknowledged;
IFLUSH drops the core's instruction lines of the context; YIELD pauses for 7 turns; HALT leaves the slot VACANT and TASKEND leaves
it IDLE, both scrubbed; MARM arms the monitor on the block of its address, MCLR disarms it, and MWAIT goes on with none armed or
a trigger pending, which it disarms, and waits otherwise. -/
def Obligations.FencesMonitorsAndEnds : Prop :=
  ∀ s : State,
    (∀ sc, exec (.fence .acq sc) s = .next (goesOn s (s.acquired s.cur))) ∧
    (∀ kind sc, kind ≠ .acq → fenceClear s s.cur.phys sc = true →
      ∃ p c, p = s.publish s.cur sc ∧ c = s.cur.release sc s.seq ∧ exec (.fence kind sc) s = .next (goesOn p (p.acquired c))) ∧
    (∀ kind sc, kind ≠ .acq → fenceClear s s.cur.phys sc = false →
      exec (.fence kind sc) s = .next (waiting (s.publish s.cur sc) (s.cur.release sc s.seq) (.fence sc))) ∧
    (s.cur.busy = 0 → ∃ t, Runs [.iflush, .threadRejoin s.cur.phys] s t ∧ t.cur.pc = s.cur.pc + 4 ∧ t.cur.regs = s.cur.regs ∧
      t.mem = s.mem ∧ ∀ l ∈ t.icache, ¬(l.core = coreOf s.cur.phys ∧ some l.ctx = s.cur.owner)) ∧
    exec .yield s = .next { s with cur := { s.cur with status := .paused, pause := 7, pc := s.cur.pc + 4 } } ∧
    (∃ t, exec .halt s = .next t ∧ t.cur.status = .vacant ∧ t.cur.regs = Vector.replicate 24 0 ∧ t.cur.monitor = none ∧
      t.cur.fflags = 0 ∧ t.mem = s.mem) ∧
    (∃ t, exec .taskend s = .next t ∧ t.cur.status = .idle ∧ t.cur.regs = Vector.replicate 24 0 ∧ t.cur.monitor = none ∧
      t.cur.fflags = 0 ∧ t.mem = s.mem) ∧
    (∀ a imm x c k, s.cur.readReg a = some (x, c) → resolve s c (x + imm.signExtend 64) 1 (.load 1) = .ok k →
      keySpace k ≠ Space.host →
      exec (.marm a imm) s = .next (goesOn s { c with monitor := some { block := k / 64, trig := false } })) ∧
    exec .mclr s = .next (goesOn s { s.cur with monitor := none }) ∧
    (s.cur.monitor = none → exec .mwait s = .next (goesOn s s.cur)) ∧
    (∀ m, s.cur.monitor = some m →
      (m.trig = true → exec .mwait s = .next (goesOn s { s.cur with monitor := none })) ∧
      (m.trig = false → exec .mwait s = .next (waiting s s.cur .mwait)))

/-- R128, R136 to R138: FORK pushes its record at the bottom of the partition; RFORK of no iterations stores 1 to the cell and
gives the issuer the empty range, waiting while the store buffer is full, and any other waits for its survey; JOIN decrements its
cell at the home, and the thread goes on when it was the last. -/
def Obligations.ForkAndJoin : Prop :=
  (∀ (s : State) (a b : Reg5) (e g : Word) (c₁ c : Slot) (x : Ctx),
    s.cur.readReg a = some (e, c₁) → c₁.readReg b = some (g, c) → e.toNat % 4 = 0 → s.ctxOf c = some x →
    (s.dequeAt x (coreOf c.phys)).items.length < x.dequeCap (coreOf c.phys) →
    ∃ t q, exec (.fork a b) s = .next t ∧ t.cur.pc = c.pc + 4 ∧ t.mem = s.mem ∧ t.dequeAt x (coreOf c.phys) = q ∧
      q.items = { entry := e, arg := g, ctx := c.owner.getD 0, domain := c.domain, creator := c.thread,
                  origin := c.lcore, slot := c.phys, seq := s.seq + 1 } :: (s.dequeAt x (coreOf c.phys)).items) ∧
  (∀ (s : State) (d a b : Reg5) (e n cell : Word) (c₁ c₂ c : Slot) (k : Nat),
    s.cur.readReg a = some (e, c₁) → c₁.readReg b = some (n, c₂) → c₂.readReg d = some (cell, c) → e.toNat % 4 = 0 →
    cell.toNat % 8 = 0 → resolve s c cell 8 (.store 8) = .ok k →
    (n = 0 → s.sbCount (coreOf c.phys) < 32 →
      ∃ t, exec (.rfork d a b) s = .next t ∧ t.cur.pc = c.pc + 4 ∧ t.cur.reg 2 = 0 ∧ t.cur.reg 3 = 0 ∧
        t.sbuf = s.sbuf ++ [{ core := coreOf c.phys, slot := c.phys, seq := s.seq, rel := none, unit := 8, bounds := c.rels,
                              cells := cellsAt k (leBytes 8 1) }]) ∧
    (n = 0 → 32 ≤ s.sbCount (coreOf c.phys) → exec (.rfork d a b) s = .next (waiting s c (.rfork 0 0 cell))) ∧
    (n ≠ 0 → exec (.rfork d a b) s = .next (waiting (s.publish c .dev) (c.release .dev s.seq) (.rfork e n cell)))) ∧
  (∀ (s u : State) (a : Reg5) (va : Word) (c : Slot) (k old : Nat),
    s.cur.readReg a = some (va, c) → va.toNat % 8 = 0 → (∃ j, resolve s c va 8 (.store 8) = .ok j) →
    resolve s c va 8 .atomic = .ok k → u = waiting (s.publish c .dev) (c.release .dev s.seq) (.join va) →
    resolve u u.cur va 8 .atomic = .ok k → inMem (k + 7) = true → keySpace k ≠ Space.host → u.tlbHit k = true →
    u.homeReady c.phys k 8 = true → s.earlierPending c.phys s.seq = false → s.errorAt k 8 = none → c.busy = 0 →
    old = leNat (s.readHomeN k 8) → 0 < old →
    ∃ t, Runs [.join a, .joinDecrementAtHome c.phys, .threadRejoin c.phys] s t ∧
      t.mem = writeCells s.mem (cellsAt k (leBytes 8 (old - 1))) ∧
      (old = 1 → t.cur.pc = c.pc + 4 ∧ t.cur.status = .ready) ∧ (1 < old → t.cur.status = .idle)) ∧
  (∀ (s : State) (slot : Nat) (c : Slot) (va : Word) (k old : Nat), c = s.slotAt slot → c.occupied = true →
    c.wait = some (.join va) → resolve s c va 8 .atomic = .ok k → keySpace k ≠ Space.host → inMem (k + 7) = true →
    s.homeReady slot k 8 = true → s.passes slot s.seq c.rels (spanKeys k 8) = some [] → s.tlbHit k = true →
    s.errorAt k 8 = none → old = leNat (s.readHomeN k 8) →
    (0 < old → ∃ t, exec (.joinDecrementAtHome slot) s = .next t ∧ (t.slotAt slot).wait = some (.joinReply (old == 1)) ∧
      t.mem = writeCells s.mem (cellsAt k (leBytes 8 (old - 1)))) ∧
    (old = 0 → ∃ t, exec (.joinDecrementAtHome slot) s = .next t ∧ (t.slotAt slot).wait = some (.trapped .queue va) ∧
      t.mem = s.mem))

/-- R262, Table 16-2: an atomic without .o is sent to its home, performed there in one step, and its thread goes on with the
old value in d; one with .o is handed to the outbound path and its thread goes on at once. R235: a .rel atomic is a release point
of its thread before it. R75, R150: one whose old value the queue of its destination refuses, so that it traps, changes no memory;
that it answers first and traps at the push is the model's choice (log 65). -/
def Obligations.AtomicsArePerformedOnce : Prop :=
  (∀ (i : Instr) (op : AtomOp) (d a b : Reg5) (kind : Kind) (sc : Scope) (o w32 : Bool) (s : State) (x v cmp : Word) (c : Slot)
     (k : Nat),
    (((∃ c₁, s.cur.readReg a = some (x, c₁) ∧ c₁.readReg b = some (v, c)) ∧ cmp = 0 ∧ Atomic i op d a b kind sc o w32) ∨
      ((∃ c₁ c₂, s.cur.readReg a = some (x, c₁) ∧ c₁.readReg b = some (v, c₂) ∧ c₂.readReg d = some (cmp, c) ∧
        i = .acas d a b kind sc w32) ∧ op = .cas ∧ o = false)) →
    destReason s c d = none → resolve s c x (if w32 then 4 else 8) .atomic = .ok k → c.busy = 0 →
    (let p := afterRelease s c (if kind = .rel then some sc else none)
     let r := request op w32 x v cmp k o p.2.rels
     let u := waiting p.1 p.2 (.atomic d r)
     (o = true → (s.outb.filter (fun e => e.core == coreOf c.phys)).length < 16 →
       exec i s = .next { goesOn p.1 p.2.ready with
         outb := s.outb ++ [{ core := coreOf c.phys, slot := c.phys, seq := s.seq, req := r, pc := c.pc, ir := c.ir, done := false }],
         seq := s.seq + 1 }) ∧
     (o = false → d.toNat < 24 → keySpace k ≠ Space.host → u.homeReady c.phys k r.bytes = true →
       u.passes c.phys s.seq r.bounds (spanKeys k r.bytes) = some [] → inMem (k + 7) = true → u.tlbHit k = true →
       s.errorAt k r.bytes = none →
       ∃ t, Runs [i, .atomicAtHome c.phys, .atomicReplyArrival c.phys, .threadRejoin c.phys] s t ∧
         t.cur.pc = c.pc + 4 ∧ t.cur.wait = none ∧
         (0 < d.toNat → t.cur.reg d.toNat = r.result (BitVec.ofNat 64 (leNat (s.readHomeN k r.bytes)))) ∧
         (op ≠ .cas ∨ leNat (s.readHomeN k r.bytes) = r.cmp.toNat →
           t.mem = writeCells s.mem (cellsAt k (leBytes r.bytes
             (op.apply (8 * r.bytes) (leNat (s.readHomeN k r.bytes)) r.val.toNat r.cmp.toNat)))) ∧
         (op = .cas → leNat (s.readHomeN k r.bytes) ≠ r.cmp.toNat → t.mem = s.mem)))) ∧
  (∀ (s : State) (slot : Nat) (c : Slot) (d : Reg5) (r : AtomReq) (old : Nat), c = s.slotAt slot → c.occupied = true →
    c.wait = some (.atomic d r) → keySpace r.loc ≠ Space.host → inMem (r.loc + 7) = true →
    s.homeReady slot r.loc r.bytes = true → s.passes slot s.seq r.bounds (spanKeys r.loc r.bytes) = some [] →
    s.tlbHit r.loc = true → s.errorAt r.loc r.bytes = none → old = leNat (s.readHomeN r.loc r.bytes) →
    ∃ t, exec (.atomicAtHome slot) s = .next t ∧ (t.slotAt slot).wait = some (.atomicReply d r (BitVec.ofNat 64 old)) ∧
      (resultRefused s c d (r.result (BitVec.ofNat 64 old)) = true → t.mem = s.mem) ∧
      (d.toNat < 24 → r.op ≠ .cas ∨ old = r.cmp.toNat → t.mem = writeCells s.mem (cellsAt r.loc (leBytes r.bytes
        (r.op.apply (8 * r.bytes) old r.val.toNat r.cmp.toNat)))) ∧
      (r.op = .cas → old ≠ r.cmp.toNat → t.mem = s.mem)) ∧
  (∀ (s : State) (slot : Nat) (d : Reg5) (r : AtomReq) (old : Word), (s.slotAt slot).wait = some (.atomicReply d r old) →
    exec (.atomicReplyArrival slot) s = .next (s.setSlot ((s.slotAt slot).waitFor (.done d (r.result old)))))

/-- R263, Table 16-3: a reduction is handed to the outbound path while it has room, and its thread goes on; it is performed
once at its home. R401: the host node performs an atomic on system space, whose thread then has the old value, or refuses it, and
the thread takes PERM with TVAL its address.
A host's refusal is the event's argument (log 26). -/
def Obligations.ReductionsAndSystemAtomics : Prop :=
  ((∀ (i : Instr) (op : AtomOp) (a b : Reg5) (rel : Option Scope) (o w32 : Bool) (s : State) (x v : Word) (c₁ c : Slot) (k : Nat),
     Reduction i op a b rel o w32 → s.cur.readReg a = some (x, c₁) → c₁.readReg b = some (v, c) →
     resolve s c x (if w32 then 4 else 8) .atomic = .ok k →
     ((s.outb.filter (fun e => e.core == coreOf c.phys)).length < 16 →
       exec i s = .next { goesOn (afterRelease s c rel).1 (afterRelease s c rel).2.ready with
         outb := s.outb ++ [{ core := coreOf c.phys, slot := c.phys, seq := s.seq,
                              req := request op w32 x v 0 k o (afterRelease s c rel).2.rels, pc := c.pc, ir := c.ir, done := false }],
         seq := s.seq + 1 })) ∧
   (∀ (s : State) (k : Nat) (e : OutReq), s.outb[k]? = some e → e.done = false → keySpace e.req.loc ≠ Space.host →
     s.outMayGo e = true → s.passes e.slot e.seq e.req.bounds (spanKeys e.req.loc e.req.bytes) = some [] → e.req.op ≠ .cas →
     inMem (e.req.loc + 7) = true → s.tlbHit e.req.loc = true → s.errorAt e.req.loc e.req.bytes = none →
     ∃ t, exec (.reductionAtHome k) s = .next t ∧
       t.mem = writeCells s.mem (cellsAt e.req.loc (leBytes e.req.bytes (e.req.op.apply (8 * e.req.bytes)
         (leNat (s.readHomeN e.req.loc e.req.bytes)) e.req.val.toNat e.req.cmp.toNat))) ∧
       t.outb = s.outb.map (fun f => if f.seq == e.seq then { f with done := true } else f)) ∧
   (∀ (s : State) (k : Nat) (e : OutReq), s.outb[k]? = some e → e.done = true →
     exec (.reductionAckArrival k) s = .next { s with outb := s.outb.filter (fun f => f.seq != e.seq) })) ∧
  (∀ (s : State) (d : Reg5) (r : AtomReq), s.cur.wait = some (.atomic d r) → keySpace r.loc = Space.host →
     s.homeReady s.cur.phys r.loc r.bytes = true → s.passes s.cur.phys s.seq r.bounds (spanKeys r.loc r.bytes) = some [] →
     s.cur.status = .waitMem → d.toNat < 24 →
     (∃ t, exec (.systemAtomicReply s.cur.phys true) s = .next t ∧ t.cur.wait = some (.trapped .perm r.va) ∧ t.mem = s.mem) ∧
     (r.op ≠ .cas → ∃ t, exec (.systemAtomicReply s.cur.phys false) s = .next t ∧
       t.cur.wait = some (.done d (r.result (BitVec.ofNat 64 (leNat (s.readHomeN r.loc r.bytes))))) ∧
       t.mem = writeCells s.mem (cellsAt r.loc (leBytes r.bytes (r.op.apply (8 * r.bytes)
         (leNat (s.readHomeN r.loc r.bytes)) r.val.toNat r.cmp.toNat)))))

/-- R264, R265: MIGR to device memory is a release at .dev, waits for its channel core, and goes on there in its block; RETN in a
block makes the block's stores visible together and sends the registers home, where the thread goes on after RETN; outside a
block it takes ILLEGAL. -/
def Obligations.MigratingBlocks : Prop :=
  (∀ (s u : State) (a : Reg5) (va : Word) (c : Slot) (x : Ctx) (off k : Nat), s.cur.readReg a = some (va, c) →
    va.toNat = 2 ^ 48 + off → va.toNat < 2 ^ 56 → c.ref = false → s.ctxOf c = some x → resolveDev x va off (.load 1) = .ok k →
    u = waiting (s.publish c .dev) (c.release .dev s.seq) (.migr va) →
    exec (.migr a) s = .next u ∧
    (s.earlierPending c.phys (s.seq + 1) = false → s.sliceHeld c.phys k = false →
      (∀ e ∈ u.blockCode u.cur (c.pc + 4) 25, u.tlbHit e.1 = true ∧ u.errorAt e.1 4 = none) →
      s.writePending (coreOf c.phys) (k / 256 * 256) 256 = false →
      s.earlyHeld (coreOf c.phys) (k / 256 * 256) 256 = false → s.blocksAt (x.channelCore (keyOff k)) < 8 → s.tlbHit k = true →
      ∃ t b, Runs [.migr a, .migrBlockAccept c.phys] s t ∧ t.cur.wait = none ∧ t.cur.block = some b ∧ b.home = c.pc ∧
        b.idx = 0 ∧ b.reads = [] ∧ b.stores = [] ∧ b.slice = BitVec.ofNat 64 (va.toNat / 256 * 256) ∧ t.cur.pc = c.pc + 4 ∧
        t.cur.regs = c.regs ∧ t.mem = s.mem)) ∧
  (∀ (s : State) (va : Word) (x : Ctx) (k : Nat), s.cur.wait = some (.migr va) → s.ctxOf s.cur = some x →
    resolve s s.cur va 1 (.load 1) = .ok k → s.earlierPending s.cur.phys (s.seq + 1) = false → s.cur.status = .waitMem →
    s.sliceHeld s.cur.phys k = false → s.earlyHeld (coreOf s.cur.phys) (k / 256 * 256) 256 = false →
    s.writePending (coreOf s.cur.phys) (k / 256 * 256) 256 = false →
    (∀ e ∈ s.blockCode s.cur (s.cur.pc + 4) 25, s.tlbHit e.1 = true ∧ s.errorAt e.1 4 = none) → s.tlbHit k = true → s.blocksAt (x.channelCore (keyOff k)) < 8 →
    ∃ t b, exec (.migrBlockAccept s.cur.phys) s = .next t ∧ t.cur.wait = none ∧ t.cur.block = some b ∧ b.home = s.cur.pc ∧
      b.idx = 0 ∧ b.stores = [] ∧ b.slice = BitVec.ofNat 64 (va.toNat / 256 * 256) ∧ t.cur.pc = s.cur.pc + 4 ∧ t.mem = s.mem) ∧
  (∀ (s : State) (b : Block), s.cur.block = some b → s.cur.busy = 0 → (∀ y ∈ b.stores, inMem y.1 = true ∧ s.keyHeld y.1 = true) →
    (∃ t, exec .retn s = .next t ∧ t.cur.block = none ∧ t.cur.wait = some (.migrReturn none) ∧ t.cur.regs = s.cur.regs ∧
      t.mem = writeCells s.mem b.stores.reverse) ∧
    (∃ t, Runs [.retn, .migrBlockReturn s.cur.phys, .threadRejoin s.cur.phys] s t ∧ t.cur.pc = s.cur.pc + 4 ∧
      t.cur.wait = none ∧ t.cur.block = none ∧ t.cur.regs = s.cur.regs ∧ t.mem = writeCells s.mem b.stores.reverse)) ∧
  (∀ (s : State) (slot : Nat),
    ((s.slotAt slot).wait = some (.migrReturn none) →
      exec (.migrBlockReturn slot) s =
        .next (s.setSlot { s.slotAt slot with tileSeen := s.pubs, wait := some (.done 0 0) })) ∧
    (∀ cause tval v, (s.slotAt slot).wait = some (.migrReturn (some (cause, tval, v))) →
      exec (.migrBlockReturn slot) s = .next (s.setSlot ((s.slotAt slot).waitFor (.migTrapped cause tval v))))) ∧
  (∀ s : State, s.cur.block = none → exec .retn s = trap s s.cur .illegal 3)

namespace Sys2Proof.Machine

/-! ### Huddles and warrants -/

/-- A thread is the one member of a huddle's entry, and its arrival for the phase is not outstanding. -/
def AloneIn (s : State) (x : Ctx) (name : Word) (e : Huddle) (m : HMember) : Prop :=
  s.huddles = [e] ∧ e.root = x.root ∧ e.name = name ∧ e.members = [m] ∧ m.ctx = x.id ∧ m.thread = s.cur.thread ∧
    m.slot = s.cur.phys ∧ m.joined ≤ e.phase ∧ m.arrived = none ∧ m.leaving = false ∧ m.gone = false

/-- No huddle message is on its way, and the thread's earlier writes have been performed. -/
def Quiet (s : State) : Prop :=
  s.hreqs = [] ∧ s.hnotes = [] ∧ s.earlierPending s.cur.phys s.seq = false ∧ s.cur.busy = 0

/-- The instructions that vote or combine an input with a tag (Table 20-4), and the combination of one input. -/
inductive Votes : Instr → Reg5 → Reg5 → BitVec 2 → (Word → Word) → Prop
  | hvoteAny d a h : Votes (.hvote d a .any h) d a h (fun v => truth (v ≠ 0))
  | hvoteAll d a h : Votes (.hvote d a .all h) d a h (fun v => truth (v ≠ 0))
  | hvoteEq d a h : Votes (.hvote d a .eq h) d a h (fun _ => 1)
  | addI64 d a h : Votes (.hred d a .addI64 h) d a h (fun v => v)
  | minI64 d a h : Votes (.hred d a .minI64 h) d a h (fun v => v)
  | maxI64 d a h : Votes (.hred d a .maxI64 h) d a h (fun v => v)
  | addF32 d a h : Votes (.hred d a .addF32 h) d a h (fun v => BitVec.ofNat 64 (v.toNat % 2 ^ 32))

/-- The input of an HVOTE (R318, Table 20-4): the truth of the value, or for .eq the value. -/
def voteInput (sel : VoteSel) (v : Word) : HInput :=
  match sel with
  | .any => { tag := 1, val := truth (v ≠ 0) }
  | .all => { tag := 2, val := truth (v ≠ 0) }
  | .eq => { tag := 3, val := v }

/-- The input of an HRED (R318, Table 20-4): the value, or for .add.f32 its low 32 bits. -/
def redInput (sel : RedSel) (v : Word) : HInput :=
  match sel with
  | .addI64 => { tag := 4, val := v }
  | .minI64 => { tag := 5, val := v }
  | .maxI64 => { tag := 6, val := v }
  | .addF32 => { tag := 7, val := BitVec.ofNat 64 (v.toNat % 2 ^ 32) }

/-- The instructions that arrive (R323): the slot after the pop, d, the handle, the input and whether the thread waits for the
phase. -/
inductive Arrives : Instr → State → Slot → Reg5 → BitVec 2 → HInput → Bool → Prop
  | hbar h s : Arrives (.hbar h) s s.cur 0 h { tag := 0, val := 0 } true
  | harrv h s : Arrives (.harrv h) s s.cur 0 h { tag := 0, val := 0 } false
  | hvote d a sel h s v c : s.cur.readReg a = some (v, c) → Arrives (.hvote d a sel h) s c d h (voteInput sel v) true
  | hred d a sel h s v c : s.cur.readReg a = some (v, c) → Arrives (.hred d a sel h) s c d h (redInput sel v) true

/-- A member other than a thread keeps the phase open: it has neither arrived nor departed (R312). -/
def StillOpen (e : Huddle) (ctx thread : Nat) : Prop :=
  ∃ m ∈ e.members, m.joined ≤ e.phase ∧ m.arrived = none ∧ m.leaving = false ∧ m.gone = false ∧ ¬(m.ctx = ctx ∧ m.thread = thread)

/-- Some bytes can be read for an instruction as it issues: no watermark, waking bank, earlier write of the slot or release holds
them (R33, R214, R235), their key and their pages stand (R254, R257), and none is in error (R3). -/
def ReadsNow (s : State) (c : Slot) (k n : Nat) : Prop :=
  s.loadStalls c.phys k n = false ∧ s.keyHeld k = true ∧ s.missing (spanKeys k n) 0 = none ∧ s.errorAt k n = none

/-- Some bytes can be read for the umpire: their banks are awake, their pages stand in their stations, their key is held and none
is in error (R3, R214, R254, R257). -/
def UmpireReads (s : State) (k n : Nat) : Prop :=
  (∀ a ∈ spanPoints k n, s.bankWaking a = false ∧ s.tlbHas a = true ∧ s.keyHeld a = true) ∧ s.errorAt k n = none

/-- The issue of a warrant instruction whose checks pass (R336, R338 to R343): the state once WPRES has read its block, the slot
after its pops, the operation and its source values. -/
inductive Asks : Instr → State → State → Slot → WarOp → Reg5 → Word → Word → Prop
  | wpres d a s r x c k : s.cur.readReg a = some (x, c) → checkExtent s c x 64 64 .vload = .ok k → ReadsNow s c k 64 →
      r = s.noteAccess (c.owner.getD 0) k 64 false →
      (let p := presBlock (r.readCoreN (coreOf c.phys) k 64)
       p.good = false ∨ ∃ q, presCheck r c p = .ok q) → Asks (.wpres d a) s r c .wpres d x 0
  | wsplit d a b s x y c₁ c k z : s.cur.readReg a = some (x, c₁) → c₁.readReg b = some (y, c) →
      checkExtent s c y 64 64 .vload = .ok k → s.targetOf c x = some z → Asks (.wsplit d a b) s s c .wsplit d x y
  | wdeleg d a b s x y c₁ c q z : s.cur.readReg a = some (x, c₁) → c₁.readReg b = some (y, c) →
      delegCheck s c y = .ok q → s.targetOf c x = some z → Asks (.wdeleg d a b) s s c .wdeleg d x y
  | wsurr d a s x c z : s.cur.readReg a = some (x, c) → s.targetOf c x = some z → Asks (.wsurr d a) s s c .wsurr d x 0
  | wreset d a s x c z : s.cur.readReg a = some (x, c) → s.targetOf c x = some z → Asks (.wreset d a) s s c .wreset d x 0
  | wqry d a b s x y c₁ c z : s.cur.readReg a = some (x, c₁) → c₁.readReg b = some (y, c) → s.targetOf c x = some z →
      y.toNat ≤ 15 → Asks (.wqry d a b) s s c .wqry d x y

/-- The thread has asked the umpire: its full fence at .dev has begun and it waits with the source values that it read (R336,
steps 3 and 4). -/
def asked (s : State) (c : Slot) (op : WarOp) (d : Reg5) (a b : Word) : State :=
  waiting (s.publish c .dev) (c.release .dev s.seq) (.warrant op d a b none)

/-- The umpire may take up a request of a thread: its context is not being stopped, the thread's earlier writes are at their homes
and the umpire answers no other request of the family (R336, R337). -/
def UmpireFree (s : State) (c : Slot) (x : Ctx) : Prop :=
  c.phys = s.cur.phys ∧ c.busy = 0 ∧ s.ctxOf c = some x ∧ x.stop = .none ∧ fenceClear s c.phys .dev = true ∧
    s.claimBusy x.root = false

/-- The umpire answers a request with a word, after which `t` holds what the answer leaves; the thread then goes on with the word
in d. -/
def AnsweredWith (u : State) (c : Slot) (d : Reg5) (w : Word) (holds : State → Prop) : Prop :=
  ∃ t v : State, exec (.warrantRequestHandled c.phys) u = .next t ∧ exec (.threadRejoin c.phys) t = .next v ∧
    v.cur.wait = none ∧ v.cur.pc = c.pc + 4 ∧ (0 < d.toNat → v.cur.reg d.toNat = w) ∧ holds t ∧ holds v

end Sys2Proof.Machine

/-- R312, R315, R318, R323, R324: the phase of a huddle completes with its last arrival: HBAR, HVOTE and HRED arrive and wait
for it, HARRV arrives and goes on, and HWAIT takes the completion; the entry stands in the next phase, the result is in d,
and SHORT and DEP are the phase's. HINFO reports the entry.
The order of a huddle's requests is the model's choice (log 60). -/
def Obligations.HuddlePhasesComplete : Prop :=
  (∀ (s : State) (x : Ctx) (h : BitVec 2) (hd : Handle) (e : Huddle) (m : HMember), s.ctxOf s.cur = some x →
    s.cur.handle h.toNat = some hd → AloneIn s x hd.name e m → Quiet s →
    (let after : Handle := { hd with short := e.dep != 0, dep := e.dep, due := none }
     (∃ t, Runs [.hbar h, .huddleArrivalHandled 0, .huddleNoticeArrival s.cur.phys, .threadRejoin s.cur.phys] s t ∧
       t.cur.pc = s.cur.pc + 4 ∧ t.cur.regs = s.cur.regs ∧ t.cur.handle h.toNat = some after ∧
       t.huddles = [{ e with phase := e.phase + 1, dep := 0, members := [{ m with next := e.phase + 1 }] }] ∧ t.mem = s.mem) ∧
     (∃ t, Runs [.harrv h, .huddleArrivalHandled 0, .huddleNoticeArrival s.cur.phys, .hwait h] s t ∧
       t.cur.pc = s.cur.pc + 8 ∧ t.cur.regs = s.cur.regs ∧ t.cur.handle h.toNat = some after ∧
       t.huddles = [{ e with phase := e.phase + 1, dep := 0, members := [{ m with next := e.phase + 1 }] }] ∧ t.mem = s.mem) ∧
     (∀ i d a f v c, Votes i d a h f → d.toNat < 24 → s.cur.readReg a = some (v, c) →
       ∃ t, Runs [i, .huddleArrivalHandled 0, .huddleNoticeArrival s.cur.phys, .threadRejoin s.cur.phys] s t ∧
         t.cur.pc = s.cur.pc + 4 ∧ (0 < d.toNat → t.cur.reg d.toNat = f v) ∧ t.cur.handle h.toNat = some after ∧
         t.huddles = [{ e with phase := e.phase + 1, dep := 0, members := [{ m with next := e.phase + 1 }] }] ∧
         t.mem = s.mem)) ∧
    (∀ d : Reg5, d.toNat < 24 →
      ∃ t, Runs [.hinfo d h, .hinfoHandled 0, .huddleNoticeArrival s.cur.phys, .threadRejoin s.cur.phys] s t ∧
        t.cur.pc = s.cur.pc + 4 ∧ t.huddles = s.huddles ∧ t.mem = s.mem ∧
        (0 < d.toNat → t.cur.reg d.toNat =
          BitVec.ofNat 64 (e.phase % 2 ^ 24 * 2 ^ 40 + (if hd.short then 2 ^ 39 else 0) + hd.dep % 2 ^ 11 * 2 ^ 28 + 1)))) ∧
  (∀ (s : State) (c : Slot) (d : Reg5) (h : BitVec 2) (i : Instr) (hd : Handle) (inp : HInput) (wait : Bool),
    Arrives i s c d h inp wait → s.cur.handle h.toNat = some hd → d.toNat < 24 →
    (s.arrivalOutstanding c hd.name = true → exec i s = .next (waiting s c (.harrive d h.toNat inp wait))) ∧
    (s.arrivalOutstanding c hd.name = false → ∃ t, exec i s = .next t ∧ t.mem = s.mem ∧ t.huddles = s.huddles ∧
      t.hreqs = s.hreqs ++ [{ root := s.rootOf c, name := hd.name, ctx := c.owner.getD 0, thread := c.thread, slot := c.phys,
                              seq := s.seq, kind := .arrive inp }] ∧
      (wait = true → t.cur.wait = some (.hphase d h.toNat (inp.tag != 0)) ∧ t.cur.pc = c.pc) ∧
      (wait = false → t.cur.wait = none ∧ t.cur.pc = c.pc + 4))) ∧
  (∀ (s : State) (k : Nat) (r : HReq) (e : Huddle), s.hreqs[k]? = some r → s.hreqReady k r = true →
    s.entryOf r.root r.name = some e → StillOpen e r.ctx r.thread →
    (∀ inp, r.kind = .arrive inp → ∃ t, exec (.huddleArrivalHandled k) s = .next t ∧ t.hnotes = s.hnotes ∧
      t.hreqs = s.hreqs.take k ++ s.hreqs.drop (k + 1) ∧
      t.entryOf r.root r.name = some (e.updMember r.ctx r.thread (fun m => { m with arrived := some inp }))) ∧
    (r.kind = .leave → ∃ t, exec (.huddleLeaveHandled k) s = .next t ∧ t.hnotes = s.hnotes ∧
      t.hreqs = s.hreqs.take k ++ s.hreqs.drop (k + 1) ∧
      t.entryOf r.root r.name = some (e.updMember r.ctx r.thread (fun m =>
        { m with leaving := true, arrived := some (m.arrived.getD { tag := 0, val := 0 }) })))) ∧
  (∀ (s : State) (k : Nat) (r : HReq) (e : Huddle) (d : Reg5) (h : Nat) (hd : Handle), s.hreqs[k]? = some r →
    s.hreqReady k r = true → r.kind = .info → (s.slotAt r.slot).wait = some (.hinfo d h) → (s.slotAt r.slot).handle h = some hd →
    s.entryOf r.root r.name = some e → exec (.hinfoHandled k) s = .next { s with
      hreqs := s.hreqs.take k ++ s.hreqs.drop (k + 1), hnotes := s.hnotes ++ [r.reply (hinfoWord e hd r.ctx r.thread)] }) ∧
  (∀ (s : State) (slot : Nat) (n : HNote) (c : Slot) (d : Reg5) (h : Nat), s.hnotes.find? (fun n => n.slot == slot) = some n →
    c = s.slotAt slot → c.owner = some n.ctx → c.thread = n.thread → c.occupied = true → c.status ≠ .stopped →
    (∀ fl hd, n.reply = false → c.wait = some (.hphase d h fl) → c.handle h = some hd → hd.name = n.name →
      ∃ t, exec (.huddleNoticeArrival slot) s = .next t ∧ t.hnotes = dropFirst (fun m => m.slot == slot) s.hnotes ∧
        (t.slotAt slot).wait = some (.doneWith d n.value
          (.phase n.flags h (some { hd with short := n.short, dep := n.dep, due := none })))) ∧
    (n.reply = true → c.wait = some (.hinfo d h) → ∃ t, exec (.huddleNoticeArrival slot) s = .next t ∧
      t.hnotes = dropFirst (fun m => m.slot == slot) s.hnotes ∧ (t.slotAt slot).wait = some (.done d n.value)))

/-- R311, R313, R314, R317, R322: HJOIN with status 0 creates the huddle and makes the handle valid; a nonzero status stands
in d and the handle stays invalid, or, with .t, HANDLE is taken. HLEAVE makes the handle invalid at once and the last member's
leave frees the entry; so does its departure. -/
def Obligations.HuddleMembership : Prop :=
  (∀ (s : State) (x : Ctx) (d a : Reg5) (t₀ ex : Bool) (h : BitVec 2) (nm : Word) (c : Slot) (st : Nat),
    s.ctxOf s.cur = some x → s.hreqs = [] → s.hnotes = [] → s.cur.busy = 0 → h.toNat < s.cur.decl.huddles →
    s.cur.handle h.toNat = none → s.cur.readReg a = some (nm, c) → d.toNat < 24 → s.huddles = [] →
    st = s.joinStatus { root := x.root, name := nm, ctx := x.id, thread := c.thread, slot := c.phys, seq := s.seq,
                        kind := .join ex } ex →
    (st = 0 → ∃ t, Runs [.hjoin d a t₀ ex h, .huddleJoinHandled 0, .huddleNoticeArrival s.cur.phys, .threadRejoin s.cur.phys]
        s t ∧ t.cur.pc = c.pc + 4 ∧ t.cur.reg d.toNat = 0 ∧
      t.cur.handle h.toNat = some { name := nm, short := false, dep := 0, due := none } ∧ t.mem = s.mem ∧
      ∃ e m, t.huddles = [e] ∧ e.root = x.root ∧ e.name = nm ∧ e.phase = 0 ∧ e.members = [m] ∧ m.ctx = x.id ∧
        m.thread = c.thread ∧ m.arrived = none) ∧
    (st ≠ 0 → t₀ = false →
      ∃ t, Runs [.hjoin d a t₀ ex h, .huddleJoinHandled 0, .huddleNoticeArrival s.cur.phys, .threadRejoin s.cur.phys] s t ∧
        t.cur.pc = c.pc + 4 ∧ (0 < d.toNat → t.cur.reg d.toNat = BitVec.ofNat 64 st) ∧ t.cur.handle h.toNat = none ∧
        t.huddles = []) ∧
    (st ≠ 0 → t₀ = true → ∃ t, Runs [.hjoin d a t₀ ex h, .huddleJoinHandled 0, .huddleNoticeArrival s.cur.phys] s t ∧
        t.cur.wait = some (.trapped .handle (BitVec.ofNat 64 (h.toNat + 0x100 * (BitVec.ofNat 64 st).toNat))) ∧
        t.huddles = [])) ∧
  (∀ (s : State) (x : Ctx) (h : BitVec 2) (hd : Handle) (e : Huddle) (m : HMember), s.ctxOf s.cur = some x →
    s.cur.handle h.toNat = some hd → AloneIn s x hd.name e m → Quiet s →
    ∃ t, Runs [.hleave h, .huddleLeaveHandled 0] s t ∧ t.cur.pc = s.cur.pc + 4 ∧ t.cur.regs = s.cur.regs ∧
      t.cur.handle h.toNat = none ∧ t.huddles = [] ∧ t.mem = s.mem) ∧
  (∀ (s : State) (d a : Reg5) (t₀ ex : Bool) (h : BitVec 2) (nm : Word) (c : Slot), h.toNat < s.cur.decl.huddles →
    s.cur.handle h.toNat = none → s.cur.readReg a = some (nm, c) → d.toNat < 24 →
    exec (.hjoin d a t₀ ex h) s = .next { waiting s c (.hjoin d h.toNat nm t₀) with
      hreqs := s.hreqs ++ [{ root := s.rootOf c, name := nm, ctx := c.owner.getD 0, thread := c.thread, slot := c.phys,
                             seq := s.seq, kind := .join ex }] }) ∧
  (∀ (s : State) (k : Nat) (r : HReq) (ex : Bool), s.hreqs[k]? = some r → s.hreqReady k r = true → r.kind = .join ex →
    ∃ t, exec (.huddleJoinHandled k) s = .next t ∧ t.hreqs = s.hreqs.take k ++ s.hreqs.drop (k + 1) ∧
      (s.joinStatus r ex ≠ 0 → t.huddles = s.huddles ∧ t.hnotes = s.hnotes ++ [r.reply (BitVec.ofNat 64 (s.joinStatus r ex))]) ∧
      (∀ e, s.joinStatus r ex = 0 → s.entryOf r.root r.name = some e → StillOpen e r.ctx r.thread →
        t.entryOf r.root r.name = some { e with members := e.members ++ [r.member (e.phase + 1)] } ∧
        t.hnotes = s.hnotes ++ [r.reply 0]) ∧
      (s.joinStatus r ex = 0 → s.entryOf r.root r.name = none →
        t.entryOf r.root r.name = some {
          root := r.root, name := r.name, home := s.huddleHome r.root r.name, phase := 0,
          charged := r.ctx, dep := 0, members := [r.member 0] } ∧ t.hnotes = s.hnotes ++ [r.reply 0])) ∧
  (∀ (s : State) (e : Huddle) (m : HMember), s.huddles = [e] → e.members = [m] → m.gone = false → s.departing m.ctx = true →
    ∃ t, exec (.huddleDeparture m.ctx m.thread) s = .next t ∧ t.huddles = [] ∧ t.cur = s.cur ∧ t.mem = s.mem ∧
      t.hreqs = s.hreqs.filter (fun r => !(r.ctx == m.ctx && r.thread == m.thread)))

/-- R336, R338 to R343: a warrant instruction whose checks pass begins its full fence and waits with its source values for the
umpire, which answers it with a word that then stands in d: WQRY with the item; WDELEG with the receipt written and outstanding;
WRESET with the child in RUN; WSPLIT with a new child of the slots and the record named; WSURR by ending the context. WPRES puts
its serial's claim, and the grant builds the family or redeems the child.
WQRY of a record whose quantities were lent answers them as granted (log 35); the umpire reads memory as it stands when it answers
(log 54); a WRESET drops the launch (log 55). -/
def Obligations.WarrantInstructionsAreAnswered : Prop :=
  (∀ (i : Instr) (s r : State) (c : Slot) (op : WarOp) (d : Reg5) (a b : Word), Asks i s r c op d a b → d.toNat < 24 →
    exec i s = .next (asked r c op d a b)) ∧
  (∀ (s u : State) (c : Slot) (d : Reg5) (a b : Word) (x z : Ctx), d.toNat < 24 → UmpireFree s c x → s.targetOf c a = some z →
    (u = asked s c .wqry d a b → AnsweredWith u c d (z.item b.toNat) (fun t => t.ctxs = s.ctxs ∧ t.mem = s.mem)) ∧
    (u = asked s c .wsurr d a b → ∃ t, exec (.warrantRequestHandled c.phys) u = .next t ∧
      t = (u.endContext z.id).setResult c.phys 0 ∧ t.ctxAt z.id = none) ∧
    (u = asked s c .wdeleg d a b → z.sub = true → z.warrant.delegOk = true → z.state = .run → z.delegate = none →
      ∀ (k w : Nat) (bytes : List Byte) (who : BitVec 256), delegCheck u u.cur b = .ok (k, w) →
        ((u.readHomeN k 64).drop 32).all (fun e => e == 0) = true → who = BitVec.ofNat 256 (leNat ((u.readHomeN k 64).take 32)) →
        bytes = receiptBytes z.parentSerial z.serial who u.ownNode z.warrant.res (u.rootSerial z) →
        UmpireReads u k 64 → (∀ e ∈ spanPoints w 128, u.bankWaking e = false ∧ u.tlbHas e = true) →
        (∀ y ∈ cellsAt w bytes, inMem y.1 = true ∧ u.keyHeld y.1 = true) →
        AnsweredWith u c d 0 (fun t => (t.ctxAt z.id).map (fun y => y.delegate) = some (some who) ∧
          t.mem = writeCells s.mem (cellsAt w bytes))) ∧
    (u = asked s c .wreset d a b → z.sub = true → z.state = .error → z.err.map (fun e => e.dumped) = some 2 →
      AnsweredWith u c d 0 (fun t => ∃ y, t.ctxAt z.id = some y ∧ y.state = .run ∧ y.err = none ∧ y.launch = none ∧
        y.serial = z.serial ∧ y.slots = z.slots)) ∧
    (u = asked s c .wsplit d a b → z.state = .run → z.warrant.splitOk = true →
      ∀ (k ks id : Nat) (r : Resources) (lay : Layout) (g : Gxo) (t₀ : State) (y : Ctx) (h : Word),
        checkExtent u u.cur b 64 64 .vload = .ok k → UmpireReads u k 64 → r = resourcesAt (u.readHomeN k 64).toArray 0 →
        arrZero (u.readHomeN k 64).toArray 0x30 16 = true → r.ok = true → r.cls = z.res.cls → z.warrant.res.latency ≤ r.latency →
        (∀ q ∈ (z.takes r).slots, (u.slotAt q).status = .vacant) → u.uncovered z r = none → u.freeKey = some ks →
        childLayout z r (z.takes r) = some (lay, g) → (∃ n, 0 < n ∧ n < 65536 ∧ u.idUsed n = false) →
        u.splitOff z r ks lay g (x.id, c.phys) = (t₀, id) → (t₀.ctxAt x.id).bind (fun y => y.giveHandle id) = some (h, y) →
        AnsweredWith u c d h (fun t => ∃ kid par, t.ctxAt id = some kid ∧ kid.parent = some z.id ∧ kid.sub = true ∧
          kid.state = .run ∧ kid.slots = (z.takes r).slots ∧ kid.warrant.res = r ∧ kid.warrant.notAfter = z.warrant.notAfter ∧
          t.ctxAt z.id = some par ∧ par.slots = (z.takes r).stay ∧ par.kids = z.kids + 1 ∧ par.res = z.res.lessChild r))) ∧
  (∀ (s u : State) (c : Slot) (d : Reg5) (a : Word) (x : Ctx) (k ki ko : Nat) (p : PresBlock), u = asked s c .wpres d a 0 →
    UmpireFree s c x → checkExtent u u.cur a 64 64 .vload = .ok k → UmpireReads u k 64 → p = presBlock (u.readHomeN k 64) →
    p.good = true → presCheck u u.cur p = .ok (ki, ko) → UmpireReads u ki p.size →
    (p.kind = 0 → UmpireReads u ko p.bytes.toNat → ∀ w, u.examineImage (u.readHomeN ki p.size) (fun h => h == x.holder) = .ok w →
      exec (.warrantRequestHandled c.phys) u = .next (u.addClaim
        { serial := w.serial, root := w.serial, notBefore := w.notBefore, device := u.ownNode }
        (.thread c.phys w (u.readHomeN ko p.bytes.toNat)))) ∧
    (p.kind = 1 → ∀ y who, u.checkReceipt (u.readHomeN ki p.size) (fun h => h == x.holder) = .ok (y, who) →
      exec (.warrantRequestHandled c.phys) u = .next (u.addClaim (u.claimMsg y y.serial) (.redeemThread c.phys y.id who y.warrant.domain)))) ∧
  (∀ (s t : State) (k : Claim) (cs : List Claim) (slot id : Nat) (x y : Ctx) (op : WarOp) (d : Reg5) (a b h : Word),
    s.claims = k :: cs → s.homeOf k.who.domain k.msg.root = s.ownNode → (s.tableClaim k.msg).1 = 0 →
    s.ctxOf (s.slotAt slot) = some x → (s.slotAt slot).wait = some (.warrant op d a b none) →
    (∀ w obj, k.who = .thread slot w obj →
      State.buildRoot { s with redemption := (s.tableClaim k.msg).2 } w obj x.node true = .ok (t, id) →
      (t.ctxAt x.id).bind (fun y => y.giveHandle id) = some (h, y) →
      exec (.claimAtHome k.msg 0) s = .next ((t.setCtx y).setResult slot h).nextClaim) ∧
    (∀ who dom, k.who = .redeemThread slot id who dom → s.receiptOut id = true →
      t = State.redeemChild { s with redemption := (s.tableClaim k.msg).2 } id who x.node (some (x.id, slot)) →
      (t.ctxAt x.id).bind (fun y => y.giveHandle id) = some (h, y) →
      exec (.claimAtHome k.msg 0) s = .next ((t.setCtx y).setResult slot h).nextClaim)) ∧
  (∀ (s : State) (op : WarOp) (d : Reg5) (a b v : Word), s.cur.wait = some (.warrant op d a b (some v)) → s.cur.busy = 0 →
    s.cur.status = .waitMsg → d.toNat < 24 →
    exec (.threadRejoin s.cur.phys) s = .next { s with cur := { s.cur.ready.setReg d.toNat v with pc := s.cur.pc + 4 } })

namespace Sys2Proof.Machine

/-! ### Vector instructions (Tables 9-2 to 9-7, 10-1 to 10-3) -/

/-- The running instruction's further beats, n of them. -/
def beatsOn : Nat → State → Out
  | 0, s => .next s
  | n + 1, s => match nextBeat s with
    | .next t => beatsOn n t
    | o => o

/-- The thread after the last beat of a vector instruction. -/
def landedSlot (c : Slot) (writes : List VWrite) (mask : Option (Nat × MaskReg)) (flags : BitVec 5) : Slot :=
  let d := (writes.foldl Slot.landV c).raise flags
  (match mask with
    | some (n, v) => d.setMask n v
    | none => d).goto (c.pc + 4)

/-- A vector instruction of k beats: after the last one its writes, its mask and its flags have landed, the thread goes on
at pc + 4, and nothing else has changed (R120, R169). -/
def Lands (i : Instr) (s : State) (c : Slot) (k : Nat) (writes : List VWrite) (mask : Option (Nat × MaskReg))
    (flags : BitVec 5) : Prop :=
  ∃ t, exec i s = .next t ∧ beatsOn (k - 1) t = .next { s with cur := landedSlot c writes mask flags }

/-- A vector store of k beats with some cells: at its last beat their writes, one for each aligned 64-byte block, enter the
store buffer, `unit` bytes to an event, and the flags are raised with the last of them; while the buffer is full the thread waits
(R120, R223, R231). -/
def StoresBlocks (i : Instr) (s : State) (c : Slot) (k unit : Nat) (flags : BitVec 5) (cells : List Host.Cell) : Prop :=
  let css := unitGroups 64 cells
  let room := 32 - s.sbCount (coreOf c.phys)
  let entries := fun (l : List (List Host.Cell)) => l.map (fun cs =>
    ({ core := coreOf c.phys, slot := c.phys, seq := s.seq, rel := none, unit := unit, bounds := c.rels, cells := cs } : SbEntry))
  ∃ t, exec i s = .next t ∧
    (css = [] → beatsOn (k - 1) t = .next { s with cur := landedSlot c [] none flags }) ∧
    (css ≠ [] → css.length ≤ room → beatsOn (k - 1) t = .next { s with
      cur := landedSlot c.ready [] none flags, sbuf := s.sbuf ++ entries css, seq := s.seq + 1 }) ∧
    (room < css.length → beatsOn (k - 1) t = .next { waiting s c (.store (css.drop room) none unit s.seq flags) with
      sbuf := s.sbuf ++ entries (css.take room), seq := s.seq + 1 })

/-- A thread between instructions. -/
def Slot.between (c : Slot) : Prop := c.busy = 0 ∧ c.late = none

/-- Element j of va followed by vb (R175). -/
def pairAt (c : Slot) (a b : Reg5) (w j : Nat) : Nat :=
  if j < 4096 / w then vElem (c.vreg a.toNat) w j else vElem (c.vreg b.toNat) w (j - 4096 / w)

/-- The flags of the active elements. -/
def flagsOf (n : Nat) (act : Nat → Bool) (f : Nat → BitVec 5) : BitVec 5 :=
  ((upTo n).filter act).foldl (fun x i => x ||| f i) 0

/-- Integer instructions by element: the registers named, vd, the element width, the beats, the mask field, and the result of
element i from the thread as it stands (Tables 9-2 and 9-5). -/
inductive IntLanes : Instr → List Reg5 → Reg5 → Nat → Nat → BitVec 3 → (Slot → Nat → Nat) → Prop
  | vadd d a b ty m : IntLanes (.vadd d a b ty m) [d, a, b] d ty.width (4) m (fun c i =>
      truncN ((c.ielem a.toNat ty i) + (c.ielem b.toNat ty i)) ty.width)
  | vsub d a b ty m : IntLanes (.vsub d a b ty m) [d, a, b] d ty.width (4) m (fun c i =>
      truncN ((c.ielem a.toNat ty i) - (c.ielem b.toNat ty i)) ty.width)
  | vadds d a b ty m : IntLanes (.vadds d a b ty m) [d, a, b] d ty.width (4) m (fun c i =>
      truncN (min (intMax (itypeSigned ty) ty.width) (max (intMin (itypeSigned ty) ty.width) ((c.ielem a.toNat ty i) + (c.ielem b.toNat ty i)))) ty.width)
  | vsubs d a b ty m : IntLanes (.vsubs d a b ty m) [d, a, b] d ty.width (4) m (fun c i =>
      truncN (min (intMax (itypeSigned ty) ty.width) (max (intMin (itypeSigned ty) ty.width) ((c.ielem a.toNat ty i) - (c.ielem b.toNat ty i)))) ty.width)
  | vmul d a b ty m : IntLanes (.vmul d a b ty m) [d, a, b] d ty.width (if ty.width = 64 then 8 else 4) m (fun c i =>
      truncN ((c.ielem a.toNat ty i) * (c.ielem b.toNat ty i)) ty.width)
  | vmulh d a b ty m : IntLanes (.vmulh d a b ty m) [d, a, b] d ty.width (if ty.width = 64 then 8 else 4) m (fun c i =>
      truncN ((c.ielem a.toNat ty i) * (c.ielem b.toNat ty i) / ((2 ^ ty.width : Nat) : Int)) ty.width)
  | vmin d a b ty m : IntLanes (.vmin d a b ty m) [d, a, b] d ty.width (4) m (fun c i =>
      truncN (min (c.ielem a.toNat ty i) (c.ielem b.toNat ty i)) ty.width)
  | vmax d a b ty m : IntLanes (.vmax d a b ty m) [d, a, b] d ty.width (4) m (fun c i =>
      truncN (max (c.ielem a.toNat ty i) (c.ielem b.toNat ty i)) ty.width)
  | vabs d a ty m : IntLanes (.vabs d a ty m) [d, a] d ty.width (4) m (fun c i =>
      truncN ((c.ielem a.toNat ty i).natAbs : Int) ty.width)
  | vneg d a ty m : IntLanes (.vneg d a ty m) [d, a] d ty.width (4) m (fun c i =>
      truncN (-(c.ielem a.toNat ty i)) ty.width)
  | vand d a b ty m : IntLanes (.vand d a b ty m) [d, a, b] d ty.width (4) m (fun c i =>
      (vElem (c.vreg a.toNat) ty.width i) &&& (vElem (c.vreg b.toNat) ty.width i))
  | vor d a b ty m : IntLanes (.vor d a b ty m) [d, a, b] d ty.width (4) m (fun c i =>
      (vElem (c.vreg a.toNat) ty.width i) ||| (vElem (c.vreg b.toNat) ty.width i))
  | vxor d a b ty m : IntLanes (.vxor d a b ty m) [d, a, b] d ty.width (4) m (fun c i =>
      (vElem (c.vreg a.toNat) ty.width i) ^^^ (vElem (c.vreg b.toNat) ty.width i))
  | vandn d a b ty m : IntLanes (.vandn d a b ty m) [d, a, b] d ty.width (4) m (fun c i =>
      (vElem (c.vreg a.toNat) ty.width i) &&& (2 ^ ty.width - 1 - (vElem (c.vreg b.toNat) ty.width i)))
  | vsll d a b ty m : IntLanes (.vsll d a b ty m) [d, a, b] d ty.width (4) m (fun c i =>
      if (vElem (c.vreg b.toNat) ty.width i) < ty.width then (vElem (c.vreg a.toNat) ty.width i) * 2 ^ (vElem (c.vreg b.toNat) ty.width i) else 0)
  | vsrl d a b ty m : IntLanes (.vsrl d a b ty m) [d, a, b] d ty.width (4) m (fun c i =>
      if (vElem (c.vreg b.toNat) ty.width i) < ty.width then (vElem (c.vreg a.toNat) ty.width i) / 2 ^ (vElem (c.vreg b.toNat) ty.width i) else 0)
  | vsra d a b ty m : IntLanes (.vsra d a b ty m) [d, a, b] d ty.width (4) m (fun c i =>
      truncN (sintN (vElem (c.vreg a.toNat) ty.width i) ty.width / ((2 ^ min (vElem (c.vreg b.toNat) ty.width i) (ty.width - 1) : Nat) : Int)) ty.width)
  | vperm d a b ty m : IntLanes (.vperm d a b ty m) [d, a, b] d ty.width (8) m (fun c i =>
      vElem (c.vreg a.toNat) ty.width (i - i % min (2 ^ ty.width) (4096 / ty.width) + (vElem (c.vreg b.toNat) ty.width i) % min (2 ^ ty.width) (4096 / ty.width)))
  | vshuf d a b ty m : IntLanes (.vshuf d a b ty m) [d, a, b] d ty.width (8) m (fun c i =>
      pairAt c a b ty.width (vElem (c.vreg d.toNat) ty.width i % (2 * (4096 / ty.width))))
  | vzip d a b ty m : IntLanes (.vzip d a b ty m) [d, a, b] d ty.width (4) m (fun c i =>
      vElem (c.vreg (if i % 2 = 0 then a.toNat else b.toNat)) ty.width (i / 2))
  | vunzip d a b ty m : IntLanes (.vunzip d a b ty m) [d, a, b] d ty.width (4) m (fun c i =>
      pairAt c a b ty.width (2 * i))

/-- Floating instructions by element: the registers named, vd, the format, the beats, the governing mask, and the result of
element i with its flags (Tables 10-1 and 10-3). -/
inductive FloatLanes : Instr → List Reg5 → Reg5 → FFmt → Nat → BitVec 3 → (Slot → Nat → FRes) → Prop
  | vfadd d a b f rm : FloatLanes (.vfadd d a b f rm) [d, a, b] d f (if (FFmt.fmt f).w = 64 then 8 else 4) (maskOf rm) (fun c i =>
      (FFmt.fmt f).addV (roundingOf c rm) ((FFmt.fmt f).decode (vElem (c.vreg a.toNat) (FFmt.fmt f).w i)) ((FFmt.fmt f).decode (vElem (c.vreg b.toNat) (FFmt.fmt f).w i)))
  | vfsub d a b f rm : FloatLanes (.vfsub d a b f rm) [d, a, b] d f (if (FFmt.fmt f).w = 64 then 8 else 4) (maskOf rm) (fun c i =>
      (FFmt.fmt f).addV (roundingOf c rm) ((FFmt.fmt f).decode (vElem (c.vreg a.toNat) (FFmt.fmt f).w i)) ((FFmt.fmt f).decode (vElem (c.vreg b.toNat) (FFmt.fmt f).w i)).negate)
  | vfmul d a b f rm : FloatLanes (.vfmul d a b f rm) [d, a, b] d f (if (FFmt.fmt f).w = 64 then 8 else 4) (maskOf rm) (fun c i =>
      (FFmt.fmt f).mulV (roundingOf c rm) ((FFmt.fmt f).decode (vElem (c.vreg a.toNat) (FFmt.fmt f).w i)) ((FFmt.fmt f).decode (vElem (c.vreg b.toNat) (FFmt.fmt f).w i)))
  | vfdiv d a b f rm : FloatLanes (.vfdiv d a b f rm) [d, a, b] d f (if (FFmt.fmt f).w = 64 then 32 else 16) (maskOf rm) (fun c i =>
      (FFmt.fmt f).divV (roundingOf c rm) ((FFmt.fmt f).decode (vElem (c.vreg a.toNat) (FFmt.fmt f).w i)) ((FFmt.fmt f).decode (vElem (c.vreg b.toNat) (FFmt.fmt f).w i)))
  | vfma d a b f rm : FloatLanes (.vfma d a b f rm) [d, a, b] d f (if (FFmt.fmt f).w = 64 then 8 else 4) (maskOf rm) (fun c i =>
      (FFmt.fmt f).fmaV (roundingOf c rm) false false ((FFmt.fmt f).decode (vElem (c.vreg a.toNat) (FFmt.fmt f).w i)) ((FFmt.fmt f).decode (vElem (c.vreg b.toNat) (FFmt.fmt f).w i)) ((FFmt.fmt f).decode (vElem (c.vreg d.toNat) (FFmt.fmt f).w i)))
  | vfms d a b f rm : FloatLanes (.vfms d a b f rm) [d, a, b] d f (if (FFmt.fmt f).w = 64 then 8 else 4) (maskOf rm) (fun c i =>
      (FFmt.fmt f).fmaV (roundingOf c rm) false true ((FFmt.fmt f).decode (vElem (c.vreg a.toNat) (FFmt.fmt f).w i)) ((FFmt.fmt f).decode (vElem (c.vreg b.toNat) (FFmt.fmt f).w i)) ((FFmt.fmt f).decode (vElem (c.vreg d.toNat) (FFmt.fmt f).w i)))
  | vfnma d a b f rm : FloatLanes (.vfnma d a b f rm) [d, a, b] d f (if (FFmt.fmt f).w = 64 then 8 else 4) (maskOf rm) (fun c i =>
      (FFmt.fmt f).fmaV (roundingOf c rm) true true ((FFmt.fmt f).decode (vElem (c.vreg a.toNat) (FFmt.fmt f).w i)) ((FFmt.fmt f).decode (vElem (c.vreg b.toNat) (FFmt.fmt f).w i)) ((FFmt.fmt f).decode (vElem (c.vreg d.toNat) (FFmt.fmt f).w i)))
  | vfnms d a b f rm : FloatLanes (.vfnms d a b f rm) [d, a, b] d f (if (FFmt.fmt f).w = 64 then 8 else 4) (maskOf rm) (fun c i =>
      (FFmt.fmt f).fmaV (roundingOf c rm) true false ((FFmt.fmt f).decode (vElem (c.vreg a.toNat) (FFmt.fmt f).w i)) ((FFmt.fmt f).decode (vElem (c.vreg b.toNat) (FFmt.fmt f).w i)) ((FFmt.fmt f).decode (vElem (c.vreg d.toNat) (FFmt.fmt f).w i)))
  | vfsqrt d a f rm : FloatLanes (.vfsqrt d a f rm) [d, a] d f (if (FFmt.fmt f).w = 64 then 32 else 16) (maskOf rm) (fun c i =>
      (FFmt.fmt f).sqrtV (roundingOf c rm) ((FFmt.fmt f).decode (vElem (c.vreg a.toNat) (FFmt.fmt f).w i)))
  | vfrcp d a f rm : FloatLanes (.vfrcp d a f rm) [d, a] d f (if (FFmt.fmt f).w = 64 then 16 else 8) (maskOf rm) (fun c i =>
      (FFmt.fmt f).rcpV (roundingOf c rm) ((FFmt.fmt f).decode (vElem (c.vreg a.toNat) (FFmt.fmt f).w i)))
  | vfrsq d a f rm : FloatLanes (.vfrsq d a f rm) [d, a] d f (if (FFmt.fmt f).w = 64 then 16 else 8) (maskOf rm) (fun c i =>
      (FFmt.fmt f).rsqV (roundingOf c rm) ((FFmt.fmt f).decode (vElem (c.vreg a.toNat) (FFmt.fmt f).w i)))
  | vfmin d a b f m : FloatLanes (.vfmin d a b f m) [d, a, b] d f (if (FFmt.fmt f).w = 64 then 8 else 4) m (fun c i =>
      (FFmt.fmt f).minMax false (vElem (c.vreg a.toNat) (FFmt.fmt f).w i) (vElem (c.vreg b.toNat) (FFmt.fmt f).w i))
  | vfmax d a b f m : FloatLanes (.vfmax d a b f m) [d, a, b] d f (if (FFmt.fmt f).w = 64 then 8 else 4) m (fun c i =>
      (FFmt.fmt f).minMax true (vElem (c.vreg a.toNat) (FFmt.fmt f).w i) (vElem (c.vreg b.toNat) (FFmt.fmt f).w i))
  | vfabs d a f m : FloatLanes (.vfabs d a f m) [d, a] d f (if (FFmt.fmt f).w = 64 then 8 else 4) m (fun c i =>
      ((vElem (c.vreg a.toNat) (FFmt.fmt f).w i) % 2 ^ ((FFmt.fmt f).w - 1), 0))
  | vfneg d a f m : FloatLanes (.vfneg d a f m) [d, a] d f (if (FFmt.fmt f).w = 64 then 8 else 4) m (fun c i =>
      ((vElem (c.vreg a.toNat) (FFmt.fmt f).w i) ^^^ 2 ^ ((FFmt.fmt f).w - 1), 0))
  | vfclass d a f m : FloatLanes (.vfclass d a f m) [d, a] d f (if (FFmt.fmt f).w = 64 then 8 else 4) m (fun c i =>
      ((FFmt.fmt f).classify (vElem (c.vreg a.toNat) (FFmt.fmt f).w i), 0))

/-- Comparisons: the registers named, the mask register md, the width, the beats, the mask field, and whether element i
passes, with its flags (R173, R186). -/
inductive VCompare : Instr → List Reg5 → Reg5 → Nat → Nat → BitVec 3 → (Slot → Nat → Bool × BitVec 5) → Prop
  | vcmpEq d a b ty m : VCompare (.vcmpEq d a b ty m) [a, b] d ty.width 4 m (fun c i =>
      (decide ((c.ielem a.toNat ty i) = (c.ielem b.toNat ty i)), 0))
  | vcmpNe d a b ty m : VCompare (.vcmpNe d a b ty m) [a, b] d ty.width 4 m (fun c i =>
      (decide ((c.ielem a.toNat ty i) ≠ (c.ielem b.toNat ty i)), 0))
  | vcmpLt d a b ty m : VCompare (.vcmpLt d a b ty m) [a, b] d ty.width 4 m (fun c i =>
      (decide ((c.ielem a.toNat ty i) < (c.ielem b.toNat ty i)), 0))
  | vcmpLe d a b ty m : VCompare (.vcmpLe d a b ty m) [a, b] d ty.width 4 m (fun c i =>
      (decide ((c.ielem a.toNat ty i) ≤ (c.ielem b.toNat ty i)), 0))
  | vcmpGt d a b ty m : VCompare (.vcmpGt d a b ty m) [a, b] d ty.width 4 m (fun c i =>
      (decide ((c.ielem a.toNat ty i) > (c.ielem b.toNat ty i)), 0))
  | vcmpGe d a b ty m : VCompare (.vcmpGe d a b ty m) [a, b] d ty.width 4 m (fun c i =>
      (decide ((c.ielem a.toNat ty i) ≥ (c.ielem b.toNat ty i)), 0))
  | vfcmpEq d a b f m : VCompare (.vfcmpEq d a b f m) [a, b] d (FFmt.fmt f).w (if (FFmt.fmt f).w = 64 then 8 else 4) m (fun c i =>
      Cond.float .eq ((FFmt.fmt f).decode (vElem (c.vreg a.toNat) (FFmt.fmt f).w i)) ((FFmt.fmt f).decode (vElem (c.vreg b.toNat) (FFmt.fmt f).w i)))
  | vfcmpNe d a b f m : VCompare (.vfcmpNe d a b f m) [a, b] d (FFmt.fmt f).w (if (FFmt.fmt f).w = 64 then 8 else 4) m (fun c i =>
      Cond.float .ne ((FFmt.fmt f).decode (vElem (c.vreg a.toNat) (FFmt.fmt f).w i)) ((FFmt.fmt f).decode (vElem (c.vreg b.toNat) (FFmt.fmt f).w i)))
  | vfcmpLt d a b f m : VCompare (.vfcmpLt d a b f m) [a, b] d (FFmt.fmt f).w (if (FFmt.fmt f).w = 64 then 8 else 4) m (fun c i =>
      Cond.float .lt ((FFmt.fmt f).decode (vElem (c.vreg a.toNat) (FFmt.fmt f).w i)) ((FFmt.fmt f).decode (vElem (c.vreg b.toNat) (FFmt.fmt f).w i)))
  | vfcmpLe d a b f m : VCompare (.vfcmpLe d a b f m) [a, b] d (FFmt.fmt f).w (if (FFmt.fmt f).w = 64 then 8 else 4) m (fun c i =>
      Cond.float .le ((FFmt.fmt f).decode (vElem (c.vreg a.toNat) (FFmt.fmt f).w i)) ((FFmt.fmt f).decode (vElem (c.vreg b.toNat) (FFmt.fmt f).w i)))
  | vfcmpGt d a b f m : VCompare (.vfcmpGt d a b f m) [a, b] d (FFmt.fmt f).w (if (FFmt.fmt f).w = 64 then 8 else 4) m (fun c i =>
      Cond.float .gt ((FFmt.fmt f).decode (vElem (c.vreg a.toNat) (FFmt.fmt f).w i)) ((FFmt.fmt f).decode (vElem (c.vreg b.toNat) (FFmt.fmt f).w i)))
  | vfcmpGe d a b f m : VCompare (.vfcmpGe d a b f m) [a, b] d (FFmt.fmt f).w (if (FFmt.fmt f).w = 64 then 8 else 4) m (fun c i =>
      Cond.float .ge ((FFmt.fmt f).decode (vElem (c.vreg a.toNat) (FFmt.fmt f).w i)) ((FFmt.fmt f).decode (vElem (c.vreg b.toNat) (FFmt.fmt f).w i)))

/-- Widening and dot products and conversions by element of a group of g registers (R166, R174, R190): the registers named,
vd, g, the width of a result, the beats, the activity and the result of an element, with its flags. -/
inductive GroupLanes : Instr → List Nat → Reg5 → Nat → Nat → Nat → (Slot → Nat → Bool) → (Slot → Nat → FRes) → Prop
  | vwadd d a b ty m : GroupLanes (.vwadd d a b ty m) (group d 2 ++ [a.toNat, b.toNat]) d 2 (2 * ty.width) 8
      (fun c i => c.active m ty.width i)
      (fun c i => (truncN (c.welem a.toNat ty i + c.welem b.toNat ty i) (2 * ty.width), 0))
  | vwsub d a b ty m : GroupLanes (.vwsub d a b ty m) (group d 2 ++ [a.toNat, b.toNat]) d 2 (2 * ty.width) 8
      (fun c i => c.active m ty.width i)
      (fun c i => (truncN (c.welem a.toNat ty i - c.welem b.toNat ty i) (2 * ty.width), 0))
  | vwmul d a b ty m : GroupLanes (.vwmul d a b ty m) (group d 2 ++ [a.toNat, b.toNat]) d 2 (2 * ty.width) 8
      (fun c i => c.active m ty.width i)
      (fun c i => (truncN (c.welem a.toNat ty i * c.welem b.toNat ty i) (2 * ty.width), 0))
  | vdot2 d a b ty sat m : GroupLanes (.vdot2 d a b ty sat m) [d.toNat, a.toNat, b.toNat] d 1 32 4
      (fun c i => c.active m 32 i)
      (fun c j =>
        let x := intOf (vElem (c.vreg d.toNat) 32 j) (wtypeSigned ty) 32 + c.welem a.toNat ty (2 * j) * c.welem b.toNat ty (2 * j) +
          c.welem a.toNat ty (2 * j + 1) * c.welem b.toNat ty (2 * j + 1)
        (truncN (if sat then satN x (wtypeSigned ty) 32 else x) 32, 0))
  | vdot4 d a b ty sat m : GroupLanes (.vdot4 d a b ty sat m) [d.toNat, a.toNat, b.toNat] d 1 32 4
      (fun c i => c.active m 32 i)
      (fun c j =>
        let x := intOf (vElem (c.vreg d.toNat) 32 j) (wtypeSigned ty) 32 + c.welem a.toNat ty (4 * j) * c.welem b.toNat ty (4 * j) +
          c.welem a.toNat ty (4 * j + 1) * c.welem b.toNat ty (4 * j + 1) +
          c.welem a.toNat ty (4 * j + 2) * c.welem b.toNat ty (4 * j + 2) +
          c.welem a.toNat ty (4 * j + 3) * c.welem b.toNat ty (4 * j + 3)
        (truncN (if sat then satN x (wtypeSigned ty) 32 else x) 32, 0))
  | vnarrow d a ty sat m : GroupLanes (.vnarrow d a ty sat m) (d.toNat :: group a 2) d 1 ty.width 8
      (fun c i => c.active m ty.width i)
      (fun c i =>
        let x := intOf (c.groupElem a.toNat 2 (2 * ty.width) i) (wtypeSigned ty) (2 * ty.width)
        (truncN (if sat then satN x (wtypeSigned ty) ty.width else x) ty.width, 0))
  | vcvt d a sat st rnd dt m : GroupLanes (.vcvt d a sat st rnd dt m)
      (group d (max 1 ((EType.bits dt) / (EType.bits st))) ++ group a (max 1 ((EType.bits st) / (EType.bits dt)))) d (max 1 ((EType.bits dt) / (EType.bits st))) (EType.bits dt)
      (max (4 * max (max 1 ((EType.bits dt) / (EType.bits st))) (max 1 ((EType.bits st) / (EType.bits dt)))) (if (EType.bits dt) = 64 ∨ (EType.bits st) = 64 then 8 else 0))
      (fun c i => c.active m (min (EType.bits dt) (EType.bits st)) i)
      (fun c i => convElem dt st (convMode c rnd) sat (c.groupElem a.toNat (max 1 ((EType.bits st) / (EType.bits dt))) (EType.bits st) i))

/-- Mask instructions (Table 9-7): the mask register written and its value. -/
inductive MaskOp : Instr → Reg5 → (Slot → MaskReg) → Prop
  | mand d a b : MaskOp (.mand d a b) d (fun c => c.maskReg a.toNat &&& c.maskReg b.toNat)
  | mor d a b : MaskOp (.mor d a b) d (fun c => c.maskReg a.toNat ||| c.maskReg b.toNat)
  | mxor d a b : MaskOp (.mxor d a b) d (fun c => c.maskReg a.toNat ^^^ c.maskReg b.toNat)
  | mnot d a : MaskOp (.mnot d a) d (fun c => ~~~c.maskReg a.toNat)
  | mmov d a : MaskOp (.mmov d a) d (fun c => c.maskReg a.toNat)

end Sys2Proof.Machine

/-- R172, R175, R75: an integer vector instruction that names only declared registers writes the active elements of vd with the
result of Table 9-2 or 9-5; one that names another register takes REGDECL with the least such number. -/
def Obligations.IntegerVectorResults : Prop :=
  ∀ (i : Instr) (regs : List Reg5) (d : Reg5) (w k : Nat) (m : BitVec 3) (f : Slot → Nat → Nat) (s : State),
    IntLanes i regs d w k m f → s.cur.between →
    ((∀ r ∈ regs, r.toNat < s.cur.decl.vregs) →
      Lands i s s.cur k [elemsWrite d.toNat w (s.cur.active m w) (f s.cur)] none 0) ∧
    (∀ n, leastBeyond s.cur.decl.vregs (regs.map (fun r => r.toNat)) = some n →
      exec i s = trap s s.cur .regdecl (BitVec.ofNat 64 n))

/-- R165, R166, R168: a write of the active elements of a register gives them their values and keeps every other element and
register; a write of a group does so element by element of the group. -/
def Obligations.VectorElementsAsWritten : Prop :=
  ∀ (c : Slot) (r w : Nat) (act : Nat → Bool) (f : Nat → Nat), r < 32 → w ∈ [4, 8, 16, 32, 64] →
    (∀ i, i < 4096 / w → vElem ((c.landV (elemsWrite r w act f)).vreg r) w i =
      if act i then f i % 2 ^ w else vElem (c.vreg r) w i) ∧
    (∀ q, q ≠ r → (c.landV (elemsWrite r w act f)).vreg q = c.vreg q) ∧
    { c.landV (elemsWrite r w act f) with vregs := c.vregs } = c ∧
    (∀ g i, 0 < g → r + g ≤ 32 → i < g * (4096 / w) →
      ((groupWrites r g w act f).foldl Slot.landV c).groupElem r g w i = if act i then f i % 2 ^ w else c.groupElem r g w i)

/-- R178 to R185: a floating vector instruction writes the active elements of vd with the result of its operation in the
rounding mode that governs it, and raises the flags of the active elements. -/
def Obligations.FloatVectorResults : Prop :=
  ∀ (i : Instr) (regs : List Reg5) (d : Reg5) (f : FFmt) (k : Nat) (m : BitVec 3) (F : Slot → Nat → FRes) (s : State),
    FloatLanes i regs d f k m F → s.cur.between → (∀ r ∈ regs, r.toNat < s.cur.decl.vregs) →
    Lands i s s.cur k [elemsWrite d.toNat (FFmt.fmt f).w (s.cur.active m (FFmt.fmt f).w) (fun j => (F s.cur j).1)] none
      (flagsOf (4096 / (FFmt.fmt f).w) (s.cur.active m (FFmt.fmt f).w) (fun j => (F s.cur j).2))

/-- R174, R190: the widening, dot-product and narrowing instructions and VCVT write the active elements of their group.
A conversion to the same FP8 format with .sat is the model's reading (log 17). -/
def Obligations.GroupVectorResults : Prop :=
  ∀ (i : Instr) (regs : List Nat) (d : Reg5) (g w k : Nat) (act : Slot → Nat → Bool) (F : Slot → Nat → FRes) (s : State),
    GroupLanes i regs d g w k act F → s.cur.between → (∀ r ∈ regs, r < s.cur.decl.vregs) →
    Lands i s s.cur k (groupWrites d.toNat g w (act s.cur) (fun j => (F s.cur j).1)) none
      (flagsOf (g * (4096 / w)) (act s.cur) (fun j => (F s.cur j).2))

/-- R173, R177, R186: a comparison writes the bits of the active containers of md: whether every element of the container
passes, both bits for a 64-bit element; the others keep theirs. The mask instructions write md; m0 is not stored. VSEL
writes every element, a's where active (R168). R175, R176, R177, R188: the vector instructions with a scalar source or result. -/
def Obligations.MaskAndScalarResults : Prop :=
  ((∀ (i : Instr) (regs : List Reg5) (d : Reg5) (w k : Nat) (m : BitVec 3) (F : Slot → Nat → Bool × BitVec 5) (s : State),
     VCompare i regs d w k m F → s.cur.between → (∀ r ∈ regs, r.toNat < s.cur.decl.vregs) →
     ∃ v : MaskReg, Lands i s s.cur k [] (some (d.toNat, v))
         (flagsOf (4096 / w) (s.cur.active m w) (fun j => (F s.cur j).2)) ∧
       ∀ j, j < 128 → v.getLsbD j =
         (if w = 64 then (if s.cur.active m w (j / 2) then (F s.cur (j / 2)).1 else (s.cur.maskReg d.toNat).getLsbD j)
         else if s.cur.active m w (j * (32 / w)) then (upTo (32 / w)).all (fun e => (F s.cur (j * (32 / w) + e)).1)
         else (s.cur.maskReg d.toNat).getLsbD j)) ∧
   (∀ (i : Instr) (d : Reg5) (f : Slot → MaskReg) (s : State), MaskOp i d f → Lands i s s.cur 1 [] (some (d.toNat, f s.cur)) 0) ∧
   (∀ (c : Slot) (n : Nat) (v : MaskReg), c.maskReg 0 = BitVec.allOnes 128 ∧ c.setMask 0 v = c ∧
     (0 < n → n < 8 → (c.setMask n v).maskReg n = v))) ∧
  (∀ (s : State) (d a b : Reg5) (ty : IType) (m : BitVec 3) (f : FFmt) (rm : RMode), s.cur.between →
     (d.toNat < s.cur.decl.vregs → a.toNat < s.cur.decl.vregs → b.toNat < s.cur.decl.vregs →
       Lands (.vsel d a b ty m) s s.cur 4 [elemsWrite d.toNat ty.width (fun _ => true) (fun i =>
         if s.cur.active m ty.width i then vElem (s.cur.vreg a.toNat) ty.width i else vElem (s.cur.vreg b.toNat) ty.width i)] none 0) ∧
     (∀ x c, d.toNat < s.cur.decl.vregs → s.cur.readReg a = some (x, c) →
       Lands (.vbcast d a ty m) s c 4 [elemsWrite d.toNat ty.width (c.active m ty.width) (fun _ => x.toNat % 2 ^ ty.width)] none 0) ∧
     (∀ x c, d.toNat < s.cur.decl.vregs → a.toNat < s.cur.decl.vregs → s.cur.readReg b = some (x, c) →
       Lands (.vslide d a b ty m) s c 4 [elemsWrite d.toNat ty.width (c.active m ty.width) (fun i =>
         if 0 ≤ (i : Int) + x.toInt ∧ (i : Int) + x.toInt < (4096 / ty.width : Nat) then
           vElem (c.vreg a.toNat) ty.width ((i : Int) + x.toInt).toNat else 0)] none 0) ∧
     (∀ x k c₁ c, d.toNat < s.cur.decl.vregs → s.cur.readReg a = some (x, c₁) → c₁.readReg b = some (k, c) →
       Lands (.vspl d a b ty m) s c 1
         [elemsWrite d.toNat ty.width (fun i => i == k.toNat && c.active m ty.width i) (fun _ => x.toNat % 2 ^ ty.width)] none 0) ∧
     (∀ k c, a.toNat < s.cur.decl.vregs → s.cur.readReg b = some (k, c) →
       Writes (.vmvs d a b ty m) s c d
         (if k.toNat < 4096 / ty.width ∧ c.active m ty.width k.toNat = true then BitVec.ofInt 64 (c.ielem a.toNat ty k.toNat) else 0)
         c.npc) ∧
     (d.toNat < 24 → a.toNat < s.cur.decl.vregs →
       ∃ t, exec (.vredi d a ty m) s = .next t ∧ beatsOn 5 t = .next { s with cur :=
         { s.cur.setReg d.toNat (BitVec.ofInt 64 (((upTo (4096 / ty.width)).filter (s.cur.active m ty.width)).foldl
           (fun x i => x + s.cur.ielem a.toNat ty i) 0)) with pc := s.cur.pc + 4 } }) ∧
     (∀ x c, d.toNat < 24 → a.toNat < s.cur.decl.vregs → s.cur.readReg b = some (x, c) →
       ∃ t, exec (.vfreds d a b f rm) s = .next t ∧
         beatsOn (4096 / (FFmt.fmt f).w / 8 + 1) t = .next { s with cur :=
           { (c.setReg d.toNat (BitVec.ofNat 64 (vfredsSum c f rm a (x.toNat % 2 ^ (FFmt.fmt f).w)).1)).raise
             (vfredsSum c f rm a (x.toNat % 2 ^ (FFmt.fmt f).w)).2 with pc := c.pc + 4 } }) ∧
     Writes (.mpopc d a) s s.cur d (BitVec.ofNat 64 ((upTo 128).filter (fun i => (s.cur.maskReg a.toNat).getLsbD i)).length) s.cur.npc ∧
     (∀ n, n ≤ 128 → (∀ i, i < n → (s.cur.maskReg a.toNat).getLsbD i = false) → (n < 128 → (s.cur.maskReg a.toNat).getLsbD n = true) →
       Writes (.mfirst d a) s s.cur d (BitVec.ofNat 64 n) s.cur.npc))

namespace Sys2Proof.Machine

/-! ### Predicates, vector memory, referee instructions -/

/-- The predicate instructions (Table 11-1). -/
inductive IsPred : Instr → Pred → Reg5 → Reg5 → Bool → Bool → Bool → BitVec 3 → Prop
  | pori2 d a f64 nf sos m : IsPred (.pori2 d a f64 nf sos m) .ori2 d a f64 nf sos m
  | pori3 d a f64 nf sos m : IsPred (.pori3 d a f64 nf sos m) .ori3 d a f64 nf sos m
  | pincir d a f64 nf sos m : IsPred (.pincir d a f64 nf sos m) .incir d a f64 nf sos m
  | pinsph d a f64 nf sos m : IsPred (.pinsph d a f64 nf sos m) .insph d a f64 nf sos m
  | psegx d a f64 nf sos m : IsPred (.psegx d a f64 nf sos m) .segx d a f64 nf sos m

/-- The registers that a predicate names (R194). -/
def predRegs (p : Pred) (d a : Reg5) (sos : Bool) : List Nat := d.toNat :: group a (if sos then predCoords p + 1 else predCoords p)

/-- The active lanes of a predicate (R195). -/
def predLanes (c : Slot) (f64 : Bool) (m : BitVec 3) : List Nat :=
  (upTo (4096 / (if f64 then 64 else 32))).filter (c.active m (if f64 then 64 else 32))

/-- The points of a lane as integers at one common exponent (R194). -/
def lanePoints (p : Pred) (c : Slot) (a : Reg5) (f64 : Bool) (i : Nat) : List Point :=
  toPoints (predShape p).2 (predShape p).1 (commonInts (laneValues c a.toNat (predCoords p) f64 i))

/-- Vector loads and stores of plain elements (R227): the slot after its pops, the registers named, vd, the type, the mask,
whether it stores, the access, the address of an element and the beats. -/
inductive VAccess : Instr → State → Slot → List Reg5 → Reg5 → EType → BitVec 3 → Bool → Acc → (Nat → Word) → Nat → Prop
  | vld d a ty m s base c : s.cur.readReg a = some (base, c) → formatWindow s c base = none →
      VAccess (.vld d a ty m) s c [d] d ty m false .vload (fun i => base + BitVec.ofNat 64 (EType.bits ty / 8 * i)) 4
  | vlds d a b ty m s base st c₁ c : s.cur.readReg a = some (base, c₁) → c₁.readReg b = some (st, c) →
      VAccess (.vlds d a b ty m) s c [d] d ty m false .vidxLoad (fun i => base + BitVec.ofNat 64 i * st)
        (max 8 (4096 / EType.bits ty / 16))
  | vldx d a b ty m s base c : s.cur.readReg a = some (base, c) →
      VAccess (.vldx d a b ty m) s c [d, b] d ty m false .vidxLoad
        (fun i => base + BitVec.ofNat 64 (EType.bits ty / 8 * vElem (c.vreg b.toNat) (EType.bits ty) i))
        (max 8 (4096 / EType.bits ty / 16))
  | vst d a ty m s base c : s.cur.readReg a = some (base, c) → formatWindow s c base = none →
      VAccess (.vst d a ty m) s c [d] d ty m true .vstore (fun i => base + BitVec.ofNat 64 (EType.bits ty / 8 * i)) 4
  | vsts d a b ty m s base st c₁ c : s.cur.readReg a = some (base, c₁) → c₁.readReg b = some (st, c) →
      VAccess (.vsts d a b ty m) s c [d] d ty m true .vidxStore (fun i => base + BitVec.ofNat 64 i * st)
        (max 8 (4096 / EType.bits ty / 16))
  | vstx d a b ty m s base c : s.cur.readReg a = some (base, c) →
      VAccess (.vstx d a b ty m) s c [d, b] d ty m true .vidxStore
        (fun i => base + BitVec.ofNat 64 (EType.bits ty / 8 * vElem (c.vreg b.toNat) (EType.bits ty) i))
        (max 8 (4096 / EType.bits ty / 16))

end Sys2Proof.Machine

/-- R194, R195, R199, R204: a predicate whose active lanes are all finite, or under .nf, writes the i32 elements of its active
lanes, a non-finite lane with 2 and NV; without .nf a non-finite active lane takes PNONFIN after B1 beats with nothing
written.
That its lanes are counted as it issues, and none where it takes PNONFIN, is the model's choice (log 19). -/
def Obligations.PredicateResults : Prop :=
  ∀ (i : Instr) (p : Pred) (d a : Reg5) (f64 nf sos : Bool) (m : BitVec 3) (s : State), IsPred i p d a f64 nf sos m →
    s.cur.between → (∀ r ∈ predRegs p d a sos, r < s.cur.decl.vregs) →
    (let c := s.cur
     let bad := (predLanes c f64 m).filter (fun i => !(laneValues c a.toNat (predCoords p) f64 i).all FVal.isFin)
     let fin := (predLanes c f64 m).filter (fun i => (laneValues c a.toNat (predCoords p) f64 i).all FVal.isFin)
     let stages := fin.map (fun i => laneStage p f64 (lanePoints p c a f64 i))
     let value := fun i => if bad.contains i then 2 else
       truncN (predResult p (lanePoints p c a f64 i)
         (if sos then some (laneIndices c (a.toNat + predCoords p) (predShape p).1 f64 i) else none)) 32
     ((bad = [] ∨ nf = true) →
       ∃ t, exec i s = .next t ∧ beatsOn (predBeats p f64 stages - 1) t = .next { countStages s c stages bad.length with
         cur := landedSlot c [elemsWrite d.toNat 32 (fun i => (predLanes c f64 m).contains i) value] none
           (if bad = [] then 0 else flagNV) }) ∧
     (bad ≠ [] → nf = false →
       ∃ t, exec i s = .next t ∧ beatsOn (if f64 then 7 else 3) t = trap s c .pnonfin (badLanes f64 bad)))

/-- R196, R203: without .sos the result of PORI2, PORI3, PINCIR and PINSPH is the sign of the determinant of Table 11-2, 0 when it
is 0 (R201), and PSEGX's code is the first row of R203 that applies to its four orientations; a lane with D ≠ 0 ignores its
indices. -/
def Obligations.PredicateSigns : Prop :=
  let det3 := fun (x1 y1 z1 x2 y2 z2 x3 y3 z3 : Int) =>
    x1 * (y2 * z3 - z2 * y3) - y1 * (x2 * z3 - z2 * x3) + z1 * (x2 * y3 - y2 * x3)
  let ori2 := fun (ax ay bx by' cx cy : Int) => Int.sign ((bx - ax) * (cy - ay) - (by' - ay) * (cx - ax))
  (∀ ax ay bx by' cx cy : Int, predResult .ori2 [[ax, ay], [bx, by'], [cx, cy]] none = ori2 ax ay bx by' cx cy) ∧
  (∀ ax ay az bx by' bz cx cy cz : Int, predResult .ori3 [[ax, ay, az], [bx, by', bz], [cx, cy, cz]] none =
    Int.sign (det3 ax ay az bx by' bz cx cy cz)) ∧
  (∀ ax ay bx by' cx cy dx dy : Int, predResult .incir [[ax, ay], [bx, by'], [cx, cy], [dx, dy]] none =
    Int.sign (det3 (ax - dx) (ay - dy) ((ax - dx) ^ 2 + (ay - dy) ^ 2) (bx - dx) (by' - dy) ((bx - dx) ^ 2 + (by' - dy) ^ 2)
      (cx - dx) (cy - dy) ((cx - dx) ^ 2 + (cy - dy) ^ 2))) ∧
  (∀ ax ay az bx by' bz cx cy cz dx dy dz ex ey ez : Int,
    (let sq := fun (x y z : Int) => (x - ex) ^ 2 + (y - ey) ^ 2 + (z - ez) ^ 2
     let la := sq ax ay az
     let lb := sq bx by' bz
     let lc := sq cx cy cz
     let ld := sq dx dy dz
     predResult .insph [[ax, ay, az], [bx, by', bz], [cx, cy, cz], [dx, dy, dz], [ex, ey, ez]] none = Int.sign (
       (ax - ex) * det3 (by' - ey) (bz - ez) lb (cy - ey) (cz - ez) lc (dy - ey) (dz - ez) ld -
       (ay - ey) * det3 (bx - ex) (bz - ez) lb (cx - ex) (cz - ez) lc (dx - ex) (dz - ez) ld +
       (az - ez) * det3 (bx - ex) (by' - ey) lb (cx - ex) (cy - ey) lc (dx - ex) (dy - ey) ld -
       la * det3 (bx - ex) (by' - ey) (bz - ez) (cx - ex) (cy - ey) (cz - ez) (dx - ex) (dy - ey) (dz - ez)))) ∧
  (∀ ax ay bx by' cx cy dx dy : Int,
    (let o1 := ori2 ax ay bx by' cx cy
     let o2 := ori2 ax ay bx by' dx dy
     let o3 := ori2 cx cy dx dy ax ay
     let o4 := ori2 cx cy dx dy bx by'
     let inBox := fun (x y px py qx qy : Int) => min px qx ≤ x ∧ x ≤ max px qx ∧ min py qy ≤ y ∧ y ≤ max py qy
     let meet := fun (p q r t : Int) => max (min p q) (min r t) ≤ min (max p q) (max r t)
     let cross := o1 * o2 < 0 ∧ o3 * o4 < 0
     let touch := (o1 = 0 ∧ o2 = 0 ∧ o3 = 0 ∧ o4 = 0 ∧ meet ax bx cx dx ∧ meet ay by' cy dy) ∨
       (o1 = 0 ∧ inBox cx cy ax ay bx by') ∨ (o2 = 0 ∧ inBox dx dy ax ay bx by') ∨
       (o3 = 0 ∧ inBox ax ay cx cy dx dy) ∨ (o4 = 0 ∧ inBox bx by' cx cy dx dy)
     let code := predResult .segx [[ax, ay], [bx, by'], [cx, cy], [dx, dy]] none
     (cross → code = 1) ∧ (¬cross → touch → code = -1) ∧ (¬cross → ¬touch → code = 0))) ∧
  (∀ (p : Pred) (pts : List Point) (idx : List Nat), p ≠ .segx → (predDP p pts).1 ≠ 0 →
    predResult p pts (some idx) = predResult p pts none)

/-- R91, R92, R191: VCVTGQ writes every byte of vd: the blocks' data planes, their scale and micro bytes from byte 448, and 0
elsewhere; inactive elements count as +0. -/
def Obligations.BlockConversionResult : Prop :=
  ∀ (d a : Reg5) (sat : Bool) (st : GqSrc) (rnd : DynRnd) (dt : GqFmt) (m : BitVec 3) (s : State), s.cur.between →
    d.toNat < s.cur.decl.vregs → a.toNat < s.cur.decl.vregs →
    (let c := s.cur
     let f := gqSrcFmt st
     let val := fun i => if c.active m f.w i then f.decode (vElem (c.vreg a.toNat) f.w i) else FVal.fin { neg := false, m := 0, e := 0 }
     let block := fun b => gqEncode ((upTo 16).map (fun i => val (16 * b + i))) (GqFmt.m dt) 0 (convMode c rnd) sat
     ∃ v : VReg, Lands (.vcvtgq d a sat st rnd dt m) s c 8 [{ reg := d.toNat, mask := BitVec.allOnes 4096, val := v }] none
         (flagsOf (4096 / f.w / 16) (fun _ => true) (fun b => (block b).flags)) ∧
       ∀ j, j < 512 → vElem v 8 j =
         (if 448 ≤ j then (if (j - 448) / 2 < 4096 / f.w / 16 then
            (if j % 2 = 0 then (block ((j - 448) / 2)).scale else (block ((j - 448) / 2)).micro) % 256 else 0)
         else if j / (2 * (GqFmt.m dt + 1)) < 4096 / f.w / 16 then
           (blockData (GqFmt.m dt) (block (j / (2 * (GqFmt.m dt + 1)))).codes).getD (j % (2 * (GqFmt.m dt + 1))) 0
         else 0))

/-- R222, R223, R227, R228, R231: a vector store enters its active elements' bytes into the store buffer at its last beat, one
write for each aligned 64-byte block, each element one event of it; while the buffer is full the thread waits with the writes that
have not entered it. A failing check of the lowest-numbered active element traps with nothing stored. Through a format window the
elements are converted to the window's format, and the flags of the conversion are raised with the last write.
That the writes enter at the last beat is the model's reading (log 27), and that a later element's byte stands where two
elements overlap is too (log 29). -/
def Obligations.VectorStoreResults : Prop :=
  (∀ (i : Instr) (s : State) (c : Slot) (regs : List Reg5) (d : Reg5) (ty : EType) (m : BitVec 3) (acc : Acc) (addr : Nat → Word)
     (k : Nat), VAccess i s c regs d ty m true acc addr k → c.between → (∀ r ∈ regs, r.toNat < s.cur.decl.vregs) →
     (let n := EType.bits ty / 8
      let act := c.active m (EType.bits ty)
      (∀ key : Nat → Nat, (∀ j, j < 4096 / EType.bits ty → act j = true → resolve s c (addr j) n acc = .ok (key j)) →
        StoresBlocks i s c k n 0 (((upTo (4096 / EType.bits ty)).filter act).flatMap (fun j =>
          cellsAt (key j) (leBytes n (vElem (c.vreg d.toNat) (EType.bits ty) j))))) ∧
      (∀ j cause tval, j < 4096 / EType.bits ty → act j = true → resolve s c (addr j) n acc = .error (cause, tval) →
        (∀ l, l < j → act l = true → ∃ q, resolve s c (addr l) n acc = .ok q) → exec i s = trap s c cause tval))) ∧
  (∀ (s : State) (d a : Reg5) (ty : EType) (m : BitVec 3) (base desc : Word) (c : Slot) (w o : Nat) (x : Ctx), c.between →
     d.toNat < s.cur.decl.vregs → s.cur.readReg a = some (base, c) → formatWindow s c base = some (desc, w, o, x) →
     (let idx := (upTo (4096 / EType.bits ty)).filter (c.active m (EType.bits ty))
      let wt := winType (winFmt desc)
      let conv := fun j => convElem wt ty .rne false (vElem (c.vreg d.toNat) (EType.bits ty) j)
      (idx = [] → Lands (.vst d a ty m) s c 4 [] none 0) ∧
      (idx ≠ [] → winCheck x c ty true desc base w o idx = none →
        StoresBlocks (.vst d a ty m) s c 4 (EType.bits wt / 8) (flagsOf (4096 / EType.bits ty) (c.active m (EType.bits ty)) (fun j => (conv j).2))
          (idx.flatMap (fun j => match winKeys x c desc o j with
            | (key, n) :: _ => cellsAt key (leBytes n (conv j).1)
            | [] => []))) ∧
      (∀ cause tval, idx ≠ [] → winCheck x c ty true desc base w o idx = some (cause, tval) →
        exec (.vst d a ty m) s = trap s c cause tval)))

/-- R223: the writes that a store makes hold every stored byte, each write within one aligned block of its unit's bytes.
That a later element's byte stands over an earlier one's is the model's reading (log 29). -/
def Obligations.BlockWritesHoldEveryByte : Prop :=
  ∀ (u : Nat) (cells : List Host.Cell),
    (∀ cs ∈ unitGroups u cells, ∀ x ∈ cs, ∀ y ∈ cs, x.1 / u = y.1 / u) ∧
    (∀ k b, (∃ cs ∈ unitGroups u cells, (k, b) ∈ cs) ↔ (cells.reverse.find? (fun x => x.1 == k)) = some (k, b))

/-- R207, R227, R228: a vector load whose active elements all lie in the own core scratchpad, and which nothing holds back,
writes them to vd; another waits for its last element; a failing check of the lowest-numbered active element traps with nothing
written. R3: an element that holds data which no check can correct takes UNCORR. R220, R221: a load through a format window of the own core scratchpad decodes each active element in the window's format
and raises the flags of the conversion. -/
def Obligations.VectorLoadResults : Prop :=
  (∀ (i : Instr) (s : State) (c : Slot) (regs : List Reg5) (d : Reg5) (ty : EType) (m : BitVec 3) (acc : Acc) (addr : Nat → Word)
     (k : Nat), VAccess i s c regs d ty m false acc addr k → c.between → (∀ r ∈ regs, r.toNat < s.cur.decl.vregs) →
     (let n := EType.bits ty / 8
      let act := c.active m (EType.bits ty)
      (∀ key : Nat → Nat, (∀ j, j < 4096 / EType.bits ty → act j = true → resolve s c (addr j) n acc = .ok (key j)) →
        ((∀ j, j < 4096 / EType.bits ty → act j = true → ownCore c (key j) = true ∧ s.loadStalls c.phys (key j) n = false) →
          ((∀ j, j < 4096 / EType.bits ty → act j = true → s.errorAt (key j) n = none) →
            Lands i s c k [elemsWrite d.toNat (EType.bits ty) act (fun j => leNat (s.readCoreN (coreOf c.phys) (key j) n))] none 0) ∧
          (∀ j e, j < 4096 / EType.bits ty → act j = true → s.errorAt (key j) n = some e →
            (∀ l, l < j → act l = true → s.errorAt (key l) n = none) →
            exec i s = .next (fatalTrap s c .uncorr (addr j) c.ir e.place))) ∧
        ((∃ j, j < 4096 / EType.bits ty ∧ act j = true ∧ (ownCore c (key j) = false ∨ s.loadStalls c.phys (key j) n = true)) →
          exec i s = .next (waiting s { c with busy := k - 1 }
            (.vload d ty none (((upTo (4096 / EType.bits ty)).filter act).map (fun j => (j, addr j))) [] 0)))) ∧
      (∀ j cause tval, j < 4096 / EType.bits ty → act j = true → resolve s c (addr j) n acc = .error (cause, tval) →
        (∀ l, l < j → act l = true → ∃ q, resolve s c (addr l) n acc = .ok q) → exec i s = trap s c cause tval))) ∧
  (∀ (s : State) (d a : Reg5) (ty : EType) (m : BitVec 3) (base desc : Word) (c : Slot) (w o : Nat) (x : Ctx), c.between →
     d.toNat < s.cur.decl.vregs → s.cur.readReg a = some (base, c) → formatWindow s c base = some (desc, w, o, x) →
     (let act := c.active m (EType.bits ty)
      let idx := (upTo (4096 / EType.bits ty)).filter act
      (idx = [] → Lands (.vld d a ty m) s c 4 [] none 0) ∧
      (idx ≠ [] → winCheck x c ty false desc base w o idx = none →
        (∀ j ∈ idx, ∀ k ∈ winKeys x c desc o j, ownCore c k.1 = true ∧ s.loadStalls c.phys k.1 k.2 = false ∧
          s.errorAt k.1 k.2 = none) →
        Lands (.vld d a ty m) s c 4 [elemsWrite d.toNat (EType.bits ty) act (fun j => (winLoad s x c ty desc o j).1)] none
          (flagsOf (4096 / EType.bits ty) act (fun j => (winLoad s x c ty desc o j).2))) ∧
      (∀ cause tval, idx ≠ [] → winCheck x c ty false desc base w o idx = some (cause, tval) →
        exec (.vld d a ty m) s = trap s c cause tval)))

/-- R303, R384, R388, R389: QSTAT, TIME, and CNTR: a denied read returns 0 and sets CNTDENY; an allowed slot or core count is
read in one beat, a cluster or context count after a wait. -/
def Obligations.CountsTimesAndQueueStates : Prop :=
  (∀ (s : State) (d : Reg5), Writes (.qstat d) s s.cur d
    (BitVec.ofNat 64 (s.cur.q0read.length % 16 * 2 ^ 23 + s.cur.q4read.length % 8 * 2 ^ 20 + s.cur.q3read.length % 8 * 2 ^ 17 +
      s.cur.q1read.length % 16 * 2 ^ 13 + (s.cur.mbox.filter (fun e => e.full == Vector.replicate 4 false)).length % 4 * 2 ^ 11 +
      (16 - s.cur.q2send.length) % 32 * 2 ^ 6 + s.cur.q2recv.length % 64)) s.cur.npc) ∧
  (∀ (s : State) (d : Reg5), Writes (.time d false) s s.cur d (BitVec.ofNat 64 s.tearly) s.cur.npc ∧
    Writes (.time d true) s s.cur d (BitVec.ofNat 64 s.tlate) s.cur.npc) ∧
  (∀ (s : State) (d : Reg5) (e : BitVec 8) (x : Ctx), s.ctxOf s.cur = some x →
    ((eventListed e.toNat && x.warrant.allow.getLsbD e.toNat) = false →
      (d.toNat < 24 → exec (.cntr d e) s =
        .next { s with cur := { ({ s.cur with deny := true, denyEv := e } : Slot).setReg d.toNat 0 with pc := s.cur.pc + 4 } }) ∧
      (24 ≤ d.toNat → exec (.cntr d e) s = pushWith s s.cur d.toNat 0 s.cur.npc (.deny e))) ∧
    ((eventListed e.toNat && x.warrant.allow.getLsbD e.toNat) = true →
      let v := BitVec.ofNat 64 (s.counter x.id (eventUnit s.cur e.toNat) e.toNat)
      (e.toNat < 0x80 → Writes (.cntr d e) s s.cur d v s.cur.npc) ∧
      (0x80 ≤ e.toNat → d.toNat < 24 → s.cur.busy = 0 →
        ∃ t, Runs [.cntr d e, .threadRejoin s.cur.phys] s t ∧
          t = { s with cur := { s.cur.ready.setReg d.toNat v with pc := s.cur.pc + 4 } })))

/-- R406, R408: the referee instructions: RFETCH takes the oldest inbox item into the referee scratchpad, SIGWAIT reports and
clears the pending events, DISPATCH sends its bytes, and KEYLD installs or zeroises a key and reports the controllers.
DISPATCH's checks, KEYLD's number and the referee core's own scratchpad are the model's choice (log 30, 31, 33), and so is that a
unit on the module takes its message at once (log 64). -/
def Obligations.RefereeInstructionResults : Prop :=
  (∀ (s : State) (d a : Reg5) (x : Word) (c : Slot), s.cur.readReg a = some (x, c) → destReason s c d = none →
    (x.toNat % 64 ≠ 0 → exec (.rfetch d a) s = trap s c .misalign x) ∧
    (x.toNat % 64 = 0 → (∀ i ∈ s.inbox, i.core ≠ coreOf c.phys) → Writes (.rfetch d a) s c d 0 c.npc) ∧
    (∀ i, x.toNat % 64 = 0 → s.inbox.find? (fun i => i.core == coreOf c.phys) = some i →
      (0x40000 < x.toNat + min 32768 i.bytes.length →
        exec (.rfetch d a) s = trap s c .bounds (BitVec.ofNat 64 (max x.toNat 0x40000))) ∧
      (x.toNat + min 32768 i.bytes.length ≤ 0x40000 → d.toNat < 24 →
        ∃ t, exec (.rfetch d a) s = .next t ∧ t.inbox = dropFirst (fun i => i.core == coreOf c.phys) s.inbox ∧ t.cur.pc = c.pc + 4 ∧
          (0 < d.toNat → t.cur.reg d.toNat =
            BitVec.ofNat 64 (i.node % 2 ^ 16 * 2 ^ 48 + i.kind % 2 ^ 16 * 2 ^ 32 + min 32768 i.bytes.length)) ∧
          (i.bytes ≠ [] → t.mem = writeCells s.mem (cellsAt (keyOf Space.ref (coreOf c.phys) x.toNat) (i.bytes.take 32768)))))) ∧
  (∀ (s : State) (d : Reg5) (core : Nat), core = coreOf s.cur.phys → destReason s s.cur d = none →
    (s.signals core ≠ 0 → exec (.sigwait d) s =
      finish { s with refEvents := s.refEvents.filter (fun e => e.1 != core) } s.cur d ((s.signals core).setWidth 64)) ∧
    (s.signals core = 0 → exec (.sigwait d) s = .next (waiting s s.cur (.sigwait d))) ∧
    ((s.signals core).getLsbD 0 = s.inbox.any (fun i => i.core == core) ∧
      ∀ j, 0 < j → j < 6 → (s.signals core).getLsbD j = (s.refPending core).getLsbD j) ∧
    (s.signals core ≠ 0 → d.toNat < 24 → exec (.sigwait d) s = .next { s with
      refEvents := s.refEvents.filter (fun e => e.1 != core),
      cur := { s.cur.setReg d.toNat ((s.signals core).setWidth 64) with pc := s.cur.pc + 4 } })) ∧
  (∀ (s : State) (d a b : Reg5) (x n : Word) (c₁ c : Slot), s.cur.readReg a = some (x, c₁) → c₁.readReg b = some (n, c) →
    d.toNat < 24 → 16 ≤ n.toNat → n.toNat ≤ 32768 → x.toNat + n.toNat ≤ 0x40000 →
    (let bytes := s.readCoreN (coreOf c.phys) (keyOf Space.ref (coreOf c.phys) x.toNat) n.toNat
     let gone : Slot := { c.setReg d.toNat 0 with pc := c.pc + 4 }
     (s.dispatchReady c = true →
       (∀ node one, Config.dispatchTo (bytes.take 16) = some (node, one) → exec (.dispatch d a b) s = .next { s with
         outq := s.outq ++ [{ node := node.toNat, vc := if one then 1 else 0, bytes := bytes }], cur := gone }) ∧
       (Config.dispatchTo (bytes.take 16) = none → exec (.dispatch d a b) s = .next { s with cur := gone })) ∧
     (s.dispatchReady c = false → exec (.dispatch d a b) s = .next (waiting s c (.dispatch d bytes))))) ∧
  (∀ (s : State) (d a b : Reg5) (k o : Word) (c₁ c : Slot), s.cur.readReg a = some (k, c₁) → c₁.readReg b = some (o, c) →
    d.toNat < 24 →
    (2 ^ 26 ≤ o.toNat → exec (.keyld d a b) s = trap s c .bounds o) ∧
    (o.toNat < 2 ^ 26 → (k = 0 ∨ k.toNat + 64 ≤ 0x40000) → c.busy = 0 → c.phys = s.cur.phys →
      (let key := if k = 0 then none else some (s.readCoreN (coreOf c.phys) (keyOf Space.ref (coreOf c.phys) k.toNat) 64)
       let u := s.installKey (o.toNat % 2 ^ 10) (o.toNat / 2 ^ 10) key
       Runs [.keyld d a b, .threadRejoin s.cur.phys] s
         { u with cur := { c.ready.setReg d.toNat (BitVec.ofNat 64 (controllersOf s (o.toNat / 2 ^ 10))) with pc := c.pc + 4 } }))) ∧
  (∀ (s : State) (slot ctx : Nat) (key : Option (List Byte)) (x : Ctx), s.ctxAt ctx = some x →
    ∃ y, (s.installKey slot ctx key).ctxAt ctx = some y ∧ y.keyValid = key.isSome ∧ y.key = key.getD x.key ∧
      (s.installKey slot ctx key).keys = s.keys.filter (fun e => e.slot != slot) ++ [{ slot := slot, ctx := ctx, key := key.getD [] }] ∧
      (key = none ∨ key = some x.key → (s.installKey slot ctx key).mem = s.mem))

namespace Sys2Proof.Machine

/-! ### Movement and matrix units -/

/-- An instruction reads some descriptors and lists of the own core scratchpad as it issues, each an address and a length: their
banks are awake and none is in error (R3, R214), and in the state after it they have been counted and charged. -/
def DescReads (s : State) (x : Ctx) (c : Slot) (spans : List (Word × Nat)) (r : State) : Prop :=
  (∀ e ∈ spans, (∀ k ∈ descKeys x c e.1 e.2, s.bankWaking k = false) ∧ s.errorAt ((descKeys x c e.1 1).headD 0) e.2 = none) ∧
    r = s.noteBlocks x.id (spans.flatMap (fun e => descKeys x c e.1 e.2)) false

/-- The issue of a transfer whose checks pass (R290, R291, R293, R296, R298): the state once its descriptor has been read, the slot
after its pops and the request. -/
inductive Requests : Instr → State → State → Slot → Xfer → Prop
  | cpy d a b ch s dst src n c₁ c₂ c x h : s.cur.readReg a = some (dst, c₁) → c₁.readReg b = some (src, c₂) →
      c₂.readReg d = some (n, c) → s.ctxOf c = some x → s.chanOf c ch.toNat = some h → n.toNat ≤ 2 ^ 40 - 16 →
      dst.toNat % 16 = 0 → src.toNat % 16 = 0 → n.toNat % 16 = 0 → rangeCheck s x c src n.toNat false false = none →
      rangeCheck s x c dst n.toNat true false = none →
      Requests (.cpy d a b ch) s s c
        { newXfer .cpy c ch.toNat [dst, src, n] with src := src, dst := dst, rowLen := n.toNat, bytes := n.toNat }
  | cpys d a b ch s r dst src desc rows len ss ds c₁ c₂ c x h : s.cur.readReg a = some (dst, c₁) → c₁.readReg b = some (src, c₂) →
      c₂.readReg d = some (desc, c) → s.ctxOf c = some x → s.chanOf c ch.toNat = some h → descCheck x c desc 32 32 = none →
      DescReads s x c [(desc, 32)] r →
      rows = descWord r x c desc 0 → len = descWord r x c desc 1 → ss = descWord r x c desc 2 → ds = descWord r x c desc 3 →
      1 ≤ rows.toNat → rows.toNat ≤ 65536 → 16 ≤ len.toNat → len.toNat ≤ 1048576 → dst.toNat % 16 = 0 → src.toNat % 16 = 0 →
      len.toNat % 16 = 0 → ss.toNat % 16 = 0 → ds.toNat % 16 = 0 →
      firstSome (rowsCheck r x c src (sword ss) rows.toNat len.toNat false) = none →
      firstSome (rowsCheck r x c dst (sword ds) rows.toNat len.toNat true) = none →
      Requests (.cpys d a b ch) s r c
        { newXfer .cpys c ch.toNat [dst, src, desc] with
            src := src, dst := dst, rows := rows.toNat, rowLen := len.toNat, sstr := sword ss, dstr := sword ds,
            bytes := rows.toNat * len.toNat }
  | halo a b s r desc mask c₁ c x : s.cur.readReg a = some (desc, c₁) → c₁.readReg b = some (mask, c) → s.ctxOf c = some x →
      descCheck x c desc 128 128 = none → DescReads s x c [(desc, 128)] r → 0 < mask.toNat → mask.toNat < 16 →
      (∀ e ∈ (upTo 4).filter (fun d => mask.getLsbD d), firstSome ((haloEntry r x c desc e).reasons ++
        (haloEntry r x c desc e).aligned ++ (haloEntry r x c desc e).ranges) = none) →
      Requests (.halo a b) s r c
        { newXfer .halo c 0 [desc, mask] with
            halos := ((upTo 4).filter (fun d => mask.getLsbD d)).map (fun e => (haloEntry r x c desc e).dir) }
  | mcast d a b s r src list selm js c₁ c₂ c x : s.cur.readReg a = some (src, c₁) → c₁.readReg b = some (list, c₂) →
      c₂.readReg d = some (selm, c) → s.ctxOf c = some x → descCheck x c list 8 8 = none →
      js = (upTo 64).filter (fun j => selm.getLsbD j) →
      DescReads s x c ((list, 8) :: js.map (fun j => (list + BitVec.ofNat 64 (8 + 8 * j), 8))) r →
      (∀ j ∈ js, descCheck x c (list + BitVec.ofNat 64 (8 + 8 * j)) 8 8 = none ∧ firstSome (mcastEntry r x c list j).1 = none) →
      (descWord r x c list 0).toNat < 4096 → src.toNat % 16 = 0 →
      rangeCheck r x c src (((descWord r x c list 0).toNat + 1) * 16) false true = none →
      Requests (.mcast d a b) s r c
        { newXfer .mcast c 0 [src, list, selm] with
            src := src, rowLen := ((descWord r x c list 0).toNat + 1) * 16, bytes := ((descWord r x c list 0).toNat + 1) * 16,
            dests := js.map (fun j => (mcastEntry r x c list j).2) }
  | gath d a b ch s r dst desc n e idx c₁ c₂ c x h : s.cur.readReg a = some (dst, c₁) → c₁.readReg b = some (desc, c₂) →
      c₂.readReg d = some (n, c) → s.ctxOf c = some x → s.chanOf c ch.toNat = some h → descCheck x c desc 16 16 = none →
      DescReads s x c [(desc, 16)] r →
      e = (descWord r x c desc 1).toNat / 2 ^ 60 → (descWord r x c desc 1).toNat / 2 ^ 57 % 8 = 0 →
      idx = BitVec.ofNat 64 ((descWord r x c desc 1).toNat % 2 ^ 57) → 4 ≤ e → e ≤ 12 → n.toNat ≤ 65536 →
      dst.toNat % 16 = 0 → (descWord r x c desc 0).toNat % 16 = 0 →
      (0 < n.toNat → idx.toNat < 0x40000 ∧ rangeCheck r x c idx (4 * n.toNat) false true = none ∧
        rangeCheck r x c (descWord r x c desc 0) 1 false false = none) →
      rangeCheck r x c dst (2 ^ e * n.toNat) true true = none →
      Requests (.gath d a b ch) s r c
        { newXfer .gath c ch.toNat [dst, desc, n] with
            src := descWord r x c desc 0, dst := dst, rows := n.toNat, rowLen := 2 ^ e, dstr := (2 ^ e : Nat), idx := idx,
            bytes := 2 ^ e * n.toNat }

/-- The scope at which the entry of a request releases: of a copy R291's, of another its placement (Table 14-2). -/
def entryScope (x : Xfer) : Scope :=
  match x.kind with
  | .cpy | .cpys => if 2 ^ 56 ≤ x.src.toNat ∨ 2 ^ 56 ≤ x.dst.toNat then .sys else .dev
  | .halo | .mcast => .core
  | .gath => .clus

/-- The pending bytes of a channel after a request. -/
def withPending (s : State) (x : Xfer) : List Chan :=
  if x.kind.onChannel then
    s.chans.map (fun h => if h.core == x.core && h.ch == x.ch then { h with pend := h.pend + x.bytes } else h)
  else s.chans

/-- The matrix command instructions (R267, Tables 17-1 and 17-2): the slot after its pops and the words. -/
inductive Commands : Instr → State → Slot → List Word → Prop
  | mxop a ty sp s x c : s.cur.readReg a = some (x, c) → Commands (.mxop a ty sp) s c [cmdWord 1 ty.code (if sp then 1 else 0) x]
  | mxzero a s x c : s.cur.readReg a = some (x, c) → Commands (.mxzero a) s c [cmdWord 2 0 0 x]
  | mxst a ty sat s x c : s.cur.readReg a = some (x, c) → Commands (.mxst a ty sat) s c [cmdWord 3 ty.code (if sat then 1 else 0) x]
  | mxld a s x c : s.cur.readReg a = some (x, c) → Commands (.mxld a) s c [cmdWord 4 0 0 x]
  | mxring a b s x y c₁ c : s.cur.readReg a = some (x, c₁) → c₁.readReg b = some (y, c) →
      Commands (.mxring a b) s c [cmdWord 5 0 0 x, y]
  | mxadv a s x c : s.cur.readReg a = some (x, c) → Commands (.mxadv a) s c [cmdWord 6 0 0 x]
  | mxwgt a s x c : s.cur.readReg a = some (x, c) → Commands (.mxwgt a) s c [cmdWord 7 0 0 x]

/-- The conditions of R269 on a command word: the pushing core's share and the weight, the reserved fields, the shares of its
tile and rings, and what each CODE asks for. -/
def Acceptable (x : Ctx) (c : Slot) (w : Word) : Prop :=
  x.holdsShare (clusOf c.phys) (coreOf c.phys % 8) = true ∧ x.res.weight ≠ 0 ∧ cmdReserved w = false ∧
    (∀ t, cmdTile w = some t → x.holdsShare (clusOf c.phys) (t / 8) = true) ∧
    (∀ r ∈ cmdRings w, x.holdsShare (clusOf c.phys) (r / 2) = true) ∧
    (codeOf w = 1 → bits w 56 56 = 1 → bits w 41 34 % 2 = 1 ∧ bits w 33 33 = 0 ∧ bits w 59 57 ≠ 7) ∧
    (codeOf w = 3 → let win := c.win (bits w 49 47)
      let e := mtypeBits (bits w 59 57)
      winFmt win = fmtOfMType (bits w 59 57) ∧ bits win 33 32 = 0 ∧ bits w 49 47 < c.decl.windows ∧ bits w 17 0 % 16 = 0 ∧
        bits w 17 0 + 1024 * e / 8 ≤ coreBound x c ∧
        (bits w 59 57 < 3 → 2 * bits win 21 5 + 2 * (bits w 17 0 * 8 / e / 16) + 128 ≤ coreBound x c)) ∧
    (codeOf w = 4 → bits w 17 0 % 16 = 0 ∧ bits w 17 0 + 4096 ≤ coreBound x c) ∧
    (codeOf w = 5 → bits w 51 48 ≤ 8 ∧ bits w 21 0 % 64 = 0 ∧
      bits w 21 0 + 64 * (bits w 47 40 + 1) * 2 ^ bits w 51 48 ≤ clusBound c) ∧
    (codeOf w = 6 → bits w 51 44 ≠ 0) ∧ (codeOf w = 7 → bits w 55 52 ≠ 0 ∧ bits w 55 52 ≤ x.res.weight)

/-- An engine of a core may read some locations now: none is closed to it, in a bank that wakes, untranslated or in error. -/
def MayRead (s : State) (core : Nat) (ks : List Nat) : Prop :=
  ∀ k ∈ ks, s.engOpen core k = true ∧ s.tlbHit k = true ∧ s.errorAt k 1 = none

/-- The caddie of a core may read some locations now: so may an engine, and no write of its core to them is on its way (R237). -/
def CaddieReads (s : State) (core : Nat) (ks : List Nat) : Prop := MayRead s core ks ∧ ∀ k ∈ ks, s.writePending core k 1 = false

/-- An engine of a core may write some locations now. -/
def MayWrite (s : State) (core : Nat) (ks : List Nat) : Prop := ∀ k ∈ ks, s.engMayWrite core k = true ∧ s.tlbHit k = true

/-- The bytes of n at a location that one event of an engine's write takes: those of its aligned 8 bytes (R231). -/
def eventBytes (k n : Nat) : Nat := min n (8 - k % 8)

/-- Some bytes have landed in memory, and no waiting full/empty request has been served with them. -/
def Landed (s u : State) (k : Nat) (bs : List Byte) : Prop :=
  s.feq = [] → (∀ y ∈ spanKeys k bs.length, inMem y = true) → u.mem = writeCells s.mem (cellsAt k bs)

/-- A collective's request with nothing known but its operands: r₁ is the state once the descriptor has been read, r once its peer
table has. -/
def Coll.asks (k : Coll) (r₁ r : State) (c : Slot) (x : Ctx) (desc src dst : Word) (p n₀ n : Nat) (ty : CType) (sel : CollSel) : Prop :=
  k.id = r.nextId ∧ k.slot = c.phys ∧ k.ctx = x.id ∧ k.thread = c.thread ∧ k.node = r.ownNode ∧ k.decl = c.decl ∧ k.seq = r.seq ∧
    k.name = descWord r₁ x c desc 0 ∧ k.p = p ∧ k.r = n₀ ∧ k.n = n ∧ k.ty = ty ∧ k.sel = sel ∧ k.src = src ∧ k.dst = dst ∧
    k.arrived = false ∧ k.far = false ∧ k.dead = false ∧ k.result = none ∧ k.landed = 0 ∧
    k.peers = (upTo p).map (fun q => descWord r x c (descWord r₁ x c desc 3) q)

/-- A participant's record on q3 (R300): the collectives without it, and its slot with the record. -/
def collDone (s : State) (e : Coll) (status : Nat) (flags : BitVec 5) : State :=
  { s with
    colls := s.colls.filter (fun g => g.id != e.id),
    cur := { s.cur with
      q3read := s.cur.q3read ++ [BitVec.ofNat 64 (6 * 2 ^ 60 + status * 2 ^ 56 + (if status = 0 then flags else 0).toNat * 2 ^ 45 +
        s.cycle.toNat % 2 ^ 32)],
      q3seen := s.cur.q3seen ++ [if status = 0 then s.pubs else 0] } }

end Sys2Proof.Machine

/-- R31, R34, R284, R290, R291, R293, R296, R298: a transfer instruction whose checks pass enters its request, fills the four words of
the first free mailbox entry, or takes a command entry of q4, adds the bytes to its channel's pending count and goes on: a release, of
a copy at .dev or .sys (R291), of another at the placement of the slot and its engine; with none free the thread waits.
Which addresses take MISALIGN is the model's choice (log 72). -/
def Obligations.TransferRequestsAreEntered : Prop :=
  ∀ (i : Instr) (s r : State) (c : Slot) (x : Xfer) (sc : Scope), Requests i s r c x → sc = entryScope x →
    (∀ k, x.kind.byCaddie = true → c.mbox.findIdx? (fun e => e.full == Vector.replicate 4 false) = some k →
      exec i s = .next { r.publish c sc with
        chans := withPending r x,
        xfers := r.xfers ++ [{ x with id := r.nextId, seq := r.seq, entry := k }], nextId := r.nextId + 1,
        cur := { (c.release sc r.seq).ready with
          mbox := setNth c.mbox k { words := entryWords x.words, full := Vector.replicate 4 true }, pc := c.pc + 4 } }) ∧
    (x.kind.byCaddie = false → c.q4cmd < 4 →
      exec i s = .next { r.publish c sc with
        chans := withPending r x,
        xfers := r.xfers ++ [{ x with id := r.nextId, seq := r.seq, taken := true }], nextId := r.nextId + 1,
        cur := { (c.release sc r.seq).ready with q4cmd := c.q4cmd + 1, pc := c.pc + 4 } }) ∧
    ((x.kind.byCaddie = true ∧ c.mbox.findIdx? (fun e => e.full == Vector.replicate 4 false) = none) ∨
        (x.kind.byCaddie = false ∧ 4 ≤ c.q4cmd) →
      exec i s = .next (waiting r c (.xfer x)))

/-- R33, R292, R294: CHWM sets the range of an idle channel, or lets it wait for the channel's transfers; CPWAIT goes on once the
channel's pending bytes are at most the bound; HALOWAIT once the counter is at least the count. -/
def Obligations.ChannelRangesAndWaits : Prop :=
  (∀ (s : State) (a b : Reg5) (ch : BitVec 3) (base n : Word) (c₁ c : Slot) (x : Ctx) (h : Chan), s.cur.readReg a = some (base, c₁) →
    c₁.readReg b = some (n, c) → s.ctxOf c = some x → s.chanOf c ch.toNat = some h → n.toNat ≤ 4194304 → base.toNat % 16 = 0 →
    n.toNat % 16 = 0 → rangeCheck s x c base n.toNat true true = none →
    (s.chanBusy h.core h.ch = true → exec (.chwm a b ch) s = .next (goesOn (s.setChan { h with next := some (base, n.toNat) }) c)) ∧
    (s.chanBusy h.core h.ch = false → 0 < n.toNat → exec (.chwm a b ch) s =
      .next (goesOn (s.setChan { h with base := base, len := n.toNat, wm := base, filled := [], next := none }) c)) ∧
    (s.chanBusy h.core h.ch = false → n = 0 → exec (.chwm a b ch) s =
      .next (goesOn (s.setChan { h with base := 0, len := 0, wm := 0, filled := [], next := none }) c))) ∧
  (∀ (s : State) (a : Reg5) (ch : BitVec 3) (v : Word) (c : Slot), s.cur.readReg a = some (v, c) →
    (s.chanOf c ch.toNat = none → exec (.cpwait a ch) s = trap s c .queue 1) ∧
    (∀ h, s.chanOf c ch.toNat = some h →
      (h.pend ≤ v.toNat → exec (.cpwait a ch) s = .next (goesOn s c)) ∧
      (v.toNat < h.pend → exec (.cpwait a ch) s = .next (waiting s c (.cpwait ch.toNat v))))) ∧
  (∀ (s : State) (a b : Reg5) (dir n : Word) (c₁ c : Slot), s.cur.readReg a = some (dir, c₁) → c₁.readReg b = some (n, c) →
    (n.toNat % 2 ^ 32 ≤ ((c.halo[dir.toNat % 4]?).getD 0).toNat → exec (.halowait a b) s = .next (goesOn s c)) ∧
    (((c.halo[dir.toNat % 4]?).getD 0).toNat < n.toNat % 2 ^ 32 →
      exec (.halowait a b) s = .next (waiting s c (.halowait (dir.toNat % 4) (BitVec.ofNat 32 (n.toNat % 2 ^ 32))))))

/-- R15, R231, R284, R288, R291, R293, R297, R298: the engines: the caddie takes a request at its turn, empties its entry, and reads a
copy's source; a copy, a direction of a halo and an element of a gather are read and then land, the bytes of one aligned 8 at a time,
in order; the last of a copy advances the AUTO rings bound to its channel (R272); a transfer whose destination has come to be refused
ends there; a copy, a halo, a multicast and a gather end with their record.
A halo's STATUS and a multicast receiver's refusal are the model's choice (log 21, 22), and so are when the host refuses a byte and
which of an event's it is (log 26, 7), and that a multicast's receiver takes its bytes in one step (log 65). -/
def Obligations.EnginesCarryOutTransfers : Prop :=
  (∀ (s : State) (t : Xfer), slotNo t.slot < 7 → s.takable t.slot = some t → (s.inProgress (coreOf t.slot)).length < 4 →
    s.cycle.toNat % 8 = 7 → (∀ e ∈ s.caddies, e.1 = coreOf t.slot → e.2.2 ≠ s.cycle) →
    (∀ p, coreOf p = coreOf t.slot → slotNo p < 7 → p ≠ t.slot → s.takable p = none) →
    (∀ x, s.ctxAt t.ctx = some x → t.kind = .cpy ∨ t.kind = .cpys →
      CaddieReads s (coreOf t.slot) ((t.keys s x (s.xferSlot t) t.bytes).1.map (fun k => k.1))) →
    ∃ u, exec (.caddieTakeRequest (coreOf t.slot)) s = .next u ∧ u.mem = s.mem ∧ ∃ v ∈ u.xfers, v.id = t.id ∧ v.taken = true ∧
      (∀ x, s.ctxAt t.ctx = some x → t.kind = .cpy ∨ t.kind = .cpys →
        v.data = (t.keys s x (s.xferSlot t) t.bytes).1.map (fun k => s.readFrom (s.slotAt t.slot) k.1) ∧
        v.status = (t.keys s x (s.xferSlot t) t.bytes).2)) ∧
  (∀ (s : State) (k : Nat) (t : Xfer) (x : Ctx), s.xfers[k]? = some t → s.ctxAt t.ctx = some x →
    s.clusOpen t.ctx (t.core / 8) = true →
    (((t.kind = .cpy ∨ t.kind = .cpys) ∧ t.taken = true) ∨ t.kind = .gath → t.data ≠ [] →
      (∀ kd n, engResolve s x (s.xferSlot t) (t.place t.landed).2 true = .ok kd → n = eventBytes kd t.data.length →
        MayWrite s t.core (spanKeys kd n) →
        ∃ u, exec (.copyGranuleLand k) s = .next u ∧
          u.xfers = s.xfers.map (fun y => if y.id == t.id then { t with landed := t.landed + n, data := t.data.drop n } else y) ∧
          Landed s u kd (t.data.take n) ∧
          (n < t.data.length ∨ t.status ≠ 0 ∨ t.kind = .gath → u.matrix = s.matrix) ∧
          (n = t.data.length → t.status = 0 → t.kind ≠ .gath → u.matrix = (s.autoAdvance t.ctx t.core t.ch t.bytes).matrix)) ∧
      (∀ cause tval, engResolve s x (s.xferSlot t) (t.place t.landed).2 true = .error (cause, tval) →
        exec (.copyGranuleLand k) s = .next (s.setXfer { t with data := [], status := if cause = .xlate then 1 else 2 }))) ∧
    (∀ ki src ks, t.kind = .gath → t.data = [] → t.status = 0 → t.landed < t.bytes → s.gatherFirst t = true →
      gatherElem s x t = .ok (ki, src, ks, 0) → MayRead s t.core (spanKeys ki 4 ++ ks.map (fun e => e.1)) →
      exec (.copyGranuleLand k) s = .next ((s.noteBlocks t.ctx (spanKeys ki 4 ++ ks.map (fun e => e.1)) false).setXfer
        { t with data := ks.map (fun e => s.readFrom (s.slotAt t.slot) e.1), seen := 0 })) ∧
    (t.taken = true → s.recordNext t = true →
      ((t.kind = .cpy ∨ t.kind = .cpys) → t.data = [] →
        exec (.copyComplete k false) s = .next ((s.endXfer t (t.status != 0)).pushQ1 t [xferRecord t t.status t.landed])) ∧
      ((t.kind = .cpy ∨ t.kind = .cpys) → t.nextInHost = true → ∃ u v n, (u, v) = s.hostRefuses x t ∧ n ≤ t.data.length ∧
        v = { t with landed := t.landed + n } ∧
        exec (.copyComplete k true) s = .next ((u.endXfer v true).pushQ1 v [xferRecord v 3 v.landed])) ∧
      (t.kind = .halo → t.halos.all (fun h => h.done) = true → exec (.copyComplete k false) s = .next (s.endHalo t)) ∧
      (t.kind = .mcast → t.begun = true → t.dests = [] → exec (.mcastDelivery k) s = .next ((s.endXfer t false).pushQ1 t
        [xferRecord t 0 t.bytes, BitVec.ofNat 64 t.masks.1, BitVec.ofNat 64 t.masks.2.1, BitVec.ofNat 64 t.masks.2.2]))) ∧
    (t.kind = .mcast → t.taken = true →
      (∀ src, t.begun = false → mcastSrc s x t = .ok src → CaddieReads s t.core src →
        exec (.mcastDelivery k) s = .next ((s.noteBlocks t.ctx src false).setXfer
          { t with begun := true, data := src.map (s.readFrom (s.slotAt t.slot)) })) ∧
      (∀ d rest, t.begun = true → t.dests = d :: rest →
        (mcastKey x t d = none → exec (.mcastDelivery k) s = .next (s.setXfer
          { t with dests := rest, masks := (t.masks.1, t.masks.2.1, t.masks.2.2 + 2 ^ d.j) })) ∧
        (∀ q, mcastKey x t d = some q → MayWrite s t.core (spanKeys q t.data.length) →
          (s.isFull q = true → exec (.mcastDelivery k) s = .next (s.setXfer
            { t with dests := rest, masks := (t.masks.1, t.masks.2.1 + 2 ^ d.j, t.masks.2.2) })) ∧
          (s.isFull q = false → ∃ u, exec (.mcastDelivery k) s = .next u ∧ Landed s u q t.data ∧ u.xfers = (s.setXfer
            { t with dests := rest, masks := (t.masks.1 + 2 ^ d.j, t.masks.2.1, t.masks.2.2) }).xfers)))) ∧
    (∀ h : HaloDir, ∀ dir : BitVec 2, t.halos.find? (fun h => h.dir == dir.toNat && !h.done) = some h → t.taken = true →
      (h.begun = false →
        let r := h.keys s x (s.xferSlot t) t
        let src := r.1.map (fun e => e.1)
        CaddieReads s t.core src →
        exec (.haloDirectionArrival k dir) s = .next ((s.noteBlocks t.ctx src false).setXfer
          (t.setDir { h with begun := true, status := r.2, data := src.map (s.readFrom (s.slotAt t.slot)) }))) ∧
      (h.begun = true → h.data ≠ [] →
        (∀ kd n, haloResolve s x (s.xferSlot t) h.lcore ((h.rowsOf t).place h.landed).2 = .ok kd → n = eventBytes kd h.data.length →
          MayWrite s t.core (spanKeys kd n) → ∃ u, exec (.haloDirectionArrival k dir) s = .next u ∧ Landed s u kd (h.data.take n) ∧
            u.xfers = (s.setXfer (t.setDir { h with landed := h.landed + n, data := h.data.drop n })).xfers) ∧
        (∀ cause tval, haloResolve s x (s.xferSlot t) h.lcore ((h.rowsOf t).place h.landed).2 = .error (cause, tval) →
          exec (.haloDirectionArrival k dir) s = .next (s.setXfer
            (t.setDir { h with data := [], status := if cause = .xlate then 1 else 2 })))) ∧
      (h.begun = true → h.data = [] →
        let v := t.setDir { h with done := true }
        let u := State.setXfer (if h.status = 0 then s.raiseHalo t h else s) v
        exec (.haloDirectionArrival k dir) s =
          .next (if v.halos.all (fun g => g.done) = true ∧ u.recordNext v = true then u.endHalo v else u))) ∧
    (t.kind = .gath → t.data = [] → s.gatherFirst t = true → (s.slotAt t.slot).q4read.length < 4 →
      (let ends := fun (st : Nat) =>
        let u := s.endXfer t (st != 0)
        u.setSlot { u.slotAt t.slot with
          q4cmd := (u.slotAt t.slot).q4cmd - 1,
          q4read := (u.slotAt t.slot).q4read ++ [xferRecord t st (t.landed / max 1 t.rowLen)] }
       (t.landed = t.bytes → exec (.gatherComplete k false) s = .next (ends 0)) ∧
       (t.landed ≠ t.bytes → t.status ≠ 0 → exec (.gatherComplete k false) s = .next (ends t.status)) ∧
       (∀ st, t.landed ≠ t.bytes → t.status = 0 →
         (gatherElem s x t = .error st ∨ ∃ ki src ks, gatherElem s x t = .ok (ki, src, ks, st)) → st ≠ 0 →
         exec (.gatherComplete k false) s = .next (ends st)) ∧
       (t.landed ≠ t.bytes → 2 ^ 56 ≤ t.src.toNat → exec (.gatherComplete k true) s = .next (ends 3)))))

/-- R34, R231, R299, R300: COLL enters its contribution with its descriptor and peer table, a release to its peers' engines; the
contribution reaches the engine with its data; once every rank's has arrived each participant has its result, which lands, the bytes
of one aligned 8 at a time, and then its record is pushed to q3. A contribution from another module counts where its table names the
receiver, and a peer that has departed, or is in ERROR, ends the collectives that name it with STATUS 1.
When a contribution is read and which contributions mismatch is the model's choice (log 20), and so is the peer table's alignment
(log 72). -/
def Obligations.CollectivesCombineContributions : Prop :=
  (∀ (s r₁ r : State) (d a b : Reg5) (ty : CType) (sel : CollSel) (src dst desc table : Word) (c₁ c₂ c : Slot) (x : Ctx)
     (p n₀ n : Nat) (sc : Scope),
    s.cur.readReg a = some (src, c₁) → c₁.readReg b = some (dst, c₂) → c₂.readReg d = some (desc, c) → s.ctxOf c = some x →
    descCheck x c desc 32 32 = none → DescReads s x c [(desc, 32)] r₁ → p = (descWord r₁ x c desc 1).toNat % 2 ^ 32 →
    n₀ = (descWord r₁ x c desc 1).toNat / 2 ^ 32 → n = (descWord r₁ x c desc 2).toNat → table = descWord r₁ x c desc 3 →
    1 ≤ n → n ≤ 16777216 → 1 ≤ p → p ≤ 4096 → n₀ < p →
    descCheck x c table 8 (8 * p) = none → DescReads r₁ x c [(table, 8 * p)] r →
    (∀ q, q < p → (descWord r x c table q).toNat < 2 ^ 52) → peerOf (descWord r x c table n₀) = (c.thread, x.id, r.ownNode) →
    rangeCheck r x c src (ctypeBytes ty * collElems sel n p true) false false = none →
    rangeCheck r x c dst (ctypeBytes ty * collElems sel n p false) true false = none →
    (regionOf src.toNat).1 ∈ [0, 2, 6] → (regionOf dst.toNat).1 ∈ [0, 2, 6] →
    sc = (if ∃ q, q < p ∧ (peerOf (descWord r x c table q)).2.2 ≠ r.ownNode then .sys else .dev) →
    ∃ k : Coll, k.asks r₁ r c x desc src dst p n₀ n ty sel ∧
      exec (.coll d a b ty sel) s =
        .next (goesOn { r.publish c sc with colls := r.colls ++ [k], nextId := r.nextId + 1 } (c.release sc r.seq))) ∧
  (∀ (s : State) (k : Nat) (e : Coll) (x : Ctx) (ks : List Nat), s.colls[k]? = some e → s.ctxAt e.ctx = some x → e.far = false →
    e.arrived = false → s.earlierPending e.slot e.seq = false → s.clusOpen e.ctx (clusOf e.slot) = true →
    ks = spanOf s x (s.collSlot e) e.src (ctypeBytes e.ty * collElems e.sel e.n e.p true) → MayRead s (coreOf e.slot) ks →
    exec (.collContributionArrival k none) s = .next (((s.noteBlocks e.ctx ks false).noteFar e ks.length).setColl
      { e with arrived := true, data := ks.map (s.readFrom (s.slotAt e.slot)), seen := 0 })) ∧
  (∀ (s : State) (k : Nat) (r : CollRemote), r.node ≠ s.ownNode →
    (r.departed = true → exec (.collContributionArrival k (some r)) s = .next (s.peerGone r.ctx r.node)) ∧
    (r.departed = false → r.names = false → exec (.collContributionArrival k (some r)) s = .next s) ∧
    (r.departed = false → r.names = true → ∃ e : Coll, e.far = true ∧ e.arrived = true ∧ e.ctx = r.ctx ∧ e.thread = r.thread ∧
      e.node = r.node ∧ e.name = r.name ∧ e.p = r.ranks ∧ e.r = r.rank ∧ e.n = r.n ∧ e.ty = r.ty ∧ e.sel = r.sel ∧ e.data = r.data ∧
      exec (.collContributionArrival k (some r)) s = .next { s with colls := s.colls ++ [e], nextId := s.nextId + 1 })) ∧
  (∀ (s : State) (k : Nat) (e : Coll) (x : Ctx), s.colls[k]? = some e → e.far = false → e.arrived = true →
    e.slot = s.cur.phys → s.cur.owner = some e.ctx → s.ctxAt e.ctx = some x → s.clusOpen e.ctx (clusOf e.slot) = true →
    (∀ st fl bs, e.result = some (st, fl, bs) →
      (st ≠ 0 ∨ bs.length ≤ e.landed → s.cur.q3read.length < 4 → exec (.collComplete k) s = .next (collDone s e st fl)) ∧
      (st = 0 → e.landed < bs.length →
        (e.landed = 0 → collDst s x e bs.length = none → s.cur.q3read.length < 4 →
          exec (.collComplete k) s = .next (collDone s e 2 fl)) ∧
        (∀ kd n, (0 < e.landed ∨ collDst s x e bs.length ≠ none) →
          engResolve s x (s.collSlot e) (e.dst + BitVec.ofNat 64 e.landed) true = .ok kd → n = eventBytes kd (bs.length - e.landed) →
          MayWrite s (coreOf e.slot) (spanKeys kd n) →
          ∃ u, exec (.collComplete k) s = .next u ∧ Landed s u kd ((bs.drop e.landed).take n) ∧
            u.colls = (s.setColl { e with landed := e.landed + n }).colls))) ∧
    (e.result = none → s.cur.q3read.length < 4 →
      (e.dead = true ∨ (∃ w ∈ e.peers, (peerOf w).2.2 = s.ownNode ∧ ∃ y, s.ctxAt (peerOf w).2.1 = some y ∧
        (y.state = .error ∨ y.err ≠ none))) →
      exec (.collComplete k) s = .next (collDone s e 1 0)) ∧
    (∀ gs, e.result = none → e.dead = false → s.peerDown e = false → s.collGroup e = some gs →
      exec (.collComplete k) s = .next (s.resolveColls gs) ∧
        (e ∈ gs → ∀ g ∈ (s.resolveColls gs).colls, g.id = e.id → (∀ h ∈ s.colls, h.id = e.id → h = e) →
          g.result = some (collResult e gs)))) ∧
  (∀ (e g h : Coll), e.p = 2 → g.p = 2 → h.p = 2 → g.n = e.n → h.n = e.n → g.ty = e.ty → h.ty = e.ty → g.sel = e.sel → h.sel = e.sel →
    g.data.length = ctypeBytes e.ty * collElems e.sel e.n 2 true → h.data.length = ctypeBytes e.ty * collElems e.sel e.n 2 true →
    (e.sel = .ag → collResult e [g, h] = (0, 0, g.data ++ h.data)) ∧
    (e.sel = .ar → ctypeFmt e.ty = none → collResult e [g, h] = (0, 0, (upTo e.n).flatMap (fun i =>
      leBytes (ctypeBytes e.ty) ((g.elem i + h.elem i) % 2 ^ (8 * ctypeBytes e.ty))))) ∧
    (e.sel = .rs → ctypeFmt e.ty = none → collResult e [g, h] = (0, 0, (upTo e.n).flatMap (fun i =>
      leBytes (ctypeBytes e.ty) ((g.elem (e.r * e.n + i) + h.elem (e.r * e.n + i)) % 2 ^ (8 * ctypeBytes e.ty))))))

/-- R301, R302: a complete message leaves its send queue when its receiver has room for it and the sender's earlier writes have
landed, and enters the receive queue whole, in order for a sender and receiver. -/
def Obligations.MessagesAreDelivered : Prop :=
  (∀ (s : State) (p dst : Nat) (x : Ctx) (h : Word) (m : Nat) (ws rest : List (Word × Nat)), s.cur.phys = p → s.ctxOf s.cur = some x →
    s.cur.q2send = (h, m) :: ws ++ rest → ws.length = headerN h → dst = (x.cores[bits h 23 8]?).getD 0 * 8 + bits h 6 4 →
    (s.slotAt dst).q2recv.length + s.wordsComing dst + ws.length + 1 ≤ 32 →
    s.earlierPending p (ws.foldl (fun m e => max m e.2) m) = false → s.clusOpen x.id (clusOf p) = true →
    exec (.messageLeaveSendQueue p) s = .next { s with
      cur := { s.cur with q2send := rest }, msgs := s.msgs ++ [{ src := p, dst := dst, words := h :: ws.map (fun e => e.1), seen := if dieOf p = dieOf dst then 0 else s.pubs }] }) ∧
  (∀ (s : State) (k : Nat) (m : Msg), s.msgs[k]? = some m → (∀ n ∈ s.msgs.take k, ¬(n.src = m.src ∧ n.dst = m.dst)) →
    (s.slotAt m.dst).q2recv.length + m.words.length ≤ 32 → (s.slotAt m.dst).owner ≠ none →
    ∃ t, exec (.messageDelivery k) s = .next t ∧ t.msgs = s.msgs.take k ++ s.msgs.drop (k + 1) ∧ t.mem = s.mem ∧
      (t.slotAt m.dst).q2recv = (s.slotAt m.dst).q2recv ++ m.words ∧
      (t.slotAt m.dst).q2seen = (s.slotAt m.dst).q2seen ++ List.replicate m.words.length m.seen ∧
      (t.slotAt m.dst).regs = (s.slotAt m.dst).regs ∧ (t.slotAt m.dst).pc = (s.slotAt m.dst).pc)

/-- R267, R269, R34: MXOP, MXZERO, MXST, MXLD, MXRING, MXADV and MXWGT whose words R269 accepts push them in one step while there is
room for all of them, a release to the unit, and MXST's word takes its window's descriptor with it; else the thread waits; a refused
word takes its trap and nothing is pushed. R270 to R272, R275, R277 to R280: the units: the arbiter's
command runs its step, MXZERO clears its tile and MXLD loads it, MXST's bytes land, those of one aligned 8 at a time (R231), and then
it completes, a refused MXOP completes with its STATUS; MXRING sets a ring, MXADV advances one, MXWGT sets a weight; a record that is
due is pushed with its cycle. -/
def Obligations.MatrixCommandsRun : Prop :=
  (∀ (i : Instr) (s : State) (c : Slot) (w : Word) (vs : List Word) (x : Ctx), Commands i s c (w :: vs) → s.ctxOf c = some x →
     (c.q0held = none → Acceptable x c w → (∀ v ∈ vs, bits v 63 10 = 0 ∧ bits v 2 0 = 0) →
       let pushed : Slot := { c.ready.release .clus s.seq with
         q0push := c.q0push ++ (w :: vs).map (fun v => (v, s.seq)), q0held := none, pc := c.pc + 4 }
       (c.q0push.length + vs.length + 1 ≤ 4 → codeOf w ≠ 3 → exec i s = .next { s with cur := pushed }) ∧
       (∀ u, c.q0push.length + vs.length + 1 ≤ 4 → codeOf w = 3 → s.unitAt (clusOf c.phys) = some u →
         exec i s = .next { s with
           cur := pushed,
           matrix := updKey (fun v => v.clus == u.clus) { u with stWins := u.stWins ++ [(c.phys, c.win (bits w 49 47))] } s.matrix }) ∧
       (4 < c.q0push.length + vs.length + 1 → exec i s = .next (waiting s c (.matrix (w :: vs))))) ∧
     (∀ cause tval, takeWords x c.ready c.q0held (w :: vs) = .error (cause, tval) →
       exec i s = trap s { c.ready with q0held := none } cause tval) ∧
     (∀ n, cmdReason x c w = some n → c.q0held = none → exec i s = trap s { c.ready with q0held := none } .queue (BitVec.ofNat 64 n))) ∧
  ((∀ (s : State) (clus slot m : Nat) (u : MUnit) (w : Word) (ws : List (Word × Nat)) (x : Ctx), s.unitAt clus = some u →
     u.storing = none → s.arbiter u = some slot → (s.slotAt slot).q0push = (w, m) :: ws → s.ctxOf (s.slotAt slot) = some x → (s.slotAt slot).phys = slot →
     (codeOf w = 1 → u.accOf slot = none → u.refusal w ≠ 0 →
       exec (.matrixStep clus) s = .next ((s.completeCmd u slot w (u.refusal w) 0).endVisit clus)) ∧
     (let ks := stepKeys u (s.slotAt slot) x.id w
      codeOf w ≠ 5 → codeOf w ≠ 7 → (codeOf w = 1 → u.accOf slot ≠ none ∨ u.refusal w = 0) → MayRead s (coreOf slot) ks.1 →
       MayWrite s (coreOf slot) ks.2 →
       exec (.matrixStep clus) s = .next (((runStep ((s.noteBlocks x.id ks.1 false).noteBlocks x.id ks.2 true) u x slot w).noteStep x
         u.clus w).endVisit u.clus) ∧
       (codeOf w = 2 → ∃ t v, exec (.matrixStep clus) s = .next t ∧ t.unitAt clus = some v ∧
         v.tile (bits w 55 50) = Vector.replicate 1024 0) ∧
       (codeOf w = 4 → ∃ t v, exec (.matrixStep clus) s = .next t ∧ t.unitAt clus = some v ∧
         ∀ j (h : j < 1024), (v.tile (bits w 55 50))[j] = BitVec.ofNat 32 (leNat (s.readHomeN
           (keyOf Space.core (shareUnit (coreOf slot) x.id) (bits w 17 0) + 4 * (if bits w 46 46 = 1 then j % 32 * 32 + j / 32 else j)) 4)))) ∧
     (codeOf w = 5 → ∀ v n vs, clus = clusOf slot → ws = (v, n) :: vs → exec (.mxringTakeEffect slot) s =
       .next ((((s.setUnit ((u.served slot).setRing (bits w 55 52) {
         base := bits w 21 0, size := 64 * (bits w 47 40 + 1),
         n := 2 ^ bits w 51 48, head := 0, tail := 0, ovf := false,
         auto := if bits v 9 9 = 1 then some (bits v 8 6, bits v 5 3) else none })).dropPush slot 2).noteStep x u.clus w).endVisit u.clus)) ∧
     (codeOf w = 7 → clus = clusOf slot → exec (.mxwgtTakeEffect slot) s =
       .next ((((s.setUnit { u.served slot with weights := (u.served slot).weights.setIfInBounds (coreOf slot % 8) (bits w 55 52) }).dropPush
         slot 1).noteStep x u.clus w).endVisit u.clus))) ∧
   (∀ (s : State) (clus slot m : Nat) (u : MUnit) (w : Word) (ws : List (Word × Nat)) (cs : List Host.Cell) (fl : BitVec 5),
     s.unitAt clus = some u → u.storing = some (slot, cs, fl) → (s.slotAt slot).q0push = (w, m) :: ws →
     (cs = [] → exec (.matrixStep clus) s = .next ((s.completeCmd { u with storing := none } slot w 0 fl).endVisit u.clus)) ∧
     (∀ k n, cs.head?.map (fun y => y.1) = some k → n = (cs.takeWhile (fun y => y.1 / 8 == k / 8)).length →
       MayWrite s (coreOf slot) ((cs.take n).map (fun y => y.1)) →
       ∃ t, exec (.matrixStep clus) s = .next t ∧
         (s.feq = [] → (∀ y ∈ cs.take n, inMem y.1 = true) → t.mem = writeCells s.mem (cs.take n)) ∧
         t.matrix = (s.setUnit { u with storing := some (slot, cs.drop n, fl) }).matrix)) ∧
   (∀ (u : MUnit) (t : Nat) (v : Vector (BitVec 32) 1024), (u.setTile t v).tile t = v ∧ ∀ q, q ≠ t → (u.setTile t v).tile q = u.tile q) ∧
   (∀ (u : MUnit) (r : Nat) (v : Ring), (u.setRing r v).ring r = v ∧ ∀ q, q ≠ r → (u.setRing r v).ring q = u.ring q) ∧
   (∀ (r : Ring) (n : Nat), (r.n < (r.tail - r.head).toNat + n → r.advance n = { r with ovf := true }) ∧
     ((r.tail - r.head).toNat + n ≤ r.n → r.advance n = { r with tail := r.tail + BitVec.ofNat 32 n })) ∧
   (∀ (s : State) (slot m : Nat) (u : MUnit) (w : Word) (ws : List (Word × Nat)), s.unitAt (clusOf slot) = some u → slot = s.cur.phys →
     s.cur.q0push = (w, m) :: ws → codeOf w = 6 → s.unitOpen slot = true → s.earlierPending slot m = false →
     exec (.mxadvReachUnit slot) s = .next { s.setUnit (u.setRing (bits w 55 52) ((u.ring (bits w 55 52)).advance (bits w 51 44))) with
       cur := { s.cur with q0push := ws } }) ∧
   (∀ (s : State) (clus : Nat) (u : MUnit) (r : MxRecord), s.unitAt clus = some u →
     u.recs.find? (fun r => decide ((s.slotAt r.slot).q0read.length < 8)) = some r → r.slot = s.cur.phys →
     exec (.matrixRecordPush clus) s = .next (State.endVisit { s.setUnit { u with recs := dropFirst (fun e => e.slot == r.slot) u.recs } with
       cur := { s.cur with q0read := s.cur.q0read ++ [r.word + BitVec.ofNat 64 (s.cycle.toNat % 2 ^ 32)],
                           q0tiles := s.cur.q0tiles ++ [r.snap] } } clus)))

/-! ### Events of tasks and of the memory system -/

/-- R125, R128 to R134, R144, R146: the events of tasks: the last paused turn ends a pause; a full partition spills its 32 topmost
records and an empty one takes the newest 32 back; the lowest-numbered idle slot takes the record at the bottom; a core with an
idle slot and nothing to run asks, and the first victim in R131's order whose record the domain admits answers; with none the core
asks again after 64 cycles; RFORK's survey writes the number of subranges into the join cell, starts each recruit with its own
subrange, and leaves the issuer the first.
The record that a steal takes and RFORK's survey are read as log 62 says, and where a stolen record goes that finds no idle slot
is the model's choice (log 65). -/
def Obligations.TaskEventsHappen : Prop :=
  (∀ (slot : Nat) (s : State), s.cur.phys = slot → s.cur.status = .paused → s.cur.pause ≤ 1 →
    exec (.yieldPauseEnd slot) s = .next { s with cur := { s.cur with status := .ready, pause := 0 } }) ∧
  (∀ (slot : Nat) (s : State) (t : TaskRec) (x : Ctx) (d : Deque), (s.slotAt slot).wait = some (.spill t) →
    s.ctxOf (s.slotAt slot) = some x → d = s.dequeAt x (coreOf (s.slotAt slot).phys) →
    x.dequeCap (coreOf (s.slotAt slot).phys) ≤ d.items.length →
    d.spill.length + 32 ≤ 1024 →
    exec (.dequeSpillDone slot) s = .next ((s.setDeque { d with
      items := d.items.take (d.items.length - 32),
      spill := d.spill ++ (d.items.drop (d.items.length - 32)).reverse }).count x.id (s.slotAt slot).lcore 0x4A 32)) ∧
  (∀ (core ctx : Nat) (s : State) (x : Ctx) (d : Deque) (c : Slot), s.ctxAt ctx = some x → d = s.dequeAt x core → d.items = [] →
    d.spill ≠ [] → s.idleSlot ctx core = some c →
    exec (.dequeRefill core ctx) s = .next (s.setDeque { d with
      items := (d.spill.drop (d.spill.length - 32)).reverse, spill := d.spill.take (d.spill.length - 32) })) ∧
  (∀ (slot : Nat) (s : State) (x : Ctx) (d : Deque) (t : TaskRec) (ts : List TaskRec) (k : Kernel),
    s.ctxOf (s.slotAt slot) = some x → d = s.dequeAt x (coreOf (s.slotAt slot).phys) → d.items = t :: ts → x.alive = true →
    s.idleSlot x.id (coreOf (s.slotAt slot).phys) = some (s.slotAt slot) → s.recordReleased t = true → x.kernel = some k →
    exec (.idleSlotPop slot) s =
      .next ((s.setDeque { d with items := ts }).startIn (s.slotAt slot) k t.domain t.entry t.arg 0 0)) ∧
  (∀ (core ctx : Nat) (s : State) (x : Ctx) (d : Deque) (c : Slot), s.ctxAt ctx = some x → d = s.dequeAt x core → x.alive = true →
    d.items = [] → d.spill = [] → d.steal = .none → s.idleSlot ctx core = some c →
    exec (.stealRequest core ctx) s = .next (s.setDeque { d with steal := .asked s.cycle })) ∧
  (∀ (core ctx : Nat) (s : State) (x : Ctx) (d : Deque) (at_ : Word), s.ctxAt ctx = some x → d = s.dequeAt x core →
    d.steal = .asked at_ → x.alive = true →
    ((∀ k ∈ victims x core, stealFrom x core (s.dequeAt x k) = none) →
      exec (.stealAnswer core ctx) s = .next (s.setDeque { d with steal := .retry s.cycle })) ∧
    (∀ (us vs : List Nat) (k : Nat) (t : TaskRec) (v : Deque) (u : State), victims x core = us ++ k :: vs →
      (∀ u ∈ us, stealFrom x core (s.dequeAt x u) = none) → stealFrom x core (s.dequeAt x k) = some (t, v) →
      s.recordReleased t = true →
      u = ((s.setDeque v).setDeque { d with steal := .none }).count ctx ((x.lcoreOf core).getD 0) 0x49 1 →
      (∀ c kn, u.idleSlot ctx core = some c → x.kernel = some kn →
        exec (.stealAnswer core ctx) s = .next (u.startIn c kn t.domain t.entry t.arg 0 0)) ∧
      (u.idleSlot ctx core = none →
        exec (.stealAnswer core ctx) s = .next (u.setDeque { d with steal := .none, items := t :: d.items })))) ∧
  (∀ (core ctx : Nat) (s : State) (x : Ctx) (d : Deque) (at_ : Word), s.ctxAt ctx = some x → d = s.dequeAt x core →
    d.steal = .retry at_ → at_.toNat + 64 ≤ s.cycle.toNat →
    exec (.stealRetryTimer core ctx) s = .next (s.setDeque { d with steal := .none })) ∧
  (∀ (slot : Nat) (s : State) (x : Ctx) (kn : Kernel) (e n cell : Word) (k : Nat) (rs : List Slot),
    (s.slotAt slot).wait = some (.rfork e n cell) → s.ctxOf (s.slotAt slot) = some x → x.kernel = some kn →
    resolve s (s.slotAt slot) cell 8 (.store 8) = .ok k → n ≠ 0 → s.earlierPending slot (s.seq + 1) = false →
    (s.slotAt slot).status ≠ .stopped → s.writePending (coreOf slot) k 8 = false → s.blockRead slot k 8 = false →
    s.earlyHeld (coreOf slot) k 8 = false → s.bankWaking k = false → s.tlbHit k = true → rs = s.recruits x (s.slotAt slot) n.toNat →
    ∃ t u, exec (.rforkSurveyDone slot) s = .next t ∧
      u = (upTo rs.length).foldl (fun (u : State) (i : Nat) => match rs[i]? with
        | some r => u.startIn r kn (s.slotAt slot).domain e (BitVec.ofNat 64 ((i + 1) * n.toNat / (rs.length + 1)))
            (BitVec.ofNat 64 ((i + 2) * n.toNat / (rs.length + 1))) cell
        | none => u) ((s.land (cellsAt k (leBytes 8 (rs.length + 1)))).noteAccess x.id k 8 true) ∧
      t = u.setSlot ((u.slotAt slot).waitFor (.rforked (BitVec.ofNat 64 (n.toNat / (rs.length + 1))))))

/-- R3, R213, R214, R216, R223, R225, R228, R230, R231, R233, R254, R375: the events of the memory system: a load's value, or one
element of a vector load after another, reaches its core, a load that misses in its station starts a walk of its page, and one that
meets an error which no check can correct takes UNCORR; the oldest write of a store buffer leaves for its home, one on its way for
each single-copy atomic event of it, and lands there; a full/empty request is served at its bank or waits there;
a bank wakes; a page walk gives its station the entry; a line arrives in the instruction cache, a referee core's from its ROM (R406;
log 64).
The class of a fetch that misses is the model's reading (log 34). -/
def Obligations.MemoryEventsHappen : Prop :=
  (∀ (slot : Nat) (s : State) (d : Reg5) (va : Word) (n : Nat) (signed : Bool) (k : Nat), 0 < n → n ≤ 8 →
    (s.slotAt slot).wait = some (.load d va n signed) → resolve s (s.slotAt slot) va n (.load n) = .ok k →
    s.loadStalls (s.slotAt slot).phys k n = false →
    (s.tlbHit k = true → s.errorAt k n = none → exec (.offCoreLoadReply slot) s =
      .next ((s.noteAccess ((s.slotAt slot).owner.getD 0) k n false).setSlot ((s.acquired (s.slotAt slot)).waitFor
        (.done d (extended signed n (s.readSlotN (s.slotAt slot) k n)))))) ∧
    (∀ e, s.tlbHit k = true → s.errorAt k n = some e → exec (.offCoreLoadReply slot) s =
      .next (fatalTrap s (s.slotAt slot) .uncorr va (s.slotAt slot).ir e.place)) ∧
    (∀ e, s.tlbHas k = false → s.tlbKey k = some e → e ∉ s.walks → exec (.offCoreLoadReply slot) s =
      .next { s with walks := s.walks ++ [e] })) ∧
  (∀ (slot : Nat) (s : State) (d : Reg5) (va : Word) (n : Nat) (signed : Bool) (cause : TrapCause) (tval : Word),
    (s.slotAt slot).wait = some (.load d va n signed) → resolve s (s.slotAt slot) va n (.load n) = .error (cause, tval) →
    exec (.offCoreLoadReply slot) s = .next (s.setSlot ((s.slotAt slot).waitFor (.trapped cause tval)))) ∧
  (∀ (slot : Nat) (s : State) (d : Reg5) (ty : EType) (i n k : Nat) (va : Word) (rest : List (Nat × Word)) (got : List (Nat × Nat))
     (flags : BitVec 5), (s.slotAt slot).wait = some (.vload d ty none ((i, va) :: rest) got flags) → n = EType.bits ty / 8 →
    resolve s (s.slotAt slot) va n .vload = .ok k → s.loadStalls (s.slotAt slot).phys k n = false → s.tlbHit k = true →
    (s.errorAt k n = none →
      (let now := got ++ [(i, leNat (s.readSlotN (s.slotAt slot) k n))]
       exec (.offCoreLoadReply slot) s =
         .next ((s.noteAccess ((s.slotAt slot).owner.getD 0) k n false).setSlot ((s.slotAt slot).waitFor
           (if rest = [] then .vdone d (EType.bits ty) now flags else .vload d ty none rest now flags))))) ∧
    (∀ e, s.errorAt k n = some e → exec (.offCoreLoadReply slot) s =
      .next (fatalTrap s (s.slotAt slot) .uncorr va (s.slotAt slot).ir e.place))) ∧
  (∀ (core : Nat) (s : State) (es fs : List SbEntry) (e : SbEntry), s.sbuf = es ++ e :: fs → e.core = core →
    (∀ f ∈ es, f.core ≠ core) →
    exec (.storeBufferDrain core) s = .next { s with sbuf := es ++ fs, flight := s.flight ++ e.events }) ∧
  (∀ (s : State) (es fs : List SbEntry) (e : SbEntry) (ps : List Early), s.flight = es ++ e :: fs → s.mayLand es.length e = true →
    s.passes e.slot e.seq e.bounds (e.cells.map (fun (x : Host.Cell) => x.1)) = some ps → s.tlbHas e.key = true →
    exec (.writeReachesHome es.length) s =
      .next (((State.close { s with flight := es ++ fs } ps).land e.cells).noteAccess ((s.slotAt e.slot).owner.getD 0) e.key
        e.cells.length true)) ∧
  (∀ (slot : Nat) (s : State) (op : FeOp) (d : Reg5) (va v : Word) (k : Nat),
    (s.slotAt slot).wait = some (.fe op d va v) → resolve s (s.slotAt slot) va 8 .fe = .ok k → s.feq.contains slot = false →
    feMayArrive s (s.slotAt slot) op k = true → s.errorAt k 8 = none →
    (feServable s op k = false →
      exec (.feRequestAtBank slot) s = .next { s with feq := s.feq ++ [(s.slotAt slot).phys] }) ∧
    (feServable s op k = true → op = .ldfe ∨ op = .feq →
      exec (.feRequestAtBank slot) s = .next (s.serveFe (s.slotAt slot) op d va k v)) ∧
    (feServable s op k = true → op = .ldfeClr ∨ op = .stfe →
      exec (.feRequestAtBank slot) s = .next ((s.serveFe (s.slotAt slot) op d va k v).settle [granuleOf k]))) ∧
  (∀ (bank : Nat) (s : State), bank ∈ s.waking →
    exec (.bankWakeupDone bank) s = .next { s with waking := s.waking.filter (fun b => b != bank) }) ∧
  (∀ (k : Nat) (s : State) (e : Nat × Nat × Nat), s.walks[k]? = some e → e ∈ s.walksUnderWay e →
    ∃ t, exec (.translationWalkEnd k) s = .next t ∧ t.tlb.head? = some e ∧ t.walks = s.walks.take k ++ s.walks.drop (k + 1) ∧
      t.mem = s.mem ∧ t.cur = s.cur ∧ t.slots = s.slots) ∧
  (∀ (slot : Nat) (s : State) (id k : Nat), (s.slotAt slot).wait = some .ifetch → (s.slotAt slot).owner = some id →
    resolve s (s.slotAt slot) (s.slotAt slot).pc 4 .fetch = .ok k → s.tlbHit k = true →
    s.lineOf (s.slotAt slot) (s.slotAt slot).pc = none → s.errorAt (k - (s.slotAt slot).pc.toNat % 64) 64 = none →
    exec (.icacheLineFill slot) s = .next (((s.fillLine
      { core := coreOf (s.slotAt slot).phys, ctx := id, way := 0, addr := BitVec.ofNat 64 (64 * ((s.slotAt slot).pc.toNat / 64)),
        words := (upTo 16).map (fun i =>
          BitVec.ofNat 32 (leNat (s.readHomeN (k - (s.slotAt slot).pc.toNat % 64 + 4 * i) 4))) }).count id
        (s.slotAt slot).lcore 0x4B 1).noteAccess id k 64 false)) ∧
  (∀ (slot : Nat) (s : State) (a : Word), (s.slotAt slot).wait = some .ifetch → (s.slotAt slot).owner = none →
    (s.slotAt slot).ref = true → s.lineOf (s.slotAt slot) (s.slotAt slot).pc = none →
    a = BitVec.ofNat 64 (64 * ((s.slotAt slot).pc.toNat / 64)) →
    exec (.icacheLineFill slot) s = .next (s.fillLine
      { core := coreOf (s.slotAt slot).phys, ctx := 2 ^ 16, way := 0, addr := a,
        words := (upTo 16).map (fun i => Config.romWord (a + BitVec.ofNat 64 (4 * i))) })) ∧
  (∀ (word : IWord) (reason : Nat) (s : State), s.cur.occupied = true → decode s.cur.ref word = .error reason →
    exec (.illegalWord word reason) s = trap s { s.cur with ir := word } .illegal (BitVec.ofNat 64 reason)) ∧
  (∀ (cause : TrapCause) (tval : Word) (s : State), s.cur.occupied = true → s.cur.ref = false →
    resolve s s.cur s.cur.pc 4 .fetch = .error (cause, tval) →
    exec (.instructionFetchTrap cause tval) s = trap s { s.cur with ir := 0 } cause tval)

namespace Sys2Proof.Machine

/-! ### Faults, energy and queues -/

/-- The throttle level of Table 26-2's first two rows: above the context's power the level rises, below 7/8 of it, with the
module under 95%, it falls. `draw` is the energy of the window of 2^20 cycles at 600 MHz. -/
def throttleAlone (x : Ctx) (draw modulemW : Nat) : Nat :=
  if x.res.power * (5 * 2 ^ 20) < 3 * draw then min 7 (x.throttle + 1)
  else if 24 * draw < 7 * (x.res.power * (5 * 2 ^ 20)) ∧ modulemW < 8740000 then x.throttle - 1
  else x.throttle

/-- The contexts after a window's end, before the rows for the module's own draw. -/
def afterWindow (s : State) (modulemW : Nat) : List Ctx :=
  s.ctxs.map (fun x => { x with throttle := throttleAlone x (x.meter - x.windowAt) modulemW, windowAt := x.meter })

/-- The context's record as DUMP_WRITE_DONE leaves it: the flags say that the dump stands, and whether other faults followed. -/
def dumpedError (x : Ctx) (e : ErrorState) : ErrorState :=
  { e with record := recordFlag e.record ((if x.keyValid then 2 else 0x10) + (if 0 < e.further then 0x20 else 0)), dumped := 2 }

end Sys2Proof.Machine

/-- R157, R159 to R162, R310, R361: in a cycle after the fault's, and for a reset not during a stop of its family, the context is halted, its record is written and sent, and its dump is
queued, or, with no valid key or sixteen dumps waiting, dropped; faults enter a die's queue by cycle and context; a die writes the waiting dumps one at a time, the oldest first;
a written dump stands in the dump area, and its context is reclaimed or goes on with its reset.
The cycle of the stop, the flags of a dump and its packing are the model's choice (log 41, 59, 11), and so are the referee cores that
hear of a fault (log 64). -/
def Obligations.ErrorsStopAndDump : Prop :=
  (∀ (ctx : Nat) (s u : State) (x y : Ctx) (e f : ErrorState), s.ctxAt ctx = some x → x.err = some e → e.stopped = false →
    e.cycle < s.cycle.toNat → (e.kind = 1 ∨ e.kind = 2 → x.stop.running = true) →
    (∀ z ∈ s.ctxs, ∀ g, z.stopDue s.cycle = some g → enqueuedBefore (g, z.id) (e, ctx) = false) →
    u = (s.haltCtx x (!x.keyValid)).passCharges ctx → u.ctxAt ctx = some y →
    f = { e with stopped := true, stopAt := BitVec.ofNat 64 (min u.cycle.toNat (e.cycle + 1024)), frozen := s.entriesOf x } →
    (x.keyValid = true → u.dumpsWaiting e.die < 16 →
      ∃ v, v = State.signalRef (((u.setCtx { y with err := some { f with record := recordFlag e.record 0, dumped := 1 } }).writeRecord y
            (recordFlag e.record 0)).notify y .fault (recordFlag e.record 0)) (refCores e.die) 2 ∧
        exec (.errorStopCycle ctx) s = .next { v with dumps := v.dumps ++ [{ die := e.die, ctx := ctx, started := false }] }) ∧
    (∀ b, (x.keyValid = false ∧ b = 0x10) ∨ (x.keyValid = true ∧ 16 ≤ u.dumpsWaiting e.die ∧ b = 4) →
      exec (.errorStopCycle ctx) s = .next (State.afterDump (State.signalRef
        (((u.setCtx { y with err := some { f with record := recordFlag e.record b, dumped := 2 } }).writeRecord y
          (recordFlag e.record b)).notify y .fault (recordFlag e.record b)) (refCores e.die) 2) ctx))) ∧
  (∀ (die : Nat) (s : State) (d : Dump), s.nextDump die = some d →
    exec (.dumpStart die) s = .next { s with
      dumps := s.dumps.map (fun e => if e.die = die ∧ e.ctx = d.ctx then { e with started := true } else e) }) ∧
  (∀ (die : Nat) (s : State) (ds es : List Dump) (d : Dump) (x : Ctx) (e : ErrorState), s.dumps = ds ++ d :: es → d.die = die →
    d.started = true → (∀ b ∈ ds, ¬ (b.die = die ∧ b.started = true)) → s.ctxAt d.ctx = some x → x.err = some e →
    ∃ u v, u = State.setCtx { s with dumps := s.dumps.filter (fun b => !(b.die == die && b.ctx == d.ctx)) }
        { x with err := some (dumpedError x e) } ∧
      v = (if x.keyValid then { u with
          mem := putBytes u.mem (keyOf Space.dev x.id x.layout.dumpOff)
            ((dumpBytes u x (dumpedError x e)).take (x.layout.spillOff - x.layout.dumpOff)) } else u) ∧
      exec (.dumpWriteDone die) s = .next (v.afterDump d.ctx))

/-- R156, R258, R329, R358, R380, R381: the events that end or hold back a context: at its allowance each of its running threads
is to take ENERGY; past it by 1/64 the thread that issues next faults fatally; at the end of a power window the throttle levels
change by Table 26-2; past not-after the context and its children end; a launch that has run its WDOG milliseconds is reset; an
uncorrectable error found in a context's memory is its fault, and retires a page that no context owns.
What a background read finds is its event's argument, the throttling rows are applied in their order, and ENERGY is owed to the
threads that are in a slot (log 44, 45, 57); which referee core hears of an expiry and of a watchdog is the model's choice (log 64). -/
def Obligations.LimitsAreKept : Prop :=
  (∀ (ctx : Nat) (s : State) (x : Ctx), s.ctxAt ctx = some x → x.res.energy * 1000000 ≤ x.meter → x.raised = false →
    ∃ t, exec (.energyAllowanceReached ctx) s = .next (t.setCtx { x with raised := true }) ∧
      t = s.mapSlots (fun c => ownedBy ctx c && c.status != .vacant && c.status != .idle &&
        !(c.status == .stopped && (c.held == .vacant || c.held == .idle))) (fun c => { c with energyDue := true })) ∧
  (∀ (slot : Nat) (s : State) (x : Ctx), s.ctxOf (s.slotAt slot) = some x → 65 * (x.res.energy * 1000000) < 64 * x.meter →
    (s.slotAt slot).status = .ready → (s.slotAt slot).busy = 0 → (∀ e, x.err = some e → e.stopped = false) →
    exec (.energyOverrun slot) s = .next (fatalTrap s (s.slotAt slot) .energy (csrValue s (s.slotAt slot) 0x033)
      (BitVec.ofNat 32 (leNat (s.readHomeN (devKey x.id (s.slotAt slot).pc) 4))) 0)) ∧
  (∀ (modulemW : Nat) (s : State), s.cycle.toNat % 2 ^ 20 = 0 → s.cycle ≠ s.powerAt →
    (modulemW ≤ 9200000 → exec (.powerWindowEnd modulemW) s = .next { s with ctxs := afterWindow s modulemW, powerAt := s.cycle }) ∧
    (9200000 < modulemW → (∀ x ∈ afterWindow s modulemW, x.res.cls = 2 → x.throttle = 7) →
      exec (.powerWindowEnd modulemW) s = .next { s with
        ctxs := (afterWindow s modulemW).map (fun x => if x.res.cls = 1 then { x with throttle := min 7 (x.throttle + 1) } else x),
        powerAt := s.cycle }) ∧
    (9200000 < modulemW → (∃ x ∈ afterWindow s modulemW, x.res.cls = 2 ∧ x.throttle < 6) →
      exec (.powerWindowEnd modulemW) s = .next { s with
        ctxs := (afterWindow s modulemW).map (fun x => if x.res.cls = 2 then { x with throttle := min 7 (x.throttle + 1) } else x),
        powerAt := s.cycle }) ∧
    (9200000 < modulemW → (∃ x ∈ afterWindow s modulemW, x.res.cls = 2 ∧ x.throttle = 6) →
      (∀ x ∈ afterWindow s modulemW, x.res.cls = 2 → 6 ≤ x.throttle) →
      exec (.powerWindowEnd modulemW) s = .next { s with
        ctxs := (afterWindow s modulemW).map (fun x =>
          if x.res.cls = 2 ∨ x.res.cls = 1 then { x with throttle := min 7 (x.throttle + 1) } else x),
        powerAt := s.cycle })) ∧
  (∀ (ctx : Nat) (s : State) (x : Ctx), s.ctxAt ctx = some x → x.warrant.notAfter.toNat < s.tearly →
    exec (.contextExpiry ctx) s = .next ((State.withKin s.ctxs.length s ctx).foldl State.expire (s.signalRef [refCore0] 8)) ∧
    ((∀ y ∈ s.ctxs, y.parent ≠ some ctx) → exec (.contextExpiry ctx) s =
      .next (((s.signalRef [refCore0] 8).notify x .expiry (leBytes 16 x.serial.toNat)).finishEnd x))) ∧
  (∀ (ctx : Nat) (s : State) (x : Ctx) (l : Launch), s.ctxAt ctx = some x → x.launch = some l → l.wdog ≠ 0 →
    l.wdog * 600000 ≤ l.ran → x.err = none → x.stop.running = true →
    exec (.watchdogExpiry ctx) s = .next ((s.ctxFault x 1).signalRef [refCore0] 16)) ∧
  (∀ (die stack : Nat) (s : State), die < 24 → stack < 2 →
    (s.scrubFinds die stack = none → ∃ t, exec (.backgroundScrubRead die stack none) s = .next t ∧ t.mem = s.mem ∧ t.errs = s.errs ∧
      t.ctxs = s.ctxs ∧ t.cur = s.cur ∧ t.slots = s.slots) ∧
    (∀ e x, s.scrubFinds die stack = some (e, x) → exec (.backgroundScrubRead die stack none) s =
      .next (State.uncorrCtx { s with errs := s.errs.filter (fun f => f != e) } x (BitVec.ofNat 64 (2 ^ 48 + keyOff e.lo)) e)) ∧
    (∀ loc, exec (.backgroundScrubRead die stack (some (0, loc))) s =
      .next { s with retired := s.retired ++ [(die, stack, loc)] }) ∧
    (∀ id loc x, s.ctxAt id = some x → id ≠ 0 → x.layout.dies.contains die = true →
      exec (.backgroundScrubRead die stack (some (id, loc))) s = .next (s.enterError id 0 die
        (faultRecord (x.recordFlags true) s.cycle id 0 TrapCause.uncorr.code 0xFFFFFFFF 0 0 0
          (BitVec.ofNat 64 (die * 2 ^ 40 + stack * 2 ^ 32 + loc % 2 ^ 32)) x.serialLow))))

/-- R347 to R357: user queues: the scheduler handles each write of WIDX that has reached its home, in order, with R352's checks
whatever the queue's state; a suspended queue is answered by resuming at
RIDX, skipping one packet, or aborting all up to WIDX; a visit fetches the next packet of the queue whose turn it is, or suspends
it with a reason; a fence packet whose waits are met completes; a launch packet whose waits are met starts while the context runs
no launch; a launch that nothing of is outstanding completes its packet.
When COMP is lowered and when a launch starts is the model's reading (log 39, 40). -/
def Obligations.QueueEventsHappen : Prop :=
  (∀ (ctx q : Nat) (s : State) (x : Ctx) (e f : Queue) (w : Word) (ws : List Word), s.ctxAt ctx = some x → x.queue q = some e →
    e.widxs = w :: ws → x.served = true → f = { e with widx := w, widxs := ws } →
    (∀ r, queueReason x f = some r → exec (.doorbellWidxWrite ctx q) s =
      .next (if e.exc then (s.suspend x f r).deliverHeld ctx q else s.suspend x f r)) ∧
    (queueReason x f = none → e.exc = true →
      exec (.doorbellWidxWrite ctx q) s = .next ((s.putQueue ctx f).deliverHeld ctx q)) ∧
    (queueReason x f = none → e.exc = false →
      exec (.doorbellWidxWrite ctx q) s = .next (s.putQueue ctx { f with state := if 2 ≤ e.state then e.state else f.going }))) ∧
  (∀ (ctx q : Nat) (s : State) (x : Ctx) (e f : Queue) (w : Word) (vs ws : List Word), s.ctxAt ctx = some x → x.queue q = some e →
    e.ctrls = vs ++ w :: ws → (∀ v ∈ vs, v.toNat % 4 = 0) → x.served = true → f = { e with ctrl := w, ctrls := ws } →
    (w.toNat % 4 = 1 → exec (.ctrlResume ctx q) s = .next (s.answer x f 1)) ∧
    (w.toNat % 4 = 2 → exec (.ctrlSkip ctx q) s = .next (s.answer x f 2)) ∧
    (w.toNat % 4 = 3 → exec (.ctrlAbort ctx q) s = .next (s.answer x f 3))) ∧
  (∀ (s : State) (x : Ctx) (q : Queue), q.state = 3 ∨ q.state = 4 →
    s.answer x q 1 = s.resumeQueue x q ∧
    ((∀ l, x.launch = some l → l.q ≠ q.q) →
      s.answer x q 2 = s.resumeQueue x { q with ridx := q.ridx + 1, comp := q.ridx + 1, fetched := none } ∧
      s.answer x q 3 = s.putQueue x.id { q with ridx := q.widx.setWidth 32, comp := q.widx.setWidth 32, state := 4, fetched := none })) ∧
  (∀ (s : State) (x : Ctx) (q : Queue) (a : Nat), q.state ≠ 3 → q.state ≠ 4 → s.answer x q a = s.setCtx (x.setQueue q)) ∧
  (∀ (ctx q : Nat) (s : State) (x y : Ctx) (e : Queue), s.ctxAt ctx = some x → x.queue q = some e → x.fetches = true →
    x.nextServed (x.hwSlot q) = some q →
    y = { x with lastQ := updKey (fun p => p.1 == x.hwSlot q) (x.hwSlot q, q) x.lastQ } →
    (∀ r, queueReason y e = some r → exec (.packetFetch ctx q) s = .next ((s.setCtx y).suspend y e r)) ∧
    (∀ m, queueReason y e = none → (s.setCtx y).packetError y e = some m →
      exec (.packetFetch ctx q) s = .next ((s.setCtx y).uncorrCtx y e.packetAddr m)) ∧
    (∀ r, queueReason y e = none → (s.setCtx y).packetError y e = none → packetReason (s.setCtx y) y e ((s.setCtx y).packetBytes y e) = some r →
      exec (.packetFetch ctx q) s = .next ((s.setCtx y).suspend y e r)) ∧
    (queueReason y e = none → (s.setCtx y).packetError y e = none → packetReason (s.setCtx y) y e ((s.setCtx y).packetBytes y e) = none →
      exec (.packetFetch ctx q) s = .next ((s.setCtx y).putQueue ctx
        { e with ridx := e.ridx + 1, state := 1, fetched := some (packetOf ((s.setCtx y).packetBytes y e)) }))) ∧
  (∀ (ctx q : Nat) (s : State) (x : Ctx) (e : Queue) (p : Packet), s.ctxAt ctx = some x → x.queue q = some e → e.fetched = some p →
    p.fence = true → x.served = true → e.state = 1 → (∀ w ∈ p.waits, waitMet x w = true) →
    (q ≠ 0 → exec (.fencePacketComplete ctx q) s = .next (s.putQueue ctx { e.complete (e.ridx - 1) with fence := e.ridx - 1 })) ∧
    (q = 0 → exec (.fencePacketComplete ctx q) s = .next ((s.putQueue ctx { e.complete (e.ridx - 1) with fence := e.ridx - 1 }).notify x
      .fenceDone (leBytes 4 (e.ridx - 1).toNat)))) ∧
  (∀ (ctx q : Nat) (s u : State) (x y : Ctx) (e : Queue) (p : Packet) (k : Kernel), s.ctxAt ctx = some x → x.queue q = some e →
    e.fetched = some p → x.kernels[p.kernel]? = some k → p.fence = false → x.state = .run → x.err = none → x.stop = .none →
    x.launch = none → e.state = 1 → (∀ w ∈ p.waits, waitMet x w = true) →
    (∀ t ∈ x.slots, (s.slotAt t).status = .idle ∨ (s.slotAt t).status = .vacant) →
    y = { x with launch := some { q := q, idx := e.ridx - 1, wdog := p.wdog, ran := 0 } } →
    u = (s.setCtx y).putQueue ctx { e with state := 2 } →
    (p.range = false → exec (.launchStart ctx q) s = .next (u.launchAll y k p (e.ridx - 1))) ∧
    (p.range = true → exec (.launchStart ctx q) s = .next (u.launchRange y k p))) ∧
  (∀ (ctx n : Nat) (s u : State) (x : Ctx) (l : Launch) (e : Queue), s.ctxAt ctx = some x → x.launch = some l →
    x.queue l.q = some e → x.state = .run → x.err = none → s.launchDone x = true →
    n = ((s.deques.filter (fun d => d.ctx == ctx)).map (fun d => d.items.length + d.spill.length)).foldl (fun a b => a + b) 0 →
    u = ((State.mapSlots { s with deques := s.deques.filter (fun d => d.ctx != ctx) }
        (fun c => ownedBy ctx c && c.status == .idle) (fun c => { c with status := .vacant, held := .vacant })).setCtx
          { x with launch := none, disc := n }).putQueue ctx
        { e.complete l.idx with disc := BitVec.ofNat 32 (min n (2 ^ 32 - 1)) } →
    exec (.launchComplete ctx) s = .next (if l.q = 0 then
      u.notify x .launchDone (leBytes 4 l.idx.toNat ++ leBytes 4 (min n (2 ^ 32 - 1))) else u))

/-! ### Stops, debug modules, links, claims and the port -/

/-- R148, R356, R359, R360, R265, R319: a stop of a family is decided for the first multiple of 64 at least 4,096 cycles on; in
that cycle its slots stop and keep their state, but for one in an accepted block; once blocks have returned and the huddle
requests are handled everything is swept up, and the state is saved out; the next waiting family takes its place, its state comes
back, and its slots rejoin in an agreed cycle; the slice of an elastic or batch context ends, with a stop if another waits for
what it holds.
Which slots a stop halts and where a family comes back is the model's reading (log 36 to 38), and the referee core that hears of a
stop is its choice (log 64). -/
def Obligations.StopsSaveAndRestore : Prop :=
  (∀ (root : Nat) (s : State), s.family root ≠ [] → s.stopOf root = .none →
    exec (.stopDecision root) s =
      .next ((s.setStop root (.decided (BitVec.ofNat 64 (64 * ((s.cycle.toNat + 4096 + 63) / 64))))).signalRef [refCore0] 4)) ∧
  (∀ (root : Nat) (v : Word) (s : State), s.stopOf root = .decided v → v.toNat ≤ s.cycle.toNat → s.resetPending root = false →
    exec (.stopHalt root) s =
      .next ((s.mapSlots (fun c => s.inFamily root c && c.block.isNone) Slot.freeze).setStop root .halted)) ∧
  (∀ (c : Slot), c.status ≠ .stopped → c.freeze = { c with held := c.status, status := .stopped }) ∧
  (∀ (root : Nat) (s : State), s.stopOf root = .halted →
    (∀ c ∈ s.allSlots, s.inFamily root c = true → c.block = none) → (∀ r ∈ s.hreqs, r.root ≠ root) →
    exec (.flushToken root) s = .next ((s.mapSlots (fun c => s.inFamily root c) Slot.freeze).setStop root .flushed)) ∧
  (∀ (root : Nat) (s : State), s.stopOf root = .flushed → s.claimBusy root = false → s.stepping root = false →
    (s.saveError root = none → exec (.stateSaveDone root) s = .next (s.saveFamily root)) ∧
    (∀ e x, s.saveError root = some (e, x) → exec (.stateSaveDone root) s =
      .next (State.uncorrCtx { s with errs := s.errs.filter (fun f => f != e) } x 0 e))) ∧
  (∀ (root : Nat) (s : State),
    (s.neverRan root = none → s.slicePlace root = (s.placeFamily root).map Place.clusters) ∧
    (∀ x ps, s.neverRan root = some x →
      placeUpTo (s.usage (s.ctxs.filter (fun y => y.root != root))) x.warrant.need 13 = some ps →
      s.slicePlace root = some (.slots ps))) ∧
  (∀ (ctx : Nat) (s t : State) (x : Ctx), s.ctxAt ctx = some x → s.waits x = true →
    (∀ y ∈ s.ctxs, s.waits y = true → placedBefore y x = true → s.slicePlace y.root = none) →
    ((∃ m, s.slicePlace x.root = some (.clusters m) ∧ t = s.moveFamily x.root m) ∨
      (∃ ps, s.slicePlace x.root = some (.slots ps) ∧ t = s.takePlace x.root (.slots ps))) →
    exec (.slicePlacement ctx) s = .next { t with
      ctxs := t.ctxs.map (fun y => if y.root = x.root then { y with stop := .restoring, sliceAt := t.cycle } else y) }) ∧
  (∀ (root : Nat) (s : State) (vs ws : List Saved) (v : Saved) (x : Ctx) (xs : List Ctx), s.saved = vs ++ v :: ws → v.root = root →
    (∀ w ∈ vs, w.root ≠ root) → s.family root = x :: xs → x.stop = .restoring ∨ (x.stop = .saved ∧ x.res.cls = 0) →
    exec (.restoreDone root) s = .next ((s.restoreFamily root v).setStop root
      (.resumeAt (BitVec.ofNat 64 (64 * ((s.cycle.toNat + 4096 + 63) / 64)))))) ∧
  (∀ (root : Nat) (v : Word) (s : State), s.stopOf root = .resumeAt v → v.toNat ≤ s.cycle.toNat →
    ∃ t u, exec (.resumeRejoin root) s = .next t ∧
      u = (s.mapSlots (fun c => c.status == .stopped && (match s.ctxOf c with
        | some x => x.root == root && x.err.isNone && x.state != .error
        | none => false)) Slot.resume).setStop root .none ∧
      t = { u with ctxs := u.ctxs.map (fun x => if x.root = root then
        { x with state := if x.state = .saved then .run else x.state, sliceAt := u.cycle } else x) }) ∧
  (∀ (c : Slot), (c.wait = some .mwait → c.dbgHalt = false →
      c.resume = { c with wait := some (.done 0 0), monitor := none, status := c.held }) ∧
    (c.wait ≠ some .mwait → c.dbgHalt = false → c.resume = { c with status := c.held }) ∧
    (c.wait ≠ some .mwait → c.dbgHalt = true → c.resume = c)) ∧
  (∀ (ctx : Nat) (s : State) (x : Ctx), s.ctxAt ctx = some x → s.heads x = true → x.res.cls ≠ 0 → x.stop = .none →
    x.sliceAt.toNat + 600 * x.res.latency ≤ s.cycle.toNat →
    (s.wanted x.root = true →
      exec (.sliceEnd ctx) s = .next (((s.setCtx { x with sliceAt := s.cycle }).setStop x.root
        (.decided (BitVec.ofNat 64 (64 * ((s.cycle.toNat + 4096 + 63) / 64))))).signalRef [refCore0] 4)) ∧
    (s.wanted x.root = false → exec (.sliceEnd ctx) s = .next (s.setCtx { x with sliceAt := s.cycle })))

/-- R390 to R395: the debug modules: the oldest trace word of a slot moves into its module's pending records; a sample is taken of
every slot of the holder; a frozen buffer is written out; a trigger of another cluster arrives; the halted slots return in their
cycle; a condition on CYCLE is met.
When the buffer of a context in ERROR is written and which rotation's class a sample tells are the model's choice (log 46, 32). -/
def Obligations.DebugModulesRecord : Prop :=
  (∀ (slot : Nat) (s : State) (ms ns : List DbgMod) (m : DbgMod) (w : TraceWord) (ws : List TraceWord),
    (s.slotAt slot).q5 = w :: ws → s.dbg = ms ++ m :: ns → m.clus = clusOf slot → (s.slotAt slot).owner = some m.holder →
    (∀ n ∈ ms, n.clus ≠ clusOf slot) → (∀ r ∈ m.pend, ¬ (r.type = 1 ∧ r.lcore = (s.slotAt slot).lcore)) →
    ∃ t u, exec (.traceWordMove slot) s = .next t ∧ u = s.setSlot { s.slotAt slot with q5 := ws } ∧
      t = { u with
        dbg := ms ++ { m with
          pend := m.pend ++ [{
            type := 1, slot := slotNo slot, lcore := (s.slotAt slot).lcore, cycle := w.cycle, pc := w.pc, value := w.word }] } :: ns }) ∧
  (∀ (slot : Nat) (s : State) (w : TraceWord) (ws : List TraceWord), (s.slotAt slot).q5 = w :: ws →
    (∀ m ∈ s.dbg, ¬ (m.clus = clusOf slot ∧ (s.slotAt slot).owner = some m.holder)) →
    exec (.traceWordMove slot) s = .next (s.setSlot { s.slotAt slot with q5 := ws })) ∧
  (∀ (clus : Nat) (s : State) (ms ns : List DbgMod) (m : DbgMod) (cs : List Slot), s.dbg = ms ++ m :: ns → m.clus = clus →
    (∀ n ∈ ms, n.clus ≠ clus) → 0 < m.cfg.period → s.cycle.toNat % m.cfg.period = 0 → (∀ r ∈ m.pend, r.type ≠ 4) →
    cs = s.allSlots.filter (fun c => c.owner == some m.holder && clusOf c.phys == clus) → cs ≠ [] →
    exec (.debugSample clus) s = .next { s with
      dbg := ms ++ { m with
        pend := m.pend ++ cs.map (fun (c : Slot) => {
          type := 4, slot := slotNo c.phys, lcore := c.lcore, cycle := s.cycle,
          pc := if c.status = .idle ∨ c.status = .vacant then 0 else c.pc,
          value := BitVec.ofNat 64 c.cls }) } :: ns }) ∧
  (∀ (clus : Nat) (s : State) (ms ns : List DbgMod) (m : DbgMod), s.dbg = ms ++ m :: ns → m.clus = clus → (∀ n ∈ ms, n.clus ≠ clus) →
    m.capture = .frozen → m.buf ≠ [] → exec (.captureFreeze clus) s = .next (s.writeCapture m)) ∧
  (∀ (clus : Nat) (s : State) (es fs : List (Nat × Nat × Bool)) (holder : Nat) (halts : Bool), s.cross = es ++ (holder, clus, halts) :: fs →
    (∀ e ∈ es, e.2.1 ≠ clus) →
    ∃ t, t = { s with
        cross := es ++ fs,
        dbg := s.dbg.map (fun m => if m.clus = clus ∧ m.holder = holder then
          { m with pend := m.pend ++ [{ type := 9, slot := 0, lcore := 0, cycle := s.cycle, pc := 0, value := 0 }] } else m) } ∧
      (halts = false → exec (.crossTriggerArrival clus) s = .next t) ∧
      (halts = true → ∃ u, u = t.mapSlots (fun c => c.owner == some holder && clusOf c.phys == clus)
            (fun c => { c.freeze with dbgHalt := true }) ∧
        exec (.crossTriggerArrival clus) s = .next { u with
          ctxs := u.ctxs.map (fun x => if x.id = holder then { x with halted := true, dbgClus := clus :: x.dbgClus } else x) })) ∧
  (∀ (ctx : Nat) (s : State) (x : Ctx) (es fs : List (Nat × Word)) (at_ : Word), s.ctxAt ctx = some x →
    s.dbgResume = es ++ (ctx, at_) :: fs → (∀ e ∈ es, e.1 ≠ ctx) → at_.toNat ≤ s.cycle.toNat →
    ∃ t, exec (.debugResumeCycle ctx) s = .next { t with dbgResume := es ++ fs } ∧
      t = (s.atFamily x.root (fun u => u.mapSlots (ownedBy ctx) (fun c => if c.dbgHalt then
        { c with dbgHalt := false, status := if x.stop.running = true ∧ x.err = none then c.held else c.status } else c))).setCtx
          { x with halted := false, dbgClus := [] }) ∧
  (∀ (clus : Nat) (s : State) (ms ns : List DbgMod) (m : DbgMod), s.dbg = ms ++ m :: ns → m.clus = clus → (∀ n ∈ ms, n.clus ≠ clus) →
    m.hit = false → m.cfg.start = .cycleIs s.cycle ∨ m.cfg.stop = .cycleIs s.cycle ∨ m.cfg.trigger = .cycleIs s.cycle →
    exec (.captureCycleMatch clus) s = .next { s with dbg := ms ++ { m with hit := true } :: ns })

/-- R396 to R400, R404: links and inbound accesses: training identifies the far node and gives each channel 32 credits; a flit
with a wrong CRC is asked for again, and one of another source or for another node is discarded; one with a payload reaches the
referee inbox, or holds its slot until its access is carried out; one without is a slot that is free again, or asks for the
channel's last flit again; a flit leaves while its channel has a credit, two elastic ones for one batch one, and a copy stays for
replay; a link on which a flit has failed eight replays goes down; an access through window 1 by the bound node reaches the
context's memory, and a read's bytes leave on the channel of its class, or a sealed context's on its own pair; a store of
another agent reaches host memory.
What a data flit says, how a request for replay is told, the inbound path and the referee core that takes a message are the
model's choice (log 5, 12, 44, 58, 64). -/
def Obligations.LinksCarryFlits : Prop :=
  (∀ (link node : Nat) (s : State) (known : Bool), link < 96 →
    (known = true ↔ ∀ r, s.commission = some r → ∀ es fs e, r.linkNode = es ++ e :: fs → (∀ g ∈ es, g.1 ≠ link) → e.1 = link → e.2 = node) →
    exec (.linkTraining link node) s = .next (s.setLink { s.linkAt link with
      node := if known then some node else none, up := known, fails := 0, nacks := 0, credits := Vector.replicate 16 32, sent := [],
      got := [] })) ∧
  (∀ (link : Nat) (f : Flit) (s : State) (l : Link), l = s.linkAt link → l.up = true → l.fails < 9 → l.nacks < 9 →
    (flitCrcOk f = false →
      exec (.flitReceive link f) s = .next (s.setLink { l with
        fails := l.fails + 1, out := s.bareFlit l f.vc Config.replayType :: l.out })) ∧
    (flitCrcOk f = true → l.node ≠ some f.src.toNat ∨ f.dst.toNat ≠ s.ownNode → exec (.flitReceive link f) s = .next s) ∧
    (flitCrcOk f = true → l.node = some f.src.toNat → f.dst.toNat = s.ownNode →
      (f.len ≠ 0 → f.vc.toNat ≤ 1 → exec (.flitReceive link f) s = .next
        { s.setLink { l with fails := 0, out := l.out ++ [s.bareFlit l f.vc (Config.flitType f.vc)] } with
          inbox := s.inbox ++ [{ core := refCore0, node := f.src.toNat, kind := f.vc.toNat, bytes := f.payload.take f.len.toNat }] }) ∧
      (f.len ≠ 0 → 1 < f.vc.toNat → s.mayEnter l f = false ∨ f.vc.toNat % 2 = 1 → exec (.flitReceive link f) s = .next
        (s.setLink { l with fails := 0, out := l.out ++ [s.bareFlit l f.vc (Config.flitType f.vc)] })) ∧
      (f.len ≠ 0 → 1 < f.vc.toNat → s.mayEnter l f = true → f.vc.toNat % 2 = 0 →
        (l.got.filter (fun g => g.vc == f.vc)).length < 32 →
        exec (.flitReceive link f) s = .next (s.setLink { l with fails := 0, got := l.got ++ [f] })) ∧
      (f.len = 0 → f.ftype ≠ Config.replayType → ∀ gs g hs, l.sent = gs ++ g :: hs → g.vc = f.vc → (∀ h ∈ gs, h.vc ≠ f.vc) →
        exec (.flitReceive link f) s = .next (s.setLink { l with
          fails := 0, nacks := 0, sent := gs ++ hs, credits := l.credits.setIfInBounds f.vc.toNat (min 32 (l.free f.vc + 1)) })) ∧
      (f.len = 0 → f.ftype = Config.replayType → ∀ gs g hs, l.sent = gs ++ g :: hs → g.vc = f.vc → (∀ h ∈ hs, h.vc ≠ f.vc) →
        exec (.flitReceive link f) s = .next (s.setLink { l with
          fails := 0, nacks := l.nacks + 1, out := g :: l.out, sent := gs ++ hs,
          credits := l.credits.setIfInBounds f.vc.toNat (min 32 (l.free f.vc + 1)) })))) ∧
  (∀ (s : State) (l : Link) (f : Flit) (x : Ctx), 1 < f.vc.toNat → s.ctxAt f.ctx.toNat = some x →
    (x.warrant.sealed = false → (s.mayEnter l f = true ↔ f.vc.toNat / 2 = x.res.cls + 1)) ∧
    (x.warrant.sealed = true → (s.mayEnter l f = true ↔ ∃ e ∈ x.pairs, e.1 = l.link / 4 ∧ f.vc.toNat / 2 = 4 + e.2))) ∧
  (∀ (link : Nat) (vc : BitVec 4) (s : State) (l : Link) (fs gs : List Flit) (f : Flit), l = s.linkAt link → l.up = true →
    l.fails < 9 → l.nacks < 9 → l.out = fs ++ f :: gs → f.vc = vc → (∀ g ∈ fs, g.vc ≠ vc) →
    (f.len = 0 → exec (.flitSend link vc) s = .next (s.setLink { l with out := fs ++ gs })) ∧
    (∀ n, f.len ≠ 0 → l.credits[vc.toNat]? = some (n + 1) → l.turnOf vc = true →
      exec (.flitSend link vc) s = .next (s.setLink { l with
        out := fs ++ gs, sent := l.sent ++ [f], share := l.shareAfter vc, credits := l.credits.setIfInBounds vc.toNat n }))) ∧
  (∀ (l : Link) (vc : BitVec 4),
    (vc.toNat / 2 = 2 → (l.turnOf vc = true ↔ (l.waits 6 = false ∧ l.waits 7 = false) ∨ l.share < 2) ∧
      l.shareAfter vc = min 2 (l.share + 1)) ∧
    (vc.toNat / 2 = 3 → (l.turnOf vc = true ↔ (l.waits 4 = false ∧ l.waits 5 = false) ∨ 2 ≤ l.share) ∧ l.shareAfter vc = 0) ∧
    (vc.toNat / 2 ≠ 2 → vc.toNat / 2 ≠ 3 → l.turnOf vc = true ∧ l.shareAfter vc = l.share)) ∧
  (∀ (link : Nat) (vc : BitVec 4) (s t : State) (ms ns : List OutMsg) (m : OutMsg) (k : Link),
    (∀ f ∈ (s.linkAt link).out, f.vc ≠ vc) → s.outq = ms ++ m :: ns → m.vc = vc → s.linkTo m.node = some k → k.link = link →
    (∀ b ∈ ms, ¬ (b.vc = vc ∧ ∃ j, s.linkTo b.node = some j ∧ j.link = link)) →
    t = State.post { s with outq := ms ++ ns } m.node vc m.bytes → (∃ f ∈ (t.linkAt link).out, f.vc = vc) →
    exec (.flitSend link vc) s = exec (.flitSend link vc) t) ∧
  (∀ (link : Nat) (s t : State) (l : Link), l = s.linkAt link → l.up = true → 9 ≤ l.fails ∨ 9 ≤ l.nacks →
    t = s.setLink { l with up := false, out := [], sent := [] } →
    (∀ m, t.links.find? (fun m => m.link / 4 == link / 4 && m.up) = some m →
      exec (.linkDown link) s = .next (t.setLink { m with out := m.out ++ l.out.filter (fun f => f.len != 0) })) ∧
    (t.links.find? (fun m => m.link / 4 == link / 4 && m.up) = none →
      exec (.linkDown link) s =
        .next ((t.ctxs.filter (fun x => t.hostPending x (link / 4))).foldl (fun (t : State) x => t.ctxFault x 2) t))) ∧
  (∀ (node ctx off len : Nat) (s : State) (x : Ctx) (base size : Word) (k j : Nat) (bs : List Byte), s.ctxAt ctx = some x →
    x.winIn = some (base, size) → x.node = node → x.keyValid = true → 0x1000000000000 ≤ base.toNat →
    (0 < len → off + len ≤ size.toNat →
      resolveDev x (BitVec.ofNat 64 (base.toNat + off)) (base.toNat + off - 0x1000000000000) .engRead = .ok k →
      resolveDev x (BitVec.ofNat 64 (base.toNat + off)) (base.toNat + off - 0x1000000000000 + len - 1) .engRead = .ok j →
      (∀ q ∈ spanKeys k len, s.tlbHit q = true) →
      (s.errorAt k len = none → exec (.inboundAccess node ctx off len none) s =
        .next ((State.noteAccess (s.takeGot node ctx) ctx k len false).respond x node (s.readHomeN k len))) ∧
      (∀ e, s.errorAt k len = some e → x.err = none → exec (.inboundAccess node ctx off len none) s =
        .next ((s.takeGot node ctx).uncorrCtx x (BitVec.ofNat 64 (base.toNat + off) + BitVec.ofNat 64 (e.lo - k)) e))) ∧
    (bs ≠ [] → off + bs.length ≤ size.toNat →
      resolveDev x (BitVec.ofNat 64 (base.toNat + off)) (base.toNat + off - 0x1000000000000) .engWrite = .ok k →
      resolveDev x (BitVec.ofNat 64 (base.toNat + off)) (base.toNat + off - 0x1000000000000 + bs.length - 1) .engWrite = .ok j →
      (∀ q ∈ spanKeys k bs.length, s.tlbHit q = true) →
      exec (.inboundAccess node ctx off len (some bs)) s =
        .next (((s.takeGot node ctx).land (cellsAt k bs)).noteAccess ctx k bs.length true))) ∧
  (∀ (node ctx off len : Nat) (data : Option (List Byte)) (s : State) (x : Ctx), s.ctxAt ctx = some x →
    x.winIn = none ∨ x.node ≠ node → exec (.inboundAccess node ctx off len data) s = .next (s.takeGot node ctx)) ∧
  (∀ (node ctx : Nat) (s : State), (s.takeGot node ctx).links = s.links.map (fun l => { l with
    got := l.got.filter (fun f => !(f.src.toNat == node && f.ctx.toNat == ctx)),
    out := l.out ++ (l.got.filter (fun f => f.src.toNat == node && f.ctx.toNat == ctx)).map
      (fun f => s.bareFlit l f.vc (Config.flitType f.vc)) })) ∧
  (∀ (node : Nat) (s : State) (x : Ctx) (response : Bool) (l : Link) (vc : BitVec 4), s.dataLink x node response = some (l, vc) →
    l ∈ s.links ∧ l.up = true ∧ l.node = some node ∧
    (x.warrant.sealed = false → l.link / 4 ∈ x.layout.dies ∧
      vc = BitVec.ofNat 4 (2 * x.res.cls + 2 + (if response then 1 else 0))) ∧
    (x.warrant.sealed = true → ∃ e ∈ x.pairs, e.1 = l.link / 4 ∧ vc = BitVec.ofNat 4 (8 + 2 * e.2 + (if response then 1 else 0)))) ∧
  (∀ (node off len : Nat) (s : State) (bs : List Byte), s.ctxAt 0 = none → node < 2 ^ 16 → off + bs.length ≤ 2 ^ 64 →
    exec (.inboundAccess node 0 off len (some bs)) s = .next ((s.takeGot node 0).land (cellsAt (keyOf Space.host node off) bs)))

/-- R331, Table 21-3: claims: a claim of this device at its own home is answered by the redemption table and carried out; a claim
of another device is answered to it; a claim is sent again after 100 µs and given up after 10 ms; SPENT marks the serial.
The bytes of a claim and of its answer are the model's choice (log 48). -/
def Obligations.ClaimsAreAnswered : Prop :=
  (∀ (s : State) (c : Claim) (cs : List Claim) (answer : Nat), s.claims = c :: cs →
    s.homeOf (c.who.domain) c.msg.root = s.ownNode →
    ∃ t, t = { s with redemption := (s.tableClaim c.msg).2 } ∧
      ((s.tableClaim c.msg).1 = 0 → exec (.claimAtHome c.msg answer) s = .next (t.present c.who).nextClaim) ∧
      ((s.tableClaim c.msg).1 ≠ 0 →
        exec (.claimAtHome c.msg answer) s = .next (t.refuseClaim c.who (s.tableClaim c.msg).1).nextClaim)) ∧
  (∀ (s : State) (c : Claim) (cs : List Claim) (answer : Nat), s.claims = c :: cs →
    s.homeOf (c.who.domain) c.msg.root ≠ s.ownNode →
    (answer = 0 → exec (.claimAtHome c.msg answer) s = .next (s.present c.who).nextClaim) ∧
    (answer = 7 ∨ answer = 9 → exec (.claimAtHome c.msg answer) s = .next (s.refuseClaim c.who answer).nextClaim)) ∧
  (∀ (s : State) (m : ClaimMsg) (answer : Nat), (∀ c ∈ s.claims, c.msg ≠ m) → m.device ≠ s.ownNode → s.commission.isSome = true →
    exec (.claimAtHome m answer) s = .next (State.post { s with redemption := (s.tableClaim m).2 } m.device 1
      (leBytes 16 m.serial.toNat ++ leBytes 8 (s.tableClaim m).1))) ∧
  (∀ (s : State) (m : ClaimMsg),
    (s.bootTime = none → s.tableClaim m = (9, s.redemption)) ∧
    (∀ b, s.bootTime = some b → m.notBefore.toNat < b.toNat → s.tableClaim m = (9, s.redemption)) ∧
    (∀ b, s.bootTime = some b → b.toNat ≤ m.notBefore.toNat →
      ((∀ e ∈ s.redemption, e.serial ≠ m.serial) →
        s.tableClaim m = (0, s.redemption ++ [{ serial := m.serial, device := m.device, spent := false }])) ∧
      (∀ es e fs, s.redemption = es ++ e :: fs → (∀ g ∈ es, g.serial ≠ m.serial) → e.serial = m.serial →
        (e.spent = false → e.device = m.device → s.tableClaim m = (0, s.redemption)) ∧
        (e.spent = true ∨ e.device ≠ m.device → s.tableClaim m = (7, s.redemption))))) ∧
  (∀ (s t : State) (c : Claim) (cs : List Claim), s.claims = c :: cs → c.last.toNat + 60000 ≤ s.cycle.toNat →
    t = { s with claims := { c with last := s.cycle } :: cs } →
    (s.homeOf (c.who.domain) c.msg.root = s.ownNode → exec (.claimRetry c.msg.serial) s = .next t) ∧
    (s.homeOf (c.who.domain) c.msg.root ≠ s.ownNode →
      exec (.claimRetry c.msg.serial) s =
        .next (t.post (s.homeOf (c.who.domain) c.msg.root) 1 (claimBytes c.msg)))) ∧
  (∀ (s : State) (c : Claim) (cs : List Claim), s.claims = c :: cs → c.first.toNat + 6000000 ≤ s.cycle.toNat →
    exec (.claimTimeout c.msg.serial) s = .next (s.refuseClaim c.who 8).nextClaim) ∧
  (∀ (s t : State) (es fs : List (ClaimMsg × Word)) (m : ClaimMsg) (dom : Word), s.spentOut = es ++ (m, dom) :: fs →
    (∀ e ∈ es, e.1.serial ≠ m.serial) → t = { s with spentOut := es ++ fs } →
    (s.homeOf dom m.root = s.ownNode →
      exec (.spentAtHome m.serial) s = .next { t with redemption := markSpent m.serial s.ownNode s.redemption }) ∧
    (s.homeOf dom m.root ≠ s.ownNode →
      exec (.spentAtHome m.serial) s = .next (t.post (s.homeOf dom m.root) 1 (leBytes 16 m.serial.toNat ++ leBytes 16 m.root.toNat))))

namespace Sys2Proof.Machine

/-- The commands of Table 27-2: the header, the code, and the bytes of the payload where the table lets them vary. -/
inductive PortCommand : Instr → PortHdr → Nat → Option Nat → Prop
  | ident h : PortCommand (.ident h) h 0x01 none
  | commission h r sig : PortCommand (.commission h r sig) h 0x02 none
  | beacon h image : PortCommand (.beacon h image) h 0x03 (some image.length)
  | nonce h : PortCommand (.nonce h) h 0x04 none
  | present h image obj sig : PortCommand (.present h image obj sig) h 0x05 (some (image.length + obj.length + sig.length))
  | redeem h receipt sig : PortCommand (.redeem h receipt sig) h 0x06 (some (receipt.length + sig.length))
  | setwin h w base len : PortCommand (.setwin h w base len) h 0x07 none
  | defq h q d : PortCommand (.defq h q d) h 0x08 none
  | lock h : PortCommand (.lock h) h 0x09 none
  | start h : PortCommand (.start h) h 0x0A none
  | launch h pkt : PortCommand (.launch h pkt) h 0x0B (some pkt.length)
  | read h unit : PortCommand (.read h unit) h 0x0C none
  | surr h : PortCommand (.surr h) h 0x0D none
  | revoke h serial sig : PortCommand (.revoke h serial sig) h 0x0E (some (16 + sig.length))
  | dbgcfg h clus cfg : PortCommand (.dbgcfg h clus cfg) h 0x0F none
  | dbgrel h clus : PortCommand (.dbgrel h clus) h 0x10 none
  | dbgres h : PortCommand (.dbgres h) h 0x11 none
  | query h item : PortCommand (.query h item) h 0x12 none
  | qctrl h answer : PortCommand (.qctrl h answer) h 0x13 (some 8)

/-- The marked commands of Table 27-2 and the states in which the table lists them. -/
inductive Marked : Instr → (CtxState → Bool) → Prop
  | setwin h w base len : Marked (.setwin h w base len) (fun st => st == .unlocked || st == .locked || st == .run || st == .saved)
  | defq h q d : Marked (.defq h q d) (fun st => st == .unlocked || st == .run || st == .saved)
  | lock h : Marked (.lock h) (fun st => st == .unlocked)
  | start h : Marked (.start h) (fun st => st == .locked)
  | launch h pkt : Marked (.launch h pkt) (fun st => st == .run || st == .saved)
  | read h unit : Marked (.read h unit) (fun _ => true)
  | surr h : Marked (.surr h) (fun _ => true)
  | dbgcfg h clus cfg : Marked (.dbgcfg h clus cfg) (fun st => st == .run || st == .saved)
  | dbgrel h clus : Marked (.dbgrel h clus) (fun st => st == .run || st == .saved)
  | dbgres h : Marked (.dbgres h) (fun st => st == .run || st == .saved)
  | query h item : Marked (.query h item) (fun _ => true)
  | qctrl h answer : Marked (.qctrl h answer) (fun st => st == .run || st == .saved)

/-- A header as R402 gives it: its magic, its zero bytes, and its length. -/
def GoodHeader (h : PortHdr) (len : Option Nat) : Prop :=
  h.magic = [0x47#8, 0x58#8, 0x50#8, 0x43#8] ∧ (∀ b ∈ h.zeros, b = 0) ∧ ∀ n, len = some n → h.len = n

/-- A command with a good header, none of whose node's earlier commands is still being handled (R402). -/
def Handled (h : PortHdr) (code : Nat) (len : Option Nat) (s : State) : Prop :=
  s.nodeBusy h.node = false ∧ h.code = code ∧ GoodHeader h len

/-- The device is commissioned, and a context is there with the command's sender as its bound node. -/
def Binds (h : PortHdr) (s : State) (x : Ctx) : Prop := s.commission.isSome = true ∧ s.ctxAt h.ctx = some x ∧ x.node = h.node

end Sys2Proof.Machine

/-- R402, R403, R409: until a record is accepted every code but those of IDENT and COMMISSION gives 0x12; a code that is not
listed gives 0x01; a marked command from another node than the bound one gives 0x13 and changes nothing else, whatever the
state; from the bound node, in a state that the table does not list, it gives 0x12.
The statuses that Table 27-2 leaves open, and that a header which is not R402's gives 0x01, are the model's choice (log 50). -/
def Obligations.PortRefusesByBinding : Prop :=
  (∀ (i : Instr) (h : PortHdr) (code : Nat) (len : Option Nat) (s : State), PortCommand i h code len → s.nodeBusy h.node = false →
    (s.commission = none → h.code ≠ 1 → h.code ≠ 2 →
      exec i s = .next (s.reply h (h.code % 0x8000) (refusal 0x12 0) [])) ∧
    (s.commission ≠ none ∨ h.code = 1 ∨ h.code = 2 → h.code = 0 ∨ 0x13 < h.code ∨ ¬ GoodHeader h len →
      exec i s = .next (s.reply h (h.code % 0x8000) (refusal 0x01 0) []))) ∧
  (∀ (i : Instr) (h : PortHdr) (code : Nat) (len : Option Nat) (states : CtxState → Bool) (s : State), PortCommand i h code len →
    Marked i states → Handled h code len s → s.commission ≠ none →
    (s.ctxAt h.ctx = none → exec i s = .next (s.reply h code (refusal 0x12 0) [])) ∧
    (∀ x, s.ctxAt h.ctx = some x → x.node ≠ h.node → exec i s = .next (s.reply h code (refusal 0x13 0) [])) ∧
    (∀ x, Binds h s x → states x.state = false → exec i s = .next (s.reply h code (refusal 0x12 0) []))) ∧
  (∀ (h : PortHdr) (code : Nat) (status : Word) (payload : List Byte) (s : State),
    (s.reply h code status payload).replies = s.replies ++
      [{ node := h.node, code := code + 0x8000, tag := h.tag, status := status, payload := payload }] ∧
    (s.reply h code status payload).ctxs = s.ctxs ∧ (s.reply h code status payload).mem = s.mem ∧
    (s.reply h code status payload).cur = s.cur ∧ (s.reply h code status payload).slots = s.slots)

/-- R257, R341, R348, R352, R357, R390, R391, R394, R403 to R405, R256: the commands of the bound node: SETWIN sets a window of
an unlocked context and faults a later one; DEFQ defines a free queue once; LOCK locks and reports; START makes the slots IDLE;
LAUNCH appends a packet to queue 0, which then waits, is suspended with its reason, or goes; READ gives a unit of the dump area
under the context's key with its address; SURR ends the context; DBGCFG arms a module that no other context holds and DBGREL
frees it; DBGRES names the cycle of the resume; QUERY reports the warrant's items or the interface; QCTRL answers queue 0.
The statuses that Table 27-2 leaves open, the packing of a report, what DBGCFG names, and that a unit's READ meets an error
are the model's choice (log 47, 50, 51, 44). -/
def Obligations.BoundCommandsTakeEffect : Prop :=
  ∀ (h : PortHdr) (s : State) (x : Ctx), Binds h s x → s.nodeBusy h.node = false → GoodHeader h none →
    (∀ w base len, h.code = 0x07 →
      (x.state = .unlocked → base.toNat % 65536 = 0 → len.toNat % 65536 = 0 → w = 0 →
        exec (.setwin h w base len) s = .next ((s.setCtx { x with winOut := some (base, len) }).reply h 0x07 0 [])) ∧
      (x.state = .unlocked → base.toNat % 65536 = 0 → len.toNat % 65536 = 0 → w = 1 →
        exec (.setwin h w base len) s = .next ((s.setCtx { x with winIn := some (base, len) }).reply h 0x07 0 [])) ∧
      (x.state = .unlocked → base.toNat % 65536 ≠ 0 ∨ len.toNat % 65536 ≠ 0 →
        exec (.setwin h w base len) s = .next (s.reply h 0x07 (refusal 0x01 0) [])) ∧
      (x.state = .locked ∨ x.state = .run ∨ x.state = .saved →
        exec (.setwin h w base len) s = .next ((s.ctxFault x 4).reply h 0x07 0 []))) ∧
    (∀ q d, h.code = 0x08 → x.state = .unlocked ∨ x.state = .run ∨ x.state = .saved → 1 ≤ q → q < x.res.queues →
      (x.queue q ≠ none → exec (.defq h q d) s = .next (s.reply h 0x08 (refusal 0x12 0) [])) ∧
      (x.queue q = none → d.doorbell.toNat % 16 = 0 → d.status.toNat % 32 = 0 → x.freeSpan d.doorbell 16 = true →
        x.freeSpan d.status 32 = true →
        exec (.defq h q d) s = .next ((s.putQueue x.id (Queue.fresh q d)).reply h 0x08 0 []))) ∧
    (h.code = 0x09 → x.state = .unlocked →
      exec (.lock h) s = .next ((s.setCtx { x with state := .locked }).reply h 0x09 0 (interfaceReport s x))) ∧
    (∀ y, h.code = 0x0A → x.state = .locked →
      y = (if x.away then { x with state := .saved } else { x with state := .run, sliceAt := s.cycle }) →
      exec (.start h) s = .next (((s.setCtx y).atFamily x.root (fun u => u.mapSlots (ownedBy x.id)
        (fun c => if c.status = .vacant then { c with status := .idle, held := .idle } else c))).reply h 0x0A 0 [])) ∧
    (∀ pkt q, h.code = 0x0B → h.len = pkt.length → x.state = .run ∨ x.state = .saved → pkt.length = 64 → x.queue 0 = some q →
      ∃ r t, r = { q with
          ring := setNth q.ring (q.widx.toNat % 64) pkt, widx := (q.widx.setWidth 32 + 1).setWidth 64 } ∧
        exec (.launch h pkt) s = .next (t.reply h 0x0B 0 (leBytes 4 (q.widx.toNat % 2 ^ 32))) ∧
        (∀ n, queueReason x r = some n → t = s.suspend x r n) ∧
        (queueReason x r = none → t = s.putQueue x.id { r with state := if 2 ≤ q.state then q.state else r.going })) ∧
    (∀ pkt, h.code = 0x0B → h.len = pkt.length → x.state = .run ∨ x.state = .saved → pkt.length ≠ 64 →
      exec (.launch h pkt) s = .next (s.reply h 0x0B (refusal 0x01 0) [])) ∧
    (∀ unit k va t, h.code = 0x0C → x.layout.dumpOff + 64 * unit < x.layout.spillOff →
      k = keyOf Space.dev x.id (x.layout.dumpOff + 64 * unit) → va = BitVec.ofNat 64 (textLink + (x.layout.dumpOff + 64 * unit)) →
      (s.errorAt k 64 = none ∧ t = s) ∨ (∃ e, s.errorAt k 64 = some e ∧ x.err = none ∧ t = s.uncorrCtx x va e) →
      exec (.read h unit) s =
        .next (t.reply h 0x0C 0 (xtsEncrypt x.key va (s.readHomeN k 64) ++ leBytes 8 va.toNat))) ∧
    (h.code = 0x0D → exec (.surr h) s = .next ((s.endContext x.id).reply h 0x0D 0 [])) ∧
    (∀ n cfg k, h.code = 0x0F → x.state = .run ∨ x.state = .saved → x.clusters[n]? = some k → cfgOk x cfg = true →
      ((∀ m ∈ s.dbg, m.clus = k → m.holder = x.id) →
        exec (.dbgcfg h n cfg) s = .next (State.reply { s with
          dbg := updKey (fun e => e.clus == k)
            { clus := k, holder := x.id, cfg := cfg, capture := .armed, hit := false, buf := [], pend := [] } s.dbg } h 0x0F 0 [])) ∧
      ((∃ m ∈ s.dbg, m.clus = k ∧ m.holder ≠ x.id) →
        exec (.dbgcfg h n cfg) s = .next (s.reply h 0x0F (refusal 0x12 0) []))) ∧
    (∀ n k m, h.code = 0x10 → x.state = .run ∨ x.state = .saved → x.clusters[n]? = some k → m ∈ s.dbg → m.clus = k →
      m.holder = x.id →
      exec (.dbgrel h n) s = .next ((State.holdModules { s with dbg := s.dbg.filter (fun m => m.clus != k) } x).reply h 0x10 0 []) ∧
      (x.warrant.sealed = false →
        exec (.dbgrel h n) s = .next (State.reply { s with dbg := s.dbg.filter (fun m => m.clus != k) } h 0x10 0 []))) ∧
    (h.code = 0x11 → x.state = .run ∨ x.state = .saved →
      exec (.dbgres h) s = .next (State.reply { s with
        dbgResume := s.dbgResume ++ [(x.id, BitVec.ofNat 64 (64 * ((s.cycle.toNat + 4096 + 63) / 64)))] } h 0x11 0 [])) ∧
    (∀ n, h.code = 0x12 → (n < 16 → exec (.query h n) s = .next (s.reply h 0x12 0 (leBytes 8 (x.item n).toNat))) ∧
      (n = 16 → exec (.query h n) s = .next (s.reply h 0x12 0 (interfaceReport s x))) ∧
      (16 < n → exec (.query h n) s = .next (s.reply h 0x12 (refusal 0x01 0) []))) ∧
    (∀ v q, h.code = 0x13 → h.len = 8 → x.state = .run ∨ x.state = .saved → x.queue 0 = some q →
      exec (.qctrl h v) s = .next ((s.answer x q v.toNat).reply h 0x13 0 []))

/-- R257, R328, R330, R338, R383, R402, R403, R409 to R411: the commands of any node: IDENT tells the identity; a signed record
is accepted once per boot; a beacon that the rules accept sets the reference; a nonce is fresh and is used up by the next
presentation, or after 60 s; a presentation or a redemption that passes its checks puts its claim; a signed revocation zeroises
the key, and its context takes a fault of kind 3; power-on starts the module afresh, its referee cores at their ROM.
The statuses that Table 27-2 leaves open, what a power-on keeps of the model's own fields and which referee slots start are the
model's choice (log 50, 52, 64). -/
def Obligations.OpenCommandsTakeEffect : Prop :=
  (∀ (h : PortHdr) (s : State), s.nodeBusy h.node = false → GoodHeader h none →
    (h.code = 0x01 → exec (.ident h) s = .next (s.reply h 0x01 0 (Config.identityKey ++ leBytes 8 s.ownNode ++ leBytes 8 Config.romVersion.toNat ++
      leBytes 8 (if s.commission = none then 0 else 1)))) ∧
    (∀ r sig, h.code = 0x02 → s.commission ≠ none → exec (.commission h r sig) s = .next (s.reply h 0x02 (refusal 0x12 0) [])) ∧
    (∀ r sig, h.code = 0x02 → s.commission = none → Config.recordVerifies r sig = true → 1 ≤ r.factor → r.factor ≤ 4 →
      (∀ e ∈ r.domains, e.2.length ≤ 256 ∧ ∀ n ∈ e.2, n < 2 ^ 16) → r.node < 2 ^ 16 → (∀ e ∈ r.linkNode, e.2 < 2 ^ 16) →
      exec (.commission h r sig) s = .next (State.reply { s with commission := some r } h 0x02 0 [])) ∧
    (∀ r sig, h.code = 0x02 → s.commission = none → Config.recordVerifies r sig = false →
      exec (.commission h r sig) s = .next (s.reply h 0x02 (refusal 0x02 0) [])) ∧
    (∀ image seq dom e l, h.code = 0x03 → h.len = image.length → s.commission ≠ none → beaconOf image = some (seq, dom, e, l) →
      (s.beaconOk image seq dom e l = true → exec (.beacon h image) s = .next (State.reply { s with
        beacon := some { cb := s.cycle, eb := BitVec.ofNat 64 (max e.toNat s.tearly), lb := BitVec.ofNat 64 (min l.toNat s.tlate),
                         seq := seq },
        bootTime := some (s.bootTime.getD (BitVec.ofNat 64 (max e.toNat s.tearly))) } h 0x03 0 [])) ∧
      (s.beaconOk image seq dom e l = false → exec (.beacon h image) s = .next (s.reply h 0x03 (refusal 0x14 0) []))) ∧
    (h.code = 0x04 → s.commission ≠ none → exec (.nonce h) s = .next (State.reply { s with
      nonces := updKey (fun e => e.node == h.node) { node := h.node, value := Config.nonceBytes s.fresh, cycle := s.cycle } s.nonces,
      fresh := s.fresh + 1 } h 0x04 0 (leBytes 32 (Config.nonceBytes s.fresh).toNat))) ∧
    (∀ image obj sig, h.code = 0x05 → h.len = image.length + obj.length + sig.length → s.commission ≠ none →
      (∀ st, s.examineImage image (s.portProof h.node sig) = .error st →
        exec (.present h image obj sig) s = .next ((s.useNonce h.node).reply h 0x05 (refusal st 0) [])) ∧
      (∀ w, s.examineImage image (s.portProof h.node sig) = .ok w →
        exec (.present h image obj sig) s = .next ((s.useNonce h.node).addClaim
          { serial := w.serial, root := w.serial, notBefore := w.notBefore, device := s.ownNode } (.port h w obj)))) ∧
    (∀ receipt sig, h.code = 0x06 → h.len = receipt.length + sig.length → s.commission ≠ none →
      (∀ st, s.checkReceipt receipt (s.portProof h.node sig) = .error st →
        exec (.redeem h receipt sig) s = .next ((s.useNonce h.node).reply h 0x06 (refusal st 0) [])) ∧
      (∀ x who, s.checkReceipt receipt (s.portProof h.node sig) = .ok (x, who) →
        exec (.redeem h receipt sig) s = .next ((s.useNonce h.node).addClaim (s.claimMsg x x.serial) (.redeemPort h x.id who x.warrant.domain)))) ∧
    (∀ serial sig x, h.code = 0x0E → h.len = 16 + sig.length → s.commission ≠ none → s.ctxs.find? (fun x => x.serial == serial) = some x →
      (Config.sigVerifies x.warrant.issuer (leBytes 16 serial.toNat ++ leBytes 8 s.ownNode) sig = false →
        exec (.revoke h serial sig) s = .next (s.reply h 0x0E (refusal 0x02 0) [])) ∧
      (Config.sigVerifies x.warrant.issuer (leBytes 16 serial.toNat ++ leBytes 8 s.ownNode) sig = true → x.keyValid = true →
        ∃ u, u = s.setCtx { x with keyValid := false } ∧
          exec (.revoke h serial sig) s = .next ((State.ctxFault { u with
            keys := u.keys.map (fun k => if k.ctx = x.id then { k with key := [] } else k) } { x with keyValid := false } 3).reply
              h 0x0E 0 [])) ∧
      (Config.sigVerifies x.warrant.issuer (leBytes 16 serial.toNat ++ leBytes 8 s.ownNode) sig = true → x.keyValid = false →
        exec (.revoke h serial sig) s = .next (s.reply h 0x0E 0 [])))) ∧
  (∀ (s : State) (node : Nat) (n : Nonce), n ∈ s.nonces → n.node = node → n.cycle.toNat + 36000000000 < s.cycle.toNat →
    exec (.nonceExpiry node) s = .next { s with nonces := s.nonces.filter (fun n => n.node != node) }) ∧
  (∀ (s : State), exec .powerOn s = .next { State.reset with
    slots := ((upTo 24).flatMap refCores).map (fun k => { Slot.fresh (8 * k) with status := .ready, pc := Config.romEntry }),
    mem := s.mem.filter (fun c => keySpace c.1 == Space.host), agenda := s.agenda, auto := s.auto, fresh := s.fresh,
    seq := s.seq, nextId := s.nextId, pubs := s.pubs })
end

