-- ==== Sys2Proof/Laws/Bytes.lean ====
section
/-! SUPPORT. Reading numbers out of a byte array: a read within the first part of an array, past it, and of a number's own
bytes. -/

namespace Sys2Proof.Machine

theorem getD_append (h t : List Byte) (i : Nat) (hi : i < h.length) : (h ++ t).toArray.getD i 0 = h.toArray.getD i 0 := by
  simp [Array.getD_eq_getD_getElem?, List.getElem?_append_left hi]

theorem getD_skip (h t : List Byte) (i : Nat) : (h ++ t).toArray.getD (h.length + i) 0 = t.toArray.getD i 0 := by
  simp [Array.getD_eq_getD_getElem?, List.getElem?_append_right]

theorem arrNat_append (h t : List Byte) (n i : Nat) (hi : i + n ≤ h.length) : arrNat (h ++ t).toArray i n = arrNat h.toArray i n := by
  induction n generalizing i with
  | zero => rfl
  | succ n ih => rw [arrNat, arrNat, getD_append h t i (by omega), ih (i + 1) (by omega)]

theorem arrWord_append (h t : List Byte) (i : Nat) (hi : i + 8 ≤ h.length) : arrWord (h ++ t).toArray i = arrWord h.toArray i := by
  rw [arrWord, arrWord, arrNat_append h t 8 i hi]

theorem arrNat_skip (h t : List Byte) (n i : Nat) : arrNat (h ++ t).toArray (h.length + i) n = arrNat t.toArray i n := by
  induction n generalizing i with
  | zero => rfl
  | succ n ih => rw [arrNat, arrNat, getD_skip, Nat.add_assoc, ih]

theorem arrZero_append (h t : List Byte) (n i : Nat) (hi : i + n ≤ h.length) :
    arrZero (h ++ t).toArray i n = arrZero h.toArray i n := by
  unfold arrZero
  rw [Bool.eq_iff_iff, List.all_eq_true, List.all_eq_true]
  constructor
  all_goals
    intro a k hk
    have hn : k < n := by simpa [upTo] using hk
    have := a k hk
    rw [getD_append h t (i + k) (by omega)] at *
    exact this

theorem arrNat_leBytes (n v : Nat) (t : List Byte) : arrNat (leBytes n v ++ t).toArray 0 n = v % 256 ^ n := by
  induction n generalizing v with
  | zero => simp [arrNat, Nat.mod_one]
  | succ n ih =>
    have h : arrNat ([BitVec.ofNat 8 v] ++ (leBytes n (v / 256) ++ t)).toArray (1 + 0) n = arrNat (leBytes n (v / 256) ++ t).toArray 0 n :=
      arrNat_skip [BitVec.ofNat 8 v] _ n 0
    show (BitVec.ofNat 8 v).toNat + 256 * arrNat ([BitVec.ofNat 8 v] ++ (leBytes n (v / 256) ++ t)).toArray (1 + 0) n = _
    rw [h, ih, Nat.pow_succ, Nat.mul_comm (256 ^ n) 256, Nat.mod_mul, BitVec.toNat_ofNat]

end Sys2Proof.Machine
end

