-- ==== Sys2Proof/Laws/Memory.lean ====
section
/-! SUPPORT. Memory: every operation on the cells keeps their canonical form, a read after a write gives the value
written, a write leaves every other location alone, and equal reads make equal memories. -/

namespace Sys2Proof.Machine

/-! ### The canonical form -/

/-- The empty memory is canonical. -/
theorem Memory.wf_nil : Memory.wf [] = true := rfl

/-- A head of a canonical list that starts above a bound. -/
theorem cellsFrom_cons {lo : Option Nat} {k : Nat} {b : Byte} {r : List Host.Cell} :
    cellsFrom lo ((k, b) :: r) = true ↔ (∀ l, lo = some l → l < k) ∧ b ≠ 0 ∧ cellsFrom (some k) r = true := by
  cases lo <;> simp [cellsFrom, and_assoc]

/-- A weaker bound serves as well. -/
theorem cellsFrom_mono {lo lo' : Option Nat} {m : List Host.Cell} (h : ∀ l', lo' = some l' → ∃ l, lo = some l ∧ l' ≤ l)
    (hm : cellsFrom lo m = true) : cellsFrom lo' m = true := by
  cases m with
  | nil => cases lo' <;> rfl
  | cons c r =>
    obtain ⟨k, b⟩ := c
    rw [cellsFrom_cons] at hm ⊢
    refine ⟨fun l' e => ?_, hm.2⟩
    obtain ⟨l, e', hl⟩ := h l' e
    exact Nat.lt_of_le_of_lt hl (hm.1 l e')

/-- Without its bound. -/
theorem cellsFrom_none {lo : Option Nat} {m : List Host.Cell} (hm : cellsFrom lo m = true) : cellsFrom none m = true :=
  cellsFrom_mono (fun _ e => by cases e) hm

/-- Every listed location lies above the bound. -/
theorem cellsFrom_above {lo : Nat} {m : List Host.Cell} (hm : cellsFrom (some lo) m = true) : ∀ c ∈ m, lo < c.1 := by
  induction m generalizing lo with
  | nil => intro c hc; cases hc
  | cons c r ih =>
    obtain ⟨k, b⟩ := c
    rw [cellsFrom_cons] at hm
    have hk := hm.1 lo rfl
    intro x hx
    rcases List.mem_cons.mp hx with rfl | hx
    · exact hk
    · exact Nat.lt_trans hk (ih hm.2.2 x hx)

/-- A filtered canonical list stays canonical. -/
theorem cellsFrom_filter {lo : Option Nat} {m : List Host.Cell} (p : Host.Cell → Bool) (hm : cellsFrom lo m = true) :
    cellsFrom lo (m.filter p) = true := by
  induction m generalizing lo with
  | nil => cases lo <;> rfl
  | cons c r ih =>
    obtain ⟨k, b⟩ := c
    rw [cellsFrom_cons] at hm
    by_cases hp : p (k, b) = true
    · rw [List.filter_cons_of_pos hp, cellsFrom_cons]
      exact ⟨hm.1, hm.2.1, ih hm.2.2⟩
    · rw [List.filter_cons_of_neg hp]
      refine cellsFrom_mono ?_ (ih hm.2.2)
      intro l' e
      exact ⟨k, rfl, Nat.le_of_lt (hm.1 l' e)⟩

/-- A filtered memory is canonical. -/
theorem Memory.wf_filter {m : List Host.Cell} (p : Host.Cell → Bool) (hm : Memory.wf m = true) :
    Memory.wf (m.filter p) = true := cellsFrom_filter p hm

/-- A write above the bound keeps it. -/
theorem cellsFrom_writeCell {lo : Option Nat} {m : List Host.Cell} {a : Nat} {b : Byte} (ha : ∀ l, lo = some l → l < a)
    (hm : cellsFrom lo m = true) : cellsFrom lo (writeCell m a b) = true := by
  induction m generalizing lo with
  | nil =>
    by_cases hb : b = 0
    · simp only [writeCell, if_pos hb]; exact hm
    · simp only [writeCell, if_neg hb]
      exact cellsFrom_cons.mpr ⟨ha, hb, rfl⟩
  | cons c r ih =>
    obtain ⟨k, v⟩ := c
    have hm' := cellsFrom_cons.mp hm
    simp only [writeCell]
    split
    · rename_i hak
      split
      · exact hm
      · rename_i hb
        exact cellsFrom_cons.mpr ⟨ha, hb, cellsFrom_cons.mpr ⟨fun l e => by cases e; exact hak, hm'.2⟩⟩
    · split
      · rename_i hak
        subst hak
        split
        · exact cellsFrom_mono (fun l' e => ⟨a, rfl, Nat.le_of_lt (ha l' e)⟩) hm'.2.2
        · rename_i hb
          exact cellsFrom_cons.mpr ⟨ha, hb, hm'.2.2⟩
      · exact cellsFrom_cons.mpr ⟨hm'.1, hm'.2.1, ih (fun l e => by cases e; omega) hm'.2.2⟩

/-- A write keeps memory canonical. -/
theorem Memory.wf_writeCell {m : List Host.Cell} {a : Nat} {b : Byte} (hm : Memory.wf m = true) :
    Memory.wf (writeCell m a b) = true := cellsFrom_writeCell (fun _ e => by cases e) hm

/-- Some writes keep memory canonical. -/
theorem Memory.wf_writeCells {m : List Host.Cell} (cs : List Host.Cell) (hm : Memory.wf m = true) :
    Memory.wf (writeCells m cs) = true := by
  induction cs generalizing m with
  | nil => exact hm
  | cons c r ih => exact ih (Memory.wf_writeCell hm)

/-- Two canonical lists on the two sides of a location. -/
theorem cellsFrom_append {lo : Option Nat} {m n : List Host.Cell} (k : Nat) (hlo : ∀ l, lo = some l → l < k)
    (hm : cellsFrom lo m = true) (hk : ∀ c ∈ m, c.1 < k) (hn : cellsFrom none n = true) (hkn : ∀ c ∈ n, k ≤ c.1) :
    cellsFrom lo (m ++ n) = true := by
  induction m generalizing lo with
  | nil =>
    cases n with
    | nil => exact hm
    | cons c r =>
      obtain ⟨k', b⟩ := c
      have h := cellsFrom_cons.mp hn
      have := hkn (k', b) (List.mem_cons_self ..)
      exact cellsFrom_cons.mpr ⟨fun l e => Nat.lt_of_lt_of_le (hlo l e) this, h.2⟩
  | cons c r ih =>
    obtain ⟨k', b⟩ := c
    have h := cellsFrom_cons.mp hm
    refine cellsFrom_cons.mpr ⟨h.1, h.2.1, ih (fun l e => ?_) h.2.2 (fun c hc => hk c (List.mem_cons_of_mem _ hc))⟩
    cases e
    exact hk (k', b) (List.mem_cons_self ..)

/-- The cells of some bytes lie where the bytes do. -/
theorem listedCells_range (k : Nat) (bs : List Byte) : ∀ c ∈ listedCells k bs, k ≤ c.1 ∧ c.1 < k + bs.length := by
  induction bs generalizing k with
  | nil => intro c hc; cases hc
  | cons b r ih =>
    intro c hc
    simp only [listedCells] at hc
    split at hc
    · have := ih (k + 1) c hc
      simp only [List.length_cons]
      omega
    · rcases List.mem_cons.mp hc with rfl | hc
      · simp
      · have := ih (k + 1) c hc
        simp only [List.length_cons]
        omega

/-- The cells of some bytes are canonical. -/
theorem cellsFrom_listedCells (k : Nat) (bs : List Byte) : cellsFrom none (listedCells k bs) = true := by
  have h : ∀ (bs : List Byte) (k : Nat) (lo : Option Nat), (∀ l, lo = some l → l < k) → cellsFrom lo (listedCells k bs) = true := by
    intro bs
    induction bs with
    | nil => intro k lo _; cases lo <;> rfl
    | cons b r ih =>
      intro k lo hlo
      simp only [listedCells]
      split
      · exact ih (k + 1) lo (fun l e => Nat.lt_succ_of_lt (hlo l e))
      · rename_i hb
        exact cellsFrom_cons.mpr ⟨hlo, hb, ih (k + 1) (some k) (fun l e => by cases e; exact Nat.lt_succ_self k)⟩
  exact h bs k none (fun _ e => by cases e)

/-- Replacing a run of bytes keeps memory canonical. -/
theorem Memory.wf_putBytes {m : List Host.Cell} (k : Nat) (bs : List Byte) (hm : Memory.wf m = true) :
    Memory.wf (putBytes m k bs) = true := by
  simp only [putBytes, List.append_assoc]
  refine cellsFrom_append k (fun _ e => by cases e) (cellsFrom_filter _ hm) (fun c hc => ?_) ?_ (fun c hc => ?_)
  · simpa using (List.mem_filter.mp hc).2
  · refine cellsFrom_append (k + bs.length) (fun _ e => by cases e) (cellsFrom_listedCells k bs) (fun c hc => ?_)
      (cellsFrom_none (cellsFrom_filter _ hm)) (fun c hc => ?_)
    · exact (listedCells_range k bs c hc).2
    · simpa using (List.mem_filter.mp hc).2
  · rcases List.mem_append.mp hc with hc | hc
    · exact (listedCells_range k bs c hc).1
    · have : k + bs.length ≤ c.1 := by simpa using (List.mem_filter.mp hc).2
      omega

/-! ### Reads and writes -/

/-- A location below every listed one reads 0. -/
theorem readCell_above {m : List Host.Cell} {a : Nat} (h : ∀ c ∈ m, a < c.1) : readCell m a = 0 := by
  cases m with
  | nil => rfl
  | cons c r =>
    obtain ⟨k, b⟩ := c
    have := h (k, b) (List.mem_cons_self ..)
    simp only at this
    simp only [readCell]
    rw [if_neg (by omega), if_pos this]

/-- A read after a write to the same location gives the value written. -/
theorem readCell_writeCell_same {m : List Host.Cell} (a : Nat) (b : Byte) (hm : Memory.wf m = true) :
    readCell (writeCell m a b) a = b := by
  have h : ∀ (m : List Host.Cell) (lo : Option Nat), cellsFrom lo m = true → readCell (writeCell m a b) a = b := by
    intro m
    induction m with
    | nil =>
      intro lo _
      simp only [writeCell]
      split
      · rename_i hb
        rw [hb]
        rfl
      · simp only [readCell, if_true]
    | cons c r ih =>
      intro lo hm
      obtain ⟨k, v⟩ := c
      have h := cellsFrom_cons.mp hm
      simp only [writeCell]
      split
      · rename_i hak
        split
        · rename_i hb
          simp only [readCell, hb]
          rw [if_neg (by omega), if_pos hak]
        · simp [readCell]
      · split
        · rename_i hak
          split
          · rename_i hb
            rw [hb, hak]
            exact readCell_above (fun c hc => cellsFrom_above h.2.2 c hc)
          · simp [readCell]
        · simp only [readCell]
          rw [if_neg (by omega), if_neg (by omega)]
          exact ih _ h.2.2
  exact h m none hm

/-- A write leaves every other location alone. -/
theorem readCell_writeCell_other {m : List Host.Cell} {a x : Nat} (b : Byte) (hx : x ≠ a) (hm : Memory.wf m = true) :
    readCell (writeCell m a b) x = readCell m x := by
  have h : ∀ (m : List Host.Cell) (lo : Option Nat), cellsFrom lo m = true → readCell (writeCell m a b) x = readCell m x := by
    intro m
    induction m with
    | nil =>
      intro lo _
      by_cases hb : b = 0
      · simp [writeCell, hb]
      · simp only [writeCell, if_neg hb, readCell, if_neg hx]
        split <;> rfl
    | cons c r ih =>
      intro lo hm
      obtain ⟨k, v⟩ := c
      have h := cellsFrom_cons.mp hm
      simp only [writeCell]
      split
      · rename_i hak
        split
        · rfl
        · by_cases hxa : x < a
          · simp only [readCell]
            rw [if_neg hx, if_pos hxa, if_neg (by omega), if_pos (by omega)]
          · change (if x = a then b else if x < a then 0 else readCell ((k, v) :: r) x) = _
            rw [if_neg hx, if_neg hxa]
      · split
        · rename_i hak
          subst hak
          split
          · simp only [readCell, if_neg hx]
            split
            · rename_i hlt
              exact readCell_above (fun c hc => Nat.lt_trans hlt (cellsFrom_above h.2.2 c hc))
            · rfl
          · simp only [readCell, if_neg hx]
        · simp only [readCell]
          rw [ih _ h.2.2]
  exact h m none hm

/-- Memories that read the same are the same (both canonical). -/
theorem Memory.ext {m n : List Host.Cell} (hm : Memory.wf m = true) (hn : Memory.wf n = true)
    (h : ∀ a, readCell m a = readCell n a) : m = n := by
  have go : ∀ (m n : List Host.Cell) (lo lo' : Option Nat), cellsFrom lo m = true → cellsFrom lo' n = true →
      (∀ a, readCell m a = readCell n a) → m = n := by
    intro m
    induction m with
    | nil =>
      intro n lo lo' _ hn h
      cases n with
      | nil => rfl
      | cons c r =>
        obtain ⟨k, b⟩ := c
        have := h k
        simp only [readCell, if_true] at this
        exact absurd this.symm (cellsFrom_cons.mp hn).2.1
    | cons c r ih =>
      intro n lo lo' hm hn h
      obtain ⟨k, b⟩ := c
      have hm' := cellsFrom_cons.mp hm
      cases n with
      | nil =>
        have := h k
        simp only [readCell, if_true] at this
        exact absurd this hm'.2.1
      | cons c' r' =>
        obtain ⟨k', b'⟩ := c'
        have hn' := cellsFrom_cons.mp hn
        have ek : k = k' := by
          rcases Nat.lt_trichotomy k k' with hlt | heq | hgt
          · have := h k
            simp only [readCell, if_true] at this
            rw [if_neg (by omega), if_pos hlt] at this
            exact absurd this hm'.2.1
          · exact heq
          · have := h k'
            simp only [readCell, if_true] at this
            rw [if_neg (by omega), if_pos hgt] at this
            exact absurd this.symm hn'.2.1
        subst ek
        have eb : b = b' := by
          have := h k
          simpa only [readCell, if_true] using this
        subst eb
        congr 1
        refine ih r' (some k) (some k) hm'.2.2 hn'.2.2 (fun a => ?_)
        rcases Nat.lt_trichotomy a k with hlt | heq | hgt
        · rw [readCell_above (fun c hc => Nat.lt_trans hlt (cellsFrom_above hm'.2.2 c hc)),
            readCell_above (fun c hc => Nat.lt_trans hlt (cellsFrom_above hn'.2.2 c hc))]
        · subst heq
          rw [readCell_above (cellsFrom_above hm'.2.2), readCell_above (cellsFrom_above hn'.2.2)]
        · have := h a
          simp only [readCell] at this
          rwa [if_neg (by omega), if_neg (by omega), if_neg (by omega), if_neg (by omega)] at this
  exact go m n none none hm hn h

end Sys2Proof.Machine
end

