-- ==== Sys2Proof/Laws/State.lean ====
section
/-! SUPPORT. The frame of each update of a state or a slot: one lemma for each field it leaves as it was, so that no proof
unfolds a record update, and one for each field it sets. -/

namespace Sys2Proof.Machine

/-! ### Putting a context back -/

@[simp] theorem State.setCtx_cur (s : State) (x : Ctx) : (s.setCtx x).cur = s.cur := rfl
@[simp] theorem State.setCtx_slots (s : State) (x : Ctx) : (s.setCtx x).slots = s.slots := rfl
@[simp] theorem State.setCtx_cycle (s : State) (x : Ctx) : (s.setCtx x).cycle = s.cycle := rfl
@[simp] theorem State.setCtx_mem (s : State) (x : Ctx) : (s.setCtx x).mem = s.mem := rfl
@[simp] theorem State.setCtx_full (s : State) (x : Ctx) : (s.setCtx x).full = s.full := rfl
@[simp] theorem State.setCtx_sbuf (s : State) (x : Ctx) : (s.setCtx x).sbuf = s.sbuf := rfl
@[simp] theorem State.setCtx_flight (s : State) (x : Ctx) : (s.setCtx x).flight = s.flight := rfl
@[simp] theorem State.setCtx_outb (s : State) (x : Ctx) : (s.setCtx x).outb = s.outb := rfl
@[simp] theorem State.setCtx_feq (s : State) (x : Ctx) : (s.setCtx x).feq = s.feq := rfl
@[simp] theorem State.setCtx_waking (s : State) (x : Ctx) : (s.setCtx x).waking = s.waking := rfl
@[simp] theorem State.setCtx_early (s : State) (x : Ctx) : (s.setCtx x).early = s.early := rfl
@[simp] theorem State.setCtx_errs (s : State) (x : Ctx) : (s.setCtx x).errs = s.errs := rfl
@[simp] theorem State.setCtx_tlb (s : State) (x : Ctx) : (s.setCtx x).tlb = s.tlb := rfl
@[simp] theorem State.setCtx_walks (s : State) (x : Ctx) : (s.setCtx x).walks = s.walks := rfl
@[simp] theorem State.setCtx_icache (s : State) (x : Ctx) : (s.setCtx x).icache = s.icache := rfl
@[simp] theorem State.setCtx_deques (s : State) (x : Ctx) : (s.setCtx x).deques = s.deques := rfl
@[simp] theorem State.setCtx_chans (s : State) (x : Ctx) : (s.setCtx x).chans = s.chans := rfl
@[simp] theorem State.setCtx_xfers (s : State) (x : Ctx) : (s.setCtx x).xfers = s.xfers := rfl
@[simp] theorem State.setCtx_caddies (s : State) (x : Ctx) : (s.setCtx x).caddies = s.caddies := rfl
@[simp] theorem State.setCtx_msgs (s : State) (x : Ctx) : (s.setCtx x).msgs = s.msgs := rfl
@[simp] theorem State.setCtx_colls (s : State) (x : Ctx) : (s.setCtx x).colls = s.colls := rfl
@[simp] theorem State.setCtx_matrix (s : State) (x : Ctx) : (s.setCtx x).matrix = s.matrix := rfl
@[simp] theorem State.setCtx_huddles (s : State) (x : Ctx) : (s.setCtx x).huddles = s.huddles := rfl
@[simp] theorem State.setCtx_fams (s : State) (x : Ctx) : (s.setCtx x).fams = s.fams := rfl
@[simp] theorem State.setCtx_hreqs (s : State) (x : Ctx) : (s.setCtx x).hreqs = s.hreqs := rfl
@[simp] theorem State.setCtx_hnotes (s : State) (x : Ctx) : (s.setCtx x).hnotes = s.hnotes := rfl
@[simp] theorem State.setCtx_saved (s : State) (x : Ctx) : (s.setCtx x).saved = s.saved := rfl
@[simp] theorem State.setCtx_commits (s : State) (x : Ctx) : (s.setCtx x).commits = s.commits := rfl
@[simp] theorem State.setCtx_commission (s : State) (x : Ctx) : (s.setCtx x).commission = s.commission := rfl
@[simp] theorem State.setCtx_beacon (s : State) (x : Ctx) : (s.setCtx x).beacon = s.beacon := rfl
@[simp] theorem State.setCtx_bootTime (s : State) (x : Ctx) : (s.setCtx x).bootTime = s.bootTime := rfl
@[simp] theorem State.setCtx_redemption (s : State) (x : Ctx) : (s.setCtx x).redemption = s.redemption := rfl
@[simp] theorem State.setCtx_claims (s : State) (x : Ctx) : (s.setCtx x).claims = s.claims := rfl
@[simp] theorem State.setCtx_spentOut (s : State) (x : Ctx) : (s.setCtx x).spentOut = s.spentOut := rfl
@[simp] theorem State.setCtx_nonces (s : State) (x : Ctx) : (s.setCtx x).nonces = s.nonces := rfl
@[simp] theorem State.setCtx_dumps (s : State) (x : Ctx) : (s.setCtx x).dumps = s.dumps := rfl
@[simp] theorem State.setCtx_replies (s : State) (x : Ctx) : (s.setCtx x).replies = s.replies := rfl
@[simp] theorem State.setCtx_notices (s : State) (x : Ctx) : (s.setCtx x).notices = s.notices := rfl
@[simp] theorem State.setCtx_dbg (s : State) (x : Ctx) : (s.setCtx x).dbg = s.dbg := rfl
@[simp] theorem State.setCtx_dbgResume (s : State) (x : Ctx) : (s.setCtx x).dbgResume = s.dbgResume := rfl
@[simp] theorem State.setCtx_cross (s : State) (x : Ctx) : (s.setCtx x).cross = s.cross := rfl
@[simp] theorem State.setCtx_powerAt (s : State) (x : Ctx) : (s.setCtx x).powerAt = s.powerAt := rfl
@[simp] theorem State.setCtx_links (s : State) (x : Ctx) : (s.setCtx x).links = s.links := rfl
@[simp] theorem State.setCtx_inbox (s : State) (x : Ctx) : (s.setCtx x).inbox = s.inbox := rfl
@[simp] theorem State.setCtx_refEvents (s : State) (x : Ctx) : (s.setCtx x).refEvents = s.refEvents := rfl
@[simp] theorem State.setCtx_outq (s : State) (x : Ctx) : (s.setCtx x).outq = s.outq := rfl
@[simp] theorem State.setCtx_keys (s : State) (x : Ctx) : (s.setCtx x).keys = s.keys := rfl
@[simp] theorem State.setCtx_retired (s : State) (x : Ctx) : (s.setCtx x).retired = s.retired := rfl
@[simp] theorem State.setCtx_counters (s : State) (x : Ctx) : (s.setCtx x).counters = s.counters := rfl
@[simp] theorem State.setCtx_seq (s : State) (x : Ctx) : (s.setCtx x).seq = s.seq := rfl
@[simp] theorem State.setCtx_nextId (s : State) (x : Ctx) : (s.setCtx x).nextId = s.nextId := rfl
@[simp] theorem State.setCtx_fresh (s : State) (x : Ctx) : (s.setCtx x).fresh = s.fresh := rfl
@[simp] theorem State.setCtx_pubs (s : State) (x : Ctx) : (s.setCtx x).pubs = s.pubs := rfl
@[simp] theorem State.setCtx_agenda (s : State) (x : Ctx) : (s.setCtx x).agenda = s.agenda := rfl
@[simp] theorem State.setCtx_auto (s : State) (x : Ctx) : (s.setCtx x).auto = s.auto := rfl

/-! ### Changing slots -/

@[simp] theorem State.mapSlots_cycle (s : State) (p : Slot → Bool) (f : Slot → Slot) : (s.mapSlots p f).cycle = s.cycle := rfl
@[simp] theorem State.mapSlots_mem (s : State) (p : Slot → Bool) (f : Slot → Slot) : (s.mapSlots p f).mem = s.mem := rfl
@[simp] theorem State.mapSlots_full (s : State) (p : Slot → Bool) (f : Slot → Slot) : (s.mapSlots p f).full = s.full := rfl
@[simp] theorem State.mapSlots_sbuf (s : State) (p : Slot → Bool) (f : Slot → Slot) : (s.mapSlots p f).sbuf = s.sbuf := rfl
@[simp] theorem State.mapSlots_flight (s : State) (p : Slot → Bool) (f : Slot → Slot) : (s.mapSlots p f).flight = s.flight := rfl
@[simp] theorem State.mapSlots_outb (s : State) (p : Slot → Bool) (f : Slot → Slot) : (s.mapSlots p f).outb = s.outb := rfl
@[simp] theorem State.mapSlots_feq (s : State) (p : Slot → Bool) (f : Slot → Slot) : (s.mapSlots p f).feq = s.feq := rfl
@[simp] theorem State.mapSlots_waking (s : State) (p : Slot → Bool) (f : Slot → Slot) : (s.mapSlots p f).waking = s.waking := rfl
@[simp] theorem State.mapSlots_early (s : State) (p : Slot → Bool) (f : Slot → Slot) : (s.mapSlots p f).early = s.early := rfl
@[simp] theorem State.mapSlots_errs (s : State) (p : Slot → Bool) (f : Slot → Slot) : (s.mapSlots p f).errs = s.errs := rfl
@[simp] theorem State.mapSlots_tlb (s : State) (p : Slot → Bool) (f : Slot → Slot) : (s.mapSlots p f).tlb = s.tlb := rfl
@[simp] theorem State.mapSlots_walks (s : State) (p : Slot → Bool) (f : Slot → Slot) : (s.mapSlots p f).walks = s.walks := rfl
@[simp] theorem State.mapSlots_icache (s : State) (p : Slot → Bool) (f : Slot → Slot) : (s.mapSlots p f).icache = s.icache := rfl
@[simp] theorem State.mapSlots_deques (s : State) (p : Slot → Bool) (f : Slot → Slot) : (s.mapSlots p f).deques = s.deques := rfl
@[simp] theorem State.mapSlots_chans (s : State) (p : Slot → Bool) (f : Slot → Slot) : (s.mapSlots p f).chans = s.chans := rfl
@[simp] theorem State.mapSlots_xfers (s : State) (p : Slot → Bool) (f : Slot → Slot) : (s.mapSlots p f).xfers = s.xfers := rfl
@[simp] theorem State.mapSlots_caddies (s : State) (p : Slot → Bool) (f : Slot → Slot) : (s.mapSlots p f).caddies = s.caddies := rfl
@[simp] theorem State.mapSlots_msgs (s : State) (p : Slot → Bool) (f : Slot → Slot) : (s.mapSlots p f).msgs = s.msgs := rfl
@[simp] theorem State.mapSlots_colls (s : State) (p : Slot → Bool) (f : Slot → Slot) : (s.mapSlots p f).colls = s.colls := rfl
@[simp] theorem State.mapSlots_matrix (s : State) (p : Slot → Bool) (f : Slot → Slot) : (s.mapSlots p f).matrix = s.matrix := rfl
@[simp] theorem State.mapSlots_huddles (s : State) (p : Slot → Bool) (f : Slot → Slot) : (s.mapSlots p f).huddles = s.huddles := rfl
@[simp] theorem State.mapSlots_fams (s : State) (p : Slot → Bool) (f : Slot → Slot) : (s.mapSlots p f).fams = s.fams := rfl
@[simp] theorem State.mapSlots_hreqs (s : State) (p : Slot → Bool) (f : Slot → Slot) : (s.mapSlots p f).hreqs = s.hreqs := rfl
@[simp] theorem State.mapSlots_hnotes (s : State) (p : Slot → Bool) (f : Slot → Slot) : (s.mapSlots p f).hnotes = s.hnotes := rfl
@[simp] theorem State.mapSlots_ctxs (s : State) (p : Slot → Bool) (f : Slot → Slot) : (s.mapSlots p f).ctxs = s.ctxs := rfl
@[simp] theorem State.mapSlots_saved (s : State) (p : Slot → Bool) (f : Slot → Slot) : (s.mapSlots p f).saved = s.saved := rfl
@[simp] theorem State.mapSlots_commits (s : State) (p : Slot → Bool) (f : Slot → Slot) : (s.mapSlots p f).commits = s.commits := rfl
@[simp] theorem State.mapSlots_commission (s : State) (p : Slot → Bool) (f : Slot → Slot) : (s.mapSlots p f).commission = s.commission := rfl
@[simp] theorem State.mapSlots_beacon (s : State) (p : Slot → Bool) (f : Slot → Slot) : (s.mapSlots p f).beacon = s.beacon := rfl
@[simp] theorem State.mapSlots_bootTime (s : State) (p : Slot → Bool) (f : Slot → Slot) : (s.mapSlots p f).bootTime = s.bootTime := rfl
@[simp] theorem State.mapSlots_redemption (s : State) (p : Slot → Bool) (f : Slot → Slot) : (s.mapSlots p f).redemption = s.redemption := rfl
@[simp] theorem State.mapSlots_claims (s : State) (p : Slot → Bool) (f : Slot → Slot) : (s.mapSlots p f).claims = s.claims := rfl
@[simp] theorem State.mapSlots_spentOut (s : State) (p : Slot → Bool) (f : Slot → Slot) : (s.mapSlots p f).spentOut = s.spentOut := rfl
@[simp] theorem State.mapSlots_nonces (s : State) (p : Slot → Bool) (f : Slot → Slot) : (s.mapSlots p f).nonces = s.nonces := rfl
@[simp] theorem State.mapSlots_dumps (s : State) (p : Slot → Bool) (f : Slot → Slot) : (s.mapSlots p f).dumps = s.dumps := rfl
@[simp] theorem State.mapSlots_replies (s : State) (p : Slot → Bool) (f : Slot → Slot) : (s.mapSlots p f).replies = s.replies := rfl
@[simp] theorem State.mapSlots_notices (s : State) (p : Slot → Bool) (f : Slot → Slot) : (s.mapSlots p f).notices = s.notices := rfl
@[simp] theorem State.mapSlots_dbg (s : State) (p : Slot → Bool) (f : Slot → Slot) : (s.mapSlots p f).dbg = s.dbg := rfl
@[simp] theorem State.mapSlots_dbgResume (s : State) (p : Slot → Bool) (f : Slot → Slot) : (s.mapSlots p f).dbgResume = s.dbgResume := rfl
@[simp] theorem State.mapSlots_cross (s : State) (p : Slot → Bool) (f : Slot → Slot) : (s.mapSlots p f).cross = s.cross := rfl
@[simp] theorem State.mapSlots_powerAt (s : State) (p : Slot → Bool) (f : Slot → Slot) : (s.mapSlots p f).powerAt = s.powerAt := rfl
@[simp] theorem State.mapSlots_links (s : State) (p : Slot → Bool) (f : Slot → Slot) : (s.mapSlots p f).links = s.links := rfl
@[simp] theorem State.mapSlots_inbox (s : State) (p : Slot → Bool) (f : Slot → Slot) : (s.mapSlots p f).inbox = s.inbox := rfl
@[simp] theorem State.mapSlots_refEvents (s : State) (p : Slot → Bool) (f : Slot → Slot) : (s.mapSlots p f).refEvents = s.refEvents := rfl
@[simp] theorem State.mapSlots_outq (s : State) (p : Slot → Bool) (f : Slot → Slot) : (s.mapSlots p f).outq = s.outq := rfl
@[simp] theorem State.mapSlots_keys (s : State) (p : Slot → Bool) (f : Slot → Slot) : (s.mapSlots p f).keys = s.keys := rfl
@[simp] theorem State.mapSlots_retired (s : State) (p : Slot → Bool) (f : Slot → Slot) : (s.mapSlots p f).retired = s.retired := rfl
@[simp] theorem State.mapSlots_counters (s : State) (p : Slot → Bool) (f : Slot → Slot) : (s.mapSlots p f).counters = s.counters := rfl
@[simp] theorem State.mapSlots_seq (s : State) (p : Slot → Bool) (f : Slot → Slot) : (s.mapSlots p f).seq = s.seq := rfl
@[simp] theorem State.mapSlots_nextId (s : State) (p : Slot → Bool) (f : Slot → Slot) : (s.mapSlots p f).nextId = s.nextId := rfl
@[simp] theorem State.mapSlots_fresh (s : State) (p : Slot → Bool) (f : Slot → Slot) : (s.mapSlots p f).fresh = s.fresh := rfl
@[simp] theorem State.mapSlots_pubs (s : State) (p : Slot → Bool) (f : Slot → Slot) : (s.mapSlots p f).pubs = s.pubs := rfl
@[simp] theorem State.mapSlots_agenda (s : State) (p : Slot → Bool) (f : Slot → Slot) : (s.mapSlots p f).agenda = s.agenda := rfl
@[simp] theorem State.mapSlots_auto (s : State) (p : Slot → Bool) (f : Slot → Slot) : (s.mapSlots p f).auto = s.auto := rfl

/-! ### Full/empty bits -/

@[simp] theorem State.setFull_cur (s : State) (k : Nat) (b : Bool) : (s.setFull k b).cur = s.cur := rfl
@[simp] theorem State.setFull_slots (s : State) (k : Nat) (b : Bool) : (s.setFull k b).slots = s.slots := rfl
@[simp] theorem State.setFull_cycle (s : State) (k : Nat) (b : Bool) : (s.setFull k b).cycle = s.cycle := rfl
@[simp] theorem State.setFull_mem (s : State) (k : Nat) (b : Bool) : (s.setFull k b).mem = s.mem := rfl
@[simp] theorem State.setFull_sbuf (s : State) (k : Nat) (b : Bool) : (s.setFull k b).sbuf = s.sbuf := rfl
@[simp] theorem State.setFull_flight (s : State) (k : Nat) (b : Bool) : (s.setFull k b).flight = s.flight := rfl
@[simp] theorem State.setFull_outb (s : State) (k : Nat) (b : Bool) : (s.setFull k b).outb = s.outb := rfl
@[simp] theorem State.setFull_feq (s : State) (k : Nat) (b : Bool) : (s.setFull k b).feq = s.feq := rfl
@[simp] theorem State.setFull_waking (s : State) (k : Nat) (b : Bool) : (s.setFull k b).waking = s.waking := rfl
@[simp] theorem State.setFull_early (s : State) (k : Nat) (b : Bool) : (s.setFull k b).early = s.early := rfl
@[simp] theorem State.setFull_errs (s : State) (k : Nat) (b : Bool) : (s.setFull k b).errs = s.errs := rfl
@[simp] theorem State.setFull_tlb (s : State) (k : Nat) (b : Bool) : (s.setFull k b).tlb = s.tlb := rfl
@[simp] theorem State.setFull_walks (s : State) (k : Nat) (b : Bool) : (s.setFull k b).walks = s.walks := rfl
@[simp] theorem State.setFull_icache (s : State) (k : Nat) (b : Bool) : (s.setFull k b).icache = s.icache := rfl
@[simp] theorem State.setFull_deques (s : State) (k : Nat) (b : Bool) : (s.setFull k b).deques = s.deques := rfl
@[simp] theorem State.setFull_chans (s : State) (k : Nat) (b : Bool) : (s.setFull k b).chans = s.chans := rfl
@[simp] theorem State.setFull_xfers (s : State) (k : Nat) (b : Bool) : (s.setFull k b).xfers = s.xfers := rfl
@[simp] theorem State.setFull_caddies (s : State) (k : Nat) (b : Bool) : (s.setFull k b).caddies = s.caddies := rfl
@[simp] theorem State.setFull_msgs (s : State) (k : Nat) (b : Bool) : (s.setFull k b).msgs = s.msgs := rfl
@[simp] theorem State.setFull_colls (s : State) (k : Nat) (b : Bool) : (s.setFull k b).colls = s.colls := rfl
@[simp] theorem State.setFull_matrix (s : State) (k : Nat) (b : Bool) : (s.setFull k b).matrix = s.matrix := rfl
@[simp] theorem State.setFull_huddles (s : State) (k : Nat) (b : Bool) : (s.setFull k b).huddles = s.huddles := rfl
@[simp] theorem State.setFull_fams (s : State) (k : Nat) (b : Bool) : (s.setFull k b).fams = s.fams := rfl
@[simp] theorem State.setFull_hreqs (s : State) (k : Nat) (b : Bool) : (s.setFull k b).hreqs = s.hreqs := rfl
@[simp] theorem State.setFull_hnotes (s : State) (k : Nat) (b : Bool) : (s.setFull k b).hnotes = s.hnotes := rfl
@[simp] theorem State.setFull_ctxs (s : State) (k : Nat) (b : Bool) : (s.setFull k b).ctxs = s.ctxs := rfl
@[simp] theorem State.setFull_saved (s : State) (k : Nat) (b : Bool) : (s.setFull k b).saved = s.saved := rfl
@[simp] theorem State.setFull_commits (s : State) (k : Nat) (b : Bool) : (s.setFull k b).commits = s.commits := rfl
@[simp] theorem State.setFull_commission (s : State) (k : Nat) (b : Bool) : (s.setFull k b).commission = s.commission := rfl
@[simp] theorem State.setFull_beacon (s : State) (k : Nat) (b : Bool) : (s.setFull k b).beacon = s.beacon := rfl
@[simp] theorem State.setFull_bootTime (s : State) (k : Nat) (b : Bool) : (s.setFull k b).bootTime = s.bootTime := rfl
@[simp] theorem State.setFull_redemption (s : State) (k : Nat) (b : Bool) : (s.setFull k b).redemption = s.redemption := rfl
@[simp] theorem State.setFull_claims (s : State) (k : Nat) (b : Bool) : (s.setFull k b).claims = s.claims := rfl
@[simp] theorem State.setFull_spentOut (s : State) (k : Nat) (b : Bool) : (s.setFull k b).spentOut = s.spentOut := rfl
@[simp] theorem State.setFull_nonces (s : State) (k : Nat) (b : Bool) : (s.setFull k b).nonces = s.nonces := rfl
@[simp] theorem State.setFull_dumps (s : State) (k : Nat) (b : Bool) : (s.setFull k b).dumps = s.dumps := rfl
@[simp] theorem State.setFull_replies (s : State) (k : Nat) (b : Bool) : (s.setFull k b).replies = s.replies := rfl
@[simp] theorem State.setFull_notices (s : State) (k : Nat) (b : Bool) : (s.setFull k b).notices = s.notices := rfl
@[simp] theorem State.setFull_dbg (s : State) (k : Nat) (b : Bool) : (s.setFull k b).dbg = s.dbg := rfl
@[simp] theorem State.setFull_dbgResume (s : State) (k : Nat) (b : Bool) : (s.setFull k b).dbgResume = s.dbgResume := rfl
@[simp] theorem State.setFull_cross (s : State) (k : Nat) (b : Bool) : (s.setFull k b).cross = s.cross := rfl
@[simp] theorem State.setFull_powerAt (s : State) (k : Nat) (b : Bool) : (s.setFull k b).powerAt = s.powerAt := rfl
@[simp] theorem State.setFull_links (s : State) (k : Nat) (b : Bool) : (s.setFull k b).links = s.links := rfl
@[simp] theorem State.setFull_inbox (s : State) (k : Nat) (b : Bool) : (s.setFull k b).inbox = s.inbox := rfl
@[simp] theorem State.setFull_refEvents (s : State) (k : Nat) (b : Bool) : (s.setFull k b).refEvents = s.refEvents := rfl
@[simp] theorem State.setFull_outq (s : State) (k : Nat) (b : Bool) : (s.setFull k b).outq = s.outq := rfl
@[simp] theorem State.setFull_keys (s : State) (k : Nat) (b : Bool) : (s.setFull k b).keys = s.keys := rfl
@[simp] theorem State.setFull_retired (s : State) (k : Nat) (b : Bool) : (s.setFull k b).retired = s.retired := rfl
@[simp] theorem State.setFull_counters (s : State) (k : Nat) (b : Bool) : (s.setFull k b).counters = s.counters := rfl
@[simp] theorem State.setFull_seq (s : State) (k : Nat) (b : Bool) : (s.setFull k b).seq = s.seq := rfl
@[simp] theorem State.setFull_nextId (s : State) (k : Nat) (b : Bool) : (s.setFull k b).nextId = s.nextId := rfl
@[simp] theorem State.setFull_fresh (s : State) (k : Nat) (b : Bool) : (s.setFull k b).fresh = s.fresh := rfl
@[simp] theorem State.setFull_pubs (s : State) (k : Nat) (b : Bool) : (s.setFull k b).pubs = s.pubs := rfl
@[simp] theorem State.setFull_agenda (s : State) (k : Nat) (b : Bool) : (s.setFull k b).agenda = s.agenda := rfl
@[simp] theorem State.setFull_auto (s : State) (k : Nat) (b : Bool) : (s.setFull k b).auto = s.auto := rfl

/-! ### Monitors -/

@[simp] theorem State.trigger_cycle (s : State) (bs : List Nat) : (s.trigger bs).cycle = s.cycle := rfl
@[simp] theorem State.trigger_mem (s : State) (bs : List Nat) : (s.trigger bs).mem = s.mem := rfl
@[simp] theorem State.trigger_full (s : State) (bs : List Nat) : (s.trigger bs).full = s.full := rfl
@[simp] theorem State.trigger_sbuf (s : State) (bs : List Nat) : (s.trigger bs).sbuf = s.sbuf := rfl
@[simp] theorem State.trigger_flight (s : State) (bs : List Nat) : (s.trigger bs).flight = s.flight := rfl
@[simp] theorem State.trigger_outb (s : State) (bs : List Nat) : (s.trigger bs).outb = s.outb := rfl
@[simp] theorem State.trigger_feq (s : State) (bs : List Nat) : (s.trigger bs).feq = s.feq := rfl
@[simp] theorem State.trigger_waking (s : State) (bs : List Nat) : (s.trigger bs).waking = s.waking := rfl
@[simp] theorem State.trigger_early (s : State) (bs : List Nat) : (s.trigger bs).early = s.early := rfl
@[simp] theorem State.trigger_errs (s : State) (bs : List Nat) : (s.trigger bs).errs = s.errs := rfl
@[simp] theorem State.trigger_tlb (s : State) (bs : List Nat) : (s.trigger bs).tlb = s.tlb := rfl
@[simp] theorem State.trigger_walks (s : State) (bs : List Nat) : (s.trigger bs).walks = s.walks := rfl
@[simp] theorem State.trigger_icache (s : State) (bs : List Nat) : (s.trigger bs).icache = s.icache := rfl
@[simp] theorem State.trigger_deques (s : State) (bs : List Nat) : (s.trigger bs).deques = s.deques := rfl
@[simp] theorem State.trigger_chans (s : State) (bs : List Nat) : (s.trigger bs).chans = s.chans := rfl
@[simp] theorem State.trigger_xfers (s : State) (bs : List Nat) : (s.trigger bs).xfers = s.xfers := rfl
@[simp] theorem State.trigger_caddies (s : State) (bs : List Nat) : (s.trigger bs).caddies = s.caddies := rfl
@[simp] theorem State.trigger_msgs (s : State) (bs : List Nat) : (s.trigger bs).msgs = s.msgs := rfl
@[simp] theorem State.trigger_colls (s : State) (bs : List Nat) : (s.trigger bs).colls = s.colls := rfl
@[simp] theorem State.trigger_matrix (s : State) (bs : List Nat) : (s.trigger bs).matrix = s.matrix := rfl
@[simp] theorem State.trigger_huddles (s : State) (bs : List Nat) : (s.trigger bs).huddles = s.huddles := rfl
@[simp] theorem State.trigger_fams (s : State) (bs : List Nat) : (s.trigger bs).fams = s.fams := rfl
@[simp] theorem State.trigger_hreqs (s : State) (bs : List Nat) : (s.trigger bs).hreqs = s.hreqs := rfl
@[simp] theorem State.trigger_hnotes (s : State) (bs : List Nat) : (s.trigger bs).hnotes = s.hnotes := rfl
@[simp] theorem State.trigger_ctxs (s : State) (bs : List Nat) : (s.trigger bs).ctxs = s.ctxs := rfl
@[simp] theorem State.trigger_saved (s : State) (bs : List Nat) : (s.trigger bs).saved = s.saved := rfl
@[simp] theorem State.trigger_commits (s : State) (bs : List Nat) : (s.trigger bs).commits = s.commits := rfl
@[simp] theorem State.trigger_commission (s : State) (bs : List Nat) : (s.trigger bs).commission = s.commission := rfl
@[simp] theorem State.trigger_beacon (s : State) (bs : List Nat) : (s.trigger bs).beacon = s.beacon := rfl
@[simp] theorem State.trigger_bootTime (s : State) (bs : List Nat) : (s.trigger bs).bootTime = s.bootTime := rfl
@[simp] theorem State.trigger_redemption (s : State) (bs : List Nat) : (s.trigger bs).redemption = s.redemption := rfl
@[simp] theorem State.trigger_claims (s : State) (bs : List Nat) : (s.trigger bs).claims = s.claims := rfl
@[simp] theorem State.trigger_spentOut (s : State) (bs : List Nat) : (s.trigger bs).spentOut = s.spentOut := rfl
@[simp] theorem State.trigger_nonces (s : State) (bs : List Nat) : (s.trigger bs).nonces = s.nonces := rfl
@[simp] theorem State.trigger_dumps (s : State) (bs : List Nat) : (s.trigger bs).dumps = s.dumps := rfl
@[simp] theorem State.trigger_replies (s : State) (bs : List Nat) : (s.trigger bs).replies = s.replies := rfl
@[simp] theorem State.trigger_notices (s : State) (bs : List Nat) : (s.trigger bs).notices = s.notices := rfl
@[simp] theorem State.trigger_dbg (s : State) (bs : List Nat) : (s.trigger bs).dbg = s.dbg := rfl
@[simp] theorem State.trigger_dbgResume (s : State) (bs : List Nat) : (s.trigger bs).dbgResume = s.dbgResume := rfl
@[simp] theorem State.trigger_cross (s : State) (bs : List Nat) : (s.trigger bs).cross = s.cross := rfl
@[simp] theorem State.trigger_powerAt (s : State) (bs : List Nat) : (s.trigger bs).powerAt = s.powerAt := rfl
@[simp] theorem State.trigger_links (s : State) (bs : List Nat) : (s.trigger bs).links = s.links := rfl
@[simp] theorem State.trigger_inbox (s : State) (bs : List Nat) : (s.trigger bs).inbox = s.inbox := rfl
@[simp] theorem State.trigger_refEvents (s : State) (bs : List Nat) : (s.trigger bs).refEvents = s.refEvents := rfl
@[simp] theorem State.trigger_outq (s : State) (bs : List Nat) : (s.trigger bs).outq = s.outq := rfl
@[simp] theorem State.trigger_keys (s : State) (bs : List Nat) : (s.trigger bs).keys = s.keys := rfl
@[simp] theorem State.trigger_retired (s : State) (bs : List Nat) : (s.trigger bs).retired = s.retired := rfl
@[simp] theorem State.trigger_counters (s : State) (bs : List Nat) : (s.trigger bs).counters = s.counters := rfl
@[simp] theorem State.trigger_seq (s : State) (bs : List Nat) : (s.trigger bs).seq = s.seq := rfl
@[simp] theorem State.trigger_nextId (s : State) (bs : List Nat) : (s.trigger bs).nextId = s.nextId := rfl
@[simp] theorem State.trigger_fresh (s : State) (bs : List Nat) : (s.trigger bs).fresh = s.fresh := rfl
@[simp] theorem State.trigger_pubs (s : State) (bs : List Nat) : (s.trigger bs).pubs = s.pubs := rfl
@[simp] theorem State.trigger_agenda (s : State) (bs : List Nat) : (s.trigger bs).agenda = s.agenda := rfl
@[simp] theorem State.trigger_auto (s : State) (bs : List Nat) : (s.trigger bs).auto = s.auto := rfl

/-! ### Putting a slot back -/

@[simp] theorem State.setSlot_cycle (s : State) (c : Slot) : (s.setSlot c).cycle = s.cycle := by
  unfold State.setSlot; split
  · rfl
  · split <;> rfl
@[simp] theorem State.setSlot_mem (s : State) (c : Slot) : (s.setSlot c).mem = s.mem := by
  unfold State.setSlot; split
  · rfl
  · split <;> rfl
@[simp] theorem State.setSlot_full (s : State) (c : Slot) : (s.setSlot c).full = s.full := by
  unfold State.setSlot; split
  · rfl
  · split <;> rfl
@[simp] theorem State.setSlot_sbuf (s : State) (c : Slot) : (s.setSlot c).sbuf = s.sbuf := by
  unfold State.setSlot; split
  · rfl
  · split <;> rfl
@[simp] theorem State.setSlot_flight (s : State) (c : Slot) : (s.setSlot c).flight = s.flight := by
  unfold State.setSlot; split
  · rfl
  · split <;> rfl
@[simp] theorem State.setSlot_outb (s : State) (c : Slot) : (s.setSlot c).outb = s.outb := by
  unfold State.setSlot; split
  · rfl
  · split <;> rfl
@[simp] theorem State.setSlot_feq (s : State) (c : Slot) : (s.setSlot c).feq = s.feq := by
  unfold State.setSlot; split
  · rfl
  · split <;> rfl
@[simp] theorem State.setSlot_waking (s : State) (c : Slot) : (s.setSlot c).waking = s.waking := by
  unfold State.setSlot; split
  · rfl
  · split <;> rfl
@[simp] theorem State.setSlot_early (s : State) (c : Slot) : (s.setSlot c).early = s.early := by
  unfold State.setSlot; split
  · rfl
  · split <;> rfl
@[simp] theorem State.setSlot_errs (s : State) (c : Slot) : (s.setSlot c).errs = s.errs := by
  unfold State.setSlot; split
  · rfl
  · split <;> rfl
@[simp] theorem State.setSlot_tlb (s : State) (c : Slot) : (s.setSlot c).tlb = s.tlb := by
  unfold State.setSlot; split
  · rfl
  · split <;> rfl
@[simp] theorem State.setSlot_walks (s : State) (c : Slot) : (s.setSlot c).walks = s.walks := by
  unfold State.setSlot; split
  · rfl
  · split <;> rfl
@[simp] theorem State.setSlot_icache (s : State) (c : Slot) : (s.setSlot c).icache = s.icache := by
  unfold State.setSlot; split
  · rfl
  · split <;> rfl
@[simp] theorem State.setSlot_deques (s : State) (c : Slot) : (s.setSlot c).deques = s.deques := by
  unfold State.setSlot; split
  · rfl
  · split <;> rfl
@[simp] theorem State.setSlot_chans (s : State) (c : Slot) : (s.setSlot c).chans = s.chans := by
  unfold State.setSlot; split
  · rfl
  · split <;> rfl
@[simp] theorem State.setSlot_xfers (s : State) (c : Slot) : (s.setSlot c).xfers = s.xfers := by
  unfold State.setSlot; split
  · rfl
  · split <;> rfl
@[simp] theorem State.setSlot_caddies (s : State) (c : Slot) : (s.setSlot c).caddies = s.caddies := by
  unfold State.setSlot; split
  · rfl
  · split <;> rfl
@[simp] theorem State.setSlot_msgs (s : State) (c : Slot) : (s.setSlot c).msgs = s.msgs := by
  unfold State.setSlot; split
  · rfl
  · split <;> rfl
@[simp] theorem State.setSlot_colls (s : State) (c : Slot) : (s.setSlot c).colls = s.colls := by
  unfold State.setSlot; split
  · rfl
  · split <;> rfl
@[simp] theorem State.setSlot_matrix (s : State) (c : Slot) : (s.setSlot c).matrix = s.matrix := by
  unfold State.setSlot; split
  · rfl
  · split <;> rfl
@[simp] theorem State.setSlot_huddles (s : State) (c : Slot) : (s.setSlot c).huddles = s.huddles := by
  unfold State.setSlot; split
  · rfl
  · split <;> rfl
@[simp] theorem State.setSlot_fams (s : State) (c : Slot) : (s.setSlot c).fams = s.fams := by
  unfold State.setSlot; split
  · rfl
  · split <;> rfl
@[simp] theorem State.setSlot_hreqs (s : State) (c : Slot) : (s.setSlot c).hreqs = s.hreqs := by
  unfold State.setSlot; split
  · rfl
  · split <;> rfl
@[simp] theorem State.setSlot_hnotes (s : State) (c : Slot) : (s.setSlot c).hnotes = s.hnotes := by
  unfold State.setSlot; split
  · rfl
  · split <;> rfl
@[simp] theorem State.setSlot_ctxs (s : State) (c : Slot) : (s.setSlot c).ctxs = s.ctxs := by
  unfold State.setSlot; split
  · rfl
  · split <;> rfl
@[simp] theorem State.setSlot_saved (s : State) (c : Slot) : (s.setSlot c).saved = s.saved := by
  unfold State.setSlot; split
  · rfl
  · split <;> rfl
@[simp] theorem State.setSlot_commits (s : State) (c : Slot) : (s.setSlot c).commits = s.commits := by
  unfold State.setSlot; split
  · rfl
  · split <;> rfl
@[simp] theorem State.setSlot_commission (s : State) (c : Slot) : (s.setSlot c).commission = s.commission := by
  unfold State.setSlot; split
  · rfl
  · split <;> rfl
@[simp] theorem State.setSlot_beacon (s : State) (c : Slot) : (s.setSlot c).beacon = s.beacon := by
  unfold State.setSlot; split
  · rfl
  · split <;> rfl
@[simp] theorem State.setSlot_bootTime (s : State) (c : Slot) : (s.setSlot c).bootTime = s.bootTime := by
  unfold State.setSlot; split
  · rfl
  · split <;> rfl
@[simp] theorem State.setSlot_redemption (s : State) (c : Slot) : (s.setSlot c).redemption = s.redemption := by
  unfold State.setSlot; split
  · rfl
  · split <;> rfl
@[simp] theorem State.setSlot_claims (s : State) (c : Slot) : (s.setSlot c).claims = s.claims := by
  unfold State.setSlot; split
  · rfl
  · split <;> rfl
@[simp] theorem State.setSlot_spentOut (s : State) (c : Slot) : (s.setSlot c).spentOut = s.spentOut := by
  unfold State.setSlot; split
  · rfl
  · split <;> rfl
@[simp] theorem State.setSlot_nonces (s : State) (c : Slot) : (s.setSlot c).nonces = s.nonces := by
  unfold State.setSlot; split
  · rfl
  · split <;> rfl
@[simp] theorem State.setSlot_dumps (s : State) (c : Slot) : (s.setSlot c).dumps = s.dumps := by
  unfold State.setSlot; split
  · rfl
  · split <;> rfl
@[simp] theorem State.setSlot_replies (s : State) (c : Slot) : (s.setSlot c).replies = s.replies := by
  unfold State.setSlot; split
  · rfl
  · split <;> rfl
@[simp] theorem State.setSlot_notices (s : State) (c : Slot) : (s.setSlot c).notices = s.notices := by
  unfold State.setSlot; split
  · rfl
  · split <;> rfl
@[simp] theorem State.setSlot_dbg (s : State) (c : Slot) : (s.setSlot c).dbg = s.dbg := by
  unfold State.setSlot; split
  · rfl
  · split <;> rfl
@[simp] theorem State.setSlot_dbgResume (s : State) (c : Slot) : (s.setSlot c).dbgResume = s.dbgResume := by
  unfold State.setSlot; split
  · rfl
  · split <;> rfl
@[simp] theorem State.setSlot_cross (s : State) (c : Slot) : (s.setSlot c).cross = s.cross := by
  unfold State.setSlot; split
  · rfl
  · split <;> rfl
@[simp] theorem State.setSlot_powerAt (s : State) (c : Slot) : (s.setSlot c).powerAt = s.powerAt := by
  unfold State.setSlot; split
  · rfl
  · split <;> rfl
@[simp] theorem State.setSlot_links (s : State) (c : Slot) : (s.setSlot c).links = s.links := by
  unfold State.setSlot; split
  · rfl
  · split <;> rfl
@[simp] theorem State.setSlot_inbox (s : State) (c : Slot) : (s.setSlot c).inbox = s.inbox := by
  unfold State.setSlot; split
  · rfl
  · split <;> rfl
@[simp] theorem State.setSlot_refEvents (s : State) (c : Slot) : (s.setSlot c).refEvents = s.refEvents := by
  unfold State.setSlot; split
  · rfl
  · split <;> rfl
@[simp] theorem State.setSlot_outq (s : State) (c : Slot) : (s.setSlot c).outq = s.outq := by
  unfold State.setSlot; split
  · rfl
  · split <;> rfl
@[simp] theorem State.setSlot_keys (s : State) (c : Slot) : (s.setSlot c).keys = s.keys := by
  unfold State.setSlot; split
  · rfl
  · split <;> rfl
@[simp] theorem State.setSlot_retired (s : State) (c : Slot) : (s.setSlot c).retired = s.retired := by
  unfold State.setSlot; split
  · rfl
  · split <;> rfl
@[simp] theorem State.setSlot_counters (s : State) (c : Slot) : (s.setSlot c).counters = s.counters := by
  unfold State.setSlot; split
  · rfl
  · split <;> rfl
@[simp] theorem State.setSlot_seq (s : State) (c : Slot) : (s.setSlot c).seq = s.seq := by
  unfold State.setSlot; split
  · rfl
  · split <;> rfl
@[simp] theorem State.setSlot_nextId (s : State) (c : Slot) : (s.setSlot c).nextId = s.nextId := by
  unfold State.setSlot; split
  · rfl
  · split <;> rfl
@[simp] theorem State.setSlot_fresh (s : State) (c : Slot) : (s.setSlot c).fresh = s.fresh := by
  unfold State.setSlot; split
  · rfl
  · split <;> rfl
@[simp] theorem State.setSlot_pubs (s : State) (c : Slot) : (s.setSlot c).pubs = s.pubs := by
  unfold State.setSlot; split
  · rfl
  · split <;> rfl
@[simp] theorem State.setSlot_agenda (s : State) (c : Slot) : (s.setSlot c).agenda = s.agenda := by
  unfold State.setSlot; split
  · rfl
  · split <;> rfl
@[simp] theorem State.setSlot_auto (s : State) (c : Slot) : (s.setSlot c).auto = s.auto := by
  unfold State.setSlot; split
  · rfl
  · split <;> rfl

/-! ### Counting -/

@[simp] theorem State.count_cur (s : State) (x u e n : Nat) : (s.count x u e n).cur = s.cur := by
  unfold State.count; split <;> rfl
@[simp] theorem State.count_slots (s : State) (x u e n : Nat) : (s.count x u e n).slots = s.slots := by
  unfold State.count; split <;> rfl
@[simp] theorem State.count_cycle (s : State) (x u e n : Nat) : (s.count x u e n).cycle = s.cycle := by
  unfold State.count; split <;> rfl
@[simp] theorem State.count_mem (s : State) (x u e n : Nat) : (s.count x u e n).mem = s.mem := by
  unfold State.count; split <;> rfl
@[simp] theorem State.count_full (s : State) (x u e n : Nat) : (s.count x u e n).full = s.full := by
  unfold State.count; split <;> rfl
@[simp] theorem State.count_sbuf (s : State) (x u e n : Nat) : (s.count x u e n).sbuf = s.sbuf := by
  unfold State.count; split <;> rfl
@[simp] theorem State.count_flight (s : State) (x u e n : Nat) : (s.count x u e n).flight = s.flight := by
  unfold State.count; split <;> rfl
@[simp] theorem State.count_outb (s : State) (x u e n : Nat) : (s.count x u e n).outb = s.outb := by
  unfold State.count; split <;> rfl
@[simp] theorem State.count_feq (s : State) (x u e n : Nat) : (s.count x u e n).feq = s.feq := by
  unfold State.count; split <;> rfl
@[simp] theorem State.count_waking (s : State) (x u e n : Nat) : (s.count x u e n).waking = s.waking := by
  unfold State.count; split <;> rfl
@[simp] theorem State.count_early (s : State) (x u e n : Nat) : (s.count x u e n).early = s.early := by
  unfold State.count; split <;> rfl
@[simp] theorem State.count_errs (s : State) (x u e n : Nat) : (s.count x u e n).errs = s.errs := by
  unfold State.count; split <;> rfl
@[simp] theorem State.count_tlb (s : State) (x u e n : Nat) : (s.count x u e n).tlb = s.tlb := by
  unfold State.count; split <;> rfl
@[simp] theorem State.count_walks (s : State) (x u e n : Nat) : (s.count x u e n).walks = s.walks := by
  unfold State.count; split <;> rfl
@[simp] theorem State.count_icache (s : State) (x u e n : Nat) : (s.count x u e n).icache = s.icache := by
  unfold State.count; split <;> rfl
@[simp] theorem State.count_deques (s : State) (x u e n : Nat) : (s.count x u e n).deques = s.deques := by
  unfold State.count; split <;> rfl
@[simp] theorem State.count_chans (s : State) (x u e n : Nat) : (s.count x u e n).chans = s.chans := by
  unfold State.count; split <;> rfl
@[simp] theorem State.count_xfers (s : State) (x u e n : Nat) : (s.count x u e n).xfers = s.xfers := by
  unfold State.count; split <;> rfl
@[simp] theorem State.count_caddies (s : State) (x u e n : Nat) : (s.count x u e n).caddies = s.caddies := by
  unfold State.count; split <;> rfl
@[simp] theorem State.count_msgs (s : State) (x u e n : Nat) : (s.count x u e n).msgs = s.msgs := by
  unfold State.count; split <;> rfl
@[simp] theorem State.count_colls (s : State) (x u e n : Nat) : (s.count x u e n).colls = s.colls := by
  unfold State.count; split <;> rfl
@[simp] theorem State.count_matrix (s : State) (x u e n : Nat) : (s.count x u e n).matrix = s.matrix := by
  unfold State.count; split <;> rfl
@[simp] theorem State.count_huddles (s : State) (x u e n : Nat) : (s.count x u e n).huddles = s.huddles := by
  unfold State.count; split <;> rfl
@[simp] theorem State.count_fams (s : State) (x u e n : Nat) : (s.count x u e n).fams = s.fams := by
  unfold State.count; split <;> rfl
@[simp] theorem State.count_hreqs (s : State) (x u e n : Nat) : (s.count x u e n).hreqs = s.hreqs := by
  unfold State.count; split <;> rfl
@[simp] theorem State.count_hnotes (s : State) (x u e n : Nat) : (s.count x u e n).hnotes = s.hnotes := by
  unfold State.count; split <;> rfl
@[simp] theorem State.count_ctxs (s : State) (x u e n : Nat) : (s.count x u e n).ctxs = s.ctxs := by
  unfold State.count; split <;> rfl
@[simp] theorem State.count_saved (s : State) (x u e n : Nat) : (s.count x u e n).saved = s.saved := by
  unfold State.count; split <;> rfl
@[simp] theorem State.count_commits (s : State) (x u e n : Nat) : (s.count x u e n).commits = s.commits := by
  unfold State.count; split <;> rfl
@[simp] theorem State.count_commission (s : State) (x u e n : Nat) : (s.count x u e n).commission = s.commission := by
  unfold State.count; split <;> rfl
@[simp] theorem State.count_beacon (s : State) (x u e n : Nat) : (s.count x u e n).beacon = s.beacon := by
  unfold State.count; split <;> rfl
@[simp] theorem State.count_bootTime (s : State) (x u e n : Nat) : (s.count x u e n).bootTime = s.bootTime := by
  unfold State.count; split <;> rfl
@[simp] theorem State.count_redemption (s : State) (x u e n : Nat) : (s.count x u e n).redemption = s.redemption := by
  unfold State.count; split <;> rfl
@[simp] theorem State.count_claims (s : State) (x u e n : Nat) : (s.count x u e n).claims = s.claims := by
  unfold State.count; split <;> rfl
@[simp] theorem State.count_spentOut (s : State) (x u e n : Nat) : (s.count x u e n).spentOut = s.spentOut := by
  unfold State.count; split <;> rfl
@[simp] theorem State.count_nonces (s : State) (x u e n : Nat) : (s.count x u e n).nonces = s.nonces := by
  unfold State.count; split <;> rfl
@[simp] theorem State.count_dumps (s : State) (x u e n : Nat) : (s.count x u e n).dumps = s.dumps := by
  unfold State.count; split <;> rfl
@[simp] theorem State.count_replies (s : State) (x u e n : Nat) : (s.count x u e n).replies = s.replies := by
  unfold State.count; split <;> rfl
@[simp] theorem State.count_notices (s : State) (x u e n : Nat) : (s.count x u e n).notices = s.notices := by
  unfold State.count; split <;> rfl
@[simp] theorem State.count_dbg (s : State) (x u e n : Nat) : (s.count x u e n).dbg = s.dbg := by
  unfold State.count; split <;> rfl
@[simp] theorem State.count_dbgResume (s : State) (x u e n : Nat) : (s.count x u e n).dbgResume = s.dbgResume := by
  unfold State.count; split <;> rfl
@[simp] theorem State.count_cross (s : State) (x u e n : Nat) : (s.count x u e n).cross = s.cross := by
  unfold State.count; split <;> rfl
@[simp] theorem State.count_powerAt (s : State) (x u e n : Nat) : (s.count x u e n).powerAt = s.powerAt := by
  unfold State.count; split <;> rfl
@[simp] theorem State.count_links (s : State) (x u e n : Nat) : (s.count x u e n).links = s.links := by
  unfold State.count; split <;> rfl
@[simp] theorem State.count_inbox (s : State) (x u e n : Nat) : (s.count x u e n).inbox = s.inbox := by
  unfold State.count; split <;> rfl
@[simp] theorem State.count_refEvents (s : State) (x u e n : Nat) : (s.count x u e n).refEvents = s.refEvents := by
  unfold State.count; split <;> rfl
@[simp] theorem State.count_outq (s : State) (x u e n : Nat) : (s.count x u e n).outq = s.outq := by
  unfold State.count; split <;> rfl
@[simp] theorem State.count_keys (s : State) (x u e n : Nat) : (s.count x u e n).keys = s.keys := by
  unfold State.count; split <;> rfl
@[simp] theorem State.count_retired (s : State) (x u e n : Nat) : (s.count x u e n).retired = s.retired := by
  unfold State.count; split <;> rfl
@[simp] theorem State.count_seq (s : State) (x u e n : Nat) : (s.count x u e n).seq = s.seq := by
  unfold State.count; split <;> rfl
@[simp] theorem State.count_nextId (s : State) (x u e n : Nat) : (s.count x u e n).nextId = s.nextId := by
  unfold State.count; split <;> rfl
@[simp] theorem State.count_fresh (s : State) (x u e n : Nat) : (s.count x u e n).fresh = s.fresh := by
  unfold State.count; split <;> rfl
@[simp] theorem State.count_pubs (s : State) (x u e n : Nat) : (s.count x u e n).pubs = s.pubs := by
  unfold State.count; split <;> rfl
@[simp] theorem State.count_agenda (s : State) (x u e n : Nat) : (s.count x u e n).agenda = s.agenda := by
  unfold State.count; split <;> rfl
@[simp] theorem State.count_auto (s : State) (x u e n : Nat) : (s.count x u e n).auto = s.auto := by
  unfold State.count; split <;> rfl

/-! ### Charging energy -/

@[simp] theorem State.charge_cur (s : State) (x k n : Nat) : (s.charge x k n).cur = s.cur := by
  unfold State.charge; split
  · split <;> rfl
  · rfl
@[simp] theorem State.charge_slots (s : State) (x k n : Nat) : (s.charge x k n).slots = s.slots := by
  unfold State.charge; split
  · split <;> rfl
  · rfl
@[simp] theorem State.charge_cycle (s : State) (x k n : Nat) : (s.charge x k n).cycle = s.cycle := by
  unfold State.charge; split
  · split <;> rfl
  · rfl
@[simp] theorem State.charge_mem (s : State) (x k n : Nat) : (s.charge x k n).mem = s.mem := by
  unfold State.charge; split
  · split <;> rfl
  · rfl
@[simp] theorem State.charge_full (s : State) (x k n : Nat) : (s.charge x k n).full = s.full := by
  unfold State.charge; split
  · split <;> rfl
  · rfl
@[simp] theorem State.charge_sbuf (s : State) (x k n : Nat) : (s.charge x k n).sbuf = s.sbuf := by
  unfold State.charge; split
  · split <;> rfl
  · rfl
@[simp] theorem State.charge_flight (s : State) (x k n : Nat) : (s.charge x k n).flight = s.flight := by
  unfold State.charge; split
  · split <;> rfl
  · rfl
@[simp] theorem State.charge_outb (s : State) (x k n : Nat) : (s.charge x k n).outb = s.outb := by
  unfold State.charge; split
  · split <;> rfl
  · rfl
@[simp] theorem State.charge_feq (s : State) (x k n : Nat) : (s.charge x k n).feq = s.feq := by
  unfold State.charge; split
  · split <;> rfl
  · rfl
@[simp] theorem State.charge_waking (s : State) (x k n : Nat) : (s.charge x k n).waking = s.waking := by
  unfold State.charge; split
  · split <;> rfl
  · rfl
@[simp] theorem State.charge_early (s : State) (x k n : Nat) : (s.charge x k n).early = s.early := by
  unfold State.charge; split
  · split <;> rfl
  · rfl
@[simp] theorem State.charge_errs (s : State) (x k n : Nat) : (s.charge x k n).errs = s.errs := by
  unfold State.charge; split
  · split <;> rfl
  · rfl
@[simp] theorem State.charge_tlb (s : State) (x k n : Nat) : (s.charge x k n).tlb = s.tlb := by
  unfold State.charge; split
  · split <;> rfl
  · rfl
@[simp] theorem State.charge_walks (s : State) (x k n : Nat) : (s.charge x k n).walks = s.walks := by
  unfold State.charge; split
  · split <;> rfl
  · rfl
@[simp] theorem State.charge_icache (s : State) (x k n : Nat) : (s.charge x k n).icache = s.icache := by
  unfold State.charge; split
  · split <;> rfl
  · rfl
@[simp] theorem State.charge_deques (s : State) (x k n : Nat) : (s.charge x k n).deques = s.deques := by
  unfold State.charge; split
  · split <;> rfl
  · rfl
@[simp] theorem State.charge_chans (s : State) (x k n : Nat) : (s.charge x k n).chans = s.chans := by
  unfold State.charge; split
  · split <;> rfl
  · rfl
@[simp] theorem State.charge_xfers (s : State) (x k n : Nat) : (s.charge x k n).xfers = s.xfers := by
  unfold State.charge; split
  · split <;> rfl
  · rfl
@[simp] theorem State.charge_caddies (s : State) (x k n : Nat) : (s.charge x k n).caddies = s.caddies := by
  unfold State.charge; split
  · split <;> rfl
  · rfl
@[simp] theorem State.charge_msgs (s : State) (x k n : Nat) : (s.charge x k n).msgs = s.msgs := by
  unfold State.charge; split
  · split <;> rfl
  · rfl
@[simp] theorem State.charge_colls (s : State) (x k n : Nat) : (s.charge x k n).colls = s.colls := by
  unfold State.charge; split
  · split <;> rfl
  · rfl
@[simp] theorem State.charge_matrix (s : State) (x k n : Nat) : (s.charge x k n).matrix = s.matrix := by
  unfold State.charge; split
  · split <;> rfl
  · rfl
@[simp] theorem State.charge_huddles (s : State) (x k n : Nat) : (s.charge x k n).huddles = s.huddles := by
  unfold State.charge; split
  · split <;> rfl
  · rfl
@[simp] theorem State.charge_fams (s : State) (x k n : Nat) : (s.charge x k n).fams = s.fams := by
  unfold State.charge; split
  · split <;> rfl
  · rfl
@[simp] theorem State.charge_hreqs (s : State) (x k n : Nat) : (s.charge x k n).hreqs = s.hreqs := by
  unfold State.charge; split
  · split <;> rfl
  · rfl
@[simp] theorem State.charge_hnotes (s : State) (x k n : Nat) : (s.charge x k n).hnotes = s.hnotes := by
  unfold State.charge; split
  · split <;> rfl
  · rfl
@[simp] theorem State.charge_saved (s : State) (x k n : Nat) : (s.charge x k n).saved = s.saved := by
  unfold State.charge; split
  · split <;> rfl
  · rfl
@[simp] theorem State.charge_commits (s : State) (x k n : Nat) : (s.charge x k n).commits = s.commits := by
  unfold State.charge; split
  · split <;> rfl
  · rfl
@[simp] theorem State.charge_commission (s : State) (x k n : Nat) : (s.charge x k n).commission = s.commission := by
  unfold State.charge; split
  · split <;> rfl
  · rfl
@[simp] theorem State.charge_beacon (s : State) (x k n : Nat) : (s.charge x k n).beacon = s.beacon := by
  unfold State.charge; split
  · split <;> rfl
  · rfl
@[simp] theorem State.charge_bootTime (s : State) (x k n : Nat) : (s.charge x k n).bootTime = s.bootTime := by
  unfold State.charge; split
  · split <;> rfl
  · rfl
@[simp] theorem State.charge_redemption (s : State) (x k n : Nat) : (s.charge x k n).redemption = s.redemption := by
  unfold State.charge; split
  · split <;> rfl
  · rfl
@[simp] theorem State.charge_claims (s : State) (x k n : Nat) : (s.charge x k n).claims = s.claims := by
  unfold State.charge; split
  · split <;> rfl
  · rfl
@[simp] theorem State.charge_spentOut (s : State) (x k n : Nat) : (s.charge x k n).spentOut = s.spentOut := by
  unfold State.charge; split
  · split <;> rfl
  · rfl
@[simp] theorem State.charge_nonces (s : State) (x k n : Nat) : (s.charge x k n).nonces = s.nonces := by
  unfold State.charge; split
  · split <;> rfl
  · rfl
@[simp] theorem State.charge_dumps (s : State) (x k n : Nat) : (s.charge x k n).dumps = s.dumps := by
  unfold State.charge; split
  · split <;> rfl
  · rfl
@[simp] theorem State.charge_replies (s : State) (x k n : Nat) : (s.charge x k n).replies = s.replies := by
  unfold State.charge; split
  · split <;> rfl
  · rfl
@[simp] theorem State.charge_notices (s : State) (x k n : Nat) : (s.charge x k n).notices = s.notices := by
  unfold State.charge; split
  · split <;> rfl
  · rfl
@[simp] theorem State.charge_dbg (s : State) (x k n : Nat) : (s.charge x k n).dbg = s.dbg := by
  unfold State.charge; split
  · split <;> rfl
  · rfl
@[simp] theorem State.charge_dbgResume (s : State) (x k n : Nat) : (s.charge x k n).dbgResume = s.dbgResume := by
  unfold State.charge; split
  · split <;> rfl
  · rfl
@[simp] theorem State.charge_cross (s : State) (x k n : Nat) : (s.charge x k n).cross = s.cross := by
  unfold State.charge; split
  · split <;> rfl
  · rfl
@[simp] theorem State.charge_powerAt (s : State) (x k n : Nat) : (s.charge x k n).powerAt = s.powerAt := by
  unfold State.charge; split
  · split <;> rfl
  · rfl
@[simp] theorem State.charge_links (s : State) (x k n : Nat) : (s.charge x k n).links = s.links := by
  unfold State.charge; split
  · split <;> rfl
  · rfl
@[simp] theorem State.charge_inbox (s : State) (x k n : Nat) : (s.charge x k n).inbox = s.inbox := by
  unfold State.charge; split
  · split <;> rfl
  · rfl
@[simp] theorem State.charge_refEvents (s : State) (x k n : Nat) : (s.charge x k n).refEvents = s.refEvents := by
  unfold State.charge; split
  · split <;> rfl
  · rfl
@[simp] theorem State.charge_outq (s : State) (x k n : Nat) : (s.charge x k n).outq = s.outq := by
  unfold State.charge; split
  · split <;> rfl
  · rfl
@[simp] theorem State.charge_keys (s : State) (x k n : Nat) : (s.charge x k n).keys = s.keys := by
  unfold State.charge; split
  · split <;> rfl
  · rfl
@[simp] theorem State.charge_retired (s : State) (x k n : Nat) : (s.charge x k n).retired = s.retired := by
  unfold State.charge; split
  · split <;> rfl
  · rfl
@[simp] theorem State.charge_counters (s : State) (x k n : Nat) : (s.charge x k n).counters = s.counters := by
  unfold State.charge; split
  · split <;> rfl
  · rfl
@[simp] theorem State.charge_seq (s : State) (x k n : Nat) : (s.charge x k n).seq = s.seq := by
  unfold State.charge; split
  · split <;> rfl
  · rfl
@[simp] theorem State.charge_nextId (s : State) (x k n : Nat) : (s.charge x k n).nextId = s.nextId := by
  unfold State.charge; split
  · split <;> rfl
  · rfl
@[simp] theorem State.charge_fresh (s : State) (x k n : Nat) : (s.charge x k n).fresh = s.fresh := by
  unfold State.charge; split
  · split <;> rfl
  · rfl
@[simp] theorem State.charge_pubs (s : State) (x k n : Nat) : (s.charge x k n).pubs = s.pubs := by
  unfold State.charge; split
  · split <;> rfl
  · rfl
@[simp] theorem State.charge_agenda (s : State) (x k n : Nat) : (s.charge x k n).agenda = s.agenda := by
  unfold State.charge; split
  · split <;> rfl
  · rfl
@[simp] theorem State.charge_auto (s : State) (x k n : Nat) : (s.charge x k n).auto = s.auto := by
  unfold State.charge; split
  · split <;> rfl
  · rfl

/-! ### Fields that are set -/

@[simp] theorem State.setCtx_ctxs (s : State) (x : Ctx) : (s.setCtx x).ctxs = updKey (fun y => y.id == x.id) x s.ctxs := rfl
@[simp] theorem State.mapSlots_cur (s : State) (p : Slot → Bool) (f : Slot → Slot) :
    (s.mapSlots p f).cur = if p s.cur then f s.cur else s.cur := rfl
@[simp] theorem State.mapSlots_slots (s : State) (p : Slot → Bool) (f : Slot → Slot) :
    (s.mapSlots p f).slots = s.slots.map (fun c => if p c then f c else c) := rfl
theorem State.setSlot_cur {s : State} {c : Slot} (h : s.cur.phys = c.phys) : s.setSlot c = { s with cur := c } := if_pos h
theorem State.setSlot_other_cur {s : State} {c : Slot} (h : s.cur.phys ≠ c.phys) : (s.setSlot c).cur = s.cur := by
  unfold State.setSlot; rw [if_neg h]; split <;> rfl
@[simp] theorem State.count_zero (s : State) (x u e : Nat) : s.count x u e 0 = s := if_pos rfl
@[simp] theorem State.charge_zero (s : State) (x k : Nat) : s.charge x k 0 = s := by
  unfold State.charge; split
  · exact if_pos rfl
  · rfl

/-! ### Going on -/

@[simp] theorem Slot.goto_phys (c : Slot) (w : Word) : (c.goto w).phys = c.phys := rfl
@[simp] theorem Slot.goto_owner (c : Slot) (w : Word) : (c.goto w).owner = c.owner := rfl
@[simp] theorem Slot.goto_thread (c : Slot) (w : Word) : (c.goto w).thread = c.thread := rfl
@[simp] theorem Slot.goto_lcore (c : Slot) (w : Word) : (c.goto w).lcore = c.lcore := rfl
@[simp] theorem Slot.goto_lclus (c : Slot) (w : Word) : (c.goto w).lclus = c.lclus := rfl
@[simp] theorem Slot.goto_status (c : Slot) (w : Word) : (c.goto w).status = c.status := rfl
@[simp] theorem Slot.goto_held (c : Slot) (w : Word) : (c.goto w).held = c.held := rfl
@[simp] theorem Slot.goto_busy (c : Slot) (w : Word) : (c.goto w).busy = c.busy := rfl
@[simp] theorem Slot.goto_late (c : Slot) (w : Word) : (c.goto w).late = c.late := rfl
@[simp] theorem Slot.goto_pause (c : Slot) (w : Word) : (c.goto w).pause = c.pause := rfl
@[simp] theorem Slot.goto_pc (c : Slot) (w : Word) : (c.goto w).pc = w := rfl
@[simp] theorem Slot.goto_ir (c : Slot) (w : Word) : (c.goto w).ir = c.ir := rfl
@[simp] theorem Slot.goto_regs (c : Slot) (w : Word) : (c.goto w).regs = c.regs := rfl
@[simp] theorem Slot.goto_vregs (c : Slot) (w : Word) : (c.goto w).vregs = c.vregs := rfl
@[simp] theorem Slot.goto_masks (c : Slot) (w : Word) : (c.goto w).masks = c.masks := rfl
@[simp] theorem Slot.goto_handles (c : Slot) (w : Word) : (c.goto w).handles = c.handles := rfl
@[simp] theorem Slot.goto_fmode (c : Slot) (w : Word) : (c.goto w).fmode = c.fmode := rfl
@[simp] theorem Slot.goto_fflags (c : Slot) (w : Word) : (c.goto w).fflags = c.fflags := rfl
@[simp] theorem Slot.goto_tcause (c : Slot) (w : Word) : (c.goto w).tcause = c.tcause := rfl
@[simp] theorem Slot.goto_tepc (c : Slot) (w : Word) : (c.goto w).tepc = c.tepc := rfl
@[simp] theorem Slot.goto_tword (c : Slot) (w : Word) : (c.goto w).tword = c.tword := rfl
@[simp] theorem Slot.goto_tval (c : Slot) (w : Word) : (c.goto w).tval = c.tval := rfl
@[simp] theorem Slot.goto_thand (c : Slot) (w : Word) : (c.goto w).thand = c.thand := rfl
@[simp] theorem Slot.goto_mig (c : Slot) (w : Word) : (c.goto w).mig = c.mig := rfl
@[simp] theorem Slot.goto_ref (c : Slot) (w : Word) : (c.goto w).ref = c.ref := rfl
@[simp] theorem Slot.goto_inh (c : Slot) (w : Word) : (c.goto w).inh = c.inh := rfl
@[simp] theorem Slot.goto_deny (c : Slot) (w : Word) : (c.goto w).deny = c.deny := rfl
@[simp] theorem Slot.goto_denyEv (c : Slot) (w : Word) : (c.goto w).denyEv = c.denyEv := rfl
@[simp] theorem Slot.goto_halo (c : Slot) (w : Word) : (c.goto w).halo = c.halo := rfl
@[simp] theorem Slot.goto_wins (c : Slot) (w : Word) : (c.goto w).wins = c.wins := rfl
@[simp] theorem Slot.goto_decl (c : Slot) (w : Word) : (c.goto w).decl = c.decl := rfl
@[simp] theorem Slot.goto_domain (c : Slot) (w : Word) : (c.goto w).domain = c.domain := rfl
@[simp] theorem Slot.goto_monitor (c : Slot) (w : Word) : (c.goto w).monitor = c.monitor := rfl
@[simp] theorem Slot.goto_wait (c : Slot) (w : Word) : (c.goto w).wait = c.wait := rfl
@[simp] theorem Slot.goto_block (c : Slot) (w : Word) : (c.goto w).block = c.block := rfl
@[simp] theorem Slot.goto_resumeAt (c : Slot) (w : Word) : (c.goto w).resumeAt = c.resumeAt := rfl
@[simp] theorem Slot.goto_rels (c : Slot) (w : Word) : (c.goto w).rels = c.rels := rfl
@[simp] theorem Slot.goto_popTiles (c : Slot) (w : Word) : (c.goto w).popTiles = c.popTiles := rfl
@[simp] theorem Slot.goto_q0tiles (c : Slot) (w : Word) : (c.goto w).q0tiles = c.q0tiles := rfl
@[simp] theorem Slot.goto_tileSeen (c : Slot) (w : Word) : (c.goto w).tileSeen = c.tileSeen := rfl
@[simp] theorem Slot.goto_landed (c : Slot) (w : Word) : (c.goto w).landed = c.landed := rfl
@[simp] theorem Slot.goto_haloDue (c : Slot) (w : Word) : (c.goto w).haloDue = c.haloDue := rfl
@[simp] theorem Slot.goto_cls (c : Slot) (w : Word) : (c.goto w).cls = c.cls := rfl
@[simp] theorem Slot.goto_q2seen (c : Slot) (w : Word) : (c.goto w).q2seen = c.q2seen := rfl
@[simp] theorem Slot.goto_q3seen (c : Slot) (w : Word) : (c.goto w).q3seen = c.q3seen := rfl
@[simp] theorem Slot.goto_q0push (c : Slot) (w : Word) : (c.goto w).q0push = c.q0push := rfl
@[simp] theorem Slot.goto_q0held (c : Slot) (w : Word) : (c.goto w).q0held = c.q0held := rfl
@[simp] theorem Slot.goto_q0read (c : Slot) (w : Word) : (c.goto w).q0read = c.q0read := rfl
@[simp] theorem Slot.goto_mbox (c : Slot) (w : Word) : (c.goto w).mbox = c.mbox := rfl
@[simp] theorem Slot.goto_q1read (c : Slot) (w : Word) : (c.goto w).q1read = c.q1read := rfl
@[simp] theorem Slot.goto_q2send (c : Slot) (w : Word) : (c.goto w).q2send = c.q2send := rfl
@[simp] theorem Slot.goto_q2recv (c : Slot) (w : Word) : (c.goto w).q2recv = c.q2recv := rfl
@[simp] theorem Slot.goto_q3cmd (c : Slot) (w : Word) : (c.goto w).q3cmd = c.q3cmd := rfl
@[simp] theorem Slot.goto_q3read (c : Slot) (w : Word) : (c.goto w).q3read = c.q3read := rfl
@[simp] theorem Slot.goto_q4cmd (c : Slot) (w : Word) : (c.goto w).q4cmd = c.q4cmd := rfl
@[simp] theorem Slot.goto_q4read (c : Slot) (w : Word) : (c.goto w).q4read = c.q4read := rfl
@[simp] theorem Slot.goto_q5 (c : Slot) (w : Word) : (c.goto w).q5 = c.q5 := rfl
@[simp] theorem Slot.goto_energyDue (c : Slot) (w : Word) : (c.goto w).energyDue = c.energyDue := rfl
@[simp] theorem Slot.goto_dbgHalt (c : Slot) (w : Word) : (c.goto w).dbgHalt = c.dbgHalt := rfl

/-! ### Back in the rotation -/

@[simp] theorem Slot.ready_phys (c : Slot)  : (c.ready).phys = c.phys := rfl
@[simp] theorem Slot.ready_owner (c : Slot)  : (c.ready).owner = c.owner := rfl
@[simp] theorem Slot.ready_thread (c : Slot)  : (c.ready).thread = c.thread := rfl
@[simp] theorem Slot.ready_lcore (c : Slot)  : (c.ready).lcore = c.lcore := rfl
@[simp] theorem Slot.ready_lclus (c : Slot)  : (c.ready).lclus = c.lclus := rfl
@[simp] theorem Slot.ready_status (c : Slot)  : (c.ready).status = .ready := rfl
@[simp] theorem Slot.ready_held (c : Slot)  : (c.ready).held = c.held := rfl
@[simp] theorem Slot.ready_busy (c : Slot)  : (c.ready).busy = c.busy := rfl
@[simp] theorem Slot.ready_late (c : Slot)  : (c.ready).late = c.late := rfl
@[simp] theorem Slot.ready_pause (c : Slot)  : (c.ready).pause = c.pause := rfl
@[simp] theorem Slot.ready_pc (c : Slot)  : (c.ready).pc = c.pc := rfl
@[simp] theorem Slot.ready_ir (c : Slot)  : (c.ready).ir = c.ir := rfl
@[simp] theorem Slot.ready_regs (c : Slot)  : (c.ready).regs = c.regs := rfl
@[simp] theorem Slot.ready_vregs (c : Slot)  : (c.ready).vregs = c.vregs := rfl
@[simp] theorem Slot.ready_masks (c : Slot)  : (c.ready).masks = c.masks := rfl
@[simp] theorem Slot.ready_handles (c : Slot)  : (c.ready).handles = c.handles := rfl
@[simp] theorem Slot.ready_fmode (c : Slot)  : (c.ready).fmode = c.fmode := rfl
@[simp] theorem Slot.ready_fflags (c : Slot)  : (c.ready).fflags = c.fflags := rfl
@[simp] theorem Slot.ready_tcause (c : Slot)  : (c.ready).tcause = c.tcause := rfl
@[simp] theorem Slot.ready_tepc (c : Slot)  : (c.ready).tepc = c.tepc := rfl
@[simp] theorem Slot.ready_tword (c : Slot)  : (c.ready).tword = c.tword := rfl
@[simp] theorem Slot.ready_tval (c : Slot)  : (c.ready).tval = c.tval := rfl
@[simp] theorem Slot.ready_thand (c : Slot)  : (c.ready).thand = c.thand := rfl
@[simp] theorem Slot.ready_mig (c : Slot)  : (c.ready).mig = c.mig := rfl
@[simp] theorem Slot.ready_ref (c : Slot)  : (c.ready).ref = c.ref := rfl
@[simp] theorem Slot.ready_inh (c : Slot)  : (c.ready).inh = c.inh := rfl
@[simp] theorem Slot.ready_deny (c : Slot)  : (c.ready).deny = c.deny := rfl
@[simp] theorem Slot.ready_denyEv (c : Slot)  : (c.ready).denyEv = c.denyEv := rfl
@[simp] theorem Slot.ready_halo (c : Slot)  : (c.ready).halo = c.halo := rfl
@[simp] theorem Slot.ready_wins (c : Slot)  : (c.ready).wins = c.wins := rfl
@[simp] theorem Slot.ready_decl (c : Slot)  : (c.ready).decl = c.decl := rfl
@[simp] theorem Slot.ready_domain (c : Slot)  : (c.ready).domain = c.domain := rfl
@[simp] theorem Slot.ready_monitor (c : Slot)  : (c.ready).monitor = c.monitor := rfl
@[simp] theorem Slot.ready_wait (c : Slot)  : (c.ready).wait = none := rfl
@[simp] theorem Slot.ready_block (c : Slot)  : (c.ready).block = c.block := rfl
@[simp] theorem Slot.ready_resumeAt (c : Slot)  : (c.ready).resumeAt = c.resumeAt := rfl
@[simp] theorem Slot.ready_rels (c : Slot)  : (c.ready).rels = c.rels := rfl
@[simp] theorem Slot.ready_popTiles (c : Slot)  : (c.ready).popTiles = c.popTiles := rfl
@[simp] theorem Slot.ready_q0tiles (c : Slot)  : (c.ready).q0tiles = c.q0tiles := rfl
@[simp] theorem Slot.ready_tileSeen (c : Slot)  : (c.ready).tileSeen = c.tileSeen := rfl
@[simp] theorem Slot.ready_landed (c : Slot)  : (c.ready).landed = c.landed := rfl
@[simp] theorem Slot.ready_haloDue (c : Slot)  : (c.ready).haloDue = c.haloDue := rfl
@[simp] theorem Slot.ready_cls (c : Slot)  : (c.ready).cls = c.cls := rfl
@[simp] theorem Slot.ready_q2seen (c : Slot)  : (c.ready).q2seen = c.q2seen := rfl
@[simp] theorem Slot.ready_q3seen (c : Slot)  : (c.ready).q3seen = c.q3seen := rfl
@[simp] theorem Slot.ready_q0push (c : Slot)  : (c.ready).q0push = c.q0push := rfl
@[simp] theorem Slot.ready_q0held (c : Slot)  : (c.ready).q0held = c.q0held := rfl
@[simp] theorem Slot.ready_q0read (c : Slot)  : (c.ready).q0read = c.q0read := rfl
@[simp] theorem Slot.ready_mbox (c : Slot)  : (c.ready).mbox = c.mbox := rfl
@[simp] theorem Slot.ready_q1read (c : Slot)  : (c.ready).q1read = c.q1read := rfl
@[simp] theorem Slot.ready_q2send (c : Slot)  : (c.ready).q2send = c.q2send := rfl
@[simp] theorem Slot.ready_q2recv (c : Slot)  : (c.ready).q2recv = c.q2recv := rfl
@[simp] theorem Slot.ready_q3cmd (c : Slot)  : (c.ready).q3cmd = c.q3cmd := rfl
@[simp] theorem Slot.ready_q3read (c : Slot)  : (c.ready).q3read = c.q3read := rfl
@[simp] theorem Slot.ready_q4cmd (c : Slot)  : (c.ready).q4cmd = c.q4cmd := rfl
@[simp] theorem Slot.ready_q4read (c : Slot)  : (c.ready).q4read = c.q4read := rfl
@[simp] theorem Slot.ready_q5 (c : Slot)  : (c.ready).q5 = c.q5 := rfl
@[simp] theorem Slot.ready_energyDue (c : Slot)  : (c.ready).energyDue = c.energyDue := rfl
@[simp] theorem Slot.ready_dbgHalt (c : Slot)  : (c.ready).dbgHalt = c.dbgHalt := rfl

/-! ### Raising flags -/

@[simp] theorem Slot.raise_phys (c : Slot) (f : BitVec 5) : (c.raise f).phys = c.phys := rfl
@[simp] theorem Slot.raise_owner (c : Slot) (f : BitVec 5) : (c.raise f).owner = c.owner := rfl
@[simp] theorem Slot.raise_thread (c : Slot) (f : BitVec 5) : (c.raise f).thread = c.thread := rfl
@[simp] theorem Slot.raise_lcore (c : Slot) (f : BitVec 5) : (c.raise f).lcore = c.lcore := rfl
@[simp] theorem Slot.raise_lclus (c : Slot) (f : BitVec 5) : (c.raise f).lclus = c.lclus := rfl
@[simp] theorem Slot.raise_status (c : Slot) (f : BitVec 5) : (c.raise f).status = c.status := rfl
@[simp] theorem Slot.raise_held (c : Slot) (f : BitVec 5) : (c.raise f).held = c.held := rfl
@[simp] theorem Slot.raise_busy (c : Slot) (f : BitVec 5) : (c.raise f).busy = c.busy := rfl
@[simp] theorem Slot.raise_late (c : Slot) (f : BitVec 5) : (c.raise f).late = c.late := rfl
@[simp] theorem Slot.raise_pause (c : Slot) (f : BitVec 5) : (c.raise f).pause = c.pause := rfl
@[simp] theorem Slot.raise_pc (c : Slot) (f : BitVec 5) : (c.raise f).pc = c.pc := rfl
@[simp] theorem Slot.raise_ir (c : Slot) (f : BitVec 5) : (c.raise f).ir = c.ir := rfl
@[simp] theorem Slot.raise_regs (c : Slot) (f : BitVec 5) : (c.raise f).regs = c.regs := rfl
@[simp] theorem Slot.raise_vregs (c : Slot) (f : BitVec 5) : (c.raise f).vregs = c.vregs := rfl
@[simp] theorem Slot.raise_masks (c : Slot) (f : BitVec 5) : (c.raise f).masks = c.masks := rfl
@[simp] theorem Slot.raise_handles (c : Slot) (f : BitVec 5) : (c.raise f).handles = c.handles := rfl
@[simp] theorem Slot.raise_fmode (c : Slot) (f : BitVec 5) : (c.raise f).fmode = c.fmode := rfl
@[simp] theorem Slot.raise_fflags (c : Slot) (f : BitVec 5) : (c.raise f).fflags = c.fflags ||| f := rfl
@[simp] theorem Slot.raise_tcause (c : Slot) (f : BitVec 5) : (c.raise f).tcause = c.tcause := rfl
@[simp] theorem Slot.raise_tepc (c : Slot) (f : BitVec 5) : (c.raise f).tepc = c.tepc := rfl
@[simp] theorem Slot.raise_tword (c : Slot) (f : BitVec 5) : (c.raise f).tword = c.tword := rfl
@[simp] theorem Slot.raise_tval (c : Slot) (f : BitVec 5) : (c.raise f).tval = c.tval := rfl
@[simp] theorem Slot.raise_thand (c : Slot) (f : BitVec 5) : (c.raise f).thand = c.thand := rfl
@[simp] theorem Slot.raise_mig (c : Slot) (f : BitVec 5) : (c.raise f).mig = c.mig := rfl
@[simp] theorem Slot.raise_ref (c : Slot) (f : BitVec 5) : (c.raise f).ref = c.ref := rfl
@[simp] theorem Slot.raise_inh (c : Slot) (f : BitVec 5) : (c.raise f).inh = c.inh := rfl
@[simp] theorem Slot.raise_deny (c : Slot) (f : BitVec 5) : (c.raise f).deny = c.deny := rfl
@[simp] theorem Slot.raise_denyEv (c : Slot) (f : BitVec 5) : (c.raise f).denyEv = c.denyEv := rfl
@[simp] theorem Slot.raise_halo (c : Slot) (f : BitVec 5) : (c.raise f).halo = c.halo := rfl
@[simp] theorem Slot.raise_wins (c : Slot) (f : BitVec 5) : (c.raise f).wins = c.wins := rfl
@[simp] theorem Slot.raise_decl (c : Slot) (f : BitVec 5) : (c.raise f).decl = c.decl := rfl
@[simp] theorem Slot.raise_domain (c : Slot) (f : BitVec 5) : (c.raise f).domain = c.domain := rfl
@[simp] theorem Slot.raise_monitor (c : Slot) (f : BitVec 5) : (c.raise f).monitor = c.monitor := rfl
@[simp] theorem Slot.raise_wait (c : Slot) (f : BitVec 5) : (c.raise f).wait = c.wait := rfl
@[simp] theorem Slot.raise_block (c : Slot) (f : BitVec 5) : (c.raise f).block = c.block := rfl
@[simp] theorem Slot.raise_resumeAt (c : Slot) (f : BitVec 5) : (c.raise f).resumeAt = c.resumeAt := rfl
@[simp] theorem Slot.raise_rels (c : Slot) (f : BitVec 5) : (c.raise f).rels = c.rels := rfl
@[simp] theorem Slot.raise_popTiles (c : Slot) (f : BitVec 5) : (c.raise f).popTiles = c.popTiles := rfl
@[simp] theorem Slot.raise_q0tiles (c : Slot) (f : BitVec 5) : (c.raise f).q0tiles = c.q0tiles := rfl
@[simp] theorem Slot.raise_tileSeen (c : Slot) (f : BitVec 5) : (c.raise f).tileSeen = c.tileSeen := rfl
@[simp] theorem Slot.raise_landed (c : Slot) (f : BitVec 5) : (c.raise f).landed = c.landed := rfl
@[simp] theorem Slot.raise_haloDue (c : Slot) (f : BitVec 5) : (c.raise f).haloDue = c.haloDue := rfl
@[simp] theorem Slot.raise_cls (c : Slot) (f : BitVec 5) : (c.raise f).cls = c.cls := rfl
@[simp] theorem Slot.raise_q2seen (c : Slot) (f : BitVec 5) : (c.raise f).q2seen = c.q2seen := rfl
@[simp] theorem Slot.raise_q3seen (c : Slot) (f : BitVec 5) : (c.raise f).q3seen = c.q3seen := rfl
@[simp] theorem Slot.raise_q0push (c : Slot) (f : BitVec 5) : (c.raise f).q0push = c.q0push := rfl
@[simp] theorem Slot.raise_q0held (c : Slot) (f : BitVec 5) : (c.raise f).q0held = c.q0held := rfl
@[simp] theorem Slot.raise_q0read (c : Slot) (f : BitVec 5) : (c.raise f).q0read = c.q0read := rfl
@[simp] theorem Slot.raise_mbox (c : Slot) (f : BitVec 5) : (c.raise f).mbox = c.mbox := rfl
@[simp] theorem Slot.raise_q1read (c : Slot) (f : BitVec 5) : (c.raise f).q1read = c.q1read := rfl
@[simp] theorem Slot.raise_q2send (c : Slot) (f : BitVec 5) : (c.raise f).q2send = c.q2send := rfl
@[simp] theorem Slot.raise_q2recv (c : Slot) (f : BitVec 5) : (c.raise f).q2recv = c.q2recv := rfl
@[simp] theorem Slot.raise_q3cmd (c : Slot) (f : BitVec 5) : (c.raise f).q3cmd = c.q3cmd := rfl
@[simp] theorem Slot.raise_q3read (c : Slot) (f : BitVec 5) : (c.raise f).q3read = c.q3read := rfl
@[simp] theorem Slot.raise_q4cmd (c : Slot) (f : BitVec 5) : (c.raise f).q4cmd = c.q4cmd := rfl
@[simp] theorem Slot.raise_q4read (c : Slot) (f : BitVec 5) : (c.raise f).q4read = c.q4read := rfl
@[simp] theorem Slot.raise_q5 (c : Slot) (f : BitVec 5) : (c.raise f).q5 = c.q5 := rfl
@[simp] theorem Slot.raise_energyDue (c : Slot) (f : BitVec 5) : (c.raise f).energyDue = c.energyDue := rfl
@[simp] theorem Slot.raise_dbgHalt (c : Slot) (f : BitVec 5) : (c.raise f).dbgHalt = c.dbgHalt := rfl

/-! ### Return from a trap (R153) -/

@[simp] theorem Slot.eret_phys (c : Slot)  : (c.eret).phys = c.phys := rfl
@[simp] theorem Slot.eret_owner (c : Slot)  : (c.eret).owner = c.owner := rfl
@[simp] theorem Slot.eret_thread (c : Slot)  : (c.eret).thread = c.thread := rfl
@[simp] theorem Slot.eret_lcore (c : Slot)  : (c.eret).lcore = c.lcore := rfl
@[simp] theorem Slot.eret_lclus (c : Slot)  : (c.eret).lclus = c.lclus := rfl
@[simp] theorem Slot.eret_status (c : Slot)  : (c.eret).status = c.status := rfl
@[simp] theorem Slot.eret_held (c : Slot)  : (c.eret).held = c.held := rfl
@[simp] theorem Slot.eret_busy (c : Slot)  : (c.eret).busy = c.busy := rfl
@[simp] theorem Slot.eret_late (c : Slot)  : (c.eret).late = c.late := rfl
@[simp] theorem Slot.eret_pause (c : Slot)  : (c.eret).pause = c.pause := rfl
@[simp] theorem Slot.eret_pc (c : Slot)  : (c.eret).pc = c.tepc := rfl
@[simp] theorem Slot.eret_ir (c : Slot)  : (c.eret).ir = c.ir := rfl
@[simp] theorem Slot.eret_regs (c : Slot)  : (c.eret).regs = c.regs := rfl
@[simp] theorem Slot.eret_vregs (c : Slot)  : (c.eret).vregs = c.vregs := rfl
@[simp] theorem Slot.eret_masks (c : Slot)  : (c.eret).masks = c.masks := rfl
@[simp] theorem Slot.eret_handles (c : Slot)  : (c.eret).handles = c.handles := rfl
@[simp] theorem Slot.eret_fmode (c : Slot)  : (c.eret).fmode = c.fmode := rfl
@[simp] theorem Slot.eret_fflags (c : Slot)  : (c.eret).fflags = c.fflags := rfl
@[simp] theorem Slot.eret_tcause (c : Slot)  : (c.eret).tcause = c.tcause := rfl
@[simp] theorem Slot.eret_tepc (c : Slot)  : (c.eret).tepc = c.tepc := rfl
@[simp] theorem Slot.eret_tword (c : Slot)  : (c.eret).tword = c.tword := rfl
@[simp] theorem Slot.eret_tval (c : Slot)  : (c.eret).tval = c.tval := rfl
@[simp] theorem Slot.eret_thand (c : Slot)  : (c.eret).thand = c.thand := rfl
@[simp] theorem Slot.eret_mig (c : Slot)  : (c.eret).mig = false := rfl
@[simp] theorem Slot.eret_ref (c : Slot)  : (c.eret).ref = c.ref := rfl
@[simp] theorem Slot.eret_inh (c : Slot)  : (c.eret).inh = false := rfl
@[simp] theorem Slot.eret_deny (c : Slot)  : (c.eret).deny = c.deny := rfl
@[simp] theorem Slot.eret_denyEv (c : Slot)  : (c.eret).denyEv = c.denyEv := rfl
@[simp] theorem Slot.eret_halo (c : Slot)  : (c.eret).halo = c.halo := rfl
@[simp] theorem Slot.eret_wins (c : Slot)  : (c.eret).wins = c.wins := rfl
@[simp] theorem Slot.eret_decl (c : Slot)  : (c.eret).decl = c.decl := rfl
@[simp] theorem Slot.eret_domain (c : Slot)  : (c.eret).domain = c.domain := rfl
@[simp] theorem Slot.eret_monitor (c : Slot)  : (c.eret).monitor = c.monitor := rfl
@[simp] theorem Slot.eret_wait (c : Slot)  : (c.eret).wait = c.wait := rfl
@[simp] theorem Slot.eret_block (c : Slot)  : (c.eret).block = c.block := rfl
@[simp] theorem Slot.eret_resumeAt (c : Slot)  : (c.eret).resumeAt = none := rfl
@[simp] theorem Slot.eret_rels (c : Slot)  : (c.eret).rels = c.rels := rfl
@[simp] theorem Slot.eret_popTiles (c : Slot)  : (c.eret).popTiles = c.popTiles := rfl
@[simp] theorem Slot.eret_q0tiles (c : Slot)  : (c.eret).q0tiles = c.q0tiles := rfl
@[simp] theorem Slot.eret_tileSeen (c : Slot)  : (c.eret).tileSeen = c.tileSeen := rfl
@[simp] theorem Slot.eret_landed (c : Slot)  : (c.eret).landed = c.landed := rfl
@[simp] theorem Slot.eret_haloDue (c : Slot)  : (c.eret).haloDue = c.haloDue := rfl
@[simp] theorem Slot.eret_cls (c : Slot)  : (c.eret).cls = c.cls := rfl
@[simp] theorem Slot.eret_q2seen (c : Slot)  : (c.eret).q2seen = c.q2seen := rfl
@[simp] theorem Slot.eret_q3seen (c : Slot)  : (c.eret).q3seen = c.q3seen := rfl
@[simp] theorem Slot.eret_q0push (c : Slot)  : (c.eret).q0push = c.q0push := rfl
@[simp] theorem Slot.eret_q0held (c : Slot)  : (c.eret).q0held = c.q0held := rfl
@[simp] theorem Slot.eret_q0read (c : Slot)  : (c.eret).q0read = c.q0read := rfl
@[simp] theorem Slot.eret_mbox (c : Slot)  : (c.eret).mbox = c.mbox := rfl
@[simp] theorem Slot.eret_q1read (c : Slot)  : (c.eret).q1read = c.q1read := rfl
@[simp] theorem Slot.eret_q2send (c : Slot)  : (c.eret).q2send = c.q2send := rfl
@[simp] theorem Slot.eret_q2recv (c : Slot)  : (c.eret).q2recv = c.q2recv := rfl
@[simp] theorem Slot.eret_q3cmd (c : Slot)  : (c.eret).q3cmd = c.q3cmd := rfl
@[simp] theorem Slot.eret_q3read (c : Slot)  : (c.eret).q3read = c.q3read := rfl
@[simp] theorem Slot.eret_q4cmd (c : Slot)  : (c.eret).q4cmd = c.q4cmd := rfl
@[simp] theorem Slot.eret_q4read (c : Slot)  : (c.eret).q4read = c.q4read := rfl
@[simp] theorem Slot.eret_q5 (c : Slot)  : (c.eret).q5 = c.q5 := rfl
@[simp] theorem Slot.eret_energyDue (c : Slot)  : (c.eret).energyDue = c.energyDue := rfl
@[simp] theorem Slot.eret_dbgHalt (c : Slot)  : (c.eret).dbgHalt = c.dbgHalt := rfl

/-! ### Entering the handler (R152) -/

@[simp] theorem Slot.enterHandler_phys (c : Slot) (k : TrapCause) (v : Word) (w : IWord) (m : Bool) : (c.enterHandler k v w m).phys = c.phys := rfl
@[simp] theorem Slot.enterHandler_owner (c : Slot) (k : TrapCause) (v : Word) (w : IWord) (m : Bool) : (c.enterHandler k v w m).owner = c.owner := rfl
@[simp] theorem Slot.enterHandler_thread (c : Slot) (k : TrapCause) (v : Word) (w : IWord) (m : Bool) : (c.enterHandler k v w m).thread = c.thread := rfl
@[simp] theorem Slot.enterHandler_lcore (c : Slot) (k : TrapCause) (v : Word) (w : IWord) (m : Bool) : (c.enterHandler k v w m).lcore = c.lcore := rfl
@[simp] theorem Slot.enterHandler_lclus (c : Slot) (k : TrapCause) (v : Word) (w : IWord) (m : Bool) : (c.enterHandler k v w m).lclus = c.lclus := rfl
@[simp] theorem Slot.enterHandler_status (c : Slot) (k : TrapCause) (v : Word) (w : IWord) (m : Bool) : (c.enterHandler k v w m).status = .ready := rfl
@[simp] theorem Slot.enterHandler_held (c : Slot) (k : TrapCause) (v : Word) (w : IWord) (m : Bool) : (c.enterHandler k v w m).held = c.held := rfl
@[simp] theorem Slot.enterHandler_busy (c : Slot) (k : TrapCause) (v : Word) (w : IWord) (m : Bool) : (c.enterHandler k v w m).busy = 0 := rfl
@[simp] theorem Slot.enterHandler_late (c : Slot) (k : TrapCause) (v : Word) (w : IWord) (m : Bool) : (c.enterHandler k v w m).late = none := rfl
@[simp] theorem Slot.enterHandler_pause (c : Slot) (k : TrapCause) (v : Word) (w : IWord) (m : Bool) : (c.enterHandler k v w m).pause = c.pause := rfl
@[simp] theorem Slot.enterHandler_pc (c : Slot) (k : TrapCause) (v : Word) (w : IWord) (m : Bool) : (c.enterHandler k v w m).pc = c.thand := rfl
@[simp] theorem Slot.enterHandler_ir (c : Slot) (k : TrapCause) (v : Word) (w : IWord) (m : Bool) : (c.enterHandler k v w m).ir = c.ir := rfl
@[simp] theorem Slot.enterHandler_regs (c : Slot) (k : TrapCause) (v : Word) (w : IWord) (m : Bool) : (c.enterHandler k v w m).regs = c.regs := rfl
@[simp] theorem Slot.enterHandler_vregs (c : Slot) (k : TrapCause) (v : Word) (w : IWord) (m : Bool) : (c.enterHandler k v w m).vregs = c.vregs := rfl
@[simp] theorem Slot.enterHandler_masks (c : Slot) (k : TrapCause) (v : Word) (w : IWord) (m : Bool) : (c.enterHandler k v w m).masks = c.masks := rfl
@[simp] theorem Slot.enterHandler_handles (c : Slot) (k : TrapCause) (v : Word) (w : IWord) (m : Bool) : (c.enterHandler k v w m).handles = c.handles := rfl
@[simp] theorem Slot.enterHandler_fmode (c : Slot) (k : TrapCause) (v : Word) (w : IWord) (m : Bool) : (c.enterHandler k v w m).fmode = c.fmode := rfl
@[simp] theorem Slot.enterHandler_fflags (c : Slot) (k : TrapCause) (v : Word) (w : IWord) (m : Bool) : (c.enterHandler k v w m).fflags = c.fflags := rfl
@[simp] theorem Slot.enterHandler_tcause (c : Slot) (k : TrapCause) (v : Word) (w : IWord) (m : Bool) : (c.enterHandler k v w m).tcause = BitVec.ofNat 8 k.code := rfl
@[simp] theorem Slot.enterHandler_tepc (c : Slot) (k : TrapCause) (v : Word) (w : IWord) (m : Bool) : (c.enterHandler k v w m).tepc = c.pc := rfl
@[simp] theorem Slot.enterHandler_tword (c : Slot) (k : TrapCause) (v : Word) (w : IWord) (m : Bool) : (c.enterHandler k v w m).tword = w := rfl
@[simp] theorem Slot.enterHandler_tval (c : Slot) (k : TrapCause) (v : Word) (w : IWord) (m : Bool) : (c.enterHandler k v w m).tval = v := rfl
@[simp] theorem Slot.enterHandler_thand (c : Slot) (k : TrapCause) (v : Word) (w : IWord) (m : Bool) : (c.enterHandler k v w m).thand = c.thand := rfl
@[simp] theorem Slot.enterHandler_mig (c : Slot) (k : TrapCause) (v : Word) (w : IWord) (m : Bool) : (c.enterHandler k v w m).mig = m := rfl
@[simp] theorem Slot.enterHandler_ref (c : Slot) (k : TrapCause) (v : Word) (w : IWord) (m : Bool) : (c.enterHandler k v w m).ref = c.ref := rfl
@[simp] theorem Slot.enterHandler_inh (c : Slot) (k : TrapCause) (v : Word) (w : IWord) (m : Bool) : (c.enterHandler k v w m).inh = true := rfl
@[simp] theorem Slot.enterHandler_deny (c : Slot) (k : TrapCause) (v : Word) (w : IWord) (m : Bool) : (c.enterHandler k v w m).deny = c.deny := rfl
@[simp] theorem Slot.enterHandler_denyEv (c : Slot) (k : TrapCause) (v : Word) (w : IWord) (m : Bool) : (c.enterHandler k v w m).denyEv = c.denyEv := rfl
@[simp] theorem Slot.enterHandler_halo (c : Slot) (k : TrapCause) (v : Word) (w : IWord) (m : Bool) : (c.enterHandler k v w m).halo = c.halo := rfl
@[simp] theorem Slot.enterHandler_wins (c : Slot) (k : TrapCause) (v : Word) (w : IWord) (m : Bool) : (c.enterHandler k v w m).wins = c.wins := rfl
@[simp] theorem Slot.enterHandler_decl (c : Slot) (k : TrapCause) (v : Word) (w : IWord) (m : Bool) : (c.enterHandler k v w m).decl = c.decl := rfl
@[simp] theorem Slot.enterHandler_domain (c : Slot) (k : TrapCause) (v : Word) (w : IWord) (m : Bool) : (c.enterHandler k v w m).domain = c.domain := rfl
@[simp] theorem Slot.enterHandler_monitor (c : Slot) (k : TrapCause) (v : Word) (w : IWord) (m : Bool) : (c.enterHandler k v w m).monitor = c.monitor := rfl
@[simp] theorem Slot.enterHandler_wait (c : Slot) (k : TrapCause) (v : Word) (w : IWord) (m : Bool) : (c.enterHandler k v w m).wait = none := rfl
@[simp] theorem Slot.enterHandler_block (c : Slot) (k : TrapCause) (v : Word) (w : IWord) (m : Bool) : (c.enterHandler k v w m).block = none := rfl
@[simp] theorem Slot.enterHandler_resumeAt (c : Slot) (k : TrapCause) (v : Word) (w : IWord) (m : Bool) : (c.enterHandler k v w m).resumeAt = if m then c.resumeAt else none := rfl
@[simp] theorem Slot.enterHandler_rels (c : Slot) (k : TrapCause) (v : Word) (w : IWord) (m : Bool) : (c.enterHandler k v w m).rels = c.rels := rfl
@[simp] theorem Slot.enterHandler_popTiles (c : Slot) (k : TrapCause) (v : Word) (w : IWord) (m : Bool) : (c.enterHandler k v w m).popTiles = c.popTiles := rfl
@[simp] theorem Slot.enterHandler_q0tiles (c : Slot) (k : TrapCause) (v : Word) (w : IWord) (m : Bool) : (c.enterHandler k v w m).q0tiles = c.q0tiles := rfl
@[simp] theorem Slot.enterHandler_tileSeen (c : Slot) (k : TrapCause) (v : Word) (w : IWord) (m : Bool) : (c.enterHandler k v w m).tileSeen = c.tileSeen := rfl
@[simp] theorem Slot.enterHandler_landed (c : Slot) (k : TrapCause) (v : Word) (w : IWord) (m : Bool) : (c.enterHandler k v w m).landed = c.landed := rfl
@[simp] theorem Slot.enterHandler_haloDue (c : Slot) (k : TrapCause) (v : Word) (w : IWord) (m : Bool) : (c.enterHandler k v w m).haloDue = c.haloDue := rfl
@[simp] theorem Slot.enterHandler_cls (c : Slot) (k : TrapCause) (v : Word) (w : IWord) (m : Bool) : (c.enterHandler k v w m).cls = c.cls := rfl
@[simp] theorem Slot.enterHandler_q2seen (c : Slot) (k : TrapCause) (v : Word) (w : IWord) (m : Bool) : (c.enterHandler k v w m).q2seen = c.q2seen := rfl
@[simp] theorem Slot.enterHandler_q3seen (c : Slot) (k : TrapCause) (v : Word) (w : IWord) (m : Bool) : (c.enterHandler k v w m).q3seen = c.q3seen := rfl
@[simp] theorem Slot.enterHandler_q0push (c : Slot) (k : TrapCause) (v : Word) (w : IWord) (m : Bool) : (c.enterHandler k v w m).q0push = c.q0push := rfl
@[simp] theorem Slot.enterHandler_q0held (c : Slot) (k : TrapCause) (v : Word) (w : IWord) (m : Bool) : (c.enterHandler k v w m).q0held = c.q0held := rfl
@[simp] theorem Slot.enterHandler_q0read (c : Slot) (k : TrapCause) (v : Word) (w : IWord) (m : Bool) : (c.enterHandler k v w m).q0read = c.q0read := rfl
@[simp] theorem Slot.enterHandler_mbox (c : Slot) (k : TrapCause) (v : Word) (w : IWord) (m : Bool) : (c.enterHandler k v w m).mbox = c.mbox := rfl
@[simp] theorem Slot.enterHandler_q1read (c : Slot) (k : TrapCause) (v : Word) (w : IWord) (m : Bool) : (c.enterHandler k v w m).q1read = c.q1read := rfl
@[simp] theorem Slot.enterHandler_q2send (c : Slot) (k : TrapCause) (v : Word) (w : IWord) (m : Bool) : (c.enterHandler k v w m).q2send = c.q2send := rfl
@[simp] theorem Slot.enterHandler_q2recv (c : Slot) (k : TrapCause) (v : Word) (w : IWord) (m : Bool) : (c.enterHandler k v w m).q2recv = c.q2recv := rfl
@[simp] theorem Slot.enterHandler_q3cmd (c : Slot) (k : TrapCause) (v : Word) (w : IWord) (m : Bool) : (c.enterHandler k v w m).q3cmd = c.q3cmd := rfl
@[simp] theorem Slot.enterHandler_q3read (c : Slot) (k : TrapCause) (v : Word) (w : IWord) (m : Bool) : (c.enterHandler k v w m).q3read = c.q3read := rfl
@[simp] theorem Slot.enterHandler_q4cmd (c : Slot) (k : TrapCause) (v : Word) (w : IWord) (m : Bool) : (c.enterHandler k v w m).q4cmd = c.q4cmd := rfl
@[simp] theorem Slot.enterHandler_q4read (c : Slot) (k : TrapCause) (v : Word) (w : IWord) (m : Bool) : (c.enterHandler k v w m).q4read = c.q4read := rfl
@[simp] theorem Slot.enterHandler_q5 (c : Slot) (k : TrapCause) (v : Word) (w : IWord) (m : Bool) : (c.enterHandler k v w m).q5 = c.q5 := rfl
@[simp] theorem Slot.enterHandler_energyDue (c : Slot) (k : TrapCause) (v : Word) (w : IWord) (m : Bool) : (c.enterHandler k v w m).energyDue = c.energyDue := rfl
@[simp] theorem Slot.enterHandler_dbgHalt (c : Slot) (k : TrapCause) (v : Word) (w : IWord) (m : Bool) : (c.enterHandler k v w m).dbgHalt = c.dbgHalt := rfl

/-! ### Writing a scalar register (R99) -/

@[simp] theorem Slot.setReg_phys (c : Slot) (n : Nat) (w : Word) : (c.setReg n w).phys = c.phys := by
  unfold Slot.setReg; split <;> rfl
@[simp] theorem Slot.setReg_owner (c : Slot) (n : Nat) (w : Word) : (c.setReg n w).owner = c.owner := by
  unfold Slot.setReg; split <;> rfl
@[simp] theorem Slot.setReg_thread (c : Slot) (n : Nat) (w : Word) : (c.setReg n w).thread = c.thread := by
  unfold Slot.setReg; split <;> rfl
@[simp] theorem Slot.setReg_lcore (c : Slot) (n : Nat) (w : Word) : (c.setReg n w).lcore = c.lcore := by
  unfold Slot.setReg; split <;> rfl
@[simp] theorem Slot.setReg_lclus (c : Slot) (n : Nat) (w : Word) : (c.setReg n w).lclus = c.lclus := by
  unfold Slot.setReg; split <;> rfl
@[simp] theorem Slot.setReg_status (c : Slot) (n : Nat) (w : Word) : (c.setReg n w).status = c.status := by
  unfold Slot.setReg; split <;> rfl
@[simp] theorem Slot.setReg_held (c : Slot) (n : Nat) (w : Word) : (c.setReg n w).held = c.held := by
  unfold Slot.setReg; split <;> rfl
@[simp] theorem Slot.setReg_busy (c : Slot) (n : Nat) (w : Word) : (c.setReg n w).busy = c.busy := by
  unfold Slot.setReg; split <;> rfl
@[simp] theorem Slot.setReg_late (c : Slot) (n : Nat) (w : Word) : (c.setReg n w).late = c.late := by
  unfold Slot.setReg; split <;> rfl
@[simp] theorem Slot.setReg_pause (c : Slot) (n : Nat) (w : Word) : (c.setReg n w).pause = c.pause := by
  unfold Slot.setReg; split <;> rfl
@[simp] theorem Slot.setReg_pc (c : Slot) (n : Nat) (w : Word) : (c.setReg n w).pc = c.pc := by
  unfold Slot.setReg; split <;> rfl
@[simp] theorem Slot.setReg_ir (c : Slot) (n : Nat) (w : Word) : (c.setReg n w).ir = c.ir := by
  unfold Slot.setReg; split <;> rfl
@[simp] theorem Slot.setReg_vregs (c : Slot) (n : Nat) (w : Word) : (c.setReg n w).vregs = c.vregs := by
  unfold Slot.setReg; split <;> rfl
@[simp] theorem Slot.setReg_masks (c : Slot) (n : Nat) (w : Word) : (c.setReg n w).masks = c.masks := by
  unfold Slot.setReg; split <;> rfl
@[simp] theorem Slot.setReg_handles (c : Slot) (n : Nat) (w : Word) : (c.setReg n w).handles = c.handles := by
  unfold Slot.setReg; split <;> rfl
@[simp] theorem Slot.setReg_fmode (c : Slot) (n : Nat) (w : Word) : (c.setReg n w).fmode = c.fmode := by
  unfold Slot.setReg; split <;> rfl
@[simp] theorem Slot.setReg_fflags (c : Slot) (n : Nat) (w : Word) : (c.setReg n w).fflags = c.fflags := by
  unfold Slot.setReg; split <;> rfl
@[simp] theorem Slot.setReg_tcause (c : Slot) (n : Nat) (w : Word) : (c.setReg n w).tcause = c.tcause := by
  unfold Slot.setReg; split <;> rfl
@[simp] theorem Slot.setReg_tepc (c : Slot) (n : Nat) (w : Word) : (c.setReg n w).tepc = c.tepc := by
  unfold Slot.setReg; split <;> rfl
@[simp] theorem Slot.setReg_tword (c : Slot) (n : Nat) (w : Word) : (c.setReg n w).tword = c.tword := by
  unfold Slot.setReg; split <;> rfl
@[simp] theorem Slot.setReg_tval (c : Slot) (n : Nat) (w : Word) : (c.setReg n w).tval = c.tval := by
  unfold Slot.setReg; split <;> rfl
@[simp] theorem Slot.setReg_thand (c : Slot) (n : Nat) (w : Word) : (c.setReg n w).thand = c.thand := by
  unfold Slot.setReg; split <;> rfl
@[simp] theorem Slot.setReg_mig (c : Slot) (n : Nat) (w : Word) : (c.setReg n w).mig = c.mig := by
  unfold Slot.setReg; split <;> rfl
@[simp] theorem Slot.setReg_ref (c : Slot) (n : Nat) (w : Word) : (c.setReg n w).ref = c.ref := by
  unfold Slot.setReg; split <;> rfl
@[simp] theorem Slot.setReg_inh (c : Slot) (n : Nat) (w : Word) : (c.setReg n w).inh = c.inh := by
  unfold Slot.setReg; split <;> rfl
@[simp] theorem Slot.setReg_deny (c : Slot) (n : Nat) (w : Word) : (c.setReg n w).deny = c.deny := by
  unfold Slot.setReg; split <;> rfl
@[simp] theorem Slot.setReg_denyEv (c : Slot) (n : Nat) (w : Word) : (c.setReg n w).denyEv = c.denyEv := by
  unfold Slot.setReg; split <;> rfl
@[simp] theorem Slot.setReg_halo (c : Slot) (n : Nat) (w : Word) : (c.setReg n w).halo = c.halo := by
  unfold Slot.setReg; split <;> rfl
@[simp] theorem Slot.setReg_wins (c : Slot) (n : Nat) (w : Word) : (c.setReg n w).wins = c.wins := by
  unfold Slot.setReg; split <;> rfl
@[simp] theorem Slot.setReg_decl (c : Slot) (n : Nat) (w : Word) : (c.setReg n w).decl = c.decl := by
  unfold Slot.setReg; split <;> rfl
@[simp] theorem Slot.setReg_domain (c : Slot) (n : Nat) (w : Word) : (c.setReg n w).domain = c.domain := by
  unfold Slot.setReg; split <;> rfl
@[simp] theorem Slot.setReg_monitor (c : Slot) (n : Nat) (w : Word) : (c.setReg n w).monitor = c.monitor := by
  unfold Slot.setReg; split <;> rfl
@[simp] theorem Slot.setReg_wait (c : Slot) (n : Nat) (w : Word) : (c.setReg n w).wait = c.wait := by
  unfold Slot.setReg; split <;> rfl
@[simp] theorem Slot.setReg_block (c : Slot) (n : Nat) (w : Word) : (c.setReg n w).block = c.block := by
  unfold Slot.setReg; split <;> rfl
@[simp] theorem Slot.setReg_resumeAt (c : Slot) (n : Nat) (w : Word) : (c.setReg n w).resumeAt = c.resumeAt := by
  unfold Slot.setReg; split <;> rfl
@[simp] theorem Slot.setReg_rels (c : Slot) (n : Nat) (w : Word) : (c.setReg n w).rels = c.rels := by
  unfold Slot.setReg; split <;> rfl
@[simp] theorem Slot.setReg_popTiles (c : Slot) (n : Nat) (w : Word) : (c.setReg n w).popTiles = c.popTiles := by
  unfold Slot.setReg; split <;> rfl
@[simp] theorem Slot.setReg_q0tiles (c : Slot) (n : Nat) (w : Word) : (c.setReg n w).q0tiles = c.q0tiles := by
  unfold Slot.setReg; split <;> rfl
@[simp] theorem Slot.setReg_tileSeen (c : Slot) (n : Nat) (w : Word) : (c.setReg n w).tileSeen = c.tileSeen := by
  unfold Slot.setReg; split <;> rfl
@[simp] theorem Slot.setReg_landed (c : Slot) (n : Nat) (w : Word) : (c.setReg n w).landed = c.landed := by
  unfold Slot.setReg; split <;> rfl
@[simp] theorem Slot.setReg_haloDue (c : Slot) (n : Nat) (w : Word) : (c.setReg n w).haloDue = c.haloDue := by
  unfold Slot.setReg; split <;> rfl
@[simp] theorem Slot.setReg_cls (c : Slot) (n : Nat) (w : Word) : (c.setReg n w).cls = c.cls := by
  unfold Slot.setReg; split <;> rfl
@[simp] theorem Slot.setReg_q2seen (c : Slot) (n : Nat) (w : Word) : (c.setReg n w).q2seen = c.q2seen := by
  unfold Slot.setReg; split <;> rfl
@[simp] theorem Slot.setReg_q3seen (c : Slot) (n : Nat) (w : Word) : (c.setReg n w).q3seen = c.q3seen := by
  unfold Slot.setReg; split <;> rfl
@[simp] theorem Slot.setReg_q0push (c : Slot) (n : Nat) (w : Word) : (c.setReg n w).q0push = c.q0push := by
  unfold Slot.setReg; split <;> rfl
@[simp] theorem Slot.setReg_q0held (c : Slot) (n : Nat) (w : Word) : (c.setReg n w).q0held = c.q0held := by
  unfold Slot.setReg; split <;> rfl
@[simp] theorem Slot.setReg_q0read (c : Slot) (n : Nat) (w : Word) : (c.setReg n w).q0read = c.q0read := by
  unfold Slot.setReg; split <;> rfl
@[simp] theorem Slot.setReg_mbox (c : Slot) (n : Nat) (w : Word) : (c.setReg n w).mbox = c.mbox := by
  unfold Slot.setReg; split <;> rfl
@[simp] theorem Slot.setReg_q1read (c : Slot) (n : Nat) (w : Word) : (c.setReg n w).q1read = c.q1read := by
  unfold Slot.setReg; split <;> rfl
@[simp] theorem Slot.setReg_q2send (c : Slot) (n : Nat) (w : Word) : (c.setReg n w).q2send = c.q2send := by
  unfold Slot.setReg; split <;> rfl
@[simp] theorem Slot.setReg_q2recv (c : Slot) (n : Nat) (w : Word) : (c.setReg n w).q2recv = c.q2recv := by
  unfold Slot.setReg; split <;> rfl
@[simp] theorem Slot.setReg_q3cmd (c : Slot) (n : Nat) (w : Word) : (c.setReg n w).q3cmd = c.q3cmd := by
  unfold Slot.setReg; split <;> rfl
@[simp] theorem Slot.setReg_q3read (c : Slot) (n : Nat) (w : Word) : (c.setReg n w).q3read = c.q3read := by
  unfold Slot.setReg; split <;> rfl
@[simp] theorem Slot.setReg_q4cmd (c : Slot) (n : Nat) (w : Word) : (c.setReg n w).q4cmd = c.q4cmd := by
  unfold Slot.setReg; split <;> rfl
@[simp] theorem Slot.setReg_q4read (c : Slot) (n : Nat) (w : Word) : (c.setReg n w).q4read = c.q4read := by
  unfold Slot.setReg; split <;> rfl
@[simp] theorem Slot.setReg_q5 (c : Slot) (n : Nat) (w : Word) : (c.setReg n w).q5 = c.q5 := by
  unfold Slot.setReg; split <;> rfl
@[simp] theorem Slot.setReg_energyDue (c : Slot) (n : Nat) (w : Word) : (c.setReg n w).energyDue = c.energyDue := by
  unfold Slot.setReg; split <;> rfl
@[simp] theorem Slot.setReg_dbgHalt (c : Slot) (n : Nat) (w : Word) : (c.setReg n w).dbgHalt = c.dbgHalt := by
  unfold Slot.setReg; split <;> rfl

/-! ### An awaited event has come -/

@[simp] theorem Slot.waitFor_phys (c : Slot) (w : Wait) : (c.waitFor w).phys = c.phys := rfl
@[simp] theorem Slot.waitFor_owner (c : Slot) (w : Wait) : (c.waitFor w).owner = c.owner := rfl
@[simp] theorem Slot.waitFor_thread (c : Slot) (w : Wait) : (c.waitFor w).thread = c.thread := rfl
@[simp] theorem Slot.waitFor_lcore (c : Slot) (w : Wait) : (c.waitFor w).lcore = c.lcore := rfl
@[simp] theorem Slot.waitFor_lclus (c : Slot) (w : Wait) : (c.waitFor w).lclus = c.lclus := rfl
@[simp] theorem Slot.waitFor_busy (c : Slot) (w : Wait) : (c.waitFor w).busy = c.busy := rfl
@[simp] theorem Slot.waitFor_late (c : Slot) (w : Wait) : (c.waitFor w).late = c.late := rfl
@[simp] theorem Slot.waitFor_pause (c : Slot) (w : Wait) : (c.waitFor w).pause = c.pause := rfl
@[simp] theorem Slot.waitFor_pc (c : Slot) (w : Wait) : (c.waitFor w).pc = c.pc := rfl
@[simp] theorem Slot.waitFor_ir (c : Slot) (w : Wait) : (c.waitFor w).ir = c.ir := rfl
@[simp] theorem Slot.waitFor_regs (c : Slot) (w : Wait) : (c.waitFor w).regs = c.regs := rfl
@[simp] theorem Slot.waitFor_vregs (c : Slot) (w : Wait) : (c.waitFor w).vregs = c.vregs := rfl
@[simp] theorem Slot.waitFor_masks (c : Slot) (w : Wait) : (c.waitFor w).masks = c.masks := rfl
@[simp] theorem Slot.waitFor_handles (c : Slot) (w : Wait) : (c.waitFor w).handles = c.handles := rfl
@[simp] theorem Slot.waitFor_fmode (c : Slot) (w : Wait) : (c.waitFor w).fmode = c.fmode := rfl
@[simp] theorem Slot.waitFor_fflags (c : Slot) (w : Wait) : (c.waitFor w).fflags = c.fflags := rfl
@[simp] theorem Slot.waitFor_tcause (c : Slot) (w : Wait) : (c.waitFor w).tcause = c.tcause := rfl
@[simp] theorem Slot.waitFor_tepc (c : Slot) (w : Wait) : (c.waitFor w).tepc = c.tepc := rfl
@[simp] theorem Slot.waitFor_tword (c : Slot) (w : Wait) : (c.waitFor w).tword = c.tword := rfl
@[simp] theorem Slot.waitFor_tval (c : Slot) (w : Wait) : (c.waitFor w).tval = c.tval := rfl
@[simp] theorem Slot.waitFor_thand (c : Slot) (w : Wait) : (c.waitFor w).thand = c.thand := rfl
@[simp] theorem Slot.waitFor_mig (c : Slot) (w : Wait) : (c.waitFor w).mig = c.mig := rfl
@[simp] theorem Slot.waitFor_ref (c : Slot) (w : Wait) : (c.waitFor w).ref = c.ref := rfl
@[simp] theorem Slot.waitFor_inh (c : Slot) (w : Wait) : (c.waitFor w).inh = c.inh := rfl
@[simp] theorem Slot.waitFor_deny (c : Slot) (w : Wait) : (c.waitFor w).deny = c.deny := rfl
@[simp] theorem Slot.waitFor_denyEv (c : Slot) (w : Wait) : (c.waitFor w).denyEv = c.denyEv := rfl
@[simp] theorem Slot.waitFor_halo (c : Slot) (w : Wait) : (c.waitFor w).halo = c.halo := rfl
@[simp] theorem Slot.waitFor_wins (c : Slot) (w : Wait) : (c.waitFor w).wins = c.wins := rfl
@[simp] theorem Slot.waitFor_decl (c : Slot) (w : Wait) : (c.waitFor w).decl = c.decl := rfl
@[simp] theorem Slot.waitFor_domain (c : Slot) (w : Wait) : (c.waitFor w).domain = c.domain := rfl
@[simp] theorem Slot.waitFor_monitor (c : Slot) (w : Wait) : (c.waitFor w).monitor = c.monitor := rfl
@[simp] theorem Slot.waitFor_wait (c : Slot) (w : Wait) : (c.waitFor w).wait = some w := rfl
@[simp] theorem Slot.waitFor_block (c : Slot) (w : Wait) : (c.waitFor w).block = c.block := rfl
@[simp] theorem Slot.waitFor_resumeAt (c : Slot) (w : Wait) : (c.waitFor w).resumeAt = c.resumeAt := rfl
@[simp] theorem Slot.waitFor_rels (c : Slot) (w : Wait) : (c.waitFor w).rels = c.rels := rfl
@[simp] theorem Slot.waitFor_popTiles (c : Slot) (w : Wait) : (c.waitFor w).popTiles = c.popTiles := rfl
@[simp] theorem Slot.waitFor_q0tiles (c : Slot) (w : Wait) : (c.waitFor w).q0tiles = c.q0tiles := rfl
@[simp] theorem Slot.waitFor_tileSeen (c : Slot) (w : Wait) : (c.waitFor w).tileSeen = c.tileSeen := rfl
@[simp] theorem Slot.waitFor_landed (c : Slot) (w : Wait) : (c.waitFor w).landed = c.landed := rfl
@[simp] theorem Slot.waitFor_haloDue (c : Slot) (w : Wait) : (c.waitFor w).haloDue = c.haloDue := rfl
@[simp] theorem Slot.waitFor_cls (c : Slot) (w : Wait) : (c.waitFor w).cls = c.cls := rfl
@[simp] theorem Slot.waitFor_q2seen (c : Slot) (w : Wait) : (c.waitFor w).q2seen = c.q2seen := rfl
@[simp] theorem Slot.waitFor_q3seen (c : Slot) (w : Wait) : (c.waitFor w).q3seen = c.q3seen := rfl
@[simp] theorem Slot.waitFor_q0push (c : Slot) (w : Wait) : (c.waitFor w).q0push = c.q0push := rfl
@[simp] theorem Slot.waitFor_q0held (c : Slot) (w : Wait) : (c.waitFor w).q0held = c.q0held := rfl
@[simp] theorem Slot.waitFor_q0read (c : Slot) (w : Wait) : (c.waitFor w).q0read = c.q0read := rfl
@[simp] theorem Slot.waitFor_mbox (c : Slot) (w : Wait) : (c.waitFor w).mbox = c.mbox := rfl
@[simp] theorem Slot.waitFor_q1read (c : Slot) (w : Wait) : (c.waitFor w).q1read = c.q1read := rfl
@[simp] theorem Slot.waitFor_q2send (c : Slot) (w : Wait) : (c.waitFor w).q2send = c.q2send := rfl
@[simp] theorem Slot.waitFor_q2recv (c : Slot) (w : Wait) : (c.waitFor w).q2recv = c.q2recv := rfl
@[simp] theorem Slot.waitFor_q3cmd (c : Slot) (w : Wait) : (c.waitFor w).q3cmd = c.q3cmd := rfl
@[simp] theorem Slot.waitFor_q3read (c : Slot) (w : Wait) : (c.waitFor w).q3read = c.q3read := rfl
@[simp] theorem Slot.waitFor_q4cmd (c : Slot) (w : Wait) : (c.waitFor w).q4cmd = c.q4cmd := rfl
@[simp] theorem Slot.waitFor_q4read (c : Slot) (w : Wait) : (c.waitFor w).q4read = c.q4read := rfl
@[simp] theorem Slot.waitFor_q5 (c : Slot) (w : Wait) : (c.waitFor w).q5 = c.q5 := rfl
@[simp] theorem Slot.waitFor_energyDue (c : Slot) (w : Wait) : (c.waitFor w).energyDue = c.energyDue := rfl
@[simp] theorem Slot.waitFor_dbgHalt (c : Slot) (w : Wait) : (c.waitFor w).dbgHalt = c.dbgHalt := rfl

end Sys2Proof.Machine
end

