-- ==== Sys2Proof/Laws/Ops.lean ====
section
/-! SUPPORT. What each shared operation can do, said once: keyed lists, register sources and results, waiting, traps, and writes
landing in memory. -/

namespace Sys2Proof.Machine

/-! ### Lists with a key -/

theorem find_mid {α : Type} (p : α → Bool) (es fs : List α) (e : α) (h : ∀ f ∈ es, p f = false) (he : p e = true) :
    (es ++ e :: fs).find? p = some e := by
  induction es with
  | nil => simp [he]
  | cons a as ih => simp [h a (by simp), ih (fun f hf => h f (by simp [hf]))]

theorem dropFirst_mid {α : Type} (p : α → Bool) (es fs : List α) (e : α) (h : ∀ f ∈ es, p f = false) (he : p e = true) :
    dropFirst p (es ++ e :: fs) = es ++ fs := by
  induction es with
  | nil => simp [he, dropFirst]
  | cons a as ih => simp [dropFirst, h a (by simp), ih (fun f hf => h f (by simp [hf]))]

theorem updKey_mid {α : Type} (p : α → Bool) (n : α) (es fs : List α) (e : α) (h : ∀ f ∈ es, p f = false) (he : p e = true) :
    updKey p n (es ++ e :: fs) = es ++ n :: fs := by
  induction es with
  | nil => simp [he, updKey]
  | cons a as ih => simp [updKey, h a (by simp), ih (fun f hf => h f (by simp [hf]))]

/-- Of two entries put under one key the second stands. -/
theorem updKey_twice {α : Type} (p : α → Bool) (m n : α) (hm : p m = true) (es : List α) :
    updKey p n (updKey p m es) = updKey p n es := by
  induction es with
  | nil => simp [updKey, hm]
  | cons a as ih => by_cases ha : p a = true <;> simp [updKey, ha, hm, ih]

theorem find_updKey_same {α : Type} (p : α → Bool) (n : α) (hn : p n = true) (es : List α) : (updKey p n es).find? p = some n := by
  induction es with
  | nil => simp [updKey, hn]
  | cons a as ih =>
    by_cases ha : p a = true
    · simp [updKey, ha, hn]
    · simp [updKey, ha, ih]

theorem find_updKey_other {α : Type} (p q : α → Bool) (n : α) (hn : q n = false) (hp : ∀ e, p e = true → q e = false)
    (es : List α) : (updKey p n es).find? q = es.find? q := by
  induction es with
  | nil => simp [updKey, hn]
  | cons a as ih =>
    by_cases ha : p a = true
    · simp [updKey, ha, hn, hp a ha]
    · simp [updKey, ha, List.find?_cons, ih]

/-! ### Contexts and slots by number -/

theorem State.ctxAt_setCtx_same (s : State) (x : Ctx) : (s.setCtx x).ctxAt x.id = some x :=
  find_updKey_same (fun y : Ctx => y.id == x.id) x (by simp) s.ctxs

theorem State.ctxAt_setCtx_other (s : State) (x : Ctx) {id : Nat} (h : id ≠ x.id) : (s.setCtx x).ctxAt id = s.ctxAt id :=
  find_updKey_other (fun y : Ctx => y.id == x.id) (fun y => y.id == id) x (by simpa using fun e => h e.symm)
    (by intro e he; simp at he ⊢; omega) s.ctxs

theorem State.ctxAt_id {s : State} {id : Nat} {x : Ctx} (h : s.ctxAt id = some x) : x.id = id := by
  simpa using List.find?_some h

@[simp] theorem State.slotAt_cur (s : State) : s.slotAt s.cur.phys = s.cur := if_pos rfl

theorem State.slotAt_setSlot_same (s : State) {c : Slot} (h : c.occupied = true) : (s.setSlot c).slotAt c.phys = c := by
  unfold State.setSlot
  split
  · simp [State.slotAt]
  · next hc =>
    simp only [State.slotAt, if_neg hc]
    rw [find_updKey_same (fun x : Slot => x.phys == c.phys) c (by simp)]
    rfl

theorem State.slotAt_setSlot_other (s : State) {c : Slot} {phys : Nat} (h : phys ≠ c.phys) (hc : s.cur.phys ≠ c.phys) :
    (s.setSlot c).slotAt phys = s.slotAt phys := by
  have he : ∀ e : Slot, (e.phys == c.phys) = true → (e.phys == phys) = false := by
    intro e he; simp at he ⊢; omega
  unfold State.setSlot
  rw [if_neg hc]
  split
  · simp only [State.slotAt]
    rw [find_updKey_other (fun x : Slot => x.phys == c.phys) (fun x => x.phys == phys) c (he c (by simp)) he]
  · simp only [State.slotAt]
    congr 2
    induction s.slots with
    | nil => rfl
    | cons a as ih =>
      by_cases ha : a.phys = c.phys
      · simp [ha, ih, Ne.symm h]
      · simp [ha, List.find?_cons, ih]

/-! ### Registers and sources -/

@[simp] theorem Slot.reg_zero (c : Slot) : c.reg 0 = 0 := rfl

@[simp] theorem Slot.setReg_zero (c : Slot) (w : Word) : c.setReg 0 w = c := rfl

theorem Slot.reg_setReg_same (c : Slot) {n : Nat} (w : Word) (h0 : n ≠ 0) (h : n < 24) : (c.setReg n w).reg n = w := by
  simp [Slot.reg, Slot.setReg, h0, h]

theorem Slot.reg_setReg_other (c : Slot) {n m : Nat} (w : Word) (h : m ≠ n) : (c.setReg n w).reg m = c.reg m := by
  unfold Slot.reg Slot.setReg
  split
  · rfl
  · split
    · rfl
    · simp [Ne.symm h]

theorem Slot.readReg_reg (c : Slot) {r : Reg5} (h : r.toNat < 24) : c.readReg r = some (c.reg r.toNat, c) := if_pos h

/-- A read of a source never changes the pc, the registers, the status, the flags or the slot's number. -/
theorem Slot.readReg_keeps {c d : Slot} {r : Reg5} {w : Word} (h : c.readReg r = some (w, d)) :
    d.pc = c.pc ∧ d.regs = c.regs ∧ d.vregs = c.vregs ∧ d.masks = c.masks ∧ d.status = c.status ∧ d.fflags = c.fflags ∧
      d.phys = c.phys ∧ d.owner = c.owner ∧ d.ir = c.ir ∧ d.block = c.block := by
  unfold Slot.readReg at h
  split at h
  · cases h; simp
  · unfold Slot.popQueue at h
    split at h
    case h_6 => cases h; simp
    all_goals (split at h <;> cases h; simp)

theorem withSrc1_reg (s : State) {a : Reg5} (k : Word → Slot → Out) (h : a.toNat < 24) :
    withSrc1 s a k = k (s.cur.reg a.toNat) s.cur := by
  unfold withSrc1; rw [Slot.readReg_reg _ h]

theorem withSrc2_reg (s : State) {a b : Reg5} (k : Word → Word → Slot → Out) (ha : a.toNat < 24) (hb : b.toNat < 24) :
    withSrc2 s a b k = k (s.cur.reg a.toNat) (s.cur.reg b.toNat) s.cur := by
  unfold withSrc2; rw [Slot.readReg_reg _ ha]; simp only []; rw [Slot.readReg_reg _ hb]

theorem withSrc3_reg (s : State) {a b d : Reg5} (k : Word → Word → Word → Slot → Out) (ha : a.toNat < 24) (hb : b.toNat < 24)
    (hd : d.toNat < 24) : withSrc3 s a b d k = k (s.cur.reg a.toNat) (s.cur.reg b.toNat) (s.cur.reg d.toNat) s.cur := by
  unfold withSrc3; rw [Slot.readReg_reg _ ha]; simp only []; rw [Slot.readReg_reg _ hb]; simp only []; rw [Slot.readReg_reg _ hd]

/-- One source: the instruction goes on with it, or the thread waits with nothing popped. -/
theorem withSrc1_cases (s : State) (a : Reg5) (k : Word → Slot → Out) :
    (∃ x c, s.cur.readReg a = some (x, c) ∧ withSrc1 s a k = k x c) ∨
    (s.cur.readReg a = none ∧ withSrc1 s a k = stallSources s) := by
  unfold withSrc1
  split
  · next x c h => exact .inl ⟨x, c, h, rfl⟩
  · next h => exact .inr ⟨h, rfl⟩

/-- Two sources: a is read before b. -/
theorem withSrc2_cases (s : State) (a b : Reg5) (k : Word → Word → Slot → Out) :
    (∃ x c y d, s.cur.readReg a = some (x, c) ∧ c.readReg b = some (y, d) ∧ withSrc2 s a b k = k x y d) ∨
    withSrc2 s a b k = stallSources s := by
  unfold withSrc2
  split
  · next x c h =>
    split
    · next y d h' => exact .inl ⟨x, c, y, d, h, h', rfl⟩
    · exact .inr rfl
  · exact .inr rfl

/-! ### Results and the next pc -/

theorem finishAt_reg (s : State) (c : Slot) {d : Reg5} (w npc : Word) (h : d.toNat < 24) :
    finishAt s c d w npc = .next { s with cur := { c.setReg d.toNat w with pc := npc } } := if_pos h

theorem finish_reg (s : State) (c : Slot) {d : Reg5} (w : Word) (h : d.toNat < 24) :
    finish s c d w = .next { s with cur := { c.setReg d.toNat w with pc := c.pc + 4 } } := if_pos h

theorem finish_queue (s : State) (c : Slot) {d : Reg5} (w : Word) (h : 24 ≤ d.toNat) :
    finish s c d w = pushQueue s c d.toNat w (c.pc + 4) := if_neg (by omega)

theorem withDest_reg (s : State) (c : Slot) {d : Reg5} (k : Unit → Out) (h : d.toNat < 24) : withDest s c d k = k () := by
  have hr : destRefused d = false := by simp [destRefused]; omega
  have h24 : (d.toNat == 24) = false := by simp; omega
  have h26 : (d.toNat == 26) = false := by simp; omega
  simp [withDest, destReason, hr, h24, h26]

theorem done_eq (s : State) (c : Slot) : done s c = .next { s with cur := { c with pc := c.pc + 4 } } := rfl

theorem waitOn_eq (s : State) (c : Slot) (w : Wait) : waitOn s c w = .next { s with cur := { c with wait := some w, status := w.status } } :=
  rfl

/-! ### Traps -/

/-- A trap always gives a next state: the registers travel home first, with the block kept for an ERET back into it, or the
trap is taken. -/
theorem trap_cases (s : State) (c : Slot) (cause : TrapCause) (tval : Word) :
    (c.block = none ∧ trap s c cause tval = .next (takeTrap s c cause tval (recordValue cause c.ir tval) c.ir false)) ∨
    (∃ b, c.block = some b ∧ trap s c cause tval =
      .next { s with cur := { c with
        block := none, resumeAt := some (c.pc, { b with idx := b.idx - 1, reads := [], stores := [] }),
        wait := some (.migrReturn (some (cause, tval, recordValue cause c.ir tval))), status := .waitMem } }) := by
  unfold trap trapShowing
  cases h : c.block with
  | none => exact .inl ⟨rfl, by simp⟩
  | some b => exact .inr ⟨b, rfl, by simp⟩

theorem takeTrap_handled (s : State) {c : Slot} {cause : TrapCause} (tval value : Word) (word : IWord) (mig : Bool)
    (hr : c.ref = false) (h : trapIsFatal c cause = false) :
    takeTrap s c cause tval value word mig = s.setSlot (c.enterHandler cause tval word mig) := by
  simp [takeTrap, hr, h]

theorem takeTrap_fatal (s : State) {c : Slot} {cause : TrapCause} (tval value : Word) (word : IWord) (mig : Bool)
    (hr : c.ref = false) (h : trapIsFatal c cause = true) :
    takeTrap s c cause tval value word mig = fatalTrap s c cause value word 0 := by
  simp [takeTrap, hr, h]

theorem trapIsFatal_iff (c : Slot) (cause : TrapCause) :
    trapIsFatal c cause = true ↔ c.thand = 0 ∨ c.inh = true ∨ cause = .uncorr := by
  simp [trapIsFatal, or_assoc]

@[simp] theorem State.post_mem (s : State) (n : Nat) (v : BitVec 4) (b : List Byte) : (s.post n v b).mem = s.mem := by
  unfold State.post; split <;> rfl

@[simp] theorem State.notify_mem (s : State) (x : Ctx) (k : NoticeKind) (p : List Byte) : (s.notify x k p).mem = s.mem := by
  simp [State.notify]

@[simp] theorem State.enterError_mem (s : State) (id kind die : Nat) (r : List Byte) : (s.enterError id kind die r).mem = s.mem := by
  unfold State.enterError
  split
  · rfl
  · split
    · rfl
    · split <;> simp

@[simp] theorem fatalTrap_mem (s : State) (c : Slot) (k : TrapCause) (v : Word) (w : IWord) (l : Word) :
    (fatalTrap s c k v w l).mem = s.mem := by
  unfold fatalTrap fatalTrapAt
  dsimp only
  split <;> simp

/-- Taking a trap writes no memory. -/
@[simp] theorem takeTrap_mem (s : State) (c : Slot) (k : TrapCause) (t v : Word) (w : IWord) (m : Bool) :
    (takeTrap s c k t v w m).mem = s.mem := by
  unfold takeTrap
  split
  · simp
  · split <;> simp

/-! ### Writes landing at their homes -/

@[simp] theorem State.landImage_mem (s : State) (cs : List Host.Cell) : (s.landImage cs).mem = s.mem := by
  unfold State.landImage
  split
  · rfl
  · simp

/-- Noting a doorbell writes no memory. -/
@[simp] theorem State.ringDoorbells_mem (s : State) (cs : List Host.Cell) (k : Nat) : (s.ringDoorbells cs k).mem = s.mem := by
  unfold State.ringDoorbells
  split
  · split
    · split <;> simp
    · rfl
  · rfl

/-- A write that lands keeps memory in its canonical form. -/
theorem State.land_wf {s : State} (cs : List Host.Cell) (h : Memory.wf s.mem = true) : Memory.wf (s.land cs).mem = true := by
  unfold State.land
  split
  · exact h
  · split
    · exact h
    · split
      · simpa using Memory.wf_writeCells _ h
      · simpa using h

theorem State.landFull_mem (s : State) (cs : List Host.Cell) : (s.landFull cs).mem = (s.land cs).mem := by
  unfold State.landFull
  generalize s.land cs = t
  induction cs.filter (fun (x : Host.Cell) => hasGranule x.1) generalizing t with
  | nil => rfl
  | cons a as ih =>
    simp only [List.foldl_cons]
    rw [ih]
    split <;> simp

/-- An engine's write keeps memory in its canonical form. -/
theorem State.landFull_wf {s : State} (cs : List Host.Cell) (h : Memory.wf s.mem = true) : Memory.wf (s.landFull cs).mem = true := by
  rw [State.landFull_mem]; exact State.land_wf cs h

theorem State.land_memory {s : State} {k : Nat} {b : Byte} {cs : List Host.Cell} (hk : s.keyHeld k = true) (hm : inMem k = true) :
    (s.land ((k, b) :: cs)).mem = writeCells s.mem (((k, b) :: cs).filter (fun (x : Host.Cell) => inMem x.1)) := by
  simp [State.land, hk, hm]

end Sys2Proof.Machine
end

