-- ==== Sys2Proof/Laws/Contexts.lean ====
section
/-! SUPPORT. Contexts: a new CTX.ID is unused, allotting a context's units leaves every context as it was, and a split leaves
the parent and the child. -/

namespace Sys2Proof.Machine

/-- A new CTX.ID is unused while one is (R327). -/
theorem State.newId_unused {s : State} {n : Nat} (h0 : 0 < n) (h1 : n < 65536) (h : s.idUsed n = false) :
    s.idUsed s.newId.1 = false := by
  unfold State.newId
  dsimp only
  split
  · next hk => simpa using hk.2
  · cases hf : (upTo 65535).find? (fun i => !s.idUsed (i + 1)) with
    | none =>
      have := List.find?_eq_none.mp hf (n - 1) (List.mem_range.mpr (by omega))
      rw [Nat.sub_add_cancel h0, h] at this
      exact absurd rfl this
    | some i => simpa using List.find?_some hf

/-- A fold of steps that leave the contexts alone leaves them alone. -/
theorem foldl_ctxs {α : Type} (f : State → α → State) (hf : ∀ s a, (f s a).ctxs = s.ctxs) (l : List α) (s : State) :
    (l.foldl f s).ctxs = s.ctxs := by
  induction l generalizing s with
  | nil => rfl
  | cons a l ih => rw [List.foldl_cons, ih, hf]

/-- Giving a core's channels to a context leaves the contexts as they were (R286). -/
@[simp] theorem State.giveChans_ctxs (s : State) (core ctx : Nat) : (s.giveChans core ctx).ctxs = s.ctxs := by
  unfold State.giveChans State.atFamily
  split
  · rfl
  · split <;> rfl

/-- Allotting a context's units leaves every context as it was (R334). -/
@[simp] theorem State.allot_ctxs (s : State) (x : Ctx) (st : Status) : (s.allot x st).ctxs = s.ctxs := by
  show ((((s.allotSlots x st).allotChans x).allotUnits x)).ctxs = s.ctxs
  unfold State.allotUnits State.allotChans State.allotSlots
  rw [foldl_ctxs _ (by intro s a; split <;> rfl), foldl_ctxs _ (by intro s a; split <;> simp),
    foldl_ctxs _ (by intro s a; split <;> simp)]

@[simp] theorem State.putCode_ctxs (s : State) (ctx : Nat) (l : Layout) (o : Loaded) : (s.putCode ctx l o).ctxs = s.ctxs := rfl

/-- Installing a context's own key leaves the contexts as they were (R256). -/
theorem State.installKey_own (s : State) (x : Ctx) (ks id : Nat) (key : List Byte) (hi : id = x.id) (hk : key = x.key)
    (hv : x.keyValid = true) : ((s.setCtx x).installKey ks id (some key)).ctxs = (s.setCtx x).ctxs := by
  subst hi hk
  have hx : ({ x with key := x.key, keyValid := true } : Ctx) = x := by rw [← hv]
  have hc : ∀ l, ({ s.setCtx x with keys := l } : State).ctxAt x.id = some x := fun _ => s.ctxAt_setCtx_same x
  unfold State.installKey
  simp only [hc, Option.getD_some, Option.isSome_some, hx, if_pos]
  exact updKey_twice _ x x (by simp) _

/-- Drawing a CTX.ID leaves the contexts alone. -/
theorem State.newId_ctxs (s : State) : s.newId.2.ctxs = s.ctxs := by
  unfold State.newId
  dsimp only
  split <;> rfl

/-- A split leaves the parent, changed, and the child, and every other context as it was (R339). -/
theorem State.splitOff_ctxs (s : State) (p : Ctx) (r : Resources) (ks : Nat) (lay : Layout) (g : Gxo) (who : Nat × Nat) :
    (s.splitOff p r ks lay g who).2 = s.newId.1 ∧ ∃ p' x : Ctx,
      (s.splitOff p r ks lay g who).1.ctxs = updKey (fun y => y.id == x.id) x (updKey (fun y => y.id == p'.id) p' s.ctxs) ∧
      p'.id = p.id ∧ p'.handles = p.handles ∧ p'.slots = (p.takes r).stay ∧ p'.kids = p.kids + 1 ∧ p'.res = p.res.lessChild r ∧
      x.id = s.newId.1 ∧ x.parent = some p.id ∧ x.sub = true ∧ x.state = .run ∧ x.slots = (p.takes r).slots ∧ x.warrant.res = r ∧
      x.warrant.notAfter = p.warrant.notAfter := by
  unfold State.splitOff
  refine ⟨rfl, ?_⟩
  dsimp only
  refine ⟨?p, ?x, ?h, ?k⟩
  case h =>
    split
    · rw [State.putCode_ctxs, State.allot_ctxs, State.installKey_own, ← s.newId_ctxs] <;> rfl
    · rw [State.allot_ctxs, State.installKey_own, ← s.newId_ctxs] <;> rfl
  case k => exact ⟨rfl, rfl, rfl, rfl, rfl, rfl, rfl, rfl, rfl, rfl, rfl, rfl⟩

end Sys2Proof.Machine
end

