-- ==== Sys2Proof/Laws/PerInstr.lean ====
section
/-! SUPPORT. Encoding and decoding agree: for every constructor of `Instr`, the word of a well-formed instruction decodes
to that instruction. -/

set_option linter.unusedSimpArgs false

namespace Sys2Proof.Laws

/-- The word of a well-formed instruction decodes to it: in referee mode every word, outside it the words below major
0x3C (R73). -/
def RoundTrip.Statement (i : Instr) : Prop :=
  i.WellFormed → ∀ ref : Bool, (ref = true ∨ fld (encodeNat i) 31 26 < 60) → decode ref (encode i) = .ok i

/-- A device event is no well-formed instruction. -/
theorem roundTrip_event {i : Instr} (h : i.isWord = false) : RoundTrip.Statement i := by
  intro hw
  simp [Instr.WellFormed, Instr.wf, h] at hw

/-- A word whose form decodes to the instruction, once its limits hold, decodes to it. -/
theorem roundTrip_word {i : Instr} (lt : encodeNat i < 4294967296)
    (h : ∀ ref : Bool, i.codeLimits = true → i.reservedOk = true → (ref = true ∨ fld (encodeNat i) 31 26 < 60) →
      decodeForm ref (encodeNat i) = .ok i) : RoundTrip.Statement i := by
  intro hw ref hm
  simp only [Instr.WellFormed, Instr.wf, Bool.and_eq_true, Option.isNone_iff_eq_none] at hw
  have hn : (encode i).toNat = encodeNat i := by
    simp only [encode, BitVec.toNat_ofNat]
    exact Nat.mod_eq_of_lt (by simpa using lt)
  simp only [decode, hn, h ref hw.1.1.2 hw.1.2 hm, hw.2]

/-- A flag's code is one bit. -/
theorem boolCode_lt (b : Bool) : boolCode b < 2 := by cases b <;> decide

/-- The code of a reduction's ordering kind. -/
theorem relCode_lt (b : Bool) : relCode b < 4 := by cases b <;> decide

/-- A flag is read back from its code. -/
@[simp] theorem boolCode_beq (b : Bool) : (boolCode b == 1) = b := by cases b <;> rfl

/-- A reduction's ordering kind is read back from its code. -/
@[simp] theorem relOf_relCode (b : Bool) : relOf (relCode b) = some b := by cases b <;> rfl

/-- The code of a value of Scope fits its field. -/
theorem Scope.code_lt (x : Scope) : Scope.code x < 8 := by cases x <;> decide

/-- A value of Scope is read back from its code. -/
@[simp] theorem Scope.ofCode_code (x : Scope) : Scope.ofCode (Scope.code x) = some x := by cases x <;> rfl

/-- The code of a value of FenceKind fits its field. -/
theorem FenceKind.code_lt (x : FenceKind) : FenceKind.code x < 4 := by cases x <;> decide

/-- A value of FenceKind is read back from its code. -/
@[simp] theorem FenceKind.ofCode_code (x : FenceKind) : FenceKind.ofCode (FenceKind.code x) = some x := by cases x <;> rfl

/-- The code of a value of Kind fits its field. -/
theorem Kind.code_lt (x : Kind) : Kind.code x < 4 := by cases x <;> decide

/-- A value of Kind is read back from its code. -/
@[simp] theorem Kind.ofCode_code (x : Kind) : Kind.ofCode (Kind.code x) = some x := by cases x <;> rfl

/-- The code of a value of VoteSel fits its field. -/
theorem VoteSel.code_lt (x : VoteSel) : VoteSel.code x < 8 := by cases x <;> decide

/-- A value of VoteSel is read back from its code. -/
@[simp] theorem VoteSel.ofCode_code (x : VoteSel) : VoteSel.ofCode (VoteSel.code x) = some x := by cases x <;> rfl

/-- The code of a value of RedSel fits its field. -/
theorem RedSel.code_lt (x : RedSel) : RedSel.code x < 8 := by cases x <;> decide

/-- A value of RedSel is read back from its code. -/
@[simp] theorem RedSel.ofCode_code (x : RedSel) : RedSel.ofCode (RedSel.code x) = some x := by cases x <;> rfl

/-- The code of a value of CType fits its field. -/
theorem CType.code_lt (x : CType) : CType.code x < 8 := by cases x <;> decide

/-- A value of CType is read back from its code. -/
@[simp] theorem CType.ofCode_code (x : CType) : CType.ofCode (CType.code x) = some x := by cases x <;> rfl

/-- The code of a value of CollSel fits its field. -/
theorem CollSel.code_lt (x : CollSel) : CollSel.code x < 4 := by cases x <;> decide

/-- A value of CollSel is read back from its code. -/
@[simp] theorem CollSel.ofCode_code (x : CollSel) : CollSel.ofCode (CollSel.code x) = some x := by cases x <;> rfl

/-- The code of a value of MType fits its field. -/
theorem MType.code_lt (x : MType) : MType.code x < 8 := by cases x <;> decide

/-- A value of MType is read back from its code. -/
@[simp] theorem MType.ofCode_code (x : MType) : MType.ofCode (MType.code x) = some x := by cases x <;> rfl

/-- The code of a value of EType fits its field. -/
theorem EType.code_lt (x : EType) : EType.code x < 16 := by cases x <;> decide

/-- A value of EType is read back from its code. -/
@[simp] theorem EType.ofCode_code (x : EType) : EType.ofCode (EType.code x) = some x := by cases x <;> rfl

/-- The code of a value of IType fits its field. -/
theorem IType.code_lt (x : IType) : IType.code x < 8 := by cases x <;> decide

/-- A value of IType is read back from its code. -/
@[simp] theorem IType.ofCode_code (x : IType) : IType.ofCode (IType.code x) = some x := by cases x <;> rfl

/-- The code of a value of WType fits its field. -/
theorem WType.code_lt (x : WType) : WType.code x < 8 := by cases x <;> decide

/-- A value of WType is read back from its code. -/
@[simp] theorem WType.ofCode_code (x : WType) : WType.ofCode (WType.code x) = some x := by cases x <;> rfl

/-- The code of a value of FFmt fits its field. -/
theorem FFmt.code_lt (x : FFmt) : FFmt.code x < 4 := by cases x <;> decide

/-- A value of FFmt is read back from its code. -/
@[simp] theorem FFmt.ofCode_code (x : FFmt) : FFmt.ofCode (FFmt.code x) = some x := by cases x <;> rfl

/-- The code of a value of DynRnd fits its field. -/
theorem DynRnd.code_lt (x : DynRnd) : DynRnd.code x < 8 := by
  match x with
  | none => decide
  | some r => cases r <;> decide

/-- A value of DynRnd is read back from its code. -/
@[simp] theorem DynRnd.ofCode_code (x : DynRnd) : DynRnd.ofCode (DynRnd.code x) = some x := by
  match x with
  | none => rfl
  | some r => cases r <;> rfl

/-- The code of a value of GqSrc fits its field. -/
theorem GqSrc.code_lt (x : GqSrc) : GqSrc.code x < 16 := by cases x <;> decide

/-- A value of GqSrc is read back from its code. -/
@[simp] theorem GqSrc.ofCode_code (x : GqSrc) : GqSrc.ofCode (GqSrc.code x) = some x := by cases x <;> rfl

/-- The code of a value of GqFmt fits its field. -/
theorem GqFmt.code_lt (x : GqFmt) : GqFmt.code x < 16 := by cases x <;> decide

/-- A value of GqFmt is read back from its code. -/
@[simp] theorem GqFmt.ofCode_code (x : GqFmt) : GqFmt.ofCode (GqFmt.code x) = some x := by cases x <;> rfl

/-- The code of a value of Rnd fits its field. -/
theorem Rnd.code_lt (x : Rnd) : Rnd.code x < 8 := by cases x <;> decide

/-- A value of Rnd is read back from its code. -/
@[simp] theorem Rnd.ofCode_code (x : Rnd) : Rnd.ofCode (Rnd.code x) = some x := by cases x <;> rfl

/-- A word from its fields, lowest first: value and width. -/
def packBits : List (Nat × Nat) → Nat
  | [] => 0
  | (v, n) :: r => v + 2 ^ n * packBits r

/-- Every field's value fits its width. -/
def fitBits : List (Nat × Nat) → Prop
  | [] => True
  | (v, n) :: r => v < 2 ^ n ∧ fitBits r

/-- The width of some fields. -/
def wideBits : List (Nat × Nat) → Nat
  | [] => 0
  | (_, n) :: r => n + wideBits r

/-- A field below the others of a word. -/
theorem fld_here {v n r hi : Nat} (hv : v < 2 ^ n) (h : hi + 1 = n) : fld (v + 2 ^ n * r) hi 0 = v := by
  subst h
  simp only [fld, Nat.pow_zero, Nat.div_one, Nat.sub_zero]
  rw [Nat.add_mul_mod_self_left, Nat.mod_eq_of_lt hv]

/-- A field above the lowest one of a word. -/
theorem fld_skip {v n r hi lo : Nat} (hv : v < 2 ^ n) (h : lo ≤ hi) :
    fld (v + 2 ^ n * r) (n + hi) (n + lo) = fld r hi lo := by
  have e : n + hi + 1 - (n + lo) = hi + 1 - lo := by omega
  simp only [fld, Nat.pow_add]
  rw [← Nat.div_div_eq_div_mul, Nat.add_mul_div_left _ _ (Nat.two_pow_pos n), Nat.div_eq_of_lt hv, Nat.zero_add, e]

/-- Field k of a word is read back where it lies. -/
theorem fld_pack {fs : List (Nat × Nat)} (hf : fitBits fs) (k : Nat) {v hi lo : Nat} (hk : fs[k]? = some (v, hi + 1 - lo))
    (hl : wideBits (fs.take k) = lo) (hh : lo ≤ hi) : fld (packBits fs) hi lo = v := by
  induction fs generalizing k hi lo with
  | nil => simp at hk
  | cons x r ih =>
    obtain ⟨u, n⟩ := x
    cases k with
    | zero =>
      simp only [List.take_zero, wideBits] at hl
      subst hl
      simp only [List.getElem?_cons_zero, Option.some.injEq, Prod.mk.injEq] at hk
      obtain ⟨rfl, rfl⟩ := hk
      exact fld_here hf.1 rfl
    | succ k =>
      simp only [List.take_succ_cons, wideBits] at hl
      simp only [List.getElem?_cons_succ] at hk
      obtain ⟨h', rfl⟩ := Nat.exists_eq_add_of_le (show n ≤ hi by omega)
      subst hl
      rw [packBits, fld_skip hf.1 (by omega)]
      refine ih hf.2 k ?_ rfl (by omega)
      rw [hk]
      congr 2
      omega

/-- A word is below two to its width. -/
theorem pack_lt {fs : List (Nat × Nat)} (hf : fitBits fs) : packBits fs < 2 ^ wideBits fs := by
  induction fs with
  | nil => exact Nat.one_pos
  | cons x r ih =>
    obtain ⟨v, n⟩ := x
    have hr := ih hf.2
    have hv := hf.1
    have h : 2 ^ n * (packBits r + 1) ≤ 2 ^ n * 2 ^ wideBits r := Nat.mul_le_mul_left _ hr
    simp only [packBits, wideBits, Nat.pow_add]
    rw [Nat.mul_add] at h
    omega

/-- Table 4-10, major 0x01. -/
theorem RoundTrip.add (d : Reg5) (a : Reg5) (b : Reg5) : RoundTrip.Statement (.add d a b) := by
  have hf : fitBits [(0, 11), (b.toNat, 5), (a.toNat, 5), (d.toNat, 5), (1, 6)] := ⟨by decide, b.isLt, a.isLt, d.isLt, by decide, trivial⟩
  have hw : encodeNat (.add d a b) = packBits [(0, 11), (b.toNat, 5), (a.toNat, 5), (d.toNat, 5), (1, 6)] := by
    change 67108864 + d.toNat * 2097152 + a.toNat * 65536 + b.toNat * 2048 = _
    simp only [packBits]
    generalize b.toNat = x0
    generalize a.toNat = x1
    generalize d.toNat = x2
    omega
  refine roundTrip_word (hw ▸ pack_lt hf) (fun ref hl hr hm => ?_)
  generalize encodeNat (.add d a b) = wd at hw hm ⊢
  have f0 : fld wd 10 0 = 0 := hw ▸ fld_pack hf 0 rfl rfl (by decide)
  have f1 : fld wd 15 11 = b.toNat := hw ▸ fld_pack hf 1 rfl rfl (by decide)
  have f2 : fld wd 20 16 = a.toNat := hw ▸ fld_pack hf 2 rfl rfl (by decide)
  have f3 : fld wd 25 21 = d.toNat := hw ▸ fld_pack hf 3 rfl rfl (by decide)
  have f4 : fld wd 31 26 = 1 := hw ▸ fld_pack hf 4 rfl rfl (by decide)
  have e1 : decodeForm ref wd = decode01 wd := by simp only [decodeForm, f4]
  rw [e1]
  simp only [decode01, f0, f1, f2, f3]
  simp [formOf, hl, hr]

/-- Table 4-10, major 0x01. -/
theorem RoundTrip.sub (d : Reg5) (a : Reg5) (b : Reg5) : RoundTrip.Statement (.sub d a b) := by
  have hf : fitBits [(1, 11), (b.toNat, 5), (a.toNat, 5), (d.toNat, 5), (1, 6)] := ⟨by decide, b.isLt, a.isLt, d.isLt, by decide, trivial⟩
  have hw : encodeNat (.sub d a b) = packBits [(1, 11), (b.toNat, 5), (a.toNat, 5), (d.toNat, 5), (1, 6)] := by
    change 67108865 + d.toNat * 2097152 + a.toNat * 65536 + b.toNat * 2048 = _
    simp only [packBits]
    generalize b.toNat = x0
    generalize a.toNat = x1
    generalize d.toNat = x2
    omega
  refine roundTrip_word (hw ▸ pack_lt hf) (fun ref hl hr hm => ?_)
  generalize encodeNat (.sub d a b) = wd at hw hm ⊢
  have f0 : fld wd 10 0 = 1 := hw ▸ fld_pack hf 0 rfl rfl (by decide)
  have f1 : fld wd 15 11 = b.toNat := hw ▸ fld_pack hf 1 rfl rfl (by decide)
  have f2 : fld wd 20 16 = a.toNat := hw ▸ fld_pack hf 2 rfl rfl (by decide)
  have f3 : fld wd 25 21 = d.toNat := hw ▸ fld_pack hf 3 rfl rfl (by decide)
  have f4 : fld wd 31 26 = 1 := hw ▸ fld_pack hf 4 rfl rfl (by decide)
  have e1 : decodeForm ref wd = decode01 wd := by simp only [decodeForm, f4]
  rw [e1]
  simp only [decode01, f0, f1, f2, f3]
  simp [formOf, hl, hr]

/-- Table 4-10, major 0x01. -/
theorem RoundTrip.and (d : Reg5) (a : Reg5) (b : Reg5) : RoundTrip.Statement (.and d a b) := by
  have hf : fitBits [(2, 11), (b.toNat, 5), (a.toNat, 5), (d.toNat, 5), (1, 6)] := ⟨by decide, b.isLt, a.isLt, d.isLt, by decide, trivial⟩
  have hw : encodeNat (.and d a b) = packBits [(2, 11), (b.toNat, 5), (a.toNat, 5), (d.toNat, 5), (1, 6)] := by
    change 67108866 + d.toNat * 2097152 + a.toNat * 65536 + b.toNat * 2048 = _
    simp only [packBits]
    generalize b.toNat = x0
    generalize a.toNat = x1
    generalize d.toNat = x2
    omega
  refine roundTrip_word (hw ▸ pack_lt hf) (fun ref hl hr hm => ?_)
  generalize encodeNat (.and d a b) = wd at hw hm ⊢
  have f0 : fld wd 10 0 = 2 := hw ▸ fld_pack hf 0 rfl rfl (by decide)
  have f1 : fld wd 15 11 = b.toNat := hw ▸ fld_pack hf 1 rfl rfl (by decide)
  have f2 : fld wd 20 16 = a.toNat := hw ▸ fld_pack hf 2 rfl rfl (by decide)
  have f3 : fld wd 25 21 = d.toNat := hw ▸ fld_pack hf 3 rfl rfl (by decide)
  have f4 : fld wd 31 26 = 1 := hw ▸ fld_pack hf 4 rfl rfl (by decide)
  have e1 : decodeForm ref wd = decode01 wd := by simp only [decodeForm, f4]
  rw [e1]
  simp only [decode01, f0, f1, f2, f3]
  simp [formOf, hl, hr]

/-- Table 4-10, major 0x01. -/
theorem RoundTrip.or (d : Reg5) (a : Reg5) (b : Reg5) : RoundTrip.Statement (.or d a b) := by
  have hf : fitBits [(3, 11), (b.toNat, 5), (a.toNat, 5), (d.toNat, 5), (1, 6)] := ⟨by decide, b.isLt, a.isLt, d.isLt, by decide, trivial⟩
  have hw : encodeNat (.or d a b) = packBits [(3, 11), (b.toNat, 5), (a.toNat, 5), (d.toNat, 5), (1, 6)] := by
    change 67108867 + d.toNat * 2097152 + a.toNat * 65536 + b.toNat * 2048 = _
    simp only [packBits]
    generalize b.toNat = x0
    generalize a.toNat = x1
    generalize d.toNat = x2
    omega
  refine roundTrip_word (hw ▸ pack_lt hf) (fun ref hl hr hm => ?_)
  generalize encodeNat (.or d a b) = wd at hw hm ⊢
  have f0 : fld wd 10 0 = 3 := hw ▸ fld_pack hf 0 rfl rfl (by decide)
  have f1 : fld wd 15 11 = b.toNat := hw ▸ fld_pack hf 1 rfl rfl (by decide)
  have f2 : fld wd 20 16 = a.toNat := hw ▸ fld_pack hf 2 rfl rfl (by decide)
  have f3 : fld wd 25 21 = d.toNat := hw ▸ fld_pack hf 3 rfl rfl (by decide)
  have f4 : fld wd 31 26 = 1 := hw ▸ fld_pack hf 4 rfl rfl (by decide)
  have e1 : decodeForm ref wd = decode01 wd := by simp only [decodeForm, f4]
  rw [e1]
  simp only [decode01, f0, f1, f2, f3]
  simp [formOf, hl, hr]

/-- Table 4-10, major 0x01. -/
theorem RoundTrip.xor (d : Reg5) (a : Reg5) (b : Reg5) : RoundTrip.Statement (.xor d a b) := by
  have hf : fitBits [(4, 11), (b.toNat, 5), (a.toNat, 5), (d.toNat, 5), (1, 6)] := ⟨by decide, b.isLt, a.isLt, d.isLt, by decide, trivial⟩
  have hw : encodeNat (.xor d a b) = packBits [(4, 11), (b.toNat, 5), (a.toNat, 5), (d.toNat, 5), (1, 6)] := by
    change 67108868 + d.toNat * 2097152 + a.toNat * 65536 + b.toNat * 2048 = _
    simp only [packBits]
    generalize b.toNat = x0
    generalize a.toNat = x1
    generalize d.toNat = x2
    omega
  refine roundTrip_word (hw ▸ pack_lt hf) (fun ref hl hr hm => ?_)
  generalize encodeNat (.xor d a b) = wd at hw hm ⊢
  have f0 : fld wd 10 0 = 4 := hw ▸ fld_pack hf 0 rfl rfl (by decide)
  have f1 : fld wd 15 11 = b.toNat := hw ▸ fld_pack hf 1 rfl rfl (by decide)
  have f2 : fld wd 20 16 = a.toNat := hw ▸ fld_pack hf 2 rfl rfl (by decide)
  have f3 : fld wd 25 21 = d.toNat := hw ▸ fld_pack hf 3 rfl rfl (by decide)
  have f4 : fld wd 31 26 = 1 := hw ▸ fld_pack hf 4 rfl rfl (by decide)
  have e1 : decodeForm ref wd = decode01 wd := by simp only [decodeForm, f4]
  rw [e1]
  simp only [decode01, f0, f1, f2, f3]
  simp [formOf, hl, hr]

/-- Table 4-10, major 0x01. -/
theorem RoundTrip.andn (d : Reg5) (a : Reg5) (b : Reg5) : RoundTrip.Statement (.andn d a b) := by
  have hf : fitBits [(5, 11), (b.toNat, 5), (a.toNat, 5), (d.toNat, 5), (1, 6)] := ⟨by decide, b.isLt, a.isLt, d.isLt, by decide, trivial⟩
  have hw : encodeNat (.andn d a b) = packBits [(5, 11), (b.toNat, 5), (a.toNat, 5), (d.toNat, 5), (1, 6)] := by
    change 67108869 + d.toNat * 2097152 + a.toNat * 65536 + b.toNat * 2048 = _
    simp only [packBits]
    generalize b.toNat = x0
    generalize a.toNat = x1
    generalize d.toNat = x2
    omega
  refine roundTrip_word (hw ▸ pack_lt hf) (fun ref hl hr hm => ?_)
  generalize encodeNat (.andn d a b) = wd at hw hm ⊢
  have f0 : fld wd 10 0 = 5 := hw ▸ fld_pack hf 0 rfl rfl (by decide)
  have f1 : fld wd 15 11 = b.toNat := hw ▸ fld_pack hf 1 rfl rfl (by decide)
  have f2 : fld wd 20 16 = a.toNat := hw ▸ fld_pack hf 2 rfl rfl (by decide)
  have f3 : fld wd 25 21 = d.toNat := hw ▸ fld_pack hf 3 rfl rfl (by decide)
  have f4 : fld wd 31 26 = 1 := hw ▸ fld_pack hf 4 rfl rfl (by decide)
  have e1 : decodeForm ref wd = decode01 wd := by simp only [decodeForm, f4]
  rw [e1]
  simp only [decode01, f0, f1, f2, f3]
  simp [formOf, hl, hr]

/-- Table 4-10, major 0x01. -/
theorem RoundTrip.sll (d : Reg5) (a : Reg5) (b : Reg5) : RoundTrip.Statement (.sll d a b) := by
  have hf : fitBits [(6, 11), (b.toNat, 5), (a.toNat, 5), (d.toNat, 5), (1, 6)] := ⟨by decide, b.isLt, a.isLt, d.isLt, by decide, trivial⟩
  have hw : encodeNat (.sll d a b) = packBits [(6, 11), (b.toNat, 5), (a.toNat, 5), (d.toNat, 5), (1, 6)] := by
    change 67108870 + d.toNat * 2097152 + a.toNat * 65536 + b.toNat * 2048 = _
    simp only [packBits]
    generalize b.toNat = x0
    generalize a.toNat = x1
    generalize d.toNat = x2
    omega
  refine roundTrip_word (hw ▸ pack_lt hf) (fun ref hl hr hm => ?_)
  generalize encodeNat (.sll d a b) = wd at hw hm ⊢
  have f0 : fld wd 10 0 = 6 := hw ▸ fld_pack hf 0 rfl rfl (by decide)
  have f1 : fld wd 15 11 = b.toNat := hw ▸ fld_pack hf 1 rfl rfl (by decide)
  have f2 : fld wd 20 16 = a.toNat := hw ▸ fld_pack hf 2 rfl rfl (by decide)
  have f3 : fld wd 25 21 = d.toNat := hw ▸ fld_pack hf 3 rfl rfl (by decide)
  have f4 : fld wd 31 26 = 1 := hw ▸ fld_pack hf 4 rfl rfl (by decide)
  have e1 : decodeForm ref wd = decode01 wd := by simp only [decodeForm, f4]
  rw [e1]
  simp only [decode01, f0, f1, f2, f3]
  simp [formOf, hl, hr]

/-- Table 4-10, major 0x01. -/
theorem RoundTrip.srl (d : Reg5) (a : Reg5) (b : Reg5) : RoundTrip.Statement (.srl d a b) := by
  have hf : fitBits [(7, 11), (b.toNat, 5), (a.toNat, 5), (d.toNat, 5), (1, 6)] := ⟨by decide, b.isLt, a.isLt, d.isLt, by decide, trivial⟩
  have hw : encodeNat (.srl d a b) = packBits [(7, 11), (b.toNat, 5), (a.toNat, 5), (d.toNat, 5), (1, 6)] := by
    change 67108871 + d.toNat * 2097152 + a.toNat * 65536 + b.toNat * 2048 = _
    simp only [packBits]
    generalize b.toNat = x0
    generalize a.toNat = x1
    generalize d.toNat = x2
    omega
  refine roundTrip_word (hw ▸ pack_lt hf) (fun ref hl hr hm => ?_)
  generalize encodeNat (.srl d a b) = wd at hw hm ⊢
  have f0 : fld wd 10 0 = 7 := hw ▸ fld_pack hf 0 rfl rfl (by decide)
  have f1 : fld wd 15 11 = b.toNat := hw ▸ fld_pack hf 1 rfl rfl (by decide)
  have f2 : fld wd 20 16 = a.toNat := hw ▸ fld_pack hf 2 rfl rfl (by decide)
  have f3 : fld wd 25 21 = d.toNat := hw ▸ fld_pack hf 3 rfl rfl (by decide)
  have f4 : fld wd 31 26 = 1 := hw ▸ fld_pack hf 4 rfl rfl (by decide)
  have e1 : decodeForm ref wd = decode01 wd := by simp only [decodeForm, f4]
  rw [e1]
  simp only [decode01, f0, f1, f2, f3]
  simp [formOf, hl, hr]

/-- Table 4-10, major 0x01. -/
theorem RoundTrip.sra (d : Reg5) (a : Reg5) (b : Reg5) : RoundTrip.Statement (.sra d a b) := by
  have hf : fitBits [(8, 11), (b.toNat, 5), (a.toNat, 5), (d.toNat, 5), (1, 6)] := ⟨by decide, b.isLt, a.isLt, d.isLt, by decide, trivial⟩
  have hw : encodeNat (.sra d a b) = packBits [(8, 11), (b.toNat, 5), (a.toNat, 5), (d.toNat, 5), (1, 6)] := by
    change 67108872 + d.toNat * 2097152 + a.toNat * 65536 + b.toNat * 2048 = _
    simp only [packBits]
    generalize b.toNat = x0
    generalize a.toNat = x1
    generalize d.toNat = x2
    omega
  refine roundTrip_word (hw ▸ pack_lt hf) (fun ref hl hr hm => ?_)
  generalize encodeNat (.sra d a b) = wd at hw hm ⊢
  have f0 : fld wd 10 0 = 8 := hw ▸ fld_pack hf 0 rfl rfl (by decide)
  have f1 : fld wd 15 11 = b.toNat := hw ▸ fld_pack hf 1 rfl rfl (by decide)
  have f2 : fld wd 20 16 = a.toNat := hw ▸ fld_pack hf 2 rfl rfl (by decide)
  have f3 : fld wd 25 21 = d.toNat := hw ▸ fld_pack hf 3 rfl rfl (by decide)
  have f4 : fld wd 31 26 = 1 := hw ▸ fld_pack hf 4 rfl rfl (by decide)
  have e1 : decodeForm ref wd = decode01 wd := by simp only [decodeForm, f4]
  rw [e1]
  simp only [decode01, f0, f1, f2, f3]
  simp [formOf, hl, hr]

/-- Table 4-10, major 0x01. -/
theorem RoundTrip.rol (d : Reg5) (a : Reg5) (b : Reg5) : RoundTrip.Statement (.rol d a b) := by
  have hf : fitBits [(9, 11), (b.toNat, 5), (a.toNat, 5), (d.toNat, 5), (1, 6)] := ⟨by decide, b.isLt, a.isLt, d.isLt, by decide, trivial⟩
  have hw : encodeNat (.rol d a b) = packBits [(9, 11), (b.toNat, 5), (a.toNat, 5), (d.toNat, 5), (1, 6)] := by
    change 67108873 + d.toNat * 2097152 + a.toNat * 65536 + b.toNat * 2048 = _
    simp only [packBits]
    generalize b.toNat = x0
    generalize a.toNat = x1
    generalize d.toNat = x2
    omega
  refine roundTrip_word (hw ▸ pack_lt hf) (fun ref hl hr hm => ?_)
  generalize encodeNat (.rol d a b) = wd at hw hm ⊢
  have f0 : fld wd 10 0 = 9 := hw ▸ fld_pack hf 0 rfl rfl (by decide)
  have f1 : fld wd 15 11 = b.toNat := hw ▸ fld_pack hf 1 rfl rfl (by decide)
  have f2 : fld wd 20 16 = a.toNat := hw ▸ fld_pack hf 2 rfl rfl (by decide)
  have f3 : fld wd 25 21 = d.toNat := hw ▸ fld_pack hf 3 rfl rfl (by decide)
  have f4 : fld wd 31 26 = 1 := hw ▸ fld_pack hf 4 rfl rfl (by decide)
  have e1 : decodeForm ref wd = decode01 wd := by simp only [decodeForm, f4]
  rw [e1]
  simp only [decode01, f0, f1, f2, f3]
  simp [formOf, hl, hr]

/-- Table 4-10, major 0x01. -/
theorem RoundTrip.min (d : Reg5) (a : Reg5) (b : Reg5) : RoundTrip.Statement (.min d a b) := by
  have hf : fitBits [(10, 11), (b.toNat, 5), (a.toNat, 5), (d.toNat, 5), (1, 6)] := ⟨by decide, b.isLt, a.isLt, d.isLt, by decide, trivial⟩
  have hw : encodeNat (.min d a b) = packBits [(10, 11), (b.toNat, 5), (a.toNat, 5), (d.toNat, 5), (1, 6)] := by
    change 67108874 + d.toNat * 2097152 + a.toNat * 65536 + b.toNat * 2048 = _
    simp only [packBits]
    generalize b.toNat = x0
    generalize a.toNat = x1
    generalize d.toNat = x2
    omega
  refine roundTrip_word (hw ▸ pack_lt hf) (fun ref hl hr hm => ?_)
  generalize encodeNat (.min d a b) = wd at hw hm ⊢
  have f0 : fld wd 10 0 = 10 := hw ▸ fld_pack hf 0 rfl rfl (by decide)
  have f1 : fld wd 15 11 = b.toNat := hw ▸ fld_pack hf 1 rfl rfl (by decide)
  have f2 : fld wd 20 16 = a.toNat := hw ▸ fld_pack hf 2 rfl rfl (by decide)
  have f3 : fld wd 25 21 = d.toNat := hw ▸ fld_pack hf 3 rfl rfl (by decide)
  have f4 : fld wd 31 26 = 1 := hw ▸ fld_pack hf 4 rfl rfl (by decide)
  have e1 : decodeForm ref wd = decode01 wd := by simp only [decodeForm, f4]
  rw [e1]
  simp only [decode01, f0, f1, f2, f3]
  simp [formOf, hl, hr]

/-- Table 4-10, major 0x01. -/
theorem RoundTrip.max (d : Reg5) (a : Reg5) (b : Reg5) : RoundTrip.Statement (.max d a b) := by
  have hf : fitBits [(11, 11), (b.toNat, 5), (a.toNat, 5), (d.toNat, 5), (1, 6)] := ⟨by decide, b.isLt, a.isLt, d.isLt, by decide, trivial⟩
  have hw : encodeNat (.max d a b) = packBits [(11, 11), (b.toNat, 5), (a.toNat, 5), (d.toNat, 5), (1, 6)] := by
    change 67108875 + d.toNat * 2097152 + a.toNat * 65536 + b.toNat * 2048 = _
    simp only [packBits]
    generalize b.toNat = x0
    generalize a.toNat = x1
    generalize d.toNat = x2
    omega
  refine roundTrip_word (hw ▸ pack_lt hf) (fun ref hl hr hm => ?_)
  generalize encodeNat (.max d a b) = wd at hw hm ⊢
  have f0 : fld wd 10 0 = 11 := hw ▸ fld_pack hf 0 rfl rfl (by decide)
  have f1 : fld wd 15 11 = b.toNat := hw ▸ fld_pack hf 1 rfl rfl (by decide)
  have f2 : fld wd 20 16 = a.toNat := hw ▸ fld_pack hf 2 rfl rfl (by decide)
  have f3 : fld wd 25 21 = d.toNat := hw ▸ fld_pack hf 3 rfl rfl (by decide)
  have f4 : fld wd 31 26 = 1 := hw ▸ fld_pack hf 4 rfl rfl (by decide)
  have e1 : decodeForm ref wd = decode01 wd := by simp only [decodeForm, f4]
  rw [e1]
  simp only [decode01, f0, f1, f2, f3]
  simp [formOf, hl, hr]

/-- Table 4-10, major 0x01. -/
theorem RoundTrip.minu (d : Reg5) (a : Reg5) (b : Reg5) : RoundTrip.Statement (.minu d a b) := by
  have hf : fitBits [(12, 11), (b.toNat, 5), (a.toNat, 5), (d.toNat, 5), (1, 6)] := ⟨by decide, b.isLt, a.isLt, d.isLt, by decide, trivial⟩
  have hw : encodeNat (.minu d a b) = packBits [(12, 11), (b.toNat, 5), (a.toNat, 5), (d.toNat, 5), (1, 6)] := by
    change 67108876 + d.toNat * 2097152 + a.toNat * 65536 + b.toNat * 2048 = _
    simp only [packBits]
    generalize b.toNat = x0
    generalize a.toNat = x1
    generalize d.toNat = x2
    omega
  refine roundTrip_word (hw ▸ pack_lt hf) (fun ref hl hr hm => ?_)
  generalize encodeNat (.minu d a b) = wd at hw hm ⊢
  have f0 : fld wd 10 0 = 12 := hw ▸ fld_pack hf 0 rfl rfl (by decide)
  have f1 : fld wd 15 11 = b.toNat := hw ▸ fld_pack hf 1 rfl rfl (by decide)
  have f2 : fld wd 20 16 = a.toNat := hw ▸ fld_pack hf 2 rfl rfl (by decide)
  have f3 : fld wd 25 21 = d.toNat := hw ▸ fld_pack hf 3 rfl rfl (by decide)
  have f4 : fld wd 31 26 = 1 := hw ▸ fld_pack hf 4 rfl rfl (by decide)
  have e1 : decodeForm ref wd = decode01 wd := by simp only [decodeForm, f4]
  rw [e1]
  simp only [decode01, f0, f1, f2, f3]
  simp [formOf, hl, hr]

/-- Table 4-10, major 0x01. -/
theorem RoundTrip.maxu (d : Reg5) (a : Reg5) (b : Reg5) : RoundTrip.Statement (.maxu d a b) := by
  have hf : fitBits [(13, 11), (b.toNat, 5), (a.toNat, 5), (d.toNat, 5), (1, 6)] := ⟨by decide, b.isLt, a.isLt, d.isLt, by decide, trivial⟩
  have hw : encodeNat (.maxu d a b) = packBits [(13, 11), (b.toNat, 5), (a.toNat, 5), (d.toNat, 5), (1, 6)] := by
    change 67108877 + d.toNat * 2097152 + a.toNat * 65536 + b.toNat * 2048 = _
    simp only [packBits]
    generalize b.toNat = x0
    generalize a.toNat = x1
    generalize d.toNat = x2
    omega
  refine roundTrip_word (hw ▸ pack_lt hf) (fun ref hl hr hm => ?_)
  generalize encodeNat (.maxu d a b) = wd at hw hm ⊢
  have f0 : fld wd 10 0 = 13 := hw ▸ fld_pack hf 0 rfl rfl (by decide)
  have f1 : fld wd 15 11 = b.toNat := hw ▸ fld_pack hf 1 rfl rfl (by decide)
  have f2 : fld wd 20 16 = a.toNat := hw ▸ fld_pack hf 2 rfl rfl (by decide)
  have f3 : fld wd 25 21 = d.toNat := hw ▸ fld_pack hf 3 rfl rfl (by decide)
  have f4 : fld wd 31 26 = 1 := hw ▸ fld_pack hf 4 rfl rfl (by decide)
  have e1 : decodeForm ref wd = decode01 wd := by simp only [decodeForm, f4]
  rw [e1]
  simp only [decode01, f0, f1, f2, f3]
  simp [formOf, hl, hr]

/-- Table 4-10, major 0x01. -/
theorem RoundTrip.slt (d : Reg5) (a : Reg5) (b : Reg5) : RoundTrip.Statement (.slt d a b) := by
  have hf : fitBits [(14, 11), (b.toNat, 5), (a.toNat, 5), (d.toNat, 5), (1, 6)] := ⟨by decide, b.isLt, a.isLt, d.isLt, by decide, trivial⟩
  have hw : encodeNat (.slt d a b) = packBits [(14, 11), (b.toNat, 5), (a.toNat, 5), (d.toNat, 5), (1, 6)] := by
    change 67108878 + d.toNat * 2097152 + a.toNat * 65536 + b.toNat * 2048 = _
    simp only [packBits]
    generalize b.toNat = x0
    generalize a.toNat = x1
    generalize d.toNat = x2
    omega
  refine roundTrip_word (hw ▸ pack_lt hf) (fun ref hl hr hm => ?_)
  generalize encodeNat (.slt d a b) = wd at hw hm ⊢
  have f0 : fld wd 10 0 = 14 := hw ▸ fld_pack hf 0 rfl rfl (by decide)
  have f1 : fld wd 15 11 = b.toNat := hw ▸ fld_pack hf 1 rfl rfl (by decide)
  have f2 : fld wd 20 16 = a.toNat := hw ▸ fld_pack hf 2 rfl rfl (by decide)
  have f3 : fld wd 25 21 = d.toNat := hw ▸ fld_pack hf 3 rfl rfl (by decide)
  have f4 : fld wd 31 26 = 1 := hw ▸ fld_pack hf 4 rfl rfl (by decide)
  have e1 : decodeForm ref wd = decode01 wd := by simp only [decodeForm, f4]
  rw [e1]
  simp only [decode01, f0, f1, f2, f3]
  simp [formOf, hl, hr]

/-- Table 4-10, major 0x01. -/
theorem RoundTrip.sltu (d : Reg5) (a : Reg5) (b : Reg5) : RoundTrip.Statement (.sltu d a b) := by
  have hf : fitBits [(15, 11), (b.toNat, 5), (a.toNat, 5), (d.toNat, 5), (1, 6)] := ⟨by decide, b.isLt, a.isLt, d.isLt, by decide, trivial⟩
  have hw : encodeNat (.sltu d a b) = packBits [(15, 11), (b.toNat, 5), (a.toNat, 5), (d.toNat, 5), (1, 6)] := by
    change 67108879 + d.toNat * 2097152 + a.toNat * 65536 + b.toNat * 2048 = _
    simp only [packBits]
    generalize b.toNat = x0
    generalize a.toNat = x1
    generalize d.toNat = x2
    omega
  refine roundTrip_word (hw ▸ pack_lt hf) (fun ref hl hr hm => ?_)
  generalize encodeNat (.sltu d a b) = wd at hw hm ⊢
  have f0 : fld wd 10 0 = 15 := hw ▸ fld_pack hf 0 rfl rfl (by decide)
  have f1 : fld wd 15 11 = b.toNat := hw ▸ fld_pack hf 1 rfl rfl (by decide)
  have f2 : fld wd 20 16 = a.toNat := hw ▸ fld_pack hf 2 rfl rfl (by decide)
  have f3 : fld wd 25 21 = d.toNat := hw ▸ fld_pack hf 3 rfl rfl (by decide)
  have f4 : fld wd 31 26 = 1 := hw ▸ fld_pack hf 4 rfl rfl (by decide)
  have e1 : decodeForm ref wd = decode01 wd := by simp only [decodeForm, f4]
  rw [e1]
  simp only [decode01, f0, f1, f2, f3]
  simp [formOf, hl, hr]

/-- Table 4-10, major 0x01. -/
theorem RoundTrip.seq (d : Reg5) (a : Reg5) (b : Reg5) : RoundTrip.Statement (.seq d a b) := by
  have hf : fitBits [(16, 11), (b.toNat, 5), (a.toNat, 5), (d.toNat, 5), (1, 6)] := ⟨by decide, b.isLt, a.isLt, d.isLt, by decide, trivial⟩
  have hw : encodeNat (.seq d a b) = packBits [(16, 11), (b.toNat, 5), (a.toNat, 5), (d.toNat, 5), (1, 6)] := by
    change 67108880 + d.toNat * 2097152 + a.toNat * 65536 + b.toNat * 2048 = _
    simp only [packBits]
    generalize b.toNat = x0
    generalize a.toNat = x1
    generalize d.toNat = x2
    omega
  refine roundTrip_word (hw ▸ pack_lt hf) (fun ref hl hr hm => ?_)
  generalize encodeNat (.seq d a b) = wd at hw hm ⊢
  have f0 : fld wd 10 0 = 16 := hw ▸ fld_pack hf 0 rfl rfl (by decide)
  have f1 : fld wd 15 11 = b.toNat := hw ▸ fld_pack hf 1 rfl rfl (by decide)
  have f2 : fld wd 20 16 = a.toNat := hw ▸ fld_pack hf 2 rfl rfl (by decide)
  have f3 : fld wd 25 21 = d.toNat := hw ▸ fld_pack hf 3 rfl rfl (by decide)
  have f4 : fld wd 31 26 = 1 := hw ▸ fld_pack hf 4 rfl rfl (by decide)
  have e1 : decodeForm ref wd = decode01 wd := by simp only [decodeForm, f4]
  rw [e1]
  simp only [decode01, f0, f1, f2, f3]
  simp [formOf, hl, hr]

/-- Table 4-10, major 0x01. -/
theorem RoundTrip.sel (d : Reg5) (a : Reg5) (b : Reg5) : RoundTrip.Statement (.sel d a b) := by
  have hf : fitBits [(17, 11), (b.toNat, 5), (a.toNat, 5), (d.toNat, 5), (1, 6)] := ⟨by decide, b.isLt, a.isLt, d.isLt, by decide, trivial⟩
  have hw : encodeNat (.sel d a b) = packBits [(17, 11), (b.toNat, 5), (a.toNat, 5), (d.toNat, 5), (1, 6)] := by
    change 67108881 + d.toNat * 2097152 + a.toNat * 65536 + b.toNat * 2048 = _
    simp only [packBits]
    generalize b.toNat = x0
    generalize a.toNat = x1
    generalize d.toNat = x2
    omega
  refine roundTrip_word (hw ▸ pack_lt hf) (fun ref hl hr hm => ?_)
  generalize encodeNat (.sel d a b) = wd at hw hm ⊢
  have f0 : fld wd 10 0 = 17 := hw ▸ fld_pack hf 0 rfl rfl (by decide)
  have f1 : fld wd 15 11 = b.toNat := hw ▸ fld_pack hf 1 rfl rfl (by decide)
  have f2 : fld wd 20 16 = a.toNat := hw ▸ fld_pack hf 2 rfl rfl (by decide)
  have f3 : fld wd 25 21 = d.toNat := hw ▸ fld_pack hf 3 rfl rfl (by decide)
  have f4 : fld wd 31 26 = 1 := hw ▸ fld_pack hf 4 rfl rfl (by decide)
  have e1 : decodeForm ref wd = decode01 wd := by simp only [decodeForm, f4]
  rw [e1]
  simp only [decode01, f0, f1, f2, f3]
  simp [formOf, hl, hr]

/-- Table 4-10, major 0x02. -/
theorem RoundTrip.addi (d : Reg5) (a : Reg5) (imm : BitVec 12) : RoundTrip.Statement (.addi d a imm) := by
  have hf : fitBits [(imm.toNat, 12), (0, 4), (a.toNat, 5), (d.toNat, 5), (2, 6)] := ⟨imm.isLt, by decide, a.isLt, d.isLt, by decide, trivial⟩
  have hw : encodeNat (.addi d a imm) = packBits [(imm.toNat, 12), (0, 4), (a.toNat, 5), (d.toNat, 5), (2, 6)] := by
    change 134217728 + d.toNat * 2097152 + a.toNat * 65536 + imm.toNat = _
    simp only [packBits]
    generalize imm.toNat = x0
    generalize a.toNat = x1
    generalize d.toNat = x2
    omega
  refine roundTrip_word (hw ▸ pack_lt hf) (fun ref hl hr hm => ?_)
  generalize encodeNat (.addi d a imm) = wd at hw hm ⊢
  have f0 : fld wd 11 0 = imm.toNat := hw ▸ fld_pack hf 0 rfl rfl (by decide)
  have f1 : fld wd 15 12 = 0 := hw ▸ fld_pack hf 1 rfl rfl (by decide)
  have f2 : fld wd 20 16 = a.toNat := hw ▸ fld_pack hf 2 rfl rfl (by decide)
  have f3 : fld wd 25 21 = d.toNat := hw ▸ fld_pack hf 3 rfl rfl (by decide)
  have f4 : fld wd 31 26 = 2 := hw ▸ fld_pack hf 4 rfl rfl (by decide)
  have e1 : decodeForm ref wd = decode02 wd := by simp only [decodeForm, f4]
  rw [e1]
  simp only [decode02, f0, f1, f2, f3]
  simp [formOf, hl, hr]

/-- Table 4-10, major 0x03. -/
theorem RoundTrip.andi (d : Reg5) (a : Reg5) (imm : BitVec 12) : RoundTrip.Statement (.andi d a imm) := by
  have hf : fitBits [(imm.toNat, 12), (0, 4), (a.toNat, 5), (d.toNat, 5), (3, 6)] := ⟨imm.isLt, by decide, a.isLt, d.isLt, by decide, trivial⟩
  have hw : encodeNat (.andi d a imm) = packBits [(imm.toNat, 12), (0, 4), (a.toNat, 5), (d.toNat, 5), (3, 6)] := by
    change 201326592 + d.toNat * 2097152 + a.toNat * 65536 + imm.toNat = _
    simp only [packBits]
    generalize imm.toNat = x0
    generalize a.toNat = x1
    generalize d.toNat = x2
    omega
  refine roundTrip_word (hw ▸ pack_lt hf) (fun ref hl hr hm => ?_)
  generalize encodeNat (.andi d a imm) = wd at hw hm ⊢
  have f0 : fld wd 11 0 = imm.toNat := hw ▸ fld_pack hf 0 rfl rfl (by decide)
  have f1 : fld wd 15 12 = 0 := hw ▸ fld_pack hf 1 rfl rfl (by decide)
  have f2 : fld wd 20 16 = a.toNat := hw ▸ fld_pack hf 2 rfl rfl (by decide)
  have f3 : fld wd 25 21 = d.toNat := hw ▸ fld_pack hf 3 rfl rfl (by decide)
  have f4 : fld wd 31 26 = 3 := hw ▸ fld_pack hf 4 rfl rfl (by decide)
  have e1 : decodeForm ref wd = decode03 wd := by simp only [decodeForm, f4]
  rw [e1]
  simp only [decode03, f0, f1, f2, f3]
  simp [formOf, hl, hr]

/-- Table 4-10, major 0x03. -/
theorem RoundTrip.ori (d : Reg5) (a : Reg5) (imm : BitVec 12) : RoundTrip.Statement (.ori d a imm) := by
  have hf : fitBits [(imm.toNat, 12), (1, 4), (a.toNat, 5), (d.toNat, 5), (3, 6)] := ⟨imm.isLt, by decide, a.isLt, d.isLt, by decide, trivial⟩
  have hw : encodeNat (.ori d a imm) = packBits [(imm.toNat, 12), (1, 4), (a.toNat, 5), (d.toNat, 5), (3, 6)] := by
    change 201330688 + d.toNat * 2097152 + a.toNat * 65536 + imm.toNat = _
    simp only [packBits]
    generalize imm.toNat = x0
    generalize a.toNat = x1
    generalize d.toNat = x2
    omega
  refine roundTrip_word (hw ▸ pack_lt hf) (fun ref hl hr hm => ?_)
  generalize encodeNat (.ori d a imm) = wd at hw hm ⊢
  have f0 : fld wd 11 0 = imm.toNat := hw ▸ fld_pack hf 0 rfl rfl (by decide)
  have f1 : fld wd 15 12 = 1 := hw ▸ fld_pack hf 1 rfl rfl (by decide)
  have f2 : fld wd 20 16 = a.toNat := hw ▸ fld_pack hf 2 rfl rfl (by decide)
  have f3 : fld wd 25 21 = d.toNat := hw ▸ fld_pack hf 3 rfl rfl (by decide)
  have f4 : fld wd 31 26 = 3 := hw ▸ fld_pack hf 4 rfl rfl (by decide)
  have e1 : decodeForm ref wd = decode03 wd := by simp only [decodeForm, f4]
  rw [e1]
  simp only [decode03, f0, f1, f2, f3]
  simp [formOf, hl, hr]

/-- Table 4-10, major 0x03. -/
theorem RoundTrip.xori (d : Reg5) (a : Reg5) (imm : BitVec 12) : RoundTrip.Statement (.xori d a imm) := by
  have hf : fitBits [(imm.toNat, 12), (2, 4), (a.toNat, 5), (d.toNat, 5), (3, 6)] := ⟨imm.isLt, by decide, a.isLt, d.isLt, by decide, trivial⟩
  have hw : encodeNat (.xori d a imm) = packBits [(imm.toNat, 12), (2, 4), (a.toNat, 5), (d.toNat, 5), (3, 6)] := by
    change 201334784 + d.toNat * 2097152 + a.toNat * 65536 + imm.toNat = _
    simp only [packBits]
    generalize imm.toNat = x0
    generalize a.toNat = x1
    generalize d.toNat = x2
    omega
  refine roundTrip_word (hw ▸ pack_lt hf) (fun ref hl hr hm => ?_)
  generalize encodeNat (.xori d a imm) = wd at hw hm ⊢
  have f0 : fld wd 11 0 = imm.toNat := hw ▸ fld_pack hf 0 rfl rfl (by decide)
  have f1 : fld wd 15 12 = 2 := hw ▸ fld_pack hf 1 rfl rfl (by decide)
  have f2 : fld wd 20 16 = a.toNat := hw ▸ fld_pack hf 2 rfl rfl (by decide)
  have f3 : fld wd 25 21 = d.toNat := hw ▸ fld_pack hf 3 rfl rfl (by decide)
  have f4 : fld wd 31 26 = 3 := hw ▸ fld_pack hf 4 rfl rfl (by decide)
  have e1 : decodeForm ref wd = decode03 wd := by simp only [decodeForm, f4]
  rw [e1]
  simp only [decode03, f0, f1, f2, f3]
  simp [formOf, hl, hr]

/-- Table 4-10, major 0x03. -/
theorem RoundTrip.slli (d : Reg5) (a : Reg5) (k : BitVec 6) : RoundTrip.Statement (.slli d a k) := by
  have hf : fitBits [(k.toNat, 6), (0, 5), (0, 1), (3, 4), (a.toNat, 5), (d.toNat, 5), (3, 6)] := ⟨k.isLt, by decide, by decide, by decide, a.isLt, d.isLt, by decide, trivial⟩
  have hw : encodeNat (.slli d a k) = packBits [(k.toNat, 6), (0, 5), (0, 1), (3, 4), (a.toNat, 5), (d.toNat, 5), (3, 6)] := by
    change 201338880 + d.toNat * 2097152 + a.toNat * 65536 + k.toNat = _
    simp only [packBits]
    generalize k.toNat = x0
    generalize a.toNat = x1
    generalize d.toNat = x2
    omega
  refine roundTrip_word (hw ▸ pack_lt hf) (fun ref hl hr hm => ?_)
  generalize encodeNat (.slli d a k) = wd at hw hm ⊢
  have f0 : fld wd 5 0 = k.toNat := hw ▸ fld_pack hf 0 rfl rfl (by decide)
  have f1 : fld wd 10 6 = 0 := hw ▸ fld_pack hf 1 rfl rfl (by decide)
  have f2 : fld wd 11 11 = 0 := hw ▸ fld_pack hf 2 rfl rfl (by decide)
  have f3 : fld wd 15 12 = 3 := hw ▸ fld_pack hf 3 rfl rfl (by decide)
  have f4 : fld wd 20 16 = a.toNat := hw ▸ fld_pack hf 4 rfl rfl (by decide)
  have f5 : fld wd 25 21 = d.toNat := hw ▸ fld_pack hf 5 rfl rfl (by decide)
  have f6 : fld wd 31 26 = 3 := hw ▸ fld_pack hf 6 rfl rfl (by decide)
  have e1 : decodeForm ref wd = decode03 wd := by simp only [decodeForm, f6]
  rw [e1]
  simp only [decode03, f0, f1, f2, f3, f4, f5]
  simp [formOf, hl, hr]

/-- Table 4-10, major 0x03. -/
theorem RoundTrip.srli (d : Reg5) (a : Reg5) (k : BitVec 6) : RoundTrip.Statement (.srli d a k) := by
  have hf : fitBits [(k.toNat, 6), (0, 5), (0, 1), (4, 4), (a.toNat, 5), (d.toNat, 5), (3, 6)] := ⟨k.isLt, by decide, by decide, by decide, a.isLt, d.isLt, by decide, trivial⟩
  have hw : encodeNat (.srli d a k) = packBits [(k.toNat, 6), (0, 5), (0, 1), (4, 4), (a.toNat, 5), (d.toNat, 5), (3, 6)] := by
    change 201342976 + d.toNat * 2097152 + a.toNat * 65536 + k.toNat = _
    simp only [packBits]
    generalize k.toNat = x0
    generalize a.toNat = x1
    generalize d.toNat = x2
    omega
  refine roundTrip_word (hw ▸ pack_lt hf) (fun ref hl hr hm => ?_)
  generalize encodeNat (.srli d a k) = wd at hw hm ⊢
  have f0 : fld wd 5 0 = k.toNat := hw ▸ fld_pack hf 0 rfl rfl (by decide)
  have f1 : fld wd 10 6 = 0 := hw ▸ fld_pack hf 1 rfl rfl (by decide)
  have f2 : fld wd 11 11 = 0 := hw ▸ fld_pack hf 2 rfl rfl (by decide)
  have f3 : fld wd 15 12 = 4 := hw ▸ fld_pack hf 3 rfl rfl (by decide)
  have f4 : fld wd 20 16 = a.toNat := hw ▸ fld_pack hf 4 rfl rfl (by decide)
  have f5 : fld wd 25 21 = d.toNat := hw ▸ fld_pack hf 5 rfl rfl (by decide)
  have f6 : fld wd 31 26 = 3 := hw ▸ fld_pack hf 6 rfl rfl (by decide)
  have e1 : decodeForm ref wd = decode03 wd := by simp only [decodeForm, f6]
  rw [e1]
  simp only [decode03, f0, f1, f2, f3, f4, f5]
  simp [formOf, hl, hr]

/-- Table 4-10, major 0x03. -/
theorem RoundTrip.srai (d : Reg5) (a : Reg5) (k : BitVec 6) : RoundTrip.Statement (.srai d a k) := by
  have hf : fitBits [(k.toNat, 6), (0, 5), (0, 1), (5, 4), (a.toNat, 5), (d.toNat, 5), (3, 6)] := ⟨k.isLt, by decide, by decide, by decide, a.isLt, d.isLt, by decide, trivial⟩
  have hw : encodeNat (.srai d a k) = packBits [(k.toNat, 6), (0, 5), (0, 1), (5, 4), (a.toNat, 5), (d.toNat, 5), (3, 6)] := by
    change 201347072 + d.toNat * 2097152 + a.toNat * 65536 + k.toNat = _
    simp only [packBits]
    generalize k.toNat = x0
    generalize a.toNat = x1
    generalize d.toNat = x2
    omega
  refine roundTrip_word (hw ▸ pack_lt hf) (fun ref hl hr hm => ?_)
  generalize encodeNat (.srai d a k) = wd at hw hm ⊢
  have f0 : fld wd 5 0 = k.toNat := hw ▸ fld_pack hf 0 rfl rfl (by decide)
  have f1 : fld wd 10 6 = 0 := hw ▸ fld_pack hf 1 rfl rfl (by decide)
  have f2 : fld wd 11 11 = 0 := hw ▸ fld_pack hf 2 rfl rfl (by decide)
  have f3 : fld wd 15 12 = 5 := hw ▸ fld_pack hf 3 rfl rfl (by decide)
  have f4 : fld wd 20 16 = a.toNat := hw ▸ fld_pack hf 4 rfl rfl (by decide)
  have f5 : fld wd 25 21 = d.toNat := hw ▸ fld_pack hf 5 rfl rfl (by decide)
  have f6 : fld wd 31 26 = 3 := hw ▸ fld_pack hf 6 rfl rfl (by decide)
  have e1 : decodeForm ref wd = decode03 wd := by simp only [decodeForm, f6]
  rw [e1]
  simp only [decode03, f0, f1, f2, f3, f4, f5]
  simp [formOf, hl, hr]

/-- Table 4-10, major 0x03. -/
theorem RoundTrip.roli (d : Reg5) (a : Reg5) (k : BitVec 6) : RoundTrip.Statement (.roli d a k) := by
  have hf : fitBits [(k.toNat, 6), (0, 5), (0, 1), (6, 4), (a.toNat, 5), (d.toNat, 5), (3, 6)] := ⟨k.isLt, by decide, by decide, by decide, a.isLt, d.isLt, by decide, trivial⟩
  have hw : encodeNat (.roli d a k) = packBits [(k.toNat, 6), (0, 5), (0, 1), (6, 4), (a.toNat, 5), (d.toNat, 5), (3, 6)] := by
    change 201351168 + d.toNat * 2097152 + a.toNat * 65536 + k.toNat = _
    simp only [packBits]
    generalize k.toNat = x0
    generalize a.toNat = x1
    generalize d.toNat = x2
    omega
  refine roundTrip_word (hw ▸ pack_lt hf) (fun ref hl hr hm => ?_)
  generalize encodeNat (.roli d a k) = wd at hw hm ⊢
  have f0 : fld wd 5 0 = k.toNat := hw ▸ fld_pack hf 0 rfl rfl (by decide)
  have f1 : fld wd 10 6 = 0 := hw ▸ fld_pack hf 1 rfl rfl (by decide)
  have f2 : fld wd 11 11 = 0 := hw ▸ fld_pack hf 2 rfl rfl (by decide)
  have f3 : fld wd 15 12 = 6 := hw ▸ fld_pack hf 3 rfl rfl (by decide)
  have f4 : fld wd 20 16 = a.toNat := hw ▸ fld_pack hf 4 rfl rfl (by decide)
  have f5 : fld wd 25 21 = d.toNat := hw ▸ fld_pack hf 5 rfl rfl (by decide)
  have f6 : fld wd 31 26 = 3 := hw ▸ fld_pack hf 6 rfl rfl (by decide)
  have e1 : decodeForm ref wd = decode03 wd := by simp only [decodeForm, f6]
  rw [e1]
  simp only [decode03, f0, f1, f2, f3, f4, f5]
  simp [formOf, hl, hr]

/-- Table 4-10, major 0x03. -/
theorem RoundTrip.slti (d : Reg5) (a : Reg5) (imm : BitVec 12) : RoundTrip.Statement (.slti d a imm) := by
  have hf : fitBits [(imm.toNat, 12), (7, 4), (a.toNat, 5), (d.toNat, 5), (3, 6)] := ⟨imm.isLt, by decide, a.isLt, d.isLt, by decide, trivial⟩
  have hw : encodeNat (.slti d a imm) = packBits [(imm.toNat, 12), (7, 4), (a.toNat, 5), (d.toNat, 5), (3, 6)] := by
    change 201355264 + d.toNat * 2097152 + a.toNat * 65536 + imm.toNat = _
    simp only [packBits]
    generalize imm.toNat = x0
    generalize a.toNat = x1
    generalize d.toNat = x2
    omega
  refine roundTrip_word (hw ▸ pack_lt hf) (fun ref hl hr hm => ?_)
  generalize encodeNat (.slti d a imm) = wd at hw hm ⊢
  have f0 : fld wd 11 0 = imm.toNat := hw ▸ fld_pack hf 0 rfl rfl (by decide)
  have f1 : fld wd 15 12 = 7 := hw ▸ fld_pack hf 1 rfl rfl (by decide)
  have f2 : fld wd 20 16 = a.toNat := hw ▸ fld_pack hf 2 rfl rfl (by decide)
  have f3 : fld wd 25 21 = d.toNat := hw ▸ fld_pack hf 3 rfl rfl (by decide)
  have f4 : fld wd 31 26 = 3 := hw ▸ fld_pack hf 4 rfl rfl (by decide)
  have e1 : decodeForm ref wd = decode03 wd := by simp only [decodeForm, f4]
  rw [e1]
  simp only [decode03, f0, f1, f2, f3]
  simp [formOf, hl, hr]

/-- Table 4-10, major 0x03. -/
theorem RoundTrip.sltiu (d : Reg5) (a : Reg5) (imm : BitVec 12) : RoundTrip.Statement (.sltiu d a imm) := by
  have hf : fitBits [(imm.toNat, 12), (8, 4), (a.toNat, 5), (d.toNat, 5), (3, 6)] := ⟨imm.isLt, by decide, a.isLt, d.isLt, by decide, trivial⟩
  have hw : encodeNat (.sltiu d a imm) = packBits [(imm.toNat, 12), (8, 4), (a.toNat, 5), (d.toNat, 5), (3, 6)] := by
    change 201359360 + d.toNat * 2097152 + a.toNat * 65536 + imm.toNat = _
    simp only [packBits]
    generalize imm.toNat = x0
    generalize a.toNat = x1
    generalize d.toNat = x2
    omega
  refine roundTrip_word (hw ▸ pack_lt hf) (fun ref hl hr hm => ?_)
  generalize encodeNat (.sltiu d a imm) = wd at hw hm ⊢
  have f0 : fld wd 11 0 = imm.toNat := hw ▸ fld_pack hf 0 rfl rfl (by decide)
  have f1 : fld wd 15 12 = 8 := hw ▸ fld_pack hf 1 rfl rfl (by decide)
  have f2 : fld wd 20 16 = a.toNat := hw ▸ fld_pack hf 2 rfl rfl (by decide)
  have f3 : fld wd 25 21 = d.toNat := hw ▸ fld_pack hf 3 rfl rfl (by decide)
  have f4 : fld wd 31 26 = 3 := hw ▸ fld_pack hf 4 rfl rfl (by decide)
  have e1 : decodeForm ref wd = decode03 wd := by simp only [decodeForm, f4]
  rw [e1]
  simp only [decode03, f0, f1, f2, f3]
  simp [formOf, hl, hr]

/-- Table 4-10, major 0x03. -/
theorem RoundTrip.seqi (d : Reg5) (a : Reg5) (imm : BitVec 12) : RoundTrip.Statement (.seqi d a imm) := by
  have hf : fitBits [(imm.toNat, 12), (9, 4), (a.toNat, 5), (d.toNat, 5), (3, 6)] := ⟨imm.isLt, by decide, a.isLt, d.isLt, by decide, trivial⟩
  have hw : encodeNat (.seqi d a imm) = packBits [(imm.toNat, 12), (9, 4), (a.toNat, 5), (d.toNat, 5), (3, 6)] := by
    change 201363456 + d.toNat * 2097152 + a.toNat * 65536 + imm.toNat = _
    simp only [packBits]
    generalize imm.toNat = x0
    generalize a.toNat = x1
    generalize d.toNat = x2
    omega
  refine roundTrip_word (hw ▸ pack_lt hf) (fun ref hl hr hm => ?_)
  generalize encodeNat (.seqi d a imm) = wd at hw hm ⊢
  have f0 : fld wd 11 0 = imm.toNat := hw ▸ fld_pack hf 0 rfl rfl (by decide)
  have f1 : fld wd 15 12 = 9 := hw ▸ fld_pack hf 1 rfl rfl (by decide)
  have f2 : fld wd 20 16 = a.toNat := hw ▸ fld_pack hf 2 rfl rfl (by decide)
  have f3 : fld wd 25 21 = d.toNat := hw ▸ fld_pack hf 3 rfl rfl (by decide)
  have f4 : fld wd 31 26 = 3 := hw ▸ fld_pack hf 4 rfl rfl (by decide)
  have e1 : decodeForm ref wd = decode03 wd := by simp only [decodeForm, f4]
  rw [e1]
  simp only [decode03, f0, f1, f2, f3]
  simp [formOf, hl, hr]

/-- Table 4-10, major 0x04. -/
theorem RoundTrip.lui (d : Reg5) (imm : BitVec 20) : RoundTrip.Statement (.lui d imm) := by
  have hf : fitBits [(imm.toNat, 20), (0, 1), (d.toNat, 5), (4, 6)] := ⟨imm.isLt, by decide, d.isLt, by decide, trivial⟩
  have hw : encodeNat (.lui d imm) = packBits [(imm.toNat, 20), (0, 1), (d.toNat, 5), (4, 6)] := by
    change 268435456 + d.toNat * 2097152 + imm.toNat = _
    simp only [packBits]
    generalize imm.toNat = x0
    generalize d.toNat = x1
    omega
  refine roundTrip_word (hw ▸ pack_lt hf) (fun ref hl hr hm => ?_)
  generalize encodeNat (.lui d imm) = wd at hw hm ⊢
  have f0 : fld wd 19 0 = imm.toNat := hw ▸ fld_pack hf 0 rfl rfl (by decide)
  have f1 : fld wd 20 20 = 0 := hw ▸ fld_pack hf 1 rfl rfl (by decide)
  have f2 : fld wd 25 21 = d.toNat := hw ▸ fld_pack hf 2 rfl rfl (by decide)
  have f3 : fld wd 31 26 = 4 := hw ▸ fld_pack hf 3 rfl rfl (by decide)
  have e1 : decodeForm ref wd = decode04 wd := by simp only [decodeForm, f3]
  rw [e1]
  simp only [decode04, f0, f1, f2]
  simp [formOf, hl, hr]

/-- Table 4-10, major 0x05. -/
theorem RoundTrip.auipc (d : Reg5) (imm : BitVec 20) : RoundTrip.Statement (.auipc d imm) := by
  have hf : fitBits [(imm.toNat, 20), (0, 1), (d.toNat, 5), (5, 6)] := ⟨imm.isLt, by decide, d.isLt, by decide, trivial⟩
  have hw : encodeNat (.auipc d imm) = packBits [(imm.toNat, 20), (0, 1), (d.toNat, 5), (5, 6)] := by
    change 335544320 + d.toNat * 2097152 + imm.toNat = _
    simp only [packBits]
    generalize imm.toNat = x0
    generalize d.toNat = x1
    omega
  refine roundTrip_word (hw ▸ pack_lt hf) (fun ref hl hr hm => ?_)
  generalize encodeNat (.auipc d imm) = wd at hw hm ⊢
  have f0 : fld wd 19 0 = imm.toNat := hw ▸ fld_pack hf 0 rfl rfl (by decide)
  have f1 : fld wd 20 20 = 0 := hw ▸ fld_pack hf 1 rfl rfl (by decide)
  have f2 : fld wd 25 21 = d.toNat := hw ▸ fld_pack hf 2 rfl rfl (by decide)
  have f3 : fld wd 31 26 = 5 := hw ▸ fld_pack hf 3 rfl rfl (by decide)
  have e1 : decodeForm ref wd = decode05 wd := by simp only [decodeForm, f3]
  rw [e1]
  simp only [decode05, f0, f1, f2]
  simp [formOf, hl, hr]

/-- Table 4-10, major 0x06. -/
theorem RoundTrip.mul (d : Reg5) (a : Reg5) (b : Reg5) : RoundTrip.Statement (.mul d a b) := by
  have hf : fitBits [(0, 11), (b.toNat, 5), (a.toNat, 5), (d.toNat, 5), (6, 6)] := ⟨by decide, b.isLt, a.isLt, d.isLt, by decide, trivial⟩
  have hw : encodeNat (.mul d a b) = packBits [(0, 11), (b.toNat, 5), (a.toNat, 5), (d.toNat, 5), (6, 6)] := by
    change 402653184 + d.toNat * 2097152 + a.toNat * 65536 + b.toNat * 2048 = _
    simp only [packBits]
    generalize b.toNat = x0
    generalize a.toNat = x1
    generalize d.toNat = x2
    omega
  refine roundTrip_word (hw ▸ pack_lt hf) (fun ref hl hr hm => ?_)
  generalize encodeNat (.mul d a b) = wd at hw hm ⊢
  have f0 : fld wd 10 0 = 0 := hw ▸ fld_pack hf 0 rfl rfl (by decide)
  have f1 : fld wd 15 11 = b.toNat := hw ▸ fld_pack hf 1 rfl rfl (by decide)
  have f2 : fld wd 20 16 = a.toNat := hw ▸ fld_pack hf 2 rfl rfl (by decide)
  have f3 : fld wd 25 21 = d.toNat := hw ▸ fld_pack hf 3 rfl rfl (by decide)
  have f4 : fld wd 31 26 = 6 := hw ▸ fld_pack hf 4 rfl rfl (by decide)
  have e1 : decodeForm ref wd = decode06 wd := by simp only [decodeForm, f4]
  rw [e1]
  simp only [decode06, f0, f1, f2, f3]
  simp [formOf, hl, hr]

/-- Table 4-10, major 0x06. -/
theorem RoundTrip.mulh (d : Reg5) (a : Reg5) (b : Reg5) : RoundTrip.Statement (.mulh d a b) := by
  have hf : fitBits [(1, 11), (b.toNat, 5), (a.toNat, 5), (d.toNat, 5), (6, 6)] := ⟨by decide, b.isLt, a.isLt, d.isLt, by decide, trivial⟩
  have hw : encodeNat (.mulh d a b) = packBits [(1, 11), (b.toNat, 5), (a.toNat, 5), (d.toNat, 5), (6, 6)] := by
    change 402653185 + d.toNat * 2097152 + a.toNat * 65536 + b.toNat * 2048 = _
    simp only [packBits]
    generalize b.toNat = x0
    generalize a.toNat = x1
    generalize d.toNat = x2
    omega
  refine roundTrip_word (hw ▸ pack_lt hf) (fun ref hl hr hm => ?_)
  generalize encodeNat (.mulh d a b) = wd at hw hm ⊢
  have f0 : fld wd 10 0 = 1 := hw ▸ fld_pack hf 0 rfl rfl (by decide)
  have f1 : fld wd 15 11 = b.toNat := hw ▸ fld_pack hf 1 rfl rfl (by decide)
  have f2 : fld wd 20 16 = a.toNat := hw ▸ fld_pack hf 2 rfl rfl (by decide)
  have f3 : fld wd 25 21 = d.toNat := hw ▸ fld_pack hf 3 rfl rfl (by decide)
  have f4 : fld wd 31 26 = 6 := hw ▸ fld_pack hf 4 rfl rfl (by decide)
  have e1 : decodeForm ref wd = decode06 wd := by simp only [decodeForm, f4]
  rw [e1]
  simp only [decode06, f0, f1, f2, f3]
  simp [formOf, hl, hr]

/-- Table 4-10, major 0x06. -/
theorem RoundTrip.mulhu (d : Reg5) (a : Reg5) (b : Reg5) : RoundTrip.Statement (.mulhu d a b) := by
  have hf : fitBits [(2, 11), (b.toNat, 5), (a.toNat, 5), (d.toNat, 5), (6, 6)] := ⟨by decide, b.isLt, a.isLt, d.isLt, by decide, trivial⟩
  have hw : encodeNat (.mulhu d a b) = packBits [(2, 11), (b.toNat, 5), (a.toNat, 5), (d.toNat, 5), (6, 6)] := by
    change 402653186 + d.toNat * 2097152 + a.toNat * 65536 + b.toNat * 2048 = _
    simp only [packBits]
    generalize b.toNat = x0
    generalize a.toNat = x1
    generalize d.toNat = x2
    omega
  refine roundTrip_word (hw ▸ pack_lt hf) (fun ref hl hr hm => ?_)
  generalize encodeNat (.mulhu d a b) = wd at hw hm ⊢
  have f0 : fld wd 10 0 = 2 := hw ▸ fld_pack hf 0 rfl rfl (by decide)
  have f1 : fld wd 15 11 = b.toNat := hw ▸ fld_pack hf 1 rfl rfl (by decide)
  have f2 : fld wd 20 16 = a.toNat := hw ▸ fld_pack hf 2 rfl rfl (by decide)
  have f3 : fld wd 25 21 = d.toNat := hw ▸ fld_pack hf 3 rfl rfl (by decide)
  have f4 : fld wd 31 26 = 6 := hw ▸ fld_pack hf 4 rfl rfl (by decide)
  have e1 : decodeForm ref wd = decode06 wd := by simp only [decodeForm, f4]
  rw [e1]
  simp only [decode06, f0, f1, f2, f3]
  simp [formOf, hl, hr]

/-- Table 4-10, major 0x06. -/
theorem RoundTrip.div (d : Reg5) (a : Reg5) (b : Reg5) : RoundTrip.Statement (.div d a b) := by
  have hf : fitBits [(3, 11), (b.toNat, 5), (a.toNat, 5), (d.toNat, 5), (6, 6)] := ⟨by decide, b.isLt, a.isLt, d.isLt, by decide, trivial⟩
  have hw : encodeNat (.div d a b) = packBits [(3, 11), (b.toNat, 5), (a.toNat, 5), (d.toNat, 5), (6, 6)] := by
    change 402653187 + d.toNat * 2097152 + a.toNat * 65536 + b.toNat * 2048 = _
    simp only [packBits]
    generalize b.toNat = x0
    generalize a.toNat = x1
    generalize d.toNat = x2
    omega
  refine roundTrip_word (hw ▸ pack_lt hf) (fun ref hl hr hm => ?_)
  generalize encodeNat (.div d a b) = wd at hw hm ⊢
  have f0 : fld wd 10 0 = 3 := hw ▸ fld_pack hf 0 rfl rfl (by decide)
  have f1 : fld wd 15 11 = b.toNat := hw ▸ fld_pack hf 1 rfl rfl (by decide)
  have f2 : fld wd 20 16 = a.toNat := hw ▸ fld_pack hf 2 rfl rfl (by decide)
  have f3 : fld wd 25 21 = d.toNat := hw ▸ fld_pack hf 3 rfl rfl (by decide)
  have f4 : fld wd 31 26 = 6 := hw ▸ fld_pack hf 4 rfl rfl (by decide)
  have e1 : decodeForm ref wd = decode06 wd := by simp only [decodeForm, f4]
  rw [e1]
  simp only [decode06, f0, f1, f2, f3]
  simp [formOf, hl, hr]

/-- Table 4-10, major 0x06. -/
theorem RoundTrip.divu (d : Reg5) (a : Reg5) (b : Reg5) : RoundTrip.Statement (.divu d a b) := by
  have hf : fitBits [(4, 11), (b.toNat, 5), (a.toNat, 5), (d.toNat, 5), (6, 6)] := ⟨by decide, b.isLt, a.isLt, d.isLt, by decide, trivial⟩
  have hw : encodeNat (.divu d a b) = packBits [(4, 11), (b.toNat, 5), (a.toNat, 5), (d.toNat, 5), (6, 6)] := by
    change 402653188 + d.toNat * 2097152 + a.toNat * 65536 + b.toNat * 2048 = _
    simp only [packBits]
    generalize b.toNat = x0
    generalize a.toNat = x1
    generalize d.toNat = x2
    omega
  refine roundTrip_word (hw ▸ pack_lt hf) (fun ref hl hr hm => ?_)
  generalize encodeNat (.divu d a b) = wd at hw hm ⊢
  have f0 : fld wd 10 0 = 4 := hw ▸ fld_pack hf 0 rfl rfl (by decide)
  have f1 : fld wd 15 11 = b.toNat := hw ▸ fld_pack hf 1 rfl rfl (by decide)
  have f2 : fld wd 20 16 = a.toNat := hw ▸ fld_pack hf 2 rfl rfl (by decide)
  have f3 : fld wd 25 21 = d.toNat := hw ▸ fld_pack hf 3 rfl rfl (by decide)
  have f4 : fld wd 31 26 = 6 := hw ▸ fld_pack hf 4 rfl rfl (by decide)
  have e1 : decodeForm ref wd = decode06 wd := by simp only [decodeForm, f4]
  rw [e1]
  simp only [decode06, f0, f1, f2, f3]
  simp [formOf, hl, hr]

/-- Table 4-10, major 0x06. -/
theorem RoundTrip.rem (d : Reg5) (a : Reg5) (b : Reg5) : RoundTrip.Statement (.rem d a b) := by
  have hf : fitBits [(5, 11), (b.toNat, 5), (a.toNat, 5), (d.toNat, 5), (6, 6)] := ⟨by decide, b.isLt, a.isLt, d.isLt, by decide, trivial⟩
  have hw : encodeNat (.rem d a b) = packBits [(5, 11), (b.toNat, 5), (a.toNat, 5), (d.toNat, 5), (6, 6)] := by
    change 402653189 + d.toNat * 2097152 + a.toNat * 65536 + b.toNat * 2048 = _
    simp only [packBits]
    generalize b.toNat = x0
    generalize a.toNat = x1
    generalize d.toNat = x2
    omega
  refine roundTrip_word (hw ▸ pack_lt hf) (fun ref hl hr hm => ?_)
  generalize encodeNat (.rem d a b) = wd at hw hm ⊢
  have f0 : fld wd 10 0 = 5 := hw ▸ fld_pack hf 0 rfl rfl (by decide)
  have f1 : fld wd 15 11 = b.toNat := hw ▸ fld_pack hf 1 rfl rfl (by decide)
  have f2 : fld wd 20 16 = a.toNat := hw ▸ fld_pack hf 2 rfl rfl (by decide)
  have f3 : fld wd 25 21 = d.toNat := hw ▸ fld_pack hf 3 rfl rfl (by decide)
  have f4 : fld wd 31 26 = 6 := hw ▸ fld_pack hf 4 rfl rfl (by decide)
  have e1 : decodeForm ref wd = decode06 wd := by simp only [decodeForm, f4]
  rw [e1]
  simp only [decode06, f0, f1, f2, f3]
  simp [formOf, hl, hr]

/-- Table 4-10, major 0x06. -/
theorem RoundTrip.remu (d : Reg5) (a : Reg5) (b : Reg5) : RoundTrip.Statement (.remu d a b) := by
  have hf : fitBits [(6, 11), (b.toNat, 5), (a.toNat, 5), (d.toNat, 5), (6, 6)] := ⟨by decide, b.isLt, a.isLt, d.isLt, by decide, trivial⟩
  have hw : encodeNat (.remu d a b) = packBits [(6, 11), (b.toNat, 5), (a.toNat, 5), (d.toNat, 5), (6, 6)] := by
    change 402653190 + d.toNat * 2097152 + a.toNat * 65536 + b.toNat * 2048 = _
    simp only [packBits]
    generalize b.toNat = x0
    generalize a.toNat = x1
    generalize d.toNat = x2
    omega
  refine roundTrip_word (hw ▸ pack_lt hf) (fun ref hl hr hm => ?_)
  generalize encodeNat (.remu d a b) = wd at hw hm ⊢
  have f0 : fld wd 10 0 = 6 := hw ▸ fld_pack hf 0 rfl rfl (by decide)
  have f1 : fld wd 15 11 = b.toNat := hw ▸ fld_pack hf 1 rfl rfl (by decide)
  have f2 : fld wd 20 16 = a.toNat := hw ▸ fld_pack hf 2 rfl rfl (by decide)
  have f3 : fld wd 25 21 = d.toNat := hw ▸ fld_pack hf 3 rfl rfl (by decide)
  have f4 : fld wd 31 26 = 6 := hw ▸ fld_pack hf 4 rfl rfl (by decide)
  have e1 : decodeForm ref wd = decode06 wd := by simp only [decodeForm, f4]
  rw [e1]
  simp only [decode06, f0, f1, f2, f3]
  simp [formOf, hl, hr]

/-- Table 4-10, major 0x07. -/
theorem RoundTrip.clz (d : Reg5) (a : Reg5) : RoundTrip.Statement (.clz d a) := by
  have hf : fitBits [(0, 11), (0, 5), (a.toNat, 5), (d.toNat, 5), (7, 6)] := ⟨by decide, by decide, a.isLt, d.isLt, by decide, trivial⟩
  have hw : encodeNat (.clz d a) = packBits [(0, 11), (0, 5), (a.toNat, 5), (d.toNat, 5), (7, 6)] := by
    change 469762048 + d.toNat * 2097152 + a.toNat * 65536 = _
    simp only [packBits]
    generalize a.toNat = x0
    generalize d.toNat = x1
    omega
  refine roundTrip_word (hw ▸ pack_lt hf) (fun ref hl hr hm => ?_)
  generalize encodeNat (.clz d a) = wd at hw hm ⊢
  have f0 : fld wd 10 0 = 0 := hw ▸ fld_pack hf 0 rfl rfl (by decide)
  have f1 : fld wd 15 11 = 0 := hw ▸ fld_pack hf 1 rfl rfl (by decide)
  have f2 : fld wd 20 16 = a.toNat := hw ▸ fld_pack hf 2 rfl rfl (by decide)
  have f3 : fld wd 25 21 = d.toNat := hw ▸ fld_pack hf 3 rfl rfl (by decide)
  have f4 : fld wd 31 26 = 7 := hw ▸ fld_pack hf 4 rfl rfl (by decide)
  have e1 : decodeForm ref wd = decode07 wd := by simp only [decodeForm, f4]
  rw [e1]
  simp only [decode07, f0, f1, f2, f3]
  simp [formOf, hl, hr]

/-- Table 4-10, major 0x07. -/
theorem RoundTrip.ctz (d : Reg5) (a : Reg5) : RoundTrip.Statement (.ctz d a) := by
  have hf : fitBits [(1, 11), (0, 5), (a.toNat, 5), (d.toNat, 5), (7, 6)] := ⟨by decide, by decide, a.isLt, d.isLt, by decide, trivial⟩
  have hw : encodeNat (.ctz d a) = packBits [(1, 11), (0, 5), (a.toNat, 5), (d.toNat, 5), (7, 6)] := by
    change 469762049 + d.toNat * 2097152 + a.toNat * 65536 = _
    simp only [packBits]
    generalize a.toNat = x0
    generalize d.toNat = x1
    omega
  refine roundTrip_word (hw ▸ pack_lt hf) (fun ref hl hr hm => ?_)
  generalize encodeNat (.ctz d a) = wd at hw hm ⊢
  have f0 : fld wd 10 0 = 1 := hw ▸ fld_pack hf 0 rfl rfl (by decide)
  have f1 : fld wd 15 11 = 0 := hw ▸ fld_pack hf 1 rfl rfl (by decide)
  have f2 : fld wd 20 16 = a.toNat := hw ▸ fld_pack hf 2 rfl rfl (by decide)
  have f3 : fld wd 25 21 = d.toNat := hw ▸ fld_pack hf 3 rfl rfl (by decide)
  have f4 : fld wd 31 26 = 7 := hw ▸ fld_pack hf 4 rfl rfl (by decide)
  have e1 : decodeForm ref wd = decode07 wd := by simp only [decodeForm, f4]
  rw [e1]
  simp only [decode07, f0, f1, f2, f3]
  simp [formOf, hl, hr]

/-- Table 4-10, major 0x07. -/
theorem RoundTrip.popc (d : Reg5) (a : Reg5) : RoundTrip.Statement (.popc d a) := by
  have hf : fitBits [(2, 11), (0, 5), (a.toNat, 5), (d.toNat, 5), (7, 6)] := ⟨by decide, by decide, a.isLt, d.isLt, by decide, trivial⟩
  have hw : encodeNat (.popc d a) = packBits [(2, 11), (0, 5), (a.toNat, 5), (d.toNat, 5), (7, 6)] := by
    change 469762050 + d.toNat * 2097152 + a.toNat * 65536 = _
    simp only [packBits]
    generalize a.toNat = x0
    generalize d.toNat = x1
    omega
  refine roundTrip_word (hw ▸ pack_lt hf) (fun ref hl hr hm => ?_)
  generalize encodeNat (.popc d a) = wd at hw hm ⊢
  have f0 : fld wd 10 0 = 2 := hw ▸ fld_pack hf 0 rfl rfl (by decide)
  have f1 : fld wd 15 11 = 0 := hw ▸ fld_pack hf 1 rfl rfl (by decide)
  have f2 : fld wd 20 16 = a.toNat := hw ▸ fld_pack hf 2 rfl rfl (by decide)
  have f3 : fld wd 25 21 = d.toNat := hw ▸ fld_pack hf 3 rfl rfl (by decide)
  have f4 : fld wd 31 26 = 7 := hw ▸ fld_pack hf 4 rfl rfl (by decide)
  have e1 : decodeForm ref wd = decode07 wd := by simp only [decodeForm, f4]
  rw [e1]
  simp only [decode07, f0, f1, f2, f3]
  simp [formOf, hl, hr]

/-- Table 4-10, major 0x07. -/
theorem RoundTrip.brev (d : Reg5) (a : Reg5) : RoundTrip.Statement (.brev d a) := by
  have hf : fitBits [(3, 11), (0, 5), (a.toNat, 5), (d.toNat, 5), (7, 6)] := ⟨by decide, by decide, a.isLt, d.isLt, by decide, trivial⟩
  have hw : encodeNat (.brev d a) = packBits [(3, 11), (0, 5), (a.toNat, 5), (d.toNat, 5), (7, 6)] := by
    change 469762051 + d.toNat * 2097152 + a.toNat * 65536 = _
    simp only [packBits]
    generalize a.toNat = x0
    generalize d.toNat = x1
    omega
  refine roundTrip_word (hw ▸ pack_lt hf) (fun ref hl hr hm => ?_)
  generalize encodeNat (.brev d a) = wd at hw hm ⊢
  have f0 : fld wd 10 0 = 3 := hw ▸ fld_pack hf 0 rfl rfl (by decide)
  have f1 : fld wd 15 11 = 0 := hw ▸ fld_pack hf 1 rfl rfl (by decide)
  have f2 : fld wd 20 16 = a.toNat := hw ▸ fld_pack hf 2 rfl rfl (by decide)
  have f3 : fld wd 25 21 = d.toNat := hw ▸ fld_pack hf 3 rfl rfl (by decide)
  have f4 : fld wd 31 26 = 7 := hw ▸ fld_pack hf 4 rfl rfl (by decide)
  have e1 : decodeForm ref wd = decode07 wd := by simp only [decodeForm, f4]
  rw [e1]
  simp only [decode07, f0, f1, f2, f3]
  simp [formOf, hl, hr]

/-- Table 4-10, major 0x07. -/
theorem RoundTrip.bswap (d : Reg5) (a : Reg5) : RoundTrip.Statement (.bswap d a) := by
  have hf : fitBits [(4, 11), (0, 5), (a.toNat, 5), (d.toNat, 5), (7, 6)] := ⟨by decide, by decide, a.isLt, d.isLt, by decide, trivial⟩
  have hw : encodeNat (.bswap d a) = packBits [(4, 11), (0, 5), (a.toNat, 5), (d.toNat, 5), (7, 6)] := by
    change 469762052 + d.toNat * 2097152 + a.toNat * 65536 = _
    simp only [packBits]
    generalize a.toNat = x0
    generalize d.toNat = x1
    omega
  refine roundTrip_word (hw ▸ pack_lt hf) (fun ref hl hr hm => ?_)
  generalize encodeNat (.bswap d a) = wd at hw hm ⊢
  have f0 : fld wd 10 0 = 4 := hw ▸ fld_pack hf 0 rfl rfl (by decide)
  have f1 : fld wd 15 11 = 0 := hw ▸ fld_pack hf 1 rfl rfl (by decide)
  have f2 : fld wd 20 16 = a.toNat := hw ▸ fld_pack hf 2 rfl rfl (by decide)
  have f3 : fld wd 25 21 = d.toNat := hw ▸ fld_pack hf 3 rfl rfl (by decide)
  have f4 : fld wd 31 26 = 7 := hw ▸ fld_pack hf 4 rfl rfl (by decide)
  have e1 : decodeForm ref wd = decode07 wd := by simp only [decodeForm, f4]
  rw [e1]
  simp only [decode07, f0, f1, f2, f3]
  simp [formOf, hl, hr]

/-- Table 4-10, major 0x07. -/
theorem RoundTrip.bfx (d : Reg5) (a : Reg5) (b : Reg5) : RoundTrip.Statement (.bfx d a b) := by
  have hf : fitBits [(5, 11), (b.toNat, 5), (a.toNat, 5), (d.toNat, 5), (7, 6)] := ⟨by decide, b.isLt, a.isLt, d.isLt, by decide, trivial⟩
  have hw : encodeNat (.bfx d a b) = packBits [(5, 11), (b.toNat, 5), (a.toNat, 5), (d.toNat, 5), (7, 6)] := by
    change 469762053 + d.toNat * 2097152 + a.toNat * 65536 + b.toNat * 2048 = _
    simp only [packBits]
    generalize b.toNat = x0
    generalize a.toNat = x1
    generalize d.toNat = x2
    omega
  refine roundTrip_word (hw ▸ pack_lt hf) (fun ref hl hr hm => ?_)
  generalize encodeNat (.bfx d a b) = wd at hw hm ⊢
  have f0 : fld wd 10 0 = 5 := hw ▸ fld_pack hf 0 rfl rfl (by decide)
  have f1 : fld wd 15 11 = b.toNat := hw ▸ fld_pack hf 1 rfl rfl (by decide)
  have f2 : fld wd 20 16 = a.toNat := hw ▸ fld_pack hf 2 rfl rfl (by decide)
  have f3 : fld wd 25 21 = d.toNat := hw ▸ fld_pack hf 3 rfl rfl (by decide)
  have f4 : fld wd 31 26 = 7 := hw ▸ fld_pack hf 4 rfl rfl (by decide)
  have e1 : decodeForm ref wd = decode07 wd := by simp only [decodeForm, f4]
  rw [e1]
  simp only [decode07, f0, f1, f2, f3]
  simp [formOf, hl, hr]

/-- Table 4-10, major 0x07. -/
theorem RoundTrip.bfi (d : Reg5) (a : Reg5) (b : Reg5) : RoundTrip.Statement (.bfi d a b) := by
  have hf : fitBits [(6, 11), (b.toNat, 5), (a.toNat, 5), (d.toNat, 5), (7, 6)] := ⟨by decide, b.isLt, a.isLt, d.isLt, by decide, trivial⟩
  have hw : encodeNat (.bfi d a b) = packBits [(6, 11), (b.toNat, 5), (a.toNat, 5), (d.toNat, 5), (7, 6)] := by
    change 469762054 + d.toNat * 2097152 + a.toNat * 65536 + b.toNat * 2048 = _
    simp only [packBits]
    generalize b.toNat = x0
    generalize a.toNat = x1
    generalize d.toNat = x2
    omega
  refine roundTrip_word (hw ▸ pack_lt hf) (fun ref hl hr hm => ?_)
  generalize encodeNat (.bfi d a b) = wd at hw hm ⊢
  have f0 : fld wd 10 0 = 6 := hw ▸ fld_pack hf 0 rfl rfl (by decide)
  have f1 : fld wd 15 11 = b.toNat := hw ▸ fld_pack hf 1 rfl rfl (by decide)
  have f2 : fld wd 20 16 = a.toNat := hw ▸ fld_pack hf 2 rfl rfl (by decide)
  have f3 : fld wd 25 21 = d.toNat := hw ▸ fld_pack hf 3 rfl rfl (by decide)
  have f4 : fld wd 31 26 = 7 := hw ▸ fld_pack hf 4 rfl rfl (by decide)
  have e1 : decodeForm ref wd = decode07 wd := by simp only [decodeForm, f4]
  rw [e1]
  simp only [decode07, f0, f1, f2, f3]
  simp [formOf, hl, hr]

/-- Table 4-10, major 0x08. -/
theorem RoundTrip.lb (d : Reg5) (a : Reg5) (imm : BitVec 12) : RoundTrip.Statement (.lb d a imm) := by
  have hf : fitBits [(imm.toNat, 12), (0, 4), (a.toNat, 5), (d.toNat, 5), (8, 6)] := ⟨imm.isLt, by decide, a.isLt, d.isLt, by decide, trivial⟩
  have hw : encodeNat (.lb d a imm) = packBits [(imm.toNat, 12), (0, 4), (a.toNat, 5), (d.toNat, 5), (8, 6)] := by
    change 536870912 + d.toNat * 2097152 + a.toNat * 65536 + imm.toNat = _
    simp only [packBits]
    generalize imm.toNat = x0
    generalize a.toNat = x1
    generalize d.toNat = x2
    omega
  refine roundTrip_word (hw ▸ pack_lt hf) (fun ref hl hr hm => ?_)
  generalize encodeNat (.lb d a imm) = wd at hw hm ⊢
  have f0 : fld wd 11 0 = imm.toNat := hw ▸ fld_pack hf 0 rfl rfl (by decide)
  have f1 : fld wd 15 12 = 0 := hw ▸ fld_pack hf 1 rfl rfl (by decide)
  have f2 : fld wd 20 16 = a.toNat := hw ▸ fld_pack hf 2 rfl rfl (by decide)
  have f3 : fld wd 25 21 = d.toNat := hw ▸ fld_pack hf 3 rfl rfl (by decide)
  have f4 : fld wd 31 26 = 8 := hw ▸ fld_pack hf 4 rfl rfl (by decide)
  have e1 : decodeForm ref wd = decode08 wd := by simp only [decodeForm, f4]
  rw [e1]
  simp only [decode08, f0, f1, f2, f3]
  simp [formOf, hl, hr]

/-- Table 4-10, major 0x08. -/
theorem RoundTrip.lbu (d : Reg5) (a : Reg5) (imm : BitVec 12) : RoundTrip.Statement (.lbu d a imm) := by
  have hf : fitBits [(imm.toNat, 12), (1, 4), (a.toNat, 5), (d.toNat, 5), (8, 6)] := ⟨imm.isLt, by decide, a.isLt, d.isLt, by decide, trivial⟩
  have hw : encodeNat (.lbu d a imm) = packBits [(imm.toNat, 12), (1, 4), (a.toNat, 5), (d.toNat, 5), (8, 6)] := by
    change 536875008 + d.toNat * 2097152 + a.toNat * 65536 + imm.toNat = _
    simp only [packBits]
    generalize imm.toNat = x0
    generalize a.toNat = x1
    generalize d.toNat = x2
    omega
  refine roundTrip_word (hw ▸ pack_lt hf) (fun ref hl hr hm => ?_)
  generalize encodeNat (.lbu d a imm) = wd at hw hm ⊢
  have f0 : fld wd 11 0 = imm.toNat := hw ▸ fld_pack hf 0 rfl rfl (by decide)
  have f1 : fld wd 15 12 = 1 := hw ▸ fld_pack hf 1 rfl rfl (by decide)
  have f2 : fld wd 20 16 = a.toNat := hw ▸ fld_pack hf 2 rfl rfl (by decide)
  have f3 : fld wd 25 21 = d.toNat := hw ▸ fld_pack hf 3 rfl rfl (by decide)
  have f4 : fld wd 31 26 = 8 := hw ▸ fld_pack hf 4 rfl rfl (by decide)
  have e1 : decodeForm ref wd = decode08 wd := by simp only [decodeForm, f4]
  rw [e1]
  simp only [decode08, f0, f1, f2, f3]
  simp [formOf, hl, hr]

/-- Table 4-10, major 0x08. -/
theorem RoundTrip.lh (d : Reg5) (a : Reg5) (imm : BitVec 12) : RoundTrip.Statement (.lh d a imm) := by
  have hf : fitBits [(imm.toNat, 12), (2, 4), (a.toNat, 5), (d.toNat, 5), (8, 6)] := ⟨imm.isLt, by decide, a.isLt, d.isLt, by decide, trivial⟩
  have hw : encodeNat (.lh d a imm) = packBits [(imm.toNat, 12), (2, 4), (a.toNat, 5), (d.toNat, 5), (8, 6)] := by
    change 536879104 + d.toNat * 2097152 + a.toNat * 65536 + imm.toNat = _
    simp only [packBits]
    generalize imm.toNat = x0
    generalize a.toNat = x1
    generalize d.toNat = x2
    omega
  refine roundTrip_word (hw ▸ pack_lt hf) (fun ref hl hr hm => ?_)
  generalize encodeNat (.lh d a imm) = wd at hw hm ⊢
  have f0 : fld wd 11 0 = imm.toNat := hw ▸ fld_pack hf 0 rfl rfl (by decide)
  have f1 : fld wd 15 12 = 2 := hw ▸ fld_pack hf 1 rfl rfl (by decide)
  have f2 : fld wd 20 16 = a.toNat := hw ▸ fld_pack hf 2 rfl rfl (by decide)
  have f3 : fld wd 25 21 = d.toNat := hw ▸ fld_pack hf 3 rfl rfl (by decide)
  have f4 : fld wd 31 26 = 8 := hw ▸ fld_pack hf 4 rfl rfl (by decide)
  have e1 : decodeForm ref wd = decode08 wd := by simp only [decodeForm, f4]
  rw [e1]
  simp only [decode08, f0, f1, f2, f3]
  simp [formOf, hl, hr]

/-- Table 4-10, major 0x08. -/
theorem RoundTrip.lhu (d : Reg5) (a : Reg5) (imm : BitVec 12) : RoundTrip.Statement (.lhu d a imm) := by
  have hf : fitBits [(imm.toNat, 12), (3, 4), (a.toNat, 5), (d.toNat, 5), (8, 6)] := ⟨imm.isLt, by decide, a.isLt, d.isLt, by decide, trivial⟩
  have hw : encodeNat (.lhu d a imm) = packBits [(imm.toNat, 12), (3, 4), (a.toNat, 5), (d.toNat, 5), (8, 6)] := by
    change 536883200 + d.toNat * 2097152 + a.toNat * 65536 + imm.toNat = _
    simp only [packBits]
    generalize imm.toNat = x0
    generalize a.toNat = x1
    generalize d.toNat = x2
    omega
  refine roundTrip_word (hw ▸ pack_lt hf) (fun ref hl hr hm => ?_)
  generalize encodeNat (.lhu d a imm) = wd at hw hm ⊢
  have f0 : fld wd 11 0 = imm.toNat := hw ▸ fld_pack hf 0 rfl rfl (by decide)
  have f1 : fld wd 15 12 = 3 := hw ▸ fld_pack hf 1 rfl rfl (by decide)
  have f2 : fld wd 20 16 = a.toNat := hw ▸ fld_pack hf 2 rfl rfl (by decide)
  have f3 : fld wd 25 21 = d.toNat := hw ▸ fld_pack hf 3 rfl rfl (by decide)
  have f4 : fld wd 31 26 = 8 := hw ▸ fld_pack hf 4 rfl rfl (by decide)
  have e1 : decodeForm ref wd = decode08 wd := by simp only [decodeForm, f4]
  rw [e1]
  simp only [decode08, f0, f1, f2, f3]
  simp [formOf, hl, hr]

/-- Table 4-10, major 0x08. -/
theorem RoundTrip.lw (d : Reg5) (a : Reg5) (imm : BitVec 12) : RoundTrip.Statement (.lw d a imm) := by
  have hf : fitBits [(imm.toNat, 12), (4, 4), (a.toNat, 5), (d.toNat, 5), (8, 6)] := ⟨imm.isLt, by decide, a.isLt, d.isLt, by decide, trivial⟩
  have hw : encodeNat (.lw d a imm) = packBits [(imm.toNat, 12), (4, 4), (a.toNat, 5), (d.toNat, 5), (8, 6)] := by
    change 536887296 + d.toNat * 2097152 + a.toNat * 65536 + imm.toNat = _
    simp only [packBits]
    generalize imm.toNat = x0
    generalize a.toNat = x1
    generalize d.toNat = x2
    omega
  refine roundTrip_word (hw ▸ pack_lt hf) (fun ref hl hr hm => ?_)
  generalize encodeNat (.lw d a imm) = wd at hw hm ⊢
  have f0 : fld wd 11 0 = imm.toNat := hw ▸ fld_pack hf 0 rfl rfl (by decide)
  have f1 : fld wd 15 12 = 4 := hw ▸ fld_pack hf 1 rfl rfl (by decide)
  have f2 : fld wd 20 16 = a.toNat := hw ▸ fld_pack hf 2 rfl rfl (by decide)
  have f3 : fld wd 25 21 = d.toNat := hw ▸ fld_pack hf 3 rfl rfl (by decide)
  have f4 : fld wd 31 26 = 8 := hw ▸ fld_pack hf 4 rfl rfl (by decide)
  have e1 : decodeForm ref wd = decode08 wd := by simp only [decodeForm, f4]
  rw [e1]
  simp only [decode08, f0, f1, f2, f3]
  simp [formOf, hl, hr]

/-- Table 4-10, major 0x08. -/
theorem RoundTrip.lwu (d : Reg5) (a : Reg5) (imm : BitVec 12) : RoundTrip.Statement (.lwu d a imm) := by
  have hf : fitBits [(imm.toNat, 12), (5, 4), (a.toNat, 5), (d.toNat, 5), (8, 6)] := ⟨imm.isLt, by decide, a.isLt, d.isLt, by decide, trivial⟩
  have hw : encodeNat (.lwu d a imm) = packBits [(imm.toNat, 12), (5, 4), (a.toNat, 5), (d.toNat, 5), (8, 6)] := by
    change 536891392 + d.toNat * 2097152 + a.toNat * 65536 + imm.toNat = _
    simp only [packBits]
    generalize imm.toNat = x0
    generalize a.toNat = x1
    generalize d.toNat = x2
    omega
  refine roundTrip_word (hw ▸ pack_lt hf) (fun ref hl hr hm => ?_)
  generalize encodeNat (.lwu d a imm) = wd at hw hm ⊢
  have f0 : fld wd 11 0 = imm.toNat := hw ▸ fld_pack hf 0 rfl rfl (by decide)
  have f1 : fld wd 15 12 = 5 := hw ▸ fld_pack hf 1 rfl rfl (by decide)
  have f2 : fld wd 20 16 = a.toNat := hw ▸ fld_pack hf 2 rfl rfl (by decide)
  have f3 : fld wd 25 21 = d.toNat := hw ▸ fld_pack hf 3 rfl rfl (by decide)
  have f4 : fld wd 31 26 = 8 := hw ▸ fld_pack hf 4 rfl rfl (by decide)
  have e1 : decodeForm ref wd = decode08 wd := by simp only [decodeForm, f4]
  rw [e1]
  simp only [decode08, f0, f1, f2, f3]
  simp [formOf, hl, hr]

/-- Table 4-10, major 0x08. -/
theorem RoundTrip.ld (d : Reg5) (a : Reg5) (imm : BitVec 12) : RoundTrip.Statement (.ld d a imm) := by
  have hf : fitBits [(imm.toNat, 12), (6, 4), (a.toNat, 5), (d.toNat, 5), (8, 6)] := ⟨imm.isLt, by decide, a.isLt, d.isLt, by decide, trivial⟩
  have hw : encodeNat (.ld d a imm) = packBits [(imm.toNat, 12), (6, 4), (a.toNat, 5), (d.toNat, 5), (8, 6)] := by
    change 536895488 + d.toNat * 2097152 + a.toNat * 65536 + imm.toNat = _
    simp only [packBits]
    generalize imm.toNat = x0
    generalize a.toNat = x1
    generalize d.toNat = x2
    omega
  refine roundTrip_word (hw ▸ pack_lt hf) (fun ref hl hr hm => ?_)
  generalize encodeNat (.ld d a imm) = wd at hw hm ⊢
  have f0 : fld wd 11 0 = imm.toNat := hw ▸ fld_pack hf 0 rfl rfl (by decide)
  have f1 : fld wd 15 12 = 6 := hw ▸ fld_pack hf 1 rfl rfl (by decide)
  have f2 : fld wd 20 16 = a.toNat := hw ▸ fld_pack hf 2 rfl rfl (by decide)
  have f3 : fld wd 25 21 = d.toNat := hw ▸ fld_pack hf 3 rfl rfl (by decide)
  have f4 : fld wd 31 26 = 8 := hw ▸ fld_pack hf 4 rfl rfl (by decide)
  have e1 : decodeForm ref wd = decode08 wd := by simp only [decodeForm, f4]
  rw [e1]
  simp only [decode08, f0, f1, f2, f3]
  simp [formOf, hl, hr]

/-- Table 4-10, major 0x09. -/
theorem RoundTrip.sb (b : Reg5) (a : Reg5) (imm : BitVec 12) : RoundTrip.Statement (.sb b a imm) := by
  have hf : fitBits [(imm.toNat, 12), (0, 4), (a.toNat, 5), (b.toNat, 5), (9, 6)] := ⟨imm.isLt, by decide, a.isLt, b.isLt, by decide, trivial⟩
  have hw : encodeNat (.sb b a imm) = packBits [(imm.toNat, 12), (0, 4), (a.toNat, 5), (b.toNat, 5), (9, 6)] := by
    change 603979776 + b.toNat * 2097152 + a.toNat * 65536 + imm.toNat = _
    simp only [packBits]
    generalize imm.toNat = x0
    generalize a.toNat = x1
    generalize b.toNat = x2
    omega
  refine roundTrip_word (hw ▸ pack_lt hf) (fun ref hl hr hm => ?_)
  generalize encodeNat (.sb b a imm) = wd at hw hm ⊢
  have f0 : fld wd 11 0 = imm.toNat := hw ▸ fld_pack hf 0 rfl rfl (by decide)
  have f1 : fld wd 15 12 = 0 := hw ▸ fld_pack hf 1 rfl rfl (by decide)
  have f2 : fld wd 20 16 = a.toNat := hw ▸ fld_pack hf 2 rfl rfl (by decide)
  have f3 : fld wd 25 21 = b.toNat := hw ▸ fld_pack hf 3 rfl rfl (by decide)
  have f4 : fld wd 31 26 = 9 := hw ▸ fld_pack hf 4 rfl rfl (by decide)
  have e1 : decodeForm ref wd = decode09 wd := by simp only [decodeForm, f4]
  rw [e1]
  simp only [decode09, f0, f1, f2, f3]
  simp [formOf, hl, hr]

/-- Table 4-10, major 0x09. -/
theorem RoundTrip.sh (b : Reg5) (a : Reg5) (imm : BitVec 12) : RoundTrip.Statement (.sh b a imm) := by
  have hf : fitBits [(imm.toNat, 12), (1, 4), (a.toNat, 5), (b.toNat, 5), (9, 6)] := ⟨imm.isLt, by decide, a.isLt, b.isLt, by decide, trivial⟩
  have hw : encodeNat (.sh b a imm) = packBits [(imm.toNat, 12), (1, 4), (a.toNat, 5), (b.toNat, 5), (9, 6)] := by
    change 603983872 + b.toNat * 2097152 + a.toNat * 65536 + imm.toNat = _
    simp only [packBits]
    generalize imm.toNat = x0
    generalize a.toNat = x1
    generalize b.toNat = x2
    omega
  refine roundTrip_word (hw ▸ pack_lt hf) (fun ref hl hr hm => ?_)
  generalize encodeNat (.sh b a imm) = wd at hw hm ⊢
  have f0 : fld wd 11 0 = imm.toNat := hw ▸ fld_pack hf 0 rfl rfl (by decide)
  have f1 : fld wd 15 12 = 1 := hw ▸ fld_pack hf 1 rfl rfl (by decide)
  have f2 : fld wd 20 16 = a.toNat := hw ▸ fld_pack hf 2 rfl rfl (by decide)
  have f3 : fld wd 25 21 = b.toNat := hw ▸ fld_pack hf 3 rfl rfl (by decide)
  have f4 : fld wd 31 26 = 9 := hw ▸ fld_pack hf 4 rfl rfl (by decide)
  have e1 : decodeForm ref wd = decode09 wd := by simp only [decodeForm, f4]
  rw [e1]
  simp only [decode09, f0, f1, f2, f3]
  simp [formOf, hl, hr]

/-- Table 4-10, major 0x09. -/
theorem RoundTrip.sw (b : Reg5) (a : Reg5) (imm : BitVec 12) : RoundTrip.Statement (.sw b a imm) := by
  have hf : fitBits [(imm.toNat, 12), (2, 4), (a.toNat, 5), (b.toNat, 5), (9, 6)] := ⟨imm.isLt, by decide, a.isLt, b.isLt, by decide, trivial⟩
  have hw : encodeNat (.sw b a imm) = packBits [(imm.toNat, 12), (2, 4), (a.toNat, 5), (b.toNat, 5), (9, 6)] := by
    change 603987968 + b.toNat * 2097152 + a.toNat * 65536 + imm.toNat = _
    simp only [packBits]
    generalize imm.toNat = x0
    generalize a.toNat = x1
    generalize b.toNat = x2
    omega
  refine roundTrip_word (hw ▸ pack_lt hf) (fun ref hl hr hm => ?_)
  generalize encodeNat (.sw b a imm) = wd at hw hm ⊢
  have f0 : fld wd 11 0 = imm.toNat := hw ▸ fld_pack hf 0 rfl rfl (by decide)
  have f1 : fld wd 15 12 = 2 := hw ▸ fld_pack hf 1 rfl rfl (by decide)
  have f2 : fld wd 20 16 = a.toNat := hw ▸ fld_pack hf 2 rfl rfl (by decide)
  have f3 : fld wd 25 21 = b.toNat := hw ▸ fld_pack hf 3 rfl rfl (by decide)
  have f4 : fld wd 31 26 = 9 := hw ▸ fld_pack hf 4 rfl rfl (by decide)
  have e1 : decodeForm ref wd = decode09 wd := by simp only [decodeForm, f4]
  rw [e1]
  simp only [decode09, f0, f1, f2, f3]
  simp [formOf, hl, hr]

/-- Table 4-10, major 0x09. -/
theorem RoundTrip.sd (b : Reg5) (a : Reg5) (imm : BitVec 12) : RoundTrip.Statement (.sd b a imm) := by
  have hf : fitBits [(imm.toNat, 12), (3, 4), (a.toNat, 5), (b.toNat, 5), (9, 6)] := ⟨imm.isLt, by decide, a.isLt, b.isLt, by decide, trivial⟩
  have hw : encodeNat (.sd b a imm) = packBits [(imm.toNat, 12), (3, 4), (a.toNat, 5), (b.toNat, 5), (9, 6)] := by
    change 603992064 + b.toNat * 2097152 + a.toNat * 65536 + imm.toNat = _
    simp only [packBits]
    generalize imm.toNat = x0
    generalize a.toNat = x1
    generalize b.toNat = x2
    omega
  refine roundTrip_word (hw ▸ pack_lt hf) (fun ref hl hr hm => ?_)
  generalize encodeNat (.sd b a imm) = wd at hw hm ⊢
  have f0 : fld wd 11 0 = imm.toNat := hw ▸ fld_pack hf 0 rfl rfl (by decide)
  have f1 : fld wd 15 12 = 3 := hw ▸ fld_pack hf 1 rfl rfl (by decide)
  have f2 : fld wd 20 16 = a.toNat := hw ▸ fld_pack hf 2 rfl rfl (by decide)
  have f3 : fld wd 25 21 = b.toNat := hw ▸ fld_pack hf 3 rfl rfl (by decide)
  have f4 : fld wd 31 26 = 9 := hw ▸ fld_pack hf 4 rfl rfl (by decide)
  have e1 : decodeForm ref wd = decode09 wd := by simp only [decodeForm, f4]
  rw [e1]
  simp only [decode09, f0, f1, f2, f3]
  simp [formOf, hl, hr]

/-- Table 4-10, major 0x0A. -/
theorem RoundTrip.ldo (d : Reg5) (a : Reg5) (acq : Bool) (sc : Scope) (imm : BitVec 12) : RoundTrip.Statement (.ldo d a acq sc imm) := by
  have hf : fitBits [(imm.toNat, 12), (sc.code, 3), (boolCode acq, 1), (a.toNat, 5), (d.toNat, 5), (10, 6)] := ⟨imm.isLt, Scope.code_lt sc, boolCode_lt acq, a.isLt, d.isLt, by decide, trivial⟩
  have hw : encodeNat (.ldo d a acq sc imm) = packBits [(imm.toNat, 12), (sc.code, 3), (boolCode acq, 1), (a.toNat, 5), (d.toNat, 5), (10, 6)] := by
    change 671088640 + d.toNat * 2097152 + a.toNat * 65536 + boolCode acq * 32768 + sc.code * 4096 + imm.toNat = _
    simp only [packBits]
    generalize imm.toNat = x0
    generalize sc.code = x1
    generalize boolCode acq = x2
    generalize a.toNat = x3
    generalize d.toNat = x4
    omega
  refine roundTrip_word (hw ▸ pack_lt hf) (fun ref hl hr hm => ?_)
  generalize encodeNat (.ldo d a acq sc imm) = wd at hw hm ⊢
  have f0 : fld wd 11 0 = imm.toNat := hw ▸ fld_pack hf 0 rfl rfl (by decide)
  have f1 : fld wd 14 12 = sc.code := hw ▸ fld_pack hf 1 rfl rfl (by decide)
  have f2 : fld wd 15 15 = boolCode acq := hw ▸ fld_pack hf 2 rfl rfl (by decide)
  have f3 : fld wd 20 16 = a.toNat := hw ▸ fld_pack hf 3 rfl rfl (by decide)
  have f4 : fld wd 25 21 = d.toNat := hw ▸ fld_pack hf 4 rfl rfl (by decide)
  have f5 : fld wd 31 26 = 10 := hw ▸ fld_pack hf 5 rfl rfl (by decide)
  have e1 : decodeForm ref wd = decode0A wd := by simp only [decodeForm, f5]
  rw [e1]
  simp only [decode0A, f0, f1, f2, f3, f4]
  simp [formOf, hl, hr]

/-- Table 4-10, major 0x0B. -/
theorem RoundTrip.sto (b : Reg5) (a : Reg5) (rel : Bool) (sc : Scope) (imm : BitVec 12) : RoundTrip.Statement (.sto b a rel sc imm) := by
  have hf : fitBits [(imm.toNat, 12), (sc.code, 3), (boolCode rel, 1), (a.toNat, 5), (b.toNat, 5), (11, 6)] := ⟨imm.isLt, Scope.code_lt sc, boolCode_lt rel, a.isLt, b.isLt, by decide, trivial⟩
  have hw : encodeNat (.sto b a rel sc imm) = packBits [(imm.toNat, 12), (sc.code, 3), (boolCode rel, 1), (a.toNat, 5), (b.toNat, 5), (11, 6)] := by
    change 738197504 + b.toNat * 2097152 + a.toNat * 65536 + boolCode rel * 32768 + sc.code * 4096 + imm.toNat = _
    simp only [packBits]
    generalize imm.toNat = x0
    generalize sc.code = x1
    generalize boolCode rel = x2
    generalize a.toNat = x3
    generalize b.toNat = x4
    omega
  refine roundTrip_word (hw ▸ pack_lt hf) (fun ref hl hr hm => ?_)
  generalize encodeNat (.sto b a rel sc imm) = wd at hw hm ⊢
  have f0 : fld wd 11 0 = imm.toNat := hw ▸ fld_pack hf 0 rfl rfl (by decide)
  have f1 : fld wd 14 12 = sc.code := hw ▸ fld_pack hf 1 rfl rfl (by decide)
  have f2 : fld wd 15 15 = boolCode rel := hw ▸ fld_pack hf 2 rfl rfl (by decide)
  have f3 : fld wd 20 16 = a.toNat := hw ▸ fld_pack hf 3 rfl rfl (by decide)
  have f4 : fld wd 25 21 = b.toNat := hw ▸ fld_pack hf 4 rfl rfl (by decide)
  have f5 : fld wd 31 26 = 11 := hw ▸ fld_pack hf 5 rfl rfl (by decide)
  have e1 : decodeForm ref wd = decode0B wd := by simp only [decodeForm, f5]
  rw [e1]
  simp only [decode0B, f0, f1, f2, f3, f4]
  simp [formOf, hl, hr]

/-- Table 4-10, major 0x0C. -/
theorem RoundTrip.beq (a : Reg5) (b : Reg5) (off : BitVec 13) : RoundTrip.Statement (.beq a b off) := by
  have hf : fitBits [(off.toNat, 13), (b.toNat, 5), (a.toNat, 5), (0, 3), (12, 6)] := ⟨off.isLt, b.isLt, a.isLt, by decide, by decide, trivial⟩
  have hw : encodeNat (.beq a b off) = packBits [(off.toNat, 13), (b.toNat, 5), (a.toNat, 5), (0, 3), (12, 6)] := by
    change 805306368 + a.toNat * 262144 + b.toNat * 8192 + off.toNat = _
    simp only [packBits]
    generalize off.toNat = x0
    generalize b.toNat = x1
    generalize a.toNat = x2
    omega
  refine roundTrip_word (hw ▸ pack_lt hf) (fun ref hl hr hm => ?_)
  generalize encodeNat (.beq a b off) = wd at hw hm ⊢
  have f0 : fld wd 12 0 = off.toNat := hw ▸ fld_pack hf 0 rfl rfl (by decide)
  have f1 : fld wd 17 13 = b.toNat := hw ▸ fld_pack hf 1 rfl rfl (by decide)
  have f2 : fld wd 22 18 = a.toNat := hw ▸ fld_pack hf 2 rfl rfl (by decide)
  have f3 : fld wd 25 23 = 0 := hw ▸ fld_pack hf 3 rfl rfl (by decide)
  have f4 : fld wd 31 26 = 12 := hw ▸ fld_pack hf 4 rfl rfl (by decide)
  have e1 : decodeForm ref wd = decode0C wd := by simp only [decodeForm, f4]
  rw [e1]
  simp only [decode0C, f0, f1, f2, f3]
  simp [formOf, hl, hr]

/-- Table 4-10, major 0x0C. -/
theorem RoundTrip.bne (a : Reg5) (b : Reg5) (off : BitVec 13) : RoundTrip.Statement (.bne a b off) := by
  have hf : fitBits [(off.toNat, 13), (b.toNat, 5), (a.toNat, 5), (1, 3), (12, 6)] := ⟨off.isLt, b.isLt, a.isLt, by decide, by decide, trivial⟩
  have hw : encodeNat (.bne a b off) = packBits [(off.toNat, 13), (b.toNat, 5), (a.toNat, 5), (1, 3), (12, 6)] := by
    change 813694976 + a.toNat * 262144 + b.toNat * 8192 + off.toNat = _
    simp only [packBits]
    generalize off.toNat = x0
    generalize b.toNat = x1
    generalize a.toNat = x2
    omega
  refine roundTrip_word (hw ▸ pack_lt hf) (fun ref hl hr hm => ?_)
  generalize encodeNat (.bne a b off) = wd at hw hm ⊢
  have f0 : fld wd 12 0 = off.toNat := hw ▸ fld_pack hf 0 rfl rfl (by decide)
  have f1 : fld wd 17 13 = b.toNat := hw ▸ fld_pack hf 1 rfl rfl (by decide)
  have f2 : fld wd 22 18 = a.toNat := hw ▸ fld_pack hf 2 rfl rfl (by decide)
  have f3 : fld wd 25 23 = 1 := hw ▸ fld_pack hf 3 rfl rfl (by decide)
  have f4 : fld wd 31 26 = 12 := hw ▸ fld_pack hf 4 rfl rfl (by decide)
  have e1 : decodeForm ref wd = decode0C wd := by simp only [decodeForm, f4]
  rw [e1]
  simp only [decode0C, f0, f1, f2, f3]
  simp [formOf, hl, hr]

/-- Table 4-10, major 0x0C. -/
theorem RoundTrip.blt (a : Reg5) (b : Reg5) (off : BitVec 13) : RoundTrip.Statement (.blt a b off) := by
  have hf : fitBits [(off.toNat, 13), (b.toNat, 5), (a.toNat, 5), (2, 3), (12, 6)] := ⟨off.isLt, b.isLt, a.isLt, by decide, by decide, trivial⟩
  have hw : encodeNat (.blt a b off) = packBits [(off.toNat, 13), (b.toNat, 5), (a.toNat, 5), (2, 3), (12, 6)] := by
    change 822083584 + a.toNat * 262144 + b.toNat * 8192 + off.toNat = _
    simp only [packBits]
    generalize off.toNat = x0
    generalize b.toNat = x1
    generalize a.toNat = x2
    omega
  refine roundTrip_word (hw ▸ pack_lt hf) (fun ref hl hr hm => ?_)
  generalize encodeNat (.blt a b off) = wd at hw hm ⊢
  have f0 : fld wd 12 0 = off.toNat := hw ▸ fld_pack hf 0 rfl rfl (by decide)
  have f1 : fld wd 17 13 = b.toNat := hw ▸ fld_pack hf 1 rfl rfl (by decide)
  have f2 : fld wd 22 18 = a.toNat := hw ▸ fld_pack hf 2 rfl rfl (by decide)
  have f3 : fld wd 25 23 = 2 := hw ▸ fld_pack hf 3 rfl rfl (by decide)
  have f4 : fld wd 31 26 = 12 := hw ▸ fld_pack hf 4 rfl rfl (by decide)
  have e1 : decodeForm ref wd = decode0C wd := by simp only [decodeForm, f4]
  rw [e1]
  simp only [decode0C, f0, f1, f2, f3]
  simp [formOf, hl, hr]

/-- Table 4-10, major 0x0C. -/
theorem RoundTrip.bge (a : Reg5) (b : Reg5) (off : BitVec 13) : RoundTrip.Statement (.bge a b off) := by
  have hf : fitBits [(off.toNat, 13), (b.toNat, 5), (a.toNat, 5), (3, 3), (12, 6)] := ⟨off.isLt, b.isLt, a.isLt, by decide, by decide, trivial⟩
  have hw : encodeNat (.bge a b off) = packBits [(off.toNat, 13), (b.toNat, 5), (a.toNat, 5), (3, 3), (12, 6)] := by
    change 830472192 + a.toNat * 262144 + b.toNat * 8192 + off.toNat = _
    simp only [packBits]
    generalize off.toNat = x0
    generalize b.toNat = x1
    generalize a.toNat = x2
    omega
  refine roundTrip_word (hw ▸ pack_lt hf) (fun ref hl hr hm => ?_)
  generalize encodeNat (.bge a b off) = wd at hw hm ⊢
  have f0 : fld wd 12 0 = off.toNat := hw ▸ fld_pack hf 0 rfl rfl (by decide)
  have f1 : fld wd 17 13 = b.toNat := hw ▸ fld_pack hf 1 rfl rfl (by decide)
  have f2 : fld wd 22 18 = a.toNat := hw ▸ fld_pack hf 2 rfl rfl (by decide)
  have f3 : fld wd 25 23 = 3 := hw ▸ fld_pack hf 3 rfl rfl (by decide)
  have f4 : fld wd 31 26 = 12 := hw ▸ fld_pack hf 4 rfl rfl (by decide)
  have e1 : decodeForm ref wd = decode0C wd := by simp only [decodeForm, f4]
  rw [e1]
  simp only [decode0C, f0, f1, f2, f3]
  simp [formOf, hl, hr]

/-- Table 4-10, major 0x0C. -/
theorem RoundTrip.bltu (a : Reg5) (b : Reg5) (off : BitVec 13) : RoundTrip.Statement (.bltu a b off) := by
  have hf : fitBits [(off.toNat, 13), (b.toNat, 5), (a.toNat, 5), (4, 3), (12, 6)] := ⟨off.isLt, b.isLt, a.isLt, by decide, by decide, trivial⟩
  have hw : encodeNat (.bltu a b off) = packBits [(off.toNat, 13), (b.toNat, 5), (a.toNat, 5), (4, 3), (12, 6)] := by
    change 838860800 + a.toNat * 262144 + b.toNat * 8192 + off.toNat = _
    simp only [packBits]
    generalize off.toNat = x0
    generalize b.toNat = x1
    generalize a.toNat = x2
    omega
  refine roundTrip_word (hw ▸ pack_lt hf) (fun ref hl hr hm => ?_)
  generalize encodeNat (.bltu a b off) = wd at hw hm ⊢
  have f0 : fld wd 12 0 = off.toNat := hw ▸ fld_pack hf 0 rfl rfl (by decide)
  have f1 : fld wd 17 13 = b.toNat := hw ▸ fld_pack hf 1 rfl rfl (by decide)
  have f2 : fld wd 22 18 = a.toNat := hw ▸ fld_pack hf 2 rfl rfl (by decide)
  have f3 : fld wd 25 23 = 4 := hw ▸ fld_pack hf 3 rfl rfl (by decide)
  have f4 : fld wd 31 26 = 12 := hw ▸ fld_pack hf 4 rfl rfl (by decide)
  have e1 : decodeForm ref wd = decode0C wd := by simp only [decodeForm, f4]
  rw [e1]
  simp only [decode0C, f0, f1, f2, f3]
  simp [formOf, hl, hr]

/-- Table 4-10, major 0x0C. -/
theorem RoundTrip.bgeu (a : Reg5) (b : Reg5) (off : BitVec 13) : RoundTrip.Statement (.bgeu a b off) := by
  have hf : fitBits [(off.toNat, 13), (b.toNat, 5), (a.toNat, 5), (5, 3), (12, 6)] := ⟨off.isLt, b.isLt, a.isLt, by decide, by decide, trivial⟩
  have hw : encodeNat (.bgeu a b off) = packBits [(off.toNat, 13), (b.toNat, 5), (a.toNat, 5), (5, 3), (12, 6)] := by
    change 847249408 + a.toNat * 262144 + b.toNat * 8192 + off.toNat = _
    simp only [packBits]
    generalize off.toNat = x0
    generalize b.toNat = x1
    generalize a.toNat = x2
    omega
  refine roundTrip_word (hw ▸ pack_lt hf) (fun ref hl hr hm => ?_)
  generalize encodeNat (.bgeu a b off) = wd at hw hm ⊢
  have f0 : fld wd 12 0 = off.toNat := hw ▸ fld_pack hf 0 rfl rfl (by decide)
  have f1 : fld wd 17 13 = b.toNat := hw ▸ fld_pack hf 1 rfl rfl (by decide)
  have f2 : fld wd 22 18 = a.toNat := hw ▸ fld_pack hf 2 rfl rfl (by decide)
  have f3 : fld wd 25 23 = 5 := hw ▸ fld_pack hf 3 rfl rfl (by decide)
  have f4 : fld wd 31 26 = 12 := hw ▸ fld_pack hf 4 rfl rfl (by decide)
  have e1 : decodeForm ref wd = decode0C wd := by simp only [decodeForm, f4]
  rw [e1]
  simp only [decode0C, f0, f1, f2, f3]
  simp [formOf, hl, hr]

/-- Table 4-10, major 0x0D. -/
theorem RoundTrip.jal (d : Reg5) (off : BitVec 21) : RoundTrip.Statement (.jal d off) := by
  have hf : fitBits [(off.toNat, 21), (d.toNat, 5), (13, 6)] := ⟨off.isLt, d.isLt, by decide, trivial⟩
  have hw : encodeNat (.jal d off) = packBits [(off.toNat, 21), (d.toNat, 5), (13, 6)] := by
    change 872415232 + d.toNat * 2097152 + off.toNat = _
    simp only [packBits]
    generalize off.toNat = x0
    generalize d.toNat = x1
    omega
  refine roundTrip_word (hw ▸ pack_lt hf) (fun ref hl hr hm => ?_)
  generalize encodeNat (.jal d off) = wd at hw hm ⊢
  have f0 : fld wd 20 0 = off.toNat := hw ▸ fld_pack hf 0 rfl rfl (by decide)
  have f1 : fld wd 25 21 = d.toNat := hw ▸ fld_pack hf 1 rfl rfl (by decide)
  have f2 : fld wd 31 26 = 13 := hw ▸ fld_pack hf 2 rfl rfl (by decide)
  have e1 : decodeForm ref wd = decode0D wd := by simp only [decodeForm, f2]
  rw [e1]
  simp only [decode0D, f0, f1]
  simp [formOf, hl, hr]

/-- Table 4-10, major 0x0E. -/
theorem RoundTrip.jalr (d : Reg5) (a : Reg5) (imm : BitVec 12) : RoundTrip.Statement (.jalr d a imm) := by
  have hf : fitBits [(imm.toNat, 12), (0, 4), (a.toNat, 5), (d.toNat, 5), (14, 6)] := ⟨imm.isLt, by decide, a.isLt, d.isLt, by decide, trivial⟩
  have hw : encodeNat (.jalr d a imm) = packBits [(imm.toNat, 12), (0, 4), (a.toNat, 5), (d.toNat, 5), (14, 6)] := by
    change 939524096 + d.toNat * 2097152 + a.toNat * 65536 + imm.toNat = _
    simp only [packBits]
    generalize imm.toNat = x0
    generalize a.toNat = x1
    generalize d.toNat = x2
    omega
  refine roundTrip_word (hw ▸ pack_lt hf) (fun ref hl hr hm => ?_)
  generalize encodeNat (.jalr d a imm) = wd at hw hm ⊢
  have f0 : fld wd 11 0 = imm.toNat := hw ▸ fld_pack hf 0 rfl rfl (by decide)
  have f1 : fld wd 15 12 = 0 := hw ▸ fld_pack hf 1 rfl rfl (by decide)
  have f2 : fld wd 20 16 = a.toNat := hw ▸ fld_pack hf 2 rfl rfl (by decide)
  have f3 : fld wd 25 21 = d.toNat := hw ▸ fld_pack hf 3 rfl rfl (by decide)
  have f4 : fld wd 31 26 = 14 := hw ▸ fld_pack hf 4 rfl rfl (by decide)
  have e1 : decodeForm ref wd = decode0E wd := by simp only [decodeForm, f4]
  rw [e1]
  simp only [decode0E, f0, f1, f2, f3]
  simp [formOf, hl, hr]

/-- Table 4-10, major 0x0F. -/
theorem RoundTrip.csrr (d : Reg5) (csr : BitVec 12) : RoundTrip.Statement (.csrr d csr) := by
  have hf : fitBits [(csr.toNat, 12), (0, 4), (0, 5), (d.toNat, 5), (15, 6)] := ⟨csr.isLt, by decide, by decide, d.isLt, by decide, trivial⟩
  have hw : encodeNat (.csrr d csr) = packBits [(csr.toNat, 12), (0, 4), (0, 5), (d.toNat, 5), (15, 6)] := by
    change 1006632960 + d.toNat * 2097152 + csr.toNat = _
    simp only [packBits]
    generalize csr.toNat = x0
    generalize d.toNat = x1
    omega
  refine roundTrip_word (hw ▸ pack_lt hf) (fun ref hl hr hm => ?_)
  generalize encodeNat (.csrr d csr) = wd at hw hm ⊢
  have f0 : fld wd 11 0 = csr.toNat := hw ▸ fld_pack hf 0 rfl rfl (by decide)
  have f1 : fld wd 15 12 = 0 := hw ▸ fld_pack hf 1 rfl rfl (by decide)
  have f2 : fld wd 20 16 = 0 := hw ▸ fld_pack hf 2 rfl rfl (by decide)
  have f3 : fld wd 25 21 = d.toNat := hw ▸ fld_pack hf 3 rfl rfl (by decide)
  have f4 : fld wd 31 26 = 15 := hw ▸ fld_pack hf 4 rfl rfl (by decide)
  have e1 : decodeForm ref wd = decode0F wd := by simp only [decodeForm, f4]
  rw [e1]
  simp only [decode0F, f0, f1, f2, f3]
  simp [formOf, hl, hr]

/-- Table 4-10, major 0x0F. -/
theorem RoundTrip.csrw (a : Reg5) (csr : BitVec 12) : RoundTrip.Statement (.csrw a csr) := by
  have hf : fitBits [(csr.toNat, 12), (1, 4), (a.toNat, 5), (0, 5), (15, 6)] := ⟨csr.isLt, by decide, a.isLt, by decide, by decide, trivial⟩
  have hw : encodeNat (.csrw a csr) = packBits [(csr.toNat, 12), (1, 4), (a.toNat, 5), (0, 5), (15, 6)] := by
    change 1006637056 + a.toNat * 65536 + csr.toNat = _
    simp only [packBits]
    generalize csr.toNat = x0
    generalize a.toNat = x1
    omega
  refine roundTrip_word (hw ▸ pack_lt hf) (fun ref hl hr hm => ?_)
  generalize encodeNat (.csrw a csr) = wd at hw hm ⊢
  have f0 : fld wd 11 0 = csr.toNat := hw ▸ fld_pack hf 0 rfl rfl (by decide)
  have f1 : fld wd 15 12 = 1 := hw ▸ fld_pack hf 1 rfl rfl (by decide)
  have f2 : fld wd 20 16 = a.toNat := hw ▸ fld_pack hf 2 rfl rfl (by decide)
  have f3 : fld wd 25 21 = 0 := hw ▸ fld_pack hf 3 rfl rfl (by decide)
  have f4 : fld wd 31 26 = 15 := hw ▸ fld_pack hf 4 rfl rfl (by decide)
  have e1 : decodeForm ref wd = decode0F wd := by simp only [decodeForm, f4]
  rw [e1]
  simp only [decode0F, f0, f1, f2, f3]
  simp [formOf, hl, hr]

/-- Table 4-10, major 0x0F. -/
theorem RoundTrip.csrs (a : Reg5) (csr : BitVec 12) : RoundTrip.Statement (.csrs a csr) := by
  have hf : fitBits [(csr.toNat, 12), (2, 4), (a.toNat, 5), (0, 5), (15, 6)] := ⟨csr.isLt, by decide, a.isLt, by decide, by decide, trivial⟩
  have hw : encodeNat (.csrs a csr) = packBits [(csr.toNat, 12), (2, 4), (a.toNat, 5), (0, 5), (15, 6)] := by
    change 1006641152 + a.toNat * 65536 + csr.toNat = _
    simp only [packBits]
    generalize csr.toNat = x0
    generalize a.toNat = x1
    omega
  refine roundTrip_word (hw ▸ pack_lt hf) (fun ref hl hr hm => ?_)
  generalize encodeNat (.csrs a csr) = wd at hw hm ⊢
  have f0 : fld wd 11 0 = csr.toNat := hw ▸ fld_pack hf 0 rfl rfl (by decide)
  have f1 : fld wd 15 12 = 2 := hw ▸ fld_pack hf 1 rfl rfl (by decide)
  have f2 : fld wd 20 16 = a.toNat := hw ▸ fld_pack hf 2 rfl rfl (by decide)
  have f3 : fld wd 25 21 = 0 := hw ▸ fld_pack hf 3 rfl rfl (by decide)
  have f4 : fld wd 31 26 = 15 := hw ▸ fld_pack hf 4 rfl rfl (by decide)
  have e1 : decodeForm ref wd = decode0F wd := by simp only [decodeForm, f4]
  rw [e1]
  simp only [decode0F, f0, f1, f2, f3]
  simp [formOf, hl, hr]

/-- Table 4-10, major 0x0F. -/
theorem RoundTrip.csrc (a : Reg5) (csr : BitVec 12) : RoundTrip.Statement (.csrc a csr) := by
  have hf : fitBits [(csr.toNat, 12), (3, 4), (a.toNat, 5), (0, 5), (15, 6)] := ⟨csr.isLt, by decide, a.isLt, by decide, by decide, trivial⟩
  have hw : encodeNat (.csrc a csr) = packBits [(csr.toNat, 12), (3, 4), (a.toNat, 5), (0, 5), (15, 6)] := by
    change 1006645248 + a.toNat * 65536 + csr.toNat = _
    simp only [packBits]
    generalize csr.toNat = x0
    generalize a.toNat = x1
    omega
  refine roundTrip_word (hw ▸ pack_lt hf) (fun ref hl hr hm => ?_)
  generalize encodeNat (.csrc a csr) = wd at hw hm ⊢
  have f0 : fld wd 11 0 = csr.toNat := hw ▸ fld_pack hf 0 rfl rfl (by decide)
  have f1 : fld wd 15 12 = 3 := hw ▸ fld_pack hf 1 rfl rfl (by decide)
  have f2 : fld wd 20 16 = a.toNat := hw ▸ fld_pack hf 2 rfl rfl (by decide)
  have f3 : fld wd 25 21 = 0 := hw ▸ fld_pack hf 3 rfl rfl (by decide)
  have f4 : fld wd 31 26 = 15 := hw ▸ fld_pack hf 4 rfl rfl (by decide)
  have e1 : decodeForm ref wd = decode0F wd := by simp only [decodeForm, f4]
  rw [e1]
  simp only [decode0F, f0, f1, f2, f3]
  simp [formOf, hl, hr]

/-- Table 4-10, major 0x0F. -/
theorem RoundTrip.trap (a : Reg5) (code : BitVec 4) : RoundTrip.Statement (.trap a code) := by
  have hf : fitBits [(code.toNat, 4), (0, 7), (0, 1), (4, 4), (a.toNat, 5), (0, 5), (15, 6)] := ⟨code.isLt, by decide, by decide, by decide, a.isLt, by decide, by decide, trivial⟩
  have hw : encodeNat (.trap a code) = packBits [(code.toNat, 4), (0, 7), (0, 1), (4, 4), (a.toNat, 5), (0, 5), (15, 6)] := by
    change 1006649344 + a.toNat * 65536 + code.toNat = _
    simp only [packBits]
    generalize code.toNat = x0
    generalize a.toNat = x1
    omega
  refine roundTrip_word (hw ▸ pack_lt hf) (fun ref hl hr hm => ?_)
  generalize encodeNat (.trap a code) = wd at hw hm ⊢
  have f0 : fld wd 3 0 = code.toNat := hw ▸ fld_pack hf 0 rfl rfl (by decide)
  have f1 : fld wd 10 4 = 0 := hw ▸ fld_pack hf 1 rfl rfl (by decide)
  have f2 : fld wd 11 11 = 0 := hw ▸ fld_pack hf 2 rfl rfl (by decide)
  have f3 : fld wd 15 12 = 4 := hw ▸ fld_pack hf 3 rfl rfl (by decide)
  have f4 : fld wd 20 16 = a.toNat := hw ▸ fld_pack hf 4 rfl rfl (by decide)
  have f5 : fld wd 25 21 = 0 := hw ▸ fld_pack hf 5 rfl rfl (by decide)
  have f6 : fld wd 31 26 = 15 := hw ▸ fld_pack hf 6 rfl rfl (by decide)
  have e1 : decodeForm ref wd = decode0F wd := by simp only [decodeForm, f6]
  rw [e1]
  simp only [decode0F, f0, f1, f2, f3, f4, f5]
  simp [formOf, hl, hr]

/-- Table 4-10, major 0x0F. -/
theorem RoundTrip.eret : RoundTrip.Statement (.eret) := by
  have hf : fitBits [(0, 11), (0, 1), (5, 4), (0, 5), (0, 5), (15, 6)] := ⟨by decide, by decide, by decide, by decide, by decide, by decide, trivial⟩
  have hw : encodeNat (.eret) = packBits [(0, 11), (0, 1), (5, 4), (0, 5), (0, 5), (15, 6)] := rfl
  refine roundTrip_word (hw ▸ pack_lt hf) (fun ref hl hr hm => ?_)
  generalize encodeNat (.eret) = wd at hw hm ⊢
  have f0 : fld wd 10 0 = 0 := hw ▸ fld_pack hf 0 rfl rfl (by decide)
  have f1 : fld wd 11 11 = 0 := hw ▸ fld_pack hf 1 rfl rfl (by decide)
  have f2 : fld wd 15 12 = 5 := hw ▸ fld_pack hf 2 rfl rfl (by decide)
  have f3 : fld wd 20 16 = 0 := hw ▸ fld_pack hf 3 rfl rfl (by decide)
  have f4 : fld wd 25 21 = 0 := hw ▸ fld_pack hf 4 rfl rfl (by decide)
  have f5 : fld wd 31 26 = 15 := hw ▸ fld_pack hf 5 rfl rfl (by decide)
  have e1 : decodeForm ref wd = decode0F wd := by simp only [decodeForm, f5]
  rw [e1]
  simp only [decode0F, f0, f1, f2, f3, f4]
  simp [formOf, hl, hr]

/-- Table 4-10, major 0x0F. -/
theorem RoundTrip.ucall (n : BitVec 12) : RoundTrip.Statement (.ucall n) := by
  have hf : fitBits [(n.toNat, 12), (6, 4), (0, 5), (0, 5), (15, 6)] := ⟨n.isLt, by decide, by decide, by decide, by decide, trivial⟩
  have hw : encodeNat (.ucall n) = packBits [(n.toNat, 12), (6, 4), (0, 5), (0, 5), (15, 6)] := by
    change 1006657536 + n.toNat = _
    simp only [packBits]
    generalize n.toNat = x0
    omega
  refine roundTrip_word (hw ▸ pack_lt hf) (fun ref hl hr hm => ?_)
  generalize encodeNat (.ucall n) = wd at hw hm ⊢
  have f0 : fld wd 11 0 = n.toNat := hw ▸ fld_pack hf 0 rfl rfl (by decide)
  have f1 : fld wd 15 12 = 6 := hw ▸ fld_pack hf 1 rfl rfl (by decide)
  have f2 : fld wd 20 16 = 0 := hw ▸ fld_pack hf 2 rfl rfl (by decide)
  have f3 : fld wd 25 21 = 0 := hw ▸ fld_pack hf 3 rfl rfl (by decide)
  have f4 : fld wd 31 26 = 15 := hw ▸ fld_pack hf 4 rfl rfl (by decide)
  have e1 : decodeForm ref wd = decode0F wd := by simp only [decodeForm, f4]
  rw [e1]
  simp only [decode0F, f0, f1, f2, f3]
  simp [formOf, hl, hr]

/-- Table 4-10, major 0x0F. -/
theorem RoundTrip.brk (n : BitVec 12) : RoundTrip.Statement (.brk n) := by
  have hf : fitBits [(n.toNat, 12), (7, 4), (0, 5), (0, 5), (15, 6)] := ⟨n.isLt, by decide, by decide, by decide, by decide, trivial⟩
  have hw : encodeNat (.brk n) = packBits [(n.toNat, 12), (7, 4), (0, 5), (0, 5), (15, 6)] := by
    change 1006661632 + n.toNat = _
    simp only [packBits]
    generalize n.toNat = x0
    omega
  refine roundTrip_word (hw ▸ pack_lt hf) (fun ref hl hr hm => ?_)
  generalize encodeNat (.brk n) = wd at hw hm ⊢
  have f0 : fld wd 11 0 = n.toNat := hw ▸ fld_pack hf 0 rfl rfl (by decide)
  have f1 : fld wd 15 12 = 7 := hw ▸ fld_pack hf 1 rfl rfl (by decide)
  have f2 : fld wd 20 16 = 0 := hw ▸ fld_pack hf 2 rfl rfl (by decide)
  have f3 : fld wd 25 21 = 0 := hw ▸ fld_pack hf 3 rfl rfl (by decide)
  have f4 : fld wd 31 26 = 15 := hw ▸ fld_pack hf 4 rfl rfl (by decide)
  have e1 : decodeForm ref wd = decode0F wd := by simp only [decodeForm, f4]
  rw [e1]
  simp only [decode0F, f0, f1, f2, f3]
  simp [formOf, hl, hr]

/-- Table 4-10, major 0x0F. -/
theorem RoundTrip.fence (kind : FenceKind) (sc : Scope) : RoundTrip.Statement (.fence kind sc) := by
  have hf : fitBits [(sc.code, 3), (kind.code, 2), (0, 6), (0, 1), (8, 4), (0, 5), (0, 5), (15, 6)] := ⟨Scope.code_lt sc, FenceKind.code_lt kind, by decide, by decide, by decide, by decide, by decide, by decide, trivial⟩
  have hw : encodeNat (.fence kind sc) = packBits [(sc.code, 3), (kind.code, 2), (0, 6), (0, 1), (8, 4), (0, 5), (0, 5), (15, 6)] := by
    change 1006665728 + kind.code * 8 + sc.code = _
    simp only [packBits]
    generalize sc.code = x0
    generalize kind.code = x1
    omega
  refine roundTrip_word (hw ▸ pack_lt hf) (fun ref hl hr hm => ?_)
  generalize encodeNat (.fence kind sc) = wd at hw hm ⊢
  have f0 : fld wd 2 0 = sc.code := hw ▸ fld_pack hf 0 rfl rfl (by decide)
  have f1 : fld wd 4 3 = kind.code := hw ▸ fld_pack hf 1 rfl rfl (by decide)
  have f2 : fld wd 10 5 = 0 := hw ▸ fld_pack hf 2 rfl rfl (by decide)
  have f3 : fld wd 11 11 = 0 := hw ▸ fld_pack hf 3 rfl rfl (by decide)
  have f4 : fld wd 15 12 = 8 := hw ▸ fld_pack hf 4 rfl rfl (by decide)
  have f5 : fld wd 20 16 = 0 := hw ▸ fld_pack hf 5 rfl rfl (by decide)
  have f6 : fld wd 25 21 = 0 := hw ▸ fld_pack hf 6 rfl rfl (by decide)
  have f7 : fld wd 31 26 = 15 := hw ▸ fld_pack hf 7 rfl rfl (by decide)
  have e1 : decodeForm ref wd = decode0F wd := by simp only [decodeForm, f7]
  rw [e1]
  simp only [decode0F, f0, f1, f2, f3, f4, f5, f6]
  simp [formOf, hl, hr]

/-- Table 4-10, major 0x0F. -/
theorem RoundTrip.iflush : RoundTrip.Statement (.iflush) := by
  have hf : fitBits [(0, 11), (0, 1), (9, 4), (0, 5), (0, 5), (15, 6)] := ⟨by decide, by decide, by decide, by decide, by decide, by decide, trivial⟩
  have hw : encodeNat (.iflush) = packBits [(0, 11), (0, 1), (9, 4), (0, 5), (0, 5), (15, 6)] := rfl
  refine roundTrip_word (hw ▸ pack_lt hf) (fun ref hl hr hm => ?_)
  generalize encodeNat (.iflush) = wd at hw hm ⊢
  have f0 : fld wd 10 0 = 0 := hw ▸ fld_pack hf 0 rfl rfl (by decide)
  have f1 : fld wd 11 11 = 0 := hw ▸ fld_pack hf 1 rfl rfl (by decide)
  have f2 : fld wd 15 12 = 9 := hw ▸ fld_pack hf 2 rfl rfl (by decide)
  have f3 : fld wd 20 16 = 0 := hw ▸ fld_pack hf 3 rfl rfl (by decide)
  have f4 : fld wd 25 21 = 0 := hw ▸ fld_pack hf 4 rfl rfl (by decide)
  have f5 : fld wd 31 26 = 15 := hw ▸ fld_pack hf 5 rfl rfl (by decide)
  have e1 : decodeForm ref wd = decode0F wd := by simp only [decodeForm, f5]
  rw [e1]
  simp only [decode0F, f0, f1, f2, f3, f4]
  simp [formOf, hl, hr]

/-- Table 4-10, major 0x0F. -/
theorem RoundTrip.winset (a : Reg5) (w : BitVec 3) : RoundTrip.Statement (.winset a w) := by
  have hf : fitBits [(w.toNat, 3), (0, 8), (0, 1), (10, 4), (a.toNat, 5), (0, 5), (15, 6)] := ⟨w.isLt, by decide, by decide, by decide, a.isLt, by decide, by decide, trivial⟩
  have hw : encodeNat (.winset a w) = packBits [(w.toNat, 3), (0, 8), (0, 1), (10, 4), (a.toNat, 5), (0, 5), (15, 6)] := by
    change 1006673920 + a.toNat * 65536 + w.toNat = _
    simp only [packBits]
    generalize w.toNat = x0
    generalize a.toNat = x1
    omega
  refine roundTrip_word (hw ▸ pack_lt hf) (fun ref hl hr hm => ?_)
  generalize encodeNat (.winset a w) = wd at hw hm ⊢
  have f0 : fld wd 2 0 = w.toNat := hw ▸ fld_pack hf 0 rfl rfl (by decide)
  have f1 : fld wd 10 3 = 0 := hw ▸ fld_pack hf 1 rfl rfl (by decide)
  have f2 : fld wd 11 11 = 0 := hw ▸ fld_pack hf 2 rfl rfl (by decide)
  have f3 : fld wd 15 12 = 10 := hw ▸ fld_pack hf 3 rfl rfl (by decide)
  have f4 : fld wd 20 16 = a.toNat := hw ▸ fld_pack hf 4 rfl rfl (by decide)
  have f5 : fld wd 25 21 = 0 := hw ▸ fld_pack hf 5 rfl rfl (by decide)
  have f6 : fld wd 31 26 = 15 := hw ▸ fld_pack hf 6 rfl rfl (by decide)
  have e1 : decodeForm ref wd = decode0F wd := by simp only [decodeForm, f6]
  rw [e1]
  simp only [decode0F, f0, f1, f2, f3, f4, f5]
  simp [formOf, hl, hr]

/-- Table 4-10, major 0x10. -/
theorem RoundTrip.ldfe (d : Reg5) (a : Reg5) (imm : BitVec 12) : RoundTrip.Statement (.ldfe d a imm) := by
  have hf : fitBits [(imm.toNat, 12), (0, 4), (a.toNat, 5), (d.toNat, 5), (16, 6)] := ⟨imm.isLt, by decide, a.isLt, d.isLt, by decide, trivial⟩
  have hw : encodeNat (.ldfe d a imm) = packBits [(imm.toNat, 12), (0, 4), (a.toNat, 5), (d.toNat, 5), (16, 6)] := by
    change 1073741824 + d.toNat * 2097152 + a.toNat * 65536 + imm.toNat = _
    simp only [packBits]
    generalize imm.toNat = x0
    generalize a.toNat = x1
    generalize d.toNat = x2
    omega
  refine roundTrip_word (hw ▸ pack_lt hf) (fun ref hl hr hm => ?_)
  generalize encodeNat (.ldfe d a imm) = wd at hw hm ⊢
  have f0 : fld wd 11 0 = imm.toNat := hw ▸ fld_pack hf 0 rfl rfl (by decide)
  have f1 : fld wd 15 12 = 0 := hw ▸ fld_pack hf 1 rfl rfl (by decide)
  have f2 : fld wd 20 16 = a.toNat := hw ▸ fld_pack hf 2 rfl rfl (by decide)
  have f3 : fld wd 25 21 = d.toNat := hw ▸ fld_pack hf 3 rfl rfl (by decide)
  have f4 : fld wd 31 26 = 16 := hw ▸ fld_pack hf 4 rfl rfl (by decide)
  have e1 : decodeForm ref wd = decode10 wd := by simp only [decodeForm, f4]
  rw [e1]
  simp only [decode10, f0, f1, f2, f3]
  simp [formOf, hl, hr]

/-- Table 4-10, major 0x10. -/
theorem RoundTrip.ldfeClr (d : Reg5) (a : Reg5) (imm : BitVec 12) : RoundTrip.Statement (.ldfeClr d a imm) := by
  have hf : fitBits [(imm.toNat, 12), (1, 4), (a.toNat, 5), (d.toNat, 5), (16, 6)] := ⟨imm.isLt, by decide, a.isLt, d.isLt, by decide, trivial⟩
  have hw : encodeNat (.ldfeClr d a imm) = packBits [(imm.toNat, 12), (1, 4), (a.toNat, 5), (d.toNat, 5), (16, 6)] := by
    change 1073745920 + d.toNat * 2097152 + a.toNat * 65536 + imm.toNat = _
    simp only [packBits]
    generalize imm.toNat = x0
    generalize a.toNat = x1
    generalize d.toNat = x2
    omega
  refine roundTrip_word (hw ▸ pack_lt hf) (fun ref hl hr hm => ?_)
  generalize encodeNat (.ldfeClr d a imm) = wd at hw hm ⊢
  have f0 : fld wd 11 0 = imm.toNat := hw ▸ fld_pack hf 0 rfl rfl (by decide)
  have f1 : fld wd 15 12 = 1 := hw ▸ fld_pack hf 1 rfl rfl (by decide)
  have f2 : fld wd 20 16 = a.toNat := hw ▸ fld_pack hf 2 rfl rfl (by decide)
  have f3 : fld wd 25 21 = d.toNat := hw ▸ fld_pack hf 3 rfl rfl (by decide)
  have f4 : fld wd 31 26 = 16 := hw ▸ fld_pack hf 4 rfl rfl (by decide)
  have e1 : decodeForm ref wd = decode10 wd := by simp only [decodeForm, f4]
  rw [e1]
  simp only [decode10, f0, f1, f2, f3]
  simp [formOf, hl, hr]

/-- Table 4-10, major 0x10. -/
theorem RoundTrip.stfe (b : Reg5) (a : Reg5) (imm : BitVec 12) : RoundTrip.Statement (.stfe b a imm) := by
  have hf : fitBits [(imm.toNat, 12), (2, 4), (a.toNat, 5), (b.toNat, 5), (16, 6)] := ⟨imm.isLt, by decide, a.isLt, b.isLt, by decide, trivial⟩
  have hw : encodeNat (.stfe b a imm) = packBits [(imm.toNat, 12), (2, 4), (a.toNat, 5), (b.toNat, 5), (16, 6)] := by
    change 1073750016 + b.toNat * 2097152 + a.toNat * 65536 + imm.toNat = _
    simp only [packBits]
    generalize imm.toNat = x0
    generalize a.toNat = x1
    generalize b.toNat = x2
    omega
  refine roundTrip_word (hw ▸ pack_lt hf) (fun ref hl hr hm => ?_)
  generalize encodeNat (.stfe b a imm) = wd at hw hm ⊢
  have f0 : fld wd 11 0 = imm.toNat := hw ▸ fld_pack hf 0 rfl rfl (by decide)
  have f1 : fld wd 15 12 = 2 := hw ▸ fld_pack hf 1 rfl rfl (by decide)
  have f2 : fld wd 20 16 = a.toNat := hw ▸ fld_pack hf 2 rfl rfl (by decide)
  have f3 : fld wd 25 21 = b.toNat := hw ▸ fld_pack hf 3 rfl rfl (by decide)
  have f4 : fld wd 31 26 = 16 := hw ▸ fld_pack hf 4 rfl rfl (by decide)
  have e1 : decodeForm ref wd = decode10 wd := by simp only [decodeForm, f4]
  rw [e1]
  simp only [decode10, f0, f1, f2, f3]
  simp [formOf, hl, hr]

/-- Table 4-10, major 0x10. -/
theorem RoundTrip.feq (d : Reg5) (a : Reg5) (imm : BitVec 12) : RoundTrip.Statement (.feq d a imm) := by
  have hf : fitBits [(imm.toNat, 12), (3, 4), (a.toNat, 5), (d.toNat, 5), (16, 6)] := ⟨imm.isLt, by decide, a.isLt, d.isLt, by decide, trivial⟩
  have hw : encodeNat (.feq d a imm) = packBits [(imm.toNat, 12), (3, 4), (a.toNat, 5), (d.toNat, 5), (16, 6)] := by
    change 1073754112 + d.toNat * 2097152 + a.toNat * 65536 + imm.toNat = _
    simp only [packBits]
    generalize imm.toNat = x0
    generalize a.toNat = x1
    generalize d.toNat = x2
    omega
  refine roundTrip_word (hw ▸ pack_lt hf) (fun ref hl hr hm => ?_)
  generalize encodeNat (.feq d a imm) = wd at hw hm ⊢
  have f0 : fld wd 11 0 = imm.toNat := hw ▸ fld_pack hf 0 rfl rfl (by decide)
  have f1 : fld wd 15 12 = 3 := hw ▸ fld_pack hf 1 rfl rfl (by decide)
  have f2 : fld wd 20 16 = a.toNat := hw ▸ fld_pack hf 2 rfl rfl (by decide)
  have f3 : fld wd 25 21 = d.toNat := hw ▸ fld_pack hf 3 rfl rfl (by decide)
  have f4 : fld wd 31 26 = 16 := hw ▸ fld_pack hf 4 rfl rfl (by decide)
  have e1 : decodeForm ref wd = decode10 wd := by simp only [decodeForm, f4]
  rw [e1]
  simp only [decode10, f0, f1, f2, f3]
  simp [formOf, hl, hr]

/-- Table 4-10, major 0x11. -/
theorem RoundTrip.marm (a : Reg5) (imm : BitVec 12) : RoundTrip.Statement (.marm a imm) := by
  have hf : fitBits [(imm.toNat, 12), (0, 4), (a.toNat, 5), (0, 5), (17, 6)] := ⟨imm.isLt, by decide, a.isLt, by decide, by decide, trivial⟩
  have hw : encodeNat (.marm a imm) = packBits [(imm.toNat, 12), (0, 4), (a.toNat, 5), (0, 5), (17, 6)] := by
    change 1140850688 + a.toNat * 65536 + imm.toNat = _
    simp only [packBits]
    generalize imm.toNat = x0
    generalize a.toNat = x1
    omega
  refine roundTrip_word (hw ▸ pack_lt hf) (fun ref hl hr hm => ?_)
  generalize encodeNat (.marm a imm) = wd at hw hm ⊢
  have f0 : fld wd 11 0 = imm.toNat := hw ▸ fld_pack hf 0 rfl rfl (by decide)
  have f1 : fld wd 15 12 = 0 := hw ▸ fld_pack hf 1 rfl rfl (by decide)
  have f2 : fld wd 20 16 = a.toNat := hw ▸ fld_pack hf 2 rfl rfl (by decide)
  have f3 : fld wd 25 21 = 0 := hw ▸ fld_pack hf 3 rfl rfl (by decide)
  have f4 : fld wd 31 26 = 17 := hw ▸ fld_pack hf 4 rfl rfl (by decide)
  have e1 : decodeForm ref wd = decode11 wd := by simp only [decodeForm, f4]
  rw [e1]
  simp only [decode11, f0, f1, f2, f3]
  simp [formOf, hl, hr]

/-- Table 4-10, major 0x11. -/
theorem RoundTrip.mclr : RoundTrip.Statement (.mclr) := by
  have hf : fitBits [(0, 11), (0, 1), (1, 4), (0, 5), (0, 5), (17, 6)] := ⟨by decide, by decide, by decide, by decide, by decide, by decide, trivial⟩
  have hw : encodeNat (.mclr) = packBits [(0, 11), (0, 1), (1, 4), (0, 5), (0, 5), (17, 6)] := rfl
  refine roundTrip_word (hw ▸ pack_lt hf) (fun ref hl hr hm => ?_)
  generalize encodeNat (.mclr) = wd at hw hm ⊢
  have f0 : fld wd 10 0 = 0 := hw ▸ fld_pack hf 0 rfl rfl (by decide)
  have f1 : fld wd 11 11 = 0 := hw ▸ fld_pack hf 1 rfl rfl (by decide)
  have f2 : fld wd 15 12 = 1 := hw ▸ fld_pack hf 2 rfl rfl (by decide)
  have f3 : fld wd 20 16 = 0 := hw ▸ fld_pack hf 3 rfl rfl (by decide)
  have f4 : fld wd 25 21 = 0 := hw ▸ fld_pack hf 4 rfl rfl (by decide)
  have f5 : fld wd 31 26 = 17 := hw ▸ fld_pack hf 5 rfl rfl (by decide)
  have e1 : decodeForm ref wd = decode11 wd := by simp only [decodeForm, f5]
  rw [e1]
  simp only [decode11, f0, f1, f2, f3, f4]
  simp [formOf, hl, hr]

/-- Table 4-10, major 0x11. -/
theorem RoundTrip.mwait : RoundTrip.Statement (.mwait) := by
  have hf : fitBits [(0, 11), (0, 1), (2, 4), (0, 5), (0, 5), (17, 6)] := ⟨by decide, by decide, by decide, by decide, by decide, by decide, trivial⟩
  have hw : encodeNat (.mwait) = packBits [(0, 11), (0, 1), (2, 4), (0, 5), (0, 5), (17, 6)] := rfl
  refine roundTrip_word (hw ▸ pack_lt hf) (fun ref hl hr hm => ?_)
  generalize encodeNat (.mwait) = wd at hw hm ⊢
  have f0 : fld wd 10 0 = 0 := hw ▸ fld_pack hf 0 rfl rfl (by decide)
  have f1 : fld wd 11 11 = 0 := hw ▸ fld_pack hf 1 rfl rfl (by decide)
  have f2 : fld wd 15 12 = 2 := hw ▸ fld_pack hf 2 rfl rfl (by decide)
  have f3 : fld wd 20 16 = 0 := hw ▸ fld_pack hf 3 rfl rfl (by decide)
  have f4 : fld wd 25 21 = 0 := hw ▸ fld_pack hf 4 rfl rfl (by decide)
  have f5 : fld wd 31 26 = 17 := hw ▸ fld_pack hf 5 rfl rfl (by decide)
  have e1 : decodeForm ref wd = decode11 wd := by simp only [decodeForm, f5]
  rw [e1]
  simp only [decode11, f0, f1, f2, f3, f4]
  simp [formOf, hl, hr]

/-- Table 4-10, major 0x11. -/
theorem RoundTrip.yield : RoundTrip.Statement (.yield) := by
  have hf : fitBits [(0, 11), (0, 1), (3, 4), (0, 5), (0, 5), (17, 6)] := ⟨by decide, by decide, by decide, by decide, by decide, by decide, trivial⟩
  have hw : encodeNat (.yield) = packBits [(0, 11), (0, 1), (3, 4), (0, 5), (0, 5), (17, 6)] := rfl
  refine roundTrip_word (hw ▸ pack_lt hf) (fun ref hl hr hm => ?_)
  generalize encodeNat (.yield) = wd at hw hm ⊢
  have f0 : fld wd 10 0 = 0 := hw ▸ fld_pack hf 0 rfl rfl (by decide)
  have f1 : fld wd 11 11 = 0 := hw ▸ fld_pack hf 1 rfl rfl (by decide)
  have f2 : fld wd 15 12 = 3 := hw ▸ fld_pack hf 2 rfl rfl (by decide)
  have f3 : fld wd 20 16 = 0 := hw ▸ fld_pack hf 3 rfl rfl (by decide)
  have f4 : fld wd 25 21 = 0 := hw ▸ fld_pack hf 4 rfl rfl (by decide)
  have f5 : fld wd 31 26 = 17 := hw ▸ fld_pack hf 5 rfl rfl (by decide)
  have e1 : decodeForm ref wd = decode11 wd := by simp only [decodeForm, f5]
  rw [e1]
  simp only [decode11, f0, f1, f2, f3, f4]
  simp [formOf, hl, hr]

/-- Table 4-10, major 0x11. -/
theorem RoundTrip.halt : RoundTrip.Statement (.halt) := by
  have hf : fitBits [(0, 11), (0, 1), (4, 4), (0, 5), (0, 5), (17, 6)] := ⟨by decide, by decide, by decide, by decide, by decide, by decide, trivial⟩
  have hw : encodeNat (.halt) = packBits [(0, 11), (0, 1), (4, 4), (0, 5), (0, 5), (17, 6)] := rfl
  refine roundTrip_word (hw ▸ pack_lt hf) (fun ref hl hr hm => ?_)
  generalize encodeNat (.halt) = wd at hw hm ⊢
  have f0 : fld wd 10 0 = 0 := hw ▸ fld_pack hf 0 rfl rfl (by decide)
  have f1 : fld wd 11 11 = 0 := hw ▸ fld_pack hf 1 rfl rfl (by decide)
  have f2 : fld wd 15 12 = 4 := hw ▸ fld_pack hf 2 rfl rfl (by decide)
  have f3 : fld wd 20 16 = 0 := hw ▸ fld_pack hf 3 rfl rfl (by decide)
  have f4 : fld wd 25 21 = 0 := hw ▸ fld_pack hf 4 rfl rfl (by decide)
  have f5 : fld wd 31 26 = 17 := hw ▸ fld_pack hf 5 rfl rfl (by decide)
  have e1 : decodeForm ref wd = decode11 wd := by simp only [decodeForm, f5]
  rw [e1]
  simp only [decode11, f0, f1, f2, f3, f4]
  simp [formOf, hl, hr]

/-- Table 4-10, major 0x12. -/
theorem RoundTrip.fork (a : Reg5) (b : Reg5) : RoundTrip.Statement (.fork a b) := by
  have hf : fitBits [(0, 11), (b.toNat, 5), (a.toNat, 5), (0, 5), (18, 6)] := ⟨by decide, b.isLt, a.isLt, by decide, by decide, trivial⟩
  have hw : encodeNat (.fork a b) = packBits [(0, 11), (b.toNat, 5), (a.toNat, 5), (0, 5), (18, 6)] := by
    change 1207959552 + a.toNat * 65536 + b.toNat * 2048 = _
    simp only [packBits]
    generalize b.toNat = x0
    generalize a.toNat = x1
    omega
  refine roundTrip_word (hw ▸ pack_lt hf) (fun ref hl hr hm => ?_)
  generalize encodeNat (.fork a b) = wd at hw hm ⊢
  have f0 : fld wd 10 0 = 0 := hw ▸ fld_pack hf 0 rfl rfl (by decide)
  have f1 : fld wd 15 11 = b.toNat := hw ▸ fld_pack hf 1 rfl rfl (by decide)
  have f2 : fld wd 20 16 = a.toNat := hw ▸ fld_pack hf 2 rfl rfl (by decide)
  have f3 : fld wd 25 21 = 0 := hw ▸ fld_pack hf 3 rfl rfl (by decide)
  have f4 : fld wd 31 26 = 18 := hw ▸ fld_pack hf 4 rfl rfl (by decide)
  have e1 : decodeForm ref wd = decode12 wd := by simp only [decodeForm, f4]
  rw [e1]
  simp only [decode12, f0, f1, f2, f3]
  simp [formOf, hl, hr]

/-- Table 4-10, major 0x12. -/
theorem RoundTrip.rfork (d : Reg5) (a : Reg5) (b : Reg5) : RoundTrip.Statement (.rfork d a b) := by
  have hf : fitBits [(1, 11), (b.toNat, 5), (a.toNat, 5), (d.toNat, 5), (18, 6)] := ⟨by decide, b.isLt, a.isLt, d.isLt, by decide, trivial⟩
  have hw : encodeNat (.rfork d a b) = packBits [(1, 11), (b.toNat, 5), (a.toNat, 5), (d.toNat, 5), (18, 6)] := by
    change 1207959553 + d.toNat * 2097152 + a.toNat * 65536 + b.toNat * 2048 = _
    simp only [packBits]
    generalize b.toNat = x0
    generalize a.toNat = x1
    generalize d.toNat = x2
    omega
  refine roundTrip_word (hw ▸ pack_lt hf) (fun ref hl hr hm => ?_)
  generalize encodeNat (.rfork d a b) = wd at hw hm ⊢
  have f0 : fld wd 10 0 = 1 := hw ▸ fld_pack hf 0 rfl rfl (by decide)
  have f1 : fld wd 15 11 = b.toNat := hw ▸ fld_pack hf 1 rfl rfl (by decide)
  have f2 : fld wd 20 16 = a.toNat := hw ▸ fld_pack hf 2 rfl rfl (by decide)
  have f3 : fld wd 25 21 = d.toNat := hw ▸ fld_pack hf 3 rfl rfl (by decide)
  have f4 : fld wd 31 26 = 18 := hw ▸ fld_pack hf 4 rfl rfl (by decide)
  have e1 : decodeForm ref wd = decode12 wd := by simp only [decodeForm, f4]
  rw [e1]
  simp only [decode12, f0, f1, f2, f3]
  simp [formOf, hl, hr]

/-- Table 4-10, major 0x12. -/
theorem RoundTrip.join (a : Reg5) : RoundTrip.Statement (.join a) := by
  have hf : fitBits [(2, 11), (0, 5), (a.toNat, 5), (0, 5), (18, 6)] := ⟨by decide, by decide, a.isLt, by decide, by decide, trivial⟩
  have hw : encodeNat (.join a) = packBits [(2, 11), (0, 5), (a.toNat, 5), (0, 5), (18, 6)] := by
    change 1207959554 + a.toNat * 65536 = _
    simp only [packBits]
    generalize a.toNat = x0
    omega
  refine roundTrip_word (hw ▸ pack_lt hf) (fun ref hl hr hm => ?_)
  generalize encodeNat (.join a) = wd at hw hm ⊢
  have f0 : fld wd 10 0 = 2 := hw ▸ fld_pack hf 0 rfl rfl (by decide)
  have f1 : fld wd 15 11 = 0 := hw ▸ fld_pack hf 1 rfl rfl (by decide)
  have f2 : fld wd 20 16 = a.toNat := hw ▸ fld_pack hf 2 rfl rfl (by decide)
  have f3 : fld wd 25 21 = 0 := hw ▸ fld_pack hf 3 rfl rfl (by decide)
  have f4 : fld wd 31 26 = 18 := hw ▸ fld_pack hf 4 rfl rfl (by decide)
  have e1 : decodeForm ref wd = decode12 wd := by simp only [decodeForm, f4]
  rw [e1]
  simp only [decode12, f0, f1, f2, f3]
  simp [formOf, hl, hr]

/-- Table 4-10, major 0x12. -/
theorem RoundTrip.taskend : RoundTrip.Statement (.taskend) := by
  have hf : fitBits [(3, 11), (0, 5), (0, 5), (0, 5), (18, 6)] := ⟨by decide, by decide, by decide, by decide, by decide, trivial⟩
  have hw : encodeNat (.taskend) = packBits [(3, 11), (0, 5), (0, 5), (0, 5), (18, 6)] := rfl
  refine roundTrip_word (hw ▸ pack_lt hf) (fun ref hl hr hm => ?_)
  generalize encodeNat (.taskend) = wd at hw hm ⊢
  have f0 : fld wd 10 0 = 3 := hw ▸ fld_pack hf 0 rfl rfl (by decide)
  have f1 : fld wd 15 11 = 0 := hw ▸ fld_pack hf 1 rfl rfl (by decide)
  have f2 : fld wd 20 16 = 0 := hw ▸ fld_pack hf 2 rfl rfl (by decide)
  have f3 : fld wd 25 21 = 0 := hw ▸ fld_pack hf 3 rfl rfl (by decide)
  have f4 : fld wd 31 26 = 18 := hw ▸ fld_pack hf 4 rfl rfl (by decide)
  have e1 : decodeForm ref wd = decode12 wd := by simp only [decodeForm, f4]
  rw [e1]
  simp only [decode12, f0, f1, f2, f3]
  simp [formOf, hl, hr]

/-- Table 4-10, major 0x13. -/
theorem RoundTrip.aadd (d : Reg5) (a : Reg5) (b : Reg5) (kind : Kind) (sc : Scope) (o : Bool) (w32 : Bool) : RoundTrip.Statement (.aadd d a b kind sc o w32) := by
  have hf : fitBits [(0, 4), (boolCode w32, 1), (boolCode o, 1), (sc.code, 3), (kind.code, 2), (b.toNat, 5), (a.toNat, 5), (d.toNat, 5), (19, 6)] := ⟨by decide, boolCode_lt w32, boolCode_lt o, Scope.code_lt sc, Kind.code_lt kind, b.isLt, a.isLt, d.isLt, by decide, trivial⟩
  have hw : encodeNat (.aadd d a b kind sc o w32) = packBits [(0, 4), (boolCode w32, 1), (boolCode o, 1), (sc.code, 3), (kind.code, 2), (b.toNat, 5), (a.toNat, 5), (d.toNat, 5), (19, 6)] := by
    change 1275068416 + d.toNat * 2097152 + a.toNat * 65536 + b.toNat * 2048 + kind.code * 512 + sc.code * 64 + boolCode o * 32 + boolCode w32 * 16 = _
    simp only [packBits]
    generalize boolCode w32 = x0
    generalize boolCode o = x1
    generalize sc.code = x2
    generalize kind.code = x3
    generalize b.toNat = x4
    generalize a.toNat = x5
    generalize d.toNat = x6
    omega
  refine roundTrip_word (hw ▸ pack_lt hf) (fun ref hl hr hm => ?_)
  generalize encodeNat (.aadd d a b kind sc o w32) = wd at hw hm ⊢
  have f0 : fld wd 3 0 = 0 := hw ▸ fld_pack hf 0 rfl rfl (by decide)
  have f1 : fld wd 4 4 = boolCode w32 := hw ▸ fld_pack hf 1 rfl rfl (by decide)
  have f2 : fld wd 5 5 = boolCode o := hw ▸ fld_pack hf 2 rfl rfl (by decide)
  have f3 : fld wd 8 6 = sc.code := hw ▸ fld_pack hf 3 rfl rfl (by decide)
  have f4 : fld wd 10 9 = kind.code := hw ▸ fld_pack hf 4 rfl rfl (by decide)
  have f5 : fld wd 15 11 = b.toNat := hw ▸ fld_pack hf 5 rfl rfl (by decide)
  have f6 : fld wd 20 16 = a.toNat := hw ▸ fld_pack hf 6 rfl rfl (by decide)
  have f7 : fld wd 25 21 = d.toNat := hw ▸ fld_pack hf 7 rfl rfl (by decide)
  have f8 : fld wd 31 26 = 19 := hw ▸ fld_pack hf 8 rfl rfl (by decide)
  have e1 : decodeForm ref wd = decode13 wd := by simp only [decodeForm, f8]
  rw [e1]
  simp only [decode13, f0, f1, f2, f3, f4, f5, f6, f7]
  simp [formOf, hl, hr]

/-- Table 4-10, major 0x13. -/
theorem RoundTrip.aand (d : Reg5) (a : Reg5) (b : Reg5) (kind : Kind) (sc : Scope) (o : Bool) (w32 : Bool) : RoundTrip.Statement (.aand d a b kind sc o w32) := by
  have hf : fitBits [(1, 4), (boolCode w32, 1), (boolCode o, 1), (sc.code, 3), (kind.code, 2), (b.toNat, 5), (a.toNat, 5), (d.toNat, 5), (19, 6)] := ⟨by decide, boolCode_lt w32, boolCode_lt o, Scope.code_lt sc, Kind.code_lt kind, b.isLt, a.isLt, d.isLt, by decide, trivial⟩
  have hw : encodeNat (.aand d a b kind sc o w32) = packBits [(1, 4), (boolCode w32, 1), (boolCode o, 1), (sc.code, 3), (kind.code, 2), (b.toNat, 5), (a.toNat, 5), (d.toNat, 5), (19, 6)] := by
    change 1275068417 + d.toNat * 2097152 + a.toNat * 65536 + b.toNat * 2048 + kind.code * 512 + sc.code * 64 + boolCode o * 32 + boolCode w32 * 16 = _
    simp only [packBits]
    generalize boolCode w32 = x0
    generalize boolCode o = x1
    generalize sc.code = x2
    generalize kind.code = x3
    generalize b.toNat = x4
    generalize a.toNat = x5
    generalize d.toNat = x6
    omega
  refine roundTrip_word (hw ▸ pack_lt hf) (fun ref hl hr hm => ?_)
  generalize encodeNat (.aand d a b kind sc o w32) = wd at hw hm ⊢
  have f0 : fld wd 3 0 = 1 := hw ▸ fld_pack hf 0 rfl rfl (by decide)
  have f1 : fld wd 4 4 = boolCode w32 := hw ▸ fld_pack hf 1 rfl rfl (by decide)
  have f2 : fld wd 5 5 = boolCode o := hw ▸ fld_pack hf 2 rfl rfl (by decide)
  have f3 : fld wd 8 6 = sc.code := hw ▸ fld_pack hf 3 rfl rfl (by decide)
  have f4 : fld wd 10 9 = kind.code := hw ▸ fld_pack hf 4 rfl rfl (by decide)
  have f5 : fld wd 15 11 = b.toNat := hw ▸ fld_pack hf 5 rfl rfl (by decide)
  have f6 : fld wd 20 16 = a.toNat := hw ▸ fld_pack hf 6 rfl rfl (by decide)
  have f7 : fld wd 25 21 = d.toNat := hw ▸ fld_pack hf 7 rfl rfl (by decide)
  have f8 : fld wd 31 26 = 19 := hw ▸ fld_pack hf 8 rfl rfl (by decide)
  have e1 : decodeForm ref wd = decode13 wd := by simp only [decodeForm, f8]
  rw [e1]
  simp only [decode13, f0, f1, f2, f3, f4, f5, f6, f7]
  simp [formOf, hl, hr]

/-- Table 4-10, major 0x13. -/
theorem RoundTrip.aor (d : Reg5) (a : Reg5) (b : Reg5) (kind : Kind) (sc : Scope) (o : Bool) (w32 : Bool) : RoundTrip.Statement (.aor d a b kind sc o w32) := by
  have hf : fitBits [(2, 4), (boolCode w32, 1), (boolCode o, 1), (sc.code, 3), (kind.code, 2), (b.toNat, 5), (a.toNat, 5), (d.toNat, 5), (19, 6)] := ⟨by decide, boolCode_lt w32, boolCode_lt o, Scope.code_lt sc, Kind.code_lt kind, b.isLt, a.isLt, d.isLt, by decide, trivial⟩
  have hw : encodeNat (.aor d a b kind sc o w32) = packBits [(2, 4), (boolCode w32, 1), (boolCode o, 1), (sc.code, 3), (kind.code, 2), (b.toNat, 5), (a.toNat, 5), (d.toNat, 5), (19, 6)] := by
    change 1275068418 + d.toNat * 2097152 + a.toNat * 65536 + b.toNat * 2048 + kind.code * 512 + sc.code * 64 + boolCode o * 32 + boolCode w32 * 16 = _
    simp only [packBits]
    generalize boolCode w32 = x0
    generalize boolCode o = x1
    generalize sc.code = x2
    generalize kind.code = x3
    generalize b.toNat = x4
    generalize a.toNat = x5
    generalize d.toNat = x6
    omega
  refine roundTrip_word (hw ▸ pack_lt hf) (fun ref hl hr hm => ?_)
  generalize encodeNat (.aor d a b kind sc o w32) = wd at hw hm ⊢
  have f0 : fld wd 3 0 = 2 := hw ▸ fld_pack hf 0 rfl rfl (by decide)
  have f1 : fld wd 4 4 = boolCode w32 := hw ▸ fld_pack hf 1 rfl rfl (by decide)
  have f2 : fld wd 5 5 = boolCode o := hw ▸ fld_pack hf 2 rfl rfl (by decide)
  have f3 : fld wd 8 6 = sc.code := hw ▸ fld_pack hf 3 rfl rfl (by decide)
  have f4 : fld wd 10 9 = kind.code := hw ▸ fld_pack hf 4 rfl rfl (by decide)
  have f5 : fld wd 15 11 = b.toNat := hw ▸ fld_pack hf 5 rfl rfl (by decide)
  have f6 : fld wd 20 16 = a.toNat := hw ▸ fld_pack hf 6 rfl rfl (by decide)
  have f7 : fld wd 25 21 = d.toNat := hw ▸ fld_pack hf 7 rfl rfl (by decide)
  have f8 : fld wd 31 26 = 19 := hw ▸ fld_pack hf 8 rfl rfl (by decide)
  have e1 : decodeForm ref wd = decode13 wd := by simp only [decodeForm, f8]
  rw [e1]
  simp only [decode13, f0, f1, f2, f3, f4, f5, f6, f7]
  simp [formOf, hl, hr]

/-- Table 4-10, major 0x13. -/
theorem RoundTrip.axor (d : Reg5) (a : Reg5) (b : Reg5) (kind : Kind) (sc : Scope) (o : Bool) (w32 : Bool) : RoundTrip.Statement (.axor d a b kind sc o w32) := by
  have hf : fitBits [(3, 4), (boolCode w32, 1), (boolCode o, 1), (sc.code, 3), (kind.code, 2), (b.toNat, 5), (a.toNat, 5), (d.toNat, 5), (19, 6)] := ⟨by decide, boolCode_lt w32, boolCode_lt o, Scope.code_lt sc, Kind.code_lt kind, b.isLt, a.isLt, d.isLt, by decide, trivial⟩
  have hw : encodeNat (.axor d a b kind sc o w32) = packBits [(3, 4), (boolCode w32, 1), (boolCode o, 1), (sc.code, 3), (kind.code, 2), (b.toNat, 5), (a.toNat, 5), (d.toNat, 5), (19, 6)] := by
    change 1275068419 + d.toNat * 2097152 + a.toNat * 65536 + b.toNat * 2048 + kind.code * 512 + sc.code * 64 + boolCode o * 32 + boolCode w32 * 16 = _
    simp only [packBits]
    generalize boolCode w32 = x0
    generalize boolCode o = x1
    generalize sc.code = x2
    generalize kind.code = x3
    generalize b.toNat = x4
    generalize a.toNat = x5
    generalize d.toNat = x6
    omega
  refine roundTrip_word (hw ▸ pack_lt hf) (fun ref hl hr hm => ?_)
  generalize encodeNat (.axor d a b kind sc o w32) = wd at hw hm ⊢
  have f0 : fld wd 3 0 = 3 := hw ▸ fld_pack hf 0 rfl rfl (by decide)
  have f1 : fld wd 4 4 = boolCode w32 := hw ▸ fld_pack hf 1 rfl rfl (by decide)
  have f2 : fld wd 5 5 = boolCode o := hw ▸ fld_pack hf 2 rfl rfl (by decide)
  have f3 : fld wd 8 6 = sc.code := hw ▸ fld_pack hf 3 rfl rfl (by decide)
  have f4 : fld wd 10 9 = kind.code := hw ▸ fld_pack hf 4 rfl rfl (by decide)
  have f5 : fld wd 15 11 = b.toNat := hw ▸ fld_pack hf 5 rfl rfl (by decide)
  have f6 : fld wd 20 16 = a.toNat := hw ▸ fld_pack hf 6 rfl rfl (by decide)
  have f7 : fld wd 25 21 = d.toNat := hw ▸ fld_pack hf 7 rfl rfl (by decide)
  have f8 : fld wd 31 26 = 19 := hw ▸ fld_pack hf 8 rfl rfl (by decide)
  have e1 : decodeForm ref wd = decode13 wd := by simp only [decodeForm, f8]
  rw [e1]
  simp only [decode13, f0, f1, f2, f3, f4, f5, f6, f7]
  simp [formOf, hl, hr]

/-- Table 4-10, major 0x13. -/
theorem RoundTrip.amin (d : Reg5) (a : Reg5) (b : Reg5) (kind : Kind) (sc : Scope) (o : Bool) (w32 : Bool) : RoundTrip.Statement (.amin d a b kind sc o w32) := by
  have hf : fitBits [(4, 4), (boolCode w32, 1), (boolCode o, 1), (sc.code, 3), (kind.code, 2), (b.toNat, 5), (a.toNat, 5), (d.toNat, 5), (19, 6)] := ⟨by decide, boolCode_lt w32, boolCode_lt o, Scope.code_lt sc, Kind.code_lt kind, b.isLt, a.isLt, d.isLt, by decide, trivial⟩
  have hw : encodeNat (.amin d a b kind sc o w32) = packBits [(4, 4), (boolCode w32, 1), (boolCode o, 1), (sc.code, 3), (kind.code, 2), (b.toNat, 5), (a.toNat, 5), (d.toNat, 5), (19, 6)] := by
    change 1275068420 + d.toNat * 2097152 + a.toNat * 65536 + b.toNat * 2048 + kind.code * 512 + sc.code * 64 + boolCode o * 32 + boolCode w32 * 16 = _
    simp only [packBits]
    generalize boolCode w32 = x0
    generalize boolCode o = x1
    generalize sc.code = x2
    generalize kind.code = x3
    generalize b.toNat = x4
    generalize a.toNat = x5
    generalize d.toNat = x6
    omega
  refine roundTrip_word (hw ▸ pack_lt hf) (fun ref hl hr hm => ?_)
  generalize encodeNat (.amin d a b kind sc o w32) = wd at hw hm ⊢
  have f0 : fld wd 3 0 = 4 := hw ▸ fld_pack hf 0 rfl rfl (by decide)
  have f1 : fld wd 4 4 = boolCode w32 := hw ▸ fld_pack hf 1 rfl rfl (by decide)
  have f2 : fld wd 5 5 = boolCode o := hw ▸ fld_pack hf 2 rfl rfl (by decide)
  have f3 : fld wd 8 6 = sc.code := hw ▸ fld_pack hf 3 rfl rfl (by decide)
  have f4 : fld wd 10 9 = kind.code := hw ▸ fld_pack hf 4 rfl rfl (by decide)
  have f5 : fld wd 15 11 = b.toNat := hw ▸ fld_pack hf 5 rfl rfl (by decide)
  have f6 : fld wd 20 16 = a.toNat := hw ▸ fld_pack hf 6 rfl rfl (by decide)
  have f7 : fld wd 25 21 = d.toNat := hw ▸ fld_pack hf 7 rfl rfl (by decide)
  have f8 : fld wd 31 26 = 19 := hw ▸ fld_pack hf 8 rfl rfl (by decide)
  have e1 : decodeForm ref wd = decode13 wd := by simp only [decodeForm, f8]
  rw [e1]
  simp only [decode13, f0, f1, f2, f3, f4, f5, f6, f7]
  simp [formOf, hl, hr]

/-- Table 4-10, major 0x13. -/
theorem RoundTrip.amax (d : Reg5) (a : Reg5) (b : Reg5) (kind : Kind) (sc : Scope) (o : Bool) (w32 : Bool) : RoundTrip.Statement (.amax d a b kind sc o w32) := by
  have hf : fitBits [(5, 4), (boolCode w32, 1), (boolCode o, 1), (sc.code, 3), (kind.code, 2), (b.toNat, 5), (a.toNat, 5), (d.toNat, 5), (19, 6)] := ⟨by decide, boolCode_lt w32, boolCode_lt o, Scope.code_lt sc, Kind.code_lt kind, b.isLt, a.isLt, d.isLt, by decide, trivial⟩
  have hw : encodeNat (.amax d a b kind sc o w32) = packBits [(5, 4), (boolCode w32, 1), (boolCode o, 1), (sc.code, 3), (kind.code, 2), (b.toNat, 5), (a.toNat, 5), (d.toNat, 5), (19, 6)] := by
    change 1275068421 + d.toNat * 2097152 + a.toNat * 65536 + b.toNat * 2048 + kind.code * 512 + sc.code * 64 + boolCode o * 32 + boolCode w32 * 16 = _
    simp only [packBits]
    generalize boolCode w32 = x0
    generalize boolCode o = x1
    generalize sc.code = x2
    generalize kind.code = x3
    generalize b.toNat = x4
    generalize a.toNat = x5
    generalize d.toNat = x6
    omega
  refine roundTrip_word (hw ▸ pack_lt hf) (fun ref hl hr hm => ?_)
  generalize encodeNat (.amax d a b kind sc o w32) = wd at hw hm ⊢
  have f0 : fld wd 3 0 = 5 := hw ▸ fld_pack hf 0 rfl rfl (by decide)
  have f1 : fld wd 4 4 = boolCode w32 := hw ▸ fld_pack hf 1 rfl rfl (by decide)
  have f2 : fld wd 5 5 = boolCode o := hw ▸ fld_pack hf 2 rfl rfl (by decide)
  have f3 : fld wd 8 6 = sc.code := hw ▸ fld_pack hf 3 rfl rfl (by decide)
  have f4 : fld wd 10 9 = kind.code := hw ▸ fld_pack hf 4 rfl rfl (by decide)
  have f5 : fld wd 15 11 = b.toNat := hw ▸ fld_pack hf 5 rfl rfl (by decide)
  have f6 : fld wd 20 16 = a.toNat := hw ▸ fld_pack hf 6 rfl rfl (by decide)
  have f7 : fld wd 25 21 = d.toNat := hw ▸ fld_pack hf 7 rfl rfl (by decide)
  have f8 : fld wd 31 26 = 19 := hw ▸ fld_pack hf 8 rfl rfl (by decide)
  have e1 : decodeForm ref wd = decode13 wd := by simp only [decodeForm, f8]
  rw [e1]
  simp only [decode13, f0, f1, f2, f3, f4, f5, f6, f7]
  simp [formOf, hl, hr]

/-- Table 4-10, major 0x13. -/
theorem RoundTrip.aminu (d : Reg5) (a : Reg5) (b : Reg5) (kind : Kind) (sc : Scope) (o : Bool) (w32 : Bool) : RoundTrip.Statement (.aminu d a b kind sc o w32) := by
  have hf : fitBits [(6, 4), (boolCode w32, 1), (boolCode o, 1), (sc.code, 3), (kind.code, 2), (b.toNat, 5), (a.toNat, 5), (d.toNat, 5), (19, 6)] := ⟨by decide, boolCode_lt w32, boolCode_lt o, Scope.code_lt sc, Kind.code_lt kind, b.isLt, a.isLt, d.isLt, by decide, trivial⟩
  have hw : encodeNat (.aminu d a b kind sc o w32) = packBits [(6, 4), (boolCode w32, 1), (boolCode o, 1), (sc.code, 3), (kind.code, 2), (b.toNat, 5), (a.toNat, 5), (d.toNat, 5), (19, 6)] := by
    change 1275068422 + d.toNat * 2097152 + a.toNat * 65536 + b.toNat * 2048 + kind.code * 512 + sc.code * 64 + boolCode o * 32 + boolCode w32 * 16 = _
    simp only [packBits]
    generalize boolCode w32 = x0
    generalize boolCode o = x1
    generalize sc.code = x2
    generalize kind.code = x3
    generalize b.toNat = x4
    generalize a.toNat = x5
    generalize d.toNat = x6
    omega
  refine roundTrip_word (hw ▸ pack_lt hf) (fun ref hl hr hm => ?_)
  generalize encodeNat (.aminu d a b kind sc o w32) = wd at hw hm ⊢
  have f0 : fld wd 3 0 = 6 := hw ▸ fld_pack hf 0 rfl rfl (by decide)
  have f1 : fld wd 4 4 = boolCode w32 := hw ▸ fld_pack hf 1 rfl rfl (by decide)
  have f2 : fld wd 5 5 = boolCode o := hw ▸ fld_pack hf 2 rfl rfl (by decide)
  have f3 : fld wd 8 6 = sc.code := hw ▸ fld_pack hf 3 rfl rfl (by decide)
  have f4 : fld wd 10 9 = kind.code := hw ▸ fld_pack hf 4 rfl rfl (by decide)
  have f5 : fld wd 15 11 = b.toNat := hw ▸ fld_pack hf 5 rfl rfl (by decide)
  have f6 : fld wd 20 16 = a.toNat := hw ▸ fld_pack hf 6 rfl rfl (by decide)
  have f7 : fld wd 25 21 = d.toNat := hw ▸ fld_pack hf 7 rfl rfl (by decide)
  have f8 : fld wd 31 26 = 19 := hw ▸ fld_pack hf 8 rfl rfl (by decide)
  have e1 : decodeForm ref wd = decode13 wd := by simp only [decodeForm, f8]
  rw [e1]
  simp only [decode13, f0, f1, f2, f3, f4, f5, f6, f7]
  simp [formOf, hl, hr]

/-- Table 4-10, major 0x13. -/
theorem RoundTrip.amaxu (d : Reg5) (a : Reg5) (b : Reg5) (kind : Kind) (sc : Scope) (o : Bool) (w32 : Bool) : RoundTrip.Statement (.amaxu d a b kind sc o w32) := by
  have hf : fitBits [(7, 4), (boolCode w32, 1), (boolCode o, 1), (sc.code, 3), (kind.code, 2), (b.toNat, 5), (a.toNat, 5), (d.toNat, 5), (19, 6)] := ⟨by decide, boolCode_lt w32, boolCode_lt o, Scope.code_lt sc, Kind.code_lt kind, b.isLt, a.isLt, d.isLt, by decide, trivial⟩
  have hw : encodeNat (.amaxu d a b kind sc o w32) = packBits [(7, 4), (boolCode w32, 1), (boolCode o, 1), (sc.code, 3), (kind.code, 2), (b.toNat, 5), (a.toNat, 5), (d.toNat, 5), (19, 6)] := by
    change 1275068423 + d.toNat * 2097152 + a.toNat * 65536 + b.toNat * 2048 + kind.code * 512 + sc.code * 64 + boolCode o * 32 + boolCode w32 * 16 = _
    simp only [packBits]
    generalize boolCode w32 = x0
    generalize boolCode o = x1
    generalize sc.code = x2
    generalize kind.code = x3
    generalize b.toNat = x4
    generalize a.toNat = x5
    generalize d.toNat = x6
    omega
  refine roundTrip_word (hw ▸ pack_lt hf) (fun ref hl hr hm => ?_)
  generalize encodeNat (.amaxu d a b kind sc o w32) = wd at hw hm ⊢
  have f0 : fld wd 3 0 = 7 := hw ▸ fld_pack hf 0 rfl rfl (by decide)
  have f1 : fld wd 4 4 = boolCode w32 := hw ▸ fld_pack hf 1 rfl rfl (by decide)
  have f2 : fld wd 5 5 = boolCode o := hw ▸ fld_pack hf 2 rfl rfl (by decide)
  have f3 : fld wd 8 6 = sc.code := hw ▸ fld_pack hf 3 rfl rfl (by decide)
  have f4 : fld wd 10 9 = kind.code := hw ▸ fld_pack hf 4 rfl rfl (by decide)
  have f5 : fld wd 15 11 = b.toNat := hw ▸ fld_pack hf 5 rfl rfl (by decide)
  have f6 : fld wd 20 16 = a.toNat := hw ▸ fld_pack hf 6 rfl rfl (by decide)
  have f7 : fld wd 25 21 = d.toNat := hw ▸ fld_pack hf 7 rfl rfl (by decide)
  have f8 : fld wd 31 26 = 19 := hw ▸ fld_pack hf 8 rfl rfl (by decide)
  have e1 : decodeForm ref wd = decode13 wd := by simp only [decodeForm, f8]
  rw [e1]
  simp only [decode13, f0, f1, f2, f3, f4, f5, f6, f7]
  simp [formOf, hl, hr]

/-- Table 4-10, major 0x13. -/
theorem RoundTrip.axchg (d : Reg5) (a : Reg5) (b : Reg5) (kind : Kind) (sc : Scope) (o : Bool) (w32 : Bool) : RoundTrip.Statement (.axchg d a b kind sc o w32) := by
  have hf : fitBits [(8, 4), (boolCode w32, 1), (boolCode o, 1), (sc.code, 3), (kind.code, 2), (b.toNat, 5), (a.toNat, 5), (d.toNat, 5), (19, 6)] := ⟨by decide, boolCode_lt w32, boolCode_lt o, Scope.code_lt sc, Kind.code_lt kind, b.isLt, a.isLt, d.isLt, by decide, trivial⟩
  have hw : encodeNat (.axchg d a b kind sc o w32) = packBits [(8, 4), (boolCode w32, 1), (boolCode o, 1), (sc.code, 3), (kind.code, 2), (b.toNat, 5), (a.toNat, 5), (d.toNat, 5), (19, 6)] := by
    change 1275068424 + d.toNat * 2097152 + a.toNat * 65536 + b.toNat * 2048 + kind.code * 512 + sc.code * 64 + boolCode o * 32 + boolCode w32 * 16 = _
    simp only [packBits]
    generalize boolCode w32 = x0
    generalize boolCode o = x1
    generalize sc.code = x2
    generalize kind.code = x3
    generalize b.toNat = x4
    generalize a.toNat = x5
    generalize d.toNat = x6
    omega
  refine roundTrip_word (hw ▸ pack_lt hf) (fun ref hl hr hm => ?_)
  generalize encodeNat (.axchg d a b kind sc o w32) = wd at hw hm ⊢
  have f0 : fld wd 3 0 = 8 := hw ▸ fld_pack hf 0 rfl rfl (by decide)
  have f1 : fld wd 4 4 = boolCode w32 := hw ▸ fld_pack hf 1 rfl rfl (by decide)
  have f2 : fld wd 5 5 = boolCode o := hw ▸ fld_pack hf 2 rfl rfl (by decide)
  have f3 : fld wd 8 6 = sc.code := hw ▸ fld_pack hf 3 rfl rfl (by decide)
  have f4 : fld wd 10 9 = kind.code := hw ▸ fld_pack hf 4 rfl rfl (by decide)
  have f5 : fld wd 15 11 = b.toNat := hw ▸ fld_pack hf 5 rfl rfl (by decide)
  have f6 : fld wd 20 16 = a.toNat := hw ▸ fld_pack hf 6 rfl rfl (by decide)
  have f7 : fld wd 25 21 = d.toNat := hw ▸ fld_pack hf 7 rfl rfl (by decide)
  have f8 : fld wd 31 26 = 19 := hw ▸ fld_pack hf 8 rfl rfl (by decide)
  have e1 : decodeForm ref wd = decode13 wd := by simp only [decodeForm, f8]
  rw [e1]
  simp only [decode13, f0, f1, f2, f3, f4, f5, f6, f7]
  simp [formOf, hl, hr]

/-- Table 4-10, major 0x13. -/
theorem RoundTrip.acas (d : Reg5) (a : Reg5) (b : Reg5) (kind : Kind) (sc : Scope) (w32 : Bool) : RoundTrip.Statement (.acas d a b kind sc w32) := by
  have hf : fitBits [(9, 4), (boolCode w32, 1), (0, 1), (sc.code, 3), (kind.code, 2), (b.toNat, 5), (a.toNat, 5), (d.toNat, 5), (19, 6)] := ⟨by decide, boolCode_lt w32, by decide, Scope.code_lt sc, Kind.code_lt kind, b.isLt, a.isLt, d.isLt, by decide, trivial⟩
  have hw : encodeNat (.acas d a b kind sc w32) = packBits [(9, 4), (boolCode w32, 1), (0, 1), (sc.code, 3), (kind.code, 2), (b.toNat, 5), (a.toNat, 5), (d.toNat, 5), (19, 6)] := by
    change 1275068425 + d.toNat * 2097152 + a.toNat * 65536 + b.toNat * 2048 + kind.code * 512 + sc.code * 64 + boolCode w32 * 16 = _
    simp only [packBits]
    generalize boolCode w32 = x0
    generalize sc.code = x1
    generalize kind.code = x2
    generalize b.toNat = x3
    generalize a.toNat = x4
    generalize d.toNat = x5
    omega
  refine roundTrip_word (hw ▸ pack_lt hf) (fun ref hl hr hm => ?_)
  generalize encodeNat (.acas d a b kind sc w32) = wd at hw hm ⊢
  have f0 : fld wd 3 0 = 9 := hw ▸ fld_pack hf 0 rfl rfl (by decide)
  have f1 : fld wd 4 4 = boolCode w32 := hw ▸ fld_pack hf 1 rfl rfl (by decide)
  have f2 : fld wd 5 5 = 0 := hw ▸ fld_pack hf 2 rfl rfl (by decide)
  have f3 : fld wd 8 6 = sc.code := hw ▸ fld_pack hf 3 rfl rfl (by decide)
  have f4 : fld wd 10 9 = kind.code := hw ▸ fld_pack hf 4 rfl rfl (by decide)
  have f5 : fld wd 15 11 = b.toNat := hw ▸ fld_pack hf 5 rfl rfl (by decide)
  have f6 : fld wd 20 16 = a.toNat := hw ▸ fld_pack hf 6 rfl rfl (by decide)
  have f7 : fld wd 25 21 = d.toNat := hw ▸ fld_pack hf 7 rfl rfl (by decide)
  have f8 : fld wd 31 26 = 19 := hw ▸ fld_pack hf 8 rfl rfl (by decide)
  have e1 : decodeForm ref wd = decode13 wd := by simp only [decodeForm, f8]
  rw [e1]
  simp only [decode13, f0, f1, f2, f3, f4, f5, f6, f7]
  simp [formOf, hl, hr]

/-- Table 4-10, major 0x13. -/
theorem RoundTrip.migr (a : Reg5) : RoundTrip.Statement (.migr a) := by
  have hf : fitBits [(10, 4), (0, 7), (0, 5), (a.toNat, 5), (0, 5), (19, 6)] := ⟨by decide, by decide, by decide, a.isLt, by decide, by decide, trivial⟩
  have hw : encodeNat (.migr a) = packBits [(10, 4), (0, 7), (0, 5), (a.toNat, 5), (0, 5), (19, 6)] := by
    change 1275068426 + a.toNat * 65536 = _
    simp only [packBits]
    generalize a.toNat = x0
    omega
  refine roundTrip_word (hw ▸ pack_lt hf) (fun ref hl hr hm => ?_)
  generalize encodeNat (.migr a) = wd at hw hm ⊢
  have f0 : fld wd 3 0 = 10 := hw ▸ fld_pack hf 0 rfl rfl (by decide)
  have f1 : fld wd 10 4 = 0 := hw ▸ fld_pack hf 1 rfl rfl (by decide)
  have f2 : fld wd 15 11 = 0 := hw ▸ fld_pack hf 2 rfl rfl (by decide)
  have f3 : fld wd 20 16 = a.toNat := hw ▸ fld_pack hf 3 rfl rfl (by decide)
  have f4 : fld wd 25 21 = 0 := hw ▸ fld_pack hf 4 rfl rfl (by decide)
  have f5 : fld wd 31 26 = 19 := hw ▸ fld_pack hf 5 rfl rfl (by decide)
  have e1 : decodeForm ref wd = decode13 wd := by simp only [decodeForm, f5]
  rw [e1]
  simp only [decode13, f0, f1, f2, f3, f4]
  simp [formOf, hl, hr]

/-- Table 4-10, major 0x13. -/
theorem RoundTrip.retn : RoundTrip.Statement (.retn) := by
  have hf : fitBits [(11, 4), (0, 7), (0, 5), (0, 5), (0, 5), (19, 6)] := ⟨by decide, by decide, by decide, by decide, by decide, by decide, trivial⟩
  have hw : encodeNat (.retn) = packBits [(11, 4), (0, 7), (0, 5), (0, 5), (0, 5), (19, 6)] := rfl
  refine roundTrip_word (hw ▸ pack_lt hf) (fun ref hl hr hm => ?_)
  generalize encodeNat (.retn) = wd at hw hm ⊢
  have f0 : fld wd 3 0 = 11 := hw ▸ fld_pack hf 0 rfl rfl (by decide)
  have f1 : fld wd 10 4 = 0 := hw ▸ fld_pack hf 1 rfl rfl (by decide)
  have f2 : fld wd 15 11 = 0 := hw ▸ fld_pack hf 2 rfl rfl (by decide)
  have f3 : fld wd 20 16 = 0 := hw ▸ fld_pack hf 3 rfl rfl (by decide)
  have f4 : fld wd 25 21 = 0 := hw ▸ fld_pack hf 4 rfl rfl (by decide)
  have f5 : fld wd 31 26 = 19 := hw ▸ fld_pack hf 5 rfl rfl (by decide)
  have e1 : decodeForm ref wd = decode13 wd := by simp only [decodeForm, f5]
  rw [e1]
  simp only [decode13, f0, f1, f2, f3, f4]
  simp [formOf, hl, hr]

/-- Table 4-10, major 0x14. -/
theorem RoundTrip.radd (a : Reg5) (b : Reg5) (rel : Bool) (sc : Scope) (o : Bool) (w32 : Bool) : RoundTrip.Statement (.radd a b rel sc o w32) := by
  have hf : fitBits [(0, 4), (boolCode w32, 1), (boolCode o, 1), (sc.code, 3), (relCode rel, 2), (b.toNat, 5), (a.toNat, 5), (0, 5), (20, 6)] := ⟨by decide, boolCode_lt w32, boolCode_lt o, Scope.code_lt sc, relCode_lt rel, b.isLt, a.isLt, by decide, by decide, trivial⟩
  have hw : encodeNat (.radd a b rel sc o w32) = packBits [(0, 4), (boolCode w32, 1), (boolCode o, 1), (sc.code, 3), (relCode rel, 2), (b.toNat, 5), (a.toNat, 5), (0, 5), (20, 6)] := by
    change 1342177280 + a.toNat * 65536 + b.toNat * 2048 + relCode rel * 512 + sc.code * 64 + boolCode o * 32 + boolCode w32 * 16 = _
    simp only [packBits]
    generalize boolCode w32 = x0
    generalize boolCode o = x1
    generalize sc.code = x2
    generalize relCode rel = x3
    generalize b.toNat = x4
    generalize a.toNat = x5
    omega
  refine roundTrip_word (hw ▸ pack_lt hf) (fun ref hl hr hm => ?_)
  generalize encodeNat (.radd a b rel sc o w32) = wd at hw hm ⊢
  have f0 : fld wd 3 0 = 0 := hw ▸ fld_pack hf 0 rfl rfl (by decide)
  have f1 : fld wd 4 4 = boolCode w32 := hw ▸ fld_pack hf 1 rfl rfl (by decide)
  have f2 : fld wd 5 5 = boolCode o := hw ▸ fld_pack hf 2 rfl rfl (by decide)
  have f3 : fld wd 8 6 = sc.code := hw ▸ fld_pack hf 3 rfl rfl (by decide)
  have f4 : fld wd 10 9 = relCode rel := hw ▸ fld_pack hf 4 rfl rfl (by decide)
  have f5 : fld wd 15 11 = b.toNat := hw ▸ fld_pack hf 5 rfl rfl (by decide)
  have f6 : fld wd 20 16 = a.toNat := hw ▸ fld_pack hf 6 rfl rfl (by decide)
  have f7 : fld wd 25 21 = 0 := hw ▸ fld_pack hf 7 rfl rfl (by decide)
  have f8 : fld wd 31 26 = 20 := hw ▸ fld_pack hf 8 rfl rfl (by decide)
  have e1 : decodeForm ref wd = decode14 wd := by simp only [decodeForm, f8]
  rw [e1]
  simp only [decode14, f0, f1, f2, f3, f4, f5, f6, f7]
  simp [formOf, hl, hr]

/-- Table 4-10, major 0x14. -/
theorem RoundTrip.rand (a : Reg5) (b : Reg5) (rel : Bool) (sc : Scope) (o : Bool) (w32 : Bool) : RoundTrip.Statement (.rand a b rel sc o w32) := by
  have hf : fitBits [(1, 4), (boolCode w32, 1), (boolCode o, 1), (sc.code, 3), (relCode rel, 2), (b.toNat, 5), (a.toNat, 5), (0, 5), (20, 6)] := ⟨by decide, boolCode_lt w32, boolCode_lt o, Scope.code_lt sc, relCode_lt rel, b.isLt, a.isLt, by decide, by decide, trivial⟩
  have hw : encodeNat (.rand a b rel sc o w32) = packBits [(1, 4), (boolCode w32, 1), (boolCode o, 1), (sc.code, 3), (relCode rel, 2), (b.toNat, 5), (a.toNat, 5), (0, 5), (20, 6)] := by
    change 1342177281 + a.toNat * 65536 + b.toNat * 2048 + relCode rel * 512 + sc.code * 64 + boolCode o * 32 + boolCode w32 * 16 = _
    simp only [packBits]
    generalize boolCode w32 = x0
    generalize boolCode o = x1
    generalize sc.code = x2
    generalize relCode rel = x3
    generalize b.toNat = x4
    generalize a.toNat = x5
    omega
  refine roundTrip_word (hw ▸ pack_lt hf) (fun ref hl hr hm => ?_)
  generalize encodeNat (.rand a b rel sc o w32) = wd at hw hm ⊢
  have f0 : fld wd 3 0 = 1 := hw ▸ fld_pack hf 0 rfl rfl (by decide)
  have f1 : fld wd 4 4 = boolCode w32 := hw ▸ fld_pack hf 1 rfl rfl (by decide)
  have f2 : fld wd 5 5 = boolCode o := hw ▸ fld_pack hf 2 rfl rfl (by decide)
  have f3 : fld wd 8 6 = sc.code := hw ▸ fld_pack hf 3 rfl rfl (by decide)
  have f4 : fld wd 10 9 = relCode rel := hw ▸ fld_pack hf 4 rfl rfl (by decide)
  have f5 : fld wd 15 11 = b.toNat := hw ▸ fld_pack hf 5 rfl rfl (by decide)
  have f6 : fld wd 20 16 = a.toNat := hw ▸ fld_pack hf 6 rfl rfl (by decide)
  have f7 : fld wd 25 21 = 0 := hw ▸ fld_pack hf 7 rfl rfl (by decide)
  have f8 : fld wd 31 26 = 20 := hw ▸ fld_pack hf 8 rfl rfl (by decide)
  have e1 : decodeForm ref wd = decode14 wd := by simp only [decodeForm, f8]
  rw [e1]
  simp only [decode14, f0, f1, f2, f3, f4, f5, f6, f7]
  simp [formOf, hl, hr]

/-- Table 4-10, major 0x14. -/
theorem RoundTrip.ror (a : Reg5) (b : Reg5) (rel : Bool) (sc : Scope) (o : Bool) (w32 : Bool) : RoundTrip.Statement (.ror a b rel sc o w32) := by
  have hf : fitBits [(2, 4), (boolCode w32, 1), (boolCode o, 1), (sc.code, 3), (relCode rel, 2), (b.toNat, 5), (a.toNat, 5), (0, 5), (20, 6)] := ⟨by decide, boolCode_lt w32, boolCode_lt o, Scope.code_lt sc, relCode_lt rel, b.isLt, a.isLt, by decide, by decide, trivial⟩
  have hw : encodeNat (.ror a b rel sc o w32) = packBits [(2, 4), (boolCode w32, 1), (boolCode o, 1), (sc.code, 3), (relCode rel, 2), (b.toNat, 5), (a.toNat, 5), (0, 5), (20, 6)] := by
    change 1342177282 + a.toNat * 65536 + b.toNat * 2048 + relCode rel * 512 + sc.code * 64 + boolCode o * 32 + boolCode w32 * 16 = _
    simp only [packBits]
    generalize boolCode w32 = x0
    generalize boolCode o = x1
    generalize sc.code = x2
    generalize relCode rel = x3
    generalize b.toNat = x4
    generalize a.toNat = x5
    omega
  refine roundTrip_word (hw ▸ pack_lt hf) (fun ref hl hr hm => ?_)
  generalize encodeNat (.ror a b rel sc o w32) = wd at hw hm ⊢
  have f0 : fld wd 3 0 = 2 := hw ▸ fld_pack hf 0 rfl rfl (by decide)
  have f1 : fld wd 4 4 = boolCode w32 := hw ▸ fld_pack hf 1 rfl rfl (by decide)
  have f2 : fld wd 5 5 = boolCode o := hw ▸ fld_pack hf 2 rfl rfl (by decide)
  have f3 : fld wd 8 6 = sc.code := hw ▸ fld_pack hf 3 rfl rfl (by decide)
  have f4 : fld wd 10 9 = relCode rel := hw ▸ fld_pack hf 4 rfl rfl (by decide)
  have f5 : fld wd 15 11 = b.toNat := hw ▸ fld_pack hf 5 rfl rfl (by decide)
  have f6 : fld wd 20 16 = a.toNat := hw ▸ fld_pack hf 6 rfl rfl (by decide)
  have f7 : fld wd 25 21 = 0 := hw ▸ fld_pack hf 7 rfl rfl (by decide)
  have f8 : fld wd 31 26 = 20 := hw ▸ fld_pack hf 8 rfl rfl (by decide)
  have e1 : decodeForm ref wd = decode14 wd := by simp only [decodeForm, f8]
  rw [e1]
  simp only [decode14, f0, f1, f2, f3, f4, f5, f6, f7]
  simp [formOf, hl, hr]

/-- Table 4-10, major 0x14. -/
theorem RoundTrip.rxor (a : Reg5) (b : Reg5) (rel : Bool) (sc : Scope) (o : Bool) (w32 : Bool) : RoundTrip.Statement (.rxor a b rel sc o w32) := by
  have hf : fitBits [(3, 4), (boolCode w32, 1), (boolCode o, 1), (sc.code, 3), (relCode rel, 2), (b.toNat, 5), (a.toNat, 5), (0, 5), (20, 6)] := ⟨by decide, boolCode_lt w32, boolCode_lt o, Scope.code_lt sc, relCode_lt rel, b.isLt, a.isLt, by decide, by decide, trivial⟩
  have hw : encodeNat (.rxor a b rel sc o w32) = packBits [(3, 4), (boolCode w32, 1), (boolCode o, 1), (sc.code, 3), (relCode rel, 2), (b.toNat, 5), (a.toNat, 5), (0, 5), (20, 6)] := by
    change 1342177283 + a.toNat * 65536 + b.toNat * 2048 + relCode rel * 512 + sc.code * 64 + boolCode o * 32 + boolCode w32 * 16 = _
    simp only [packBits]
    generalize boolCode w32 = x0
    generalize boolCode o = x1
    generalize sc.code = x2
    generalize relCode rel = x3
    generalize b.toNat = x4
    generalize a.toNat = x5
    omega
  refine roundTrip_word (hw ▸ pack_lt hf) (fun ref hl hr hm => ?_)
  generalize encodeNat (.rxor a b rel sc o w32) = wd at hw hm ⊢
  have f0 : fld wd 3 0 = 3 := hw ▸ fld_pack hf 0 rfl rfl (by decide)
  have f1 : fld wd 4 4 = boolCode w32 := hw ▸ fld_pack hf 1 rfl rfl (by decide)
  have f2 : fld wd 5 5 = boolCode o := hw ▸ fld_pack hf 2 rfl rfl (by decide)
  have f3 : fld wd 8 6 = sc.code := hw ▸ fld_pack hf 3 rfl rfl (by decide)
  have f4 : fld wd 10 9 = relCode rel := hw ▸ fld_pack hf 4 rfl rfl (by decide)
  have f5 : fld wd 15 11 = b.toNat := hw ▸ fld_pack hf 5 rfl rfl (by decide)
  have f6 : fld wd 20 16 = a.toNat := hw ▸ fld_pack hf 6 rfl rfl (by decide)
  have f7 : fld wd 25 21 = 0 := hw ▸ fld_pack hf 7 rfl rfl (by decide)
  have f8 : fld wd 31 26 = 20 := hw ▸ fld_pack hf 8 rfl rfl (by decide)
  have e1 : decodeForm ref wd = decode14 wd := by simp only [decodeForm, f8]
  rw [e1]
  simp only [decode14, f0, f1, f2, f3, f4, f5, f6, f7]
  simp [formOf, hl, hr]

/-- Table 4-10, major 0x14. -/
theorem RoundTrip.rmin (a : Reg5) (b : Reg5) (rel : Bool) (sc : Scope) (o : Bool) (w32 : Bool) : RoundTrip.Statement (.rmin a b rel sc o w32) := by
  have hf : fitBits [(4, 4), (boolCode w32, 1), (boolCode o, 1), (sc.code, 3), (relCode rel, 2), (b.toNat, 5), (a.toNat, 5), (0, 5), (20, 6)] := ⟨by decide, boolCode_lt w32, boolCode_lt o, Scope.code_lt sc, relCode_lt rel, b.isLt, a.isLt, by decide, by decide, trivial⟩
  have hw : encodeNat (.rmin a b rel sc o w32) = packBits [(4, 4), (boolCode w32, 1), (boolCode o, 1), (sc.code, 3), (relCode rel, 2), (b.toNat, 5), (a.toNat, 5), (0, 5), (20, 6)] := by
    change 1342177284 + a.toNat * 65536 + b.toNat * 2048 + relCode rel * 512 + sc.code * 64 + boolCode o * 32 + boolCode w32 * 16 = _
    simp only [packBits]
    generalize boolCode w32 = x0
    generalize boolCode o = x1
    generalize sc.code = x2
    generalize relCode rel = x3
    generalize b.toNat = x4
    generalize a.toNat = x5
    omega
  refine roundTrip_word (hw ▸ pack_lt hf) (fun ref hl hr hm => ?_)
  generalize encodeNat (.rmin a b rel sc o w32) = wd at hw hm ⊢
  have f0 : fld wd 3 0 = 4 := hw ▸ fld_pack hf 0 rfl rfl (by decide)
  have f1 : fld wd 4 4 = boolCode w32 := hw ▸ fld_pack hf 1 rfl rfl (by decide)
  have f2 : fld wd 5 5 = boolCode o := hw ▸ fld_pack hf 2 rfl rfl (by decide)
  have f3 : fld wd 8 6 = sc.code := hw ▸ fld_pack hf 3 rfl rfl (by decide)
  have f4 : fld wd 10 9 = relCode rel := hw ▸ fld_pack hf 4 rfl rfl (by decide)
  have f5 : fld wd 15 11 = b.toNat := hw ▸ fld_pack hf 5 rfl rfl (by decide)
  have f6 : fld wd 20 16 = a.toNat := hw ▸ fld_pack hf 6 rfl rfl (by decide)
  have f7 : fld wd 25 21 = 0 := hw ▸ fld_pack hf 7 rfl rfl (by decide)
  have f8 : fld wd 31 26 = 20 := hw ▸ fld_pack hf 8 rfl rfl (by decide)
  have e1 : decodeForm ref wd = decode14 wd := by simp only [decodeForm, f8]
  rw [e1]
  simp only [decode14, f0, f1, f2, f3, f4, f5, f6, f7]
  simp [formOf, hl, hr]

/-- Table 4-10, major 0x14. -/
theorem RoundTrip.rmax (a : Reg5) (b : Reg5) (rel : Bool) (sc : Scope) (o : Bool) (w32 : Bool) : RoundTrip.Statement (.rmax a b rel sc o w32) := by
  have hf : fitBits [(5, 4), (boolCode w32, 1), (boolCode o, 1), (sc.code, 3), (relCode rel, 2), (b.toNat, 5), (a.toNat, 5), (0, 5), (20, 6)] := ⟨by decide, boolCode_lt w32, boolCode_lt o, Scope.code_lt sc, relCode_lt rel, b.isLt, a.isLt, by decide, by decide, trivial⟩
  have hw : encodeNat (.rmax a b rel sc o w32) = packBits [(5, 4), (boolCode w32, 1), (boolCode o, 1), (sc.code, 3), (relCode rel, 2), (b.toNat, 5), (a.toNat, 5), (0, 5), (20, 6)] := by
    change 1342177285 + a.toNat * 65536 + b.toNat * 2048 + relCode rel * 512 + sc.code * 64 + boolCode o * 32 + boolCode w32 * 16 = _
    simp only [packBits]
    generalize boolCode w32 = x0
    generalize boolCode o = x1
    generalize sc.code = x2
    generalize relCode rel = x3
    generalize b.toNat = x4
    generalize a.toNat = x5
    omega
  refine roundTrip_word (hw ▸ pack_lt hf) (fun ref hl hr hm => ?_)
  generalize encodeNat (.rmax a b rel sc o w32) = wd at hw hm ⊢
  have f0 : fld wd 3 0 = 5 := hw ▸ fld_pack hf 0 rfl rfl (by decide)
  have f1 : fld wd 4 4 = boolCode w32 := hw ▸ fld_pack hf 1 rfl rfl (by decide)
  have f2 : fld wd 5 5 = boolCode o := hw ▸ fld_pack hf 2 rfl rfl (by decide)
  have f3 : fld wd 8 6 = sc.code := hw ▸ fld_pack hf 3 rfl rfl (by decide)
  have f4 : fld wd 10 9 = relCode rel := hw ▸ fld_pack hf 4 rfl rfl (by decide)
  have f5 : fld wd 15 11 = b.toNat := hw ▸ fld_pack hf 5 rfl rfl (by decide)
  have f6 : fld wd 20 16 = a.toNat := hw ▸ fld_pack hf 6 rfl rfl (by decide)
  have f7 : fld wd 25 21 = 0 := hw ▸ fld_pack hf 7 rfl rfl (by decide)
  have f8 : fld wd 31 26 = 20 := hw ▸ fld_pack hf 8 rfl rfl (by decide)
  have e1 : decodeForm ref wd = decode14 wd := by simp only [decodeForm, f8]
  rw [e1]
  simp only [decode14, f0, f1, f2, f3, f4, f5, f6, f7]
  simp [formOf, hl, hr]

/-- Table 4-10, major 0x14. -/
theorem RoundTrip.rfadd (a : Reg5) (b : Reg5) (rel : Bool) (sc : Scope) (o : Bool) (w32 : Bool) : RoundTrip.Statement (.rfadd a b rel sc o w32) := by
  have hf : fitBits [(6, 4), (boolCode w32, 1), (boolCode o, 1), (sc.code, 3), (relCode rel, 2), (b.toNat, 5), (a.toNat, 5), (0, 5), (20, 6)] := ⟨by decide, boolCode_lt w32, boolCode_lt o, Scope.code_lt sc, relCode_lt rel, b.isLt, a.isLt, by decide, by decide, trivial⟩
  have hw : encodeNat (.rfadd a b rel sc o w32) = packBits [(6, 4), (boolCode w32, 1), (boolCode o, 1), (sc.code, 3), (relCode rel, 2), (b.toNat, 5), (a.toNat, 5), (0, 5), (20, 6)] := by
    change 1342177286 + a.toNat * 65536 + b.toNat * 2048 + relCode rel * 512 + sc.code * 64 + boolCode o * 32 + boolCode w32 * 16 = _
    simp only [packBits]
    generalize boolCode w32 = x0
    generalize boolCode o = x1
    generalize sc.code = x2
    generalize relCode rel = x3
    generalize b.toNat = x4
    generalize a.toNat = x5
    omega
  refine roundTrip_word (hw ▸ pack_lt hf) (fun ref hl hr hm => ?_)
  generalize encodeNat (.rfadd a b rel sc o w32) = wd at hw hm ⊢
  have f0 : fld wd 3 0 = 6 := hw ▸ fld_pack hf 0 rfl rfl (by decide)
  have f1 : fld wd 4 4 = boolCode w32 := hw ▸ fld_pack hf 1 rfl rfl (by decide)
  have f2 : fld wd 5 5 = boolCode o := hw ▸ fld_pack hf 2 rfl rfl (by decide)
  have f3 : fld wd 8 6 = sc.code := hw ▸ fld_pack hf 3 rfl rfl (by decide)
  have f4 : fld wd 10 9 = relCode rel := hw ▸ fld_pack hf 4 rfl rfl (by decide)
  have f5 : fld wd 15 11 = b.toNat := hw ▸ fld_pack hf 5 rfl rfl (by decide)
  have f6 : fld wd 20 16 = a.toNat := hw ▸ fld_pack hf 6 rfl rfl (by decide)
  have f7 : fld wd 25 21 = 0 := hw ▸ fld_pack hf 7 rfl rfl (by decide)
  have f8 : fld wd 31 26 = 20 := hw ▸ fld_pack hf 8 rfl rfl (by decide)
  have e1 : decodeForm ref wd = decode14 wd := by simp only [decodeForm, f8]
  rw [e1]
  simp only [decode14, f0, f1, f2, f3, f4, f5, f6, f7]
  simp [formOf, hl, hr]

/-- Table 4-10, major 0x15. -/
theorem RoundTrip.hjoin (d : Reg5) (a : Reg5) (t : Bool) (x : Bool) (h : BitVec 2) : RoundTrip.Statement (.hjoin d a t x h) := by
  have hf : fitBits [(0, 4), (h.toNat, 2), (boolCode x, 1), (boolCode t, 1), (0, 3), (0, 5), (a.toNat, 5), (d.toNat, 5), (21, 6)] := ⟨by decide, h.isLt, boolCode_lt x, boolCode_lt t, by decide, by decide, a.isLt, d.isLt, by decide, trivial⟩
  have hw : encodeNat (.hjoin d a t x h) = packBits [(0, 4), (h.toNat, 2), (boolCode x, 1), (boolCode t, 1), (0, 3), (0, 5), (a.toNat, 5), (d.toNat, 5), (21, 6)] := by
    change 1409286144 + d.toNat * 2097152 + a.toNat * 65536 + boolCode t * 128 + boolCode x * 64 + h.toNat * 16 = _
    simp only [packBits]
    generalize h.toNat = x0
    generalize boolCode x = x1
    generalize boolCode t = x2
    generalize a.toNat = x3
    generalize d.toNat = x4
    omega
  refine roundTrip_word (hw ▸ pack_lt hf) (fun ref hl hr hm => ?_)
  generalize encodeNat (.hjoin d a t x h) = wd at hw hm ⊢
  have f0 : fld wd 3 0 = 0 := hw ▸ fld_pack hf 0 rfl rfl (by decide)
  have f1 : fld wd 5 4 = h.toNat := hw ▸ fld_pack hf 1 rfl rfl (by decide)
  have f2 : fld wd 6 6 = boolCode x := hw ▸ fld_pack hf 2 rfl rfl (by decide)
  have f3 : fld wd 7 7 = boolCode t := hw ▸ fld_pack hf 3 rfl rfl (by decide)
  have f4 : fld wd 10 8 = 0 := hw ▸ fld_pack hf 4 rfl rfl (by decide)
  have f5 : fld wd 15 11 = 0 := hw ▸ fld_pack hf 5 rfl rfl (by decide)
  have f6 : fld wd 20 16 = a.toNat := hw ▸ fld_pack hf 6 rfl rfl (by decide)
  have f7 : fld wd 25 21 = d.toNat := hw ▸ fld_pack hf 7 rfl rfl (by decide)
  have f8 : fld wd 31 26 = 21 := hw ▸ fld_pack hf 8 rfl rfl (by decide)
  have e1 : decodeForm ref wd = decode15 wd := by simp only [decodeForm, f8]
  rw [e1]
  simp only [decode15, f0, f1, f2, f3, f4, f5, f6, f7]
  simp [formOf, hl, hr]

/-- Table 4-10, major 0x15. -/
theorem RoundTrip.hleave (h : BitVec 2) : RoundTrip.Statement (.hleave h) := by
  have hf : fitBits [(1, 4), (h.toNat, 2), (0, 2), (0, 3), (0, 5), (0, 5), (0, 5), (21, 6)] := ⟨by decide, h.isLt, by decide, by decide, by decide, by decide, by decide, by decide, trivial⟩
  have hw : encodeNat (.hleave h) = packBits [(1, 4), (h.toNat, 2), (0, 2), (0, 3), (0, 5), (0, 5), (0, 5), (21, 6)] := by
    change 1409286145 + h.toNat * 16 = _
    simp only [packBits]
    generalize h.toNat = x0
    omega
  refine roundTrip_word (hw ▸ pack_lt hf) (fun ref hl hr hm => ?_)
  generalize encodeNat (.hleave h) = wd at hw hm ⊢
  have f0 : fld wd 3 0 = 1 := hw ▸ fld_pack hf 0 rfl rfl (by decide)
  have f1 : fld wd 5 4 = h.toNat := hw ▸ fld_pack hf 1 rfl rfl (by decide)
  have f2 : fld wd 7 6 = 0 := hw ▸ fld_pack hf 2 rfl rfl (by decide)
  have f3 : fld wd 10 8 = 0 := hw ▸ fld_pack hf 3 rfl rfl (by decide)
  have f4 : fld wd 15 11 = 0 := hw ▸ fld_pack hf 4 rfl rfl (by decide)
  have f5 : fld wd 20 16 = 0 := hw ▸ fld_pack hf 5 rfl rfl (by decide)
  have f6 : fld wd 25 21 = 0 := hw ▸ fld_pack hf 6 rfl rfl (by decide)
  have f7 : fld wd 31 26 = 21 := hw ▸ fld_pack hf 7 rfl rfl (by decide)
  have e1 : decodeForm ref wd = decode15 wd := by simp only [decodeForm, f7]
  rw [e1]
  simp only [decode15, f0, f1, f2, f3, f4, f5, f6]
  simp [formOf, hl, hr]

/-- Table 4-10, major 0x15. -/
theorem RoundTrip.hbar (h : BitVec 2) : RoundTrip.Statement (.hbar h) := by
  have hf : fitBits [(2, 4), (h.toNat, 2), (0, 2), (0, 3), (0, 5), (0, 5), (0, 5), (21, 6)] := ⟨by decide, h.isLt, by decide, by decide, by decide, by decide, by decide, by decide, trivial⟩
  have hw : encodeNat (.hbar h) = packBits [(2, 4), (h.toNat, 2), (0, 2), (0, 3), (0, 5), (0, 5), (0, 5), (21, 6)] := by
    change 1409286146 + h.toNat * 16 = _
    simp only [packBits]
    generalize h.toNat = x0
    omega
  refine roundTrip_word (hw ▸ pack_lt hf) (fun ref hl hr hm => ?_)
  generalize encodeNat (.hbar h) = wd at hw hm ⊢
  have f0 : fld wd 3 0 = 2 := hw ▸ fld_pack hf 0 rfl rfl (by decide)
  have f1 : fld wd 5 4 = h.toNat := hw ▸ fld_pack hf 1 rfl rfl (by decide)
  have f2 : fld wd 7 6 = 0 := hw ▸ fld_pack hf 2 rfl rfl (by decide)
  have f3 : fld wd 10 8 = 0 := hw ▸ fld_pack hf 3 rfl rfl (by decide)
  have f4 : fld wd 15 11 = 0 := hw ▸ fld_pack hf 4 rfl rfl (by decide)
  have f5 : fld wd 20 16 = 0 := hw ▸ fld_pack hf 5 rfl rfl (by decide)
  have f6 : fld wd 25 21 = 0 := hw ▸ fld_pack hf 6 rfl rfl (by decide)
  have f7 : fld wd 31 26 = 21 := hw ▸ fld_pack hf 7 rfl rfl (by decide)
  have e1 : decodeForm ref wd = decode15 wd := by simp only [decodeForm, f7]
  rw [e1]
  simp only [decode15, f0, f1, f2, f3, f4, f5, f6]
  simp [formOf, hl, hr]

/-- Table 4-10, major 0x15. -/
theorem RoundTrip.harrv (h : BitVec 2) : RoundTrip.Statement (.harrv h) := by
  have hf : fitBits [(3, 4), (h.toNat, 2), (0, 2), (0, 3), (0, 5), (0, 5), (0, 5), (21, 6)] := ⟨by decide, h.isLt, by decide, by decide, by decide, by decide, by decide, by decide, trivial⟩
  have hw : encodeNat (.harrv h) = packBits [(3, 4), (h.toNat, 2), (0, 2), (0, 3), (0, 5), (0, 5), (0, 5), (21, 6)] := by
    change 1409286147 + h.toNat * 16 = _
    simp only [packBits]
    generalize h.toNat = x0
    omega
  refine roundTrip_word (hw ▸ pack_lt hf) (fun ref hl hr hm => ?_)
  generalize encodeNat (.harrv h) = wd at hw hm ⊢
  have f0 : fld wd 3 0 = 3 := hw ▸ fld_pack hf 0 rfl rfl (by decide)
  have f1 : fld wd 5 4 = h.toNat := hw ▸ fld_pack hf 1 rfl rfl (by decide)
  have f2 : fld wd 7 6 = 0 := hw ▸ fld_pack hf 2 rfl rfl (by decide)
  have f3 : fld wd 10 8 = 0 := hw ▸ fld_pack hf 3 rfl rfl (by decide)
  have f4 : fld wd 15 11 = 0 := hw ▸ fld_pack hf 4 rfl rfl (by decide)
  have f5 : fld wd 20 16 = 0 := hw ▸ fld_pack hf 5 rfl rfl (by decide)
  have f6 : fld wd 25 21 = 0 := hw ▸ fld_pack hf 6 rfl rfl (by decide)
  have f7 : fld wd 31 26 = 21 := hw ▸ fld_pack hf 7 rfl rfl (by decide)
  have e1 : decodeForm ref wd = decode15 wd := by simp only [decodeForm, f7]
  rw [e1]
  simp only [decode15, f0, f1, f2, f3, f4, f5, f6]
  simp [formOf, hl, hr]

/-- Table 4-10, major 0x15. -/
theorem RoundTrip.hwait (h : BitVec 2) : RoundTrip.Statement (.hwait h) := by
  have hf : fitBits [(4, 4), (h.toNat, 2), (0, 2), (0, 3), (0, 5), (0, 5), (0, 5), (21, 6)] := ⟨by decide, h.isLt, by decide, by decide, by decide, by decide, by decide, by decide, trivial⟩
  have hw : encodeNat (.hwait h) = packBits [(4, 4), (h.toNat, 2), (0, 2), (0, 3), (0, 5), (0, 5), (0, 5), (21, 6)] := by
    change 1409286148 + h.toNat * 16 = _
    simp only [packBits]
    generalize h.toNat = x0
    omega
  refine roundTrip_word (hw ▸ pack_lt hf) (fun ref hl hr hm => ?_)
  generalize encodeNat (.hwait h) = wd at hw hm ⊢
  have f0 : fld wd 3 0 = 4 := hw ▸ fld_pack hf 0 rfl rfl (by decide)
  have f1 : fld wd 5 4 = h.toNat := hw ▸ fld_pack hf 1 rfl rfl (by decide)
  have f2 : fld wd 7 6 = 0 := hw ▸ fld_pack hf 2 rfl rfl (by decide)
  have f3 : fld wd 10 8 = 0 := hw ▸ fld_pack hf 3 rfl rfl (by decide)
  have f4 : fld wd 15 11 = 0 := hw ▸ fld_pack hf 4 rfl rfl (by decide)
  have f5 : fld wd 20 16 = 0 := hw ▸ fld_pack hf 5 rfl rfl (by decide)
  have f6 : fld wd 25 21 = 0 := hw ▸ fld_pack hf 6 rfl rfl (by decide)
  have f7 : fld wd 31 26 = 21 := hw ▸ fld_pack hf 7 rfl rfl (by decide)
  have e1 : decodeForm ref wd = decode15 wd := by simp only [decodeForm, f7]
  rw [e1]
  simp only [decode15, f0, f1, f2, f3, f4, f5, f6]
  simp [formOf, hl, hr]

/-- Table 4-10, major 0x15. -/
theorem RoundTrip.hvote (d : Reg5) (a : Reg5) (sel : VoteSel) (h : BitVec 2) : RoundTrip.Statement (.hvote d a sel h) := by
  have hf : fitBits [(5, 4), (h.toNat, 2), (0, 2), (sel.code, 3), (0, 5), (a.toNat, 5), (d.toNat, 5), (21, 6)] := ⟨by decide, h.isLt, by decide, VoteSel.code_lt sel, by decide, a.isLt, d.isLt, by decide, trivial⟩
  have hw : encodeNat (.hvote d a sel h) = packBits [(5, 4), (h.toNat, 2), (0, 2), (sel.code, 3), (0, 5), (a.toNat, 5), (d.toNat, 5), (21, 6)] := by
    change 1409286149 + d.toNat * 2097152 + a.toNat * 65536 + sel.code * 256 + h.toNat * 16 = _
    simp only [packBits]
    generalize h.toNat = x0
    generalize sel.code = x1
    generalize a.toNat = x2
    generalize d.toNat = x3
    omega
  refine roundTrip_word (hw ▸ pack_lt hf) (fun ref hl hr hm => ?_)
  generalize encodeNat (.hvote d a sel h) = wd at hw hm ⊢
  have f0 : fld wd 3 0 = 5 := hw ▸ fld_pack hf 0 rfl rfl (by decide)
  have f1 : fld wd 5 4 = h.toNat := hw ▸ fld_pack hf 1 rfl rfl (by decide)
  have f2 : fld wd 7 6 = 0 := hw ▸ fld_pack hf 2 rfl rfl (by decide)
  have f3 : fld wd 10 8 = sel.code := hw ▸ fld_pack hf 3 rfl rfl (by decide)
  have f4 : fld wd 15 11 = 0 := hw ▸ fld_pack hf 4 rfl rfl (by decide)
  have f5 : fld wd 20 16 = a.toNat := hw ▸ fld_pack hf 5 rfl rfl (by decide)
  have f6 : fld wd 25 21 = d.toNat := hw ▸ fld_pack hf 6 rfl rfl (by decide)
  have f7 : fld wd 31 26 = 21 := hw ▸ fld_pack hf 7 rfl rfl (by decide)
  have e1 : decodeForm ref wd = decode15 wd := by simp only [decodeForm, f7]
  rw [e1]
  simp only [decode15, f0, f1, f2, f3, f4, f5, f6]
  simp [formOf, hl, hr]

/-- Table 4-10, major 0x15. -/
theorem RoundTrip.hred (d : Reg5) (a : Reg5) (sel : RedSel) (h : BitVec 2) : RoundTrip.Statement (.hred d a sel h) := by
  have hf : fitBits [(6, 4), (h.toNat, 2), (0, 2), (sel.code, 3), (0, 5), (a.toNat, 5), (d.toNat, 5), (21, 6)] := ⟨by decide, h.isLt, by decide, RedSel.code_lt sel, by decide, a.isLt, d.isLt, by decide, trivial⟩
  have hw : encodeNat (.hred d a sel h) = packBits [(6, 4), (h.toNat, 2), (0, 2), (sel.code, 3), (0, 5), (a.toNat, 5), (d.toNat, 5), (21, 6)] := by
    change 1409286150 + d.toNat * 2097152 + a.toNat * 65536 + sel.code * 256 + h.toNat * 16 = _
    simp only [packBits]
    generalize h.toNat = x0
    generalize sel.code = x1
    generalize a.toNat = x2
    generalize d.toNat = x3
    omega
  refine roundTrip_word (hw ▸ pack_lt hf) (fun ref hl hr hm => ?_)
  generalize encodeNat (.hred d a sel h) = wd at hw hm ⊢
  have f0 : fld wd 3 0 = 6 := hw ▸ fld_pack hf 0 rfl rfl (by decide)
  have f1 : fld wd 5 4 = h.toNat := hw ▸ fld_pack hf 1 rfl rfl (by decide)
  have f2 : fld wd 7 6 = 0 := hw ▸ fld_pack hf 2 rfl rfl (by decide)
  have f3 : fld wd 10 8 = sel.code := hw ▸ fld_pack hf 3 rfl rfl (by decide)
  have f4 : fld wd 15 11 = 0 := hw ▸ fld_pack hf 4 rfl rfl (by decide)
  have f5 : fld wd 20 16 = a.toNat := hw ▸ fld_pack hf 5 rfl rfl (by decide)
  have f6 : fld wd 25 21 = d.toNat := hw ▸ fld_pack hf 6 rfl rfl (by decide)
  have f7 : fld wd 31 26 = 21 := hw ▸ fld_pack hf 7 rfl rfl (by decide)
  have e1 : decodeForm ref wd = decode15 wd := by simp only [decodeForm, f7]
  rw [e1]
  simp only [decode15, f0, f1, f2, f3, f4, f5, f6]
  simp [formOf, hl, hr]

/-- Table 4-10, major 0x15. -/
theorem RoundTrip.hinfo (d : Reg5) (h : BitVec 2) : RoundTrip.Statement (.hinfo d h) := by
  have hf : fitBits [(7, 4), (h.toNat, 2), (0, 2), (0, 3), (0, 5), (0, 5), (d.toNat, 5), (21, 6)] := ⟨by decide, h.isLt, by decide, by decide, by decide, by decide, d.isLt, by decide, trivial⟩
  have hw : encodeNat (.hinfo d h) = packBits [(7, 4), (h.toNat, 2), (0, 2), (0, 3), (0, 5), (0, 5), (d.toNat, 5), (21, 6)] := by
    change 1409286151 + d.toNat * 2097152 + h.toNat * 16 = _
    simp only [packBits]
    generalize h.toNat = x0
    generalize d.toNat = x1
    omega
  refine roundTrip_word (hw ▸ pack_lt hf) (fun ref hl hr hm => ?_)
  generalize encodeNat (.hinfo d h) = wd at hw hm ⊢
  have f0 : fld wd 3 0 = 7 := hw ▸ fld_pack hf 0 rfl rfl (by decide)
  have f1 : fld wd 5 4 = h.toNat := hw ▸ fld_pack hf 1 rfl rfl (by decide)
  have f2 : fld wd 7 6 = 0 := hw ▸ fld_pack hf 2 rfl rfl (by decide)
  have f3 : fld wd 10 8 = 0 := hw ▸ fld_pack hf 3 rfl rfl (by decide)
  have f4 : fld wd 15 11 = 0 := hw ▸ fld_pack hf 4 rfl rfl (by decide)
  have f5 : fld wd 20 16 = 0 := hw ▸ fld_pack hf 5 rfl rfl (by decide)
  have f6 : fld wd 25 21 = d.toNat := hw ▸ fld_pack hf 6 rfl rfl (by decide)
  have f7 : fld wd 31 26 = 21 := hw ▸ fld_pack hf 7 rfl rfl (by decide)
  have e1 : decodeForm ref wd = decode15 wd := by simp only [decodeForm, f7]
  rw [e1]
  simp only [decode15, f0, f1, f2, f3, f4, f5, f6]
  simp [formOf, hl, hr]

/-- Table 4-10, major 0x16. -/
theorem RoundTrip.wpres (d : Reg5) (a : Reg5) : RoundTrip.Statement (.wpres d a) := by
  have hf : fitBits [(0, 11), (0, 5), (a.toNat, 5), (d.toNat, 5), (22, 6)] := ⟨by decide, by decide, a.isLt, d.isLt, by decide, trivial⟩
  have hw : encodeNat (.wpres d a) = packBits [(0, 11), (0, 5), (a.toNat, 5), (d.toNat, 5), (22, 6)] := by
    change 1476395008 + d.toNat * 2097152 + a.toNat * 65536 = _
    simp only [packBits]
    generalize a.toNat = x0
    generalize d.toNat = x1
    omega
  refine roundTrip_word (hw ▸ pack_lt hf) (fun ref hl hr hm => ?_)
  generalize encodeNat (.wpres d a) = wd at hw hm ⊢
  have f0 : fld wd 10 0 = 0 := hw ▸ fld_pack hf 0 rfl rfl (by decide)
  have f1 : fld wd 15 11 = 0 := hw ▸ fld_pack hf 1 rfl rfl (by decide)
  have f2 : fld wd 20 16 = a.toNat := hw ▸ fld_pack hf 2 rfl rfl (by decide)
  have f3 : fld wd 25 21 = d.toNat := hw ▸ fld_pack hf 3 rfl rfl (by decide)
  have f4 : fld wd 31 26 = 22 := hw ▸ fld_pack hf 4 rfl rfl (by decide)
  have e1 : decodeForm ref wd = decode16 wd := by simp only [decodeForm, f4]
  rw [e1]
  simp only [decode16, f0, f1, f2, f3]
  simp [formOf, hl, hr]

/-- Table 4-10, major 0x16. -/
theorem RoundTrip.wsplit (d : Reg5) (a : Reg5) (b : Reg5) : RoundTrip.Statement (.wsplit d a b) := by
  have hf : fitBits [(1, 11), (b.toNat, 5), (a.toNat, 5), (d.toNat, 5), (22, 6)] := ⟨by decide, b.isLt, a.isLt, d.isLt, by decide, trivial⟩
  have hw : encodeNat (.wsplit d a b) = packBits [(1, 11), (b.toNat, 5), (a.toNat, 5), (d.toNat, 5), (22, 6)] := by
    change 1476395009 + d.toNat * 2097152 + a.toNat * 65536 + b.toNat * 2048 = _
    simp only [packBits]
    generalize b.toNat = x0
    generalize a.toNat = x1
    generalize d.toNat = x2
    omega
  refine roundTrip_word (hw ▸ pack_lt hf) (fun ref hl hr hm => ?_)
  generalize encodeNat (.wsplit d a b) = wd at hw hm ⊢
  have f0 : fld wd 10 0 = 1 := hw ▸ fld_pack hf 0 rfl rfl (by decide)
  have f1 : fld wd 15 11 = b.toNat := hw ▸ fld_pack hf 1 rfl rfl (by decide)
  have f2 : fld wd 20 16 = a.toNat := hw ▸ fld_pack hf 2 rfl rfl (by decide)
  have f3 : fld wd 25 21 = d.toNat := hw ▸ fld_pack hf 3 rfl rfl (by decide)
  have f4 : fld wd 31 26 = 22 := hw ▸ fld_pack hf 4 rfl rfl (by decide)
  have e1 : decodeForm ref wd = decode16 wd := by simp only [decodeForm, f4]
  rw [e1]
  simp only [decode16, f0, f1, f2, f3]
  simp [formOf, hl, hr]

/-- Table 4-10, major 0x16. -/
theorem RoundTrip.wdeleg (d : Reg5) (a : Reg5) (b : Reg5) : RoundTrip.Statement (.wdeleg d a b) := by
  have hf : fitBits [(2, 11), (b.toNat, 5), (a.toNat, 5), (d.toNat, 5), (22, 6)] := ⟨by decide, b.isLt, a.isLt, d.isLt, by decide, trivial⟩
  have hw : encodeNat (.wdeleg d a b) = packBits [(2, 11), (b.toNat, 5), (a.toNat, 5), (d.toNat, 5), (22, 6)] := by
    change 1476395010 + d.toNat * 2097152 + a.toNat * 65536 + b.toNat * 2048 = _
    simp only [packBits]
    generalize b.toNat = x0
    generalize a.toNat = x1
    generalize d.toNat = x2
    omega
  refine roundTrip_word (hw ▸ pack_lt hf) (fun ref hl hr hm => ?_)
  generalize encodeNat (.wdeleg d a b) = wd at hw hm ⊢
  have f0 : fld wd 10 0 = 2 := hw ▸ fld_pack hf 0 rfl rfl (by decide)
  have f1 : fld wd 15 11 = b.toNat := hw ▸ fld_pack hf 1 rfl rfl (by decide)
  have f2 : fld wd 20 16 = a.toNat := hw ▸ fld_pack hf 2 rfl rfl (by decide)
  have f3 : fld wd 25 21 = d.toNat := hw ▸ fld_pack hf 3 rfl rfl (by decide)
  have f4 : fld wd 31 26 = 22 := hw ▸ fld_pack hf 4 rfl rfl (by decide)
  have e1 : decodeForm ref wd = decode16 wd := by simp only [decodeForm, f4]
  rw [e1]
  simp only [decode16, f0, f1, f2, f3]
  simp [formOf, hl, hr]

/-- Table 4-10, major 0x16. -/
theorem RoundTrip.wsurr (d : Reg5) (a : Reg5) : RoundTrip.Statement (.wsurr d a) := by
  have hf : fitBits [(3, 11), (0, 5), (a.toNat, 5), (d.toNat, 5), (22, 6)] := ⟨by decide, by decide, a.isLt, d.isLt, by decide, trivial⟩
  have hw : encodeNat (.wsurr d a) = packBits [(3, 11), (0, 5), (a.toNat, 5), (d.toNat, 5), (22, 6)] := by
    change 1476395011 + d.toNat * 2097152 + a.toNat * 65536 = _
    simp only [packBits]
    generalize a.toNat = x0
    generalize d.toNat = x1
    omega
  refine roundTrip_word (hw ▸ pack_lt hf) (fun ref hl hr hm => ?_)
  generalize encodeNat (.wsurr d a) = wd at hw hm ⊢
  have f0 : fld wd 10 0 = 3 := hw ▸ fld_pack hf 0 rfl rfl (by decide)
  have f1 : fld wd 15 11 = 0 := hw ▸ fld_pack hf 1 rfl rfl (by decide)
  have f2 : fld wd 20 16 = a.toNat := hw ▸ fld_pack hf 2 rfl rfl (by decide)
  have f3 : fld wd 25 21 = d.toNat := hw ▸ fld_pack hf 3 rfl rfl (by decide)
  have f4 : fld wd 31 26 = 22 := hw ▸ fld_pack hf 4 rfl rfl (by decide)
  have e1 : decodeForm ref wd = decode16 wd := by simp only [decodeForm, f4]
  rw [e1]
  simp only [decode16, f0, f1, f2, f3]
  simp [formOf, hl, hr]

/-- Table 4-10, major 0x16. -/
theorem RoundTrip.wreset (d : Reg5) (a : Reg5) : RoundTrip.Statement (.wreset d a) := by
  have hf : fitBits [(4, 11), (0, 5), (a.toNat, 5), (d.toNat, 5), (22, 6)] := ⟨by decide, by decide, a.isLt, d.isLt, by decide, trivial⟩
  have hw : encodeNat (.wreset d a) = packBits [(4, 11), (0, 5), (a.toNat, 5), (d.toNat, 5), (22, 6)] := by
    change 1476395012 + d.toNat * 2097152 + a.toNat * 65536 = _
    simp only [packBits]
    generalize a.toNat = x0
    generalize d.toNat = x1
    omega
  refine roundTrip_word (hw ▸ pack_lt hf) (fun ref hl hr hm => ?_)
  generalize encodeNat (.wreset d a) = wd at hw hm ⊢
  have f0 : fld wd 10 0 = 4 := hw ▸ fld_pack hf 0 rfl rfl (by decide)
  have f1 : fld wd 15 11 = 0 := hw ▸ fld_pack hf 1 rfl rfl (by decide)
  have f2 : fld wd 20 16 = a.toNat := hw ▸ fld_pack hf 2 rfl rfl (by decide)
  have f3 : fld wd 25 21 = d.toNat := hw ▸ fld_pack hf 3 rfl rfl (by decide)
  have f4 : fld wd 31 26 = 22 := hw ▸ fld_pack hf 4 rfl rfl (by decide)
  have e1 : decodeForm ref wd = decode16 wd := by simp only [decodeForm, f4]
  rw [e1]
  simp only [decode16, f0, f1, f2, f3]
  simp [formOf, hl, hr]

/-- Table 4-10, major 0x16. -/
theorem RoundTrip.wqry (d : Reg5) (a : Reg5) (b : Reg5) : RoundTrip.Statement (.wqry d a b) := by
  have hf : fitBits [(5, 11), (b.toNat, 5), (a.toNat, 5), (d.toNat, 5), (22, 6)] := ⟨by decide, b.isLt, a.isLt, d.isLt, by decide, trivial⟩
  have hw : encodeNat (.wqry d a b) = packBits [(5, 11), (b.toNat, 5), (a.toNat, 5), (d.toNat, 5), (22, 6)] := by
    change 1476395013 + d.toNat * 2097152 + a.toNat * 65536 + b.toNat * 2048 = _
    simp only [packBits]
    generalize b.toNat = x0
    generalize a.toNat = x1
    generalize d.toNat = x2
    omega
  refine roundTrip_word (hw ▸ pack_lt hf) (fun ref hl hr hm => ?_)
  generalize encodeNat (.wqry d a b) = wd at hw hm ⊢
  have f0 : fld wd 10 0 = 5 := hw ▸ fld_pack hf 0 rfl rfl (by decide)
  have f1 : fld wd 15 11 = b.toNat := hw ▸ fld_pack hf 1 rfl rfl (by decide)
  have f2 : fld wd 20 16 = a.toNat := hw ▸ fld_pack hf 2 rfl rfl (by decide)
  have f3 : fld wd 25 21 = d.toNat := hw ▸ fld_pack hf 3 rfl rfl (by decide)
  have f4 : fld wd 31 26 = 22 := hw ▸ fld_pack hf 4 rfl rfl (by decide)
  have e1 : decodeForm ref wd = decode16 wd := by simp only [decodeForm, f4]
  rw [e1]
  simp only [decode16, f0, f1, f2, f3]
  simp [formOf, hl, hr]

/-- Table 4-10, major 0x17. -/
theorem RoundTrip.cpy (d : Reg5) (a : Reg5) (b : Reg5) (ch : BitVec 3) : RoundTrip.Statement (.cpy d a b ch) := by
  have hf : fitBits [(0, 5), (ch.toNat, 3), (0, 3), (b.toNat, 5), (a.toNat, 5), (d.toNat, 5), (23, 6)] := ⟨by decide, ch.isLt, by decide, b.isLt, a.isLt, d.isLt, by decide, trivial⟩
  have hw : encodeNat (.cpy d a b ch) = packBits [(0, 5), (ch.toNat, 3), (0, 3), (b.toNat, 5), (a.toNat, 5), (d.toNat, 5), (23, 6)] := by
    change 1543503872 + d.toNat * 2097152 + a.toNat * 65536 + b.toNat * 2048 + ch.toNat * 32 = _
    simp only [packBits]
    generalize ch.toNat = x0
    generalize b.toNat = x1
    generalize a.toNat = x2
    generalize d.toNat = x3
    omega
  refine roundTrip_word (hw ▸ pack_lt hf) (fun ref hl hr hm => ?_)
  generalize encodeNat (.cpy d a b ch) = wd at hw hm ⊢
  have f0 : fld wd 4 0 = 0 := hw ▸ fld_pack hf 0 rfl rfl (by decide)
  have f1 : fld wd 7 5 = ch.toNat := hw ▸ fld_pack hf 1 rfl rfl (by decide)
  have f2 : fld wd 10 8 = 0 := hw ▸ fld_pack hf 2 rfl rfl (by decide)
  have f3 : fld wd 15 11 = b.toNat := hw ▸ fld_pack hf 3 rfl rfl (by decide)
  have f4 : fld wd 20 16 = a.toNat := hw ▸ fld_pack hf 4 rfl rfl (by decide)
  have f5 : fld wd 25 21 = d.toNat := hw ▸ fld_pack hf 5 rfl rfl (by decide)
  have f6 : fld wd 31 26 = 23 := hw ▸ fld_pack hf 6 rfl rfl (by decide)
  have e1 : decodeForm ref wd = decode17 wd := by simp only [decodeForm, f6]
  rw [e1]
  simp only [decode17, f0, f1, f2, f3, f4, f5]
  simp [formOf, hl, hr]

/-- Table 4-10, major 0x17. -/
theorem RoundTrip.cpys (d : Reg5) (a : Reg5) (b : Reg5) (ch : BitVec 3) : RoundTrip.Statement (.cpys d a b ch) := by
  have hf : fitBits [(1, 5), (ch.toNat, 3), (0, 3), (b.toNat, 5), (a.toNat, 5), (d.toNat, 5), (23, 6)] := ⟨by decide, ch.isLt, by decide, b.isLt, a.isLt, d.isLt, by decide, trivial⟩
  have hw : encodeNat (.cpys d a b ch) = packBits [(1, 5), (ch.toNat, 3), (0, 3), (b.toNat, 5), (a.toNat, 5), (d.toNat, 5), (23, 6)] := by
    change 1543503873 + d.toNat * 2097152 + a.toNat * 65536 + b.toNat * 2048 + ch.toNat * 32 = _
    simp only [packBits]
    generalize ch.toNat = x0
    generalize b.toNat = x1
    generalize a.toNat = x2
    generalize d.toNat = x3
    omega
  refine roundTrip_word (hw ▸ pack_lt hf) (fun ref hl hr hm => ?_)
  generalize encodeNat (.cpys d a b ch) = wd at hw hm ⊢
  have f0 : fld wd 4 0 = 1 := hw ▸ fld_pack hf 0 rfl rfl (by decide)
  have f1 : fld wd 7 5 = ch.toNat := hw ▸ fld_pack hf 1 rfl rfl (by decide)
  have f2 : fld wd 10 8 = 0 := hw ▸ fld_pack hf 2 rfl rfl (by decide)
  have f3 : fld wd 15 11 = b.toNat := hw ▸ fld_pack hf 3 rfl rfl (by decide)
  have f4 : fld wd 20 16 = a.toNat := hw ▸ fld_pack hf 4 rfl rfl (by decide)
  have f5 : fld wd 25 21 = d.toNat := hw ▸ fld_pack hf 5 rfl rfl (by decide)
  have f6 : fld wd 31 26 = 23 := hw ▸ fld_pack hf 6 rfl rfl (by decide)
  have e1 : decodeForm ref wd = decode17 wd := by simp only [decodeForm, f6]
  rw [e1]
  simp only [decode17, f0, f1, f2, f3, f4, f5]
  simp [formOf, hl, hr]

/-- Table 4-10, major 0x17. -/
theorem RoundTrip.cpwait (a : Reg5) (ch : BitVec 3) : RoundTrip.Statement (.cpwait a ch) := by
  have hf : fitBits [(2, 5), (ch.toNat, 3), (0, 3), (0, 5), (a.toNat, 5), (0, 5), (23, 6)] := ⟨by decide, ch.isLt, by decide, by decide, a.isLt, by decide, by decide, trivial⟩
  have hw : encodeNat (.cpwait a ch) = packBits [(2, 5), (ch.toNat, 3), (0, 3), (0, 5), (a.toNat, 5), (0, 5), (23, 6)] := by
    change 1543503874 + a.toNat * 65536 + ch.toNat * 32 = _
    simp only [packBits]
    generalize ch.toNat = x0
    generalize a.toNat = x1
    omega
  refine roundTrip_word (hw ▸ pack_lt hf) (fun ref hl hr hm => ?_)
  generalize encodeNat (.cpwait a ch) = wd at hw hm ⊢
  have f0 : fld wd 4 0 = 2 := hw ▸ fld_pack hf 0 rfl rfl (by decide)
  have f1 : fld wd 7 5 = ch.toNat := hw ▸ fld_pack hf 1 rfl rfl (by decide)
  have f2 : fld wd 10 8 = 0 := hw ▸ fld_pack hf 2 rfl rfl (by decide)
  have f3 : fld wd 15 11 = 0 := hw ▸ fld_pack hf 3 rfl rfl (by decide)
  have f4 : fld wd 20 16 = a.toNat := hw ▸ fld_pack hf 4 rfl rfl (by decide)
  have f5 : fld wd 25 21 = 0 := hw ▸ fld_pack hf 5 rfl rfl (by decide)
  have f6 : fld wd 31 26 = 23 := hw ▸ fld_pack hf 6 rfl rfl (by decide)
  have e1 : decodeForm ref wd = decode17 wd := by simp only [decodeForm, f6]
  rw [e1]
  simp only [decode17, f0, f1, f2, f3, f4, f5]
  simp [formOf, hl, hr]

/-- Table 4-10, major 0x17. -/
theorem RoundTrip.chwm (a : Reg5) (b : Reg5) (ch : BitVec 3) : RoundTrip.Statement (.chwm a b ch) := by
  have hf : fitBits [(3, 5), (ch.toNat, 3), (0, 3), (b.toNat, 5), (a.toNat, 5), (0, 5), (23, 6)] := ⟨by decide, ch.isLt, by decide, b.isLt, a.isLt, by decide, by decide, trivial⟩
  have hw : encodeNat (.chwm a b ch) = packBits [(3, 5), (ch.toNat, 3), (0, 3), (b.toNat, 5), (a.toNat, 5), (0, 5), (23, 6)] := by
    change 1543503875 + a.toNat * 65536 + b.toNat * 2048 + ch.toNat * 32 = _
    simp only [packBits]
    generalize ch.toNat = x0
    generalize b.toNat = x1
    generalize a.toNat = x2
    omega
  refine roundTrip_word (hw ▸ pack_lt hf) (fun ref hl hr hm => ?_)
  generalize encodeNat (.chwm a b ch) = wd at hw hm ⊢
  have f0 : fld wd 4 0 = 3 := hw ▸ fld_pack hf 0 rfl rfl (by decide)
  have f1 : fld wd 7 5 = ch.toNat := hw ▸ fld_pack hf 1 rfl rfl (by decide)
  have f2 : fld wd 10 8 = 0 := hw ▸ fld_pack hf 2 rfl rfl (by decide)
  have f3 : fld wd 15 11 = b.toNat := hw ▸ fld_pack hf 3 rfl rfl (by decide)
  have f4 : fld wd 20 16 = a.toNat := hw ▸ fld_pack hf 4 rfl rfl (by decide)
  have f5 : fld wd 25 21 = 0 := hw ▸ fld_pack hf 5 rfl rfl (by decide)
  have f6 : fld wd 31 26 = 23 := hw ▸ fld_pack hf 6 rfl rfl (by decide)
  have e1 : decodeForm ref wd = decode17 wd := by simp only [decodeForm, f6]
  rw [e1]
  simp only [decode17, f0, f1, f2, f3, f4, f5]
  simp [formOf, hl, hr]

/-- Table 4-10, major 0x17. -/
theorem RoundTrip.halo (a : Reg5) (b : Reg5) : RoundTrip.Statement (.halo a b) := by
  have hf : fitBits [(4, 5), (0, 6), (b.toNat, 5), (a.toNat, 5), (0, 5), (23, 6)] := ⟨by decide, by decide, b.isLt, a.isLt, by decide, by decide, trivial⟩
  have hw : encodeNat (.halo a b) = packBits [(4, 5), (0, 6), (b.toNat, 5), (a.toNat, 5), (0, 5), (23, 6)] := by
    change 1543503876 + a.toNat * 65536 + b.toNat * 2048 = _
    simp only [packBits]
    generalize b.toNat = x0
    generalize a.toNat = x1
    omega
  refine roundTrip_word (hw ▸ pack_lt hf) (fun ref hl hr hm => ?_)
  generalize encodeNat (.halo a b) = wd at hw hm ⊢
  have f0 : fld wd 4 0 = 4 := hw ▸ fld_pack hf 0 rfl rfl (by decide)
  have f1 : fld wd 10 5 = 0 := hw ▸ fld_pack hf 1 rfl rfl (by decide)
  have f2 : fld wd 15 11 = b.toNat := hw ▸ fld_pack hf 2 rfl rfl (by decide)
  have f3 : fld wd 20 16 = a.toNat := hw ▸ fld_pack hf 3 rfl rfl (by decide)
  have f4 : fld wd 25 21 = 0 := hw ▸ fld_pack hf 4 rfl rfl (by decide)
  have f5 : fld wd 31 26 = 23 := hw ▸ fld_pack hf 5 rfl rfl (by decide)
  have e1 : decodeForm ref wd = decode17 wd := by simp only [decodeForm, f5]
  rw [e1]
  simp only [decode17, f0, f1, f2, f3, f4]
  simp [formOf, hl, hr]

/-- Table 4-10, major 0x17. -/
theorem RoundTrip.halowait (a : Reg5) (b : Reg5) : RoundTrip.Statement (.halowait a b) := by
  have hf : fitBits [(5, 5), (0, 6), (b.toNat, 5), (a.toNat, 5), (0, 5), (23, 6)] := ⟨by decide, by decide, b.isLt, a.isLt, by decide, by decide, trivial⟩
  have hw : encodeNat (.halowait a b) = packBits [(5, 5), (0, 6), (b.toNat, 5), (a.toNat, 5), (0, 5), (23, 6)] := by
    change 1543503877 + a.toNat * 65536 + b.toNat * 2048 = _
    simp only [packBits]
    generalize b.toNat = x0
    generalize a.toNat = x1
    omega
  refine roundTrip_word (hw ▸ pack_lt hf) (fun ref hl hr hm => ?_)
  generalize encodeNat (.halowait a b) = wd at hw hm ⊢
  have f0 : fld wd 4 0 = 5 := hw ▸ fld_pack hf 0 rfl rfl (by decide)
  have f1 : fld wd 10 5 = 0 := hw ▸ fld_pack hf 1 rfl rfl (by decide)
  have f2 : fld wd 15 11 = b.toNat := hw ▸ fld_pack hf 2 rfl rfl (by decide)
  have f3 : fld wd 20 16 = a.toNat := hw ▸ fld_pack hf 3 rfl rfl (by decide)
  have f4 : fld wd 25 21 = 0 := hw ▸ fld_pack hf 4 rfl rfl (by decide)
  have f5 : fld wd 31 26 = 23 := hw ▸ fld_pack hf 5 rfl rfl (by decide)
  have e1 : decodeForm ref wd = decode17 wd := by simp only [decodeForm, f5]
  rw [e1]
  simp only [decode17, f0, f1, f2, f3, f4]
  simp [formOf, hl, hr]

/-- Table 4-10, major 0x17. -/
theorem RoundTrip.mcast (d : Reg5) (a : Reg5) (b : Reg5) : RoundTrip.Statement (.mcast d a b) := by
  have hf : fitBits [(6, 5), (0, 6), (b.toNat, 5), (a.toNat, 5), (d.toNat, 5), (23, 6)] := ⟨by decide, by decide, b.isLt, a.isLt, d.isLt, by decide, trivial⟩
  have hw : encodeNat (.mcast d a b) = packBits [(6, 5), (0, 6), (b.toNat, 5), (a.toNat, 5), (d.toNat, 5), (23, 6)] := by
    change 1543503878 + d.toNat * 2097152 + a.toNat * 65536 + b.toNat * 2048 = _
    simp only [packBits]
    generalize b.toNat = x0
    generalize a.toNat = x1
    generalize d.toNat = x2
    omega
  refine roundTrip_word (hw ▸ pack_lt hf) (fun ref hl hr hm => ?_)
  generalize encodeNat (.mcast d a b) = wd at hw hm ⊢
  have f0 : fld wd 4 0 = 6 := hw ▸ fld_pack hf 0 rfl rfl (by decide)
  have f1 : fld wd 10 5 = 0 := hw ▸ fld_pack hf 1 rfl rfl (by decide)
  have f2 : fld wd 15 11 = b.toNat := hw ▸ fld_pack hf 2 rfl rfl (by decide)
  have f3 : fld wd 20 16 = a.toNat := hw ▸ fld_pack hf 3 rfl rfl (by decide)
  have f4 : fld wd 25 21 = d.toNat := hw ▸ fld_pack hf 4 rfl rfl (by decide)
  have f5 : fld wd 31 26 = 23 := hw ▸ fld_pack hf 5 rfl rfl (by decide)
  have e1 : decodeForm ref wd = decode17 wd := by simp only [decodeForm, f5]
  rw [e1]
  simp only [decode17, f0, f1, f2, f3, f4]
  simp [formOf, hl, hr]

/-- Table 4-10, major 0x17. -/
theorem RoundTrip.gath (d : Reg5) (a : Reg5) (b : Reg5) (ch : BitVec 3) : RoundTrip.Statement (.gath d a b ch) := by
  have hf : fitBits [(7, 5), (ch.toNat, 3), (0, 3), (b.toNat, 5), (a.toNat, 5), (d.toNat, 5), (23, 6)] := ⟨by decide, ch.isLt, by decide, b.isLt, a.isLt, d.isLt, by decide, trivial⟩
  have hw : encodeNat (.gath d a b ch) = packBits [(7, 5), (ch.toNat, 3), (0, 3), (b.toNat, 5), (a.toNat, 5), (d.toNat, 5), (23, 6)] := by
    change 1543503879 + d.toNat * 2097152 + a.toNat * 65536 + b.toNat * 2048 + ch.toNat * 32 = _
    simp only [packBits]
    generalize ch.toNat = x0
    generalize b.toNat = x1
    generalize a.toNat = x2
    generalize d.toNat = x3
    omega
  refine roundTrip_word (hw ▸ pack_lt hf) (fun ref hl hr hm => ?_)
  generalize encodeNat (.gath d a b ch) = wd at hw hm ⊢
  have f0 : fld wd 4 0 = 7 := hw ▸ fld_pack hf 0 rfl rfl (by decide)
  have f1 : fld wd 7 5 = ch.toNat := hw ▸ fld_pack hf 1 rfl rfl (by decide)
  have f2 : fld wd 10 8 = 0 := hw ▸ fld_pack hf 2 rfl rfl (by decide)
  have f3 : fld wd 15 11 = b.toNat := hw ▸ fld_pack hf 3 rfl rfl (by decide)
  have f4 : fld wd 20 16 = a.toNat := hw ▸ fld_pack hf 4 rfl rfl (by decide)
  have f5 : fld wd 25 21 = d.toNat := hw ▸ fld_pack hf 5 rfl rfl (by decide)
  have f6 : fld wd 31 26 = 23 := hw ▸ fld_pack hf 6 rfl rfl (by decide)
  have e1 : decodeForm ref wd = decode17 wd := by simp only [decodeForm, f6]
  rw [e1]
  simp only [decode17, f0, f1, f2, f3, f4, f5]
  simp [formOf, hl, hr]

/-- Table 4-10, major 0x17. -/
theorem RoundTrip.coll (d : Reg5) (a : Reg5) (b : Reg5) (ty : CType) (sel : CollSel) : RoundTrip.Statement (.coll d a b ty sel) := by
  have hf : fitBits [(8, 5), (sel.code, 2), (0, 1), (ty.code, 3), (b.toNat, 5), (a.toNat, 5), (d.toNat, 5), (23, 6)] := ⟨by decide, CollSel.code_lt sel, by decide, CType.code_lt ty, b.isLt, a.isLt, d.isLt, by decide, trivial⟩
  have hw : encodeNat (.coll d a b ty sel) = packBits [(8, 5), (sel.code, 2), (0, 1), (ty.code, 3), (b.toNat, 5), (a.toNat, 5), (d.toNat, 5), (23, 6)] := by
    change 1543503880 + d.toNat * 2097152 + a.toNat * 65536 + b.toNat * 2048 + ty.code * 256 + sel.code * 32 = _
    simp only [packBits]
    generalize sel.code = x0
    generalize ty.code = x1
    generalize b.toNat = x2
    generalize a.toNat = x3
    generalize d.toNat = x4
    omega
  refine roundTrip_word (hw ▸ pack_lt hf) (fun ref hl hr hm => ?_)
  generalize encodeNat (.coll d a b ty sel) = wd at hw hm ⊢
  have f0 : fld wd 4 0 = 8 := hw ▸ fld_pack hf 0 rfl rfl (by decide)
  have f1 : fld wd 6 5 = sel.code := hw ▸ fld_pack hf 1 rfl rfl (by decide)
  have f2 : fld wd 7 7 = 0 := hw ▸ fld_pack hf 2 rfl rfl (by decide)
  have f3 : fld wd 10 8 = ty.code := hw ▸ fld_pack hf 3 rfl rfl (by decide)
  have f4 : fld wd 15 11 = b.toNat := hw ▸ fld_pack hf 4 rfl rfl (by decide)
  have f5 : fld wd 20 16 = a.toNat := hw ▸ fld_pack hf 5 rfl rfl (by decide)
  have f6 : fld wd 25 21 = d.toNat := hw ▸ fld_pack hf 6 rfl rfl (by decide)
  have f7 : fld wd 31 26 = 23 := hw ▸ fld_pack hf 7 rfl rfl (by decide)
  have e1 : decodeForm ref wd = decode17 wd := by simp only [decodeForm, f7]
  rw [e1]
  simp only [decode17, f0, f1, f2, f3, f4, f5, f6]
  simp [formOf, hl, hr]

/-- Table 4-10, major 0x17. -/
theorem RoundTrip.qstat (d : Reg5) : RoundTrip.Statement (.qstat d) := by
  have hf : fitBits [(9, 5), (0, 6), (0, 5), (0, 5), (d.toNat, 5), (23, 6)] := ⟨by decide, by decide, by decide, by decide, d.isLt, by decide, trivial⟩
  have hw : encodeNat (.qstat d) = packBits [(9, 5), (0, 6), (0, 5), (0, 5), (d.toNat, 5), (23, 6)] := by
    change 1543503881 + d.toNat * 2097152 = _
    simp only [packBits]
    generalize d.toNat = x0
    omega
  refine roundTrip_word (hw ▸ pack_lt hf) (fun ref hl hr hm => ?_)
  generalize encodeNat (.qstat d) = wd at hw hm ⊢
  have f0 : fld wd 4 0 = 9 := hw ▸ fld_pack hf 0 rfl rfl (by decide)
  have f1 : fld wd 10 5 = 0 := hw ▸ fld_pack hf 1 rfl rfl (by decide)
  have f2 : fld wd 15 11 = 0 := hw ▸ fld_pack hf 2 rfl rfl (by decide)
  have f3 : fld wd 20 16 = 0 := hw ▸ fld_pack hf 3 rfl rfl (by decide)
  have f4 : fld wd 25 21 = d.toNat := hw ▸ fld_pack hf 4 rfl rfl (by decide)
  have f5 : fld wd 31 26 = 23 := hw ▸ fld_pack hf 5 rfl rfl (by decide)
  have e1 : decodeForm ref wd = decode17 wd := by simp only [decodeForm, f5]
  rw [e1]
  simp only [decode17, f0, f1, f2, f3, f4]
  simp [formOf, hl, hr]

/-- Table 4-10, major 0x17. -/
theorem RoundTrip.mxop (a : Reg5) (ty : MType) (sp : Bool) : RoundTrip.Statement (.mxop a ty sp) := by
  have hf : fitBits [(10, 5), (boolCode sp, 1), (0, 2), (ty.code, 3), (0, 5), (a.toNat, 5), (0, 5), (23, 6)] := ⟨by decide, boolCode_lt sp, by decide, MType.code_lt ty, by decide, a.isLt, by decide, by decide, trivial⟩
  have hw : encodeNat (.mxop a ty sp) = packBits [(10, 5), (boolCode sp, 1), (0, 2), (ty.code, 3), (0, 5), (a.toNat, 5), (0, 5), (23, 6)] := by
    change 1543503882 + a.toNat * 65536 + ty.code * 256 + boolCode sp * 32 = _
    simp only [packBits]
    generalize boolCode sp = x0
    generalize ty.code = x1
    generalize a.toNat = x2
    omega
  refine roundTrip_word (hw ▸ pack_lt hf) (fun ref hl hr hm => ?_)
  generalize encodeNat (.mxop a ty sp) = wd at hw hm ⊢
  have f0 : fld wd 4 0 = 10 := hw ▸ fld_pack hf 0 rfl rfl (by decide)
  have f1 : fld wd 5 5 = boolCode sp := hw ▸ fld_pack hf 1 rfl rfl (by decide)
  have f2 : fld wd 7 6 = 0 := hw ▸ fld_pack hf 2 rfl rfl (by decide)
  have f3 : fld wd 10 8 = ty.code := hw ▸ fld_pack hf 3 rfl rfl (by decide)
  have f4 : fld wd 15 11 = 0 := hw ▸ fld_pack hf 4 rfl rfl (by decide)
  have f5 : fld wd 20 16 = a.toNat := hw ▸ fld_pack hf 5 rfl rfl (by decide)
  have f6 : fld wd 25 21 = 0 := hw ▸ fld_pack hf 6 rfl rfl (by decide)
  have f7 : fld wd 31 26 = 23 := hw ▸ fld_pack hf 7 rfl rfl (by decide)
  have e1 : decodeForm ref wd = decode17 wd := by simp only [decodeForm, f7]
  rw [e1]
  simp only [decode17, f0, f1, f2, f3, f4, f5, f6]
  simp [formOf, hl, hr]

/-- Table 4-10, major 0x17. -/
theorem RoundTrip.mxzero (a : Reg5) : RoundTrip.Statement (.mxzero a) := by
  have hf : fitBits [(11, 5), (0, 6), (0, 5), (a.toNat, 5), (0, 5), (23, 6)] := ⟨by decide, by decide, by decide, a.isLt, by decide, by decide, trivial⟩
  have hw : encodeNat (.mxzero a) = packBits [(11, 5), (0, 6), (0, 5), (a.toNat, 5), (0, 5), (23, 6)] := by
    change 1543503883 + a.toNat * 65536 = _
    simp only [packBits]
    generalize a.toNat = x0
    omega
  refine roundTrip_word (hw ▸ pack_lt hf) (fun ref hl hr hm => ?_)
  generalize encodeNat (.mxzero a) = wd at hw hm ⊢
  have f0 : fld wd 4 0 = 11 := hw ▸ fld_pack hf 0 rfl rfl (by decide)
  have f1 : fld wd 10 5 = 0 := hw ▸ fld_pack hf 1 rfl rfl (by decide)
  have f2 : fld wd 15 11 = 0 := hw ▸ fld_pack hf 2 rfl rfl (by decide)
  have f3 : fld wd 20 16 = a.toNat := hw ▸ fld_pack hf 3 rfl rfl (by decide)
  have f4 : fld wd 25 21 = 0 := hw ▸ fld_pack hf 4 rfl rfl (by decide)
  have f5 : fld wd 31 26 = 23 := hw ▸ fld_pack hf 5 rfl rfl (by decide)
  have e1 : decodeForm ref wd = decode17 wd := by simp only [decodeForm, f5]
  rw [e1]
  simp only [decode17, f0, f1, f2, f3, f4]
  simp [formOf, hl, hr]

/-- Table 4-10, major 0x17. -/
theorem RoundTrip.mxst (a : Reg5) (ty : MType) (sat : Bool) : RoundTrip.Statement (.mxst a ty sat) := by
  have hf : fitBits [(12, 5), (0, 1), (boolCode sat, 1), (0, 1), (ty.code, 3), (0, 5), (a.toNat, 5), (0, 5), (23, 6)] := ⟨by decide, by decide, boolCode_lt sat, by decide, MType.code_lt ty, by decide, a.isLt, by decide, by decide, trivial⟩
  have hw : encodeNat (.mxst a ty sat) = packBits [(12, 5), (0, 1), (boolCode sat, 1), (0, 1), (ty.code, 3), (0, 5), (a.toNat, 5), (0, 5), (23, 6)] := by
    change 1543503884 + a.toNat * 65536 + ty.code * 256 + boolCode sat * 64 = _
    simp only [packBits]
    generalize boolCode sat = x0
    generalize ty.code = x1
    generalize a.toNat = x2
    omega
  refine roundTrip_word (hw ▸ pack_lt hf) (fun ref hl hr hm => ?_)
  generalize encodeNat (.mxst a ty sat) = wd at hw hm ⊢
  have f0 : fld wd 4 0 = 12 := hw ▸ fld_pack hf 0 rfl rfl (by decide)
  have f1 : fld wd 5 5 = 0 := hw ▸ fld_pack hf 1 rfl rfl (by decide)
  have f2 : fld wd 6 6 = boolCode sat := hw ▸ fld_pack hf 2 rfl rfl (by decide)
  have f3 : fld wd 7 7 = 0 := hw ▸ fld_pack hf 3 rfl rfl (by decide)
  have f4 : fld wd 10 8 = ty.code := hw ▸ fld_pack hf 4 rfl rfl (by decide)
  have f5 : fld wd 15 11 = 0 := hw ▸ fld_pack hf 5 rfl rfl (by decide)
  have f6 : fld wd 20 16 = a.toNat := hw ▸ fld_pack hf 6 rfl rfl (by decide)
  have f7 : fld wd 25 21 = 0 := hw ▸ fld_pack hf 7 rfl rfl (by decide)
  have f8 : fld wd 31 26 = 23 := hw ▸ fld_pack hf 8 rfl rfl (by decide)
  have e1 : decodeForm ref wd = decode17 wd := by simp only [decodeForm, f8]
  rw [e1]
  simp only [decode17, f0, f1, f2, f3, f4, f5, f6, f7]
  simp [formOf, hl, hr]

/-- Table 4-10, major 0x17. -/
theorem RoundTrip.mxld (a : Reg5) : RoundTrip.Statement (.mxld a) := by
  have hf : fitBits [(13, 5), (0, 6), (0, 5), (a.toNat, 5), (0, 5), (23, 6)] := ⟨by decide, by decide, by decide, a.isLt, by decide, by decide, trivial⟩
  have hw : encodeNat (.mxld a) = packBits [(13, 5), (0, 6), (0, 5), (a.toNat, 5), (0, 5), (23, 6)] := by
    change 1543503885 + a.toNat * 65536 = _
    simp only [packBits]
    generalize a.toNat = x0
    omega
  refine roundTrip_word (hw ▸ pack_lt hf) (fun ref hl hr hm => ?_)
  generalize encodeNat (.mxld a) = wd at hw hm ⊢
  have f0 : fld wd 4 0 = 13 := hw ▸ fld_pack hf 0 rfl rfl (by decide)
  have f1 : fld wd 10 5 = 0 := hw ▸ fld_pack hf 1 rfl rfl (by decide)
  have f2 : fld wd 15 11 = 0 := hw ▸ fld_pack hf 2 rfl rfl (by decide)
  have f3 : fld wd 20 16 = a.toNat := hw ▸ fld_pack hf 3 rfl rfl (by decide)
  have f4 : fld wd 25 21 = 0 := hw ▸ fld_pack hf 4 rfl rfl (by decide)
  have f5 : fld wd 31 26 = 23 := hw ▸ fld_pack hf 5 rfl rfl (by decide)
  have e1 : decodeForm ref wd = decode17 wd := by simp only [decodeForm, f5]
  rw [e1]
  simp only [decode17, f0, f1, f2, f3, f4]
  simp [formOf, hl, hr]

/-- Table 4-10, major 0x17. -/
theorem RoundTrip.mxring (a : Reg5) (b : Reg5) : RoundTrip.Statement (.mxring a b) := by
  have hf : fitBits [(14, 5), (0, 6), (b.toNat, 5), (a.toNat, 5), (0, 5), (23, 6)] := ⟨by decide, by decide, b.isLt, a.isLt, by decide, by decide, trivial⟩
  have hw : encodeNat (.mxring a b) = packBits [(14, 5), (0, 6), (b.toNat, 5), (a.toNat, 5), (0, 5), (23, 6)] := by
    change 1543503886 + a.toNat * 65536 + b.toNat * 2048 = _
    simp only [packBits]
    generalize b.toNat = x0
    generalize a.toNat = x1
    omega
  refine roundTrip_word (hw ▸ pack_lt hf) (fun ref hl hr hm => ?_)
  generalize encodeNat (.mxring a b) = wd at hw hm ⊢
  have f0 : fld wd 4 0 = 14 := hw ▸ fld_pack hf 0 rfl rfl (by decide)
  have f1 : fld wd 10 5 = 0 := hw ▸ fld_pack hf 1 rfl rfl (by decide)
  have f2 : fld wd 15 11 = b.toNat := hw ▸ fld_pack hf 2 rfl rfl (by decide)
  have f3 : fld wd 20 16 = a.toNat := hw ▸ fld_pack hf 3 rfl rfl (by decide)
  have f4 : fld wd 25 21 = 0 := hw ▸ fld_pack hf 4 rfl rfl (by decide)
  have f5 : fld wd 31 26 = 23 := hw ▸ fld_pack hf 5 rfl rfl (by decide)
  have e1 : decodeForm ref wd = decode17 wd := by simp only [decodeForm, f5]
  rw [e1]
  simp only [decode17, f0, f1, f2, f3, f4]
  simp [formOf, hl, hr]

/-- Table 4-10, major 0x17. -/
theorem RoundTrip.mxadv (a : Reg5) : RoundTrip.Statement (.mxadv a) := by
  have hf : fitBits [(15, 5), (0, 6), (0, 5), (a.toNat, 5), (0, 5), (23, 6)] := ⟨by decide, by decide, by decide, a.isLt, by decide, by decide, trivial⟩
  have hw : encodeNat (.mxadv a) = packBits [(15, 5), (0, 6), (0, 5), (a.toNat, 5), (0, 5), (23, 6)] := by
    change 1543503887 + a.toNat * 65536 = _
    simp only [packBits]
    generalize a.toNat = x0
    omega
  refine roundTrip_word (hw ▸ pack_lt hf) (fun ref hl hr hm => ?_)
  generalize encodeNat (.mxadv a) = wd at hw hm ⊢
  have f0 : fld wd 4 0 = 15 := hw ▸ fld_pack hf 0 rfl rfl (by decide)
  have f1 : fld wd 10 5 = 0 := hw ▸ fld_pack hf 1 rfl rfl (by decide)
  have f2 : fld wd 15 11 = 0 := hw ▸ fld_pack hf 2 rfl rfl (by decide)
  have f3 : fld wd 20 16 = a.toNat := hw ▸ fld_pack hf 3 rfl rfl (by decide)
  have f4 : fld wd 25 21 = 0 := hw ▸ fld_pack hf 4 rfl rfl (by decide)
  have f5 : fld wd 31 26 = 23 := hw ▸ fld_pack hf 5 rfl rfl (by decide)
  have e1 : decodeForm ref wd = decode17 wd := by simp only [decodeForm, f5]
  rw [e1]
  simp only [decode17, f0, f1, f2, f3, f4]
  simp [formOf, hl, hr]

/-- Table 4-10, major 0x17. -/
theorem RoundTrip.mxwgt (a : Reg5) : RoundTrip.Statement (.mxwgt a) := by
  have hf : fitBits [(16, 5), (0, 6), (0, 5), (a.toNat, 5), (0, 5), (23, 6)] := ⟨by decide, by decide, by decide, a.isLt, by decide, by decide, trivial⟩
  have hw : encodeNat (.mxwgt a) = packBits [(16, 5), (0, 6), (0, 5), (a.toNat, 5), (0, 5), (23, 6)] := by
    change 1543503888 + a.toNat * 65536 = _
    simp only [packBits]
    generalize a.toNat = x0
    omega
  refine roundTrip_word (hw ▸ pack_lt hf) (fun ref hl hr hm => ?_)
  generalize encodeNat (.mxwgt a) = wd at hw hm ⊢
  have f0 : fld wd 4 0 = 16 := hw ▸ fld_pack hf 0 rfl rfl (by decide)
  have f1 : fld wd 10 5 = 0 := hw ▸ fld_pack hf 1 rfl rfl (by decide)
  have f2 : fld wd 15 11 = 0 := hw ▸ fld_pack hf 2 rfl rfl (by decide)
  have f3 : fld wd 20 16 = a.toNat := hw ▸ fld_pack hf 3 rfl rfl (by decide)
  have f4 : fld wd 25 21 = 0 := hw ▸ fld_pack hf 4 rfl rfl (by decide)
  have f5 : fld wd 31 26 = 23 := hw ▸ fld_pack hf 5 rfl rfl (by decide)
  have e1 : decodeForm ref wd = decode17 wd := by simp only [decodeForm, f5]
  rw [e1]
  simp only [decode17, f0, f1, f2, f3, f4]
  simp [formOf, hl, hr]

/-- Table 4-10, major 0x18. -/
theorem RoundTrip.cntr (d : Reg5) (e : BitVec 8) : RoundTrip.Statement (.cntr d e) := by
  have hf : fitBits [(e.toNat, 8), (0, 3), (0, 1), (0, 4), (0, 5), (d.toNat, 5), (24, 6)] := ⟨e.isLt, by decide, by decide, by decide, by decide, d.isLt, by decide, trivial⟩
  have hw : encodeNat (.cntr d e) = packBits [(e.toNat, 8), (0, 3), (0, 1), (0, 4), (0, 5), (d.toNat, 5), (24, 6)] := by
    change 1610612736 + d.toNat * 2097152 + e.toNat = _
    simp only [packBits]
    generalize e.toNat = x0
    generalize d.toNat = x1
    omega
  refine roundTrip_word (hw ▸ pack_lt hf) (fun ref hl hr hm => ?_)
  generalize encodeNat (.cntr d e) = wd at hw hm ⊢
  have f0 : fld wd 7 0 = e.toNat := hw ▸ fld_pack hf 0 rfl rfl (by decide)
  have f1 : fld wd 10 8 = 0 := hw ▸ fld_pack hf 1 rfl rfl (by decide)
  have f2 : fld wd 11 11 = 0 := hw ▸ fld_pack hf 2 rfl rfl (by decide)
  have f3 : fld wd 15 12 = 0 := hw ▸ fld_pack hf 3 rfl rfl (by decide)
  have f4 : fld wd 20 16 = 0 := hw ▸ fld_pack hf 4 rfl rfl (by decide)
  have f5 : fld wd 25 21 = d.toNat := hw ▸ fld_pack hf 5 rfl rfl (by decide)
  have f6 : fld wd 31 26 = 24 := hw ▸ fld_pack hf 6 rfl rfl (by decide)
  have e1 : decodeForm ref wd = decode18 wd := by simp only [decodeForm, f6]
  rw [e1]
  simp only [decode18, f0, f1, f2, f3, f4, f5]
  simp [formOf, hl, hr]

/-- Table 4-10, major 0x18. -/
theorem RoundTrip.time (d : Reg5) (late : Bool) : RoundTrip.Statement (.time d late) := by
  have hf : fitBits [(boolCode late, 1), (0, 11), (1, 4), (0, 5), (d.toNat, 5), (24, 6)] := ⟨boolCode_lt late, by decide, by decide, by decide, d.isLt, by decide, trivial⟩
  have hw : encodeNat (.time d late) = packBits [(boolCode late, 1), (0, 11), (1, 4), (0, 5), (d.toNat, 5), (24, 6)] := by
    change 1610616832 + d.toNat * 2097152 + boolCode late = _
    simp only [packBits]
    generalize boolCode late = x0
    generalize d.toNat = x1
    omega
  refine roundTrip_word (hw ▸ pack_lt hf) (fun ref hl hr hm => ?_)
  generalize encodeNat (.time d late) = wd at hw hm ⊢
  have f0 : fld wd 0 0 = boolCode late := hw ▸ fld_pack hf 0 rfl rfl (by decide)
  have f1 : fld wd 11 1 = 0 := hw ▸ fld_pack hf 1 rfl rfl (by decide)
  have f2 : fld wd 15 12 = 1 := hw ▸ fld_pack hf 2 rfl rfl (by decide)
  have f3 : fld wd 20 16 = 0 := hw ▸ fld_pack hf 3 rfl rfl (by decide)
  have f4 : fld wd 25 21 = d.toNat := hw ▸ fld_pack hf 4 rfl rfl (by decide)
  have f5 : fld wd 31 26 = 24 := hw ▸ fld_pack hf 5 rfl rfl (by decide)
  have e1 : decodeForm ref wd = decode18 wd := by simp only [decodeForm, f5]
  rw [e1]
  simp only [decode18, f0, f1, f2, f3, f4]
  simp [formOf, hl, hr]

/-- Table 4-10, major 0x20. -/
theorem RoundTrip.vld (d : Reg5) (a : Reg5) (ty : EType) (m : BitVec 3) : RoundTrip.Statement (.vld d a ty m) := by
  have hf : fitBits [(m.toNat, 3), (0, 2), (0, 2), (ty.code, 4), (0, 5), (a.toNat, 5), (d.toNat, 5), (32, 6)] := ⟨m.isLt, by decide, by decide, EType.code_lt ty, by decide, a.isLt, d.isLt, by decide, trivial⟩
  have hw : encodeNat (.vld d a ty m) = packBits [(m.toNat, 3), (0, 2), (0, 2), (ty.code, 4), (0, 5), (a.toNat, 5), (d.toNat, 5), (32, 6)] := by
    change 2147483648 + d.toNat * 2097152 + a.toNat * 65536 + ty.code * 128 + m.toNat = _
    simp only [packBits]
    generalize m.toNat = x0
    generalize ty.code = x1
    generalize a.toNat = x2
    generalize d.toNat = x3
    omega
  refine roundTrip_word (hw ▸ pack_lt hf) (fun ref hl hr hm => ?_)
  generalize encodeNat (.vld d a ty m) = wd at hw hm ⊢
  have f0 : fld wd 2 0 = m.toNat := hw ▸ fld_pack hf 0 rfl rfl (by decide)
  have f1 : fld wd 4 3 = 0 := hw ▸ fld_pack hf 1 rfl rfl (by decide)
  have f2 : fld wd 6 5 = 0 := hw ▸ fld_pack hf 2 rfl rfl (by decide)
  have f3 : fld wd 10 7 = ty.code := hw ▸ fld_pack hf 3 rfl rfl (by decide)
  have f4 : fld wd 15 11 = 0 := hw ▸ fld_pack hf 4 rfl rfl (by decide)
  have f5 : fld wd 20 16 = a.toNat := hw ▸ fld_pack hf 5 rfl rfl (by decide)
  have f6 : fld wd 25 21 = d.toNat := hw ▸ fld_pack hf 6 rfl rfl (by decide)
  have f7 : fld wd 31 26 = 32 := hw ▸ fld_pack hf 7 rfl rfl (by decide)
  have e1 : decodeForm ref wd = decode20 wd := by simp only [decodeForm, f7]
  rw [e1]
  simp only [decode20, f0, f1, f2, f3, f4, f5, f6]
  simp [formOf, hl, hr]

/-- Table 4-10, major 0x20. -/
theorem RoundTrip.vlds (d : Reg5) (a : Reg5) (b : Reg5) (ty : EType) (m : BitVec 3) : RoundTrip.Statement (.vlds d a b ty m) := by
  have hf : fitBits [(m.toNat, 3), (0, 2), (1, 2), (ty.code, 4), (b.toNat, 5), (a.toNat, 5), (d.toNat, 5), (32, 6)] := ⟨m.isLt, by decide, by decide, EType.code_lt ty, b.isLt, a.isLt, d.isLt, by decide, trivial⟩
  have hw : encodeNat (.vlds d a b ty m) = packBits [(m.toNat, 3), (0, 2), (1, 2), (ty.code, 4), (b.toNat, 5), (a.toNat, 5), (d.toNat, 5), (32, 6)] := by
    change 2147483680 + d.toNat * 2097152 + a.toNat * 65536 + b.toNat * 2048 + ty.code * 128 + m.toNat = _
    simp only [packBits]
    generalize m.toNat = x0
    generalize ty.code = x1
    generalize b.toNat = x2
    generalize a.toNat = x3
    generalize d.toNat = x4
    omega
  refine roundTrip_word (hw ▸ pack_lt hf) (fun ref hl hr hm => ?_)
  generalize encodeNat (.vlds d a b ty m) = wd at hw hm ⊢
  have f0 : fld wd 2 0 = m.toNat := hw ▸ fld_pack hf 0 rfl rfl (by decide)
  have f1 : fld wd 4 3 = 0 := hw ▸ fld_pack hf 1 rfl rfl (by decide)
  have f2 : fld wd 6 5 = 1 := hw ▸ fld_pack hf 2 rfl rfl (by decide)
  have f3 : fld wd 10 7 = ty.code := hw ▸ fld_pack hf 3 rfl rfl (by decide)
  have f4 : fld wd 15 11 = b.toNat := hw ▸ fld_pack hf 4 rfl rfl (by decide)
  have f5 : fld wd 20 16 = a.toNat := hw ▸ fld_pack hf 5 rfl rfl (by decide)
  have f6 : fld wd 25 21 = d.toNat := hw ▸ fld_pack hf 6 rfl rfl (by decide)
  have f7 : fld wd 31 26 = 32 := hw ▸ fld_pack hf 7 rfl rfl (by decide)
  have e1 : decodeForm ref wd = decode20 wd := by simp only [decodeForm, f7]
  rw [e1]
  simp only [decode20, f0, f1, f2, f3, f4, f5, f6]
  simp [formOf, hl, hr]

/-- Table 4-10, major 0x20. -/
theorem RoundTrip.vldx (d : Reg5) (a : Reg5) (b : Reg5) (ty : EType) (m : BitVec 3) : RoundTrip.Statement (.vldx d a b ty m) := by
  have hf : fitBits [(m.toNat, 3), (0, 2), (2, 2), (ty.code, 4), (b.toNat, 5), (a.toNat, 5), (d.toNat, 5), (32, 6)] := ⟨m.isLt, by decide, by decide, EType.code_lt ty, b.isLt, a.isLt, d.isLt, by decide, trivial⟩
  have hw : encodeNat (.vldx d a b ty m) = packBits [(m.toNat, 3), (0, 2), (2, 2), (ty.code, 4), (b.toNat, 5), (a.toNat, 5), (d.toNat, 5), (32, 6)] := by
    change 2147483712 + d.toNat * 2097152 + a.toNat * 65536 + b.toNat * 2048 + ty.code * 128 + m.toNat = _
    simp only [packBits]
    generalize m.toNat = x0
    generalize ty.code = x1
    generalize b.toNat = x2
    generalize a.toNat = x3
    generalize d.toNat = x4
    omega
  refine roundTrip_word (hw ▸ pack_lt hf) (fun ref hl hr hm => ?_)
  generalize encodeNat (.vldx d a b ty m) = wd at hw hm ⊢
  have f0 : fld wd 2 0 = m.toNat := hw ▸ fld_pack hf 0 rfl rfl (by decide)
  have f1 : fld wd 4 3 = 0 := hw ▸ fld_pack hf 1 rfl rfl (by decide)
  have f2 : fld wd 6 5 = 2 := hw ▸ fld_pack hf 2 rfl rfl (by decide)
  have f3 : fld wd 10 7 = ty.code := hw ▸ fld_pack hf 3 rfl rfl (by decide)
  have f4 : fld wd 15 11 = b.toNat := hw ▸ fld_pack hf 4 rfl rfl (by decide)
  have f5 : fld wd 20 16 = a.toNat := hw ▸ fld_pack hf 5 rfl rfl (by decide)
  have f6 : fld wd 25 21 = d.toNat := hw ▸ fld_pack hf 6 rfl rfl (by decide)
  have f7 : fld wd 31 26 = 32 := hw ▸ fld_pack hf 7 rfl rfl (by decide)
  have e1 : decodeForm ref wd = decode20 wd := by simp only [decodeForm, f7]
  rw [e1]
  simp only [decode20, f0, f1, f2, f3, f4, f5, f6]
  simp [formOf, hl, hr]

/-- Table 4-10, major 0x21. -/
theorem RoundTrip.vst (d : Reg5) (a : Reg5) (ty : EType) (m : BitVec 3) : RoundTrip.Statement (.vst d a ty m) := by
  have hf : fitBits [(m.toNat, 3), (0, 2), (0, 2), (ty.code, 4), (0, 5), (a.toNat, 5), (d.toNat, 5), (33, 6)] := ⟨m.isLt, by decide, by decide, EType.code_lt ty, by decide, a.isLt, d.isLt, by decide, trivial⟩
  have hw : encodeNat (.vst d a ty m) = packBits [(m.toNat, 3), (0, 2), (0, 2), (ty.code, 4), (0, 5), (a.toNat, 5), (d.toNat, 5), (33, 6)] := by
    change 2214592512 + d.toNat * 2097152 + a.toNat * 65536 + ty.code * 128 + m.toNat = _
    simp only [packBits]
    generalize m.toNat = x0
    generalize ty.code = x1
    generalize a.toNat = x2
    generalize d.toNat = x3
    omega
  refine roundTrip_word (hw ▸ pack_lt hf) (fun ref hl hr hm => ?_)
  generalize encodeNat (.vst d a ty m) = wd at hw hm ⊢
  have f0 : fld wd 2 0 = m.toNat := hw ▸ fld_pack hf 0 rfl rfl (by decide)
  have f1 : fld wd 4 3 = 0 := hw ▸ fld_pack hf 1 rfl rfl (by decide)
  have f2 : fld wd 6 5 = 0 := hw ▸ fld_pack hf 2 rfl rfl (by decide)
  have f3 : fld wd 10 7 = ty.code := hw ▸ fld_pack hf 3 rfl rfl (by decide)
  have f4 : fld wd 15 11 = 0 := hw ▸ fld_pack hf 4 rfl rfl (by decide)
  have f5 : fld wd 20 16 = a.toNat := hw ▸ fld_pack hf 5 rfl rfl (by decide)
  have f6 : fld wd 25 21 = d.toNat := hw ▸ fld_pack hf 6 rfl rfl (by decide)
  have f7 : fld wd 31 26 = 33 := hw ▸ fld_pack hf 7 rfl rfl (by decide)
  have e1 : decodeForm ref wd = decode21 wd := by simp only [decodeForm, f7]
  rw [e1]
  simp only [decode21, f0, f1, f2, f3, f4, f5, f6]
  simp [formOf, hl, hr]

/-- Table 4-10, major 0x21. -/
theorem RoundTrip.vsts (d : Reg5) (a : Reg5) (b : Reg5) (ty : EType) (m : BitVec 3) : RoundTrip.Statement (.vsts d a b ty m) := by
  have hf : fitBits [(m.toNat, 3), (0, 2), (1, 2), (ty.code, 4), (b.toNat, 5), (a.toNat, 5), (d.toNat, 5), (33, 6)] := ⟨m.isLt, by decide, by decide, EType.code_lt ty, b.isLt, a.isLt, d.isLt, by decide, trivial⟩
  have hw : encodeNat (.vsts d a b ty m) = packBits [(m.toNat, 3), (0, 2), (1, 2), (ty.code, 4), (b.toNat, 5), (a.toNat, 5), (d.toNat, 5), (33, 6)] := by
    change 2214592544 + d.toNat * 2097152 + a.toNat * 65536 + b.toNat * 2048 + ty.code * 128 + m.toNat = _
    simp only [packBits]
    generalize m.toNat = x0
    generalize ty.code = x1
    generalize b.toNat = x2
    generalize a.toNat = x3
    generalize d.toNat = x4
    omega
  refine roundTrip_word (hw ▸ pack_lt hf) (fun ref hl hr hm => ?_)
  generalize encodeNat (.vsts d a b ty m) = wd at hw hm ⊢
  have f0 : fld wd 2 0 = m.toNat := hw ▸ fld_pack hf 0 rfl rfl (by decide)
  have f1 : fld wd 4 3 = 0 := hw ▸ fld_pack hf 1 rfl rfl (by decide)
  have f2 : fld wd 6 5 = 1 := hw ▸ fld_pack hf 2 rfl rfl (by decide)
  have f3 : fld wd 10 7 = ty.code := hw ▸ fld_pack hf 3 rfl rfl (by decide)
  have f4 : fld wd 15 11 = b.toNat := hw ▸ fld_pack hf 4 rfl rfl (by decide)
  have f5 : fld wd 20 16 = a.toNat := hw ▸ fld_pack hf 5 rfl rfl (by decide)
  have f6 : fld wd 25 21 = d.toNat := hw ▸ fld_pack hf 6 rfl rfl (by decide)
  have f7 : fld wd 31 26 = 33 := hw ▸ fld_pack hf 7 rfl rfl (by decide)
  have e1 : decodeForm ref wd = decode21 wd := by simp only [decodeForm, f7]
  rw [e1]
  simp only [decode21, f0, f1, f2, f3, f4, f5, f6]
  simp [formOf, hl, hr]

/-- Table 4-10, major 0x21. -/
theorem RoundTrip.vstx (d : Reg5) (a : Reg5) (b : Reg5) (ty : EType) (m : BitVec 3) : RoundTrip.Statement (.vstx d a b ty m) := by
  have hf : fitBits [(m.toNat, 3), (0, 2), (2, 2), (ty.code, 4), (b.toNat, 5), (a.toNat, 5), (d.toNat, 5), (33, 6)] := ⟨m.isLt, by decide, by decide, EType.code_lt ty, b.isLt, a.isLt, d.isLt, by decide, trivial⟩
  have hw : encodeNat (.vstx d a b ty m) = packBits [(m.toNat, 3), (0, 2), (2, 2), (ty.code, 4), (b.toNat, 5), (a.toNat, 5), (d.toNat, 5), (33, 6)] := by
    change 2214592576 + d.toNat * 2097152 + a.toNat * 65536 + b.toNat * 2048 + ty.code * 128 + m.toNat = _
    simp only [packBits]
    generalize m.toNat = x0
    generalize ty.code = x1
    generalize b.toNat = x2
    generalize a.toNat = x3
    generalize d.toNat = x4
    omega
  refine roundTrip_word (hw ▸ pack_lt hf) (fun ref hl hr hm => ?_)
  generalize encodeNat (.vstx d a b ty m) = wd at hw hm ⊢
  have f0 : fld wd 2 0 = m.toNat := hw ▸ fld_pack hf 0 rfl rfl (by decide)
  have f1 : fld wd 4 3 = 0 := hw ▸ fld_pack hf 1 rfl rfl (by decide)
  have f2 : fld wd 6 5 = 2 := hw ▸ fld_pack hf 2 rfl rfl (by decide)
  have f3 : fld wd 10 7 = ty.code := hw ▸ fld_pack hf 3 rfl rfl (by decide)
  have f4 : fld wd 15 11 = b.toNat := hw ▸ fld_pack hf 4 rfl rfl (by decide)
  have f5 : fld wd 20 16 = a.toNat := hw ▸ fld_pack hf 5 rfl rfl (by decide)
  have f6 : fld wd 25 21 = d.toNat := hw ▸ fld_pack hf 6 rfl rfl (by decide)
  have f7 : fld wd 31 26 = 33 := hw ▸ fld_pack hf 7 rfl rfl (by decide)
  have e1 : decodeForm ref wd = decode21 wd := by simp only [decodeForm, f7]
  rw [e1]
  simp only [decode21, f0, f1, f2, f3, f4, f5, f6]
  simp [formOf, hl, hr]

/-- Table 4-10, major 0x22. -/
theorem RoundTrip.vadd (d : Reg5) (a : Reg5) (b : Reg5) (ty : IType) (m : BitVec 3) : RoundTrip.Statement (.vadd d a b ty m) := by
  have hf : fitBits [(m.toNat, 3), (0, 5), (ty.code, 3), (b.toNat, 5), (a.toNat, 5), (d.toNat, 5), (34, 6)] := ⟨m.isLt, by decide, IType.code_lt ty, b.isLt, a.isLt, d.isLt, by decide, trivial⟩
  have hw : encodeNat (.vadd d a b ty m) = packBits [(m.toNat, 3), (0, 5), (ty.code, 3), (b.toNat, 5), (a.toNat, 5), (d.toNat, 5), (34, 6)] := by
    change 2281701376 + d.toNat * 2097152 + a.toNat * 65536 + b.toNat * 2048 + ty.code * 256 + m.toNat = _
    simp only [packBits]
    generalize m.toNat = x0
    generalize ty.code = x1
    generalize b.toNat = x2
    generalize a.toNat = x3
    generalize d.toNat = x4
    omega
  refine roundTrip_word (hw ▸ pack_lt hf) (fun ref hl hr hm => ?_)
  generalize encodeNat (.vadd d a b ty m) = wd at hw hm ⊢
  have f0 : fld wd 2 0 = m.toNat := hw ▸ fld_pack hf 0 rfl rfl (by decide)
  have f1 : fld wd 7 3 = 0 := hw ▸ fld_pack hf 1 rfl rfl (by decide)
  have f2 : fld wd 10 8 = ty.code := hw ▸ fld_pack hf 2 rfl rfl (by decide)
  have f3 : fld wd 15 11 = b.toNat := hw ▸ fld_pack hf 3 rfl rfl (by decide)
  have f4 : fld wd 20 16 = a.toNat := hw ▸ fld_pack hf 4 rfl rfl (by decide)
  have f5 : fld wd 25 21 = d.toNat := hw ▸ fld_pack hf 5 rfl rfl (by decide)
  have f6 : fld wd 31 26 = 34 := hw ▸ fld_pack hf 6 rfl rfl (by decide)
  have e1 : decodeForm ref wd = decode22 wd := by simp only [decodeForm, f6]
  rw [e1]
  simp only [decode22, f0, f1, f2, f3, f4, f5]
  simp [formOf, hl, hr]

/-- Table 4-10, major 0x22. -/
theorem RoundTrip.vsub (d : Reg5) (a : Reg5) (b : Reg5) (ty : IType) (m : BitVec 3) : RoundTrip.Statement (.vsub d a b ty m) := by
  have hf : fitBits [(m.toNat, 3), (1, 5), (ty.code, 3), (b.toNat, 5), (a.toNat, 5), (d.toNat, 5), (34, 6)] := ⟨m.isLt, by decide, IType.code_lt ty, b.isLt, a.isLt, d.isLt, by decide, trivial⟩
  have hw : encodeNat (.vsub d a b ty m) = packBits [(m.toNat, 3), (1, 5), (ty.code, 3), (b.toNat, 5), (a.toNat, 5), (d.toNat, 5), (34, 6)] := by
    change 2281701384 + d.toNat * 2097152 + a.toNat * 65536 + b.toNat * 2048 + ty.code * 256 + m.toNat = _
    simp only [packBits]
    generalize m.toNat = x0
    generalize ty.code = x1
    generalize b.toNat = x2
    generalize a.toNat = x3
    generalize d.toNat = x4
    omega
  refine roundTrip_word (hw ▸ pack_lt hf) (fun ref hl hr hm => ?_)
  generalize encodeNat (.vsub d a b ty m) = wd at hw hm ⊢
  have f0 : fld wd 2 0 = m.toNat := hw ▸ fld_pack hf 0 rfl rfl (by decide)
  have f1 : fld wd 7 3 = 1 := hw ▸ fld_pack hf 1 rfl rfl (by decide)
  have f2 : fld wd 10 8 = ty.code := hw ▸ fld_pack hf 2 rfl rfl (by decide)
  have f3 : fld wd 15 11 = b.toNat := hw ▸ fld_pack hf 3 rfl rfl (by decide)
  have f4 : fld wd 20 16 = a.toNat := hw ▸ fld_pack hf 4 rfl rfl (by decide)
  have f5 : fld wd 25 21 = d.toNat := hw ▸ fld_pack hf 5 rfl rfl (by decide)
  have f6 : fld wd 31 26 = 34 := hw ▸ fld_pack hf 6 rfl rfl (by decide)
  have e1 : decodeForm ref wd = decode22 wd := by simp only [decodeForm, f6]
  rw [e1]
  simp only [decode22, f0, f1, f2, f3, f4, f5]
  simp [formOf, hl, hr]

/-- Table 4-10, major 0x22. -/
theorem RoundTrip.vadds (d : Reg5) (a : Reg5) (b : Reg5) (ty : IType) (m : BitVec 3) : RoundTrip.Statement (.vadds d a b ty m) := by
  have hf : fitBits [(m.toNat, 3), (2, 5), (ty.code, 3), (b.toNat, 5), (a.toNat, 5), (d.toNat, 5), (34, 6)] := ⟨m.isLt, by decide, IType.code_lt ty, b.isLt, a.isLt, d.isLt, by decide, trivial⟩
  have hw : encodeNat (.vadds d a b ty m) = packBits [(m.toNat, 3), (2, 5), (ty.code, 3), (b.toNat, 5), (a.toNat, 5), (d.toNat, 5), (34, 6)] := by
    change 2281701392 + d.toNat * 2097152 + a.toNat * 65536 + b.toNat * 2048 + ty.code * 256 + m.toNat = _
    simp only [packBits]
    generalize m.toNat = x0
    generalize ty.code = x1
    generalize b.toNat = x2
    generalize a.toNat = x3
    generalize d.toNat = x4
    omega
  refine roundTrip_word (hw ▸ pack_lt hf) (fun ref hl hr hm => ?_)
  generalize encodeNat (.vadds d a b ty m) = wd at hw hm ⊢
  have f0 : fld wd 2 0 = m.toNat := hw ▸ fld_pack hf 0 rfl rfl (by decide)
  have f1 : fld wd 7 3 = 2 := hw ▸ fld_pack hf 1 rfl rfl (by decide)
  have f2 : fld wd 10 8 = ty.code := hw ▸ fld_pack hf 2 rfl rfl (by decide)
  have f3 : fld wd 15 11 = b.toNat := hw ▸ fld_pack hf 3 rfl rfl (by decide)
  have f4 : fld wd 20 16 = a.toNat := hw ▸ fld_pack hf 4 rfl rfl (by decide)
  have f5 : fld wd 25 21 = d.toNat := hw ▸ fld_pack hf 5 rfl rfl (by decide)
  have f6 : fld wd 31 26 = 34 := hw ▸ fld_pack hf 6 rfl rfl (by decide)
  have e1 : decodeForm ref wd = decode22 wd := by simp only [decodeForm, f6]
  rw [e1]
  simp only [decode22, f0, f1, f2, f3, f4, f5]
  simp [formOf, hl, hr]

/-- Table 4-10, major 0x22. -/
theorem RoundTrip.vsubs (d : Reg5) (a : Reg5) (b : Reg5) (ty : IType) (m : BitVec 3) : RoundTrip.Statement (.vsubs d a b ty m) := by
  have hf : fitBits [(m.toNat, 3), (3, 5), (ty.code, 3), (b.toNat, 5), (a.toNat, 5), (d.toNat, 5), (34, 6)] := ⟨m.isLt, by decide, IType.code_lt ty, b.isLt, a.isLt, d.isLt, by decide, trivial⟩
  have hw : encodeNat (.vsubs d a b ty m) = packBits [(m.toNat, 3), (3, 5), (ty.code, 3), (b.toNat, 5), (a.toNat, 5), (d.toNat, 5), (34, 6)] := by
    change 2281701400 + d.toNat * 2097152 + a.toNat * 65536 + b.toNat * 2048 + ty.code * 256 + m.toNat = _
    simp only [packBits]
    generalize m.toNat = x0
    generalize ty.code = x1
    generalize b.toNat = x2
    generalize a.toNat = x3
    generalize d.toNat = x4
    omega
  refine roundTrip_word (hw ▸ pack_lt hf) (fun ref hl hr hm => ?_)
  generalize encodeNat (.vsubs d a b ty m) = wd at hw hm ⊢
  have f0 : fld wd 2 0 = m.toNat := hw ▸ fld_pack hf 0 rfl rfl (by decide)
  have f1 : fld wd 7 3 = 3 := hw ▸ fld_pack hf 1 rfl rfl (by decide)
  have f2 : fld wd 10 8 = ty.code := hw ▸ fld_pack hf 2 rfl rfl (by decide)
  have f3 : fld wd 15 11 = b.toNat := hw ▸ fld_pack hf 3 rfl rfl (by decide)
  have f4 : fld wd 20 16 = a.toNat := hw ▸ fld_pack hf 4 rfl rfl (by decide)
  have f5 : fld wd 25 21 = d.toNat := hw ▸ fld_pack hf 5 rfl rfl (by decide)
  have f6 : fld wd 31 26 = 34 := hw ▸ fld_pack hf 6 rfl rfl (by decide)
  have e1 : decodeForm ref wd = decode22 wd := by simp only [decodeForm, f6]
  rw [e1]
  simp only [decode22, f0, f1, f2, f3, f4, f5]
  simp [formOf, hl, hr]

/-- Table 4-10, major 0x22. -/
theorem RoundTrip.vmul (d : Reg5) (a : Reg5) (b : Reg5) (ty : IType) (m : BitVec 3) : RoundTrip.Statement (.vmul d a b ty m) := by
  have hf : fitBits [(m.toNat, 3), (4, 5), (ty.code, 3), (b.toNat, 5), (a.toNat, 5), (d.toNat, 5), (34, 6)] := ⟨m.isLt, by decide, IType.code_lt ty, b.isLt, a.isLt, d.isLt, by decide, trivial⟩
  have hw : encodeNat (.vmul d a b ty m) = packBits [(m.toNat, 3), (4, 5), (ty.code, 3), (b.toNat, 5), (a.toNat, 5), (d.toNat, 5), (34, 6)] := by
    change 2281701408 + d.toNat * 2097152 + a.toNat * 65536 + b.toNat * 2048 + ty.code * 256 + m.toNat = _
    simp only [packBits]
    generalize m.toNat = x0
    generalize ty.code = x1
    generalize b.toNat = x2
    generalize a.toNat = x3
    generalize d.toNat = x4
    omega
  refine roundTrip_word (hw ▸ pack_lt hf) (fun ref hl hr hm => ?_)
  generalize encodeNat (.vmul d a b ty m) = wd at hw hm ⊢
  have f0 : fld wd 2 0 = m.toNat := hw ▸ fld_pack hf 0 rfl rfl (by decide)
  have f1 : fld wd 7 3 = 4 := hw ▸ fld_pack hf 1 rfl rfl (by decide)
  have f2 : fld wd 10 8 = ty.code := hw ▸ fld_pack hf 2 rfl rfl (by decide)
  have f3 : fld wd 15 11 = b.toNat := hw ▸ fld_pack hf 3 rfl rfl (by decide)
  have f4 : fld wd 20 16 = a.toNat := hw ▸ fld_pack hf 4 rfl rfl (by decide)
  have f5 : fld wd 25 21 = d.toNat := hw ▸ fld_pack hf 5 rfl rfl (by decide)
  have f6 : fld wd 31 26 = 34 := hw ▸ fld_pack hf 6 rfl rfl (by decide)
  have e1 : decodeForm ref wd = decode22 wd := by simp only [decodeForm, f6]
  rw [e1]
  simp only [decode22, f0, f1, f2, f3, f4, f5]
  simp [formOf, hl, hr]

/-- Table 4-10, major 0x22. -/
theorem RoundTrip.vmulh (d : Reg5) (a : Reg5) (b : Reg5) (ty : IType) (m : BitVec 3) : RoundTrip.Statement (.vmulh d a b ty m) := by
  have hf : fitBits [(m.toNat, 3), (5, 5), (ty.code, 3), (b.toNat, 5), (a.toNat, 5), (d.toNat, 5), (34, 6)] := ⟨m.isLt, by decide, IType.code_lt ty, b.isLt, a.isLt, d.isLt, by decide, trivial⟩
  have hw : encodeNat (.vmulh d a b ty m) = packBits [(m.toNat, 3), (5, 5), (ty.code, 3), (b.toNat, 5), (a.toNat, 5), (d.toNat, 5), (34, 6)] := by
    change 2281701416 + d.toNat * 2097152 + a.toNat * 65536 + b.toNat * 2048 + ty.code * 256 + m.toNat = _
    simp only [packBits]
    generalize m.toNat = x0
    generalize ty.code = x1
    generalize b.toNat = x2
    generalize a.toNat = x3
    generalize d.toNat = x4
    omega
  refine roundTrip_word (hw ▸ pack_lt hf) (fun ref hl hr hm => ?_)
  generalize encodeNat (.vmulh d a b ty m) = wd at hw hm ⊢
  have f0 : fld wd 2 0 = m.toNat := hw ▸ fld_pack hf 0 rfl rfl (by decide)
  have f1 : fld wd 7 3 = 5 := hw ▸ fld_pack hf 1 rfl rfl (by decide)
  have f2 : fld wd 10 8 = ty.code := hw ▸ fld_pack hf 2 rfl rfl (by decide)
  have f3 : fld wd 15 11 = b.toNat := hw ▸ fld_pack hf 3 rfl rfl (by decide)
  have f4 : fld wd 20 16 = a.toNat := hw ▸ fld_pack hf 4 rfl rfl (by decide)
  have f5 : fld wd 25 21 = d.toNat := hw ▸ fld_pack hf 5 rfl rfl (by decide)
  have f6 : fld wd 31 26 = 34 := hw ▸ fld_pack hf 6 rfl rfl (by decide)
  have e1 : decodeForm ref wd = decode22 wd := by simp only [decodeForm, f6]
  rw [e1]
  simp only [decode22, f0, f1, f2, f3, f4, f5]
  simp [formOf, hl, hr]

/-- Table 4-10, major 0x22. -/
theorem RoundTrip.vmin (d : Reg5) (a : Reg5) (b : Reg5) (ty : IType) (m : BitVec 3) : RoundTrip.Statement (.vmin d a b ty m) := by
  have hf : fitBits [(m.toNat, 3), (6, 5), (ty.code, 3), (b.toNat, 5), (a.toNat, 5), (d.toNat, 5), (34, 6)] := ⟨m.isLt, by decide, IType.code_lt ty, b.isLt, a.isLt, d.isLt, by decide, trivial⟩
  have hw : encodeNat (.vmin d a b ty m) = packBits [(m.toNat, 3), (6, 5), (ty.code, 3), (b.toNat, 5), (a.toNat, 5), (d.toNat, 5), (34, 6)] := by
    change 2281701424 + d.toNat * 2097152 + a.toNat * 65536 + b.toNat * 2048 + ty.code * 256 + m.toNat = _
    simp only [packBits]
    generalize m.toNat = x0
    generalize ty.code = x1
    generalize b.toNat = x2
    generalize a.toNat = x3
    generalize d.toNat = x4
    omega
  refine roundTrip_word (hw ▸ pack_lt hf) (fun ref hl hr hm => ?_)
  generalize encodeNat (.vmin d a b ty m) = wd at hw hm ⊢
  have f0 : fld wd 2 0 = m.toNat := hw ▸ fld_pack hf 0 rfl rfl (by decide)
  have f1 : fld wd 7 3 = 6 := hw ▸ fld_pack hf 1 rfl rfl (by decide)
  have f2 : fld wd 10 8 = ty.code := hw ▸ fld_pack hf 2 rfl rfl (by decide)
  have f3 : fld wd 15 11 = b.toNat := hw ▸ fld_pack hf 3 rfl rfl (by decide)
  have f4 : fld wd 20 16 = a.toNat := hw ▸ fld_pack hf 4 rfl rfl (by decide)
  have f5 : fld wd 25 21 = d.toNat := hw ▸ fld_pack hf 5 rfl rfl (by decide)
  have f6 : fld wd 31 26 = 34 := hw ▸ fld_pack hf 6 rfl rfl (by decide)
  have e1 : decodeForm ref wd = decode22 wd := by simp only [decodeForm, f6]
  rw [e1]
  simp only [decode22, f0, f1, f2, f3, f4, f5]
  simp [formOf, hl, hr]

/-- Table 4-10, major 0x22. -/
theorem RoundTrip.vmax (d : Reg5) (a : Reg5) (b : Reg5) (ty : IType) (m : BitVec 3) : RoundTrip.Statement (.vmax d a b ty m) := by
  have hf : fitBits [(m.toNat, 3), (7, 5), (ty.code, 3), (b.toNat, 5), (a.toNat, 5), (d.toNat, 5), (34, 6)] := ⟨m.isLt, by decide, IType.code_lt ty, b.isLt, a.isLt, d.isLt, by decide, trivial⟩
  have hw : encodeNat (.vmax d a b ty m) = packBits [(m.toNat, 3), (7, 5), (ty.code, 3), (b.toNat, 5), (a.toNat, 5), (d.toNat, 5), (34, 6)] := by
    change 2281701432 + d.toNat * 2097152 + a.toNat * 65536 + b.toNat * 2048 + ty.code * 256 + m.toNat = _
    simp only [packBits]
    generalize m.toNat = x0
    generalize ty.code = x1
    generalize b.toNat = x2
    generalize a.toNat = x3
    generalize d.toNat = x4
    omega
  refine roundTrip_word (hw ▸ pack_lt hf) (fun ref hl hr hm => ?_)
  generalize encodeNat (.vmax d a b ty m) = wd at hw hm ⊢
  have f0 : fld wd 2 0 = m.toNat := hw ▸ fld_pack hf 0 rfl rfl (by decide)
  have f1 : fld wd 7 3 = 7 := hw ▸ fld_pack hf 1 rfl rfl (by decide)
  have f2 : fld wd 10 8 = ty.code := hw ▸ fld_pack hf 2 rfl rfl (by decide)
  have f3 : fld wd 15 11 = b.toNat := hw ▸ fld_pack hf 3 rfl rfl (by decide)
  have f4 : fld wd 20 16 = a.toNat := hw ▸ fld_pack hf 4 rfl rfl (by decide)
  have f5 : fld wd 25 21 = d.toNat := hw ▸ fld_pack hf 5 rfl rfl (by decide)
  have f6 : fld wd 31 26 = 34 := hw ▸ fld_pack hf 6 rfl rfl (by decide)
  have e1 : decodeForm ref wd = decode22 wd := by simp only [decodeForm, f6]
  rw [e1]
  simp only [decode22, f0, f1, f2, f3, f4, f5]
  simp [formOf, hl, hr]

/-- Table 4-10, major 0x22. -/
theorem RoundTrip.vabs (d : Reg5) (a : Reg5) (ty : IType) (m : BitVec 3) : RoundTrip.Statement (.vabs d a ty m) := by
  have hf : fitBits [(m.toNat, 3), (8, 5), (ty.code, 3), (0, 5), (a.toNat, 5), (d.toNat, 5), (34, 6)] := ⟨m.isLt, by decide, IType.code_lt ty, by decide, a.isLt, d.isLt, by decide, trivial⟩
  have hw : encodeNat (.vabs d a ty m) = packBits [(m.toNat, 3), (8, 5), (ty.code, 3), (0, 5), (a.toNat, 5), (d.toNat, 5), (34, 6)] := by
    change 2281701440 + d.toNat * 2097152 + a.toNat * 65536 + ty.code * 256 + m.toNat = _
    simp only [packBits]
    generalize m.toNat = x0
    generalize ty.code = x1
    generalize a.toNat = x2
    generalize d.toNat = x3
    omega
  refine roundTrip_word (hw ▸ pack_lt hf) (fun ref hl hr hm => ?_)
  generalize encodeNat (.vabs d a ty m) = wd at hw hm ⊢
  have f0 : fld wd 2 0 = m.toNat := hw ▸ fld_pack hf 0 rfl rfl (by decide)
  have f1 : fld wd 7 3 = 8 := hw ▸ fld_pack hf 1 rfl rfl (by decide)
  have f2 : fld wd 10 8 = ty.code := hw ▸ fld_pack hf 2 rfl rfl (by decide)
  have f3 : fld wd 15 11 = 0 := hw ▸ fld_pack hf 3 rfl rfl (by decide)
  have f4 : fld wd 20 16 = a.toNat := hw ▸ fld_pack hf 4 rfl rfl (by decide)
  have f5 : fld wd 25 21 = d.toNat := hw ▸ fld_pack hf 5 rfl rfl (by decide)
  have f6 : fld wd 31 26 = 34 := hw ▸ fld_pack hf 6 rfl rfl (by decide)
  have e1 : decodeForm ref wd = decode22 wd := by simp only [decodeForm, f6]
  rw [e1]
  simp only [decode22, f0, f1, f2, f3, f4, f5]
  simp [formOf, hl, hr]

/-- Table 4-10, major 0x22. -/
theorem RoundTrip.vneg (d : Reg5) (a : Reg5) (ty : IType) (m : BitVec 3) : RoundTrip.Statement (.vneg d a ty m) := by
  have hf : fitBits [(m.toNat, 3), (9, 5), (ty.code, 3), (0, 5), (a.toNat, 5), (d.toNat, 5), (34, 6)] := ⟨m.isLt, by decide, IType.code_lt ty, by decide, a.isLt, d.isLt, by decide, trivial⟩
  have hw : encodeNat (.vneg d a ty m) = packBits [(m.toNat, 3), (9, 5), (ty.code, 3), (0, 5), (a.toNat, 5), (d.toNat, 5), (34, 6)] := by
    change 2281701448 + d.toNat * 2097152 + a.toNat * 65536 + ty.code * 256 + m.toNat = _
    simp only [packBits]
    generalize m.toNat = x0
    generalize ty.code = x1
    generalize a.toNat = x2
    generalize d.toNat = x3
    omega
  refine roundTrip_word (hw ▸ pack_lt hf) (fun ref hl hr hm => ?_)
  generalize encodeNat (.vneg d a ty m) = wd at hw hm ⊢
  have f0 : fld wd 2 0 = m.toNat := hw ▸ fld_pack hf 0 rfl rfl (by decide)
  have f1 : fld wd 7 3 = 9 := hw ▸ fld_pack hf 1 rfl rfl (by decide)
  have f2 : fld wd 10 8 = ty.code := hw ▸ fld_pack hf 2 rfl rfl (by decide)
  have f3 : fld wd 15 11 = 0 := hw ▸ fld_pack hf 3 rfl rfl (by decide)
  have f4 : fld wd 20 16 = a.toNat := hw ▸ fld_pack hf 4 rfl rfl (by decide)
  have f5 : fld wd 25 21 = d.toNat := hw ▸ fld_pack hf 5 rfl rfl (by decide)
  have f6 : fld wd 31 26 = 34 := hw ▸ fld_pack hf 6 rfl rfl (by decide)
  have e1 : decodeForm ref wd = decode22 wd := by simp only [decodeForm, f6]
  rw [e1]
  simp only [decode22, f0, f1, f2, f3, f4, f5]
  simp [formOf, hl, hr]

/-- Table 4-10, major 0x22. -/
theorem RoundTrip.vand (d : Reg5) (a : Reg5) (b : Reg5) (ty : IType) (m : BitVec 3) : RoundTrip.Statement (.vand d a b ty m) := by
  have hf : fitBits [(m.toNat, 3), (10, 5), (ty.code, 3), (b.toNat, 5), (a.toNat, 5), (d.toNat, 5), (34, 6)] := ⟨m.isLt, by decide, IType.code_lt ty, b.isLt, a.isLt, d.isLt, by decide, trivial⟩
  have hw : encodeNat (.vand d a b ty m) = packBits [(m.toNat, 3), (10, 5), (ty.code, 3), (b.toNat, 5), (a.toNat, 5), (d.toNat, 5), (34, 6)] := by
    change 2281701456 + d.toNat * 2097152 + a.toNat * 65536 + b.toNat * 2048 + ty.code * 256 + m.toNat = _
    simp only [packBits]
    generalize m.toNat = x0
    generalize ty.code = x1
    generalize b.toNat = x2
    generalize a.toNat = x3
    generalize d.toNat = x4
    omega
  refine roundTrip_word (hw ▸ pack_lt hf) (fun ref hl hr hm => ?_)
  generalize encodeNat (.vand d a b ty m) = wd at hw hm ⊢
  have f0 : fld wd 2 0 = m.toNat := hw ▸ fld_pack hf 0 rfl rfl (by decide)
  have f1 : fld wd 7 3 = 10 := hw ▸ fld_pack hf 1 rfl rfl (by decide)
  have f2 : fld wd 10 8 = ty.code := hw ▸ fld_pack hf 2 rfl rfl (by decide)
  have f3 : fld wd 15 11 = b.toNat := hw ▸ fld_pack hf 3 rfl rfl (by decide)
  have f4 : fld wd 20 16 = a.toNat := hw ▸ fld_pack hf 4 rfl rfl (by decide)
  have f5 : fld wd 25 21 = d.toNat := hw ▸ fld_pack hf 5 rfl rfl (by decide)
  have f6 : fld wd 31 26 = 34 := hw ▸ fld_pack hf 6 rfl rfl (by decide)
  have e1 : decodeForm ref wd = decode22 wd := by simp only [decodeForm, f6]
  rw [e1]
  simp only [decode22, f0, f1, f2, f3, f4, f5]
  simp [formOf, hl, hr]

/-- Table 4-10, major 0x22. -/
theorem RoundTrip.vor (d : Reg5) (a : Reg5) (b : Reg5) (ty : IType) (m : BitVec 3) : RoundTrip.Statement (.vor d a b ty m) := by
  have hf : fitBits [(m.toNat, 3), (11, 5), (ty.code, 3), (b.toNat, 5), (a.toNat, 5), (d.toNat, 5), (34, 6)] := ⟨m.isLt, by decide, IType.code_lt ty, b.isLt, a.isLt, d.isLt, by decide, trivial⟩
  have hw : encodeNat (.vor d a b ty m) = packBits [(m.toNat, 3), (11, 5), (ty.code, 3), (b.toNat, 5), (a.toNat, 5), (d.toNat, 5), (34, 6)] := by
    change 2281701464 + d.toNat * 2097152 + a.toNat * 65536 + b.toNat * 2048 + ty.code * 256 + m.toNat = _
    simp only [packBits]
    generalize m.toNat = x0
    generalize ty.code = x1
    generalize b.toNat = x2
    generalize a.toNat = x3
    generalize d.toNat = x4
    omega
  refine roundTrip_word (hw ▸ pack_lt hf) (fun ref hl hr hm => ?_)
  generalize encodeNat (.vor d a b ty m) = wd at hw hm ⊢
  have f0 : fld wd 2 0 = m.toNat := hw ▸ fld_pack hf 0 rfl rfl (by decide)
  have f1 : fld wd 7 3 = 11 := hw ▸ fld_pack hf 1 rfl rfl (by decide)
  have f2 : fld wd 10 8 = ty.code := hw ▸ fld_pack hf 2 rfl rfl (by decide)
  have f3 : fld wd 15 11 = b.toNat := hw ▸ fld_pack hf 3 rfl rfl (by decide)
  have f4 : fld wd 20 16 = a.toNat := hw ▸ fld_pack hf 4 rfl rfl (by decide)
  have f5 : fld wd 25 21 = d.toNat := hw ▸ fld_pack hf 5 rfl rfl (by decide)
  have f6 : fld wd 31 26 = 34 := hw ▸ fld_pack hf 6 rfl rfl (by decide)
  have e1 : decodeForm ref wd = decode22 wd := by simp only [decodeForm, f6]
  rw [e1]
  simp only [decode22, f0, f1, f2, f3, f4, f5]
  simp [formOf, hl, hr]

/-- Table 4-10, major 0x22. -/
theorem RoundTrip.vxor (d : Reg5) (a : Reg5) (b : Reg5) (ty : IType) (m : BitVec 3) : RoundTrip.Statement (.vxor d a b ty m) := by
  have hf : fitBits [(m.toNat, 3), (12, 5), (ty.code, 3), (b.toNat, 5), (a.toNat, 5), (d.toNat, 5), (34, 6)] := ⟨m.isLt, by decide, IType.code_lt ty, b.isLt, a.isLt, d.isLt, by decide, trivial⟩
  have hw : encodeNat (.vxor d a b ty m) = packBits [(m.toNat, 3), (12, 5), (ty.code, 3), (b.toNat, 5), (a.toNat, 5), (d.toNat, 5), (34, 6)] := by
    change 2281701472 + d.toNat * 2097152 + a.toNat * 65536 + b.toNat * 2048 + ty.code * 256 + m.toNat = _
    simp only [packBits]
    generalize m.toNat = x0
    generalize ty.code = x1
    generalize b.toNat = x2
    generalize a.toNat = x3
    generalize d.toNat = x4
    omega
  refine roundTrip_word (hw ▸ pack_lt hf) (fun ref hl hr hm => ?_)
  generalize encodeNat (.vxor d a b ty m) = wd at hw hm ⊢
  have f0 : fld wd 2 0 = m.toNat := hw ▸ fld_pack hf 0 rfl rfl (by decide)
  have f1 : fld wd 7 3 = 12 := hw ▸ fld_pack hf 1 rfl rfl (by decide)
  have f2 : fld wd 10 8 = ty.code := hw ▸ fld_pack hf 2 rfl rfl (by decide)
  have f3 : fld wd 15 11 = b.toNat := hw ▸ fld_pack hf 3 rfl rfl (by decide)
  have f4 : fld wd 20 16 = a.toNat := hw ▸ fld_pack hf 4 rfl rfl (by decide)
  have f5 : fld wd 25 21 = d.toNat := hw ▸ fld_pack hf 5 rfl rfl (by decide)
  have f6 : fld wd 31 26 = 34 := hw ▸ fld_pack hf 6 rfl rfl (by decide)
  have e1 : decodeForm ref wd = decode22 wd := by simp only [decodeForm, f6]
  rw [e1]
  simp only [decode22, f0, f1, f2, f3, f4, f5]
  simp [formOf, hl, hr]

/-- Table 4-10, major 0x22. -/
theorem RoundTrip.vandn (d : Reg5) (a : Reg5) (b : Reg5) (ty : IType) (m : BitVec 3) : RoundTrip.Statement (.vandn d a b ty m) := by
  have hf : fitBits [(m.toNat, 3), (13, 5), (ty.code, 3), (b.toNat, 5), (a.toNat, 5), (d.toNat, 5), (34, 6)] := ⟨m.isLt, by decide, IType.code_lt ty, b.isLt, a.isLt, d.isLt, by decide, trivial⟩
  have hw : encodeNat (.vandn d a b ty m) = packBits [(m.toNat, 3), (13, 5), (ty.code, 3), (b.toNat, 5), (a.toNat, 5), (d.toNat, 5), (34, 6)] := by
    change 2281701480 + d.toNat * 2097152 + a.toNat * 65536 + b.toNat * 2048 + ty.code * 256 + m.toNat = _
    simp only [packBits]
    generalize m.toNat = x0
    generalize ty.code = x1
    generalize b.toNat = x2
    generalize a.toNat = x3
    generalize d.toNat = x4
    omega
  refine roundTrip_word (hw ▸ pack_lt hf) (fun ref hl hr hm => ?_)
  generalize encodeNat (.vandn d a b ty m) = wd at hw hm ⊢
  have f0 : fld wd 2 0 = m.toNat := hw ▸ fld_pack hf 0 rfl rfl (by decide)
  have f1 : fld wd 7 3 = 13 := hw ▸ fld_pack hf 1 rfl rfl (by decide)
  have f2 : fld wd 10 8 = ty.code := hw ▸ fld_pack hf 2 rfl rfl (by decide)
  have f3 : fld wd 15 11 = b.toNat := hw ▸ fld_pack hf 3 rfl rfl (by decide)
  have f4 : fld wd 20 16 = a.toNat := hw ▸ fld_pack hf 4 rfl rfl (by decide)
  have f5 : fld wd 25 21 = d.toNat := hw ▸ fld_pack hf 5 rfl rfl (by decide)
  have f6 : fld wd 31 26 = 34 := hw ▸ fld_pack hf 6 rfl rfl (by decide)
  have e1 : decodeForm ref wd = decode22 wd := by simp only [decodeForm, f6]
  rw [e1]
  simp only [decode22, f0, f1, f2, f3, f4, f5]
  simp [formOf, hl, hr]

/-- Table 4-10, major 0x22. -/
theorem RoundTrip.vsll (d : Reg5) (a : Reg5) (b : Reg5) (ty : IType) (m : BitVec 3) : RoundTrip.Statement (.vsll d a b ty m) := by
  have hf : fitBits [(m.toNat, 3), (14, 5), (ty.code, 3), (b.toNat, 5), (a.toNat, 5), (d.toNat, 5), (34, 6)] := ⟨m.isLt, by decide, IType.code_lt ty, b.isLt, a.isLt, d.isLt, by decide, trivial⟩
  have hw : encodeNat (.vsll d a b ty m) = packBits [(m.toNat, 3), (14, 5), (ty.code, 3), (b.toNat, 5), (a.toNat, 5), (d.toNat, 5), (34, 6)] := by
    change 2281701488 + d.toNat * 2097152 + a.toNat * 65536 + b.toNat * 2048 + ty.code * 256 + m.toNat = _
    simp only [packBits]
    generalize m.toNat = x0
    generalize ty.code = x1
    generalize b.toNat = x2
    generalize a.toNat = x3
    generalize d.toNat = x4
    omega
  refine roundTrip_word (hw ▸ pack_lt hf) (fun ref hl hr hm => ?_)
  generalize encodeNat (.vsll d a b ty m) = wd at hw hm ⊢
  have f0 : fld wd 2 0 = m.toNat := hw ▸ fld_pack hf 0 rfl rfl (by decide)
  have f1 : fld wd 7 3 = 14 := hw ▸ fld_pack hf 1 rfl rfl (by decide)
  have f2 : fld wd 10 8 = ty.code := hw ▸ fld_pack hf 2 rfl rfl (by decide)
  have f3 : fld wd 15 11 = b.toNat := hw ▸ fld_pack hf 3 rfl rfl (by decide)
  have f4 : fld wd 20 16 = a.toNat := hw ▸ fld_pack hf 4 rfl rfl (by decide)
  have f5 : fld wd 25 21 = d.toNat := hw ▸ fld_pack hf 5 rfl rfl (by decide)
  have f6 : fld wd 31 26 = 34 := hw ▸ fld_pack hf 6 rfl rfl (by decide)
  have e1 : decodeForm ref wd = decode22 wd := by simp only [decodeForm, f6]
  rw [e1]
  simp only [decode22, f0, f1, f2, f3, f4, f5]
  simp [formOf, hl, hr]

/-- Table 4-10, major 0x22. -/
theorem RoundTrip.vsrl (d : Reg5) (a : Reg5) (b : Reg5) (ty : IType) (m : BitVec 3) : RoundTrip.Statement (.vsrl d a b ty m) := by
  have hf : fitBits [(m.toNat, 3), (15, 5), (ty.code, 3), (b.toNat, 5), (a.toNat, 5), (d.toNat, 5), (34, 6)] := ⟨m.isLt, by decide, IType.code_lt ty, b.isLt, a.isLt, d.isLt, by decide, trivial⟩
  have hw : encodeNat (.vsrl d a b ty m) = packBits [(m.toNat, 3), (15, 5), (ty.code, 3), (b.toNat, 5), (a.toNat, 5), (d.toNat, 5), (34, 6)] := by
    change 2281701496 + d.toNat * 2097152 + a.toNat * 65536 + b.toNat * 2048 + ty.code * 256 + m.toNat = _
    simp only [packBits]
    generalize m.toNat = x0
    generalize ty.code = x1
    generalize b.toNat = x2
    generalize a.toNat = x3
    generalize d.toNat = x4
    omega
  refine roundTrip_word (hw ▸ pack_lt hf) (fun ref hl hr hm => ?_)
  generalize encodeNat (.vsrl d a b ty m) = wd at hw hm ⊢
  have f0 : fld wd 2 0 = m.toNat := hw ▸ fld_pack hf 0 rfl rfl (by decide)
  have f1 : fld wd 7 3 = 15 := hw ▸ fld_pack hf 1 rfl rfl (by decide)
  have f2 : fld wd 10 8 = ty.code := hw ▸ fld_pack hf 2 rfl rfl (by decide)
  have f3 : fld wd 15 11 = b.toNat := hw ▸ fld_pack hf 3 rfl rfl (by decide)
  have f4 : fld wd 20 16 = a.toNat := hw ▸ fld_pack hf 4 rfl rfl (by decide)
  have f5 : fld wd 25 21 = d.toNat := hw ▸ fld_pack hf 5 rfl rfl (by decide)
  have f6 : fld wd 31 26 = 34 := hw ▸ fld_pack hf 6 rfl rfl (by decide)
  have e1 : decodeForm ref wd = decode22 wd := by simp only [decodeForm, f6]
  rw [e1]
  simp only [decode22, f0, f1, f2, f3, f4, f5]
  simp [formOf, hl, hr]

/-- Table 4-10, major 0x22. -/
theorem RoundTrip.vsra (d : Reg5) (a : Reg5) (b : Reg5) (ty : IType) (m : BitVec 3) : RoundTrip.Statement (.vsra d a b ty m) := by
  have hf : fitBits [(m.toNat, 3), (16, 5), (ty.code, 3), (b.toNat, 5), (a.toNat, 5), (d.toNat, 5), (34, 6)] := ⟨m.isLt, by decide, IType.code_lt ty, b.isLt, a.isLt, d.isLt, by decide, trivial⟩
  have hw : encodeNat (.vsra d a b ty m) = packBits [(m.toNat, 3), (16, 5), (ty.code, 3), (b.toNat, 5), (a.toNat, 5), (d.toNat, 5), (34, 6)] := by
    change 2281701504 + d.toNat * 2097152 + a.toNat * 65536 + b.toNat * 2048 + ty.code * 256 + m.toNat = _
    simp only [packBits]
    generalize m.toNat = x0
    generalize ty.code = x1
    generalize b.toNat = x2
    generalize a.toNat = x3
    generalize d.toNat = x4
    omega
  refine roundTrip_word (hw ▸ pack_lt hf) (fun ref hl hr hm => ?_)
  generalize encodeNat (.vsra d a b ty m) = wd at hw hm ⊢
  have f0 : fld wd 2 0 = m.toNat := hw ▸ fld_pack hf 0 rfl rfl (by decide)
  have f1 : fld wd 7 3 = 16 := hw ▸ fld_pack hf 1 rfl rfl (by decide)
  have f2 : fld wd 10 8 = ty.code := hw ▸ fld_pack hf 2 rfl rfl (by decide)
  have f3 : fld wd 15 11 = b.toNat := hw ▸ fld_pack hf 3 rfl rfl (by decide)
  have f4 : fld wd 20 16 = a.toNat := hw ▸ fld_pack hf 4 rfl rfl (by decide)
  have f5 : fld wd 25 21 = d.toNat := hw ▸ fld_pack hf 5 rfl rfl (by decide)
  have f6 : fld wd 31 26 = 34 := hw ▸ fld_pack hf 6 rfl rfl (by decide)
  have e1 : decodeForm ref wd = decode22 wd := by simp only [decodeForm, f6]
  rw [e1]
  simp only [decode22, f0, f1, f2, f3, f4, f5]
  simp [formOf, hl, hr]

/-- Table 4-10, major 0x22. -/
theorem RoundTrip.vsel (d : Reg5) (a : Reg5) (b : Reg5) (ty : IType) (m : BitVec 3) : RoundTrip.Statement (.vsel d a b ty m) := by
  have hf : fitBits [(m.toNat, 3), (17, 5), (ty.code, 3), (b.toNat, 5), (a.toNat, 5), (d.toNat, 5), (34, 6)] := ⟨m.isLt, by decide, IType.code_lt ty, b.isLt, a.isLt, d.isLt, by decide, trivial⟩
  have hw : encodeNat (.vsel d a b ty m) = packBits [(m.toNat, 3), (17, 5), (ty.code, 3), (b.toNat, 5), (a.toNat, 5), (d.toNat, 5), (34, 6)] := by
    change 2281701512 + d.toNat * 2097152 + a.toNat * 65536 + b.toNat * 2048 + ty.code * 256 + m.toNat = _
    simp only [packBits]
    generalize m.toNat = x0
    generalize ty.code = x1
    generalize b.toNat = x2
    generalize a.toNat = x3
    generalize d.toNat = x4
    omega
  refine roundTrip_word (hw ▸ pack_lt hf) (fun ref hl hr hm => ?_)
  generalize encodeNat (.vsel d a b ty m) = wd at hw hm ⊢
  have f0 : fld wd 2 0 = m.toNat := hw ▸ fld_pack hf 0 rfl rfl (by decide)
  have f1 : fld wd 7 3 = 17 := hw ▸ fld_pack hf 1 rfl rfl (by decide)
  have f2 : fld wd 10 8 = ty.code := hw ▸ fld_pack hf 2 rfl rfl (by decide)
  have f3 : fld wd 15 11 = b.toNat := hw ▸ fld_pack hf 3 rfl rfl (by decide)
  have f4 : fld wd 20 16 = a.toNat := hw ▸ fld_pack hf 4 rfl rfl (by decide)
  have f5 : fld wd 25 21 = d.toNat := hw ▸ fld_pack hf 5 rfl rfl (by decide)
  have f6 : fld wd 31 26 = 34 := hw ▸ fld_pack hf 6 rfl rfl (by decide)
  have e1 : decodeForm ref wd = decode22 wd := by simp only [decodeForm, f6]
  rw [e1]
  simp only [decode22, f0, f1, f2, f3, f4, f5]
  simp [formOf, hl, hr]

/-- Table 4-10, major 0x22. -/
theorem RoundTrip.vcmpEq (d : Reg5) (a : Reg5) (b : Reg5) (ty : IType) (m : BitVec 3) : RoundTrip.Statement (.vcmpEq d a b ty m) := by
  have hf : fitBits [(m.toNat, 3), (18, 5), (ty.code, 3), (b.toNat, 5), (a.toNat, 5), (d.toNat, 5), (34, 6)] := ⟨m.isLt, by decide, IType.code_lt ty, b.isLt, a.isLt, d.isLt, by decide, trivial⟩
  have hw : encodeNat (.vcmpEq d a b ty m) = packBits [(m.toNat, 3), (18, 5), (ty.code, 3), (b.toNat, 5), (a.toNat, 5), (d.toNat, 5), (34, 6)] := by
    change 2281701520 + d.toNat * 2097152 + a.toNat * 65536 + b.toNat * 2048 + ty.code * 256 + m.toNat = _
    simp only [packBits]
    generalize m.toNat = x0
    generalize ty.code = x1
    generalize b.toNat = x2
    generalize a.toNat = x3
    generalize d.toNat = x4
    omega
  refine roundTrip_word (hw ▸ pack_lt hf) (fun ref hl hr hm => ?_)
  generalize encodeNat (.vcmpEq d a b ty m) = wd at hw hm ⊢
  have f0 : fld wd 2 0 = m.toNat := hw ▸ fld_pack hf 0 rfl rfl (by decide)
  have f1 : fld wd 7 3 = 18 := hw ▸ fld_pack hf 1 rfl rfl (by decide)
  have f2 : fld wd 10 8 = ty.code := hw ▸ fld_pack hf 2 rfl rfl (by decide)
  have f3 : fld wd 15 11 = b.toNat := hw ▸ fld_pack hf 3 rfl rfl (by decide)
  have f4 : fld wd 20 16 = a.toNat := hw ▸ fld_pack hf 4 rfl rfl (by decide)
  have f5 : fld wd 25 21 = d.toNat := hw ▸ fld_pack hf 5 rfl rfl (by decide)
  have f6 : fld wd 31 26 = 34 := hw ▸ fld_pack hf 6 rfl rfl (by decide)
  have e1 : decodeForm ref wd = decode22 wd := by simp only [decodeForm, f6]
  rw [e1]
  simp only [decode22, f0, f1, f2, f3, f4, f5]
  simp [formOf, hl, hr]

/-- Table 4-10, major 0x22. -/
theorem RoundTrip.vcmpNe (d : Reg5) (a : Reg5) (b : Reg5) (ty : IType) (m : BitVec 3) : RoundTrip.Statement (.vcmpNe d a b ty m) := by
  have hf : fitBits [(m.toNat, 3), (19, 5), (ty.code, 3), (b.toNat, 5), (a.toNat, 5), (d.toNat, 5), (34, 6)] := ⟨m.isLt, by decide, IType.code_lt ty, b.isLt, a.isLt, d.isLt, by decide, trivial⟩
  have hw : encodeNat (.vcmpNe d a b ty m) = packBits [(m.toNat, 3), (19, 5), (ty.code, 3), (b.toNat, 5), (a.toNat, 5), (d.toNat, 5), (34, 6)] := by
    change 2281701528 + d.toNat * 2097152 + a.toNat * 65536 + b.toNat * 2048 + ty.code * 256 + m.toNat = _
    simp only [packBits]
    generalize m.toNat = x0
    generalize ty.code = x1
    generalize b.toNat = x2
    generalize a.toNat = x3
    generalize d.toNat = x4
    omega
  refine roundTrip_word (hw ▸ pack_lt hf) (fun ref hl hr hm => ?_)
  generalize encodeNat (.vcmpNe d a b ty m) = wd at hw hm ⊢
  have f0 : fld wd 2 0 = m.toNat := hw ▸ fld_pack hf 0 rfl rfl (by decide)
  have f1 : fld wd 7 3 = 19 := hw ▸ fld_pack hf 1 rfl rfl (by decide)
  have f2 : fld wd 10 8 = ty.code := hw ▸ fld_pack hf 2 rfl rfl (by decide)
  have f3 : fld wd 15 11 = b.toNat := hw ▸ fld_pack hf 3 rfl rfl (by decide)
  have f4 : fld wd 20 16 = a.toNat := hw ▸ fld_pack hf 4 rfl rfl (by decide)
  have f5 : fld wd 25 21 = d.toNat := hw ▸ fld_pack hf 5 rfl rfl (by decide)
  have f6 : fld wd 31 26 = 34 := hw ▸ fld_pack hf 6 rfl rfl (by decide)
  have e1 : decodeForm ref wd = decode22 wd := by simp only [decodeForm, f6]
  rw [e1]
  simp only [decode22, f0, f1, f2, f3, f4, f5]
  simp [formOf, hl, hr]

/-- Table 4-10, major 0x22. -/
theorem RoundTrip.vcmpLt (d : Reg5) (a : Reg5) (b : Reg5) (ty : IType) (m : BitVec 3) : RoundTrip.Statement (.vcmpLt d a b ty m) := by
  have hf : fitBits [(m.toNat, 3), (20, 5), (ty.code, 3), (b.toNat, 5), (a.toNat, 5), (d.toNat, 5), (34, 6)] := ⟨m.isLt, by decide, IType.code_lt ty, b.isLt, a.isLt, d.isLt, by decide, trivial⟩
  have hw : encodeNat (.vcmpLt d a b ty m) = packBits [(m.toNat, 3), (20, 5), (ty.code, 3), (b.toNat, 5), (a.toNat, 5), (d.toNat, 5), (34, 6)] := by
    change 2281701536 + d.toNat * 2097152 + a.toNat * 65536 + b.toNat * 2048 + ty.code * 256 + m.toNat = _
    simp only [packBits]
    generalize m.toNat = x0
    generalize ty.code = x1
    generalize b.toNat = x2
    generalize a.toNat = x3
    generalize d.toNat = x4
    omega
  refine roundTrip_word (hw ▸ pack_lt hf) (fun ref hl hr hm => ?_)
  generalize encodeNat (.vcmpLt d a b ty m) = wd at hw hm ⊢
  have f0 : fld wd 2 0 = m.toNat := hw ▸ fld_pack hf 0 rfl rfl (by decide)
  have f1 : fld wd 7 3 = 20 := hw ▸ fld_pack hf 1 rfl rfl (by decide)
  have f2 : fld wd 10 8 = ty.code := hw ▸ fld_pack hf 2 rfl rfl (by decide)
  have f3 : fld wd 15 11 = b.toNat := hw ▸ fld_pack hf 3 rfl rfl (by decide)
  have f4 : fld wd 20 16 = a.toNat := hw ▸ fld_pack hf 4 rfl rfl (by decide)
  have f5 : fld wd 25 21 = d.toNat := hw ▸ fld_pack hf 5 rfl rfl (by decide)
  have f6 : fld wd 31 26 = 34 := hw ▸ fld_pack hf 6 rfl rfl (by decide)
  have e1 : decodeForm ref wd = decode22 wd := by simp only [decodeForm, f6]
  rw [e1]
  simp only [decode22, f0, f1, f2, f3, f4, f5]
  simp [formOf, hl, hr]

/-- Table 4-10, major 0x22. -/
theorem RoundTrip.vcmpLe (d : Reg5) (a : Reg5) (b : Reg5) (ty : IType) (m : BitVec 3) : RoundTrip.Statement (.vcmpLe d a b ty m) := by
  have hf : fitBits [(m.toNat, 3), (21, 5), (ty.code, 3), (b.toNat, 5), (a.toNat, 5), (d.toNat, 5), (34, 6)] := ⟨m.isLt, by decide, IType.code_lt ty, b.isLt, a.isLt, d.isLt, by decide, trivial⟩
  have hw : encodeNat (.vcmpLe d a b ty m) = packBits [(m.toNat, 3), (21, 5), (ty.code, 3), (b.toNat, 5), (a.toNat, 5), (d.toNat, 5), (34, 6)] := by
    change 2281701544 + d.toNat * 2097152 + a.toNat * 65536 + b.toNat * 2048 + ty.code * 256 + m.toNat = _
    simp only [packBits]
    generalize m.toNat = x0
    generalize ty.code = x1
    generalize b.toNat = x2
    generalize a.toNat = x3
    generalize d.toNat = x4
    omega
  refine roundTrip_word (hw ▸ pack_lt hf) (fun ref hl hr hm => ?_)
  generalize encodeNat (.vcmpLe d a b ty m) = wd at hw hm ⊢
  have f0 : fld wd 2 0 = m.toNat := hw ▸ fld_pack hf 0 rfl rfl (by decide)
  have f1 : fld wd 7 3 = 21 := hw ▸ fld_pack hf 1 rfl rfl (by decide)
  have f2 : fld wd 10 8 = ty.code := hw ▸ fld_pack hf 2 rfl rfl (by decide)
  have f3 : fld wd 15 11 = b.toNat := hw ▸ fld_pack hf 3 rfl rfl (by decide)
  have f4 : fld wd 20 16 = a.toNat := hw ▸ fld_pack hf 4 rfl rfl (by decide)
  have f5 : fld wd 25 21 = d.toNat := hw ▸ fld_pack hf 5 rfl rfl (by decide)
  have f6 : fld wd 31 26 = 34 := hw ▸ fld_pack hf 6 rfl rfl (by decide)
  have e1 : decodeForm ref wd = decode22 wd := by simp only [decodeForm, f6]
  rw [e1]
  simp only [decode22, f0, f1, f2, f3, f4, f5]
  simp [formOf, hl, hr]

/-- Table 4-10, major 0x22. -/
theorem RoundTrip.vcmpGt (d : Reg5) (a : Reg5) (b : Reg5) (ty : IType) (m : BitVec 3) : RoundTrip.Statement (.vcmpGt d a b ty m) := by
  have hf : fitBits [(m.toNat, 3), (22, 5), (ty.code, 3), (b.toNat, 5), (a.toNat, 5), (d.toNat, 5), (34, 6)] := ⟨m.isLt, by decide, IType.code_lt ty, b.isLt, a.isLt, d.isLt, by decide, trivial⟩
  have hw : encodeNat (.vcmpGt d a b ty m) = packBits [(m.toNat, 3), (22, 5), (ty.code, 3), (b.toNat, 5), (a.toNat, 5), (d.toNat, 5), (34, 6)] := by
    change 2281701552 + d.toNat * 2097152 + a.toNat * 65536 + b.toNat * 2048 + ty.code * 256 + m.toNat = _
    simp only [packBits]
    generalize m.toNat = x0
    generalize ty.code = x1
    generalize b.toNat = x2
    generalize a.toNat = x3
    generalize d.toNat = x4
    omega
  refine roundTrip_word (hw ▸ pack_lt hf) (fun ref hl hr hm => ?_)
  generalize encodeNat (.vcmpGt d a b ty m) = wd at hw hm ⊢
  have f0 : fld wd 2 0 = m.toNat := hw ▸ fld_pack hf 0 rfl rfl (by decide)
  have f1 : fld wd 7 3 = 22 := hw ▸ fld_pack hf 1 rfl rfl (by decide)
  have f2 : fld wd 10 8 = ty.code := hw ▸ fld_pack hf 2 rfl rfl (by decide)
  have f3 : fld wd 15 11 = b.toNat := hw ▸ fld_pack hf 3 rfl rfl (by decide)
  have f4 : fld wd 20 16 = a.toNat := hw ▸ fld_pack hf 4 rfl rfl (by decide)
  have f5 : fld wd 25 21 = d.toNat := hw ▸ fld_pack hf 5 rfl rfl (by decide)
  have f6 : fld wd 31 26 = 34 := hw ▸ fld_pack hf 6 rfl rfl (by decide)
  have e1 : decodeForm ref wd = decode22 wd := by simp only [decodeForm, f6]
  rw [e1]
  simp only [decode22, f0, f1, f2, f3, f4, f5]
  simp [formOf, hl, hr]

/-- Table 4-10, major 0x22. -/
theorem RoundTrip.vcmpGe (d : Reg5) (a : Reg5) (b : Reg5) (ty : IType) (m : BitVec 3) : RoundTrip.Statement (.vcmpGe d a b ty m) := by
  have hf : fitBits [(m.toNat, 3), (23, 5), (ty.code, 3), (b.toNat, 5), (a.toNat, 5), (d.toNat, 5), (34, 6)] := ⟨m.isLt, by decide, IType.code_lt ty, b.isLt, a.isLt, d.isLt, by decide, trivial⟩
  have hw : encodeNat (.vcmpGe d a b ty m) = packBits [(m.toNat, 3), (23, 5), (ty.code, 3), (b.toNat, 5), (a.toNat, 5), (d.toNat, 5), (34, 6)] := by
    change 2281701560 + d.toNat * 2097152 + a.toNat * 65536 + b.toNat * 2048 + ty.code * 256 + m.toNat = _
    simp only [packBits]
    generalize m.toNat = x0
    generalize ty.code = x1
    generalize b.toNat = x2
    generalize a.toNat = x3
    generalize d.toNat = x4
    omega
  refine roundTrip_word (hw ▸ pack_lt hf) (fun ref hl hr hm => ?_)
  generalize encodeNat (.vcmpGe d a b ty m) = wd at hw hm ⊢
  have f0 : fld wd 2 0 = m.toNat := hw ▸ fld_pack hf 0 rfl rfl (by decide)
  have f1 : fld wd 7 3 = 23 := hw ▸ fld_pack hf 1 rfl rfl (by decide)
  have f2 : fld wd 10 8 = ty.code := hw ▸ fld_pack hf 2 rfl rfl (by decide)
  have f3 : fld wd 15 11 = b.toNat := hw ▸ fld_pack hf 3 rfl rfl (by decide)
  have f4 : fld wd 20 16 = a.toNat := hw ▸ fld_pack hf 4 rfl rfl (by decide)
  have f5 : fld wd 25 21 = d.toNat := hw ▸ fld_pack hf 5 rfl rfl (by decide)
  have f6 : fld wd 31 26 = 34 := hw ▸ fld_pack hf 6 rfl rfl (by decide)
  have e1 : decodeForm ref wd = decode22 wd := by simp only [decodeForm, f6]
  rw [e1]
  simp only [decode22, f0, f1, f2, f3, f4, f5]
  simp [formOf, hl, hr]

/-- Table 4-10, major 0x23. -/
theorem RoundTrip.vwadd (d : Reg5) (a : Reg5) (b : Reg5) (ty : WType) (m : BitVec 3) : RoundTrip.Statement (.vwadd d a b ty m) := by
  have hf : fitBits [(m.toNat, 3), (0, 3), (0, 1), (0, 1), (ty.code, 3), (b.toNat, 5), (a.toNat, 5), (d.toNat, 5), (35, 6)] := ⟨m.isLt, by decide, by decide, by decide, WType.code_lt ty, b.isLt, a.isLt, d.isLt, by decide, trivial⟩
  have hw : encodeNat (.vwadd d a b ty m) = packBits [(m.toNat, 3), (0, 3), (0, 1), (0, 1), (ty.code, 3), (b.toNat, 5), (a.toNat, 5), (d.toNat, 5), (35, 6)] := by
    change 2348810240 + d.toNat * 2097152 + a.toNat * 65536 + b.toNat * 2048 + ty.code * 256 + m.toNat = _
    simp only [packBits]
    generalize m.toNat = x0
    generalize ty.code = x1
    generalize b.toNat = x2
    generalize a.toNat = x3
    generalize d.toNat = x4
    omega
  refine roundTrip_word (hw ▸ pack_lt hf) (fun ref hl hr hm => ?_)
  generalize encodeNat (.vwadd d a b ty m) = wd at hw hm ⊢
  have f0 : fld wd 2 0 = m.toNat := hw ▸ fld_pack hf 0 rfl rfl (by decide)
  have f1 : fld wd 5 3 = 0 := hw ▸ fld_pack hf 1 rfl rfl (by decide)
  have f2 : fld wd 6 6 = 0 := hw ▸ fld_pack hf 2 rfl rfl (by decide)
  have f3 : fld wd 7 7 = 0 := hw ▸ fld_pack hf 3 rfl rfl (by decide)
  have f4 : fld wd 10 8 = ty.code := hw ▸ fld_pack hf 4 rfl rfl (by decide)
  have f5 : fld wd 15 11 = b.toNat := hw ▸ fld_pack hf 5 rfl rfl (by decide)
  have f6 : fld wd 20 16 = a.toNat := hw ▸ fld_pack hf 6 rfl rfl (by decide)
  have f7 : fld wd 25 21 = d.toNat := hw ▸ fld_pack hf 7 rfl rfl (by decide)
  have f8 : fld wd 31 26 = 35 := hw ▸ fld_pack hf 8 rfl rfl (by decide)
  have e1 : decodeForm ref wd = decode23 wd := by simp only [decodeForm, f8]
  rw [e1]
  simp only [decode23, f0, f1, f2, f3, f4, f5, f6, f7]
  simp [formOf, hl, hr]

/-- Table 4-10, major 0x23. -/
theorem RoundTrip.vwsub (d : Reg5) (a : Reg5) (b : Reg5) (ty : WType) (m : BitVec 3) : RoundTrip.Statement (.vwsub d a b ty m) := by
  have hf : fitBits [(m.toNat, 3), (1, 3), (0, 1), (0, 1), (ty.code, 3), (b.toNat, 5), (a.toNat, 5), (d.toNat, 5), (35, 6)] := ⟨m.isLt, by decide, by decide, by decide, WType.code_lt ty, b.isLt, a.isLt, d.isLt, by decide, trivial⟩
  have hw : encodeNat (.vwsub d a b ty m) = packBits [(m.toNat, 3), (1, 3), (0, 1), (0, 1), (ty.code, 3), (b.toNat, 5), (a.toNat, 5), (d.toNat, 5), (35, 6)] := by
    change 2348810248 + d.toNat * 2097152 + a.toNat * 65536 + b.toNat * 2048 + ty.code * 256 + m.toNat = _
    simp only [packBits]
    generalize m.toNat = x0
    generalize ty.code = x1
    generalize b.toNat = x2
    generalize a.toNat = x3
    generalize d.toNat = x4
    omega
  refine roundTrip_word (hw ▸ pack_lt hf) (fun ref hl hr hm => ?_)
  generalize encodeNat (.vwsub d a b ty m) = wd at hw hm ⊢
  have f0 : fld wd 2 0 = m.toNat := hw ▸ fld_pack hf 0 rfl rfl (by decide)
  have f1 : fld wd 5 3 = 1 := hw ▸ fld_pack hf 1 rfl rfl (by decide)
  have f2 : fld wd 6 6 = 0 := hw ▸ fld_pack hf 2 rfl rfl (by decide)
  have f3 : fld wd 7 7 = 0 := hw ▸ fld_pack hf 3 rfl rfl (by decide)
  have f4 : fld wd 10 8 = ty.code := hw ▸ fld_pack hf 4 rfl rfl (by decide)
  have f5 : fld wd 15 11 = b.toNat := hw ▸ fld_pack hf 5 rfl rfl (by decide)
  have f6 : fld wd 20 16 = a.toNat := hw ▸ fld_pack hf 6 rfl rfl (by decide)
  have f7 : fld wd 25 21 = d.toNat := hw ▸ fld_pack hf 7 rfl rfl (by decide)
  have f8 : fld wd 31 26 = 35 := hw ▸ fld_pack hf 8 rfl rfl (by decide)
  have e1 : decodeForm ref wd = decode23 wd := by simp only [decodeForm, f8]
  rw [e1]
  simp only [decode23, f0, f1, f2, f3, f4, f5, f6, f7]
  simp [formOf, hl, hr]

/-- Table 4-10, major 0x23. -/
theorem RoundTrip.vwmul (d : Reg5) (a : Reg5) (b : Reg5) (ty : WType) (m : BitVec 3) : RoundTrip.Statement (.vwmul d a b ty m) := by
  have hf : fitBits [(m.toNat, 3), (2, 3), (0, 1), (0, 1), (ty.code, 3), (b.toNat, 5), (a.toNat, 5), (d.toNat, 5), (35, 6)] := ⟨m.isLt, by decide, by decide, by decide, WType.code_lt ty, b.isLt, a.isLt, d.isLt, by decide, trivial⟩
  have hw : encodeNat (.vwmul d a b ty m) = packBits [(m.toNat, 3), (2, 3), (0, 1), (0, 1), (ty.code, 3), (b.toNat, 5), (a.toNat, 5), (d.toNat, 5), (35, 6)] := by
    change 2348810256 + d.toNat * 2097152 + a.toNat * 65536 + b.toNat * 2048 + ty.code * 256 + m.toNat = _
    simp only [packBits]
    generalize m.toNat = x0
    generalize ty.code = x1
    generalize b.toNat = x2
    generalize a.toNat = x3
    generalize d.toNat = x4
    omega
  refine roundTrip_word (hw ▸ pack_lt hf) (fun ref hl hr hm => ?_)
  generalize encodeNat (.vwmul d a b ty m) = wd at hw hm ⊢
  have f0 : fld wd 2 0 = m.toNat := hw ▸ fld_pack hf 0 rfl rfl (by decide)
  have f1 : fld wd 5 3 = 2 := hw ▸ fld_pack hf 1 rfl rfl (by decide)
  have f2 : fld wd 6 6 = 0 := hw ▸ fld_pack hf 2 rfl rfl (by decide)
  have f3 : fld wd 7 7 = 0 := hw ▸ fld_pack hf 3 rfl rfl (by decide)
  have f4 : fld wd 10 8 = ty.code := hw ▸ fld_pack hf 4 rfl rfl (by decide)
  have f5 : fld wd 15 11 = b.toNat := hw ▸ fld_pack hf 5 rfl rfl (by decide)
  have f6 : fld wd 20 16 = a.toNat := hw ▸ fld_pack hf 6 rfl rfl (by decide)
  have f7 : fld wd 25 21 = d.toNat := hw ▸ fld_pack hf 7 rfl rfl (by decide)
  have f8 : fld wd 31 26 = 35 := hw ▸ fld_pack hf 8 rfl rfl (by decide)
  have e1 : decodeForm ref wd = decode23 wd := by simp only [decodeForm, f8]
  rw [e1]
  simp only [decode23, f0, f1, f2, f3, f4, f5, f6, f7]
  simp [formOf, hl, hr]

/-- Table 4-10, major 0x23. -/
theorem RoundTrip.vdot2 (d : Reg5) (a : Reg5) (b : Reg5) (ty : WType) (sat : Bool) (m : BitVec 3) : RoundTrip.Statement (.vdot2 d a b ty sat m) := by
  have hf : fitBits [(m.toNat, 3), (3, 3), (boolCode sat, 1), (0, 1), (ty.code, 3), (b.toNat, 5), (a.toNat, 5), (d.toNat, 5), (35, 6)] := ⟨m.isLt, by decide, boolCode_lt sat, by decide, WType.code_lt ty, b.isLt, a.isLt, d.isLt, by decide, trivial⟩
  have hw : encodeNat (.vdot2 d a b ty sat m) = packBits [(m.toNat, 3), (3, 3), (boolCode sat, 1), (0, 1), (ty.code, 3), (b.toNat, 5), (a.toNat, 5), (d.toNat, 5), (35, 6)] := by
    change 2348810264 + d.toNat * 2097152 + a.toNat * 65536 + b.toNat * 2048 + ty.code * 256 + boolCode sat * 64 + m.toNat = _
    simp only [packBits]
    generalize m.toNat = x0
    generalize boolCode sat = x1
    generalize ty.code = x2
    generalize b.toNat = x3
    generalize a.toNat = x4
    generalize d.toNat = x5
    omega
  refine roundTrip_word (hw ▸ pack_lt hf) (fun ref hl hr hm => ?_)
  generalize encodeNat (.vdot2 d a b ty sat m) = wd at hw hm ⊢
  have f0 : fld wd 2 0 = m.toNat := hw ▸ fld_pack hf 0 rfl rfl (by decide)
  have f1 : fld wd 5 3 = 3 := hw ▸ fld_pack hf 1 rfl rfl (by decide)
  have f2 : fld wd 6 6 = boolCode sat := hw ▸ fld_pack hf 2 rfl rfl (by decide)
  have f3 : fld wd 7 7 = 0 := hw ▸ fld_pack hf 3 rfl rfl (by decide)
  have f4 : fld wd 10 8 = ty.code := hw ▸ fld_pack hf 4 rfl rfl (by decide)
  have f5 : fld wd 15 11 = b.toNat := hw ▸ fld_pack hf 5 rfl rfl (by decide)
  have f6 : fld wd 20 16 = a.toNat := hw ▸ fld_pack hf 6 rfl rfl (by decide)
  have f7 : fld wd 25 21 = d.toNat := hw ▸ fld_pack hf 7 rfl rfl (by decide)
  have f8 : fld wd 31 26 = 35 := hw ▸ fld_pack hf 8 rfl rfl (by decide)
  have e1 : decodeForm ref wd = decode23 wd := by simp only [decodeForm, f8]
  rw [e1]
  simp only [decode23, f0, f1, f2, f3, f4, f5, f6, f7]
  simp [formOf, hl, hr]

/-- Table 4-10, major 0x23. -/
theorem RoundTrip.vdot4 (d : Reg5) (a : Reg5) (b : Reg5) (ty : WType) (sat : Bool) (m : BitVec 3) : RoundTrip.Statement (.vdot4 d a b ty sat m) := by
  have hf : fitBits [(m.toNat, 3), (4, 3), (boolCode sat, 1), (0, 1), (ty.code, 3), (b.toNat, 5), (a.toNat, 5), (d.toNat, 5), (35, 6)] := ⟨m.isLt, by decide, boolCode_lt sat, by decide, WType.code_lt ty, b.isLt, a.isLt, d.isLt, by decide, trivial⟩
  have hw : encodeNat (.vdot4 d a b ty sat m) = packBits [(m.toNat, 3), (4, 3), (boolCode sat, 1), (0, 1), (ty.code, 3), (b.toNat, 5), (a.toNat, 5), (d.toNat, 5), (35, 6)] := by
    change 2348810272 + d.toNat * 2097152 + a.toNat * 65536 + b.toNat * 2048 + ty.code * 256 + boolCode sat * 64 + m.toNat = _
    simp only [packBits]
    generalize m.toNat = x0
    generalize boolCode sat = x1
    generalize ty.code = x2
    generalize b.toNat = x3
    generalize a.toNat = x4
    generalize d.toNat = x5
    omega
  refine roundTrip_word (hw ▸ pack_lt hf) (fun ref hl hr hm => ?_)
  generalize encodeNat (.vdot4 d a b ty sat m) = wd at hw hm ⊢
  have f0 : fld wd 2 0 = m.toNat := hw ▸ fld_pack hf 0 rfl rfl (by decide)
  have f1 : fld wd 5 3 = 4 := hw ▸ fld_pack hf 1 rfl rfl (by decide)
  have f2 : fld wd 6 6 = boolCode sat := hw ▸ fld_pack hf 2 rfl rfl (by decide)
  have f3 : fld wd 7 7 = 0 := hw ▸ fld_pack hf 3 rfl rfl (by decide)
  have f4 : fld wd 10 8 = ty.code := hw ▸ fld_pack hf 4 rfl rfl (by decide)
  have f5 : fld wd 15 11 = b.toNat := hw ▸ fld_pack hf 5 rfl rfl (by decide)
  have f6 : fld wd 20 16 = a.toNat := hw ▸ fld_pack hf 6 rfl rfl (by decide)
  have f7 : fld wd 25 21 = d.toNat := hw ▸ fld_pack hf 7 rfl rfl (by decide)
  have f8 : fld wd 31 26 = 35 := hw ▸ fld_pack hf 8 rfl rfl (by decide)
  have e1 : decodeForm ref wd = decode23 wd := by simp only [decodeForm, f8]
  rw [e1]
  simp only [decode23, f0, f1, f2, f3, f4, f5, f6, f7]
  simp [formOf, hl, hr]

/-- Table 4-10, major 0x23. -/
theorem RoundTrip.vnarrow (d : Reg5) (a : Reg5) (ty : WType) (sat : Bool) (m : BitVec 3) : RoundTrip.Statement (.vnarrow d a ty sat m) := by
  have hf : fitBits [(m.toNat, 3), (5, 3), (boolCode sat, 1), (0, 1), (ty.code, 3), (0, 5), (a.toNat, 5), (d.toNat, 5), (35, 6)] := ⟨m.isLt, by decide, boolCode_lt sat, by decide, WType.code_lt ty, by decide, a.isLt, d.isLt, by decide, trivial⟩
  have hw : encodeNat (.vnarrow d a ty sat m) = packBits [(m.toNat, 3), (5, 3), (boolCode sat, 1), (0, 1), (ty.code, 3), (0, 5), (a.toNat, 5), (d.toNat, 5), (35, 6)] := by
    change 2348810280 + d.toNat * 2097152 + a.toNat * 65536 + ty.code * 256 + boolCode sat * 64 + m.toNat = _
    simp only [packBits]
    generalize m.toNat = x0
    generalize boolCode sat = x1
    generalize ty.code = x2
    generalize a.toNat = x3
    generalize d.toNat = x4
    omega
  refine roundTrip_word (hw ▸ pack_lt hf) (fun ref hl hr hm => ?_)
  generalize encodeNat (.vnarrow d a ty sat m) = wd at hw hm ⊢
  have f0 : fld wd 2 0 = m.toNat := hw ▸ fld_pack hf 0 rfl rfl (by decide)
  have f1 : fld wd 5 3 = 5 := hw ▸ fld_pack hf 1 rfl rfl (by decide)
  have f2 : fld wd 6 6 = boolCode sat := hw ▸ fld_pack hf 2 rfl rfl (by decide)
  have f3 : fld wd 7 7 = 0 := hw ▸ fld_pack hf 3 rfl rfl (by decide)
  have f4 : fld wd 10 8 = ty.code := hw ▸ fld_pack hf 4 rfl rfl (by decide)
  have f5 : fld wd 15 11 = 0 := hw ▸ fld_pack hf 5 rfl rfl (by decide)
  have f6 : fld wd 20 16 = a.toNat := hw ▸ fld_pack hf 6 rfl rfl (by decide)
  have f7 : fld wd 25 21 = d.toNat := hw ▸ fld_pack hf 7 rfl rfl (by decide)
  have f8 : fld wd 31 26 = 35 := hw ▸ fld_pack hf 8 rfl rfl (by decide)
  have e1 : decodeForm ref wd = decode23 wd := by simp only [decodeForm, f8]
  rw [e1]
  simp only [decode23, f0, f1, f2, f3, f4, f5, f6, f7]
  simp [formOf, hl, hr]

/-- Table 4-10, major 0x24. -/
theorem RoundTrip.vfadd (d : Reg5) (a : Reg5) (b : Reg5) (f : FFmt) (rm : RMode) : RoundTrip.Statement (.vfadd d a b f rm) := by
  cases rm with
  | masked m =>
    have hf : fitBits [(m.toNat, 3), (0, 5), (f.code, 2), (0, 1), (b.toNat, 5), (a.toNat, 5), (d.toNat, 5), (36, 6)] := ⟨m.isLt, by decide, FFmt.code_lt f, by decide, b.isLt, a.isLt, d.isLt, by decide, trivial⟩
    have hw : encodeNat (.vfadd d a b f (.masked m)) = packBits [(m.toNat, 3), (0, 5), (f.code, 2), (0, 1), (b.toNat, 5), (a.toNat, 5), (d.toNat, 5), (36, 6)] := by
      change 2415919104 + d.toNat * 2097152 + a.toNat * 65536 + b.toNat * 2048 + f.code * 256 + m.toNat = _
      simp only [packBits]
      generalize m.toNat = x0
      generalize f.code = x1
      generalize b.toNat = x2
      generalize a.toNat = x3
      generalize d.toNat = x4
      omega
    refine roundTrip_word (hw ▸ pack_lt hf) (fun ref hl hr hm => ?_)
    generalize encodeNat (.vfadd d a b f (.masked m)) = wd at hw hm ⊢
    have f0 : fld wd 2 0 = m.toNat := hw ▸ fld_pack hf 0 rfl rfl (by decide)
    have f1 : fld wd 7 3 = 0 := hw ▸ fld_pack hf 1 rfl rfl (by decide)
    have f2 : fld wd 9 8 = f.code := hw ▸ fld_pack hf 2 rfl rfl (by decide)
    have f3 : fld wd 10 10 = 0 := hw ▸ fld_pack hf 3 rfl rfl (by decide)
    have f4 : fld wd 15 11 = b.toNat := hw ▸ fld_pack hf 4 rfl rfl (by decide)
    have f5 : fld wd 20 16 = a.toNat := hw ▸ fld_pack hf 5 rfl rfl (by decide)
    have f6 : fld wd 25 21 = d.toNat := hw ▸ fld_pack hf 6 rfl rfl (by decide)
    have f7 : fld wd 31 26 = 36 := hw ▸ fld_pack hf 7 rfl rfl (by decide)
    have e1 : decodeForm ref wd = decode24 wd := by simp only [decodeForm, f7]
    rw [e1]
    simp only [decode24, RMode.ofWord, f0, f1, f2, f3, f4, f5, f6]
    simp [formOf, hl, hr]
  | static r =>
    have hf : fitBits [(r.code, 3), (0, 5), (f.code, 2), (1, 1), (b.toNat, 5), (a.toNat, 5), (d.toNat, 5), (36, 6)] := ⟨Rnd.code_lt r, by decide, FFmt.code_lt f, by decide, b.isLt, a.isLt, d.isLt, by decide, trivial⟩
    have hw : encodeNat (.vfadd d a b f (.static r)) = packBits [(r.code, 3), (0, 5), (f.code, 2), (1, 1), (b.toNat, 5), (a.toNat, 5), (d.toNat, 5), (36, 6)] := by
      change 2415919104 + d.toNat * 2097152 + a.toNat * 65536 + b.toNat * 2048 + f.code * 256 + (1024 + r.code) = _
      simp only [packBits]
      generalize r.code = x0
      generalize f.code = x1
      generalize b.toNat = x2
      generalize a.toNat = x3
      generalize d.toNat = x4
      omega
    refine roundTrip_word (hw ▸ pack_lt hf) (fun ref hl hr hm => ?_)
    generalize encodeNat (.vfadd d a b f (.static r)) = wd at hw hm ⊢
    have f0 : fld wd 2 0 = r.code := hw ▸ fld_pack hf 0 rfl rfl (by decide)
    have f1 : fld wd 7 3 = 0 := hw ▸ fld_pack hf 1 rfl rfl (by decide)
    have f2 : fld wd 9 8 = f.code := hw ▸ fld_pack hf 2 rfl rfl (by decide)
    have f3 : fld wd 10 10 = 1 := hw ▸ fld_pack hf 3 rfl rfl (by decide)
    have f4 : fld wd 15 11 = b.toNat := hw ▸ fld_pack hf 4 rfl rfl (by decide)
    have f5 : fld wd 20 16 = a.toNat := hw ▸ fld_pack hf 5 rfl rfl (by decide)
    have f6 : fld wd 25 21 = d.toNat := hw ▸ fld_pack hf 6 rfl rfl (by decide)
    have f7 : fld wd 31 26 = 36 := hw ▸ fld_pack hf 7 rfl rfl (by decide)
    have e1 : decodeForm ref wd = decode24 wd := by simp only [decodeForm, f7]
    rw [e1]
    simp only [decode24, RMode.ofWord, f0, f1, f2, f3, f4, f5, f6]
    simp [formOf, hl, hr]

/-- Table 4-10, major 0x24. -/
theorem RoundTrip.vfsub (d : Reg5) (a : Reg5) (b : Reg5) (f : FFmt) (rm : RMode) : RoundTrip.Statement (.vfsub d a b f rm) := by
  cases rm with
  | masked m =>
    have hf : fitBits [(m.toNat, 3), (1, 5), (f.code, 2), (0, 1), (b.toNat, 5), (a.toNat, 5), (d.toNat, 5), (36, 6)] := ⟨m.isLt, by decide, FFmt.code_lt f, by decide, b.isLt, a.isLt, d.isLt, by decide, trivial⟩
    have hw : encodeNat (.vfsub d a b f (.masked m)) = packBits [(m.toNat, 3), (1, 5), (f.code, 2), (0, 1), (b.toNat, 5), (a.toNat, 5), (d.toNat, 5), (36, 6)] := by
      change 2415919112 + d.toNat * 2097152 + a.toNat * 65536 + b.toNat * 2048 + f.code * 256 + m.toNat = _
      simp only [packBits]
      generalize m.toNat = x0
      generalize f.code = x1
      generalize b.toNat = x2
      generalize a.toNat = x3
      generalize d.toNat = x4
      omega
    refine roundTrip_word (hw ▸ pack_lt hf) (fun ref hl hr hm => ?_)
    generalize encodeNat (.vfsub d a b f (.masked m)) = wd at hw hm ⊢
    have f0 : fld wd 2 0 = m.toNat := hw ▸ fld_pack hf 0 rfl rfl (by decide)
    have f1 : fld wd 7 3 = 1 := hw ▸ fld_pack hf 1 rfl rfl (by decide)
    have f2 : fld wd 9 8 = f.code := hw ▸ fld_pack hf 2 rfl rfl (by decide)
    have f3 : fld wd 10 10 = 0 := hw ▸ fld_pack hf 3 rfl rfl (by decide)
    have f4 : fld wd 15 11 = b.toNat := hw ▸ fld_pack hf 4 rfl rfl (by decide)
    have f5 : fld wd 20 16 = a.toNat := hw ▸ fld_pack hf 5 rfl rfl (by decide)
    have f6 : fld wd 25 21 = d.toNat := hw ▸ fld_pack hf 6 rfl rfl (by decide)
    have f7 : fld wd 31 26 = 36 := hw ▸ fld_pack hf 7 rfl rfl (by decide)
    have e1 : decodeForm ref wd = decode24 wd := by simp only [decodeForm, f7]
    rw [e1]
    simp only [decode24, RMode.ofWord, f0, f1, f2, f3, f4, f5, f6]
    simp [formOf, hl, hr]
  | static r =>
    have hf : fitBits [(r.code, 3), (1, 5), (f.code, 2), (1, 1), (b.toNat, 5), (a.toNat, 5), (d.toNat, 5), (36, 6)] := ⟨Rnd.code_lt r, by decide, FFmt.code_lt f, by decide, b.isLt, a.isLt, d.isLt, by decide, trivial⟩
    have hw : encodeNat (.vfsub d a b f (.static r)) = packBits [(r.code, 3), (1, 5), (f.code, 2), (1, 1), (b.toNat, 5), (a.toNat, 5), (d.toNat, 5), (36, 6)] := by
      change 2415919112 + d.toNat * 2097152 + a.toNat * 65536 + b.toNat * 2048 + f.code * 256 + (1024 + r.code) = _
      simp only [packBits]
      generalize r.code = x0
      generalize f.code = x1
      generalize b.toNat = x2
      generalize a.toNat = x3
      generalize d.toNat = x4
      omega
    refine roundTrip_word (hw ▸ pack_lt hf) (fun ref hl hr hm => ?_)
    generalize encodeNat (.vfsub d a b f (.static r)) = wd at hw hm ⊢
    have f0 : fld wd 2 0 = r.code := hw ▸ fld_pack hf 0 rfl rfl (by decide)
    have f1 : fld wd 7 3 = 1 := hw ▸ fld_pack hf 1 rfl rfl (by decide)
    have f2 : fld wd 9 8 = f.code := hw ▸ fld_pack hf 2 rfl rfl (by decide)
    have f3 : fld wd 10 10 = 1 := hw ▸ fld_pack hf 3 rfl rfl (by decide)
    have f4 : fld wd 15 11 = b.toNat := hw ▸ fld_pack hf 4 rfl rfl (by decide)
    have f5 : fld wd 20 16 = a.toNat := hw ▸ fld_pack hf 5 rfl rfl (by decide)
    have f6 : fld wd 25 21 = d.toNat := hw ▸ fld_pack hf 6 rfl rfl (by decide)
    have f7 : fld wd 31 26 = 36 := hw ▸ fld_pack hf 7 rfl rfl (by decide)
    have e1 : decodeForm ref wd = decode24 wd := by simp only [decodeForm, f7]
    rw [e1]
    simp only [decode24, RMode.ofWord, f0, f1, f2, f3, f4, f5, f6]
    simp [formOf, hl, hr]

/-- Table 4-10, major 0x24. -/
theorem RoundTrip.vfmul (d : Reg5) (a : Reg5) (b : Reg5) (f : FFmt) (rm : RMode) : RoundTrip.Statement (.vfmul d a b f rm) := by
  cases rm with
  | masked m =>
    have hf : fitBits [(m.toNat, 3), (2, 5), (f.code, 2), (0, 1), (b.toNat, 5), (a.toNat, 5), (d.toNat, 5), (36, 6)] := ⟨m.isLt, by decide, FFmt.code_lt f, by decide, b.isLt, a.isLt, d.isLt, by decide, trivial⟩
    have hw : encodeNat (.vfmul d a b f (.masked m)) = packBits [(m.toNat, 3), (2, 5), (f.code, 2), (0, 1), (b.toNat, 5), (a.toNat, 5), (d.toNat, 5), (36, 6)] := by
      change 2415919120 + d.toNat * 2097152 + a.toNat * 65536 + b.toNat * 2048 + f.code * 256 + m.toNat = _
      simp only [packBits]
      generalize m.toNat = x0
      generalize f.code = x1
      generalize b.toNat = x2
      generalize a.toNat = x3
      generalize d.toNat = x4
      omega
    refine roundTrip_word (hw ▸ pack_lt hf) (fun ref hl hr hm => ?_)
    generalize encodeNat (.vfmul d a b f (.masked m)) = wd at hw hm ⊢
    have f0 : fld wd 2 0 = m.toNat := hw ▸ fld_pack hf 0 rfl rfl (by decide)
    have f1 : fld wd 7 3 = 2 := hw ▸ fld_pack hf 1 rfl rfl (by decide)
    have f2 : fld wd 9 8 = f.code := hw ▸ fld_pack hf 2 rfl rfl (by decide)
    have f3 : fld wd 10 10 = 0 := hw ▸ fld_pack hf 3 rfl rfl (by decide)
    have f4 : fld wd 15 11 = b.toNat := hw ▸ fld_pack hf 4 rfl rfl (by decide)
    have f5 : fld wd 20 16 = a.toNat := hw ▸ fld_pack hf 5 rfl rfl (by decide)
    have f6 : fld wd 25 21 = d.toNat := hw ▸ fld_pack hf 6 rfl rfl (by decide)
    have f7 : fld wd 31 26 = 36 := hw ▸ fld_pack hf 7 rfl rfl (by decide)
    have e1 : decodeForm ref wd = decode24 wd := by simp only [decodeForm, f7]
    rw [e1]
    simp only [decode24, RMode.ofWord, f0, f1, f2, f3, f4, f5, f6]
    simp [formOf, hl, hr]
  | static r =>
    have hf : fitBits [(r.code, 3), (2, 5), (f.code, 2), (1, 1), (b.toNat, 5), (a.toNat, 5), (d.toNat, 5), (36, 6)] := ⟨Rnd.code_lt r, by decide, FFmt.code_lt f, by decide, b.isLt, a.isLt, d.isLt, by decide, trivial⟩
    have hw : encodeNat (.vfmul d a b f (.static r)) = packBits [(r.code, 3), (2, 5), (f.code, 2), (1, 1), (b.toNat, 5), (a.toNat, 5), (d.toNat, 5), (36, 6)] := by
      change 2415919120 + d.toNat * 2097152 + a.toNat * 65536 + b.toNat * 2048 + f.code * 256 + (1024 + r.code) = _
      simp only [packBits]
      generalize r.code = x0
      generalize f.code = x1
      generalize b.toNat = x2
      generalize a.toNat = x3
      generalize d.toNat = x4
      omega
    refine roundTrip_word (hw ▸ pack_lt hf) (fun ref hl hr hm => ?_)
    generalize encodeNat (.vfmul d a b f (.static r)) = wd at hw hm ⊢
    have f0 : fld wd 2 0 = r.code := hw ▸ fld_pack hf 0 rfl rfl (by decide)
    have f1 : fld wd 7 3 = 2 := hw ▸ fld_pack hf 1 rfl rfl (by decide)
    have f2 : fld wd 9 8 = f.code := hw ▸ fld_pack hf 2 rfl rfl (by decide)
    have f3 : fld wd 10 10 = 1 := hw ▸ fld_pack hf 3 rfl rfl (by decide)
    have f4 : fld wd 15 11 = b.toNat := hw ▸ fld_pack hf 4 rfl rfl (by decide)
    have f5 : fld wd 20 16 = a.toNat := hw ▸ fld_pack hf 5 rfl rfl (by decide)
    have f6 : fld wd 25 21 = d.toNat := hw ▸ fld_pack hf 6 rfl rfl (by decide)
    have f7 : fld wd 31 26 = 36 := hw ▸ fld_pack hf 7 rfl rfl (by decide)
    have e1 : decodeForm ref wd = decode24 wd := by simp only [decodeForm, f7]
    rw [e1]
    simp only [decode24, RMode.ofWord, f0, f1, f2, f3, f4, f5, f6]
    simp [formOf, hl, hr]

/-- Table 4-10, major 0x24. -/
theorem RoundTrip.vfdiv (d : Reg5) (a : Reg5) (b : Reg5) (f : FFmt) (rm : RMode) : RoundTrip.Statement (.vfdiv d a b f rm) := by
  cases rm with
  | masked m =>
    have hf : fitBits [(m.toNat, 3), (3, 5), (f.code, 2), (0, 1), (b.toNat, 5), (a.toNat, 5), (d.toNat, 5), (36, 6)] := ⟨m.isLt, by decide, FFmt.code_lt f, by decide, b.isLt, a.isLt, d.isLt, by decide, trivial⟩
    have hw : encodeNat (.vfdiv d a b f (.masked m)) = packBits [(m.toNat, 3), (3, 5), (f.code, 2), (0, 1), (b.toNat, 5), (a.toNat, 5), (d.toNat, 5), (36, 6)] := by
      change 2415919128 + d.toNat * 2097152 + a.toNat * 65536 + b.toNat * 2048 + f.code * 256 + m.toNat = _
      simp only [packBits]
      generalize m.toNat = x0
      generalize f.code = x1
      generalize b.toNat = x2
      generalize a.toNat = x3
      generalize d.toNat = x4
      omega
    refine roundTrip_word (hw ▸ pack_lt hf) (fun ref hl hr hm => ?_)
    generalize encodeNat (.vfdiv d a b f (.masked m)) = wd at hw hm ⊢
    have f0 : fld wd 2 0 = m.toNat := hw ▸ fld_pack hf 0 rfl rfl (by decide)
    have f1 : fld wd 7 3 = 3 := hw ▸ fld_pack hf 1 rfl rfl (by decide)
    have f2 : fld wd 9 8 = f.code := hw ▸ fld_pack hf 2 rfl rfl (by decide)
    have f3 : fld wd 10 10 = 0 := hw ▸ fld_pack hf 3 rfl rfl (by decide)
    have f4 : fld wd 15 11 = b.toNat := hw ▸ fld_pack hf 4 rfl rfl (by decide)
    have f5 : fld wd 20 16 = a.toNat := hw ▸ fld_pack hf 5 rfl rfl (by decide)
    have f6 : fld wd 25 21 = d.toNat := hw ▸ fld_pack hf 6 rfl rfl (by decide)
    have f7 : fld wd 31 26 = 36 := hw ▸ fld_pack hf 7 rfl rfl (by decide)
    have e1 : decodeForm ref wd = decode24 wd := by simp only [decodeForm, f7]
    rw [e1]
    simp only [decode24, RMode.ofWord, f0, f1, f2, f3, f4, f5, f6]
    simp [formOf, hl, hr]
  | static r =>
    have hf : fitBits [(r.code, 3), (3, 5), (f.code, 2), (1, 1), (b.toNat, 5), (a.toNat, 5), (d.toNat, 5), (36, 6)] := ⟨Rnd.code_lt r, by decide, FFmt.code_lt f, by decide, b.isLt, a.isLt, d.isLt, by decide, trivial⟩
    have hw : encodeNat (.vfdiv d a b f (.static r)) = packBits [(r.code, 3), (3, 5), (f.code, 2), (1, 1), (b.toNat, 5), (a.toNat, 5), (d.toNat, 5), (36, 6)] := by
      change 2415919128 + d.toNat * 2097152 + a.toNat * 65536 + b.toNat * 2048 + f.code * 256 + (1024 + r.code) = _
      simp only [packBits]
      generalize r.code = x0
      generalize f.code = x1
      generalize b.toNat = x2
      generalize a.toNat = x3
      generalize d.toNat = x4
      omega
    refine roundTrip_word (hw ▸ pack_lt hf) (fun ref hl hr hm => ?_)
    generalize encodeNat (.vfdiv d a b f (.static r)) = wd at hw hm ⊢
    have f0 : fld wd 2 0 = r.code := hw ▸ fld_pack hf 0 rfl rfl (by decide)
    have f1 : fld wd 7 3 = 3 := hw ▸ fld_pack hf 1 rfl rfl (by decide)
    have f2 : fld wd 9 8 = f.code := hw ▸ fld_pack hf 2 rfl rfl (by decide)
    have f3 : fld wd 10 10 = 1 := hw ▸ fld_pack hf 3 rfl rfl (by decide)
    have f4 : fld wd 15 11 = b.toNat := hw ▸ fld_pack hf 4 rfl rfl (by decide)
    have f5 : fld wd 20 16 = a.toNat := hw ▸ fld_pack hf 5 rfl rfl (by decide)
    have f6 : fld wd 25 21 = d.toNat := hw ▸ fld_pack hf 6 rfl rfl (by decide)
    have f7 : fld wd 31 26 = 36 := hw ▸ fld_pack hf 7 rfl rfl (by decide)
    have e1 : decodeForm ref wd = decode24 wd := by simp only [decodeForm, f7]
    rw [e1]
    simp only [decode24, RMode.ofWord, f0, f1, f2, f3, f4, f5, f6]
    simp [formOf, hl, hr]

/-- Table 4-10, major 0x24. -/
theorem RoundTrip.vfma (d : Reg5) (a : Reg5) (b : Reg5) (f : FFmt) (rm : RMode) : RoundTrip.Statement (.vfma d a b f rm) := by
  cases rm with
  | masked m =>
    have hf : fitBits [(m.toNat, 3), (4, 5), (f.code, 2), (0, 1), (b.toNat, 5), (a.toNat, 5), (d.toNat, 5), (36, 6)] := ⟨m.isLt, by decide, FFmt.code_lt f, by decide, b.isLt, a.isLt, d.isLt, by decide, trivial⟩
    have hw : encodeNat (.vfma d a b f (.masked m)) = packBits [(m.toNat, 3), (4, 5), (f.code, 2), (0, 1), (b.toNat, 5), (a.toNat, 5), (d.toNat, 5), (36, 6)] := by
      change 2415919136 + d.toNat * 2097152 + a.toNat * 65536 + b.toNat * 2048 + f.code * 256 + m.toNat = _
      simp only [packBits]
      generalize m.toNat = x0
      generalize f.code = x1
      generalize b.toNat = x2
      generalize a.toNat = x3
      generalize d.toNat = x4
      omega
    refine roundTrip_word (hw ▸ pack_lt hf) (fun ref hl hr hm => ?_)
    generalize encodeNat (.vfma d a b f (.masked m)) = wd at hw hm ⊢
    have f0 : fld wd 2 0 = m.toNat := hw ▸ fld_pack hf 0 rfl rfl (by decide)
    have f1 : fld wd 7 3 = 4 := hw ▸ fld_pack hf 1 rfl rfl (by decide)
    have f2 : fld wd 9 8 = f.code := hw ▸ fld_pack hf 2 rfl rfl (by decide)
    have f3 : fld wd 10 10 = 0 := hw ▸ fld_pack hf 3 rfl rfl (by decide)
    have f4 : fld wd 15 11 = b.toNat := hw ▸ fld_pack hf 4 rfl rfl (by decide)
    have f5 : fld wd 20 16 = a.toNat := hw ▸ fld_pack hf 5 rfl rfl (by decide)
    have f6 : fld wd 25 21 = d.toNat := hw ▸ fld_pack hf 6 rfl rfl (by decide)
    have f7 : fld wd 31 26 = 36 := hw ▸ fld_pack hf 7 rfl rfl (by decide)
    have e1 : decodeForm ref wd = decode24 wd := by simp only [decodeForm, f7]
    rw [e1]
    simp only [decode24, RMode.ofWord, f0, f1, f2, f3, f4, f5, f6]
    simp [formOf, hl, hr]
  | static r =>
    have hf : fitBits [(r.code, 3), (4, 5), (f.code, 2), (1, 1), (b.toNat, 5), (a.toNat, 5), (d.toNat, 5), (36, 6)] := ⟨Rnd.code_lt r, by decide, FFmt.code_lt f, by decide, b.isLt, a.isLt, d.isLt, by decide, trivial⟩
    have hw : encodeNat (.vfma d a b f (.static r)) = packBits [(r.code, 3), (4, 5), (f.code, 2), (1, 1), (b.toNat, 5), (a.toNat, 5), (d.toNat, 5), (36, 6)] := by
      change 2415919136 + d.toNat * 2097152 + a.toNat * 65536 + b.toNat * 2048 + f.code * 256 + (1024 + r.code) = _
      simp only [packBits]
      generalize r.code = x0
      generalize f.code = x1
      generalize b.toNat = x2
      generalize a.toNat = x3
      generalize d.toNat = x4
      omega
    refine roundTrip_word (hw ▸ pack_lt hf) (fun ref hl hr hm => ?_)
    generalize encodeNat (.vfma d a b f (.static r)) = wd at hw hm ⊢
    have f0 : fld wd 2 0 = r.code := hw ▸ fld_pack hf 0 rfl rfl (by decide)
    have f1 : fld wd 7 3 = 4 := hw ▸ fld_pack hf 1 rfl rfl (by decide)
    have f2 : fld wd 9 8 = f.code := hw ▸ fld_pack hf 2 rfl rfl (by decide)
    have f3 : fld wd 10 10 = 1 := hw ▸ fld_pack hf 3 rfl rfl (by decide)
    have f4 : fld wd 15 11 = b.toNat := hw ▸ fld_pack hf 4 rfl rfl (by decide)
    have f5 : fld wd 20 16 = a.toNat := hw ▸ fld_pack hf 5 rfl rfl (by decide)
    have f6 : fld wd 25 21 = d.toNat := hw ▸ fld_pack hf 6 rfl rfl (by decide)
    have f7 : fld wd 31 26 = 36 := hw ▸ fld_pack hf 7 rfl rfl (by decide)
    have e1 : decodeForm ref wd = decode24 wd := by simp only [decodeForm, f7]
    rw [e1]
    simp only [decode24, RMode.ofWord, f0, f1, f2, f3, f4, f5, f6]
    simp [formOf, hl, hr]

/-- Table 4-10, major 0x24. -/
theorem RoundTrip.vfms (d : Reg5) (a : Reg5) (b : Reg5) (f : FFmt) (rm : RMode) : RoundTrip.Statement (.vfms d a b f rm) := by
  cases rm with
  | masked m =>
    have hf : fitBits [(m.toNat, 3), (5, 5), (f.code, 2), (0, 1), (b.toNat, 5), (a.toNat, 5), (d.toNat, 5), (36, 6)] := ⟨m.isLt, by decide, FFmt.code_lt f, by decide, b.isLt, a.isLt, d.isLt, by decide, trivial⟩
    have hw : encodeNat (.vfms d a b f (.masked m)) = packBits [(m.toNat, 3), (5, 5), (f.code, 2), (0, 1), (b.toNat, 5), (a.toNat, 5), (d.toNat, 5), (36, 6)] := by
      change 2415919144 + d.toNat * 2097152 + a.toNat * 65536 + b.toNat * 2048 + f.code * 256 + m.toNat = _
      simp only [packBits]
      generalize m.toNat = x0
      generalize f.code = x1
      generalize b.toNat = x2
      generalize a.toNat = x3
      generalize d.toNat = x4
      omega
    refine roundTrip_word (hw ▸ pack_lt hf) (fun ref hl hr hm => ?_)
    generalize encodeNat (.vfms d a b f (.masked m)) = wd at hw hm ⊢
    have f0 : fld wd 2 0 = m.toNat := hw ▸ fld_pack hf 0 rfl rfl (by decide)
    have f1 : fld wd 7 3 = 5 := hw ▸ fld_pack hf 1 rfl rfl (by decide)
    have f2 : fld wd 9 8 = f.code := hw ▸ fld_pack hf 2 rfl rfl (by decide)
    have f3 : fld wd 10 10 = 0 := hw ▸ fld_pack hf 3 rfl rfl (by decide)
    have f4 : fld wd 15 11 = b.toNat := hw ▸ fld_pack hf 4 rfl rfl (by decide)
    have f5 : fld wd 20 16 = a.toNat := hw ▸ fld_pack hf 5 rfl rfl (by decide)
    have f6 : fld wd 25 21 = d.toNat := hw ▸ fld_pack hf 6 rfl rfl (by decide)
    have f7 : fld wd 31 26 = 36 := hw ▸ fld_pack hf 7 rfl rfl (by decide)
    have e1 : decodeForm ref wd = decode24 wd := by simp only [decodeForm, f7]
    rw [e1]
    simp only [decode24, RMode.ofWord, f0, f1, f2, f3, f4, f5, f6]
    simp [formOf, hl, hr]
  | static r =>
    have hf : fitBits [(r.code, 3), (5, 5), (f.code, 2), (1, 1), (b.toNat, 5), (a.toNat, 5), (d.toNat, 5), (36, 6)] := ⟨Rnd.code_lt r, by decide, FFmt.code_lt f, by decide, b.isLt, a.isLt, d.isLt, by decide, trivial⟩
    have hw : encodeNat (.vfms d a b f (.static r)) = packBits [(r.code, 3), (5, 5), (f.code, 2), (1, 1), (b.toNat, 5), (a.toNat, 5), (d.toNat, 5), (36, 6)] := by
      change 2415919144 + d.toNat * 2097152 + a.toNat * 65536 + b.toNat * 2048 + f.code * 256 + (1024 + r.code) = _
      simp only [packBits]
      generalize r.code = x0
      generalize f.code = x1
      generalize b.toNat = x2
      generalize a.toNat = x3
      generalize d.toNat = x4
      omega
    refine roundTrip_word (hw ▸ pack_lt hf) (fun ref hl hr hm => ?_)
    generalize encodeNat (.vfms d a b f (.static r)) = wd at hw hm ⊢
    have f0 : fld wd 2 0 = r.code := hw ▸ fld_pack hf 0 rfl rfl (by decide)
    have f1 : fld wd 7 3 = 5 := hw ▸ fld_pack hf 1 rfl rfl (by decide)
    have f2 : fld wd 9 8 = f.code := hw ▸ fld_pack hf 2 rfl rfl (by decide)
    have f3 : fld wd 10 10 = 1 := hw ▸ fld_pack hf 3 rfl rfl (by decide)
    have f4 : fld wd 15 11 = b.toNat := hw ▸ fld_pack hf 4 rfl rfl (by decide)
    have f5 : fld wd 20 16 = a.toNat := hw ▸ fld_pack hf 5 rfl rfl (by decide)
    have f6 : fld wd 25 21 = d.toNat := hw ▸ fld_pack hf 6 rfl rfl (by decide)
    have f7 : fld wd 31 26 = 36 := hw ▸ fld_pack hf 7 rfl rfl (by decide)
    have e1 : decodeForm ref wd = decode24 wd := by simp only [decodeForm, f7]
    rw [e1]
    simp only [decode24, RMode.ofWord, f0, f1, f2, f3, f4, f5, f6]
    simp [formOf, hl, hr]

/-- Table 4-10, major 0x24. -/
theorem RoundTrip.vfnma (d : Reg5) (a : Reg5) (b : Reg5) (f : FFmt) (rm : RMode) : RoundTrip.Statement (.vfnma d a b f rm) := by
  cases rm with
  | masked m =>
    have hf : fitBits [(m.toNat, 3), (6, 5), (f.code, 2), (0, 1), (b.toNat, 5), (a.toNat, 5), (d.toNat, 5), (36, 6)] := ⟨m.isLt, by decide, FFmt.code_lt f, by decide, b.isLt, a.isLt, d.isLt, by decide, trivial⟩
    have hw : encodeNat (.vfnma d a b f (.masked m)) = packBits [(m.toNat, 3), (6, 5), (f.code, 2), (0, 1), (b.toNat, 5), (a.toNat, 5), (d.toNat, 5), (36, 6)] := by
      change 2415919152 + d.toNat * 2097152 + a.toNat * 65536 + b.toNat * 2048 + f.code * 256 + m.toNat = _
      simp only [packBits]
      generalize m.toNat = x0
      generalize f.code = x1
      generalize b.toNat = x2
      generalize a.toNat = x3
      generalize d.toNat = x4
      omega
    refine roundTrip_word (hw ▸ pack_lt hf) (fun ref hl hr hm => ?_)
    generalize encodeNat (.vfnma d a b f (.masked m)) = wd at hw hm ⊢
    have f0 : fld wd 2 0 = m.toNat := hw ▸ fld_pack hf 0 rfl rfl (by decide)
    have f1 : fld wd 7 3 = 6 := hw ▸ fld_pack hf 1 rfl rfl (by decide)
    have f2 : fld wd 9 8 = f.code := hw ▸ fld_pack hf 2 rfl rfl (by decide)
    have f3 : fld wd 10 10 = 0 := hw ▸ fld_pack hf 3 rfl rfl (by decide)
    have f4 : fld wd 15 11 = b.toNat := hw ▸ fld_pack hf 4 rfl rfl (by decide)
    have f5 : fld wd 20 16 = a.toNat := hw ▸ fld_pack hf 5 rfl rfl (by decide)
    have f6 : fld wd 25 21 = d.toNat := hw ▸ fld_pack hf 6 rfl rfl (by decide)
    have f7 : fld wd 31 26 = 36 := hw ▸ fld_pack hf 7 rfl rfl (by decide)
    have e1 : decodeForm ref wd = decode24 wd := by simp only [decodeForm, f7]
    rw [e1]
    simp only [decode24, RMode.ofWord, f0, f1, f2, f3, f4, f5, f6]
    simp [formOf, hl, hr]
  | static r =>
    have hf : fitBits [(r.code, 3), (6, 5), (f.code, 2), (1, 1), (b.toNat, 5), (a.toNat, 5), (d.toNat, 5), (36, 6)] := ⟨Rnd.code_lt r, by decide, FFmt.code_lt f, by decide, b.isLt, a.isLt, d.isLt, by decide, trivial⟩
    have hw : encodeNat (.vfnma d a b f (.static r)) = packBits [(r.code, 3), (6, 5), (f.code, 2), (1, 1), (b.toNat, 5), (a.toNat, 5), (d.toNat, 5), (36, 6)] := by
      change 2415919152 + d.toNat * 2097152 + a.toNat * 65536 + b.toNat * 2048 + f.code * 256 + (1024 + r.code) = _
      simp only [packBits]
      generalize r.code = x0
      generalize f.code = x1
      generalize b.toNat = x2
      generalize a.toNat = x3
      generalize d.toNat = x4
      omega
    refine roundTrip_word (hw ▸ pack_lt hf) (fun ref hl hr hm => ?_)
    generalize encodeNat (.vfnma d a b f (.static r)) = wd at hw hm ⊢
    have f0 : fld wd 2 0 = r.code := hw ▸ fld_pack hf 0 rfl rfl (by decide)
    have f1 : fld wd 7 3 = 6 := hw ▸ fld_pack hf 1 rfl rfl (by decide)
    have f2 : fld wd 9 8 = f.code := hw ▸ fld_pack hf 2 rfl rfl (by decide)
    have f3 : fld wd 10 10 = 1 := hw ▸ fld_pack hf 3 rfl rfl (by decide)
    have f4 : fld wd 15 11 = b.toNat := hw ▸ fld_pack hf 4 rfl rfl (by decide)
    have f5 : fld wd 20 16 = a.toNat := hw ▸ fld_pack hf 5 rfl rfl (by decide)
    have f6 : fld wd 25 21 = d.toNat := hw ▸ fld_pack hf 6 rfl rfl (by decide)
    have f7 : fld wd 31 26 = 36 := hw ▸ fld_pack hf 7 rfl rfl (by decide)
    have e1 : decodeForm ref wd = decode24 wd := by simp only [decodeForm, f7]
    rw [e1]
    simp only [decode24, RMode.ofWord, f0, f1, f2, f3, f4, f5, f6]
    simp [formOf, hl, hr]

/-- Table 4-10, major 0x24. -/
theorem RoundTrip.vfnms (d : Reg5) (a : Reg5) (b : Reg5) (f : FFmt) (rm : RMode) : RoundTrip.Statement (.vfnms d a b f rm) := by
  cases rm with
  | masked m =>
    have hf : fitBits [(m.toNat, 3), (7, 5), (f.code, 2), (0, 1), (b.toNat, 5), (a.toNat, 5), (d.toNat, 5), (36, 6)] := ⟨m.isLt, by decide, FFmt.code_lt f, by decide, b.isLt, a.isLt, d.isLt, by decide, trivial⟩
    have hw : encodeNat (.vfnms d a b f (.masked m)) = packBits [(m.toNat, 3), (7, 5), (f.code, 2), (0, 1), (b.toNat, 5), (a.toNat, 5), (d.toNat, 5), (36, 6)] := by
      change 2415919160 + d.toNat * 2097152 + a.toNat * 65536 + b.toNat * 2048 + f.code * 256 + m.toNat = _
      simp only [packBits]
      generalize m.toNat = x0
      generalize f.code = x1
      generalize b.toNat = x2
      generalize a.toNat = x3
      generalize d.toNat = x4
      omega
    refine roundTrip_word (hw ▸ pack_lt hf) (fun ref hl hr hm => ?_)
    generalize encodeNat (.vfnms d a b f (.masked m)) = wd at hw hm ⊢
    have f0 : fld wd 2 0 = m.toNat := hw ▸ fld_pack hf 0 rfl rfl (by decide)
    have f1 : fld wd 7 3 = 7 := hw ▸ fld_pack hf 1 rfl rfl (by decide)
    have f2 : fld wd 9 8 = f.code := hw ▸ fld_pack hf 2 rfl rfl (by decide)
    have f3 : fld wd 10 10 = 0 := hw ▸ fld_pack hf 3 rfl rfl (by decide)
    have f4 : fld wd 15 11 = b.toNat := hw ▸ fld_pack hf 4 rfl rfl (by decide)
    have f5 : fld wd 20 16 = a.toNat := hw ▸ fld_pack hf 5 rfl rfl (by decide)
    have f6 : fld wd 25 21 = d.toNat := hw ▸ fld_pack hf 6 rfl rfl (by decide)
    have f7 : fld wd 31 26 = 36 := hw ▸ fld_pack hf 7 rfl rfl (by decide)
    have e1 : decodeForm ref wd = decode24 wd := by simp only [decodeForm, f7]
    rw [e1]
    simp only [decode24, RMode.ofWord, f0, f1, f2, f3, f4, f5, f6]
    simp [formOf, hl, hr]
  | static r =>
    have hf : fitBits [(r.code, 3), (7, 5), (f.code, 2), (1, 1), (b.toNat, 5), (a.toNat, 5), (d.toNat, 5), (36, 6)] := ⟨Rnd.code_lt r, by decide, FFmt.code_lt f, by decide, b.isLt, a.isLt, d.isLt, by decide, trivial⟩
    have hw : encodeNat (.vfnms d a b f (.static r)) = packBits [(r.code, 3), (7, 5), (f.code, 2), (1, 1), (b.toNat, 5), (a.toNat, 5), (d.toNat, 5), (36, 6)] := by
      change 2415919160 + d.toNat * 2097152 + a.toNat * 65536 + b.toNat * 2048 + f.code * 256 + (1024 + r.code) = _
      simp only [packBits]
      generalize r.code = x0
      generalize f.code = x1
      generalize b.toNat = x2
      generalize a.toNat = x3
      generalize d.toNat = x4
      omega
    refine roundTrip_word (hw ▸ pack_lt hf) (fun ref hl hr hm => ?_)
    generalize encodeNat (.vfnms d a b f (.static r)) = wd at hw hm ⊢
    have f0 : fld wd 2 0 = r.code := hw ▸ fld_pack hf 0 rfl rfl (by decide)
    have f1 : fld wd 7 3 = 7 := hw ▸ fld_pack hf 1 rfl rfl (by decide)
    have f2 : fld wd 9 8 = f.code := hw ▸ fld_pack hf 2 rfl rfl (by decide)
    have f3 : fld wd 10 10 = 1 := hw ▸ fld_pack hf 3 rfl rfl (by decide)
    have f4 : fld wd 15 11 = b.toNat := hw ▸ fld_pack hf 4 rfl rfl (by decide)
    have f5 : fld wd 20 16 = a.toNat := hw ▸ fld_pack hf 5 rfl rfl (by decide)
    have f6 : fld wd 25 21 = d.toNat := hw ▸ fld_pack hf 6 rfl rfl (by decide)
    have f7 : fld wd 31 26 = 36 := hw ▸ fld_pack hf 7 rfl rfl (by decide)
    have e1 : decodeForm ref wd = decode24 wd := by simp only [decodeForm, f7]
    rw [e1]
    simp only [decode24, RMode.ofWord, f0, f1, f2, f3, f4, f5, f6]
    simp [formOf, hl, hr]

/-- Table 4-10, major 0x24. -/
theorem RoundTrip.vfmin (d : Reg5) (a : Reg5) (b : Reg5) (f : FFmt) (m : BitVec 3) : RoundTrip.Statement (.vfmin d a b f m) := by
  have hf : fitBits [(m.toNat, 3), (8, 5), (f.code, 2), (0, 1), (b.toNat, 5), (a.toNat, 5), (d.toNat, 5), (36, 6)] := ⟨m.isLt, by decide, FFmt.code_lt f, by decide, b.isLt, a.isLt, d.isLt, by decide, trivial⟩
  have hw : encodeNat (.vfmin d a b f m) = packBits [(m.toNat, 3), (8, 5), (f.code, 2), (0, 1), (b.toNat, 5), (a.toNat, 5), (d.toNat, 5), (36, 6)] := by
    change 2415919168 + d.toNat * 2097152 + a.toNat * 65536 + b.toNat * 2048 + f.code * 256 + m.toNat = _
    simp only [packBits]
    generalize m.toNat = x0
    generalize f.code = x1
    generalize b.toNat = x2
    generalize a.toNat = x3
    generalize d.toNat = x4
    omega
  refine roundTrip_word (hw ▸ pack_lt hf) (fun ref hl hr hm => ?_)
  generalize encodeNat (.vfmin d a b f m) = wd at hw hm ⊢
  have f0 : fld wd 2 0 = m.toNat := hw ▸ fld_pack hf 0 rfl rfl (by decide)
  have f1 : fld wd 7 3 = 8 := hw ▸ fld_pack hf 1 rfl rfl (by decide)
  have f2 : fld wd 9 8 = f.code := hw ▸ fld_pack hf 2 rfl rfl (by decide)
  have f3 : fld wd 10 10 = 0 := hw ▸ fld_pack hf 3 rfl rfl (by decide)
  have f4 : fld wd 15 11 = b.toNat := hw ▸ fld_pack hf 4 rfl rfl (by decide)
  have f5 : fld wd 20 16 = a.toNat := hw ▸ fld_pack hf 5 rfl rfl (by decide)
  have f6 : fld wd 25 21 = d.toNat := hw ▸ fld_pack hf 6 rfl rfl (by decide)
  have f7 : fld wd 31 26 = 36 := hw ▸ fld_pack hf 7 rfl rfl (by decide)
  have e1 : decodeForm ref wd = decode24 wd := by simp only [decodeForm, f7]
  rw [e1]
  simp only [decode24, f0, f1, f2, f3, f4, f5, f6]
  simp [formOf, hl, hr]

/-- Table 4-10, major 0x24. -/
theorem RoundTrip.vfmax (d : Reg5) (a : Reg5) (b : Reg5) (f : FFmt) (m : BitVec 3) : RoundTrip.Statement (.vfmax d a b f m) := by
  have hf : fitBits [(m.toNat, 3), (9, 5), (f.code, 2), (0, 1), (b.toNat, 5), (a.toNat, 5), (d.toNat, 5), (36, 6)] := ⟨m.isLt, by decide, FFmt.code_lt f, by decide, b.isLt, a.isLt, d.isLt, by decide, trivial⟩
  have hw : encodeNat (.vfmax d a b f m) = packBits [(m.toNat, 3), (9, 5), (f.code, 2), (0, 1), (b.toNat, 5), (a.toNat, 5), (d.toNat, 5), (36, 6)] := by
    change 2415919176 + d.toNat * 2097152 + a.toNat * 65536 + b.toNat * 2048 + f.code * 256 + m.toNat = _
    simp only [packBits]
    generalize m.toNat = x0
    generalize f.code = x1
    generalize b.toNat = x2
    generalize a.toNat = x3
    generalize d.toNat = x4
    omega
  refine roundTrip_word (hw ▸ pack_lt hf) (fun ref hl hr hm => ?_)
  generalize encodeNat (.vfmax d a b f m) = wd at hw hm ⊢
  have f0 : fld wd 2 0 = m.toNat := hw ▸ fld_pack hf 0 rfl rfl (by decide)
  have f1 : fld wd 7 3 = 9 := hw ▸ fld_pack hf 1 rfl rfl (by decide)
  have f2 : fld wd 9 8 = f.code := hw ▸ fld_pack hf 2 rfl rfl (by decide)
  have f3 : fld wd 10 10 = 0 := hw ▸ fld_pack hf 3 rfl rfl (by decide)
  have f4 : fld wd 15 11 = b.toNat := hw ▸ fld_pack hf 4 rfl rfl (by decide)
  have f5 : fld wd 20 16 = a.toNat := hw ▸ fld_pack hf 5 rfl rfl (by decide)
  have f6 : fld wd 25 21 = d.toNat := hw ▸ fld_pack hf 6 rfl rfl (by decide)
  have f7 : fld wd 31 26 = 36 := hw ▸ fld_pack hf 7 rfl rfl (by decide)
  have e1 : decodeForm ref wd = decode24 wd := by simp only [decodeForm, f7]
  rw [e1]
  simp only [decode24, f0, f1, f2, f3, f4, f5, f6]
  simp [formOf, hl, hr]

/-- Table 4-10, major 0x24. -/
theorem RoundTrip.vfabs (d : Reg5) (a : Reg5) (f : FFmt) (m : BitVec 3) : RoundTrip.Statement (.vfabs d a f m) := by
  have hf : fitBits [(m.toNat, 3), (10, 5), (f.code, 2), (0, 1), (0, 5), (a.toNat, 5), (d.toNat, 5), (36, 6)] := ⟨m.isLt, by decide, FFmt.code_lt f, by decide, by decide, a.isLt, d.isLt, by decide, trivial⟩
  have hw : encodeNat (.vfabs d a f m) = packBits [(m.toNat, 3), (10, 5), (f.code, 2), (0, 1), (0, 5), (a.toNat, 5), (d.toNat, 5), (36, 6)] := by
    change 2415919184 + d.toNat * 2097152 + a.toNat * 65536 + f.code * 256 + m.toNat = _
    simp only [packBits]
    generalize m.toNat = x0
    generalize f.code = x1
    generalize a.toNat = x2
    generalize d.toNat = x3
    omega
  refine roundTrip_word (hw ▸ pack_lt hf) (fun ref hl hr hm => ?_)
  generalize encodeNat (.vfabs d a f m) = wd at hw hm ⊢
  have f0 : fld wd 2 0 = m.toNat := hw ▸ fld_pack hf 0 rfl rfl (by decide)
  have f1 : fld wd 7 3 = 10 := hw ▸ fld_pack hf 1 rfl rfl (by decide)
  have f2 : fld wd 9 8 = f.code := hw ▸ fld_pack hf 2 rfl rfl (by decide)
  have f3 : fld wd 10 10 = 0 := hw ▸ fld_pack hf 3 rfl rfl (by decide)
  have f4 : fld wd 15 11 = 0 := hw ▸ fld_pack hf 4 rfl rfl (by decide)
  have f5 : fld wd 20 16 = a.toNat := hw ▸ fld_pack hf 5 rfl rfl (by decide)
  have f6 : fld wd 25 21 = d.toNat := hw ▸ fld_pack hf 6 rfl rfl (by decide)
  have f7 : fld wd 31 26 = 36 := hw ▸ fld_pack hf 7 rfl rfl (by decide)
  have e1 : decodeForm ref wd = decode24 wd := by simp only [decodeForm, f7]
  rw [e1]
  simp only [decode24, f0, f1, f2, f3, f4, f5, f6]
  simp [formOf, hl, hr]

/-- Table 4-10, major 0x24. -/
theorem RoundTrip.vfneg (d : Reg5) (a : Reg5) (f : FFmt) (m : BitVec 3) : RoundTrip.Statement (.vfneg d a f m) := by
  have hf : fitBits [(m.toNat, 3), (11, 5), (f.code, 2), (0, 1), (0, 5), (a.toNat, 5), (d.toNat, 5), (36, 6)] := ⟨m.isLt, by decide, FFmt.code_lt f, by decide, by decide, a.isLt, d.isLt, by decide, trivial⟩
  have hw : encodeNat (.vfneg d a f m) = packBits [(m.toNat, 3), (11, 5), (f.code, 2), (0, 1), (0, 5), (a.toNat, 5), (d.toNat, 5), (36, 6)] := by
    change 2415919192 + d.toNat * 2097152 + a.toNat * 65536 + f.code * 256 + m.toNat = _
    simp only [packBits]
    generalize m.toNat = x0
    generalize f.code = x1
    generalize a.toNat = x2
    generalize d.toNat = x3
    omega
  refine roundTrip_word (hw ▸ pack_lt hf) (fun ref hl hr hm => ?_)
  generalize encodeNat (.vfneg d a f m) = wd at hw hm ⊢
  have f0 : fld wd 2 0 = m.toNat := hw ▸ fld_pack hf 0 rfl rfl (by decide)
  have f1 : fld wd 7 3 = 11 := hw ▸ fld_pack hf 1 rfl rfl (by decide)
  have f2 : fld wd 9 8 = f.code := hw ▸ fld_pack hf 2 rfl rfl (by decide)
  have f3 : fld wd 10 10 = 0 := hw ▸ fld_pack hf 3 rfl rfl (by decide)
  have f4 : fld wd 15 11 = 0 := hw ▸ fld_pack hf 4 rfl rfl (by decide)
  have f5 : fld wd 20 16 = a.toNat := hw ▸ fld_pack hf 5 rfl rfl (by decide)
  have f6 : fld wd 25 21 = d.toNat := hw ▸ fld_pack hf 6 rfl rfl (by decide)
  have f7 : fld wd 31 26 = 36 := hw ▸ fld_pack hf 7 rfl rfl (by decide)
  have e1 : decodeForm ref wd = decode24 wd := by simp only [decodeForm, f7]
  rw [e1]
  simp only [decode24, f0, f1, f2, f3, f4, f5, f6]
  simp [formOf, hl, hr]

/-- Table 4-10, major 0x24. -/
theorem RoundTrip.vfsqrt (d : Reg5) (a : Reg5) (f : FFmt) (rm : RMode) : RoundTrip.Statement (.vfsqrt d a f rm) := by
  cases rm with
  | masked m =>
    have hf : fitBits [(m.toNat, 3), (12, 5), (f.code, 2), (0, 1), (0, 5), (a.toNat, 5), (d.toNat, 5), (36, 6)] := ⟨m.isLt, by decide, FFmt.code_lt f, by decide, by decide, a.isLt, d.isLt, by decide, trivial⟩
    have hw : encodeNat (.vfsqrt d a f (.masked m)) = packBits [(m.toNat, 3), (12, 5), (f.code, 2), (0, 1), (0, 5), (a.toNat, 5), (d.toNat, 5), (36, 6)] := by
      change 2415919200 + d.toNat * 2097152 + a.toNat * 65536 + f.code * 256 + m.toNat = _
      simp only [packBits]
      generalize m.toNat = x0
      generalize f.code = x1
      generalize a.toNat = x2
      generalize d.toNat = x3
      omega
    refine roundTrip_word (hw ▸ pack_lt hf) (fun ref hl hr hm => ?_)
    generalize encodeNat (.vfsqrt d a f (.masked m)) = wd at hw hm ⊢
    have f0 : fld wd 2 0 = m.toNat := hw ▸ fld_pack hf 0 rfl rfl (by decide)
    have f1 : fld wd 7 3 = 12 := hw ▸ fld_pack hf 1 rfl rfl (by decide)
    have f2 : fld wd 9 8 = f.code := hw ▸ fld_pack hf 2 rfl rfl (by decide)
    have f3 : fld wd 10 10 = 0 := hw ▸ fld_pack hf 3 rfl rfl (by decide)
    have f4 : fld wd 15 11 = 0 := hw ▸ fld_pack hf 4 rfl rfl (by decide)
    have f5 : fld wd 20 16 = a.toNat := hw ▸ fld_pack hf 5 rfl rfl (by decide)
    have f6 : fld wd 25 21 = d.toNat := hw ▸ fld_pack hf 6 rfl rfl (by decide)
    have f7 : fld wd 31 26 = 36 := hw ▸ fld_pack hf 7 rfl rfl (by decide)
    have e1 : decodeForm ref wd = decode24 wd := by simp only [decodeForm, f7]
    rw [e1]
    simp only [decode24, RMode.ofWord, f0, f1, f2, f3, f4, f5, f6]
    simp [formOf, hl, hr]
  | static r =>
    have hf : fitBits [(r.code, 3), (12, 5), (f.code, 2), (1, 1), (0, 5), (a.toNat, 5), (d.toNat, 5), (36, 6)] := ⟨Rnd.code_lt r, by decide, FFmt.code_lt f, by decide, by decide, a.isLt, d.isLt, by decide, trivial⟩
    have hw : encodeNat (.vfsqrt d a f (.static r)) = packBits [(r.code, 3), (12, 5), (f.code, 2), (1, 1), (0, 5), (a.toNat, 5), (d.toNat, 5), (36, 6)] := by
      change 2415919200 + d.toNat * 2097152 + a.toNat * 65536 + f.code * 256 + (1024 + r.code) = _
      simp only [packBits]
      generalize r.code = x0
      generalize f.code = x1
      generalize a.toNat = x2
      generalize d.toNat = x3
      omega
    refine roundTrip_word (hw ▸ pack_lt hf) (fun ref hl hr hm => ?_)
    generalize encodeNat (.vfsqrt d a f (.static r)) = wd at hw hm ⊢
    have f0 : fld wd 2 0 = r.code := hw ▸ fld_pack hf 0 rfl rfl (by decide)
    have f1 : fld wd 7 3 = 12 := hw ▸ fld_pack hf 1 rfl rfl (by decide)
    have f2 : fld wd 9 8 = f.code := hw ▸ fld_pack hf 2 rfl rfl (by decide)
    have f3 : fld wd 10 10 = 1 := hw ▸ fld_pack hf 3 rfl rfl (by decide)
    have f4 : fld wd 15 11 = 0 := hw ▸ fld_pack hf 4 rfl rfl (by decide)
    have f5 : fld wd 20 16 = a.toNat := hw ▸ fld_pack hf 5 rfl rfl (by decide)
    have f6 : fld wd 25 21 = d.toNat := hw ▸ fld_pack hf 6 rfl rfl (by decide)
    have f7 : fld wd 31 26 = 36 := hw ▸ fld_pack hf 7 rfl rfl (by decide)
    have e1 : decodeForm ref wd = decode24 wd := by simp only [decodeForm, f7]
    rw [e1]
    simp only [decode24, RMode.ofWord, f0, f1, f2, f3, f4, f5, f6]
    simp [formOf, hl, hr]

/-- Table 4-10, major 0x24. -/
theorem RoundTrip.vfrcp (d : Reg5) (a : Reg5) (f : FFmt) (rm : RMode) : RoundTrip.Statement (.vfrcp d a f rm) := by
  cases rm with
  | masked m =>
    have hf : fitBits [(m.toNat, 3), (13, 5), (f.code, 2), (0, 1), (0, 5), (a.toNat, 5), (d.toNat, 5), (36, 6)] := ⟨m.isLt, by decide, FFmt.code_lt f, by decide, by decide, a.isLt, d.isLt, by decide, trivial⟩
    have hw : encodeNat (.vfrcp d a f (.masked m)) = packBits [(m.toNat, 3), (13, 5), (f.code, 2), (0, 1), (0, 5), (a.toNat, 5), (d.toNat, 5), (36, 6)] := by
      change 2415919208 + d.toNat * 2097152 + a.toNat * 65536 + f.code * 256 + m.toNat = _
      simp only [packBits]
      generalize m.toNat = x0
      generalize f.code = x1
      generalize a.toNat = x2
      generalize d.toNat = x3
      omega
    refine roundTrip_word (hw ▸ pack_lt hf) (fun ref hl hr hm => ?_)
    generalize encodeNat (.vfrcp d a f (.masked m)) = wd at hw hm ⊢
    have f0 : fld wd 2 0 = m.toNat := hw ▸ fld_pack hf 0 rfl rfl (by decide)
    have f1 : fld wd 7 3 = 13 := hw ▸ fld_pack hf 1 rfl rfl (by decide)
    have f2 : fld wd 9 8 = f.code := hw ▸ fld_pack hf 2 rfl rfl (by decide)
    have f3 : fld wd 10 10 = 0 := hw ▸ fld_pack hf 3 rfl rfl (by decide)
    have f4 : fld wd 15 11 = 0 := hw ▸ fld_pack hf 4 rfl rfl (by decide)
    have f5 : fld wd 20 16 = a.toNat := hw ▸ fld_pack hf 5 rfl rfl (by decide)
    have f6 : fld wd 25 21 = d.toNat := hw ▸ fld_pack hf 6 rfl rfl (by decide)
    have f7 : fld wd 31 26 = 36 := hw ▸ fld_pack hf 7 rfl rfl (by decide)
    have e1 : decodeForm ref wd = decode24 wd := by simp only [decodeForm, f7]
    rw [e1]
    simp only [decode24, RMode.ofWord, f0, f1, f2, f3, f4, f5, f6]
    simp [formOf, hl, hr]
  | static r =>
    have hf : fitBits [(r.code, 3), (13, 5), (f.code, 2), (1, 1), (0, 5), (a.toNat, 5), (d.toNat, 5), (36, 6)] := ⟨Rnd.code_lt r, by decide, FFmt.code_lt f, by decide, by decide, a.isLt, d.isLt, by decide, trivial⟩
    have hw : encodeNat (.vfrcp d a f (.static r)) = packBits [(r.code, 3), (13, 5), (f.code, 2), (1, 1), (0, 5), (a.toNat, 5), (d.toNat, 5), (36, 6)] := by
      change 2415919208 + d.toNat * 2097152 + a.toNat * 65536 + f.code * 256 + (1024 + r.code) = _
      simp only [packBits]
      generalize r.code = x0
      generalize f.code = x1
      generalize a.toNat = x2
      generalize d.toNat = x3
      omega
    refine roundTrip_word (hw ▸ pack_lt hf) (fun ref hl hr hm => ?_)
    generalize encodeNat (.vfrcp d a f (.static r)) = wd at hw hm ⊢
    have f0 : fld wd 2 0 = r.code := hw ▸ fld_pack hf 0 rfl rfl (by decide)
    have f1 : fld wd 7 3 = 13 := hw ▸ fld_pack hf 1 rfl rfl (by decide)
    have f2 : fld wd 9 8 = f.code := hw ▸ fld_pack hf 2 rfl rfl (by decide)
    have f3 : fld wd 10 10 = 1 := hw ▸ fld_pack hf 3 rfl rfl (by decide)
    have f4 : fld wd 15 11 = 0 := hw ▸ fld_pack hf 4 rfl rfl (by decide)
    have f5 : fld wd 20 16 = a.toNat := hw ▸ fld_pack hf 5 rfl rfl (by decide)
    have f6 : fld wd 25 21 = d.toNat := hw ▸ fld_pack hf 6 rfl rfl (by decide)
    have f7 : fld wd 31 26 = 36 := hw ▸ fld_pack hf 7 rfl rfl (by decide)
    have e1 : decodeForm ref wd = decode24 wd := by simp only [decodeForm, f7]
    rw [e1]
    simp only [decode24, RMode.ofWord, f0, f1, f2, f3, f4, f5, f6]
    simp [formOf, hl, hr]

/-- Table 4-10, major 0x24. -/
theorem RoundTrip.vfrsq (d : Reg5) (a : Reg5) (f : FFmt) (rm : RMode) : RoundTrip.Statement (.vfrsq d a f rm) := by
  cases rm with
  | masked m =>
    have hf : fitBits [(m.toNat, 3), (14, 5), (f.code, 2), (0, 1), (0, 5), (a.toNat, 5), (d.toNat, 5), (36, 6)] := ⟨m.isLt, by decide, FFmt.code_lt f, by decide, by decide, a.isLt, d.isLt, by decide, trivial⟩
    have hw : encodeNat (.vfrsq d a f (.masked m)) = packBits [(m.toNat, 3), (14, 5), (f.code, 2), (0, 1), (0, 5), (a.toNat, 5), (d.toNat, 5), (36, 6)] := by
      change 2415919216 + d.toNat * 2097152 + a.toNat * 65536 + f.code * 256 + m.toNat = _
      simp only [packBits]
      generalize m.toNat = x0
      generalize f.code = x1
      generalize a.toNat = x2
      generalize d.toNat = x3
      omega
    refine roundTrip_word (hw ▸ pack_lt hf) (fun ref hl hr hm => ?_)
    generalize encodeNat (.vfrsq d a f (.masked m)) = wd at hw hm ⊢
    have f0 : fld wd 2 0 = m.toNat := hw ▸ fld_pack hf 0 rfl rfl (by decide)
    have f1 : fld wd 7 3 = 14 := hw ▸ fld_pack hf 1 rfl rfl (by decide)
    have f2 : fld wd 9 8 = f.code := hw ▸ fld_pack hf 2 rfl rfl (by decide)
    have f3 : fld wd 10 10 = 0 := hw ▸ fld_pack hf 3 rfl rfl (by decide)
    have f4 : fld wd 15 11 = 0 := hw ▸ fld_pack hf 4 rfl rfl (by decide)
    have f5 : fld wd 20 16 = a.toNat := hw ▸ fld_pack hf 5 rfl rfl (by decide)
    have f6 : fld wd 25 21 = d.toNat := hw ▸ fld_pack hf 6 rfl rfl (by decide)
    have f7 : fld wd 31 26 = 36 := hw ▸ fld_pack hf 7 rfl rfl (by decide)
    have e1 : decodeForm ref wd = decode24 wd := by simp only [decodeForm, f7]
    rw [e1]
    simp only [decode24, RMode.ofWord, f0, f1, f2, f3, f4, f5, f6]
    simp [formOf, hl, hr]
  | static r =>
    have hf : fitBits [(r.code, 3), (14, 5), (f.code, 2), (1, 1), (0, 5), (a.toNat, 5), (d.toNat, 5), (36, 6)] := ⟨Rnd.code_lt r, by decide, FFmt.code_lt f, by decide, by decide, a.isLt, d.isLt, by decide, trivial⟩
    have hw : encodeNat (.vfrsq d a f (.static r)) = packBits [(r.code, 3), (14, 5), (f.code, 2), (1, 1), (0, 5), (a.toNat, 5), (d.toNat, 5), (36, 6)] := by
      change 2415919216 + d.toNat * 2097152 + a.toNat * 65536 + f.code * 256 + (1024 + r.code) = _
      simp only [packBits]
      generalize r.code = x0
      generalize f.code = x1
      generalize a.toNat = x2
      generalize d.toNat = x3
      omega
    refine roundTrip_word (hw ▸ pack_lt hf) (fun ref hl hr hm => ?_)
    generalize encodeNat (.vfrsq d a f (.static r)) = wd at hw hm ⊢
    have f0 : fld wd 2 0 = r.code := hw ▸ fld_pack hf 0 rfl rfl (by decide)
    have f1 : fld wd 7 3 = 14 := hw ▸ fld_pack hf 1 rfl rfl (by decide)
    have f2 : fld wd 9 8 = f.code := hw ▸ fld_pack hf 2 rfl rfl (by decide)
    have f3 : fld wd 10 10 = 1 := hw ▸ fld_pack hf 3 rfl rfl (by decide)
    have f4 : fld wd 15 11 = 0 := hw ▸ fld_pack hf 4 rfl rfl (by decide)
    have f5 : fld wd 20 16 = a.toNat := hw ▸ fld_pack hf 5 rfl rfl (by decide)
    have f6 : fld wd 25 21 = d.toNat := hw ▸ fld_pack hf 6 rfl rfl (by decide)
    have f7 : fld wd 31 26 = 36 := hw ▸ fld_pack hf 7 rfl rfl (by decide)
    have e1 : decodeForm ref wd = decode24 wd := by simp only [decodeForm, f7]
    rw [e1]
    simp only [decode24, RMode.ofWord, f0, f1, f2, f3, f4, f5, f6]
    simp [formOf, hl, hr]

/-- Table 4-10, major 0x24. -/
theorem RoundTrip.vfclass (d : Reg5) (a : Reg5) (f : FFmt) (m : BitVec 3) : RoundTrip.Statement (.vfclass d a f m) := by
  have hf : fitBits [(m.toNat, 3), (15, 5), (f.code, 2), (0, 1), (0, 5), (a.toNat, 5), (d.toNat, 5), (36, 6)] := ⟨m.isLt, by decide, FFmt.code_lt f, by decide, by decide, a.isLt, d.isLt, by decide, trivial⟩
  have hw : encodeNat (.vfclass d a f m) = packBits [(m.toNat, 3), (15, 5), (f.code, 2), (0, 1), (0, 5), (a.toNat, 5), (d.toNat, 5), (36, 6)] := by
    change 2415919224 + d.toNat * 2097152 + a.toNat * 65536 + f.code * 256 + m.toNat = _
    simp only [packBits]
    generalize m.toNat = x0
    generalize f.code = x1
    generalize a.toNat = x2
    generalize d.toNat = x3
    omega
  refine roundTrip_word (hw ▸ pack_lt hf) (fun ref hl hr hm => ?_)
  generalize encodeNat (.vfclass d a f m) = wd at hw hm ⊢
  have f0 : fld wd 2 0 = m.toNat := hw ▸ fld_pack hf 0 rfl rfl (by decide)
  have f1 : fld wd 7 3 = 15 := hw ▸ fld_pack hf 1 rfl rfl (by decide)
  have f2 : fld wd 9 8 = f.code := hw ▸ fld_pack hf 2 rfl rfl (by decide)
  have f3 : fld wd 10 10 = 0 := hw ▸ fld_pack hf 3 rfl rfl (by decide)
  have f4 : fld wd 15 11 = 0 := hw ▸ fld_pack hf 4 rfl rfl (by decide)
  have f5 : fld wd 20 16 = a.toNat := hw ▸ fld_pack hf 5 rfl rfl (by decide)
  have f6 : fld wd 25 21 = d.toNat := hw ▸ fld_pack hf 6 rfl rfl (by decide)
  have f7 : fld wd 31 26 = 36 := hw ▸ fld_pack hf 7 rfl rfl (by decide)
  have e1 : decodeForm ref wd = decode24 wd := by simp only [decodeForm, f7]
  rw [e1]
  simp only [decode24, f0, f1, f2, f3, f4, f5, f6]
  simp [formOf, hl, hr]

/-- Table 4-10, major 0x24. -/
theorem RoundTrip.vfcmpEq (d : Reg5) (a : Reg5) (b : Reg5) (f : FFmt) (m : BitVec 3) : RoundTrip.Statement (.vfcmpEq d a b f m) := by
  have hf : fitBits [(m.toNat, 3), (16, 5), (f.code, 2), (0, 1), (b.toNat, 5), (a.toNat, 5), (d.toNat, 5), (36, 6)] := ⟨m.isLt, by decide, FFmt.code_lt f, by decide, b.isLt, a.isLt, d.isLt, by decide, trivial⟩
  have hw : encodeNat (.vfcmpEq d a b f m) = packBits [(m.toNat, 3), (16, 5), (f.code, 2), (0, 1), (b.toNat, 5), (a.toNat, 5), (d.toNat, 5), (36, 6)] := by
    change 2415919232 + d.toNat * 2097152 + a.toNat * 65536 + b.toNat * 2048 + f.code * 256 + m.toNat = _
    simp only [packBits]
    generalize m.toNat = x0
    generalize f.code = x1
    generalize b.toNat = x2
    generalize a.toNat = x3
    generalize d.toNat = x4
    omega
  refine roundTrip_word (hw ▸ pack_lt hf) (fun ref hl hr hm => ?_)
  generalize encodeNat (.vfcmpEq d a b f m) = wd at hw hm ⊢
  have f0 : fld wd 2 0 = m.toNat := hw ▸ fld_pack hf 0 rfl rfl (by decide)
  have f1 : fld wd 7 3 = 16 := hw ▸ fld_pack hf 1 rfl rfl (by decide)
  have f2 : fld wd 9 8 = f.code := hw ▸ fld_pack hf 2 rfl rfl (by decide)
  have f3 : fld wd 10 10 = 0 := hw ▸ fld_pack hf 3 rfl rfl (by decide)
  have f4 : fld wd 15 11 = b.toNat := hw ▸ fld_pack hf 4 rfl rfl (by decide)
  have f5 : fld wd 20 16 = a.toNat := hw ▸ fld_pack hf 5 rfl rfl (by decide)
  have f6 : fld wd 25 21 = d.toNat := hw ▸ fld_pack hf 6 rfl rfl (by decide)
  have f7 : fld wd 31 26 = 36 := hw ▸ fld_pack hf 7 rfl rfl (by decide)
  have e1 : decodeForm ref wd = decode24 wd := by simp only [decodeForm, f7]
  rw [e1]
  simp only [decode24, f0, f1, f2, f3, f4, f5, f6]
  simp [formOf, hl, hr]

/-- Table 4-10, major 0x24. -/
theorem RoundTrip.vfcmpNe (d : Reg5) (a : Reg5) (b : Reg5) (f : FFmt) (m : BitVec 3) : RoundTrip.Statement (.vfcmpNe d a b f m) := by
  have hf : fitBits [(m.toNat, 3), (17, 5), (f.code, 2), (0, 1), (b.toNat, 5), (a.toNat, 5), (d.toNat, 5), (36, 6)] := ⟨m.isLt, by decide, FFmt.code_lt f, by decide, b.isLt, a.isLt, d.isLt, by decide, trivial⟩
  have hw : encodeNat (.vfcmpNe d a b f m) = packBits [(m.toNat, 3), (17, 5), (f.code, 2), (0, 1), (b.toNat, 5), (a.toNat, 5), (d.toNat, 5), (36, 6)] := by
    change 2415919240 + d.toNat * 2097152 + a.toNat * 65536 + b.toNat * 2048 + f.code * 256 + m.toNat = _
    simp only [packBits]
    generalize m.toNat = x0
    generalize f.code = x1
    generalize b.toNat = x2
    generalize a.toNat = x3
    generalize d.toNat = x4
    omega
  refine roundTrip_word (hw ▸ pack_lt hf) (fun ref hl hr hm => ?_)
  generalize encodeNat (.vfcmpNe d a b f m) = wd at hw hm ⊢
  have f0 : fld wd 2 0 = m.toNat := hw ▸ fld_pack hf 0 rfl rfl (by decide)
  have f1 : fld wd 7 3 = 17 := hw ▸ fld_pack hf 1 rfl rfl (by decide)
  have f2 : fld wd 9 8 = f.code := hw ▸ fld_pack hf 2 rfl rfl (by decide)
  have f3 : fld wd 10 10 = 0 := hw ▸ fld_pack hf 3 rfl rfl (by decide)
  have f4 : fld wd 15 11 = b.toNat := hw ▸ fld_pack hf 4 rfl rfl (by decide)
  have f5 : fld wd 20 16 = a.toNat := hw ▸ fld_pack hf 5 rfl rfl (by decide)
  have f6 : fld wd 25 21 = d.toNat := hw ▸ fld_pack hf 6 rfl rfl (by decide)
  have f7 : fld wd 31 26 = 36 := hw ▸ fld_pack hf 7 rfl rfl (by decide)
  have e1 : decodeForm ref wd = decode24 wd := by simp only [decodeForm, f7]
  rw [e1]
  simp only [decode24, f0, f1, f2, f3, f4, f5, f6]
  simp [formOf, hl, hr]

/-- Table 4-10, major 0x24. -/
theorem RoundTrip.vfcmpLt (d : Reg5) (a : Reg5) (b : Reg5) (f : FFmt) (m : BitVec 3) : RoundTrip.Statement (.vfcmpLt d a b f m) := by
  have hf : fitBits [(m.toNat, 3), (18, 5), (f.code, 2), (0, 1), (b.toNat, 5), (a.toNat, 5), (d.toNat, 5), (36, 6)] := ⟨m.isLt, by decide, FFmt.code_lt f, by decide, b.isLt, a.isLt, d.isLt, by decide, trivial⟩
  have hw : encodeNat (.vfcmpLt d a b f m) = packBits [(m.toNat, 3), (18, 5), (f.code, 2), (0, 1), (b.toNat, 5), (a.toNat, 5), (d.toNat, 5), (36, 6)] := by
    change 2415919248 + d.toNat * 2097152 + a.toNat * 65536 + b.toNat * 2048 + f.code * 256 + m.toNat = _
    simp only [packBits]
    generalize m.toNat = x0
    generalize f.code = x1
    generalize b.toNat = x2
    generalize a.toNat = x3
    generalize d.toNat = x4
    omega
  refine roundTrip_word (hw ▸ pack_lt hf) (fun ref hl hr hm => ?_)
  generalize encodeNat (.vfcmpLt d a b f m) = wd at hw hm ⊢
  have f0 : fld wd 2 0 = m.toNat := hw ▸ fld_pack hf 0 rfl rfl (by decide)
  have f1 : fld wd 7 3 = 18 := hw ▸ fld_pack hf 1 rfl rfl (by decide)
  have f2 : fld wd 9 8 = f.code := hw ▸ fld_pack hf 2 rfl rfl (by decide)
  have f3 : fld wd 10 10 = 0 := hw ▸ fld_pack hf 3 rfl rfl (by decide)
  have f4 : fld wd 15 11 = b.toNat := hw ▸ fld_pack hf 4 rfl rfl (by decide)
  have f5 : fld wd 20 16 = a.toNat := hw ▸ fld_pack hf 5 rfl rfl (by decide)
  have f6 : fld wd 25 21 = d.toNat := hw ▸ fld_pack hf 6 rfl rfl (by decide)
  have f7 : fld wd 31 26 = 36 := hw ▸ fld_pack hf 7 rfl rfl (by decide)
  have e1 : decodeForm ref wd = decode24 wd := by simp only [decodeForm, f7]
  rw [e1]
  simp only [decode24, f0, f1, f2, f3, f4, f5, f6]
  simp [formOf, hl, hr]

/-- Table 4-10, major 0x24. -/
theorem RoundTrip.vfcmpLe (d : Reg5) (a : Reg5) (b : Reg5) (f : FFmt) (m : BitVec 3) : RoundTrip.Statement (.vfcmpLe d a b f m) := by
  have hf : fitBits [(m.toNat, 3), (19, 5), (f.code, 2), (0, 1), (b.toNat, 5), (a.toNat, 5), (d.toNat, 5), (36, 6)] := ⟨m.isLt, by decide, FFmt.code_lt f, by decide, b.isLt, a.isLt, d.isLt, by decide, trivial⟩
  have hw : encodeNat (.vfcmpLe d a b f m) = packBits [(m.toNat, 3), (19, 5), (f.code, 2), (0, 1), (b.toNat, 5), (a.toNat, 5), (d.toNat, 5), (36, 6)] := by
    change 2415919256 + d.toNat * 2097152 + a.toNat * 65536 + b.toNat * 2048 + f.code * 256 + m.toNat = _
    simp only [packBits]
    generalize m.toNat = x0
    generalize f.code = x1
    generalize b.toNat = x2
    generalize a.toNat = x3
    generalize d.toNat = x4
    omega
  refine roundTrip_word (hw ▸ pack_lt hf) (fun ref hl hr hm => ?_)
  generalize encodeNat (.vfcmpLe d a b f m) = wd at hw hm ⊢
  have f0 : fld wd 2 0 = m.toNat := hw ▸ fld_pack hf 0 rfl rfl (by decide)
  have f1 : fld wd 7 3 = 19 := hw ▸ fld_pack hf 1 rfl rfl (by decide)
  have f2 : fld wd 9 8 = f.code := hw ▸ fld_pack hf 2 rfl rfl (by decide)
  have f3 : fld wd 10 10 = 0 := hw ▸ fld_pack hf 3 rfl rfl (by decide)
  have f4 : fld wd 15 11 = b.toNat := hw ▸ fld_pack hf 4 rfl rfl (by decide)
  have f5 : fld wd 20 16 = a.toNat := hw ▸ fld_pack hf 5 rfl rfl (by decide)
  have f6 : fld wd 25 21 = d.toNat := hw ▸ fld_pack hf 6 rfl rfl (by decide)
  have f7 : fld wd 31 26 = 36 := hw ▸ fld_pack hf 7 rfl rfl (by decide)
  have e1 : decodeForm ref wd = decode24 wd := by simp only [decodeForm, f7]
  rw [e1]
  simp only [decode24, f0, f1, f2, f3, f4, f5, f6]
  simp [formOf, hl, hr]

/-- Table 4-10, major 0x24. -/
theorem RoundTrip.vfcmpGt (d : Reg5) (a : Reg5) (b : Reg5) (f : FFmt) (m : BitVec 3) : RoundTrip.Statement (.vfcmpGt d a b f m) := by
  have hf : fitBits [(m.toNat, 3), (20, 5), (f.code, 2), (0, 1), (b.toNat, 5), (a.toNat, 5), (d.toNat, 5), (36, 6)] := ⟨m.isLt, by decide, FFmt.code_lt f, by decide, b.isLt, a.isLt, d.isLt, by decide, trivial⟩
  have hw : encodeNat (.vfcmpGt d a b f m) = packBits [(m.toNat, 3), (20, 5), (f.code, 2), (0, 1), (b.toNat, 5), (a.toNat, 5), (d.toNat, 5), (36, 6)] := by
    change 2415919264 + d.toNat * 2097152 + a.toNat * 65536 + b.toNat * 2048 + f.code * 256 + m.toNat = _
    simp only [packBits]
    generalize m.toNat = x0
    generalize f.code = x1
    generalize b.toNat = x2
    generalize a.toNat = x3
    generalize d.toNat = x4
    omega
  refine roundTrip_word (hw ▸ pack_lt hf) (fun ref hl hr hm => ?_)
  generalize encodeNat (.vfcmpGt d a b f m) = wd at hw hm ⊢
  have f0 : fld wd 2 0 = m.toNat := hw ▸ fld_pack hf 0 rfl rfl (by decide)
  have f1 : fld wd 7 3 = 20 := hw ▸ fld_pack hf 1 rfl rfl (by decide)
  have f2 : fld wd 9 8 = f.code := hw ▸ fld_pack hf 2 rfl rfl (by decide)
  have f3 : fld wd 10 10 = 0 := hw ▸ fld_pack hf 3 rfl rfl (by decide)
  have f4 : fld wd 15 11 = b.toNat := hw ▸ fld_pack hf 4 rfl rfl (by decide)
  have f5 : fld wd 20 16 = a.toNat := hw ▸ fld_pack hf 5 rfl rfl (by decide)
  have f6 : fld wd 25 21 = d.toNat := hw ▸ fld_pack hf 6 rfl rfl (by decide)
  have f7 : fld wd 31 26 = 36 := hw ▸ fld_pack hf 7 rfl rfl (by decide)
  have e1 : decodeForm ref wd = decode24 wd := by simp only [decodeForm, f7]
  rw [e1]
  simp only [decode24, f0, f1, f2, f3, f4, f5, f6]
  simp [formOf, hl, hr]

/-- Table 4-10, major 0x24. -/
theorem RoundTrip.vfcmpGe (d : Reg5) (a : Reg5) (b : Reg5) (f : FFmt) (m : BitVec 3) : RoundTrip.Statement (.vfcmpGe d a b f m) := by
  have hf : fitBits [(m.toNat, 3), (21, 5), (f.code, 2), (0, 1), (b.toNat, 5), (a.toNat, 5), (d.toNat, 5), (36, 6)] := ⟨m.isLt, by decide, FFmt.code_lt f, by decide, b.isLt, a.isLt, d.isLt, by decide, trivial⟩
  have hw : encodeNat (.vfcmpGe d a b f m) = packBits [(m.toNat, 3), (21, 5), (f.code, 2), (0, 1), (b.toNat, 5), (a.toNat, 5), (d.toNat, 5), (36, 6)] := by
    change 2415919272 + d.toNat * 2097152 + a.toNat * 65536 + b.toNat * 2048 + f.code * 256 + m.toNat = _
    simp only [packBits]
    generalize m.toNat = x0
    generalize f.code = x1
    generalize b.toNat = x2
    generalize a.toNat = x3
    generalize d.toNat = x4
    omega
  refine roundTrip_word (hw ▸ pack_lt hf) (fun ref hl hr hm => ?_)
  generalize encodeNat (.vfcmpGe d a b f m) = wd at hw hm ⊢
  have f0 : fld wd 2 0 = m.toNat := hw ▸ fld_pack hf 0 rfl rfl (by decide)
  have f1 : fld wd 7 3 = 21 := hw ▸ fld_pack hf 1 rfl rfl (by decide)
  have f2 : fld wd 9 8 = f.code := hw ▸ fld_pack hf 2 rfl rfl (by decide)
  have f3 : fld wd 10 10 = 0 := hw ▸ fld_pack hf 3 rfl rfl (by decide)
  have f4 : fld wd 15 11 = b.toNat := hw ▸ fld_pack hf 4 rfl rfl (by decide)
  have f5 : fld wd 20 16 = a.toNat := hw ▸ fld_pack hf 5 rfl rfl (by decide)
  have f6 : fld wd 25 21 = d.toNat := hw ▸ fld_pack hf 6 rfl rfl (by decide)
  have f7 : fld wd 31 26 = 36 := hw ▸ fld_pack hf 7 rfl rfl (by decide)
  have e1 : decodeForm ref wd = decode24 wd := by simp only [decodeForm, f7]
  rw [e1]
  simp only [decode24, f0, f1, f2, f3, f4, f5, f6]
  simp [formOf, hl, hr]

/-- Table 4-10, major 0x25. -/
theorem RoundTrip.vcvt (d : Reg5) (a : Reg5) (sat : Bool) (st : EType) (rnd : DynRnd) (dt : EType) (m : BitVec 3) : RoundTrip.Statement (.vcvt d a sat st rnd dt m) := by
  have hf : fitBits [(m.toNat, 3), (0, 1), (dt.code, 4), (DynRnd.code rnd, 3), (st.code, 4), (boolCode sat, 1), (a.toNat, 5), (d.toNat, 5), (37, 6)] := ⟨m.isLt, by decide, EType.code_lt dt, DynRnd.code_lt rnd, EType.code_lt st, boolCode_lt sat, a.isLt, d.isLt, by decide, trivial⟩
  have hw : encodeNat (.vcvt d a sat st rnd dt m) = packBits [(m.toNat, 3), (0, 1), (dt.code, 4), (DynRnd.code rnd, 3), (st.code, 4), (boolCode sat, 1), (a.toNat, 5), (d.toNat, 5), (37, 6)] := by
    change 2483027968 + d.toNat * 2097152 + a.toNat * 65536 + boolCode sat * 32768 + st.code * 2048 + DynRnd.code rnd * 256 + dt.code * 16 + m.toNat = _
    simp only [packBits]
    generalize m.toNat = x0
    generalize dt.code = x1
    generalize DynRnd.code rnd = x2
    generalize st.code = x3
    generalize boolCode sat = x4
    generalize a.toNat = x5
    generalize d.toNat = x6
    omega
  refine roundTrip_word (hw ▸ pack_lt hf) (fun ref hl hr hm => ?_)
  generalize encodeNat (.vcvt d a sat st rnd dt m) = wd at hw hm ⊢
  have f0 : fld wd 2 0 = m.toNat := hw ▸ fld_pack hf 0 rfl rfl (by decide)
  have f1 : fld wd 3 3 = 0 := hw ▸ fld_pack hf 1 rfl rfl (by decide)
  have f2 : fld wd 7 4 = dt.code := hw ▸ fld_pack hf 2 rfl rfl (by decide)
  have f3 : fld wd 10 8 = DynRnd.code rnd := hw ▸ fld_pack hf 3 rfl rfl (by decide)
  have f4 : fld wd 14 11 = st.code := hw ▸ fld_pack hf 4 rfl rfl (by decide)
  have f5 : fld wd 15 15 = boolCode sat := hw ▸ fld_pack hf 5 rfl rfl (by decide)
  have f6 : fld wd 20 16 = a.toNat := hw ▸ fld_pack hf 6 rfl rfl (by decide)
  have f7 : fld wd 25 21 = d.toNat := hw ▸ fld_pack hf 7 rfl rfl (by decide)
  have f8 : fld wd 31 26 = 37 := hw ▸ fld_pack hf 8 rfl rfl (by decide)
  have e1 : decodeForm ref wd = decode25 wd := by simp only [decodeForm, f8]
  rw [e1]
  simp only [decode25, f0, f1, f2, f3, f4, f5, f6, f7]
  simp [formOf, hl, hr]

/-- Table 4-10, major 0x25. -/
theorem RoundTrip.vcvtgq (d : Reg5) (a : Reg5) (sat : Bool) (st : GqSrc) (rnd : DynRnd) (dt : GqFmt) (m : BitVec 3) : RoundTrip.Statement (.vcvtgq d a sat st rnd dt m) := by
  have hf : fitBits [(m.toNat, 3), (1, 1), (dt.code, 4), (DynRnd.code rnd, 3), (st.code, 4), (boolCode sat, 1), (a.toNat, 5), (d.toNat, 5), (37, 6)] := ⟨m.isLt, by decide, GqFmt.code_lt dt, DynRnd.code_lt rnd, GqSrc.code_lt st, boolCode_lt sat, a.isLt, d.isLt, by decide, trivial⟩
  have hw : encodeNat (.vcvtgq d a sat st rnd dt m) = packBits [(m.toNat, 3), (1, 1), (dt.code, 4), (DynRnd.code rnd, 3), (st.code, 4), (boolCode sat, 1), (a.toNat, 5), (d.toNat, 5), (37, 6)] := by
    change 2483027976 + d.toNat * 2097152 + a.toNat * 65536 + boolCode sat * 32768 + st.code * 2048 + DynRnd.code rnd * 256 + dt.code * 16 + m.toNat = _
    simp only [packBits]
    generalize m.toNat = x0
    generalize dt.code = x1
    generalize DynRnd.code rnd = x2
    generalize st.code = x3
    generalize boolCode sat = x4
    generalize a.toNat = x5
    generalize d.toNat = x6
    omega
  refine roundTrip_word (hw ▸ pack_lt hf) (fun ref hl hr hm => ?_)
  generalize encodeNat (.vcvtgq d a sat st rnd dt m) = wd at hw hm ⊢
  have f0 : fld wd 2 0 = m.toNat := hw ▸ fld_pack hf 0 rfl rfl (by decide)
  have f1 : fld wd 3 3 = 1 := hw ▸ fld_pack hf 1 rfl rfl (by decide)
  have f2 : fld wd 7 4 = dt.code := hw ▸ fld_pack hf 2 rfl rfl (by decide)
  have f3 : fld wd 10 8 = DynRnd.code rnd := hw ▸ fld_pack hf 3 rfl rfl (by decide)
  have f4 : fld wd 14 11 = st.code := hw ▸ fld_pack hf 4 rfl rfl (by decide)
  have f5 : fld wd 15 15 = boolCode sat := hw ▸ fld_pack hf 5 rfl rfl (by decide)
  have f6 : fld wd 20 16 = a.toNat := hw ▸ fld_pack hf 6 rfl rfl (by decide)
  have f7 : fld wd 25 21 = d.toNat := hw ▸ fld_pack hf 7 rfl rfl (by decide)
  have f8 : fld wd 31 26 = 37 := hw ▸ fld_pack hf 8 rfl rfl (by decide)
  have e1 : decodeForm ref wd = decode25 wd := by simp only [decodeForm, f8]
  rw [e1]
  simp only [decode25, f0, f1, f2, f3, f4, f5, f6, f7]
  simp [formOf, hl, hr]

/-- Table 4-10, major 0x26. -/
theorem RoundTrip.vperm (d : Reg5) (a : Reg5) (b : Reg5) (ty : IType) (m : BitVec 3) : RoundTrip.Statement (.vperm d a b ty m) := by
  have hf : fitBits [(m.toNat, 3), (0, 5), (ty.code, 3), (b.toNat, 5), (a.toNat, 5), (d.toNat, 5), (38, 6)] := ⟨m.isLt, by decide, IType.code_lt ty, b.isLt, a.isLt, d.isLt, by decide, trivial⟩
  have hw : encodeNat (.vperm d a b ty m) = packBits [(m.toNat, 3), (0, 5), (ty.code, 3), (b.toNat, 5), (a.toNat, 5), (d.toNat, 5), (38, 6)] := by
    change 2550136832 + d.toNat * 2097152 + a.toNat * 65536 + b.toNat * 2048 + ty.code * 256 + m.toNat = _
    simp only [packBits]
    generalize m.toNat = x0
    generalize ty.code = x1
    generalize b.toNat = x2
    generalize a.toNat = x3
    generalize d.toNat = x4
    omega
  refine roundTrip_word (hw ▸ pack_lt hf) (fun ref hl hr hm => ?_)
  generalize encodeNat (.vperm d a b ty m) = wd at hw hm ⊢
  have f0 : fld wd 2 0 = m.toNat := hw ▸ fld_pack hf 0 rfl rfl (by decide)
  have f1 : fld wd 7 3 = 0 := hw ▸ fld_pack hf 1 rfl rfl (by decide)
  have f2 : fld wd 10 8 = ty.code := hw ▸ fld_pack hf 2 rfl rfl (by decide)
  have f3 : fld wd 15 11 = b.toNat := hw ▸ fld_pack hf 3 rfl rfl (by decide)
  have f4 : fld wd 20 16 = a.toNat := hw ▸ fld_pack hf 4 rfl rfl (by decide)
  have f5 : fld wd 25 21 = d.toNat := hw ▸ fld_pack hf 5 rfl rfl (by decide)
  have f6 : fld wd 31 26 = 38 := hw ▸ fld_pack hf 6 rfl rfl (by decide)
  have e1 : decodeForm ref wd = decode26 wd := by simp only [decodeForm, f6]
  rw [e1]
  simp only [decode26, f0, f1, f2, f3, f4, f5]
  simp [formOf, hl, hr]

/-- Table 4-10, major 0x26. -/
theorem RoundTrip.vshuf (d : Reg5) (a : Reg5) (b : Reg5) (ty : IType) (m : BitVec 3) : RoundTrip.Statement (.vshuf d a b ty m) := by
  have hf : fitBits [(m.toNat, 3), (1, 5), (ty.code, 3), (b.toNat, 5), (a.toNat, 5), (d.toNat, 5), (38, 6)] := ⟨m.isLt, by decide, IType.code_lt ty, b.isLt, a.isLt, d.isLt, by decide, trivial⟩
  have hw : encodeNat (.vshuf d a b ty m) = packBits [(m.toNat, 3), (1, 5), (ty.code, 3), (b.toNat, 5), (a.toNat, 5), (d.toNat, 5), (38, 6)] := by
    change 2550136840 + d.toNat * 2097152 + a.toNat * 65536 + b.toNat * 2048 + ty.code * 256 + m.toNat = _
    simp only [packBits]
    generalize m.toNat = x0
    generalize ty.code = x1
    generalize b.toNat = x2
    generalize a.toNat = x3
    generalize d.toNat = x4
    omega
  refine roundTrip_word (hw ▸ pack_lt hf) (fun ref hl hr hm => ?_)
  generalize encodeNat (.vshuf d a b ty m) = wd at hw hm ⊢
  have f0 : fld wd 2 0 = m.toNat := hw ▸ fld_pack hf 0 rfl rfl (by decide)
  have f1 : fld wd 7 3 = 1 := hw ▸ fld_pack hf 1 rfl rfl (by decide)
  have f2 : fld wd 10 8 = ty.code := hw ▸ fld_pack hf 2 rfl rfl (by decide)
  have f3 : fld wd 15 11 = b.toNat := hw ▸ fld_pack hf 3 rfl rfl (by decide)
  have f4 : fld wd 20 16 = a.toNat := hw ▸ fld_pack hf 4 rfl rfl (by decide)
  have f5 : fld wd 25 21 = d.toNat := hw ▸ fld_pack hf 5 rfl rfl (by decide)
  have f6 : fld wd 31 26 = 38 := hw ▸ fld_pack hf 6 rfl rfl (by decide)
  have e1 : decodeForm ref wd = decode26 wd := by simp only [decodeForm, f6]
  rw [e1]
  simp only [decode26, f0, f1, f2, f3, f4, f5]
  simp [formOf, hl, hr]

/-- Table 4-10, major 0x26. -/
theorem RoundTrip.vzip (d : Reg5) (a : Reg5) (b : Reg5) (ty : IType) (m : BitVec 3) : RoundTrip.Statement (.vzip d a b ty m) := by
  have hf : fitBits [(m.toNat, 3), (2, 5), (ty.code, 3), (b.toNat, 5), (a.toNat, 5), (d.toNat, 5), (38, 6)] := ⟨m.isLt, by decide, IType.code_lt ty, b.isLt, a.isLt, d.isLt, by decide, trivial⟩
  have hw : encodeNat (.vzip d a b ty m) = packBits [(m.toNat, 3), (2, 5), (ty.code, 3), (b.toNat, 5), (a.toNat, 5), (d.toNat, 5), (38, 6)] := by
    change 2550136848 + d.toNat * 2097152 + a.toNat * 65536 + b.toNat * 2048 + ty.code * 256 + m.toNat = _
    simp only [packBits]
    generalize m.toNat = x0
    generalize ty.code = x1
    generalize b.toNat = x2
    generalize a.toNat = x3
    generalize d.toNat = x4
    omega
  refine roundTrip_word (hw ▸ pack_lt hf) (fun ref hl hr hm => ?_)
  generalize encodeNat (.vzip d a b ty m) = wd at hw hm ⊢
  have f0 : fld wd 2 0 = m.toNat := hw ▸ fld_pack hf 0 rfl rfl (by decide)
  have f1 : fld wd 7 3 = 2 := hw ▸ fld_pack hf 1 rfl rfl (by decide)
  have f2 : fld wd 10 8 = ty.code := hw ▸ fld_pack hf 2 rfl rfl (by decide)
  have f3 : fld wd 15 11 = b.toNat := hw ▸ fld_pack hf 3 rfl rfl (by decide)
  have f4 : fld wd 20 16 = a.toNat := hw ▸ fld_pack hf 4 rfl rfl (by decide)
  have f5 : fld wd 25 21 = d.toNat := hw ▸ fld_pack hf 5 rfl rfl (by decide)
  have f6 : fld wd 31 26 = 38 := hw ▸ fld_pack hf 6 rfl rfl (by decide)
  have e1 : decodeForm ref wd = decode26 wd := by simp only [decodeForm, f6]
  rw [e1]
  simp only [decode26, f0, f1, f2, f3, f4, f5]
  simp [formOf, hl, hr]

/-- Table 4-10, major 0x26. -/
theorem RoundTrip.vunzip (d : Reg5) (a : Reg5) (b : Reg5) (ty : IType) (m : BitVec 3) : RoundTrip.Statement (.vunzip d a b ty m) := by
  have hf : fitBits [(m.toNat, 3), (3, 5), (ty.code, 3), (b.toNat, 5), (a.toNat, 5), (d.toNat, 5), (38, 6)] := ⟨m.isLt, by decide, IType.code_lt ty, b.isLt, a.isLt, d.isLt, by decide, trivial⟩
  have hw : encodeNat (.vunzip d a b ty m) = packBits [(m.toNat, 3), (3, 5), (ty.code, 3), (b.toNat, 5), (a.toNat, 5), (d.toNat, 5), (38, 6)] := by
    change 2550136856 + d.toNat * 2097152 + a.toNat * 65536 + b.toNat * 2048 + ty.code * 256 + m.toNat = _
    simp only [packBits]
    generalize m.toNat = x0
    generalize ty.code = x1
    generalize b.toNat = x2
    generalize a.toNat = x3
    generalize d.toNat = x4
    omega
  refine roundTrip_word (hw ▸ pack_lt hf) (fun ref hl hr hm => ?_)
  generalize encodeNat (.vunzip d a b ty m) = wd at hw hm ⊢
  have f0 : fld wd 2 0 = m.toNat := hw ▸ fld_pack hf 0 rfl rfl (by decide)
  have f1 : fld wd 7 3 = 3 := hw ▸ fld_pack hf 1 rfl rfl (by decide)
  have f2 : fld wd 10 8 = ty.code := hw ▸ fld_pack hf 2 rfl rfl (by decide)
  have f3 : fld wd 15 11 = b.toNat := hw ▸ fld_pack hf 3 rfl rfl (by decide)
  have f4 : fld wd 20 16 = a.toNat := hw ▸ fld_pack hf 4 rfl rfl (by decide)
  have f5 : fld wd 25 21 = d.toNat := hw ▸ fld_pack hf 5 rfl rfl (by decide)
  have f6 : fld wd 31 26 = 38 := hw ▸ fld_pack hf 6 rfl rfl (by decide)
  have e1 : decodeForm ref wd = decode26 wd := by simp only [decodeForm, f6]
  rw [e1]
  simp only [decode26, f0, f1, f2, f3, f4, f5]
  simp [formOf, hl, hr]

/-- Table 4-10, major 0x26. -/
theorem RoundTrip.vbcast (d : Reg5) (a : Reg5) (ty : IType) (m : BitVec 3) : RoundTrip.Statement (.vbcast d a ty m) := by
  have hf : fitBits [(m.toNat, 3), (4, 5), (ty.code, 3), (0, 5), (a.toNat, 5), (d.toNat, 5), (38, 6)] := ⟨m.isLt, by decide, IType.code_lt ty, by decide, a.isLt, d.isLt, by decide, trivial⟩
  have hw : encodeNat (.vbcast d a ty m) = packBits [(m.toNat, 3), (4, 5), (ty.code, 3), (0, 5), (a.toNat, 5), (d.toNat, 5), (38, 6)] := by
    change 2550136864 + d.toNat * 2097152 + a.toNat * 65536 + ty.code * 256 + m.toNat = _
    simp only [packBits]
    generalize m.toNat = x0
    generalize ty.code = x1
    generalize a.toNat = x2
    generalize d.toNat = x3
    omega
  refine roundTrip_word (hw ▸ pack_lt hf) (fun ref hl hr hm => ?_)
  generalize encodeNat (.vbcast d a ty m) = wd at hw hm ⊢
  have f0 : fld wd 2 0 = m.toNat := hw ▸ fld_pack hf 0 rfl rfl (by decide)
  have f1 : fld wd 7 3 = 4 := hw ▸ fld_pack hf 1 rfl rfl (by decide)
  have f2 : fld wd 10 8 = ty.code := hw ▸ fld_pack hf 2 rfl rfl (by decide)
  have f3 : fld wd 15 11 = 0 := hw ▸ fld_pack hf 3 rfl rfl (by decide)
  have f4 : fld wd 20 16 = a.toNat := hw ▸ fld_pack hf 4 rfl rfl (by decide)
  have f5 : fld wd 25 21 = d.toNat := hw ▸ fld_pack hf 5 rfl rfl (by decide)
  have f6 : fld wd 31 26 = 38 := hw ▸ fld_pack hf 6 rfl rfl (by decide)
  have e1 : decodeForm ref wd = decode26 wd := by simp only [decodeForm, f6]
  rw [e1]
  simp only [decode26, f0, f1, f2, f3, f4, f5]
  simp [formOf, hl, hr]

/-- Table 4-10, major 0x26. -/
theorem RoundTrip.vslide (d : Reg5) (a : Reg5) (b : Reg5) (ty : IType) (m : BitVec 3) : RoundTrip.Statement (.vslide d a b ty m) := by
  have hf : fitBits [(m.toNat, 3), (5, 5), (ty.code, 3), (b.toNat, 5), (a.toNat, 5), (d.toNat, 5), (38, 6)] := ⟨m.isLt, by decide, IType.code_lt ty, b.isLt, a.isLt, d.isLt, by decide, trivial⟩
  have hw : encodeNat (.vslide d a b ty m) = packBits [(m.toNat, 3), (5, 5), (ty.code, 3), (b.toNat, 5), (a.toNat, 5), (d.toNat, 5), (38, 6)] := by
    change 2550136872 + d.toNat * 2097152 + a.toNat * 65536 + b.toNat * 2048 + ty.code * 256 + m.toNat = _
    simp only [packBits]
    generalize m.toNat = x0
    generalize ty.code = x1
    generalize b.toNat = x2
    generalize a.toNat = x3
    generalize d.toNat = x4
    omega
  refine roundTrip_word (hw ▸ pack_lt hf) (fun ref hl hr hm => ?_)
  generalize encodeNat (.vslide d a b ty m) = wd at hw hm ⊢
  have f0 : fld wd 2 0 = m.toNat := hw ▸ fld_pack hf 0 rfl rfl (by decide)
  have f1 : fld wd 7 3 = 5 := hw ▸ fld_pack hf 1 rfl rfl (by decide)
  have f2 : fld wd 10 8 = ty.code := hw ▸ fld_pack hf 2 rfl rfl (by decide)
  have f3 : fld wd 15 11 = b.toNat := hw ▸ fld_pack hf 3 rfl rfl (by decide)
  have f4 : fld wd 20 16 = a.toNat := hw ▸ fld_pack hf 4 rfl rfl (by decide)
  have f5 : fld wd 25 21 = d.toNat := hw ▸ fld_pack hf 5 rfl rfl (by decide)
  have f6 : fld wd 31 26 = 38 := hw ▸ fld_pack hf 6 rfl rfl (by decide)
  have e1 : decodeForm ref wd = decode26 wd := by simp only [decodeForm, f6]
  rw [e1]
  simp only [decode26, f0, f1, f2, f3, f4, f5]
  simp [formOf, hl, hr]

/-- Table 4-10, major 0x27. -/
theorem RoundTrip.vredi (d : Reg5) (a : Reg5) (ty : IType) (m : BitVec 3) : RoundTrip.Statement (.vredi d a ty m) := by
  have hf : fitBits [(m.toNat, 3), (0, 5), (ty.code, 3), (0, 5), (a.toNat, 5), (d.toNat, 5), (39, 6)] := ⟨m.isLt, by decide, IType.code_lt ty, by decide, a.isLt, d.isLt, by decide, trivial⟩
  have hw : encodeNat (.vredi d a ty m) = packBits [(m.toNat, 3), (0, 5), (ty.code, 3), (0, 5), (a.toNat, 5), (d.toNat, 5), (39, 6)] := by
    change 2617245696 + d.toNat * 2097152 + a.toNat * 65536 + ty.code * 256 + m.toNat = _
    simp only [packBits]
    generalize m.toNat = x0
    generalize ty.code = x1
    generalize a.toNat = x2
    generalize d.toNat = x3
    omega
  refine roundTrip_word (hw ▸ pack_lt hf) (fun ref hl hr hm => ?_)
  generalize encodeNat (.vredi d a ty m) = wd at hw hm ⊢
  have f0 : fld wd 2 0 = m.toNat := hw ▸ fld_pack hf 0 rfl rfl (by decide)
  have f1 : fld wd 7 3 = 0 := hw ▸ fld_pack hf 1 rfl rfl (by decide)
  have f2 : fld wd 10 8 = ty.code := hw ▸ fld_pack hf 2 rfl rfl (by decide)
  have f3 : fld wd 15 11 = 0 := hw ▸ fld_pack hf 3 rfl rfl (by decide)
  have f4 : fld wd 20 16 = a.toNat := hw ▸ fld_pack hf 4 rfl rfl (by decide)
  have f5 : fld wd 25 21 = d.toNat := hw ▸ fld_pack hf 5 rfl rfl (by decide)
  have f6 : fld wd 31 26 = 39 := hw ▸ fld_pack hf 6 rfl rfl (by decide)
  have e1 : decodeForm ref wd = decode27 wd := by simp only [decodeForm, f6]
  rw [e1]
  simp only [decode27, f0, f1, f2, f3, f4, f5]
  simp [formOf, hl, hr]

/-- Table 4-10, major 0x27. -/
theorem RoundTrip.vmvs (d : Reg5) (a : Reg5) (b : Reg5) (ty : IType) (m : BitVec 3) : RoundTrip.Statement (.vmvs d a b ty m) := by
  have hf : fitBits [(m.toNat, 3), (1, 5), (ty.code, 3), (b.toNat, 5), (a.toNat, 5), (d.toNat, 5), (39, 6)] := ⟨m.isLt, by decide, IType.code_lt ty, b.isLt, a.isLt, d.isLt, by decide, trivial⟩
  have hw : encodeNat (.vmvs d a b ty m) = packBits [(m.toNat, 3), (1, 5), (ty.code, 3), (b.toNat, 5), (a.toNat, 5), (d.toNat, 5), (39, 6)] := by
    change 2617245704 + d.toNat * 2097152 + a.toNat * 65536 + b.toNat * 2048 + ty.code * 256 + m.toNat = _
    simp only [packBits]
    generalize m.toNat = x0
    generalize ty.code = x1
    generalize b.toNat = x2
    generalize a.toNat = x3
    generalize d.toNat = x4
    omega
  refine roundTrip_word (hw ▸ pack_lt hf) (fun ref hl hr hm => ?_)
  generalize encodeNat (.vmvs d a b ty m) = wd at hw hm ⊢
  have f0 : fld wd 2 0 = m.toNat := hw ▸ fld_pack hf 0 rfl rfl (by decide)
  have f1 : fld wd 7 3 = 1 := hw ▸ fld_pack hf 1 rfl rfl (by decide)
  have f2 : fld wd 10 8 = ty.code := hw ▸ fld_pack hf 2 rfl rfl (by decide)
  have f3 : fld wd 15 11 = b.toNat := hw ▸ fld_pack hf 3 rfl rfl (by decide)
  have f4 : fld wd 20 16 = a.toNat := hw ▸ fld_pack hf 4 rfl rfl (by decide)
  have f5 : fld wd 25 21 = d.toNat := hw ▸ fld_pack hf 5 rfl rfl (by decide)
  have f6 : fld wd 31 26 = 39 := hw ▸ fld_pack hf 6 rfl rfl (by decide)
  have e1 : decodeForm ref wd = decode27 wd := by simp only [decodeForm, f6]
  rw [e1]
  simp only [decode27, f0, f1, f2, f3, f4, f5]
  simp [formOf, hl, hr]

/-- Table 4-10, major 0x27. -/
theorem RoundTrip.vspl (d : Reg5) (a : Reg5) (b : Reg5) (ty : IType) (m : BitVec 3) : RoundTrip.Statement (.vspl d a b ty m) := by
  have hf : fitBits [(m.toNat, 3), (2, 5), (ty.code, 3), (b.toNat, 5), (a.toNat, 5), (d.toNat, 5), (39, 6)] := ⟨m.isLt, by decide, IType.code_lt ty, b.isLt, a.isLt, d.isLt, by decide, trivial⟩
  have hw : encodeNat (.vspl d a b ty m) = packBits [(m.toNat, 3), (2, 5), (ty.code, 3), (b.toNat, 5), (a.toNat, 5), (d.toNat, 5), (39, 6)] := by
    change 2617245712 + d.toNat * 2097152 + a.toNat * 65536 + b.toNat * 2048 + ty.code * 256 + m.toNat = _
    simp only [packBits]
    generalize m.toNat = x0
    generalize ty.code = x1
    generalize b.toNat = x2
    generalize a.toNat = x3
    generalize d.toNat = x4
    omega
  refine roundTrip_word (hw ▸ pack_lt hf) (fun ref hl hr hm => ?_)
  generalize encodeNat (.vspl d a b ty m) = wd at hw hm ⊢
  have f0 : fld wd 2 0 = m.toNat := hw ▸ fld_pack hf 0 rfl rfl (by decide)
  have f1 : fld wd 7 3 = 2 := hw ▸ fld_pack hf 1 rfl rfl (by decide)
  have f2 : fld wd 10 8 = ty.code := hw ▸ fld_pack hf 2 rfl rfl (by decide)
  have f3 : fld wd 15 11 = b.toNat := hw ▸ fld_pack hf 3 rfl rfl (by decide)
  have f4 : fld wd 20 16 = a.toNat := hw ▸ fld_pack hf 4 rfl rfl (by decide)
  have f5 : fld wd 25 21 = d.toNat := hw ▸ fld_pack hf 5 rfl rfl (by decide)
  have f6 : fld wd 31 26 = 39 := hw ▸ fld_pack hf 6 rfl rfl (by decide)
  have e1 : decodeForm ref wd = decode27 wd := by simp only [decodeForm, f6]
  rw [e1]
  simp only [decode27, f0, f1, f2, f3, f4, f5]
  simp [formOf, hl, hr]

/-- Table 4-10, major 0x27. -/
theorem RoundTrip.vfreds (d : Reg5) (a : Reg5) (b : Reg5) (f : FFmt) (rm : RMode) : RoundTrip.Statement (.vfreds d a b f rm) := by
  cases rm with
  | masked m =>
    have hf : fitBits [(m.toNat, 3), (3, 5), (f.code, 2), (0, 1), (b.toNat, 5), (a.toNat, 5), (d.toNat, 5), (39, 6)] := ⟨m.isLt, by decide, FFmt.code_lt f, by decide, b.isLt, a.isLt, d.isLt, by decide, trivial⟩
    have hw : encodeNat (.vfreds d a b f (.masked m)) = packBits [(m.toNat, 3), (3, 5), (f.code, 2), (0, 1), (b.toNat, 5), (a.toNat, 5), (d.toNat, 5), (39, 6)] := by
      change 2617245720 + d.toNat * 2097152 + a.toNat * 65536 + b.toNat * 2048 + f.code * 256 + m.toNat = _
      simp only [packBits]
      generalize m.toNat = x0
      generalize f.code = x1
      generalize b.toNat = x2
      generalize a.toNat = x3
      generalize d.toNat = x4
      omega
    refine roundTrip_word (hw ▸ pack_lt hf) (fun ref hl hr hm => ?_)
    generalize encodeNat (.vfreds d a b f (.masked m)) = wd at hw hm ⊢
    have f0 : fld wd 2 0 = m.toNat := hw ▸ fld_pack hf 0 rfl rfl (by decide)
    have f1 : fld wd 7 3 = 3 := hw ▸ fld_pack hf 1 rfl rfl (by decide)
    have f2 : fld wd 9 8 = f.code := hw ▸ fld_pack hf 2 rfl rfl (by decide)
    have f3 : fld wd 10 10 = 0 := hw ▸ fld_pack hf 3 rfl rfl (by decide)
    have f4 : fld wd 15 11 = b.toNat := hw ▸ fld_pack hf 4 rfl rfl (by decide)
    have f5 : fld wd 20 16 = a.toNat := hw ▸ fld_pack hf 5 rfl rfl (by decide)
    have f6 : fld wd 25 21 = d.toNat := hw ▸ fld_pack hf 6 rfl rfl (by decide)
    have f7 : fld wd 31 26 = 39 := hw ▸ fld_pack hf 7 rfl rfl (by decide)
    have e1 : decodeForm ref wd = decode27 wd := by simp only [decodeForm, f7]
    rw [e1]
    simp only [decode27, RMode.ofWord, f0, f1, f2, f3, f4, f5, f6]
    simp [formOf, hl, hr]
  | static r =>
    have hf : fitBits [(r.code, 3), (3, 5), (f.code, 2), (1, 1), (b.toNat, 5), (a.toNat, 5), (d.toNat, 5), (39, 6)] := ⟨Rnd.code_lt r, by decide, FFmt.code_lt f, by decide, b.isLt, a.isLt, d.isLt, by decide, trivial⟩
    have hw : encodeNat (.vfreds d a b f (.static r)) = packBits [(r.code, 3), (3, 5), (f.code, 2), (1, 1), (b.toNat, 5), (a.toNat, 5), (d.toNat, 5), (39, 6)] := by
      change 2617245720 + d.toNat * 2097152 + a.toNat * 65536 + b.toNat * 2048 + f.code * 256 + (1024 + r.code) = _
      simp only [packBits]
      generalize r.code = x0
      generalize f.code = x1
      generalize b.toNat = x2
      generalize a.toNat = x3
      generalize d.toNat = x4
      omega
    refine roundTrip_word (hw ▸ pack_lt hf) (fun ref hl hr hm => ?_)
    generalize encodeNat (.vfreds d a b f (.static r)) = wd at hw hm ⊢
    have f0 : fld wd 2 0 = r.code := hw ▸ fld_pack hf 0 rfl rfl (by decide)
    have f1 : fld wd 7 3 = 3 := hw ▸ fld_pack hf 1 rfl rfl (by decide)
    have f2 : fld wd 9 8 = f.code := hw ▸ fld_pack hf 2 rfl rfl (by decide)
    have f3 : fld wd 10 10 = 1 := hw ▸ fld_pack hf 3 rfl rfl (by decide)
    have f4 : fld wd 15 11 = b.toNat := hw ▸ fld_pack hf 4 rfl rfl (by decide)
    have f5 : fld wd 20 16 = a.toNat := hw ▸ fld_pack hf 5 rfl rfl (by decide)
    have f6 : fld wd 25 21 = d.toNat := hw ▸ fld_pack hf 6 rfl rfl (by decide)
    have f7 : fld wd 31 26 = 39 := hw ▸ fld_pack hf 7 rfl rfl (by decide)
    have e1 : decodeForm ref wd = decode27 wd := by simp only [decodeForm, f7]
    rw [e1]
    simp only [decode27, RMode.ofWord, f0, f1, f2, f3, f4, f5, f6]
    simp [formOf, hl, hr]

/-- Table 4-10, major 0x28. -/
theorem RoundTrip.mand (d : Reg5) (a : Reg5) (b : Reg5) : RoundTrip.Statement (.mand d a b) := by
  have hf : fitBits [(0, 3), (0, 5), (0, 3), (b.toNat, 5), (a.toNat, 5), (d.toNat, 5), (40, 6)] := ⟨by decide, by decide, by decide, b.isLt, a.isLt, d.isLt, by decide, trivial⟩
  have hw : encodeNat (.mand d a b) = packBits [(0, 3), (0, 5), (0, 3), (b.toNat, 5), (a.toNat, 5), (d.toNat, 5), (40, 6)] := by
    change 2684354560 + d.toNat * 2097152 + a.toNat * 65536 + b.toNat * 2048 = _
    simp only [packBits]
    generalize b.toNat = x0
    generalize a.toNat = x1
    generalize d.toNat = x2
    omega
  refine roundTrip_word (hw ▸ pack_lt hf) (fun ref hl hr hm => ?_)
  generalize encodeNat (.mand d a b) = wd at hw hm ⊢
  have f0 : fld wd 2 0 = 0 := hw ▸ fld_pack hf 0 rfl rfl (by decide)
  have f1 : fld wd 7 3 = 0 := hw ▸ fld_pack hf 1 rfl rfl (by decide)
  have f2 : fld wd 10 8 = 0 := hw ▸ fld_pack hf 2 rfl rfl (by decide)
  have f3 : fld wd 15 11 = b.toNat := hw ▸ fld_pack hf 3 rfl rfl (by decide)
  have f4 : fld wd 20 16 = a.toNat := hw ▸ fld_pack hf 4 rfl rfl (by decide)
  have f5 : fld wd 25 21 = d.toNat := hw ▸ fld_pack hf 5 rfl rfl (by decide)
  have f6 : fld wd 31 26 = 40 := hw ▸ fld_pack hf 6 rfl rfl (by decide)
  have e1 : decodeForm ref wd = decode28 wd := by simp only [decodeForm, f6]
  rw [e1]
  simp only [decode28, f0, f1, f2, f3, f4, f5]
  simp [formOf, hl, hr]

/-- Table 4-10, major 0x28. -/
theorem RoundTrip.mor (d : Reg5) (a : Reg5) (b : Reg5) : RoundTrip.Statement (.mor d a b) := by
  have hf : fitBits [(0, 3), (1, 5), (0, 3), (b.toNat, 5), (a.toNat, 5), (d.toNat, 5), (40, 6)] := ⟨by decide, by decide, by decide, b.isLt, a.isLt, d.isLt, by decide, trivial⟩
  have hw : encodeNat (.mor d a b) = packBits [(0, 3), (1, 5), (0, 3), (b.toNat, 5), (a.toNat, 5), (d.toNat, 5), (40, 6)] := by
    change 2684354568 + d.toNat * 2097152 + a.toNat * 65536 + b.toNat * 2048 = _
    simp only [packBits]
    generalize b.toNat = x0
    generalize a.toNat = x1
    generalize d.toNat = x2
    omega
  refine roundTrip_word (hw ▸ pack_lt hf) (fun ref hl hr hm => ?_)
  generalize encodeNat (.mor d a b) = wd at hw hm ⊢
  have f0 : fld wd 2 0 = 0 := hw ▸ fld_pack hf 0 rfl rfl (by decide)
  have f1 : fld wd 7 3 = 1 := hw ▸ fld_pack hf 1 rfl rfl (by decide)
  have f2 : fld wd 10 8 = 0 := hw ▸ fld_pack hf 2 rfl rfl (by decide)
  have f3 : fld wd 15 11 = b.toNat := hw ▸ fld_pack hf 3 rfl rfl (by decide)
  have f4 : fld wd 20 16 = a.toNat := hw ▸ fld_pack hf 4 rfl rfl (by decide)
  have f5 : fld wd 25 21 = d.toNat := hw ▸ fld_pack hf 5 rfl rfl (by decide)
  have f6 : fld wd 31 26 = 40 := hw ▸ fld_pack hf 6 rfl rfl (by decide)
  have e1 : decodeForm ref wd = decode28 wd := by simp only [decodeForm, f6]
  rw [e1]
  simp only [decode28, f0, f1, f2, f3, f4, f5]
  simp [formOf, hl, hr]

/-- Table 4-10, major 0x28. -/
theorem RoundTrip.mxor (d : Reg5) (a : Reg5) (b : Reg5) : RoundTrip.Statement (.mxor d a b) := by
  have hf : fitBits [(0, 3), (2, 5), (0, 3), (b.toNat, 5), (a.toNat, 5), (d.toNat, 5), (40, 6)] := ⟨by decide, by decide, by decide, b.isLt, a.isLt, d.isLt, by decide, trivial⟩
  have hw : encodeNat (.mxor d a b) = packBits [(0, 3), (2, 5), (0, 3), (b.toNat, 5), (a.toNat, 5), (d.toNat, 5), (40, 6)] := by
    change 2684354576 + d.toNat * 2097152 + a.toNat * 65536 + b.toNat * 2048 = _
    simp only [packBits]
    generalize b.toNat = x0
    generalize a.toNat = x1
    generalize d.toNat = x2
    omega
  refine roundTrip_word (hw ▸ pack_lt hf) (fun ref hl hr hm => ?_)
  generalize encodeNat (.mxor d a b) = wd at hw hm ⊢
  have f0 : fld wd 2 0 = 0 := hw ▸ fld_pack hf 0 rfl rfl (by decide)
  have f1 : fld wd 7 3 = 2 := hw ▸ fld_pack hf 1 rfl rfl (by decide)
  have f2 : fld wd 10 8 = 0 := hw ▸ fld_pack hf 2 rfl rfl (by decide)
  have f3 : fld wd 15 11 = b.toNat := hw ▸ fld_pack hf 3 rfl rfl (by decide)
  have f4 : fld wd 20 16 = a.toNat := hw ▸ fld_pack hf 4 rfl rfl (by decide)
  have f5 : fld wd 25 21 = d.toNat := hw ▸ fld_pack hf 5 rfl rfl (by decide)
  have f6 : fld wd 31 26 = 40 := hw ▸ fld_pack hf 6 rfl rfl (by decide)
  have e1 : decodeForm ref wd = decode28 wd := by simp only [decodeForm, f6]
  rw [e1]
  simp only [decode28, f0, f1, f2, f3, f4, f5]
  simp [formOf, hl, hr]

/-- Table 4-10, major 0x28. -/
theorem RoundTrip.mnot (d : Reg5) (a : Reg5) : RoundTrip.Statement (.mnot d a) := by
  have hf : fitBits [(0, 3), (3, 5), (0, 3), (0, 5), (a.toNat, 5), (d.toNat, 5), (40, 6)] := ⟨by decide, by decide, by decide, by decide, a.isLt, d.isLt, by decide, trivial⟩
  have hw : encodeNat (.mnot d a) = packBits [(0, 3), (3, 5), (0, 3), (0, 5), (a.toNat, 5), (d.toNat, 5), (40, 6)] := by
    change 2684354584 + d.toNat * 2097152 + a.toNat * 65536 = _
    simp only [packBits]
    generalize a.toNat = x0
    generalize d.toNat = x1
    omega
  refine roundTrip_word (hw ▸ pack_lt hf) (fun ref hl hr hm => ?_)
  generalize encodeNat (.mnot d a) = wd at hw hm ⊢
  have f0 : fld wd 2 0 = 0 := hw ▸ fld_pack hf 0 rfl rfl (by decide)
  have f1 : fld wd 7 3 = 3 := hw ▸ fld_pack hf 1 rfl rfl (by decide)
  have f2 : fld wd 10 8 = 0 := hw ▸ fld_pack hf 2 rfl rfl (by decide)
  have f3 : fld wd 15 11 = 0 := hw ▸ fld_pack hf 3 rfl rfl (by decide)
  have f4 : fld wd 20 16 = a.toNat := hw ▸ fld_pack hf 4 rfl rfl (by decide)
  have f5 : fld wd 25 21 = d.toNat := hw ▸ fld_pack hf 5 rfl rfl (by decide)
  have f6 : fld wd 31 26 = 40 := hw ▸ fld_pack hf 6 rfl rfl (by decide)
  have e1 : decodeForm ref wd = decode28 wd := by simp only [decodeForm, f6]
  rw [e1]
  simp only [decode28, f0, f1, f2, f3, f4, f5]
  simp [formOf, hl, hr]

/-- Table 4-10, major 0x28. -/
theorem RoundTrip.mpopc (d : Reg5) (a : Reg5) : RoundTrip.Statement (.mpopc d a) := by
  have hf : fitBits [(0, 3), (4, 5), (0, 3), (0, 5), (a.toNat, 5), (d.toNat, 5), (40, 6)] := ⟨by decide, by decide, by decide, by decide, a.isLt, d.isLt, by decide, trivial⟩
  have hw : encodeNat (.mpopc d a) = packBits [(0, 3), (4, 5), (0, 3), (0, 5), (a.toNat, 5), (d.toNat, 5), (40, 6)] := by
    change 2684354592 + d.toNat * 2097152 + a.toNat * 65536 = _
    simp only [packBits]
    generalize a.toNat = x0
    generalize d.toNat = x1
    omega
  refine roundTrip_word (hw ▸ pack_lt hf) (fun ref hl hr hm => ?_)
  generalize encodeNat (.mpopc d a) = wd at hw hm ⊢
  have f0 : fld wd 2 0 = 0 := hw ▸ fld_pack hf 0 rfl rfl (by decide)
  have f1 : fld wd 7 3 = 4 := hw ▸ fld_pack hf 1 rfl rfl (by decide)
  have f2 : fld wd 10 8 = 0 := hw ▸ fld_pack hf 2 rfl rfl (by decide)
  have f3 : fld wd 15 11 = 0 := hw ▸ fld_pack hf 3 rfl rfl (by decide)
  have f4 : fld wd 20 16 = a.toNat := hw ▸ fld_pack hf 4 rfl rfl (by decide)
  have f5 : fld wd 25 21 = d.toNat := hw ▸ fld_pack hf 5 rfl rfl (by decide)
  have f6 : fld wd 31 26 = 40 := hw ▸ fld_pack hf 6 rfl rfl (by decide)
  have e1 : decodeForm ref wd = decode28 wd := by simp only [decodeForm, f6]
  rw [e1]
  simp only [decode28, f0, f1, f2, f3, f4, f5]
  simp [formOf, hl, hr]

/-- Table 4-10, major 0x28. -/
theorem RoundTrip.mfirst (d : Reg5) (a : Reg5) : RoundTrip.Statement (.mfirst d a) := by
  have hf : fitBits [(0, 3), (5, 5), (0, 3), (0, 5), (a.toNat, 5), (d.toNat, 5), (40, 6)] := ⟨by decide, by decide, by decide, by decide, a.isLt, d.isLt, by decide, trivial⟩
  have hw : encodeNat (.mfirst d a) = packBits [(0, 3), (5, 5), (0, 3), (0, 5), (a.toNat, 5), (d.toNat, 5), (40, 6)] := by
    change 2684354600 + d.toNat * 2097152 + a.toNat * 65536 = _
    simp only [packBits]
    generalize a.toNat = x0
    generalize d.toNat = x1
    omega
  refine roundTrip_word (hw ▸ pack_lt hf) (fun ref hl hr hm => ?_)
  generalize encodeNat (.mfirst d a) = wd at hw hm ⊢
  have f0 : fld wd 2 0 = 0 := hw ▸ fld_pack hf 0 rfl rfl (by decide)
  have f1 : fld wd 7 3 = 5 := hw ▸ fld_pack hf 1 rfl rfl (by decide)
  have f2 : fld wd 10 8 = 0 := hw ▸ fld_pack hf 2 rfl rfl (by decide)
  have f3 : fld wd 15 11 = 0 := hw ▸ fld_pack hf 3 rfl rfl (by decide)
  have f4 : fld wd 20 16 = a.toNat := hw ▸ fld_pack hf 4 rfl rfl (by decide)
  have f5 : fld wd 25 21 = d.toNat := hw ▸ fld_pack hf 5 rfl rfl (by decide)
  have f6 : fld wd 31 26 = 40 := hw ▸ fld_pack hf 6 rfl rfl (by decide)
  have e1 : decodeForm ref wd = decode28 wd := by simp only [decodeForm, f6]
  rw [e1]
  simp only [decode28, f0, f1, f2, f3, f4, f5]
  simp [formOf, hl, hr]

/-- Table 4-10, major 0x28. -/
theorem RoundTrip.mmov (d : Reg5) (a : Reg5) : RoundTrip.Statement (.mmov d a) := by
  have hf : fitBits [(0, 3), (6, 5), (0, 3), (0, 5), (a.toNat, 5), (d.toNat, 5), (40, 6)] := ⟨by decide, by decide, by decide, by decide, a.isLt, d.isLt, by decide, trivial⟩
  have hw : encodeNat (.mmov d a) = packBits [(0, 3), (6, 5), (0, 3), (0, 5), (a.toNat, 5), (d.toNat, 5), (40, 6)] := by
    change 2684354608 + d.toNat * 2097152 + a.toNat * 65536 = _
    simp only [packBits]
    generalize a.toNat = x0
    generalize d.toNat = x1
    omega
  refine roundTrip_word (hw ▸ pack_lt hf) (fun ref hl hr hm => ?_)
  generalize encodeNat (.mmov d a) = wd at hw hm ⊢
  have f0 : fld wd 2 0 = 0 := hw ▸ fld_pack hf 0 rfl rfl (by decide)
  have f1 : fld wd 7 3 = 6 := hw ▸ fld_pack hf 1 rfl rfl (by decide)
  have f2 : fld wd 10 8 = 0 := hw ▸ fld_pack hf 2 rfl rfl (by decide)
  have f3 : fld wd 15 11 = 0 := hw ▸ fld_pack hf 3 rfl rfl (by decide)
  have f4 : fld wd 20 16 = a.toNat := hw ▸ fld_pack hf 4 rfl rfl (by decide)
  have f5 : fld wd 25 21 = d.toNat := hw ▸ fld_pack hf 5 rfl rfl (by decide)
  have f6 : fld wd 31 26 = 40 := hw ▸ fld_pack hf 6 rfl rfl (by decide)
  have e1 : decodeForm ref wd = decode28 wd := by simp only [decodeForm, f6]
  rw [e1]
  simp only [decode28, f0, f1, f2, f3, f4, f5]
  simp [formOf, hl, hr]

/-- Table 4-10, major 0x29. -/
theorem RoundTrip.pori2 (d : Reg5) (a : Reg5) (f64 : Bool) (nf : Bool) (sos : Bool) (m : BitVec 3) : RoundTrip.Statement (.pori2 d a f64 nf sos m) := by
  have hf : fitBits [(m.toNat, 3), (0, 3), (boolCode sos, 1), (boolCode nf, 1), (boolCode f64, 1), (1, 2), (0, 5), (a.toNat, 5), (d.toNat, 5), (41, 6)] := ⟨m.isLt, by decide, boolCode_lt sos, boolCode_lt nf, boolCode_lt f64, by decide, by decide, a.isLt, d.isLt, by decide, trivial⟩
  have hw : encodeNat (.pori2 d a f64 nf sos m) = packBits [(m.toNat, 3), (0, 3), (boolCode sos, 1), (boolCode nf, 1), (boolCode f64, 1), (1, 2), (0, 5), (a.toNat, 5), (d.toNat, 5), (41, 6)] := by
    change 2751463936 + d.toNat * 2097152 + a.toNat * 65536 + boolCode f64 * 256 + boolCode nf * 128 + boolCode sos * 64 + m.toNat = _
    simp only [packBits]
    generalize m.toNat = x0
    generalize boolCode sos = x1
    generalize boolCode nf = x2
    generalize boolCode f64 = x3
    generalize a.toNat = x4
    generalize d.toNat = x5
    omega
  refine roundTrip_word (hw ▸ pack_lt hf) (fun ref hl hr hm => ?_)
  generalize encodeNat (.pori2 d a f64 nf sos m) = wd at hw hm ⊢
  have f0 : fld wd 2 0 = m.toNat := hw ▸ fld_pack hf 0 rfl rfl (by decide)
  have f1 : fld wd 5 3 = 0 := hw ▸ fld_pack hf 1 rfl rfl (by decide)
  have f2 : fld wd 6 6 = boolCode sos := hw ▸ fld_pack hf 2 rfl rfl (by decide)
  have f3 : fld wd 7 7 = boolCode nf := hw ▸ fld_pack hf 3 rfl rfl (by decide)
  have f4 : fld wd 8 8 = boolCode f64 := hw ▸ fld_pack hf 4 rfl rfl (by decide)
  have f5 : fld wd 10 9 = 1 := hw ▸ fld_pack hf 5 rfl rfl (by decide)
  have f6 : fld wd 15 11 = 0 := hw ▸ fld_pack hf 6 rfl rfl (by decide)
  have f7 : fld wd 20 16 = a.toNat := hw ▸ fld_pack hf 7 rfl rfl (by decide)
  have f8 : fld wd 25 21 = d.toNat := hw ▸ fld_pack hf 8 rfl rfl (by decide)
  have f9 : fld wd 31 26 = 41 := hw ▸ fld_pack hf 9 rfl rfl (by decide)
  have e1 : decodeForm ref wd = decode29 wd := by simp only [decodeForm, f9]
  rw [e1]
  simp only [decode29, f0, f1, f2, f3, f4, f5, f6, f7, f8]
  simp [formOf, hl, hr]

/-- Table 4-10, major 0x29. -/
theorem RoundTrip.pori3 (d : Reg5) (a : Reg5) (f64 : Bool) (nf : Bool) (sos : Bool) (m : BitVec 3) : RoundTrip.Statement (.pori3 d a f64 nf sos m) := by
  have hf : fitBits [(m.toNat, 3), (1, 3), (boolCode sos, 1), (boolCode nf, 1), (boolCode f64, 1), (1, 2), (0, 5), (a.toNat, 5), (d.toNat, 5), (41, 6)] := ⟨m.isLt, by decide, boolCode_lt sos, boolCode_lt nf, boolCode_lt f64, by decide, by decide, a.isLt, d.isLt, by decide, trivial⟩
  have hw : encodeNat (.pori3 d a f64 nf sos m) = packBits [(m.toNat, 3), (1, 3), (boolCode sos, 1), (boolCode nf, 1), (boolCode f64, 1), (1, 2), (0, 5), (a.toNat, 5), (d.toNat, 5), (41, 6)] := by
    change 2751463944 + d.toNat * 2097152 + a.toNat * 65536 + boolCode f64 * 256 + boolCode nf * 128 + boolCode sos * 64 + m.toNat = _
    simp only [packBits]
    generalize m.toNat = x0
    generalize boolCode sos = x1
    generalize boolCode nf = x2
    generalize boolCode f64 = x3
    generalize a.toNat = x4
    generalize d.toNat = x5
    omega
  refine roundTrip_word (hw ▸ pack_lt hf) (fun ref hl hr hm => ?_)
  generalize encodeNat (.pori3 d a f64 nf sos m) = wd at hw hm ⊢
  have f0 : fld wd 2 0 = m.toNat := hw ▸ fld_pack hf 0 rfl rfl (by decide)
  have f1 : fld wd 5 3 = 1 := hw ▸ fld_pack hf 1 rfl rfl (by decide)
  have f2 : fld wd 6 6 = boolCode sos := hw ▸ fld_pack hf 2 rfl rfl (by decide)
  have f3 : fld wd 7 7 = boolCode nf := hw ▸ fld_pack hf 3 rfl rfl (by decide)
  have f4 : fld wd 8 8 = boolCode f64 := hw ▸ fld_pack hf 4 rfl rfl (by decide)
  have f5 : fld wd 10 9 = 1 := hw ▸ fld_pack hf 5 rfl rfl (by decide)
  have f6 : fld wd 15 11 = 0 := hw ▸ fld_pack hf 6 rfl rfl (by decide)
  have f7 : fld wd 20 16 = a.toNat := hw ▸ fld_pack hf 7 rfl rfl (by decide)
  have f8 : fld wd 25 21 = d.toNat := hw ▸ fld_pack hf 8 rfl rfl (by decide)
  have f9 : fld wd 31 26 = 41 := hw ▸ fld_pack hf 9 rfl rfl (by decide)
  have e1 : decodeForm ref wd = decode29 wd := by simp only [decodeForm, f9]
  rw [e1]
  simp only [decode29, f0, f1, f2, f3, f4, f5, f6, f7, f8]
  simp [formOf, hl, hr]

/-- Table 4-10, major 0x29. -/
theorem RoundTrip.pincir (d : Reg5) (a : Reg5) (f64 : Bool) (nf : Bool) (sos : Bool) (m : BitVec 3) : RoundTrip.Statement (.pincir d a f64 nf sos m) := by
  have hf : fitBits [(m.toNat, 3), (2, 3), (boolCode sos, 1), (boolCode nf, 1), (boolCode f64, 1), (1, 2), (0, 5), (a.toNat, 5), (d.toNat, 5), (41, 6)] := ⟨m.isLt, by decide, boolCode_lt sos, boolCode_lt nf, boolCode_lt f64, by decide, by decide, a.isLt, d.isLt, by decide, trivial⟩
  have hw : encodeNat (.pincir d a f64 nf sos m) = packBits [(m.toNat, 3), (2, 3), (boolCode sos, 1), (boolCode nf, 1), (boolCode f64, 1), (1, 2), (0, 5), (a.toNat, 5), (d.toNat, 5), (41, 6)] := by
    change 2751463952 + d.toNat * 2097152 + a.toNat * 65536 + boolCode f64 * 256 + boolCode nf * 128 + boolCode sos * 64 + m.toNat = _
    simp only [packBits]
    generalize m.toNat = x0
    generalize boolCode sos = x1
    generalize boolCode nf = x2
    generalize boolCode f64 = x3
    generalize a.toNat = x4
    generalize d.toNat = x5
    omega
  refine roundTrip_word (hw ▸ pack_lt hf) (fun ref hl hr hm => ?_)
  generalize encodeNat (.pincir d a f64 nf sos m) = wd at hw hm ⊢
  have f0 : fld wd 2 0 = m.toNat := hw ▸ fld_pack hf 0 rfl rfl (by decide)
  have f1 : fld wd 5 3 = 2 := hw ▸ fld_pack hf 1 rfl rfl (by decide)
  have f2 : fld wd 6 6 = boolCode sos := hw ▸ fld_pack hf 2 rfl rfl (by decide)
  have f3 : fld wd 7 7 = boolCode nf := hw ▸ fld_pack hf 3 rfl rfl (by decide)
  have f4 : fld wd 8 8 = boolCode f64 := hw ▸ fld_pack hf 4 rfl rfl (by decide)
  have f5 : fld wd 10 9 = 1 := hw ▸ fld_pack hf 5 rfl rfl (by decide)
  have f6 : fld wd 15 11 = 0 := hw ▸ fld_pack hf 6 rfl rfl (by decide)
  have f7 : fld wd 20 16 = a.toNat := hw ▸ fld_pack hf 7 rfl rfl (by decide)
  have f8 : fld wd 25 21 = d.toNat := hw ▸ fld_pack hf 8 rfl rfl (by decide)
  have f9 : fld wd 31 26 = 41 := hw ▸ fld_pack hf 9 rfl rfl (by decide)
  have e1 : decodeForm ref wd = decode29 wd := by simp only [decodeForm, f9]
  rw [e1]
  simp only [decode29, f0, f1, f2, f3, f4, f5, f6, f7, f8]
  simp [formOf, hl, hr]

/-- Table 4-10, major 0x29. -/
theorem RoundTrip.pinsph (d : Reg5) (a : Reg5) (f64 : Bool) (nf : Bool) (sos : Bool) (m : BitVec 3) : RoundTrip.Statement (.pinsph d a f64 nf sos m) := by
  have hf : fitBits [(m.toNat, 3), (3, 3), (boolCode sos, 1), (boolCode nf, 1), (boolCode f64, 1), (1, 2), (0, 5), (a.toNat, 5), (d.toNat, 5), (41, 6)] := ⟨m.isLt, by decide, boolCode_lt sos, boolCode_lt nf, boolCode_lt f64, by decide, by decide, a.isLt, d.isLt, by decide, trivial⟩
  have hw : encodeNat (.pinsph d a f64 nf sos m) = packBits [(m.toNat, 3), (3, 3), (boolCode sos, 1), (boolCode nf, 1), (boolCode f64, 1), (1, 2), (0, 5), (a.toNat, 5), (d.toNat, 5), (41, 6)] := by
    change 2751463960 + d.toNat * 2097152 + a.toNat * 65536 + boolCode f64 * 256 + boolCode nf * 128 + boolCode sos * 64 + m.toNat = _
    simp only [packBits]
    generalize m.toNat = x0
    generalize boolCode sos = x1
    generalize boolCode nf = x2
    generalize boolCode f64 = x3
    generalize a.toNat = x4
    generalize d.toNat = x5
    omega
  refine roundTrip_word (hw ▸ pack_lt hf) (fun ref hl hr hm => ?_)
  generalize encodeNat (.pinsph d a f64 nf sos m) = wd at hw hm ⊢
  have f0 : fld wd 2 0 = m.toNat := hw ▸ fld_pack hf 0 rfl rfl (by decide)
  have f1 : fld wd 5 3 = 3 := hw ▸ fld_pack hf 1 rfl rfl (by decide)
  have f2 : fld wd 6 6 = boolCode sos := hw ▸ fld_pack hf 2 rfl rfl (by decide)
  have f3 : fld wd 7 7 = boolCode nf := hw ▸ fld_pack hf 3 rfl rfl (by decide)
  have f4 : fld wd 8 8 = boolCode f64 := hw ▸ fld_pack hf 4 rfl rfl (by decide)
  have f5 : fld wd 10 9 = 1 := hw ▸ fld_pack hf 5 rfl rfl (by decide)
  have f6 : fld wd 15 11 = 0 := hw ▸ fld_pack hf 6 rfl rfl (by decide)
  have f7 : fld wd 20 16 = a.toNat := hw ▸ fld_pack hf 7 rfl rfl (by decide)
  have f8 : fld wd 25 21 = d.toNat := hw ▸ fld_pack hf 8 rfl rfl (by decide)
  have f9 : fld wd 31 26 = 41 := hw ▸ fld_pack hf 9 rfl rfl (by decide)
  have e1 : decodeForm ref wd = decode29 wd := by simp only [decodeForm, f9]
  rw [e1]
  simp only [decode29, f0, f1, f2, f3, f4, f5, f6, f7, f8]
  simp [formOf, hl, hr]

/-- Table 4-10, major 0x29. -/
theorem RoundTrip.psegx (d : Reg5) (a : Reg5) (f64 : Bool) (nf : Bool) (sos : Bool) (m : BitVec 3) : RoundTrip.Statement (.psegx d a f64 nf sos m) := by
  have hf : fitBits [(m.toNat, 3), (4, 3), (boolCode sos, 1), (boolCode nf, 1), (boolCode f64, 1), (1, 2), (0, 5), (a.toNat, 5), (d.toNat, 5), (41, 6)] := ⟨m.isLt, by decide, boolCode_lt sos, boolCode_lt nf, boolCode_lt f64, by decide, by decide, a.isLt, d.isLt, by decide, trivial⟩
  have hw : encodeNat (.psegx d a f64 nf sos m) = packBits [(m.toNat, 3), (4, 3), (boolCode sos, 1), (boolCode nf, 1), (boolCode f64, 1), (1, 2), (0, 5), (a.toNat, 5), (d.toNat, 5), (41, 6)] := by
    change 2751463968 + d.toNat * 2097152 + a.toNat * 65536 + boolCode f64 * 256 + boolCode nf * 128 + boolCode sos * 64 + m.toNat = _
    simp only [packBits]
    generalize m.toNat = x0
    generalize boolCode sos = x1
    generalize boolCode nf = x2
    generalize boolCode f64 = x3
    generalize a.toNat = x4
    generalize d.toNat = x5
    omega
  refine roundTrip_word (hw ▸ pack_lt hf) (fun ref hl hr hm => ?_)
  generalize encodeNat (.psegx d a f64 nf sos m) = wd at hw hm ⊢
  have f0 : fld wd 2 0 = m.toNat := hw ▸ fld_pack hf 0 rfl rfl (by decide)
  have f1 : fld wd 5 3 = 4 := hw ▸ fld_pack hf 1 rfl rfl (by decide)
  have f2 : fld wd 6 6 = boolCode sos := hw ▸ fld_pack hf 2 rfl rfl (by decide)
  have f3 : fld wd 7 7 = boolCode nf := hw ▸ fld_pack hf 3 rfl rfl (by decide)
  have f4 : fld wd 8 8 = boolCode f64 := hw ▸ fld_pack hf 4 rfl rfl (by decide)
  have f5 : fld wd 10 9 = 1 := hw ▸ fld_pack hf 5 rfl rfl (by decide)
  have f6 : fld wd 15 11 = 0 := hw ▸ fld_pack hf 6 rfl rfl (by decide)
  have f7 : fld wd 20 16 = a.toNat := hw ▸ fld_pack hf 7 rfl rfl (by decide)
  have f8 : fld wd 25 21 = d.toNat := hw ▸ fld_pack hf 8 rfl rfl (by decide)
  have f9 : fld wd 31 26 = 41 := hw ▸ fld_pack hf 9 rfl rfl (by decide)
  have e1 : decodeForm ref wd = decode29 wd := by simp only [decodeForm, f9]
  rw [e1]
  simp only [decode29, f0, f1, f2, f3, f4, f5, f6, f7, f8]
  simp [formOf, hl, hr]

/-- Table 4-10, major 0x3C. -/
theorem RoundTrip.rfetch (d : Reg5) (a : Reg5) : RoundTrip.Statement (.rfetch d a) := by
  have hf : fitBits [(0, 11), (0, 5), (a.toNat, 5), (d.toNat, 5), (60, 6)] := ⟨by decide, by decide, a.isLt, d.isLt, by decide, trivial⟩
  have hw : encodeNat (.rfetch d a) = packBits [(0, 11), (0, 5), (a.toNat, 5), (d.toNat, 5), (60, 6)] := by
    change 4026531840 + d.toNat * 2097152 + a.toNat * 65536 = _
    simp only [packBits]
    generalize a.toNat = x0
    generalize d.toNat = x1
    omega
  refine roundTrip_word (hw ▸ pack_lt hf) (fun ref hl hr hm => ?_)
  generalize encodeNat (.rfetch d a) = wd at hw hm ⊢
  have f0 : fld wd 10 0 = 0 := hw ▸ fld_pack hf 0 rfl rfl (by decide)
  have f1 : fld wd 15 11 = 0 := hw ▸ fld_pack hf 1 rfl rfl (by decide)
  have f2 : fld wd 20 16 = a.toNat := hw ▸ fld_pack hf 2 rfl rfl (by decide)
  have f3 : fld wd 25 21 = d.toNat := hw ▸ fld_pack hf 3 rfl rfl (by decide)
  have f4 : fld wd 31 26 = 60 := hw ▸ fld_pack hf 4 rfl rfl (by decide)
  have hr1 : ref = true := hm.resolve_right (by rw [f4]; decide)
  have e1 : decodeForm ref wd = decode3C wd := by simp only [decodeForm, f4, hr1, if_true]
  rw [e1]
  simp only [decode3C, f0, f1, f2, f3]
  simp [formOf, hl, hr]

/-- Table 4-10, major 0x3C. -/
theorem RoundTrip.dispatch (d : Reg5) (a : Reg5) (b : Reg5) : RoundTrip.Statement (.dispatch d a b) := by
  have hf : fitBits [(1, 11), (b.toNat, 5), (a.toNat, 5), (d.toNat, 5), (60, 6)] := ⟨by decide, b.isLt, a.isLt, d.isLt, by decide, trivial⟩
  have hw : encodeNat (.dispatch d a b) = packBits [(1, 11), (b.toNat, 5), (a.toNat, 5), (d.toNat, 5), (60, 6)] := by
    change 4026531841 + d.toNat * 2097152 + a.toNat * 65536 + b.toNat * 2048 = _
    simp only [packBits]
    generalize b.toNat = x0
    generalize a.toNat = x1
    generalize d.toNat = x2
    omega
  refine roundTrip_word (hw ▸ pack_lt hf) (fun ref hl hr hm => ?_)
  generalize encodeNat (.dispatch d a b) = wd at hw hm ⊢
  have f0 : fld wd 10 0 = 1 := hw ▸ fld_pack hf 0 rfl rfl (by decide)
  have f1 : fld wd 15 11 = b.toNat := hw ▸ fld_pack hf 1 rfl rfl (by decide)
  have f2 : fld wd 20 16 = a.toNat := hw ▸ fld_pack hf 2 rfl rfl (by decide)
  have f3 : fld wd 25 21 = d.toNat := hw ▸ fld_pack hf 3 rfl rfl (by decide)
  have f4 : fld wd 31 26 = 60 := hw ▸ fld_pack hf 4 rfl rfl (by decide)
  have hr1 : ref = true := hm.resolve_right (by rw [f4]; decide)
  have e1 : decodeForm ref wd = decode3C wd := by simp only [decodeForm, f4, hr1, if_true]
  rw [e1]
  simp only [decode3C, f0, f1, f2, f3]
  simp [formOf, hl, hr]

/-- Table 4-10, major 0x3D. -/
theorem RoundTrip.sigwait (d : Reg5) : RoundTrip.Statement (.sigwait d) := by
  have hf : fitBits [(0, 11), (0, 5), (0, 5), (d.toNat, 5), (61, 6)] := ⟨by decide, by decide, by decide, d.isLt, by decide, trivial⟩
  have hw : encodeNat (.sigwait d) = packBits [(0, 11), (0, 5), (0, 5), (d.toNat, 5), (61, 6)] := by
    change 4093640704 + d.toNat * 2097152 = _
    simp only [packBits]
    generalize d.toNat = x0
    omega
  refine roundTrip_word (hw ▸ pack_lt hf) (fun ref hl hr hm => ?_)
  generalize encodeNat (.sigwait d) = wd at hw hm ⊢
  have f0 : fld wd 10 0 = 0 := hw ▸ fld_pack hf 0 rfl rfl (by decide)
  have f1 : fld wd 15 11 = 0 := hw ▸ fld_pack hf 1 rfl rfl (by decide)
  have f2 : fld wd 20 16 = 0 := hw ▸ fld_pack hf 2 rfl rfl (by decide)
  have f3 : fld wd 25 21 = d.toNat := hw ▸ fld_pack hf 3 rfl rfl (by decide)
  have f4 : fld wd 31 26 = 61 := hw ▸ fld_pack hf 4 rfl rfl (by decide)
  have hr1 : ref = true := hm.resolve_right (by rw [f4]; decide)
  have e1 : decodeForm ref wd = decode3D wd := by simp only [decodeForm, f4, hr1, if_true]
  rw [e1]
  simp only [decode3D, f0, f1, f2, f3]
  simp [formOf, hl, hr]

/-- Table 4-10, major 0x3E. -/
theorem RoundTrip.keyld (d : Reg5) (a : Reg5) (b : Reg5) : RoundTrip.Statement (.keyld d a b) := by
  have hf : fitBits [(0, 11), (b.toNat, 5), (a.toNat, 5), (d.toNat, 5), (62, 6)] := ⟨by decide, b.isLt, a.isLt, d.isLt, by decide, trivial⟩
  have hw : encodeNat (.keyld d a b) = packBits [(0, 11), (b.toNat, 5), (a.toNat, 5), (d.toNat, 5), (62, 6)] := by
    change 4160749568 + d.toNat * 2097152 + a.toNat * 65536 + b.toNat * 2048 = _
    simp only [packBits]
    generalize b.toNat = x0
    generalize a.toNat = x1
    generalize d.toNat = x2
    omega
  refine roundTrip_word (hw ▸ pack_lt hf) (fun ref hl hr hm => ?_)
  generalize encodeNat (.keyld d a b) = wd at hw hm ⊢
  have f0 : fld wd 10 0 = 0 := hw ▸ fld_pack hf 0 rfl rfl (by decide)
  have f1 : fld wd 15 11 = b.toNat := hw ▸ fld_pack hf 1 rfl rfl (by decide)
  have f2 : fld wd 20 16 = a.toNat := hw ▸ fld_pack hf 2 rfl rfl (by decide)
  have f3 : fld wd 25 21 = d.toNat := hw ▸ fld_pack hf 3 rfl rfl (by decide)
  have f4 : fld wd 31 26 = 62 := hw ▸ fld_pack hf 4 rfl rfl (by decide)
  have hr1 : ref = true := hm.resolve_right (by rw [f4]; decide)
  have e1 : decodeForm ref wd = decode3E wd := by simp only [decodeForm, f4, hr1, if_true]
  rw [e1]
  simp only [decode3E, f0, f1, f2, f3]
  simp [formOf, hl, hr]

/-- A device event has no word. -/
theorem RoundTrip.threadRejoin (slot : Nat) : RoundTrip.Statement (.threadRejoin slot) :=
  roundTrip_event rfl

/-- A device event has no word. -/
theorem RoundTrip.yieldPauseEnd (slot : Nat) : RoundTrip.Statement (.yieldPauseEnd slot) :=
  roundTrip_event rfl

/-- A device event has no word. -/
theorem RoundTrip.icacheLineFill (slot : Nat) : RoundTrip.Statement (.icacheLineFill slot) :=
  roundTrip_event rfl

/-- A device event has no word. -/
theorem RoundTrip.offCoreLoadReply (slot : Nat) : RoundTrip.Statement (.offCoreLoadReply slot) :=
  roundTrip_event rfl

/-- A device event has no word. -/
theorem RoundTrip.storeBufferDrain (core : Nat) : RoundTrip.Statement (.storeBufferDrain core) :=
  roundTrip_event rfl

/-- A device event has no word. -/
theorem RoundTrip.writeReachesHome (k : Nat) : RoundTrip.Statement (.writeReachesHome k) :=
  roundTrip_event rfl

/-- A device event has no word. -/
theorem RoundTrip.feRequestAtBank (slot : Nat) : RoundTrip.Statement (.feRequestAtBank slot) :=
  roundTrip_event rfl

/-- A device event has no word. -/
theorem RoundTrip.bankWakeupDone (bank : Nat) : RoundTrip.Statement (.bankWakeupDone bank) :=
  roundTrip_event rfl

/-- A device event has no word. -/
theorem RoundTrip.translationWalkEnd (slot : Nat) : RoundTrip.Statement (.translationWalkEnd slot) :=
  roundTrip_event rfl

/-- A device event has no word. -/
theorem RoundTrip.atomicAtHome (slot : Nat) : RoundTrip.Statement (.atomicAtHome slot) :=
  roundTrip_event rfl

/-- A device event has no word. -/
theorem RoundTrip.atomicReplyArrival (slot : Nat) : RoundTrip.Statement (.atomicReplyArrival slot) :=
  roundTrip_event rfl

/-- A device event has no word. -/
theorem RoundTrip.reductionAtHome (k : Nat) : RoundTrip.Statement (.reductionAtHome k) :=
  roundTrip_event rfl

/-- A device event has no word. -/
theorem RoundTrip.reductionAckArrival (k : Nat) : RoundTrip.Statement (.reductionAckArrival k) :=
  roundTrip_event rfl

/-- A device event has no word. -/
theorem RoundTrip.joinDecrementAtHome (slot : Nat) : RoundTrip.Statement (.joinDecrementAtHome slot) :=
  roundTrip_event rfl

/-- A device event has no word. -/
theorem RoundTrip.migrBlockAccept (slot : Nat) : RoundTrip.Statement (.migrBlockAccept slot) :=
  roundTrip_event rfl

/-- A device event has no word. -/
theorem RoundTrip.migrBlockReturn (slot : Nat) : RoundTrip.Statement (.migrBlockReturn slot) :=
  roundTrip_event rfl

/-- A device event has no word. -/
theorem RoundTrip.dequeSpillDone (slot : Nat) : RoundTrip.Statement (.dequeSpillDone slot) :=
  roundTrip_event rfl

/-- A device event has no word. -/
theorem RoundTrip.dequeRefill (core : Nat) (ctx : Nat) : RoundTrip.Statement (.dequeRefill core ctx) :=
  roundTrip_event rfl

/-- A device event has no word. -/
theorem RoundTrip.idleSlotPop (slot : Nat) : RoundTrip.Statement (.idleSlotPop slot) :=
  roundTrip_event rfl

/-- A device event has no word. -/
theorem RoundTrip.stealRequest (core : Nat) (ctx : Nat) : RoundTrip.Statement (.stealRequest core ctx) :=
  roundTrip_event rfl

/-- A device event has no word. -/
theorem RoundTrip.stealAnswer (core : Nat) (ctx : Nat) : RoundTrip.Statement (.stealAnswer core ctx) :=
  roundTrip_event rfl

/-- A device event has no word. -/
theorem RoundTrip.stealRetryTimer (core : Nat) (ctx : Nat) : RoundTrip.Statement (.stealRetryTimer core ctx) :=
  roundTrip_event rfl

/-- A device event has no word. -/
theorem RoundTrip.rforkSurveyDone (slot : Nat) : RoundTrip.Statement (.rforkSurveyDone slot) :=
  roundTrip_event rfl

/-- A device event has no word. -/
theorem RoundTrip.caddieTakeRequest (core : Nat) : RoundTrip.Statement (.caddieTakeRequest core) :=
  roundTrip_event rfl

/-- A device event has no word. -/
theorem RoundTrip.copyGranuleLand (k : Nat) : RoundTrip.Statement (.copyGranuleLand k) :=
  roundTrip_event rfl

/-- A device event has no word. -/
theorem RoundTrip.copyComplete (k : Nat) (refused : Bool) : RoundTrip.Statement (.copyComplete k refused) :=
  roundTrip_event rfl

/-- A device event has no word. -/
theorem RoundTrip.haloDirectionArrival (k : Nat) (dir : BitVec 2) : RoundTrip.Statement (.haloDirectionArrival k dir) :=
  roundTrip_event rfl

/-- A device event has no word. -/
theorem RoundTrip.mcastDelivery (k : Nat) : RoundTrip.Statement (.mcastDelivery k) :=
  roundTrip_event rfl

/-- A device event has no word. -/
theorem RoundTrip.gatherComplete (k : Nat) (refused : Bool) : RoundTrip.Statement (.gatherComplete k refused) :=
  roundTrip_event rfl

/-- A device event has no word. -/
theorem RoundTrip.collContributionArrival (k : Nat) (remote : Option CollRemote) : RoundTrip.Statement (.collContributionArrival k remote) :=
  roundTrip_event rfl

/-- A device event has no word. -/
theorem RoundTrip.collComplete (k : Nat) : RoundTrip.Statement (.collComplete k) :=
  roundTrip_event rfl

/-- A device event has no word. -/
theorem RoundTrip.messageLeaveSendQueue (slot : Nat) : RoundTrip.Statement (.messageLeaveSendQueue slot) :=
  roundTrip_event rfl

/-- A device event has no word. -/
theorem RoundTrip.messageDelivery (k : Nat) : RoundTrip.Statement (.messageDelivery k) :=
  roundTrip_event rfl

/-- A device event has no word. -/
theorem RoundTrip.mxringTakeEffect (slot : Nat) : RoundTrip.Statement (.mxringTakeEffect slot) :=
  roundTrip_event rfl

/-- A device event has no word. -/
theorem RoundTrip.mxadvReachUnit (slot : Nat) : RoundTrip.Statement (.mxadvReachUnit slot) :=
  roundTrip_event rfl

/-- A device event has no word. -/
theorem RoundTrip.mxwgtTakeEffect (slot : Nat) : RoundTrip.Statement (.mxwgtTakeEffect slot) :=
  roundTrip_event rfl

/-- A device event has no word. -/
theorem RoundTrip.matrixStep (clus : Nat) : RoundTrip.Statement (.matrixStep clus) :=
  roundTrip_event rfl

/-- A device event has no word. -/
theorem RoundTrip.matrixRecordPush (clus : Nat) : RoundTrip.Statement (.matrixRecordPush clus) :=
  roundTrip_event rfl

/-- A device event has no word. -/
theorem RoundTrip.huddleJoinHandled (k : Nat) : RoundTrip.Statement (.huddleJoinHandled k) :=
  roundTrip_event rfl

/-- A device event has no word. -/
theorem RoundTrip.huddleArrivalHandled (k : Nat) : RoundTrip.Statement (.huddleArrivalHandled k) :=
  roundTrip_event rfl

/-- A device event has no word. -/
theorem RoundTrip.huddleLeaveHandled (k : Nat) : RoundTrip.Statement (.huddleLeaveHandled k) :=
  roundTrip_event rfl

/-- A device event has no word. -/
theorem RoundTrip.huddleDeparture (ctx : Nat) (thread : Nat) : RoundTrip.Statement (.huddleDeparture ctx thread) :=
  roundTrip_event rfl

/-- A device event has no word. -/
theorem RoundTrip.hinfoHandled (k : Nat) : RoundTrip.Statement (.hinfoHandled k) :=
  roundTrip_event rfl

/-- A device event has no word. -/
theorem RoundTrip.huddleNoticeArrival (slot : Nat) : RoundTrip.Statement (.huddleNoticeArrival slot) :=
  roundTrip_event rfl

/-- A device event has no word. -/
theorem RoundTrip.warrantRequestHandled (slot : Nat) : RoundTrip.Statement (.warrantRequestHandled slot) :=
  roundTrip_event rfl

/-- A device event has no word. -/
theorem RoundTrip.errorStopCycle (ctx : Nat) : RoundTrip.Statement (.errorStopCycle ctx) :=
  roundTrip_event rfl

/-- A device event has no word. -/
theorem RoundTrip.dumpStart (die : Nat) : RoundTrip.Statement (.dumpStart die) :=
  roundTrip_event rfl

/-- A device event has no word. -/
theorem RoundTrip.dumpWriteDone (die : Nat) : RoundTrip.Statement (.dumpWriteDone die) :=
  roundTrip_event rfl

/-- A device event has no word. -/
theorem RoundTrip.energyAllowanceReached (ctx : Nat) : RoundTrip.Statement (.energyAllowanceReached ctx) :=
  roundTrip_event rfl

/-- A device event has no word. -/
theorem RoundTrip.energyOverrun (slot : Nat) : RoundTrip.Statement (.energyOverrun slot) :=
  roundTrip_event rfl

/-- A device event has no word. -/
theorem RoundTrip.powerWindowEnd (modulemW : Nat) : RoundTrip.Statement (.powerWindowEnd modulemW) :=
  roundTrip_event rfl

/-- A device event has no word. -/
theorem RoundTrip.contextExpiry (ctx : Nat) : RoundTrip.Statement (.contextExpiry ctx) :=
  roundTrip_event rfl

/-- A device event has no word. -/
theorem RoundTrip.watchdogExpiry (ctx : Nat) : RoundTrip.Statement (.watchdogExpiry ctx) :=
  roundTrip_event rfl

/-- A device event has no word. -/
theorem RoundTrip.backgroundScrubRead (die : Nat) (stack : Nat) (bad : Option (Nat × Nat)) : RoundTrip.Statement (.backgroundScrubRead die stack bad) :=
  roundTrip_event rfl

/-- A device event has no word. -/
theorem RoundTrip.doorbellWidxWrite (ctx : Nat) (q : Nat) : RoundTrip.Statement (.doorbellWidxWrite ctx q) :=
  roundTrip_event rfl

/-- A device event has no word. -/
theorem RoundTrip.ctrlResume (ctx : Nat) (q : Nat) : RoundTrip.Statement (.ctrlResume ctx q) :=
  roundTrip_event rfl

/-- A device event has no word. -/
theorem RoundTrip.ctrlSkip (ctx : Nat) (q : Nat) : RoundTrip.Statement (.ctrlSkip ctx q) :=
  roundTrip_event rfl

/-- A device event has no word. -/
theorem RoundTrip.ctrlAbort (ctx : Nat) (q : Nat) : RoundTrip.Statement (.ctrlAbort ctx q) :=
  roundTrip_event rfl

/-- A device event has no word. -/
theorem RoundTrip.packetFetch (ctx : Nat) (q : Nat) : RoundTrip.Statement (.packetFetch ctx q) :=
  roundTrip_event rfl

/-- A device event has no word. -/
theorem RoundTrip.launchStart (ctx : Nat) (q : Nat) : RoundTrip.Statement (.launchStart ctx q) :=
  roundTrip_event rfl

/-- A device event has no word. -/
theorem RoundTrip.launchComplete (ctx : Nat) : RoundTrip.Statement (.launchComplete ctx) :=
  roundTrip_event rfl

/-- A device event has no word. -/
theorem RoundTrip.fencePacketComplete (ctx : Nat) (q : Nat) : RoundTrip.Statement (.fencePacketComplete ctx q) :=
  roundTrip_event rfl

/-- A device event has no word. -/
theorem RoundTrip.sliceEnd (ctx : Nat) : RoundTrip.Statement (.sliceEnd ctx) :=
  roundTrip_event rfl

/-- A device event has no word. -/
theorem RoundTrip.slicePlacement (ctx : Nat) : RoundTrip.Statement (.slicePlacement ctx) :=
  roundTrip_event rfl

/-- A device event has no word. -/
theorem RoundTrip.stopDecision (root : Nat) : RoundTrip.Statement (.stopDecision root) :=
  roundTrip_event rfl

/-- A device event has no word. -/
theorem RoundTrip.stopHalt (root : Nat) : RoundTrip.Statement (.stopHalt root) :=
  roundTrip_event rfl

/-- A device event has no word. -/
theorem RoundTrip.flushToken (root : Nat) : RoundTrip.Statement (.flushToken root) :=
  roundTrip_event rfl

/-- A device event has no word. -/
theorem RoundTrip.stateSaveDone (root : Nat) : RoundTrip.Statement (.stateSaveDone root) :=
  roundTrip_event rfl

/-- A device event has no word. -/
theorem RoundTrip.restoreDone (root : Nat) : RoundTrip.Statement (.restoreDone root) :=
  roundTrip_event rfl

/-- A device event has no word. -/
theorem RoundTrip.resumeRejoin (root : Nat) : RoundTrip.Statement (.resumeRejoin root) :=
  roundTrip_event rfl

/-- A device event has no word. -/
theorem RoundTrip.claimAtHome (claim : ClaimMsg) (answer : Nat) : RoundTrip.Statement (.claimAtHome claim answer) :=
  roundTrip_event rfl

/-- A device event has no word. -/
theorem RoundTrip.claimRetry (serial : BitVec 128) : RoundTrip.Statement (.claimRetry serial) :=
  roundTrip_event rfl

/-- A device event has no word. -/
theorem RoundTrip.claimTimeout (serial : BitVec 128) : RoundTrip.Statement (.claimTimeout serial) :=
  roundTrip_event rfl

/-- A device event has no word. -/
theorem RoundTrip.spentAtHome (serial : BitVec 128) : RoundTrip.Statement (.spentAtHome serial) :=
  roundTrip_event rfl

/-- A device event has no word. -/
theorem RoundTrip.powerOn : RoundTrip.Statement (.powerOn) :=
  roundTrip_event rfl

/-- A device event has no word. -/
theorem RoundTrip.ident (h : PortHdr) : RoundTrip.Statement (.ident h) :=
  roundTrip_event rfl

/-- A device event has no word. -/
theorem RoundTrip.commission (h : PortHdr) (rec : CommissionRecord) (sig : List (BitVec 8)) : RoundTrip.Statement (.commission h rec sig) :=
  roundTrip_event rfl

/-- A device event has no word. -/
theorem RoundTrip.beacon (h : PortHdr) (image : List (BitVec 8)) : RoundTrip.Statement (.beacon h image) :=
  roundTrip_event rfl

/-- A device event has no word. -/
theorem RoundTrip.nonce (h : PortHdr) : RoundTrip.Statement (.nonce h) :=
  roundTrip_event rfl

/-- A device event has no word. -/
theorem RoundTrip.nonceExpiry (node : Nat) : RoundTrip.Statement (.nonceExpiry node) :=
  roundTrip_event rfl

/-- A device event has no word. -/
theorem RoundTrip.present (h : PortHdr) (image : List (BitVec 8)) (obj : List (BitVec 8)) (sig : List (BitVec 8)) : RoundTrip.Statement (.present h image obj sig) :=
  roundTrip_event rfl

/-- A device event has no word. -/
theorem RoundTrip.redeem (h : PortHdr) (receipt : List (BitVec 8)) (sig : List (BitVec 8)) : RoundTrip.Statement (.redeem h receipt sig) :=
  roundTrip_event rfl

/-- A device event has no word. -/
theorem RoundTrip.setwin (h : PortHdr) (w : BitVec 1) (base : BitVec 64) (len : BitVec 64) : RoundTrip.Statement (.setwin h w base len) :=
  roundTrip_event rfl

/-- A device event has no word. -/
theorem RoundTrip.defq (h : PortHdr) (q : Nat) (qd : QueueDef) : RoundTrip.Statement (.defq h q qd) :=
  roundTrip_event rfl

/-- A device event has no word. -/
theorem RoundTrip.lock (h : PortHdr) : RoundTrip.Statement (.lock h) :=
  roundTrip_event rfl

/-- A device event has no word. -/
theorem RoundTrip.start (h : PortHdr) : RoundTrip.Statement (.start h) :=
  roundTrip_event rfl

/-- A device event has no word. -/
theorem RoundTrip.launch (h : PortHdr) (pkt : List (BitVec 8)) : RoundTrip.Statement (.launch h pkt) :=
  roundTrip_event rfl

/-- A device event has no word. -/
theorem RoundTrip.read (h : PortHdr) (unit : Nat) : RoundTrip.Statement (.read h unit) :=
  roundTrip_event rfl

/-- A device event has no word. -/
theorem RoundTrip.surr (h : PortHdr) : RoundTrip.Statement (.surr h) :=
  roundTrip_event rfl

/-- A device event has no word. -/
theorem RoundTrip.revoke (h : PortHdr) (serial : BitVec 128) (sig : List (BitVec 8)) : RoundTrip.Statement (.revoke h serial sig) :=
  roundTrip_event rfl

/-- A device event has no word. -/
theorem RoundTrip.dbgcfg (h : PortHdr) (clus : Nat) (cfg : DbgConfig) : RoundTrip.Statement (.dbgcfg h clus cfg) :=
  roundTrip_event rfl

/-- A device event has no word. -/
theorem RoundTrip.dbgrel (h : PortHdr) (clus : Nat) : RoundTrip.Statement (.dbgrel h clus) :=
  roundTrip_event rfl

/-- A device event has no word. -/
theorem RoundTrip.dbgres (h : PortHdr) : RoundTrip.Statement (.dbgres h) :=
  roundTrip_event rfl

/-- A device event has no word. -/
theorem RoundTrip.query (h : PortHdr) (item : Nat) : RoundTrip.Statement (.query h item) :=
  roundTrip_event rfl

/-- A device event has no word. -/
theorem RoundTrip.qctrl (h : PortHdr) (answer : BitVec 2) : RoundTrip.Statement (.qctrl h answer) :=
  roundTrip_event rfl

/-- A device event has no word. -/
theorem RoundTrip.linkTraining (link : Nat) (node : Nat) : RoundTrip.Statement (.linkTraining link node) :=
  roundTrip_event rfl

/-- A device event has no word. -/
theorem RoundTrip.flitReceive (link : Nat) (flit : Flit) : RoundTrip.Statement (.flitReceive link flit) :=
  roundTrip_event rfl

/-- A device event has no word. -/
theorem RoundTrip.linkDown (link : Nat) : RoundTrip.Statement (.linkDown link) :=
  roundTrip_event rfl

/-- A device event has no word. -/
theorem RoundTrip.flitSend (link : Nat) (vc : BitVec 4) : RoundTrip.Statement (.flitSend link vc) :=
  roundTrip_event rfl

/-- A device event has no word. -/
theorem RoundTrip.systemAtomicReply (slot : Nat) (refused : Bool) : RoundTrip.Statement (.systemAtomicReply slot refused) :=
  roundTrip_event rfl

/-- A device event has no word. -/
theorem RoundTrip.inboundAccess (node : Nat) (ctx : Nat) (off : Nat) (len : Nat) (data : Option (List (BitVec 8))) : RoundTrip.Statement (.inboundAccess node ctx off len data) :=
  roundTrip_event rfl

/-- A device event has no word. -/
theorem RoundTrip.traceWordMove (slot : Nat) : RoundTrip.Statement (.traceWordMove slot) :=
  roundTrip_event rfl

/-- A device event has no word. -/
theorem RoundTrip.debugSample (clus : Nat) : RoundTrip.Statement (.debugSample clus) :=
  roundTrip_event rfl

/-- A device event has no word. -/
theorem RoundTrip.captureFreeze (clus : Nat) : RoundTrip.Statement (.captureFreeze clus) :=
  roundTrip_event rfl

/-- A device event has no word. -/
theorem RoundTrip.crossTriggerArrival (clus : Nat) : RoundTrip.Statement (.crossTriggerArrival clus) :=
  roundTrip_event rfl

/-- A device event has no word. -/
theorem RoundTrip.illegalWord (word : BitVec 32) (reason : Nat) : RoundTrip.Statement (.illegalWord word reason) :=
  roundTrip_event rfl

/-- A device event has no word. -/
theorem RoundTrip.instructionFetchTrap (cause : TrapCause) (tval : BitVec 64) : RoundTrip.Statement (.instructionFetchTrap cause tval) :=
  roundTrip_event rfl

/-- A device event has no word. -/
theorem RoundTrip.debugResumeCycle (ctx : Nat) : RoundTrip.Statement (.debugResumeCycle ctx) :=
  roundTrip_event rfl

/-- A device event has no word. -/
theorem RoundTrip.captureCycleMatch (clus : Nat) : RoundTrip.Statement (.captureCycleMatch clus) :=
  roundTrip_event rfl

end Sys2Proof.Laws
end

