-- ==== Sys2Proof/Laws/Vector.lean ====
section
/-! SUPPORT. Instructions of several beats, the declared vector registers, and saturation, each said once. -/

namespace Sys2Proof.Machine

/-- The last beat of an instruction that traps takes its trap. -/
theorem endBeats_trap (s : State) (c : Slot) {l : Late} {cause : TrapCause} {tval : Word} (hl : l.trap = some (cause, tval)) :
    endBeats s c l = trap s c cause tval := by
  simp [endBeats, hl]

/-- The last beat of an instruction with no scalar result and no store lands its writes. -/
theorem endBeats_writes (s : State) (c : Slot) {l : Late} (ht : l.trap = none) (hr : l.result = none) (hs : l.stores = []) :
    endBeats s c l = .next { s with cur := c.landLate l } := by
  simp [endBeats, ht, hr, hs]

/-- The last beat of an instruction with a result in a register lands it. -/
theorem endBeats_reg (s : State) (c : Slot) {l : Late} {d : Reg5} {w : Word} (ht : l.trap = none) (hr : l.result = some (d, w))
    (hd : d.toNat < 24) : endBeats s c l = .next { s with cur := c.landLate l } := by
  simp [endBeats, ht, hr, hd]

/-- The last beat of an instruction with a result for a queue pushes it with its flags. -/
theorem endBeats_queue (s : State) (c : Slot) {l : Late} {d : Reg5} {w : Word} (ht : l.trap = none) (hr : l.result = some (d, w))
    (hd : 24 ≤ d.toNat) : endBeats s c l = pushWith s c d.toNat w l.npc (.raise l.flags) := by
  have h : ¬ d.toNat < 24 := by omega
  simp [endBeats, ht, hr, h]

/-- The last beat of a store enters its writes in the store buffer. -/
theorem endBeats_stores (s : State) (c : Slot) {l : Late} (ht : l.trap = none) (hr : l.result = none) (hs : l.stores ≠ []) :
    endBeats s c l = enterAll s c l.stores none l.unit s.seq l.flags := by
  simp [endBeats, ht, hr, hs]

theorem startBeats_one (s : State) (c : Slot) {k : Nat} (l : Late) (h : k ≤ 1) : startBeats s c k l = endBeats s c l := if_pos h

theorem startBeats_more (s : State) (c : Slot) {k : Nat} (l : Late) (h : 1 < k) :
    startBeats s c k l = .next { s with cur := { c with busy := k - 1, late := some l } } := if_neg (by omega)

/-- A beat before the last only counts down. -/
theorem nextBeat_early (s : State) (c : Slot) (l : Late) {n : Nat} (h : 1 < n) :
    nextBeat { s with cur := { c with busy := n, late := some l } } =
      .next { s with cur := { c with busy := n - 1, late := some l } } := by
  obtain ⟨m, rfl⟩ : ∃ m, n = m + 2 := ⟨n - 2, by omega⟩
  rfl

/-- The last beat ends the instruction. -/
theorem nextBeat_last (s : State) (c : Slot) (l : Late) :
    nextBeat { s with cur := { c with busy := 1, late := some l } } =
      endBeats { s with cur := { c with busy := 1, late := some l } } { c with busy := 0, late := none } l := rfl

theorem leastBeyond_none (bound : Nat) (ns : List Nat) (h : ∀ n ∈ ns, n < bound) : leastBeyond bound ns = none := by
  have : ns.filter (fun n => decide (bound ≤ n)) = [] := by simpa using h
  unfold leastBeyond; rw [this]; rfl

/-- With every named register declared, REGDECL is not taken. -/
theorem withVregs_declared (s : State) (ns : List Nat) (k : Unit → Out) (h : ∀ n ∈ ns, n < s.cur.decl.vregs) :
    withVregs s ns k = k () := by
  unfold withVregs; rw [leastBeyond_none _ _ h]

theorem withHandle_valid (s : State) (h : BitVec 2) (k : Handle → Out) {x : Handle} (hx : s.cur.handle h.toNat = some x) :
    withHandle s h k = k x := by
  unfold withHandle; rw [hx]

theorem withHandle_invalid (s : State) (h : BitVec 2) (k : Handle → Out) (hx : s.cur.handle h.toNat = none) :
    withHandle s h k = trap s s.cur .handle (BitVec.ofNat 64 h.toNat) := by
  unfold withHandle; rw [hx]

theorem intMin_le_intMax (sg : Bool) (w : Nat) : intMin sg w ≤ intMax sg w := by
  unfold intMin intMax
  have : (0 : Int) < (2 ^ (w - 1) : Nat) := by exact_mod_cast Nat.two_pow_pos _
  have : (0 : Int) < (2 ^ w : Nat) := by exact_mod_cast Nat.two_pow_pos _
  split <;> omega

/-- Sat is the nearest member of the type (R77). -/
theorem satN_eq (x : Int) (sg : Bool) (w : Nat) : satN x sg w = min (intMax sg w) (max (intMin sg w) x) := by
  have := intMin_le_intMax sg w
  unfold satN
  split
  · omega
  · split <;> omega

end Sys2Proof.Machine
end

