-- ==== Sys2Proof/Tests/Slice0.lean ====
section
/-! SUPPORT. Small tests: ill-formed terms that the checks refuse, words of the spec that decode to their instructions, one
witness for each statement that has hypotheses, and single steps whose results the spec gives. -/

namespace Sys2Proof.Tests

open Sys2Proof Sys2Proof.Machine

-- One declaration after the other: proofs by evaluation checked side by side would each hold a thread.
set_option Elab.async false

/-! ### Terms that are no instructions (Table 4-22): one for each check -/

theorem test_event_is_no_word : Instr.wf (.threadRejoin 0) = false := by decide
theorem test_trap_code_reserved : Instr.wf (.trap 3 14) = false := by decide
theorem test_mxop_sparse_f32 : Instr.wf (.mxop 3 .f32 true) = false := by decide
theorem test_mxst_sat_f32 : Instr.wf (.mxst 3 .f32 true) = false := by decide
theorem test_vshuf_i8 : Instr.wf (.vshuf 1 2 3 .i8 0) = false := by decide
theorem test_vdot2_width : Instr.wf (.vdot2 1 2 3 .i8 false 0) = false := by decide
theorem test_vdot4_width : Instr.wf (.vdot4 1 2 3 .i16 false 0) = false := by decide
theorem test_vcvt_ratio : Instr.wf (.vcvt 0 0 false .i8 (some .rne) .f64 0) = false := by decide
theorem test_aadd_o_with_d : Instr.wf (.aadd 5 6 7 .rlx .dev true false) = false := by decide
theorem test_pair_odd : Instr.wf (.vwadd 1 2 3 .i8 0) = false := by decide
theorem test_source_pair_odd : Instr.wf (.vnarrow 1 3 .i8 false 0) = false := by decide
theorem test_vcvt_source_pair_odd : Instr.wf (.vcvt 0 3 false .f32 (some .rne) .f16 0) = false := by decide
theorem test_block_beyond_v31 : Instr.wf (.pinsph 0 18 true false false 0) = false ∧ Instr.wf (.pinsph 0 17 true false false 0) = true := by
  decide
theorem test_field_30 : Instr.wf (.add 30 1 2) = false ∧ Instr.wf (.add 1 2 31) = false := by decide
theorem test_mask_dest_0 : Instr.wf (.mand 0 1 2) = false ∧ Instr.wf (.mand 8 1 2) = false ∧ Instr.wf (.mand 1 8 2) = false := by
  decide
theorem test_q5_as_source : Instr.wf (.add 1 29 2) = false ∧ Instr.wf (.add 29 1 2) = true := by decide
theorem test_queue_read_and_written : Instr.wf (.sel 26 1 2) = false ∧ Instr.wf (.bfi 24 1 2) = false := by decide
theorem test_csr_undefined : Instr.wf (.csrr 1 0x7FF) = false := by decide
theorem test_csr_read_only : Instr.wf (.csrw 1 0x020) = false ∧ Instr.wf (.csrr 1 0x020) = true := by decide

/-! ### Words that the spec writes out, and the instructions they stand for -/

/-- The words of a list decode to some instructions. -/
def Reads (ws : List Nat) (is : List Instr) : Prop := ws.map (decodeTableWord 32) = is.map some

/-- spec/06 (worked encodings), spec/13, spec/15, spec/16 and spec/19. -/
theorem test_decode_scalar : Reads
    [0x08400FFF, 0x19021800, 0x12412345, 0x1E929805, 0x04F08811, 0x0D083030, 0x06380000, 0x0A0007A5]
    [.addi 2 0 0xFFF, .mul 8 2 3, .lui 18 0x12345, .bfx 20 18 19, .sel 7 16 17, .slli 8 8 48, .add 17 24 0, .addi 16 0 0x7A5] := by
  rfl

/-- spec/06, spec/08 and spec/15: branches, jumps, control registers and traps. -/
theorem test_decode_control : Reads
    [0x3C091001, 0x38010000, 0x34000003, 0x30A4000C, 0x341FFFFD, 0x3C006007, 0x3D400013, 0x3C0C1011, 0x3C005000, 0x3C052002]
    [.csrw 9 1, .jalr 0 1 0, .jal 0 3, .bne 9 0 12, .jal 0 0x1FFFFD, .ucall 7, .csrr 10 0x13, .csrw 12 0x11, .eret, .csrs 5 2] := by
  rfl

/-- spec/12, spec/15 and spec/24: scalar loads and stores, windows, and full/empty accesses. -/
theorem test_decode_memory : Reads
    [0x25401420, 0x41281000, 0x28A64000, 0x2D4D9008, 0x29CDC010, 0x21CA5030, 0x3C08A003, 0x20A36010]
    [.sh 10 0 0x420, .ldfeClr 9 8 0, .ldo 5 6 false .sys 0, .sto 10 13 true .clus 8, .ldo 14 13 true .sys 16, .lwu 14 10 48,
      .winset 8 3, .ld 5 3 16] := by
  rfl

/-- spec/07, spec/14 and spec/15: tasks, fences and monitors. -/
theorem test_decode_tasks : Reads
    [0x480B6000, 0x494B1801, 0x480A0002, 0x44090008, 0x44004000, 0x44003000, 0x3C008004, 0x3C008013, 0x3C008009, 0x3C009000]
    [.fork 11 12, .rfork 10 11 3, .join 10, .marm 9 8, .halt, .yield, .fence .full .sys, .fence .rel .dev, .fence .acq .clus,
      .iflush] := by
  rfl

/-- spec/16: atomics, reductions and migrating blocks. -/
theorem test_decode_atomics : Reads
    [0x4D6852C0, 0x4D886909, 0x4DF07114, 0x4C08000A, 0x4C00000B, 0x50105120]
    [.aadd 11 8 10 .acq .dev false false, .acas 12 8 13 .rlx .sys false, .amin 15 16 14 .rlx .sys false true, .migr 8, .retn,
      .radd 16 10 false .sys true false] := by
  rfl

/-- spec/24: huddles. -/
theorem test_decode_huddles : Reads
    [0x54900040, 0x54000002, 0x54AD0006, 0x54900000, 0x54000001, 0x54EE0306, 0x56400007]
    [.hjoin 4 16 false true 0, .hbar 0, .hred 5 13 .addI64 0, .hjoin 4 16 false false 0, .hleave 0, .hred 7 14 .addF32 0,
      .hinfo 18 0] := by
  rfl

/-- spec/21, spec/26 and spec/27: warrants, counters, times and referee instructions. -/
theorem test_decode_warrants : Reads
    [0x58480000, 0x58624801, 0x58835002, 0x58A30003, 0x58C30005, 0x61800041, 0x61C01000, 0x61E01001, 0xF0430000, 0xF8884800]
    [.wpres 2 8, .wsplit 3 2 9, .wdeleg 4 3 10, .wsurr 5 3, .wqry 6 3 0, .cntr 12 0x41, .time 14 false, .time 15 true,
      .rfetch 2 3, .keyld 4 8 9] := by
  rfl

/-- spec/17, spec/18 and spec/19: movement and matrix instructions. -/
theorem test_decode_movement : Reads
    [0x5D484820, 0x5C085043, 0x5D484A08, 0x5C0D020A, 0x5C09050C, 0x5C08480E, 0x5C0F000F, 0x5C0A0010, 0x5C05000B]
    [.cpy 10 8 9 1, .chwm 8 10 2, .coll 10 8 9 .f32 .ar, .mxop 13 .gq8 false, .mxst 9 .bf16 false, .mxring 8 9, .mxadv 15, .mxwgt 10,
      .mxzero 5] := by
  rfl

/-- spec/09, spec/12 and spec/19: integer vector instructions, vector loads and stores, and masks. -/
theorem test_decode_vector : Reads
    [0x88864202, 0x8C400960, 0x882312A0, 0x9C0B6010, 0x9C820201, 0xA0410020, 0xA0610028, 0x808C0500, 0x844950A0, 0x98020020]
    [.vadd 4 6 8 .i32 2, .vdot4 2 0 1 .i8 true 0, .vcmpLt 1 3 2 .i32 0, .vspl 0 11 12 .i8 0, .vredi 4 2 .i32 1, .mpopc 2 1,
      .mfirst 3 1, .vld 4 12 .f32 0, .vsts 2 9 10 .i16 0, .vbcast 0 2 .i8 0] := by
  rfl

/-- spec/10 and spec/11: floating vector instructions and predicates. -/
theorem test_decode_float : Reads
    [0x90221A00, 0x90043719, 0x90411290, 0x9CA23218, 0x94825180, 0x94C25028, 0xA68402D0, 0xA4100318, 0xA5000320]
    [.vfadd 1 2 3 .f32 (.masked 0), .vfdiv 0 4 6 .f64 (.static .rtz), .vfcmpLt 2 1 2 .f32 0, .vfreds 5 2 6 .f32 (.masked 0),
      .vcvt 4 2 false .f32 (some .rne) .f16 0, .vcvtgq 6 2 false .f32 none .gq8 0, .pincir 20 4 false true true 0,
      .pinsph 0 16 true false false 0, .psegx 8 0 true false false 0] := by
  rfl

/-- R73, R74: a referee row outside referee mode, an unused major opcode, a reserved code, and a reserved field. -/
theorem test_words_refused :
    decode false 0xF0430000#32 = .error 2 ∧ decode false 0x00000000#32 = .error 1 ∧ decode false 0x04000015#32 = .error 3 ∧
      decode false 0x44004001#32 = .error 4 := by
  exact ⟨rfl, rfl, rfl, rfl⟩

/-! ### States for witnesses -/

/-- Set some scalar registers. -/
def put (c : Slot) (rs : List (Nat × Nat)) : Slot := rs.foldl (fun c r => c.setReg r.1 (BitVec.ofNat 64 r.2)) c

/-- A ready thread of context 1 in slot 0, with a handler. -/
def slot0 : Slot := { placedSlot 0 with thand := 0x1000000010040 }

/-- A module whose context 1 runs one thread; nothing else is under way. -/
def unit (c : Slot) : State := { State.reset with cur := c, ctxs := [placedCtx 0], auto := false }

/-- Does an outcome go on? -/
def goes : Out → Bool
  | .next _ => true
  | _ => false

theorem next_of_goes {o : Out} (h : goes o = true) : ∃ t, o = .next t := by
  cases o with
  | next t => exact ⟨t, rfl⟩
  | fault f => cases h
  | refused r => cases h

/-- Is a check's answer this refusal? -/
def refusedWith (r : Except Refused Nat) (e : Refused) : Bool :=
  match r with
  | .error f => f == e
  | .ok _ => false

theorem of_refusedWith {r : Except Refused Nat} {e : Refused} (h : refusedWith r e = true) : r = .error e := by
  cases r with
  | error f => exact congrArg _ (by simpa [refusedWith] using h)
  | ok k => cases h

/-- Is a check's answer this location? -/
def allowsAt (r : Except Refused Nat) (k : Nat) : Bool :=
  match r with
  | .error _ => false
  | .ok j => j == k

theorem of_allowsAt {r : Except Refused Nat} {k : Nat} (h : allowsAt r k = true) : r = .ok k := by
  cases r with
  | error f => cases h
  | ok j => exact congrArg _ (by simpa [allowsAt] using h)

/-- Locations 0x100 and up of the own core scratchpad. -/
def own (off : Nat) : Nat := keyOf Space.core (shareUnit 0 1) off

/-! ### Witnesses: the step, the registers and the scalar instructions -/

theorem witness_StepKeepsMemoryCanonical : ∃ s t : State, s.MemInv ∧ step s = .next t :=
  ⟨State.reset.withFetchWord 32 0x08400FFF, (next_of_goes (o := step (State.reset.withFetchWord 32 0x08400FFF)) (by decide)).choose,
    by decide, (next_of_goes (o := step (State.reset.withFetchWord 32 0x08400FFF)) (by decide)).choose_spec⟩

theorem witness_DecodeEncodeRoundTrip :
    (∃ i : Instr, i.WellFormed ∧ fld (encodeNat i) 31 26 < 60) ∧ (∃ i : Instr, i.WellFormed ∧ ¬ fld (encodeNat i) 31 26 < 60) :=
  ⟨⟨.aadd 0 23 28 .rel .sys true true, by decide, by decide⟩, ⟨.keyld 23 28 1, by decide, by decide⟩⟩

theorem reset_overrun (x : Ctx)
    (h : (State.reset.withFetchWord 32 0x08400FFF).ctxOf (State.reset.withFetchWord 32 0x08400FFF).cur = some x) :
    x.overrun = false ∨ ∃ e, x.err = some e ∧ e.stopped = true := by
  have e : ((State.reset.withFetchWord 32 0x08400FFF).ctxOf (State.reset.withFetchWord 32 0x08400FFF).cur).map (fun x => x.overrun) =
    some false := by decide
  rw [h] at e
  exact .inl (Option.some.inj e)

theorem witness_StepRunsTheDecodedInstruction :
    (∃ (s : State) (i : Instr) (rest : List Instr), s.agenda = i :: rest) ∧
    (∃ (s s' t : State) (w : IWord) (i : Instr), s.agenda = [] ∧ s.auto = false ∧ throttled s = false ∧ s.pastStop s.cur = false ∧
      (∀ x, s.ctxOf s.cur = some x → x.overrun = false ∨ ∃ e, x.err = some e ∧ e.stopped = true) ∧ s.cur.status = .ready ∧
      s.cur.busy = 0 ∧ s.cur.energyDue = false ∧ fetch s = .word w s' ∧ decode s'.cur.ref w = .ok i ∧
      exec i { s' with cur := { s'.cur with ir := w } } = .next t ∧ t.cur.wait ≠ some .ifetch) ∧
    (∃ (s s' t : State) (w : IWord) (i : Instr), s.agenda = [] ∧ s.auto = true ∧ due s = none ∧ throttled s = false ∧
      s.pastStop s.cur = false ∧ (∀ x, s.ctxOf s.cur = some x → x.overrun = false ∨ ∃ e, x.err = some e ∧ e.stopped = true) ∧
      s.cur.status = .ready ∧ s.cur.busy = 0 ∧ s.cur.energyDue = false ∧ fetch s = .word w s' ∧ decode s'.cur.ref w = .ok i ∧
      exec i { s' with cur := { s'.cur with ir := w } } = .next t ∧ t.cur.wait ≠ some .ifetch) :=
  ⟨⟨{ State.reset with agenda := [.dumpStart 0] }, _, _, rfl⟩,
    ⟨State.reset.withFetchWord 32 0x08400FFF, _, _, _, _, rfl, rfl, by decide, by decide, reset_overrun, rfl, rfl, rfl, rfl, rfl, rfl, by decide⟩,
    ⟨{ State.reset.withFetchWord 32 0x08400FFF with auto := true }, _, _, _, _, rfl, rfl, by decide, by decide, by decide, reset_overrun,
      rfl, rfl, rfl, rfl, rfl, rfl, by decide⟩⟩

theorem witness_RegistersAndQueuesAsSources :
    (∃ (c : Slot) (w : Word) (ws : List Word), c.q0read = w :: ws ∧ c.q1read = w :: ws ∧ c.q2recv = w :: ws ∧ c.q3read = w :: ws ∧
      c.q4read = w :: ws) ∧
    (∃ (i : Instr) (d a b : Reg5) (f : Word → Word → Word → Word) (s : State), TwoSource i d a b f ∧ s.cur.readReg a = none) ∧
    (∃ (i : Instr) (d a b : Reg5) (f : Word → Word → Word → Word) (s : State), TwoSource i d a b f ∧
      ∃ x c, s.cur.readReg a = some (x, c) ∧ c.readReg b = none) :=
  ⟨⟨{ slot0 with q0read := [7], q1read := [7], q2recv := [7], q3read := [7], q4read := [7] }, 7, [], rfl, rfl, rfl, rfl, rfl⟩,
    ⟨_, _, _, _, _, unit slot0, .add 1 26 2, rfl⟩, ⟨_, _, _, _, _, unit slot0, .add 1 2 28, _, _, rfl, rfl⟩⟩

theorem witness_TwoSourceScalarResults : ∃ (i : Instr) (d a b : Reg5) (f : Word → Word → Word → Word) (s : State) (x y : Word)
    (c₁ c₂ : Slot), TwoSource i d a b f ∧ s.cur.readReg a = some (x, c₁) ∧ c₁.readReg b = some (y, c₂) :=
  ⟨_, _, _, _, _, unit (put slot0 [(3, 7), (23, 2)]), _, _, _, _, .div 0 3 23, rfl, rfl⟩

theorem witness_OneSourceScalarResults :
    (∃ (i : Instr) (d a : Reg5) (f : Word → Word) (s : State) (x : Word) (c : Slot), OneSource i d a f ∧
      s.cur.readReg a = some (x, c)) ∧ (∃ (i : Instr) (d : Reg5) (w : Word) (s : State), NoSource i s d w) :=
  ⟨⟨_, _, _, _, unit (put slot0 [(3, 7)]), _, _, .addi 23 3 0x800, rfl⟩, ⟨_, _, _, unit slot0, .lui 18 0x80000 (unit slot0)⟩⟩

/-- A debug module of cluster 0 that captures. -/
def tracing : DbgMod :=
  { clus := 0, holder := 1, cfg := { start := .always, stop := .never, trigger := .never, comps := [], post := 0, period := 0, halt := .none, region := 0 },
    capture := .active, hit := false, buf := [], pend := [] }

theorem witness_QueueDestinations :
    (unit slot0).traceKept slot0 = false ∧
    (∃ c : Slot, State.traceKept { unit c with dbg := [tracing] } c = true ∧ c.q5.length < 8) ∧
    (∃ c : Slot, State.traceKept { unit c with dbg := [tracing] } c = true ∧ 8 ≤ c.q5.length) ∧
    (∃ c x, (unit c).ctxOf c = some x ∧ bodyMissing 0 (c.q2send.map (fun e => e.1)) ≠ none ∧ c.q2send.length < 16) ∧
    (∃ c x w, (unit c).ctxOf c = some x ∧ bodyMissing 0 (c.q2send.map (fun e => e.1)) = none ∧ checkHeader x w = none ∧
      c.q2send.length < 16) ∧
    (∃ c x, (unit c).ctxOf c = some x ∧ 16 ≤ c.q2send.length ∧ bodyMissing 0 (c.q2send.map (fun e => e.1)) ≠ none) ∧
    (∃ c x w r, (unit c).ctxOf c = some x ∧ bodyMissing 0 (c.q2send.map (fun e => e.1)) = none ∧ checkHeader x w = some r) :=
  ⟨rfl, ⟨{ slot0 with q5 := List.replicate 7 { word := 0, cycle := 0, pc := 0 } }, rfl, by decide⟩,
    ⟨{ slot0 with q5 := List.replicate 8 { word := 0, cycle := 0, pc := 0 } }, rfl, by decide⟩,
    ⟨{ slot0 with q2send := [(1, 0)] }, _, rfl, by decide, by decide⟩,
    ⟨slot0, _, 0, rfl, by decide, by decide, by decide⟩,
    ⟨{ slot0 with q2send := List.replicate 15 (0, 0) ++ [(1, 0)] }, _, rfl, by decide, by decide⟩, ⟨slot0, _, 0x70, 4, rfl, by decide, by decide⟩⟩

theorem witness_QueueDestinations_commands :
    (∃ c x w r, (unit c).ctxOf c = some x ∧ c.q0held = none ∧ checkCommand x c w none = some r) ∧
    (∃ c x w, (unit c).ctxOf c = some x ∧ c.q0held = none ∧ checkCommand x c w none = none ∧ bits w 63 60 = 5 ∧ c.q0push.length = 4) ∧
    (∃ c x w, (unit c).ctxOf c = some x ∧ c.q0held = none ∧ checkCommand x c w none = none ∧ bits w 63 60 = 4 ∧ c.q0push.length = 3) ∧
    (∃ c x w, State.ctxOf { unit c with matrix := [MUnit.fresh 0] } c = some x ∧ c.q0held = none ∧ checkCommand x c w none = none ∧
      bits w 63 60 = 3 ∧ c.q0push.length < 4 ∧ State.unitAt { unit c with matrix := [MUnit.fresh 0] } (clusOf c.phys) = some (MUnit.fresh 0)) ∧
    (∃ c x w, (unit c).ctxOf c = some x ∧ c.q0held = none ∧ checkCommand x c w none = none ∧ bits w 63 60 = 4 ∧ c.q0push.length = 4) ∧
    (∃ c x h w r, (unit c).ctxOf c = some x ∧ c.q0held = some h ∧ checkSecond w = some r) ∧
    (∃ c x h w, (unit c).ctxOf c = some x ∧ c.q0held = some h ∧ checkSecond w = none ∧ bits h 63 60 = 5 ∧ c.q0push.length = 2) ∧
    (∃ c x h w, (unit c).ctxOf c = some x ∧ c.q0held = some h ∧ checkSecond w = none ∧ c.q0push.length = 3) :=
  ⟨⟨slot0, _, 0x6000000000000000, _, rfl, rfl, rfl⟩,
    ⟨{ slot0 with q0push := List.replicate 4 (0, 0) }, _, 0x5000000000000000, rfl, rfl, by decide +kernel, rfl, rfl⟩,
    ⟨{ slot0 with q0push := List.replicate 3 (0, 0) }, _, 0x4000000000000000, rfl, rfl, by decide +kernel, rfl, rfl⟩,
    ⟨{ slot0 with wins := slot0.wins.setIfInBounds 0 10 }, _, 0x3E00000000000000, rfl, rfl, by decide +kernel, rfl, by decide, rfl⟩,
    ⟨{ slot0 with q0push := List.replicate 4 (0, 0) }, _, 0x4000000000000000, rfl, rfl, by decide +kernel, rfl, rfl⟩,
    ⟨{ slot0 with q0held := some 0 }, _, 0, 1, _, rfl, rfl, rfl⟩,
    ⟨{ slot0 with q0held := some 0x5000000000000000, q0push := List.replicate 2 (0, 0) }, _, _, 0, rfl, rfl, rfl, by decide, rfl⟩,
    ⟨{ slot0 with q0held := some 0, q0push := List.replicate 3 (0, 0) }, _, 0, 0, rfl, rfl, rfl, rfl⟩⟩

theorem witness_BranchesAndJumpsGo :
    (∃ (i : Instr) (a b : Reg5) (off : BitVec 13) (p : Word → Word → Prop) (s : State) (x y : Word) (c₁ c₂ : Slot),
      Branch i a b off p ∧ s.cur.readReg a = some (x, c₁) ∧ c₁.readReg b = some (y, c₂) ∧ p x y) ∧
    (∃ (i : Instr) (a b : Reg5) (off : BitVec 13) (p : Word → Word → Prop) (s : State) (x y : Word) (c₁ c₂ : Slot),
      Branch i a b off p ∧ s.cur.readReg a = some (x, c₁) ∧ c₁.readReg b = some (y, c₂) ∧ ¬ p x y) ∧
    (∃ (s : State) (a : Reg5) (imm : BitVec 12) (x : Word) (c : Slot), s.cur.readReg a = some (x, c) ∧
      (x + imm.signExtend 64).toNat % 4 = 0) ∧
    (∃ (s : State) (a : Reg5) (imm : BitVec 12) (x : Word) (c : Slot), s.cur.readReg a = some (x, c) ∧
      (x + imm.signExtend 64).toNat % 4 ≠ 0) :=
  ⟨⟨_, _, _, _, _, unit slot0, 0, 0, slot0, slot0, .beq 1 2 0x1000, rfl, rfl, rfl⟩,
    ⟨_, _, _, _, _, unit slot0, 0, 0, slot0, slot0, .bltu 1 2 0xFFF, rfl, rfl, by decide⟩,
    ⟨unit (put slot0 [(1, 8)]), 1, 0xFFC, 8, _, rfl, by decide⟩, ⟨unit slot0, 1, 2, 0, _, rfl, by decide⟩⟩

theorem witness_ControlRegisterWrites :
    (∃ (i : Instr) (a : Reg5) (n : Nat) (f : Word → Word → Word) (decl : Bool) (s : State), CsrWrite i a n f decl ∧
      decl = true ∧ 0x050 ≤ n ∧ s.cur.decl.windows ≤ n - 0x050) ∧
    (∃ (i : Instr) (a : Reg5) (n : Nat) (f : Word → Word → Word) (decl : Bool) (s : State) (x : Word) (c : Slot),
      CsrWrite i a n f decl ∧ s.cur.readReg a = some (x, c) ∧ ¬(decl = true ∧ 0x050 ≤ n ∧ s.cur.decl.windows ≤ n - 0x050) ∧
      csrRefused n (f (csrValue s c n) x) = false) ∧
    (∃ (i : Instr) (a : Reg5) (n : Nat) (f : Word → Word → Word) (decl : Bool) (s : State) (x : Word) (c : Slot),
      CsrWrite i a n f decl ∧ s.cur.readReg a = some (x, c) ∧ ¬(decl = true ∧ 0x050 ≤ n ∧ s.cur.decl.windows ≤ n - 0x050) ∧
      csrRefused n (f (csrValue s c n) x) = true) :=
  ⟨⟨_, _, _, _, _, unit { slot0 with decl := { placedDecl with windows := 7 } }, .winset 8 7, rfl, by decide, by decide⟩,
    ⟨_, _, _, _, _, unit (put slot0 [(1, 4)]), _, _, .csrw 1 0x001, rfl, by decide, rfl⟩,
    ⟨_, _, _, _, _, unit (put slot0 [(1, 5)]), _, _, .csrw 1 0x001, rfl, by decide, rfl⟩⟩

/-! ### Witnesses: traps and scalar memory -/

theorem witness_TrapEntersTheHandler :
    (∃ (s : State) (c : Slot) (cause : TrapCause), c.phys = s.cur.phys ∧ c.ref = false ∧ c.thand ≠ 0 ∧ c.inh = false ∧
      cause ≠ .uncorr ∧ c.block = none) ∧
    (∃ (s : State) (c : Slot) (cause : TrapCause), c.phys = s.cur.phys ∧ c.ref = false ∧ c.thand ≠ 0 ∧ c.inh = false ∧
      cause ≠ .uncorr ∧ c.block ≠ none ∧ c.busy = 0) ∧
    (∃ (s : State) (cause : TrapCause) (tval : Word), s.cur.occupied = true ∧ s.cur.ref = false ∧ s.cur.thand ≠ 0 ∧
      s.cur.inh = false ∧ s.cur.block = none ∧ resolve s s.cur s.cur.pc 4 .fetch = .error (cause, tval) ∧ cause ≠ .uncorr) ∧
    (∃ (s : State) (word : BitVec 32) (reason : Nat), s.cur.occupied = true ∧ s.cur.ref = false ∧ s.cur.thand ≠ 0 ∧ s.cur.inh = false ∧
      s.cur.block = none ∧ decode false word = .error reason) :=
  ⟨⟨unit slot0, slot0, .canon, rfl, rfl, by decide, rfl, by decide, rfl⟩,
    ⟨unit slot0, { slot0 with block := some { slice := 0, words := [], idx := 0, home := 0, reads := [], stores := [] } }, .canon, rfl, rfl,
      by decide, rfl, by decide, by decide, rfl⟩,
    ⟨unit { slot0 with pc := 0x200000000000000 }, _, _, rfl, rfl, by decide, rfl, rfl, rfl, by decide⟩,
    ⟨unit slot0, 0, _, rfl, rfl, by decide, rfl, rfl, rfl⟩⟩

theorem witness_FatalTrapStopsTheContext :
    (∃ (s : State) (c : Slot) (x : Ctx), c.phys = s.cur.phys ∧ c.ref = false ∧ c.thand = 0 ∧ s.ctxOf c = some x ∧ x.err = none ∧
      c.block = none) ∧
    (∃ (s : State) (c : Slot) (x : Ctx), c.phys = s.cur.phys ∧ c.ref = false ∧ c.inh = true ∧ s.ctxOf c = some x ∧ x.err = none ∧
      c.block ≠ none ∧ c.busy = 0) :=
  ⟨⟨unit slot0, { slot0 with thand := 0 }, _, rfl, rfl, rfl, rfl, rfl, rfl⟩,
    ⟨unit slot0, { slot0 with inh := true, block := some { slice := 0, words := [], idx := 0, home := 0, reads := [], stores := [] } }, _, rfl, rfl,
      rfl, rfl, rfl, by decide, rfl⟩⟩

/-- The rest of a migrating block on the slice at device memory offset 0x100. -/
def rest0 : Block := { slice := 0x1000000000100, words := [], idx := 1, home := 0x1000000010000, reads := [], stores := [] }

theorem witness_TrapInstructionsTakeTheirTrap :
    (∃ (i : Instr) (s : State) (c : Slot) (cause : TrapCause) (tval : Word),
      Raises i s c cause tval ∧ c.phys = s.cur.phys ∧ c.block = none ∧ c.ref = false ∧ c.thand ≠ 0 ∧ c.inh = false) ∧
    (∃ s : State, s.cur.mig = true ∧ s.cur.resumeAt = none) ∧
    (∃ (s : State) (b : Block) (x : Ctx), s.cur.mig = true ∧ s.cur.resumeAt = some (s.cur.tepc, b) ∧ s.ctxOf s.cur = some x ∧
      s.cur.ref = false ∧ s.cur.status = .ready ∧ b.slice.toNat = 2 ^ 48 + 0x100 ∧
      resolveDev x b.slice 0x100 (.load 1) = .ok (devKey x.id b.slice) ∧
      s.earlyHeld (coreOf s.cur.phys) (devKey x.id b.slice / 256 * 256) 256 = false ∧
      s.writePending (coreOf s.cur.phys) (devKey x.id b.slice / 256 * 256) 256 = false ∧ s.blocksAt (x.channelCore 0x100) < 8 ∧
      s.earlierPending s.cur.phys (s.seq + 1) = false ∧ s.sliceHeld s.cur.phys (devKey x.id b.slice) = false ∧
      s.tlbHit (devKey x.id b.slice) = true) :=
  ⟨⟨.trap 1 0xF, unit slot0, slot0, _, 0, .trap 1 0xF (unit slot0) _ 0 slot0 rfl (by decide) rfl, rfl, rfl, rfl, by decide, rfl⟩,
    ⟨unit { slot0 with mig := true }, rfl, rfl⟩,
    ⟨{ unit { slot0 with mig := true, tepc := 0x1000000010004, resumeAt := some (0x1000000010004, rest0) } with tlb := [(0, 1, 0)] }, rest0,
      placedCtx 0, rfl, rfl, rfl, rfl, rfl, by decide, of_allowsAt (by decide), by decide, by decide, by decide, by decide, by decide,
      by decide⟩⟩

/-- R207: each clause at the edge of its range, with what the spec says there. -/
theorem witness_AccessChecksInOrder :
    resolve (unit slot0) slot0 0x200000000000000 8 (.load 8) = .error (.canon, 0x200000000000000) ∧
    resolve (unit slot0) slot0 0x1FFFFFFFFFFFFFF 8 (.load 8) = .error (.misalign, 0x1FFFFFFFFFFFFFF) ∧
    resolve (unit slot0) slot0 0x3FFF8 8 (.load 8) = .ok (own 0x3FFF8) ∧
    resolve (unit slot0) { slot0 with decl := { placedDecl with coresp := 0x1000 } } 0x1000 8 (.load 8) = .error (.bounds, 0x1000) ∧
    resolve (unit slot0) slot0 0x40000 8 (.load 8) = .error (.bounds, 0x40000) ∧
    resolve (unit slot0) slot0 0xFFFF8 8 (.load 8) = .error (.bounds, 0xFFFF8) ∧
    resolve (unit slot0) slot0 0x40000 8 .fe = .error (.perm, 0x40000) ∧
    resolve (unit slot0) slot0 0xFFFF8 8 .atomic = .error (.perm, 0xFFFF8) ∧
    resolve (unit slot0) { slot0 with decl := { placedDecl with windows := 0 } } 0x100000 8 (.load 8) = .error (.regdecl, 0x100) ∧
    resolve (unit slot0) { slot0 with decl := { placedDecl with windows := 7 } } 0x2FFFF8 8 (.load 8) = .error (.regdecl, 0x107) :=
  ⟨rfl, rfl, rfl, rfl, rfl, rfl, of_refusedWith (by decide), of_refusedWith (by decide), of_refusedWith (by decide),
    of_refusedWith (by decide)⟩

/-- An error that no check can correct in the first bytes of the own core scratchpad. -/
def upset : MemErr := { lo := own 0, len := 8, place := 0xFF }

theorem witness_ScalarLoadResults :
    (∃ (i : Instr) (d a : Reg5) (imm : BitVec 12) (n : Nat) (signed : Bool) (s : State) (x : Word)
      (c : Slot) (k : Nat), ScalarLoad i d a imm n signed ∧ s.cur.readReg a = some (x, c) ∧ c.block = none ∧ destReason s c d = none ∧
      resolve s c (x + imm.signExtend 64) n (.load n) = .ok k ∧ ownCore c k = true ∧ s.loadStalls c.phys k n = false ∧
      s.errorAt k n = none) ∧
    (∃ (i : Instr) (d a : Reg5) (imm : BitVec 12) (n : Nat) (signed : Bool) (s : State) (x : Word)
      (c : Slot) (k : Nat) (e : MemErr), ScalarLoad i d a imm n signed ∧ s.cur.readReg a = some (x, c) ∧ c.block = none ∧
      destReason s c d = none ∧ resolve s c (x + imm.signExtend 64) n (.load n) = .ok k ∧ ownCore c k = true ∧
      s.loadStalls c.phys k n = false ∧ s.errorAt k n = some e) :=
  ⟨⟨_, _, _, _, _, _, unit (put slot0 [(3, 0x100)]), _, _, own 0xF8, .ld 0 3 0xFF8, rfl, rfl, rfl, rfl, by decide, by decide, by decide⟩,
    ⟨_, _, _, _, _, _, { unit slot0 with errs := [upset] }, _, _, own 7, upset, .lb 29 3 7, rfl, rfl, rfl, rfl, by decide, by decide, by decide⟩⟩

theorem witness_ScalarLoadResults_waits : ∃ (i : Instr) (d a : Reg5) (imm : BitVec 12) (n : Nat) (signed : Bool) (s : State)
    (x : Word) (c : Slot) (k : Nat), ScalarLoad i d a imm n signed ∧ s.cur.readReg a = some (x, c) ∧ c.block = none ∧
    destReason s c d = none ∧ resolve s c (x + imm.signExtend 64) n (.load n) = .ok k ∧ ownCore c k = false :=
  ⟨_, _, _, _, _, _, unit (put slot0 [(3, 0x1000000000000)]), _, _, keyOf Space.dev 1 1, .lbu 29 3 1, rfl, rfl, rfl, of_allowsAt (by decide), by decide⟩

theorem witness_ScalarLoadResults_traps : ∃ (i : Instr) (d a : Reg5) (imm : BitVec 12) (n : Nat) (signed : Bool) (s : State)
    (x : Word) (c : Slot) (e : TrapCause × Word), ScalarLoad i d a imm n signed ∧ s.cur.readReg a = some (x, c) ∧ c.block = none ∧
    destReason s c d = none ∧ resolve s c (x + imm.signExtend 64) n (.load n) = .error e :=
  ⟨_, _, _, _, _, _, unit slot0, _, _, (.misalign, 1), .lh 23 0 1, rfl, rfl, rfl, of_refusedWith (by decide)⟩

/-- A full store buffer of core 0. -/
def fullBuffer : List SbEntry := List.replicate 32 { core := 0, slot := 0, seq := 0, rel := none, unit := 8, bounds := Bounds.none, cells := [] }

theorem witness_ScalarStoreResults :
    (∃ (i : Instr) (b a : Reg5) (imm : BitVec 12) (n : Nat) (rel : Option Scope) (s : State) (x v : Word) (c₁ c : Slot) (k : Nat),
      ScalarStore i b a imm n rel ∧ s.cur.readReg a = some (x, c₁) ∧ c₁.readReg b = some (v, c) ∧ c.block = none ∧
      resolve s c (x + imm.signExtend 64) n (.store n) = .ok k ∧ s.sbCount (coreOf c.phys) < 32) ∧
    (∃ (i : Instr) (b a : Reg5) (imm : BitVec 12) (n : Nat) (rel : Option Scope) (s : State) (x v : Word) (c₁ c : Slot) (k : Nat),
      ScalarStore i b a imm n rel ∧ s.cur.readReg a = some (x, c₁) ∧ c₁.readReg b = some (v, c) ∧ c.block = none ∧
      resolve s c (x + imm.signExtend 64) n (.store n) = .ok k ∧ 32 ≤ s.sbCount (coreOf c.phys)) ∧
    (∃ (i : Instr) (b a : Reg5) (imm : BitVec 12) (n : Nat) (rel : Option Scope) (s : State) (x v : Word) (c₁ c : Slot) (e : TrapCause × Word),
      ScalarStore i b a imm n rel ∧ s.cur.readReg a = some (x, c₁) ∧ c₁.readReg b = some (v, c) ∧ c.block = none ∧
      resolve s c (x + imm.signExtend 64) n (.store n) = .error e) :=
  ⟨⟨_, _, _, _, _, _, { unit slot0 with sbuf := fullBuffer.drop 1 }, _, _, _, _, _, .sto 0 0 true .sys 8, rfl, rfl, rfl, rfl, by decide⟩,
    ⟨_, _, _, _, _, _, { unit slot0 with sbuf := fullBuffer }, _, _, _, _, _, .sb 1 0 0xFF, rfl, rfl, rfl, rfl, by decide⟩,
    ⟨_, _, _, _, _, _, unit slot0, _, _, _, _, _, .sd 1 0 4, rfl, rfl, rfl, rfl⟩⟩

theorem witness_StoredBytesAreRead :
    (∃ (i : Instr) (b a : Reg5) (imm : BitVec 12) (n : Nat) (rel : Option Scope) (s t : State) (x v : Word) (c₁ c : Slot) (k : Nat),
      ScalarStore i b a imm n rel ∧ s.cur.readReg a = some (x, c₁) ∧ c₁.readReg b = some (v, c) ∧ c.block = none ∧
      resolve s c (x + imm.signExtend 64) n (.store n) = .ok k ∧ inMem k = true ∧ inMem (k + n - 1) = true ∧
      s.sbCount (coreOf c.phys) < 32 ∧ exec i s = .next t) ∧
    (∃ (s : State) (k : Nat) (bs : List Byte), s.MemInv ∧ inMem k = true ∧ inMem (k + bs.length) = true ∧ s.keyHeld k = true) :=
  ⟨⟨_, _, _, _, _, _, unit (put slot0 [(1, 0x1234)]), _, _, _, _, _, _, .sd 1 0 8, rfl, rfl, rfl, rfl, by decide, by decide, by decide, rfl⟩,
    ⟨unit slot0, own 0, [1, 2], rfl, by decide, by decide, rfl⟩⟩

theorem witness_FullEmptyAccesses :
    (∃ (s : State) (a : Reg5) (imm : BitVec 12) (x : Word) (c : Slot) (k : Nat), s.cur.phys = c.phys ∧ c.status = .ready ∧ s.feq = [] ∧
      keySpace k = Space.core ∧ resolve s c (x + imm.signExtend 64) 8 .fe = .ok k ∧ ownCore c k = true ∧ s.errorAt k 8 = none ∧
      s.cur.readReg a = some (x, c) ∧ s.isFull k = true ∧ feMayArrive s c .ldfe k = true ∧ feMayArrive s c .ldfeClr k = true ∧
      feMayArrive s c .feq k = true) ∧
    (∃ (s : State) (a b : Reg5) (imm : BitVec 12) (x v : Word) (c₁ c : Slot) (k : Nat), s.cur.phys = c.phys ∧ c.status = .ready ∧
      s.feq = [] ∧ keySpace k = Space.core ∧ resolve s c (x + imm.signExtend 64) 8 .fe = .ok k ∧ ownCore c k = true ∧ s.errorAt k 8 = none ∧
      s.cur.readReg a = some (x, c₁) ∧ c₁.readReg b = some (v, c) ∧ s.isFull k = false ∧ feMayArrive s c .stfe k = true ∧
      s.sbCount (coreOf c.phys) < 32) :=
  ⟨⟨{ unit slot0 with full := [own 16 / 16] }, 0, 16, 0, slot0, _, rfl, rfl, rfl, by decide, rfl, by decide, by decide, rfl, by decide, by decide,
      by decide, by decide⟩,
    ⟨unit (put slot0 [(1, 5)]), 0, 1, 16, 0, 5, _, _, _, rfl, rfl, rfl, by decide, rfl, by decide, by decide, rfl, rfl, by decide, by decide,
      by decide⟩⟩

theorem witness_FencesMonitorsAndEnds :
    (∃ s : State, fenceClear s s.cur.phys .core = true ∧ fenceClear s s.cur.phys .sys = true ∧ s.cur.busy = 0 ∧ s.cur.monitor = none) ∧
    (∃ s : State, fenceClear s s.cur.phys .clus = false) ∧
    (∃ (s : State) (a : Reg5) (imm : BitVec 12) (x : Word) (c : Slot) (k : Nat), s.cur.readReg a = some (x, c) ∧
      resolve s c (x + imm.signExtend 64) 1 (.load 1) = .ok k ∧ keySpace k ≠ Space.host) ∧
    (∃ (s : State) (m : Monitor), s.cur.monitor = some m ∧ m.trig = true) ∧
    (∃ (s : State) (m : Monitor), s.cur.monitor = some m ∧ m.trig = false) :=
  ⟨⟨unit slot0, by decide, by decide, rfl, rfl⟩,
    ⟨{ unit slot0 with sbuf := [{ core := 0, slot := 0, seq := 0, rel := none, unit := 1, bounds := Bounds.none, cells := [(own 0, 1)] }] }, by decide⟩,
    ⟨unit slot0, 0, 1, 0, slot0, _, rfl, rfl, by decide⟩,
    ⟨unit { slot0 with monitor := some { block := 0, trig := true } }, _, rfl, rfl⟩,
    ⟨unit { slot0 with monitor := some { block := 0, trig := false } }, _, rfl, rfl⟩⟩

theorem witness_ForkAndJoin :
    (∃ (s : State) (a b : Reg5) (e g : Word) (c₁ c : Slot) (x : Ctx), s.cur.readReg a = some (e, c₁) ∧ c₁.readReg b = some (g, c) ∧
      e.toNat % 4 = 0 ∧ s.ctxOf c = some x ∧ (s.dequeAt x (coreOf c.phys)).items.length < x.dequeCap (coreOf c.phys)) ∧
    (∃ (s : State) (d a b : Reg5) (e n cell : Word) (c₁ c₂ c : Slot) (k : Nat), s.cur.readReg a = some (e, c₁) ∧
      c₁.readReg b = some (n, c₂) ∧ c₂.readReg d = some (cell, c) ∧ e.toNat % 4 = 0 ∧ cell.toNat % 8 = 0 ∧
      resolve s c cell 8 (.store 8) = .ok k ∧ n = 0 ∧ s.sbCount (coreOf c.phys) < 32) ∧
    (∃ (s : State) (d a b : Reg5) (e n cell : Word) (c₁ c₂ c : Slot) (k : Nat), s.cur.readReg a = some (e, c₁) ∧
      c₁.readReg b = some (n, c₂) ∧ c₂.readReg d = some (cell, c) ∧ e.toNat % 4 = 0 ∧ cell.toNat % 8 = 0 ∧
      resolve s c cell 8 (.store 8) = .ok k ∧ n = 0 ∧ 32 ≤ s.sbCount (coreOf c.phys)) ∧
    (∃ (s : State) (d a b : Reg5) (e n cell : Word) (c₁ c₂ c : Slot) (k : Nat), s.cur.readReg a = some (e, c₁) ∧
      c₁.readReg b = some (n, c₂) ∧ c₂.readReg d = some (cell, c) ∧ e.toNat % 4 = 0 ∧ cell.toNat % 8 = 0 ∧
      resolve s c cell 8 (.store 8) = .ok k ∧ n ≠ 0) :=
  ⟨⟨unit (put slot0 [(1, 0x1000000010000)]), 1, 0, _, _, _, _, _, rfl, rfl, by decide, rfl, by decide⟩,
    ⟨unit (put slot0 [(1, 0x1000000010000)]), 0, 1, 0, _, _, _, _, _, _, _, rfl, rfl, rfl, by decide, by decide, rfl, rfl, by decide⟩,
    ⟨{ unit (put slot0 [(1, 0x1000000010000)]) with sbuf := fullBuffer }, 0, 1, 0, _, _, _, _, _, _, _, rfl, rfl, rfl, by decide, by decide, rfl,
      rfl, by decide⟩,
    ⟨unit (put slot0 [(1, 0x1000000010000), (2, 1)]), 0, 1, 2, _, _, _, _, _, _, _, rfl, rfl, rfl, by decide, by decide, rfl, by decide⟩⟩

/-- The thread waiting in its JOIN of the cell at 0. -/
def joiner : Slot := { slot0 with wait := some (.join 0), status := .waitMem }

theorem witness_ForkAndJoin_join :
    (∃ (s u : State) (a : Reg5) (va : Word) (c : Slot) (k old : Nat), s.cur.readReg a = some (va, c) ∧ va.toNat % 8 = 0 ∧
      (∃ j, resolve s c va 8 (.store 8) = .ok j) ∧ resolve s c va 8 .atomic = .ok k ∧
      u = waiting (s.publish c .dev) (c.release .dev s.seq) (.join va) ∧ resolve u u.cur va 8 .atomic = .ok k ∧
      inMem (k + 7) = true ∧ keySpace k ≠ Space.host ∧ u.tlbHit k = true ∧ u.homeReady c.phys k 8 = true ∧
      s.earlierPending c.phys s.seq = false ∧ s.errorAt k 8 = none ∧ c.busy = 0 ∧ old = leNat (s.readHomeN k 8) ∧ 0 < old) ∧
    (∃ (s : State) (slot : Nat) (c : Slot) (va : Word) (k old : Nat), c = s.slotAt slot ∧ c.occupied = true ∧
      c.wait = some (.join va) ∧ resolve s c va 8 .atomic = .ok k ∧ keySpace k ≠ Space.host ∧ inMem (k + 7) = true ∧
      s.homeReady slot k 8 = true ∧ s.passes slot s.seq c.rels (spanKeys k 8) = some [] ∧ s.tlbHit k = true ∧
      s.errorAt k 8 = none ∧ old = leNat (s.readHomeN k 8) ∧ 0 < old) ∧
    (∃ (s : State) (slot : Nat) (c : Slot) (va : Word) (k old : Nat), c = s.slotAt slot ∧ c.occupied = true ∧
      c.wait = some (.join va) ∧ resolve s c va 8 .atomic = .ok k ∧ keySpace k ≠ Space.host ∧ inMem (k + 7) = true ∧
      s.homeReady slot k 8 = true ∧ s.passes slot s.seq c.rels (spanKeys k 8) = some [] ∧ s.tlbHit k = true ∧
      s.errorAt k 8 = none ∧ old = leNat (s.readHomeN k 8) ∧ old = 0) :=
  ⟨⟨{ unit slot0 with mem := [(own 0, 1)] }, _, 0, 0, slot0, own 0, 1, rfl, by decide, ⟨own 0, rfl⟩, rfl, rfl, rfl, by decide, by decide,
      by decide, by decide, by decide, by decide, rfl, by decide, by decide⟩,
    ⟨{ unit joiner with mem := [(own 0, 1)] }, 0, joiner, 0, own 0, 1, rfl, rfl, rfl, rfl, by decide, by decide, by decide, by decide, by decide,
      by decide, by decide, by decide⟩,
    ⟨unit joiner, 0, joiner, 0, own 0, 0, rfl, rfl, rfl, rfl, by decide, by decide, by decide, by decide, by decide, by decide, by decide, rfl⟩⟩

/-! ### Witnesses: atomics, huddles and warrants -/

/-- What an atomic of the thread that goes to its home leaves it waiting for. -/
def sent (s : State) (c : Slot) (d : Reg5) (op : AtomOp) (w32 : Bool) (x v cmp : Word) (k : Nat) (rel : Option Scope) : State :=
  waiting (afterRelease s c rel).1 (afterRelease s c rel).2 (.atomic d (request op w32 x v cmp k false (afterRelease s c rel).2.rels))

/-- The conditions on the state in which an atomic that waits is performed. -/
def Performable (s : State) (slot seq : Nat) (r : AtomReq) : Prop :=
  keySpace r.loc ≠ Space.host ∧ s.homeReady slot r.loc r.bytes = true ∧ s.passes slot seq r.bounds (spanKeys r.loc r.bytes) = some [] ∧
    inMem (r.loc + 7) = true ∧ s.tlbHit r.loc = true

theorem witness_AtomicsArePerformedOnce :
    (∃ (i : Instr) (op : AtomOp) (d a b : Reg5) (kind : Kind) (sc : Scope) (w32 : Bool) (s : State) (x v cmp : Word) (c : Slot) (k : Nat),
      (∃ c₁, s.cur.readReg a = some (x, c₁) ∧ c₁.readReg b = some (v, c)) ∧ cmp = 0 ∧ Atomic i op d a b kind sc true w32 ∧
      destReason s c d = none ∧ resolve s c x (if w32 then 4 else 8) .atomic = .ok k ∧ c.busy = 0 ∧
      (s.outb.filter (fun e => e.core == coreOf c.phys)).length < 16) ∧
    (∃ (i : Instr) (op : AtomOp) (d a b : Reg5) (kind : Kind) (sc : Scope) (w32 : Bool) (s : State) (x v cmp : Word) (c : Slot) (k : Nat),
      (∃ c₁, s.cur.readReg a = some (x, c₁) ∧ c₁.readReg b = some (v, c)) ∧ cmp = 0 ∧ Atomic i op d a b kind sc false w32 ∧
      destReason s c d = none ∧ resolve s c x (if w32 then 4 else 8) .atomic = .ok k ∧ c.busy = 0 ∧ d.toNat < 24 ∧
      (let p := afterRelease s c (if kind = .rel then some sc else none)
       Performable (sent s c d op w32 x v cmp k (if kind = .rel then some sc else none)) c.phys s.seq
         (request op w32 x v cmp k false p.2.rels)) ∧ s.errorAt k 8 = none) ∧
    (∀ old : Fin 2, ∃ (i : Instr) (d a b : Reg5) (kind : Kind) (sc : Scope) (s : State) (x v cmp : Word) (c : Slot) (k : Nat),
      (∃ c₁ c₂, s.cur.readReg a = some (x, c₁) ∧ c₁.readReg b = some (v, c₂) ∧ c₂.readReg d = some (cmp, c) ∧
        i = .acas d a b kind sc true) ∧ destReason s c d = none ∧ resolve s c x 4 .atomic = .ok k ∧ c.busy = 0 ∧ d.toNat < 24 ∧
      (let p := afterRelease s c (if kind = .rel then some sc else none)
       Performable (sent s c d .cas true x v cmp k (if kind = .rel then some sc else none)) c.phys s.seq
         (request .cas true x v cmp k false p.2.rels) ∧
       s.errorAt k 4 = none ∧ leNat (s.readHomeN k 4) = old ∧ (request .cas true x v cmp k false p.2.rels).cmp = 0)) := by
  refine ⟨⟨_, _, _, _, _, _, _, _, unit (put slot0 [(1, 16), (2, 5)]), _, _, _, _, _, ⟨_, rfl, rfl⟩, rfl, .aadd 0 1 2 .acq .dev true false, rfl, rfl,
      rfl, by decide⟩,
    ⟨_, _, _, _, _, _, _, _, unit (put slot0 [(1, 16), (2, 5)]), _, _, _, _, own 16, ⟨_, rfl, rfl⟩, rfl, .amax 3 1 2 .rel .sys false false, rfl, rfl,
      rfl, by decide, ⟨by decide, by decide, by decide, by decide, by decide⟩, by decide⟩, fun old => ?_⟩
  match old with
  | 0 => exact ⟨_, 3, 1, 2, .rel, .sys, unit (put slot0 [(1, 16), (2, 5)]), 16, 5, 0, _, own 16, ⟨_, _, rfl, rfl, rfl, rfl⟩, rfl, rfl, rfl,
      by decide, ⟨by decide, by decide, by decide, by decide, by decide⟩, by decide, by decide, by decide⟩
  | 1 => exact ⟨_, 3, 1, 2, .rel, .sys, { unit (put slot0 [(1, 16), (2, 5)]) with mem := [(own 16, 1)] }, 16, 5, 0, _, own 16,
      ⟨_, _, rfl, rfl, rfl, rfl⟩, rfl, rfl, rfl, by decide, ⟨by decide, by decide, by decide, by decide, by decide⟩, by decide, by decide, by decide⟩

/-- An atomic of the thread on 8 bytes of its scratchpad. -/
def atom0 (op : AtomOp) : AtomReq := request op false 16 5 0 (own 16) false Bounds.none

/-- The thread waiting for it. -/
def atomically (w : Wait) : Slot := { slot0 with wait := some w, status := .waitMem }

theorem witness_AtomicsArePerformedOnce_home :
    (∀ op : Fin 2, ∃ (s : State) (slot : Nat) (c : Slot) (d : Reg5) (r : AtomReq), c = s.slotAt slot ∧ c.occupied = true ∧
      c.wait = some (.atomic d r) ∧ Performable s slot s.seq r ∧ s.errorAt r.loc r.bytes = none ∧ (r.op = .cas ↔ op = 1) ∧
      leNat (s.readHomeN r.loc r.bytes) = r.cmp.toNat) ∧
    (∃ (s : State) (slot : Nat) (c : Slot) (d : Reg5) (r : AtomReq), c = s.slotAt slot ∧ c.occupied = true ∧
      c.wait = some (.atomic d r) ∧ Performable s slot s.seq r ∧ s.errorAt r.loc r.bytes = none ∧ r.op = .cas ∧
      leNat (s.readHomeN r.loc r.bytes) ≠ r.cmp.toNat) ∧
    (∃ (s : State) (slot : Nat) (c : Slot) (d : Reg5) (r : AtomReq), c = s.slotAt slot ∧ c.occupied = true ∧
      c.wait = some (.atomic d r) ∧ Performable s slot s.seq r ∧ s.errorAt r.loc r.bytes = none ∧
      resultRefused s c d (r.result (BitVec.ofNat 64 (leNat (s.readHomeN r.loc r.bytes)))) = true) ∧
    (∃ (s : State) (slot : Nat) (d : Reg5) (r : AtomReq) (old : Word), (s.slotAt slot).wait = some (.atomicReply d r old)) := by
  refine ⟨fun op => ?_, ⟨{ unit (atomically (.atomic 3 (atom0 .cas))) with mem := [(own 17, 1)] }, 0, _, 3, atom0 .cas, rfl, rfl, rfl,
      ⟨by decide, by decide, by decide, by decide, by decide⟩, by decide, rfl, by decide⟩,
    ⟨{ unit (atomically (.atomic 24 (atom0 .or))) with mem := [(own 23, 0x60)] }, 0, _, 24, atom0 .or, rfl, rfl, rfl,
      ⟨by decide, by decide, by decide, by decide, by decide⟩, by decide, by decide +kernel⟩,
    ⟨unit (atomically (.atomicReply 3 (atom0 .add) 7)), 0, _, _, _, rfl⟩⟩
  match op with
  | 0 => exact ⟨unit (atomically (.atomic 3 (atom0 .xor))), 0, _, 3, atom0 .xor, rfl, rfl, rfl,
      ⟨by decide, by decide, by decide, by decide, by decide⟩, by decide, by decide, by decide⟩
  | 1 => exact ⟨unit (atomically (.atomic 3 (atom0 .cas))), 0, _, 3, atom0 .cas, rfl, rfl, rfl,
      ⟨by decide, by decide, by decide, by decide, by decide⟩, by decide, by decide, by decide⟩

/-- A reduction of core 0 on its way. -/
def outgoing (done : Bool) : OutReq :=
  { core := 0, slot := 0, seq := 1, req := request .add false 16 5 0 (own 16) true Bounds.none, pc := 0x1000000010000,
    ir := 0x50105120#32, done := done }

/-- An atomic on system space that the thread waits for. -/
def sysAtomic : AtomReq := request .add false 0x100000000000000 5 0 (keyOf Space.host 0 0) false Bounds.none

theorem witness_ReductionsAndSystemAtomics :
    (∃ (i : Instr) (op : AtomOp) (a b : Reg5) (rel : Option Scope) (o w32 : Bool) (s : State) (x v : Word) (c₁ c : Slot) (k : Nat),
      Reduction i op a b rel o w32 ∧ s.cur.readReg a = some (x, c₁) ∧ c₁.readReg b = some (v, c) ∧
      resolve s c x (if w32 then 4 else 8) .atomic = .ok k ∧ (s.outb.filter (fun e => e.core == coreOf c.phys)).length < 16) ∧
    (∃ (s : State) (k : Nat) (e : OutReq), s.outb[k]? = some e ∧ e.done = false ∧ keySpace e.req.loc ≠ Space.host ∧
      s.outMayGo e = true ∧ s.passes e.slot e.seq e.req.bounds (spanKeys e.req.loc e.req.bytes) = some [] ∧ e.req.op ≠ .cas ∧
      inMem (e.req.loc + 7) = true ∧ s.tlbHit e.req.loc = true ∧ s.errorAt e.req.loc e.req.bytes = none) ∧
    (∃ (s : State) (k : Nat) (e : OutReq), s.outb[k]? = some e ∧ e.done = true) ∧
    (∃ (s : State) (d : Reg5) (r : AtomReq), s.cur.wait = some (.atomic d r) ∧ keySpace r.loc = Space.host ∧
      s.homeReady s.cur.phys r.loc r.bytes = true ∧ s.passes s.cur.phys s.seq r.bounds (spanKeys r.loc r.bytes) = some [] ∧
      s.cur.status = .waitMem ∧ d.toNat < 24 ∧ r.op ≠ .cas) :=
  ⟨⟨_, _, _, _, _, _, _, { unit (put slot0 [(1, 16), (2, 5)]) with outb := List.replicate 15 (outgoing true) }, _, _, _, _, _,
      .radd 1 2 true .sys true true, rfl, rfl, rfl, by decide⟩,
    ⟨{ unit slot0 with outb := [outgoing false] }, 0, _, rfl, rfl, by decide, by decide, by decide, by decide, by decide, by decide, by decide⟩,
    ⟨{ unit slot0 with outb := [outgoing true] }, 0, _, rfl, rfl⟩,
    ⟨unit { slot0 with wait := some (.atomic 3 sysAtomic), status := .waitMem }, _, _, rfl, by decide, by decide, by decide, rfl, by decide, by decide⟩⟩

/-- A migrating block of the thread, at device memory offset 0x100. -/
def block0 : Block := { slice := 0x1000000000100, words := [], idx := 1, home := 0x1000000010000, reads := [], stores := [] }

theorem witness_MigratingBlocks :
    (∃ (s u : State) (a : Reg5) (va : Word) (c : Slot) (x : Ctx) (off k : Nat), s.cur.readReg a = some (va, c) ∧ va.toNat = 2 ^ 48 + off ∧
      va.toNat < 2 ^ 56 ∧ c.ref = false ∧ s.ctxOf c = some x ∧ resolveDev x va off (.load 1) = .ok k ∧
      u = waiting (s.publish c .dev) (c.release .dev s.seq) (.migr va) ∧
      s.earlierPending c.phys (s.seq + 1) = false ∧ s.sliceHeld c.phys k = false ∧
      (∀ e ∈ u.blockCode u.cur (c.pc + 4) 25, u.tlbHit e.1 = true ∧ u.errorAt e.1 4 = none) ∧
      s.writePending (coreOf c.phys) (k / 256 * 256) 256 = false ∧
      s.earlyHeld (coreOf c.phys) (k / 256 * 256) 256 = false ∧ s.blocksAt (x.channelCore (keyOff k)) < 8 ∧ s.tlbHit k = true) ∧
    (∃ (s : State) (va : Word) (x : Ctx) (k : Nat), s.cur.wait = some (.migr va) ∧ s.ctxOf s.cur = some x ∧
      resolve s s.cur va 1 (.load 1) = .ok k ∧ s.earlierPending s.cur.phys (s.seq + 1) = false ∧ s.cur.status = .waitMem ∧
      s.sliceHeld s.cur.phys k = false ∧ s.earlyHeld (coreOf s.cur.phys) (k / 256 * 256) 256 = false ∧
      s.writePending (coreOf s.cur.phys) (k / 256 * 256) 256 = false ∧
      (∀ e ∈ s.blockCode s.cur (s.cur.pc + 4) 25, s.tlbHit e.1 = true ∧ s.errorAt e.1 4 = none) ∧ s.tlbHit k = true ∧
      s.blocksAt (x.channelCore (keyOff k)) < 8) ∧
    (∃ (s : State) (b : Block), s.cur.block = some b ∧ s.cur.busy = 0 ∧ ∀ y ∈ b.stores, inMem y.1 = true ∧ s.keyHeld y.1 = true) ∧
    (∃ (s : State) (slot : Nat), (s.slotAt slot).wait = some (.migrReturn none)) ∧
    (∃ (s : State) (slot : Nat) (cause : TrapCause) (tval v : Word),
      (s.slotAt slot).wait = some (.migrReturn (some (cause, tval, v)))) ∧
    (∃ s : State, s.cur.block = none) :=
  ⟨⟨{ unit (put slot0 [(1, 0x1000000000100)]) with tlb := [(0, 1, 0), (3, 1, 1)] }, _, 1, 0x1000000000100, _, placedCtx 0, 0x100, keyOf Space.dev 1 0x100, rfl,
      by decide, by decide, rfl, rfl, of_allowsAt (by decide), rfl, by decide, by decide, by decide +kernel, by decide, by decide, by decide,
      by decide⟩,
    ⟨{ unit { slot0 with wait := some (.migr 0x1000000000100), status := .waitMem } with tlb := [(0, 1, 0), (3, 1, 1)] }, _, _,
      keyOf Space.dev 1 0x100, rfl, rfl, of_allowsAt (by decide), by decide, rfl, by decide, by decide, by decide, by decide +kernel, by decide,
      by decide⟩,
    ⟨unit { slot0 with block := some { block0 with stores := [(keyOf Space.dev 1 0x100, 7)] } }, _, rfl, rfl, by decide⟩,
    ⟨unit (atomically (.migrReturn none)), 0, rfl⟩,
    ⟨unit (atomically (.migrReturn (some (.bounds, 8, 5)))), 0, .bounds, 8, 5, rfl⟩, ⟨unit slot0, rfl⟩⟩

/-- The thread's handle h0 on the huddle 0x7A5. -/
def held : Handle := { name := 0x7A5, short := true, dep := 3, due := none }

/-- The thread as the one member of the huddle 0x7A5. -/
def member0 : HMember := { ctx := 1, thread := 0, slot := 0, joined := 2, next := 2, arrived := none, leaving := false, gone := false }

/-- The entry of the huddle 0x7A5 in its phase 2. -/
def entry0 : Huddle := { root := 1, name := 0x7A5, home := 0, phase := 2, charged := 1, dep := 1, members := [member0] }

/-- The thread with a valid h0. -/
def handled0 : Slot := { slot0 with handles := slot0.handles.setIfInBounds 0 (some held) }

/-- A module whose thread is that member; its family's entries have homes on die 0. -/
def huddled (c : Slot) (e : Huddle) : State :=
  { unit c with huddles := [e], fams := [{ root := 1, quota := 8, dies := [0] }] }

theorem witness_HuddlePhasesComplete :
    ∃ (s : State) (x : Ctx) (h : BitVec 2) (hd : Handle) (e : Huddle) (m : HMember), s.ctxOf s.cur = some x ∧
      s.cur.handle h.toNat = some hd ∧ AloneIn s x hd.name e m ∧ Quiet s ∧
      (∃ i d a f v c, Votes i d a h f ∧ d.toNat < 24 ∧ s.cur.readReg a = some (v, c)) :=
  ⟨huddled (put handled0 [(1, 7)]) entry0, placedCtx 0, 0, held, entry0, member0, rfl, rfl,
    ⟨rfl, rfl, rfl, rfl, rfl, rfl, rfl, by decide, rfl, rfl, rfl⟩, ⟨rfl, rfl, by decide, rfl⟩,
    _, _, _, _, _, _, .addF32 23 1 0, by decide, rfl⟩

/-- Another member of that huddle. -/
def member1 : HMember := { member0 with thread := 1, slot := 1 }

/-- A request of the thread to it. -/
def hreq0 (k : HReqKind) : HReq := { root := 1, name := 0x7A5, ctx := 1, thread := 0, slot := 0, seq := 0, kind := k }

/-- A note of that huddle to the thread. -/
def note0 (reply : Bool) : HNote :=
  { ctx := 1, thread := 0, slot := 0, reply := reply, name := 0x7A5, value := 9, flags := 0, short := true, dep := 2 }

theorem witness_HuddlePhasesComplete_events :
    (∀ out : Bool, ∃ (s : State) (c : Slot) (d : Reg5) (h : BitVec 2) (i : Instr) (hd : Handle) (inp : HInput), Arrives i s c d h inp true ∧
      s.cur.handle h.toNat = some hd ∧ d.toNat < 24 ∧ s.arrivalOutstanding c hd.name = out) ∧
    (∃ (s : State) (c : Slot) (d : Reg5) (h : BitVec 2) (i : Instr) (hd : Handle) (inp : HInput), Arrives i s c d h inp false ∧
      s.cur.handle h.toNat = some hd ∧ d.toNat < 24 ∧ s.arrivalOutstanding c hd.name = false) ∧
    (∀ kind : HReqKind, kind = .arrive { tag := 0, val := 0 } ∨ kind = .leave → ∃ (s : State) (k : Nat) (r : HReq) (e : Huddle),
      s.hreqs[k]? = some r ∧ s.hreqReady k r = true ∧ s.entryOf r.root r.name = some e ∧ StillOpen e r.ctx r.thread ∧ r.kind = kind) ∧
    (∃ (s : State) (k : Nat) (r : HReq) (e : Huddle) (d : Reg5) (h : Nat) (hd : Handle), s.hreqs[k]? = some r ∧ s.hreqReady k r = true ∧
      r.kind = .info ∧ (s.slotAt r.slot).wait = some (.hinfo d h) ∧ (s.slotAt r.slot).handle h = some hd ∧
      s.entryOf r.root r.name = some e) ∧
    (∃ (s : State) (slot : Nat) (n : HNote) (c : Slot) (d : Reg5) (h : Nat) (fl : Bool) (hd : Handle),
      s.hnotes.find? (fun n => n.slot == slot) = some n ∧ c = s.slotAt slot ∧ c.owner = some n.ctx ∧ c.thread = n.thread ∧
      c.occupied = true ∧ c.status ≠ .stopped ∧ n.reply = false ∧ c.wait = some (.hphase d h fl) ∧ c.handle h = some hd ∧ hd.name = n.name) ∧
    (∃ (s : State) (slot : Nat) (n : HNote) (c : Slot) (d : Reg5) (h : Nat),
      s.hnotes.find? (fun n => n.slot == slot) = some n ∧ c = s.slotAt slot ∧ c.owner = some n.ctx ∧ c.thread = n.thread ∧
      c.occupied = true ∧ c.status ≠ .stopped ∧ n.reply = true ∧ c.wait = some (.hinfo d h)) := by
  refine ⟨fun out => ?_,
    ⟨unit handled0, _, _, _, _, held, _, .harrv 0 (unit handled0), rfl, by decide, by decide⟩, fun kind hk => ?_,
    ⟨{ huddled { handled0 with wait := some (.hinfo 5 0), status := .waitMsg } entry0 with hreqs := [hreq0 .info] }, 0, _, _, 5, 0, held, rfl, by decide,
      rfl, rfl, rfl, rfl⟩,
    ⟨{ unit { handled0 with wait := some (.hphase 5 0 false), status := .waitMsg } with hnotes := [note0 false] }, 0, _, _, 5, 0, false, held, rfl, rfl,
      rfl, rfl, rfl, by decide, rfl, rfl, rfl, rfl⟩,
    ⟨{ unit { handled0 with wait := some (.hinfo 5 0), status := .waitMsg } with hnotes := [note0 true] }, 0, _, _, 5, 0, rfl, rfl,
      rfl, rfl, rfl, by decide, rfl, rfl⟩⟩
  · cases out
    · exact ⟨unit handled0, _, _, _, _, held, _, .hbar 0 (unit handled0), rfl, by decide, by decide⟩
    · exact ⟨{ unit handled0 with hnotes := [note0 false] }, _, _, _, _, held, _, .hbar 0 { unit handled0 with hnotes := [note0 false] }, rfl, by decide,
        by decide⟩
  · refine ⟨{ huddled handled0 { entry0 with members := [member0, member1] } with hreqs := [hreq0 kind] }, 0, _, _, rfl, ?_, rfl,
      ⟨member1, by decide, by decide, rfl, rfl, rfl, fun h => absurd (show (1 : Nat) = 0 from h.2) (by decide)⟩, rfl⟩
    rcases hk with rfl | rfl <;> decide

/-- A module whose thread may join a huddle, with the quota of its family given. -/
def joining (quota : Nat) : State :=
  { unit (put slot0 [(1, 0x7A5)]) with fams := [{ root := 1, quota := quota, dies := [0] }] }

theorem witness_HuddleMembership :
    (∃ (s : State) (x : Ctx) (d a : Reg5) (h : BitVec 2) (nm : Word) (c : Slot), s.ctxOf s.cur = some x ∧ s.hreqs = [] ∧
      s.hnotes = [] ∧ s.cur.busy = 0 ∧ h.toNat < s.cur.decl.huddles ∧ s.cur.handle h.toNat = none ∧
      s.cur.readReg a = some (nm, c) ∧ d.toNat < 24 ∧ s.huddles = [] ∧
      s.joinStatus { root := x.root, name := nm, ctx := x.id, thread := c.thread, slot := c.phys, seq := s.seq, kind := .join true }
        true = 0) ∧
    (∃ (s : State) (x : Ctx) (d a : Reg5) (h : BitVec 2) (nm : Word) (c : Slot), s.ctxOf s.cur = some x ∧ s.hreqs = [] ∧
      s.hnotes = [] ∧ s.cur.busy = 0 ∧ h.toNat < s.cur.decl.huddles ∧ s.cur.handle h.toNat = none ∧
      s.cur.readReg a = some (nm, c) ∧ d.toNat < 24 ∧ s.huddles = [] ∧
      s.joinStatus { root := x.root, name := nm, ctx := x.id, thread := c.thread, slot := c.phys, seq := s.seq, kind := .join false }
        false = 3) ∧
    (∃ (s : State) (x : Ctx) (h : BitVec 2) (hd : Handle) (e : Huddle) (m : HMember), s.ctxOf s.cur = some x ∧
      s.cur.handle h.toNat = some hd ∧ AloneIn s x hd.name e m ∧ Quiet s) ∧
    (∃ (s : State) (e : Huddle) (m : HMember), s.huddles = [e] ∧ e.members = [m] ∧ m.gone = false ∧ s.departing m.ctx = true) :=
  ⟨⟨joining 1, _, 4, 1, 3, _, _, rfl, rfl, rfl, rfl, by decide, rfl, rfl, by decide, rfl, by decide⟩,
    ⟨joining 0, _, 4, 1, 3, _, _, rfl, rfl, rfl, rfl, by decide, rfl, rfl, by decide, rfl, by decide⟩,
    ⟨huddled (put handled0 [(1, 7)]) entry0, placedCtx 0, 0, held, entry0, member0, rfl, rfl,
      ⟨rfl, rfl, rfl, rfl, rfl, rfl, rfl, by decide, rfl, rfl, rfl⟩, ⟨rfl, rfl, by decide, rfl⟩⟩,
    ⟨{ State.reset with huddles := [entry0] }, _, _, rfl, rfl, rfl, rfl⟩⟩

theorem witness_HuddleMembership_home :
    (∃ (s : State) (k : Nat) (r : HReq) (ex : Bool), s.hreqs[k]? = some r ∧ s.hreqReady k r = true ∧ r.kind = .join ex ∧
      s.joinStatus r ex ≠ 0) ∧
    (∃ (s : State) (k : Nat) (r : HReq) (ex : Bool) (e : Huddle), s.hreqs[k]? = some r ∧ s.hreqReady k r = true ∧ r.kind = .join ex ∧
      s.joinStatus r ex = 0 ∧ s.entryOf r.root r.name = some e ∧ StillOpen e r.ctx r.thread) ∧
    (∃ (s : State) (k : Nat) (r : HReq) (ex : Bool), s.hreqs[k]? = some r ∧ s.hreqReady k r = true ∧ r.kind = .join ex ∧
      s.joinStatus r ex = 0 ∧ s.entryOf r.root r.name = none) :=
  ⟨⟨{ huddled slot0 entry0 with hreqs := [hreq0 (.join true)] }, 0, _, true, rfl, by decide, rfl, by decide⟩,
    ⟨{ huddled slot0 { entry0 with members := [member1] } with hreqs := [hreq0 (.join false)] }, 0, _, false, _, rfl, by decide, rfl, by decide, rfl,
      ⟨member1, by decide, by decide, rfl, rfl, rfl, by decide⟩⟩,
    ⟨{ joining 1 with hreqs := [hreq0 (.join true)] }, 0, _, true, rfl, by decide, rfl, by decide, rfl⟩⟩

/-- An object of one kernel, one symbol and one word of text. -/
def gxo0 : List Byte :=
  [0x47, 0x58, 0x4F, 0x42, 1, 0, 0, 0] ++ leBytes 4 1 ++ leBytes 4 1 ++ leBytes 4 0 ++ leBytes 4 0 ++ leBytes 4 1 ++ leBytes 4 317 ++
    List.replicate 32 0 ++
    (leBytes 8 313 ++ leBytes 8 4 ++ leBytes 8 textLink ++ leBytes 8 0) ++
    (leBytes 8 317 ++ leBytes 8 0 ++ leBytes 8 (textLink + 65536) ++ leBytes 8 0) ++
    (leBytes 8 317 ++ leBytes 8 0 ++ leBytes 8 (textLink + 65536) ++ leBytes 8 0) ++
    (leBytes 4 0 ++ leBytes 4 1 ++ List.replicate 16 0 ++ leBytes 8 0 ++ leBytes 8 (2 ^ 64 - 1) ++ (List.replicate 8 (leBytes 8 0x1F)).flatten ++
      List.replicate 24 0) ++
    (leBytes 4 0 ++ [1, 0, 0, 0] ++ leBytes 16 0) ++ [0] ++ leBytes 4 0

/-- Context 1 with two slots, a free megabyte and that object. -/
def parent : Ctx :=
  { placedCtx 0 with
    handles := [{ gen := 1, target := some 1 }, { gen := 0, target := none }],
    slots := [0, 1], res := { placedRes with threads := 2, queues := 2 }, object := gxo0,
    layout := { placedLayout with g := 2 ^ 21, freeEnd := 2 ^ 20 } }

/-- Its thread in slot 0, with the record of a child of one thread at 0x200. -/
def splitting : State :=
  { unit (put slot0 [(1, 64), (2, 0x200)]) with
    ctxs := [parent], mem := [(own 0x204, 1), (own 0x212, 9), (own 0x21C, 1), (own 0x220, 1), (own 0x22C, 1)] }
/-- That record. -/
def splitRec : Resources :=
  { cls := 0, threads := 1, coreB := 0, clusB := 0, devB := 0x90000, weight := 0, huddles := 0, queues := 1, energy := 1, power := 0, latency := 1 }

/-- The thread waiting for the split. -/
def splitAsked : State := asked splitting splitting.cur .wsplit 5 64 0x200
theorem splitting_free : splitAsked.idUsed 2 = false := by decide +kernel

theorem splitting_id : splitAsked.newId.1 ≠ 1 := fun h => by
  have := State.newId_unused (s := splitAsked) (n := 2) (by decide) (by decide) splitting_free
  rw [h] at this
  revert this
  decide +kernel

/-- The parent after a split has a free handle for the child. -/
theorem splitting_handle (lay : Layout) (g : Gxo) (who : Nat × Nat) : ∃ h y,
    (((splitAsked.splitOff parent splitRec 0 lay g who).1.ctxAt 1).bind
      (fun y => y.giveHandle (splitAsked.splitOff parent splitRec 0 lay g who).2)) = some (h, y) := by
  obtain ⟨-, p, x, hc, hp, hh, -, -, -, hx, -⟩ := splitAsked.splitOff_ctxs parent splitRec 0 lay g who
  have e : (splitAsked.splitOff parent splitRec 0 lay g who).1.ctxAt 1 = some p := by
    unfold State.ctxAt
    rw [hc, find_updKey_other _ _ _ (by rw [hx]; simpa using splitting_id) (fun y hy => by
      rw [beq_iff_eq] at hy; rw [hy, hx]; simpa using splitting_id)]
    rw [show p.id = 1 from hp]
    exact find_updKey_same _ _ (by rw [show p.id = 1 from hp]; rfl) _
  rw [e]
  show ∃ h y, p.giveHandle _ = some (h, y)
  unfold Ctx.giveHandle
  rw [hh]
  exact ⟨_, _, rfl⟩

/-- Context 2, a running child of context 1, and its errors. -/
def kid (st : CtxState) (err : Option ErrorState) : Ctx :=
  { placedCtx 8 with id := 2, parent := some 1, sub := true, state := st, serial := 2, parentSerial := 1, err := err }

/-- Context 1 with the handle 64 of itself and 129 of the child. -/
def parent2 : Ctx := { placedCtx 0 with handles := [{ gen := 1, target := some 1 }, { gen := 2, target := some 2 }] }

/-- The thread of context 1 with a handle in s1 and the address 0x200 in s2. -/
def warranted (h : Nat) (k : Ctx) : State := { unit (put slot0 [(1, h), (2, 0x200)]) with ctxs := [parent2, k] }

/-- Its thread waiting for the umpire. -/
def asks (k : Ctx) (op : WarOp) (h : Nat) (b : Word) : State := asked (warranted h k) (warranted h k).cur op 5 (BitVec.ofNat 64 h) b

theorem mem_cellsAt {k : Nat} {bs : List Byte} {y : Host.Cell} (h : y ∈ cellsAt k bs) : ∃ i, i < bs.length ∧ y.1 = k + i := by
  induction bs generalizing k with
  | nil => cases h
  | cons b bs ih =>
    rcases List.mem_cons.mp h with rfl | h
    · exact ⟨0, by simp, rfl⟩
    · obtain ⟨i, hi, e⟩ := ih h
      exact ⟨i + 1, by simpa using hi, by omega⟩

theorem leBytes_length (n v : Nat) : (leBytes n v).length = n := by
  induction n generalizing v with
  | zero => rfl
  | succ n ih => simp [leBytes, ih]

theorem delegating_held (bs : List Byte) (h : bs.length = 128) : ∀ y ∈ cellsAt (own 0x240) bs,
    inMem y.1 = true ∧ (asks (kid .run none) .wdeleg 129 0x200).keyHeld y.1 = true := by
  intro y hy
  obtain ⟨i, hi, e⟩ := mem_cellsAt hy
  have k : ∀ i : Fin 128, inMem (own 0x240 + i) = true ∧ (asks (kid .run none) .wdeleg 129 0x200).keyHeld (own 0x240 + i) = true := by
    decide +kernel
  rw [e]
  exact k ⟨i, h ▸ hi⟩

/-- An error whose dump is written. -/
def dumped : ErrorState := { record := [], kind := 0, die := 0, stopped := true, stopAt := 0, dumped := 2, further := 0, first := none, frozen := [] }

/-- The thread waiting for WPRES of the block at 0x200, which names a warrant image at 0x400 (kind 0) or a receipt (kind 1). -/
def presenting (kind : Byte) : State := { unit (put slot0 [(2, 0x200)]) with mem := writeCells [(own 0x209, 4)] [(own 0x200, kind)] }

theorem witness_WarrantInstructionsAreAnswered :
    (∃ (i : Instr) (s r : State) (c : Slot) (d : Reg5) (a b : Word), Asks i s r c .wqry d a b ∧ d.toNat < 24) ∧
    (∃ (i : Instr) (s r : State) (c : Slot) (d : Reg5) (a b : Word), Asks i s r c .wsplit d a b ∧ d.toNat < 24) ∧
    (∃ (i : Instr) (s r : State) (c : Slot) (d : Reg5) (a b : Word), Asks i s r c .wdeleg d a b ∧ d.toNat < 24) ∧
    (∃ (i : Instr) (s r : State) (c : Slot) (d : Reg5) (a : Word), Asks i s r c .wsurr d a 0 ∧ d.toNat < 24) ∧
    (∃ (i : Instr) (s r : State) (c : Slot) (d : Reg5) (a : Word), Asks i s r c .wreset d a 0 ∧ d.toNat < 24) ∧
    (∃ (i : Instr) (s r : State) (c : Slot) (d : Reg5) (a : Word), Asks i s r c .wpres d a 0 ∧ d.toNat < 24) ∧
    (∃ (s : State) (op : WarOp) (d : Reg5) (a b v : Word), s.cur.wait = some (.warrant op d a b (some v)) ∧ s.cur.busy = 0 ∧
      s.cur.status = .waitMsg ∧ d.toNat < 24) :=
  ⟨⟨_, _, warranted 64 (kid .run none), (warranted 64 (kid .run none)).cur, _, _, _,
      .wqry 5 1 0 (warranted 64 (kid .run none)) 64 0 (warranted 64 (kid .run none)).cur _ parent2 rfl rfl rfl (by decide), by decide⟩,
    ⟨_, _, splitting, splitting.cur, _, _, _, .wsplit 5 1 2 splitting 64 0x200 splitting.cur splitting.cur (own 0x200) parent rfl rfl
      (of_allowsAt (by decide)) rfl, by decide⟩,
    ⟨_, _, warranted 129 (kid .run none), (warranted 129 (kid .run none)).cur, _, _, _,
      .wdeleg 5 1 2 (warranted 129 (kid .run none)) 129 0x200 (warranted 129 (kid .run none)).cur _ (own 0x200, own 0x240) (kid .run none) rfl rfl
        rfl rfl, by decide⟩,
    ⟨_, _, warranted 129 (kid .run none), (warranted 129 (kid .run none)).cur, _, _,
      .wsurr 5 1 (warranted 129 (kid .run none)) 129 (warranted 129 (kid .run none)).cur (kid .run none) rfl rfl, by decide⟩,
    ⟨_, _, warranted 129 (kid .error (some dumped)), (warranted 129 (kid .error (some dumped))).cur, _, _,
      .wreset 5 1 (warranted 129 (kid .error (some dumped))) 129 (warranted 129 (kid .error (some dumped))).cur (kid .error (some dumped)) rfl rfl,
      by decide⟩,
    ⟨_, presenting 2, _, (presenting 2).cur, _, _, .wpres 5 2 (presenting 2) _ 0x200 (presenting 2).cur (own 0x200) rfl (of_allowsAt (by decide))
      ⟨by decide, by decide, by decide, by decide⟩ rfl (.inl (by decide +kernel)), by decide⟩,
    ⟨unit { slot0 with wait := some (.warrant .wqry 5 64 0 (some 9)), status := .waitMsg }, _, _, _, _, _, rfl, rfl, rfl, by decide⟩⟩

theorem witness_WarrantInstructionsAreAnswered_umpire :
    (∀ h : Fin 2, ∃ (s : State) (c : Slot) (a : Word) (x z : Ctx), UmpireFree s c x ∧ s.targetOf c a = some z ∧ z.id = h.val + 1) ∧
    (∃ (s u : State) (c : Slot) (d : Reg5) (a b : Word) (x z : Ctx) (k w : Nat) (bytes : List Byte) (who : BitVec 256), d.toNat < 24 ∧
      UmpireFree s c x ∧ s.targetOf c a = some z ∧ u = asked s c .wdeleg d a b ∧ z.sub = true ∧ z.warrant.delegOk = true ∧ z.state = .run ∧
      z.delegate = none ∧ delegCheck u u.cur b = .ok (k, w) ∧ ((u.readHomeN k 64).drop 32).all (fun e => e == 0) = true ∧
      who = BitVec.ofNat 256 (leNat ((u.readHomeN k 64).take 32)) ∧
      bytes = receiptBytes z.parentSerial z.serial who u.ownNode z.warrant.res (u.rootSerial z) ∧
      UmpireReads u k 64 ∧ (∀ e ∈ spanPoints w 128, u.bankWaking e = false ∧ u.tlbHas e = true) ∧
      ∀ y ∈ cellsAt w bytes, inMem y.1 = true ∧ u.keyHeld y.1 = true) ∧
    (∃ (s u : State) (c : Slot) (d : Reg5) (a b : Word) (x z : Ctx), d.toNat < 24 ∧ UmpireFree s c x ∧ s.targetOf c a = some z ∧
      u = asked s c .wreset d a b ∧ z.sub = true ∧ z.state = .error ∧ z.err.map (fun e => e.dumped) = some 2) := by
  refine ⟨fun h => ?_,
    ⟨warranted 129 (kid .run none), _, (warranted 129 (kid .run none)).cur, 5, 129, 0x200, parent2, kid .run none, own 0x200, own 0x240, _, _,
      by decide, ⟨rfl, rfl, rfl, rfl, by decide, by decide⟩, rfl, rfl, rfl, rfl, rfl, rfl, rfl, by decide, rfl, rfl, ⟨by decide +kernel, by decide +kernel⟩,
      by decide +kernel, delegating_held _ (by simp [receiptBytes, leBytes_length])⟩,
    ⟨warranted 129 (kid .error (some dumped)), _, (warranted 129 (kid .error (some dumped))).cur, 5, 129, 0, parent2, kid .error (some dumped),
      by decide, ⟨rfl, rfl, rfl, rfl, by decide, by decide⟩, rfl, rfl, rfl, rfl, rfl⟩⟩
  match h with
  | 0 => exact ⟨warranted 64 (kid .run none), (warranted 64 (kid .run none)).cur, 64, parent2, parent2, ⟨rfl, rfl, rfl, rfl, by decide, by decide⟩,
      rfl, rfl⟩
  | 1 => exact ⟨warranted 129 (kid .run none), (warranted 129 (kid .run none)).cur, 129, parent2, kid .run none,
      ⟨rfl, rfl, rfl, rfl, by decide, by decide⟩, rfl, rfl⟩

theorem witness_WarrantInstructionsAreAnswered_split :
    ∃ (s u : State) (c : Slot) (d : Reg5) (a b : Word) (x z : Ctx) (k ks id : Nat) (r : Resources) (lay : Layout) (g : Gxo) (t₀ : State)
      (y : Ctx) (h : Word), d.toNat < 24 ∧ UmpireFree s c x ∧ s.targetOf c a = some z ∧ u = asked s c .wsplit d a b ∧ z.state = .run ∧
      z.warrant.splitOk = true ∧ checkExtent u u.cur b 64 64 .vload = .ok k ∧ UmpireReads u k 64 ∧ r = resourcesAt (u.readHomeN k 64).toArray 0 ∧
      arrZero (u.readHomeN k 64).toArray 0x30 16 = true ∧ r.ok = true ∧ r.cls = z.res.cls ∧ z.warrant.res.latency ≤ r.latency ∧
      (∀ q ∈ (z.takes r).slots, (u.slotAt q).status = .vacant) ∧ u.uncovered z r = none ∧ u.freeKey = some ks ∧
      childLayout z r (z.takes r) = some (lay, g) ∧ (∃ n, 0 < n ∧ n < 65536 ∧ u.idUsed n = false) ∧
      u.splitOff z r ks lay g (x.id, c.phys) = (t₀, id) ∧ (t₀.ctxAt x.id).bind (fun y => y.giveHandle id) = some (h, y) := by
  obtain ⟨⟨lay, g⟩, hl⟩ := Option.isSome_iff_exists.mp
    (show (childLayout parent splitRec (parent.takes splitRec)).isSome = true by decide +kernel)
  obtain ⟨h, y, hh⟩ := splitting_handle lay g (1, 0)
  exact ⟨splitting, splitAsked, splitting.cur, 5, 64, 0x200, parent, parent, own 0x200, 0, _, splitRec, lay, g, _, y, h, by decide,
    ⟨rfl, rfl, rfl, rfl, by decide, by decide⟩, rfl, rfl, rfl, rfl, of_allowsAt (by decide), ⟨by decide +kernel, by decide +kernel⟩, by decide +kernel, by decide +kernel, by decide,
    rfl, by decide, by decide, by decide +kernel, by decide +kernel, hl, ⟨2, by decide, by decide, splitting_free⟩, rfl, hh⟩

/-- Does the check of a presentation find the image and the object at these locations? -/
def presentsAt (r : Except Refused (Nat × Nat)) (k : Nat × Nat) : Bool :=
  match r with
  | .error _ => false
  | .ok j => j == k

theorem of_presentsAt {r : Except Refused (Nat × Nat)} {k : Nat × Nat} (h : presentsAt r k = true) : r = .ok k := by
  cases r with
  | error f => cases h
  | ok j => exact congrArg _ (by simpa [presentsAt] using h)

/-- Whether the umpire then accepts the image or the receipt rests on signatures and proofs alone (the witnesses of
OpenCommandsTakeEffect). -/
theorem witness_WarrantInstructionsAreAnswered_present : ∀ n : Fin 2, ∃ (s u : State) (c : Slot) (d : Reg5) (a : Word) (x : Ctx)
    (k ki ko : Nat) (p : PresBlock), u = asked s c .wpres d a 0 ∧ UmpireFree s c x ∧ checkExtent u u.cur a 64 64 .vload = .ok k ∧
    UmpireReads u k 64 ∧ p = presBlock (u.readHomeN k 64) ∧ p.good = true ∧ presCheck u u.cur p = .ok (ki, ko) ∧ UmpireReads u ki p.size ∧
    UmpireReads u ko p.bytes.toNat ∧ p.kind = BitVec.ofNat 64 n.val := by
  intro n
  match n with
  | 0 => exact ⟨presenting 0, _, (presenting 0).cur, 5, 0x200, _, own 0x200, own 0x400, 0, _, rfl, ⟨rfl, rfl, rfl, rfl, by decide, by decide⟩,
      of_allowsAt (by decide), ⟨by decide +kernel, by decide +kernel⟩, rfl, by decide +kernel, of_presentsAt (by decide +kernel), ⟨by decide +kernel, by decide +kernel⟩, ⟨by decide +kernel, by decide +kernel⟩,
      by decide +kernel⟩
  | 1 => exact ⟨presenting 1, _, (presenting 1).cur, 5, 0x200, _, own 0x200, own 0x400, 0, _, rfl, ⟨rfl, rfl, rfl, rfl, by decide, by decide⟩,
      of_allowsAt (by decide), ⟨by decide +kernel, by decide +kernel⟩, rfl, by decide +kernel, of_presentsAt (by decide +kernel), ⟨by decide +kernel, by decide +kernel⟩, ⟨by decide +kernel, by decide +kernel⟩,
      by decide +kernel⟩

/-! ### Witnesses: vector instructions, predicates, vector memory -/

/-- The thread with one active container, 0, under m1. -/
def lane0 : Slot := { slot0 with masks := slot0.masks.setIfInBounds 1 1 }

theorem witness_IntegerVectorResults :
    (∃ (i : Instr) (regs : List Reg5) (d : Reg5) (w k : Nat) (m : BitVec 3) (f : Slot → Nat → Nat) (s : State),
      IntLanes i regs d w k m f ∧ s.cur.between ∧ ∀ r ∈ regs, r.toNat < s.cur.decl.vregs) ∧
    (∃ (i : Instr) (regs : List Reg5) (d : Reg5) (w k : Nat) (m : BitVec 3) (f : Slot → Nat → Nat) (s : State) (n : Nat),
      IntLanes i regs d w k m f ∧ s.cur.between ∧ leastBeyond s.cur.decl.vregs (regs.map (fun r => r.toNat)) = some n) :=
  ⟨⟨_, _, _, _, _, _, _, unit lane0, .vadds 31 0 31 .i64 1, ⟨rfl, rfl⟩, by decide⟩,
    ⟨_, _, _, _, _, _, _, unit { lane0 with decl := { placedDecl with vregs := 31 } }, 31, .vperm 0 31 30 .i8 0, ⟨rfl, rfl⟩, by decide⟩⟩

theorem witness_VectorElementsAsWritten : ∃ r w g i : Nat, r < 32 ∧ w ∈ [4, 8, 16, 32, 64] ∧ 0 < g ∧ r + g ≤ 32 ∧ i < g * (4096 / w) :=
  ⟨28, 4, 4, 4095, by decide⟩

theorem witness_FloatVectorResults : ∃ (i : Instr) (regs : List Reg5) (d : Reg5) (f : FFmt) (k : Nat) (m : BitVec 3)
    (F : Slot → Nat → FRes) (s : State), FloatLanes i regs d f k m F ∧ s.cur.between ∧ ∀ r ∈ regs, r.toNat < s.cur.decl.vregs :=
  ⟨_, _, _, _, _, _, _, unit lane0, .vfma 31 0 1 .f64 (.static .rup), ⟨rfl, rfl⟩, by decide⟩

theorem witness_GroupVectorResults : ∃ (i : Instr) (regs : List Nat) (d : Reg5) (g w k : Nat) (act : Slot → Nat → Bool)
    (F : Slot → Nat → FRes) (s : State), GroupLanes i regs d g w k act F ∧ s.cur.between ∧ ∀ r ∈ regs, r < s.cur.decl.vregs :=
  ⟨_, _, _, _, _, _, _, _, unit lane0, .vcvt 28 31 false .f16 none .f64 0, ⟨rfl, rfl⟩, by decide⟩

theorem witness_MaskAndScalarResults :
    (∃ (i : Instr) (regs : List Reg5) (d : Reg5) (w k : Nat) (m : BitVec 3) (F : Slot → Nat → Bool × BitVec 5) (s : State),
      VCompare i regs d w k m F ∧ s.cur.between ∧ ∀ r ∈ regs, r.toNat < s.cur.decl.vregs) ∧
    (∃ (i : Instr) (d : Reg5) (f : Slot → MaskReg), MaskOp i d f) ∧
    (∃ (s : State) (d a b : Reg5), s.cur.between ∧ d.toNat < s.cur.decl.vregs ∧ a.toNat < s.cur.decl.vregs ∧
      b.toNat < s.cur.decl.vregs ∧ d.toNat < 24 ∧ (∃ x c₁ c k, s.cur.readReg a = some (x, c₁) ∧ c₁.readReg b = some (k, c)) ∧
      ∃ n, n = 128 ∧ (∀ i, i < n → (s.cur.maskReg 7).getLsbD i = false)) :=
  ⟨⟨_, _, _, _, _, _, _, unit lane0, .vfcmpLe 7 31 0 .f64 1, ⟨rfl, rfl⟩, by decide⟩, ⟨_, _, _, .mnot 7 0⟩,
    ⟨unit lane0, 23, 1, 2, ⟨rfl, rfl⟩, by decide, by decide, by decide, by decide, ⟨_, _, _, _, rfl, rfl⟩, 128, rfl, by decide⟩⟩

/-- v0 of lane 0 is a NaN. -/
def nan0 : Slot := { lane0 with vregs := lane0.vregs.setIfInBounds 0 0x7FC00000 }

theorem witness_PredicateResults :
    (∃ (i : Instr) (p : Pred) (d a : Reg5) (f64 nf sos : Bool) (m : BitVec 3) (s : State), IsPred i p d a f64 nf sos m ∧
      s.cur.between ∧ (∀ r ∈ predRegs p d a sos, r < s.cur.decl.vregs) ∧
      (predLanes s.cur f64 m).filter (fun i => !(laneValues s.cur a.toNat (predCoords p) f64 i).all FVal.isFin) = []) ∧
    (∃ (i : Instr) (p : Pred) (d a : Reg5) (f64 nf sos : Bool) (m : BitVec 3) (s : State), IsPred i p d a f64 nf sos m ∧
      s.cur.between ∧ (∀ r ∈ predRegs p d a sos, r < s.cur.decl.vregs) ∧ nf = false ∧
      (predLanes s.cur f64 m).filter (fun i => !(laneValues s.cur a.toNat (predCoords p) f64 i).all FVal.isFin) ≠ []) :=
  ⟨⟨_, _, _, _, _, _, _, _, unit lane0, .pinsph 31 16 true true false 1, ⟨rfl, rfl⟩, by decide, by decide +kernel⟩,
    ⟨_, _, _, _, _, _, _, _, unit nan0, .pori2 31 0 false false true 1, ⟨rfl, rfl⟩, by decide, rfl, by decide +kernel⟩⟩

theorem witness_PredicateSigns :
    (∃ a b c d : Point, a.length = 2 ∧ b.length = 2 ∧ c.length = 2 ∧ d.length = 2 ∧
      (let o := fun p q r => predResult .ori2 [p, q, r] none
       o a b c * o a b d < 0 ∧ o c d a * o c d b < 0)) ∧
    (∃ a b c d : Point, a.length = 2 ∧ b.length = 2 ∧ c.length = 2 ∧ d.length = 2 ∧
      (let o := fun p q r => predResult .ori2 [p, q, r] none
       o a b c ≠ 0 ∧ o a b d ≠ 0 ∧ o c d a ≠ 0 ∧ o c d b ≠ 0 ∧ ¬(o a b c * o a b d < 0 ∧ o c d a * o c d b < 0))) ∧
    (∃ (p : Pred) (pts : List Point), p ≠ .segx ∧ (predDP p pts).1 ≠ 0) :=
  ⟨⟨[0, 0], [2, 2], [0, 2], [2, 0], rfl, rfl, rfl, rfl, by decide⟩, ⟨[0, 0], [1, 0], [5, 1], [6, 3], rfl, rfl, rfl, rfl, by decide⟩,
    ⟨.ori2, [[0, 0], [1, 0], [0, 1]], by decide, by decide⟩⟩

theorem witness_BlockConversionResult : ∃ (d a : Reg5) (s : State), s.cur.between ∧ d.toNat < s.cur.decl.vregs ∧
    a.toNat < s.cur.decl.vregs := ⟨31, 0, unit lane0, ⟨rfl, rfl⟩, by decide, by decide⟩

/-- s1 holds the address 0x100 of the own core scratchpad. -/
def based : Slot := put lane0 [(1, 0x100)]

/-- The bytes of the active elements of a store. -/
def storeCells (c : Slot) (d : Reg5) (ty : EType) (m : BitVec 3) (key : Nat → Nat) : List Host.Cell :=
  ((upTo (4096 / EType.bits ty)).filter (c.active m (EType.bits ty))).flatMap (fun j =>
    cellsAt (key j) (leBytes (EType.bits ty / 8) (vElem (c.vreg d.toNat) (EType.bits ty) j)))

theorem only0 : ∀ j, j < 128 → based.active 1 32 j = true → j = 0 := by decide

theorem witness_VectorStoreResults :
    (∃ (i : Instr) (s : State) (c : Slot) (regs : List Reg5) (d : Reg5) (ty : EType) (m : BitVec 3) (acc : Acc) (addr : Nat → Word)
      (k : Nat) (key : Nat → Nat), VAccess i s c regs d ty m true acc addr k ∧ c.between ∧ (∀ r ∈ regs, r.toNat < s.cur.decl.vregs) ∧
      (∀ j, j < 4096 / EType.bits ty → c.active m (EType.bits ty) j = true →
        resolve s c (addr j) (EType.bits ty / 8) acc = .ok (key j)) ∧
      unitGroups 64 (storeCells c d ty m key) ≠ [] ∧
      (unitGroups 64 (storeCells c d ty m key)).length ≤ 32 - s.sbCount (coreOf c.phys)) ∧
    (∃ (i : Instr) (s : State) (c : Slot) (regs : List Reg5) (d : Reg5) (ty : EType) (m : BitVec 3) (acc : Acc) (addr : Nat → Word)
      (k : Nat) (key : Nat → Nat), VAccess i s c regs d ty m true acc addr k ∧ c.between ∧ (∀ r ∈ regs, r.toNat < s.cur.decl.vregs) ∧
      (∀ j, j < 4096 / EType.bits ty → c.active m (EType.bits ty) j = true →
        resolve s c (addr j) (EType.bits ty / 8) acc = .ok (key j)) ∧ unitGroups 64 (storeCells c d ty m key) = []) ∧
    (∃ (i : Instr) (s : State) (c : Slot) (regs : List Reg5) (d : Reg5) (ty : EType) (m : BitVec 3) (acc : Acc) (addr : Nat → Word)
      (k : Nat) (key : Nat → Nat), VAccess i s c regs d ty m true acc addr k ∧ c.between ∧ (∀ r ∈ regs, r.toNat < s.cur.decl.vregs) ∧
      (∀ j, j < 4096 / EType.bits ty → c.active m (EType.bits ty) j = true →
        resolve s c (addr j) (EType.bits ty / 8) acc = .ok (key j)) ∧
      32 - s.sbCount (coreOf c.phys) < (unitGroups 64 (storeCells c d ty m key)).length) ∧
    (∃ (i : Instr) (s : State) (c : Slot) (regs : List Reg5) (d : Reg5) (ty : EType) (m : BitVec 3) (acc : Acc) (addr : Nat → Word)
      (k j : Nat) (e : TrapCause × Word), VAccess i s c regs d ty m true acc addr k ∧ c.between ∧
      (∀ r ∈ regs, r.toNat < s.cur.decl.vregs) ∧ j < 4096 / EType.bits ty ∧ c.active m (EType.bits ty) j = true ∧
      resolve s c (addr j) (EType.bits ty / 8) acc = .error e ∧
      ∀ l, l < j → c.active m (EType.bits ty) l = true → ∃ q, resolve s c (addr l) (EType.bits ty / 8) acc = .ok q) := by
  refine ⟨⟨.vsts 31 1 2 .i32 1, { unit based with sbuf := fullBuffer.drop 1 }, based, [31], 31, .i32, 1, _, _, _, fun _ => own 0x100,
      .vsts 31 1 2 .i32 1 _ 0x100 0 based based rfl rfl, ⟨rfl, rfl⟩, by decide, ?_, by decide, by decide⟩,
    ⟨.vst 31 1 .i32 2, unit based, based, [31], 31, .i32, 2, _, _, _, fun _ => own 0x100, .vst 31 1 .i32 2 _ 0x100 based rfl rfl, ⟨rfl, rfl⟩,
      by decide, ?_, by decide⟩,
    ⟨.vst 31 1 .i32 1, { unit based with sbuf := fullBuffer }, based, [31], 31, .i32, 1, _, _, _, fun _ => own 0x100,
      .vst 31 1 .i32 1 _ 0x100 based rfl rfl, ⟨rfl, rfl⟩, by decide, ?_, by decide⟩,
    ⟨.vst 31 2 .i8 0, unit (put lane0 [(2, 0x3FFFF)]), put lane0 [(2, 0x3FFFF)], [31], 31, .i8, 0, _, _, _, 1, (.bounds, 0x40000),
      .vst 31 2 .i8 0 _ 0x3FFFF _ rfl rfl, ⟨rfl, rfl⟩, by decide, by decide, by decide, of_refusedWith (by decide), ?_⟩⟩
  · intro j hj ha
    rw [only0 j hj ha]
    exact of_allowsAt (by decide)
  · intro j hj ha
    exact absurd ha (by revert j; decide)
  · intro j hj ha
    rw [only0 j hj ha]
    exact of_allowsAt (by decide)
  · intro l hl _
    obtain rfl : l = 0 := by omega
    exact ⟨own 0x3FFFF, of_allowsAt (by decide)⟩

/-- WIN0 is a window of 32-bit floats from offset 0. -/
def windowed : Slot := put { lane0 with wins := lane0.wins.setIfInBounds 0 10 } [(1, 0x100000)]

/-- WIN0 lies beyond the windows declared. -/
def undeclared : Slot := { windowed with decl := { placedDecl with windows := 0 } }

theorem witness_VectorStoreResults_window :
    (∃ (s : State) (d a : Reg5) (ty : EType) (m : BitVec 3) (base desc : Word) (c : Slot) (w o : Nat) (x : Ctx), c.between ∧
      d.toNat < s.cur.decl.vregs ∧ s.cur.readReg a = some (base, c) ∧ formatWindow s c base = some (desc, w, o, x) ∧
      (upTo (4096 / EType.bits ty)).filter (c.active m (EType.bits ty)) = []) ∧
    (∃ (s : State) (d a : Reg5) (ty : EType) (m : BitVec 3) (base desc : Word) (c : Slot) (w o : Nat) (x : Ctx), c.between ∧
      d.toNat < s.cur.decl.vregs ∧ s.cur.readReg a = some (base, c) ∧ formatWindow s c base = some (desc, w, o, x) ∧
      (upTo (4096 / EType.bits ty)).filter (c.active m (EType.bits ty)) ≠ [] ∧
      winCheck x c ty true desc base w o ((upTo (4096 / EType.bits ty)).filter (c.active m (EType.bits ty))) = none) ∧
    (∃ (s : State) (d a : Reg5) (ty : EType) (m : BitVec 3) (base desc : Word) (c : Slot) (w o : Nat) (x : Ctx) (e : TrapCause × Word),
      c.between ∧ d.toNat < s.cur.decl.vregs ∧ s.cur.readReg a = some (base, c) ∧ formatWindow s c base = some (desc, w, o, x) ∧
      (upTo (4096 / EType.bits ty)).filter (c.active m (EType.bits ty)) ≠ [] ∧
      winCheck x c ty true desc base w o ((upTo (4096 / EType.bits ty)).filter (c.active m (EType.bits ty))) = some e) :=
  ⟨⟨unit windowed, 31, 1, .f32, 2, 0x100000, 10, windowed, 0, 0, placedCtx 0, ⟨rfl, rfl⟩, by decide, rfl, by decide +kernel, by decide⟩,
    ⟨unit windowed, 31, 1, .f32, 1, 0x100000, 10, windowed, 0, 0, placedCtx 0, ⟨rfl, rfl⟩, by decide, rfl, by decide +kernel, by decide,
      by decide +kernel⟩,
    ⟨unit undeclared, 31, 1, .f32, 1, 0x100000, 10, undeclared, 0, 0, placedCtx 0, (.regdecl, 0x100), ⟨rfl, rfl⟩, by decide, rfl,
      by decide +kernel, by decide, by decide +kernel⟩⟩

theorem witness_VectorLoadResults :
    (∃ (i : Instr) (s : State) (c : Slot) (regs : List Reg5) (d : Reg5) (ty : EType) (m : BitVec 3) (acc : Acc) (addr : Nat → Word)
      (k : Nat) (key : Nat → Nat), VAccess i s c regs d ty m false acc addr k ∧ c.between ∧ (∀ r ∈ regs, r.toNat < s.cur.decl.vregs) ∧
      ∀ j, j < 4096 / EType.bits ty → c.active m (EType.bits ty) j = true →
        resolve s c (addr j) (EType.bits ty / 8) acc = .ok (key j) ∧ ownCore c (key j) = true ∧
          s.loadStalls c.phys (key j) (EType.bits ty / 8) = false ∧ s.errorAt (key j) (EType.bits ty / 8) = none) ∧
    (∃ (i : Instr) (s : State) (c : Slot) (regs : List Reg5) (d : Reg5) (ty : EType) (m : BitVec 3) (acc : Acc) (addr : Nat → Word)
      (k j : Nat) (key : Nat → Nat) (e : MemErr), VAccess i s c regs d ty m false acc addr k ∧ c.between ∧
      (∀ r ∈ regs, r.toNat < s.cur.decl.vregs) ∧
      (∀ j, j < 4096 / EType.bits ty → c.active m (EType.bits ty) j = true →
        resolve s c (addr j) (EType.bits ty / 8) acc = .ok (key j) ∧ ownCore c (key j) = true ∧
          s.loadStalls c.phys (key j) (EType.bits ty / 8) = false) ∧
      j < 4096 / EType.bits ty ∧ c.active m (EType.bits ty) j = true ∧ s.errorAt (key j) (EType.bits ty / 8) = some e ∧
      ∀ l, l < j → c.active m (EType.bits ty) l = true → s.errorAt (key l) (EType.bits ty / 8) = none) ∧
    (∃ (i : Instr) (s : State) (c : Slot) (regs : List Reg5) (d : Reg5) (ty : EType) (m : BitVec 3) (acc : Acc) (addr : Nat → Word)
      (k j : Nat) (key : Nat → Nat), VAccess i s c regs d ty m false acc addr k ∧ c.between ∧ (∀ r ∈ regs, r.toNat < s.cur.decl.vregs) ∧
      (∀ j, j < 4096 / EType.bits ty → c.active m (EType.bits ty) j = true →
        resolve s c (addr j) (EType.bits ty / 8) acc = .ok (key j)) ∧
      j < 4096 / EType.bits ty ∧ c.active m (EType.bits ty) j = true ∧ ownCore c (key j) = false) ∧
    (∃ (i : Instr) (s : State) (c : Slot) (regs : List Reg5) (d : Reg5) (ty : EType) (m : BitVec 3) (acc : Acc) (addr : Nat → Word)
      (k j : Nat) (e : TrapCause × Word), VAccess i s c regs d ty m false acc addr k ∧ c.between ∧
      (∀ r ∈ regs, r.toNat < s.cur.decl.vregs) ∧ j < 4096 / EType.bits ty ∧ c.active m (EType.bits ty) j = true ∧
      resolve s c (addr j) (EType.bits ty / 8) acc = .error e ∧
      ∀ l, l < j → c.active m (EType.bits ty) l = true → ∃ q, resolve s c (addr l) (EType.bits ty / 8) acc = .ok q) := by
  have h0 : ∀ j, j < 128 → lane0.active 1 32 j = true → j = 0 := by decide
  refine ⟨⟨.vld 31 1 .i32 1, unit based, based, [31], 31, .i32, 1, _, _, _, fun _ => own 0x100, .vld 31 1 .i32 1 _ 0x100 based rfl rfl,
      ⟨rfl, rfl⟩, by decide, ?_⟩,
    ⟨.vld 31 0 .i32 1, { unit lane0 with errs := [upset] }, lane0, [31], 31, .i32, 1, _, _, _, 0, fun _ => own 0, upset,
      .vld 31 0 .i32 1 _ 0 lane0 rfl rfl, ⟨rfl, rfl⟩, by decide, ?_, by decide, by decide, by decide, fun l hl => by omega⟩,
    ⟨.vlds 31 1 2 .i32 1, unit (put lane0 [(1, 0x1000000000000)]), put lane0 [(1, 0x1000000000000)], [31], 31, .i32, 1, _, _, _, 0,
      fun _ => keyOf Space.dev 1 0, .vlds 31 1 2 .i32 1 _ 0x1000000000000 0 _ _ rfl rfl, ⟨rfl, rfl⟩, by decide, ?_, by decide, by decide, by decide⟩,
    ⟨.vldx 31 1 0 .i32 1, unit (put lane0 [(1, 2)]), put lane0 [(1, 2)], [31, 0], 31, .i32, 1, _, _, _, 0, (.misalign, 2),
      .vldx 31 1 0 .i32 1 _ 2 _ rfl, ⟨rfl, rfl⟩, by decide, by decide, by decide, of_refusedWith (by decide +kernel), fun l hl => by omega⟩⟩
  · intro j hj ha
    rw [h0 j hj ha]
    exact ⟨of_allowsAt (by decide), by decide, by decide, by decide⟩
  · intro j hj ha
    rw [h0 j hj ha]
    exact ⟨of_allowsAt (by decide), by decide, by decide⟩
  · intro j hj ha
    rw [h0 j hj ha]
    exact of_allowsAt (by decide)

theorem witness_VectorLoadResults_window :
    (∃ (s : State) (d a : Reg5) (ty : EType) (m : BitVec 3) (base desc : Word) (c : Slot) (w o : Nat) (x : Ctx), c.between ∧
      d.toNat < s.cur.decl.vregs ∧ s.cur.readReg a = some (base, c) ∧ formatWindow s c base = some (desc, w, o, x) ∧
      (upTo (4096 / EType.bits ty)).filter (c.active m (EType.bits ty)) = []) ∧
    (∃ (s : State) (d a : Reg5) (ty : EType) (m : BitVec 3) (base desc : Word) (c : Slot) (w o : Nat) (x : Ctx), c.between ∧
      d.toNat < s.cur.decl.vregs ∧ s.cur.readReg a = some (base, c) ∧ formatWindow s c base = some (desc, w, o, x) ∧
      (upTo (4096 / EType.bits ty)).filter (c.active m (EType.bits ty)) ≠ [] ∧
      winCheck x c ty false desc base w o ((upTo (4096 / EType.bits ty)).filter (c.active m (EType.bits ty))) = none ∧
      ∀ j ∈ (upTo (4096 / EType.bits ty)).filter (c.active m (EType.bits ty)), ∀ k ∈ winKeys x c desc o j,
        ownCore c k.1 = true ∧ s.loadStalls c.phys k.1 k.2 = false ∧ s.errorAt k.1 k.2 = none) ∧
    (∃ (s : State) (d a : Reg5) (ty : EType) (m : BitVec 3) (base desc : Word) (c : Slot) (w o : Nat) (x : Ctx) (e : TrapCause × Word),
      c.between ∧ d.toNat < s.cur.decl.vregs ∧ s.cur.readReg a = some (base, c) ∧ formatWindow s c base = some (desc, w, o, x) ∧
      (upTo (4096 / EType.bits ty)).filter (c.active m (EType.bits ty)) ≠ [] ∧
      winCheck x c ty false desc base w o ((upTo (4096 / EType.bits ty)).filter (c.active m (EType.bits ty))) = some e) :=
  ⟨⟨unit windowed, 31, 1, .f32, 2, 0x100000, 10, windowed, 0, 0, placedCtx 0, ⟨rfl, rfl⟩, by decide, rfl, by decide +kernel, by decide⟩,
    ⟨unit windowed, 31, 1, .f32, 1, 0x100000, 10, windowed, 0, 0, placedCtx 0, ⟨rfl, rfl⟩, by decide, rfl, by decide +kernel, by decide,
      by decide +kernel, by decide +kernel⟩,
    ⟨unit undeclared, 31, 1, .f32, 1, 0x100000, 10, undeclared, 0, 0, placedCtx 0, (.regdecl, 0x100), ⟨rfl, rfl⟩, by decide, rfl,
      by decide +kernel, by decide, by decide +kernel⟩⟩

/-! ### Witnesses: counters, referee instructions, transfers, matrix commands -/

/-- Context 1 allowing no counter event. -/
def closed : Ctx := { placedCtx 0 with warrant := { placedWarrant with allow := 0 } }

theorem witness_CountsTimesAndQueueStates :
    (∃ (s : State) (e : BitVec 8) (x : Ctx), s.ctxOf s.cur = some x ∧ (eventListed e.toNat && x.warrant.allow.getLsbD e.toNat) = false) ∧
    (∃ (s : State) (e : BitVec 8) (x : Ctx), s.ctxOf s.cur = some x ∧
      (eventListed e.toNat && x.warrant.allow.getLsbD e.toNat) = true ∧ e.toNat < 0x80) ∧
    (∃ (s : State) (d : Reg5) (e : BitVec 8) (x : Ctx), s.ctxOf s.cur = some x ∧
      (eventListed e.toNat && x.warrant.allow.getLsbD e.toNat) = true ∧ 0x80 ≤ e.toNat ∧ d.toNat < 24 ∧ s.cur.busy = 0) :=
  ⟨⟨{ unit slot0 with ctxs := [closed] }, 0, closed, rfl, by decide⟩, ⟨unit slot0, 0, _, rfl, by decide, by decide⟩,
    ⟨unit slot0, 23, 0x80, _, rfl, by decide, by decide, by decide, rfl⟩⟩

/-- A referee core's thread. -/
def refThread : Slot := { Slot.vacant 0 with ref := true, status := .ready }

/-- An item that the inbox of core 0 holds. -/
def refItem : RefItem := { core := 0, node := 1, kind := 0, bytes := [5] }

theorem witness_RefereeInstructionResults :
    (∃ (s : State) (d a : Reg5) (x : Word) (c : Slot), s.cur.readReg a = some (x, c) ∧ destReason s c d = none ∧ x.toNat % 64 ≠ 0) ∧
    (∃ (s : State) (d a : Reg5) (x : Word) (c : Slot), s.cur.readReg a = some (x, c) ∧ destReason s c d = none ∧ x.toNat % 64 = 0 ∧
      ∀ i ∈ s.inbox, i.core ≠ coreOf c.phys) ∧
    (∃ (s : State) (d a : Reg5) (x : Word) (c : Slot) (i : RefItem), s.cur.readReg a = some (x, c) ∧ destReason s c d = none ∧
      x.toNat % 64 = 0 ∧ s.inbox.find? (fun i => i.core == coreOf c.phys) = some i ∧ 0x40000 < x.toNat + min 32768 i.bytes.length) ∧
    (∃ (s : State) (d a : Reg5) (x : Word) (c : Slot) (i : RefItem), s.cur.readReg a = some (x, c) ∧ destReason s c d = none ∧
      x.toNat % 64 = 0 ∧ s.inbox.find? (fun i => i.core == coreOf c.phys) = some i ∧
      x.toNat + min 32768 i.bytes.length ≤ 0x40000 ∧ d.toNat < 24 ∧ i.bytes ≠ []) ∧
    (∃ (s : State) (d : Reg5), destReason s s.cur d = none ∧ s.signals (coreOf s.cur.phys) ≠ 0 ∧ d.toNat < 24) ∧
    (∃ (s : State) (d : Reg5), destReason s s.cur d = none ∧ s.signals (coreOf s.cur.phys) = 0) ∧
    (∃ (s : State) (d a b : Reg5) (x n : Word) (c₁ c : Slot), s.cur.readReg a = some (x, c₁) ∧ c₁.readReg b = some (n, c) ∧
      d.toNat < 24 ∧ 16 ≤ n.toNat ∧ n.toNat ≤ 32768 ∧ x.toNat + n.toNat ≤ 0x40000 ∧ s.dispatchReady c = true) ∧
    (∃ (s : State) (d a b : Reg5) (x n : Word) (c₁ c : Slot), s.cur.readReg a = some (x, c₁) ∧ c₁.readReg b = some (n, c) ∧
      d.toNat < 24 ∧ 16 ≤ n.toNat ∧ n.toNat ≤ 32768 ∧ x.toNat + n.toNat ≤ 0x40000 ∧ s.dispatchReady c = false) :=
  ⟨⟨unit (put refThread [(1, 63)]), 23, 1, _, _, rfl, by decide, by decide⟩,
    ⟨unit (put refThread [(1, 64)]), 23, 1, _, _, rfl, by decide, by decide, by decide⟩,
    ⟨{ unit (put refThread [(1, 0x40000)]) with inbox := [refItem] }, 23, 1, _, _, refItem, rfl, by decide, by decide, rfl, by decide⟩,
    ⟨{ unit (put refThread [(1, 0x3FFC0)]) with inbox := [refItem] }, 23, 1, _, _, refItem, rfl, by decide, by decide, rfl, by decide, by decide,
      by decide⟩,
    ⟨{ unit refThread with refEvents := [(0, 2)] }, 23, by decide, by decide, by decide⟩, ⟨unit refThread, 23, by decide, by decide⟩,
    ⟨unit (put refThread [(1, 0x38000), (2, 32768)]), 23, 1, 2, _, _, _, _, rfl, rfl, by decide, by decide, by decide, by decide, by decide⟩,
    ⟨{ unit (put refThread [(1, 0x38000), (2, 32768)]) with sbuf := fullBuffer.take 1 }, 23, 1, 2, _, _, _, _, rfl, rfl, by decide, by decide,
      by decide, by decide, by decide⟩⟩

theorem witness_RefereeInstructionResults_keys :
    (∃ (s : State) (d a b : Reg5) (k o : Word) (c₁ c : Slot), s.cur.readReg a = some (k, c₁) ∧ c₁.readReg b = some (o, c) ∧
      d.toNat < 24 ∧ 2 ^ 26 ≤ o.toNat) ∧
    (∃ (s : State) (d a b : Reg5) (k o : Word) (c₁ c : Slot), s.cur.readReg a = some (k, c₁) ∧ c₁.readReg b = some (o, c) ∧
      d.toNat < 24 ∧ o.toNat < 2 ^ 26 ∧ (k = 0 ∨ k.toNat + 64 ≤ 0x40000) ∧ c.busy = 0 ∧ c.phys = s.cur.phys) ∧
    (∃ (s : State) (ctx : Nat) (x : Ctx), s.ctxAt ctx = some x) :=
  ⟨⟨unit (put refThread [(2, 2 ^ 26)]), 23, 1, 2, _, _, _, _, rfl, rfl, by decide, by decide⟩,
    ⟨unit (put refThread [(1, 0x3FFC0), (2, 2 ^ 26 - 1)]), 23, 1, 2, _, _, _, _, rfl, rfl, by decide, by decide, .inr (by decide), rfl, rfl⟩,
    ⟨unit slot0, 1, placedCtx 0, rfl⟩⟩

/-! ### Witnesses: movement, collectives, messages and matrix units -/

/-- Channel 0 of core 0, held by context 1. -/
def chan0 : Chan := { core := 0, ch := 0, ctx := 1, base := 0, len := 0, wm := 0, pend := 0, filled := [], next := none }

/-- A copy of 32 bytes from 0x100 to 0x200. -/
def copying : State := { unit (put slot0 [(1, 0x200), (2, 0x100), (3, 32)]) with chans := [chan0] }

/-- A gather of one element of 16 bytes, its descriptor at 0x300. -/
def gathering : State :=
  { unit (put slot0 [(1, 0x200), (2, 0x300), (3, 1)]) with
      chans := [chan0], mem := [(own 0x301, 4), (own 0x309, 5), (own 0x30F, 0x40)] }

/-- A strided copy of one row of 16 bytes, its descriptor at 0x300. -/
def striding : State :=
  { unit (put slot0 [(1, 0x200), (2, 0x100), (3, 0x300)]) with
      chans := [chan0], mem := [(own 0x300, 1), (own 0x308, 16), (own 0x310, 16), (own 0x318, 16)] }

/-- A multicast of 16 bytes at 0x100 to the one receiver of the list at 0x300. -/
def casting : State :=
  unit (put slot0 [(1, 0x100), (2, 0x300), (3, 1)])

/-- A halo of one row of 16 bytes to the north, its descriptor at 0x300. -/
def haloing : State :=
  { unit (put slot0 [(1, 0x300), (2, 1)]) with
      mem := [(own 0x301, 1), (own 0x309, 2), (own 0x310, 16), (own 0x318, 16), (own 0x31C, 16)] }

/-- The descriptors that the thread reads are awake and sound, and the state after it has counted them. -/
def descRead (s : State) (spans : List (Word × Nat)) : State :=
  s.noteBlocks 1 (spans.flatMap (fun e => descKeys (placedCtx 0) s.cur e.1 e.2)) false

theorem of_descReads {s : State} {spans : List (Word × Nat)}
    (h : spans.all (fun e => (descKeys (placedCtx 0) s.cur e.1 e.2).all (fun k => !s.bankWaking k) &&
      (s.errorAt ((descKeys (placedCtx 0) s.cur e.1 1).headD 0) e.2).isNone) = true) :
    DescReads s (placedCtx 0) s.cur spans (descRead s spans) := by
  refine ⟨fun e he => ?_, rfl⟩
  have := List.all_eq_true.mp h e he
  simp only [Bool.and_eq_true, List.all_eq_true, Bool.not_eq_true', Option.isNone_iff_eq_none] at this
  exact this

theorem witness_TransferRequestsAreEntered :
    (∃ (i : Instr) (s r : State) (c : Slot) (x : Xfer), Requests i s r c x ∧ x.kind.byCaddie = true ∧
      c.mbox.findIdx? (fun e => e.full == Vector.replicate 4 false) = some 0) ∧
    (∃ (i : Instr) (s r : State) (c : Slot) (x : Xfer), Requests i s r c x ∧ x.kind.byCaddie = true ∧
      c.mbox.findIdx? (fun e => e.full == Vector.replicate 4 false) = none) ∧
    (∃ (i : Instr) (s r : State) (c : Slot) (x : Xfer), Requests i s r c x ∧ x.kind.byCaddie = false ∧ c.q4cmd < 4) ∧
    (∃ (i : Instr) (s r : State) (c : Slot) (x : Xfer), Requests i s r c x ∧ x.kind.byCaddie = false ∧ 4 ≤ c.q4cmd) :=
  ⟨⟨_, copying, _, copying.cur, _,
      .cpy 3 1 2 0 copying 0x200 0x100 32 copying.cur copying.cur copying.cur (placedCtx 0) chan0 rfl rfl rfl rfl rfl (by decide) (by decide)
        (by decide) (by decide) (by decide) (by decide), rfl, rfl⟩,
    ⟨_, { copying with cur := { copying.cur with mbox := [] } }, _, { copying.cur with mbox := [] }, _,
      .cpy 3 1 2 0 { copying with cur := { copying.cur with mbox := [] } } 0x200 0x100 32 _ _ { copying.cur with mbox := [] } (placedCtx 0) chan0
        rfl rfl rfl rfl rfl (by decide) (by decide) (by decide) (by decide) (by decide) (by decide), rfl, rfl⟩,
    ⟨_, gathering, descRead gathering [(0x300, 16)], gathering.cur, _,
      .gath 3 1 2 0 gathering _ 0x200 0x300 1 4 0x500 gathering.cur gathering.cur gathering.cur (placedCtx 0) chan0 rfl rfl rfl rfl rfl
        (by decide) (of_descReads (by decide)) (by decide +kernel) (by decide +kernel) (by decide +kernel) (by decide) (by decide) (by decide)
        (by decide) (by decide +kernel) (fun _ => by decide +kernel) (by decide +kernel), rfl, by decide⟩,
    ⟨_, { gathering with cur := { gathering.cur with q4cmd := 4 } }, descRead { gathering with cur := { gathering.cur with q4cmd := 4 } } [(0x300, 16)],
      { gathering.cur with q4cmd := 4 }, _,
      .gath 3 1 2 0 { gathering with cur := { gathering.cur with q4cmd := 4 } } _ 0x200 0x300 1 4 0x500 _ _
        { gathering.cur with q4cmd := 4 } (placedCtx 0) chan0 rfl rfl rfl rfl rfl
        (by decide) (of_descReads (by decide)) (by decide +kernel) (by decide +kernel) (by decide +kernel) (by decide) (by decide) (by decide)
        (by decide) (by decide +kernel) (fun _ => by decide +kernel) (by decide +kernel), rfl, by decide⟩⟩

/-- The other three kinds of request. -/
theorem witness_TransferRequests_others :
    (∃ (s r : State) (x : Xfer), Requests (.cpys 3 1 2 0) s r s.cur x) ∧
    (∃ (s r : State) (x : Xfer), Requests (.mcast 3 1 2) s r s.cur x) ∧
    (∃ (s r : State) (x : Xfer), Requests (.halo 1 2) s r s.cur x) :=
  ⟨⟨striding, _, _, .cpys 3 1 2 0 striding (descRead striding [(0x300, 32)]) 0x200 0x100 0x300 1 16 16 16 striding.cur striding.cur striding.cur
      (placedCtx 0) chan0 rfl rfl rfl rfl rfl (by decide) (of_descReads (by decide)) (by decide +kernel) (by decide +kernel) (by decide +kernel)
      (by decide +kernel) (by decide) (by decide) (by decide) (by decide) rfl rfl rfl rfl rfl (by decide +kernel) (by decide +kernel)⟩,
    ⟨casting, _, _, .mcast 3 1 2 casting (descRead casting [(0x300, 8), (0x308, 8)]) 0x100 0x300 1 [0] casting.cur casting.cur casting.cur
      (placedCtx 0) rfl rfl rfl rfl (by decide) (by decide) (of_descReads (by decide)) (by decide +kernel) (by decide +kernel) rfl
      (by decide +kernel)⟩,
    ⟨haloing, _, _, .halo 1 2 haloing (descRead haloing [(0x300, 128)]) 0x300 1 haloing.cur haloing.cur (placedCtx 0) rfl rfl rfl (by decide)
      (of_descReads (by decide)) (by decide) (by decide) (by decide +kernel)⟩⟩

theorem witness_ChannelRangesAndWaits :
    (∃ (s : State) (a b : Reg5) (ch : BitVec 3) (base n : Word) (c₁ c : Slot) (x : Ctx) (h : Chan), s.cur.readReg a = some (base, c₁) ∧
      c₁.readReg b = some (n, c) ∧ s.ctxOf c = some x ∧ s.chanOf c ch.toNat = some h ∧ n.toNat ≤ 4194304 ∧ base.toNat % 16 = 0 ∧
      n.toNat % 16 = 0 ∧ rangeCheck s x c base n.toNat true true = none ∧ s.chanBusy h.core h.ch = false ∧ 0 < n.toNat) ∧
    (∃ (s : State) (a b : Reg5) (ch : BitVec 3) (base n : Word) (c₁ c : Slot) (x : Ctx) (h : Chan), s.cur.readReg a = some (base, c₁) ∧
      c₁.readReg b = some (n, c) ∧ s.ctxOf c = some x ∧ s.chanOf c ch.toNat = some h ∧ n.toNat ≤ 4194304 ∧ base.toNat % 16 = 0 ∧
      n.toNat % 16 = 0 ∧ rangeCheck s x c base n.toNat true true = none ∧ s.chanBusy h.core h.ch = true) ∧
    (∃ (s : State) (a b : Reg5) (ch : BitVec 3) (base n : Word) (c₁ c : Slot) (x : Ctx) (h : Chan), s.cur.readReg a = some (base, c₁) ∧
      c₁.readReg b = some (n, c) ∧ s.ctxOf c = some x ∧ s.chanOf c ch.toNat = some h ∧
      rangeCheck s x c base n.toNat true true = none ∧ s.chanBusy h.core h.ch = false ∧ n = 0) ∧
    (∃ (s : State) (a : Reg5) (ch : BitVec 3) (v : Word) (c : Slot), s.cur.readReg a = some (v, c) ∧ s.chanOf c ch.toNat = none) ∧
    (∃ (s : State) (a : Reg5) (ch : BitVec 3) (v : Word) (c : Slot) (h : Chan), s.cur.readReg a = some (v, c) ∧
      s.chanOf c ch.toNat = some h ∧ h.pend = v.toNat) ∧
    (∃ (s : State) (a : Reg5) (ch : BitVec 3) (v : Word) (c : Slot) (h : Chan), s.cur.readReg a = some (v, c) ∧
      s.chanOf c ch.toNat = some h ∧ v.toNat + 1 = h.pend) ∧
    (∃ (s : State) (a b : Reg5) (dir n : Word) (c₁ c : Slot), s.cur.readReg a = some (dir, c₁) ∧ c₁.readReg b = some (n, c) ∧
      n.toNat % 2 ^ 32 = ((c.halo[dir.toNat % 4]?).getD 0).toNat) ∧
    (∃ (s : State) (a b : Reg5) (dir n : Word) (c₁ c : Slot), s.cur.readReg a = some (dir, c₁) ∧ c₁.readReg b = some (n, c) ∧
      ((c.halo[dir.toNat % 4]?).getD 0).toNat + 1 = n.toNat % 2 ^ 32) :=
  ⟨⟨copying, 1, 3, 0, 0x200, 32, copying.cur, copying.cur, placedCtx 0, chan0, rfl, rfl, rfl, rfl, by decide, by decide, by decide, by decide,
      rfl, by decide⟩,
    ⟨{ copying with xfers := [newXfer .cpy copying.cur 0 []] }, 1, 3, 0, 0x200, 32, copying.cur, copying.cur, placedCtx 0, chan0, rfl, rfl, rfl,
      rfl, by decide, by decide, by decide, by decide, rfl⟩,
    ⟨copying, 1, 4, 0, 0x200, 0, copying.cur, copying.cur, placedCtx 0, chan0, rfl, rfl, rfl, rfl, by decide, rfl, rfl⟩,
    ⟨copying, 1, 7, _, copying.cur, rfl, rfl⟩,
    ⟨copying, 4, 0, _, copying.cur, chan0, rfl, rfl, rfl⟩,
    ⟨{ copying with chans := [{ chan0 with pend := 1 }] }, 4, 0, _, copying.cur, { chan0 with pend := 1 }, rfl, rfl, rfl⟩,
    ⟨copying, 3, 4, _, _, _, _, rfl, rfl, rfl⟩,
    ⟨{ copying with cur := put slot0 [(1, 7), (2, 1)] }, 1, 2, _, _, _, _, rfl, rfl, rfl⟩⟩

/-- A copy of 16 bytes from 0x100 to 0x200, as entered. -/
def copy0 : Xfer := { newXfer .cpy slot0 0 [] with src := 0x100, dst := 0x200, rowLen := 16, bytes := 16 }

/-- A gather of one element of 16 bytes, as entered. -/
def gath0 : Xfer := { newXfer .gath slot0 0 [] with src := 0x400, dst := 0x200, rowLen := 16, idx := 0x500, bytes := 16 }

/-- A halo of one direction. -/
def dir0 (done : Bool) : HaloDir :=
  { dir := 0, src := 0x100, lcore := 0, off := 0x200, recv := 0, rowLen := 16, rows := 1, sstr := 16, dstr := 16, begun := done, done := done,
    status := 0, landed := if done then 16 else 0, data := [] }

/-- The halo, in its engine. -/
def halo0 (done : Bool) : Xfer := { newXfer .halo slot0 0 [] with halos := [dir0 done], taken := true }

/-- A multicast to one receiver, in its engine. -/
def mcast0 : Xfer :=
  { newXfer .mcast slot0 0 [] with src := 0x100, rowLen := 16, bytes := 16, taken := true, dests := [{ j := 0, lcore := 0, clus := false, off := 0 }] }

/-- A module with one transfer. -/
def moving (t : Xfer) : State := { unit slot0 with chans := [chan0], xfers := [t] }

/-- The conditions that every event of a transfer's engine has. -/
def Engaged (t : Xfer) : Prop :=
  (moving t).xfers[0]? = some t ∧ (moving t).ctxAt t.ctx = some (placedCtx 0) ∧ (moving t).clusOpen t.ctx (t.core / 8) = true

theorem of_mayRead {s : State} {core : Nat} {ks : List Nat}
    (h : ks.all (fun k => s.engOpen core k && s.tlbHit k && (s.errorAt k 1).isNone) = true) : MayRead s core ks := by
  intro k hk
  have := List.all_eq_true.mp h k hk
  simp only [Bool.and_eq_true, Option.isNone_iff_eq_none] at this
  exact ⟨this.1.1, this.1.2, this.2⟩

theorem of_mayWrite {s : State} {core : Nat} {ks : List Nat} (h : ks.all (fun k => s.engMayWrite core k && s.tlbHit k) = true) :
    MayWrite s core ks := by
  intro k hk
  have := List.all_eq_true.mp h k hk
  simp only [Bool.and_eq_true] at this
  exact this

/-- The copy in a cycle of its caddie's turn. -/
def turning : State := { moving copy0 with cycle := 7 }

theorem witness_EnginesCarryOutTransfers_take :
    slotNo copy0.slot < 7 ∧ turning.takable copy0.slot = some copy0 ∧ (turning.inProgress (coreOf copy0.slot)).length < 4 ∧
    turning.cycle.toNat % 8 = 7 ∧ (∀ e ∈ turning.caddies, e.1 = coreOf copy0.slot → e.2.2 ≠ turning.cycle) ∧
    (∀ p, coreOf p = coreOf copy0.slot → slotNo p < 7 → p ≠ copy0.slot → turning.takable p = none) ∧
    (∀ x, turning.ctxAt copy0.ctx = some x → copy0.kind = .cpy ∨ copy0.kind = .cpys →
      CaddieReads turning (coreOf copy0.slot) ((copy0.keys turning x (turning.xferSlot copy0) copy0.bytes).1.map (fun k => k.1))) := by
  refine ⟨by decide, by decide, by decide, by decide, by decide, fun p _ _ h => ?_, fun x hx _ => ?_⟩
  · have hp : (0 == p) = false := by simpa using fun e : 0 = p => h e.symm
    show (match List.find? (fun x : Xfer => x.slot == p && x.kind.byCaddie && !x.taken) [copy0] with
      | none => none
      | some x => _) = none
    rw [List.find?_cons_of_neg (by show ¬((0 == p) && _ && _) = true; rw [hp]; simp)]
    rfl
  · obtain rfl : placedCtx 0 = x := Option.some.inj hx
    exact ⟨of_mayRead (by decide), by decide⟩

theorem witness_EnginesCarryOutTransfers_copy :
    (∀ m : Fin 2, ∃ t kd, Engaged t ∧ t.kind = .cpy ∧ t.taken = true ∧ t.data.length = 8 + m.val ∧
      engResolve (moving t) (placedCtx 0) ((moving t).xferSlot t) (t.place t.landed).2 true = .ok kd ∧
      MayWrite (moving t) t.core (spanKeys kd (eventBytes kd t.data.length)) ∧ eventBytes kd t.data.length = 8 ∧
      (moving t).feq = [] ∧ (∀ y ∈ spanKeys kd 8, inMem y = true) ∧ t.status = 0) ∧
    (∃ t e, Engaged t ∧ t.kind = .cpys ∧ t.taken = true ∧ t.data ≠ [] ∧
      engResolve (moving t) (placedCtx 0) ((moving t).xferSlot t) (t.place t.landed).2 true = .error e) ∧
    (∃ t, Engaged t ∧ t.taken = true ∧ (moving t).recordNext t = true ∧ t.kind = .cpy ∧ t.data = [] ∧ t.status = 0) ∧
    (∃ t, Engaged t ∧ t.taken = true ∧ (moving t).recordNext t = true ∧ t.kind = .cpys ∧ t.data = [] ∧ t.status ≠ 0) ∧
    (∃ t, Engaged t ∧ t.taken = true ∧ (moving t).recordNext t = true ∧ t.kind = .cpy ∧ t.nextInHost = true) :=
  ⟨fun m => match m with
    | 0 => ⟨{ copy0 with taken := true, data := List.replicate 8 7 }, own 0x200, ⟨rfl, rfl, by decide⟩, rfl, rfl, rfl, of_allowsAt (by decide),
        of_mayWrite (by decide), by decide, rfl, by decide, rfl⟩
    | 1 => ⟨{ copy0 with taken := true, data := List.replicate 9 7 }, own 0x200, ⟨rfl, rfl, by decide⟩, rfl, rfl, rfl, of_allowsAt (by decide),
        of_mayWrite (by decide), by decide, rfl, by decide, rfl⟩,
    ⟨{ copy0 with kind := .cpys, taken := true, dst := 0x40000, data := [7] }, (.bounds, 0x40000), ⟨rfl, rfl, by decide⟩, rfl, rfl, by decide,
      of_refusedWith (by decide)⟩,
    ⟨{ copy0 with taken := true, landed := 16 }, ⟨rfl, rfl, by decide⟩, rfl, by decide, rfl, rfl, rfl⟩,
    ⟨{ copy0 with kind := .cpys, taken := true, status := 2 }, ⟨rfl, rfl, by decide⟩, rfl, by decide, rfl, rfl, by decide⟩,
    ⟨{ copy0 with taken := true, src := 0x100000000000000 }, ⟨rfl, rfl, by decide⟩, rfl, by decide, rfl, by decide⟩⟩

theorem witness_EnginesCarryOutTransfers_halo :
    (∃ t, Engaged t ∧ t.taken = true ∧ (moving t).recordNext t = true ∧ t.kind = .halo ∧ t.halos.all (fun h => h.done) = true) ∧
    (∃ t, Engaged t ∧ t.taken = true ∧ (moving t).recordNext t = true ∧ t.kind = .mcast ∧ t.begun = true ∧ t.dests = []) ∧
    (∃ t src, Engaged t ∧ t.taken = true ∧ t.kind = .mcast ∧ t.begun = false ∧ mcastSrc (moving t) (placedCtx 0) t = .ok src ∧
      CaddieReads (moving t) t.core src) ∧
    (∃ t d rest, Engaged t ∧ t.taken = true ∧ t.kind = .mcast ∧ t.begun = true ∧ t.dests = d :: rest ∧ mcastKey (placedCtx 0) t d = none) ∧
    (∀ full : Bool, ∃ t d rest q, ∃ s : State, s.xfers[0]? = some t ∧ s.ctxAt t.ctx = some (placedCtx 0) ∧ s.clusOpen t.ctx (t.core / 8) = true ∧
      t.taken = true ∧ t.kind = .mcast ∧ t.begun = true ∧ t.dests = d :: rest ∧ mcastKey (placedCtx 0) t d = some q ∧
      MayWrite s t.core (spanKeys q t.data.length) ∧ s.isFull q = full) :=
  ⟨⟨halo0 true, ⟨rfl, rfl, by decide⟩, rfl, by decide, rfl, by decide⟩,
    ⟨{ mcast0 with begun := true, dests := [] }, ⟨rfl, rfl, by decide⟩, rfl, by decide, rfl, rfl, rfl⟩,
    ⟨mcast0, spanKeys (own 0x100) 16, ⟨rfl, rfl, by decide⟩, rfl, rfl, rfl, rfl, of_mayRead (by decide), by decide⟩,
    ⟨{ mcast0 with begun := true, dests := [{ j := 0, lcore := 9, clus := false, off := 0 }] }, _, _, ⟨rfl, rfl, by decide⟩, rfl, rfl, rfl, rfl,
      by decide⟩,
    fun full => match full with
    | true => ⟨{ mcast0 with begun := true, data := List.replicate 16 7 }, _, _, own 0,
        { moving { mcast0 with begun := true, data := List.replicate 16 7 } with full := [own 0 / 16] }, rfl, rfl, by decide, rfl, rfl, rfl, rfl, rfl,
        of_mayWrite (by decide), by decide⟩
    | false => ⟨{ mcast0 with begun := true, data := List.replicate 16 7 }, _, _, own 0,
        moving { mcast0 with begun := true, data := List.replicate 16 7 }, rfl, rfl, by decide, rfl, rfl, rfl, rfl, rfl,
        of_mayWrite (by decide), by decide⟩⟩

/-- A direction of the halo that has been read: with bytes to land, with a refused row, and with all of it landed. -/
theorem witness_EnginesCarryOutTransfers_direction :
    (∃ (t : Xfer) (h : HaloDir), Engaged t ∧ t.halos.find? (fun h => h.dir == 0 && !h.done) = some h ∧ t.taken = true ∧ h.begun = false ∧
      CaddieReads (moving t) t.core ((h.keys (moving t) (placedCtx 0) ((moving t).xferSlot t) t).1.map (fun e => e.1))) ∧
    (∃ (t : Xfer) (h : HaloDir) (kd : Nat), Engaged t ∧ t.halos.find? (fun h => h.dir == 0 && !h.done) = some h ∧ t.taken = true ∧
      h.begun = true ∧ h.data.length = 9 ∧
      haloResolve (moving t) (placedCtx 0) ((moving t).xferSlot t) h.lcore ((h.rowsOf t).place h.landed).2 = .ok kd ∧
      eventBytes kd 9 = 8 ∧ MayWrite (moving t) t.core (spanKeys kd 8) ∧ (moving t).feq = [] ∧ (∀ y ∈ spanKeys kd 8, inMem y = true)) ∧
    (∃ (t : Xfer) (h : HaloDir) (e : Refused), Engaged t ∧ t.halos.find? (fun h => h.dir == 0 && !h.done) = some h ∧ t.taken = true ∧
      h.begun = true ∧ h.data ≠ [] ∧
      haloResolve (moving t) (placedCtx 0) ((moving t).xferSlot t) h.lcore ((h.rowsOf t).place h.landed).2 = .error e) ∧
    (∃ (t : Xfer) (h : HaloDir), Engaged t ∧ t.halos.find? (fun h => h.dir == 0 && !h.done) = some h ∧ t.taken = true ∧
      h.begun = true ∧ h.data = [] ∧ h.status = 0) :=
  ⟨⟨halo0 false, dir0 false, ⟨rfl, rfl, by decide⟩, by decide, rfl, rfl, of_mayRead (by decide), by decide⟩,
    ⟨{ halo0 false with halos := [{ dir0 false with begun := true, data := List.replicate 9 7 }] }, _, own 0x200, ⟨rfl, rfl, by decide⟩, rfl, rfl,
      rfl, rfl, of_allowsAt (by decide), by decide, of_mayWrite (by decide), rfl, by decide⟩,
    ⟨{ halo0 false with halos := [{ dir0 false with begun := true, data := [7], lcore := 9 }] }, _, _, ⟨rfl, rfl, by decide⟩, rfl, rfl,
      rfl, by decide, rfl⟩,
    ⟨{ halo0 false with halos := [{ dir0 false with begun := true, landed := 16 }] }, _, ⟨rfl, rfl, by decide⟩, rfl, rfl, rfl, rfl, rfl⟩⟩

/-- An element's fetch gives an index's place, its address, its locations and a status. -/
def elemIs (r : Except Nat (Nat × Word × List (Nat × Nat) × Nat)) (v : Nat × Word × List (Nat × Nat) × Nat) : Bool :=
  match r with
  | .ok w => w == v
  | .error _ => false

theorem of_elemIs {r : Except Nat (Nat × Word × List (Nat × Nat) × Nat)} {v : Nat × Word × List (Nat × Nat) × Nat} (h : elemIs r v = true) :
    r = .ok v := by
  cases r with
  | ok w => exact congrArg _ (by simpa [elemIs] using h)
  | error e => cases h

/-- The locations of the first element of the gather. -/
def elem0 : List (Nat × Nat) := (upTo 16).map (fun i => (own (0x400 + i), own (0x200 + i)))

theorem witness_EnginesCarryOutTransfers_gather :
    (∃ t ki src ks, Engaged t ∧ t.kind = .gath ∧ t.data = [] ∧ t.status = 0 ∧ t.landed < t.bytes ∧ (moving t).gatherFirst t = true ∧
      gatherElem (moving t) (placedCtx 0) t = .ok (ki, src, ks, 0) ∧ MayRead (moving t) t.core (spanKeys ki 4 ++ ks.map (fun e => e.1))) ∧
    (∃ t kd, Engaged t ∧ t.kind = .gath ∧ t.data ≠ [] ∧
      engResolve (moving t) (placedCtx 0) ((moving t).xferSlot t) (t.place t.landed).2 true = .ok kd ∧
      MayWrite (moving t) t.core (spanKeys kd (eventBytes kd t.data.length))) ∧
    (∃ t, Engaged t ∧ t.kind = .gath ∧ (moving t).gatherFirst t = true ∧ ((moving t).slotAt t.slot).q4read.length < 4 ∧
      t.landed = t.bytes ∧ t.data = []) ∧
    (∃ t, Engaged t ∧ t.kind = .gath ∧ (moving t).gatherFirst t = true ∧ ((moving t).slotAt t.slot).q4read.length < 4 ∧
      t.landed ≠ t.bytes ∧ t.data = [] ∧ t.status ≠ 0) ∧
    (∃ t st, Engaged t ∧ t.kind = .gath ∧ (moving t).gatherFirst t = true ∧ ((moving t).slotAt t.slot).q4read.length < 4 ∧
      t.landed ≠ t.bytes ∧ gatherElem (moving t) (placedCtx 0) t = .error st ∧ st ≠ 0) ∧
    (∃ t ki src ks st, Engaged t ∧ t.kind = .gath ∧ (moving t).gatherFirst t = true ∧ ((moving t).slotAt t.slot).q4read.length < 4 ∧
      t.landed ≠ t.bytes ∧ gatherElem (moving t) (placedCtx 0) t = .ok (ki, src, ks, st) ∧ st ≠ 0) ∧
    (∃ t, Engaged t ∧ t.kind = .gath ∧ (moving t).gatherFirst t = true ∧ ((moving t).slotAt t.slot).q4read.length < 4 ∧
      t.landed ≠ t.bytes ∧ 2 ^ 56 ≤ t.src.toNat) :=
  ⟨⟨gath0, own 0x500, 0x400, elem0, ⟨rfl, rfl, by decide⟩, rfl, rfl, rfl, by decide, by decide, of_elemIs (by decide), of_mayRead (by decide)⟩,
    ⟨{ gath0 with data := [7] }, own 0x200, ⟨rfl, rfl, by decide⟩, rfl, by decide, of_allowsAt (by decide), of_mayWrite (by decide)⟩,
    ⟨{ gath0 with landed := 16 }, ⟨rfl, rfl, by decide⟩, rfl, by decide, by decide, rfl, rfl⟩,
    ⟨{ gath0 with status := 2 }, ⟨rfl, rfl, by decide⟩, rfl, by decide, by decide, by decide, rfl, by decide⟩,
    ⟨{ gath0 with idx := 0x40000 }, 2, ⟨rfl, rfl, by decide⟩, rfl, by decide, by decide, by decide, rfl, by decide⟩,
    ⟨{ gath0 with src := 0x40000 }, own 0x500, 0x40000, [], 2, ⟨rfl, rfl, by decide⟩, rfl, by decide, by decide, by decide, of_elemIs (by decide),
      by decide⟩,
    ⟨{ gath0 with src := 0x100000000000000 }, ⟨rfl, rfl, by decide⟩, rfl, by decide, by decide, by decide, by decide⟩⟩

/-- A collective of the thread alone, of two 32-bit elements at 0x100, its descriptor at 0x300. -/
def collecting : State :=
  { unit (put slot0 [(1, 0x100), (2, 0x200), (3, 0x300)]) with
      mem := [(own 0x300, 9), (own 0x308, 1), (own 0x310, 2), (own 0x319, 4), (own 0x402, 0x10)] }

/-- The contribution that it enters. -/
def coll0 (p r : Nat) : Coll :=
  { id := 0, far := false, slot := 0, ctx := 1, thread := 0, node := 0, decl := placedDecl, seq := 0, name := 9, p := p, r := r, n := 2, ty := .i32,
    sel := .ar, src := 0x100, dst := 0x200, peers := [0x100000], arrived := false, data := [], dead := false,
    result := none, landed := 0, seen := 0 }

/-- The contribution with its data. -/
def came (k : Coll) : Coll := { k with arrived := true, data := List.replicate 8 1 }

theorem witness_CollectivesCombineContributions_coll :
    ∃ (s r₁ r : State) (d a b : Reg5) (ty : CType) (sel : CollSel) (src dst desc table : Word) (c : Slot) (x : Ctx) (p n₀ n : Nat),
      s.cur.readReg a = some (src, c) ∧ c.readReg b = some (dst, c) ∧ c.readReg d = some (desc, c) ∧ s.ctxOf c = some x ∧
      descCheck x c desc 32 32 = none ∧ DescReads s x c [(desc, 32)] r₁ ∧ p = (descWord r₁ x c desc 1).toNat % 2 ^ 32 ∧
      n₀ = (descWord r₁ x c desc 1).toNat / 2 ^ 32 ∧ n = (descWord r₁ x c desc 2).toNat ∧ table = descWord r₁ x c desc 3 ∧
      (1 ≤ n ∧ n ≤ 16777216 ∧ 1 ≤ p ∧ p ≤ 4096 ∧ n₀ < p) ∧ descCheck x c table 8 (8 * p) = none ∧ DescReads r₁ x c [(table, 8 * p)] r ∧
      (∀ q, q < p → (descWord r x c table q).toNat < 2 ^ 52) ∧
      peerOf (descWord r x c table n₀) = (c.thread, x.id, r.ownNode) ∧
      rangeCheck r x c src (ctypeBytes ty * collElems sel n p true) false false = none ∧
      rangeCheck r x c dst (ctypeBytes ty * collElems sel n p false) true false = none ∧
      (regionOf src.toNat).1 ∈ [0, 2, 6] ∧ (regionOf dst.toNat).1 ∈ [0, 2, 6] :=
  ⟨collecting, descRead collecting [(0x300, 32)], descRead (descRead collecting [(0x300, 32)]) [(0x400, 8)], 3, 1, 2, .i32, .ar, 0x100, 0x200,
    0x300, 0x400, collecting.cur, placedCtx 0, 1, 0, 2, rfl, rfl, rfl, rfl, by decide, of_descReads (by decide), by decide +kernel,
    by decide +kernel, by decide +kernel, by decide +kernel, by decide, by decide, of_descReads (by decide +kernel), by decide +kernel,
    by decide +kernel, by decide +kernel, by decide +kernel, by decide, by decide⟩

/-- What another module sends. -/
def remote0 (names departed : Bool) : CollRemote :=
  { node := 1, ctx := 1, thread := 0, rank := 1, ranks := 2, n := 2, name := 9, ty := .i32, sel := .ar, names := names,
    data := List.replicate 8 1, departed := departed }

/-- A module with one contribution. -/
def adding (e : Coll) : State := { unit slot0 with colls := [e] }

/-- A module with it and a context 2 in ERROR. -/
def downCtx (e : Coll) : State := { adding e with ctxs := [placedCtx 0, { placedCtx 0 with id := 2, state := .error }] }

/-- The contribution has arrived and its thread has room for its record. -/
def Finishing (e : Coll) : Prop :=
  (adding e).colls[0]? = some e ∧ e.far = false ∧ e.arrived = true ∧ e.slot = (adding e).cur.phys ∧ (adding e).cur.owner = some e.ctx ∧
    (adding e).ctxAt e.ctx = some (placedCtx 0) ∧ (adding e).clusOpen e.ctx (clusOf e.slot) = true ∧ (adding e).cur.q3read.length < 4

theorem witness_CollectivesCombineContributions_events :
    (∃ (s : State) (k : Nat) (e : Coll) (x : Ctx) (ks : List Nat), s.colls[k]? = some e ∧ s.ctxAt e.ctx = some x ∧ e.far = false ∧
      e.arrived = false ∧ s.earlierPending e.slot e.seq = false ∧ s.clusOpen e.ctx (clusOf e.slot) = true ∧
      ks = spanOf s x (s.collSlot e) e.src (ctypeBytes e.ty * collElems e.sel e.n e.p true) ∧ MayRead s (coreOf e.slot) ks) ∧
    (∃ (s : State) (r : CollRemote), r.node ≠ s.ownNode ∧ r.departed = true) ∧
    (∃ (s : State) (r : CollRemote), r.node ≠ s.ownNode ∧ r.departed = false ∧ r.names = false) ∧
    (∃ (s : State) (r : CollRemote), r.node ≠ s.ownNode ∧ r.departed = false ∧ r.names = true) :=
  ⟨⟨adding (coll0 1 0), 0, coll0 1 0, placedCtx 0, _, rfl, rfl, rfl, rfl, by decide, by decide, rfl, of_mayRead (by decide)⟩,
    ⟨unit slot0, remote0 true true, by decide, rfl⟩, ⟨unit slot0, remote0 false false, by decide, rfl, rfl⟩,
    ⟨unit slot0, remote0 true false, by decide, rfl, rfl⟩⟩

theorem witness_CollectivesCombineContributions :
    (∃ e st fl bs, Finishing e ∧ e.result = some (st, fl, bs) ∧ bs.length ≤ e.landed) ∧
    (∃ e st fl bs, Finishing e ∧ e.result = some (st, fl, bs) ∧ st ≠ 0) ∧
    (∃ e fl bs, Finishing e ∧ e.result = some (0, fl, bs) ∧ e.landed = 0 ∧ e.landed < bs.length ∧
      collDst (adding e) (placedCtx 0) e bs.length = none) ∧
    (∃ e fl bs kd, Finishing e ∧ e.result = some (0, fl, bs) ∧ bs.length = e.landed + 9 ∧
      collDst (adding e) (placedCtx 0) e bs.length ≠ none ∧
      engResolve (adding e) (placedCtx 0) ((adding e).collSlot e) (e.dst + BitVec.ofNat 64 e.landed) true = .ok kd ∧ eventBytes kd 9 = 8 ∧
      MayWrite (adding e) (coreOf e.slot) (spanKeys kd 8)) ∧
    (∃ e, Finishing e ∧ e.result = none ∧ e.dead = true) ∧
    (∃ e, Finishing e ∧ e.result = none ∧ e.dead = false ∧ ∃ w ∈ e.peers, (peerOf w).2.2 = (downCtx e).ownNode ∧
      ∃ y, (downCtx e).ctxAt (peerOf w).2.1 = some y ∧ y.state = .error) ∧
    (∃ e gs, Finishing e ∧ e.result = none ∧ e.dead = false ∧ (adding e).peerDown e = false ∧ (adding e).collGroup e = some gs ∧ e ∈ gs ∧
      ∃ g ∈ ((adding e).resolveColls gs).colls, g.id = e.id ∧ ∀ h ∈ (adding e).colls, h.id = e.id → h = e) ∧
    (∃ (e g h : Coll), e.p = 2 ∧ g.p = 2 ∧ h.p = 2 ∧ g.n = e.n ∧ h.n = e.n ∧ g.ty = e.ty ∧ h.ty = e.ty ∧ g.sel = e.sel ∧ h.sel = e.sel ∧
      g.data.length = ctypeBytes e.ty * collElems e.sel e.n 2 true ∧ h.data.length = ctypeBytes e.ty * collElems e.sel e.n 2 true ∧
      e.sel = .ar ∧ ctypeFmt e.ty = none) ∧
    (∃ (e g h : Coll), e.p = 2 ∧ g.p = 2 ∧ h.p = 2 ∧ g.n = e.n ∧ h.n = e.n ∧ g.ty = e.ty ∧ h.ty = e.ty ∧ g.sel = e.sel ∧ h.sel = e.sel ∧
      g.data.length = ctypeBytes e.ty * collElems e.sel e.n 2 true ∧ h.data.length = ctypeBytes e.ty * collElems e.sel e.n 2 true ∧
      e.sel = .ag) ∧
    (∃ (e g h : Coll), e.p = 2 ∧ g.p = 2 ∧ h.p = 2 ∧ g.n = e.n ∧ h.n = e.n ∧ g.ty = e.ty ∧ h.ty = e.ty ∧ g.sel = e.sel ∧ h.sel = e.sel ∧
      g.data.length = ctypeBytes e.ty * collElems e.sel e.n 2 true ∧ h.data.length = ctypeBytes e.ty * collElems e.sel e.n 2 true ∧
      e.sel = .rs ∧ ctypeFmt e.ty = none) :=
  ⟨⟨{ came (coll0 1 0) with result := some (0, 0, [7]), landed := 1 }, _, _, _, ⟨rfl, rfl, rfl, rfl, rfl, rfl, by decide, by decide⟩, rfl, by decide⟩,
    ⟨{ came (coll0 1 0) with result := some (2, 0, []) }, _, _, _, ⟨rfl, rfl, rfl, rfl, rfl, rfl, by decide, by decide⟩, rfl, by decide⟩,
    ⟨{ came (coll0 1 0) with result := some (0, 0, [7]), dst := 0x40000 }, _, _, ⟨rfl, rfl, rfl, rfl, rfl, rfl, by decide, by decide⟩, rfl, rfl,
      by decide, by decide⟩,
    ⟨{ came (coll0 1 0) with result := some (0, 0, List.replicate 9 7) }, _, _, own 0x200, ⟨rfl, rfl, rfl, rfl, rfl, rfl, by decide, by decide⟩, rfl,
      rfl, by decide, of_allowsAt (by decide), by decide, of_mayWrite (by decide)⟩,
    ⟨{ came (coll0 1 0) with dead := true }, ⟨rfl, rfl, rfl, rfl, rfl, rfl, by decide, by decide⟩, rfl, rfl⟩,
    ⟨{ came (coll0 1 0) with peers := [0x200000] }, ⟨rfl, rfl, rfl, rfl, rfl, rfl, by decide, by decide⟩, rfl, rfl, 0x200000, by decide, by decide, _,
      rfl, rfl⟩,
    ⟨came (coll0 1 0), [came (coll0 1 0)], ⟨rfl, rfl, rfl, rfl, rfl, rfl, by decide, by decide⟩, rfl, rfl, by decide, by decide, by decide,
      { came (coll0 1 0) with result := some (collResult (came (coll0 1 0)) [came (coll0 1 0)]) }, by decide +kernel, rfl, by decide⟩,
    ⟨came (coll0 2 0), came (coll0 2 0), came (coll0 2 1), rfl, rfl, rfl, rfl, rfl, rfl, rfl, rfl, rfl, by decide, by decide, rfl, rfl⟩,
    ⟨{ came (coll0 2 0) with sel := .ag }, { came (coll0 2 0) with sel := .ag }, { came (coll0 2 1) with sel := .ag }, rfl, rfl, rfl, rfl, rfl, rfl,
      rfl, rfl, rfl, by decide, by decide, rfl⟩,
    ⟨{ came (coll0 2 0) with sel := .rs }, { came (coll0 2 0) with sel := .rs, data := List.replicate 16 1 },
      { came (coll0 2 1) with sel := .rs, data := List.replicate 16 1 }, rfl, rfl, rfl, rfl, rfl, rfl, rfl, rfl, rfl, by decide, by decide, rfl, rfl⟩⟩

theorem witness_MessagesAreDelivered :
    (∃ (s : State) (dst : Nat) (x : Ctx) (h : Word) (m : Nat) (ws rest : List (Word × Nat)), s.ctxOf s.cur = some x ∧
      s.cur.q2send = (h, m) :: ws ++ rest ∧ ws.length = headerN h ∧ dst = (x.cores[bits h 23 8]?).getD 0 * 8 + bits h 6 4 ∧
      (s.slotAt dst).q2recv.length + s.wordsComing dst + ws.length + 1 = 32 ∧
      s.earlierPending s.cur.phys (ws.foldl (fun m e => max m e.2) m) = false ∧ s.clusOpen x.id (clusOf s.cur.phys) = true) ∧
    (∃ (s : State) (k : Nat) (m : Msg), s.msgs[k]? = some m ∧ (∀ n ∈ s.msgs.take k, ¬(n.src = m.src ∧ n.dst = m.dst)) ∧
      (s.slotAt m.dst).q2recv.length + m.words.length = 32 ∧ (s.slotAt m.dst).owner ≠ none) :=
  ⟨⟨unit { slot0 with q2send := [(1, 0), (9, 0), (0, 0)], q2recv := List.replicate 30 0 }, 0, _, 1, 0, [(9, 0)], [(0, 0)], rfl, rfl, by decide,
      by decide, by decide, by decide, by decide⟩,
    ⟨{ unit { slot0 with q2recv := List.replicate 30 0 } with msgs := [{ src := 1, dst := 0, words := [1], seen := 0 }, { src := 0, dst := 0, words := [1, 9], seen := 0 }] },
      1, { src := 0, dst := 0, words := [1, 9], seen := 0 }, rfl, by decide, by decide, by decide⟩⟩

/-- A thread with words in its push queue. -/
def pushing (ws : List Word) (regs : List (Nat × Nat)) : Slot := put { slot0 with q0push := ws.map (fun w => (w, 0)) } regs

/-- Cluster 0's unit with a command of the thread at the head of its queue. -/
def unitWith (u : MUnit) (ws : List Word) : State := { unit (pushing ws []) with matrix := [u] }

/-- A ring pair that has overflowed. -/
def flooded : MUnit := (MUnit.fresh 0).setRing 0 { Ring.fresh with ovf := true }

/-- A ring with one tile of GQ2 in it. -/
def tiled : Ring := { Ring.fresh with size := 1024, tail := 1 }

/-- The unit with a tile in each of rings 0 and 1. -/
def loaded : MUnit := ((MUnit.fresh 0).setRing 0 tiled).setRing 1 tiled

/-- MXADV of ring 0 by one slot. -/
def advance0 : Word := 0x6000100000000000

/-- MXST of tile 0 as f32 through WIN0 to 0. -/
def storeTile0 : Word := 0x3E00000000000000

theorem acceptable_of {x : Ctx} {c : Slot} {w : Word}
    (h : (x.holdsShare (clusOf c.phys) (coreOf c.phys % 8) && x.res.weight != 0 && !cmdReserved w &&
      (cmdTile w).all (fun t => x.holdsShare (clusOf c.phys) (t / 8)) &&
      (cmdRings w).all (fun r => x.holdsShare (clusOf c.phys) (r / 2))) = true)
    (h1 : codeOf w = 1 → bits w 56 56 = 1 → bits w 41 34 % 2 = 1 ∧ bits w 33 33 = 0 ∧ bits w 59 57 ≠ 7)
    (h3 : codeOf w = 3 → winFmt (c.win (bits w 49 47)) = fmtOfMType (bits w 59 57) ∧ bits (c.win (bits w 49 47)) 33 32 = 0 ∧
      bits w 49 47 < c.decl.windows ∧ bits w 17 0 % 16 = 0 ∧ bits w 17 0 + 1024 * mtypeBits (bits w 59 57) / 8 ≤ coreBound x c ∧
      (bits w 59 57 < 3 →
        2 * bits (c.win (bits w 49 47)) 21 5 + 2 * (bits w 17 0 * 8 / mtypeBits (bits w 59 57) / 16) + 128 ≤ coreBound x c))
    (h4 : codeOf w = 4 → bits w 17 0 % 16 = 0 ∧ bits w 17 0 + 4096 ≤ coreBound x c)
    (h5 : codeOf w = 5 → bits w 51 48 ≤ 8 ∧ bits w 21 0 % 64 = 0 ∧
      bits w 21 0 + 64 * (bits w 47 40 + 1) * 2 ^ bits w 51 48 ≤ clusBound c)
    (h6 : codeOf w = 6 → bits w 51 44 ≠ 0) (h7 : codeOf w = 7 → bits w 55 52 ≠ 0 ∧ bits w 55 52 ≤ x.res.weight) : Acceptable x c w := by
  simp only [Bool.and_eq_true, bne_iff_ne, Bool.not_eq_true', List.all_eq_true] at h
  obtain ⟨⟨⟨⟨a, b⟩, d⟩, e⟩, f⟩ := h
  exact ⟨a, b, d, fun t ht => by rw [ht] at e; exact e, f, h1, h3, h4, h5, h6, h7⟩

theorem witness_MatrixCommandsRun_push :
    (∃ (i : Instr) (s : State) (c : Slot) (w : Word) (vs : List Word) (x : Ctx), Commands i s c (w :: vs) ∧ s.ctxOf c = some x ∧
      c.q0held = none ∧ Acceptable x c w ∧ (∀ v ∈ vs, bits v 63 10 = 0 ∧ bits v 2 0 = 0) ∧ c.q0push.length + vs.length + 1 = 4 ∧
      codeOf w ≠ 3) ∧
    (∃ (i : Instr) (s : State) (c : Slot) (w : Word) (vs : List Word) (x : Ctx) (u : MUnit), Commands i s c (w :: vs) ∧ s.ctxOf c = some x ∧
      c.q0held = none ∧ Acceptable x c w ∧ (∀ v ∈ vs, bits v 63 10 = 0 ∧ bits v 2 0 = 0) ∧ c.q0push.length + vs.length + 1 ≤ 4 ∧
      codeOf w = 3 ∧ s.unitAt (clusOf c.phys) = some u) ∧
    (∃ (i : Instr) (s : State) (c : Slot) (w v : Word) (x : Ctx), Commands i s c [w, v] ∧ s.ctxOf c = some x ∧
      c.q0held = none ∧ Acceptable x c w ∧ (bits v 63 10 = 0 ∧ bits v 2 0 = 0) ∧ c.q0push.length + 1 + 1 = 5) ∧
    (∃ (i : Instr) (s : State) (c : Slot) (w : Word) (vs : List Word) (x : Ctx) (cause : TrapCause) (tval : Word), Commands i s c (w :: vs) ∧
      s.ctxOf c = some x ∧ takeWords x c.ready c.q0held (w :: vs) = .error (cause, tval)) ∧
    (∃ (i : Instr) (s : State) (c : Slot) (w : Word) (vs : List Word) (x : Ctx), Commands i s c (w :: vs) ∧ s.ctxOf c = some x ∧
      cmdReason x c w = some 7 ∧ c.q0held = none) :=
  ⟨⟨_, unit (pushing [0, 0, 0] [(1, 0x100000000000)]), pushing [0, 0, 0] [(1, 0x100000000000)], advance0, [], placedCtx 0,
      .mxadv 1 _ _ _ rfl, rfl, rfl, acceptable_of (by decide) (by decide) (by decide) (by decide) (by decide) (by decide) (by decide),
      List.forall_mem_nil _, by decide, by decide⟩,
    ⟨_, { unit { slot0 with wins := slot0.wins.setIfInBounds 0 10 } with matrix := [MUnit.fresh 0] },
      { slot0 with wins := slot0.wins.setIfInBounds 0 10 }, storeTile0, [], placedCtx 0, MUnit.fresh 0, .mxst 0 .f32 false _ _ _ rfl, rfl, rfl,
      acceptable_of (by decide) (by decide) (by decide) (by decide) (by decide) (by decide) (by decide), List.forall_mem_nil _, by decide, by decide, rfl⟩,
    ⟨_, unit (pushing [0, 0, 0] []), pushing [0, 0, 0] [], 0x5000000000000000, 0, placedCtx 0, .mxring 1 2 _ _ _ _ _ rfl rfl, rfl, rfl,
      acceptable_of (by decide) (by decide) (by decide) (by decide) (by decide) (by decide) (by decide), by decide, by decide⟩,
    ⟨_, unit slot0, slot0, 0x6000000000000000, [], placedCtx 0, .queue, 7, .mxadv 1 _ _ _ rfl, rfl, rfl⟩,
    ⟨_, unit slot0, slot0, 0x6000000000000000, [], placedCtx 0, .mxadv 1 _ _ _ rfl, rfl, by decide, rfl⟩⟩

/-- What a step of a unit asks of its state: the unit, the slot that the arbiter chooses and the command at the head of its queue. -/
def Stepping (s : State) (clus slot m : Nat) (u : MUnit) (w : Word) (ws : List (Word × Nat)) (x : Ctx) : Prop :=
  s.unitAt clus = some u ∧ s.arbiter u = some slot ∧ (s.slotAt slot).q0push = (w, m) :: ws ∧ s.ctxOf (s.slotAt slot) = some x ∧
    (s.slotAt slot).phys = slot

theorem witness_MatrixCommandsRun_units :
    (∃ s clus slot m u w ws x, Stepping s clus slot m u w ws x ∧ codeOf w = 1 ∧ u.accOf slot = none ∧ u.refusal w ≠ 0) ∧
    (∃ s clus slot m u w ws x, Stepping s clus slot m u w ws x ∧ codeOf w = 1 ∧ u.refusal w = 0 ∧
      MayRead s (coreOf slot) (stepKeys u (s.slotAt slot) x.id w).1 ∧ MayWrite s (coreOf slot) (stepKeys u (s.slotAt slot) x.id w).2) ∧
    (∃ s clus slot m u w ws x, Stepping s clus slot m u w ws x ∧ codeOf w = 2 ∧
      MayRead s (coreOf slot) (stepKeys u (s.slotAt slot) x.id w).1 ∧ MayWrite s (coreOf slot) (stepKeys u (s.slotAt slot) x.id w).2) ∧
    (∃ s clus slot m u w ws x, Stepping s clus slot m u w ws x ∧ codeOf w = 3 ∧
      MayRead s (coreOf slot) (stepKeys u (s.slotAt slot) x.id w).1 ∧ MayWrite s (coreOf slot) (stepKeys u (s.slotAt slot) x.id w).2) ∧
    (∃ s clus slot m u w ws x, Stepping s clus slot m u w ws x ∧ codeOf w = 4 ∧
      MayRead s (coreOf slot) (stepKeys u (s.slotAt slot) x.id w).1 ∧ MayWrite s (coreOf slot) (stepKeys u (s.slotAt slot) x.id w).2) :=
  ⟨⟨unitWith flooded [0x1000000000000000], 0, 0, 0, flooded, 0x1000000000000000, [], placedCtx 0,
      ⟨rfl, by decide, rfl, rfl, rfl⟩, by decide, rfl, by decide⟩,
    ⟨unitWith loaded [0x1001000000000000], 0, 0, 0, loaded, 0x1001000000000000, [], placedCtx 0,
      ⟨rfl, by decide, rfl, rfl, rfl⟩, by decide, by decide, of_mayRead (by decide +kernel), of_mayWrite (by decide +kernel)⟩,
    ⟨unitWith (MUnit.fresh 0) [0x2000000000000000], 0, 0, 0, MUnit.fresh 0, 0x2000000000000000, [], placedCtx 0,
      ⟨rfl, by decide, rfl, rfl, rfl⟩, by decide, of_mayRead (by decide), of_mayWrite (by decide)⟩,
    ⟨unitWith (MUnit.fresh 0) [storeTile0], 0, 0, 0, MUnit.fresh 0, storeTile0, [], placedCtx 0,
      ⟨rfl, by decide, rfl, rfl, rfl⟩, by decide, of_mayRead (by decide), of_mayWrite (by decide +kernel)⟩,
    ⟨unitWith (MUnit.fresh 0) [0x4000000000000000], 0, 0, 0, MUnit.fresh 0, 0x4000000000000000, [], placedCtx 0,
      ⟨rfl, by decide, rfl, rfl, rfl⟩, by decide, of_mayRead (by decide +kernel), of_mayWrite (by decide)⟩⟩

theorem witness_MatrixCommandsRun_rings :
    (∃ s clus slot m u w v n vs x, Stepping s clus slot m u w ((v, n) :: vs) x ∧ codeOf w = 5 ∧ clus = clusOf slot) ∧
    (∃ s clus slot m u w ws x, Stepping s clus slot m u w ws x ∧ codeOf w = 7 ∧ clus = clusOf slot) ∧
    (∃ (r : Ring) (n : Nat), (r.tail - r.head).toNat + n = r.n + 1) ∧ (∃ (r : Ring) (n : Nat), (r.tail - r.head).toNat + n = r.n) ∧
    (∃ (s : State) (m : Nat) (u : MUnit) (w : Word) (ws : List (Word × Nat)), s.unitAt (clusOf s.cur.phys) = some u ∧
      s.cur.q0push = (w, m) :: ws ∧ codeOf w = 6 ∧ s.unitOpen s.cur.phys = true ∧ s.earlierPending s.cur.phys m = false) ∧
    (∃ (s : State) (clus : Nat) (u : MUnit) (r : MxRecord), s.unitAt clus = some u ∧
      u.recs.find? (fun r => decide ((s.slotAt r.slot).q0read.length < 8)) = some r ∧ r.slot = s.cur.phys) :=
  ⟨⟨unitWith (MUnit.fresh 0) [0x5000000000000000, 0], 0, 0, 0, MUnit.fresh 0, 0x5000000000000000, 0, 0, [], placedCtx 0,
      ⟨rfl, by decide, rfl, rfl, rfl⟩, by decide, by decide⟩,
    ⟨unitWith (MUnit.fresh 0) [0x7010000000000000], 0, 0, 0, MUnit.fresh 0, 0x7010000000000000, [], placedCtx 0,
      ⟨rfl, by decide, rfl, rfl, rfl⟩, by decide, by decide⟩,
    ⟨Ring.fresh, 2, by decide⟩, ⟨Ring.fresh, 1, by decide⟩,
    ⟨unitWith (MUnit.fresh 0) [advance0], 0, MUnit.fresh 0, advance0, [], rfl, rfl, by decide, by decide, by decide⟩,
    ⟨{ unit { slot0 with q0read := List.replicate 7 0 } with matrix := [{ MUnit.fresh 0 with recs := [{ slot := 0, word := 0, snap := 0 }] }] }, 0, _,
      { slot := 0, word := 0, snap := 0 }, rfl, by decide, rfl⟩⟩

/-- The bytes of an MXST that are still to land: nine from 0x100. -/
def storingCells : List Host.Cell := cellsAt (own 0x100) (List.replicate 9 7)

/-- The unit storing them. -/
def storingUnit (cs : List Host.Cell) : MUnit := { MUnit.fresh 0 with storing := some (0, cs, 0) }

theorem witness_MatrixCommandsRun_storing :
    (∃ (s : State) (clus slot m : Nat) (u : MUnit) (w : Word) (ws : List (Word × Nat)) (fl : BitVec 5), s.unitAt clus = some u ∧
      u.storing = some (slot, [], fl) ∧ (s.slotAt slot).q0push = (w, m) :: ws) ∧
    (∃ (s : State) (clus slot m : Nat) (u : MUnit) (w : Word) (ws : List (Word × Nat)) (cs : List Host.Cell) (fl : BitVec 5) (k : Nat),
      s.unitAt clus = some u ∧ u.storing = some (slot, cs, fl) ∧ (s.slotAt slot).q0push = (w, m) :: ws ∧
      cs.head?.map (fun y => y.1) = some k ∧ (cs.takeWhile (fun y => y.1 / 8 == k / 8)).length = 8 ∧
      MayWrite s (coreOf slot) ((cs.take 8).map (fun y => y.1)) ∧ s.feq = [] ∧ ∀ y ∈ cs.take 8, inMem y.1 = true) :=
  ⟨⟨unitWith (storingUnit []) [storeTile0], 0, 0, 0, _, _, [], 0, rfl, rfl, rfl⟩,
    ⟨unitWith (storingUnit storingCells) [storeTile0], 0, 0, 0, _, _, [], storingCells, 0, own 0x100, rfl, rfl, rfl, rfl, by decide,
      of_mayWrite (by decide), rfl, by decide⟩⟩

/-! ### Witnesses: events of tasks and of the memory system -/

/-- A record in domain 3 of the thread. -/
def task0 : TaskRec := { entry := 0x1000000010000, arg := 7, ctx := 1, domain := 3, creator := 0, origin := 0, slot := 0, seq := 0 }

/-- Context 1 on cores 0 and 1, with one slot each. -/
def ctx2 : Ctx := { placedCtx 0 with slots := [0, 8], cores := [0, 1], shares := [0, 1] }

/-- Core 0's partition with n records and m spilled. -/
def deque0 (n m : Nat) : Deque :=
  { core := 0, ctx := 1, items := List.replicate n task0, spill := List.replicate m task0, steal := .none }

/-- Core 1's partition, empty. -/
def deque1 (st : Steal) : Deque := { core := 1, ctx := 1, items := [], spill := [], steal := st }

/-- The thread of core 0, an idle slot of core 1, and the partitions. -/
def tasking (n m : Nat) (st : Steal) : State :=
  { unit slot0 with ctxs := [ctx2], slots := [{ placedSlot 8 with status := .idle, lcore := 1 }], deques := [deque0 n m, deque1 st], cycle := 64 }

/-- Core 0's slot idle, with its partition. -/
def idling (n m : Nat) : State := { unit { slot0 with status := .idle } with deques := [deque0 n m] }

/-- The thread waiting for its survey. -/
def surveying (n : Word) : State :=
  { tasking 0 0 .none with
      cur := { slot0 with domain := 1, wait := some (.rfork 0x1000000010000 n 0x3FFF8), status := .waitMem } }

theorem witness_TaskEventsHappen :
    (∃ s : State, s.cur.status = .paused ∧ s.cur.pause = 1) ∧
    (∃ (s : State) (slot : Nat) (t : TaskRec) (x : Ctx) (d : Deque), (s.slotAt slot).wait = some (.spill t) ∧
      s.ctxOf (s.slotAt slot) = some x ∧ d = s.dequeAt x (coreOf (s.slotAt slot).phys) ∧
      x.dequeCap (coreOf (s.slotAt slot).phys) = d.items.length ∧ d.spill.length + 32 = 1024) ∧
    (∃ (s : State) (core ctx : Nat) (x : Ctx) (d : Deque) (c : Slot), s.ctxAt ctx = some x ∧ d = s.dequeAt x core ∧ d.items = [] ∧
      d.spill ≠ [] ∧ s.idleSlot ctx core = some c) ∧
    (∃ (s : State) (slot : Nat) (x : Ctx) (d : Deque) (t : TaskRec) (ts : List TaskRec) (k : Kernel),
      s.ctxOf (s.slotAt slot) = some x ∧ d = s.dequeAt x (coreOf (s.slotAt slot).phys) ∧ d.items = t :: ts ∧ x.alive = true ∧
      s.idleSlot x.id (coreOf (s.slotAt slot).phys) = some (s.slotAt slot) ∧ s.recordReleased t = true ∧ x.kernel = some k) ∧
    (∃ (s : State) (core ctx : Nat) (x : Ctx) (d : Deque) (c : Slot), s.ctxAt ctx = some x ∧ d = s.dequeAt x core ∧ x.alive = true ∧
      d.items = [] ∧ d.spill = [] ∧ d.steal = .none ∧ s.idleSlot ctx core = some c) ∧
    (∃ (s : State) (core ctx : Nat) (x : Ctx) (d : Deque) (v : Word), s.ctxAt ctx = some x ∧ d = s.dequeAt x core ∧ d.steal = .asked v ∧
      x.alive = true ∧ ∀ k ∈ victims x core, stealFrom x core (s.dequeAt x k) = none) ∧
    (∃ (s : State) (core ctx : Nat) (x : Ctx) (d : Deque) (v : Word), s.ctxAt ctx = some x ∧ d = s.dequeAt x core ∧ d.steal = .retry v ∧
      v.toNat + 64 = s.cycle.toNat) ∧
    (∃ (s : State) (slot : Nat) (x : Ctx) (kn : Kernel) (e n cell : Word) (k : Nat) (rs : List Slot),
      (s.slotAt slot).wait = some (.rfork e n cell) ∧ s.ctxOf (s.slotAt slot) = some x ∧ x.kernel = some kn ∧
      resolve s (s.slotAt slot) cell 8 (.store 8) = .ok k ∧ n ≠ 0 ∧ s.earlierPending slot (s.seq + 1) = false ∧
      (s.slotAt slot).status ≠ .stopped ∧ s.writePending (coreOf slot) k 8 = false ∧ s.blockRead slot k 8 = false ∧
      s.earlyHeld (coreOf slot) k 8 = false ∧ s.bankWaking k = false ∧ s.tlbHit k = true ∧ rs = s.recruits x (s.slotAt slot) n.toNat ∧
      rs.length = 1) :=
  ⟨⟨unit { slot0 with status := .paused, pause := 1 }, rfl, rfl⟩,
    ⟨{ unit { slot0 with wait := some (.spill task0), status := .waitMem } with deques := [deque0 36 992] }, 0, task0, placedCtx 0, deque0 36 992,
      rfl, rfl, rfl, by decide, congrArg (· + 32) List.length_replicate⟩,
    ⟨idling 0 33, 0, 1, placedCtx 0, deque0 0 33, { slot0 with status := .idle }, rfl, rfl, rfl, by decide, rfl⟩,
    ⟨idling 2 0, 0, placedCtx 0, deque0 2 0, task0, [task0], _, rfl, rfl, rfl, rfl, rfl, by decide, rfl⟩,
    ⟨idling 0 0, 0, 1, placedCtx 0, deque0 0 0, { slot0 with status := .idle }, rfl, rfl, rfl, rfl, rfl, rfl, rfl⟩,
    ⟨tasking 0 0 (.asked 0), 1, 1, ctx2, deque1 (.asked 0), 0, rfl, rfl, rfl, rfl, by decide⟩,
    ⟨tasking 0 0 (.retry 0), 1, 1, ctx2, deque1 (.retry 0), 0, rfl, rfl, rfl, by decide⟩,
    ⟨surveying 65, 0, ctx2, _, _, _, _, own 0x3FFF8, _, rfl, rfl, rfl, of_allowsAt (by decide), by decide, by decide, by decide, by decide,
      by decide, by decide, by decide, by decide, rfl, by decide⟩⟩

/-- What an answer to a steal asks of its state: the request, and the first victim whose record the domain admits. -/
def Stealing (s : State) (core ctx : Nat) (x : Ctx) (d : Deque) (us vs : List Nat) (k : Nat) (t : TaskRec) (w : Deque) : Prop :=
  s.ctxAt ctx = some x ∧ d = s.dequeAt x core ∧ (∃ v, d.steal = .asked v) ∧ x.alive = true ∧ victims x core = us ++ k :: vs ∧
    (∀ u ∈ us, stealFrom x core (s.dequeAt x u) = none) ∧ stealFrom x core (s.dequeAt x k) = some (t, w) ∧ s.recordReleased t = true

/-- The same with the thief's slot at work. -/
def crowded : State := { tasking 1 0 (.asked 0) with slots := [{ placedSlot 8 with lcore := 1 }] }

theorem witness_TaskEventsHappen_steal :
    (∃ s core ctx x d us vs k t w c kn, Stealing s core ctx x d us vs k t w ∧
      (((s.setDeque w).setDeque { d with steal := .none }).count ctx ((x.lcoreOf core).getD 0) 0x49 1).idleSlot ctx core = some c ∧
      x.kernel = some kn) ∧
    (∃ s core ctx x d us vs k t w, Stealing s core ctx x d us vs k t w ∧
      (((s.setDeque w).setDeque { d with steal := .none }).count ctx ((x.lcoreOf core).getD 0) 0x49 1).idleSlot ctx core = none) :=
  ⟨⟨tasking 1 0 (.asked 0), 1, 1, ctx2, deque1 (.asked 0), [], [], 0, task0, deque0 0 0, { placedSlot 8 with status := .idle, lcore := 1 }, _,
      ⟨rfl, rfl, ⟨_, rfl⟩, rfl, by decide, by decide, rfl, by decide⟩, rfl, rfl⟩,
    ⟨crowded, 1, 1, ctx2, deque1 (.asked 0), [], [], 0, task0, deque0 0 0, ⟨rfl, rfl, ⟨_, rfl⟩, rfl, by decide, by decide, rfl, by decide⟩, rfl⟩⟩

/-- The thread waiting for a load of device memory. -/
def loading : Slot := { slot0 with wait := some (.load 5 0x1000000000100 8 false), status := .waitMem }

/-- The thread waiting for a line of its code. -/
def fetching : Slot := { slot0 with wait := some .ifetch, status := .waitMem }

/-- The thread waiting for a full/empty access to 0x3FFF8. -/
def accessing (op : FeOp) : Slot := { slot0 with wait := some (.fe op 5 0x3FFF8 7), status := .waitMem }

/-- A write of core n to 0x100, waiting or under way. -/
def write0 (n : Nat) : SbEntry := { core := n, slot := 8 * n, seq := 0, rel := none, unit := 8, bounds := Bounds.none, cells := [(own 0x100, 7)] }

/-- An error in the device memory that the load reads. -/
def upsetDev : MemErr := { lo := keyOf Space.dev 1 0x100, len := 64, place := 0 }

/-- The thread waiting for the element at 0x100 of the own core scratchpad. -/
def gatheringV : Slot := { slot0 with wait := some (.vload 31 .i32 none [(0, 0x100)] [] 0), status := .waitMem }

theorem witness_MemoryEventsHappen_loads :
    (∃ (s : State) (slot : Nat) (d : Reg5) (va : Word) (signed : Bool) (k : Nat), (s.slotAt slot).wait = some (.load d va 8 signed) ∧
      resolve s (s.slotAt slot) va 8 (.load 8) = .ok k ∧ s.loadStalls (s.slotAt slot).phys k 8 = false ∧ s.tlbHit k = true ∧
      s.errorAt k 8 = none) ∧
    (∃ (s : State) (slot : Nat) (d : Reg5) (va : Word) (signed : Bool) (k : Nat) (e : MemErr),
      (s.slotAt slot).wait = some (.load d va 8 signed) ∧ resolve s (s.slotAt slot) va 8 (.load 8) = .ok k ∧
      s.loadStalls (s.slotAt slot).phys k 8 = false ∧ s.tlbHit k = true ∧ s.errorAt k 8 = some e) ∧
    (∃ (s : State) (slot : Nat) (d : Reg5) (va : Word) (signed : Bool) (k : Nat) (e : Nat × Nat × Nat),
      (s.slotAt slot).wait = some (.load d va 8 signed) ∧ resolve s (s.slotAt slot) va 8 (.load 8) = .ok k ∧
      s.loadStalls (s.slotAt slot).phys k 8 = false ∧ s.tlbHas k = false ∧ s.tlbKey k = some e ∧ e ∉ s.walks) ∧
    (∃ (s : State) (slot : Nat) (d : Reg5) (va : Word) (signed : Bool) (cause : TrapCause) (tval : Word),
      (s.slotAt slot).wait = some (.load d va 8 signed) ∧ resolve s (s.slotAt slot) va 8 (.load 8) = .error (cause, tval)) ∧
    (∀ bad : Bool, ∃ (s : State) (slot : Nat) (d : Reg5) (ty : EType) (i : Nat) (va : Word) (k : Nat),
      (s.slotAt slot).wait = some (.vload d ty none [(i, va)] [] 0) ∧ resolve s (s.slotAt slot) va (EType.bits ty / 8) .vload = .ok k ∧
      s.loadStalls (s.slotAt slot).phys k (EType.bits ty / 8) = false ∧ s.tlbHit k = true ∧
      (s.errorAt k (EType.bits ty / 8)).isSome = bad) :=
  ⟨⟨{ unit loading with tlb := [(0, 1, 0)] }, 0, _, _, _, keyOf Space.dev 1 0x100, rfl, of_allowsAt (by decide), by decide, by decide,
      by decide⟩,
    ⟨{ unit loading with tlb := [(0, 1, 0)], errs := [upsetDev] }, 0, _, _, _, keyOf Space.dev 1 0x100, upsetDev, rfl, of_allowsAt (by decide),
      by decide, by decide, by decide⟩,
    ⟨unit loading, 0, _, _, _, keyOf Space.dev 1 0x100, (0, 1, 0), rfl, of_allowsAt (by decide), by decide, by decide, by decide, by decide⟩,
    ⟨unit { slot0 with wait := some (.load 5 0x40000 8 false), status := .waitMem }, 0, _, _, _, .bounds, 0x40000, rfl,
      of_refusedWith (by decide)⟩,
    fun bad => match bad with
    | false => ⟨unit gatheringV, 0, 31, .i32, 0, 0x100, own 0x100, rfl, of_allowsAt (by decide), by decide, by decide, by decide⟩
    | true => ⟨{ unit gatheringV with errs := [{ lo := own 0x100, len := 64, place := 0 }] }, 0, 31, .i32, 0, 0x100, own 0x100, rfl,
        of_allowsAt (by decide), by decide, by decide, by decide⟩⟩

theorem witness_MemoryEventsHappen :
    (∃ (s : State) (core : Nat) (es fs : List SbEntry) (e : SbEntry), s.sbuf = es ++ e :: fs ∧ e.core = core ∧
      es ≠ [] ∧ ∀ f ∈ es, f.core ≠ core) ∧
    (∃ (s : State) (es fs : List SbEntry) (e : SbEntry) (ps : List Early), s.flight = es ++ e :: fs ∧ s.mayLand es.length e = true ∧
      s.passes e.slot e.seq e.bounds (e.cells.map (fun (x : Host.Cell) => x.1)) = some ps ∧ s.tlbHas e.key = true) ∧
    (∃ (s : State) (bank : Nat), bank ∈ s.waking) ∧
    (∃ (s : State) (k : Nat) (e : Nat × Nat × Nat), s.walks[k]? = some e ∧ e ∈ s.walksUnderWay e) ∧
    (∃ (s : State) (slot id k : Nat), (s.slotAt slot).wait = some .ifetch ∧ (s.slotAt slot).owner = some id ∧
      resolve s (s.slotAt slot) (s.slotAt slot).pc 4 .fetch = .ok k ∧ s.tlbHit k = true ∧
      s.lineOf (s.slotAt slot) (s.slotAt slot).pc = none ∧ s.errorAt (k - (s.slotAt slot).pc.toNat % 64) 64 = none) ∧
    (∃ (s : State) (slot : Nat), (s.slotAt slot).wait = some .ifetch ∧ (s.slotAt slot).owner = none ∧ (s.slotAt slot).ref = true ∧
      s.lineOf (s.slotAt slot) (s.slotAt slot).pc = none) ∧
    (∃ (s : State) (word : IWord) (reason : Nat), s.cur.occupied = true ∧ decode s.cur.ref word = .error reason) ∧
    (∃ (s : State) (cause : TrapCause) (tval : Word), s.cur.occupied = true ∧ s.cur.ref = false ∧
      resolve s s.cur s.cur.pc 4 .fetch = .error (cause, tval)) :=
  ⟨⟨{ unit slot0 with sbuf := [write0 1, write0 0] }, 0, [write0 1], [], write0 0, rfl, rfl, by decide, by decide⟩,
    ⟨{ unit slot0 with flight := [write0 0] }, [], [], write0 0, [], rfl, by decide, by decide, by decide⟩,
    ⟨{ unit slot0 with waking := [5] }, 5, by decide⟩,
    ⟨{ unit loading with walks := [(0, 1, 0)] }, 0, (0, 1, 0), rfl, by decide⟩,
    ⟨{ unit fetching with tlb := [(3, 1, 1)] }, 0, 1, keyOf Space.dev 1 0x10000, rfl, rfl, of_allowsAt (by decide), by decide, by decide,
      by decide⟩,
    ⟨unit { refThread with wait := some .ifetch, status := .waitMem }, 0, rfl, rfl, rfl, by decide⟩,
    ⟨unit slot0, 0, 1, rfl, rfl⟩,
    ⟨unit { slot0 with pc := 0x200000000000000 }, .canon, 0x200000000000000, rfl, rfl, of_refusedWith (by decide)⟩⟩

theorem witness_MemoryEventsHappen_fullEmpty :
    (∃ (s : State) (slot : Nat) (op : FeOp) (d : Reg5) (va v : Word) (k : Nat), (s.slotAt slot).wait = some (.fe op d va v) ∧
      resolve s (s.slotAt slot) va 8 .fe = .ok k ∧ s.feq.contains slot = false ∧ feMayArrive s (s.slotAt slot) op k = true ∧
      s.errorAt k 8 = none ∧ feServable s op k = false) ∧
    (∃ (s : State) (slot : Nat) (d : Reg5) (va v : Word) (k : Nat), (s.slotAt slot).wait = some (.fe .feq d va v) ∧
      resolve s (s.slotAt slot) va 8 .fe = .ok k ∧ s.feq.contains slot = false ∧ feMayArrive s (s.slotAt slot) .feq k = true ∧
      s.errorAt k 8 = none ∧ feServable s .feq k = true) ∧
    (∃ (s : State) (slot : Nat) (d : Reg5) (va v : Word) (k : Nat), (s.slotAt slot).wait = some (.fe .stfe d va v) ∧
      resolve s (s.slotAt slot) va 8 .fe = .ok k ∧ s.feq.contains slot = false ∧ feMayArrive s (s.slotAt slot) .stfe k = true ∧
      s.errorAt k 8 = none ∧ feServable s .stfe k = true) :=
  ⟨⟨unit (accessing .ldfe), 0, .ldfe, _, _, _, own 0x3FFF8, rfl, of_allowsAt (by decide), by decide, by decide, by decide, by decide⟩,
    ⟨unit (accessing .feq), 0, _, _, _, own 0x3FFF8, rfl, of_allowsAt (by decide), by decide, by decide, by decide, by decide⟩,
    ⟨unit (accessing .stfe), 0, _, _, _, own 0x3FFF8, rfl, of_allowsAt (by decide), by decide, by decide, by decide, by decide⟩⟩

/-! ### Witnesses: errors, limits and queues -/

/-- A fault of cycle 0 in context 1. -/
def error0 : ErrorState := { record := [], kind := 0, die := 0, stopped := false, stopAt := 0, dumped := 0, further := 0, first := none, frozen := [] }

/-- Context 1 with that fault, with or without its key. -/
def failing (key : Bool) : Ctx := { placedCtx 0 with err := some error0, keyValid := key }

/-- Context 1 with that fault and its dump on die 0, under way or not. -/
def dumping (started : Bool) : State :=
  { unit slot0 with
      ctxs := [{ placedCtx 0 with err := some { error0 with stopped := true, dumped := 1 } }],
      dumps := [{ die := 0, ctx := 1, started := started }] }

/-- The conditions that the stop of a fault has. -/
def Stopping (s u : State) (ctx : Nat) (x y : Ctx) (e : ErrorState) : Prop :=
  s.ctxAt ctx = some x ∧ x.err = some e ∧ e.stopped = false ∧ e.cycle < s.cycle.toNat ∧
    (e.kind = 1 ∨ e.kind = 2 → x.stop.running = true) ∧
    (∀ z ∈ s.ctxs, ∀ g, z.stopDue s.cycle = some g → enqueuedBefore (g, z.id) (e, ctx) = false) ∧
    u = (s.haltCtx x (!x.keyValid)).passCharges ctx ∧ u.ctxAt ctx = some y

/-- The module in the cycle after the fault, with dumps that wait. -/
def faulted (key : Bool) (ds : List Dump) : State := { unit slot0 with ctxs := [failing key], cycle := 1, dumps := ds }

theorem faulted_first (key : Bool) (ds : List Dump) : ∀ z ∈ (faulted key ds).ctxs, ∀ g, z.stopDue (faulted key ds).cycle = some g →
    enqueuedBefore (g, z.id) (error0, 1) = false := by
  intro z hz g hg
  obtain rfl := List.mem_singleton.mp hz
  obtain rfl : error0 = g := Option.some.inj hg
  rfl

theorem witness_ErrorsStopAndDump :
    (∃ s u ctx x y e, Stopping s u ctx x y e ∧ x.keyValid = true ∧ u.dumpsWaiting e.die < 16) ∧
    (∃ s u ctx x y e, Stopping s u ctx x y e ∧ x.keyValid = true ∧ 16 ≤ u.dumpsWaiting e.die) ∧
    (∃ s u ctx x y e, Stopping s u ctx x y e ∧ x.keyValid = false) ∧
    (∃ (s : State) (die : Nat) (d : Dump), s.nextDump die = some d) ∧
    (∃ (s : State) (die : Nat) (ds es : List Dump) (d : Dump) (x : Ctx) (e : ErrorState), s.dumps = ds ++ d :: es ∧ d.die = die ∧
      d.started = true ∧ (∀ b ∈ ds, ¬(b.die = die ∧ b.started = true)) ∧ s.ctxAt d.ctx = some x ∧ x.err = some e) :=
  ⟨⟨faulted true [], _, 1, failing true, _, error0, ⟨rfl, rfl, rfl, by decide, by decide, faulted_first _ _, rfl, rfl⟩, rfl, by decide⟩,
    ⟨faulted true (List.replicate 16 { die := 0, ctx := 2, started := false }), _, 1, failing true, _, error0,
      ⟨rfl, rfl, rfl, by decide, by decide, faulted_first _ _, rfl, rfl⟩, rfl, by decide⟩,
    ⟨faulted false [], _, 1, failing false, _, error0, ⟨rfl, rfl, rfl, by decide, by decide, faulted_first _ _, rfl, rfl⟩, rfl⟩,
    ⟨dumping false, 0, { die := 0, ctx := 1, started := false }, by decide⟩,
    ⟨dumping true, 0, [], [], _, _, _, rfl, rfl, rfl, by decide, rfl, rfl⟩⟩

/-- Context 1 as a batch context at a throttle level, having drawn nothing. -/
def batch (level : Nat) : Ctx := { placedCtx 0 with res := { placedRes with cls := 2 }, throttle := level }

theorem witness_LimitsAreKept :
    (∃ (s : State) (ctx : Nat) (x : Ctx), s.ctxAt ctx = some x ∧ x.res.energy * 1000000 = x.meter ∧ x.raised = false) ∧
    (∃ (s : State) (slot : Nat) (x : Ctx), s.ctxOf (s.slotAt slot) = some x ∧ 65 * (x.res.energy * 1000000) + 64 = 64 * x.meter ∧
      (s.slotAt slot).status = .ready ∧ (s.slotAt slot).busy = 0 ∧ x.err = none) ∧
    (∃ (s : State), s.cycle.toNat % 2 ^ 20 = 0 ∧ s.cycle ≠ s.powerAt ∧ ∀ x ∈ afterWindow s 9200001, x.res.cls = 2 → x.throttle = 7) ∧
    (∃ (s : State), s.cycle.toNat % 2 ^ 20 = 0 ∧ s.cycle ≠ s.powerAt ∧ ∃ x ∈ afterWindow s 9200001, x.res.cls = 2 ∧ x.throttle < 6) ∧
    (∃ (s : State), s.cycle.toNat % 2 ^ 20 = 0 ∧ s.cycle ≠ s.powerAt ∧ (∃ x ∈ afterWindow s 9200001, x.res.cls = 2 ∧ x.throttle = 6) ∧
      ∀ x ∈ afterWindow s 9200001, x.res.cls = 2 → 6 ≤ x.throttle) ∧
    (∃ (s : State) (ctx : Nat) (x : Ctx), s.ctxAt ctx = some x ∧ x.warrant.notAfter.toNat < s.tearly ∧
      ∀ y ∈ s.ctxs, y.parent ≠ some ctx) ∧
    (∃ (s : State) (ctx : Nat) (x : Ctx) (l : Launch), s.ctxAt ctx = some x ∧ x.launch = some l ∧ l.wdog ≠ 0 ∧ l.wdog * 600000 = l.ran ∧
      x.err = none ∧ x.stop.running = true) ∧
    (∃ (s : State) (die stack : Nat), die < 24 ∧ stack < 2 ∧ s.scrubFinds die stack = none) ∧
    (∃ (s : State) (die stack : Nat) (e : MemErr) (x : Ctx), die < 24 ∧ stack < 2 ∧ s.scrubFinds die stack = some (e, x)) ∧
    (∃ (s : State) (die stack : Nat) (id : Nat) (x : Ctx), die < 24 ∧ stack < 2 ∧ s.ctxAt id = some x ∧ id ≠ 0 ∧
      x.layout.dies.contains die = true) :=
  ⟨⟨{ unit slot0 with ctxs := [{ placedCtx 0 with meter := 2 ^ 60 * 1000000 }] }, 1, _, rfl, by decide, rfl⟩,
    ⟨{ unit slot0 with ctxs := [{ placedCtx 0 with res := { placedRes with energy := 64 }, meter := 65000001 }] }, 0, _, rfl, by decide, rfl, rfl, rfl⟩,
    ⟨{ unit slot0 with cycle := 0x100000, ctxs := [batch 7] }, by decide, by decide, by decide⟩,
    ⟨{ unit slot0 with cycle := 0x100000, ctxs := [batch 5] }, by decide, by decide, by decide⟩,
    ⟨{ unit slot0 with cycle := 0x100000, ctxs := [batch 6, batch 7] }, by decide, by decide, by decide, by decide⟩,
    ⟨{ unit slot0 with ctxs := [{ placedCtx 0 with warrant := { placedWarrant with notAfter := 9 } }],
                       beacon := some { cb := 0, eb := 10, lb := 10, seq := 0 } }, 1, _, rfl, by decide, by decide⟩,
    ⟨{ unit slot0 with ctxs := [{ placedCtx 0 with launch := some { q := 0, idx := 0, wdog := 65535, ran := 39321000000 } }] }, 1, _, _, rfl, rfl,
      by decide, by decide, rfl, rfl⟩,
    ⟨unit slot0, 23, 1, by decide, by decide, rfl⟩, ⟨{ unit slot0 with errs := [upsetDev] }, 0, 0, _, _, by decide, by decide, rfl⟩,
    ⟨unit slot0, 0, 1, 1, _, by decide, by decide, rfl, by decide, by decide⟩⟩

/-- Queue 1 in the context's free memory: two packets, doorbell and status after them. -/
def queue1 : Queue :=
  Queue.fresh 1 { base := 0x1000000000000, size := 64, exq := 0, qflags := 0, doorbell := 0x1000000001000, status := 0x1000000001020 }

/-- Context 1 with two queue numbers and queue 1. -/
def queued (q : Queue) : Ctx := { placedCtx 0 with res := { placedRes with queues := 2 }, queues := [q] }

/-- A module with that context. -/
def serving (q : Queue) : State := { unit { slot0 with status := .idle } with ctxs := [queued q] }

/-- A launch packet of kernel 0 that awaits nothing. -/
def launchPacket : Packet := { fence := false, domain := 0, range := false, kernel := 0, wdog := 1, arg := 0, n := 0, jcell := 0, waits := [] }

/-- Queue 1 with a fetched packet and one completed before it. -/
def fetched1 (p : Packet) : Queue := { queue1 with state := 1, ridx := 2, comp := 1, widx := 2, fetched := some p }

/-- The conditions that the doorbell's and the CTRL word's events have. -/
def Served (q : Queue) : Prop := (serving q).ctxAt 1 = some (queued q) ∧ (queued q).queue 1 = some q ∧ (queued q).served = true

theorem witness_QueueEventsHappen_doorbell :
    (∃ e f : Queue, ∃ w ws r, Served e ∧ e.widxs = w :: ws ∧ f = { e with widx := w, widxs := ws } ∧ queueReason (queued e) f = some r) ∧
    (∃ e f : Queue, ∃ w ws, Served e ∧ e.widxs = w :: ws ∧ f = { e with widx := w, widxs := ws } ∧ queueReason (queued e) f = none ∧
      e.exc = true) ∧
    (∃ e f : Queue, ∃ w ws, Served e ∧ e.widxs = w :: ws ∧ f = { e with widx := w, widxs := ws } ∧ queueReason (queued e) f = none ∧
      e.exc = false) ∧
    (∃ (s : State) (x : Ctx) (e : Queue) (p : Packet), s.ctxAt 1 = some x ∧ x.queue 1 = some e ∧ e.fetched = some p ∧ p.fence = true ∧
      x.served = true ∧ e.state = 1 ∧ p.waits ≠ [] ∧ ∀ w ∈ p.waits, waitMet x w = true) ∧
    (∃ (s : State) (x : Ctx) (e : Queue) (p : Packet), s.ctxAt 1 = some x ∧ x.queue 0 = some e ∧ e.fetched = some p ∧ p.fence = true ∧
      x.served = true ∧ e.state = 1 ∧ ∀ w ∈ p.waits, waitMet x w = true) :=
  ⟨⟨{ queue1 with widxs := [65], state := 4 }, _, 65, [], 3, ⟨rfl, rfl, rfl⟩, rfl, rfl, by decide⟩,
    ⟨{ queue1 with qdef := { queue1.qdef with qflags := 2 }, widxs := [1] }, _, 1, [], ⟨rfl, rfl, rfl⟩, rfl, rfl, by decide, by decide⟩,
    ⟨{ queue1 with widxs := [64, 5] }, _, 64, [5], ⟨rfl, rfl, rfl⟩, rfl, rfl, by decide, by decide⟩,
    ⟨serving (fetched1 { launchPacket with fence := true, waits := [(1, 0)] }),
      queued (fetched1 { launchPacket with fence := true, waits := [(1, 0)] }), fetched1 { launchPacket with fence := true, waits := [(1, 0)] },
      { launchPacket with fence := true, waits := [(1, 0)] }, rfl, rfl, rfl, rfl, rfl, rfl, by decide, by decide⟩,
    ⟨serving { fetched1 { launchPacket with fence := true } with q := 0 }, queued { fetched1 { launchPacket with fence := true } with q := 0 },
      { fetched1 { launchPacket with fence := true } with q := 0 }, { launchPacket with fence := true }, rfl, rfl, rfl, rfl, rfl, rfl,
      List.forall_mem_nil _⟩⟩

/-- Each answer of Table 23-3 as a write of CTRL holds it, after a write that is no answer. -/
theorem witness_QueueEventsHappen_ctrl : ∀ a : Fin 4, ∃ (s : State) (x : Ctx) (e f : Queue) (w : Word) (vs ws : List Word),
    s.ctxAt 1 = some x ∧ x.queue 1 = some e ∧ e.ctrls = vs ++ w :: ws ∧ (∀ v ∈ vs, v.toNat % 4 = 0) ∧ x.served = true ∧
    f = { e with ctrl := w, ctrls := ws } ∧ w.toNat % 4 = a.val := by
  intro a
  refine ⟨serving { queue1 with state := 3, ctrls := [8, BitVec.ofNat 64 (4 + a.val), 9] }, queued { queue1 with state := 3, ctrls := [8, BitVec.ofNat 64 (4 + a.val), 9] },
    { queue1 with state := 3, ctrls := [8, BitVec.ofNat 64 (4 + a.val), 9] }, _, BitVec.ofNat 64 (4 + a.val), [8], [9], rfl, rfl, rfl,
    fun v hv => by rw [List.mem_singleton.mp hv]; decide, rfl, rfl, ?_⟩
  revert a
  decide

theorem witness_QueueEventsHappen_answer :
    (∃ (x : Ctx) (q : Queue), (q.state = 3 ∨ q.state = 4) ∧ ∀ l, x.launch = some l → l.q ≠ q.q) ∧
    (∃ q : Queue, q.state ≠ 3 ∧ q.state ≠ 4) :=
  ⟨⟨queued queue1, { queue1 with state := 4 }, .inr rfl, fun l h => by cases h⟩, ⟨queue1, by decide, by decide⟩⟩

theorem witness_QueueEventsHappen_fetch :
    (∃ (s : State) (x : Ctx) (e : Queue), s.ctxAt 1 = some x ∧ x.queue 1 = some e ∧ x.fetches = true ∧ x.nextServed (x.hwSlot 1) = some 1 ∧
      queueReason { x with lastQ := updKey (fun p => p.1 == x.hwSlot 1) (x.hwSlot 1, 1) x.lastQ } e = some 3) ∧
    (∃ (s : State) (x y : Ctx) (e : Queue) (m : MemErr), s.ctxAt 1 = some x ∧ x.queue 1 = some e ∧ x.fetches = true ∧
      x.nextServed (x.hwSlot 1) = some 1 ∧ y = { x with lastQ := updKey (fun p => p.1 == x.hwSlot 1) (x.hwSlot 1, 1) x.lastQ } ∧
      queueReason y e = none ∧ (s.setCtx y).packetError y e = some m) ∧
    (∃ (s : State) (x y : Ctx) (e : Queue), s.ctxAt 1 = some x ∧ x.queue 1 = some e ∧ x.fetches = true ∧
      x.nextServed (x.hwSlot 1) = some 1 ∧ y = { x with lastQ := updKey (fun p => p.1 == x.hwSlot 1) (x.hwSlot 1, 1) x.lastQ } ∧
      queueReason y e = none ∧ (s.setCtx y).packetError y e = none ∧ packetReason (s.setCtx y) y e ((s.setCtx y).packetBytes y e) = some 4) ∧
    (∃ (s : State) (x y : Ctx) (e : Queue), s.ctxAt 1 = some x ∧ x.queue 1 = some e ∧ x.fetches = true ∧
      x.nextServed (x.hwSlot 1) = some 1 ∧ y = { x with lastQ := updKey (fun p => p.1 == x.hwSlot 1) (x.hwSlot 1, 1) x.lastQ } ∧
      queueReason y e = none ∧ (s.setCtx y).packetError y e = none ∧
      packetReason (s.setCtx y) y e ((s.setCtx y).packetBytes y e) = none) :=
  ⟨⟨serving { queue1 with widx := 65 }, queued { queue1 with widx := 65 }, { queue1 with widx := 65 }, rfl, rfl, rfl, by decide, by decide⟩,
    ⟨{ serving { queue1 with widx := 64 } with errs := [{ lo := keyOf Space.dev 1 0, len := 64, place := 0 }] }, queued { queue1 with widx := 64 },
      _, { queue1 with widx := 64 }, { lo := keyOf Space.dev 1 0, len := 64, place := 0 }, rfl, rfl, rfl, by decide, rfl, by decide,
      by decide +kernel⟩,
    ⟨{ serving { queue1 with widx := 64 } with mem := [(keyOf Space.dev 1 0, 2)] }, queued { queue1 with widx := 64 }, _,
      { queue1 with widx := 64 }, rfl, rfl, rfl, by decide, rfl, by decide, by decide, by decide⟩,
    ⟨serving { queue1 with widx := 64 }, queued { queue1 with widx := 64 }, _, { queue1 with widx := 64 }, rfl, rfl, rfl, by decide, rfl, by decide,
      by decide, by decide⟩⟩

theorem witness_QueueEventsHappen_launch :
    (∀ r : Bool, ∃ (s : State) (x : Ctx) (e : Queue) (p : Packet) (k : Kernel), s.ctxAt 1 = some x ∧ x.queue 1 = some e ∧
      e.fetched = some p ∧ x.kernels[p.kernel]? = some k ∧ p.fence = false ∧ x.state = .run ∧ x.err = none ∧ x.stop = .none ∧
      x.launch = none ∧ e.state = 1 ∧ (∀ w ∈ p.waits, waitMet x w = true) ∧
      (∀ t ∈ x.slots, (s.slotAt t).status = .idle ∨ (s.slotAt t).status = .vacant) ∧ p.range = r) ∧
    (∃ (s : State) (x : Ctx) (l : Launch) (e : Queue), s.ctxAt 1 = some x ∧ x.launch = some l ∧ x.queue l.q = some e ∧ x.state = .run ∧
      x.err = none ∧ s.launchDone x = true ∧ l.q = 0) :=
  ⟨fun r => ⟨serving (fetched1 { launchPacket with range := r }), queued (fetched1 { launchPacket with range := r }),
      fetched1 { launchPacket with range := r }, { launchPacket with range := r }, _, rfl, rfl, rfl, rfl, rfl, rfl, rfl, rfl, rfl, rfl,
      (by intro w h; cases h),
      fun t h => .inl (by rw [List.mem_singleton.mp h]; rfl), rfl⟩,
    ⟨{ serving queue1 with ctxs := [{ queued { fetched1 launchPacket with q := 0, state := 2 } with launch := some { q := 0, idx := 1, wdog := 1, ran := 0 } }] },
      _, _, { fetched1 launchPacket with q := 0, state := 2 }, rfl, rfl, rfl, rfl, rfl, by decide, rfl⟩⟩

/-! ### Witnesses: stops and slices -/

/-- An elastic context with a launch, in cluster k. -/
def elastic (id k huddles : Nat) (stop : Stop) : Ctx :=
  { placedCtx (64 * k) with
      id := id, root := id, stop := stop, launch := some { q := 0, idx := 0, wdog := 0, ran := 0 }, sliceAt := 0,
      res := { placedRes with cls := 1, latency := 1, huddles := huddles },
      warrant := { placedWarrant with res := { placedRes with cls := 1, latency := 1, huddles := huddles } } }

/-- The saved context 2 in cluster 0, and the running context 1 in cluster 1 with the huddles given. -/
def slicing (xs : List Ctx) : State :=
  { unit slot0 with ctxs := elastic 2 0 8 .saved :: xs, saved := [Saved.fresh 2 [slot0]], cycle := 600 }

theorem clusters_of_saved : (upTo 1728).filter (fun k => [elastic 2 0 8 .saved].any (fun y => y.slots.any (fun p => p / 64 == k) ||
    y.shares.any (fun c => c / 8 == k))) = [0] := by decide +kernel

theorem slicing_place (xs : List Ctx) (hx : (slicing xs).family 2 = [elastic 2 0 8 .saved]) : (slicing xs).placeFamily 2 =
    (let u := usageOf ((slicing xs).ctxs.filter (fun y => y.root != 2))
     let fits := clusFits (slicing xs) u [elastic 2 0 8 .saved] (Saved.fresh 2 [slot0])
     (upTo 24).findSome? (fun j => pickUnits (fun ds =>
       match fitAll fits (ds.flatMap (fun d => (upTo 72).map (fun i => d * 72 + i))) [0] [] with
       | some m => if diesOf ([elastic 2 0 8 .saved].flatMap (fun y => y.slots.map (mapSlot m))) == ds &&
           diesOk u (elastic 2 0 8 .saved).warrant.need 12 ds then some m else none
       | none => none)
         ((upTo 24).map (fun d => (d, ((upTo 72).filter (fun i => [0].any (fun k => fits k (d * 72 + i)))).length))) (j + 1) 1 [])) := by
  unfold State.placeFamily
  rw [hx, show (slicing xs).savedOf 2 = some (Saved.fresh 2 [slot0]) from rfl]
  dsimp only
  rw [clusters_of_saved]
  rfl

theorem getD_set {a : Array Bool} {j k : Nat} (h : a.getD j true = true) : (a.setIfInBounds k true).getD j true = true := by
  rw [Array.getD_eq_getD_getElem?] at h ⊢
  rw [Array.getElem?_setIfInBounds]
  split
  · split <;> rfl
  · exact h

theorem getD_sets {a : Array Bool} {j : Nat} (ks : List Nat) (h : a.getD j true = true ∨ j ∈ ks) :
    (ks.foldl (fun (a : Array Bool) p => a.setIfInBounds p true) a).getD j true = true := by
  induction ks generalizing a with
  | nil => exact h.resolve_right (by simp)
  | cons k ks ih =>
    refine ih ?_
    rcases h with h | h
    · exact .inl (getD_set h)
    · rcases List.mem_cons.mp h with rfl | h
      · refine .inl ?_
        rw [Array.getD_eq_getD_getElem?, Array.getElem?_setIfInBounds]
        simp only [if_true]
        split <;> rfl
      · exact .inr h

/-- Slot 0 of core 0 of every cluster. -/
@[irreducible] def corners : List Nat := (List.range 1728).map (fun k => k * 64)

theorem mem_corners (n : Nat) (h : n < 1728) : n * 64 ∈ corners := by
  unfold corners
  exact List.mem_map.mpr ⟨n, List.mem_range.mpr h, rfl⟩

/-- The running context 1, which holds them. -/
def full0 : Ctx := { elastic 1 1 8 .none with slots := corners }

theorem full0_slots : full0.slots = corners := rfl

theorem addCtx_slot (u : Usage) (x : Ctx) (hp : x.placed = true) (h : x.warrant.sealed = false) :
    (u.addCtx x).slot = x.slots.foldl (fun (a : Array Bool) p => a.setIfInBounds p true) u.slot := by
  unfold Usage.addCtx
  simp only [hp, h, Bool.not_true, Bool.false_eq_true, if_false]
  split <;> rfl

theorem usage_one (x : Ctx) (h : x.parent = none) : (usageOf [x]).slot = (Usage.none.addCtx x).slot := by
  unfold usageOf
  simp only [List.foldl_cons, List.foldl_nil, h]
  rfl

/-- Whether a cluster takes the saved family, by the units that others hold. -/
theorem fits_one (xs : List Ctx) (u : Usage) (n : Nat) :
    clusFits (slicing xs) u [elastic 2 0 8 .saved] (Saved.fresh 2 [slot0]) 0 n =
      (!u.slot.getD (n * 64) true && decide (1 ≤ u.free.getD (n * 8) 0) && decide (u.cbank.getD (n * 8) 0 + coreBanks 262144 ≤ 16) &&
        decide (u.xbank.getD n 0 + clusBanks 4194304 ≤ 64) && !u.share.getD (n * 8) true) := by
  have h : clusFits (slicing xs) u [elastic 2 0 8 .saved] (Saved.fresh 2 [slot0]) 0 n =
      (((false || !u.slot.getD (n * 64 + 0) true) && true) && (decide (1 ≤ u.free.getD (n * 8 + 0) 0) && true) &&
        (decide (u.cbank.getD (n * 8 + 0) 0 + coreBanks 262144 ≤ 16) && true) && decide (u.xbank.getD n 0 + clusBanks 4194304 ≤ 64) && (((false || !u.share.getD (n * 8 + 0) true) && true) && true) && true && true && true) := rfl
  rw [h]
  simp

theorem crowded_fits (n : Nat) :
    clusFits (slicing [full0]) (usageOf [full0]) [elastic 2 0 8 .saved] (Saved.fresh 2 [slot0]) 0 n = false := by
  have h : (usageOf [full0]).slot.getD (n * 64) true = true := by
    rw [usage_one full0 rfl, addCtx_slot _ full0 (by decide +kernel) rfl]
    refine getD_sets full0.slots ?_
    by_cases hn : n < 1728
    · exact Or.inr (full0_slots ▸ mem_corners n hn)
    · refine .inl ?_
      rw [Usage.none, Array.getD_eq_getD_getElem?, Array.getElem?_replicate, if_neg (by omega)]
      rfl
  rw [fits_one, h]
  rfl

theorem pick_none {α : Type} (rs : List (Nat × Nat)) (k need : Nat) (acc : List Nat) :
    pickUnits (fun _ => (none : Option α)) rs k need acc = none := by
  induction rs generalizing k need acc with
  | nil => cases k <;> simp [pickUnits]
  | cons r rs ih =>
    cases k with
    | zero => simp [pickUnits]
    | succ k => simp only [pickUnits, ih, ite_self]

theorem slicing_crowded : (slicing [full0]).placeFamily 2 = none := by
  rw [slicing_place [full0] rfl, show (slicing [full0]).ctxs.filter (fun y => y.root != 2) = [full0] from rfl]
  have hf : ∀ l : List Nat, fitAll (clusFits (slicing [full0]) (usageOf [full0]) [elastic 2 0 8 .saved] (Saved.fresh 2 [slot0])) l [0] [] =
      none := by
    intro l
    unfold fitAll
    refine List.findSome?_eq_none_iff.mpr fun n _ => ?_
    rw [crowded_fits, Bool.and_false]
    rfl
  simp only [hf, pick_none]
  exact List.findSome?_eq_none_iff.mpr fun _ _ => rfl

theorem alone_fits (n : Nat) (hn : n < 1728) :
    clusFits (slicing []) Usage.none [elastic 2 0 8 .saved] (Saved.fresh 2 [slot0]) 0 n = true := by
  rw [fits_one, Usage.none]
  simp only [Array.getD_eq_getD_getElem?, Array.getElem?_replicate, if_pos (show n * 64 < 110592 by omega),
    if_pos (show n * 8 < 13824 by omega), if_pos hn]
  rfl

/-- The first cluster that fits is taken. -/
theorem fit_head (fits : Nat → Nat → Bool) (n : Nat) (ns : List Nat) (h : fits 0 n = true) : fitAll fits (n :: ns) [0] [] = some [(0, n)] := by
  simp [fitAll, h]

theorem units_zero : ([0].flatMap (fun d => (upTo 72).map (fun i => d * 72 + i))) = 0 :: (upTo 72).drop 1 := by decide

theorem alone_fit : fitAll (clusFits (slicing []) Usage.none [elastic 2 0 8 .saved] (Saved.fresh 2 [slot0]))
    ([0].flatMap (fun d => (upTo 72).map (fun i => d * 72 + i))) [0] [] = some [(0, 0)] :=
  units_zero ▸ fit_head _ 0 _ (alone_fits 0 (by decide))

/-- The first unit that has room and passes the test is taken. -/
theorem pick_first {α : Type} (ok : List Nat → Option α) (v : α) (d r need : Nat) (rest : List (Nat × Nat)) (hn : need ≤ r)
    (h : ok [d] = some v) : pickUnits ok ((d, r) :: rest) 1 need [] = some v := by
  have e : need - r = 0 := by omega
  unfold pickUnits
  rw [if_neg (by omega), e]
  simp only [pickUnits, if_true, List.reverse_cons, List.reverse_nil, List.nil_append, h]

theorem upTo24 : upTo 24 = 0 :: (upTo 24).drop 1 := by decide

theorem alone_rooms : ((upTo 24).map (fun d => (d, ((upTo 72).filter (fun i => [0].any (fun k =>
    clusFits (slicing []) Usage.none [elastic 2 0 8 .saved] (Saved.fresh 2 [slot0]) k (d * 72 + i)))).length))) =
    (0, 72) :: ((upTo 24).drop 1).map (fun d => (d, 72)) := by
  rw [show (0, 72) :: ((upTo 24).drop 1).map (fun d => (d, 72)) = (0 :: (upTo 24).drop 1).map (fun d => (d, 72)) from rfl, ← upTo24]
  refine List.map_congr_left fun d hd => ?_
  rw [List.filter_eq_self.mpr]
  · rfl
  · intro i hi
    have := List.mem_range.mp hd
    have := List.mem_range.mp hi
    show (clusFits (slicing []) Usage.none [elastic 2 0 8 .saved] (Saved.fresh 2 [slot0]) 0 (d * 72 + i) || false) = true
    rw [alone_fits _ (by omega)]
    rfl

theorem alone_dies : (diesOf ([elastic 2 0 8 .saved].flatMap (fun y => y.slots.map (mapSlot [(0, 0)]))) == [0] &&
    diesOk Usage.none (elastic 2 0 8 .saved).warrant.need 12 [0]) = true := by decide +kernel

theorem first_of {α : Type} (f : Nat → Option α) (a : α) (h : f 0 = some a) : (upTo 24).findSome? f = some a := by
  rw [upTo24, List.findSome?_cons, h]

theorem alone_search :
    (upTo 24).findSome? (fun j => pickUnits (fun ds =>
      match fitAll (clusFits (slicing []) Usage.none [elastic 2 0 8 .saved] (Saved.fresh 2 [slot0]))
          (ds.flatMap (fun d => (upTo 72).map (fun i => d * 72 + i))) [0] [] with
      | some m => if diesOf ([elastic 2 0 8 .saved].flatMap (fun y => y.slots.map (mapSlot m))) == ds &&
          diesOk Usage.none (elastic 2 0 8 .saved).warrant.need 12 ds then some m else none
      | none => none) ((0, 72) :: ((upTo 24).drop 1).map (fun d => (d, 72))) (j + 1) 1 []) = some [(0, 0)] := by
  refine first_of _ _ (pick_first _ _ 0 72 1 _ (by decide) ?_)
  rw [alone_fit]
  exact if_pos alone_dies

theorem slicing_alone : (slicing []).placeFamily 2 = some [(0, 0)] := by
  rw [slicing_place [] rfl, show usageOf ((slicing []).ctxs.filter (fun y => y.root != 2)) = Usage.none from rfl]
  dsimp only
  rw [alone_rooms]
  exact alone_search

/-- The saved context 2 has run, so it comes back to clusters. -/
theorem slicing_ran (xs : List Ctx) (hx : (slicing xs).family 2 = [elastic 2 0 8 .saved]) :
    (slicing xs).slicePlace 2 = ((slicing xs).placeFamily 2).map .clusters := by
  have h : (slicing xs).neverRan 2 = none := by
    unfold State.neverRan
    rw [hx, show (slicing xs).savedOf 2 = some (Saved.fresh 2 [slot0]) from rfl]
    dsimp only
    rw [show (Saved.fresh 2 [slot0] == Saved.fresh 2 ((Saved.fresh 2 [slot0]).slots.map (fun c =>
      allottedSlot (elastic 2 0 8 .saved) c.phys c.thread c.status))) = false by decide +kernel, Bool.and_false]
    rfl
  unfold State.slicePlace
  rw [h]

/-- The context 2 that has never run. -/
def waiting2 : State :=
  { slicing [] with saved := [Saved.fresh 2 [allottedSlot (elastic 2 0 8 .saved) 0 0 .vacant]] }

theorem waiting2_first : waiting2.neverRan 2 = some (elastic 2 0 8 .saved) := by decide +kernel

theorem room_none (k : Nat) (h : k < 13824) : coreRoom Usage.none (elastic 2 0 8 .saved).warrant.need 13 k = 7 := by
  unfold coreRoom
  simp only [Usage.none, Array.getD_eq_getD_getElem?, Array.getElem?_replicate, if_pos h, if_pos (show k / 8 < 1728 by omega)]
  rfl

theorem clusters_none (d : Nat) (h : d < 24) : clusList Usage.none (elastic 2 0 8 .saved).warrant.need 13 [d] =
    (upTo 72).map (fun i => (d * 72 + i, 56)) := by
  unfold clusList
  rw [List.flatMap_cons, List.flatMap_nil, List.append_nil, List.map_congr_left (g := fun i => (d * 72 + i, 56))]
  · exact List.filter_eq_self.mpr (by simp)
  · intro i hi
    have := List.mem_range.mp hi
    unfold clusRoom
    rw [List.map_congr_left (g := fun _ => 7) (fun j hj => room_none _ (by have := List.mem_range.mp hj; omega))]
    rfl

theorem filterMap_some {α β : Type} {f : α → Option β} {g : α → β} {l : List α} (h : ∀ x ∈ l, f x = some (g x)) :
    l.filterMap f = l.map g := by
  induction l with
  | nil => rfl
  | cons x xs ih =>
    rw [List.filterMap_cons_some (h x (List.mem_cons_self ..)), ih fun y hy => h y (List.mem_cons_of_mem _ hy), List.map_cons]

theorem free_none (c : Nat) (h : c < 8) : (if coreRoom Usage.none (elastic 2 0 8 .saved).warrant.need 13 c = 0 then [] else
    (upTo 7).filterMap (fun i => if Usage.none.slot.getD (c * 8 + i) true then none else some (c * 8 + i))) =
      (upTo 7).map (fun i => c * 8 + i) := by
  rw [room_none c (by omega), if_neg (by decide)]
  refine filterMap_some fun i hi => ?_
  have := List.mem_range.mp hi
  have e : Usage.none.slot.getD (c * 8 + i) true = false := by
    rw [Usage.none, Array.getD_eq_getD_getElem?, Array.getElem?_replicate, if_pos (by omega)]
    rfl
  rw [e]
  rfl

theorem least_none : leastUnits ((upTo 72).map (fun i => (0 * 72 + i, 56))) 1 (((upTo 72).map (fun i => (0 * 72 + i, 56))).length + 1) 1 =
    some 1 := by
  decide +kernel

theorem slots_first (u : Usage) (n : Need) (hc : clusList u n 13 [0] = (upTo 72).map (fun i => (0 * 72 + i, 56))) (ht : n.threads = 1)
    (hf : ∀ c, c < 8 → (if coreRoom u n 13 c = 0 then [] else
      (upTo 7).filterMap (fun i => if u.slot.getD (c * 8 + i) true then none else some (c * 8 + i))) = (upTo 7).map (fun i => c * 8 + i)) :
    slotsIn u n 13 [0] = some [0] := by
  unfold slotsIn
  rw [hc, ht]
  dsimp only
  rw [least_none, show (upTo 72).map (fun i => (0 * 72 + i, 56)) = (0, 56) :: (upTo 71).map (fun i => (0 * 72 + (i + 1), 56)) from rfl]
  refine pick_first _ _ 0 56 1 _ (by decide) ?_
  rw [show coresOfClus [0] = upTo 8 from rfl, List.flatMap_def, List.map_congr_left (l := upTo 8) fun c hc => hf c (List.mem_range.mp hc)]
  rfl

theorem place_first (u : Usage) (n : Need) (ht : n.threads = 1)
    (hc : ∀ d, d < 24 → clusList u n 13 [d] = (upTo 72).map (fun i => (d * 72 + i, 56)))
    (hs : slotsIn u n 13 [0] = some [0]) (ho : diesOk u n 13 [0] = true) : placeUpTo u n 13 = some [0] := by
  unfold placeUpTo
  rw [List.map_congr_left (g := fun d => (d, 4032)) (fun d hd => by
    rw [hc d (List.mem_range.mp hd), List.foldl_map]
    exact congrArg _ (by decide +kernel : (upTo 72).foldl (fun a _ => a + 56) 0 = 4032)),
    show (upTo 24).map (fun k => k + 1) = 1 :: (upTo 23).map (fun k => k + 2) from rfl, ht]
  dsimp only
  rw [List.findSome?_cons, if_neg (by decide +kernel),
    show (upTo 24).map (fun d => (d, 4032)) = (0, 4032) :: (upTo 23).map (fun d => (d + 1, 4032)) from rfl,
    pick_first _ [0] 0 4032 1 _ (by decide) (by
      rw [hs]
      exact if_pos (by rw [ho]; decide))]

theorem waiting2_empty : placeUpTo (waiting2.usage []) (elastic 2 0 8 .saved).warrant.need 13 = some [0] :=
  place_first Usage.none _ rfl clusters_none (slots_first Usage.none _ (clusters_none 0 (by decide)) rfl free_none) (by decide +kernel)

theorem waiting2_place : placeUpTo (waiting2.usage (waiting2.ctxs.filter (fun y => y.root != 2)))
    (elastic 2 0 8 .saved).warrant.need 13 = some [0] := by
  rw [show waiting2.ctxs.filter (fun y => y.root != 2) = [] from rfl]
  exact waiting2_empty

theorem slots_of_first {s : State} {root : Nat} {x : Ctx} {ps : List Nat} (hx : s.neverRan root = some x)
    (hp : placeUpTo (s.usage (s.ctxs.filter (fun y => y.root != root))) x.warrant.need 13 = some ps) :
    s.slicePlace root = some (.slots ps) := by
  unfold State.slicePlace
  rw [hx]
  dsimp only
  rw [hp]

theorem slicing_wanted : (slicing [full0]).wanted 1 = true := by
  have ho : (slicing [full0]).sliced 1 = [] := rfl
  have h : ((slicing [full0]).waits (elastic 2 0 8 .saved) && (upTo (([] : List Nat).length + 1)).any (fun i =>
      (((slicing [full0]).without (([] : List Nat).take i)).slicePlace 2).isNone &&
        (((slicing [full0]).without (1 :: ([] : List Nat).take i)).slicePlace 2).isSome)) = true := by
    show (true && ((((slicing [full0]).slicePlace 2).isNone && ((slicing []).slicePlace 2).isSome) || false)) = true
    rw [slicing_ran _ rfl, slicing_ran _ rfl, slicing_crowded, slicing_alone]
    rfl
  unfold State.wanted
  rw [ho]
  exact List.any_eq_true.mpr ⟨elastic 2 0 8 .saved, List.mem_cons_self .., h⟩

/-- Context 1 in a stage of a stop. -/
def stopping (st : Stop) : State := { unit slot0 with ctxs := [{ placedCtx 0 with stop := st }], cycle := 4096 }

theorem witness_StopsSaveAndRestore :
    (∃ (s : State) (root : Nat), s.family root ≠ [] ∧ s.stopOf root = .none) ∧
    (∃ (s : State) (root : Nat) (v : Word), s.stopOf root = .decided v ∧ v.toNat = s.cycle.toNat ∧ s.resetPending root = false) ∧
    (∃ (s : State) (root : Nat), s.stopOf root = .halted ∧ (∀ c ∈ s.allSlots, s.inFamily root c = true → c.block = none) ∧
      ∀ r ∈ s.hreqs, r.root ≠ root) ∧
    (∃ (s : State) (root : Nat), s.stopOf root = .flushed ∧ s.claimBusy root = false ∧ s.stepping root = false ∧ s.saveError root = none) ∧
    (∃ (s : State) (root : Nat) (e : MemErr) (x : Ctx), s.stopOf root = .flushed ∧ s.claimBusy root = false ∧ s.stepping root = false ∧
      s.saveError root = some (e, x)) ∧
    (∃ (s : State) (root : Nat) (vs ws : List Saved) (v : Saved) (x : Ctx) (xs : List Ctx), s.saved = vs ++ v :: ws ∧ v.root = root ∧
      (∀ w ∈ vs, w.root ≠ root) ∧ s.family root = x :: xs ∧ x.stop = .restoring) ∧
    (∃ (s : State) (root : Nat) (vs ws : List Saved) (v : Saved) (x : Ctx) (xs : List Ctx), s.saved = vs ++ v :: ws ∧ v.root = root ∧
      (∀ w ∈ vs, w.root ≠ root) ∧ s.family root = x :: xs ∧ x.stop = .saved ∧ x.res.cls = 0) ∧
    (∃ (s : State) (root : Nat) (v : Word), s.stopOf root = .resumeAt v ∧ v.toNat = s.cycle.toNat) ∧
    (∃ c : Slot, c.wait = some .mwait ∧ c.dbgHalt = false) ∧ (∃ c : Slot, c.wait ≠ some .mwait ∧ c.dbgHalt = false) ∧
    (∃ c : Slot, c.wait ≠ some .mwait ∧ c.dbgHalt = true) ∧ (∃ c : Slot, c.status ≠ .stopped) :=
  ⟨⟨stopping .none, 1, by decide, rfl⟩, ⟨stopping (.decided 4096), 1, 4096, rfl, rfl, rfl⟩,
    ⟨stopping .halted, 1, rfl, fun c hc _ => by rw [List.mem_singleton.mp hc]; rfl, by decide⟩,
    ⟨stopping .flushed, 1, rfl, rfl, rfl, rfl⟩, ⟨{ stopping .flushed with errs := [upset] }, 1, upset, _, rfl, rfl, rfl, rfl⟩,
    ⟨{ stopping .restoring with saved := [Saved.fresh 2 [], Saved.fresh 1 [slot0]] }, 1, [Saved.fresh 2 []], [], Saved.fresh 1 [slot0], _, _, rfl,
      rfl, by decide, rfl, rfl⟩,
    ⟨{ stopping .saved with saved := [Saved.fresh 1 [slot0]] }, 1, [], [], Saved.fresh 1 [slot0], _, _, rfl, rfl, by decide, rfl, rfl, rfl⟩,
    ⟨stopping (.resumeAt 4096), 1, 4096, rfl, rfl⟩, ⟨{ slot0 with wait := some .mwait, status := .waitMem }, rfl, rfl⟩,
    ⟨slot0, by decide, rfl⟩, ⟨{ slot0 with dbgHalt := true }, by decide, rfl⟩, ⟨slot0, by decide⟩⟩

theorem witness_StopsSaveAndRestore_slices :
    (∃ (s : State) (root : Nat), s.neverRan root = none) ∧
    (∃ (s : State) (ctx : Nat) (x : Ctx) (m : ClusMap), s.ctxAt ctx = some x ∧ s.waits x = true ∧
      (∀ y ∈ s.ctxs, s.waits y = true → placedBefore y x = true → s.slicePlace y.root = none) ∧ s.slicePlace x.root = some (.clusters m)) ∧
    (∃ (s : State) (ctx : Nat) (x : Ctx) (ps : List Nat), s.ctxAt ctx = some x ∧ s.waits x = true ∧ s.neverRan x.root = some x ∧
      placeUpTo (s.usage (s.ctxs.filter (fun y => y.root != x.root))) x.warrant.need 13 = some ps ∧
      (∀ y ∈ s.ctxs, s.waits y = true → placedBefore y x = true → s.slicePlace y.root = none) ∧ s.slicePlace x.root = some (.slots ps)) ∧
    (∃ (s : State) (ctx : Nat) (x : Ctx), s.ctxAt ctx = some x ∧ s.heads x = true ∧ x.res.cls ≠ 0 ∧ x.stop = .none ∧
      x.sliceAt.toNat + 600 * x.res.latency = s.cycle.toNat ∧ s.wanted x.root = true) ∧
    (∃ (s : State) (ctx : Nat) (x : Ctx), s.ctxAt ctx = some x ∧ s.heads x = true ∧ x.res.cls ≠ 0 ∧ x.stop = .none ∧
      x.sliceAt.toNat + 600 * x.res.latency = s.cycle.toNat ∧ s.wanted x.root = false) :=
  ⟨⟨unit slot0, 7, rfl⟩,
    ⟨slicing [], 2, elastic 2 0 8 .saved, [(0, 0)], rfl, rfl,
      fun y hy _ hp => absurd (List.mem_singleton.mp hy ▸ hp) (by decide), (slicing_ran [] rfl).trans (congrArg (Option.map Place.clusters) slicing_alone)⟩,
    ⟨waiting2, 2, elastic 2 0 8 .saved, [0], rfl, rfl, waiting2_first, waiting2_place,
      fun y hy _ hp => absurd (List.mem_singleton.mp hy ▸ hp) (by decide), slots_of_first waiting2_first waiting2_place⟩,
    ⟨slicing [full0], 1, full0, rfl, rfl, by decide, rfl, rfl, slicing_wanted⟩,
    ⟨{ unit slot0 with ctxs := [full0], cycle := 600 }, 1, full0, rfl, rfl, by decide, rfl, rfl, by decide⟩⟩

/-! ### Witnesses: debug modules, links and claims -/

/-- The thread with a trace word. -/
def traced : Slot := { slot0 with q5 := [{ word := 9, cycle := 0, pc := 0 }] }

theorem witness_DebugModulesRecord :
    (∃ (s : State) (slot : Nat) (m : DbgMod) (w : TraceWord) (ws : List TraceWord), (s.slotAt slot).q5 = w :: ws ∧ s.dbg = [m] ∧
      m.clus = clusOf slot ∧ (s.slotAt slot).owner = some m.holder ∧ m.pend = []) ∧
    (∃ (s : State) (slot : Nat) (w : TraceWord) (ws : List TraceWord), (s.slotAt slot).q5 = w :: ws ∧ s.dbg = []) ∧
    (∃ (s : State) (clus : Nat) (m : DbgMod) (cs : List Slot), s.dbg = [m] ∧ m.clus = clus ∧ 0 < m.cfg.period ∧
      s.cycle.toNat % m.cfg.period = 0 ∧ m.pend = [] ∧
      cs = s.allSlots.filter (fun c => c.owner == some m.holder && clusOf c.phys == clus) ∧ cs ≠ []) ∧
    (∃ (s : State) (clus : Nat) (m : DbgMod), s.dbg = [m] ∧ m.clus = clus ∧ m.capture = .frozen ∧ m.buf ≠ []) ∧
    (∃ (s : State) (clus holder : Nat), s.cross = [(holder, clus, false)]) ∧
    (∃ (s : State) (clus holder : Nat), s.cross = [(holder, clus, true)]) ∧
    (∃ (s : State) (ctx : Nat) (x : Ctx) (v : Word), s.ctxAt ctx = some x ∧ s.dbgResume = [(ctx, v)] ∧ v.toNat = s.cycle.toNat ∧
      x.err = none ∧ x.stop = .none) ∧
    (∃ (s : State) (clus : Nat) (m : DbgMod), s.dbg = [m] ∧ m.clus = clus ∧ m.hit = false ∧ m.cfg.trigger = .cycleIs s.cycle) :=
  ⟨⟨{ unit traced with dbg := [tracing] }, 0, _, _, _, rfl, rfl, rfl, rfl, rfl⟩, ⟨unit traced, 0, _, _, rfl, rfl⟩,
    ⟨{ unit slot0 with dbg := [{ tracing with cfg := { tracing.cfg with period := 64 } }], cycle := 64 }, 0, _, _, rfl, rfl, by decide, by decide,
      rfl, rfl, by decide⟩,
    ⟨{ unit slot0 with dbg := [{ tracing with capture := .frozen, buf := [{ type := 1, slot := 0, lcore := 0, cycle := 0, pc := 0, value := 0 }] }] },
      0, _, rfl, rfl, rfl, by decide⟩,
    ⟨{ unit slot0 with cross := [(1, 0, false)] }, 0, 1, rfl⟩, ⟨{ unit slot0 with cross := [(1, 0, true)] }, 0, 1, rfl⟩,
    ⟨{ unit slot0 with dbgResume := [(1, 64)], cycle := 64 }, 1, _, _, rfl, rfl, rfl, rfl, rfl⟩,
    ⟨{ unit slot0 with dbg := [{ tracing with cfg := { tracing.cfg with trigger := .cycleIs 7 } }], cycle := 7 }, 0, _, rfl, rfl, rfl, rfl⟩⟩

/-- Link n, trained to node 3. -/
def link (n : Nat) : Link := { Link.fresh n with node := some 3, up := true, credits := Vector.replicate 16 32 }

/-- A flit of node 3 for node 0, before its CRC. -/
def flit0 : Flit := { vc := 1, dst := 0, src := 3, ctx := 0, ftype := 0, len := 2, payload := [1, 2], crc := 0 }

/-- A flit without a payload, on channel 1. -/
def bare0 (type : BitVec 4) : Flit := { flit0 with ftype := type, len := 0, payload := [] }

theorem crc_sealed (f : Flit) : flitCrcOk (sealFlit f) = true := by
  show (crc32 (flitCovered f) == crc32 (flitCovered f)) = true
  exact beq_self_eq_true _

/-- A module with those links. -/
def linked (ls : List Link) : State := { unit slot0 with links := ls }

/-- What the receipt of a flit asks of its link. -/
def Takes (s : State) (l : Link) : Prop := l = s.linkAt 0 ∧ l.up = true ∧ l.fails < 9 ∧ l.nacks < 9

theorem witness_LinksCarryFlits :
    (∃ (s : State) (known : Bool), known = true ↔ ∀ r, s.commission = some r → ∀ es fs e, r.linkNode = es ++ e :: fs →
      (∀ g ∈ es, g.1 ≠ 95) → e.1 = 95 → e.2 = 3) ∧
    (∃ s l f, Takes s l ∧ l.fails = 8 ∧ flitCrcOk f = false) ∧
    (∃ s l f, Takes s l ∧ flitCrcOk f = true ∧ f.dst.toNat ≠ s.ownNode) ∧
    (∃ s l f, Takes s l ∧ flitCrcOk f = true ∧ l.node = some f.src.toNat ∧ f.dst.toNat = s.ownNode ∧ f.len ≠ 0 ∧ f.vc.toNat = 1) ∧
    (∃ s l f, Takes s l ∧ flitCrcOk f = true ∧ l.node = some f.src.toNat ∧ f.dst.toNat = s.ownNode ∧ f.len ≠ 0 ∧ f.vc.toNat = 2 ∧
      s.mayEnter l f = false) ∧
    (∃ s l f, Takes s l ∧ flitCrcOk f = true ∧ l.node = some f.src.toNat ∧ f.dst.toNat = s.ownNode ∧ f.len ≠ 0 ∧ f.vc.toNat = 2 ∧
      s.mayEnter l f = true ∧ (l.got.filter (fun g => g.vc == f.vc)).length = 31) ∧
    (∃ s l f g, Takes s l ∧ flitCrcOk f = true ∧ l.node = some f.src.toNat ∧ f.dst.toNat = s.ownNode ∧ f.len = 0 ∧
      f.ftype = Config.replayType ∧ l.sent = [g] ∧ g.vc = f.vc) ∧
    (Config.flitType 0 ≠ Config.replayType → ∃ s l f g, Takes s l ∧ flitCrcOk f = true ∧ l.node = some f.src.toNat ∧ f.dst.toNat = s.ownNode ∧
      f.len = 0 ∧ f.ftype ≠ Config.replayType ∧ l.sent = [g] ∧ g.vc = f.vc) ∧
    (∃ s l vc fs gs f, Takes s l ∧ l.out = fs ++ f :: gs ∧ f.vc = vc ∧ fs ≠ [] ∧ (∀ g ∈ fs, g.vc ≠ vc) ∧ f.len = 0) ∧
    (∃ s l vc fs gs f, Takes s l ∧ l.out = fs ++ f :: gs ∧ f.vc = vc ∧ fs ≠ [] ∧ (∀ g ∈ fs, g.vc ≠ vc) ∧ f.len ≠ 0 ∧
      l.credits[vc.toNat]? = some 1 ∧ l.turnOf vc = true) :=
  ⟨⟨linked [], true, by simp; intro r h; cases h⟩,
    ⟨linked [{ link 0 with fails := 8 }], _, { flit0 with crc := 1 }, ⟨rfl, rfl, by decide, by decide⟩, rfl, by decide +kernel⟩,
    ⟨linked [link 0], _, sealFlit { flit0 with dst := 1 }, ⟨rfl, rfl, by decide, by decide⟩, crc_sealed _, by decide⟩,
    ⟨linked [link 0], _, sealFlit flit0, ⟨rfl, rfl, by decide, by decide⟩, crc_sealed _, rfl, rfl, by decide, rfl⟩,
    ⟨linked [link 0], _, sealFlit { flit0 with vc := 2 }, ⟨rfl, rfl, by decide, by decide⟩, crc_sealed _, rfl, rfl, by decide, rfl, rfl⟩,
    ⟨linked [{ link 0 with got := List.replicate 31 { flit0 with vc := 2 } }], _, sealFlit { flit0 with vc := 2, ctx := 1 },
      ⟨rfl, rfl, by decide, by decide⟩, crc_sealed _, rfl, rfl, by decide, rfl, by decide, by decide⟩,
    ⟨linked [{ link 0 with sent := [flit0] }], _, sealFlit (bare0 Config.replayType), flit0, ⟨rfl, rfl, by decide, by decide⟩, crc_sealed _, rfl, rfl,
      rfl, rfl, rfl, rfl⟩,
    fun h => ⟨linked [{ link 0 with sent := [flit0] }], _, sealFlit (bare0 (Config.flitType 0)), flit0, ⟨rfl, rfl, by decide, by decide⟩,
      crc_sealed _, rfl, rfl, rfl, h, rfl, rfl⟩,
    ⟨linked [{ link 0 with out := [{ flit0 with vc := 0 }, bare0 0] }], _, 1, [{ flit0 with vc := 0 }], [], bare0 0,
      ⟨rfl, rfl, by decide, by decide⟩, rfl, rfl, by decide, by decide, rfl⟩,
    ⟨linked [{ link 0 with out := [{ flit0 with vc := 0 }, flit0], credits := Vector.replicate 16 1 }], _, 1, [{ flit0 with vc := 0 }], [], flit0,
      ⟨rfl, rfl, by decide, by decide⟩, rfl, rfl, by decide, by decide, by decide, by decide, rfl⟩⟩

/-- A referee's message for node 3 on channel 0. -/
def message0 : OutMsg := { node := 3, vc := 0, bytes := [7] }

theorem witness_LinksCarryFlits_down :
    (∃ (s : State) (f : Flit) (x : Ctx), f.vc.toNat = 2 ∧ s.ctxAt f.ctx.toNat = some x ∧ x.warrant.sealed = false) ∧
    (∃ (s t : State) (m : OutMsg) (k : Link), s.outq = [m] ∧ m.vc = 0 ∧ s.linkTo m.node = some k ∧ k.link = 0 ∧
      (∀ f ∈ (s.linkAt 0).out, f.vc ≠ 0) ∧ t = State.post { s with outq := [] } m.node 0 m.bytes ∧ ∃ f ∈ (t.linkAt 0).out, f.vc = 0) ∧
    (∃ (s t : State) (l m : Link), l = s.linkAt 0 ∧ l.up = true ∧ l.fails = 9 ∧ t = s.setLink { l with up := false, out := [], sent := [] } ∧
      t.links.find? (fun m => m.link / 4 == 0 / 4 && m.up) = some m) ∧
    (∃ (s t : State) (l : Link), l = s.linkAt 0 ∧ l.up = true ∧ l.nacks = 9 ∧ t = s.setLink { l with up := false, out := [], sent := [] } ∧
      t.links.find? (fun m => m.link / 4 == 0 / 4 && m.up) = none) :=
  ⟨⟨unit slot0, { flit0 with vc := 2, ctx := 1 }, _, rfl, rfl, rfl⟩,
    ⟨{ linked [link 0] with outq := [message0] }, _, message0, link 0, rfl, rfl, rfl, rfl, by decide, rfl, by decide +kernel⟩,
    ⟨linked [{ link 0 with fails := 9 }, link 3], _, _, link 3, rfl, rfl, rfl, rfl, by decide⟩,
    ⟨linked [{ link 0 with nacks := 9 }, link 4], _, _, rfl, rfl, rfl, rfl, by decide⟩⟩

/-- Context 1 with window 1 over the first 65,536 bytes of its memory, bound to node 0. -/
def opened : Ctx := { placedCtx 0 with winIn := some (0x1000000000000, 65536) }

/-- The module with that context, its first page in its station. -/
def opening (errs : List MemErr) : State := { unit slot0 with ctxs := [opened], tlb := [(0, 1, 0)], errs := errs }

/-- What an inbound access of n bytes at an offset asks. -/
def Inbound (s : State) (x : Ctx) (off n : Nat) (acc : Acc) (k : Nat) : Prop :=
  s.ctxAt 1 = some x ∧ x.winIn = some (0x1000000000000, 65536) ∧ x.node = 0 ∧ x.keyValid = true ∧
    resolveDev x (BitVec.ofNat 64 (0x1000000000000 + off)) (0x1000000000000 + off - 0x1000000000000) acc = .ok k ∧
    (∃ j, resolveDev x (BitVec.ofNat 64 (0x1000000000000 + off)) (0x1000000000000 + off - 0x1000000000000 + n - 1) acc = .ok j) ∧
    ∀ q ∈ spanKeys k n, s.tlbHit q = true

theorem witness_LinksCarryFlits_inbound :
    (∃ s x k, Inbound s x 1020 4 .engRead k ∧ s.errorAt k 4 = none) ∧
    (∃ s x k e, Inbound s x 1020 4 .engRead k ∧ s.errorAt k 4 = some e ∧ x.err = none) ∧
    (∃ s x k, Inbound s x 0 1 .engWrite k) ∧
    (∃ (s : State) (x : Ctx), s.ctxAt 1 = some x ∧ x.winIn = none) ∧ (∃ (s : State) (x : Ctx), s.ctxAt 1 = some x ∧ x.node ≠ 1) :=
  ⟨⟨opening [], opened, keyOf Space.dev 1 1020, ⟨rfl, rfl, rfl, rfl, of_allowsAt (by decide), ⟨keyOf Space.dev 1 1023, of_allowsAt (by decide)⟩,
      by decide⟩, by decide⟩,
    ⟨opening [{ upsetDev with lo := keyOf Space.dev 1 960 }], opened, keyOf Space.dev 1 1020, { upsetDev with lo := keyOf Space.dev 1 960 },
      ⟨rfl, rfl, rfl, rfl, of_allowsAt (by decide), ⟨keyOf Space.dev 1 1023, of_allowsAt (by decide)⟩, by decide⟩, by decide, rfl⟩,
    ⟨opening [], opened, keyOf Space.dev 1 0, ⟨rfl, rfl, rfl, rfl, of_allowsAt (by decide), ⟨keyOf Space.dev 1 0, of_allowsAt (by decide)⟩,
      by decide⟩⟩,
    ⟨unit slot0, _, rfl, rfl⟩, ⟨unit slot0, _, rfl, by decide⟩⟩

/-- Context 1 as a sealed context with pair 3 on die 0. -/
def sealed0 : Ctx := { placedCtx 0 with warrant := { placedWarrant with sealed := true }, pairs := [(0, 3)] }

theorem witness_LinksCarryFlits_responses :
    (∃ (s : State) (x : Ctx) (r : Link × BitVec 4), x.warrant.sealed = false ∧ s.dataLink x 3 true = some r) ∧
    (∃ (s : State) (x : Ctx) (r : Link × BitVec 4), x.warrant.sealed = true ∧ s.dataLink x 3 false = some r) ∧
    (∃ (s : State) (node off : Nat) (bs : List Byte), s.ctxAt 0 = none ∧ node < 2 ^ 16 ∧ off + bs.length = 2 ^ 64 ∧ bs ≠ []) :=
  ⟨⟨linked [link 0], placedCtx 0, (link 0, 3), rfl, rfl⟩, ⟨linked [link 0], sealed0, (link 0, 14), rfl, rfl⟩,
    ⟨unit slot0, 65535, 2 ^ 64 - 1, [7], rfl, by decide, by decide, by decide⟩⟩

/-- R397: the check value of CRC-32, that of the digits 1 to 9 (notes/assumptions/69.md). -/
theorem test_crc32 : crc32 [0x31, 0x32, 0x33, 0x34, 0x35, 0x36, 0x37, 0x38, 0x39] = 0xCBF43926#32 := by decide +kernel

/-- The header of node 0 for a command on context 1, with its payload's length. -/
def cmd (code len : Nat) : PortHdr :=
  { node := 0, magic := [0x47, 0x58, 0x50, 0x43], code := code, tag := 1, ctx := 1, zeros := List.replicate 8 0, len := len }

/-- A commissioning record of node 0, whose domain 0 has the one member given. -/
def record (member : Nat) : CommissionRecord :=
  { issuers := [{ digest := 0, active := true, domains := [0] }], domains := [(0, [member])], factor := 1, reserve := [], energy := none, node := 0,
    linkNode := [] }

/-- A claim of this device, sent in cycle 0 for context 1's child. -/
def claim0 : Claim :=
  { msg := { serial := 1, root := 1, notBefore := 5, device := 0 }, first := 0, last := 0, who := .redeemPort (cmd 6 0) 1 0 0 }

/-- A module with that claim, its home being the member given. -/
def claiming (member : Nat) (r : List Redeemed) : State :=
  { unit slot0 with commission := some (record member), claims := [claim0], redemption := r, bootTime := some 5, cycle := 6000000 }

theorem home_of_record (member : Nat) (root : BitVec 128) (s : State) (h : s.commission = some (record member)) :
    s.homeOf 0 root = member := by
  have hm : s.members 0 = [member] := by unfold State.members; rw [h]; rfl
  unfold State.homeOf
  rw [hm]
  simp [Nat.mod_one]

theorem witness_ClaimsAreAnswered :
    (∃ (s : State) (c : Claim), s.claims = [c] ∧ s.homeOf c.who.domain c.msg.root = s.ownNode ∧ (s.tableClaim c.msg).1 = 0) ∧
    (∃ (s : State) (c : Claim), s.claims = [c] ∧ s.homeOf c.who.domain c.msg.root = s.ownNode ∧ (s.tableClaim c.msg).1 = 7) ∧
    (∃ (s : State) (c : Claim), s.claims = [c] ∧ s.homeOf c.who.domain c.msg.root ≠ s.ownNode ∧
      c.last.toNat + 60000 ≤ s.cycle.toNat ∧ c.first.toNat + 6000000 = s.cycle.toNat) ∧
    (∃ (s : State) (m : ClaimMsg), s.claims = [] ∧ m.device ≠ s.ownNode ∧ s.commission.isSome = true) ∧
    (∃ (s : State) (m : ClaimMsg) (b : Word), s.bootTime = some b ∧ m.notBefore.toNat + 1 = b.toNat) ∧
    (∃ (s : State) (m : ClaimMsg) (b : Word) (e : Redeemed), s.bootTime = some b ∧ b.toNat = m.notBefore.toNat ∧ s.redemption = [e] ∧
      e.serial = m.serial ∧ e.spent = true) ∧
    (∃ (s : State) (m : ClaimMsg) (b : Word) (e : Redeemed), s.bootTime = some b ∧ b.toNat = m.notBefore.toNat ∧ s.redemption = [e] ∧
      e.serial = m.serial ∧ e.spent = false ∧ e.device = m.device) ∧
    (∃ (s : State) (m : ClaimMsg) (dom : Word), s.spentOut = [(m, dom)] ∧ s.homeOf dom m.root = s.ownNode) ∧
    (∃ (s : State) (m : ClaimMsg) (dom : Word), s.spentOut = [(m, dom)] ∧ s.homeOf dom m.root ≠ s.ownNode) :=
  ⟨⟨claiming 0 [], claim0, rfl, home_of_record 0 _ _ rfl, by decide⟩,
    ⟨claiming 0 [{ serial := 1, device := 9, spent := false }], claim0, rfl, home_of_record 0 _ _ rfl, by decide⟩,
    ⟨claiming 5 [], claim0, rfl, fun h => absurd ((home_of_record 5 claim0.msg.root (claiming 5 []) rfl).symm.trans h) (by decide), by decide,
      by decide⟩,
    ⟨{ claiming 0 [] with claims := [] }, { claim0.msg with device := 5 }, rfl, by decide, rfl⟩,
    ⟨claiming 0 [], { claim0.msg with notBefore := 4 }, 5, rfl, by decide⟩,
    ⟨claiming 0 [{ serial := 1, device := 0, spent := true }], claim0.msg, 5, _, rfl, rfl, rfl, rfl, rfl⟩,
    ⟨claiming 0 [{ serial := 1, device := 0, spent := false }], claim0.msg, 5, _, rfl, rfl, rfl, rfl, rfl, rfl⟩,
    ⟨{ claiming 0 [] with spentOut := [(claim0.msg, 0)] }, claim0.msg, 0, rfl, home_of_record 0 _ _ rfl⟩,
    ⟨{ claiming 5 [] with spentOut := [(claim0.msg, 0)] }, claim0.msg, 0, rfl, fun h =>
      absurd ((home_of_record 5 claim0.msg.root { claiming 5 [] with spentOut := [(claim0.msg, 0)] } rfl).symm.trans h) (by decide)⟩⟩

/-! ### Witnesses: the admission port -/

/-- A commissioned module with a context bound to node 0. -/
def bound (x : Ctx) : State := { unit slot0 with commission := some (record 0), ctxs := [x] }

theorem good_cmd (code len : Nat) (n : Option Nat) (h : ∀ m, n = some m → len = m) : GoodHeader (cmd code len) n := ⟨rfl, fun _ hb => List.eq_of_mem_replicate hb, h⟩

theorem witness_PortRefusesByBinding_codes :
    (∃ (i : Instr) (h : PortHdr) (code : Nat) (len : Option Nat) (s : State), PortCommand i h code len ∧ s.nodeBusy h.node = false ∧
      s.commission = none ∧ h.code = 3) ∧
    (∃ (i : Instr) (h : PortHdr) (code : Nat) (len : Option Nat) (s : State), PortCommand i h code len ∧ s.nodeBusy h.node = false ∧
      s.commission ≠ none ∧ h.code = 0x14) ∧
    (∃ (i : Instr) (h : PortHdr) (code : Nat) (len : Option Nat) (s : State), PortCommand i h code len ∧ s.nodeBusy h.node = false ∧
      s.commission = none ∧ h.code = 1 ∧ ¬ GoodHeader h len) :=
  ⟨⟨_, cmd 3 0, _, _, unit slot0, .beacon _ [], rfl, rfl, rfl⟩, ⟨_, cmd 0x14 0, _, _, bound (placedCtx 0), .surr _, rfl, by decide, rfl⟩,
    ⟨_, { cmd 1 0 with zeros := [1] }, _, _, unit slot0, .ident _, rfl, rfl, rfl, fun h => absurd (h.2.1 1 (List.mem_cons_self ..)) (by decide)⟩⟩

theorem witness_PortRefusesByBinding :
    (∃ (i : Instr) (h : PortHdr) (code : Nat) (len : Option Nat) (states : CtxState → Bool) (s : State), PortCommand i h code len ∧
      Marked i states ∧ Handled h code len s ∧ s.commission ≠ none ∧ s.ctxAt h.ctx = none) ∧
    (∃ (i : Instr) (h : PortHdr) (code : Nat) (len : Option Nat) (states : CtxState → Bool) (s : State) (x : Ctx), PortCommand i h code len ∧
      Marked i states ∧ Handled h code len s ∧ s.commission ≠ none ∧ s.ctxAt h.ctx = some x ∧ x.node ≠ h.node) ∧
    (∃ (i : Instr) (h : PortHdr) (code : Nat) (len : Option Nat) (states : CtxState → Bool) (s : State) (x : Ctx), PortCommand i h code len ∧
      Marked i states ∧ Handled h code len s ∧ s.commission ≠ none ∧ Binds h s x ∧ states x.state = false) :=
  ⟨⟨_, { cmd 0x12 0 with ctx := 2 }, _, _, _, bound (placedCtx 0), .query _ 0, .query _ 0, ⟨rfl, rfl, good_cmd 0x12 0 none (by simp)⟩, by decide, rfl⟩,
    ⟨_, { cmd 9 0 with node := 9 }, _, _, _, bound (placedCtx 0), _, .lock _, .lock _, ⟨rfl, rfl, good_cmd 9 0 none (by simp)⟩, by decide, rfl,
      by decide⟩,
    ⟨_, cmd 0x13 8, _, _, _, bound { placedCtx 0 with state := .locked }, _, .qctrl _ 0, .qctrl _ 0, ⟨rfl, rfl, good_cmd 0x13 8 _ (by simp)⟩,
      by decide, ⟨rfl, rfl, rfl⟩, rfl⟩⟩

/-- Context 1 in a state of Table 27-3. -/
def inState (st : CtxState) : Ctx := { placedCtx 0 with state := st, res := { placedRes with queues := 2 } }

/-- Queue 0 of a running context. -/
def port0 (st : Nat) (widx : Word) : Queue :=
  { Queue.fresh 0 { base := 0, size := 64, exq := 0, qflags := 0, doorbell := 0, status := 0 } with state := st, widx := widx }

/-- A running context with queue 0. -/
def portQueue (st : Nat) (widx : Word) : Ctx := { inState .run with queues := [port0 st widx] }

/-- A debug configuration whose buffer lies in the context's free memory. -/
def config0 : DbgConfig := { tracing.cfg with region := 0x1000000000000 }

/-- A context whose free memory holds a capture buffer. -/
def roomy : Ctx := { inState .run with layout := { placedLayout with freeEnd := 131072 } }

theorem witness_BoundCommandsTakeEffect_states :
    (∀ code len st, ∃ (h : PortHdr) (s : State), Binds h s (inState st) ∧ s.nodeBusy h.node = false ∧ GoodHeader h none ∧ h.code = code ∧
      h.len = len) ∧
    (∀ code len st widx, ∃ (h : PortHdr) (s : State), Binds h s (portQueue st widx) ∧ s.nodeBusy h.node = false ∧ GoodHeader h none ∧
      h.code = code ∧ h.len = len) ∧
    (inState .unlocked).queue 1 = none ∧ 1 < (inState .unlocked).res.queues ∧
    (queued queue1).queue 1 ≠ none ∧
    (inState .unlocked).freeSpan 0x100000000FFF0 16 = true ∧ (inState .unlocked).freeSpan 0x100000000FFE0 32 = true ∧
    (0x100000000FFF0 : Word).toNat % 16 = 0 ∧ (0x100000000FFE0 : Word).toNat % 32 = 0 ∧ (inState .locked).away = false ∧ ({ inState .locked with stop := .saved }).away = true ∧
    (inState .run).layout.dumpOff + 64 * 4095 < (inState .run).layout.spillOff ∧
    (bound (inState .run)).errorAt (keyOf Space.dev 1 ((inState .run).layout.dumpOff + 64 * 4095)) 64 = none ∧
    (∃ e, ({ bound (inState .run) with errs := [{ lo := keyOf Space.dev 1 (inState .run).layout.dumpOff, len := 64, place := 0 }] }).errorAt
      (keyOf Space.dev 1 (inState .run).layout.dumpOff) 64 = some e) :=
  ⟨fun k n st => ⟨cmd k n, bound (inState st), ⟨rfl, rfl, rfl⟩, rfl, good_cmd k n none (by simp), rfl, rfl⟩,
    fun k n st w => ⟨cmd k n, bound (portQueue st w), ⟨rfl, rfl, rfl⟩, rfl, good_cmd k n none (by simp), rfl, rfl⟩, rfl, by decide, by decide,
    by decide, by decide, by decide, by decide, by decide, by decide, by decide, by decide, _, rfl⟩

theorem witness_BoundCommandsTakeEffect_launch :
    (∃ (x : Ctx) (q : Queue) (pkt : List Byte), x = portQueue 3 0 ∧ pkt.length = 64 ∧ x.queue 0 = some q ∧ q.state = 3) ∧
    (∃ (x : Ctx) (q : Queue) (pkt : List Byte), x = portQueue 0 64 ∧ pkt.length = 64 ∧ x.queue 0 = some q ∧ q.state ≠ 3 ∧ q.state ≠ 4 ∧
      queueReason x { q with
        ring := setNth q.ring (q.widx.toNat % 64) pkt, widx := (q.widx.setWidth 32 + 1).setWidth 64 } = some 3) ∧
    (∃ (x : Ctx) (q : Queue) (pkt : List Byte), x = portQueue 0 63 ∧ pkt.length = 64 ∧ x.queue 0 = some q ∧ q.state ≠ 3 ∧ q.state ≠ 4 ∧
      queueReason x { q with
        ring := setNth q.ring (q.widx.toNat % 64) pkt, widx := (q.widx.setWidth 32 + 1).setWidth 64 } = none) :=
  ⟨⟨_, _, List.replicate 64 0, rfl, by decide, rfl, rfl⟩, ⟨_, port0 0 64, List.replicate 64 0, rfl, by decide, rfl, by decide, by decide, by decide⟩,
    ⟨_, port0 0 63, List.replicate 64 0, rfl, by decide, rfl, by decide, by decide, by decide⟩⟩

theorem witness_BoundCommandsTakeEffect_debug :
    (∀ code, Binds (cmd code 0) (bound roomy) roomy ∧ (bound roomy).nodeBusy (cmd code 0).node = false ∧ GoodHeader (cmd code 0) none) ∧ roomy.state = .run ∧ roomy.clusters[0]? = some 0 ∧ cfgOk roomy config0 = true ∧
    (∀ m ∈ (bound roomy).dbg, m.clus = 0 → m.holder = roomy.id) ∧
    (∃ m ∈ { bound roomy with dbg := [{ tracing with holder := 2 }] }.dbg, m.clus = 0 ∧ m.holder ≠ roomy.id) ∧
    (∃ m ∈ { bound roomy with dbg := [tracing] }.dbg, m.clus = 0 ∧ m.holder = roomy.id) :=
  ⟨fun k => ⟨⟨rfl, rfl, rfl⟩, rfl, good_cmd k 0 none (by simp)⟩, rfl, rfl, by decide, fun m h => (by cases h), ⟨_, List.mem_cons_self .., rfl, by decide⟩,
    ⟨_, List.mem_cons_self .., rfl, rfl⟩⟩

/-- A nonce of node 0 from cycle 0. -/
def nonce0 : Nonce := { node := 0, value := 7, cycle := 0 }

theorem witness_OpenCommandsTakeEffect :
    (∀ code len, ∃ (h : PortHdr) (s : State), s.nodeBusy h.node = false ∧ GoodHeader h none ∧ h.code = code ∧ h.len = len ∧
      s.commission = none) ∧
    (∀ code len, ∃ (h : PortHdr) (s : State), s.nodeBusy h.node = false ∧ GoodHeader h none ∧ h.code = code ∧ h.len = len ∧
      s.commission ≠ none) ∧
    (1 ≤ (record 0).factor ∧ (record 0).factor ≤ 4 ∧ (∀ e ∈ (record 0).domains, e.2.length ≤ 256 ∧ ∀ n ∈ e.2, n < 2 ^ 16) ∧
      (record 0).node < 2 ^ 16 ∧ ∀ e ∈ (record 0).linkNode, e.2 < 2 ^ 16) ∧
    (∃ (s : State) (n : Nonce), n ∈ s.nonces ∧ n.node = 0 ∧ n.cycle.toNat + 36000000001 = s.cycle.toNat) ∧
    (∃ s : State, s.commission ≠ none ∧ ∀ sig, s.examineImage [] (s.portProof 0 sig) = .error 0x01) ∧
    (∃ s : State, s.commission ≠ none ∧ ∀ sig, s.checkReceipt [] (s.portProof 0 sig) = .error 0x01) ∧
    (∃ (s : State) (x : Ctx), s.commission ≠ none ∧ s.ctxs.find? (fun x => x.serial == 1) = some x ∧ x.keyValid = true) ∧
    (∃ (s : State) (x : Ctx), s.commission ≠ none ∧ s.ctxs.find? (fun x => x.serial == 1) = some x ∧ x.keyValid = false) :=
  ⟨fun k n => ⟨cmd k n, unit slot0, rfl, good_cmd k n none (by simp), rfl, rfl, rfl⟩,
    fun k n => ⟨cmd k n, bound (placedCtx 0), rfl, good_cmd k n none (by simp), rfl, rfl, by decide⟩, by decide,
    ⟨{ bound (placedCtx 0) with nonces := [nonce0], cycle := 36000000001 }, nonce0, by decide, rfl, by decide⟩,
    ⟨bound (placedCtx 0), by decide, fun _ => by rfl⟩, ⟨bound (placedCtx 0), by decide, fun _ => by rfl⟩,
    ⟨bound (placedCtx 0), _, by decide, rfl, rfl⟩, ⟨bound { placedCtx 0 with keyValid := false }, _, by decide, rfl, rfl⟩⟩

/-- The first 64 bytes of a beacon image for domain 0 with sequence 1 and the bounds given. -/
def beaconHead (e l : Byte) : List Byte :=
  [0x47, 0x58, 0x54, 0x42, 1, 0, 0, 0] ++ leBytes 8 1 ++ leBytes 8 0 ++ [e] ++ List.replicate 7 0 ++ [l] ++ List.replicate 31 0

/-- The image. -/
def beacon0 (e l : Byte) : List Byte := beaconHead e l ++ List.replicate (beaconSize - 64) 0

theorem beaconOf_beacon0 (e l : Byte) (x : Word × Word × Word × Word)
    (h : (if arrNat (beaconHead e l).toArray 0 4 = 0x42545847 ∧ arrNat (beaconHead e l).toArray 4 2 = 1 ∧
        arrZero (beaconHead e l).toArray 6 2 ∧ arrZero (beaconHead e l).toArray 0x28 24 then
      some (arrWord (beaconHead e l).toArray 8, arrWord (beaconHead e l).toArray 0x10, arrWord (beaconHead e l).toArray 0x18,
        arrWord (beaconHead e l).toArray 0x20) else none) = some x) : beaconOf (beacon0 e l) = some x := by
  have hl : (beaconHead e l).length = 64 := rfl
  have hs : (beacon0 e l).toArray.size = beaconSize := by
    rw [List.size_toArray, beacon0, List.length_append, List.length_replicate, hl]; rfl
  unfold beaconOf
  simp only [hs, true_and]
  rw [beacon0, arrNat_append _ _ _ _ (by exact Nat.le_trans (m := 64) (by decide) (Nat.le_of_eq hl.symm)), arrNat_append _ _ _ _ (by exact Nat.le_trans (m := 64) (by decide) (Nat.le_of_eq hl.symm)),
    arrZero_append _ _ _ _ (by exact Nat.le_trans (m := 64) (by decide) (Nat.le_of_eq hl.symm)), arrZero_append _ _ _ _ (by exact Nat.le_trans (m := 64) (by decide) (Nat.le_of_eq hl.symm)), arrWord_append _ _ _ (by exact Nat.le_trans (m := 64) (by decide) (Nat.le_of_eq hl.symm)),
    arrWord_append _ _ _ (by exact Nat.le_trans (m := 64) (by decide) (Nat.le_of_eq hl.symm)), arrWord_append _ _ _ (by exact Nat.le_trans (m := 64) (by decide) (Nat.le_of_eq hl.symm)), arrWord_append _ _ _ (by exact Nat.le_trans (m := 64) (by decide) (Nat.le_of_eq hl.symm))]
  exact h

/-- A beacon whose bounds are out of order does not count; whether one in order counts rests on its signature alone. -/
theorem witness_OpenCommandsTakeEffect_beacon : (bound (placedCtx 0)).commission ≠ none ∧
    (beaconOf (beacon0 3 2) = some (1, 0, 3, 2) ∧ (bound (placedCtx 0)).beaconOk (beacon0 3 2) 1 0 3 2 = false) ∧
    (beaconOf (beacon0 2 3) = some (1, 0, 2, 3) ∧
      (bound (placedCtx 0)).beaconOk (beacon0 2 3) 1 0 2 3 = Config.sigVerifies 0 ((beacon0 2 3).take 64) ((beacon0 2 3).drop 64)) := by
  refine ⟨by decide, ⟨beaconOf_beacon0 _ _ _ (by decide), by simp [State.beaconOk]⟩, beaconOf_beacon0 _ _ _ (by decide), ?_⟩
  show ((((((true && Config.sigVerifies 0 _ _) || false) && true) && true) && true) && true && true) = _
  simp

/-- The first 256 bytes of an image that grants one thread in domain 0, valid up to 9. -/
def imageHead : List Byte :=
  [0x47, 0x58, 0x57, 0x54, 1, 0, 0, 0] ++ leBytes 16 1 ++ List.replicate 64 0 ++ leBytes 8 0 ++ leBytes 8 9 ++ leBytes 8 0 ++
    leBytes 4 0 ++ leBytes 4 1 ++ leBytes 4 0 ++ leBytes 4 0 ++ leBytes 8 1 ++ leBytes 2 0 ++ leBytes 2 0 ++ leBytes 4 1 ++
    leBytes 8 1 ++ leBytes 4 0 ++ leBytes 4 1 ++ List.replicate 96 0

/-- The image. -/
def image0 : List Byte := imageHead ++ List.replicate (imageSize - 256) 0

/-- A commissioned module whose clock reads 1 to 2. -/
def clocked : State := { bound (placedCtx 0) with beacon := some { cb := 0, eb := 1, lb := 1, seq := 0 } }

theorem imageHead_length : imageHead.length = 256 := by decide +kernel

theorem image0_arrNat (n i : Nat) (h : i + n ≤ 256) : arrNat image0.toArray i n = arrNat imageHead.toArray i n := by
  unfold image0
  exact arrNat_append _ _ _ _ (by rw [imageHead_length]; exact h)

theorem image0_reads : ∃ w, imageOf image0 = some w ∧ w.issuer = 0 ∧ w.domain = 0 ∧ w.notBefore = 0 ∧ w.notAfter = 9 ∧ w.holder = 0 := by
  have hl := imageHead_length
  have hs : image0.toArray.size = imageSize := by
    rw [List.size_toArray, image0, List.length_append, List.length_replicate, hl]; rfl
  have hw : ∀ i, i + 8 ≤ 256 → arrWord image0.toArray i = arrWord imageHead.toArray i := fun i h => by
    unfold image0
    exact arrWord_append _ _ _ (by rw [hl]; exact h)
  have hr : resourcesAt image0.toArray 0x70 = resourcesAt imageHead.toArray 0x70 := by
    unfold resourcesAt
    iterate 11 rw [image0_arrNat _ _ (by decide)]
  unfold imageOf
  simp only [hs, hr, image0_arrNat 4 0 (by decide), image0_arrNat 2 4 (by decide), image0_arrNat 2 6 (by decide),
    image0_arrNat 16 8 (by decide), image0_arrNat 32 0x18 (by decide), image0_arrNat 32 0x38 (by decide), image0_arrNat 32 0xA0 (by decide),
    image0_arrNat 32 0xC0 (by decide), hw 0x58 (by decide), hw 0x60 (by decide), hw 0x68 (by decide),
    show arrZero image0.toArray 0xE0 32 = arrZero imageHead.toArray 0xE0 32 by
      unfold image0
      exact arrZero_append _ _ _ _ (by exact Nat.le_trans (m := 256) (by decide) (Nat.le_of_eq hl.symm))]
  rw [if_pos (by decide +kernel)]
  exact ⟨_, rfl, by decide +kernel, by decide +kernel, by decide +kernel, by decide +kernel, by decide +kernel⟩

/-- Whether the image is accepted rests on its signature and on the holder's proof alone. -/
theorem witness_OpenCommandsTakeEffect_present : ∃ w, imageOf image0 = some w ∧ clocked.commission ≠ none ∧
    ∀ ok : BitVec 256 → Bool, Config.sigVerifies 0 (image0.take imageSigned) (image0.drop imageSigned) = true → ok 0 = true →
      clocked.examineImage image0 ok = .ok w := by
  obtain ⟨w, hw, h₁, h₂, h₃, h₄, h₅⟩ := image0_reads
  refine ⟨w, hw, by decide, fun ok hs ho => ?_⟩
  have hi : clocked.issuerOf 0 = some { digest := 0, active := true, domains := [0] } := rfl
  have hm : clocked.members 0 = [0] := rfl
  have ht : clocked.tearly = 1 ∧ clocked.tlate = 2 := by decide
  unfold State.examineImage
  rw [hw]
  simp only [h₁, h₂, h₃, h₄, h₅, hi, hm, hs, ho, ht.1, ht.2]
  rfl

/-- Context 2, a child of context 1 with a delegate. -/
def child : Ctx := { placedCtx 0 with id := 2, sub := true, serial := 2, parent := some 1, delegate := some 9 }

/-- A commissioned module with both. -/
def delegated : State := { bound (placedCtx 0) with ctxs := [placedCtx 0, child] }

/-- The first 0x50 bytes of a receipt for it. -/
def receiptHead : List Byte :=
  [0x47, 0x58, 0x44, 0x52, 1, 0, 0, 0] ++ leBytes 16 1 ++ leBytes 16 2 ++ leBytes 32 9 ++ leBytes 8 0

/-- The receipt. -/
def receipt0 : List Byte := receiptHead ++ (leBytes 32 (digest child.warrant.res.bytes).toNat ++ leBytes 16 1)

/-- Whether the receipt is accepted rests on the proof alone. -/
theorem witness_OpenCommandsTakeEffect_redeem : delegated.commission ≠ none ∧
    ∀ ok : BitVec 256 → Bool, ok 9 = true → delegated.checkReceipt receipt0 ok = .ok (child, 9) := by
  refine ⟨by decide, fun ok ho => ?_⟩
  have hn : ∀ n i, i + n ≤ 80 → arrNat receipt0.toArray i n = arrNat receiptHead.toArray i n := fun n i h => by
    unfold receipt0
    exact arrNat_append _ _ _ _ h
  have hs : receipt0.toArray.size = 128 := rfl
  have hz : arrZero receipt0.toArray 6 2 = arrZero receiptHead.toArray 6 2 := by
    unfold receipt0
    exact arrZero_append _ _ _ _ (by decide)
  have hp : (2 : Nat) ^ 256 = 256 ^ 32 := by decide +kernel
  have hd : arrNat receipt0.toArray 0x50 32 = (digest child.warrant.res.bytes).toNat := by
    rw [show 0x50 = receiptHead.length + 0 by decide +kernel]
    unfold receipt0
    rw [arrNat_skip, arrNat_leBytes, Nat.mod_eq_of_lt (Nat.lt_of_lt_of_eq (digest child.warrant.res.bytes).isLt hp)]
  have hr : arrNat receipt0.toArray 0x70 16 = 1 := by
    have hl : (receiptHead ++ leBytes 32 (digest child.warrant.res.bytes).toNat).length = 112 := rfl
    have h := arrNat_skip (receiptHead ++ leBytes 32 (digest child.warrant.res.bytes).toNat) (leBytes 16 1 ++ []) 16 0
    rw [arrNat_leBytes, List.append_nil, List.append_assoc, hl] at h
    unfold receipt0
    exact h.trans (by decide +kernel)
  unfold State.checkReceipt
  simp only [hs, hz, hd, hr, hn 4 0 (by decide), hn 2 4 (by decide), hn 8 0x48 (by decide), hn 16 0x18 (by decide), hn 32 0x28 (by decide),
    BitVec.ofNat_toNat, BitVec.setWidth_eq]
  rw [if_neg (by decide +kernel), if_neg (by decide +kernel), show BitVec.ofNat 128 (arrNat receiptHead.toArray 0x18 16) = 2 by decide +kernel,
    show BitVec.ofNat 256 (arrNat receiptHead.toArray 0x28 32) = 9 by decide +kernel,
    show delegated.ctxs.find? (fun x => x.sub && x.serial == 2 && x.delegate.isSome) = some child from rfl]
  dsimp only
  rw [if_neg (fun h => h.elim (fun e => e rfl) (fun e => e (by decide +kernel))), ho]
  rfl

/-! ### Single steps, with the values that the spec's rules give -/

/-- Register d after an instruction, its sources in s1 and s2, the old value of s5 being 9. -/
def after (i : Instr) (x y : Nat) (d : Nat) : Option Word :=
  match exec i (unit (put slot0 [(1, x), (2, y), (5, 9)])) with
  | .next t => some (t.cur.reg d)
  | _ => none

/-- The pc after it, from 0x1000000010000. -/
def pcAfter (i : Instr) (x y : Nat) : Option Word :=
  match exec i (unit (put slot0 [(1, x), (2, y)])) with
  | .next t => some t.cur.pc
  | _ => none

/-- The trap that it takes: its code, TEPC and TVAL, the pc being the handler's. -/
def trapOf (i : Instr) (x y : Nat) : Option (Nat × Word × Word) :=
  match exec i (unit (put slot0 [(1, x), (2, y)])) with
  | .next t => if t.cur.pc = 0x1000000010040 then some (t.cur.tcause.toNat, t.cur.tepc, t.cur.tval) else none
  | _ => none

/-- R110: addition and subtraction modulo 2^64. -/
theorem test_add_wraps : after (.add 5 1 2) 0xFFFFFFFFFFFFFFFF 2 5 = some 1 := by decide
theorem test_sub_order : after (.sub 5 1 2) 1 2 5 = some 0xFFFFFFFFFFFFFFFF := by decide
/-- R110: ANDN is a and not b; shifts take six bits of b; SRA keeps the sign. -/
theorem test_andn : after (.andn 5 1 2) 0xFF 0x0F 5 = some 0xF0 := by decide
theorem test_sll_count : after (.sll 5 1 2) 3 65 5 = some 6 := by decide
theorem test_sra_sign : after (.sra 5 1 2) 0x8000000000000000 63 5 = some 0xFFFFFFFFFFFFFFFF := by decide
theorem test_rol : after (.rol 5 1 2) 0x8000000000000001 4 5 = some 0x18 := by decide
/-- R110: signed and unsigned comparisons of -1 and 1. -/
theorem test_slt : after (.slt 5 1 2) 0xFFFFFFFFFFFFFFFF 1 5 = some 1 := by decide
theorem test_sltu : after (.sltu 5 1 2) 0xFFFFFFFFFFFFFFFF 1 5 = some 0 := by decide
theorem test_min : after (.min 5 1 2) 0xFFFFFFFFFFFFFFFF 1 5 = some 0xFFFFFFFFFFFFFFFF := by decide
theorem test_maxu : after (.maxu 5 1 2) 0xFFFFFFFFFFFFFFFF 1 5 = some 0xFFFFFFFFFFFFFFFF := by decide
/-- R60, R115: immediates are sign-extended. -/
theorem test_addi_negative : after (.addi 5 1 0xFFF) 0 0 5 = some 0xFFFFFFFFFFFFFFFF := by decide
theorem test_lui_sign : after (.lui 5 0x80000) 0 0 5 = some 0xFFFFFFFF80000000 := by decide
theorem test_auipc : after (.auipc 5 1) 0 0 5 = some 0x1000000011000 := by decide
/-- R112: high halves of products, signed and unsigned. -/
theorem test_mulh : after (.mulh 5 1 2) 0xFFFFFFFFFFFFFFFF 2 5 = some 0xFFFFFFFFFFFFFFFF := by decide
theorem test_mulhu : after (.mulhu 5 1 2) 0xFFFFFFFFFFFFFFFF 2 5 = some 1 := by decide
/-- R112: division by zero and the overflow of the quotient. -/
theorem test_div_zero : after (.div 5 1 2) 7 0 5 = some 0xFFFFFFFFFFFFFFFF := by decide
theorem test_div_overflow : after (.div 5 1 2) 0x8000000000000000 0xFFFFFFFFFFFFFFFF 5 = some 0x8000000000000000 := by decide
theorem test_rem_sign : after (.rem 5 1 2) 0xFFFFFFFFFFFFFFF9 2 5 = some 0xFFFFFFFFFFFFFFFF := by decide
theorem test_remu_zero : after (.remu 5 1 2) 7 0 5 = some 7 := by decide
/-- R113. -/
theorem test_clz_zero : after (.clz 5 1) 0 0 5 = some 64 := by decide
theorem test_ctz : after (.ctz 5 1) 0x50 0 5 = some 4 := by decide
theorem test_bswap : after (.bswap 5 1) 0x0102030405060708 0 5 = some 0x0807060504030201 := by decide
theorem test_brev : after (.brev 5 1) 1 0 5 = some 0x8000000000000000 := by decide
/-- R114 and its worked values. -/
theorem test_bfx : after (.bfx 5 1 2) 0x12345678 0x0708 5 = some 0x56 := by decide
theorem test_bfi : (match exec (.bfi 3 1 2) (unit (put slot0 [(1, 0x56), (2, 0x0718), (3, 0x12345678)])) with
    | .next t => some (t.cur.reg 3)
    | _ => none) = some 0x56345678 := by decide
/-- R45: a source is read before d is written: s1 is both. -/
theorem test_source_is_destination : after (.add 1 1 1) 21 0 1 = some 42 := by decide

/-- R116: the target counts words from the branch's own pc. -/
theorem test_beq_back : pcAfter (.beq 1 2 0x1FFC) 7 7 = some 0x100000000FFF0 := by decide
theorem test_blt_not_taken : pcAfter (.blt 1 2 8) 1 0xFFFFFFFFFFFFFFFF = some 0x1000000010004 := by decide
theorem test_jal_links : after (.jal 5 8) 0 0 5 = some 0x1000000010004 := by decide
/-- R55: a jump to an address that is no multiple of 4 traps. -/
theorem test_jalr_misaligned : (trapOf (.jalr 5 1 0) 2 0).map (fun t => t.2.2) = some 2 := by decide
/-- R207: a load that is not aligned to its size. -/
theorem test_ld_misaligned : (trapOf (.ld 5 1 0) 0x104 0).map (fun t => t.2) = some (0x1000000010000, 0x104) := by decide
/-- R211: a byte that nothing has written in the context's scratchpad reads as zero. -/
theorem test_lb_fresh : after (.lb 5 1 0) 0x100 0 5 = some 0 := by decide

/-- Loads of a byte of the own scratchpad that holds 0x80: sign-extended and zero-extended (Table 6-7). -/
theorem test_lb_lbu :
    ((match exec (.lb 5 1 0) { unit (put slot0 [(1, 0x100)]) with mem := [(own 0x100, 0x80)] } with
      | .next t => some (t.cur.reg 5)
      | _ => none) = some 0xFFFFFFFFFFFFFF80) ∧
    ((match exec (.lbu 5 1 0) { unit (put slot0 [(1, 0x100)]) with mem := [(own 0x100, 0x80)] } with
      | .next t => some (t.cur.reg 5)
      | _ => none) = some 0x80) := by decide

/-- R86, R181, R183: sums, quotients, roots and products, rounded to nearest even, and an overflow to infinity. -/
theorem test_float_values :
    (fmtF32.addV .rne (fmtF32.decode 0x3F800000) (fmtF32.decode 0x33800000)).1 = 0x3F800000 ∧
    (fmtF32.divV .rne (fmtF32.decode 0x3F800000) (fmtF32.decode 0x40400000)) = (0x3EAAAAAB, flagNX) ∧
    (fmtF32.sqrtV .rne (fmtF32.decode 0x40000000)).1 = 0x3FB504F3 ∧
    (fmtF64.mulV .rne (fmtF64.decode 0x3FB999999999999A) (fmtF64.decode 0x4008000000000000)).1 = 0x3FD3333333333334 ∧
    (fmtF16.addV .rne (fmtF16.decode 0x7BFF) (fmtF16.decode 0x7BFF)).1 = 0x7C00 := by decide +kernel

end Sys2Proof.Tests
end

/-! Two-source scalar instructions (R110, R112, R114): each is one read of a, then b, the value of its table line, and one
write to d. -/

namespace Sys2Proof.Machine

/-! ### Sources and destination -/

/-- With both sources read, the instruction goes on with their words and the slot after the two reads. -/
theorem withSrc2_of_reads {s : State} {a b : Reg5} {x y : Word} {c₁ c₂ : Slot} (k : Word → Word → Slot → Out)
    (ha : s.cur.readReg a = some (x, c₁)) (hb : c₁.readReg b = some (y, c₂)) : withSrc2 s a b k = k x y c₂ := by
  simp [withSrc2, ha, hb]

/-- An instruction that ends by `finish` writes its result and goes on at pc + 4. -/
theorem writes_of_exec_eq_finish {i : Instr} {s : State} {c : Slot} {d : Reg5} {w : Word} (h : exec i s = finish s c d w) :
    Writes i s c d w c.npc :=
  ⟨fun hd => h.trans (finish_reg s c w hd), fun hd => h.trans (finish_queue s c w hd)⟩

/-- A two-source form writes its function of the two words read. -/
theorem writes_of_exec_eq_alu2 {i : Instr} {s : State} {d a b : Reg5} {f : Word → Word → Word} {x y : Word} {c₁ c₂ : Slot}
    (h : exec i s = alu2 s d a b f) (ha : s.cur.readReg a = some (x, c₁)) (hb : c₁.readReg b = some (y, c₂)) :
    Writes i s c₂ d (f x y) c₂.npc :=
  writes_of_exec_eq_finish (h.trans (withSrc2_of_reads _ ha hb))

/-- Two functions with the same values give the same two-source form. -/
theorem alu2_congr (s : State) (d a b : Reg5) {f g : Word → Word → Word} (h : ∀ x y, f x y = g x y) :
    alu2 s d a b f = alu2 s d a b g := congrArg (alu2 s d a b) (funext fun x => funext (h x))

/-! ### Values of the tables

R78 is on integers in the model (`quot78`, `rem78`) and on words in the table; the two make the same case distinctions. -/

theorem flagWord_eq_truth {b : Bool} {p : Prop} [Decidable p] (h : b = true ↔ p) : flagWord b = truth p := by
  simp [flagWord, truth, h]

theorem toInt_eq_intMin_iff (x : Word) : x.toInt = intMin true 64 ↔ x = BitVec.intMin 64 := by
  rw [← BitVec.toInt_inj]
  rfl

theorem toInt_eq_neg_one_iff (x : Word) : x.toInt = -1 ↔ x = BitVec.allOnes 64 := by
  rw [← BitVec.toInt_inj]
  rfl

theorem toInt_eq_zero_iff (x : Word) : x.toInt = 0 ↔ x = 0 := by
  rw [← BitVec.toInt_inj]
  rfl

theorem ofInt_quot78_signed (x y : Word) : BitVec.ofInt 64 (quot78 true 64 x.toInt y.toInt) =
    if y = 0 then BitVec.allOnes 64 else if x = BitVec.intMin 64 ∧ y = BitVec.allOnes 64 then x
    else BitVec.ofInt 64 (Int.tdiv x.toInt y.toInt) := by
  simp only [quot78, toInt_eq_zero_iff, toInt_eq_intMin_iff, toInt_eq_neg_one_iff, Bool.true_and, Bool.and_eq_true,
    decide_eq_true_eq]
  split
  · rfl
  · split
    · exact BitVec.ofInt_toInt
    · rfl

theorem ofInt_rem78_signed (x y : Word) : BitVec.ofInt 64 (rem78 true 64 x.toInt y.toInt) =
    if y = 0 then x else if x = BitVec.intMin 64 ∧ y = BitVec.allOnes 64 then 0
    else BitVec.ofInt 64 (x.toInt - Int.tdiv x.toInt y.toInt * y.toInt) := by
  simp only [rem78, toInt_eq_zero_iff, toInt_eq_intMin_iff, toInt_eq_neg_one_iff, Bool.true_and, Bool.and_eq_true,
    decide_eq_true_eq]
  split
  · exact BitVec.ofInt_toInt
  · split <;> rfl

theorem toNat_cast_eq_zero_iff (y : Word) : (y.toNat : Int) = 0 ↔ y = 0 := by
  rw [Int.natCast_eq_zero, ← BitVec.toNat_inj]
  rfl

theorem ofInt_quot78_unsigned (x y : Word) : BitVec.ofInt 64 (quot78 false 64 x.toNat y.toNat) =
    if y = 0 then BitVec.allOnes 64 else BitVec.ofNat 64 (x.toNat / y.toNat) := by
  simp only [quot78, toNat_cast_eq_zero_iff, Bool.false_and, Bool.false_eq_true, if_false]
  split
  · rfl
  · rw [← Int.ofNat_tdiv, BitVec.ofInt_natCast]

/-- The unsigned remainder is no negative number, so the difference of integers is that of naturals. -/
theorem ofInt_rem78_unsigned (x y : Word) : BitVec.ofInt 64 (rem78 false 64 x.toNat y.toNat) =
    if y = 0 then x else BitVec.ofNat 64 (x.toNat - x.toNat / y.toNat * y.toNat) := by
  simp only [rem78, toNat_cast_eq_zero_iff, Bool.false_and, Bool.false_eq_true, if_false]
  split
  · rw [BitVec.ofInt_natCast, BitVec.ofNat_toNat, BitVec.setWidth_eq]
  · have hle : x.toNat / y.toNat * y.toNat ≤ x.toNat := Nat.div_mul_le_self _ _
    rw [← Int.ofNat_tdiv, ← Int.natCast_mul, ← Int.natCast_sub hle, BitVec.ofInt_natCast]

/-- R114: the field begins at b[5:0] and has b[13:8] + 1 bits, cut at the register's end. -/
theorem bitField_eq (y : Word) : bitField y = (y.toNat % 64, min (y.toNat / 256 % 64 + 1) (64 - y.toNat % 64)) := by
  simp [bitField, bits]

/-! ### The instructions -/

/-- Every two-source instruction is the two-source form with the function of its table line. -/
theorem exec_eq_alu2_of_twoSource {i : Instr} {d a b : Reg5} {f : Word → Word → Word → Word} (h : TwoSource i d a b f) (s : State) :
    exec i s = alu2 s d a b (f (s.cur.reg d.toNat)) := by
  cases h with
  | add | sub | and | or | xor | andn | sll | srl | sra | rol | mul | mulh | mulhu => rfl
  | min | max => exact alu2_congr s d a b fun x y => by simp only [BitVec.sle_iff_toInt_le]
  | minu | maxu => exact alu2_congr s d a b fun x y => by simp only [BitVec.ule_iff_toNat_le]
  | slt => exact alu2_congr s d a b fun x y => flagWord_eq_truth BitVec.slt_iff_toInt_lt
  | sltu => exact alu2_congr s d a b fun x y => flagWord_eq_truth BitVec.ult_iff_toNat_lt
  | seq => exact alu2_congr s d a b fun x y => flagWord_eq_truth beq_iff_eq
  | sel => exact alu2_congr s d a b fun x y => by simp only [ne_eq, ite_not]
  | div => exact alu2_congr s d a b ofInt_quot78_signed
  | divu => exact alu2_congr s d a b ofInt_quot78_unsigned
  | rem => exact alu2_congr s d a b ofInt_rem78_signed
  | remu => exact alu2_congr s d a b ofInt_rem78_unsigned
  | bfx => exact alu2_congr s d a b fun x y => by simp only [bfxResult, bitField_eq]
  | bfi => exact alu2_congr s d a b fun x y => by simp only [bfiResult, bitField_eq]

/-- Settles O8: each instruction is the two-source form with its table's function, and that form reads a, then b, and writes
the value to d. -/
theorem twoSourceScalarResults : Obligations.TwoSourceScalarResults := by
  unfold Obligations.TwoSourceScalarResults
  intro i d a b f s x y c₁ c₂ hi ha hb
  exact writes_of_exec_eq_alu2 (exec_eq_alu2_of_twoSource hi s) ha hb

end Sys2Proof.Machine

/-! Traps (R152, R154, R157): what a trap is in and out of a migrating block, what an entered handler and a fatal trap leave, and
the two events that bring a block's registers home with its trap (R265). -/

namespace Sys2Proof.Machine

/-! ### A trap in and out of a migrating block -/

/-- The slot of a thread whose migrating block has trapped: the block's stores are dropped, what is left of it is kept for an
ERET (R155), and the registers travel home with the trap. -/
def Slot.leaveBlock (c : Slot) (b : Block) (cause : TrapCause) (tval : Word) : Slot :=
  { c with
    block := none, resumeAt := some (c.pc, { b with idx := b.idx - 1, reads := [], stores := [] }),
    wait := some (.migrReturn (some (cause, tval, recordValue cause c.ir tval))), status := .waitMem }

theorem trap_of_no_block (s : State) {c : Slot} (cause : TrapCause) (tval : Word) (h : c.block = none) :
    trap s c cause tval = .next (takeTrap s c cause tval (recordValue cause c.ir tval) c.ir false) := by
  obtain ⟨-, ht⟩ | ⟨b, hb, -⟩ := trap_cases s c cause tval
  · exact ht
  · exact absurd (h.symm.trans hb) nofun

theorem trap_of_block (s : State) {c : Slot} {b : Block} (cause : TrapCause) (tval : Word) (h : c.block = some b) :
    trap s c cause tval = .next { s with cur := c.leaveBlock b cause tval } := by
  obtain ⟨hn, -⟩ | ⟨b', hb, ht⟩ := trap_cases s c cause tval
  · exact absurd (h.symm.trans hn) nofun
  · cases h.symm.trans hb
    exact ht

/-! ### The handler is entered -/

/-- R152: the conditions under which the handler is entered. -/
theorem trapIsFatal_eq_false {c : Slot} {cause : TrapCause} (ht : c.thand ≠ 0) (hi : c.inh = false) (hu : cause ≠ .uncorr) :
    trapIsFatal c cause = false := by
  rw [Bool.eq_false_iff, ne_eq, trapIsFatal_iff]
  rintro (h | h | h)
  · exact ht h
  · exact absurd (hi.symm.trans h) nofun
  · exact hu h

theorem takeTrap_eq_handled {s : State} {c : Slot} {cause : TrapCause} (tval value : Word) (word : IWord) (mig : Bool)
    (hp : c.phys = s.cur.phys) (hr : c.ref = false) (hf : trapIsFatal c cause = false) :
    takeTrap s c cause tval value word mig = { s with cur := handled c cause tval word mig } :=
  (takeTrap_handled s tval value word mig hr hf).trans (State.setSlot_cur hp.symm)

theorem trap_eq_handled {s : State} {c : Slot} {cause : TrapCause} (tval : Word) (hp : c.phys = s.cur.phys) (hr : c.ref = false)
    (hf : trapIsFatal c cause = false) (hb : c.block = none) :
    trap s c cause tval = .next { s with cur := handled c cause tval c.ir false } := by
  rw [trap_of_no_block s cause tval hb, takeTrap_eq_handled _ _ _ _ hp hr hf]

/-- R118: the trap of a fetch that cannot be made is taken with 0 for its word. -/
theorem exec_instructionFetchTrap_eq_trap {s : State} {cause : TrapCause} {tval : Word} (ho : s.cur.occupied = true)
    (hr : s.cur.ref = false) (h : resolve s s.cur s.cur.pc 4 .fetch = .error (cause, tval)) :
    exec (.instructionFetchTrap cause tval) s = trap s { s.cur with ir := 0 } cause tval :=
  if_pos (by simp [ho, fetchTrap, hr, h])

/-- R74: a word that the decoder refuses takes ILLEGAL with its reason. -/
theorem exec_illegalWord_eq_trap {s : State} {word : IWord} {reason : Nat} (ho : s.cur.occupied = true)
    (h : decode s.cur.ref word = .error reason) :
    exec (.illegalWord word reason) s = trap s { s.cur with ir := word } .illegal (BitVec.ofNat 64 reason) :=
  if_pos (by simp [ho, refusedWord, h])

/-! ### A context enters ERROR -/

@[simp] theorem State.post_cur (s : State) (n : Nat) (v : BitVec 4) (b : List Byte) : (s.post n v b).cur = s.cur := by
  unfold State.post; split <;> rfl

@[simp] theorem State.notify_cur (s : State) (x : Ctx) (k : NoticeKind) (p : List Byte) : (s.notify x k p).cur = s.cur := by
  simp [State.notify]

/-- A context that enters ERROR changes no slot by itself: its threads are stopped by a later event (R157). -/
@[simp] theorem State.enterError_cur (s : State) (id kind die : Nat) (r : List Byte) : (s.enterError id kind die r).cur = s.cur := by
  unfold State.enterError
  split
  · rfl
  · split
    · rfl
    · split <;> simp

/-- The first fault of a context is its error, and unless it resets the context it puts it in ERROR (R157). -/
theorem State.enterError_ctxAt {s : State} {id kind : Nat} {x : Ctx} (die : Nat) (r : List Byte) (hx : s.ctxAt id = some x)
    (he : x.err = none) (hk : resetKind kind = false) :
    ∃ y e, (s.enterError id kind die r).ctxAt id = some y ∧ y.state = .error ∧ y.err = some e ∧ e.kind = kind ∧ e.further = 0 := by
  cases State.ctxAt_id hx
  unfold State.enterError
  simp only [hx, he, hk, Bool.false_eq_true, if_false]
  exact ⟨_, _, State.ctxAt_setCtx_same s _, rfl, rfl, rfl, rfl⟩

/-! ### A fatal trap -/

/-- The slot of a thread that a fatal trap has stopped (R154). -/
def Slot.stopFatal (c : Slot) : Slot :=
  { c with status := .stopped, held := .ready, busy := 0, late := none, wait := none, block := none, resumeAt := none }

theorem State.ctxOf_ctxAt {s : State} {c : Slot} {x : Ctx} (h : s.ctxOf c = some x) : s.ctxAt x.id = some x := by
  unfold State.ctxOf at h
  split at h
  · cases State.ctxAt_id h
    exact h
  · cases h

/-- A fatal trap stops the thread, and the context that holds it, if any, enters ERROR with a record of kind 0. -/
theorem fatalTrap_cases {s : State} {c : Slot} (cause : TrapCause) (value : Word) (word : IWord) (loc : Word)
    (hp : c.phys = s.cur.phys) :
    (s.ctxOf c = none ∧ fatalTrap s c cause value word loc = { s with cur := c.stopFatal }) ∨
    (∃ x r, s.ctxOf c = some x ∧
      fatalTrap s c cause value word loc = State.enterError { s with cur := c.stopFatal } x.id 0 (dieOf c.phys) r) := by
  unfold fatalTrap fatalTrapAt
  dsimp only
  rw [State.setSlot_cur (by exact hp.symm)]
  split
  · next hx => exact .inl ⟨hx, rfl⟩
  · next x hx => exact .inr ⟨x, _, hx, rfl⟩

theorem fatalTrap_cur {s : State} {c : Slot} (cause : TrapCause) (value : Word) (word : IWord) (loc : Word)
    (hp : c.phys = s.cur.phys) : (fatalTrap s c cause value word loc).cur = c.stopFatal := by
  obtain ⟨-, h⟩ | ⟨x, r, -, h⟩ := fatalTrap_cases cause value word loc hp
  · rw [h]
  · rw [h, State.enterError_cur]

theorem fatalTrap_ctxAt {s : State} {c : Slot} {x : Ctx} (cause : TrapCause) (value : Word) (word : IWord) (loc : Word)
    (hp : c.phys = s.cur.phys) (hx : s.ctxOf c = some x) (he : x.err = none) :
    ∃ y e, (fatalTrap s c cause value word loc).ctxAt x.id = some y ∧ y.state = .error ∧ y.err = some e ∧ e.kind = 0 ∧
      e.further = 0 := by
  obtain ⟨hn, -⟩ | ⟨x', r, hx', h⟩ := fatalTrap_cases cause value word loc hp
  · exact absurd (hx.symm.trans hn) nofun
  · cases hx.symm.trans hx'
    rw [h]
    exact State.enterError_ctxAt _ _ (State.ctxOf_ctxAt hx) he rfl

/-- R154, R157: the thread stops with its trap registers as they were, and its context is in ERROR. -/
theorem fatalEnd_fatalTrap {s : State} {c : Slot} {x : Ctx} (cause : TrapCause) (value : Word) (word : IWord) (loc : Word)
    (hp : c.phys = s.cur.phys) (hx : s.ctxOf c = some x) (he : x.err = none) :
    FatalEnd s c x (fatalTrap s c cause value word loc) := by
  unfold FatalEnd
  rw [fatalTrap_cur _ _ _ _ hp]
  exact ⟨rfl, rfl, rfl, rfl, rfl, rfl, rfl, rfl, fatalTrap_mem .., fatalTrap_ctxAt _ _ _ _ hp hx he⟩

/-! ### The block's registers come home -/

/-- A thread that has taken a trap, by its handler or by its end, awaits nothing. -/
theorem takeTrap_cur_wait {s : State} {c : Slot} (cause : TrapCause) (tval value : Word) (word : IWord) (mig : Bool)
    (hp : c.phys = s.cur.phys) : (takeTrap s c cause tval value word mig).cur.wait = none := by
  unfold takeTrap
  split
  · rw [State.setSlot_cur (by exact hp.symm)]
    rfl
  · split
    · rw [fatalTrap_cur _ _ _ _ hp]
      rfl
    · rw [State.setSlot_cur (by exact hp.symm)]
      rfl

/-- R265: the registers reach the home core with the trap that the block took. -/
theorem exec_migrBlockReturn_trapped {s : State} {cause : TrapCause} {tval value : Word}
    (hw : s.cur.wait = some (.migrReturn (some (cause, tval, value)))) :
    exec (.migrBlockReturn s.cur.phys) s = .next { s with cur := s.cur.waitFor (.migTrapped cause tval value) } := by
  change execMigrBlockReturn s.cur.phys s = _
  unfold execMigrBlockReturn
  rw [State.slotAt_cur]
  simp only [hw]
  exact congrArg _ (State.setSlot_cur rfl)

/-- R155, R265: at home the thread takes the block's trap, with MIG. -/
theorem exec_threadRejoin_migTrapped {s : State} {cause : TrapCause} {tval value : Word}
    (hw : s.cur.wait = some (.migTrapped cause tval value)) (hs : s.cur.status = .waitMem) (hb : s.cur.busy = 0) :
    exec (.threadRejoin s.cur.phys) s = .next (takeTrap s s.cur.ready cause tval value s.cur.ir true) := by
  have hwait : (takeTrap s s.cur.ready cause tval value s.cur.ir true).cur.wait = none := takeTrap_cur_wait _ _ _ _ _ rfl
  change execThreadRejoin s.cur.phys s = _
  simp [execThreadRejoin, hw, hs, hb, rejoin, unlessSame, hwait]

/-- The state in which the registers of a block that has trapped have come home: what is left is the thread's turn. -/
def State.blockHome (s : State) (c : Slot) (b : Block) (cause : TrapCause) (tval : Word) : State :=
  { s with cur := (c.leaveBlock b cause tval).waitFor (.migTrapped cause tval (recordValue cause c.ir tval)) }

/-- After the trap of a migrating block the registers' return and the thread's turn take the trap, with MIG. -/
theorem runs_takeTrap_of_leaveBlock {s : State} {c : Slot} (b : Block) (cause : TrapCause) (tval : Word)
    (hp : c.phys = s.cur.phys) (hb : c.busy = 0) :
    Runs [.migrBlockReturn s.cur.phys, .threadRejoin s.cur.phys] { s with cur := c.leaveBlock b cause tval }
      (takeTrap (s.blockHome c b cause tval) (c.leaveBlock b cause tval).ready cause tval (recordValue cause c.ir tval) c.ir
        true) := by
  rw [← hp]
  exact ⟨s.blockHome c b cause tval, exec_migrBlockReturn_trapped (s := { s with cur := c.leaveBlock b cause tval }) rfl, _,
    exec_threadRejoin_migTrapped (s := s.blockHome c b cause tval) rfl rfl hb, rfl⟩

/-! ### The statements -/

/-- Settles O14: outside a block the trap is taken at once, in a block after the registers' return; either way it is no fatal
one, so it enters the handler. The two fetch traps are traps of the current thread with their word in the slot. -/
theorem trapEntersTheHandler : Obligations.TrapEntersTheHandler := by
  unfold Obligations.TrapEntersTheHandler
  refine ⟨fun s c cause tval hp hr ht hi hu => ?_, fun s cause tval ho hr ht hi hb hf hu => ?_,
    fun s word reason ho hr ht hi hb hd => ?_⟩
  · have hfatal := trapIsFatal_eq_false ht hi hu
    refine ⟨trap_eq_handled tval hp hr hfatal, fun b hb hbusy => ?_⟩
    refine ⟨_, trap_of_block s cause tval hb, rfl, rfl, ?_⟩
    have hruns := runs_takeTrap_of_leaveBlock b cause tval hp hbusy
    rw [takeTrap_eq_handled (c := (c.leaveBlock b cause tval).ready) _ _ _ _ rfl hr hfatal] at hruns
    exact hruns
  · rw [exec_instructionFetchTrap_eq_trap ho hr hf]
    exact trap_eq_handled (c := { s.cur with ir := 0 }) tval rfl hr (trapIsFatal_eq_false ht hi hu) hb
  · rw [exec_illegalWord_eq_trap ho (hr ▸ hd)]
    exact trap_eq_handled (c := { s.cur with ir := word }) _ rfl hr (trapIsFatal_eq_false ht hi nofun) hb

/-- Settles O15: the trap, taken at once or after a block's return, is the fatal one, which stops the thread as it stands and
puts its context in ERROR. -/
theorem fatalTrapStopsTheContext : Obligations.FatalTrapStopsTheContext := by
  unfold Obligations.FatalTrapStopsTheContext
  intro s c x cause tval hp hr hcond hx he
  have hfatal : trapIsFatal c cause = true := (trapIsFatal_iff c cause).mpr hcond
  refine ⟨fun hb => ?_, fun hb hbusy => ?_⟩
  · rw [trap_of_no_block s cause tval hb, takeTrap_fatal s _ _ _ _ hr hfatal]
    exact ⟨_, rfl, fatalEnd_fatalTrap _ _ _ _ hp hx he⟩
  · obtain ⟨b, hb⟩ := Option.ne_none_iff_exists'.mp hb
    have hruns := runs_takeTrap_of_leaveBlock b cause tval hp hbusy
    rw [takeTrap_fatal (c := (c.leaveBlock b cause tval).ready) _ _ _ _ _ hr hfatal] at hruns
    exact ⟨_, _, trap_of_block s cause tval hb, rfl, rfl, hruns,
      fatalEnd_fatalTrap (s := s.blockHome c b cause tval) (c := (c.leaveBlock b cause tval).ready) _ _ _ _ rfl hx he⟩

end Sys2Proof.Machine

/-! Decoding undoes encoding (R56, R73, R74): every word's own lemma, and the device events, which have no word. -/

namespace Sys2Proof.Laws

/-- Every instruction that has a word is read back from it. -/
theorem roundTrip_of_isWord {i : Instr} (hw : i.isWord = true) : RoundTrip.Statement i := by
  cases i with
  | add d a b => exact RoundTrip.add d a b
  | sub d a b => exact RoundTrip.sub d a b
  | and d a b => exact RoundTrip.and d a b
  | or d a b => exact RoundTrip.or d a b
  | xor d a b => exact RoundTrip.xor d a b
  | andn d a b => exact RoundTrip.andn d a b
  | sll d a b => exact RoundTrip.sll d a b
  | srl d a b => exact RoundTrip.srl d a b
  | sra d a b => exact RoundTrip.sra d a b
  | rol d a b => exact RoundTrip.rol d a b
  | min d a b => exact RoundTrip.min d a b
  | max d a b => exact RoundTrip.max d a b
  | minu d a b => exact RoundTrip.minu d a b
  | maxu d a b => exact RoundTrip.maxu d a b
  | slt d a b => exact RoundTrip.slt d a b
  | sltu d a b => exact RoundTrip.sltu d a b
  | seq d a b => exact RoundTrip.seq d a b
  | sel d a b => exact RoundTrip.sel d a b
  | addi d a imm => exact RoundTrip.addi d a imm
  | andi d a imm => exact RoundTrip.andi d a imm
  | ori d a imm => exact RoundTrip.ori d a imm
  | xori d a imm => exact RoundTrip.xori d a imm
  | slli d a k => exact RoundTrip.slli d a k
  | srli d a k => exact RoundTrip.srli d a k
  | srai d a k => exact RoundTrip.srai d a k
  | roli d a k => exact RoundTrip.roli d a k
  | slti d a imm => exact RoundTrip.slti d a imm
  | sltiu d a imm => exact RoundTrip.sltiu d a imm
  | seqi d a imm => exact RoundTrip.seqi d a imm
  | lui d imm => exact RoundTrip.lui d imm
  | auipc d imm => exact RoundTrip.auipc d imm
  | mul d a b => exact RoundTrip.mul d a b
  | mulh d a b => exact RoundTrip.mulh d a b
  | mulhu d a b => exact RoundTrip.mulhu d a b
  | div d a b => exact RoundTrip.div d a b
  | divu d a b => exact RoundTrip.divu d a b
  | rem d a b => exact RoundTrip.rem d a b
  | remu d a b => exact RoundTrip.remu d a b
  | clz d a => exact RoundTrip.clz d a
  | ctz d a => exact RoundTrip.ctz d a
  | popc d a => exact RoundTrip.popc d a
  | brev d a => exact RoundTrip.brev d a
  | bswap d a => exact RoundTrip.bswap d a
  | bfx d a b => exact RoundTrip.bfx d a b
  | bfi d a b => exact RoundTrip.bfi d a b
  | lb d a imm => exact RoundTrip.lb d a imm
  | lbu d a imm => exact RoundTrip.lbu d a imm
  | lh d a imm => exact RoundTrip.lh d a imm
  | lhu d a imm => exact RoundTrip.lhu d a imm
  | lw d a imm => exact RoundTrip.lw d a imm
  | lwu d a imm => exact RoundTrip.lwu d a imm
  | ld d a imm => exact RoundTrip.ld d a imm
  | sb b a imm => exact RoundTrip.sb b a imm
  | sh b a imm => exact RoundTrip.sh b a imm
  | sw b a imm => exact RoundTrip.sw b a imm
  | sd b a imm => exact RoundTrip.sd b a imm
  | ldo d a acq sc imm => exact RoundTrip.ldo d a acq sc imm
  | sto b a rel sc imm => exact RoundTrip.sto b a rel sc imm
  | beq a b off => exact RoundTrip.beq a b off
  | bne a b off => exact RoundTrip.bne a b off
  | blt a b off => exact RoundTrip.blt a b off
  | bge a b off => exact RoundTrip.bge a b off
  | bltu a b off => exact RoundTrip.bltu a b off
  | bgeu a b off => exact RoundTrip.bgeu a b off
  | jal d off => exact RoundTrip.jal d off
  | jalr d a imm => exact RoundTrip.jalr d a imm
  | csrr d csr => exact RoundTrip.csrr d csr
  | csrw a csr => exact RoundTrip.csrw a csr
  | csrs a csr => exact RoundTrip.csrs a csr
  | csrc a csr => exact RoundTrip.csrc a csr
  | trap a code => exact RoundTrip.trap a code
  | eret => exact RoundTrip.eret
  | ucall n => exact RoundTrip.ucall n
  | brk n => exact RoundTrip.brk n
  | fence kind sc => exact RoundTrip.fence kind sc
  | iflush => exact RoundTrip.iflush
  | winset a w => exact RoundTrip.winset a w
  | ldfe d a imm => exact RoundTrip.ldfe d a imm
  | ldfeClr d a imm => exact RoundTrip.ldfeClr d a imm
  | stfe b a imm => exact RoundTrip.stfe b a imm
  | feq d a imm => exact RoundTrip.feq d a imm
  | marm a imm => exact RoundTrip.marm a imm
  | mclr => exact RoundTrip.mclr
  | mwait => exact RoundTrip.mwait
  | yield => exact RoundTrip.yield
  | halt => exact RoundTrip.halt
  | fork a b => exact RoundTrip.fork a b
  | rfork d a b => exact RoundTrip.rfork d a b
  | join a => exact RoundTrip.join a
  | taskend => exact RoundTrip.taskend
  | aadd d a b kind sc o w32 => exact RoundTrip.aadd d a b kind sc o w32
  | aand d a b kind sc o w32 => exact RoundTrip.aand d a b kind sc o w32
  | aor d a b kind sc o w32 => exact RoundTrip.aor d a b kind sc o w32
  | axor d a b kind sc o w32 => exact RoundTrip.axor d a b kind sc o w32
  | amin d a b kind sc o w32 => exact RoundTrip.amin d a b kind sc o w32
  | amax d a b kind sc o w32 => exact RoundTrip.amax d a b kind sc o w32
  | aminu d a b kind sc o w32 => exact RoundTrip.aminu d a b kind sc o w32
  | amaxu d a b kind sc o w32 => exact RoundTrip.amaxu d a b kind sc o w32
  | axchg d a b kind sc o w32 => exact RoundTrip.axchg d a b kind sc o w32
  | acas d a b kind sc w32 => exact RoundTrip.acas d a b kind sc w32
  | migr a => exact RoundTrip.migr a
  | retn => exact RoundTrip.retn
  | radd a b rel sc o w32 => exact RoundTrip.radd a b rel sc o w32
  | rand a b rel sc o w32 => exact RoundTrip.rand a b rel sc o w32
  | ror a b rel sc o w32 => exact RoundTrip.ror a b rel sc o w32
  | rxor a b rel sc o w32 => exact RoundTrip.rxor a b rel sc o w32
  | rmin a b rel sc o w32 => exact RoundTrip.rmin a b rel sc o w32
  | rmax a b rel sc o w32 => exact RoundTrip.rmax a b rel sc o w32
  | rfadd a b rel sc o w32 => exact RoundTrip.rfadd a b rel sc o w32
  | hjoin d a t x h => exact RoundTrip.hjoin d a t x h
  | hleave h => exact RoundTrip.hleave h
  | hbar h => exact RoundTrip.hbar h
  | harrv h => exact RoundTrip.harrv h
  | hwait h => exact RoundTrip.hwait h
  | hvote d a sel h => exact RoundTrip.hvote d a sel h
  | hred d a sel h => exact RoundTrip.hred d a sel h
  | hinfo d h => exact RoundTrip.hinfo d h
  | wpres d a => exact RoundTrip.wpres d a
  | wsplit d a b => exact RoundTrip.wsplit d a b
  | wdeleg d a b => exact RoundTrip.wdeleg d a b
  | wsurr d a => exact RoundTrip.wsurr d a
  | wreset d a => exact RoundTrip.wreset d a
  | wqry d a b => exact RoundTrip.wqry d a b
  | cpy d a b ch => exact RoundTrip.cpy d a b ch
  | cpys d a b ch => exact RoundTrip.cpys d a b ch
  | cpwait a ch => exact RoundTrip.cpwait a ch
  | chwm a b ch => exact RoundTrip.chwm a b ch
  | halo a b => exact RoundTrip.halo a b
  | halowait a b => exact RoundTrip.halowait a b
  | mcast d a b => exact RoundTrip.mcast d a b
  | gath d a b ch => exact RoundTrip.gath d a b ch
  | coll d a b ty sel => exact RoundTrip.coll d a b ty sel
  | qstat d => exact RoundTrip.qstat d
  | mxop a ty sp => exact RoundTrip.mxop a ty sp
  | mxzero a => exact RoundTrip.mxzero a
  | mxst a ty sat => exact RoundTrip.mxst a ty sat
  | mxld a => exact RoundTrip.mxld a
  | mxring a b => exact RoundTrip.mxring a b
  | mxadv a => exact RoundTrip.mxadv a
  | mxwgt a => exact RoundTrip.mxwgt a
  | cntr d e => exact RoundTrip.cntr d e
  | time d late => exact RoundTrip.time d late
  | vld d a ty m => exact RoundTrip.vld d a ty m
  | vlds d a b ty m => exact RoundTrip.vlds d a b ty m
  | vldx d a b ty m => exact RoundTrip.vldx d a b ty m
  | vst d a ty m => exact RoundTrip.vst d a ty m
  | vsts d a b ty m => exact RoundTrip.vsts d a b ty m
  | vstx d a b ty m => exact RoundTrip.vstx d a b ty m
  | vadd d a b ty m => exact RoundTrip.vadd d a b ty m
  | vsub d a b ty m => exact RoundTrip.vsub d a b ty m
  | vadds d a b ty m => exact RoundTrip.vadds d a b ty m
  | vsubs d a b ty m => exact RoundTrip.vsubs d a b ty m
  | vmul d a b ty m => exact RoundTrip.vmul d a b ty m
  | vmulh d a b ty m => exact RoundTrip.vmulh d a b ty m
  | vmin d a b ty m => exact RoundTrip.vmin d a b ty m
  | vmax d a b ty m => exact RoundTrip.vmax d a b ty m
  | vabs d a ty m => exact RoundTrip.vabs d a ty m
  | vneg d a ty m => exact RoundTrip.vneg d a ty m
  | vand d a b ty m => exact RoundTrip.vand d a b ty m
  | vor d a b ty m => exact RoundTrip.vor d a b ty m
  | vxor d a b ty m => exact RoundTrip.vxor d a b ty m
  | vandn d a b ty m => exact RoundTrip.vandn d a b ty m
  | vsll d a b ty m => exact RoundTrip.vsll d a b ty m
  | vsrl d a b ty m => exact RoundTrip.vsrl d a b ty m
  | vsra d a b ty m => exact RoundTrip.vsra d a b ty m
  | vsel d a b ty m => exact RoundTrip.vsel d a b ty m
  | vcmpEq d a b ty m => exact RoundTrip.vcmpEq d a b ty m
  | vcmpNe d a b ty m => exact RoundTrip.vcmpNe d a b ty m
  | vcmpLt d a b ty m => exact RoundTrip.vcmpLt d a b ty m
  | vcmpLe d a b ty m => exact RoundTrip.vcmpLe d a b ty m
  | vcmpGt d a b ty m => exact RoundTrip.vcmpGt d a b ty m
  | vcmpGe d a b ty m => exact RoundTrip.vcmpGe d a b ty m
  | vwadd d a b ty m => exact RoundTrip.vwadd d a b ty m
  | vwsub d a b ty m => exact RoundTrip.vwsub d a b ty m
  | vwmul d a b ty m => exact RoundTrip.vwmul d a b ty m
  | vdot2 d a b ty sat m => exact RoundTrip.vdot2 d a b ty sat m
  | vdot4 d a b ty sat m => exact RoundTrip.vdot4 d a b ty sat m
  | vnarrow d a ty sat m => exact RoundTrip.vnarrow d a ty sat m
  | vfadd d a b f rm => exact RoundTrip.vfadd d a b f rm
  | vfsub d a b f rm => exact RoundTrip.vfsub d a b f rm
  | vfmul d a b f rm => exact RoundTrip.vfmul d a b f rm
  | vfdiv d a b f rm => exact RoundTrip.vfdiv d a b f rm
  | vfma d a b f rm => exact RoundTrip.vfma d a b f rm
  | vfms d a b f rm => exact RoundTrip.vfms d a b f rm
  | vfnma d a b f rm => exact RoundTrip.vfnma d a b f rm
  | vfnms d a b f rm => exact RoundTrip.vfnms d a b f rm
  | vfmin d a b f m => exact RoundTrip.vfmin d a b f m
  | vfmax d a b f m => exact RoundTrip.vfmax d a b f m
  | vfabs d a f m => exact RoundTrip.vfabs d a f m
  | vfneg d a f m => exact RoundTrip.vfneg d a f m
  | vfsqrt d a f rm => exact RoundTrip.vfsqrt d a f rm
  | vfrcp d a f rm => exact RoundTrip.vfrcp d a f rm
  | vfrsq d a f rm => exact RoundTrip.vfrsq d a f rm
  | vfclass d a f m => exact RoundTrip.vfclass d a f m
  | vfcmpEq d a b f m => exact RoundTrip.vfcmpEq d a b f m
  | vfcmpNe d a b f m => exact RoundTrip.vfcmpNe d a b f m
  | vfcmpLt d a b f m => exact RoundTrip.vfcmpLt d a b f m
  | vfcmpLe d a b f m => exact RoundTrip.vfcmpLe d a b f m
  | vfcmpGt d a b f m => exact RoundTrip.vfcmpGt d a b f m
  | vfcmpGe d a b f m => exact RoundTrip.vfcmpGe d a b f m
  | vcvt d a sat st rnd dt m => exact RoundTrip.vcvt d a sat st rnd dt m
  | vcvtgq d a sat st rnd dt m => exact RoundTrip.vcvtgq d a sat st rnd dt m
  | vperm d a b ty m => exact RoundTrip.vperm d a b ty m
  | vshuf d a b ty m => exact RoundTrip.vshuf d a b ty m
  | vzip d a b ty m => exact RoundTrip.vzip d a b ty m
  | vunzip d a b ty m => exact RoundTrip.vunzip d a b ty m
  | vbcast d a ty m => exact RoundTrip.vbcast d a ty m
  | vslide d a b ty m => exact RoundTrip.vslide d a b ty m
  | vredi d a ty m => exact RoundTrip.vredi d a ty m
  | vmvs d a b ty m => exact RoundTrip.vmvs d a b ty m
  | vspl d a b ty m => exact RoundTrip.vspl d a b ty m
  | vfreds d a b f rm => exact RoundTrip.vfreds d a b f rm
  | mand d a b => exact RoundTrip.mand d a b
  | mor d a b => exact RoundTrip.mor d a b
  | mxor d a b => exact RoundTrip.mxor d a b
  | mnot d a => exact RoundTrip.mnot d a
  | mpopc d a => exact RoundTrip.mpopc d a
  | mfirst d a => exact RoundTrip.mfirst d a
  | mmov d a => exact RoundTrip.mmov d a
  | pori2 d a f64 nf sos m => exact RoundTrip.pori2 d a f64 nf sos m
  | pori3 d a f64 nf sos m => exact RoundTrip.pori3 d a f64 nf sos m
  | pincir d a f64 nf sos m => exact RoundTrip.pincir d a f64 nf sos m
  | pinsph d a f64 nf sos m => exact RoundTrip.pinsph d a f64 nf sos m
  | psegx d a f64 nf sos m => exact RoundTrip.psegx d a f64 nf sos m
  | rfetch d a => exact RoundTrip.rfetch d a
  | dispatch d a b => exact RoundTrip.dispatch d a b
  | sigwait d => exact RoundTrip.sigwait d
  | keyld d a b => exact RoundTrip.keyld d a b
  | _ => cases hw

/-- Settles O4: an instruction that has a word is read back from it by the lemma of its constructor, and a device event is no
well-formed instruction. -/
theorem decodeEncodeRoundTrip : Obligations.DecodeEncodeRoundTrip := by
  unfold Obligations.DecodeEncodeRoundTrip
  intro i
  cases h : i.isWord with
  | true => exact roundTrip_of_isWord h
  | false => exact roundTrip_event h

end Sys2Proof.Laws

/-! The state after power-on (R409, Table 7-2, R214), and the words that the spec writes out (Tables 4-10 to 4-14). -/

namespace Sys2Proof.Machine

/-- Settles O1: every list of the power-on state is empty and its current slot is a vacant one. -/
theorem resetHoldsNothing : Obligations.ResetHoldsNothing := by
  unfold Obligations.ResetHoldsNothing
  exact ⟨rfl, rfl, rfl, rfl, rfl, rfl, rfl, rfl, rfl, rfl⟩

/-- Settles O2: the power-on memory is the empty list. -/
theorem resetMemoryCanonical : Obligations.ResetMemoryCanonical := Memory.wf_nil

/-- Settles O5: each of the ten words is decoded. -/
theorem wordsDecodeAsWritten : Obligations.WordsDecodeAsWritten := by
  unfold Obligations.WordsDecodeAsWritten
  exact ⟨rfl, rfl, rfl, rfl, rfl, rfl, rfl, rfl, rfl, rfl⟩

end Sys2Proof.Machine

/-! ### Canonical memory through a step (O3)

A step's state is built by operations that mostly leave memory alone, by a few that land bytes, and by the meanings of
instructions and events, which end in one of those. So: first the operations that leave memory as it is, then those
that keep its canonical form, then the meanings, in the model's order, each from the lemmas about what it calls. -/

namespace Sys2Proof.Machine

/-- Every state that a meaning answers has canonical memory. -/
def Canonical (o : Out) : Prop := ∀ t, o = .next t → t.MemInv

/-- Every state that an order of background events finds due has canonical memory. -/
def DueCanonical (o : Option State) : Prop := ∀ t, o = some t → Memory.wf t.mem = true

@[simp] theorem canonical_next {t : State} : Canonical (.next t) ↔ Memory.wf t.mem = true :=
  ⟨fun h => h t rfl, fun h _ e => by cases e; exact h⟩

@[simp] theorem canonical_fault (r : Fault) : Canonical (.fault r) := by simp [Canonical]

@[simp] theorem canonical_refused (r : Refusal) : Canonical (.refused r) := by simp [Canonical]

@[simp] theorem canonical_notNow (e : String) : Canonical (notNow e) := canonical_fault _

@[simp] theorem canonical_ite {p : Prop} [Decidable p] {o q : Out} :
    Canonical (if p then o else q) ↔ (p → Canonical o) ∧ (¬ p → Canonical q) := by
  split <;> simp [*]

@[simp] theorem nil_memoryWf : Memory.wf [] = true := Memory.wf_nil

@[simp] theorem filter_memoryWf {m : List Host.Cell} (p : Host.Cell → Bool) (hm : Memory.wf m = true) :
    Memory.wf (m.filter p) = true := Memory.wf_filter p hm

@[simp] theorem writeCells_memoryWf {m : List Host.Cell} (cs : List Host.Cell) (hm : Memory.wf m = true) :
    Memory.wf (writeCells m cs) = true := Memory.wf_writeCells cs hm

@[simp] theorem putBytes_memoryWf {m : List Host.Cell} (k : Nat) (bs : List Byte) (hm : Memory.wf m = true) :
    Memory.wf (putBytes m k bs) = true := Memory.wf_putBytes k bs hm

@[simp] theorem land_memoryWf {s : State} (cs : List Host.Cell) (hm : Memory.wf s.mem = true) :
    Memory.wf (s.land cs).mem = true := State.land_wf cs hm

@[simp] theorem landFull_memoryWf {s : State} (cs : List Host.Cell) (hm : Memory.wf s.mem = true) :
    Memory.wf (s.landFull cs).mem = true := State.landFull_wf cs hm

theorem mem_ite (p : Prop) [Decidable p] (s t : State) : (if p then s else t).mem = if p then s.mem else t.mem :=
  apply_ite _ _ _ _

theorem foldl_mem {α : Type} {f : State → α → State} (hf : ∀ s a, (f s a).mem = s.mem) (l : List α) (s : State) :
    (l.foldl f s).mem = s.mem := by
  induction l generalizing s with
  | nil => rfl
  | cons a l ih => rw [List.foldl_cons, ih, hf]

theorem foldl_wf {α : Type} {f : State → α → State}
    (hf : ∀ s a, Memory.wf s.mem = true → Memory.wf (f s a).mem = true) (l : List α) {s : State}
    (h : Memory.wf s.mem = true) : Memory.wf (l.foldl f s).mem = true := by
  induction l generalizing s with
  | nil => exact h
  | cons a l ih => rw [List.foldl_cons]; exact ih (hf _ _ h)

/-! #### What leaves memory as it is -/

/-! #### The named operations -/

@[simp] theorem State.reland_mem (s : State) : (State.reland s).mem = s.mem := by
  unfold State.reland
  split <;> simp

@[simp] theorem State.countHalos_mem (s : State) : (State.countHalos s).mem = s.mem := rfl

@[simp] theorem State.signalRef_mem (s : State) (cores : List Nat) (ev : BitVec 6) :
    (s.signalRef cores ev).mem = s.mem := by
  unfold State.signalRef
  exact foldl_mem (by intros; rfl) _ _

@[simp] theorem State.postBy_mem (s : State) (l : Link) (node ctx : Nat) (vc : BitVec 4)
    (bytes : List Byte) :
    (State.postBy s l node ctx vc bytes).mem = s.mem := rfl

@[simp] theorem fatalTrapAt_mem (s : State) (c : Slot) (pc : Word) (cause : TrapCause) (value : Word)
    (word : IWord) (loc : Word) :
    (fatalTrapAt s c pc cause value word loc).mem = s.mem := by
  simp only [fatalTrapAt]
  split <;> simp

@[simp] theorem State.draw_mem (s : State) : (State.draw s).2.mem = s.mem := rfl

/-! #### Operand forms -/

@[simp] theorem State.publish_mem (s : State) (c : Slot) (sc : Scope) :
    (State.publish s c sc).mem = s.mem := by
  unfold State.publish
  repeat' split
  all_goals simp

@[simp] theorem released_mem (s : State) (c : Slot) (sc : Scope) : (released s c sc).1.mem = s.mem := by
  simp [released]

/-! #### Bank controllers and homes -/

@[simp] theorem State.request_mem (s : State) (x : Ctx) (k n : Nat) (write : Bool) :
    (State.request s x k n write).mem = s.mem := by
  unfold State.request
  repeat' split
  all_goals simp

@[simp] theorem State.noteAccess_mem (s : State) (ctx k n : Nat) (write : Bool) :
    (State.noteAccess s ctx k n write).mem = s.mem := by
  simp only [State.noteAccess]
  repeat' split
  all_goals simp

@[simp] theorem State.noteAtomic_mem (s : State) (ctx k n : Nat) :
    (State.noteAtomic s ctx k n).mem = s.mem := by
  unfold State.noteAtomic
  split <;> simp

@[simp] theorem State.feLoaded_mem (s : State) (c : Slot) (d : Reg5) (va : Word) (k : Nat) :
    (State.feLoaded s c d va k).mem = s.mem := by
  unfold State.feLoaded
  split <;> simp

@[simp] theorem State.enterStores_mem (s : State) (c : Slot) (css : List (List Host.Cell))
    (rel : Option Scope) (unit mark : Nat) :
    (State.enterStores s c css rel unit mark).mem = s.mem := rfl

@[simp] theorem State.close_mem (s : State) (es : List Early) : (State.close s es).mem = s.mem := by
  unfold State.close
  split <;> simp

@[simp] theorem State.divideWays_mem (s : State) : (State.divideWays s).mem = s.mem := rfl

@[simp] theorem releasedBy_mem (s : State) (c : Slot) (rel : Option Scope) :
    (releasedBy s c rel).1.mem = s.mem := by
  unfold releasedBy
  split <;> simp

@[simp] theorem enterSome_mem (s : State) (c : Slot) (css : List (List Host.Cell)) (rel : Option Scope)
    (unit mark : Nat) :
    (enterSome s c css rel unit mark).1.mem = s.mem := rfl

/-! #### Tasks, deques, stealing, RFORK recruitment, JOIN, monitors, YIELD and HALT -/

@[simp] theorem State.sendHuddle_mem (s : State) (c : Slot) (name : Word) (kind : HReqKind) :
    (State.sendHuddle s c name kind).mem = s.mem := rfl

@[simp] theorem State.leaveAll_mem (s : State) (c : Slot) : (s.leaveAll c).mem = s.mem := by
  unfold State.leaveAll
  rw [foldl_mem fun _ _ => by split <;> simp]
  split <;> simp

@[simp] theorem State.setDeque_mem (s : State) (d : Deque) : (State.setDeque s d).mem = s.mem := rfl

@[simp] theorem State.startIn_mem (s : State) (c : Slot) (k : Kernel) (dom : Nat) (entry s2 s3 s4 : Word) :
    (State.startIn s c k dom entry s2 s3 s4).mem = s.mem := by
  simp [State.startIn]

@[simp] theorem State.startRecord_mem (s : State) (x : Ctx) (c : Slot) (t : TaskRec) :
    (State.startRecord s x c t).mem = s.mem := by
  unfold State.startRecord
  split <;> simp

/-! #### Atomics, reductions and migrating blocks, and their events -/

@[simp] theorem State.answerAtomic_mem (s : State) (slot : Nat) (w : Wait) :
    (State.answerAtomic s slot w).mem = s.mem := by
  simp [State.answerAtomic]

@[simp] theorem State.outPerformed_mem (s : State) (e : OutReq) : (State.outPerformed s e).mem = s.mem := rfl

@[simp] theorem State.reductionError_mem (s : State) (e : OutReq) (m : MemErr) :
    (State.reductionError s e m).mem = s.mem := by
  simp [State.reductionError]

theorem State.pickOut_mem {s t : State} {es : List OutReq} {e : OutReq} (h : s.pickOut es = some (e, t)) :
    t.mem = s.mem := by
  unfold State.pickOut at h
  split at h
  · cases h
  · cases h; rfl
  · cases h; rfl

/-! #### Huddles -/

@[simp] theorem State.setEntry_mem (s : State) (h : Huddle) : (State.setEntry s h).mem = s.mem := by
  unfold State.setEntry
  split <;> simp

@[simp] theorem State.settleEntry_mem (s : State) (h : Huddle) : (State.settleEntry s h).mem = s.mem := by
  simp [State.settleEntry]

@[simp] theorem State.dropHreq_mem (s : State) (k : Nat) : (State.dropHreq s k).mem = s.mem := rfl

@[simp] theorem State.departThread_mem (s : State) (ctx thread : Nat) :
    (s.departThread ctx thread).mem = s.mem := by
  unfold State.departThread
  exact foldl_mem (fun _ _ => by simp) _ _

@[simp] theorem State.passCharges_mem (s : State) (ctx : Nat) : (State.passCharges s ctx).mem = s.mem := rfl

/-! #### The caddie, copy channels, halo exchange, multicast, gathers, collectives and messages -/

@[simp] theorem State.noteBlocks_mem (s : State) (ctx : Nat) (ks : List Nat) (write : Bool) :
    (s.noteBlocks ctx ks write).mem = s.mem := by
  unfold State.noteBlocks
  exact foldl_mem (fun _ _ => by simp) _ _

@[simp] theorem State.setChan_mem (s : State) (h : Chan) : (State.setChan s h).mem = s.mem := rfl

@[simp] theorem State.updChan_mem (s : State) (core ch : Nat) (f : Chan → Chan) :
    (State.updChan s core ch f).mem = s.mem := rfl

@[simp] theorem State.chanSettle_mem (s : State) (core ch : Nat) :
    (State.chanSettle s core ch).mem = s.mem := by
  unfold State.chanSettle
  split <;> simp

theorem State.enterXfer_mem {s t : State} {c d : Slot} {x : Xfer} (h : s.enterXfer c x = some (t, d)) :
    t.mem = s.mem := by
  simp only [State.enterXfer] at h
  split at h
  · split at h
    · cases h
    · cases h
      dsimp only
      split <;> simp
  · split at h
    · cases h
      dsimp only
      split <;> simp
    · cases h

@[simp] theorem State.uncorrCtx_mem (s : State) (x : Ctx) (va : Word) (e : MemErr) :
    (State.uncorrCtx s x va e).mem = s.mem := by
  simp [State.uncorrCtx]

@[simp] theorem State.setXfer_mem (s : State) (x : Xfer) : (State.setXfer s x).mem = s.mem := rfl

@[simp] theorem State.autoAdvance_mem (s : State) (ctx core ch b : Nat) :
    (State.autoAdvance s ctx core ch b).mem = s.mem := by
  unfold State.autoAdvance
  split <;> simp

@[simp] theorem State.pushQ1_mem (s : State) (t : Xfer) (ws : List Word) :
    (State.pushQ1 s t ws).mem = s.mem := by
  simp only [State.pushQ1]
  split <;> simp

@[simp] theorem State.endXfer_mem (s : State) (t : Xfer) (fault : Bool) :
    (State.endXfer s t fault).mem = s.mem := by
  unfold State.endXfer
  split <;> simp

@[simp] theorem State.endHalo_mem (s : State) (t : Xfer) : (State.endHalo s t).mem = s.mem := by
  simp [State.endHalo]

@[simp] theorem State.raiseHalo_mem (s : State) (t : Xfer) (h : HaloDir) :
    (State.raiseHalo s t h).mem = s.mem := by
  simp only [State.raiseHalo]
  split <;> simp

@[simp] theorem State.endDir_mem (s : State) (t : Xfer) (h : HaloDir) : (State.endDir s t h).mem = s.mem := by
  simp only [State.endDir]
  repeat' split
  all_goals simp

@[simp] theorem State.peerGone_mem (s : State) (ctx node : Nat) : (State.peerGone s ctx node).mem = s.mem :=
  rfl

@[simp] theorem State.setColl_mem (s : State) (e : Coll) : (State.setColl s e).mem = s.mem := rfl

@[simp] theorem State.noteFar_mem (s : State) (e : Coll) (n : Nat) : (State.noteFar s e n).mem = s.mem := by
  simp [State.noteFar]

@[simp] theorem State.resolveColls_mem (s : State) (gs : List Coll) :
    (State.resolveColls s gs).mem = s.mem := rfl

@[simp] theorem finishColl_mem (s : State) (e : Coll) (status : Nat) (flags : BitVec 5) :
    (finishColl s e status flags).mem = s.mem := by
  simp only [finishColl]
  split <;> simp

/-! #### Matrix units -/

@[simp] theorem State.setUnit_mem (s : State) (u : MUnit) : (State.setUnit s u).mem = s.mem := rfl

@[simp] theorem State.endVisit_mem (s : State) (clus : Nat) : (State.endVisit s clus).mem = s.mem := by
  unfold State.endVisit
  repeat' split
  all_goals simp

@[simp] theorem State.endVisits_mem (s : State) : s.endVisits.mem = s.mem := by
  unfold State.endVisits
  exact foldl_mem (fun _ _ => by simp) _ _

@[simp] theorem State.dropPush_mem (s : State) (slot n : Nat) : (State.dropPush s slot n).mem = s.mem := by
  simp [State.dropPush]

@[simp] theorem State.completeCmd_mem (s : State) (u : MUnit) (slot : Nat) (w : Word) (status : Nat)
    (flags : BitVec 5) :
    (State.completeCmd s u slot w status flags).mem = s.mem := by
  simp [State.completeCmd]

@[simp] theorem State.noteStep_mem (s : State) (x : Ctx) (clus : Nat) (w : Word) :
    (State.noteStep s x clus w).mem = s.mem := by
  simp [State.noteStep]

@[simp] theorem runOp_mem (s : State) (u : MUnit) (x : Ctx) (slot : Nat) (w : Word) :
    (runOp s u x slot w).mem = s.mem := by
  simp only [runOp]
  split <;> simp

@[simp] theorem runStep_mem (s : State) (u : MUnit) (x : Ctx) (slot : Nat) (w : Word) :
    (runStep s u x slot w).mem = s.mem := by
  unfold runStep
  split <;> simp

/-! #### The life of a context -/

@[simp] theorem State.allotSlots_mem (s : State) (x : Ctx) (st : Status) :
    (s.allotSlots x st).mem = s.mem := by
  unfold State.allotSlots
  exact foldl_mem (fun _ _ => by split <;> simp) _ _

@[simp] theorem State.allotUnits_mem (s : State) (x : Ctx) : (s.allotUnits x).mem = s.mem := by
  unfold State.allotUnits
  exact foldl_mem (fun _ _ => by split <;> rfl) _ _

@[simp] theorem State.dropPart_mem (s : State) (id : Nat) : (State.dropPart s id).mem = s.mem := rfl

@[simp] theorem State.cancel_mem (s : State) (id : Nat) : (State.cancel s id).mem = s.mem := rfl

@[simp] theorem State.dropChans_mem (s : State) (core id : Nat) : (State.dropChans s core id).mem = s.mem :=
  rfl

@[simp] theorem State.holdModules_mem (s : State) (x : Ctx) : (State.holdModules s x).mem = s.mem := by
  unfold State.holdModules
  split <;> simp

@[simp] theorem State.dropCommit_mem (s : State) (id : Nat) : (State.dropCommit s id).mem = s.mem := rfl

@[simp] theorem State.lessCommit_mem (s : State) (id : Nat) (q : List Nat) :
    (State.lessCommit s id q).mem = s.mem := rfl

@[simp] theorem State.detachKids_mem (s : State) (x : Ctx) (kids : List Ctx) :
    (s.detachKids x kids).mem = s.mem := by
  unfold State.detachKids
  refine foldl_mem (fun t k => ?_) _ _
  dsimp only
  split <;> simp

@[simp] theorem State.clearCounts_mem (s : State) (ctx : Nat) (ps : List Nat) :
    (State.clearCounts s ctx ps).mem = s.mem := rfl

@[simp] theorem State.freeHandles_mem (s : State) (id : Nat) : (State.freeHandles s id).mem = s.mem := rfl

@[simp] theorem State.ctxFault_mem (s : State) (x : Ctx) (kind : Nat) :
    (State.ctxFault s x kind).mem = s.mem := by
  simp [State.ctxFault]

/-! #### Synchronised stops, saving out, restoring and resuming a family, and time slices -/

@[simp] theorem State.setStop_mem (s : State) (root : Nat) (st : Stop) :
    (State.setStop s root st).mem = s.mem := rfl

@[simp] theorem State.decideStop_mem (s : State) (root : Nat) : (State.decideStop s root).mem = s.mem := rfl

@[simp] theorem State.moveFamily_mem (s : State) (root : Nat) (m : ClusMap) :
    (State.moveFamily s root m).mem = s.mem := rfl

@[simp] theorem State.takePlace_mem (s : State) (root : Nat) (p : Place) :
    (State.takePlace s root p).mem = s.mem := by
  unfold State.takePlace
  repeat' split
  all_goals simp

@[simp] theorem State.beginSlice_mem (s : State) (root : Nat) : (State.beginSlice s root).mem = s.mem := rfl

@[simp] theorem State.joinUnits_mem (s : State) (root : Nat) (ps : List MUnit) (shares : List Nat) :
    (s.joinUnits root ps shares).mem = s.mem := by
  unfold State.joinUnits
  refine foldl_mem (fun t p => ?_) _ _
  dsimp only
  split <;> rfl

@[simp] theorem State.rehome_mem (s : State) (root : Nat) : (State.rehome s root).mem = s.mem := rfl

@[simp] theorem State.without_mem (s : State) (roots : List Nat) : (State.without s roots).mem = s.mem := rfl

/-! #### User queues -/

@[simp] theorem State.launchAll_mem (s : State) (x : Ctx) (k : Kernel) (p : Packet) (i : BitVec 32) :
    (s.launchAll x k p i).mem = s.mem := by
  unfold State.launchAll
  exact foldl_mem (fun _ _ => by simp) _ _

/-! #### Warrant images, the eight steps of admission, the build, receipts and redemption claims -/

@[simp] theorem State.reply_mem (s : State) (h : PortHdr) (code : Nat) (status : Word)
    (payload : List Byte) :
    (State.reply s h code status payload).mem = s.mem := by
  simp [State.reply]

@[simp] theorem State.newId_mem (s : State) : (State.newId s).2.mem = s.mem := by
  simp only [State.newId]
  split <;> simp

@[simp] theorem State.redeemChild_mem (s : State) (child : Nat) (who : BitVec 256) (node : Nat)
    (splitter : Option (Nat × Nat)) :
    (State.redeemChild s child who node splitter).mem = s.mem := by
  unfold State.redeemChild
  split <;> simp

@[simp] theorem State.setResult_mem (s : State) (slot : Nat) (w : Word) :
    (State.setResult s slot w).mem = s.mem := by
  simp only [State.setResult]
  split <;> simp

@[simp] theorem State.refuseClaim_mem (s : State) (who : ClaimFor) (status : Nat) :
    (State.refuseClaim s who status).mem = s.mem := by
  unfold State.refuseClaim
  split <;> simp

@[simp] theorem sendClaim_mem (n : Nat) (s : State) : (sendClaim n s).mem = s.mem := by
  induction n generalizing s with
  | zero => rfl
  | succ n ih =>
    unfold sendClaim
    split
    · rfl
    · dsimp only
      split
      · simp [ih]
      · split <;> simp

/-! #### The entry into ERROR, dumps, energy traps, power windows, expiry and background reads -/

@[simp] theorem State.scrubCount_mem (s : State) (die : Nat) : (State.scrubCount s die).mem = s.mem := by
  simp only [State.scrubCount]
  split <;> simp

/-! #### The debug modules' own events -/

@[simp] theorem haltCluster_mem (s : State) (holder clus : Nat) : (haltCluster s holder clus).mem = s.mem :=
  rfl

/-! #### The warrant instructions, major 0x16, and the umpire's handling of them -/

@[simp] theorem State.fitDeques_mem (s : State) (p : Ctx) : (State.fitDeques s p).mem = s.mem := rfl

/-! #### Power-on, commissioning, beacons and the commands of the admission port -/

@[simp] theorem State.useNonce_mem (s : State) (node : Nat) : (State.useNonce s node).mem = s.mem := rfl

@[simp] theorem State.noteError_mem (s : State) (x : Ctx) (k : Nat) (va : Word) :
    (State.noteError s x k va).mem = s.mem := by
  unfold State.noteError
  repeat' split
  all_goals simp

/-! #### The fabric links and inbound accesses -/

@[simp] theorem State.setLink_mem (s : State) (l : Link) : (State.setLink s l).mem = s.mem := rfl

@[simp] theorem State.takeFlit_mem (s : State) (l : Link) (f : Flit) : (State.takeFlit s l f).mem = s.mem := by
  unfold State.takeFlit
  repeat' split
  all_goals simp

@[simp] theorem State.fillLink_mem (s : State) (link : Nat) (vc : BitVec 4) :
    (State.fillLink s link vc).mem = s.mem := by
  simp only [State.fillLink]
  split <;> simp

@[simp] theorem State.respond_mem (s : State) (x : Ctx) (node : Nat) (bytes : List Byte) :
    (State.respond s x node bytes).mem = s.mem := by
  unfold State.respond
  split <;> simp

@[simp] theorem State.takeGot_mem (s : State) (node ctx : Nat) : (State.takeGot s node ctx).mem = s.mem :=
  rfl

/-! #### Scalar loads and stores, LDO and STO, full/empty accesses, and the events of the memory system -/

@[simp] theorem State.fillLine_mem (s : State) (l : ILine) : (State.fillLine s l).mem = s.mem := by
  simp only [State.fillLine]
  repeat' split
  all_goals simp

/-! #### Exact geometric predicates -/

@[simp] theorem countStages_mem (s : State) (c : Slot) (stages : List (Bool × Nat)) (nonfinite : Nat) :
    (countStages s c stages nonfinite).mem = s.mem := by
  unfold countStages
  split <;> simp

/-! #### The referee-only instructions -/

@[simp] theorem State.dispatchOut_mem (s : State) (bytes : List Byte) :
    (State.dispatchOut s bytes).mem = s.mem := by
  unfold State.dispatchOut
  split <;> simp

/-! #### One turn of the rotation -/

@[simp] theorem State.touchLine_mem (s : State) (l : ILine) : (State.touchLine s l).mem = s.mem := rfl

/-- A fetch changes no memory (R375). -/
theorem fetch_mem {s t : State} {w : IWord} (h : fetch s = .word w t) : t.mem = s.mem := by
  simp only [fetch] at h
  split at h
  · cases h
  · split at h
    · cases h; rfl
    · cases h

@[simp] theorem account_mem (pre : Slot) (cls : TurnClass) (s : State) : (account pre cls s).mem = s.mem := by
  simp only [account]
  repeat' split
  all_goals simp

@[simp] theorem debugNote_mem (pre : Slot) (cls : TurnClass) (s : State) :
    (debugNote pre cls s).mem = s.mem := by
  unfold debugNote
  repeat' split
  all_goals simp

@[simp] theorem debugCycle_mem (s : State) : (debugCycle s).mem = s.mem := by
  unfold debugCycle
  refine foldl_mem (fun t m => ?_) _ _
  dsimp only
  split
  · split <;> simp
  · rfl

@[simp] theorem endContexts_mem (s : State) : (endContexts s).mem = s.mem := by
  unfold endContexts
  refine foldl_mem (fun t x => ?_) _ _
  dsimp only
  split
  · split
    · rw [foldl_mem fun _ _ => by simp]
      simp
    · simp
  · rfl

@[simp] theorem watchdogCycle_mem (s : State) : (watchdogCycle s).mem = s.mem := rfl

@[simp] theorem State.switchTo_mem (s : State) (c : Slot) : (State.switchTo s c).mem = s.mem := rfl

@[simp] theorem State.withLine_mem (s : State) (iw : IWord) : (State.withLine s iw).mem = s.mem := rfl

/-! #### Answers that are chosen among others -/

@[simp] theorem unlessSame_canonical {w : Wait} {o : Out} (ho : Canonical o) : Canonical (unlessSame w o) := by
  unfold unlessSame
  split <;> simp [ho]

@[simp] theorem onlyIf_canonical {b : Bool} {o : Out} (ho : Canonical o) : Canonical (onlyIf b o) := by
  simp [onlyIf, ho]

@[simp] theorem dueCanonical_none : DueCanonical none := by simp [DueCanonical]

@[simp] theorem dueCanonical_orElse {o q : Option State} (ho : DueCanonical o) (hq : DueCanonical q) :
    DueCanonical (o <|> q) := by
  cases o with
  | none => exact hq
  | some t => exact ho

@[simp] theorem firstNext_canonical {α : Type} {f : α → Out} {l : List α} (hf : ∀ a, Canonical (f a)) :
    DueCanonical (firstNext f l) := by
  induction l with
  | nil => simp [firstNext]
  | cons a as ih =>
    unfold firstNext
    split
    · next t h => exact fun u e => by cases e; exact hf a t h
    · exact ih

/-- The answer of an event that stands for the first of several. -/
@[simp] theorem canonical_elim {o : Option State} {e : String} (ho : DueCanonical o) :
    Canonical (o.elim (notNow e) Host.Outcome.next) := by
  cases o with
  | none => simp
  | some t => exact canonical_next.2 (ho t rfl)

@[simp] theorem fetchClass_fst (o : Out) : (fetchClass o).1 = o := rfl

/-! #### What keeps memory canonical -/

section Meanings
variable {s : State}

/-! #### Bank controllers and homes -/

@[simp] theorem State.serveFe_wf {c : Slot} {op : FeOp} {d : Reg5} {va : Word} {k : Nat} {v : Word}
    (hm : Memory.wf s.mem = true) :
    Memory.wf (State.serveFe s c op d va k v).mem = true := by
  simp only [State.serveFe]
  repeat' split
  all_goals simp [hm]

@[simp] theorem settleGranule_wf {g n : Nat} (hm : Memory.wf s.mem = true) :
    Memory.wf (settleGranule g n s).mem = true := by
  induction n generalizing s with
  | zero => exact hm
  | succ n ih =>
    unfold settleGranule
    repeat' split
    all_goals simp [hm, ih]

@[simp] theorem State.settle_wf {gs : List Nat} (hm : Memory.wf s.mem = true) :
    Memory.wf (s.settle gs).mem = true := foldl_wf (fun _ _ => settleGranule_wf) gs hm

@[simp] theorem State.engineWrite_wf {cs : List Host.Cell} (hm : Memory.wf s.mem = true) :
    Memory.wf (State.engineWrite s cs).mem = true := by
  simp [State.engineWrite, hm]

@[simp] theorem State.engineEvent_wf {cs : List Host.Cell} {last : Bool} (hm : Memory.wf s.mem = true) :
    Memory.wf (s.engineEvent cs last).mem = true := by
  unfold State.engineEvent
  refine State.settle_wf ?_
  rw [foldl_mem fun _ _ => by split <;> simp]
  exact State.land_wf cs hm

@[simp] theorem State.feArrive_wf {c : Slot} {op : FeOp} {d : Reg5} {va : Word} {k : Nat} {v : Word}
    (hm : Memory.wf s.mem = true) :
    Memory.wf (State.feArrive s c op d va k v).mem = true := by
  unfold State.feArrive
  repeat' split
  all_goals simp [hm]

/-! #### Tasks, deques, stealing, RFORK recruitment, JOIN, monitors, YIELD and HALT -/

@[simp] theorem joinAtHome_wf {c : Slot} {va : Word} {k : Nat} (hm : Memory.wf s.mem = true) :
    Memory.wf (joinAtHome s c va k).mem = true := by
  simp only [joinAtHome]
  split <;> simp [hm]

/-! #### Atomics, reductions and migrating blocks, and their events -/

@[simp] theorem State.perform_wf {ctx : Nat} {r : AtomReq} (hm : Memory.wf s.mem = true) :
    Memory.wf (State.perform s ctx r).1.mem = true := by
  simp only [State.perform]
  split <;> simp [hm]

@[simp] theorem State.performFor_wf {c : Slot} {d : Reg5} {r : AtomReq} (hm : Memory.wf s.mem = true) :
    Memory.wf (State.performFor s c d r).1.mem = true := by
  simp only [State.performFor]
  split <;> simp [hm]

/-! #### Code objects -/

@[simp] theorem State.putCode_wf {ctx : Nat} {l : Layout} {o : Loaded} (hm : Memory.wf s.mem = true) :
    Memory.wf (s.putCode ctx l o).mem = true := by
  exact Memory.wf_putBytes _ _ (Memory.wf_putBytes _ _ (Memory.wf_putBytes _ _ (Memory.wf_filter _ hm)))

@[simp] theorem State.rekey_wf {x : Ctx} {key : List Byte} (hm : Memory.wf s.mem = true) :
    Memory.wf (s.rekey x key).mem = true := by
  unfold State.rekey
  refine foldl_wf (fun t u ht => ?_) _ hm
  dsimp only
  split
  · exact ht
  · exact Memory.wf_putBytes _ _ ht

@[simp] theorem State.installKey_wf {slot ctx : Nat} {key : Option (List Byte)}
    (hm : Memory.wf s.mem = true) :
    Memory.wf (State.installKey s slot ctx key).mem = true := by
  simp only [State.installKey]
  repeat' split
  all_goals simp [hm]

/-! #### The caddie, copy channels, halo exchange, multicast, gathers, collectives and messages -/

@[simp] theorem State.noteEngine_wf {t : Xfer} {ks : List Nat} {landed : Nat} {start own : Bool}
    (hm : Memory.wf s.mem = true) :
    Memory.wf (State.noteEngine s t ks landed start own).mem = true := by
  unfold State.noteEngine
  repeat' split
  all_goals simp [hm]

@[simp] theorem State.landXfer_wf {t : Xfer} {ks : List Nat} {bs : List Byte} {landed : Nat}
    {start own : Bool} (hm : Memory.wf s.mem = true) :
    Memory.wf (State.landXfer s t ks bs landed start own).mem = true := by
  unfold State.landXfer
  split <;> simp [hm]

@[simp] theorem State.landNext_wf {t : Xfer} {kd : Nat} {own : Bool} (hm : Memory.wf s.mem = true) :
    Memory.wf (State.landNext s t kd own).mem = true := by
  simp only [State.landNext]
  split <;> simp [hm]

@[simp] theorem State.hostRefuses_wf {x : Ctx} {t : Xfer} (hm : Memory.wf s.mem = true) :
    Memory.wf (State.hostRefuses s x t).1.mem = true := by
  simp only [State.hostRefuses]
  repeat' split
  all_goals simp [hm]

@[simp] theorem State.landDir_wf {t : Xfer} {h : HaloDir} {kd : Nat} (hm : Memory.wf s.mem = true) :
    Memory.wf (s.landDir t h kd).mem = true := by
  simp [State.landDir, hm]

@[simp] theorem mcastOne_wf {x : Ctx} {t : Xfer} {d : McastDest} (hm : Memory.wf s.mem = true) :
    Memory.wf (mcastOne x t s d).1.mem = true := by
  unfold mcastOne
  repeat' split
  all_goals simp [hm]

@[simp] theorem State.landColl_wf {e : Coll} {bs : List Byte} {kd : Nat} (hm : Memory.wf s.mem = true) :
    Memory.wf (State.landColl s e bs kd).mem = true := by
  simp [State.landColl, hm]

/-! #### The life of a context -/

@[simp] theorem State.atFamily_wf {root : Nat} {f : State → State} (hm : Memory.wf s.mem = true)
    (hf : ∀ t, Memory.wf t.mem = true → Memory.wf (f t).mem = true) :
    Memory.wf (s.atFamily root f).mem = true := by
  unfold State.atFamily
  split
  · exact hf _ hm
  · exact Memory.wf_filter _ (hf _ (by simp [State.withSaved, hm]))

@[simp] theorem State.giveChans_wf {core ctx : Nat} (hm : Memory.wf s.mem = true) :
    Memory.wf (State.giveChans s core ctx).mem = true := by
  unfold State.giveChans
  split <;> simp [hm]

@[simp] theorem State.allotChans_wf {x : Ctx} (hm : Memory.wf s.mem = true) :
    Memory.wf (s.allotChans x).mem = true := by
  unfold State.allotChans
  exact foldl_wf (fun _ _ h => by split <;> simp [h]) _ hm

@[simp] theorem State.allot_wf {x : Ctx} {st : Status} (hm : Memory.wf s.mem = true) :
    Memory.wf (s.allot x st).mem = true := by
  simp [State.allot, hm]

@[simp] theorem State.drain_wf {id : Nat} {noKey : Bool} (hm : Memory.wf s.mem = true) :
    Memory.wf (s.drain id noKey).mem = true := by
  unfold State.drain
  rw [State.close_mem]
  refine foldl_wf (fun _ _ h => by split <;> simp [h]) _ (foldl_wf (fun _ _ h => by split <;> simp [h]) _ hm)

@[simp] theorem State.haltHere_wf {id : Nat} {noKey : Bool} (hm : Memory.wf s.mem = true) :
    Memory.wf (State.haltHere s id noKey).mem = true := by
  simp [State.haltHere, hm]

@[simp] theorem State.haltCtx_wf {x : Ctx} {noKey : Bool} (hm : Memory.wf s.mem = true) :
    Memory.wf (State.haltCtx s x noKey).mem = true := by
  unfold State.haltCtx
  simp_all

@[simp] theorem State.passChans_wf {x : Ctx} {keeps : Bool} (hm : Memory.wf s.mem = true) :
    Memory.wf (s.passChans x keeps).mem = true := by
  unfold State.passChans
  refine foldl_wf (fun t k h => ?_) _ hm
  dsimp only
  split
  · simp [h]
  · split <;> simp [h]

@[simp] theorem State.scrubHere_wf {x : Ctx} (hm : Memory.wf s.mem = true) :
    Memory.wf (State.scrubHere s x).mem = true := by
  simp [State.scrubHere, hm]

@[simp] theorem State.scrub_wf {x : Ctx} (hm : Memory.wf s.mem = true) :
    Memory.wf (State.scrub s x).mem = true := by
  unfold State.scrub
  simp_all

@[simp] theorem State.freeSlots_wf {x : Ctx} (hm : Memory.wf s.mem = true) :
    Memory.wf (State.freeSlots s x).mem = true := by
  simp [State.freeSlots, hm]

@[simp] theorem State.renumber_wf {x : Ctx} (hm : Memory.wf s.mem = true) :
    Memory.wf (State.renumber s x).mem = true := by
  simp [State.renumber, hm]

@[simp] theorem State.returnTo_wf {pid : Nat} {x : Ctx} (hm : Memory.wf s.mem = true) :
    Memory.wf (s.returnTo pid x).mem = true := by
  unfold State.returnTo
  split
  · exact hm
  · refine State.renumber_wf ?_
    rw [State.clearCounts_mem]
    refine State.atFamily_wf (by simpa using hm) fun t ht => ?_
    exact foldl_wf (fun _ _ h => by simpa using h) _ ht

@[simp] theorem State.finishEnd_wf {x : Ctx} (hm : Memory.wf s.mem = true) :
    Memory.wf (s.finishEnd x).mem = true := by
  simp only [State.finishEnd]
  rw [foldl_mem fun _ _ => State.holdModules_mem _ _, State.freeHandles_mem]
  refine State.passChans_wf ?_
  have h : Memory.wf (((s.haltCtx x !x.keyValid).scrub x).freeSlots x).mem = true :=
    State.freeSlots_wf (State.scrub_wf (State.haltCtx_wf hm))
  split
  · exact State.returnTo_wf (Memory.wf_filter _ (by simpa using h))
  · exact Memory.wf_filter _ (by simpa using h)

@[simp] theorem endCtx_wf {n : Nat} {id : Nat} (hm : Memory.wf s.mem = true) :
    Memory.wf (endCtx n s id).mem = true := by
  induction n generalizing s id with
  | zero => exact hm
  | succ n ih =>
    have hk := foldl_wf (f := fun (s : State) k => endCtx n s k) (fun _ _ h => ih h) ((s.ctxs.filter (fun y => y.parent == some id && !y.redeemed)).map (fun y => y.id)) hm
    unfold endCtx
    dsimp only
    split
    · exact State.finishEnd_wf hk
    · exact hk

@[simp] theorem State.endContext_wf {id : Nat} (hm : Memory.wf s.mem = true) :
    Memory.wf (State.endContext s id).mem = true := by
  simp [State.endContext, hm]

@[simp] theorem State.writeRecord_wf {x : Ctx} {r : List Byte} (hm : Memory.wf s.mem = true) :
    Memory.wf (State.writeRecord s x r).mem = true := by
  unfold State.writeRecord
  split <;> simp [hm]

@[simp] theorem State.reclaim_wf {x : Ctx} (hm : Memory.wf s.mem = true) :
    Memory.wf (s.reclaim x).mem = true := by
  simp only [State.reclaim]
  split
  · simp [hm]
  · exact State.passChans_wf (by simp [hm])

@[simp] theorem State.tellParent_wf {x : Ctx} {r : List Byte} (hm : Memory.wf s.mem = true) :
    Memory.wf (State.tellParent s x r).mem = true := by
  unfold State.tellParent
  split <;> simp [hm]

/-! #### Synchronised stops, saving out, restoring and resuming a family, and time slices -/

@[simp] theorem State.saveFamily_wf {root : Nat} (hm : Memory.wf s.mem = true) :
    Memory.wf (s.saveFamily root).mem = true := by
  simp only [State.saveFamily]
  split
  · exact Memory.wf_filter _ hm
  · refine foldl_wf (fun t k h => ?_) _ (Memory.wf_filter _ hm)
    split
    · split <;> simp [h]
    · exact h

@[simp] theorem State.restoreFamily_wf {root : Nat} {v : Saved} (hm : Memory.wf s.mem = true) :
    Memory.wf (s.restoreFamily root v).mem = true := by
  simp only [State.restoreFamily]
  refine foldl_wf (fun t x h => by simp [h]) _ ?_
  rw [State.joinUnits_mem, foldl_mem fun _ _ => State.setSlot_mem _ _]
  exact Memory.wf_writeCells _ hm

/-! #### User queues -/

@[simp] theorem State.putQueue_wf {id : Nat} {q : Queue} (hm : Memory.wf s.mem = true) :
    Memory.wf (State.putQueue s id q).mem = true := by
  simp only [State.putQueue]
  repeat' split
  all_goals simp [hm]

@[simp] theorem State.writeExc_wf {x : Ctx} {e : Queue} {r : List Byte} (hm : Memory.wf s.mem = true) :
    Memory.wf (State.writeExc s x e r).mem = true := by
  simp only [State.writeExc]
  split <;> simp [hm]

@[simp] theorem State.deliver_wf {x : Ctx} {q : Queue} {r : List Byte} (hm : Memory.wf s.mem = true) :
    Memory.wf (State.deliver s x q r).mem = true := by
  unfold State.deliver
  repeat' split
  all_goals simp [hm]

@[simp] theorem State.suspend_wf {x : Ctx} {q : Queue} {reason : Nat} (hm : Memory.wf s.mem = true) :
    Memory.wf (State.suspend s x q reason).mem = true := by
  simp [State.suspend, hm]

@[simp] theorem State.deliverOne_wf {x : Ctx} {q : Queue} (hm : Memory.wf s.mem = true) :
    Memory.wf (State.deliverOne s x q).mem = true := by
  unfold State.deliverOne
  repeat' split
  all_goals simp [hm]

@[simp] theorem State.deliverHeld_wf {id e : Nat} (hm : Memory.wf s.mem = true) :
    Memory.wf (s.deliverHeld id e).mem = true := by
  unfold State.deliverHeld
  split
  · exact hm
  · exact foldl_wf (fun _ _ h => by split <;> simp [h]) _ hm

@[simp] theorem State.resumeQueue_wf {x : Ctx} {q : Queue} (hm : Memory.wf s.mem = true) :
    Memory.wf (State.resumeQueue s x q).mem = true := by
  unfold State.resumeQueue
  split <;> simp [hm]

@[simp] theorem State.answer_wf {x : Ctx} {q : Queue} {a : Nat} (hm : Memory.wf s.mem = true) :
    Memory.wf (State.answer s x q a).mem = true := by
  unfold State.answer
  repeat' split
  all_goals simp [hm]

@[simp] theorem State.launchRange_wf {x : Ctx} {k : Kernel} {p : Packet} (hm : Memory.wf s.mem = true) :
    Memory.wf (s.launchRange x k p).mem = true := by
  simp only [State.launchRange]
  rw [State.startIn_mem, foldl_mem fun _ _ => by split <;> simp]
  have h : Memory.wf ((upTo (min k.threads x.slots.length)).foldl (fun (s : State) (t : Nat) =>
      if t = 0 then s else s.setSlot { s.threadSlot x t with status := .idle, held := .idle }) s).mem = true := by
    rw [foldl_mem fun _ _ => by split <;> simp]; exact hm
  split
  · simp [h]
  · exact h

@[simp] theorem State.replayQueue_wf {id : Nat} {l : Option Launch} {q : Queue}
    (hm : Memory.wf s.mem = true) :
    Memory.wf (State.replayQueue s id l q).mem = true := by
  simp only [State.replayQueue]
  repeat' split
  all_goals simp [hm]

@[simp] theorem State.resetCtx_wf {x : Ctx} (hm : Memory.wf s.mem = true) :
    Memory.wf (s.resetCtx x).mem = true := by
  have h : Memory.wf ((upTo x.slots.length).foldl (fun (s : State) (t : Nat) => s.departThread x.id t) s).mem = true := by
    rw [foldl_mem fun _ _ => by simp]; exact hm
  simp only [State.resetCtx]
  refine foldl_wf (fun t n ht => by split <;> simp [ht]) _ ?_
  have hp : Memory.wf (((((upTo x.slots.length).foldl (fun (s : State) (t : Nat) => s.departThread x.id t) s).scrub x).passChans x
      true).passCharges x.id).mem = true := by
    simp [h]
  rw [State.setCtx_mem]
  split
  · split
    · exact State.putCode_wf hp
    · exact hp
  · exact hp

/-! #### Warrant images, the eight steps of admission, the build, receipts and redemption claims -/

@[simp] theorem State.takeUnits_wf {x : Ctx} {st : Status} (hm : Memory.wf s.mem = true) :
    Memory.wf (State.takeUnits s x st).mem = true := by
  unfold State.takeUnits
  split <;> simp [hm]

theorem State.buildRoot_wf {t : State} {w : Warrant} {obj : List Byte} {node : Nat} {run : Bool}
    {id : Nat} (hm : Memory.wf s.mem = true) (h : s.buildRoot w obj node run = .ok (t, id)) :
    Memory.wf t.mem = true := by
  simp only [State.buildRoot] at h
  split at h
  · cases h
  · split at h
    · cases h
    · split at h
      · cases h
      · cases h
        exact State.putCode_wf (State.installKey_wf (State.takeUnits_wf (by simpa using hm)))

@[simp] theorem State.addClaim_wf {msg : ClaimMsg} {who : ClaimFor} (hm : Memory.wf s.mem = true) :
    Memory.wf (State.addClaim s msg who).mem = true := by
  unfold State.addClaim
  split <;> simp [hm]

@[simp] theorem State.nextClaim_wf (hm : Memory.wf s.mem = true) :
    Memory.wf (State.nextClaim s).mem = true := by
  simp [State.nextClaim, hm]

@[simp] theorem State.present_wf {who : ClaimFor} (hm : Memory.wf s.mem = true) :
    Memory.wf (s.present who).mem = true := by
  simp only [State.present]
  split
  · split
    · next h => simp [State.buildRoot_wf hm h]
    · simp [hm]
  · split <;> simp [hm]
  · split
    · split
      · next h =>
        split <;> simp [State.buildRoot_wf hm h, hm]
      · rw [State.setResult_mem]
        split
        · split <;> simp [hm]
        · exact hm
    · exact hm
  · split
    · exact hm
    · split
      · exact hm
      · split
        · simp [hm]
        · split <;> simp [hm]

@[simp] theorem State.claimAnswer_wf {who : ClaimFor} {status : Nat} (hm : Memory.wf s.mem = true) :
    Memory.wf (State.claimAnswer s who status).mem = true := by
  unfold State.claimAnswer
  split <;> simp [hm]

/-! #### The entry into ERROR, dumps, energy traps, power windows, expiry and background reads -/

@[simp] theorem State.writeCapture_wf {m : DbgMod} (hm : Memory.wf s.mem = true) :
    Memory.wf (State.writeCapture s m).mem = true := by
  unfold State.writeCapture
  repeat' split
  all_goals simp [hm]

@[simp] theorem State.afterDump_wf {id : Nat} (hm : Memory.wf s.mem = true) :
    Memory.wf (s.afterDump id).mem = true := by
  unfold State.afterDump
  split
  · exact hm
  · split
    · exact hm
    · split
      · simp [hm]
      · have h := foldl_wf (f := fun (s : State) m => s.writeCapture m) (fun _ _ h => by simp [h]) (s.dbg.filter (fun m => m.holder == id)) hm
        dsimp only
        split <;> simp [h]

@[simp] theorem State.expire_wf {id : Nat} (hm : Memory.wf s.mem = true) :
    Memory.wf (State.expire s id).mem = true := by
  unfold State.expire
  split <;> simp [hm]

/-! #### The warrant instructions, major 0x16, and the umpire's handling of them -/

@[simp] theorem State.lendPages_wf {p : Ctx} {rs : List (Nat × Nat)} (hm : Memory.wf s.mem = true) :
    Memory.wf (State.lendPages s p rs).mem = true := by
  simp [State.lendPages, hm]

@[simp] theorem State.splitOff_wf {p : Ctx} {r : Resources} {ks : Nat} {lay : Layout} {g : Gxo}
    {who : Nat × Nat} (hm : Memory.wf s.mem = true) :
    Memory.wf (s.splitOff p r ks lay g who).1.mem = true := by
  simp only [State.splitOff]
  split
  · exact State.putCode_wf (State.allot_wf (State.installKey_wf (by simp [hm])))
  · exact State.allot_wf (State.installKey_wf (by simp [hm]))

@[simp] theorem wsplitDo_wf {c : Slot} {p : Ctx} {rec_ : List Byte} (hm : Memory.wf s.mem = true) :
    Memory.wf (wsplitDo s c p rec_).mem = true := by
  simp only [wsplitDo]
  repeat' split
  all_goals simp [hm]

@[simp] theorem wresetDo_wf {c : Slot} {x : Ctx} (hm : Memory.wf s.mem = true) :
    Memory.wf (wresetDo s c x).mem = true := by
  simp only [wresetDo]
  split
  · simp [hm]
  · split
    · simp [hm]
    · rw [State.setResult_mem, State.setCtx_mem, foldl_mem fun _ _ => State.departThread_mem _ _ _]
      split
      · split <;> simp [hm]
      · exact hm

/-! #### The meanings of instructions and events, and the turn -/

/-! #### The named operations -/

@[simp] theorem stallSources_canonical (hm : Memory.wf s.mem = true) : Canonical (stallSources s) := by
  simp [stallSources, hm]

@[simp] theorem withSrc1_canonical {a : Reg5} {k : Word → Slot → Out} (hm : Memory.wf s.mem = true)
    (hk : ∀ y0 y1, Canonical (k y0 y1)) :
    Canonical (withSrc1 s a k) := by
  unfold withSrc1
  split <;> simp [hm, hk]

@[simp] theorem withSrc2_canonical {a b : Reg5} {k : Word → Word → Slot → Out}
    (hm : Memory.wf s.mem = true) (hk : ∀ y0 y1 y2, Canonical (k y0 y1 y2)) :
    Canonical (withSrc2 s a b k) := by
  unfold withSrc2
  repeat' split
  all_goals simp [hm, hk]

@[simp] theorem withSrc3_canonical {a b d : Reg5} {k : Word → Word → Word → Slot → Out}
    (hm : Memory.wf s.mem = true) (hk : ∀ y0 y1 y2 y3, Canonical (k y0 y1 y2 y3)) :
    Canonical (withSrc3 s a b d k) := by
  unfold withSrc3
  repeat' split
  all_goals simp [hm, hk]

@[simp] theorem waitOn_canonical {c : Slot} {w : Wait} (hm : Memory.wf s.mem = true) :
    Canonical (waitOn s c w) := by
  simp [waitOn, hm]

@[simp] theorem trapShowing_canonical {c : Slot} {cause : TrapCause} {tval value : Word}
    (hm : Memory.wf s.mem = true) :
    Canonical (trapShowing s c cause tval value) := by
  unfold trapShowing
  split <;> simp [hm]

@[simp] theorem trap_canonical {c : Slot} {cause : TrapCause} {tval : Word} (hm : Memory.wf s.mem = true) :
    Canonical (trap s c cause tval) := trapShowing_canonical hm

@[simp] theorem done_canonical {c : Slot} (hm : Memory.wf s.mem = true) : Canonical (done s c) := by
  simp [done, hm]

/-! #### Operand forms -/

@[simp] theorem withVregs_canonical {ns : List Nat} {k : Unit → Out} (hm : Memory.wf s.mem = true)
    (hk : ∀ y0, Canonical (k y0)) :
    Canonical (withVregs s ns k) := by
  unfold withVregs
  split <;> simp [hm, hk]

@[simp] theorem withHandle_canonical {h : BitVec 2} {k : Handle → Out} (hm : Memory.wf s.mem = true)
    (hk : ∀ x, Canonical (k x)) :
    Canonical (withHandle s h k) := by
  unfold withHandle
  split <;> simp [hm, hk]

/-! #### ILLEGAL_WORD and INSTRUCTION_FETCH_TRAP -/

@[simp] theorem execIllegalWord_canonical {word : IWord} {reason : Nat} (hm : Memory.wf s.mem = true) :
    Canonical (execIllegalWord word reason s) := by
  simp [execIllegalWord, hm]

@[simp] theorem execInstructionFetchTrap_canonical {cause : TrapCause} {tval : Word}
    (hm : Memory.wf s.mem = true) :
    Canonical (execInstructionFetchTrap cause tval s) := by
  simp [execInstructionFetchTrap, hm]

/-! #### Pushing a queue word, and writing a destination field -/

@[simp] theorem pushMatrix_canonical {c : Slot} {ws : List Word} {npc : Word} {wait : Wait} {a : After}
    (hm : Memory.wf s.mem = true) :
    Canonical (pushMatrix s c ws npc wait a) := by
  simp only [pushMatrix]
  repeat' split
  all_goals simp [hm]

@[simp] theorem pushMessage_canonical {c : Slot} {w npc : Word} {a : After} (hm : Memory.wf s.mem = true) :
    Canonical (pushMessage s c w npc a) := by
  simp only [pushMessage]
  repeat' split
  all_goals simp [hm]

@[simp] theorem pushTrace_canonical {c : Slot} {w npc : Word} {a : After} (hm : Memory.wf s.mem = true) :
    Canonical (pushTrace s c w npc a) := by
  simp [pushTrace, hm]

@[simp] theorem pushWith_canonical {c : Slot} {q : Nat} {w npc : Word} {a : After}
    (hm : Memory.wf s.mem = true) :
    Canonical (pushWith s c q w npc a) := by
  unfold pushWith
  split <;> simp [hm]

@[simp] theorem pushQueue_canonical {c : Slot} {q : Nat} {w npc : Word} (hm : Memory.wf s.mem = true) :
    Canonical (pushQueue s c q w npc) := pushWith_canonical hm

@[simp] theorem finishAt_canonical {c : Slot} {d : Reg5} {w npc : Word} (hm : Memory.wf s.mem = true) :
    Canonical (finishAt s c d w npc) := by
  simp [finishAt, hm]

@[simp] theorem finish_canonical {c : Slot} {d : Reg5} {w : Word} (hm : Memory.wf s.mem = true) :
    Canonical (finish s c d w) := finishAt_canonical hm

@[simp] theorem finishWith_canonical {c : Slot} {d : Reg5} {w npc : Word} {a : After}
    (hm : Memory.wf s.mem = true) :
    Canonical (finishWith s c d w npc a) := by
  simp [finishWith, hm]

@[simp] theorem withQueueRoom_canonical {c : Slot} {d : Reg5} {w : Word} {k : Unit → Out}
    (hm : Memory.wf s.mem = true) (hk : ∀ y0, Canonical (k y0)) :
    Canonical (withQueueRoom s c d w k) := by
  unfold withQueueRoom
  repeat' split
  all_goals simp [hm, hk]

@[simp] theorem withDest_canonical {c : Slot} {d : Reg5} {k : Unit → Out} (hm : Memory.wf s.mem = true)
    (hk : ∀ y0, Canonical (k y0)) :
    Canonical (withDest s c d k) := by
  unfold withDest
  split <;> simp [hm, hk]

/-! #### Scalar arithmetic -/

@[simp] theorem alu2_canonical {d a b : Reg5} {f : Word → Word → Word} (hm : Memory.wf s.mem = true) :
    Canonical (alu2 s d a b f) := by
  simp [alu2, hm]

@[simp] theorem alu1_canonical {d a : Reg5} {f : Word → Word} (hm : Memory.wf s.mem = true) :
    Canonical (alu1 s d a f) := by
  simp [alu1, hm]

@[simp] theorem execAdd_canonical {d a b : Reg5} (hm : Memory.wf s.mem = true) :
    Canonical (execAdd d a b s) := alu2_canonical hm

@[simp] theorem execSub_canonical {d a b : Reg5} (hm : Memory.wf s.mem = true) :
    Canonical (execSub d a b s) := alu2_canonical hm

@[simp] theorem execAnd_canonical {d a b : Reg5} (hm : Memory.wf s.mem = true) :
    Canonical (execAnd d a b s) := alu2_canonical hm

@[simp] theorem execOr_canonical {d a b : Reg5} (hm : Memory.wf s.mem = true) :
    Canonical (execOr d a b s) := alu2_canonical hm

@[simp] theorem execXor_canonical {d a b : Reg5} (hm : Memory.wf s.mem = true) :
    Canonical (execXor d a b s) := alu2_canonical hm

@[simp] theorem execAndn_canonical {d a b : Reg5} (hm : Memory.wf s.mem = true) :
    Canonical (execAndn d a b s) := alu2_canonical hm

@[simp] theorem execSll_canonical {d a b : Reg5} (hm : Memory.wf s.mem = true) :
    Canonical (execSll d a b s) := alu2_canonical hm

@[simp] theorem execSrl_canonical {d a b : Reg5} (hm : Memory.wf s.mem = true) :
    Canonical (execSrl d a b s) := alu2_canonical hm

@[simp] theorem execSra_canonical {d a b : Reg5} (hm : Memory.wf s.mem = true) :
    Canonical (execSra d a b s) := alu2_canonical hm

@[simp] theorem execRol_canonical {d a b : Reg5} (hm : Memory.wf s.mem = true) :
    Canonical (execRol d a b s) := alu2_canonical hm

@[simp] theorem execMin_canonical {d a b : Reg5} (hm : Memory.wf s.mem = true) :
    Canonical (execMin d a b s) := alu2_canonical hm

@[simp] theorem execMax_canonical {d a b : Reg5} (hm : Memory.wf s.mem = true) :
    Canonical (execMax d a b s) := alu2_canonical hm

@[simp] theorem execMinu_canonical {d a b : Reg5} (hm : Memory.wf s.mem = true) :
    Canonical (execMinu d a b s) := alu2_canonical hm

@[simp] theorem execMaxu_canonical {d a b : Reg5} (hm : Memory.wf s.mem = true) :
    Canonical (execMaxu d a b s) := alu2_canonical hm

@[simp] theorem execSlt_canonical {d a b : Reg5} (hm : Memory.wf s.mem = true) :
    Canonical (execSlt d a b s) := alu2_canonical hm

@[simp] theorem execSltu_canonical {d a b : Reg5} (hm : Memory.wf s.mem = true) :
    Canonical (execSltu d a b s) := alu2_canonical hm

@[simp] theorem execSeq_canonical {d a b : Reg5} (hm : Memory.wf s.mem = true) :
    Canonical (execSeq d a b s) := alu2_canonical hm

@[simp] theorem execSel_canonical {d a b : Reg5} (hm : Memory.wf s.mem = true) :
    Canonical (execSel d a b s) := by
  simp [execSel, hm]

@[simp] theorem execAddi_canonical {d a : Reg5} {imm : BitVec 12} (hm : Memory.wf s.mem = true) :
    Canonical (execAddi d a imm s) := alu1_canonical hm

@[simp] theorem execAndi_canonical {d a : Reg5} {imm : BitVec 12} (hm : Memory.wf s.mem = true) :
    Canonical (execAndi d a imm s) := alu1_canonical hm

@[simp] theorem execOri_canonical {d a : Reg5} {imm : BitVec 12} (hm : Memory.wf s.mem = true) :
    Canonical (execOri d a imm s) := alu1_canonical hm

@[simp] theorem execXori_canonical {d a : Reg5} {imm : BitVec 12} (hm : Memory.wf s.mem = true) :
    Canonical (execXori d a imm s) := alu1_canonical hm

@[simp] theorem execSlli_canonical {d a : Reg5} {k : BitVec 6} (hm : Memory.wf s.mem = true) :
    Canonical (execSlli d a k s) := alu1_canonical hm

@[simp] theorem execSrli_canonical {d a : Reg5} {k : BitVec 6} (hm : Memory.wf s.mem = true) :
    Canonical (execSrli d a k s) := alu1_canonical hm

@[simp] theorem execSrai_canonical {d a : Reg5} {k : BitVec 6} (hm : Memory.wf s.mem = true) :
    Canonical (execSrai d a k s) := alu1_canonical hm

@[simp] theorem execRoli_canonical {d a : Reg5} {k : BitVec 6} (hm : Memory.wf s.mem = true) :
    Canonical (execRoli d a k s) := alu1_canonical hm

@[simp] theorem execSlti_canonical {d a : Reg5} {imm : BitVec 12} (hm : Memory.wf s.mem = true) :
    Canonical (execSlti d a imm s) := alu1_canonical hm

@[simp] theorem execSltiu_canonical {d a : Reg5} {imm : BitVec 12} (hm : Memory.wf s.mem = true) :
    Canonical (execSltiu d a imm s) := alu1_canonical hm

@[simp] theorem execSeqi_canonical {d a : Reg5} {imm : BitVec 12} (hm : Memory.wf s.mem = true) :
    Canonical (execSeqi d a imm s) := alu1_canonical hm

@[simp] theorem execLui_canonical {d : Reg5} {imm : BitVec 20} (hm : Memory.wf s.mem = true) :
    Canonical (execLui d imm s) := finish_canonical hm

@[simp] theorem execAuipc_canonical {d : Reg5} {imm : BitVec 20} (hm : Memory.wf s.mem = true) :
    Canonical (execAuipc d imm s) := finish_canonical hm

@[simp] theorem execMul_canonical {d a b : Reg5} (hm : Memory.wf s.mem = true) :
    Canonical (execMul d a b s) := alu2_canonical hm

@[simp] theorem execMulh_canonical {d a b : Reg5} (hm : Memory.wf s.mem = true) :
    Canonical (execMulh d a b s) := alu2_canonical hm

@[simp] theorem execMulhu_canonical {d a b : Reg5} (hm : Memory.wf s.mem = true) :
    Canonical (execMulhu d a b s) := alu2_canonical hm

@[simp] theorem execDiv_canonical {d a b : Reg5} (hm : Memory.wf s.mem = true) :
    Canonical (execDiv d a b s) := alu2_canonical hm

@[simp] theorem execDivu_canonical {d a b : Reg5} (hm : Memory.wf s.mem = true) :
    Canonical (execDivu d a b s) := alu2_canonical hm

@[simp] theorem execRem_canonical {d a b : Reg5} (hm : Memory.wf s.mem = true) :
    Canonical (execRem d a b s) := alu2_canonical hm

@[simp] theorem execRemu_canonical {d a b : Reg5} (hm : Memory.wf s.mem = true) :
    Canonical (execRemu d a b s) := alu2_canonical hm

@[simp] theorem execClz_canonical {d a : Reg5} (hm : Memory.wf s.mem = true) : Canonical (execClz d a s) :=
  alu1_canonical hm

@[simp] theorem execCtz_canonical {d a : Reg5} (hm : Memory.wf s.mem = true) : Canonical (execCtz d a s) :=
  alu1_canonical hm

@[simp] theorem execPopc_canonical {d a : Reg5} (hm : Memory.wf s.mem = true) :
    Canonical (execPopc d a s) := alu1_canonical hm

@[simp] theorem execBrev_canonical {d a : Reg5} (hm : Memory.wf s.mem = true) :
    Canonical (execBrev d a s) := alu1_canonical hm

@[simp] theorem execBswap_canonical {d a : Reg5} (hm : Memory.wf s.mem = true) :
    Canonical (execBswap d a s) := alu1_canonical hm

@[simp] theorem execBfx_canonical {d a b : Reg5} (hm : Memory.wf s.mem = true) :
    Canonical (execBfx d a b s) := alu2_canonical hm

@[simp] theorem execBfi_canonical {d a b : Reg5} (hm : Memory.wf s.mem = true) :
    Canonical (execBfi d a b s) := by
  simp [execBfi, hm]

/-! #### Bank controllers and homes -/

@[simp] theorem State.startWalk_canonical {ks : List Nat} {event : String} (hm : Memory.wf s.mem = true) :
    Canonical (State.startWalk s ks event) := by
  unfold State.startWalk
  split <;> simp [hm]

@[simp] theorem withPages_canonical {ks : List Nat} {event : String} {k : Unit → Out}
    (hm : Memory.wf s.mem = true) (hk : ∀ y0, Canonical (k y0)) :
    Canonical (withPages s ks event k) := by
  simp [withPages, hm, hk]

@[simp] theorem withWalks_canonical {ks : List Nat} {seen : Nat} {mark : Nat → State → State}
    {event : String} {go : Unit → Out} (hm : Memory.wf s.mem = true)
    (hmark : ∀ y0 y1, Memory.wf y1.mem = true → Memory.wf (mark y0 y1).mem = true)
    (hgo : ∀ y0, Canonical (go y0)) :
    Canonical (withWalks s ks seen mark event go) := by
  unfold withWalks
  split <;> simp [hm, hmark, hgo]

@[simp] theorem atHome_canonical {slot : Nat} {b : Bounds} {k n : Nat} {event : String} {go : State → Out}
    (hm : Memory.wf s.mem = true) (hgo : ∀ y0, Memory.wf y0.mem = true → Canonical (go y0)) :
    Canonical (atHome s slot b k n event go) := by
  unfold atHome
  repeat' split
  all_goals simp [hm, hgo]

@[simp] theorem orUncorr_canonical {c : Slot} {va : Word} {k n : Nat} {go : Out}
    (hm : Memory.wf s.mem = true) (hgo : Canonical go) :
    Canonical (orUncorr s c va k n go) := by
  unfold orUncorr
  split <;> simp [hm, hgo]

@[simp] theorem withRead_canonical {c : Slot} {va : Word} {k n : Nat} {go : State → Out}
    (hm : Memory.wf s.mem = true) (hgo : ∀ y0, Memory.wf y0.mem = true → Canonical (go y0)) :
    Canonical (withRead s c va k n go) := by
  unfold withRead
  repeat' split
  all_goals simp [hm, hgo]

@[simp] theorem enterAll_canonical {c : Slot} {css : List (List Host.Cell)} {rel : Option Scope}
    {unit since : Nat} {flags : BitVec 5} (hm : Memory.wf s.mem = true) :
    Canonical (enterAll s c css rel unit since flags) := by
  have ht : Memory.wf (enterSome s c css rel unit since).1.mem = true := by simp [hm]
  unfold enterAll
  split <;> simp_all

@[simp] theorem endBeats_canonical {c : Slot} {l : Late} (hm : Memory.wf s.mem = true) :
    Canonical (endBeats s c l) := by
  unfold endBeats
  split <;> simp [hm]

@[simp] theorem startBeats_canonical {c : Slot} {k : Nat} {l : Late} (hm : Memory.wf s.mem = true) :
    Canonical (startBeats s c k l) := by
  simp [startBeats, hm]

@[simp] theorem finishBeats_canonical {c : Slot} {k : Nat} {writes : List VWrite} {flags : BitVec 5}
    (hm : Memory.wf s.mem = true) :
    Canonical (finishBeats s c k writes flags) := startBeats_canonical hm

@[simp] theorem finishMask_canonical {c : Slot} {k md : Nat} {m : MaskReg} {flags : BitVec 5}
    (hm : Memory.wf s.mem = true) :
    Canonical (finishMask s c k md m flags) := startBeats_canonical hm

@[simp] theorem trapAtBeat_canonical {c : Slot} {k : Nat} {cause : TrapCause} {tval : Word}
    (hm : Memory.wf s.mem = true) :
    Canonical (trapAtBeat s c k cause tval) := startBeats_canonical hm

@[simp] theorem finishScalar_canonical {c : Slot} {k : Nat} {d : Reg5} {w : Word} {flags : BitVec 5}
    (hm : Memory.wf s.mem = true) :
    Canonical (finishScalar s c k d w flags) := by
  simp [finishScalar, hm]

@[simp] theorem nextBeat_canonical (hm : Memory.wf s.mem = true) : Canonical (nextBeat s) := by
  simp only [nextBeat]
  split <;> simp [hm]

/-! #### Control flow, control registers and trap instructions -/

@[simp] theorem branch_canonical {a b : Reg5} {off : BitVec 13} {f : Word → Word → Bool}
    (hm : Memory.wf s.mem = true) :
    Canonical (branch s a b off f) := by
  simp [branch, hm]

@[simp] theorem execBeq_canonical {a b : Reg5} {off : BitVec 13} (hm : Memory.wf s.mem = true) :
    Canonical (execBeq a b off s) := branch_canonical hm

@[simp] theorem execBne_canonical {a b : Reg5} {off : BitVec 13} (hm : Memory.wf s.mem = true) :
    Canonical (execBne a b off s) := branch_canonical hm

@[simp] theorem execBlt_canonical {a b : Reg5} {off : BitVec 13} (hm : Memory.wf s.mem = true) :
    Canonical (execBlt a b off s) := branch_canonical hm

@[simp] theorem execBge_canonical {a b : Reg5} {off : BitVec 13} (hm : Memory.wf s.mem = true) :
    Canonical (execBge a b off s) := branch_canonical hm

@[simp] theorem execBltu_canonical {a b : Reg5} {off : BitVec 13} (hm : Memory.wf s.mem = true) :
    Canonical (execBltu a b off s) := branch_canonical hm

@[simp] theorem execBgeu_canonical {a b : Reg5} {off : BitVec 13} (hm : Memory.wf s.mem = true) :
    Canonical (execBgeu a b off s) := branch_canonical hm

@[simp] theorem execJal_canonical {d : Reg5} {off : BitVec 21} (hm : Memory.wf s.mem = true) :
    Canonical (execJal d off s) := finishAt_canonical hm

@[simp] theorem execJalr_canonical {d a : Reg5} {imm : BitVec 12} (hm : Memory.wf s.mem = true) :
    Canonical (execJalr d a imm s) := by
  simp [execJalr, hm]

@[simp] theorem execCsrr_canonical {d : Reg5} {csr : BitVec 12} (hm : Memory.wf s.mem = true) :
    Canonical (execCsrr d csr s) := finish_canonical hm

@[simp] theorem csrWrite_canonical {a : Reg5} {csr : BitVec 12} {winset : Bool} {f : Word → Word → Word}
    (hm : Memory.wf s.mem = true) :
    Canonical (csrWrite s a csr winset f) := by
  simp [csrWrite, hm]

@[simp] theorem execCsrw_canonical {a : Reg5} {csr : BitVec 12} (hm : Memory.wf s.mem = true) :
    Canonical (execCsrw a csr s) := csrWrite_canonical hm

@[simp] theorem execCsrs_canonical {a : Reg5} {csr : BitVec 12} (hm : Memory.wf s.mem = true) :
    Canonical (execCsrs a csr s) := csrWrite_canonical hm

@[simp] theorem execCsrc_canonical {a : Reg5} {csr : BitVec 12} (hm : Memory.wf s.mem = true) :
    Canonical (execCsrc a csr s) := csrWrite_canonical hm

@[simp] theorem execTrap_canonical {a : Reg5} {code : BitVec 4} (hm : Memory.wf s.mem = true) :
    Canonical (execTrap a code s) := by
  unfold execTrap
  split <;> simp [hm]

@[simp] theorem execEret_canonical (hm : Memory.wf s.mem = true) : Canonical (execEret s) := by
  unfold execEret
  split <;> simp [hm]

@[simp] theorem execUcall_canonical {n : BitVec 12} (hm : Memory.wf s.mem = true) :
    Canonical (execUcall n s) := trap_canonical hm

@[simp] theorem execBrk_canonical {n : BitVec 12} (hm : Memory.wf s.mem = true) : Canonical (execBrk n s) :=
  trap_canonical hm

@[simp] theorem execFence_canonical {kind : FenceKind} {sc : Scope} (hm : Memory.wf s.mem = true) :
    Canonical (execFence kind sc s) := by
  unfold execFence
  split <;> simp [hm]

@[simp] theorem execIflush_canonical (hm : Memory.wf s.mem = true) : Canonical (execIflush s) := by
  simp [execIflush, hm]

@[simp] theorem execWinset_canonical {a : Reg5} {w : BitVec 3} (hm : Memory.wf s.mem = true) :
    Canonical (execWinset a w s) := by
  simp [execWinset, hm]

/-! #### Tasks, deques, stealing, RFORK recruitment, JOIN, monitors, YIELD and HALT -/

@[simp] theorem endTask_canonical {c : Slot} {st : Status} (hm : Memory.wf s.mem = true) :
    Canonical (endTask s c st) := by
  simp [endTask, hm]

@[simp] theorem execTaskend_canonical (hm : Memory.wf s.mem = true) : Canonical (execTaskend s) :=
  endTask_canonical hm

@[simp] theorem execHalt_canonical (hm : Memory.wf s.mem = true) : Canonical (execHalt s) :=
  endTask_canonical hm

@[simp] theorem execYield_canonical (hm : Memory.wf s.mem = true) : Canonical (execYield s) := by
  simp [execYield, hm]

@[simp] theorem execYieldPauseEnd_canonical {slot : Nat} (hm : Memory.wf s.mem = true) :
    Canonical (execYieldPauseEnd slot s) := by
  simp [execYieldPauseEnd, hm]

@[simp] theorem execMarm_canonical {a : Reg5} {imm : BitVec 12} (hm : Memory.wf s.mem = true) :
    Canonical (execMarm a imm s) := by
  unfold execMarm
  refine withSrc1_canonical hm fun x c => ?_
  dsimp only
  repeat' split
  all_goals simp [hm]

@[simp] theorem execMclr_canonical (hm : Memory.wf s.mem = true) : Canonical (execMclr s) := done_canonical hm

@[simp] theorem execMwait_canonical (hm : Memory.wf s.mem = true) : Canonical (execMwait s) := by
  unfold execMwait
  split <;> simp [hm]

@[simp] theorem pushTask_canonical {c : Slot} {t : TaskRec} (hm : Memory.wf s.mem = true) :
    Canonical (pushTask s c t) := by
  unfold pushTask
  split <;> simp [hm]

@[simp] theorem execFork_canonical {a b : Reg5} (hm : Memory.wf s.mem = true) :
    Canonical (execFork a b s) := by
  simp [execFork, hm]

@[simp] theorem execDequeSpillDone_canonical {slot : Nat} (hm : Memory.wf s.mem = true) :
    Canonical (execDequeSpillDone slot s) := by
  simp only [execDequeSpillDone]
  split <;> simp [hm]

@[simp] theorem execDequeRefill_canonical {core ctx : Nat} (hm : Memory.wf s.mem = true) :
    Canonical (execDequeRefill core ctx s) := by
  unfold execDequeRefill
  split <;> simp [hm]

@[simp] theorem execIdleSlotPop_canonical {slot : Nat} (hm : Memory.wf s.mem = true) :
    Canonical (execIdleSlotPop slot s) := by
  simp only [execIdleSlotPop]
  repeat' split
  all_goals simp [hm]

@[simp] theorem execStealRequest_canonical {core ctx : Nat} (hm : Memory.wf s.mem = true) :
    Canonical (execStealRequest core ctx s) := by
  unfold execStealRequest
  split <;> simp [hm]

@[simp] theorem execStealAnswer_canonical {core ctx : Nat} (hm : Memory.wf s.mem = true) :
    Canonical (execStealAnswer core ctx s) := by
  simp only [execStealAnswer]
  repeat' split
  all_goals simp [hm]

@[simp] theorem execStealRetryTimer_canonical {core ctx : Nat} (hm : Memory.wf s.mem = true) :
    Canonical (execStealRetryTimer core ctx s) := by
  simp only [execStealRetryTimer]
  repeat' split
  all_goals simp [hm]

@[simp] theorem rforkNone_canonical {c : Slot} {cell : Word} {k : Nat} (hm : Memory.wf s.mem = true) :
    Canonical (rforkNone s c cell k) := by
  simp [rforkNone, hm]

@[simp] theorem execRfork_canonical {d a b : Reg5} (hm : Memory.wf s.mem = true) :
    Canonical (execRfork d a b s) := by
  unfold execRfork
  refine withSrc3_canonical hm fun e n cell c => ?_
  simp only [released]
  repeat' split
  all_goals simp [hm]

@[simp] theorem execRforkSurveyDone_canonical {slot : Nat} (hm : Memory.wf s.mem = true) :
    Canonical (execRforkSurveyDone slot s) := by
  simp only [execRforkSurveyDone]
  split
  · split
    · split
      · simp
      · refine withPages_canonical hm fun _ => canonical_next.2 ?_
        rw [State.setSlot_mem, foldl_mem fun _ _ => by split <;> simp]
        simp [hm]
    · simp
  · simp

@[simp] theorem execJoin_canonical {a : Reg5} (hm : Memory.wf s.mem = true) : Canonical (execJoin a s) := by
  unfold execJoin
  refine withSrc1_canonical hm fun x c => ?_
  simp only [released]
  repeat' split
  all_goals simp [hm]

@[simp] theorem execJoinDecrementAtHome_canonical {slot : Nat} (hm : Memory.wf s.mem = true) :
    Canonical (execJoinDecrementAtHome slot s) := by
  simp only [execJoinDecrementAtHome]
  split
  · split
    · simp [hm]
    · split
      · simp
      · exact atHome_canonical hm fun t ht => orUncorr_canonical ht (by simp [ht])
  · simp

/-! #### Atomics, reductions and migrating blocks, and their events -/

@[simp] theorem enterOut_canonical {c : Slot} {r : AtomReq} (hm : Memory.wf s.mem = true) :
    Canonical (enterOut s c r) := by
  simp [enterOut, hm]

@[simp] theorem withRelease_canonical {c : Slot} {rel : Option Scope} {r : AtomReq}
    {k : State → Slot → AtomReq → Out} (hm : Memory.wf s.mem = true)
    (hk : ∀ y0 y1 y2, Memory.wf y0.mem = true → Canonical (k y0 y1 y2)) :
    Canonical (withRelease s c rel r k) := by
  simp [withRelease, hm, hk]

@[simp] theorem atomicGo_canonical {c : Slot} {op : AtomOp} {d : Reg5} {x v cmp : Word} {kind : Kind}
    {sc : Scope} {o w32 : Bool} (hm : Memory.wf s.mem = true) :
    Canonical (atomicGo s c op d x v cmp kind sc o w32) := by
  unfold atomicGo
  refine withDest_canonical hm fun _ => ?_
  split
  · simp [hm]
  · exact withRelease_canonical hm fun _ _ _ h => by simp [h]

@[simp] theorem atomic_canonical {op : AtomOp} {d a b : Reg5} {kind : Kind} {sc : Scope} {o w32 : Bool}
    (hm : Memory.wf s.mem = true) :
    Canonical (atomic s op d a b kind sc o w32) := by
  simp [atomic, hm]

@[simp] theorem execAadd_canonical {d a b : Reg5} {kind : Kind} {sc : Scope} {o w32 : Bool}
    (hm : Memory.wf s.mem = true) :
    Canonical (execAadd d a b kind sc o w32 s) := atomic_canonical hm

@[simp] theorem execAand_canonical {d a b : Reg5} {kind : Kind} {sc : Scope} {o w32 : Bool}
    (hm : Memory.wf s.mem = true) :
    Canonical (execAand d a b kind sc o w32 s) := atomic_canonical hm

@[simp] theorem execAor_canonical {d a b : Reg5} {kind : Kind} {sc : Scope} {o w32 : Bool}
    (hm : Memory.wf s.mem = true) :
    Canonical (execAor d a b kind sc o w32 s) := atomic_canonical hm

@[simp] theorem execAxor_canonical {d a b : Reg5} {kind : Kind} {sc : Scope} {o w32 : Bool}
    (hm : Memory.wf s.mem = true) :
    Canonical (execAxor d a b kind sc o w32 s) := atomic_canonical hm

@[simp] theorem execAmin_canonical {d a b : Reg5} {kind : Kind} {sc : Scope} {o w32 : Bool}
    (hm : Memory.wf s.mem = true) :
    Canonical (execAmin d a b kind sc o w32 s) := atomic_canonical hm

@[simp] theorem execAmax_canonical {d a b : Reg5} {kind : Kind} {sc : Scope} {o w32 : Bool}
    (hm : Memory.wf s.mem = true) :
    Canonical (execAmax d a b kind sc o w32 s) := atomic_canonical hm

@[simp] theorem execAminu_canonical {d a b : Reg5} {kind : Kind} {sc : Scope} {o w32 : Bool}
    (hm : Memory.wf s.mem = true) :
    Canonical (execAminu d a b kind sc o w32 s) := atomic_canonical hm

@[simp] theorem execAmaxu_canonical {d a b : Reg5} {kind : Kind} {sc : Scope} {o w32 : Bool}
    (hm : Memory.wf s.mem = true) :
    Canonical (execAmaxu d a b kind sc o w32 s) := atomic_canonical hm

@[simp] theorem execAxchg_canonical {d a b : Reg5} {kind : Kind} {sc : Scope} {o w32 : Bool}
    (hm : Memory.wf s.mem = true) :
    Canonical (execAxchg d a b kind sc o w32 s) := atomic_canonical hm

@[simp] theorem execAcas_canonical {d a b : Reg5} {kind : Kind} {sc : Scope} {w32 : Bool}
    (hm : Memory.wf s.mem = true) :
    Canonical (execAcas d a b kind sc w32 s) := by
  simp [execAcas, hm]

@[simp] theorem reduction_canonical {op : AtomOp} {a b : Reg5} {rel : Bool} {sc : Scope} {o w32 : Bool}
    (hm : Memory.wf s.mem = true) :
    Canonical (reduction s op a b rel sc o w32) := by
  unfold reduction
  refine withSrc2_canonical hm fun x v c => ?_
  split
  · simp [hm]
  · exact withRelease_canonical hm fun _ _ _ h => by simp [h]

@[simp] theorem execRadd_canonical {a b : Reg5} {rel : Bool} {sc : Scope} {o w32 : Bool}
    (hm : Memory.wf s.mem = true) :
    Canonical (execRadd a b rel sc o w32 s) := reduction_canonical hm

@[simp] theorem execRand_canonical {a b : Reg5} {rel : Bool} {sc : Scope} {o w32 : Bool}
    (hm : Memory.wf s.mem = true) :
    Canonical (execRand a b rel sc o w32 s) := reduction_canonical hm

@[simp] theorem execRor_canonical {a b : Reg5} {rel : Bool} {sc : Scope} {o w32 : Bool}
    (hm : Memory.wf s.mem = true) :
    Canonical (execRor a b rel sc o w32 s) := reduction_canonical hm

@[simp] theorem execRxor_canonical {a b : Reg5} {rel : Bool} {sc : Scope} {o w32 : Bool}
    (hm : Memory.wf s.mem = true) :
    Canonical (execRxor a b rel sc o w32 s) := reduction_canonical hm

@[simp] theorem execRmin_canonical {a b : Reg5} {rel : Bool} {sc : Scope} {o w32 : Bool}
    (hm : Memory.wf s.mem = true) :
    Canonical (execRmin a b rel sc o w32 s) := reduction_canonical hm

@[simp] theorem execRmax_canonical {a b : Reg5} {rel : Bool} {sc : Scope} {o w32 : Bool}
    (hm : Memory.wf s.mem = true) :
    Canonical (execRmax a b rel sc o w32 s) := reduction_canonical hm

@[simp] theorem execRfadd_canonical {a b : Reg5} {rel : Bool} {sc : Scope} {o w32 : Bool}
    (hm : Memory.wf s.mem = true) :
    Canonical (execRfadd a b rel sc o w32 s) := reduction_canonical hm

@[simp] theorem execAtomicAtHome_canonical {slot : Nat} (hm : Memory.wf s.mem = true) :
    Canonical (execAtomicAtHome slot s) := by
  simp only [execAtomicAtHome]
  split
  · split
    · simp
    · exact atHome_canonical hm fun t ht => orUncorr_canonical ht (canonical_next.2 (by simp [ht]))
  · simp

@[simp] theorem execAtomicReplyArrival_canonical {slot : Nat} (hm : Memory.wf s.mem = true) :
    Canonical (execAtomicReplyArrival slot s) := by
  simp only [execAtomicReplyArrival]
  split <;> simp [hm]

@[simp] theorem outAtHome_canonical {e : OutReq} {event : String} {go : State → Out}
    (hm : Memory.wf s.mem = true) (hgo : ∀ y0, Memory.wf y0.mem = true → Canonical (go y0)) :
    Canonical (outAtHome s e event go) := by
  unfold outAtHome
  repeat' split
  all_goals simp [hm, hgo]

@[simp] theorem execReductionAtHome_canonical {k : Nat} (hm : Memory.wf s.mem = true) :
    Canonical (execReductionAtHome k s) := by
  unfold execReductionAtHome
  split
  · simp
  · split
    · simp
    · refine outAtHome_canonical hm fun t ht => ?_
      split <;> simp [ht]

@[simp] theorem execReductionAckArrival_canonical {k : Nat} (hm : Memory.wf s.mem = true) :
    Canonical (execReductionAckArrival k s) := by
  unfold execReductionAckArrival
  split <;> simp [hm]

/-- R234, R401: the outbound reduction that the host performs. -/
theorem systemReduction_canonical (slot ctx : Nat) (refused : Bool) (hm : Memory.wf s.mem = true) :
    Canonical (match s.pickOut (s.outHostReady slot) with
      | none => notNow "SYSTEM_ATOMIC_REPLY"
      | some (e, s) => outAtHome s e "SYSTEM_ATOMIC_REPLY" (fun s =>
        if refused then .next (s.outPerformed e) else .next ((s.perform ctx e.req).1.outPerformed e))) := by
  split
  · simp
  · next e t h =>
    have ht : Memory.wf t.mem = true := by rw [State.pickOut_mem h]; exact hm
    exact outAtHome_canonical ht fun u hu => by split <;> simp [hu]

@[simp] theorem execSystemAtomicReply_canonical {slot : Nat} {refused : Bool}
    (hm : Memory.wf s.mem = true) :
    Canonical (execSystemAtomicReply slot refused s) := by
  have hout := systemReduction_canonical slot ((s.slotAt slot).owner.getD 0) refused hm
  simp only [execSystemAtomicReply]
  split
  · split
    · exact hout
    · split
      · next t h =>
        refine canonical_next.2 (atHome_canonical hm (fun t ht => ?_) t h)
        split <;> simp [ht]
      · exact hout
  · split
    · exact hout
    · split
      · exact hout
      · split
        · next t h =>
          refine canonical_next.2 (atHome_canonical hm (fun t ht => ?_) t h)
          split <;> simp [ht]
        · exact hout
  · exact hout

@[simp] theorem execMigr_canonical {a : Reg5} (hm : Memory.wf s.mem = true) : Canonical (execMigr a s) := by
  unfold execMigr
  refine withSrc1_canonical hm fun x c => ?_
  simp only [released]
  repeat' split
  all_goals simp [hm]

@[simp] theorem acceptBlock_canonical {c : Slot} {x : Ctx} {k : Nat} {b : Block} {pc : Word}
    (hm : Memory.wf s.mem = true) :
    Canonical (acceptBlock s c x k b pc) := by
  simp [acceptBlock, hm]

@[simp] theorem execMigrBlockAccept_canonical {slot : Nat} (hm : Memory.wf s.mem = true) :
    Canonical (execMigrBlockAccept slot s) := by
  simp only [execMigrBlockAccept]
  repeat' split
  all_goals simp [hm]

@[simp] theorem execRetn_canonical (hm : Memory.wf s.mem = true) : Canonical (execRetn s) := by
  simp only [execRetn]
  split <;> simp [hm]

@[simp] theorem execMigrBlockReturn_canonical {slot : Nat} (hm : Memory.wf s.mem = true) :
    Canonical (execMigrBlockReturn slot s) := by
  simp only [execMigrBlockReturn]
  split <;> simp [hm]

/-! #### Huddles -/

@[simp] theorem sendArrival_canonical {c : Slot} {d : Reg5} {h : Nat} {x : Handle} {inp : HInput}
    {wait : Bool} (hm : Memory.wf s.mem = true) :
    Canonical (sendArrival s c d h x inp wait) := by
  simp [sendArrival, released, hm]

@[simp] theorem arrive_canonical {c : Slot} {d : Reg5} {h : Nat} {x : Handle} {inp : HInput} {wait : Bool}
    (hm : Memory.wf s.mem = true) :
    Canonical (arrive s c d h x inp wait) := by
  simp [arrive, hm]

@[simp] theorem execHjoin_canonical {d a : Reg5} {t x : Bool} {h : BitVec 2} (hm : Memory.wf s.mem = true) :
    Canonical (execHjoin d a t x h s) := by
  unfold execHjoin
  split
  · simp [hm]
  · exact withSrc1_canonical hm fun nm c => withDest_canonical hm fun _ => by simp [hm]

@[simp] theorem execHleave_canonical {h : BitVec 2} (hm : Memory.wf s.mem = true) :
    Canonical (execHleave h s) := by
  simp [execHleave, released, hm]

@[simp] theorem execHbar_canonical {h : BitVec 2} (hm : Memory.wf s.mem = true) :
    Canonical (execHbar h s) := by
  simp [execHbar, hm]

@[simp] theorem execHarrv_canonical {h : BitVec 2} (hm : Memory.wf s.mem = true) :
    Canonical (execHarrv h s) := by
  simp [execHarrv, hm]

@[simp] theorem execHwait_canonical {h : BitVec 2} (hm : Memory.wf s.mem = true) :
    Canonical (execHwait h s) := by
  simp [execHwait, hm]

@[simp] theorem execHvote_canonical {d a : Reg5} {sel : VoteSel} {h : BitVec 2}
    (hm : Memory.wf s.mem = true) :
    Canonical (execHvote d a sel h s) := by
  exact withHandle_canonical hm fun x => withSrc1_canonical hm fun v c => withDest_canonical hm fun _ => arrive_canonical hm

@[simp] theorem execHred_canonical {d a : Reg5} {sel : RedSel} {h : BitVec 2}
    (hm : Memory.wf s.mem = true) :
    Canonical (execHred d a sel h s) := by
  exact withHandle_canonical hm fun x => withSrc1_canonical hm fun v c => withDest_canonical hm fun _ => arrive_canonical hm

@[simp] theorem execHinfo_canonical {d : Reg5} {h : BitVec 2} (hm : Memory.wf s.mem = true) :
    Canonical (execHinfo d h s) := by
  exact withHandle_canonical hm fun x => withDest_canonical hm fun _ => by simp [hm]

@[simp] theorem execHuddleJoinHandled_canonical {k : Nat} (hm : Memory.wf s.mem = true) :
    Canonical (execHuddleJoinHandled k s) := by
  simp only [execHuddleJoinHandled]
  repeat' split
  all_goals simp [hm]

@[simp] theorem execHuddleArrivalHandled_canonical {k : Nat} (hm : Memory.wf s.mem = true) :
    Canonical (execHuddleArrivalHandled k s) := by
  simp only [execHuddleArrivalHandled]
  repeat' split
  all_goals simp [hm]

@[simp] theorem execHuddleLeaveHandled_canonical {k : Nat} (hm : Memory.wf s.mem = true) :
    Canonical (execHuddleLeaveHandled k s) := by
  simp only [execHuddleLeaveHandled]
  repeat' split
  all_goals simp [hm]

@[simp] theorem execHuddleDeparture_canonical {ctx thread : Nat} (hm : Memory.wf s.mem = true) :
    Canonical (execHuddleDeparture ctx thread s) := by
  simp [execHuddleDeparture, hm]

@[simp] theorem execHinfoHandled_canonical {k : Nat} (hm : Memory.wf s.mem = true) :
    Canonical (execHinfoHandled k s) := by
  unfold execHinfoHandled
  repeat' split
  all_goals simp [hm]

@[simp] theorem execHuddleNoticeArrival_canonical {slot : Nat} (hm : Memory.wf s.mem = true) :
    Canonical (execHuddleNoticeArrival slot s) := by
  unfold execHuddleNoticeArrival
  split <;> simp [hm]

/-! #### The caddie, copy channels, halo exchange, multicast, gathers, collectives and messages -/

@[simp] theorem withDesc_canonical {x : Ctx} {c : Slot} {spans : List (Word × Nat)} {go : State → Out}
    (hm : Memory.wf s.mem = true) (hgo : ∀ y0, Memory.wf y0.mem = true → Canonical (go y0)) :
    Canonical (withDesc s x c spans go) := by
  unfold withDesc
  split <;> simp [hm, hgo]

@[simp] theorem execChwm_canonical {a b : Reg5} {ch : BitVec 3} (hm : Memory.wf s.mem = true) :
    Canonical (execChwm a b ch s) := by
  unfold execChwm
  refine withSrc2_canonical hm fun base n c => ?_
  repeat' split
  all_goals simp [hm]

@[simp] theorem execCpwait_canonical {a : Reg5} {ch : BitVec 3} (hm : Memory.wf s.mem = true) :
    Canonical (execCpwait a ch s) := by
  unfold execCpwait
  refine withSrc1_canonical hm fun v c => ?_
  repeat' split
  all_goals simp [hm]

@[simp] theorem pushXfer_canonical {c : Slot} {x : Xfer} (hm : Memory.wf s.mem = true) :
    Canonical (pushXfer s c x) := by
  unfold pushXfer
  split
  · next h => simp [State.enterXfer_mem h, hm]
  · simp [hm]

@[simp] theorem checkedXfer_canonical {c : Slot} {checks : List (Option Refused)} {x : Xfer}
    (hm : Memory.wf s.mem = true) :
    Canonical (checkedXfer s c checks x) := by
  unfold checkedXfer
  split <;> simp [hm]

@[simp] theorem execCpy_canonical {d a b : Reg5} {ch : BitVec 3} (hm : Memory.wf s.mem = true) :
    Canonical (execCpy d a b ch s) := by
  unfold execCpy
  refine withSrc3_canonical hm fun dst desc n c => ?_
  repeat' split
  all_goals simp +contextual [hm]

@[simp] theorem execCpys_canonical {d a b : Reg5} {ch : BitVec 3} (hm : Memory.wf s.mem = true) :
    Canonical (execCpys d a b ch s) := by
  unfold execCpys
  refine withSrc3_canonical hm fun dst desc n c => ?_
  repeat' split
  all_goals simp +contextual [hm]

@[simp] theorem execHalo_canonical {a b : Reg5} (hm : Memory.wf s.mem = true) :
    Canonical (execHalo a b s) := by
  unfold execHalo
  refine withSrc2_canonical hm fun desc mask c => ?_
  repeat' split
  all_goals simp +contextual [hm]

@[simp] theorem execHalowait_canonical {a b : Reg5} (hm : Memory.wf s.mem = true) :
    Canonical (execHalowait a b s) := by
  simp [execHalowait, hm]

@[simp] theorem execMcast_canonical {d a b : Reg5} (hm : Memory.wf s.mem = true) :
    Canonical (execMcast d a b s) := by
  unfold execMcast
  refine withSrc3_canonical hm fun src list selm c => ?_
  dsimp only
  repeat' split
  all_goals simp +contextual [hm]

@[simp] theorem execGath_canonical {d a b : Reg5} {ch : BitVec 3} (hm : Memory.wf s.mem = true) :
    Canonical (execGath d a b ch s) := by
  unfold execGath
  refine withSrc3_canonical hm fun dst desc n c => ?_
  repeat' split
  all_goals simp +contextual [hm]

@[simp] theorem execQstat_canonical {d : Reg5} (hm : Memory.wf s.mem = true) : Canonical (execQstat d s) := by
  simp [execQstat, hm]

@[simp] theorem engReads_canonical {x : Ctx} {isOpen : Nat → Bool} {ks : List Nat} {seen : Nat}
    {mark : Nat → State → State} {va : Nat → Word} {event : String} {go : Unit → Out}
    (hm : Memory.wf s.mem = true)
    (hmark : ∀ y0 y1, Memory.wf y1.mem = true → Memory.wf (mark y0 y1).mem = true)
    (hgo : ∀ y0, Canonical (go y0)) :
    Canonical (engReads s x isOpen ks seen mark va event go) := by
  unfold engReads
  repeat' split
  all_goals simp_all

@[simp] theorem umpireReads_canonical {x : Ctx} {spans : List (Nat × Nat × Word)} {event : String}
    {go : Unit → Out} (hm : Memory.wf s.mem = true) (hgo : ∀ y0, Canonical (go y0)) :
    Canonical (umpireReads s x spans event go) := by
  unfold umpireReads
  split <;> simp [hm, hgo]

@[simp] theorem engWrites_canonical {core : Nat} {ks : List Nat} {event : String} {go : Unit → Out}
    (hm : Memory.wf s.mem = true) (hgo : ∀ y0, Canonical (go y0)) :
    Canonical (engWrites s core ks event go) := by
  simp [engWrites, hm, hgo]

@[simp] theorem execCaddieTakeRequest_canonical {core : Nat} (hm : Memory.wf s.mem = true) :
    Canonical (execCaddieTakeRequest core s) := by
  simp only [execCaddieTakeRequest]
  split
  · simp
  · split
    · simp
    · split
      · simp [hm]
      · split
        · exact engReads_canonical hm (by simp) fun _ => by simp [hm]
        · simp [hm]

@[simp] theorem landGo_canonical {x : Ctx} {t : Xfer} {event : String} (hm : Memory.wf s.mem = true) :
    Canonical (landGo s x t event) := by
  unfold landGo
  split <;> simp [hm]

@[simp] theorem execCopyGranuleLand_canonical {k : Nat} (hm : Memory.wf s.mem = true) :
    Canonical (execCopyGranuleLand k s) := by
  unfold execCopyGranuleLand
  repeat' split
  all_goals simp_all

@[simp] theorem execCopyComplete_canonical {k : Nat} {refused : Bool} (hm : Memory.wf s.mem = true) :
    Canonical (execCopyComplete k refused s) := by
  simp only [execCopyComplete]
  repeat' split
  all_goals simp [hm]

@[simp] theorem execHaloDirectionArrival_canonical {k : Nat} {dir : BitVec 2}
    (hm : Memory.wf s.mem = true) :
    Canonical (execHaloDirectionArrival k dir s) := by
  simp only [execHaloDirectionArrival]
  split
  · simp
  · split
    · split
      · simp
      · split
        · exact engReads_canonical hm (by simp) fun _ => by simp [hm]
        · split
          · simp [hm]
          · split
            · simp [hm]
            · exact engWrites_canonical hm fun _ => by simp [hm]
    · simp

@[simp] theorem execMcastDelivery_canonical {k : Nat} (hm : Memory.wf s.mem = true) :
    Canonical (execMcastDelivery k s) := by
  unfold execMcastDelivery
  repeat' split
  all_goals simp [hm]

@[simp] theorem execGatherComplete_canonical {k : Nat} {refused : Bool} (hm : Memory.wf s.mem = true) :
    Canonical (execGatherComplete k refused s) := by
  unfold execGatherComplete
  repeat' split
  all_goals simp [hm]

/-- R299: the contribution is entered, a release to its peers' engines. -/
theorem collEntered_canonical {k : Coll} {scope : Scope} {u : State} {c : Slot}
    (hu : Memory.wf u.mem = true) :
    Canonical (let (s, c) := released u c scope
      done { s with colls := s.colls ++ [k], nextId := s.nextId + 1 } c) := by
  simp [released, hu]

@[simp] theorem execColl_canonical {d a b : Reg5} {ty : CType} {sel : CollSel}
    (hm : Memory.wf s.mem = true) :
    Canonical (execColl d a b ty sel s) := by
  unfold execColl
  refine withSrc3_canonical hm fun src dst desc c => ?_
  split
  · exact trap_canonical hm
  · split
    · exact trap_canonical hm
    · refine withDesc_canonical hm fun t ht => ?_
      extract_lets -underBinder name pr n table p r
      split
      · exact trap_canonical ht
      · refine withDesc_canonical ht fun u hu => ?_
        extract_lets -underBinder peers eb
        split
        · exact trap_canonical hu
        · exact collEntered_canonical hu

@[simp] theorem execCollContributionArrival_canonical {k : Nat} {remote : Option CollRemote}
    (hm : Memory.wf s.mem = true) :
    Canonical (execCollContributionArrival k remote s) := by
  unfold execCollContributionArrival
  repeat' split
  all_goals simp_all

@[simp] theorem collGo_canonical {e : Coll} {r : Nat × BitVec 5 × List Byte} (hm : Memory.wf s.mem = true) :
    Canonical (collGo s e r) := by
  unfold collGo
  repeat' split
  all_goals simp [hm]

@[simp] theorem execCollComplete_canonical {k : Nat} (hm : Memory.wf s.mem = true) :
    Canonical (execCollComplete k s) := by
  unfold execCollComplete
  repeat' split
  all_goals simp [hm]

@[simp] theorem execMessageLeaveSendQueue_canonical {slot : Nat} (hm : Memory.wf s.mem = true) :
    Canonical (execMessageLeaveSendQueue slot s) := by
  simp only [execMessageLeaveSendQueue]
  split <;> simp [hm]

@[simp] theorem execMessageDelivery_canonical {k : Nat} (hm : Memory.wf s.mem = true) :
    Canonical (execMessageDelivery k s) := by
  unfold execMessageDelivery
  split <;> simp [hm]

/-! #### Matrix units -/

@[simp] theorem matrixPush_canonical {c : Slot} {ws : List Word} (hm : Memory.wf s.mem = true) :
    Canonical (matrixPush s c ws) := pushMatrix_canonical hm

@[simp] theorem matrixCmd_canonical {a : Reg5} {code ty opt : Nat} (hm : Memory.wf s.mem = true) :
    Canonical (matrixCmd s a code ty opt) := by
  simp [matrixCmd, hm]

@[simp] theorem execMxop_canonical {a : Reg5} {ty : MType} {sp : Bool} (hm : Memory.wf s.mem = true) :
    Canonical (execMxop a ty sp s) := matrixCmd_canonical hm

@[simp] theorem execMxzero_canonical {a : Reg5} (hm : Memory.wf s.mem = true) :
    Canonical (execMxzero a s) := matrixCmd_canonical hm

@[simp] theorem execMxst_canonical {a : Reg5} {ty : MType} {sat : Bool} (hm : Memory.wf s.mem = true) :
    Canonical (execMxst a ty sat s) := matrixCmd_canonical hm

@[simp] theorem execMxld_canonical {a : Reg5} (hm : Memory.wf s.mem = true) : Canonical (execMxld a s) :=
  matrixCmd_canonical hm

@[simp] theorem execMxring_canonical {a b : Reg5} (hm : Memory.wf s.mem = true) :
    Canonical (execMxring a b s) := by
  simp [execMxring, hm]

@[simp] theorem execMxadv_canonical {a : Reg5} (hm : Memory.wf s.mem = true) : Canonical (execMxadv a s) :=
  matrixCmd_canonical hm

@[simp] theorem execMxwgt_canonical {a : Reg5} (hm : Memory.wf s.mem = true) : Canonical (execMxwgt a s) :=
  matrixCmd_canonical hm

@[simp] theorem storeGo_canonical {u : MUnit} {slot : Nat} {cs : List Host.Cell} {fl : BitVec 5}
    (hm : Memory.wf s.mem = true) :
    Canonical (storeGo s u slot cs fl) := by
  unfold storeGo
  split <;> simp [hm]

@[simp] theorem stepGo_canonical {u : MUnit} {x : Ctx} {c : Slot} {w : Word} (hm : Memory.wf s.mem = true) :
    Canonical (stepGo s u x c w) := by
  unfold stepGo
  exact engReads_canonical hm (by simp) fun _ => engWrites_canonical hm fun _ => by simp [hm]

@[simp] theorem execMatrixStep_canonical {clus : Nat} (hm : Memory.wf s.mem = true) :
    Canonical (execMatrixStep clus s) := by
  unfold execMatrixStep
  repeat' split
  all_goals simp [hm]

@[simp] theorem execMatrixRecordPush_canonical {clus : Nat} (hm : Memory.wf s.mem = true) :
    Canonical (execMatrixRecordPush clus s) := by
  unfold execMatrixRecordPush
  repeat' split
  all_goals simp [hm]

@[simp] theorem execMxringTakeEffect_canonical {slot : Nat} (hm : Memory.wf s.mem = true) :
    Canonical (execMxringTakeEffect slot s) := by
  unfold execMxringTakeEffect
  split <;> simp [hm]

@[simp] theorem execMxadvReachUnit_canonical {slot : Nat} (hm : Memory.wf s.mem = true) :
    Canonical (execMxadvReachUnit slot s) := by
  unfold execMxadvReachUnit
  repeat' split
  all_goals simp [hm]

@[simp] theorem execMxwgtTakeEffect_canonical {slot : Nat} (hm : Memory.wf s.mem = true) :
    Canonical (execMxwgtTakeEffect slot s) := by
  unfold execMxwgtTakeEffect
  split <;> simp [hm]

/-! #### Synchronised stops, saving out, restoring and resuming a family, and time slices -/

@[simp] theorem execStopDecision_canonical {root : Nat} (hm : Memory.wf s.mem = true) :
    Canonical (execStopDecision root s) := by
  simp [execStopDecision, hm]

@[simp] theorem execStopHalt_canonical {root : Nat} (hm : Memory.wf s.mem = true) :
    Canonical (execStopHalt root s) := by
  unfold execStopHalt
  split <;> simp [hm]

@[simp] theorem execFlushToken_canonical {root : Nat} (hm : Memory.wf s.mem = true) :
    Canonical (execFlushToken root s) := by
  simp [execFlushToken, hm]

@[simp] theorem execStateSaveDone_canonical {root : Nat} (hm : Memory.wf s.mem = true) :
    Canonical (execStateSaveDone root s) := by
  unfold execStateSaveDone
  repeat' split
  all_goals simp [hm]

@[simp] theorem execSlicePlacement_canonical {ctx : Nat} (hm : Memory.wf s.mem = true) :
    Canonical (execSlicePlacement ctx s) := by
  unfold execSlicePlacement
  repeat' split
  all_goals simp [hm]

@[simp] theorem execRestoreDone_canonical {root : Nat} (hm : Memory.wf s.mem = true) :
    Canonical (execRestoreDone root s) := by
  unfold execRestoreDone
  split <;> simp [hm]

@[simp] theorem execResumeRejoin_canonical {root : Nat} (hm : Memory.wf s.mem = true) :
    Canonical (execResumeRejoin root s) := by
  unfold execResumeRejoin
  split <;> simp [hm]

@[simp] theorem execSliceEnd_canonical {ctx : Nat} (hm : Memory.wf s.mem = true) :
    Canonical (execSliceEnd ctx s) := by
  unfold execSliceEnd
  split <;> simp [hm]

/-! #### User queues -/

@[simp] theorem execDoorbellWidxWrite_canonical {ctx q : Nat} (hm : Memory.wf s.mem = true) :
    Canonical (execDoorbellWidxWrite ctx q s) := by
  simp only [execDoorbellWidxWrite]
  repeat' split
  all_goals simp [hm]

@[simp] theorem ctrlWrite_canonical {ctx q a : Nat} {name : String} (hm : Memory.wf s.mem = true) :
    Canonical (ctrlWrite ctx q a name s) := by
  unfold ctrlWrite
  repeat' split
  all_goals simp [hm]

@[simp] theorem execCtrlResume_canonical {ctx q : Nat} (hm : Memory.wf s.mem = true) :
    Canonical (execCtrlResume ctx q s) := ctrlWrite_canonical hm

@[simp] theorem execCtrlSkip_canonical {ctx q : Nat} (hm : Memory.wf s.mem = true) :
    Canonical (execCtrlSkip ctx q s) := ctrlWrite_canonical hm

@[simp] theorem execCtrlAbort_canonical {ctx q : Nat} (hm : Memory.wf s.mem = true) :
    Canonical (execCtrlAbort ctx q s) := ctrlWrite_canonical hm

@[simp] theorem execPacketFetch_canonical {ctx q : Nat} (hm : Memory.wf s.mem = true) :
    Canonical (execPacketFetch ctx q s) := by
  simp only [execPacketFetch]
  repeat' split
  all_goals simp [hm]

@[simp] theorem execFencePacketComplete_canonical {ctx q : Nat} (hm : Memory.wf s.mem = true) :
    Canonical (execFencePacketComplete ctx q s) := by
  unfold execFencePacketComplete
  repeat' split
  all_goals simp [hm]

@[simp] theorem execLaunchStart_canonical {ctx q : Nat} (hm : Memory.wf s.mem = true) :
    Canonical (execLaunchStart ctx q s) := by
  unfold execLaunchStart
  repeat' split
  all_goals simp [hm]

@[simp] theorem execLaunchComplete_canonical {ctx : Nat} (hm : Memory.wf s.mem = true) :
    Canonical (execLaunchComplete ctx s) := by
  unfold execLaunchComplete
  repeat' split
  all_goals simp [hm]

@[simp] theorem execWatchdogExpiry_canonical {ctx : Nat} (hm : Memory.wf s.mem = true) :
    Canonical (execWatchdogExpiry ctx s) := by
  unfold execWatchdogExpiry
  repeat' split
  all_goals simp [hm]

/-! #### Warrant images, the eight steps of admission, the build, receipts and redemption claims -/

@[simp] theorem execClaimAtHome_canonical {claim : ClaimMsg} {answer : Nat} (hm : Memory.wf s.mem = true) :
    Canonical (execClaimAtHome claim answer s) := by
  unfold execClaimAtHome
  split <;> simp [hm]

@[simp] theorem execClaimRetry_canonical {serial : BitVec 128} (hm : Memory.wf s.mem = true) :
    Canonical (execClaimRetry serial s) := by
  simp only [execClaimRetry]
  repeat' split
  all_goals simp [hm]

@[simp] theorem execClaimTimeout_canonical {serial : BitVec 128} (hm : Memory.wf s.mem = true) :
    Canonical (execClaimTimeout serial s) := by
  unfold execClaimTimeout
  split <;> simp [hm]

@[simp] theorem execSpentAtHome_canonical {serial : BitVec 128} (hm : Memory.wf s.mem = true) :
    Canonical (execSpentAtHome serial s) := by
  simp only [execSpentAtHome]
  repeat' split
  all_goals simp [hm]

/-! #### Counter reads and device time -/

@[simp] theorem execCntr_canonical {d : Reg5} {e : BitVec 8} (hm : Memory.wf s.mem = true) :
    Canonical (execCntr d e s) := by
  unfold execCntr
  split <;> simp [hm]

@[simp] theorem execTime_canonical {d : Reg5} {late : Bool} (hm : Memory.wf s.mem = true) :
    Canonical (execTime d late s) := finish_canonical hm

/-! #### The entry into ERROR, dumps, energy traps, power windows, expiry and background reads -/

@[simp] theorem execErrorStopCycle_canonical {ctx : Nat} (hm : Memory.wf s.mem = true) :
    Canonical (execErrorStopCycle ctx s) := by
  simp only [execErrorStopCycle]
  split
  · simp
  · split
    · simp
    · split
      · simp [hm]
      · refine canonical_next.2 ?_
        split
        · exact State.afterDump_wf (by simp [hm])
        · simp [hm]

@[simp] theorem execDumpStart_canonical {die : Nat} (hm : Memory.wf s.mem = true) :
    Canonical (execDumpStart die s) := by
  unfold execDumpStart
  split <;> simp [hm]

@[simp] theorem execDumpWriteDone_canonical {die : Nat} (hm : Memory.wf s.mem = true) :
    Canonical (execDumpWriteDone die s) := by
  unfold execDumpWriteDone
  repeat' split
  all_goals simp [hm]

@[simp] theorem execEnergyAllowanceReached_canonical {ctx : Nat} (hm : Memory.wf s.mem = true) :
    Canonical (execEnergyAllowanceReached ctx s) := by
  unfold execEnergyAllowanceReached
  split <;> simp [hm]

@[simp] theorem execEnergyOverrun_canonical {slot : Nat} (hm : Memory.wf s.mem = true) :
    Canonical (execEnergyOverrun slot s) := by
  simp only [execEnergyOverrun]
  split <;> simp [hm]

@[simp] theorem execPowerWindowEnd_canonical {modulemW : Nat} (hm : Memory.wf s.mem = true) :
    Canonical (execPowerWindowEnd modulemW s) := by
  simp [execPowerWindowEnd, hm]

@[simp] theorem execContextExpiry_canonical {ctx : Nat} (hm : Memory.wf s.mem = true) :
    Canonical (execContextExpiry ctx s) := by
  unfold execContextExpiry
  split
  · simp
  · split
    · exact canonical_next.2 (foldl_wf (fun _ _ h => State.expire_wf h) _ (by simpa using hm))
    · simp

@[simp] theorem execBackgroundScrubRead_canonical {die stack : Nat} {bad : Option (Nat × Nat)}
    (hm : Memory.wf s.mem = true) :
    Canonical (execBackgroundScrubRead die stack bad s) := by
  unfold execBackgroundScrubRead
  repeat' split
  all_goals simp [hm]

/-! #### The debug modules' own events -/

@[simp] theorem execTraceWordMove_canonical {slot : Nat} (hm : Memory.wf s.mem = true) :
    Canonical (execTraceWordMove slot s) := by
  simp only [execTraceWordMove]
  repeat' split
  all_goals simp [hm]

@[simp] theorem execDebugSample_canonical {clus : Nat} (hm : Memory.wf s.mem = true) :
    Canonical (execDebugSample clus s) := by
  unfold execDebugSample
  split <;> simp [hm]

@[simp] theorem execCaptureFreeze_canonical {clus : Nat} (hm : Memory.wf s.mem = true) :
    Canonical (execCaptureFreeze clus s) := by
  unfold execCaptureFreeze
  split <;> simp [hm]

@[simp] theorem execCrossTriggerArrival_canonical {clus : Nat} (hm : Memory.wf s.mem = true) :
    Canonical (execCrossTriggerArrival clus s) := by
  unfold execCrossTriggerArrival
  repeat' split
  all_goals simp [hm]

@[simp] theorem execDebugResumeCycle_canonical {ctx : Nat} (hm : Memory.wf s.mem = true) :
    Canonical (execDebugResumeCycle ctx s) := by
  unfold execDebugResumeCycle
  repeat' split
  all_goals simp_all

@[simp] theorem execCaptureCycleMatch_canonical {clus : Nat} (hm : Memory.wf s.mem = true) :
    Canonical (execCaptureCycleMatch clus s) := by
  unfold execCaptureCycleMatch
  split <;> simp [hm]

/-! #### The warrant instructions, major 0x16, and the umpire's handling of them -/

@[simp] theorem askUmpire_canonical {c : Slot} {op : WarOp} {d : Reg5} {a b : Word}
    (hm : Memory.wf s.mem = true) :
    Canonical (askUmpire s c op d a b) := by
  simp [askUmpire, hm]

@[simp] theorem withTarget_canonical {c : Slot} {h : Word} {k : Unit → Out} (hm : Memory.wf s.mem = true)
    (hk : ∀ y0, Canonical (k y0)) :
    Canonical (withTarget s c h k) := by
  unfold withTarget
  split <;> simp [hm, hk]

@[simp] theorem execWpres_canonical {d a : Reg5} (hm : Memory.wf s.mem = true) :
    Canonical (execWpres d a s) := by
  unfold execWpres
  refine withSrc1_canonical hm fun x c => withDest_canonical hm fun _ => ?_
  split
  · simp [hm]
  · refine withRead_canonical hm fun t ht => ?_
    dsimp only
    split
    · simp [ht]
    · split <;> simp [ht]

@[simp] theorem execWsplit_canonical {d a b : Reg5} (hm : Memory.wf s.mem = true) :
    Canonical (execWsplit d a b s) := by
  unfold execWsplit
  refine withSrc2_canonical hm fun h r c => withDest_canonical hm fun _ => ?_
  split <;> simp [hm]

@[simp] theorem execWdeleg_canonical {d a b : Reg5} (hm : Memory.wf s.mem = true) :
    Canonical (execWdeleg d a b s) := by
  unfold execWdeleg
  refine withSrc2_canonical hm fun h r c => withDest_canonical hm fun _ => ?_
  split <;> simp [hm]

@[simp] theorem execWsurr_canonical {d a : Reg5} (hm : Memory.wf s.mem = true) :
    Canonical (execWsurr d a s) :=
  withSrc1_canonical hm fun _ _ => withDest_canonical hm fun _ => withTarget_canonical hm fun _ => askUmpire_canonical hm

@[simp] theorem execWreset_canonical {d a : Reg5} (hm : Memory.wf s.mem = true) :
    Canonical (execWreset d a s) :=
  withSrc1_canonical hm fun _ _ => withDest_canonical hm fun _ => withTarget_canonical hm fun _ => askUmpire_canonical hm

@[simp] theorem execWqry_canonical {d a b : Reg5} (hm : Memory.wf s.mem = true) :
    Canonical (execWqry d a b s) :=
  withSrc2_canonical hm fun h i c => withDest_canonical hm fun _ => withTarget_canonical hm fun _ => by split <;> simp [hm]

@[simp] theorem wpresDo_canonical {c : Slot} {y : Ctx} {a : Word} (hm : Memory.wf s.mem = true) :
    Canonical (wpresDo s c y a) := by
  simp only [wpresDo]
  split
  · simp [hm]
  · refine umpireReads_canonical hm fun _ => ?_
    split
    · simp [hm]
    · split
      · simp [hm]
      · refine umpireReads_canonical hm fun _ => ?_
        split
        · split <;> simp [hm]
        · split <;> simp [hm]

@[simp] theorem wdelegDo_canonical {c : Slot} {y x : Ctx} {b : Word} (hm : Memory.wf s.mem = true) :
    Canonical (wdelegDo s c y x b) := by
  simp only [wdelegDo]
  split
  · simp [hm]
  · split
    · simp [hm]
    · split
      · simp [hm]
      · split
        · simp [hm]
        · refine umpireReads_canonical hm fun _ => ?_
          split
          · simp [hm]
          · split
            · simp
            · exact withPages_canonical hm fun _ => by simp [hm]

@[simp] theorem execWarrantRequestHandled_canonical {slot : Nat} (hm : Memory.wf s.mem = true) :
    Canonical (execWarrantRequestHandled slot s) := by
  simp only [execWarrantRequestHandled]
  repeat' split
  all_goals simp [hm]

/-! #### Power-on, commissioning, beacons and the commands of the admission port -/

@[simp] theorem execPowerOn_canonical (hm : Memory.wf s.mem = true) : Canonical (execPowerOn s) := by
  simp [execPowerOn, hm]

@[simp] theorem portCmd_canonical {h : PortHdr} {code : Nat} {len : Option Nat} {name : String} {go : Out}
    (hm : Memory.wf s.mem = true) (hgo : Canonical go) :
    Canonical (portCmd h code len name s go) := by
  simp [portCmd, hm, hgo]

@[simp] theorem execIdent_canonical {h : PortHdr} (hm : Memory.wf s.mem = true) :
    Canonical (execIdent h s) := by
  simp [execIdent, hm]

@[simp] theorem execCommission_canonical {h : PortHdr} {rec_ : CommissionRecord} {sig : List Byte}
    (hm : Memory.wf s.mem = true) :
    Canonical (execCommission h rec_ sig s) := by
  simp [execCommission, hm]

@[simp] theorem execBeacon_canonical {h : PortHdr} {image : List Byte} (hm : Memory.wf s.mem = true) :
    Canonical (execBeacon h image s) := by
  unfold execBeacon
  split <;> simp [hm]

@[simp] theorem execNonce_canonical {h : PortHdr} (hm : Memory.wf s.mem = true) :
    Canonical (execNonce h s) := by
  simp [execNonce, hm]

@[simp] theorem execNonceExpiry_canonical {node : Nat} (hm : Memory.wf s.mem = true) :
    Canonical (execNonceExpiry node s) := by
  simp [execNonceExpiry, hm]

@[simp] theorem execPresent_canonical {h : PortHdr} {image obj sig : List Byte}
    (hm : Memory.wf s.mem = true) :
    Canonical (execPresent h image obj sig s) := by
  unfold execPresent
  split <;> simp [hm]

@[simp] theorem execRedeem_canonical {h : PortHdr} {receipt sig : List Byte} (hm : Memory.wf s.mem = true) :
    Canonical (execRedeem h receipt sig s) := by
  unfold execRedeem
  split <;> simp [hm]

@[simp] theorem boundCmd_canonical {h : PortHdr} {code : Nat} {len : Option Nat} {name : String}
    {states : CtxState → Bool} {k : Ctx → State} (hm : Memory.wf s.mem = true)
    (hk : ∀ y0, Memory.wf (k y0).mem = true) :
    Canonical (boundCmd h code len name states s k) := by
  unfold boundCmd
  split <;> simp [hm, hk]

@[simp] theorem execSetwin_canonical {h : PortHdr} {w : BitVec 1} {base len : Word}
    (hm : Memory.wf s.mem = true) :
    Canonical (execSetwin h w base len s) := by
  unfold execSetwin
  refine boundCmd_canonical hm fun x => ?_
  repeat' split
  all_goals simp [hm]

@[simp] theorem execDefq_canonical {h : PortHdr} {q : Nat} {qd : QueueDef} (hm : Memory.wf s.mem = true) :
    Canonical (execDefq h q qd s) := by
  unfold execDefq
  refine boundCmd_canonical hm fun x => ?_
  repeat' split
  all_goals simp [hm]

@[simp] theorem execLock_canonical {h : PortHdr} (hm : Memory.wf s.mem = true) : Canonical (execLock h s) := by
  simp [execLock, hm]

@[simp] theorem execStart_canonical {h : PortHdr} (hm : Memory.wf s.mem = true) :
    Canonical (execStart h s) := by
  unfold execStart
  simp_all

@[simp] theorem execLaunch_canonical {h : PortHdr} {pkt : List Byte} (hm : Memory.wf s.mem = true) :
    Canonical (execLaunch h pkt s) := by
  unfold execLaunch
  refine boundCmd_canonical hm fun x => ?_
  split
  · simp [hm]
  · split
    · simp [hm]
    · dsimp only
      split <;> simp [hm]

@[simp] theorem execRead_canonical {h : PortHdr} {unit : Nat} (hm : Memory.wf s.mem = true) :
    Canonical (execRead h unit s) := by
  unfold execRead
  refine boundCmd_canonical hm fun x => ?_
  dsimp only
  split <;> simp [hm]

@[simp] theorem execSurr_canonical {h : PortHdr} (hm : Memory.wf s.mem = true) : Canonical (execSurr h s) := by
  simp [execSurr, hm]

@[simp] theorem execRevoke_canonical {h : PortHdr} {serial : BitVec 128} {sig : List Byte}
    (hm : Memory.wf s.mem = true) :
    Canonical (execRevoke h serial sig s) := by
  unfold execRevoke
  split <;> simp [hm]

@[simp] theorem execQuery_canonical {h : PortHdr} {item : Nat} (hm : Memory.wf s.mem = true) :
    Canonical (execQuery h item s) := by
  unfold execQuery
  repeat' split
  all_goals simp_all

@[simp] theorem execQctrl_canonical {h : PortHdr} {answer : BitVec 2} (hm : Memory.wf s.mem = true) :
    Canonical (execQctrl h answer s) := by
  unfold execQctrl
  refine boundCmd_canonical hm fun x => ?_
  split <;> simp [hm]

@[simp] theorem execDbgcfg_canonical {h : PortHdr} {clus : Nat} {cfg : DbgConfig}
    (hm : Memory.wf s.mem = true) :
    Canonical (execDbgcfg h clus cfg s) := by
  unfold execDbgcfg
  refine boundCmd_canonical hm fun x => ?_
  dsimp only
  repeat' split
  all_goals simp [hm]

@[simp] theorem execDbgrel_canonical {h : PortHdr} {clus : Nat} (hm : Memory.wf s.mem = true) :
    Canonical (execDbgrel h clus s) := by
  unfold execDbgrel
  refine boundCmd_canonical hm fun x => ?_
  repeat' split
  all_goals simp [hm]

@[simp] theorem execDbgres_canonical {h : PortHdr} (hm : Memory.wf s.mem = true) :
    Canonical (execDbgres h s) := by
  simp [execDbgres, hm]

/-! #### The fabric links and inbound accesses -/

@[simp] theorem execLinkTraining_canonical {link node : Nat} (hm : Memory.wf s.mem = true) :
    Canonical (execLinkTraining link node s) := by
  simp [execLinkTraining, hm]

@[simp] theorem execFlitReceive_canonical {link : Nat} {flit : Flit} (hm : Memory.wf s.mem = true) :
    Canonical (execFlitReceive link flit s) := by
  simp [execFlitReceive, hm]

@[simp] theorem execLinkDown_canonical {link : Nat} (hm : Memory.wf s.mem = true) :
    Canonical (execLinkDown link s) := by
  simp only [execLinkDown]
  split
  · simp
  · split
    · simp [hm]
    · refine canonical_next.2 ?_
      rw [foldl_mem fun _ _ => State.ctxFault_mem _ _ _]
      simpa using hm

@[simp] theorem execFlitSend_canonical {link : Nat} {vc : BitVec 4} (hm : Memory.wf s.mem = true) :
    Canonical (execFlitSend link vc s) := by
  simp only [execFlitSend]
  repeat' split
  all_goals simp [hm]

@[simp] theorem execInboundAccess_canonical {node ctx off len : Nat} {data : Option (List Byte)}
    (hm : Memory.wf s.mem = true) :
    Canonical (execInboundAccess node ctx off len data s) := by
  unfold execInboundAccess
  repeat' split
  all_goals simp_all

/-! #### Scalar loads and stores, LDO and STO, full/empty accesses, and the events of the memory system -/

@[simp] theorem loadDone_canonical {c : Slot} {d : Reg5} {va : Word} {k n : Nat} {signed : Bool}
    (hm : Memory.wf s.mem = true) :
    Canonical (loadDone s c d va k n signed) := by
  unfold loadDone
  split <;> simp [hm]

@[simp] theorem load_canonical {d a : Reg5} {imm : BitVec 12} {n : Nat} {signed : Bool}
    (hm : Memory.wf s.mem = true) :
    Canonical (load s d a imm n signed) := by
  simp only [load]
  refine withSrc1_canonical hm fun x c => ?_
  repeat' split
  all_goals simp [hm]

@[simp] theorem store_canonical {b a : Reg5} {imm : BitVec 12} {n : Nat} {rel : Option Scope}
    (hm : Memory.wf s.mem = true) :
    Canonical (store s b a imm n rel) := by
  simp only [store]
  refine withSrc2_canonical hm fun x v c => ?_
  repeat' split
  all_goals simp [hm]

@[simp] theorem execLb_canonical {d a : Reg5} {imm : BitVec 12} (hm : Memory.wf s.mem = true) :
    Canonical (execLb d a imm s) := load_canonical hm

@[simp] theorem execLbu_canonical {d a : Reg5} {imm : BitVec 12} (hm : Memory.wf s.mem = true) :
    Canonical (execLbu d a imm s) := load_canonical hm

@[simp] theorem execLh_canonical {d a : Reg5} {imm : BitVec 12} (hm : Memory.wf s.mem = true) :
    Canonical (execLh d a imm s) := load_canonical hm

@[simp] theorem execLhu_canonical {d a : Reg5} {imm : BitVec 12} (hm : Memory.wf s.mem = true) :
    Canonical (execLhu d a imm s) := load_canonical hm

@[simp] theorem execLw_canonical {d a : Reg5} {imm : BitVec 12} (hm : Memory.wf s.mem = true) :
    Canonical (execLw d a imm s) := load_canonical hm

@[simp] theorem execLwu_canonical {d a : Reg5} {imm : BitVec 12} (hm : Memory.wf s.mem = true) :
    Canonical (execLwu d a imm s) := load_canonical hm

@[simp] theorem execLd_canonical {d a : Reg5} {imm : BitVec 12} (hm : Memory.wf s.mem = true) :
    Canonical (execLd d a imm s) := load_canonical hm

@[simp] theorem execSb_canonical {b a : Reg5} {imm : BitVec 12} (hm : Memory.wf s.mem = true) :
    Canonical (execSb b a imm s) := store_canonical hm

@[simp] theorem execSh_canonical {b a : Reg5} {imm : BitVec 12} (hm : Memory.wf s.mem = true) :
    Canonical (execSh b a imm s) := store_canonical hm

@[simp] theorem execSw_canonical {b a : Reg5} {imm : BitVec 12} (hm : Memory.wf s.mem = true) :
    Canonical (execSw b a imm s) := store_canonical hm

@[simp] theorem execSd_canonical {b a : Reg5} {imm : BitVec 12} (hm : Memory.wf s.mem = true) :
    Canonical (execSd b a imm s) := store_canonical hm

@[simp] theorem execLdo_canonical {d a : Reg5} {_acq : Bool} {_sc : Scope} {imm : BitVec 12}
    (hm : Memory.wf s.mem = true) :
    Canonical (execLdo d a _acq _sc imm s) := load_canonical hm

@[simp] theorem execSto_canonical {b a : Reg5} {rel : Bool} {sc : Scope} {imm : BitVec 12}
    (hm : Memory.wf s.mem = true) :
    Canonical (execSto b a rel sc imm s) := store_canonical hm

@[simp] theorem feGo_canonical {c : Slot} {op : FeOp} {d : Reg5} {va v : Word} {k : Nat}
    (hm : Memory.wf s.mem = true) :
    Canonical (feGo s c op d va v k) := by
  simp only [feGo]
  repeat' split
  all_goals simp [hm]

@[simp] theorem feAccess_canonical {c : Slot} {op : FeOp} {d : Reg5} {va v : Word}
    (hm : Memory.wf s.mem = true) :
    Canonical (feAccess s c op d va v) := by
  unfold feAccess
  split <;> simp [hm]

@[simp] theorem execLdfe_canonical {d a : Reg5} {imm : BitVec 12} (hm : Memory.wf s.mem = true) :
    Canonical (execLdfe d a imm s) := by
  unfold execLdfe
  refine withSrc1_canonical hm fun x c => ?_
  simp [hm]

@[simp] theorem execLdfeClr_canonical {d a : Reg5} {imm : BitVec 12} (hm : Memory.wf s.mem = true) :
    Canonical (execLdfeClr d a imm s) := by
  unfold execLdfeClr
  refine withSrc1_canonical hm fun x c => ?_
  simp [hm]

@[simp] theorem execStfe_canonical {b a : Reg5} {imm : BitVec 12} (hm : Memory.wf s.mem = true) :
    Canonical (execStfe b a imm s) := by
  simp [execStfe, hm]

@[simp] theorem execFeq_canonical {d a : Reg5} {imm : BitVec 12} (hm : Memory.wf s.mem = true) :
    Canonical (execFeq d a imm s) := by
  unfold execFeq
  refine withSrc1_canonical hm fun x c => ?_
  simp [hm]

@[simp] theorem execOffCoreLoadReply_canonical {slot : Nat} (hm : Memory.wf s.mem = true) :
    Canonical (execOffCoreLoadReply slot s) := by
  simp only [execOffCoreLoadReply]
  split
  · split
    · simp [hm]
    · split
      · simp
      · refine withPages_canonical hm fun _ => ?_
        split <;> simp [hm]
  · split
    · simp [hm]
    · split
      · simp
      · refine withPages_canonical hm fun _ => ?_
        split
        · simp [hm]
        · refine canonical_next.2 ?_
          rw [State.setSlot_mem, foldl_mem fun _ _ => foldl_mem (fun _ _ => State.noteAccess_mem _ _ _ _ _) _ _]
          exact hm
  · simp

@[simp] theorem execStoreBufferDrain_canonical {core : Nat} (hm : Memory.wf s.mem = true) :
    Canonical (execStoreBufferDrain core s) := by
  unfold execStoreBufferDrain
  split <;> simp [hm]

@[simp] theorem execWriteReachesHome_canonical {k : Nat} (hm : Memory.wf s.mem = true) :
    Canonical (execWriteReachesHome k s) := by
  unfold execWriteReachesHome
  repeat' split
  all_goals simp_all

@[simp] theorem execFeRequestAtBank_canonical {slot : Nat} (hm : Memory.wf s.mem = true) :
    Canonical (execFeRequestAtBank slot s) := by
  simp only [execFeRequestAtBank]
  split <;> simp [hm]

@[simp] theorem execBankWakeupDone_canonical {bank : Nat} (hm : Memory.wf s.mem = true) :
    Canonical (execBankWakeupDone bank s) := by
  simp [execBankWakeupDone, hm]

@[simp] theorem execTranslationWalkEnd_canonical {k : Nat} (hm : Memory.wf s.mem = true) :
    Canonical (execTranslationWalkEnd k s) := by
  unfold execTranslationWalkEnd
  split <;> simp [hm]

@[simp] theorem execIcacheLineFill_canonical {slot : Nat} (hm : Memory.wf s.mem = true) :
    Canonical (execIcacheLineFill slot s) := by
  simp only [execIcacheLineFill]
  repeat' split
  all_goals simp [hm]

/-! #### Integer vector instructions -/

@[simp] theorem vInt_canonical {regs : List Reg5} {d a b : Reg5} {ty : IType} {m : BitVec 3} {beats : Nat}
    {f : Int → Int → Int} (hm : Memory.wf s.mem = true) :
    Canonical (vInt s regs d a b ty m beats f) := by
  simp [vInt, hm]

@[simp] theorem execVadd_canonical {d a b : Reg5} {ty : IType} {m : BitVec 3}
    (hm : Memory.wf s.mem = true) :
    Canonical (execVadd d a b ty m s) := vInt_canonical hm

@[simp] theorem execVsub_canonical {d a b : Reg5} {ty : IType} {m : BitVec 3}
    (hm : Memory.wf s.mem = true) :
    Canonical (execVsub d a b ty m s) := vInt_canonical hm

@[simp] theorem execVadds_canonical {d a b : Reg5} {ty : IType} {m : BitVec 3}
    (hm : Memory.wf s.mem = true) :
    Canonical (execVadds d a b ty m s) := vInt_canonical hm

@[simp] theorem execVsubs_canonical {d a b : Reg5} {ty : IType} {m : BitVec 3}
    (hm : Memory.wf s.mem = true) :
    Canonical (execVsubs d a b ty m s) := vInt_canonical hm

@[simp] theorem execVmul_canonical {d a b : Reg5} {ty : IType} {m : BitVec 3}
    (hm : Memory.wf s.mem = true) :
    Canonical (execVmul d a b ty m s) := vInt_canonical hm

@[simp] theorem execVmulh_canonical {d a b : Reg5} {ty : IType} {m : BitVec 3}
    (hm : Memory.wf s.mem = true) :
    Canonical (execVmulh d a b ty m s) := vInt_canonical hm

@[simp] theorem execVmin_canonical {d a b : Reg5} {ty : IType} {m : BitVec 3}
    (hm : Memory.wf s.mem = true) :
    Canonical (execVmin d a b ty m s) := vInt_canonical hm

@[simp] theorem execVmax_canonical {d a b : Reg5} {ty : IType} {m : BitVec 3}
    (hm : Memory.wf s.mem = true) :
    Canonical (execVmax d a b ty m s) := vInt_canonical hm

@[simp] theorem execVabs_canonical {d a : Reg5} {ty : IType} {m : BitVec 3} (hm : Memory.wf s.mem = true) :
    Canonical (execVabs d a ty m s) := vInt_canonical hm

@[simp] theorem execVneg_canonical {d a : Reg5} {ty : IType} {m : BitVec 3} (hm : Memory.wf s.mem = true) :
    Canonical (execVneg d a ty m s) := vInt_canonical hm

@[simp] theorem vBits_canonical {d a b : Reg5} {ty : IType} {m : BitVec 3} {f : Nat → Nat → Nat}
    (hm : Memory.wf s.mem = true) :
    Canonical (vBits s d a b ty m f) := by
  simp [vBits, hm]

@[simp] theorem execVand_canonical {d a b : Reg5} {ty : IType} {m : BitVec 3}
    (hm : Memory.wf s.mem = true) :
    Canonical (execVand d a b ty m s) := vBits_canonical hm

@[simp] theorem execVor_canonical {d a b : Reg5} {ty : IType} {m : BitVec 3} (hm : Memory.wf s.mem = true) :
    Canonical (execVor d a b ty m s) := vBits_canonical hm

@[simp] theorem execVxor_canonical {d a b : Reg5} {ty : IType} {m : BitVec 3}
    (hm : Memory.wf s.mem = true) :
    Canonical (execVxor d a b ty m s) := vBits_canonical hm

@[simp] theorem execVandn_canonical {d a b : Reg5} {ty : IType} {m : BitVec 3}
    (hm : Memory.wf s.mem = true) :
    Canonical (execVandn d a b ty m s) := vBits_canonical hm

@[simp] theorem execVsll_canonical {d a b : Reg5} {ty : IType} {m : BitVec 3}
    (hm : Memory.wf s.mem = true) :
    Canonical (execVsll d a b ty m s) := vBits_canonical hm

@[simp] theorem execVsrl_canonical {d a b : Reg5} {ty : IType} {m : BitVec 3}
    (hm : Memory.wf s.mem = true) :
    Canonical (execVsrl d a b ty m s) := vBits_canonical hm

@[simp] theorem execVsra_canonical {d a b : Reg5} {ty : IType} {m : BitVec 3}
    (hm : Memory.wf s.mem = true) :
    Canonical (execVsra d a b ty m s) := vBits_canonical hm

@[simp] theorem execVsel_canonical {d a b : Reg5} {ty : IType} {m : BitVec 3}
    (hm : Memory.wf s.mem = true) :
    Canonical (execVsel d a b ty m s) := by
  simp [execVsel, hm]

@[simp] theorem vcmp_canonical {d a b : Reg5} {ty : IType} {m : BitVec 3} {cond : Cond}
    (hm : Memory.wf s.mem = true) :
    Canonical (vcmp s d a b ty m cond) := by
  simp [vcmp, hm]

@[simp] theorem execVcmpEq_canonical {d a b : Reg5} {ty : IType} {m : BitVec 3}
    (hm : Memory.wf s.mem = true) :
    Canonical (execVcmpEq d a b ty m s) := vcmp_canonical hm

@[simp] theorem execVcmpNe_canonical {d a b : Reg5} {ty : IType} {m : BitVec 3}
    (hm : Memory.wf s.mem = true) :
    Canonical (execVcmpNe d a b ty m s) := vcmp_canonical hm

@[simp] theorem execVcmpLt_canonical {d a b : Reg5} {ty : IType} {m : BitVec 3}
    (hm : Memory.wf s.mem = true) :
    Canonical (execVcmpLt d a b ty m s) := vcmp_canonical hm

@[simp] theorem execVcmpLe_canonical {d a b : Reg5} {ty : IType} {m : BitVec 3}
    (hm : Memory.wf s.mem = true) :
    Canonical (execVcmpLe d a b ty m s) := vcmp_canonical hm

@[simp] theorem execVcmpGt_canonical {d a b : Reg5} {ty : IType} {m : BitVec 3}
    (hm : Memory.wf s.mem = true) :
    Canonical (execVcmpGt d a b ty m s) := vcmp_canonical hm

@[simp] theorem execVcmpGe_canonical {d a b : Reg5} {ty : IType} {m : BitVec 3}
    (hm : Memory.wf s.mem = true) :
    Canonical (execVcmpGe d a b ty m s) := vcmp_canonical hm

@[simp] theorem vwiden_canonical {d a b : Reg5} {ty : WType} {m : BitVec 3} {f : Int → Int → Int}
    (hm : Memory.wf s.mem = true) :
    Canonical (vwiden s d a b ty m f) := by
  simp [vwiden, hm]

@[simp] theorem execVwadd_canonical {d a b : Reg5} {ty : WType} {m : BitVec 3}
    (hm : Memory.wf s.mem = true) :
    Canonical (execVwadd d a b ty m s) := vwiden_canonical hm

@[simp] theorem execVwsub_canonical {d a b : Reg5} {ty : WType} {m : BitVec 3}
    (hm : Memory.wf s.mem = true) :
    Canonical (execVwsub d a b ty m s) := vwiden_canonical hm

@[simp] theorem execVwmul_canonical {d a b : Reg5} {ty : WType} {m : BitVec 3}
    (hm : Memory.wf s.mem = true) :
    Canonical (execVwmul d a b ty m s) := vwiden_canonical hm

@[simp] theorem vdot_canonical {p : Nat} {d a b : Reg5} {ty : WType} {sat : Bool} {m : BitVec 3}
    (hm : Memory.wf s.mem = true) :
    Canonical (vdot s p d a b ty sat m) := by
  simp [vdot, hm]

@[simp] theorem execVdot2_canonical {d a b : Reg5} {ty : WType} {sat : Bool} {m : BitVec 3}
    (hm : Memory.wf s.mem = true) :
    Canonical (execVdot2 d a b ty sat m s) := vdot_canonical hm

@[simp] theorem execVdot4_canonical {d a b : Reg5} {ty : WType} {sat : Bool} {m : BitVec 3}
    (hm : Memory.wf s.mem = true) :
    Canonical (execVdot4 d a b ty sat m s) := vdot_canonical hm

@[simp] theorem execVnarrow_canonical {d a : Reg5} {ty : WType} {sat : Bool} {m : BitVec 3}
    (hm : Memory.wf s.mem = true) :
    Canonical (execVnarrow d a ty sat m s) := by
  simp [execVnarrow, hm]

@[simp] theorem vMove_canonical {d a b : Reg5} {ty : IType} {m : BitVec 3} {beats : Nat}
    {f : Slot → Nat → Nat → Nat} (hm : Memory.wf s.mem = true) :
    Canonical (vMove s d a b ty m beats f) := by
  simp [vMove, hm]

@[simp] theorem execVperm_canonical {d a b : Reg5} {ty : IType} {m : BitVec 3}
    (hm : Memory.wf s.mem = true) :
    Canonical (execVperm d a b ty m s) := vMove_canonical hm

@[simp] theorem execVshuf_canonical {d a b : Reg5} {ty : IType} {m : BitVec 3}
    (hm : Memory.wf s.mem = true) :
    Canonical (execVshuf d a b ty m s) := vMove_canonical hm

@[simp] theorem execVzip_canonical {d a b : Reg5} {ty : IType} {m : BitVec 3}
    (hm : Memory.wf s.mem = true) :
    Canonical (execVzip d a b ty m s) := vMove_canonical hm

@[simp] theorem execVunzip_canonical {d a b : Reg5} {ty : IType} {m : BitVec 3}
    (hm : Memory.wf s.mem = true) :
    Canonical (execVunzip d a b ty m s) := vMove_canonical hm

@[simp] theorem execVbcast_canonical {d a : Reg5} {ty : IType} {m : BitVec 3}
    (hm : Memory.wf s.mem = true) :
    Canonical (execVbcast d a ty m s) := by
  exact withVregs_canonical hm fun _ => withSrc1_canonical hm fun x c => finishBeats_canonical hm

@[simp] theorem execVslide_canonical {d a b : Reg5} {ty : IType} {m : BitVec 3}
    (hm : Memory.wf s.mem = true) :
    Canonical (execVslide d a b ty m s) := by
  exact withVregs_canonical hm fun _ => withSrc1_canonical hm fun x c => finishBeats_canonical hm

@[simp] theorem execVredi_canonical {d a : Reg5} {ty : IType} {m : BitVec 3} (hm : Memory.wf s.mem = true) :
    Canonical (execVredi d a ty m s) := by
  simp [execVredi, hm]

@[simp] theorem execVmvs_canonical {d a b : Reg5} {ty : IType} {m : BitVec 3}
    (hm : Memory.wf s.mem = true) :
    Canonical (execVmvs d a b ty m s) := by
  exact withVregs_canonical hm fun _ => withSrc1_canonical hm fun k c => finish_canonical hm

@[simp] theorem execVspl_canonical {d a b : Reg5} {ty : IType} {m : BitVec 3}
    (hm : Memory.wf s.mem = true) :
    Canonical (execVspl d a b ty m s) := by
  exact withVregs_canonical hm fun _ => withSrc2_canonical hm fun x k c => finishBeats_canonical hm

@[simp] theorem maskOp_canonical {d : Reg5} {m : MaskReg} (hm : Memory.wf s.mem = true) :
    Canonical (maskOp s d m) := finishMask_canonical hm

@[simp] theorem execMand_canonical {d a b : Reg5} (hm : Memory.wf s.mem = true) :
    Canonical (execMand d a b s) := maskOp_canonical hm

@[simp] theorem execMor_canonical {d a b : Reg5} (hm : Memory.wf s.mem = true) :
    Canonical (execMor d a b s) := maskOp_canonical hm

@[simp] theorem execMxor_canonical {d a b : Reg5} (hm : Memory.wf s.mem = true) :
    Canonical (execMxor d a b s) := maskOp_canonical hm

@[simp] theorem execMnot_canonical {d a : Reg5} (hm : Memory.wf s.mem = true) :
    Canonical (execMnot d a s) := maskOp_canonical hm

@[simp] theorem execMpopc_canonical {d a : Reg5} (hm : Memory.wf s.mem = true) :
    Canonical (execMpopc d a s) := finish_canonical hm

@[simp] theorem execMfirst_canonical {d a : Reg5} (hm : Memory.wf s.mem = true) :
    Canonical (execMfirst d a s) := finish_canonical hm

@[simp] theorem execMmov_canonical {d a : Reg5} (hm : Memory.wf s.mem = true) :
    Canonical (execMmov d a s) := maskOp_canonical hm

/-! #### Floating vector instructions and conversions -/

@[simp] theorem finishLanes_canonical {c : Slot} {beats : Nat} {d : Reg5} {w : Nat} {act : Nat → Bool}
    {f : Nat → FRes} (hm : Memory.wf s.mem = true) :
    Canonical (finishLanes s c beats d w act f) := by
  simp [finishLanes, hm]

@[simp] theorem vfOp_canonical {regs : List Reg5} {d a b : Reg5} {f : FFmt} {rm : RMode} {beats : Nat}
    {F : Rnd → FVal → FVal → FVal → FRes} (hm : Memory.wf s.mem = true) :
    Canonical (vfOp s regs d a b f rm beats F) := by
  simp [vfOp, hm]

@[simp] theorem execVfadd_canonical {d a b : Reg5} {f : FFmt} {rm : RMode} (hm : Memory.wf s.mem = true) :
    Canonical (execVfadd d a b f rm s) := vfOp_canonical hm

@[simp] theorem execVfsub_canonical {d a b : Reg5} {f : FFmt} {rm : RMode} (hm : Memory.wf s.mem = true) :
    Canonical (execVfsub d a b f rm s) := vfOp_canonical hm

@[simp] theorem execVfmul_canonical {d a b : Reg5} {f : FFmt} {rm : RMode} (hm : Memory.wf s.mem = true) :
    Canonical (execVfmul d a b f rm s) := vfOp_canonical hm

@[simp] theorem execVfdiv_canonical {d a b : Reg5} {f : FFmt} {rm : RMode} (hm : Memory.wf s.mem = true) :
    Canonical (execVfdiv d a b f rm s) := vfOp_canonical hm

@[simp] theorem execVfma_canonical {d a b : Reg5} {f : FFmt} {rm : RMode} (hm : Memory.wf s.mem = true) :
    Canonical (execVfma d a b f rm s) := vfOp_canonical hm

@[simp] theorem execVfms_canonical {d a b : Reg5} {f : FFmt} {rm : RMode} (hm : Memory.wf s.mem = true) :
    Canonical (execVfms d a b f rm s) := vfOp_canonical hm

@[simp] theorem execVfnma_canonical {d a b : Reg5} {f : FFmt} {rm : RMode} (hm : Memory.wf s.mem = true) :
    Canonical (execVfnma d a b f rm s) := vfOp_canonical hm

@[simp] theorem execVfnms_canonical {d a b : Reg5} {f : FFmt} {rm : RMode} (hm : Memory.wf s.mem = true) :
    Canonical (execVfnms d a b f rm s) := vfOp_canonical hm

@[simp] theorem execVfsqrt_canonical {d a : Reg5} {f : FFmt} {rm : RMode} (hm : Memory.wf s.mem = true) :
    Canonical (execVfsqrt d a f rm s) := vfOp_canonical hm

@[simp] theorem execVfrcp_canonical {d a : Reg5} {f : FFmt} {rm : RMode} (hm : Memory.wf s.mem = true) :
    Canonical (execVfrcp d a f rm s) := vfOp_canonical hm

@[simp] theorem execVfrsq_canonical {d a : Reg5} {f : FFmt} {rm : RMode} (hm : Memory.wf s.mem = true) :
    Canonical (execVfrsq d a f rm s) := vfOp_canonical hm

@[simp] theorem vfRaw_canonical {regs : List Reg5} {d a b : Reg5} {f : FFmt} {m : BitVec 3}
    {F : Nat → Nat → FRes} (hm : Memory.wf s.mem = true) :
    Canonical (vfRaw s regs d a b f m F) := by
  simp [vfRaw, hm]

@[simp] theorem execVfmin_canonical {d a b : Reg5} {f : FFmt} {m : BitVec 3} (hm : Memory.wf s.mem = true) :
    Canonical (execVfmin d a b f m s) := vfRaw_canonical hm

@[simp] theorem execVfmax_canonical {d a b : Reg5} {f : FFmt} {m : BitVec 3} (hm : Memory.wf s.mem = true) :
    Canonical (execVfmax d a b f m s) := vfRaw_canonical hm

@[simp] theorem execVfabs_canonical {d a : Reg5} {f : FFmt} {m : BitVec 3} (hm : Memory.wf s.mem = true) :
    Canonical (execVfabs d a f m s) := vfRaw_canonical hm

@[simp] theorem execVfneg_canonical {d a : Reg5} {f : FFmt} {m : BitVec 3} (hm : Memory.wf s.mem = true) :
    Canonical (execVfneg d a f m s) := vfRaw_canonical hm

@[simp] theorem execVfclass_canonical {d a : Reg5} {f : FFmt} {m : BitVec 3} (hm : Memory.wf s.mem = true) :
    Canonical (execVfclass d a f m s) := vfRaw_canonical hm

@[simp] theorem vfcmp_canonical {d a b : Reg5} {f : FFmt} {m : BitVec 3} {cond : Cond}
    (hm : Memory.wf s.mem = true) :
    Canonical (vfcmp s d a b f m cond) := by
  simp [vfcmp, hm]

@[simp] theorem execVfcmpEq_canonical {d a b : Reg5} {f : FFmt} {m : BitVec 3}
    (hm : Memory.wf s.mem = true) :
    Canonical (execVfcmpEq d a b f m s) := vfcmp_canonical hm

@[simp] theorem execVfcmpNe_canonical {d a b : Reg5} {f : FFmt} {m : BitVec 3}
    (hm : Memory.wf s.mem = true) :
    Canonical (execVfcmpNe d a b f m s) := vfcmp_canonical hm

@[simp] theorem execVfcmpLt_canonical {d a b : Reg5} {f : FFmt} {m : BitVec 3}
    (hm : Memory.wf s.mem = true) :
    Canonical (execVfcmpLt d a b f m s) := vfcmp_canonical hm

@[simp] theorem execVfcmpLe_canonical {d a b : Reg5} {f : FFmt} {m : BitVec 3}
    (hm : Memory.wf s.mem = true) :
    Canonical (execVfcmpLe d a b f m s) := vfcmp_canonical hm

@[simp] theorem execVfcmpGt_canonical {d a b : Reg5} {f : FFmt} {m : BitVec 3}
    (hm : Memory.wf s.mem = true) :
    Canonical (execVfcmpGt d a b f m s) := vfcmp_canonical hm

@[simp] theorem execVfcmpGe_canonical {d a b : Reg5} {f : FFmt} {m : BitVec 3}
    (hm : Memory.wf s.mem = true) :
    Canonical (execVfcmpGe d a b f m s) := vfcmp_canonical hm

@[simp] theorem execVfreds_canonical {d a b : Reg5} {f : FFmt} {rm : RMode} (hm : Memory.wf s.mem = true) :
    Canonical (execVfreds d a b f rm s) := by
  exact withVregs_canonical hm fun _ => withSrc1_canonical hm fun x c => finishScalar_canonical hm

@[simp] theorem execVcvt_canonical {d a : Reg5} {sat : Bool} {st : EType} {rnd : DynRnd} {dt : EType}
    {m : BitVec 3} (hm : Memory.wf s.mem = true) :
    Canonical (execVcvt d a sat st rnd dt m s) := by
  simp [execVcvt, hm]

@[simp] theorem execVcvtgq_canonical {d a : Reg5} {sat : Bool} {st : GqSrc} {rnd : DynRnd} {dt : GqFmt}
    {m : BitVec 3} (hm : Memory.wf s.mem = true) :
    Canonical (execVcvtgq d a sat st rnd dt m s) := by
  simp [execVcvtgq, hm]

/-! #### Exact geometric predicates -/

@[simp] theorem predicate_canonical {p : Pred} {d a : Reg5} {f64 nf sos : Bool} {m : BitVec 3}
    (hm : Memory.wf s.mem = true) :
    Canonical (predicate s p d a f64 nf sos m) := by
  unfold predicate
  refine withVregs_canonical hm fun _ => ?_
  exact canonical_ite.2 ⟨fun _ => trapAtBeat_canonical hm, fun _ => finishBeats_canonical (by simpa using hm)⟩

@[simp] theorem execPori2_canonical {d a : Reg5} {f64 nf sos : Bool} {m : BitVec 3}
    (hm : Memory.wf s.mem = true) :
    Canonical (execPori2 d a f64 nf sos m s) := predicate_canonical hm

@[simp] theorem execPori3_canonical {d a : Reg5} {f64 nf sos : Bool} {m : BitVec 3}
    (hm : Memory.wf s.mem = true) :
    Canonical (execPori3 d a f64 nf sos m s) := predicate_canonical hm

@[simp] theorem execPincir_canonical {d a : Reg5} {f64 nf sos : Bool} {m : BitVec 3}
    (hm : Memory.wf s.mem = true) :
    Canonical (execPincir d a f64 nf sos m s) := predicate_canonical hm

@[simp] theorem execPinsph_canonical {d a : Reg5} {f64 nf sos : Bool} {m : BitVec 3}
    (hm : Memory.wf s.mem = true) :
    Canonical (execPinsph d a f64 nf sos m s) := predicate_canonical hm

@[simp] theorem execPsegx_canonical {d a : Reg5} {f64 nf sos : Bool} {m : BitVec 3}
    (hm : Memory.wf s.mem = true) :
    Canonical (execPsegx d a f64 nf sos m s) := predicate_canonical hm

/-! #### The referee-only instructions -/

@[simp] theorem execRfetch_canonical {d a : Reg5} (hm : Memory.wf s.mem = true) :
    Canonical (execRfetch d a s) := by
  unfold execRfetch
  refine withSrc1_canonical hm fun x c => withDest_canonical hm fun _ => ?_
  split
  · simp [hm]
  · split
    · simp [hm]
    · dsimp only
      split
      · simp [hm]
      · exact finish_canonical (State.land_wf _ hm)

@[simp] theorem sigDone_canonical {c : Slot} {d : Reg5} (hm : Memory.wf s.mem = true) :
    Canonical (sigDone s c d) := finish_canonical hm

@[simp] theorem execSigwait_canonical {d : Reg5} (hm : Memory.wf s.mem = true) :
    Canonical (execSigwait d s) := by
  simp [execSigwait, hm]

@[simp] theorem execDispatch_canonical {d a b : Reg5} (hm : Memory.wf s.mem = true) :
    Canonical (execDispatch d a b s) := by
  unfold execDispatch
  refine withSrc2_canonical hm fun x n c => withDest_canonical hm fun _ => ?_
  split
  · simp [hm]
  · split
    · simp [hm]
    · dsimp only
      split <;> simp [hm]

@[simp] theorem execKeyld_canonical {d a b : Reg5} (hm : Memory.wf s.mem = true) :
    Canonical (execKeyld d a b s) := by
  unfold execKeyld
  refine withSrc2_canonical hm fun k o c => withDest_canonical hm fun _ => ?_
  dsimp only
  split
  · simp [hm]
  · split
    · simp [hm]
    · split <;> simp [hm]

/-! #### Vector loads and stores -/

@[simp] theorem vloadGo_canonical {c : Slot} {d : Reg5} {ty : EType} {win : Option (Word × Nat)}
    {elems : List (Nat × Word)} {es : List VElem} {beats : Nat} (hm : Memory.wf s.mem = true) :
    Canonical (vloadGo s c d ty win elems es beats) := by
  unfold vloadGo
  repeat' split
  all_goals simp_all

@[simp] theorem vloadPlain_canonical {c : Slot} {d : Reg5} {ty : EType} {acc : Acc}
    {elems : List (Nat × Word)} {beats : Nat} (hm : Memory.wf s.mem = true) :
    Canonical (vloadPlain s c d ty acc elems beats) := by
  unfold vloadPlain
  split <;> simp [hm]

@[simp] theorem execVld_canonical {d a : Reg5} {ty : EType} {m : BitVec 3} (hm : Memory.wf s.mem = true) :
    Canonical (execVld d a ty m s) := by
  unfold execVld
  refine withVregs_canonical hm fun _ => withSrc1_canonical hm fun base c => ?_
  dsimp only
  split
  · split
    · simp [hm]
    · split <;> simp [hm]
  · simp [hm]

@[simp] theorem execVlds_canonical {d a b : Reg5} {ty : EType} {m : BitVec 3}
    (hm : Memory.wf s.mem = true) :
    Canonical (execVlds d a b ty m s) := by
  unfold execVlds
  refine withVregs_canonical hm fun _ => ?_
  simp [hm]

@[simp] theorem execVldx_canonical {d a b : Reg5} {ty : EType} {m : BitVec 3}
    (hm : Memory.wf s.mem = true) :
    Canonical (execVldx d a b ty m s) := by
  exact withVregs_canonical hm fun _ => withSrc1_canonical hm fun base c => vloadPlain_canonical hm

@[simp] theorem vstoreGo_canonical {c : Slot} {cells : List Host.Cell} {unit : Nat} {flags : BitVec 5}
    {beats : Nat} (hm : Memory.wf s.mem = true) :
    Canonical (vstoreGo s c cells unit flags beats) := startBeats_canonical hm

@[simp] theorem vstorePlain_canonical {c : Slot} {d : Reg5} {ty : EType} {acc : Acc}
    {elems : List (Nat × Word)} {beats : Nat} (hm : Memory.wf s.mem = true) :
    Canonical (vstorePlain s c d ty acc elems beats) := by
  unfold vstorePlain
  split <;> simp [hm]

@[simp] theorem execVst_canonical {d a : Reg5} {ty : EType} {m : BitVec 3} (hm : Memory.wf s.mem = true) :
    Canonical (execVst d a ty m s) := by
  unfold execVst
  refine withVregs_canonical hm fun _ => withSrc1_canonical hm fun base c => ?_
  dsimp only
  split
  · split
    · simp [hm]
    · split <;> simp [hm]
  · simp [hm]

@[simp] theorem execVsts_canonical {d a b : Reg5} {ty : EType} {m : BitVec 3}
    (hm : Memory.wf s.mem = true) :
    Canonical (execVsts d a b ty m s) := by
  unfold execVsts
  refine withVregs_canonical hm fun _ => ?_
  simp [hm]

@[simp] theorem execVstx_canonical {d a b : Reg5} {ty : EType} {m : BitVec 3}
    (hm : Memory.wf s.mem = true) :
    Canonical (execVstx d a b ty m s) := by
  exact withVregs_canonical hm fun _ => withSrc1_canonical hm fun base c => vstorePlain_canonical hm

/-! #### How a waiting thread completes its instruction at its turn -/

@[simp] theorem rejoinRfork_canonical {cell : Word} (hm : Memory.wf s.mem = true) :
    Canonical (rejoinRfork s cell) := by
  unfold rejoinRfork
  split <;> simp [hm]

@[simp] theorem rejoinJoin_canonical {last : Bool} (hm : Memory.wf s.mem = true) :
    Canonical (rejoinJoin s last) := by
  simp [rejoinJoin, hm]

@[simp] theorem rejoinCpwait_canonical {ch : Nat} {bound : Word} (hm : Memory.wf s.mem = true) :
    Canonical (rejoinCpwait s ch bound) := by
  unfold rejoinCpwait
  split <;> simp [hm]

@[simp] theorem rejoinArrive_canonical {d : Reg5} {h : Nat} {inp : HInput} {wait : Bool}
    (hm : Memory.wf s.mem = true) :
    Canonical (rejoinArrive s d h inp wait) := by
  unfold rejoinArrive
  split <;> simp [hm]

@[simp] theorem rejoin_canonical {w : Wait} (hm : Memory.wf s.mem = true) : Canonical (rejoin s w) := by
  simp only [rejoin]
  split
  all_goals simp [hm]

@[simp] theorem execThreadRejoin_canonical {slot : Nat} (hm : Memory.wf s.mem = true) :
    Canonical (execThreadRejoin slot s) := by
  simp only [execThreadRejoin]
  repeat' split
  all_goals simp [hm]

/-! #### The dispatch -/

@[simp] theorem exec_canonical {i : Instr} (hm : Memory.wf s.mem = true) : Canonical (exec i s) := by
  unfold exec
  split <;> simp [hm]

/-! #### The model's own order of background events -/

theorem dueDebug_canonical (hm : Memory.wf s.mem = true) : DueCanonical (dueDebug s) := by
  unfold dueDebug
  split
  · exact dueCanonical_none
  · exact dueCanonical_orElse (firstNext_canonical fun _ => execDebugResumeCycle_canonical hm) <|
      dueCanonical_orElse (firstNext_canonical fun _ => execCrossTriggerArrival_canonical hm) <|
      dueCanonical_orElse (firstNext_canonical fun _ => execCaptureCycleMatch_canonical hm) <|
      dueCanonical_orElse (firstNext_canonical fun _ => execDebugSample_canonical hm) <|
      firstNext_canonical fun _ => execCaptureFreeze_canonical hm

theorem dueTrace_canonical (hm : Memory.wf s.mem = true) : DueCanonical (dueTrace s) :=
  firstNext_canonical fun _ => execTraceWordMove_canonical hm

theorem dueStops_canonical (hm : Memory.wf s.mem = true) : DueCanonical (dueStops s) :=
  dueCanonical_orElse (firstNext_canonical fun _ => execResumeRejoin_canonical hm) <|
    dueCanonical_orElse (firstNext_canonical fun _ => execRestoreDone_canonical hm) <|
    dueCanonical_orElse (firstNext_canonical fun _ => execStateSaveDone_canonical hm) <|
    dueCanonical_orElse (firstNext_canonical fun _ => execFlushToken_canonical hm) <|
    firstNext_canonical fun _ => execStopHalt_canonical hm

theorem dueErrors_canonical (hm : Memory.wf s.mem = true) : DueCanonical (dueErrors s) :=
  dueCanonical_orElse (firstNext_canonical fun _ => execContextExpiry_canonical hm) <|
    dueCanonical_orElse (firstNext_canonical fun _ => execWatchdogExpiry_canonical hm) <|
    dueCanonical_orElse (firstNext_canonical fun _ => execEnergyAllowanceReached_canonical hm) <|
    dueCanonical_orElse (firstNext_canonical fun _ => execEnergyOverrun_canonical hm) <|
    dueCanonical_orElse (firstNext_canonical fun _ => execErrorStopCycle_canonical hm) <|
    dueCanonical_orElse (firstNext_canonical fun _ => execDumpWriteDone_canonical hm) <|
    firstNext_canonical fun _ => execDumpStart_canonical hm

theorem dueMemory_canonical (hm : Memory.wf s.mem = true) : DueCanonical (dueMemory s) :=
  dueCanonical_orElse (firstNext_canonical fun _ => execBankWakeupDone_canonical hm) <|
    dueCanonical_orElse (firstNext_canonical fun _ => execStoreBufferDrain_canonical hm) <|
    dueCanonical_orElse (firstNext_canonical fun _ => execWriteReachesHome_canonical hm) <|
    dueCanonical_orElse (firstNext_canonical fun _ => execTranslationWalkEnd_canonical hm) <|
    dueCanonical_orElse (firstNext_canonical fun _ => execIcacheLineFill_canonical hm) <|
    dueCanonical_orElse (firstNext_canonical fun _ => execOffCoreLoadReply_canonical hm) <|
    dueCanonical_orElse (firstNext_canonical fun _ => execFeRequestAtBank_canonical hm) <|
    dueCanonical_orElse (firstNext_canonical fun _ => execAtomicAtHome_canonical hm) <|
    dueCanonical_orElse (firstNext_canonical fun _ => execAtomicReplyArrival_canonical hm) <|
    dueCanonical_orElse (firstNext_canonical fun _ => execReductionAtHome_canonical hm) <|
    dueCanonical_orElse (firstNext_canonical fun _ => execReductionAckArrival_canonical hm) <|
    dueCanonical_orElse (firstNext_canonical fun _ => execSystemAtomicReply_canonical hm) <|
    dueCanonical_orElse (firstNext_canonical fun _ => execJoinDecrementAtHome_canonical hm) <|
    dueCanonical_orElse (firstNext_canonical fun _ => execMigrBlockAccept_canonical hm) <|
    firstNext_canonical fun _ => execMigrBlockReturn_canonical hm

theorem dueTasks_canonical (hm : Memory.wf s.mem = true) : DueCanonical (dueTasks s) :=
  dueCanonical_orElse (firstNext_canonical fun _ => execDequeSpillDone_canonical hm) <|
    dueCanonical_orElse (firstNext_canonical fun _ => execRforkSurveyDone_canonical hm) <|
    dueCanonical_orElse (firstNext_canonical fun _ => execDequeRefill_canonical hm) <|
    dueCanonical_orElse (firstNext_canonical fun _ => execIdleSlotPop_canonical hm) <|
    dueCanonical_orElse (firstNext_canonical fun _ => execStealRetryTimer_canonical hm) <|
    dueCanonical_orElse (firstNext_canonical fun _ => execStealAnswer_canonical hm) <|
    firstNext_canonical fun _ => execStealRequest_canonical hm

theorem dueEngines_canonical (hm : Memory.wf s.mem = true) : DueCanonical (dueEngines s) :=
  dueCanonical_orElse (firstNext_canonical fun _ => execCaddieTakeRequest_canonical hm) <|
    dueCanonical_orElse (firstNext_canonical fun _ => execCopyGranuleLand_canonical hm) <|
    dueCanonical_orElse (firstNext_canonical fun _ => execCopyComplete_canonical hm) <|
    dueCanonical_orElse (firstNext_canonical fun _ => canonical_elim <|
      firstNext_canonical fun _ => execHaloDirectionArrival_canonical hm) <|
    dueCanonical_orElse (firstNext_canonical fun _ => execMcastDelivery_canonical hm) <|
    dueCanonical_orElse (firstNext_canonical fun _ => execGatherComplete_canonical hm) <|
    dueCanonical_orElse (firstNext_canonical fun _ => execCollContributionArrival_canonical hm) <|
    dueCanonical_orElse (firstNext_canonical fun _ => execCollComplete_canonical hm) <|
    dueCanonical_orElse (firstNext_canonical fun _ => execMessageLeaveSendQueue_canonical hm) <|
    firstNext_canonical fun _ => execMessageDelivery_canonical hm

theorem dueMatrix_canonical (hm : Memory.wf s.mem = true) : DueCanonical (dueMatrix s) :=
  dueCanonical_orElse (firstNext_canonical fun _ => execMatrixRecordPush_canonical hm) <|
    dueCanonical_orElse (firstNext_canonical fun _ => execMxadvReachUnit_canonical hm) <|
    dueCanonical_orElse (firstNext_canonical fun _ => execMxringTakeEffect_canonical hm) <|
    dueCanonical_orElse (firstNext_canonical fun _ => execMxwgtTakeEffect_canonical hm) <|
    firstNext_canonical fun _ => execMatrixStep_canonical hm

theorem dueHuddles_canonical (hm : Memory.wf s.mem = true) : DueCanonical (dueHuddles s) :=
  dueCanonical_orElse (firstNext_canonical fun _ => execHuddleNoticeArrival_canonical hm) <|
    dueCanonical_orElse (firstNext_canonical fun _ => execHuddleJoinHandled_canonical hm) <|
    dueCanonical_orElse (firstNext_canonical fun _ => execHuddleArrivalHandled_canonical hm) <|
    dueCanonical_orElse (firstNext_canonical fun _ => execHuddleLeaveHandled_canonical hm) <|
    dueCanonical_orElse (firstNext_canonical fun _ => execHinfoHandled_canonical hm) <|
    firstNext_canonical fun _ => execHuddleDeparture_canonical hm

theorem ctrlAnswer_canonical {x q : Nat} (hm : Memory.wf s.mem = true) :
    Canonical (match execCtrlResume x q s with
      | .next t => .next t
      | _ => match execCtrlSkip x q s with
        | .next t => .next t
        | _ => execCtrlAbort x q s) := by
  split
  · next h => exact canonical_next.2 (execCtrlResume_canonical hm _ h)
  · split
    · next h => exact canonical_next.2 (execCtrlSkip_canonical hm _ h)
    · exact execCtrlAbort_canonical hm

theorem dueQueues_canonical (hm : Memory.wf s.mem = true) : DueCanonical (dueQueues s) :=
  dueCanonical_orElse (firstNext_canonical fun _ => execDoorbellWidxWrite_canonical hm) <|
    dueCanonical_orElse (firstNext_canonical fun _ => ctrlAnswer_canonical hm) <|
    dueCanonical_orElse (firstNext_canonical fun _ => execFencePacketComplete_canonical hm) <|
    dueCanonical_orElse (firstNext_canonical fun _ => execLaunchStart_canonical hm) <|
    dueCanonical_orElse (firstNext_canonical fun _ => execLaunchComplete_canonical hm) <|
    firstNext_canonical fun _ => execPacketFetch_canonical hm

theorem dueClaim_canonical {c : Claim} (hm : Memory.wf s.mem = true) :
    Canonical (if s.homeOf c.who.domain c.msg.root = s.ownNode then execClaimAtHome c.msg 0 s
      else match execClaimTimeout c.msg.serial s with
        | .next t => .next t
        | _ => execClaimRetry c.msg.serial s) := by
  split
  · exact execClaimAtHome_canonical hm
  · split
    · next h => exact canonical_next.2 (execClaimTimeout_canonical hm _ h)
    · exact execClaimRetry_canonical hm

theorem dueUmpire_canonical (hm : Memory.wf s.mem = true) : DueCanonical (dueUmpire s) :=
  dueCanonical_orElse (firstNext_canonical fun _ => execWarrantRequestHandled_canonical hm) <|
    dueCanonical_orElse (firstNext_canonical fun _ => execSlicePlacement_canonical hm) <|
    dueCanonical_orElse (firstNext_canonical fun _ => execSliceEnd_canonical hm) <|
    dueCanonical_orElse (firstNext_canonical fun _ => execPowerWindowEnd_canonical hm) <|
    dueCanonical_orElse (firstNext_canonical fun _ => dueClaim_canonical hm) <|
    dueCanonical_orElse (firstNext_canonical fun _ => execSpentAtHome_canonical hm) <|
    dueCanonical_orElse (firstNext_canonical fun _ => execNonceExpiry_canonical hm) <|
    firstNext_canonical fun _ => execFlitSend_canonical hm

theorem due_canonical (hm : Memory.wf s.mem = true) : DueCanonical (due s) :=
  dueCanonical_orElse (dueDebug_canonical hm) <| dueCanonical_orElse (dueTrace_canonical hm) <|
    dueCanonical_orElse (dueStops_canonical hm) <| dueCanonical_orElse (dueErrors_canonical hm) <|
    dueCanonical_orElse (dueMemory_canonical hm) <| dueCanonical_orElse (dueTasks_canonical hm) <|
    dueCanonical_orElse (dueEngines_canonical hm) <| dueCanonical_orElse (dueMatrix_canonical hm) <|
    dueCanonical_orElse (dueHuddles_canonical hm) <| dueCanonical_orElse (dueQueues_canonical hm) (dueUmpire_canonical hm)

/-! #### One turn of the rotation -/

@[simp] theorem runWord_canonical {w : IWord} (hm : Memory.wf s.mem = true) : Canonical (runWord s w) := by
  simp only [runWord]
  split <;> simp [hm]

@[simp] theorem issue_canonical (hm : Memory.wf s.mem = true) : Canonical (issue s) := by
  unfold issue
  split
  · next h => exact runWord_canonical (by rw [fetch_mem h]; exact hm)
  · simp [hm]
  · simp [hm]

@[simp] theorem runBlock_canonical {b : Block} (hm : Memory.wf s.mem = true) : Canonical (runBlock s b) := by
  simp only [runBlock]
  repeat' split
  all_goals simp [hm]

@[simp] theorem energyTrap_canonical (hm : Memory.wf s.mem = true) : Canonical (energyTrap s) := by
  simp only [energyTrap]
  split
  · next h => simp [fetch_mem h, hm]
  · simp [hm]
  · simp [hm]

@[simp] theorem overrunTrap_canonical (hm : Memory.wf s.mem = true) : Canonical (overrunTrap s) := by
  simp only [overrunTrap]
  split
  · next h => simp [fetch_mem h, hm]
  · simp [hm]
  · simp [hm]

@[simp] theorem issueOr_canonical {go : Out} (hm : Memory.wf s.mem = true) (hgo : Canonical go) :
    Canonical (issueOr s go) := by
  simp [issueOr, hm, hgo]

@[simp] theorem runTurn_canonical (hm : Memory.wf s.mem = true) : Canonical (runTurn s).1 := by
  have hr : Canonical (runWord { s with cur := s.cur.ready } s.cur.ir) := runWord_canonical hm
  unfold runTurn
  dsimp only
  split
  · exact canonical_next.2 hm
  split
  · exact canonical_next.2 hm
  · exact canonical_next.2 hm
  · exact canonical_next.2 hm
  · split
    · exact canonical_next.2 hm
    · exact (exec_canonical hm : Canonical (exec (.yieldPauseEnd s.cur.phys) s))
  · split
    · exact nextBeat_canonical hm
    · exact issueOr_canonical hm (issue_canonical hm)
  all_goals
    split
    · exact nextBeat_canonical hm
    split
    · exact runBlock_canonical hm
    iterate 2
      split
      · split
        · exact hr
        split
        · exact hr
        · exact issueOr_canonical hm hr
      · exact hr
    · split
      · exact issueOr_canonical hm (issue_canonical hm)
      · exact canonical_next.2 hm
    · split
      · next h => exact canonical_next.2 (exec_canonical hm _ h)
      · exact canonical_next.2 hm

@[simp] theorem endCycle_wf (hm : Memory.wf s.mem = true) : Memory.wf (endCycle s).mem = true := by
  simp [endCycle, hm]

@[simp] theorem advance_wf (hm : Memory.wf s.mem = true) : Memory.wf (advance s).mem = true := by
  have h : Memory.wf (endCycle s.reland).mem = true := endCycle_wf (by simpa using hm)
  simp only [advance]
  split
  · simp [hm]
  · split
    · split <;> simp [h]
    · simp [h]

@[simp] theorem idleTurn_wf (hm : Memory.wf s.mem = true) : Memory.wf (idleTurn s).mem = true := by
  unfold idleTurn
  split
  · split
    · next h => exact runTurn_canonical hm _ (congrArg Prod.fst h)
    · exact hm
  · exact hm

@[simp] theorem turn_canonical (hm : Memory.wf s.mem = true) : Canonical (turn s) := by
  unfold turn
  split
  · split
    · exact canonical_next.2 (advance_wf (by simp [hm]))
    · simp [hm]
  · split
    · next h =>
      have ht := runTurn_canonical hm _ (congrArg Prod.fst h)
      exact canonical_next.2 (advance_wf (by simpa using ht))
    · next o _ _ h =>
      have ho := runTurn_canonical hm
      rw [h] at ho
      exact ho

@[simp] theorem stepBody_canonical (hm : Memory.wf s.mem = true) : Canonical (stepBody s) := by
  unfold stepBody
  split
  · exact exec_canonical hm
  · split
    · next t h =>
      split at h
      · exact canonical_next.2 (due_canonical hm t h)
      · cases h
    · exact turn_canonical hm

end Meanings

/-- Settles O3: the meanings of instructions and events are canonical, and a step is one of them. -/
theorem stepKeepsMemoryCanonical : Obligations.StepKeepsMemoryCanonical :=
  fun _ _ hm hstep => stepBody_canonical hm _ hstep

end Sys2Proof.Machine


/-! Sources, and the one-source and no-source scalar instructions (R57, R58, R107, R115; O7, O9). -/

namespace Sys2Proof.Machine

/-! ### Sources -/

theorem withSrc1_of_read {s : State} {a : Reg5} {x : Word} {c : Slot} (k : Word → Slot → Out)
    (ha : s.cur.readReg a = some (x, c)) : withSrc1 s a k = k x c := by
  simp [withSrc1, ha]

theorem withSrc1_of_empty {s : State} {a : Reg5} (k : Word → Slot → Out) (ha : s.cur.readReg a = none) :
    withSrc1 s a k = stallSources s := by
  simp [withSrc1, ha]

/-- R45: with either queue empty the thread waits, and the word read for a stands in its queue. -/
theorem withSrc2_of_empty {s : State} {a b : Reg5} (k : Word → Word → Slot → Out)
    (h : s.cur.readReg a = none ∨ ∃ x c, s.cur.readReg a = some (x, c) ∧ c.readReg b = none) :
    withSrc2 s a b k = stallSources s := by
  obtain ha | ⟨x, c, ha, hb⟩ := h
  · simp [withSrc2, ha]
  · simp [withSrc2, ha, hb]

theorem Slot.poppedTiles_eq (c : Slot) : c.poppedTiles =
    if c.q0tiles.headD 0 = 0 then c.popTiles else insertNat (c.q0tiles.headD 0) c.popTiles := by
  rcases h : c.q0tiles with _ | ⟨_ | n, ts⟩ <;> simp [Slot.poppedTiles, h]

theorem Slot.readReg_q0 {c : Slot} {w : Word} {ws : List Word} (h : c.q0read = w :: ws) :
    c.readReg 24 = some (w, { c with
      q0read := ws, q0tiles := c.q0tiles.drop 1,
      popTiles := if c.q0tiles.headD 0 = 0 then c.popTiles else insertNat (c.q0tiles.headD 0) c.popTiles }) := by
  rw [← c.poppedTiles_eq]
  change (match c.q0read with
    | w :: ws => some (w, { c with q0read := ws, q0tiles := c.q0tiles.drop 1, popTiles := c.poppedTiles })
    | [] => none) = _
  rw [h]

/-- Settles O7: reads, writes and pops by their definitions; a two-source form waits on an empty source. -/
theorem registersAndQueuesAsSources : Obligations.RegistersAndQueuesAsSources := by
  refine ⟨fun c n m w => ⟨rfl, rfl, fun h0 h => c.reg_setReg_same w (Nat.ne_of_gt h0) h,
    fun h => c.reg_setReg_other w (Ne.symm h)⟩, fun c r h => c.readReg_reg h, fun c w ws => ?_, fun c => ?_, ?_⟩
  · refine ⟨Slot.readReg_q0, ?_, ?_, ?_, ?_⟩ <;> intro h <;> simp [Slot.readReg, Slot.popQueue, h]
  · refine ⟨?_, ?_, ?_, ?_, ?_⟩ <;> intro h <;> simp [Slot.readReg, Slot.popQueue, h]
  · intro i d a b f s hi h
    rw [exec_eq_alu2_of_twoSource hi s, alu2, withSrc2_of_empty _ h, stallSources]

/-! ### One source, and none -/

/-- Every one-source instruction is the one-source form with the function of its table line. -/
theorem exec_eq_alu1_of_oneSource {i : Instr} {d a : Reg5} {f : Word → Word} (h : OneSource i d a f) (s : State) :
    exec i s = alu1 s d a f := by
  cases h with
  | addi | andi | ori | xori | slli | srli | srai | roli | clz | ctz | popc | brev | bswap => rfl
  | slti => exact congrArg (alu1 s d a) (funext fun x => flagWord_eq_truth BitVec.slt_iff_toInt_lt)
  | sltiu => exact congrArg (alu1 s d a) (funext fun x => flagWord_eq_truth BitVec.ult_iff_toNat_lt)
  | seqi => exact congrArg (alu1 s d a) (funext fun x => flagWord_eq_truth beq_iff_eq)

theorem exec_eq_finish_of_noSource {i : Instr} {s : State} {d : Reg5} {w : Word} (h : NoSource i s d w) :
    exec i s = finish s s.cur d w := by
  cases h <;> rfl

/-- Settles O9: each instruction is the one-source form with its table's function, or writes its value at once. -/
theorem oneSourceScalarResults : Obligations.OneSourceScalarResults :=
  ⟨fun _ _ _ _ s _ _ hi ha => writes_of_exec_eq_finish ((exec_eq_alu1_of_oneSource hi s).trans (withSrc1_of_read _ ha)),
    fun _ _ _ _ hi => writes_of_exec_eq_finish (exec_eq_finish_of_noSource hi)⟩

end Sys2Proof.Machine


/-! Counting, reversal and bytes by bits (R4, R5, Table 6-7; O10). -/

namespace Sys2Proof.Machine

/-! ### Bytes of a number -/

theorem length_leBytes (n x : Nat) : (leBytes n x).length = n := by
  induction n generalizing x with
  | zero => rfl
  | succ n ih => simp [leBytes, ih]

theorem getD_leBytes (n x q : Nat) (d : Byte) (h : q < n) : (leBytes n x).getD q d = BitVec.ofNat 8 (x / 256 ^ q) := by
  induction n generalizing x q with
  | zero => omega
  | succ n ih =>
    cases q with
    | zero => simp [leBytes]
    | succ q => simpa [leBytes, Nat.div_div_eq_div_mul, Nat.pow_succ, Nat.mul_comm] using ih (x / 256) q (by omega)

/-- Bit 8q + r of a number is bit r of its byte q. -/
theorem testBit_leNat (bs : List Byte) (q r : Nat) (hr : r < 8) :
    (leNat bs).testBit (8 * q + r) = (bs.getD q 0).getLsbD r := by
  induction bs generalizing q with
  | nil => simp [leNat]
  | cons b bs ih =>
    have hsplit := Nat.testBit_two_pow_mul_add (leNat bs) (i := 8) b.isLt
    rw [leNat, Nat.add_comm, show 256 = 2 ^ 8 from rfl, hsplit]
    cases q with
    | zero => simp [hr]; rfl
    | succ q =>
      rw [if_neg (by omega), show 8 * (q + 1) + r - 8 = 8 * q + r by omega, ih]
      rfl

/-! ### Reversal -/

theorem revN_lt (n x : Nat) : revN n x < 2 ^ n := by
  induction n generalizing x with
  | zero => simp [revN]
  | succ n ih =>
    have hlow := ih (x / 2)
    have hbit : x % 2 * 2 ^ n ≤ 1 * 2 ^ n := Nat.mul_le_mul_right _ (by omega)
    rw [revN, Nat.pow_succ]
    omega

theorem testBit_revN (n x i : Nat) (h : i < n) : (revN n x).testBit i = x.testBit (n - 1 - i) := by
  induction n generalizing x i with
  | zero => omega
  | succ n ih =>
    rw [revN, Nat.mul_comm, Nat.testBit_two_pow_mul_add _ (revN_lt n _)]
    split
    · next hi => rw [ih _ _ hi, ← Nat.testBit_succ, show (n - 1 - i).succ = n + 1 - 1 - i by omega]
    · have : i = n := by omega
      subst this
      simp [Nat.testBit_zero]

/-! ### Counts -/

theorem ctzN_spec (n x : Nat) (hx : x ≠ 0) (h : x < 2 ^ n) :
    ctzN n x < n ∧ x.testBit (ctzN n x) = true ∧ ∀ i, i < ctzN n x → x.testBit i = false := by
  induction n generalizing x with
  | zero => simp at h; omega
  | succ n ih =>
    by_cases hodd : x % 2 = 1
    · simp [ctzN, hodd, Nat.testBit_zero]
    · obtain ⟨hlt, hone, hzero⟩ := ih (x / 2) (by omega) (by rw [Nat.pow_succ] at h; omega)
      rw [ctzN, if_neg hodd, Nat.add_comm]
      refine ⟨by omega, by rwa [Nat.testBit_succ], fun i hi => ?_⟩
      cases i with
      | zero => simp [Nat.testBit_zero]; omega
      | succ i => rw [Nat.testBit_succ]; exact hzero i (by omega)

theorem ctzN_zero (n : Nat) : ctzN n 0 = n := by
  induction n with
  | zero => rfl
  | succ n ih => simp [ctzN, ih, Nat.add_comm]

/-- The leading zeros of a nonzero number end at its binary logarithm. -/
theorem clzN_of_ne_zero {n x : Nat} (hx : x ≠ 0) (h : x < 2 ^ n) :
    x.log2 < n ∧ clzN n x = n - 1 - x.log2 := ⟨(Nat.log2_lt hx).2 h, if_neg hx⟩

theorem popcN_eq_count (n x : Nat) : popcN n x = ((List.range n).filter x.testBit).length := by
  induction n generalizing x with
  | zero => rfl
  | succ n ih =>
    have hshift : x.testBit ∘ Nat.succ = (x / 2).testBit := funext (Nat.testBit_succ x)
    rw [popcN, ih, List.range_succ_eq_map, List.filter_cons, List.filter_map, hshift, Nat.testBit_zero]
    rcases Nat.mod_two_eq_zero_or_one x with h | h <;> simp [h, Nat.add_comm]

/-! ### The statement -/

theorem getLsbD_ofNat_lt {n i : Nat} (x : Nat) (h : i < n) : (BitVec.ofNat n x).getLsbD i = x.testBit i := by
  rw [BitVec.getLsbD_ofNat, decide_eq_true h, Bool.true_and]

theorem brev_getLsbD (x : Word) (i : Nat) (h : i < 64) :
    (BitVec.ofNat 64 (revN 64 x.toNat)).getLsbD i = x.getLsbD (63 - i) := by
  rw [getLsbD_ofNat_lt _ h, testBit_revN _ _ _ h, BitVec.testBit_toNat]

theorem bswap_getLsbD (x : Word) (i : Nat) (h : i < 64) :
    (leWord (leBytes 8 x.toNat).reverse).getLsbD i = x.getLsbD (8 * (7 - i / 8) + i % 8) := by
  have hq : i / 8 < (leBytes 8 x.toNat).length := by rw [length_leBytes]; omega
  have hr : i % 8 < 8 := Nat.mod_lt _ (by omega)
  calc (leWord (leBytes 8 x.toNat).reverse).getLsbD i
      = (leNat (leBytes 8 x.toNat).reverse).testBit (8 * (i / 8) + i % 8) := by
        rw [leWord, getLsbD_ofNat_lt _ h, Nat.div_add_mod]
    _ = ((leBytes 8 x.toNat).getD (7 - i / 8) 0).getLsbD (i % 8) := by
        rw [testBit_leNat _ _ _ hr, List.getD_eq_getElem?_getD, List.getElem?_reverse hq, length_leBytes,
          ← List.getD_eq_getElem?_getD]
    _ = x.getLsbD (8 * (7 - i / 8) + i % 8) := by
        rw [getD_leBytes _ _ _ _ (by omega), show 256 = 2 ^ 8 from rfl, ← Nat.pow_mul, getLsbD_ofNat_lt _ hr,
          Nat.testBit_div_two_pow, BitVec.testBit_toNat, Nat.add_comm]

theorem clz_getLsbD (x : Word) (hx : x ≠ 0) : clzN 64 x.toNat < 64 ∧ x.getLsbD (63 - clzN 64 x.toNat) = true ∧
    ∀ i, 63 - clzN 64 x.toNat < i → x.getLsbD i = false := by
  have hn : x.toNat ≠ 0 := fun h => hx (BitVec.eq_of_toNat_eq h)
  obtain ⟨hlog, hclz⟩ := clzN_of_ne_zero hn x.isLt
  have htop : 63 - clzN 64 x.toNat = x.toNat.log2 := by omega
  refine ⟨by omega, ?_, fun i hi => ?_⟩
  · rw [htop, ← BitVec.testBit_toNat]; exact Nat.testBit_log2 hn
  · rw [htop] at hi
    rw [← BitVec.testBit_toNat]
    exact Nat.testBit_lt_two_pow (Nat.lt_of_lt_of_le Nat.lt_log2_self (Nat.pow_le_pow_right (by omega) hi))

theorem ctz_getLsbD (x : Word) (hx : x ≠ 0) : ctzN 64 x.toNat < 64 ∧ x.getLsbD (ctzN 64 x.toNat) = true ∧
    ∀ i, i < ctzN 64 x.toNat → x.getLsbD i = false := by
  simpa [BitVec.testBit_toNat] using ctzN_spec 64 x.toNat (fun h => hx (BitVec.eq_of_toNat_eq h)) x.isLt

/-- Settles O10: each count and reversal by the bits of the number, by induction on the width. -/
theorem bitOperationsByBits : Obligations.BitOperationsByBits := by
  intro x
  refine ⟨brev_getLsbD x, bswap_getLsbD x, ?_, clz_getLsbD x, ctz_getLsbD x, ?_⟩
  · rintro rfl
    exact ⟨rfl, ctzN_zero 64⟩
  · rw [popcN_eq_count]
    rfl

end Sys2Proof.Machine


/-! Grouping cells by their aligned units (R223, R230; O39): the groups have different units, and hold each location once, with
the value of its last cell. -/

namespace Sys2Proof.Machine

/-! ### Entries of a keyed list -/

/-- An entry of a list that holds each key once, after an update of one key. -/
theorem mem_updKey_iff {x y : Host.Cell} {cs : List Host.Cell} (h : (cs.map Prod.fst).Nodup) :
    y ∈ updKey (fun z => z.1 == x.1) x cs ↔ y = x ∨ y.1 ≠ x.1 ∧ y ∈ cs := by
  induction cs with
  | nil => simp [updKey]
  | cons z cs ih =>
    rw [List.map_cons, List.nodup_cons] at h
    by_cases hz : z.1 = x.1
    · have hne : y ∈ cs → y.1 ≠ x.1 := fun hy e => h.1 (hz ▸ e ▸ List.mem_map_of_mem hy)
      simp only [updKey, hz, beq_self_eq_true, if_true, List.mem_cons]
      constructor
      · rintro (rfl | hy)
        · exact .inl rfl
        · exact .inr ⟨hne hy, .inr hy⟩
      · rintro (rfl | ⟨hk, rfl | hy⟩)
        · exact .inl rfl
        · exact absurd hz hk
        · exact .inr hy
    · simp only [updKey, beq_eq_false_iff_ne.2 hz, Bool.false_eq_true, if_false, List.mem_cons, ih h.2]
      constructor
      · rintro (rfl | rfl | hy)
        · exact .inr ⟨hz, .inl rfl⟩
        · exact .inl rfl
        · exact .inr ⟨hy.1, .inr hy.2⟩
      · rintro (rfl | ⟨hk, rfl | hy⟩)
        · exact .inr (.inl rfl)
        · exact .inl rfl
        · exact .inr (.inr ⟨hk, hy⟩)

theorem nodup_updKey {x : Host.Cell} {cs : List Host.Cell} (h : (cs.map Prod.fst).Nodup) :
    ((updKey (fun z => z.1 == x.1) x cs).map Prod.fst).Nodup := by
  induction cs with
  | nil => simp [updKey]
  | cons z cs ih =>
    rw [List.map_cons, List.nodup_cons] at h
    by_cases hz : z.1 = x.1
    · simp only [updKey, hz, beq_self_eq_true, if_true, List.map_cons, List.nodup_cons]
      exact hz ▸ h
    · simp only [updKey, beq_eq_false_iff_ne.2 hz, Bool.false_eq_true, if_false, List.map_cons, List.nodup_cons, ih h.2, and_true]
      intro hmem
      obtain ⟨y, hy, hyz⟩ := List.mem_map.1 hmem
      obtain rfl | ⟨-, hy⟩ := (mem_updKey_iff h.2).1 hy
      · exact hz hyz.symm
      · exact h.1 (hyz ▸ List.mem_map_of_mem hy)

/-! ### Groups -/

/-- The unit of a group: that of its first cell. -/
def groupUnit (u : Nat) (cs : List Host.Cell) : Option Nat := cs.head?.map (fun y => y.1 / u)

/-- The groups have different units, each holds cells of its own unit only, and each location once. -/
structure Grouped (u : Nat) (css : List (List Host.Cell)) : Prop where
  units : (css.map (groupUnit u)).Nodup
  own : ∀ cs ∈ css, ∀ x ∈ cs, groupUnit u cs = some (x.1 / u)
  keys : ∀ cs ∈ css, (cs.map Prod.fst).Nodup

theorem groupUnit_updKey {u : Nat} {x : Host.Cell} {cs : List Host.Cell} (h : groupUnit u cs = some (x.1 / u)) :
    groupUnit u (updKey (fun z => z.1 == x.1) x cs) = some (x.1 / u) := by
  cases cs with
  | nil => simp [groupUnit] at h
  | cons z cs =>
    by_cases hz : z.1 = x.1
    · simp [updKey, hz, groupUnit]
    · simpa [updKey, hz, groupUnit] using h

theorem putUnit_cons (u : Nat) (x : Host.Cell) (cs : List Host.Cell) (css : List (List Host.Cell)) :
    putUnit u x (cs :: css) = if groupUnit u cs = some (x.1 / u) then updKey (fun z => z.1 == x.1) x cs :: css
      else cs :: putUnit u x css := ite_congr (propext beq_iff_eq) (fun _ => rfl) (fun _ => rfl)

/-- The groups after a cell is put: of an old unit, or its own new one. -/
theorem groupUnit_of_mem_putUnit {u : Nat} {x : Host.Cell} {css : List (List Host.Cell)} {q : Option Nat}
    (h : q ∈ (putUnit u x css).map (groupUnit u)) : q ∈ css.map (groupUnit u) ∨ q = some (x.1 / u) := by
  induction css with
  | nil => exact .inr (by simpa [putUnit, groupUnit] using h)
  | cons cs css ih =>
    rw [putUnit_cons] at h
    split at h
    · next hu =>
      rw [List.map_cons, groupUnit_updKey hu, ← hu] at h
      exact .inl h
    · rw [List.map_cons, List.mem_cons] at h
      obtain rfl | h := h
      · exact .inl (by simp)
      · exact (ih h).imp_left (List.mem_cons_of_mem _)

theorem Grouped.tail {u : Nat} {cs : List Host.Cell} {css : List (List Host.Cell)} (h : Grouped u (cs :: css)) : Grouped u css where
  units := (List.nodup_cons.1 h.units).2
  own ds hd := h.own ds (List.mem_cons_of_mem _ hd)
  keys ds hd := h.keys ds (List.mem_cons_of_mem _ hd)

theorem Grouped.cons {u : Nat} {cs : List Host.Cell} {css : List (List Host.Cell)} (h : Grouped u css)
    (hu : groupUnit u cs ∉ css.map (groupUnit u)) (hown : ∀ x ∈ cs, groupUnit u cs = some (x.1 / u))
    (hkeys : (cs.map Prod.fst).Nodup) : Grouped u (cs :: css) where
  units := List.nodup_cons.2 ⟨hu, h.units⟩
  own := List.forall_mem_cons.2 ⟨hown, h.own⟩
  keys := List.forall_mem_cons.2 ⟨hkeys, h.keys⟩

theorem Grouped.head_unit_notMem {u : Nat} {cs : List Host.Cell} {css : List (List Host.Cell)} (h : Grouped u (cs :: css)) :
    groupUnit u cs ∉ css.map (groupUnit u) := (List.nodup_cons.1 h.units).1

theorem Grouped.putUnit {u : Nat} {css : List (List Host.Cell)} (x : Host.Cell) (h : Grouped u css) :
    Grouped u (putUnit u x css) := by
  induction css with
  | nil => exact Grouped.cons ⟨by simp, by simp, by simp⟩ (by simp) (by simp [groupUnit]) (by simp)
  | cons cs css ih =>
    have hown := h.own cs (by simp)
    have hkeys := h.keys cs (by simp)
    rw [putUnit_cons]
    split
    · next hu =>
      refine h.tail.cons ?_ (fun y hy => ?_) (nodup_updKey hkeys)
      · rw [groupUnit_updKey hu, ← hu]
        exact h.head_unit_notMem
      · rw [groupUnit_updKey hu]
        obtain rfl | ⟨-, hy⟩ := (mem_updKey_iff hkeys).1 hy
        · rfl
        · rw [← hown y hy, hu]
    · next hu =>
      refine (ih h.tail).cons (fun hmem => ?_) hown hkeys
      obtain hmem | e := groupUnit_of_mem_putUnit hmem
      · exact h.head_unit_notMem hmem
      · exact hu e

/-- The cells of the groups after a cell is put: it, and the others of other locations. -/
theorem mem_putUnit_iff {u : Nat} {css : List (List Host.Cell)} (x y : Host.Cell) (h : Grouped u css) :
    (∃ cs ∈ putUnit u x css, y ∈ cs) ↔ y = x ∨ y.1 ≠ x.1 ∧ ∃ cs ∈ css, y ∈ cs := by
  induction css with
  | nil => simp [putUnit]
  | cons cs css ih =>
    rw [putUnit_cons]
    split
    · next hu =>
      have hne : (∃ ds ∈ css, y ∈ ds) → y.1 ≠ x.1 := by
        rintro ⟨ds, hd, hy⟩ e
        refine h.head_unit_notMem (List.mem_map.2 ⟨ds, hd, ?_⟩)
        rw [h.tail.own ds hd y hy, hu, e]
      simp only [List.mem_cons, or_and_right, exists_or, exists_eq_left, mem_updKey_iff (h.keys cs (by simp)), or_assoc]
      refine or_congr_right ⟨?_, fun ⟨hk, hy⟩ => hy.imp_left (⟨hk, ·⟩)⟩
      rintro (⟨hk, hy⟩ | hy)
      · exact ⟨hk, .inl hy⟩
      · exact ⟨hne hy, .inr hy⟩
    · next hu =>
      have hne : y ∈ cs → y.1 ≠ x.1 := fun hy e => hu (by rw [h.own cs (by simp) y hy, e])
      simp only [List.mem_cons, or_and_right, exists_or, exists_eq_left, ih h.tail]
      grind

theorem unitGroups_append (u : Nat) (cells : List Host.Cell) (x : Host.Cell) :
    unitGroups u (cells ++ [x]) = putUnit u x (unitGroups u cells) := List.foldl_append

theorem unitGroups_grouped (u : Nat) (cells : List Host.Cell) : Grouped u (unitGroups u cells) := by
  rw [← List.reverse_reverse cells]
  induction cells.reverse with
  | nil => exact ⟨by simp [unitGroups], by simp [unitGroups], by simp [unitGroups]⟩
  | cons x cells ih => rw [List.reverse_cons, unitGroups_append]; exact ih.putUnit x

/-- A location's byte in the groups is that of its last cell. -/
theorem mem_unitGroups_iff (u : Nat) (cells : List Host.Cell) (y : Host.Cell) :
    (∃ cs ∈ unitGroups u cells, y ∈ cs) ↔ cells.reverse.find? (fun x => x.1 == y.1) = some y := by
  rw [← List.reverse_reverse cells]
  induction cells.reverse with
  | nil => simp [unitGroups]
  | cons x cells ih =>
    rw [List.reverse_cons, unitGroups_append, mem_putUnit_iff x y (unitGroups_grouped u cells.reverse), ih, List.reverse_append,
      List.reverse_singleton, List.singleton_append, List.find?_cons]
    by_cases hx : x.1 = y.1
    · simp only [hx, beq_self_eq_true, ne_eq, not_true_eq_false, false_and, or_false, Option.some.injEq]
      exact eq_comm
    · have hyx : y ≠ x := fun e => hx (e ▸ rfl)
      simp [beq_eq_false_iff_ne.2 hx, hyx, Ne.symm hx]

/-- Settles O39: the grouping keeps its invariant as each cell is put. -/
theorem blockWritesHoldEveryByte : Obligations.BlockWritesHoldEveryByte := by
  refine fun u cells => ⟨fun cs hcs x hx y hy => ?_, fun k b => mem_unitGroups_iff u cells (k, b)⟩
  have hown := (unitGroups_grouped u cells).own cs hcs
  exact Option.some.inj ((hown x hx).symm.trans (hown y hy))

end Sys2Proof.Machine


/-! Vector registers by elements (R165, R166, R168; O31). -/

namespace Sys2Proof.Machine

/-! ### Elements of a number -/

theorem ofElemsN_lt (w : Nat) (f : Nat → Nat) (n : Nat) : ofElemsN w f n < 2 ^ (w * n) := by
  induction n with
  | zero => simp [ofElemsN]
  | succ n ih =>
    have hn : f n % 2 ^ w + 1 ≤ 2 ^ w := Nat.mod_lt _ (Nat.two_pow_pos w)
    have htop := Nat.mul_le_mul_right (2 ^ (w * n)) hn
    rw [Nat.add_mul] at htop
    rw [ofElemsN, Nat.mul_succ, Nat.pow_add, Nat.mul_comm (2 ^ (w * n)) (2 ^ w)]
    omega

/-- Bit w q + r of the elements' number is bit r of element q. -/
theorem testBit_ofElemsN {w r : Nat} (f : Nat → Nat) (hr : r < w) (n q : Nat) (hq : q < n) :
    (ofElemsN w f n).testBit (w * q + r) = (f q).testBit r := by
  induction n with
  | zero => omega
  | succ n ih =>
    rw [ofElemsN, Nat.add_comm, Nat.mul_comm _ (2 ^ (w * n)), Nat.testBit_two_pow_mul_add _ (ofElemsN_lt w f n)]
    split
    · next h =>
      refine ih (Nat.lt_of_le_of_ne (Nat.le_of_lt_succ hq) fun e => ?_)
      subst e
      omega
    · next h =>
      have hqn : q = n := by
        refine Classical.byContradiction fun hne => ?_
        have hlt : q + 1 ≤ n := by omega
        have := Nat.mul_le_mul_left w hlt
        rw [Nat.mul_add] at this
        omega
      subst hqn
      simp [Nat.testBit_mod_two_pow, hr]

theorem testBit_elemN (x w i r : Nat) (hr : r < w) : (elemN x w i).testBit r = x.testBit (w * i + r) := by
  simp [elemN, Nat.testBit_mod_two_pow, hr, Nat.testBit_div_two_pow, Nat.add_comm]

theorem elemN_lt (x w i : Nat) : elemN x w i < 2 ^ w := Nat.mod_lt _ (Nat.two_pow_pos w)

theorem testBit_vElem (v : VReg) {w r : Nat} (i : Nat) (hr : r < w) : (vElem v w i).testBit r = v.getLsbD (w * i + r) := by
  rw [vElem, testBit_elemN _ _ _ _ hr, BitVec.testBit_toNat]

/-- Two numbers of w bits are equal when their w low bits are. -/
theorem eq_of_testBit_lt {x y w : Nat} (hx : x < 2 ^ w) (hy : y < 2 ^ w) (h : ∀ r, r < w → x.testBit r = y.testBit r) : x = y :=
  Nat.eq_of_testBit_eq fun r => by
    by_cases hr : r < w
    · exact h r hr
    · have hle := Nat.pow_le_pow_right (n := 2) (by omega) (Nat.le_of_not_lt hr)
      rw [Nat.testBit_lt_two_pow (Nat.lt_of_lt_of_le hx hle), Nat.testBit_lt_two_pow (Nat.lt_of_lt_of_le hy hle)]

theorem elem_bit_lt {w i r : Nat} (hi : i < 4096 / w) (hr : r < w) : w * i + r < 4096 :=
  calc w * i + r < w * i + w := Nat.add_lt_add_left hr _
    _ = w * (i + 1) := (Nat.mul_succ w i).symm
    _ ≤ w * (4096 / w) := Nat.mul_le_mul_left w hi
    _ ≤ 4096 := Nat.mul_div_le 4096 w

theorem getLsbD_vOfElems {w i r : Nat} (f : Nat → Nat) (hi : i < 4096 / w) (hr : r < w) :
    (vOfElems w f).getLsbD (w * i + r) = (f i).testBit r := by
  rw [vOfElems, getLsbD_ofNat_lt _ (elem_bit_lt hi hr), testBit_ofElemsN f hr _ _ hi]

/-! ### Writes of active elements -/

/-- A register's value after a vector write. -/
def VWrite.onto (x : VWrite) (v : VReg) : VReg := (v &&& ~~~x.mask) ||| (x.val &&& x.mask)

theorem Slot.vreg_landV_same (c : Slot) (x : VWrite) (h : x.reg < 32) : (c.landV x).vreg x.reg = x.onto (c.vreg x.reg) := by
  simp [Slot.landV, Slot.setVreg, Slot.vreg, VWrite.onto, h]

theorem Slot.vreg_landV_other (c : Slot) (x : VWrite) {q : Nat} (h : q ≠ x.reg) : (c.landV x).vreg q = c.vreg q := by
  simp [Slot.landV, Slot.setVreg, Slot.vreg, Ne.symm h]

/-- R168: an active element of the written register is the new one, another stands. -/
theorem vElem_onto_elemsWrite (v : VReg) (q : Nat) {w i : Nat} (act : Nat → Bool) (f : Nat → Nat) (hi : i < 4096 / w) :
    vElem ((elemsWrite q w act f).onto v) w i = if act i then f i % 2 ^ w else vElem v w i := by
  have hlt : (if act i then f i % 2 ^ w else vElem v w i) < 2 ^ w := by
    split
    · exact Nat.mod_lt _ (Nat.two_pow_pos w)
    · exact elemN_lt ..
  refine eq_of_testBit_lt (elemN_lt ..) hlt fun r hr => ?_
  have hp := elem_bit_lt hi hr
  have hmask := getLsbD_vOfElems (fun i => if act i then 2 ^ w - 1 else 0) hi hr
  have hval := getLsbD_vOfElems (fun i => if act i then f i else 0) hi hr
  rw [testBit_vElem _ _ hr, VWrite.onto, elemsWrite, BitVec.getLsbD_or, BitVec.getLsbD_and, BitVec.getLsbD_and, BitVec.getLsbD_not,
    hmask, hval]
  cases act i <;> simp [hp, hr, testBit_vElem, Nat.testBit_two_pow_sub_one, Nat.testBit_mod_two_pow]

/-- R166: the first n writes of a group land on its first n registers. -/
theorem vreg_groupFold (c : Slot) (r w : Nat) (act : Nat → Nat → Bool) (f : Nat → Nat → Nat) (n j : Nat) (hj : r + j < 32) :
    (((List.range n).map (fun k => elemsWrite (r + k) w (act k) (f k))).foldl Slot.landV c).vreg (r + j) =
      if j < n then (elemsWrite (r + j) w (act j) (f j)).onto (c.vreg (r + j)) else c.vreg (r + j) := by
  induction n with
  | zero => rfl
  | succ n ih =>
    rw [List.range_succ, List.map_append, List.foldl_append, List.map_singleton, List.foldl_cons, List.foldl_nil]
    by_cases hn : j = n
    · subst hn
      have := Slot.vreg_landV_same (((List.range j).map (fun k => elemsWrite (r + k) w (act k) (f k))).foldl Slot.landV c)
        (elemsWrite (r + j) w (act j) (f j)) hj
      rw [show (elemsWrite (r + j) w (act j) (f j)).reg = r + j from rfl, ih, if_neg (Nat.lt_irrefl j)] at this
      rw [this, if_pos (Nat.lt_succ_self j)]
    · rw [Slot.vreg_landV_other _ _ (by simpa [elemsWrite] using hn), ih]
      exact ite_congr (propext (by omega)) (fun _ => rfl) (fun _ => rfl)

/-- Settles O31: bit by bit of each element, and register by register of a group. -/
theorem vectorElementsAsWritten : Obligations.VectorElementsAsWritten := by
  intro c r w act f hr _
  refine ⟨fun i hi => ?_, fun q hq => c.vreg_landV_other _ hq, rfl, fun g i hg hgr hi => ?_⟩
  · have hsame := c.vreg_landV_same (elemsWrite r w act f) hr
    rw [show (elemsWrite r w act f).reg = r from rfl] at hsame
    rw [hsame]
    exact vElem_onto_elemsWrite _ _ act f hi
  · have hk : i % g < g := Nat.mod_lt _ hg
    have hq : i / g < 4096 / w := Nat.div_lt_of_lt_mul hi
    rw [Slot.groupElem, groupWrites, upTo, vreg_groupFold c r w _ _ g (i % g) (by omega), if_pos hk,
      vElem_onto_elemsWrite _ _ _ _ hq, Nat.div_add_mod']
    rfl

end Sys2Proof.Machine


/-! Predicates without .sos (R196, R203, Table 11-2; O36): the model's determinants written out, and PSEGX's code by its rows. -/

namespace Sys2Proof.Machine

theorem signOf_eq_sign (x : Int) : signOf x = Int.sign x := by
  unfold signOf
  split
  · next h => exact (Int.sign_eq_one_of_pos h).symm
  · split
    · next h => exact (Int.sign_eq_neg_one_of_neg h).symm
    · rw [show x = 0 by omega]; rfl

/-- R196, R201: without the tie-break a predicate is the sign of D, 0 when D is 0. -/
theorem predSign_none (p : Pred) (pts : List Point) : predSign p pts none = Int.sign (predDP p pts).1 := by
  unfold predSign
  dsimp only
  split
  · exact signOf_eq_sign _
  · next h => rw [Classical.not_not.1 h]; rfl

/-! ### Determinants written out -/

theorem detN_two (a b c d : Int) : detN 2 [[a, b], [c, d]] = a * d - b * c := by
  simp [detN, minorOf, upTo, List.range_succ]

theorem detN_three (x1 y1 z1 x2 y2 z2 x3 y3 z3 : Int) : detN 3 [[x1, y1, z1], [x2, y2, z2], [x3, y3, z3]] =
    x1 * (y2 * z3 - z2 * y3) - y1 * (x2 * z3 - z2 * x3) + z1 * (x2 * y3 - y2 * x3) := by
  rw [detN]
  simp [minorOf, upTo, List.range_succ, detN_two]

/-- The expansion along the first row. -/
theorem detN_four (x1 y1 z1 l1 x2 y2 z2 l2 x3 y3 z3 l3 x4 y4 z4 l4 : Int) :
    detN 4 [[x1, y1, z1, l1], [x2, y2, z2, l2], [x3, y3, z3, l3], [x4, y4, z4, l4]] =
      x1 * detN 3 [[y2, z2, l2], [y3, z3, l3], [y4, z4, l4]] - y1 * detN 3 [[x2, z2, l2], [x3, z3, l3], [x4, z4, l4]] +
        z1 * detN 3 [[x2, y2, l2], [x3, y3, l3], [x4, y4, l4]] - l1 * detN 3 [[x2, y2, z2], [x3, y3, z3], [x4, y4, z4]] := by
  rw [detN]
  simp [minorOf, upTo, List.range_succ]

theorem predSign_ori2 (ax ay bx by' cx cy : Int) : predSign .ori2 [[ax, ay], [bx, by'], [cx, cy]] none =
    Int.sign ((bx - ax) * (cy - ay) - (by' - ay) * (cx - ax)) := by
  rw [predSign_none]
  simp [predDP, predMatrix, minus, detN_two]

theorem predSign_ori3 (ax ay az bx by' bz cx cy cz : Int) : predSign .ori3 [[ax, ay, az], [bx, by', bz], [cx, cy, cz]] none =
    Int.sign (ax * (by' * cz - bz * cy) - ay * (bx * cz - bz * cx) + az * (bx * cy - by' * cx)) := by
  rw [predSign_none]
  simp [predDP, predMatrix, detN_three]

theorem int_sq_eq_mul (z : Int) : z ^ 2 = z * z := by
  rw [Int.pow_succ, Int.pow_succ, Int.pow_zero, Int.one_mul]

theorem predSign_incir (ax ay bx by' cx cy dx dy : Int) :
    predSign .incir [[ax, ay], [bx, by'], [cx, cy], [dx, dy]] none =
      Int.sign (detN 3 [[ax - dx, ay - dy, (ax - dx) ^ 2 + (ay - dy) ^ 2], [bx - dx, by' - dy, (bx - dx) ^ 2 + (by' - dy) ^ 2],
        [cx - dx, cy - dy, (cx - dx) ^ 2 + (cy - dy) ^ 2]]) := by
  rw [predSign_none]
  simp [predDP, predMatrix, minus, normSq, int_sq_eq_mul]

theorem predSign_insph (ax ay az bx by' bz cx cy cz dx dy dz ex ey ez : Int) :
    predSign .insph [[ax, ay, az], [bx, by', bz], [cx, cy, cz], [dx, dy, dz], [ex, ey, ez]] none =
      Int.sign (detN 4 [[ax - ex, ay - ey, az - ez, (ax - ex) ^ 2 + (ay - ey) ^ 2 + (az - ez) ^ 2],
        [bx - ex, by' - ey, bz - ez, (bx - ex) ^ 2 + (by' - ey) ^ 2 + (bz - ez) ^ 2],
        [cx - ex, cy - ey, cz - ez, (cx - ex) ^ 2 + (cy - ey) ^ 2 + (cz - ez) ^ 2],
        [dx - ex, dy - ey, dz - ez, (dx - ex) ^ 2 + (dy - ey) ^ 2 + (dz - ez) ^ 2]]) := by
  rw [predSign_none]
  simp [predDP, predMatrix, minus, normSq, int_sq_eq_mul]

/-! ### Segment crossing -/

/-- PSEGX without .sos: R203's code from the four orientations. -/
theorem predResult_segx (ax ay bx by' cx cy dx dy : Int) :
    predResult .segx [[ax, ay], [bx, by'], [cx, cy], [dx, dy]] none =
      segCode [[ax, ay], [bx, by'], [cx, cy], [dx, dy]]
        [predSign .ori2 [[ax, ay], [bx, by'], [cx, cy]] none, predSign .ori2 [[ax, ay], [bx, by'], [dx, dy]] none,
          predSign .ori2 [[cx, cy], [dx, dy], [ax, ay]] none, predSign .ori2 [[cx, cy], [dx, dy], [bx, by']] none] := rfl

theorem within_iff (v x y : Int) : within v x y = true ↔ min x y ≤ v ∧ v ≤ max x y := by
  simp only [within, Bool.and_eq_true, decide_eq_true_eq]

theorem inBox_iff (x y px py qx qy : Int) : inBox [x, y] [px, py] [qx, qy] = true ↔
    min px qx ≤ x ∧ x ≤ max px qx ∧ min py qy ≤ y ∧ y ≤ max py qy := by
  unfold inBox
  rw [Bool.and_eq_true, within_iff, within_iff]
  exact and_assoc

theorem overlap_iff (a b c d : Int) : overlap a b c d = true ↔ max (min a b) (min c d) ≤ min (max a b) (max c d) :=
  decide_eq_true_iff

/-- R203: the first row that applies. -/
theorem segCode_rows (ax ay bx by' cx cy dx dy o1 o2 o3 o4 : Int) :
    segCode [[ax, ay], [bx, by'], [cx, cy], [dx, dy]] [o1, o2, o3, o4] =
      if o1 * o2 < 0 ∧ o3 * o4 < 0 then 1
      else if o1 = 0 ∧ o2 = 0 ∧ o3 = 0 ∧ o4 = 0 ∧ overlap ax bx cx dx = true ∧ overlap ay by' cy dy = true then -1
      else if (o1 = 0 ∧ inBox [cx, cy] [ax, ay] [bx, by'] = true) ∨ (o2 = 0 ∧ inBox [dx, dy] [ax, ay] [bx, by'] = true) ∨
        (o3 = 0 ∧ inBox [ax, ay] [cx, cy] [dx, dy] = true) ∨ (o4 = 0 ∧ inBox [bx, by'] [cx, cy] [dx, dy] = true) then -1
      else 0 := rfl

theorem predResult_of_dp_ne_zero {p : Pred} {pts : List Point} (idx : List Nat) (hp : p ≠ .segx) (h : (predDP p pts).1 ≠ 0) :
    predResult p pts (some idx) = predResult p pts none := by
  cases p with
  | segx => exact absurd rfl hp
  | ori2 | ori3 | incir | insph => simp [predResult, predSign, h]

/-- Settles O36: D of each predicate is the determinant written out, and PSEGX's rows are those of R203. -/
theorem predicateSigns : Obligations.PredicateSigns := by
  refine ⟨predSign_ori2, predSign_ori3, fun ax ay bx by' cx cy dx dy => ?_, ?_, ?_, fun p pts idx => predResult_of_dp_ne_zero idx⟩
  · exact (predSign_incir ..).trans (congrArg Int.sign (detN_three ..))
  · intro ax ay az bx by' bz cx cy cz dx dy dz ex ey ez
    refine (predSign_insph ..).trans (congrArg Int.sign ?_)
    rw [detN_four]
    simp only [detN_three]
  · intro ax ay bx by' cx cy dx dy
    dsimp only
    rw [predResult_segx, segCode_rows]
    simp only [predSign_ori2, inBox_iff, overlap_iff]
    refine ⟨fun h => if_pos h, fun hc ht => ?_, fun hc ht => ?_⟩
    · rw [if_neg hc]
      obtain h | h := ht
      · exact if_pos h
      · exact ite_eq_left_iff.2 fun _ => if_pos h
    · rw [if_neg hc, if_neg fun h => ht (.inl h), if_neg fun h => ht (.inr h)]

end Sys2Proof.Machine


/-! The checks of an access (R207; O17), scalar loads and stores (R223, R224; O18, O19), and what is read after a write
(R233, R238; O20). -/

namespace Sys2Proof.Machine

/-! ### Checks -/

theorem resolve_of_not_canon (s : State) (c : Slot) {va : Word} (n : Nat) (acc : Acc) (h : 2 ^ 57 ≤ va.toNat) :
    resolve s c va n acc = .error (.canon, va) := if_pos h

theorem resolve_of_misaligned (s : State) (c : Slot) {va : Word} {n : Nat} (acc : Acc) (h : va.toNat < 2 ^ 57)
    (hn : va.toNat % n ≠ 0) : resolve s c va n acc = .error (.misalign, va) := by
  rw [resolve, if_neg (Nat.not_le.2 h), if_pos hn]

theorem resolve_of_aligned {s : State} {c : Slot} {x : Ctx} {va : Word} {n : Nat} (acc : Acc) (hx : s.ctxOf c = some x)
    (hr : c.ref = false) (h : va.toNat < 2 ^ 57) (hn : va.toNat % n = 0) : resolve s c va n acc = resolveCtx s x c va acc := by
  rw [resolve, if_neg (Nat.not_le.2 h), if_neg (Classical.not_not.2 hn)]
  simp [hr, hx]

theorem resolveCtx_core (s : State) (x : Ctx) (c : Slot) {va : Word} {acc : Acc} (h : va.toNat < 0x40000) (hf : acc ≠ .fetch) :
    resolveCtx s x c va acc = if va.toNat < coreBound x c then .ok (keyOf Space.core (shareUnit (coreOf c.phys) x.id) va.toNat)
      else .error (.bounds, va) := by
  simp [resolveCtx, h, hf]

theorem resolveCtx_hole (s : State) (x : Ctx) (c : Slot) {va : Word} (acc : Acc) (h : 0x40000 ≤ va.toNat) (h' : va.toNat < 0x100000) :
    resolveCtx s x c va acc = .error (inHole acc va) := by
  simp [resolveCtx, Nat.not_lt.2 h, h']

theorem resolveCtx_undeclared (s : State) (x : Ctx) (c : Slot) {va : Word} {acc : Acc} (h : 0x100000 ≤ va.toNat)
    (h' : va.toNat < 0x300000) (hf : acc ≠ .fetch) (hw : c.decl.windows ≤ (va.toNat - 0x100000) / 0x40000) :
    resolveCtx s x c va acc = .error (.regdecl, BitVec.ofNat 64 (0x100 + (va.toNat - 0x100000) / 0x40000)) := by
  simp [resolveCtx, show ¬ va.toNat < 0x40000 by omega, Nat.not_lt.2 h, h', hf, hw]

theorem inHole_perm {acc : Acc} (va : Word) (h : acc = .fe ∨ acc = .atomic) : inHole acc va = (.perm, va) := by
  obtain rfl | rfl := h <;> rfl

theorem inHole_bounds {acc : Acc} (va : Word) (hf : acc ≠ .fetch) (h : acc ≠ .fe) (h' : acc ≠ .atomic) :
    inHole acc va = (.bounds, va) := by
  cases acc with
  | fe | atomic | fetch => contradiction
  | _ => rfl

/-- Settles O17: the first check that fails answers, and an aligned canonical access is its context's. -/
theorem accessChecksInOrder : Obligations.AccessChecksInOrder := by
  refine fun s c va n acc => ⟨resolve_of_not_canon s c n acc, resolve_of_misaligned s c acc, fun x hx hr hn hf => ?_⟩
  have hctx (h : va.toNat < 0x300000) := resolve_of_aligned acc hx hr (show va.toNat < 2 ^ 57 by omega) hn
  refine ⟨fun h hb => ?_, fun h hb => ?_, fun h h' => ?_, fun h h' hw => ?_⟩
  · rw [hctx (by omega), resolveCtx_core s x c h hf, if_pos hb]
  · rw [hctx (by omega), resolveCtx_core s x c h hf, if_neg (Nat.not_lt.2 hb)]
  · rw [hctx (by omega), resolveCtx_hole s x c acc h h']
    exact ⟨fun hfe hat => by rw [inHole_bounds va hf hfe hat], fun hp => by rw [inHole_perm va hp]⟩
  · rw [hctx (by omega), resolveCtx_undeclared s x c h h' hf hw]

/-! ### Scalar loads -/

theorem exec_eq_load {i : Instr} {d a : Reg5} {imm : BitVec 12} {n : Nat} {signed : Bool} (h : ScalarLoad i d a imm n signed)
    (s : State) : exec i s = load s d a imm n signed := by
  cases h <;> rfl

theorem withDest_of_taken {s : State} {c : Slot} {d : Reg5} (k : Unit → Out) (h : destReason s c d = none) :
    withDest s c d k = k () := by
  simp [withDest, h]

theorem length_readCoreN (s : State) (core k n : Nat) : (s.readCoreN core k n).length = n := by
  induction n generalizing k with
  | zero => rfl
  | succ n ih => simp [State.readCoreN, ih]

theorem ofInt_sintN (x n : Nat) : BitVec.ofInt 64 (sintN x n) = (BitVec.ofNat n x).signExtend 64 := by
  have hint : sintN x n = (BitVec.ofNat n x).toInt := by
    simp only [sintN, BitVec.toInt_eq_toNat_cond, BitVec.toNat_ofNat]
  rw [hint, BitVec.signExtend]

/-- R223: the bytes' value, sign- or zero-extended. -/
theorem loadValue_eq_extended {n : Nat} (signed : Bool) {bs : List Byte} (h : bs.length = n) :
    loadValue signed bs = extended signed n bs := by
  subst h
  cases signed with
  | false => rfl
  | true => exact ofInt_sintN _ _

theorem readSlotN_of_ownCore {s : State} {c : Slot} {k : Nat} (n : Nat) (h : ownCore c k = true) :
    s.readSlotN c k n = s.readCoreN (coreOf c.phys) k n := by
  have hk : keySpace k ≠ Space.tile := by
    intro e
    simp [ownCore, e, Space.tile, Space.ref] at h
  simp [State.readSlotN, hk]

@[simp] theorem Slot.acquired_pc (s : State) (c : Slot) : (s.acquired c).pc = c.pc := by
  unfold State.acquired
  split
  · split <;> rfl
  · rfl

section Loads
variable {s : State} {d a : Reg5} {imm : BitVec 12} {n : Nat} {signed : Bool} {x : Word} {c : Slot}

/-- A load whose checks pass is served from its core's own scratchpad, or waits for its data. -/
theorem load_of_resolve_ok {k : Nat} (ha : s.cur.readReg a = some (x, c)) (hb : c.block = none) (hd : destReason s c d = none)
    (hk : resolve s c (x + imm.signExtend 64) n (.load n) = .ok k) :
    load s d a imm n signed = if ownCore c k && !s.loadStalls c.phys k n then loadDone s c d (x + imm.signExtend 64) k n signed
      else waitOn s c (.load d (x + imm.signExtend 64) n signed) := by
  rw [load, withSrc1_of_read _ ha, withDest_of_taken _ hd]
  simp only [hb, immWord, hk]

theorem load_of_resolve_error {cause : TrapCause} {tval : Word} (ha : s.cur.readReg a = some (x, c)) (hb : c.block = none)
    (hd : destReason s c d = none) (hk : resolve s c (x + imm.signExtend 64) n (.load n) = .error (cause, tval)) :
    load s d a imm n signed = trap s c cause tval := by
  rw [load, withSrc1_of_read _ ha, withDest_of_taken _ hd]
  simp only [hb, immWord, hk]

theorem loadDone_of_sound {va : Word} {k : Nat} (hown : ownCore c k = true) (he : s.errorAt k n = none) :
    loadDone s c d va k n signed = finish s (s.acquired c) d (extended signed n (s.readCoreN (coreOf c.phys) k n)) := by
  simp only [loadDone, he]
  rw [readSlotN_of_ownCore n hown, loadValue_eq_extended signed (length_readCoreN ..)]

theorem loadDone_of_error {va : Word} {k : Nat} {e : MemErr} (he : s.errorAt k n = some e) :
    loadDone s c d va k n signed = .next (fatalTrap s c .uncorr va c.ir e.place) := by
  simp only [loadDone, he]

end Loads

/-- Settles O18: the load's cases in their order, with its value written as `extended`. -/
theorem scalarLoadResults : Obligations.ScalarLoadResults := by
  intro i d a imm n signed s x c hi ha hb hd
  have hload := exec_eq_load hi s
  refine ⟨fun k hk => ⟨fun hown hst => ?_, fun hw => ?_⟩, fun cause tval hk => hload.trans (load_of_resolve_error ha hb hd hk)⟩
  · rw [load_of_resolve_ok ha hb hd hk, if_pos (by simp [hown, hst])] at hload
    refine ⟨fun he => ?_, fun e he => hload.trans (loadDone_of_error he)⟩
    rw [loadDone_of_sound hown he] at hload
    simpa [Slot.npc] using writes_of_exec_eq_finish hload
  · rw [load_of_resolve_ok ha hb hd hk, if_neg (by rcases hw with h | h <;> simp [h])] at hload
    exact hload

/-! ### Scalar stores -/

theorem exec_eq_store {i : Instr} {b a : Reg5} {imm : BitVec 12} {n : Nat} {rel : Option Scope} (h : ScalarStore i b a imm n rel)
    (s : State) : exec i s = store s b a imm n rel := by
  cases h <;> rfl

section Stores
variable {s : State} {b a : Reg5} {imm : BitVec 12} {n : Nat} {rel : Option Scope} {x v : Word} {c₁ c : Slot}

theorem store_of_resolve_ok {k : Nat} (ha : s.cur.readReg a = some (x, c₁)) (hv : c₁.readReg b = some (v, c)) (hb : c.block = none)
    (hk : resolve s c (x + imm.signExtend 64) n (.store n) = .ok k) :
    store s b a imm n rel = enterAll s c [cellsAt k (leBytes n v.toNat)] rel n s.seq 0 := by
  rw [store, withSrc2_of_reads _ ha hv]
  simp only [hb, immWord, hk]

theorem store_of_resolve_error {cause : TrapCause} {tval : Word} (ha : s.cur.readReg a = some (x, c₁))
    (hv : c₁.readReg b = some (v, c)) (hb : c.block = none)
    (hk : resolve s c (x + imm.signExtend 64) n (.store n) = .error (cause, tval)) :
    store s b a imm n rel = trap s c cause tval := by
  rw [store, withSrc2_of_reads _ ha hv]
  simp only [hb, immWord, hk]

end Stores

theorem Slot.raise_zero (c : Slot) : c.raise 0 = c := by
  simp [Slot.raise]

theorem releasedBy_eq_afterRelease (s : State) (c : Slot) (rel : Option Scope) : releasedBy s c rel = afterRelease s c rel := by
  cases rel <;> rfl

/-- R239: a release publishes tiles, and changes nothing else of the state. -/
theorem afterRelease_eq (s : State) (c : Slot) (rel : Option Scope) :
    ∃ units pubs, (afterRelease s c rel).1 = { s with matrix := units, pubs := pubs } := by
  cases rel with
  | none => exact ⟨s.matrix, s.pubs, rfl⟩
  | some sc =>
    simp only [afterRelease, State.publish]
    split
    iterate 2
      split
      · exact ⟨s.matrix, s.pubs, rfl⟩
      · exact ⟨_, _, rfl⟩
    exact ⟨s.matrix, s.pubs, rfl⟩

/-- What a release publishes does not depend on the writes in the store buffer. -/
theorem afterRelease_entered (s : State) (c : Slot) (rel : Option Scope) (es : List SbEntry) (mark : Nat) :
    (afterRelease { s with sbuf := es, seq := mark } c rel).1 = { (afterRelease s c rel).1 with sbuf := es, seq := mark } := by
  have hunit : ({ s with sbuf := es, seq := mark } : State).unitAt (clusOf c.phys) = s.unitAt (clusOf c.phys) := rfl
  cases rel with
  | none => rfl
  | some sc =>
    cases sc with
    | core | clus | die => rfl
    | dev | sys =>
      simp only [afterRelease, State.publish, hunit]
      cases s.unitAt (clusOf c.phys) with
      | none => rfl
      | some u =>
        by_cases hp : c.popTiles.isEmpty = true
        · simp only [if_pos hp]
        · simp only [if_neg hp]

/-- The writes that have entered, and those that wait. -/
theorem enterSome_one (s : State) (c : Slot) (cs : List Host.Cell) (rel : Option Scope) (n mark : Nat) :
    enterSome s c [cs] rel n mark = if s.sbCount (coreOf c.phys) < 32 then (s.enterStores c [cs] rel n mark, [])
      else (s.enterStores c [] rel n mark, [cs]) := by
  unfold enterSome
  dsimp only
  split
  · next h =>
    obtain ⟨m, hm⟩ : ∃ m, 32 - s.sbCount (coreOf c.phys) = m + 1 := ⟨31 - s.sbCount (coreOf c.phys), by omega⟩
    simp [hm]
  · next h =>
    rw [show 32 - s.sbCount (coreOf c.phys) = 0 by omega]; rfl

/-- The entry of the store buffer for a store's one write (R223, R235). -/
def storeEntry (s : State) (c : Slot) (rel : Option Scope) (n : Nat) (cs : List Host.Cell) : SbEntry :=
  { core := coreOf c.phys, slot := c.phys, seq := s.seq, rel := rel, unit := n, bounds := boundsAfter s c rel, cells := cs }

/-- R223: one write enters while the core's buffer has room for it. -/
theorem enterAll_one_of_room {s : State} {c : Slot} (cs : List Host.Cell) (rel : Option Scope) (n : Nat)
    (h : s.sbCount (coreOf c.phys) < 32) : enterAll s c [cs] rel n s.seq 0 =
      .next { (afterRelease s c rel).1 with
        cur := { (afterRelease s c rel).2.ready with pc := c.pc + 4 },
        sbuf := s.sbuf ++ [storeEntry s c rel n cs],
        seq := s.seq + 1 } := by
  simp only [enterAll, enterSome_one, if_pos h, releasedBy_eq_afterRelease, Slot.raise_zero]
  unfold State.enterStores
  rw [afterRelease_entered]
  cases rel <;> rfl

theorem enterAll_one_of_full {s : State} {c : Slot} (cs : List Host.Cell) (rel : Option Scope) (n : Nat)
    (h : 32 ≤ s.sbCount (coreOf c.phys)) :
    enterAll s c [cs] rel n s.seq 0 = .next { waiting s c (.store [cs] rel n s.seq 0) with seq := s.seq + 1 } := by
  simp only [enterAll, enterSome_one, if_neg (Nat.not_lt.2 h)]
  simp [State.enterStores, waitOn, waiting]

/-- Settles O19: the store's one write enters its core's buffer, or its thread waits with it. -/
theorem scalarStoreResults : Obligations.ScalarStoreResults := by
  intro i b a imm n rel s x v c₁ c hi ha hv hb
  have hstore := exec_eq_store hi s
  refine ⟨fun k hk => ?_, fun cause tval hk => hstore.trans (store_of_resolve_error ha hv hb hk)⟩
  rw [store_of_resolve_ok ha hv hb hk] at hstore
  exact ⟨fun h => hstore.trans (enterAll_one_of_room _ rel n h), fun h => ⟨_, hstore.trans (enterAll_one_of_full _ rel n h), rfl⟩⟩

/-! ### What is read after a write -/

theorem inMem_mono {k l : Nat} (hl : inMem l = true) (h : k ≤ l) : inMem k = true := by
  have hspace : keySpace k ≤ keySpace l := Nat.div_le_div_right h
  exact decide_eq_true (Nat.lt_of_le_of_lt hspace (of_decide_eq_true hl))

theorem find_cellsAt (k : Nat) (bs : List Byte) (l : Nat) :
    ((cellsAt k bs).find? (fun x => x.1 == l)).map Prod.snd =
      if k ≤ l ∧ l < k + bs.length then some (bs.getD (l - k) 0) else none := by
  induction bs generalizing k with
  | nil => simp [cellsAt]
  | cons b bs ih =>
    rw [cellsAt, List.find?_cons]
    by_cases h : k = l
    · subst h
      simp
    · rw [beq_eq_false_iff_ne.2 h]
      dsimp only
      rw [ih, List.length_cons]
      by_cases hin : k + 1 ≤ l ∧ l < k + 1 + bs.length
      · rw [if_pos hin, if_pos (by omega), show l - k = l - (k + 1) + 1 by omega, List.getD_cons_succ]
      · rw [if_neg hin, if_neg (by omega)]

theorem forwardByte_append (core k : Nat) (es : List SbEntry) (e : SbEntry) : forwardByte core k (es ++ [e]) =
    match (if e.core == core then (e.cells.find? (fun x => x.1 == k)).map (fun x => x.2) else none) with
    | some b => some b
    | none => forwardByte core k es := by
  induction es with
  | nil =>
    simp only [List.nil_append, forwardByte]
    cases (if e.core == core then (e.cells.find? (fun x => x.1 == k)).map (fun x => x.2) else none) <;> rfl
  | cons f es ih =>
    rw [List.cons_append, forwardByte, ih]
    cases (if e.core == core then (e.cells.find? (fun x => x.1 == k)).map (fun x => x.2) else none) <;> rfl

/-- R238: a core reads the bytes that its newest write holds, and another location as before. -/
theorem readCore_entered {s t : State} {e : SbEntry} {k : Nat} {bs : List Byte} (hbuf : t.sbuf = s.sbuf ++ [e])
    (hflight : t.flight = s.flight) (hmem : t.mem = s.mem) (hcells : e.cells = cellsAt k bs) {l : Nat} (hl : inMem l = true) :
    t.readCore e.core l = if k ≤ l ∧ l < k + bs.length then bs.getD (l - k) 0 else s.readCore e.core l := by
  have hhome : t.readHome l = s.readHome l := by simp [State.readHome, hl, hmem]
  have hfind : (e.cells.find? (fun x => x.1 == l)).map (fun x => x.2) = _ := hcells ▸ find_cellsAt k bs l
  simp only [State.readCore, forwards, hl, if_true, hbuf, forwardByte_append, beq_self_eq_true, hfind, hflight, hhome]
  by_cases hin : k ≤ l ∧ l < k + bs.length
  · simp only [if_pos hin]
  · simp only [if_neg hin]

theorem cellsAt_inMem {k : Nat} {bs : List Byte} (h : inMem (k + bs.length) = true) : ∀ x ∈ cellsAt k bs, inMem x.1 = true := by
  induction bs generalizing k with
  | nil => simp [cellsAt]
  | cons b bs ih =>
    rw [List.length_cons] at h
    exact List.forall_mem_cons.2 ⟨inMem_mono h (by omega), ih (by rwa [Nat.add_right_comm])⟩

/-- Memory after a run of bytes is written. -/
theorem readCell_writeCells_cellsAt {m : List Host.Cell} (k : Nat) (bs : List Byte) (hm : Memory.wf m = true) (l : Nat) :
    readCell (writeCells m (cellsAt k bs)) l = if k ≤ l ∧ l < k + bs.length then bs.getD (l - k) 0 else readCell m l := by
  induction bs generalizing k m with
  | nil => rw [if_neg (by simp)]; rfl
  | cons b bs ih =>
    have hw : Memory.wf (writeCell m k b) = true := Memory.wf_writeCells [(k, b)] hm
    have hrest : readCell (writeCells m (cellsAt k (b :: bs))) l = readCell (writeCells (writeCell m k b) (cellsAt (k + 1) bs)) l :=
      rfl
    rw [hrest, ih (k + 1) hw, List.length_cons]
    by_cases h : l = k
    · subst h
      rw [if_neg (by omega), if_pos (by omega), readCell_writeCell_same _ _ hm]
      simp
    · rw [readCell_writeCell_other _ h hm]
      by_cases hin : k + 1 ≤ l ∧ l < k + 1 + bs.length
      · rw [if_pos hin, if_pos (by omega), show l - k = l - (k + 1) + 1 by omega, List.getD_cons_succ]
      · rw [if_neg hin, if_neg (by omega)]

theorem land_cellsAt_mem {s : State} {k : Nat} {bs : List Byte} (hk : inMem k = true) (hend : inMem (k + bs.length) = true)
    (hkey : s.keyHeld k = true) : (s.land (cellsAt k bs)).mem = writeCells s.mem (cellsAt k bs) := by
  cases bs with
  | nil => rfl
  | cons b bs =>
    have hall := cellsAt_inMem hend
    rw [cellsAt] at hall ⊢
    rw [State.land_memory hkey hk, List.filter_eq_self.2 hall]

/-- Settles O20: the newest entry of the buffer answers first, and a landed run of bytes is read back. -/
theorem storedBytesAreRead : Obligations.StoredBytesAreRead := by
  refine ⟨fun i b a imm n rel s t x v c₁ c k hi ha hv hb hk hin hend hroom ht => ?_, fun s k bs hm hk hend hkey => ?_⟩
  · obtain ⟨hgo, -⟩ := (scalarStoreResults i b a imm n rel s x v c₁ c hi ha hv hb).1 k hk
    have e := Host.Outcome.next.inj ((hgo hroom).symm.trans ht)
    have hbuf : t.sbuf = s.sbuf ++ [storeEntry s c rel n (cellsAt k (leBytes n v.toNat))] := by rw [← e]; rfl
    obtain ⟨units, pubs, hrel⟩ := afterRelease_eq s c rel
    have hflight : t.flight = s.flight := by rw [← e, hrel]
    have hmem : t.mem = s.mem := by rw [← e, hrel]
    have hread {l : Nat} (hl : inMem l = true) : t.readCore (coreOf c.phys) l =
        if k ≤ l ∧ l < k + n then (leBytes n v.toNat).getD (l - k) 0 else s.readCore (coreOf c.phys) l := by
      have := readCore_entered hbuf hflight hmem rfl hl
      rwa [length_leBytes] at this
    refine ⟨fun j hj => ?_, fun l hl hml => ?_⟩
    · rw [hread (inMem_mono hend (by omega)), if_pos (by omega), Nat.add_sub_cancel_left, getD_leBytes _ _ _ _ hj]
    · rw [hread hml, if_neg (by omega)]
  · rw [land_cellsAt_mem hk hend hkey]
    refine ⟨fun j hj => ?_, fun l hl => ?_, State.land_wf _ hm⟩
    · rw [readCell_writeCells_cellsAt k bs hm, if_pos (by omega), Nat.add_sub_cancel_left]
    · rw [readCell_writeCells_cellsAt k bs hm, if_neg (by omega)]

end Sys2Proof.Machine


/-! A step's turn (R107, R119; O6), and branches and jumps (R55, R116, R117; O12). -/

namespace Sys2Proof.Machine

/-! ### A turn -/

theorem step_agenda {s : State} {i : Instr} {rest : List Instr} (h : s.agenda = i :: rest) :
    step s = exec i { s with agenda := rest } := by
  unfold step stepBody
  rw [h]

/-- With no event on the agenda, and none that the model's own order finds due, a step is a turn. -/
theorem step_turn {s : State} (h : s.agenda = []) (hd : s.auto = false ∨ due s = none) : step s = turn s := by
  have hnone : (if s.auto then due s else none) = none := by
    obtain ha | hd := hd
    · rw [ha]; rfl
    · rw [hd, ite_self]
  unfold step stepBody
  rw [h]
  dsimp only
  rw [hnone]

theorem turn_of_next {s t : State} {cls : TurnClass} (hth : throttled s = false) (h : runTurn s = (.next t, cls)) :
    turn s = .next (advance (debugNote s.cur cls (account s.cur cls t))) := by
  unfold turn
  rw [hth, h]
  rfl

/-- A ready slot between instructions issues at its turn. -/
theorem runTurn_ready {s : State} (hp : s.pastStop s.cur = false) (hr : s.cur.status = .ready) (hb : s.cur.busy = 0) :
    runTurn s = fetchClass (issueOr s (issue s)) := by
  unfold runTurn
  simp [hp, hr, hb]

theorem issueOr_of_energy_left {s : State} (go : Out)
    (hx : ∀ x, s.ctxOf s.cur = some x → x.overrun = false ∨ ∃ e, x.err = some e ∧ e.stopped = true)
    (he : s.cur.energyDue = false) : issueOr s go = go := by
  have hany : (s.ctxOf s.cur).any (fun x => x.overrun && x.err.all (fun e => !e.stopped)) = false := by
    rw [Option.any_eq_false]
    intro x h
    rcases hx x h with ho | ⟨e, herr, hst⟩
    · rw [ho, Bool.false_and]
    · rw [herr]; simp [hst]
  unfold issueOr
  split
  · next h => exact absurd (hany.symm.trans h) Bool.false_ne_true
  · split
    · next h => exact absurd (he.symm.trans h) Bool.false_ne_true
    · rfl

theorem issue_of_word {s s' : State} {w : IWord} {i : Instr} (hf : fetch s = .word w s') (hd : decode s'.cur.ref w = .ok i) :
    issue s = exec i { s' with cur := { s'.cur with ir := w } } := by
  unfold issue
  rw [hf]
  unfold runWord
  dsimp only
  rw [hd]

/-- Settles O6: the agenda goes first; else the turn fetches, decodes and runs. -/
theorem stepRunsTheDecodedInstruction : Obligations.StepRunsTheDecodedInstruction := by
  refine ⟨fun s i rest h => step_agenda h, ?_⟩
  intro s s' t w i hag hdue hth hpast hctx hst hbusy hen hf hdec hex hw
  have hissue : issueOr s (issue s) = .next t := by
    rw [issueOr_of_energy_left _ hctx hen, issue_of_word hf hdec, hex]
  have hrun : runTurn s = (.next t, .issued) := by
    rw [runTurn_ready hpast hst hbusy, hissue]
    simp [fetchClass, hw]
  rw [step_turn hag hdue, turn_of_next hth hrun]

/-! ### Branches and jumps -/

/-- A compare-branch is the model's branch with a test of its table's condition. -/
theorem exec_eq_branch {i : Instr} {a b : Reg5} {off : BitVec 13} {p : Word → Word → Prop} (h : Branch i a b off p) (s : State) :
    ∃ f : Word → Word → Bool, exec i s = branch s a b off f ∧ ∀ x y, f x y = true ↔ p x y := by
  cases h with
  | beq => exact ⟨_, rfl, fun x y => beq_iff_eq⟩
  | bne => exact ⟨_, rfl, fun x y => bne_iff_ne⟩
  | blt => exact ⟨_, rfl, fun x y => BitVec.slt_iff_toInt_lt⟩
  | bge => exact ⟨_, rfl, fun x y => by rw [Bool.not_eq_true', ← Bool.not_eq_true, BitVec.slt_iff_toInt_lt, Int.not_lt]⟩
  | bltu => exact ⟨_, rfl, fun x y => BitVec.ult_iff_toNat_lt⟩
  | bgeu => exact ⟨_, rfl, fun x y => by rw [Bool.not_eq_true', ← Bool.not_eq_true, BitVec.ult_iff_toNat_lt, Nat.not_lt]⟩

theorem branch_of_reads {s : State} {a b : Reg5} {x y : Word} {c₁ c₂ : Slot} (off : BitVec 13) (f : Word → Word → Bool)
    (ha : s.cur.readReg a = some (x, c₁)) (hb : c₁.readReg b = some (y, c₂)) : branch s a b off f =
      .next { s with cur := { c₂ with pc := if f x y then branchTarget c₂.pc off else c₂.npc } } :=
  withSrc2_of_reads _ ha hb

/-- An instruction that ends by `finishAt` writes its result and goes on where it says. -/
theorem writes_of_exec_eq_finishAt {i : Instr} {s : State} {c : Slot} {d : Reg5} {w npc : Word}
    (h : exec i s = finishAt s c d w npc) : Writes i s c d w npc :=
  ⟨fun hd => h.trans (finishAt_reg s c w npc hd), fun hd => h.trans (if_neg (Nat.not_lt.2 hd))⟩

theorem exec_jalr_of_read {s : State} {a : Reg5} {x : Word} {c : Slot} (d : Reg5) (imm : BitVec 12)
    (ha : s.cur.readReg a = some (x, c)) : exec (.jalr d a imm) s =
      if (x + imm.signExtend 64).toNat % 4 ≠ 0 then trap s c .misalign (x + imm.signExtend 64)
      else finishAt s c d c.npc (x + imm.signExtend 64) := withSrc1_of_read _ ha

/-- Settles O12: the branch's test is its table's condition; a jump is its link with another next pc. -/
theorem branchesAndJumpsGo : Obligations.BranchesAndJumpsGo := by
  refine ⟨fun i a b off p s x y c₁ c₂ hi ha hb => ?_, fun s d a off imm x c => ⟨writes_of_exec_eq_finishAt rfl, fun ha => ?_⟩⟩
  · obtain ⟨f, hex, hf⟩ := exec_eq_branch hi s
    rw [hex, branch_of_reads off f ha hb]
    exact ⟨fun hp => by rw [if_pos ((hf x y).2 hp)]; rfl, fun hp => by rw [if_neg (mt (hf x y).1 hp)]; rfl⟩
  · have hex := exec_jalr_of_read d imm ha
    exact ⟨fun h => writes_of_exec_eq_finishAt (hex.trans (if_neg (Classical.not_not.2 h))), fun h => hex.trans (if_pos h)⟩

end Sys2Proof.Machine


/-! Control registers (R85, R104, R107, R219, Tables 5-3, 5-6, 6-3, 6-4, 12-3; O13). -/

namespace Sys2Proof.Machine

/-! ### Writes -/

@[simp] theorem Slot.writeCsr_pc (c : Slot) (i : Nat) (w : Word) : (c.writeCsr i w).pc = c.pc := by
  unfold Slot.writeCsr
  split <;> rfl

theorem csrRefused_window (w : BitVec 3) (x : Word) : csrRefused (0x050 + w.toNat) x = !winOk x := by
  have hw := w.isLt
  have h1 : (0x050 + w.toNat == 1) = false := beq_eq_false_iff_ne.2 (by omega)
  simp [csrRefused, h1, show 80 + w.toNat ≤ 87 by omega]

theorem csrWrite_eq (s : State) (a : Reg5) {csr : BitVec 12} (decl : Bool) (f : Word → Word → Word) (hn : csr.toNat ≤ 0x057) :
    csrWrite s a csr decl f =
      if decl = true ∧ 0x050 ≤ csr.toNat ∧ s.cur.decl.windows ≤ csr.toNat - 0x050 then
        trap s s.cur .regdecl (BitVec.ofNat 64 (0x100 + (csr.toNat - 0x050)))
      else withSrc1 s a (fun x c => if csrRefused csr.toNat (f (csrValue s c csr.toNat) x) then trap s c .illegal 3
        else done s (c.writeCsr csr.toNat (f (csrValue s c csr.toNat) x))) :=
  ite_congr (propext (by simp [hn, and_assoc])) (fun _ => rfl) (fun _ => rfl)

/-- A control-register write: the check of the declaration, then the source, then the check of the value (R85, R104, R107). -/
theorem exec_csrWrite_eq {i : Instr} {a : Reg5} {n : Nat} {f : Word → Word → Word} {decl : Bool} (h : CsrWrite i a n f decl)
    (hn : n ≤ 0x057) (s : State) : exec i s =
      if decl = true ∧ 0x050 ≤ n ∧ s.cur.decl.windows ≤ n - 0x050 then
        trap s s.cur .regdecl (BitVec.ofNat 64 (0x100 + (n - 0x050)))
      else withSrc1 s a (fun x c => if csrRefused n (f (csrValue s c n) x) then trap s c .illegal 3
        else done s (c.writeCsr n (f (csrValue s c n) x))) := by
  cases h with
  | csrw => exact csrWrite_eq s a true (fun _ x => x) hn
  | csrs => exact csrWrite_eq s a false (fun old x => old ||| x) hn
  | csrc => exact csrWrite_eq s a false (fun old x => old &&& ~~~x) hn
  | winset _ w =>
    simp only [csrRefused_window, true_and, Nat.le_add_right, Nat.add_sub_cancel_left]
    refine ite_congr rfl (fun _ => rfl) (fun _ => congrArg (withSrc1 s a) (funext fun x => funext fun c => ?_))
    cases winOk x <;> rfl

theorem csrRefused_fmode (w : Word) : csrRefused 0x001 w = true ↔ w.toNat % 8 = 5 ∨ w.toNat % 8 = 6 ∨ w.toNat % 8 = 7 := by
  simp [csrRefused, bits]
  omega

theorem winOk_iff (w : Word) : winOk w = true ↔
    (w.toNat % 32 ≤ 13 ∨ w.toNat % 32 = 16 ∨ w.toNat % 32 = 17 ∨ w.toNat % 32 = 18 ∨ w.toNat % 32 = 31) ∧
      w.toNat / 2 ^ 32 % 4 ≤ 1 := by
  have hfmt : bits w 4 0 = w.toNat % 32 := by simp [bits]
  have hlay : bits w 33 32 = w.toNat / 2 ^ 32 % 4 := rfl
  unfold winOk
  rw [hfmt, hlay, Bool.and_eq_true, decide_eq_true_iff]
  simp only [Bool.or_eq_true, beq_iff_eq, decide_eq_true_eq, or_assoc]

theorem csrRefused_win {n : Nat} (w : Word) (h : 0x050 ≤ n) (h' : n ≤ 0x057) : csrRefused n w = true ↔
    w.toNat % 32 = 14 ∨ w.toNat % 32 = 15 ∨ (19 ≤ w.toNat % 32 ∧ w.toNat % 32 ≤ 30) ∨ 2 ≤ w.toNat / 2 ^ 32 % 4 := by
  have h1 : n ≠ 1 := by omega
  have hor : csrRefused n w = true ↔ ¬ winOk w = true := by simp [csrRefused, h, h', h1]
  rw [hor, winOk_iff]
  omega

theorem csrRefused_other {n : Nat} (w : Word) (h1 : n ≠ 0x001) (h : n < 0x050 ∨ 0x057 < n) : csrRefused n w = false := by
  simp [csrRefused, h1]
  omega

/-! ### Values read back -/

theorem lowBits_mod (w : Word) (m : Nat) : bits w (m - 1) 0 % 2 ^ m = w.toNat % 2 ^ m := by
  rw [bits, Nat.pow_zero, Nat.div_one, Nat.mod_mod_of_dvd _ (Nat.pow_dvd_pow 2 (by omega))]

theorem setWidth_lowBits (w : Word) {m : Nat} (hm : m ≤ 64) :
    (BitVec.ofNat m (bits w (m - 1) 0)).setWidth 64 = w &&& BitVec.ofNat 64 (2 ^ m - 1) := by
  have hpos := Nat.two_pow_pos m
  have hp : 2 ^ m ≤ 2 ^ 64 := Nat.pow_le_pow_right (by decide) hm
  have hlt : w.toNat % 2 ^ m < 2 ^ 64 := Nat.lt_of_lt_of_le (Nat.mod_lt _ hpos) hp
  apply BitVec.eq_of_toNat_eq
  rw [BitVec.toNat_and, BitVec.toNat_ofNat, Nat.mod_eq_of_lt (show 2 ^ m - 1 < 2 ^ 64 by omega), Nat.and_two_pow_sub_one_eq_mod,
    BitVec.toNat_setWidth, BitVec.toNat_ofNat, lowBits_mod, Nat.mod_eq_of_lt hlt]

theorem and_two_pow_eq (n i : Nat) : n &&& 2 ^ i = 2 ^ i * (n.testBit i).toNat := by
  refine Nat.eq_of_testBit_eq fun j => ?_
  rw [Nat.testBit_and, Nat.testBit_two_pow]
  by_cases hj : i = j
  · subst hj
    cases n.testBit i <;> simp
  · cases n.testBit i
    · simp [hj]
    · rw [Bool.toNat_true, Nat.mul_one, Nat.testBit_two_pow, decide_eq_false hj, Bool.and_false]

/-- CNTDENY's bit and event stand in different bits (Table 6-4). -/
theorem denyBits_eq (w : Word) (e : BitVec 8) :
    BitVec.ofNat 64 ((if (bits w 8 8 == 1) = true then 256 else 0) + e.toNat) = (w &&& 0x100) ||| e.setWidth 64 := by
  have he := e.isLt
  have hbit : bits w 8 8 = (w.toNat.testBit 8).toNat := (Nat.toNat_testBit ..).symm
  have hand : w.toNat &&& 256 = 2 ^ 8 * (w.toNat.testBit 8).toNat := and_two_pow_eq w.toNat 8
  apply BitVec.eq_of_toNat_eq
  rw [hbit, BitVec.toNat_or, BitVec.toNat_and, show (256 : Word).toNat = 256 from rfl, hand, BitVec.toNat_setWidth,
    Nat.mod_eq_of_lt (show e.toNat < 2 ^ 64 by omega), ← Nat.two_pow_add_eq_or_of_lt he, BitVec.toNat_ofNat]
  cases w.toNat.testBit 8 <;> simp <;> omega

theorem csrValue_halo (s : State) (c : Slot) {n : Nat} (h : n < 4) :
    csrValue s c (0x040 + n) = ((c.halo[n]?).getD 0).setWidth 64 := by
  obtain rfl | rfl | rfl | rfl : n = 0 ∨ n = 1 ∨ n = 2 ∨ n = 3 := by omega
  all_goals rfl

theorem writeCsr_halo (c : Slot) (w : Word) {n : Nat} (h : n < 4) : c.writeCsr (0x040 + n) w =
    { c with halo := c.halo.setIfInBounds n (BitVec.ofNat 32 (bits w 31 0)) } := by
  obtain rfl | rfl | rfl | rfl : n = 0 ∨ n = 1 ∨ n = 2 ∨ n = 3 := by omega
  all_goals rfl

theorem csrValue_win (s : State) (c : Slot) {n : Nat} (h : n < 8) : csrValue s c (0x050 + n) = c.win n := by
  obtain rfl | rfl | rfl | rfl | rfl | rfl | rfl | rfl : n = 0 ∨ n = 1 ∨ n = 2 ∨ n = 3 ∨ n = 4 ∨ n = 5 ∨ n = 6 ∨ n = 7 := by omega
  all_goals rfl

theorem writeCsr_win (c : Slot) (w : Word) {n : Nat} (h : n < 8) : c.writeCsr (0x050 + n) w =
    { c with wins := c.wins.setIfInBounds n (w &&& winMask) } := by
  obtain rfl | rfl | rfl | rfl | rfl | rfl | rfl | rfl : n = 0 ∨ n = 1 ∨ n = 2 ∨ n = 3 ∨ n = 4 ∨ n = 5 ∨ n = 6 ∨ n = 7 := by omega
  all_goals rfl

theorem listed_le {n : Nat} (h : n ∈ [0x001, 0x002, 0x010, 0x011, 0x012, 0x013, 0x014, 0x034, 0x040, 0x041, 0x042, 0x043, 0x050,
    0x051, 0x052, 0x053, 0x054, 0x055, 0x056, 0x057]) : n ≤ 0x057 := by
  simp only [List.mem_cons, List.not_mem_nil, or_false] at h
  omega

/-- Settles O13: the writes in their order of checks, the refused values bit by bit, and each register read back. -/
theorem controlRegisterWrites : Obligations.ControlRegisterWrites := by
  refine ⟨fun i a n f decl s hi hn => ?_, fun n w => ⟨csrRefused_fmode w, csrRefused_win w, csrRefused_other w⟩, fun s c w => ?_⟩
  · have hex := exec_csrWrite_eq hi (listed_le hn) s
    refine ⟨fun h => hex.trans (if_pos h), fun x c ha hd => ?_⟩
    rw [if_neg hd, withSrc1_of_read _ ha] at hex
    exact ⟨fun hr => by rw [hex, hr]; simp [done, Slot.goto, Slot.npc], fun hr => by rw [hex, hr]; rfl⟩
  · refine ⟨setWidth_lowBits w (m := 3) (by decide), setWidth_lowBits w (m := 5) (by decide), setWidth_lowBits w (m := 8) (by decide), rfl,
      setWidth_lowBits w (m := 32) (by decide), rfl, rfl, denyBits_eq w c.denyEv, fun n h => ?_, fun n h => ?_⟩
    · rw [csrValue_halo _ _ h, writeCsr_halo _ _ h]
      simpa [h] using setWidth_lowBits w (m := 32) (by decide)
    · rw [csrValue_win _ _ h, writeCsr_win _ _ h]
      simp [Slot.win, h, winMask]

end Sys2Proof.Machine


/-! TRAP, UCALL, BRK and ERET (R152, R153, R155; O16). -/

namespace Sys2Proof.Machine

/-! ### A trap that shows a value of its own -/

theorem trapShowing_eq_handled {s : State} {c : Slot} {cause : TrapCause} (tval value : Word) (hp : c.phys = s.cur.phys)
    (hr : c.ref = false) (hf : trapIsFatal c cause = false) (hb : c.block = none) :
    trapShowing s c cause tval value = .next { s with cur := handled c cause tval c.ir false } := by
  unfold trapShowing
  rw [hb]
  exact congrArg _ (takeTrap_eq_handled tval value c.ir false hp hr hf)

/-- Each of them is a trap of its cause and TVAL, whatever a record would show. -/
theorem exec_eq_trapShowing_of_raises {i : Instr} {s : State} {c : Slot} {cause : TrapCause} {tval : Word}
    (h : Raises i s c cause tval) : ∃ value, exec i s = trapShowing s c cause tval value := by
  cases h with
  | trap a code _ _ _ _ hcode hu ha =>
    refine ⟨0, ?_⟩
    change execTrap a code s = _
    unfold execTrap
    rw [hcode]
    split
    · next h => cases h
    · next h => exact absurd (Option.some.inj h) hu
    · next k _ h => cases h; exact withSrc1_of_read _ ha
  | ucall => exact ⟨_, rfl⟩
  | brk => exact ⟨_, rfl⟩

theorem raises_cause_ne_uncorr {i : Instr} {s : State} {c : Slot} {cause : TrapCause} {tval : Word}
    (h : Raises i s c cause tval) : cause ≠ .uncorr := by
  cases h with
  | trap _ _ _ _ _ _ _ hu _ => exact hu
  | ucall | brk => decide

/-! ### ERET -/

theorem eretBlock_none {c : Slot} (h : c.mig = false ∨ ∀ p b, c.resumeAt = some (p, b) → p ≠ c.tepc) : c.eretBlock = none := by
  unfold Slot.eretBlock
  split
  · next p b hr =>
    refine if_neg ?_
    obtain hm | hp := h
    · simp [hm]
    · simp [hp p b hr]
  · rfl

theorem eretBlock_some {c : Slot} {b : Block} (hm : c.mig = true) (hr : c.resumeAt = some (c.tepc, b)) : c.eretBlock = some b := by
  simp [Slot.eretBlock, hr, hm]

/-! ### Parts of a location -/

theorem keyOff_keyOf (sp u : Nat) {off : Nat} (h : off < 2 ^ 64) : keyOff (keyOf sp u off) = off := by
  unfold keyOff keyOf
  rw [Nat.mul_add_mod_self_right, Nat.mod_eq_of_lt h]

theorem devKey_off {id off : Nat} {va : Word} (h : va.toNat = 2 ^ 48 + off) : keyOff (devKey id va) = off := by
  have hva := va.isLt
  rw [devKey, keyOff_keyOf _ _ (by omega), h]
  omega

theorem resolve_dev {s : State} {c : Slot} {x : Ctx} {va : Word} {off : Nat} (acc : Acc) (hx : s.ctxOf c = some x)
    (hr : c.ref = false) (hva : va.toNat = 2 ^ 48 + off) (h : va.toNat < 2 ^ 56) :
    resolve s c va 1 acc = resolveDev x va off acc := by
  have hoff : va.toNat - 0x1000000000000 = off := by omega
  unfold resolve
  rw [if_neg (by omega), if_neg (by omega), hr, hx]
  simp only [resolveCtx, Bool.false_eq_true, if_false]
  rw [if_neg (by omega), if_neg (by omega), if_neg (by omega), if_neg (by omega), if_neg (by omega), if_neg (by omega),
    if_neg (by omega), if_neg (by omega), if_pos (by omega), hoff]

/-! ### What a note of an access leaves -/

@[simp] theorem State.request_cur (s : State) (x : Ctx) (k n : Nat) (w : Bool) : (s.request x k n w).cur = s.cur := by
  unfold State.request
  split
  · rfl
  · split <;> rfl

@[simp] theorem State.noteAccess_cur (s : State) (id k n : Nat) (w : Bool) : (s.noteAccess id k n w).cur = s.cur := by
  unfold State.noteAccess
  split
  · rfl
  · dsimp only
    repeat' split
    all_goals simp

@[simp] theorem State.noteAtomic_cur (s : State) (id k n : Nat) : (s.noteAtomic id k n).cur = s.cur := by
  unfold State.noteAtomic
  split <;> simp

/-! ### A channel core takes a block -/

/-- The slot of a thread whose block a channel core has taken (R264). -/
def Slot.inBlock (c : Slot) (b : Block) (pc : Word) : Slot := { c with wait := none, status := .waitMem, pc := pc, block := some b }

/-- What a channel core waits for before it takes a block of a slot at a location (R238, R260, R264). -/
structure BlockReady (s : State) (slot k cc : Nat) : Prop where
  fence : s.earlierPending slot (s.seq + 1) = false
  slice : s.sliceHeld slot k = false
  writes : s.writePending (coreOf slot) (k / 256 * 256) 256 = false
  early : s.earlyHeld (coreOf slot) (k / 256 * 256) 256 = false
  room : s.blocksAt cc < 8
  page : s.tlbHit k = true

theorem withPages_of_hits {s : State} {ks : List Nat} (event : String) (k : Unit → Out) (h : ∀ q ∈ ks, s.tlbHit q = true) :
    withPages s ks event k = k () := by
  have hboth : ∀ q ∈ ks, s.tlbHas q = true ∧ s.keyHeld q = true := fun q hq => by
    simpa [State.tlbHit] using h q hq
  have hpages : ks.any (fun q => !s.tlbHas q) = false := List.any_eq_false.2 fun q hq => by simp [(hboth q hq).1]
  have hkeys : ks.any (fun q => !s.keyHeld q) = false := List.any_eq_false.2 fun q hq => by simp [(hboth q hq).2]
  unfold withPages
  rw [hpages, hkeys]
  rfl

theorem acceptBlock_of_ready {s : State} {x : Ctx} {k : Nat} (b : Block) (pc : Word) (hst : s.cur.status ≠ .stopped)
    (h : BlockReady s s.cur.phys k (x.channelCore (keyOff k))) : ∃ t, acceptBlock s s.cur x k b pc = .next t ∧
      t.cur = s.cur.inBlock b pc ∧ t.mem = s.mem := by
  refine ⟨(s.noteAtomic x.id k 1).setSlot (s.cur.inBlock b pc), ?_, ?_, ?_⟩
  · unfold acceptBlock
    rw [if_neg (by simp [h.fence, h.slice, h.writes, h.early, Nat.not_le.2 h.room, hst]),
      withPages_of_hits _ _ (by simpa using h.page)]
    rfl
  · rw [State.setSlot_cur (by rw [State.noteAtomic_cur]; rfl)]
  · simp

section Replace
variable {s : State} {c : Slot} (units : List MUnit) (pubs : Nat)

/-- What another slot holds does not depend on the current slot's record. -/
theorem sliceHeld_replace (k : Nat) (hp : c.phys = s.cur.phys) :
    State.sliceHeld { s with cur := c, matrix := units, pubs := pubs } c.phys k = s.sliceHeld c.phys k := by
  simp only [State.sliceHeld, State.allSlots, List.any_filter, List.any_cons, hp, bne_self_eq_false, Bool.false_and, Bool.and_false,
    Bool.false_or]

theorem blocksAt_replace (cc : Nat) (ho : c.owner = s.cur.owner) (hsome : c.owner.isSome = true) (hb : c.block = s.cur.block) :
    State.blocksAt { s with cur := c, matrix := units, pubs := pubs } cc = s.blocksAt cc := by
  have hocc : Slot.occupied c = true := by simp [Slot.occupied, hsome]
  have hocc' : Slot.occupied s.cur = true := by simp [Slot.occupied, ← ho, hsome]
  have hctx (d : Slot) : State.ctxOf { s with cur := c, matrix := units, pubs := pubs } d = s.ctxOf d := rfl
  have hown : s.ctxOf c = s.ctxOf s.cur := by unfold State.ctxOf; rw [ho]
  simp only [State.blocksAt, State.allSlots, List.filter_cons, hocc, hocc', if_true, hctx, hb, hown]
  split
  · split <;> rfl
  · rfl

/-- Another record of the current slot, of the same number and context and in the same block, changes nothing that a block
waits for. -/
theorem BlockReady.replace {k cc : Nat} (h : BlockReady s s.cur.phys k cc) (hp : c.phys = s.cur.phys)
    (ho : c.owner = s.cur.owner) (hsome : c.owner.isSome = true) (hb : c.block = s.cur.block) :
    BlockReady { s with cur := c, matrix := units, pubs := pubs } c.phys k cc where
  fence := hp ▸ h.fence
  slice := (sliceHeld_replace units pubs k hp).trans (hp ▸ h.slice)
  writes := hp ▸ h.writes
  early := hp ▸ h.early
  room := (blocksAt_replace units pubs cc ho hsome hb).symm ▸ h.room
  page := h.page

end Replace

theorem isSome_owner_of_ctxOf {s : State} {c : Slot} {x : Ctx} (h : s.ctxOf c = some x) : c.owner.isSome = true := by
  unfold State.ctxOf at h
  split at h
  · next ho => rw [ho]; rfl
  · cases h

/-- The channel core takes the rest of the block that an ERET goes back into (R155). -/
theorem exec_migrBlockAccept_remigr {s : State} {b : Block} {x : Ctx} {k : Nat} (hw : s.cur.wait = some (.remigr b))
    (hx : s.ctxOf s.cur = some x) (hk : resolve s s.cur b.slice 1 (.load 1) = .ok k) :
    exec (.migrBlockAccept s.cur.phys) s = acceptBlock s s.cur x k b s.cur.pc := by
  change execMigrBlockAccept s.cur.phys s = _
  unfold execMigrBlockAccept
  simp only [State.slotAt_cur, hw, hx, hk]

/-- Settles O16: each instruction is its trap, or ERET's return; a block's ERET goes on as its channel core takes it. -/
theorem trapInstructionsTakeTheirTrap : Obligations.TrapInstructionsTakeTheirTrap := by
  refine ⟨fun i s c cause tval hi hp hb hr ht hinh => ?_, fun s h => ?_, ?_⟩
  · obtain ⟨value, hex⟩ := exec_eq_trapShowing_of_raises hi
    have hf := trapIsFatal_eq_false ht hinh (raises_cause_ne_uncorr hi)
    exact ⟨_, hex.trans (trapShowing_eq_handled tval value hp hr hf hb), rfl, rfl, rfl, rfl, rfl, rfl, rfl, rfl, rfl⟩
  · change execEret s = _
    unfold execEret
    rw [eretBlock_none h]
    rfl
  · rintro s b x hm hres hx href hst ⟨off, hva, hoff, hk, hearly, hwrites, hroom⟩ hfence hslice hpage
    have heret : exec .eret s = waitOn s s.cur.eret (.remigr b) := by
      change execEret s = _
      unfold execEret
      rw [eretBlock_some hm hres]
    rw [← devKey_off (id := x.id) hva] at hroom
    have hready : BlockReady s s.cur.phys (devKey x.id b.slice) (x.channelCore (keyOff (devKey x.id b.slice))) :=
      ⟨hfence, hslice, hwrites, hearly, hroom, hpage⟩
    have hready' := hready.replace (c := (waiting s s.cur.eret (.remigr b)).cur) s.matrix s.pubs rfl rfl
      (isSome_owner_of_ctxOf hx) rfl
    have hk' := (resolve_dev (s := waiting s s.cur.eret (.remigr b)) (c := (waiting s s.cur.eret (.remigr b)).cur) (.load 1)
      hx href hva (by omega)).trans hk
    have hacc := exec_migrBlockAccept_remigr (s := waiting s s.cur.eret (.remigr b)) rfl hx hk'
    obtain ⟨t, ht, hcur, hmem⟩ := acceptBlock_of_ready b s.cur.tepc (show Status.waitMem ≠ .stopped by decide) hready'
    refine ⟨t, ⟨_, heret, t, hacc.trans ht, rfl⟩, ?_⟩
    rw [hcur]
    exact ⟨rfl, rfl, rfl, rfl, rfl, rfl, hmem⟩

end Sys2Proof.Machine


/-! What a landing leaves of the slots (R142, R233), and a thread that goes on once what it awaits has come (R121). -/

namespace Sys2Proof.Machine

/-! ### Landing -/

theorem State.trigger_cur_eq (s : State) (blocks : List Nat) : ∃ m, (s.trigger blocks).cur = { s.cur with monitor := m } := by
  unfold State.trigger State.mapSlots
  dsimp only
  split
  · exact ⟨_, rfl⟩
  · exact ⟨s.cur.monitor, rfl⟩

@[simp] theorem State.ringDoorbells_cur (s : State) (cs : List Host.Cell) (k : Nat) : (s.ringDoorbells cs k).cur = s.cur := by
  unfold State.ringDoorbells
  split
  · split
    · split <;> rfl
    · rfl
  · rfl

/-- A write that lands in memory changes no slot but for a monitor that it triggers (R142). -/
theorem State.land_cur_eq (s : State) {cs : List Host.Cell} (h : ∀ x ∈ cs, inMem x.1 = true) :
    ∃ m, (s.land cs).cur = { s.cur with monitor := m } := by
  unfold State.land
  split
  · exact ⟨s.cur.monitor, rfl⟩
  · next x b rest =>
    split
    · exact ⟨s.cur.monitor, rfl⟩
    · rw [if_pos (h (x, b) (by simp)), State.ringDoorbells_cur]
      exact State.trigger_cur_eq ..

/-- Memory after some writes to memory have landed, with the key held. -/
theorem State.land_mem_eq (s : State) {cs : List Host.Cell} (h : ∀ x ∈ cs, inMem x.1 = true ∧ s.keyHeld x.1 = true) :
    (s.land cs).mem = writeCells s.mem cs := by
  cases cs with
  | nil => rfl
  | cons x rest =>
    obtain ⟨hmem, hkey⟩ := h x (by simp)
    rw [State.land_memory hkey hmem, List.filter_eq_self.2 fun y hy => (h y hy).1]

/-! ### Going on -/

/-- A waiting thread's turn, once what it does then is known and it no longer waits as it did. -/
theorem exec_threadRejoin_of_rejoin {s t : State} {w : Wait} (hw : s.cur.wait = some w)
    (hs : s.cur.status = .waitMem ∨ s.cur.status = .waitMsg) (hb : s.cur.busy = 0) (hr : rejoin s w = .next t)
    (ht : t.cur.wait ≠ some w) : exec (.threadRejoin s.cur.phys) s = .next t := by
  have hstat : (s.cur.status == .waitMem || s.cur.status == .waitMsg) = true := by
    rcases hs with hs | hs <;> rw [hs] <;> rfl
  change execThreadRejoin s.cur.phys s = _
  unfold execThreadRejoin
  rw [if_neg (by simp [hstat, hb]), hw]
  simp only [hr, unlessSame, if_neg ht]

theorem exec_threadRejoin_done {s : State} {d : Reg5} {v : Word} (hw : s.cur.wait = some (.done d v))
    (hs : s.cur.status = .waitMem ∨ s.cur.status = .waitMsg) (hb : s.cur.busy = 0) (hd : d.toNat < 24) :
    exec (.threadRejoin s.cur.phys) s = .next { s with cur := { s.cur.ready.setReg d.toNat v with pc := s.cur.pc + 4 } } := by
  refine exec_threadRejoin_of_rejoin hw hs hb (finish_reg s s.cur.ready v hd) ?_
  simp

end Sys2Proof.Machine


/-! Migrating blocks (R264, R265; O26). -/

namespace Sys2Proof.Machine

/-! ### MIGR -/

/-- R239: what a release publishes. -/
theorem publish_eq (s : State) (c : Slot) (sc : Scope) : ∃ units pubs, s.publish c sc = { s with matrix := units, pubs := pubs } :=
  afterRelease_eq s c (some sc)

theorem exec_migr_of_dev {s : State} {a : Reg5} {va : Word} {c : Slot} {x : Ctx} {off k : Nat} (ha : s.cur.readReg a = some (va, c))
    (hva : va.toNat = 2 ^ 48 + off) (hlt : va.toNat < 2 ^ 56) (hr : c.ref = false) (hx : s.ctxOf c = some x)
    (hk : resolveDev x va off (.load 1) = .ok k) :
    exec (.migr a) s = .next (waiting (s.publish c .dev) (c.release .dev s.seq) (.migr va)) := by
  have hres := (resolve_dev (s := s) (.load 1) hx hr hva hlt).trans hk
  refine (withSrc1_of_read _ ha).trans ?_
  rw [if_neg (by omega), if_neg (by omega), hres]
  rfl

/-- The block that a channel core takes for a MIGR of a slot (R264). -/
def migrBlock (s : State) (c : Slot) (va : Word) : Block :=
  { slice := BitVec.ofNat 64 (va.toNat / 256 * 256), words := (s.blockCode c c.npc 25).map (fun e => e.2), idx := 0, home := c.pc,
    reads := [], stores := [] }

theorem findSome_error_none {s : State} {es : List (Nat × IWord)} (h : ∀ e ∈ es, s.errorAt e.1 4 = none) (n : Nat) :
    (es.zipIdx n).findSome? (fun e => (s.errorAt e.1.1 4).map (fun m => (e.2, m))) = none := by
  refine List.findSome?_eq_none_iff.2 fun e he => ?_
  rw [h e.1 (List.fst_mem_of_mem_zipIdx he)]
  rfl

/-- The channel core takes a MIGR's block once its words can be read and nothing holds it back. -/
theorem exec_migrBlockAccept_of_ready {s : State} {va : Word} {x : Ctx} {k : Nat} (hw : s.cur.wait = some (.migr va))
    (hx : s.ctxOf s.cur = some x) (hk : resolve s s.cur va 1 (.load 1) = .ok k) (hst : s.cur.status ≠ .stopped)
    (hcode : ∀ e ∈ s.blockCode s.cur (s.cur.pc + 4) 25, s.tlbHit e.1 = true ∧ s.errorAt e.1 4 = none)
    (h : BlockReady s s.cur.phys k (x.channelCore (keyOff k))) :
    ∃ t b, exec (.migrBlockAccept s.cur.phys) s = .next t ∧ b = migrBlock s s.cur va ∧
      t.cur = s.cur.inBlock b (s.cur.pc + 4) ∧ t.mem = s.mem := by
  have hpages : ∀ q ∈ (s.blockCode s.cur s.cur.npc 25).map (fun e => e.1), s.tlbHit q = true := by
    intro q hq
    obtain ⟨e, he, rfl⟩ := List.mem_map.1 hq
    exact (hcode e he).1
  have hsound := findSome_error_none (es := s.blockCode s.cur s.cur.npc 25) (fun e he => (hcode e he).2) 0
  have hex : exec (.migrBlockAccept s.cur.phys) s = acceptBlock s s.cur x k (migrBlock s s.cur va) s.cur.npc := by
    change execMigrBlockAccept s.cur.phys s = _
    unfold execMigrBlockAccept
    simp only [State.slotAt_cur, hw, hx, hk]
    rw [withPages_of_hits _ _ hpages, hsound]
    rfl
  obtain ⟨t, ht, hcur, hmem⟩ := acceptBlock_of_ready (migrBlock s s.cur va) s.cur.npc hst h
  exact ⟨t, _, hex.trans ht, rfl, hcur, hmem⟩

/-! ### RETN -/

/-- The slot of a thread whose block has committed: its registers travel home (R264). -/
def Slot.homeward (c : Slot) : Slot := { c with block := none, wait := some (.migrReturn none), status := .waitMem }

theorem exec_retn_of_block {s : State} {b : Block} (hb : s.cur.block = some b) :
    exec .retn s = .next (({ s with cur := s.cur.homeward } : State).land b.stores.reverse) := by
  change execRetn s = _
  unfold execRetn
  simp only [hb]
  rfl

theorem exec_migrBlockReturn_committed {s : State} {slot : Nat} (hw : (s.slotAt slot).wait = some (.migrReturn none)) :
    exec (.migrBlockReturn slot) s = .next (s.setSlot { s.slotAt slot with tileSeen := s.pubs, wait := some (.done 0 0) }) := by
  change execMigrBlockReturn slot s = _
  unfold execMigrBlockReturn
  simp only [hw]
  rfl

theorem exec_migrBlockReturn_trap {s : State} {slot : Nat} {cause : TrapCause} {tval v : Word}
    (hw : (s.slotAt slot).wait = some (.migrReturn (some (cause, tval, v)))) :
    exec (.migrBlockReturn slot) s = .next (s.setSlot ((s.slotAt slot).waitFor (.migTrapped cause tval v))) := by
  change execMigrBlockReturn slot s = _
  unfold execMigrBlockReturn
  simp only [hw]

/-- The registers' return and the thread's turn after RETN. -/
theorem runs_home {u : State} (hw : u.cur.wait = some (.migrReturn none)) (hst : u.cur.status = .waitMem) (hbusy : u.cur.busy = 0) :
    ∃ t, Runs [.migrBlockReturn u.cur.phys, .threadRejoin u.cur.phys] u t ∧ t.cur.pc = u.cur.pc + 4 ∧ t.cur.wait = none ∧
      t.cur.block = u.cur.block ∧ t.cur.regs = u.cur.regs ∧ t.mem = u.mem := by
  have hret := exec_migrBlockReturn_committed (s := u) (slot := u.cur.phys) (by rwa [State.slotAt_cur])
  rw [State.slotAt_cur, State.setSlot_cur (by rfl)] at hret
  have hgo := exec_threadRejoin_done (s := { u with cur := { u.cur with tileSeen := u.pubs, wait := some (.done 0 0) } })
    (d := 0) (v := 0) rfl (.inl hst) hbusy (by decide)
  exact ⟨_, ⟨_, hret, _, hgo, rfl⟩, rfl, rfl, rfl, rfl, rfl⟩

/-- Settles O26: MIGR's release and wait, the block as the channel core takes it, and RETN's landing and way home. -/
theorem migratingBlocks : Obligations.MigratingBlocks := by
  refine ⟨?_, ?_, ?_, fun s slot => ⟨exec_migrBlockReturn_committed, fun _ _ _ => exec_migrBlockReturn_trap⟩, fun s hb => ?_⟩
  · rintro s u a va c x off k ha hva hlt hr hx hk rfl
    have hmigr := exec_migr_of_dev ha hva hlt hr hx hk
    refine ⟨hmigr, fun hfence hslice hcode hwrites hearly hroom hpage => ?_⟩
    obtain ⟨units, pubs, hpub⟩ := publish_eq s c .dev
    rw [hpub] at hmigr hcode
    obtain ⟨hpc, hregs, -, -, -, -, hphys, howner, -, hblock⟩ := Slot.readReg_keeps ha
    have hready : BlockReady s s.cur.phys k (x.channelCore (keyOff k)) := by
      rw [← hphys]
      exact ⟨hfence, hslice, hwrites, hearly, hroom, hpage⟩
    have hk' := (resolve_dev (s := waiting { s with matrix := units, pubs := pubs } (c.release .dev s.seq) (.migr va))
      (c := (waiting s (c.release .dev s.seq) (.migr va)).cur) (.load 1) hx hr hva hlt).trans hk
    obtain ⟨t, b, ht, hb, hcur, hmem⟩ := exec_migrBlockAccept_of_ready
      (s := waiting { s with matrix := units, pubs := pubs } (c.release .dev s.seq) (.migr va)) rfl hx hk' (show Status.waitMem ≠ .stopped by decide) hcode
      (hready.replace units pubs hphys howner (isSome_owner_of_ctxOf hx) hblock)
    refine ⟨t, b, ⟨_, hmigr, t, ht, rfl⟩, ?_⟩
    rw [hcur, hb]
    exact ⟨rfl, rfl, rfl, rfl, rfl, rfl, rfl, rfl, rfl, hmem⟩
  · intro s va x k hw hx hk hfence hst hslice hearly hwrites hcode hpage hroom
    obtain ⟨t, b, ht, hb, hcur, hmem⟩ := exec_migrBlockAccept_of_ready hw hx hk (by rw [hst]; decide) hcode
      ⟨hfence, hslice, hwrites, hearly, hroom, hpage⟩
    refine ⟨t, b, ht, ?_⟩
    rw [hcur, hb]
    exact ⟨rfl, rfl, rfl, rfl, rfl, rfl, rfl, hmem⟩
  · intro s b hb hbusy hall
    have hall' : ∀ y ∈ b.stores.reverse, inMem y.1 = true ∧ s.keyHeld y.1 = true := fun y hy => hall y (List.mem_reverse.1 hy)
    have hretn := exec_retn_of_block hb
    obtain ⟨m, hcur⟩ := State.land_cur_eq { s with cur := s.cur.homeward } fun y hy => (hall' y hy).1
    have hmem := State.land_mem_eq { s with cur := s.cur.homeward } hall'
    refine ⟨⟨_, hretn, ?_⟩, ?_⟩
    · rw [hcur]
      exact ⟨rfl, rfl, rfl, hmem⟩
    · obtain ⟨t, hrun, hpc, hwait, hblk, hregs, hm⟩ := runs_home
        (u := ({ s with cur := s.cur.homeward } : State).land b.stores.reverse) (by rw [hcur]; rfl) (by rw [hcur]; rfl)
        (by rw [hcur]; exact hbusy)
      rw [hcur] at hrun hpc hblk hregs
      exact ⟨t, ⟨_, hretn, hrun⟩, hpc, hwait, hblk, hregs, hm.trans hmem⟩
  · change execRetn s = _
    unfold execRetn
    simp only [hb]

end Sys2Proof.Machine


/-! Atomics and reductions at their homes (R259 to R263; O24, O25). -/

namespace Sys2Proof.Machine

/-! ### What a note, a landing and a closing leave -/

theorem State.charge_keyHeld (s : State) (id cls n k : Nat) : (s.charge id cls n).keyHeld k = s.keyHeld k := by
  unfold State.charge
  cases hx : s.ctxAt id with
  | none => rfl
  | some x =>
    dsimp only
    split
    · rfl
    · unfold State.keyHeld
      by_cases h : keyUnit k = x.id
      · have hid : x.id = id := State.ctxAt_id hx
        rw [h, State.ctxAt_setCtx_same, hid, hx]
      · rw [State.ctxAt_setCtx_other _ _ (show keyUnit k ≠ ({ x with meter := x.meter + s.energyCost cls * n } : Ctx).id from h)]

@[simp] theorem State.count_keyHeld (s : State) (id u e n k : Nat) : (s.count id u e n).keyHeld k = s.keyHeld k := by
  unfold State.count
  split <;> rfl

@[simp] theorem State.request_keyHeld (s : State) (x : Ctx) (k n : Nat) (w : Bool) (l : Nat) :
    (s.request x k n w).keyHeld l = s.keyHeld l := by
  unfold State.request
  split
  · rfl
  · split <;> rfl

/-- A note of an atomic changes what is counted, charged and asked of the host. -/
theorem State.noteAtomic_keyHeld (s : State) (id k n l : Nat) : (s.noteAtomic id k n).keyHeld l = s.keyHeld l := by
  unfold State.noteAtomic State.noteAccess
  split
  · simp [State.charge_keyHeld]
  · split
    · rfl
    · dsimp only
      repeat' split
      all_goals simp [State.charge_keyHeld]

@[simp] theorem State.noteAccess_slots (s : State) (id k n : Nat) (w : Bool) : (s.noteAccess id k n w).slots = s.slots := by
  unfold State.noteAccess State.request
  split
  · rfl
  · dsimp only
    repeat' split
    all_goals simp [State.postBy]

@[simp] theorem State.noteAccess_outb (s : State) (id k n : Nat) (w : Bool) : (s.noteAccess id k n w).outb = s.outb := by
  unfold State.noteAccess State.request
  split
  · rfl
  · dsimp only
    repeat' split
    all_goals simp [State.postBy]

@[simp] theorem State.noteAtomic_slots (s : State) (id k n : Nat) : (s.noteAtomic id k n).slots = s.slots := by
  unfold State.noteAtomic
  split <;> simp

@[simp] theorem State.noteAtomic_outb (s : State) (id k n : Nat) : (s.noteAtomic id k n).outb = s.outb := by
  unfold State.noteAtomic
  split <;> simp

theorem State.slotAt_congr {s t : State} (hc : t.cur = s.cur) (hs : t.slots = s.slots) (p : Nat) : t.slotAt p = s.slotAt p := by
  simp only [State.slotAt, hc, hs]

theorem State.noteAtomic_slotAt (s : State) (id k n p : Nat) : (s.noteAtomic id k n).slotAt p = s.slotAt p :=
  State.slotAt_congr (by simp) (by simp) p

@[simp] theorem State.ringDoorbells_slots (s : State) (cs : List Host.Cell) (k : Nat) : (s.ringDoorbells cs k).slots = s.slots := by
  unfold State.ringDoorbells
  split
  · split
    · split <;> rfl
    · rfl
  · rfl

@[simp] theorem State.ringDoorbells_outb (s : State) (cs : List Host.Cell) (k : Nat) : (s.ringDoorbells cs k).outb = s.outb := by
  unfold State.ringDoorbells
  split
  · split
    · split <;> rfl
    · rfl
  · rfl

/-- A change of some slots that keeps their numbers shows in each of them. -/
theorem State.slotAt_mapSlots (s : State) {p : Slot → Bool} {f : Slot → Slot} (hf : ∀ c, (f c).phys = c.phys)
    (n : Nat) (hfresh : p (Slot.fresh n) = false) :
    (s.mapSlots p f).slotAt n = if p (s.slotAt n) then f (s.slotAt n) else s.slotAt n := by
  have hphys (c : Slot) : (if p c then f c else c).phys = c.phys := by
    split
    · exact hf c
    · rfl
  have hcomp : ((fun c : Slot => c.phys == n) ∘ fun c => if p c then f c else c) = fun c => c.phys == n :=
    funext fun c => by rw [Function.comp, hphys]
  unfold State.slotAt State.mapSlots
  dsimp only
  rw [hphys, List.find?_map, hcomp]
  by_cases h : s.cur.phys = n
  · rw [if_pos h, if_pos h]
  · rw [if_neg h, if_neg h]
    cases s.slots.find? (fun c => c.phys == n) with
    | none => simp [hfresh]
    | some c => simp

theorem State.trigger_slotAt_eq (s : State) (blocks : List Nat) (n : Nat) :
    ∃ m, (s.trigger blocks).slotAt n = { s.slotAt n with monitor := m } := by
  unfold State.trigger
  dsimp only
  rw [State.slotAt_mapSlots]
  · split
    · split
      · exact ⟨_, rfl⟩
      · exact ⟨(s.slotAt n).monitor, rfl⟩
    · exact ⟨(s.slotAt n).monitor, rfl⟩
  · exact fun _ => rfl
  · rfl

/-- A write that lands in memory changes no slot but for a monitor that it triggers (R142). -/
theorem State.land_slotAt_eq (s : State) {cs : List Host.Cell} (h : ∀ x ∈ cs, inMem x.1 = true) (n : Nat) :
    ∃ m, (s.land cs).slotAt n = { s.slotAt n with monitor := m } := by
  unfold State.land
  split
  · exact ⟨(s.slotAt n).monitor, rfl⟩
  · next x b rest =>
    split
    · exact ⟨(s.slotAt n).monitor, rfl⟩
    · rw [if_pos (h (x, b) (by simp)), State.slotAt_congr (State.ringDoorbells_cur ..) (State.ringDoorbells_slots ..)]
      exact State.trigger_slotAt_eq ..

theorem State.land_outb (s : State) {cs : List Host.Cell} (h : ∀ x ∈ cs, inMem x.1 = true) : (s.land cs).outb = s.outb := by
  unfold State.land
  split
  · rfl
  · next x b rest =>
    split
    · rfl
    · rw [if_pos (h (x, b) (by simp))]
      simp

/-- With nothing to close, only what closes nothing any more is dropped. -/
theorem State.close_nil (s : State) : ∃ es, s.close [] = { s with early := es } := by
  unfold State.close
  split
  · exact ⟨s.early, rfl⟩
  · exact ⟨_, rfl⟩

/-! ### Bytes at a home -/

theorem mem_cellsAt {k : Nat} {bs : List Byte} {x : Host.Cell} (h : x ∈ cellsAt k bs) : k ≤ x.1 ∧ x.1 < k + bs.length := by
  induction bs generalizing k with
  | nil => simp [cellsAt] at h
  | cons b bs ih =>
    rw [cellsAt, List.mem_cons] at h
    obtain rfl | h := h
    · simp
    · have := ih h
      rw [List.length_cons]
      omega

theorem readHomeN_congr {s t : State} (hm : t.mem = s.mem) (n : Nat) {k m : Nat} (hk : inMem (k + m) = true) (hn : n ≤ m + 1) :
    t.readHomeN k n = s.readHomeN k n := by
  induction n generalizing k m with
  | zero => rfl
  | succ n ih =>
    have hin : inMem k = true := inMem_mono hk (by omega)
    have hhome : t.readHome k = s.readHome k := by simp only [State.readHome, hin, if_true, hm]
    rw [State.readHomeN, State.readHomeN, hhome]
    cases m with
    | zero => rw [show n = 0 by omega]; rfl
    | succ m => rw [ih (k := k + 1) (m := m) (by rwa [Nat.add_assoc, Nat.add_comm 1]) (by omega)]

/-- Some bytes of one access, of which the last possible lies in memory. -/
theorem cellsAt_inMem_of_last {k m : Nat} {bs : List Byte} (hk : inMem (k + m) = true) (hn : bs.length ≤ m + 1) :
    ∀ x ∈ cellsAt k bs, inMem x.1 = true := fun x hx => by
  have := mem_cellsAt hx
  exact inMem_mono hk (by omega)

/-- Memory after the bytes of an access have landed with their key held. -/
theorem State.land_cellsAt_mem_of_last {s : State} {k m : Nat} {bs : List Byte} (hk : inMem (k + m) = true) (hn : bs.length ≤ m + 1)
    (hkey : s.keyHeld k = true) : (s.land (cellsAt k bs)).mem = writeCells s.mem (cellsAt k bs) := by
  cases bs with
  | nil => rfl
  | cons b bs =>
    have hall := cellsAt_inMem_of_last hk hn
    rw [cellsAt] at hall ⊢
    rw [State.land_memory hkey (inMem_mono hk (by omega)), List.filter_eq_self.2 hall]

theorem AtomReq.bytes_le (r : AtomReq) : r.bytes ≤ 8 := by
  unfold AtomReq.bytes
  split <;> omega

theorem readHomeN_early (s : State) (r : AtomReq) (es : List Early) (hin : inMem (r.loc + 7) = true) :
    ({ s with early := es } : State).readHomeN r.loc r.bytes = s.readHomeN r.loc r.bytes :=
  readHomeN_congr (s := s) (t := { s with early := es }) rfl r.bytes hin r.bytes_le

/-! ### A request performed -/

section Perform
variable {s : State} {r : AtomReq}

/-- The bytes that a performed request writes. -/
def AtomReq.cells (r : AtomReq) (old : Nat) : List Host.Cell :=
  cellsAt r.loc (leBytes r.bytes (r.op.apply (8 * r.bytes) old r.val.toNat r.cmp.toNat))

theorem State.perform_of_written (ctx : Nat) (h : r.op ≠ .cas ∨ leNat (s.readHomeN r.loc r.bytes) = r.cmp.toNat) :
    s.perform ctx r = ((s.noteAtomic ctx r.loc r.bytes).land (r.cells (leNat (s.readHomeN r.loc r.bytes))),
      BitVec.ofNat 64 (leNat (s.readHomeN r.loc r.bytes))) := by
  unfold State.perform
  dsimp only
  rw [if_neg (by simpa [Classical.or_iff_not_imp_left] using h)]
  rfl

theorem State.perform_of_differs (ctx : Nat) (hop : r.op = .cas) (h : leNat (s.readHomeN r.loc r.bytes) ≠ r.cmp.toNat) :
    s.perform ctx r = (s.noteAtomic ctx r.loc r.bytes, BitVec.ofNat 64 (leNat (s.readHomeN r.loc r.bytes))) := by
  unfold State.perform
  dsimp only
  rw [if_pos (by simp [hop, h])]

theorem AtomReq.cells_inMem (hin : inMem (r.loc + 7) = true) (old : Nat) : ∀ x ∈ r.cells old, inMem x.1 = true :=
  cellsAt_inMem_of_last hin (by rw [length_leBytes]; exact r.bytes_le)

/-- What a request that is performed, or noted, leaves of the slots and the outbound paths. -/
def SlotsKept (s t : State) : Prop :=
  (∃ m, t.cur = { s.cur with monitor := m }) ∧ (∀ p, ∃ m, t.slotAt p = { s.slotAt p with monitor := m }) ∧ t.outb = s.outb

theorem State.noteAtomic_slotsKept (s : State) (ctx k n : Nat) : SlotsKept s (s.noteAtomic ctx k n) := by
  refine ⟨⟨s.cur.monitor, ?_⟩, fun p => ⟨(s.slotAt p).monitor, ?_⟩, ?_⟩
  · rw [State.noteAtomic_cur]
  · rw [State.noteAtomic_slotAt]
  · rw [State.noteAtomic_outb]

theorem State.perform_slotsKept (ctx : Nat) (hin : inMem (r.loc + 7) = true) : SlotsKept s (s.perform ctx r).1 := by
  by_cases h : r.op = .cas ∧ leNat (s.readHomeN r.loc r.bytes) ≠ r.cmp.toNat
  · rw [State.perform_of_differs ctx h.1 h.2]
    exact s.noteAtomic_slotsKept ctx r.loc r.bytes
  · rw [State.perform_of_written ctx ((Classical.not_and_iff_not_or_not.1 h).imp_right Classical.not_not.1)]
    have hall := AtomReq.cells_inMem hin (leNat (s.readHomeN r.loc r.bytes))
    refine ⟨?_, fun p => ?_, ?_⟩
    · have := State.land_cur_eq (s.noteAtomic ctx r.loc r.bytes) hall
      rwa [State.noteAtomic_cur] at this
    · have := State.land_slotAt_eq (s.noteAtomic ctx r.loc r.bytes) hall p
      rwa [State.noteAtomic_slotAt] at this
    · exact (State.land_outb _ hall).trans (by simp)

theorem State.perform_mem_of_written (ctx : Nat) (hin : inMem (r.loc + 7) = true) (hkey : s.keyHeld r.loc = true)
    (h : r.op ≠ .cas ∨ leNat (s.readHomeN r.loc r.bytes) = r.cmp.toNat) :
    (s.perform ctx r).1.mem = writeCells s.mem (r.cells (leNat (s.readHomeN r.loc r.bytes))) := by
  rw [State.perform_of_written ctx h]
  refine (State.land_cellsAt_mem_of_last hin (by rw [length_leBytes]; exact r.bytes_le) ?_).trans (by rw [State.noteAtomic_mem]; rfl)
  rwa [State.noteAtomic_keyHeld]

theorem State.perform_mem_of_differs (ctx : Nat) (hop : r.op = .cas) (h : leNat (s.readHomeN r.loc r.bytes) ≠ r.cmp.toNat) :
    (s.perform ctx r).1.mem = s.mem := by
  rw [State.perform_of_differs ctx hop h, State.noteAtomic_mem]

@[simp] theorem State.perform_snd (ctx : Nat) : (s.perform ctx r).2 = BitVec.ofNat 64 (leNat (s.readHomeN r.loc r.bytes)) := by
  unfold State.perform
  dsimp only
  split <;> rfl

variable {c : Slot} {d : Reg5}

theorem State.performFor_of_refused (h : resultRefused s c d (r.result (BitVec.ofNat 64 (leNat (s.readHomeN r.loc r.bytes)))) = true) :
    s.performFor c d r = (s.noteAtomic (c.owner.getD 0) r.loc r.bytes, BitVec.ofNat 64 (leNat (s.readHomeN r.loc r.bytes))) := if_pos h

theorem State.performFor_of_taken (h : resultRefused s c d (r.result (BitVec.ofNat 64 (leNat (s.readHomeN r.loc r.bytes)))) = false) :
    s.performFor c d r = s.perform (c.owner.getD 0) r := if_neg (by simp [h])

theorem resultRefused_reg (w : Word) (hd : d.toNat < 24) : resultRefused s c d w = false := by
  simp [resultRefused, Nat.not_le.2 hd]

theorem State.performFor_slotsKept (hin : inMem (r.loc + 7) = true) : SlotsKept s (s.performFor c d r).1 := by
  cases h : resultRefused s c d (r.result (BitVec.ofNat 64 (leNat (s.readHomeN r.loc r.bytes)))) with
  | true =>
    rw [State.performFor_of_refused h]
    exact s.noteAtomic_slotsKept _ r.loc r.bytes
  | false =>
    rw [State.performFor_of_taken h]
    exact State.perform_slotsKept _ hin

@[simp] theorem State.performFor_snd : (s.performFor c d r).2 = BitVec.ofNat 64 (leNat (s.readHomeN r.loc r.bytes)) := by
  unfold State.performFor
  dsimp only
  split
  · rfl
  · exact State.perform_snd _

theorem State.performFor_mem_of_differs (hop : r.op = .cas) (h : leNat (s.readHomeN r.loc r.bytes) ≠ r.cmp.toNat) :
    (s.performFor c d r).1.mem = s.mem := by
  cases hr : resultRefused s c d (r.result (BitVec.ofNat 64 (leNat (s.readHomeN r.loc r.bytes)))) with
  | true => rw [State.performFor_of_refused hr, State.noteAtomic_mem]
  | false => rw [State.performFor_of_taken hr, State.perform_mem_of_differs _ hop h]

end Perform

/-! ### The event at the home -/

theorem atHome_of_ready {s : State} {slot k n : Nat} {b : Bounds} (event : String) (go : State → Out)
    (hready : s.homeReady slot k n = true) (hpass : s.passes slot s.seq b (spanKeys k n) = some []) (hpage : s.tlbHit k = true) :
    ∃ es, atHome s slot b k n event go = go { s with early := es } := by
  obtain ⟨es, hes⟩ := s.close_nil
  refine ⟨es, ?_⟩
  unfold atHome
  rw [hready, hpass]
  dsimp only
  rw [withPages_of_hits event _ (by simpa using hpage), hes]
  rfl

theorem State.acquired_eq (s : State) (c : Slot) : ∃ p, s.acquired c = { c with tileSeen := p } := by
  unfold State.acquired
  split
  · split
    · exact ⟨_, rfl⟩
    · exact ⟨_, rfl⟩
    · exact ⟨c.tileSeen, rfl⟩
  · exact ⟨c.tileSeen, rfl⟩

/-- R262: an atomic is performed at its home and its old value answered. -/
theorem exec_atomicAtHome_of_ready {s : State} {slot : Nat} {d : Reg5} {r : AtomReq} (hw : (s.slotAt slot).wait = some (.atomic d r))
    (hsp : keySpace r.loc ≠ Space.host) (hin : inMem (r.loc + 7) = true) (hready : s.homeReady slot r.loc r.bytes = true)
    (hpass : s.passes slot s.seq r.bounds (spanKeys r.loc r.bytes) = some []) (hpage : s.tlbHit r.loc = true)
    (herr : s.errorAt r.loc r.bytes = none) :
    ∃ es, exec (.atomicAtHome slot) s = .next ((({ s with early := es } : State).performFor (s.slotAt slot) d r).1.answerAtomic slot
      (.atomicReply d r (BitVec.ofNat 64 (leNat (s.readHomeN r.loc r.bytes))))) := by
  obtain ⟨es, hes⟩ := atHome_of_ready "ATOMIC_AT_HOME" (fun t => orUncorr t (s.slotAt slot) r.va r.loc r.bytes (
      let (u, old) := t.performFor (s.slotAt slot) d r
      .next (u.answerAtomic slot (.atomicReply d r old)))) hready hpass hpage
  refine ⟨es, ?_⟩
  change execAtomicAtHome slot s = _
  unfold execAtomicAtHome
  simp only [hw]
  rw [if_neg (by simpa using hsp)]
  refine hes.trans ?_
  unfold orUncorr
  rw [show ({ s with early := es } : State).errorAt r.loc r.bytes = none from herr]
  dsimp only
  rw [State.performFor_snd, readHomeN_early s r es hin]

theorem State.answerAtomic_wait {s : State} {slot : Nat} (w : Wait) (ho : (s.slotAt slot).occupied = true)
    (hp : (s.slotAt slot).phys = slot) : ((s.answerAtomic slot w).slotAt slot).wait = some w := by
  obtain ⟨p, hacq⟩ := s.acquired_eq (s.slotAt slot)
  unfold State.answerAtomic
  rw [hacq]
  have := s.slotAt_setSlot_same (c := ({ s.slotAt slot with tileSeen := p } : Slot).waitFor w) ho
  rw [show (({ s.slotAt slot with tileSeen := p } : Slot).waitFor w).phys = slot from hp] at this
  rw [this]
  rfl

theorem State.answerAtomic_cur (s : State) (w : Wait) :
    ∃ p, (s.answerAtomic s.cur.phys w).cur = { s.cur with tileSeen := p, wait := some w } := by
  obtain ⟨p, hacq⟩ := s.acquired_eq s.cur
  refine ⟨p, ?_⟩
  unfold State.answerAtomic
  rw [State.slotAt_cur, hacq, State.setSlot_cur (by rfl)]
  rfl

theorem State.slotAt_phys (s : State) (p : Nat) : (s.slotAt p).phys = p := by
  unfold State.slotAt
  split
  · assumption
  · cases h : s.slots.find? (fun c => c.phys == p) with
    | none => rfl
    | some c => exact eq_of_beq (List.find?_some (p := fun c : Slot => c.phys == p) h)

/-- An atomic performed at its home, with its answer (R262). -/
theorem exec_atomicAtHome_answers {s : State} {slot : Nat} {d : Reg5} {r : AtomReq}
    (hw : (s.slotAt slot).wait = some (.atomic d r)) (hsp : keySpace r.loc ≠ Space.host) (hin : inMem (r.loc + 7) = true)
    (hready : s.homeReady slot r.loc r.bytes = true) (hpass : s.passes slot s.seq r.bounds (spanKeys r.loc r.bytes) = some [])
    (hpage : s.tlbHit r.loc = true) (herr : s.errorAt r.loc r.bytes = none) {old : Nat} (hold : old = leNat (s.readHomeN r.loc r.bytes)) :
    ∃ t, exec (.atomicAtHome slot) s = .next t ∧
      ((s.slotAt slot).occupied = true → (t.slotAt slot).wait = some (.atomicReply d r (BitVec.ofNat 64 old))) ∧
      (slot = s.cur.phys → ∃ m p, t.cur =
        { s.cur with monitor := m, tileSeen := p, wait := some (.atomicReply d r (BitVec.ofNat 64 old)) }) ∧
      (resultRefused s (s.slotAt slot) d (r.result (BitVec.ofNat 64 old)) = true → t.mem = s.mem) ∧
      (d.toNat < 24 → r.op ≠ .cas ∨ old = r.cmp.toNat → t.mem = writeCells s.mem (r.cells old)) ∧
      (r.op = .cas → old ≠ r.cmp.toNat → t.mem = s.mem) := by
  obtain ⟨es, hes⟩ := exec_atomicAtHome_of_ready hw hsp hin hready hpass hpage herr
  obtain ⟨⟨m, hcur⟩, hslots, -⟩ := State.performFor_slotsKept (s := { s with early := es }) (c := s.slotAt slot) (d := d) hin
  have hread : ({ s with early := es } : State).readHomeN r.loc r.bytes = s.readHomeN r.loc r.bytes :=
    readHomeN_early s r es hin
  have hkey : s.keyHeld r.loc = true := (Bool.and_eq_true_iff.1 hpage).2
  subst hold
  refine ⟨_, hes, fun ho => State.answerAtomic_wait _ ?_ (State.slotAt_phys ..), ?_, fun hr => ?_, fun hd h => ?_, fun hop h => ?_⟩
  · obtain ⟨m', hslot⟩ := hslots slot
    rw [hslot]
    exact ho
  · rintro rfl
    have hphys : (({ s with early := es } : State).performFor (s.slotAt s.cur.phys) d r).1.cur.phys = s.cur.phys := by rw [hcur]
    obtain ⟨p, hp⟩ := State.answerAtomic_cur (({ s with early := es } : State).performFor (s.slotAt s.cur.phys) d r).1
      (.atomicReply d r (BitVec.ofNat 64 (leNat (s.readHomeN r.loc r.bytes))))
    rw [hphys, hcur] at hp
    exact ⟨m, p, hp⟩
  · rw [State.answerAtomic_mem, State.performFor_of_refused (by rw [hread]; exact hr), State.noteAtomic_mem]
  · rw [State.answerAtomic_mem, State.performFor_of_taken (resultRefused_reg _ hd),
      State.perform_mem_of_written (s := { s with early := es }) _ hin hkey (by rw [hread]; exact h), hread]
  · rw [State.answerAtomic_mem, State.performFor_mem_of_differs hop (by rw [hread]; exact h)]

theorem exec_atomicReplyArrival {s : State} {slot : Nat} {d : Reg5} {r : AtomReq} {old : Word}
    (hw : (s.slotAt slot).wait = some (.atomicReply d r old)) :
    exec (.atomicReplyArrival slot) s = .next (s.setSlot ((s.slotAt slot).waitFor (.done d (r.result old)))) := by
  change execAtomicReplyArrival slot s = _
  unfold execAtomicReplyArrival
  simp only [hw]

/-! ### Issue -/

theorem cutWord_eq (w32 : Bool) (v : Word) : cutWord w32 v = if w32 then (v.setWidth 32).setWidth 64 else v := by
  unfold cutWord
  split
  · refine BitVec.eq_of_toNat_eq ?_
    simp only [BitVec.toNat_ofNat, BitVec.toNat_setWidth]
  · rfl

theorem releaseOf_eq (kind : Kind) (sc : Scope) : releaseOf kind sc = if kind = .rel then some sc else none := by
  cases kind <;> rfl

theorem withRelease_request (s : State) (c : Slot) (rel : Option Scope) (op : AtomOp) (w32 : Bool) (x v cmp : Word) (k : Nat) (o : Bool)
    (go : State → Slot → AtomReq → Out) :
    withRelease s c rel
      { op := op, w32 := w32, va := x, loc := k, val := cutWord w32 v, cmp := cutWord w32 cmp, ord := o, bounds := c.rels } go = go (afterRelease s c rel).1 (afterRelease s c rel).2
        (request op w32 x v cmp k o (afterRelease s c rel).2.rels) := by
  simp only [withRelease, releasedBy_eq_afterRelease, cutWord_eq]
  rfl

theorem atomicGo_of_resolve {s : State} {c : Slot} (op : AtomOp) {d : Reg5} {x : Word} (v cmp : Word) (kind : Kind) (sc : Scope) (o : Bool)
    {w32 : Bool} {k : Nat} (hd : destReason s c d = none) (hk : resolve s c x (if w32 then 4 else 8) .atomic = .ok k) :
    atomicGo s c op d x v cmp kind sc o w32 =
      (fun p r => if o then enterOut p.1 p.2 r else waitOn p.1 p.2 (.atomic d r))
        (afterRelease s c (if kind = .rel then some sc else none))
        (request op w32 x v cmp k o (afterRelease s c (if kind = .rel then some sc else none)).2.rels) := by
  unfold atomicGo
  rw [withDest_of_taken _ hd]
  simp only [hk, withRelease_request, releaseOf_eq]

theorem exec_eq_atomic {i : Instr} {op : AtomOp} {d a b : Reg5} {kind : Kind} {sc : Scope} {o w32 : Bool}
    (h : Atomic i op d a b kind sc o w32) (s : State) : exec i s = atomic s op d a b kind sc o w32 := by
  cases h <;> rfl

theorem withSrc3_of_reads {s : State} {a b d : Reg5} (k : Word → Word → Word → Slot → Out) {x y z : Word} {c₁ c₂ c : Slot}
    (ha : s.cur.readReg a = some (x, c₁)) (hb : c₁.readReg b = some (y, c₂)) (hd : c₂.readReg d = some (z, c)) :
    withSrc3 s a b d k = k x y z c := by
  simp only [withSrc3, ha, hb, hd]

theorem enterOut_of_room {s : State} {c : Slot} (r : AtomReq)
    (h : (s.outb.filter (fun e => e.core == coreOf c.phys)).length < 16) :
    enterOut s c r = .next { goesOn s c.ready with
      outb := s.outb ++ [{ core := coreOf c.phys, slot := c.phys, seq := s.seq, req := r, pc := c.pc, ir := c.ir, done := false }],
      seq := s.seq + 1 } := if_pos h

/-- R235: a release sets the thread's release points. -/
theorem afterRelease_snd_eq (s : State) (c : Slot) (rel : Option Scope) :
    ∃ rels tiles, (afterRelease s c rel).2 = { c with rels := rels, popTiles := tiles } := by
  cases rel with
  | none => exact ⟨c.rels, c.popTiles, rfl⟩
  | some sc => exact ⟨_, _, rfl⟩

/-! ### What a release leaves -/

@[simp] theorem afterRelease_seq (s : State) (c : Slot) (rel : Option Scope) : (afterRelease s c rel).1.seq = s.seq := by
  obtain ⟨units, pubs, h⟩ := afterRelease_eq s c rel
  rw [h]

@[simp] theorem afterRelease_mem (s : State) (c : Slot) (rel : Option Scope) : (afterRelease s c rel).1.mem = s.mem := by
  obtain ⟨units, pubs, h⟩ := afterRelease_eq s c rel
  rw [h]

@[simp] theorem afterRelease_outb (s : State) (c : Slot) (rel : Option Scope) : (afterRelease s c rel).1.outb = s.outb := by
  obtain ⟨units, pubs, h⟩ := afterRelease_eq s c rel
  rw [h]

@[simp] theorem afterRelease_errs (s : State) (c : Slot) (rel : Option Scope) : (afterRelease s c rel).1.errs = s.errs := by
  obtain ⟨units, pubs, h⟩ := afterRelease_eq s c rel
  rw [h]

@[simp] theorem afterRelease_phys (s : State) (c : Slot) (rel : Option Scope) : (afterRelease s c rel).2.phys = c.phys := by
  obtain ⟨rels, tiles, h⟩ := afterRelease_snd_eq s c rel
  rw [h]

@[simp] theorem afterRelease_pc (s : State) (c : Slot) (rel : Option Scope) : (afterRelease s c rel).2.pc = c.pc := by
  obtain ⟨rels, tiles, h⟩ := afterRelease_snd_eq s c rel
  rw [h]

@[simp] theorem afterRelease_ir (s : State) (c : Slot) (rel : Option Scope) : (afterRelease s c rel).2.ir = c.ir := by
  obtain ⟨rels, tiles, h⟩ := afterRelease_snd_eq s c rel
  rw [h]

@[simp] theorem afterRelease_busy (s : State) (c : Slot) (rel : Option Scope) : (afterRelease s c rel).2.busy = c.busy := by
  obtain ⟨rels, tiles, h⟩ := afterRelease_snd_eq s c rel
  rw [h]

/-! ### An atomic from issue to its thread's turn -/

/-- An atomic that waits, is performed at its home, answered and finished (R262). -/
theorem runs_atomic {u : State} {d : Reg5} {r : AtomReq} (hw : u.cur.wait = some (.atomic d r)) (hst : u.cur.status = .waitMem)
    (hbusy : u.cur.busy = 0) (hd : d.toNat < 24) (hsp : keySpace r.loc ≠ Space.host) (hin : inMem (r.loc + 7) = true)
    (hready : u.homeReady u.cur.phys r.loc r.bytes = true)
    (hpass : u.passes u.cur.phys u.seq r.bounds (spanKeys r.loc r.bytes) = some []) (hpage : u.tlbHit r.loc = true)
    (herr : u.errorAt r.loc r.bytes = none) {old : Nat} (hold : old = leNat (u.readHomeN r.loc r.bytes)) :
    ∃ t, Runs [.atomicAtHome u.cur.phys, .atomicReplyArrival u.cur.phys, .threadRejoin u.cur.phys] u t ∧
      t.cur.pc = u.cur.pc + 4 ∧ t.cur.wait = none ∧ (0 < d.toNat → t.cur.reg d.toNat = r.result (BitVec.ofNat 64 old)) ∧
      (r.op ≠ .cas ∨ old = r.cmp.toNat → t.mem = writeCells u.mem (r.cells old)) ∧
      (r.op = .cas → old ≠ r.cmp.toNat → t.mem = u.mem) := by
  obtain ⟨t, ht, -, hcur, -, hwritten, hdiffers⟩ :=
    exec_atomicAtHome_answers (slot := u.cur.phys) (by rwa [State.slotAt_cur]) hsp hin hready hpass hpage herr hold
  obtain ⟨m, p, hcur⟩ := hcur rfl
  have hphys : t.cur.phys = u.cur.phys := by rw [hcur]
  have hreply := exec_atomicReplyArrival (s := t) (slot := t.cur.phys) (by rw [State.slotAt_cur, hcur])
  rw [State.slotAt_cur, State.setSlot_cur (by rfl), hphys] at hreply
  have hgo := exec_threadRejoin_done (s := { t with cur := t.cur.waitFor (.done d (r.result (BitVec.ofNat 64 old))) }) rfl
    (.inl (by rw [hcur]; exact hst)) (by rw [hcur]; exact hbusy) hd
  have hpc : t.cur.pc = u.cur.pc := by rw [hcur]
  rw [show (t.cur.waitFor _).phys = u.cur.phys from hphys] at hgo
  refine ⟨_, ⟨t, ht, _, hreply, _, hgo, rfl⟩, congrArg (· + 4) hpc, Slot.setReg_wait .., fun h => ?_, hwritten hd, hdiffers⟩
  exact Slot.reg_setReg_same _ _ (by omega) hd

/-- What an atomic does as it issues, once its operands are read (R262). -/
theorem exec_atomic_of_reads {i : Instr} {op : AtomOp} {d a b : Reg5} {kind : Kind} {sc : Scope} {o w32 : Bool} {s : State}
    {x v cmp : Word} {c : Slot}
    (h : ((∃ c₁, s.cur.readReg a = some (x, c₁) ∧ c₁.readReg b = some (v, c)) ∧ cmp = 0 ∧ Atomic i op d a b kind sc o w32) ∨
      ((∃ c₁ c₂, s.cur.readReg a = some (x, c₁) ∧ c₁.readReg b = some (v, c₂) ∧ c₂.readReg d = some (cmp, c) ∧
        i = .acas d a b kind sc w32) ∧ op = .cas ∧ o = false)) :
    exec i s = atomicGo s c op d x v cmp kind sc o w32 := by
  obtain ⟨⟨c₁, ha, hb⟩, rfl, hi⟩ | ⟨⟨c₁, c₂, ha, hb, hd, rfl⟩, rfl, rfl⟩ := h
  · rw [exec_eq_atomic hi, atomic, withSrc2_of_reads _ ha hb]
  · exact withSrc3_of_reads _ ha hb hd

/-- Settles O24: the issue of an atomic, its performance at the home, and its answer. -/
theorem atomicsArePerformedOnce : Obligations.AtomicsArePerformedOnce := by
  refine ⟨?_, ?_, fun s slot d r old hw => exec_atomicReplyArrival hw⟩
  · intro i op d a b kind sc o w32 s x v cmp c k hi hd hk hbusy p r u
    have hex := (exec_atomic_of_reads hi).trans (atomicGo_of_resolve op v cmp kind sc o hd hk)
    refine ⟨?_, ?_⟩
    · rintro rfl hroom
      have h : enterOut p.1 p.2 r = _ := enterOut_of_room r (by rwa [afterRelease_outb, afterRelease_phys])
      refine hex.trans (h.trans ?_)
      simp only [p, afterRelease_outb, afterRelease_phys, afterRelease_seq, afterRelease_pc, afterRelease_ir]
    · rintro rfl hd24 hsp hready hpass hin hpage herr
      have hissue : exec i s = .next u := hex
      have hphys : u.cur.phys = c.phys := afterRelease_phys ..
      have hpc : u.cur.pc = c.pc := afterRelease_pc ..
      have hseq : u.seq = s.seq := afterRelease_seq ..
      have hmem : u.mem = s.mem := afterRelease_mem ..
      have hbusy' : u.cur.busy = 0 := (afterRelease_busy ..).trans hbusy
      have herr' : u.errorAt r.loc r.bytes = none := by
        rw [State.errorAt, show u.errs = s.errs from afterRelease_errs ..]
        exact herr
      have hread : u.readHomeN r.loc r.bytes = s.readHomeN r.loc r.bytes := readHomeN_congr hmem r.bytes hin r.bytes_le
      rw [← hphys] at hready hpass
      rw [← hseq] at hpass
      obtain ⟨t, hrun, hpc', hwait, hreg, hwritten, hdiffers⟩ := runs_atomic (u := u) (d := d) (r := r) rfl rfl hbusy' hd24 hsp hin
        hready hpass hpage herr' rfl
      rw [hphys] at hrun
      rw [hread] at hreg hwritten hdiffers
      rw [hmem] at hwritten hdiffers
      exact ⟨t, ⟨u, hissue, hrun⟩, hpc'.trans (by rw [hpc]), hwait, hreg, hwritten, hdiffers⟩
  · intro s slot c d r old hc ho hw hsp hin hready hpass hpage herr hold
    subst hc
    obtain ⟨t, ht, hwait, -, hrest⟩ := exec_atomicAtHome_answers hw hsp hin hready hpass hpage herr hold
    exact ⟨t, ht, hwait ho, hrest⟩

/-! ### Reductions and system atomics -/

theorem exec_reduction_of_reads {i : Instr} {op : AtomOp} {a b : Reg5} {rel : Option Scope} {o w32 : Bool} {s : State} {x v : Word}
    {c₁ c : Slot} {k : Nat} (h : Reduction i op a b rel o w32) (ha : s.cur.readReg a = some (x, c₁)) (hb : c₁.readReg b = some (v, c))
    (hk : resolve s c x (if w32 then 4 else 8) .atomic = .ok k) :
    exec i s = enterOut (afterRelease s c rel).1 (afterRelease s c rel).2 (request op w32 x v 0 k o (afterRelease s c rel).2.rels) := by
  have hgo (op : AtomOp) (release : Bool) (sc : Scope) : reduction s op a b release sc o w32 =
      enterOut (afterRelease s c (if release then some sc else none)).1 (afterRelease s c (if release then some sc else none)).2
        (request op w32 x v 0 k o (afterRelease s c (if release then some sc else none)).2.rels) := by
    rw [reduction, withSrc2_of_reads _ ha hb]
    simp only [hk]
    have hzero : (0 : Word) = cutWord w32 0 := by cases w32 <;> rfl
    conv => lhs; rw [hzero]
    exact withRelease_request s c _ op w32 x v 0 k o enterOut
  cases h <;> exact hgo ..

theorem exec_reductionAtHome_of_ready {s : State} {k : Nat} {e : OutReq} (he : s.outb[k]? = some e) (hd : e.done = false)
    (hsp : keySpace e.req.loc ≠ Space.host) (hgo : s.outMayGo e = true)
    (hpass : s.passes e.slot e.seq e.req.bounds (spanKeys e.req.loc e.req.bytes) = some []) (hpage : s.tlbHit e.req.loc = true)
    (herr : s.errorAt e.req.loc e.req.bytes = none) :
    ∃ es ctx, exec (.reductionAtHome k) s = .next ((({ s with early := es } : State).perform ctx e.req).1.outPerformed e) := by
  obtain ⟨es, hes⟩ := s.close_nil
  refine ⟨es, (({ s with early := es } : State).slotAt e.slot).owner.getD 0, ?_⟩
  change execReductionAtHome k s = _
  unfold execReductionAtHome outAtHome
  simp only [he]
  rw [if_neg (by simpa using hsp), if_neg (by simp [hd, hgo]), hpass]
  dsimp only
  rw [withPages_of_hits _ _ (by simpa using hpage), hes]
  rw [show ({ s with early := es } : State).errorAt e.req.loc e.req.bytes = none from herr]

theorem exec_reductionAckArrival {s : State} {k : Nat} {e : OutReq} (he : s.outb[k]? = some e) (hd : e.done = true) :
    exec (.reductionAckArrival k) s = .next { s with outb := s.outb.filter (fun f => f.seq != e.seq) } := by
  change execReductionAckArrival k s = _
  unfold execReductionAckArrival
  simp only [he]
  rw [if_pos hd]

theorem inMem_host {k : Nat} (h : keySpace k = Space.host) : inMem (k + 7) = true := by
  unfold inMem
  refine decide_eq_true ?_
  unfold keySpace at *
  simp only [Space.host, Space.pool] at *
  omega

theorem tlbHit_host {s : State} {k : Nat} (h : keySpace k = Space.host) : s.tlbHit k = true := by
  simp [State.tlbHit, State.tlbHas, State.tlbKey, State.keyHeld, h, Space.host, Space.dev]

/-- R401: the host node performs an atomic on system space, or refuses it. -/
theorem exec_systemAtomicReply_of_ready {s : State} {d : Reg5} {r : AtomReq} (hw : s.cur.wait = some (.atomic d r))
    (hsp : keySpace r.loc = Space.host) (hready : s.homeReady s.cur.phys r.loc r.bytes = true)
    (hpass : s.passes s.cur.phys s.seq r.bounds (spanKeys r.loc r.bytes) = some []) (refused : Bool) :
    ∃ es, exec (.systemAtomicReply s.cur.phys refused) s = .next (if refused then
        ({ s with early := es } : State).setSlot (s.cur.waitFor (.trapped .perm r.va))
      else (({ s with early := es } : State).performFor s.cur d r).1.answerAtomic s.cur.phys
        (.done d (r.result (BitVec.ofNat 64 (leNat (s.readHomeN r.loc r.bytes)))))) := by
  obtain ⟨es, hes⟩ := atHome_of_ready "SYSTEM_ATOMIC_REPLY" (fun s' =>
      if refused then .next (s'.setSlot (s.cur.waitFor (.trapped .perm r.va)))
      else
        let (t, old) := s'.performFor s.cur d r
        .next (t.answerAtomic s.cur.phys (.done d (r.result old)))) hready hpass (tlbHit_host hsp)
  refine ⟨es, ?_⟩
  change execSystemAtomicReply s.cur.phys refused s = _
  unfold execSystemAtomicReply
  simp only [State.slotAt_cur, hw]
  rw [if_neg (by simpa using hsp)]
  simp only [hes]
  cases refused with
  | true => rfl
  | false =>
    simp only [Bool.false_eq_true, if_false]
    rw [State.performFor_snd, readHomeN_early s r es (inMem_host hsp)]

/-- Settles O25: a reduction's issue, its performance and its acknowledgement; and the host's answer to an atomic. -/
theorem reductionsAndSystemAtomics : Obligations.ReductionsAndSystemAtomics := by
  refine ⟨⟨fun i op a b rel o w32 s x v c₁ c k hi ha hb hk hroom => ?_, fun s k e he hd hsp hgo hpass hop hin hpage herr => ?_,
    fun s k e he hd => exec_reductionAckArrival he hd⟩, fun s d r hw hsp hready hpass hst hd => ⟨?_, fun hop => ?_⟩⟩
  · refine (exec_reduction_of_reads hi ha hb hk).trans ?_
    refine (enterOut_of_room _ (by rwa [afterRelease_outb, afterRelease_phys])).trans ?_
    simp only [afterRelease_outb, afterRelease_phys, afterRelease_seq, afterRelease_pc, afterRelease_ir]
  · obtain ⟨es, ctx, ht⟩ := exec_reductionAtHome_of_ready he hd hsp hgo hpass hpage herr
    have hread := readHomeN_early s e.req es hin
    refine ⟨_, ht, ?_, ?_⟩
    · have hkey : s.keyHeld e.req.loc = true := (Bool.and_eq_true_iff.1 hpage).2
      have := State.perform_mem_of_written (s := { s with early := es }) ctx hin hkey (.inl hop)
      rw [hread] at this
      exact this
    · obtain ⟨-, -, hout⟩ := State.perform_slotsKept (s := { s with early := es }) ctx hin
      exact congrArg (List.map _) hout
  · obtain ⟨es, ht⟩ := exec_systemAtomicReply_of_ready hw hsp hready hpass true
    rw [if_pos rfl, State.setSlot_cur (by rfl)] at ht
    exact ⟨_, ht, rfl, rfl⟩
  · obtain ⟨es, ht⟩ := exec_systemAtomicReply_of_ready hw hsp hready hpass false
    rw [if_neg (by decide)] at ht
    have hin := inMem_host hsp
    have hread := readHomeN_early s r es hin
    obtain ⟨⟨m, hcur⟩, -, -⟩ := State.performFor_slotsKept (s := { s with early := es }) (c := s.cur) (d := d) hin
    refine ⟨_, ht, ?_, ?_⟩
    · have hphys : (({ s with early := es } : State).performFor s.cur d r).1.cur.phys = s.cur.phys := by rw [hcur]
      obtain ⟨p, hp⟩ := State.answerAtomic_cur (({ s with early := es } : State).performFor s.cur d r).1
        (.done d (r.result (BitVec.ofNat 64 (leNat (s.readHomeN r.loc r.bytes)))))
      rw [hphys] at hp
      rw [hp]
    · rw [State.answerAtomic_mem, State.performFor_of_taken (resultRefused_reg _ hd),
        State.perform_mem_of_written (s := { s with early := es }) _ hin (Bool.and_eq_true_iff.1 (tlbHit_host (s := s) hsp)).2
          (.inl hop), hread]
      rfl

end Sys2Proof.Machine


/-! Queue destinations (R75, R267 to R269, R285, R301, R390; O11). -/

namespace Sys2Proof.Machine

section Queue
variable {s : State} {c : Slot} {x : Ctx} {w npc : Word}

/-! ### Matrix command words -/

theorem takeWords_fresh (h : checkCommand x c w none = none) :
    takeWords x c none [w] = if bits w 63 60 = 5 then .ok ([], some w) else .ok ([w], none) := by
  simp only [takeWords, List.head?_nil, ite_self, h]

theorem takeWords_fresh_refused {r : Refused} (h : checkCommand x c w none = some r) : takeWords x c none [w] = .error r := by
  simp only [takeWords, List.head?_nil, ite_self, h]

theorem takeWords_second {h : Word} (hw : checkSecond w = none) : takeWords x c (some h) [w] = .ok ([h, w], none) := by
  simp only [takeWords, hw]

theorem takeWords_second_refused {h : Word} {r : Refused} (hw : checkSecond w = some r) : takeWords x c (some h) [w] = .error r := by
  simp only [takeWords, hw]

/-- An accepted second word has no bits where a command has its code (Table 17-2). -/
theorem bits_code_of_second (hw : checkSecond w = none) : bits w 63 60 = 0 := by
  have hlow : bits w 63 10 = 0 := by
    refine Classical.byContradiction fun h => ?_
    simp [checkSecond, h] at hw
  have := w.isLt
  unfold bits at *
  omega

/-- The windows whose descriptors travel with some command words (R275). -/
def stWindows (c : Slot) (out : List Word) : List (Nat × Word) :=
  out.filterMap (fun w => if bits w 63 60 = 3 then some (c.phys, c.win (bits w 49 47)) else none)

/-- The slot of a thread whose push to q0 has entered some words (R267). -/
def Slot.pushed0 (s : State) (c : Slot) (out : List Word) (held : Option Word) (npc : Word) : Slot :=
  { c.release .clus s.seq with q0push := c.q0push ++ out.map (fun w => (w, s.seq)), q0held := held, pc := npc }

theorem pushQueue_command (hx : s.ctxOf c = some x) {out : List Word} {held : Option Word}
    (ht : takeWords x c c.q0held [w] = .ok (out, held)) (hroom : c.q0push.length + out.length ≤ 4) (hst : stWindows c out = []) :
    pushQueue s c 24 w npc = .next { s with cur := c.pushed0 s out held npc } := by
  unfold stWindows at hst
  simp only [pushQueue, pushWith, pushMatrix, hx, ht, if_pos hroom, hst]
  rfl

theorem pushQueue_command_window (hx : s.ctxOf c = some x) {out : List Word} {held : Option Word} {u : MUnit} {e : Nat × Word}
    (ht : takeWords x c c.q0held [w] = .ok (out, held)) (hroom : c.q0push.length + out.length ≤ 4) (hst : stWindows c out = [e])
    (hu : s.unitAt (clusOf c.phys) = some u) :
    pushQueue s c 24 w npc = .next { s with
      cur := c.pushed0 s out held npc,
      matrix := updKey (fun v => v.clus == u.clus) { u with stWins := u.stWins ++ [e] } s.matrix } := by
  unfold stWindows at hst
  simp only [pushQueue, pushWith, pushMatrix, hx, ht, if_pos hroom, hst, hu]
  rfl

theorem pushQueue_command_full (hx : s.ctxOf c = some x) {out : List Word} {held : Option Word}
    (ht : takeWords x c c.q0held [w] = .ok (out, held)) (hfull : 4 < c.q0push.length + out.length) :
    pushQueue s c 24 w npc = .next { s with cur := { c with wait := some (.push 24 w npc .nothing), status := .waitMsg } } := by
  simp only [pushQueue, pushWith, pushMatrix, hx, ht, if_neg (Nat.not_le.2 hfull)]
  rfl

theorem pushQueue_command_refused (hx : s.ctxOf c = some x) {r : Refused} (ht : takeWords x c c.q0held [w] = .error r) :
    pushQueue s c 24 w npc = trap s { c with q0held := none } r.1 r.2 := by
  simp only [pushQueue, pushWith, pushMatrix, hx, ht]

/-! ### Trace words -/

theorem pushQueue_trace_untraced (h : s.traceKept c = false) :
    pushQueue s c 29 w npc = .next { s with cur := { c.release .clus s.seq with pc := npc } } := by
  simp only [pushQueue, pushWith, pushTrace, h]
  rfl

theorem pushQueue_trace_kept (h : s.traceKept c = true) (hq : c.q5.length < 8) :
    pushQueue s c 29 w npc = .next { s with
      cur := { c.release .clus s.seq with q5 := c.q5 ++ [{ word := w, cycle := s.cycle, pc := c.pc }], pc := npc } } := by
  simp only [pushQueue, pushWith, pushTrace, h, if_pos hq]
  rfl

theorem pushQueue_trace_full (h : s.traceKept c = true) (hq : 8 ≤ c.q5.length) :
    pushQueue s c 29 w npc = .next { s with cur := { c with wait := some (.push 29 w npc .nothing), status := .waitMsg } } := by
  simp only [pushQueue, pushWith, pushTrace, h, if_neg (Nat.not_lt.2 hq)]
  rfl

/-! ### Message words -/

theorem headerDue_eq_false (h : bodyMissing 0 (c.q2send.map (fun e => e.1)) ≠ none) : headerDue c = false := by
  unfold headerDue
  rwa [Option.isNone_eq_false_iff, Option.isSome_iff_ne_none]

theorem headerDue_eq_true (h : bodyMissing 0 (c.q2send.map (fun e => e.1)) = none) : headerDue c = true := by
  unfold headerDue
  rw [h]
  rfl

theorem pushQueue_message_refused (hx : s.ctxOf c = some x) {r : Nat} (hb : headerDue c = true) (hr : checkHeader x w = some r) :
    pushQueue s c 26 w npc = trap s c .queue (BitVec.ofNat 64 r) := by
  simp only [pushQueue, pushWith, pushMessage, hx, hb, if_true, hr]

theorem pushQueue_message_full (hx : s.ctxOf c = some x) (hok : headerDue c = false ∨ checkHeader x w = none)
    (hq : 16 ≤ c.q2send.length) :
    pushQueue s c 26 w npc = .next { s with cur := { c with wait := some (.push 26 w npc .nothing), status := .waitMsg } } := by
  have hnone : (if headerDue c = true then checkHeader x w else none) = none := by
    obtain h | h := hok
    · rw [h]; rfl
    · rw [h, ite_self]
  simp only [pushQueue, pushWith, pushMessage, hx, hnone, if_neg (Nat.not_lt.2 hq)]
  rfl

theorem pushQueue_message_body (hx : s.ctxOf c = some x) (hb : headerDue c = false) (hq : c.q2send.length < 16) {sc : Scope}
    (hsc : sc = placeScope c.phys (headerSlot x (lastHeader 0 w (c.q2send.map (fun e => e.1) ++ [w])))) :
    pushQueue s c 26 w npc = .next { s.publish c sc with
      cur := { c.release sc s.seq with q2send := c.q2send ++ [(w, s.seq)], pc := npc } } := by
  subst hsc
  simp only [pushQueue, pushWith, pushMessage, hx, hb, Bool.false_eq_true, if_false, if_pos hq]
  rfl

theorem lastHeader_append {ws : List Word} (v : Word) : ∀ {n : Nat} (h : Word), bodyMissing n ws = none → lastHeader n h (ws ++ [v]) = v := by
  induction ws with
  | nil =>
    intro n h hn
    cases n with
    | zero => rw [List.nil_append, lastHeader, lastHeader]
    | succ n => simp [bodyMissing] at hn
  | cons u ws ih =>
    intro n h hn
    cases n with
    | zero => exact ih u hn
    | succ n => exact ih h hn

/-- The core and the slot that a header names are its own in the delivered one. -/
theorem headerSlot_sentHeader (x : Ctx) (c : Slot) (w : Word) : headerSlot x (sentHeader c w) = headerSlot x w := by
  have hval : (sentHeader c w).toNat = w.toNat % 2 ^ 27 + c.thread % 2 ^ 17 * 2 ^ 27 := by
    unfold sentHeader
    rw [BitVec.toNat_ofNat]
    omega
  have hcore : bits (sentHeader c w) 23 8 = bits w 23 8 := by
    unfold bits
    rw [hval]
    omega
  have hslot : bits (sentHeader c w) 6 4 = bits w 6 4 := by
    unfold bits
    rw [hval]
    omega
  simp only [headerSlot, hcore, hslot]

theorem pushQueue_message_header (hx : s.ctxOf c = some x) (hb : bodyMissing 0 (c.q2send.map (fun e => e.1)) = none)
    (hw : checkHeader x w = none) (hq : c.q2send.length < 16) {sc : Scope} (hsc : sc = placeScope c.phys (headerSlot x w)) :
    pushQueue s c 26 w npc = .next { s.publish c sc with
      cur := { c.release sc s.seq with q2send := c.q2send ++ [(sentHeader c w, s.seq)], pc := npc } } := by
  rw [← headerSlot_sentHeader x c w] at hsc
  subst hsc
  simp only [pushQueue, pushWith, pushMessage, hx, headerDue_eq_true hb, if_true, hw, if_pos hq, lastHeader_append _ _ hb]
  rfl

end Queue

/-- Settles O11: the fresh command word, the second word of MXRING, the trace word and the message word. -/
theorem queueDestinations : Obligations.QueueDestinations := by
  intro s c w npc
  refine ⟨⟨rfl, rfl, rfl⟩, fun x hx hheld => ⟨fun r hr => ?_, fun hok h5 hq => ?_, fun hok h5 h3 hq => ?_, fun u hok h3 hq hu => ?_,
    fun hok h5 hq => ?_⟩, fun x h hx hheld => ⟨fun r hr => ?_, fun hok h5 hq => ?_, fun hok hq => ?_⟩, pushQueue_trace_untraced,
    pushQueue_trace_kept, pushQueue_trace_full, fun x sc hx hb hq hsc => pushQueue_message_body hx (headerDue_eq_false hb) hq hsc,
    fun x sc hx hb hw hq hsc => pushQueue_message_header hx hb hw hq hsc, fun x hx hq hok => ?_,
    fun x r hx hb hr => pushQueue_message_refused hx (headerDue_eq_true hb) hr⟩
  · refine (pushQueue_command_refused hx (hheld ▸ takeWords_fresh_refused hr)).trans ?_
    rw [← hheld]
  · have ht : takeWords x c c.q0held [w] = .ok ([], some w) := by rw [hheld, takeWords_fresh hok, if_pos h5]
    refine (pushQueue_command hx ht (by simpa using hq) rfl).trans ?_
    simp only [Slot.pushed0, List.map_nil, List.append_nil]
    rfl
  · have ht : takeWords x c c.q0held [w] = .ok ([w], none) := by rw [hheld, takeWords_fresh hok, if_neg h5]
    refine (pushQueue_command hx ht hq (by simp [stWindows, h3])).trans ?_
    rw [← hheld]
    rfl
  · have ht : takeWords x c c.q0held [w] = .ok ([w], none) := by rw [hheld, takeWords_fresh hok, if_neg (by omega)]
    refine (pushQueue_command_window (e := (c.phys, c.win (bits w 49 47))) hx ht hq (by simp [stWindows, h3]) hu).trans ?_
    rw [← hheld]
    rfl
  · have ht : takeWords x c c.q0held [w] = .ok ([w], none) := by rw [hheld, takeWords_fresh hok, if_neg h5]
    exact pushQueue_command_full hx ht (by rw [List.length_singleton]; omega)
  · exact pushQueue_command_refused hx (hheld ▸ takeWords_second_refused hr)
  · have ht : takeWords x c c.q0held [w] = .ok ([h, w], none) := by rw [hheld, takeWords_second hok]
    exact pushQueue_command hx ht (by simpa using hq) (by simp [stWindows, h5, bits_code_of_second hok])
  · have ht : takeWords x c c.q0held [w] = .ok ([h, w], none) := by rw [hheld, takeWords_second hok]
    exact pushQueue_command_full hx ht (by simp; omega)
  · refine pushQueue_message_full hx ?_ hq
    exact hok.imp_left headerDue_eq_false

end Sys2Proof.Machine


/-! Fences, monitors and the ends of a task (R139 to R144, R242 to R245; O22). -/

namespace Sys2Proof.Machine

theorem publish_fenceClear (s : State) (c : Slot) (sc sc' : Scope) (slot : Nat) :
    fenceClear (s.publish c sc) slot sc' = fenceClear s slot sc' := by
  obtain ⟨units, pubs, h⟩ := publish_eq s c sc
  rw [h]
  rfl

/-- A FENCE but an .acq one waits until the slot's writes are acknowledged (R243). -/
theorem execFence_release {kind : FenceKind} (h : kind ≠ .acq) (sc : Scope) (s : State) :
    exec (.fence kind sc) s = if fenceClear s s.cur.phys sc then
        .next (goesOn (s.publish s.cur sc) ((s.publish s.cur sc).acquired (s.cur.release sc s.seq)))
      else .next (waiting (s.publish s.cur sc) (s.cur.release sc s.seq) (.fence sc)) := by
  have hfence : execFence kind sc s = if fenceClear (s.publish s.cur sc) s.cur.phys sc then
      done (s.publish s.cur sc) ((s.publish s.cur sc).acquired (s.cur.release sc s.seq))
      else waitOn (s.publish s.cur sc) (s.cur.release sc s.seq) (.fence sc) := by
    cases kind with
    | acq => contradiction
    | full | rel => rfl
  rw [publish_fenceClear] at hfence
  exact hfence

/-- IFLUSH discards the lines, and the thread's next turn goes on (R245). -/
theorem runs_iflush (s : State) (hb : s.cur.busy = 0) : ∃ t, Runs [.iflush, .threadRejoin s.cur.phys] s t ∧
    t.cur.pc = s.cur.pc + 4 ∧ t.cur.regs = s.cur.regs ∧ t.mem = s.mem ∧
    t.icache = s.icache.filter (fun l => !(l.core == coreOf s.cur.phys && some l.ctx == s.cur.owner)) := by
  have hgo := exec_threadRejoin_of_rejoin (w := .iflush)
    (s := waiting { s with icache := s.icache.filter (fun l => !(l.core == coreOf s.cur.phys && some l.ctx == s.cur.owner)) } s.cur
      .iflush) rfl (.inl rfl) hb rfl (by simp [Slot.ready, Slot.goto])
  exact ⟨_, ⟨_, rfl, _, hgo, rfl⟩, rfl, rfl, rfl, rfl⟩

/-- A task that ends leaves its slot scrubbed and memory as it is (R139, R140). -/
theorem endTask_scrubs (s : State) (st : Status) : ∃ t, endTask s s.cur st = .next t ∧ t.cur.status = st ∧
    t.cur.regs = Vector.replicate 24 0 ∧ t.cur.monitor = none ∧ t.cur.fflags = 0 ∧ t.mem = s.mem :=
  ⟨_, rfl, rfl, rfl, rfl, rfl, State.leaveAll_mem ..⟩

theorem exec_marm_of_resolve {s : State} {a : Reg5} {imm : BitVec 12} {x : Word} {c : Slot} {k : Nat}
    (ha : s.cur.readReg a = some (x, c)) (hk : resolve s c (x + imm.signExtend 64) 1 (.load 1) = .ok k)
    (hsp : keySpace k ≠ Space.host) :
    exec (.marm a imm) s = .next (goesOn s { c with monitor := some { block := k / 64, trig := false } }) := by
  refine (withSrc1_of_read _ ha).trans ?_
  simp only [immWord, hk]
  rw [if_neg (by simpa using hsp)]
  rfl

theorem exec_mwait_of_none {s : State} (h : s.cur.monitor = none) : exec .mwait s = .next (goesOn s s.cur) := by
  change execMwait s = _
  simp only [execMwait, h]
  rfl

theorem exec_mwait_of_some {s : State} {m : Monitor} (h : s.cur.monitor = some m) :
    exec .mwait s = if m.trig then .next (goesOn s { s.cur with monitor := none }) else .next (waiting s s.cur .mwait) := by
  change execMwait s = _
  simp only [execMwait, h]
  rfl

/-- Settles O22, instruction by instruction. -/
theorem fencesMonitorsAndEnds : Obligations.FencesMonitorsAndEnds := by
  intro s
  refine ⟨fun sc => rfl, fun kind sc hk hclear => ⟨_, _, rfl, rfl, ?_⟩, fun kind sc hk hclear => ?_, fun hb => ?_, rfl,
    endTask_scrubs s .vacant, endTask_scrubs s .idle, fun a imm x c k ha hk hsp => exec_marm_of_resolve ha hk hsp, rfl,
    exec_mwait_of_none, fun m hm => ⟨fun ht => ?_, fun ht => ?_⟩⟩
  · rw [execFence_release hk, if_pos hclear]
  · rw [execFence_release hk, if_neg (by simp [hclear])]
  · obtain ⟨t, hrun, hpc, hregs, hmem, hcache⟩ := runs_iflush s hb
    refine ⟨t, hrun, hpc, hregs, hmem, fun l hl => ?_⟩
    rw [hcache, List.mem_filter] at hl
    exact Classical.not_and_iff_not_or_not.2 (by simpa [Classical.not_and_iff_not_or_not] using hl.2)
  · rw [exec_mwait_of_some hm, if_pos ht]
  · rw [exec_mwait_of_some hm, if_neg (by simp [ht])]

end Sys2Proof.Machine


/-! FORK, RFORK and JOIN (R128, R136 to R138; O23). -/

namespace Sys2Proof.Machine

/-! ### Partitions -/

theorem State.dequeAt_key (s : State) (x : Ctx) (core : Nat) : (s.dequeAt x core).core = core ∧ (s.dequeAt x core).ctx = x.id := by
  unfold State.dequeAt
  cases h : s.deques.find? (fun d => d.core == core && d.ctx == x.id) with
  | none => exact ⟨rfl, rfl⟩
  | some d => simpa using List.find?_some h

/-- A partition that has been put back holds its records. -/
theorem dequeAt_setDeque_items (s : State) {x : Ctx} {core : Nat} {d : Deque} (hc : d.core = core) (hx : d.ctx = x.id) :
    ((s.setDeque d).dequeAt x core).items = d.items := by
  have hput (e : Deque) (hec : e.core = core) (hex : e.ctx = x.id) :
      (({ s with deques := updKey (fun f => f.core == e.core && f.ctx == e.ctx) e s.deques } : State).dequeAt x core) = e := by
    unfold State.dequeAt
    dsimp only
    rw [hec, hex, find_updKey_same _ _ (by simp [hec, hex])]
    rfl
  unfold State.setDeque
  dsimp only
  split
  · split
    · exact congrArg Deque.items (hput d hc hx)
    · have h := congrArg Deque.items (hput { d with steal := .none } hc hx)
      exact h
  · exact congrArg Deque.items (hput d hc hx)

theorem State.dequeAt_congr {s t : State} (h : t.deques = s.deques) (x : Ctx) (core : Nat) : t.dequeAt x core = s.dequeAt x core := by
  simp only [State.dequeAt, h]

/-! ### FORK -/

/-- A record is pushed while its partition has room (R128). -/
theorem pushTask_of_room {s : State} {c : Slot} {x : Ctx} (t : TaskRec) (hx : s.ctxOf c = some x)
    (hroom : (s.dequeAt x (coreOf c.phys)).items.length < x.dequeCap (coreOf c.phys)) :
    ∃ u, pushTask s c t = .next u ∧ u.cur = c.ready.goto c.npc ∧ u.mem = s.mem ∧
      (u.dequeAt x (coreOf c.phys)).items = t :: (s.dequeAt x (coreOf c.phys)).items := by
  obtain ⟨hcore, hctx⟩ := s.dequeAt_key x (coreOf c.phys)
  have hpush : pushTask s c t = done ((s.setDeque { s.dequeAt x (coreOf c.phys) with
      items := t :: (s.dequeAt x (coreOf c.phys)).items }).count x.id c.lcore 0x48 1) c.ready := by
    simp only [pushTask, hx, if_pos hroom]
  refine ⟨_, hpush, rfl, by simp, ?_⟩
  have hput := dequeAt_setDeque_items s (d := { s.dequeAt x (coreOf c.phys) with
      items := t :: (s.dequeAt x (coreOf c.phys)).items }) hcore hctx
  exact (congrArg Deque.items (State.dequeAt_congr (State.count_deques ..) ..)).trans hput

/-- The record that FORK pushes (R136). -/
def forkRecord (s : State) (c : Slot) (e g : Word) : TaskRec :=
  { entry := e, arg := g, ctx := c.owner.getD 0, domain := c.domain, creator := c.thread, origin := c.lcore, slot := c.phys,
    seq := s.seq + 1 }

theorem exec_fork_of_room {s : State} {a b : Reg5} {e g : Word} {c₁ c : Slot} {x : Ctx} (ha : s.cur.readReg a = some (e, c₁))
    (hb : c₁.readReg b = some (g, c)) (he : e.toNat % 4 = 0) (hx : s.ctxOf c = some x)
    (hroom : (s.dequeAt x (coreOf c.phys)).items.length < x.dequeCap (coreOf c.phys)) :
    ∃ t, exec (.fork a b) s = .next t ∧ t.cur.pc = c.pc + 4 ∧ t.mem = s.mem ∧ (t.dequeAt x (coreOf c.phys)).items =
      forkRecord s c e g :: (s.dequeAt x (coreOf c.phys)).items := by
  obtain ⟨units, pubs, hpub⟩ := publish_eq s c .dev
  have hfork : exec (.fork a b) s = pushTask { s with matrix := units, pubs := pubs, seq := s.seq + 1 } (c.release .dev s.seq)
      (forkRecord s c e g) := by
    refine (withSrc2_of_reads _ ha hb).trans ?_
    rw [if_neg (by omega)]
    simp only [released, hpub]
    rfl
  obtain ⟨u, hu, hcur, hmem, hitems⟩ := pushTask_of_room (s := { s with matrix := units, pubs := pubs, seq := s.seq + 1 })
    (c := c.release .dev s.seq) (forkRecord s c e g) hx hroom
  exact ⟨u, hfork.trans hu, by rw [hcur]; rfl, hmem, hitems⟩

/-! ### RFORK -/

section Rfork
variable {s : State} {d a b : Reg5} {e n cell : Word} {c₁ c₂ c : Slot} {k : Nat}

/-- What RFORK does once its operands are read and its checks pass (R137). -/
theorem exec_rfork_of_resolve (ha : s.cur.readReg a = some (e, c₁)) (hb : c₁.readReg b = some (n, c₂))
    (hd : c₂.readReg d = some (cell, c)) (he : e.toNat % 4 = 0) (hc : cell.toNat % 8 = 0)
    (hk : resolve s c cell 8 (.store 8) = .ok k) :
    exec (.rfork d a b) s = if n = 0 then rforkNone s c cell k
      else .next (waiting (s.publish c .dev) (c.release .dev s.seq) (.rfork e n cell)) := by
  refine (withSrc3_of_reads _ ha hb hd).trans ?_
  rw [if_neg (by omega), if_neg (by omega)]
  simp only [hk]
  rfl

theorem rforkNone_of_room (h : s.sbCount (coreOf c.phys) < 32) :
    ∃ t, rforkNone s c cell k = .next t ∧ t.cur.pc = c.pc + 4 ∧ t.cur.reg 2 = 0 ∧ t.cur.reg 3 = 0 ∧
      t.sbuf = s.sbuf ++ [{ core := coreOf c.phys, slot := c.phys, seq := s.seq, rel := none, unit := 8, bounds := c.rels,
                            cells := cellsAt k (leBytes 8 1) }] := by
  refine ⟨_, if_pos h, rfl, ?_, ?_, rfl⟩
  · exact (Slot.reg_setReg_other _ _ (by decide)).trans (Slot.reg_setReg_same _ _ (by decide) (by decide))
  · exact Slot.reg_setReg_same _ _ (by decide) (by decide)

theorem rforkNone_of_full (h : 32 ≤ s.sbCount (coreOf c.phys)) : rforkNone s c cell k = .next (waiting s c (.rfork 0 0 cell)) :=
  if_neg (Nat.not_lt.2 h)

end Rfork

/-! ### JOIN -/

theorem State.setSlot_keyHeld (s : State) (c : Slot) (k : Nat) : (s.setSlot c).keyHeld k = s.keyHeld k := by
  unfold State.setSlot
  split
  · rfl
  · split <;> rfl

section Join
variable {s : State} {slot k : Nat} {va : Word}

theorem exec_join_of_resolve {a : Reg5} {c : Slot} (ha : s.cur.readReg a = some (va, c)) (hal : va.toNat % 8 = 0)
    (hst : ∃ j, resolve s c va 8 (.store 8) = .ok j) (hk : resolve s c va 8 .atomic = .ok k) (hsp : keySpace k ≠ Space.host) :
    exec (.join a) s = .next (waiting (s.publish c .dev) (c.release .dev s.seq) (.join va)) := by
  obtain ⟨j, hj⟩ := hst
  refine (withSrc1_of_read _ ha).trans ?_
  rw [if_neg (by omega)]
  simp only [hj, hk]
  rw [if_neg (by simpa using hsp)]
  rfl

theorem exec_joinDecrementAtHome_of_ready (hw : (s.slotAt slot).wait = some (.join va))
    (hk : resolve s (s.slotAt slot) va 8 .atomic = .ok k) (hsp : keySpace k ≠ Space.host) (hready : s.homeReady slot k 8 = true)
    (hpass : s.passes slot s.seq (s.slotAt slot).rels (spanKeys k 8) = some []) (hpage : s.tlbHit k = true)
    (herr : s.errorAt k 8 = none) :
    ∃ es, exec (.joinDecrementAtHome slot) s = .next (joinAtHome { s with early := es } (s.slotAt slot) va k) := by
  obtain ⟨es, hes⟩ := atHome_of_ready "JOIN_DECREMENT_AT_HOME" (fun t => orUncorr t (s.slotAt slot) va k 8
    (.next (joinAtHome t (s.slotAt slot) va k))) hready hpass hpage
  refine ⟨es, ?_⟩
  change execJoinDecrementAtHome slot s = _
  unfold execJoinDecrementAtHome
  simp only [hw, hk]
  rw [if_neg (by simpa using hsp)]
  refine hes.trans ?_
  unfold orUncorr
  rw [show ({ s with early := es } : State).errorAt k 8 = none from herr]

theorem joinAtHome_zero (c : Slot) (h : leNat (s.readHomeN k 8) = 0) :
    joinAtHome s c va k = (s.noteAtomic (c.owner.getD 0) k 8).setSlot (c.waitFor (.trapped .queue va)) := by
  unfold joinAtHome
  simp only [if_pos h]

/-- A cell that is not zero goes down by one, and the reply says whether it was the last (R138). -/
theorem joinAtHome_positive (c : Slot) (h : 0 < leNat (s.readHomeN k 8)) :
    ∃ p, joinAtHome s c va k = ((s.noteAtomic (c.owner.getD 0) k 8).setSlot
      (({ c with tileSeen := p } : Slot).waitFor (.joinReply (leNat (s.readHomeN k 8) == 1)))).land
        (cellsAt k (leBytes 8 (leNat (s.readHomeN k 8) - 1))) := by
  obtain ⟨p, hp⟩ := (s.noteAtomic (c.owner.getD 0) k 8).acquired_eq c
  unfold joinAtHome
  dsimp only
  rw [if_neg (by omega)]
  split
  · exact ⟨p, by rw [hp]⟩
  · exact ⟨c.tileSeen, rfl⟩

/-- The decremented cell, and what the joining slot then waits for (R138). -/
theorem exec_joinDecrementAtHome_positive (hw : (s.slotAt slot).wait = some (.join va))
    (hk : resolve s (s.slotAt slot) va 8 .atomic = .ok k) (hsp : keySpace k ≠ Space.host) (hin : inMem (k + 7) = true)
    (hready : s.homeReady slot k 8 = true) (hpass : s.passes slot s.seq (s.slotAt slot).rels (spanKeys k 8) = some [])
    (hpage : s.tlbHit k = true) (herr : s.errorAt k 8 = none) {old : Nat} (hold : old = leNat (s.readHomeN k 8)) (hpos : 0 < old) :
    ∃ t, exec (.joinDecrementAtHome slot) s = .next t ∧
      ((s.slotAt slot).occupied = true → (t.slotAt slot).wait = some (.joinReply (old == 1))) ∧
      (slot = s.cur.phys → ∃ m p, t.cur = { s.cur with monitor := m, tileSeen := p, wait := some (.joinReply (old == 1)) }) ∧
      t.mem = writeCells s.mem (cellsAt k (leBytes 8 (old - 1))) := by
  obtain ⟨es, hes⟩ := exec_joinDecrementAtHome_of_ready hw hk hsp hready hpass hpage herr
  have hread : ({ s with early := es } : State).readHomeN k 8 = s.readHomeN k 8 :=
    readHomeN_congr (s := s) (t := { s with early := es }) rfl 8 hin (by omega)
  have hlen : (leBytes 8 (old - 1)).length ≤ 8 := Nat.le_of_eq (length_leBytes ..)
  have hall := cellsAt_inMem_of_last hin hlen
  obtain ⟨p, hp⟩ := joinAtHome_positive (s := { s with early := es }) (k := k) (va := va) (s.slotAt slot) (by rw [hread, ← hold]; exact hpos)
  rw [hread, ← hold] at hp
  rw [hp] at hes
  refine ⟨_, hes, fun ho => ?_, ?_, ?_⟩
  · obtain ⟨m, hm⟩ := State.land_slotAt_eq ((({ s with early := es } : State).noteAtomic ((s.slotAt slot).owner.getD 0) k 8).setSlot
      (({ s.slotAt slot with tileSeen := p } : Slot).waitFor (.joinReply (old == 1)))) hall slot
    have hset := State.slotAt_setSlot_same (({ s with early := es } : State).noteAtomic ((s.slotAt slot).owner.getD 0) k 8)
      (c := ({ s.slotAt slot with tileSeen := p } : Slot).waitFor (.joinReply (old == 1))) ho
    rw [show (({ s.slotAt slot with tileSeen := p } : Slot).waitFor (.joinReply (old == 1))).phys = slot from s.slotAt_phys slot] at hset
    rw [hm, hset]
    rfl
  · rintro rfl
    obtain ⟨m, hm⟩ := State.land_cur_eq ((({ s with early := es } : State).noteAtomic ((s.slotAt s.cur.phys).owner.getD 0) k 8).setSlot
      (({ s.slotAt s.cur.phys with tileSeen := p } : Slot).waitFor (.joinReply (old == 1)))) hall
    refine ⟨m, p, ?_⟩
    rw [hm, State.setSlot_cur (by rw [State.noteAtomic_cur]; exact (s.slotAt_phys s.cur.phys).symm), State.slotAt_cur]
    rfl
  · refine (State.land_cellsAt_mem_of_last hin hlen ?_).trans (by rw [State.setSlot_mem, State.noteAtomic_mem])
    rw [State.setSlot_keyHeld, State.noteAtomic_keyHeld]
    exact (Bool.and_eq_true_iff.1 hpage).2

end Join

/-- What a JOIN's own release leaves nothing to wait for, its decrement passes (R235). -/
theorem passes_of_released {s : State} {slot mark k : Nat} {b : Bounds} (h : s.earlierPending slot mark = false)
    (hsp : keySpace k ≠ Space.host) : s.passes slot mark (b.release .dev mark) (spanKeys k 8) = some [] := by
  have hplaced : (b.release .dev mark).placed (spanKeys k 8) = mark := by
    have hhead : (spanKeys k 8).all (fun q => keySpace q == Space.host) = false := by
      refine List.all_eq_false.2 ⟨k, ?_, by simpa using hsp⟩
      exact List.mem_map.2 ⟨0, by decide, rfl⟩
    rw [Bounds.placed, hhead]
    rfl
  have hpend : s.pendO slot mark = false := (Bool.or_eq_false_iff.1 h).2
  unfold State.passes
  rw [hplaced, h]
  simp only [Bounds.release, hpend, h]
  rfl

theorem exec_threadRejoin_joinReply {s : State} {last : Bool} (hw : s.cur.wait = some (.joinReply last))
    (hst : s.cur.status = .waitMem) (hb : s.cur.busy = 0) :
    ∃ t, exec (.threadRejoin s.cur.phys) s = .next t ∧ t.mem = s.mem ∧
      (last = true → t.cur.pc = s.cur.pc + 4 ∧ t.cur.status = .ready) ∧ (last = false → t.cur.status = .idle) := by
  cases last with
  | true =>
    have hgo := exec_threadRejoin_of_rejoin hw (.inl hst) hb rfl (by simp [Slot.ready, Slot.goto])
    exact ⟨_, hgo, rfl, fun _ => ⟨rfl, rfl⟩, fun h => by cases h⟩
  | false =>
    have hgo := exec_threadRejoin_of_rejoin hw (.inl hst) hb rfl (by simp [Slot.endTask])
    exact ⟨_, hgo, State.leaveAll_mem .., fun h => (by cases h), fun _ => rfl⟩

/-- A JOIN from its issue to its thread's turn (R138). -/
theorem runs_join {s : State} {a : Reg5} {va : Word} {c : Slot} {k : Nat} (ha : s.cur.readReg a = some (va, c)) (hal : va.toNat % 8 = 0)
    (hst : ∃ j, resolve s c va 8 (.store 8) = .ok j) (hk : resolve s c va 8 .atomic = .ok k) {u : State}
    (hu : u = waiting (s.publish c .dev) (c.release .dev s.seq) (.join va)) (hk' : resolve u u.cur va 8 .atomic = .ok k)
    (hin : inMem (k + 7) = true) (hsp : keySpace k ≠ Space.host) (hpage : u.tlbHit k = true) (hready : u.homeReady c.phys k 8 = true)
    (hpend : s.earlierPending c.phys s.seq = false) (herr : s.errorAt k 8 = none) (hb : c.busy = 0) {old : Nat}
    (hold : old = leNat (s.readHomeN k 8)) (hpos : 0 < old) :
    ∃ t, Runs [.join a, .joinDecrementAtHome c.phys, .threadRejoin c.phys] s t ∧
      t.mem = writeCells s.mem (cellsAt k (leBytes 8 (old - 1))) ∧
      (old = 1 → t.cur.pc = c.pc + 4 ∧ t.cur.status = .ready) ∧ (1 < old → t.cur.status = .idle) := by
  have hissue : exec (.join a) s = .next u := by rw [exec_join_of_resolve ha hal hst hk hsp, hu]
  obtain ⟨units, pubs, hpub⟩ := publish_eq s c .dev
  rw [hpub] at hu
  have hcur : u.cur = { c.release .dev s.seq with wait := some (.join va), status := .waitMem } := by rw [hu]; rfl
  have hphys : u.cur.phys = c.phys := by rw [hcur]; rfl
  have hmem : u.mem = s.mem := by rw [hu]; rfl
  rw [← hphys] at hready
  have hpass : u.passes u.cur.phys u.seq u.cur.rels (spanKeys k 8) = some [] := by
    have h : u.earlierPending c.phys s.seq = false := by rw [hu]; exact hpend
    rw [hphys, show u.seq = s.seq by rw [hu]; rfl, show u.cur.rels = c.rels.release .dev s.seq by rw [hcur]; rfl]
    exact passes_of_released h hsp
  obtain ⟨v, hv, -, hvcur, hvmem⟩ := exec_joinDecrementAtHome_positive (slot := u.cur.phys) (by rw [State.slotAt_cur, hcur])
    (by rwa [State.slotAt_cur]) hsp hin hready (by rwa [State.slotAt_cur]) hpage (by rw [hu]; exact herr)
    (hold.trans (by rw [readHomeN_congr hmem 8 hin (by omega)])) hpos
  obtain ⟨m, p, hvcur⟩ := hvcur rfl
  have hvphys : v.cur.phys = c.phys := by rw [hvcur]; exact hphys
  obtain ⟨t, ht, htmem, hlast, hidle⟩ := exec_threadRejoin_joinReply (s := v) (last := old == 1) (by rw [hvcur])
    (by rw [hvcur, hcur]) (by rw [hvcur, hcur]; exact hb)
  rw [hphys] at hv
  rw [hvphys] at ht
  have hpc : v.cur.pc = c.pc := by rw [hvcur, hcur]; rfl
  refine ⟨t, ⟨u, hissue, v, hv, t, ht, rfl⟩, ?_, fun h => ?_, fun h => hidle (by simp; omega)⟩
  · rw [htmem, hvmem, hmem]
  · rw [← hpc]
    exact hlast (by simp [h])

/-- Settles O23: FORK's push, RFORK's three ways, and JOIN from its issue to its thread's turn. -/
theorem forkAndJoin : Obligations.ForkAndJoin := by
  refine ⟨fun s a b e g c₁ c x ha hb he hx hroom => ?_, fun s d a b e n cell c₁ c₂ c k ha hb hd he hc hk => ⟨?_, ?_, ?_⟩,
    fun s u a va c k old ha hal hst hk hu hk' hin hsp hpage hready hpend herr hb hold hpos =>
      runs_join ha hal hst hk hu hk' hin hsp hpage hready hpend herr hb hold hpos,
    fun s slot c va k old hc ho hw hk hsp hin hready hpass hpage herr hold => ⟨fun hpos => ?_, fun hzero => ?_⟩⟩
  · obtain ⟨t, ht, hpc, hmem, hitems⟩ := exec_fork_of_room ha hb he hx hroom
    exact ⟨t, _, ht, hpc, hmem, rfl, hitems⟩
  · rintro rfl hroom
    rw [exec_rfork_of_resolve ha hb hd he hc hk, if_pos rfl]
    exact rforkNone_of_room hroom
  · rintro rfl hfull
    rw [exec_rfork_of_resolve ha hb hd he hc hk, if_pos rfl, rforkNone_of_full hfull]
  · intro hn
    rw [exec_rfork_of_resolve ha hb hd he hc hk, if_neg hn]
  · subst hc
    obtain ⟨t, ht, hwait, -, hmem⟩ := exec_joinDecrementAtHome_positive hw hk hsp hin hready hpass hpage herr hold hpos
    exact ⟨t, ht, hwait ho, hmem⟩
  · subst hc
    obtain ⟨es, hes⟩ := exec_joinDecrementAtHome_of_ready hw hk hsp hready hpass hpage herr
    have hread : ({ s with early := es } : State).readHomeN k 8 = s.readHomeN k 8 :=
      readHomeN_congr (s := s) (t := { s with early := es }) rfl 8 hin (by omega)
    rw [joinAtHome_zero _ (by rw [hread, ← hold, hzero])] at hes
    refine ⟨_, hes, ?_, by rw [State.setSlot_mem, State.noteAtomic_mem]⟩
    have hset := State.slotAt_setSlot_same (({ s with early := es } : State).noteAtomic ((s.slotAt slot).owner.getD 0) k 8)
      (c := (s.slotAt slot).waitFor (.trapped .queue va)) ho
    rw [show ((s.slotAt slot).waitFor (.trapped .queue va)).phys = slot from s.slotAt_phys slot] at hset
    rw [hset]
    rfl

end Sys2Proof.Machine


/-! The full/empty accesses of the own core (R215, R216, R225; O21). -/

namespace Sys2Proof.Machine

/-! ### What a note of an access leaves -/

theorem State.count_eq (s : State) (id u e n : Nat) : ∃ cs, s.count id u e n = { s with counters := cs } := by
  unfold State.count
  split
  · exact ⟨s.counters, rfl⟩
  · exact ⟨_, rfl⟩

theorem State.charge_eq (s : State) (id cls n : Nat) : ∃ xs, s.charge id cls n = { s with ctxs := xs } := by
  unfold State.charge
  split
  · split
    · exact ⟨s.ctxs, rfl⟩
    · exact ⟨_, rfl⟩
  · exact ⟨s.ctxs, rfl⟩

theorem State.request_eq (s : State) (x : Ctx) (k n : Nat) (w : Bool) : ∃ ls, s.request x k n w = { s with links := ls } := by
  unfold State.request
  split
  · exact ⟨s.links, rfl⟩
  · split
    · exact ⟨s.links, rfl⟩
    · exact ⟨_, rfl⟩

theorem State.countCharge_eq (s : State) (id u e n cls m : Nat) :
    ∃ cs xs, (s.count id u e n).charge id cls m = { s with counters := cs, ctxs := xs } := by
  obtain ⟨cs, hcs⟩ := s.count_eq id u e n
  rw [hcs]
  obtain ⟨xs, hxs⟩ := ({ s with counters := cs } : State).charge_eq id cls m
  exact ⟨cs, xs, hxs⟩

/-- A note of an access changes what is counted, charged and asked of the host. -/
theorem State.noteAccess_eq (s : State) (id k n : Nat) (w : Bool) :
    ∃ cs xs ls, s.noteAccess id k n w = { s with counters := cs, ctxs := xs, links := ls } := by
  have hcharge (t : State) (ls) (ht : t = { s with links := ls }) (u e m cls l : Nat) :
      ∃ cs xs ls, (t.count id u e m).charge id cls l = { s with counters := cs, ctxs := xs, links := ls } := by
    obtain ⟨cs, xs, h⟩ := t.countCharge_eq id u e m cls l
    exact ⟨cs, xs, ls, h.trans (by rw [ht])⟩
  unfold State.noteAccess
  split
  · exact ⟨s.counters, s.ctxs, s.links, rfl⟩
  · next x _ =>
    dsimp only
    split
    · exact hcharge s s.links rfl ..
    split
    · exact hcharge s s.links rfl ..
    split
    · exact hcharge s s.links rfl ..
    split
    · split
      · obtain ⟨ls, h⟩ := s.request_eq x k n true
        exact hcharge _ ls h ..
      · obtain ⟨ls, h⟩ := s.request_eq x k n false
        exact ⟨s.counters, s.ctxs, ls, h⟩
    · exact ⟨s.counters, s.ctxs, s.links, rfl⟩

/-! ### Serving a request -/

theorem inMem_core {k : Nat} (h : keySpace k = Space.core) : inMem (k + 7) = true := by
  unfold inMem
  refine decide_eq_true ?_
  unfold keySpace at *
  simp only [Space.core, Space.pool] at *
  omega

theorem State.settle_of_feq_nil {s : State} (gs : List Nat) (h : s.feq = []) : s.settle gs = s := by
  unfold State.settle
  induction gs generalizing s with
  | nil => rfl
  | cons g gs ih =>
    rw [List.foldl_cons, h]
    exact ih h

theorem mem_insertNat (x : Nat) (xs : List Nat) : x ∈ insertNat x xs := by
  induction xs with
  | nil => simp [insertNat]
  | cons y ys ih =>
    unfold insertNat
    split
    · simp
    · split
      · next h => simp [h]
      · simp [ih]

theorem State.isFull_setFull_true (s : State) (k : Nat) : (s.setFull k true).isFull k = true := by
  simp [State.isFull, State.setFull, mem_insertNat]

theorem State.isFull_setFull_false (s : State) (k : Nat) : (s.setFull k false).isFull k = false := by
  simp [State.isFull, State.setFull]

/-- The slot of a thread whose full/empty request is at its bank (R225). -/
def Slot.asks (c : Slot) (op : FeOp) (d : Reg5) (va v : Word) : Slot := { c with wait := some (.fe op d va v), status := .waitMem }

/-- The state of a bank that serves a request of the current thread. -/
def feServed (s : State) (c : Slot) (op : FeOp) (d : Reg5) (va : Word) (k : Nat) (v : Word) : State :=
  ({ s with cur := c.asks op d va v } : State).serveFe (c.asks op d va v) op d va k v

section Serve
variable {s : State} {c : Slot} {op : FeOp} {d : Reg5} {va v : Word} {k : Nat}

/-- A request of the own core that may arrive and that its granule lets be served goes on in its beat (R225). -/
theorem feGo_of_served (hroom : op = .stfe → s.sbCount (coreOf c.phys) < 32) (hown : ownCore c k = true)
    (hgo : feMayArrive s c op k = true) (hserve : feServable s op k = true) {d' : Reg5} {w : Word}
    (hfeq : (feServed s c op d va k v).feq = []) (hw : (feServed s c op d va k v).cur.wait = some (.done d' w)) :
    feGo s c op d va v k = finish (feServed s c op d va k v) (feServed s c op d va k v).cur.ready d' w := by
  have harrive : ({ s with cur := c.asks op d va v } : State).feArrive (c.asks op d va v) op d va k v = feServed s c op d va k v := by
    unfold State.feArrive
    rw [show feServable ({ s with cur := c.asks op d va v } : State) op k = true by cases op <;> exact hserve, if_pos rfl]
    dsimp only
    split
    · exact State.settle_of_feq_nil _ hfeq
    · rfl
  have hroom' : (op != .stfe || decide (s.sbCount (coreOf c.phys) < 32)) = true := by
    by_cases h : op = .stfe
    · simp [hroom h]
    · simp [h]
  unfold feGo
  dsimp only
  rw [hroom', hown, hgo]
  have harrive' : ({ s with cur := { c with wait := some (.fe op d va v), status := (Wait.fe op d va v).status } } : State).feArrive
      { c with wait := some (.fe op d va v), status := (Wait.fe op d va v).status } op d va k v = feServed s c op d va k v := harrive
  simp only [harrive', hw]
  rfl

theorem feLoaded_of_sound {t : State} {e : Slot} (hp : e.phys = t.cur.phys) (he : t.errorAt k 8 = none) :
    t.feLoaded e d va k = { t with cur := ({ e with tileSeen := t.pubs } : Slot).waitFor (.done d (leWord (t.readHomeN k 8))) } := by
  unfold State.feLoaded
  rw [he]
  exact State.setSlot_cur hp.symm

/-- The state that a bank serves a request in: the access noted, and the request gone from the queue. -/
structure FeNoted (s : State) (c : Slot) (t : State) : Prop where
  cur : t.cur = c
  full : t.full = s.full
  mem : t.mem = s.mem
  errs : t.errs = s.errs
  feq : t.feq = s.feq.filter (fun p => p != c.phys)

theorem feServed_eq (s : State) (c : Slot) (op : FeOp) (d : Reg5) (va : Word) (k : Nat) (v : Word) :
    ∃ t, FeNoted s (c.asks op d va v) t ∧ feServed s c op d va k v = (match op with
      | .ldfe => t.feLoaded (c.asks op d va v) d va k
      | .ldfeClr => (if t.clrKeeps (c.asks op d va v) d k then t else t.setFull k false).feLoaded (c.asks op d va v) d va k
      | .feq => t.setSlot ((c.asks op d va v).waitFor (.done d (if t.isFull k then 1 else 0)))
      | .stfe => ((t.setSlot ((c.asks op d va v).waitFor (.done 0 0))).land (cellsAt k (leBytes 8 v.toNat))).setFull k true) := by
  obtain ⟨cs, xs, ls, hnote⟩ :=
    ({ s with cur := c.asks op d va v } : State).noteAccess_eq ((c.asks op d va v).owner.getD 0) k 8 (op == .stfe)
  refine ⟨{ s with
    cur := c.asks op d va v, counters := cs, ctxs := xs, links := ls, feq := s.feq.filter (fun p => p != c.phys) },
    ⟨rfl, rfl, rfl, rfl, rfl⟩, ?_⟩
  unfold feServed State.serveFe
  rw [hnote]
  rfl

theorem FeNoted.errorAt {t : State} (h : FeNoted s c t) (n : Nat) : t.errorAt k n = s.errorAt k n := by
  unfold State.errorAt
  rw [h.errs]

theorem FeNoted.readHomeN {t : State} (h : FeNoted s c t) (hsp : keySpace k = Space.core) : t.readHomeN k 8 = s.readHomeN k 8 :=
  readHomeN_congr h.mem 8 (inMem_core hsp) (by omega)

/-- What an answered request leaves: its thread's answer, the bits, and memory. -/
structure FeAnswered (s : State) (c : Slot) (t : State) (d : Reg5) (w : Word) : Prop where
  cur : ∃ p m, t.cur = { c with tileSeen := p, monitor := m, wait := some (.done d w), status := .waitMem }
  feq : t.feq = s.feq.filter (fun p => p != c.phys)

theorem feServed_ldfe (hsp : keySpace k = Space.core) (he : s.errorAt k 8 = none) :
    FeAnswered s c (feServed s c .ldfe d va k v) d (leWord (s.readHomeN k 8)) ∧
      (feServed s c .ldfe d va k v).full = s.full ∧ (feServed s c .ldfe d va k v).mem = s.mem := by
  obtain ⟨t, ht, hserved⟩ := feServed_eq s c .ldfe d va k v
  dsimp only at hserved
  rw [feLoaded_of_sound (by rw [ht.cur]) (by rw [ht.errorAt, he]), ht.readHomeN hsp] at hserved
  rw [hserved]
  exact ⟨⟨⟨_, _, rfl⟩, ht.feq⟩, ht.full, ht.mem⟩

theorem feServed_ldfeClr (hsp : keySpace k = Space.core) (he : s.errorAt k 8 = none) (hd : d.toNat < 24) :
    FeAnswered s c (feServed s c .ldfeClr d va k v) d (leWord (s.readHomeN k 8)) ∧
      (feServed s c .ldfeClr d va k v).isFull k = false ∧ (feServed s c .ldfeClr d va k v).mem = s.mem := by
  obtain ⟨t, ht, hserved⟩ := feServed_eq s c .ldfeClr d va k v
  dsimp only at hserved
  have hkeeps : t.clrKeeps (c.asks .ldfeClr d va v) d k = false := by
    simp [State.clrKeeps, ht.errorAt, he, resultRefused_reg _ hd]
  rw [if_neg (by rw [hkeeps]; decide), feLoaded_of_sound (t := t.setFull k false) (by exact congrArg Slot.phys ht.cur.symm)
    (by exact (ht.errorAt 8).trans he)] at hserved
  have hread : (t.setFull k false).readHomeN k 8 = s.readHomeN k 8 := readHomeN_congr ht.mem 8 (inMem_core hsp) (by omega)
  rw [hread] at hserved
  rw [hserved]
  exact ⟨⟨⟨_, _, rfl⟩, ht.feq⟩, t.isFull_setFull_false k, ht.mem⟩

theorem feServed_feq : FeAnswered s c (feServed s c .feq d va k v) d (if s.isFull k then 1 else 0) ∧
      (feServed s c .feq d va k v).full = s.full ∧ (feServed s c .feq d va k v).mem = s.mem := by
  obtain ⟨t, ht, hserved⟩ := feServed_eq s c .feq d va k v
  dsimp only at hserved
  rw [State.setSlot_cur (by rw [ht.cur]; rfl), show t.isFull k = s.isFull k by rw [State.isFull, ht.full]; rfl] at hserved
  rw [hserved]
  exact ⟨⟨⟨_, _, rfl⟩, ht.feq⟩, ht.full, ht.mem⟩

theorem State.land_feq (s : State) {cs : List Host.Cell} (h : ∀ x ∈ cs, inMem x.1 = true) : (s.land cs).feq = s.feq := by
  unfold State.land
  split
  · rfl
  · next x b rest =>
    split
    · rfl
    · rw [if_pos (h (x, b) (by simp))]
      unfold State.ringDoorbells
      split
      · split
        · split <;> rfl
        · rfl
      · rfl

theorem feServed_stfe (hsp : keySpace k = Space.core) :
    FeAnswered s c (feServed s c .stfe d va k v) 0 0 ∧ (feServed s c .stfe d va k v).isFull k = true ∧
      (feServed s c .stfe d va k v).mem = writeCells s.mem (cellsAt k (leBytes 8 v.toNat)) := by
  obtain ⟨t, ht, hserved⟩ := feServed_eq s c .stfe d va k v
  dsimp only at hserved
  have hlen : (leBytes 8 v.toNat).length ≤ 8 := Nat.le_of_eq (length_leBytes ..)
  have hall := cellsAt_inMem_of_last (inMem_core hsp) hlen
  rw [State.setSlot_cur (by rw [ht.cur]; rfl)] at hserved
  obtain ⟨m, hm⟩ := State.land_cur_eq { t with cur := (c.asks .stfe d va v).waitFor (.done 0 0) } hall
  rw [hserved]
  refine ⟨⟨⟨_, m, hm⟩, ?_⟩, State.isFull_setFull_true .., ?_⟩
  · exact (State.land_feq _ hall).trans ht.feq
  · refine (State.land_cellsAt_mem_of_last (inMem_core hsp) hlen ?_).trans (congrArg (writeCells · _) ht.mem)
    simp [State.keyHeld, hsp, Space.core, Space.dev]

/-- The own core's bank answers a request in its beat (R225). -/
theorem feGo_of_answered (hroom : op = .stfe → s.sbCount (coreOf c.phys) < 32) (hown : ownCore c k = true)
    (hgo : feMayArrive s c op k = true) (hserve : feServable s op k = true) (hfeq : s.feq = []) {d' : Reg5} {w : Word}
    (h : FeAnswered s c (feServed s c op d va k v) d' w) (hd : d'.toNat < 24) :
    ∃ t, feGo s c op d va v k = .next t ∧ t.cur.pc = c.pc + 4 ∧ (0 < d'.toNat → t.cur.reg d'.toNat = w) ∧
      (d'.toNat = 0 → t.cur.regs = c.regs) ∧ t.full = (feServed s c op d va k v).full ∧ t.mem = (feServed s c op d va k v).mem := by
  obtain ⟨⟨p, m, hcur⟩, hq⟩ := h
  have hgo := feGo_of_served (va := va) hroom hown hgo hserve (by rw [hq, hfeq]; rfl) (show _ = some (Wait.done d' w) by rw [hcur])
  rw [finish_reg _ _ _ hd] at hgo
  refine ⟨_, hgo, ?_, fun h0 => Slot.reg_setReg_same _ _ (by omega) hd, fun h0 => ?_, rfl, rfl⟩
  · have hpc : (feServed s c op d va k v).cur.pc = c.pc := by rw [hcur]
    exact congrArg (· + 4) hpc
  · have hregs : (feServed s c op d va k v).cur.regs = c.regs := by rw [hcur]
    rw [h0]
    exact hregs

end Serve

/-! ### The instructions -/

theorem feAccess_of_resolve {s : State} {c : Slot} {op : FeOp} {d : Reg5} {va : Word} (v : Word) {k : Nat}
    (hk : resolve s c va 8 .fe = .ok k) (hsp : keySpace k = Space.core) :
    feAccess s c op d va v = if op = .stfe then feGo (s.publish c .dev) (c.release .dev s.seq) op d va v k else feGo s c op d va v k := by
  unfold feAccess
  simp only [hk]
  rw [if_neg (by simp [hasGranule, hsp])]
  cases op <;> rfl

theorem destReason_reg (s : State) (c : Slot) {d : Reg5} (hd : d.toNat < 24) : destReason s c d = none := by
  have h24 : (d.toNat == 24) = false := beq_eq_false_iff_ne.2 (by omega)
  have h26 : (d.toNat == 26) = false := beq_eq_false_iff_ne.2 (by omega)
  have hq : destRefused d = false := by
    simp only [destRefused, Bool.or_eq_false_iff, beq_eq_false_iff_ne]
    omega
  simp [destReason, hq, h24, h26]

theorem isFull_eq_of_full_eq {s t : State} (h : t.full = s.full) (k : Nat) : t.isFull k = s.isFull k := by
  simp only [State.isFull, h]

section Loads
variable {s : State} {d a : Reg5} {imm : BitVec 12} {x : Word} {c : Slot} {k : Nat}

/-- A full/empty load or query of the own core, once its address is checked (R225). -/
theorem execFe_of_resolve {op : FeOp} (hop : op ≠ .stfe) (ha : s.cur.readReg a = some (x, c)) (hd : d.toNat < 24)
    (hk : resolve s c (x + imm.signExtend 64) 8 .fe = .ok k) (hsp : keySpace k = Space.core) :
    withSrc1 s a (fun x c => withDest s c d (fun _ => feAccess s c op d (x + immWord imm) 0)) =
      feGo s c op d (x + imm.signExtend 64) 0 k := by
  rw [withSrc1_of_read _ ha, withDest_of_taken _ (destReason_reg s c hd)]
  exact (feAccess_of_resolve 0 hk hsp).trans (if_neg hop)

end Loads

/-- Settles O21: each access is served in its beat, with the slot's answer and the granule's bit. -/
theorem fullEmptyAccesses : Obligations.FullEmptyAccesses := by
  intro s d a b imm x v c₁ c k hphys hst h0 hd hfeq hsp hk hown herr
  refine ⟨fun ha => ⟨fun hfull hgo => ?_, fun hfull hgo => ?_, fun hgo => ?_⟩, fun ha hb hempty hgo hroom => ?_⟩
  · obtain ⟨hans, hbits, hmem⟩ := feServed_ldfe (s := s) (c := c) (d := d) (va := x + imm.signExtend 64) (v := 0) hsp herr
    obtain ⟨t, ht, hpc, hreg, -, hf, hm⟩ := feGo_of_answered (by rintro ⟨⟩) hown hgo hfull hfeq hans hd
    exact ⟨t, (execFe_of_resolve (by decide) ha hd hk hsp).trans ht, hreg h0, hpc, hf.trans hbits, hm.trans hmem⟩
  · obtain ⟨hans, hbits, hmem⟩ := feServed_ldfeClr (s := s) (c := c) (d := d) (va := x + imm.signExtend 64) (v := 0) hsp herr hd
    obtain ⟨t, ht, hpc, hreg, -, hf, hm⟩ := feGo_of_answered (by rintro ⟨⟩) hown hgo hfull hfeq hans hd
    exact ⟨t, (execFe_of_resolve (by decide) ha hd hk hsp).trans ht, hreg h0, hpc, (isFull_eq_of_full_eq hf k).trans hbits,
      hm.trans hmem⟩
  · obtain ⟨hans, hbits, hmem⟩ := feServed_feq (s := s) (c := c) (d := d) (va := x + imm.signExtend 64) (k := k) (v := 0)
    obtain ⟨t, ht, hpc, hreg, -, hf, hm⟩ := feGo_of_answered (by rintro ⟨⟩) hown hgo rfl hfeq hans hd
    exact ⟨t, (execFe_of_resolve (by decide) ha hd hk hsp).trans ht, hreg h0, hpc, hf.trans hbits, hm.trans hmem⟩
  · obtain ⟨units, pubs, hpub⟩ := publish_eq s c .dev
    obtain ⟨hans, hbits, hmem⟩ := feServed_stfe (s := s.publish c .dev) (c := c.release .dev s.seq) (d := 0)
      (va := x + imm.signExtend 64) (v := v) hsp
    have hgo' : feMayArrive (s.publish c .dev) (c.release .dev s.seq) .stfe k = true := by
      rw [hpub]
      exact hgo
    have hempty' : feServable (s.publish c .dev) .stfe k = true := by
      rw [hpub]
      exact (congrArg (!·) hempty).trans rfl
    obtain ⟨t, ht, hpc, -, hregs, hf, hm⟩ := feGo_of_answered (s := s.publish c .dev) (c := c.release .dev s.seq) (op := .stfe) (d := 0)
      (va := x + imm.signExtend 64) (v := v) (k := k) (by rw [hpub]; exact fun _ => hroom) hown hgo' hempty'
      (by rw [hpub]; exact hfeq) hans (by decide)
    have hex : exec (.stfe b a imm) s = .next t :=
      (withSrc2_of_reads _ ha hb).trans ((feAccess_of_resolve v hk hsp).trans ((if_pos rfl).trans ht))
    refine ⟨t, hex, (isFull_eq_of_full_eq hf k).trans hbits, hpc, hregs rfl, hm.trans (hmem.trans ?_)⟩
    rw [hpub]

end Sys2Proof.Machine


/-! Instructions of several beats (R120, R169), and the integer vector instructions (R172, R175; O30). -/

namespace Sys2Proof.Machine

/-! ### Beats -/

theorem Slot.between_idle {c : Slot} (h : c.between) : { c with busy := 0, late := none } = c := by
  obtain ⟨hb, hl⟩ := h
  cases c
  simp_all

/-- The beats after the first count down to the last. -/
theorem beatsOn_late (s : State) (c : Slot) (l : Late) {n : Nat} (h : 0 < n) :
    beatsOn n { s with cur := { c with busy := n, late := some l } } =
      endBeats { s with cur := { c with busy := 1, late := some l } } { c with busy := 0, late := none } l := by
  obtain ⟨m, rfl⟩ : ∃ m, n = m + 1 := ⟨n - 1, by omega⟩
  clear h
  induction m with
  | zero =>
    rw [beatsOn, nextBeat_last]
    cases endBeats { s with cur := { c with busy := 1, late := some l } } { c with busy := 0, late := none } l <;> rfl
  | succ m ih =>
    rw [beatsOn, nextBeat_early s c l (by omega)]
    exact ih

/-- An instruction of several beats: what it does stands until its last beat (R120). -/
theorem runs_startBeats {s : State} {c : Slot} {k : Nat} (l : Late) (hk : 1 < k) (hc : c.between) :
    ∃ t, startBeats s c k l = .next t ∧ beatsOn (k - 1) t = endBeats { s with cur := { c with busy := 1, late := some l } } c l := by
  refine ⟨_, startBeats_more s c l hk, ?_⟩
  rw [beatsOn_late s c l (by omega), Slot.between_idle hc]

/-- The last beat lands what the instruction writes. -/
theorem lands_of_startBeats {i : Instr} {s : State} {c : Slot} {k : Nat} {l : Late} {writes : List VWrite}
    {mask : Option (Nat × MaskReg)} {flags : BitVec 5} (hi : exec i s = startBeats s c k l) (hk : 0 < k) (hc : c.between)
    (ht : l.trap = none) (hr : l.result = none) (hs : l.stores = []) (hl : c.landLate l = landedSlot c writes mask flags) :
    Lands i s c k writes mask flags := by
  by_cases h1 : k = 1
  · subst h1
    rw [startBeats_one s c (k := 1) l (Nat.le_refl 1), endBeats_writes s c ht hr hs, hl] at hi
    exact ⟨_, hi, rfl⟩
  · obtain ⟨t, hstart, hend⟩ := runs_startBeats (s := s) (k := k) l (by omega) hc
    rw [endBeats_writes _ c ht hr hs, hl] at hend
    exact ⟨t, hi.trans hstart, hend⟩

theorem lands_of_finishBeats {i : Instr} {s : State} {c : Slot} {k : Nat} {writes : List VWrite} {flags : BitVec 5}
    (hi : exec i s = finishBeats s c k writes flags) (hk : 0 < k) (hc : c.between) : Lands i s c k writes none flags :=
  lands_of_startBeats hi hk hc rfl rfl rfl rfl

theorem lands_of_finishMask {i : Instr} {s : State} {c : Slot} {k md : Nat} {m : MaskReg} {flags : BitVec 5}
    (hi : exec i s = finishMask s c k md m flags) (hk : 0 < k) (hc : c.between) : Lands i s c k [] (some (md, m)) flags := by
  exact lands_of_startBeats hi hk hc rfl rfl rfl rfl

/-! ### Integer lanes -/

theorem withVregs_undeclared {s : State} {ns : List Nat} {n : Nat} (k : Unit → Out) (h : leastBeyond s.cur.decl.vregs ns = some n) :
    withVregs s ns k = trap s s.cur .regdecl (BitVec.ofNat 64 n) := by
  simp only [withVregs, h]

/-- Every integer vector instruction writes the active elements of vd with its lanes' results. -/
theorem exec_eq_intLanes {i : Instr} {regs : List Reg5} {d : Reg5} {w k : Nat} {m : BitVec 3} {f : Slot → Nat → Nat}
    (h : IntLanes i regs d w k m f) (s : State) : exec i s = withVregs s (regs.map (fun r => r.toNat)) (fun _ =>
      finishBeats s s.cur k [elemsWrite d.toNat w (s.cur.active m w) (f s.cur)] 0) := by
  cases h with
  | vadds | vsubs =>
    simp only [← satN_eq]
    rfl
  | vmin =>
    simp only [Int.min_def]
    rfl
  | vmax d a b ty =>
    have hmax (x y : Int) : max x y = if y ≤ x then x else y := by
      rw [Int.max_comm, Int.max_def]
    simp only [hmax]
    rfl
  | vabs =>
    have habs (x : Int) : (x.natAbs : Int) = if x < 0 then -x else x := by split <;> omega
    simp only [habs]
    rfl
  | _ => rfl

theorem intLanes_beats {i : Instr} {regs : List Reg5} {d : Reg5} {w k : Nat} {m : BitVec 3} {f : Slot → Nat → Nat}
    (h : IntLanes i regs d w k m f) : 0 < k := by
  cases h with
  | vmul | vmulh => split <;> decide
  | _ => decide

/-- Settles O30: the registers are checked first, and the last beat lands the lanes. -/
theorem integerVectorResults : Obligations.IntegerVectorResults := by
  intro i regs d w k m f s hi hc
  refine ⟨fun hregs => ?_, fun n hn => ?_⟩
  · have hex := exec_eq_intLanes hi s
    rw [withVregs_declared _ _ _ (by simpa using hregs)] at hex
    exact lands_of_finishBeats hex (intLanes_beats hi) hc
  · rw [exec_eq_intLanes hi, withVregs_undeclared _ hn]

end Sys2Proof.Machine


/-! Floating and group vector instructions (R174, R178 to R185, R190; O32, O33). -/

namespace Sys2Proof.Machine

/-! ### The lanes of an instruction -/

theorem ofElemsN_congr (w : Nat) {f g : Nat → Nat} {n : Nat} (h : ∀ i, i < n → f i = g i) : ofElemsN w f n = ofElemsN w g n := by
  induction n with
  | zero => rfl
  | succ n ih => rw [ofElemsN, ofElemsN, ih fun i hi => h i (by omega), h n (by omega)]

theorem elemsWrite_congr {r w : Nat} {act : Nat → Bool} {f g : Nat → Nat} (h : ∀ i, i < 4096 / w → act i = true → f i = g i) :
    elemsWrite r w act f = elemsWrite r w act g := by
  have hval : vOfElems w (fun i => if act i then f i else 0) = vOfElems w (fun i => if act i then g i else 0) := by
    unfold vOfElems
    refine congrArg _ (ofElemsN_congr w fun i hi => ?_)
    split
    · next ha => exact h i hi ha
    · rfl
  simp only [elemsWrite, hval]

theorem groupWrites_congr {r g w : Nat} {act : Nat → Bool} {f f' : Nat → Nat}
    (h : ∀ i, i < g * (4096 / w) → act i = true → f i = f' i) : groupWrites r g w act f = groupWrites r g w act f' := by
  refine List.map_congr_left fun j hj => elemsWrite_congr fun i hi ha => h _ ?_ ha
  have hjg : j < g := List.mem_range.1 hj
  calc i * g + j < i * g + g := Nat.add_lt_add_left hjg _
    _ = g * (i + 1) := by rw [Nat.mul_succ, Nat.mul_comm]
    _ ≤ g * (4096 / w) := Nat.mul_le_mul_left g hi

/-- The flags of the elements that are active, one after another. -/
theorem foldl_flags (f : Nat → BitVec 5) (act : Nat → Bool) (ns : List Nat) (x : BitVec 5) :
    ns.foldl (fun y i => if act i then y ||| f i else y) x = (ns.filter act).foldl (fun y i => y ||| f i) x := by
  induction ns generalizing x with
  | nil => rfl
  | cons n ns ih =>
    rw [List.foldl_cons, List.filter_cons, ih]
    split <;> rfl

theorem flagsOf_zero (n : Nat) (act : Nat → Bool) : flagsOf n act (fun _ => 0) = 0 := by
  have hfold (ns : List Nat) : ns.foldl (fun (x : BitVec 5) (_ : Nat) => x ||| 0) 0 = 0 := by
    induction ns with
    | nil => rfl
    | cons n ns ih => exact ih
  exact hfold _

theorem lanes_flags (n : Nat) (act : Nat → Bool) (f : Nat → FRes) : (lanes n act f).2 = flagsOf n act (fun i => (f i).2) := by
  unfold lanes flagsOf
  dsimp only
  rw [← foldl_flags, List.foldl_map]
  congr 1
  funext x i
  split
  · rfl
  · exact BitVec.or_zero

theorem lanes_values {n : Nat} {act : Nat → Bool} (f : Nat → FRes) {i : Nat} (hi : i < n) (ha : act i = true) :
    (lanes n act f).1.getD i 0 = (f i).1 := by
  simp [lanes, upTo, hi, ha]

theorem finishLanes_eq (s : State) (c : Slot) (beats : Nat) (d : Reg5) (w : Nat) (act : Nat → Bool) (f : Nat → FRes) :
    finishLanes s c beats d w act f =
      finishBeats s c beats [elemsWrite d.toNat w act (fun i => (f i).1)] (flagsOf (4096 / w) act (fun i => (f i).2)) := by
  unfold finishLanes
  dsimp only
  rw [lanes_flags, elemsWrite_congr fun i hi ha => lanes_values f hi ha]

/-! ### Floating lanes -/

theorem exec_eq_floatLanes {i : Instr} {regs : List Reg5} {d : Reg5} {f : FFmt} {k : Nat} {m : BitVec 3} {F : Slot → Nat → FRes}
    (h : FloatLanes i regs d f k m F) (s : State) : exec i s = withVregs s (regs.map (fun r => r.toNat)) (fun _ =>
      finishLanes s s.cur k d (FFmt.fmt f).w (s.cur.active m (FFmt.fmt f).w) (F s.cur)) := by
  cases h <;> rfl

theorem floatLanes_beats {i : Instr} {regs : List Reg5} {d : Reg5} {f : FFmt} {k : Nat} {m : BitVec 3} {F : Slot → Nat → FRes}
    (h : FloatLanes i regs d f k m F) : 0 < k := by
  cases h <;> split <;> decide

/-- Settles O32: the last beat lands the lanes and their flags. -/
theorem floatVectorResults : Obligations.FloatVectorResults := by
  intro i regs d f k m F s hi hc hregs
  have hex := exec_eq_floatLanes hi s
  rw [withVregs_declared _ _ _ (by simpa using hregs), finishLanes_eq] at hex
  exact lands_of_finishBeats hex (floatLanes_beats hi) hc

/-! ### Groups -/

theorem groupWrites_one (r w : Nat) (act : Nat → Bool) (f : Nat → Nat) : groupWrites r 1 w act f = [elemsWrite r w act f] := by
  simp [groupWrites, upTo]

/-- The elements of a conversion's wider side fill its group (R190). -/
theorem convGroup_elements (dt st : EType) :
    max 1 (EType.bits dt / EType.bits st) * (4096 / EType.bits dt) = 4096 / min (EType.bits dt) (EType.bits st) := by
  cases dt <;> cases st <;> decide

/-- Every instruction of a group writes the active elements of its group with its lanes' results. -/
theorem exec_eq_groupLanes {i : Instr} {regs : List Nat} {d : Reg5} {g w k : Nat} {act : Slot → Nat → Bool} {F : Slot → Nat → FRes}
    (h : GroupLanes i regs d g w k act F) (s : State) : exec i s = withVregs s regs (fun _ =>
      finishBeats s s.cur k (groupWrites d.toNat g w (act s.cur) (fun j => (F s.cur j).1))
        (flagsOf (g * (4096 / w)) (act s.cur) (fun j => (F s.cur j).2))) := by
  cases h with
  | vwadd | vwsub | vwmul =>
    simp only [flagsOf_zero]
    rfl
  | vdot2 | vdot4 | vnarrow =>
    simp only [flagsOf_zero, groupWrites_one]
    rfl
  | vcvt d a sat st rnd dt m =>
    change execVcvt d a sat st rnd dt m s = _
    unfold execVcvt convGroups
    dsimp only
    refine congrArg (withVregs s _) (funext fun _ => ?_)
    rw [lanes_flags, convGroup_elements, groupWrites_congr fun i hi ha => lanes_values _ (by rwa [convGroup_elements] at hi) ha]

theorem groupLanes_beats {i : Instr} {regs : List Nat} {d : Reg5} {g w k : Nat} {act : Slot → Nat → Bool} {F : Slot → Nat → FRes}
    (h : GroupLanes i regs d g w k act F) : 0 < k := by
  cases h with
  | vcvt => omega
  | _ => decide

/-- Settles O33: the last beat lands the group's lanes and their flags. -/
theorem groupVectorResults : Obligations.GroupVectorResults := by
  intro i regs d g w k act F s hi hc hregs
  have hex := exec_eq_groupLanes hi s
  rw [withVregs_declared _ _ _ hregs] at hex
  exact lands_of_finishBeats hex (groupLanes_beats hi) hc

end Sys2Proof.Machine


/-! Comparisons, mask instructions and the vector instructions with a scalar side (R167, R173, R175 to R177, R186, R188; O34). -/

namespace Sys2Proof.Machine

/-! ### Comparisons -/

theorem getLsbD_bitMask (bit : Nat → Bool) {j : Nat} (hj : j < 128) :
    (BitVec.ofNat 128 (ofElemsN 1 (fun i => if bit i then 1 else 0) 128)).getLsbD j = bit j := by
  have h := testBit_ofElemsN (w := 1) (r := 0) (fun i => if bit i then 1 else 0) (by decide) 128 j hj
  rw [Nat.one_mul, Nat.add_zero] at h
  rw [getLsbD_ofNat_lt _ hj, h]
  cases bit j <;> simp

/-- The bit of a container (R173). -/
theorem getLsbD_cmpMask {w : Nat} (hw : w ≤ 32 ∨ w = 64) (old : MaskReg) (act pass : Nat → Bool) {j : Nat} (hj : j < 128) :
    (cmpMask w old act pass).getLsbD j =
      (if w = 64 then (if act (j / 2) then pass (j / 2) else old.getLsbD j)
      else if act (j * (32 / w)) then (upTo (32 / w)).all (fun e => pass (j * (32 / w) + e)) else old.getLsbD j) := by
  unfold cmpMask
  dsimp only
  rw [getLsbD_bitMask _ hj]
  obtain h | h := hw
  · simp only [if_pos h, if_neg (show ¬ w = 64 by omega)]
  · simp only [if_neg (show ¬ w ≤ 32 by omega), if_pos h]

theorem vcmp_eq (s : State) (d a b : Reg5) (ty : IType) (m : BitVec 3) (cond : Cond) :
    vcmp s d a b ty m cond = withVregs s ([a, b].map (fun r => r.toNat)) (fun _ =>
      finishMask s s.cur 4 d.toNat (cmpMask ty.width (s.cur.maskReg d.toNat) (s.cur.active m ty.width)
        (fun i => Cond.int cond (s.cur.ielem a.toNat ty i) (s.cur.ielem b.toNat ty i)))
        (flagsOf (4096 / ty.width) (s.cur.active m ty.width) (fun _ => 0))) := by
  rw [flagsOf_zero]
  rfl

theorem ffmt_width (f : FFmt) : (FFmt.fmt f).w = 16 ∨ (FFmt.fmt f).w = 32 ∨ (FFmt.fmt f).w = 64 := by
  cases f <;> decide

/-- The results of a comparison's elements, one after another. -/
theorem getD_map_upTo {α : Type} (f : Nat → α) (x : α) {n i : Nat} (h : i < n) : ((upTo n).map f).getD i x = f i := by
  simp [upTo, h]

theorem flagsOf_congr {n : Nat} {act : Nat → Bool} {f g : Nat → BitVec 5} (h : ∀ i, i < n → f i = g i) : flagsOf n act f = flagsOf n act g := by
  unfold flagsOf
  have hmap : ((upTo n).filter act).map f = ((upTo n).filter act).map g :=
    List.map_congr_left fun i hi => h i (List.mem_range.1 (List.mem_filter.1 hi).1)
  rw [← List.foldl_map (f := f) (g := fun x v => x ||| v), hmap, List.foldl_map]

/-- A container's elements lie within the register. -/
theorem container_elem_lt {w j e : Nat} (hw : w = 16 ∨ w = 32) (hj : j < 128) (he : e < 32 / w) : j * (32 / w) + e < 4096 / w := by
  obtain rfl | rfl := hw
  · omega
  · omega

theorem cmpMask_congr {w : Nat} (hw : w = 16 ∨ w = 32 ∨ w = 64) (old : MaskReg) (act : Nat → Bool) {f g : Nat → Bool}
    (h : ∀ i, i < 4096 / w → f i = g i) : cmpMask w old act f = cmpMask w old act g := by
  refine BitVec.eq_of_getLsbD_eq fun j hj => ?_
  rw [getLsbD_cmpMask (by omega) _ _ _ hj, getLsbD_cmpMask (by omega) _ _ _ hj]
  by_cases h64 : w = 64
  · rw [if_pos h64, if_pos h64, h (j / 2) (by rw [h64]; omega)]
  · have hall : (upTo (32 / w)).all (fun e => f (j * (32 / w) + e)) = (upTo (32 / w)).all (fun e => g (j * (32 / w) + e)) := by
      rw [Bool.eq_iff_iff, List.all_eq_true, List.all_eq_true]
      exact forall₂_congr fun e he => by rw [h _ (container_elem_lt (by omega) hj (List.mem_range.1 he))]
    rw [if_neg h64, if_neg h64, hall]

theorem vfcmp_eq (s : State) (d a b : Reg5) (f : FFmt) (m : BitVec 3) (cond : Cond) :
    vfcmp s d a b f m cond = withVregs s ([a, b].map (fun r => r.toNat)) (fun _ =>
      finishMask s s.cur (if (FFmt.fmt f).w = 64 then 8 else 4) d.toNat
        (cmpMask (FFmt.fmt f).w (s.cur.maskReg d.toNat) (s.cur.active m (FFmt.fmt f).w) (fun i => (Cond.float cond
          ((FFmt.fmt f).decode (vElem (s.cur.vreg a.toNat) (FFmt.fmt f).w i)) ((FFmt.fmt f).decode (vElem (s.cur.vreg b.toNat) (FFmt.fmt f).w i))).1))
        (flagsOf (4096 / (FFmt.fmt f).w) (s.cur.active m (FFmt.fmt f).w) (fun i => (Cond.float cond
          ((FFmt.fmt f).decode (vElem (s.cur.vreg a.toNat) (FFmt.fmt f).w i)) ((FFmt.fmt f).decode (vElem (s.cur.vreg b.toNat) (FFmt.fmt f).w i))).2))) := by
  unfold vfcmp fwidth fbeats
  refine congrArg (withVregs s _) (funext fun _ => ?_)
  dsimp only
  rw [foldl_flags, cmpMask_congr (ffmt_width f) _ _ fun i hi => congrArg Prod.fst (getD_map_upTo _ _ hi)]
  refine congrArg (finishMask s s.cur _ _ _) ?_
  exact flagsOf_congr fun i hi => congrArg Prod.snd (getD_map_upTo _ _ hi)

/-- Every comparison writes the bits of its containers and raises its elements' flags. -/
theorem exec_eq_compare {i : Instr} {regs : List Reg5} {d : Reg5} {w k : Nat} {m : BitVec 3} {F : Slot → Nat → Bool × BitVec 5}
    (h : VCompare i regs d w k m F) (s : State) : exec i s = withVregs s (regs.map (fun r => r.toNat)) (fun _ =>
      finishMask s s.cur k d.toNat (cmpMask w (s.cur.maskReg d.toNat) (s.cur.active m w) (fun j => (F s.cur j).1))
        (flagsOf (4096 / w) (s.cur.active m w) (fun j => (F s.cur j).2))) := by
  cases h with
  | vcmpEq | vcmpNe | vcmpLt | vcmpLe | vcmpGt | vcmpGe => exact vcmp_eq ..
  | _ => exact vfcmp_eq ..

theorem compare_shape {i : Instr} {regs : List Reg5} {d : Reg5} {w k : Nat} {m : BitVec 3} {F : Slot → Nat → Bool × BitVec 5}
    (h : VCompare i regs d w k m F) : 0 < k ∧ (w ≤ 32 ∨ w = 64) := by
  have hint (ty : IType) : ty.width ≤ 32 ∨ ty.width = 64 := by cases ty <;> decide
  have hfloat (f : FFmt) : 0 < (if (FFmt.fmt f).w = 64 then 8 else 4) ∧ ((FFmt.fmt f).w ≤ 32 ∨ (FFmt.fmt f).w = 64) := by
    cases f <;> decide
  cases h with
  | vcmpEq | vcmpNe | vcmpLt | vcmpLe | vcmpGt | vcmpGe => exact ⟨by decide, hint _⟩
  | _ => exact hfloat _

/-! ### Mask instructions -/

theorem exec_eq_maskOp {i : Instr} {d : Reg5} {f : Slot → MaskReg} (h : MaskOp i d f) (s : State) :
    exec i s = finishMask s s.cur 1 d.toNat (f s.cur) 0 := by
  cases h <;> rfl

/-- A mask instruction takes one beat. -/
theorem lands_maskOp {i : Instr} {d : Reg5} {f : Slot → MaskReg} (h : MaskOp i d f) (s : State) :
    Lands i s s.cur 1 [] (some (d.toNat, f s.cur)) 0 := by
  have hex := exec_eq_maskOp h s
  rw [finishMask, startBeats_one s s.cur (k := 1) _ (Nat.le_refl 1), endBeats_writes s s.cur rfl rfl rfl] at hex
  exact ⟨_, hex, rfl⟩

theorem Slot.maskReg_setMask_same (c : Slot) {n : Nat} (v : MaskReg) (h0 : 0 < n) (h : n < 8) : (c.setMask n v).maskReg n = v := by
  simp [Slot.setMask, Slot.maskReg, show n ≠ 0 by omega, h]

theorem popcN_mask (v : MaskReg) : popcN 128 v.toNat = ((upTo 128).filter (fun i => v.getLsbD i)).length := by
  rw [popcN_eq_count]
  rfl

/-- MFIRST by the bits below the first one that is one (R177). -/
theorem ctzN_mask {v : MaskReg} {n : Nat} (hn : n ≤ 128) (hlow : ∀ i, i < n → v.getLsbD i = false)
    (hbit : n < 128 → v.getLsbD n = true) : ctzN 128 v.toNat = n := by
  by_cases hv : v.toNat = 0
  · have h128 : n = 128 := by
      refine Classical.byContradiction fun h => ?_
      have := hbit (by omega)
      rw [BitVec.eq_of_toNat_eq (x := v) (y := 0#128) (by simpa using hv)] at this
      simp at this
    rw [hv, ctzN_zero, h128]
  · obtain ⟨hlt, hset, hclear⟩ := ctzN_spec 128 v.toNat hv v.isLt
    rw [BitVec.testBit_toNat] at hset
    refine Classical.byContradiction fun hne => ?_
    rcases Nat.lt_or_gt_of_ne hne with h | h
    · rw [hlow _ h] at hset
      cases hset
    · have := hclear n h
      rw [BitVec.testBit_toNat, hbit (by omega)] at this
      cases this

/-! ### Instructions with a scalar side -/

theorem lands_vsel {s : State} {d a b : Reg5} (ty : IType) (m : BitVec 3) (hc : s.cur.between) (hd : d.toNat < s.cur.decl.vregs)
    (ha : a.toNat < s.cur.decl.vregs) (hb : b.toNat < s.cur.decl.vregs) :
    Lands (.vsel d a b ty m) s s.cur 4 [elemsWrite d.toNat ty.width (fun _ => true) (fun i =>
      if s.cur.active m ty.width i then vElem (s.cur.vreg a.toNat) ty.width i else vElem (s.cur.vreg b.toNat) ty.width i)] none 0 := by
  refine lands_of_finishBeats ?_ (by decide) hc
  change execVsel d a b ty m s = _
  exact withVregs_declared s (fieldNums [d, a, b]) _ (by simp [fieldNums, hd, ha, hb])

theorem Slot.readReg_beats {c c' : Slot} {a : Reg5} {x : Word} (h : c.readReg a = some (x, c')) :
    c'.busy = c.busy ∧ c'.late = c.late := by
  unfold Slot.readReg at h
  split at h
  · cases h; simp
  · unfold Slot.popQueue at h
    split at h
    case h_6 => cases h; simp
    all_goals (split at h <;> cases h; simp)

theorem Slot.between_of_readReg {c c' : Slot} {a : Reg5} {x : Word} (h : c.readReg a = some (x, c')) (hc : c.between) : c'.between := by
  obtain ⟨hbusy, hlate⟩ := Slot.readReg_beats h
  exact ⟨hbusy.trans hc.1, hlate.trans hc.2⟩

section Sources
variable {s : State} {d a b : Reg5} {ty : IType} {m : BitVec 3} {x k : Word} {c₁ c : Slot}

theorem lands_vbcast (hc : s.cur.between) (hd : d.toNat < s.cur.decl.vregs) (ha : s.cur.readReg a = some (x, c)) :
    Lands (.vbcast d a ty m) s c 4 [elemsWrite d.toNat ty.width (c.active m ty.width) (fun _ => x.toNat % 2 ^ ty.width)] none 0 := by
  refine lands_of_finishBeats ?_ (by decide) (Slot.between_of_readReg ha hc)
  change execVbcast d a ty m s = _
  rw [execVbcast, withVregs_declared _ _ _ (by simp [fieldNums, hd]), withSrc1_of_read _ ha]

theorem lands_vslide (hc : s.cur.between) (hd : d.toNat < s.cur.decl.vregs) (ha : a.toNat < s.cur.decl.vregs)
    (hb : s.cur.readReg b = some (x, c)) :
    Lands (.vslide d a b ty m) s c 4 [elemsWrite d.toNat ty.width (c.active m ty.width) (fun i =>
      if 0 ≤ (i : Int) + x.toInt ∧ (i : Int) + x.toInt < (4096 / ty.width : Nat) then
        vElem (c.vreg a.toNat) ty.width ((i : Int) + x.toInt).toNat else 0)] none 0 := by
  refine lands_of_finishBeats ?_ (by decide) (Slot.between_of_readReg hb hc)
  change execVslide d a b ty m s = _
  rw [execVslide, withVregs_declared _ _ _ (by simp [fieldNums, hd, ha]), withSrc1_of_read _ hb]

theorem lands_vspl (hc : s.cur.between) (hd : d.toNat < s.cur.decl.vregs) (ha : s.cur.readReg a = some (x, c₁))
    (hb : c₁.readReg b = some (k, c)) :
    Lands (.vspl d a b ty m) s c 1
      [elemsWrite d.toNat ty.width (fun i => i == k.toNat && c.active m ty.width i) (fun _ => x.toNat % 2 ^ ty.width)] none 0 := by
  refine lands_of_finishBeats ?_ (by decide) (Slot.between_of_readReg hb (Slot.between_of_readReg ha hc))
  change execVspl d a b ty m s = _
  rw [execVspl, withVregs_declared _ _ _ (by simp [fieldNums, hd]), withSrc2_of_reads _ ha hb]

theorem writes_vmvs (ha : a.toNat < s.cur.decl.vregs) (hb : s.cur.readReg b = some (k, c)) :
    Writes (.vmvs d a b ty m) s c d
      (if k.toNat < 4096 / ty.width ∧ c.active m ty.width k.toNat = true then BitVec.ofInt 64 (c.ielem a.toNat ty k.toNat) else 0) c.npc := by
  refine writes_of_exec_eq_finish ?_
  change execVmvs d a b ty m s = _
  rw [execVmvs, withVregs_declared _ _ _ (by simp [fieldNums, ha]), withSrc1_of_read _ hb]
  simp only [Bool.and_eq_true, decide_eq_true_eq]

end Sources

/-- An instruction of several beats with a result in a register lands it at its last beat (R176, R188). -/
theorem runs_finishScalar (s : State) {c : Slot} {k : Nat} {d : Reg5} (w : Word) (flags : BitVec 5) (hk : 1 < k) (hc : c.between)
    (hd : d.toNat < 24) : ∃ t, finishScalar s c k d w flags = .next t ∧
      beatsOn (k - 1) t = .next { s with cur := { (c.setReg d.toNat w).raise flags with pc := c.pc + 4 } } := by
  obtain ⟨t, ht, hend⟩ := runs_startBeats (s := s) (c := c) (k := k) { lateNone c with result := some (d, w), flags := flags } hk hc
  have hroom : finishScalar s c k d w flags = startBeats s c k { lateNone c with result := some (d, w), flags := flags } := if_pos hd
  refine ⟨t, hroom.trans ht, hend.trans ?_⟩
  rw [endBeats_reg _ c rfl rfl hd]
  have hswap : (c.raise flags).setReg d.toNat w = (c.setReg d.toNat w).raise flags := by
    unfold Slot.setReg
    split <;> rfl
  have hland : c.landLate { lateNone c with result := some (d, w), flags := flags } =
      { (c.setReg d.toNat w).raise flags with pc := c.pc + 4 } := by
    rw [← hswap]
    rfl
  rw [hland]

theorem vrediSum_eq (c : Slot) (a : Nat) (ty : IType) (m : BitVec 3) : vrediSum c a ty m =
    ((upTo (4096 / ty.width)).filter (c.active m ty.width)).foldl (fun x i => x + c.ielem a ty i) 0 := by
  unfold vrediSum
  generalize (0 : Int) = x
  induction upTo (4096 / ty.width) generalizing x with
  | nil => rfl
  | cons n ns ih =>
    rw [List.foldl_cons, List.filter_cons, ih]
    split <;> rfl

/-- Settles O34: the comparisons, the mask instructions, and the instructions with a scalar side. -/
theorem maskAndScalarResults : Obligations.MaskAndScalarResults := by
  refine ⟨⟨fun i regs d w k m F s hi hc hregs => ?_, fun i d f s hi => lands_maskOp hi s, fun c n v => ⟨rfl, rfl, ?_⟩⟩,
    fun s d a b ty m f rm hc => ⟨fun hd ha hb => lands_vsel ty m hc hd ha hb, fun x c hd ha => lands_vbcast hc hd ha,
      fun x c hd ha hb => lands_vslide hc hd ha hb, fun x k c₁ c hd ha hb => lands_vspl hc hd ha hb,
      fun k c ha hb => writes_vmvs ha hb, fun hd ha => ?_, fun x c hd ha hb => ?_, ?_, fun n hn hlow hbit => ?_⟩⟩
  · obtain ⟨hk, hw⟩ := compare_shape hi
    have hex := exec_eq_compare hi s
    rw [withVregs_declared _ _ _ (by simpa using hregs)] at hex
    exact ⟨_, lands_of_finishMask hex hk hc, fun j hj => getLsbD_cmpMask hw _ _ _ hj⟩
  · exact fun h0 h => c.maskReg_setMask_same v h0 h
  · obtain ⟨t, ht, hend⟩ := runs_finishScalar s (k := 6) (BitVec.ofInt 64 (vrediSum s.cur a.toNat ty m)) 0 (by decide) hc hd
    have hex : exec (.vredi d a ty m) s = finishScalar s s.cur 6 d (BitVec.ofInt 64 (vrediSum s.cur a.toNat ty m)) 0 := by
      change execVredi d a ty m s = _
      rw [execVredi, withVregs_declared _ _ _ (by simp [fieldNums, ha])]
    refine ⟨t, hex.trans ht, hend.trans ?_⟩
    rw [vrediSum_eq, Slot.raise_zero]
  · have hbeats : 1 < 4096 / fwidth f / 8 + 2 := Nat.le_add_left 2 _
    obtain ⟨t, ht, hend⟩ := runs_finishScalar s (BitVec.ofNat 64 (vfredsSum c f rm a (x.toNat % 2 ^ (FFmt.fmt f).w)).1)
      (vfredsSum c f rm a (x.toNat % 2 ^ (FFmt.fmt f).w)).2 hbeats (Slot.between_of_readReg hb hc) hd
    refine ⟨t, Eq.trans ?_ ht, hend⟩
    change execVfreds d a b f rm s = _
    rw [execVfreds, withVregs_declared _ _ _ (by simp [fieldNums, ha]), withSrc1_of_read _ hb]
    rfl
  · refine writes_of_exec_eq_finish ?_
    rw [← popcN_mask]
    rfl
  · refine writes_of_exec_eq_finish ?_
    rw [← ctzN_mask hn hlow hbit]
    rfl

end Sys2Proof.Machine


/-! Predicates by lane (R194, R195, R199, R204; O35). -/

namespace Sys2Proof.Machine

/-! ### Beats that end in a trap -/

theorem takeTrap_of_cur {s : State} {c e : Slot} (he : e.phys = c.phys) (hc : s.cur.phys = c.phys) (cause : TrapCause)
    (tval value : Word) (word : IWord) (mig : Bool) :
    takeTrap { s with cur := e } c cause tval value word mig = takeTrap s c cause tval value word mig := by
  have hset (f : Slot) (hf : f.phys = c.phys) : ({ s with cur := e } : State).setSlot f = s.setSlot f := by
    rw [State.setSlot_cur (s := s) (hc.trans hf.symm), State.setSlot_cur (s := { s with cur := e }) (he.trans hf.symm)]
  unfold takeTrap
  split
  · exact hset _ rfl
  · split
    · unfold fatalTrap fatalTrapAt
      rw [hset]
      rfl
    · exact hset _ rfl

/-- A trap at an instruction's last beat is the trap of its slot (R204). -/
theorem trap_of_cur {s : State} {c e : Slot} (he : e.phys = c.phys) (hc : s.cur.phys = c.phys) (cause : TrapCause) (tval : Word) :
    trap { s with cur := e } c cause tval = trap s c cause tval := by
  unfold trap trapShowing
  split
  · rfl
  · rw [takeTrap_of_cur he hc]

theorem runs_trapAtBeat {s : State} {c : Slot} {k : Nat} (cause : TrapCause) (tval : Word) (hk : 1 < k) (hb : c.between)
    (hc : s.cur.phys = c.phys) :
    ∃ t, trapAtBeat s c k cause tval = .next t ∧ beatsOn (k - 1) t = trap s c cause tval := by
  obtain ⟨t, ht, hend⟩ := runs_startBeats (s := s) (c := c) (k := k) { lateNone c with trap := some (cause, tval) } hk hb
  refine ⟨t, ht, hend.trans ?_⟩
  rw [endBeats_trap _ c (l := { lateNone c with trap := some (cause, tval) }) rfl]
  refine trap_of_cur ?_ hc cause tval
  rfl

theorem runs_finishBeats {s : State} {c : Slot} {k : Nat} (writes : List VWrite) (flags : BitVec 5) (hk : 1 < k) (hb : c.between) :
    ∃ t, finishBeats s c k writes flags = .next t ∧ beatsOn (k - 1) t = .next { s with cur := landedSlot c writes none flags } := by
  obtain ⟨t, ht, hend⟩ := runs_startBeats (s := s) (c := c) (k := k) { lateNone c with writes := writes, flags := flags } hk hb
  rw [endBeats_writes _ c rfl rfl rfl] at hend
  exact ⟨t, ht, hend⟩

/-! ### The lanes of a predicate -/

theorem find_map_key {α : Type} (f : Nat → α) (l : List Nat) (i : Nat) :
    (l.map (fun j => (j, f j))).find? (fun v => v.1 == i) = if l.contains i then some (i, f i) else none := by
  induction l with
  | nil => rfl
  | cons j l ih =>
    rw [List.map_cons, List.find?_cons, List.contains_cons, ih]
    by_cases h : j = i
    · subst h
      simp
    · rw [beq_eq_false_iff_ne.2 h, beq_eq_false_iff_ne.2 (Ne.symm h)]
      rfl

/-- The result of a lane that some of two lists hold, those of the first before those of the second. -/
theorem find_map_append {α : Type} (f g : Nat → α) (l l' : List Nat) (i : Nat) :
    (l.map (fun j => (j, f j)) ++ l'.map (fun j => (j, g j))).find? (fun v => v.1 == i) =
      if l.contains i then some (i, f i) else if l'.contains i then some (i, g i) else none := by
  rw [List.find?_append, find_map_key, find_map_key]
  split <;> rfl

section Lanes
variable (p : Pred) (c : Slot) (a : Reg5) (f64 : Bool) (m : BitVec 3)

/-- A lane has only finite coordinates. -/
def laneFinite (i : Nat) : Bool := (laneValues c a.toNat (predCoords p) f64 i).all FVal.isFin

/-- The active lanes with a coordinate that is not finite. -/
def badOf : List Nat := (predLanes c f64 m).filter (fun i => !laneFinite p c a f64 i)

/-- The active lanes with only finite coordinates. -/
def finOf : List Nat := (predLanes c f64 m).filter (laneFinite p c a f64)

/-- The value of a lane (R196, R204). -/
def laneValue (sos : Bool) (i : Nat) : Nat :=
  if (badOf p c a f64 m).contains i then 2 else
    truncN (predResult p (lanePoints p c a f64 i)
      (if sos then some (laneIndices c (a.toNat + predCoords p) (predShape p).1 f64 i) else none)) 32

theorem contains_lanes (i : Nat) : (predLanes c f64 m).contains i =
    ((finOf p c a f64 m).contains i || (badOf p c a f64 m).contains i) := by
  rw [Bool.eq_iff_iff, Bool.or_eq_true]
  simp only [List.contains_iff_mem, finOf, badOf, List.mem_filter]
  cases laneFinite p c a f64 i <;> simp

theorem not_bad_of_fin {i : Nat} (h : (finOf p c a f64 m).contains i = true) : (badOf p c a f64 m).contains i = false := by
  simp only [List.contains_iff_mem, finOf, List.mem_filter] at h
  rw [Bool.eq_false_iff]
  simp [badOf, h.2]

end Lanes

/-- What a predicate does once its registers are declared: PNONFIN, or its lanes' results. -/
theorem predicate_eq (s : State) (p : Pred) (d a : Reg5) (f64 nf sos : Bool) (m : BitVec 3) :
    predicate s p d a f64 nf sos m = withVregs s (predRegs p d a sos) (fun _ =>
      if !(badOf p s.cur a f64 m).isEmpty && !nf then
        trapAtBeat s s.cur (if f64 then 8 else 4) .pnonfin (badLanes f64 (badOf p s.cur a f64 m))
      else
        finishBeats (countStages s s.cur ((finOf p s.cur a f64 m).map (fun i => laneStage p f64 (lanePoints p s.cur a f64 i)))
            (badOf p s.cur a f64 m).length) s.cur
          (predBeats p f64 ((finOf p s.cur a f64 m).map (fun i => laneStage p f64 (lanePoints p s.cur a f64 i))))
          [elemsWrite d.toNat 32 (fun i => (predLanes s.cur f64 m).contains i) (laneValue p s.cur a f64 m sos)]
          (if (badOf p s.cur a f64 m).isEmpty then 0 else flagNV)) := by
  have hbad (c : Slot) : (((predLanes c f64 m).map (fun i => (i, laneValues c a.toNat (predCoords p) f64 i))).filter
      (fun v => !(v.2.all FVal.isFin))).map (fun v => v.1) = badOf p c a f64 m := by
    rw [List.filter_map, List.map_map]
    exact List.map_id _
  have hfin (c : Slot) : (((predLanes c f64 m).map (fun i => (i, laneValues c a.toNat (predCoords p) f64 i))).filter
      (fun v => v.2.all FVal.isFin)).map (fun v => (v.1, toPoints (predShape p).2 (predShape p).1 (commonInts v.2))) =
        (finOf p c a f64 m).map (fun i => (i, lanePoints p c a f64 i)) := by
    rw [List.filter_map, List.map_map]
    rfl
  unfold predicate
  dsimp only
  refine congrArg (withVregs s _) (funext fun _ => ?_)
  have hbad' := hbad s.cur
  have hfin' := hfin s.cur
  unfold predLanes at hbad' hfin'
  rw [hbad', hfin']
  split
  · rfl
  · simp only [List.map_map, Function.comp_def, find_map_append]
    have hact : (fun i => (if (finOf p s.cur a f64 m).contains i = true then some (i, truncN (predResult p (lanePoints p s.cur a f64 i)
          (if sos then some (laneIndices s.cur (a.toNat + predCoords p) (predShape p).1 f64 i) else none)) 32)
        else if (badOf p s.cur a f64 m).contains i = true then some (i, 2) else none).isSome) =
          fun i => (predLanes s.cur f64 m).contains i := by
      funext i
      rw [contains_lanes]
      split
      · next h => rw [h]; rfl
      · next h => rw [Bool.eq_false_iff.2 h, Bool.false_or]; split <;> simp_all
    rw [hact]
    refine congrArg (fun v => finishBeats _ _ _ [v] _) (elemsWrite_congr fun i _ hi => ?_)
    rw [contains_lanes] at hi
    unfold laneValue
    by_cases h : (finOf p s.cur a f64 m).contains i = true
    · rw [if_pos h, not_bad_of_fin p s.cur a f64 m h]
      rfl
    · rw [Bool.eq_false_iff.2 h, Bool.false_or] at hi
      rw [if_neg h, if_pos hi, if_pos hi]
      rfl

theorem exec_eq_predicate {i : Instr} {p : Pred} {d a : Reg5} {f64 nf sos : Bool} {m : BitVec 3} (h : IsPred i p d a f64 nf sos m)
    (s : State) : exec i s = predicate s p d a f64 nf sos m := by
  cases h <;> rfl

theorem predBeats_gt_one (p : Pred) (f64 : Bool) (stages : List (Bool × Nat)) : 1 < predBeats p f64 stages := by
  unfold predBeats
  cases f64 <;> simp only [Bool.false_eq_true, if_true, if_false] <;> omega

/-- Settles O35: a predicate's lanes land at its last beat, or its PNONFIN is taken then. -/
theorem predicateResults : Obligations.PredicateResults := by
  intro i p d a f64 nf sos m s hi hc hregs
  have hex := (exec_eq_predicate hi s).trans (predicate_eq s p d a f64 nf sos m)
  rw [withVregs_declared _ _ _ hregs] at hex
  refine ⟨fun h => ?_, fun hbad hnf => ?_⟩
  · have hgo : (!(badOf p s.cur a f64 m).isEmpty && !nf) = false := by
      obtain h | h := h
      · rw [show badOf p s.cur a f64 m = [] from h]; rfl
      · rw [h, Bool.not_true, Bool.and_false]
    rw [hgo, if_neg (by decide)] at hex
    obtain ⟨t, ht, hend⟩ := runs_finishBeats (s := countStages s s.cur ((finOf p s.cur a f64 m).map (fun i =>
        laneStage p f64 (lanePoints p s.cur a f64 i))) (badOf p s.cur a f64 m).length)
      [elemsWrite d.toNat 32 (fun i => (predLanes s.cur f64 m).contains i) (laneValue p s.cur a f64 m sos)]
      (if (badOf p s.cur a f64 m).isEmpty then 0 else flagNV) (predBeats_gt_one p f64 _) hc
    refine ⟨t, hex.trans ht, hend.trans ?_⟩
    have hflags : (if (badOf p s.cur a f64 m).isEmpty then (0 : BitVec 5) else flagNV) = if badOf p s.cur a f64 m = [] then 0 else flagNV := by
      simp only [List.isEmpty_iff]
    rw [hflags]
    rfl
  · rw [if_pos (by simp [hnf]; exact hbad)] at hex
    have hk : 1 < (if f64 then 8 else 4) := by split <;> decide
    obtain ⟨t, ht, hend⟩ := runs_trapAtBeat .pnonfin (badLanes f64 (badOf p s.cur a f64 m)) hk hc rfl
    refine ⟨t, hex.trans ht, ?_⟩
    rw [show (if f64 then 7 else 3) = (if f64 then 8 else 4) - 1 by cases f64 <;> rfl]
    exact hend

end Sys2Proof.Machine


/-! The block conversion VCVTGQ (R91, R92, R191; O37). -/

namespace Sys2Proof.Machine

theorem vElem_vOfElems {w i : Nat} (f : Nat → Nat) (hi : i < 4096 / w) : vElem (vOfElems w f) w i = f i % 2 ^ w := by
  refine eq_of_testBit_lt (elemN_lt _ _ _) (Nat.mod_lt _ (Nat.two_pow_pos w)) fun r hr => ?_
  rw [testBit_vElem _ _ hr, getLsbD_vOfElems f hi hr, Nat.testBit_mod_two_pow, decide_eq_true hr, Bool.true_and]

/-- An entry of some blocks of one length, one after another. -/
theorem getD_flatMap_upTo {L : Nat} (g : Nat → List Nat) (hL : 0 < L) (hg : ∀ b, (g b).length = L) (n j : Nat) :
    ((upTo n).flatMap g).getD j 0 = if j / L < n then (g (j / L)).getD (j % L) 0 else 0 := by
  have hlen (n : Nat) : ((upTo n).flatMap g).length = n * L := by
    induction n with
    | zero => simp [upTo]
    | succ n ih =>
      rw [upTo, List.range_succ, List.flatMap_append, List.length_append, ← upTo, ih]
      simp [hg, Nat.succ_mul]
  induction n with
  | zero => simp [upTo]
  | succ n ih =>
    rw [upTo, List.range_succ, List.flatMap_append, ← upTo, List.flatMap_singleton]
    by_cases h : j < n * L
    · have hdiv : j / L < n := (Nat.div_lt_iff_lt_mul hL).2 h
      rw [List.getD_eq_getElem?_getD, List.getElem?_append_left (by rwa [hlen]), ← List.getD_eq_getElem?_getD, ih, if_pos hdiv, if_pos (by omega)]
    · have hle : n * L ≤ j := Nat.le_of_not_lt h
      rw [List.getD_eq_getElem?_getD, List.getElem?_append_right (by rwa [hlen]), ← List.getD_eq_getElem?_getD, hlen]
      by_cases h' : j < (n + 1) * L
      · have hdiv : j / L = n := Nat.div_eq_of_lt_le hle h'
        have hmod : j - n * L = j % L := by
          have := Nat.div_add_mod' j L
          rw [hdiv] at this
          omega
        rw [hdiv, if_pos (Nat.lt_succ_self n), hmod]
      · have hle' : (n + 1) * L ≤ j := Nat.le_of_not_lt h'
        have hdiv : n + 1 ≤ j / L := (Nat.le_div_iff_mul_le hL).2 hle'
        rw [if_neg (by omega), List.getD_eq_getElem?_getD,
          List.getElem?_eq_none (by rw [hg]; rw [Nat.succ_mul] at hle'; omega), Option.getD_none]

theorem length_blockData (m : Nat) (codes : List Nat) : (blockData m codes).length = 2 * (m + 1) := by
  simp [blockData, upTo]

theorem getD_blockData_lt (m : Nat) (codes : List Nat) (i : Nat) : (blockData m codes).getD i 0 < 256 := by
  by_cases h : i < 2 * (m + 1)
  · simp only [blockData, upTo]
    rw [List.getD_eq_getElem?_getD, List.getElem?_eq_getElem (by simpa using h), Option.getD_some]
    simp only [List.getElem_map]
    exact Nat.mod_lt _ (by decide)
  · rw [List.getD_eq_getElem?_getD, List.getElem?_eq_none (by rw [length_blockData]; omega), Option.getD_none]
    decide

/-- A byte of the register that VCVTGQ writes (R191). -/
theorem vElem_gqImage (m n : Nat) (block : Nat → GqBlock) {j : Nat} (hj : j < 512) :
    vElem (gqImage m ((upTo n).map block)) 8 j =
      (if 448 ≤ j then (if (j - 448) / 2 < n then
          (if j % 2 = 0 then (block ((j - 448) / 2)).scale else (block ((j - 448) / 2)).micro) % 256 else 0)
        else if j / (2 * (m + 1)) < n then (blockData m (block (j / (2 * (m + 1)))).codes).getD (j % (2 * (m + 1))) 0 else 0) := by
  unfold gqImage
  dsimp only
  rw [vElem_vOfElems _ (by omega), List.flatMap_map, List.flatMap_map]
  by_cases h : 448 ≤ j
  · rw [if_neg (by omega), if_pos h, getD_flatMap_upTo (L := 2) (fun b => [(block b).scale, (block b).micro]) (by decide) (fun _ => rfl)]
    split
    · have hmod : (j - 448) % 2 = j % 2 := by omega
      rw [hmod]
      rcases Nat.mod_two_eq_zero_or_one j with h2 | h2 <;> rw [h2] <;> rfl
    · rfl
  · rw [if_pos (by omega), if_neg h,
      getD_flatMap_upTo (fun b => blockData m (block b).codes) (show 0 < 2 * (m + 1) by omega) (fun _ => length_blockData ..)]
    split
    · exact Nat.mod_eq_of_lt (getD_blockData_lt ..)
    · rfl

theorem foldl_block_flags (n : Nat) (block : Nat → GqBlock) :
    ((upTo n).map block).foldl (fun (x : BitVec 5) (b : GqBlock) => x ||| b.flags) 0 = flagsOf n (fun _ => true) (fun b => (block b).flags) := by
  rw [List.foldl_map, flagsOf, List.filter_eq_self.2 fun _ _ => rfl]

/-- Settles O37: the image's bytes, plane by plane. -/
theorem blockConversionResult : Obligations.BlockConversionResult := by
  intro d a sat st rnd dt m s hc hd ha c f val block
  refine ⟨gqImage (GqFmt.m dt) ((upTo (4096 / f.w / 16)).map block), lands_of_finishBeats ?_ (by decide) hc,
    fun j hj => vElem_gqImage (GqFmt.m dt) (4096 / f.w / 16) block hj⟩
  change execVcvtgq d a sat st rnd dt m s = _
  rw [execVcvtgq, withVregs_declared _ _ _ (by simp [fieldNums, hd, ha])]
  dsimp only
  rw [← foldl_block_flags]

end Sys2Proof.Machine


/-! Vector loads and stores (R207, R220 to R223, R227, R228, R231; O38, O40). -/

namespace Sys2Proof.Machine

/-! ### The elements of an access -/

/-- The active elements of an access stand in ascending order. -/
theorem activeIdx_split {n : Nat} {act : Nat → Bool} {j : Nat} (hj : j < n) (ha : act j = true) :
    ∃ pre post, (upTo n).filter act = pre ++ j :: post ∧ ∀ l ∈ pre, l < j ∧ act l = true := by
  have hmem : j ∈ (upTo n).filter act := List.mem_filter.2 ⟨List.mem_range.2 hj, ha⟩
  obtain ⟨pre, post, hsplit⟩ := List.append_of_mem hmem
  refine ⟨pre, post, hsplit, fun l hl => ⟨?_, ?_⟩⟩
  · have hsorted : ((upTo n).filter act).Pairwise (· < ·) := List.pairwise_lt_range.filter _
    rw [hsplit, List.pairwise_append] at hsorted
    exact hsorted.2.2 l hl j (by simp)
  · have : l ∈ (upTo n).filter act := by rw [hsplit]; simp [hl]
    exact (List.mem_filter.1 this).2

theorem plainElems_of_resolve {s : State} {c : Slot} {n : Nat} {acc : Acc} {addr : Nat → Word} {key : Nat → Nat} {idx : List Nat}
    (h : ∀ j ∈ idx, resolve s c (addr j) n acc = .ok (key j)) :
    plainElems s c n acc (idx.map (fun j => (j, addr j))) = .ok (idx.map (fun j => { i := j, keys := [(key j, n)] })) := by
  induction idx with
  | nil => rfl
  | cons j idx ih =>
    rw [List.map_cons, plainElems, h j (by simp)]
    dsimp only
    rw [ih fun l hl => h l (by simp [hl])]
    rfl

/-- The first element whose check fails decides the trap (R228). -/
theorem plainElems_of_error {s : State} {c : Slot} {n : Nat} {acc : Acc} {addr : Nat → Word} {j : Nat} {r : Refused}
    (hj : resolve s c (addr j) n acc = .error r) {pre : List Nat} (post : List Nat)
    (h : ∀ l ∈ pre, ∃ q, resolve s c (addr l) n acc = .ok q) :
    plainElems s c n acc ((pre ++ j :: post).map (fun j => (j, addr j))) = .error r := by
  induction pre with
  | nil =>
    rw [List.nil_append, List.map_cons, plainElems, hj]
  | cons l pre ih =>
    obtain ⟨q, hq⟩ := h l (by simp)
    rw [List.cons_append, List.map_cons, plainElems, hq]
    dsimp only
    rw [ih fun l hl => h l (by simp [hl])]

theorem formatWindow_ctxOf {s : State} {c : Slot} {base desc : Word} {w o : Nat} {x : Ctx}
    (h : formatWindow s c base = some (desc, w, o, x)) : s.ctxOf c = some x := by
  unfold formatWindow at h
  split at h
  · next w' o' x' _ hx =>
    split at h
    · cases h
    · cases h
      exact hx
  · cases h

/-! ### Stores -/

theorem enterSome_eq (s : State) (c : Slot) (css : List (List Host.Cell)) (unit mark : Nat) :
    enterSome s c css none unit mark = ({ s with
      sbuf := s.sbuf ++ (css.take (32 - s.sbCount (coreOf c.phys))).map (fun cs =>
        ({ core := coreOf c.phys, slot := c.phys, seq := mark, rel := none, unit := unit, bounds := c.rels, cells := cs } : SbEntry)),
      seq := s.seq + 1 }, css.drop (32 - s.sbCount (coreOf c.phys))) := rfl

theorem enterAll_of_room {s : State} {c : Slot} {css : List (List Host.Cell)} (unit : Nat) (flags : BitVec 5)
    (h : css.length ≤ 32 - s.sbCount (coreOf c.phys)) :
    enterAll s c css none unit s.seq flags = .next { s with
      cur := landedSlot c.ready [] none flags,
      sbuf := s.sbuf ++ css.map (fun cs =>
        ({ core := coreOf c.phys, slot := c.phys, seq := s.seq, rel := none, unit := unit, bounds := c.rels, cells := cs } : SbEntry)),
      seq := s.seq + 1 } := by
  unfold enterAll
  rw [enterSome_eq, List.take_of_length_le h, List.drop_of_length_le h]
  rfl

theorem enterAll_of_full {s : State} {c : Slot} {css : List (List Host.Cell)} (unit : Nat) (flags : BitVec 5)
    (h : 32 - s.sbCount (coreOf c.phys) < css.length) :
    enterAll s c css none unit s.seq flags = .next { waiting s c
        (.store (css.drop (32 - s.sbCount (coreOf c.phys))) none unit s.seq flags) with
      sbuf := s.sbuf ++ (css.take (32 - s.sbCount (coreOf c.phys))).map (fun cs =>
        ({ core := coreOf c.phys, slot := c.phys, seq := s.seq, rel := none, unit := unit, bounds := c.rels, cells := cs } : SbEntry)),
      seq := s.seq + 1 } := by
  obtain ⟨cs, rest, hrest⟩ : ∃ cs rest, css.drop (32 - s.sbCount (coreOf c.phys)) = cs :: rest := by
    cases hd : css.drop (32 - s.sbCount (coreOf c.phys)) with
    | nil => exact absurd (List.drop_eq_nil_iff.1 hd) (by omega)
    | cons cs rest => exact ⟨cs, rest, rfl⟩
  unfold enterAll
  rw [enterSome_eq, hrest]
  rfl

/-- A checked store enters its blocks' writes at its last beat (R223, R228). -/
theorem storesBlocks_of_vstoreGo {i : Instr} {s : State} {c : Slot} {k unit : Nat} {flags : BitVec 5} {cells : List Host.Cell}
    (hi : exec i s = vstoreGo s c cells unit flags k) (hk : 1 < k) (hc : c.between) : StoresBlocks i s c k unit flags cells := by
  obtain ⟨t, ht, hend⟩ := runs_startBeats (s := s) (c := c) (k := k)
    { lateNone c with stores := unitGroups 64 cells, unit := unit, flags := flags } hk hc
  refine ⟨t, hi.trans ht, fun hnil => ?_, fun hne hroom => ?_, fun hfull => ?_⟩
  · rw [endBeats_writes _ c rfl rfl hnil] at hend
    exact hend
  · rw [endBeats_stores _ c rfl rfl hne] at hend
    exact hend.trans (enterAll_of_room unit flags hroom)
  · have hne : unitGroups 64 cells ≠ [] := by
      intro h
      rw [h] at hfull
      exact absurd hfull (Nat.not_lt_zero _)
    rw [endBeats_stores _ c rfl rfl hne] at hend
    exact hend.trans (enterAll_of_full unit flags hfull)

theorem elemCells_plain (idx : List Nat) (key : Nat → Nat) (n : Nat) (val : Nat → Nat) :
    elemCells (idx.map (fun j => { i := j, keys := [(key j, n)] })) val = idx.flatMap (fun j => cellsAt (key j) (leBytes n (val j))) := by
  unfold elemCells
  rw [List.flatMap_map]

/-- A plain access of a store checks its active elements, and stores them. -/
theorem exec_eq_vstorePlain {i : Instr} {s : State} {c : Slot} {regs : List Reg5} {d : Reg5} {ty : EType} {m : BitVec 3} {acc : Acc}
    {addr : Nat → Word} {k : Nat} (h : VAccess i s c regs d ty m true acc addr k) (hregs : ∀ r ∈ regs, r.toNat < s.cur.decl.vregs) :
    exec i s = vstorePlain s c d ty acc (((upTo (4096 / EType.bits ty)).filter (c.active m (EType.bits ty))).map (fun j => (j, addr j))) k := by
  cases h with
  | vst _ a _ _ _ base _ ha hw =>
    change execVst d a ty m s = _
    rw [execVst, withVregs_declared _ _ _ (by simpa using hregs), withSrc1_of_read _ ha]
    simp only [hw]
    rfl
  | vsts _ a b _ _ _ base st c₁ _ ha hb =>
    change execVsts d a b ty m s = _
    rw [execVsts, withVregs_declared _ _ _ (by simpa using hregs), withSrc2_of_reads _ ha hb]
    rfl
  | vstx _ a b _ _ _ base _ ha =>
    change execVstx d a b ty m s = _
    rw [execVstx, withVregs_declared _ _ _ (by simpa [fieldNums] using hregs), withSrc1_of_read _ ha]
    rfl

theorem vaccess_beats {i : Instr} {s : State} {c : Slot} {regs : List Reg5} {d : Reg5} {ty : EType} {m : BitVec 3} {store : Bool}
    {acc : Acc} {addr : Nat → Word} {k : Nat} (h : VAccess i s c regs d ty m store acc addr k) : 1 < k := by
  cases h <;> omega

/-- The cells of elements depend on the values of those elements alone. -/
theorem elemCells_congr {es : List VElem} {f g : Nat → Nat} (h : ∀ e ∈ es, f e.i = g e.i) : elemCells es f = elemCells es g := by
  unfold elemCells
  rw [List.flatMap_def, List.flatMap_def]
  refine congrArg List.flatten (List.map_congr_left fun e he => ?_)
  rw [h e he]

/-- The elements of an access through a format window, with the locations they read or write. -/
def windowElems (x : Ctx) (c : Slot) (desc : Word) (o : Nat) (idx : List Nat) : List VElem :=
  idx.map (fun i => { i := i, keys := winKeys x c desc o i })

/-- What VST through a format window does (R220, R222). -/
theorem exec_vst_window {s : State} {d a : Reg5} {ty : EType} {m : BitVec 3} {base desc : Word} {c : Slot} {w o : Nat} {x : Ctx}
    (hd : d.toNat < s.cur.decl.vregs) (ha : s.cur.readReg a = some (base, c)) (hw : formatWindow s c base = some (desc, w, o, x)) :
    exec (.vst d a ty m) s = if activeIdx c m (EType.bits ty) = [] then finishBeats s c 4 [] 0
      else match winCheck x c ty true desc base w o (activeIdx c m (EType.bits ty)) with
        | some (cause, tval) => trap s c cause tval
        | none => vstoreGo s c (elemCells (windowElems x c desc o (activeIdx c m (EType.bits ty))) (fun j =>
              (convElem (winType (winFmt desc)) ty .rne false (vElem (c.vreg d.toNat) (EType.bits ty) j)).1))
          (EType.bits (winType (winFmt desc)) / 8)
          (flagsOf (4096 / EType.bits ty) (c.active m (EType.bits ty))
            (fun j => (convElem (winType (winFmt desc)) ty .rne false (vElem (c.vreg d.toNat) (EType.bits ty) j)).2)) 4 := by
  change execVst d a ty m s = _
  rw [execVst, withVregs_declared _ _ _ (by simpa using hd), withSrc1_of_read _ ha]
  simp only [hw, List.isEmpty_iff]
  split
  · rfl
  · cases winCheck x c ty true desc base w o (activeIdx c m (EType.bits ty)) with
    | some r => rfl
    | none =>
      dsimp only
      rw [List.foldl_map]
      refine congrArg (fun cells => vstoreGo s c cells _ _ 4) (elemCells_congr fun e he => ?_)
      obtain ⟨j, hj, rfl⟩ := List.mem_map.1 he
      rw [find_map_key, if_pos (by simpa using hj)]
      rfl

/-- Settles O38: the plain stores by their elements, and VST through a format window. -/
theorem vectorStoreResults : Obligations.VectorStoreResults := by
  refine ⟨fun i s c regs d ty m acc addr k hi hc hregs => ?_, fun s d a ty m base desc c w o x hc hd ha hw => ?_⟩
  · have hex := exec_eq_vstorePlain hi hregs
    refine ⟨fun key hkey => ?_, fun j cause tval hj hact hr hpre => ?_⟩
    · have hall : ∀ j ∈ (upTo (4096 / EType.bits ty)).filter (c.active m (EType.bits ty)),
          resolve s c (addr j) (EType.bits ty / 8) acc = .ok (key j) := fun j hj => by
        obtain ⟨hjn, hjact⟩ := List.mem_filter.1 hj
        exact hkey j (List.mem_range.1 hjn) hjact
      rw [vstorePlain, elemBytes, plainElems_of_resolve hall] at hex
      dsimp only at hex
      rw [elemCells_plain] at hex
      exact storesBlocks_of_vstoreGo hex (vaccess_beats hi) hc
    · obtain ⟨pre, post, hsplit, hlow⟩ := activeIdx_split hj hact
      rw [vstorePlain, elemBytes, hsplit, plainElems_of_error hr post fun l hl => hpre l (hlow l hl).1 (hlow l hl).2] at hex
      exact hex
  · have hex := exec_vst_window (ty := ty) (m := m) hd ha hw
    unfold activeIdx at hex
    refine ⟨fun hidx => ?_, fun hidx hcheck => ?_, fun cause tval hidx hcheck => ?_⟩
    · rw [if_pos hidx] at hex
      exact lands_of_finishBeats hex (by decide) hc
    · rw [if_neg hidx] at hex
      rw [hcheck] at hex
      have := storesBlocks_of_vstoreGo hex (by decide) hc
      rw [windowElems, elemCells, List.flatMap_map] at this
      exact this
    · rw [if_neg hidx] at hex
      rw [hcheck] at hex
      exact hex

/-! ### Loads -/

theorem vloadGo_of_own {s : State} {c : Slot} {es : List VElem} (d : Reg5) (ty : EType) (win : Option (Word × Nat))
    (elems : List (Nat × Word)) (beats : Nat)
    (h : ∀ e ∈ es, ∀ k ∈ e.keys, ownCore c k.1 = true ∧ s.loadStalls c.phys k.1 k.2 = false) :
    vloadGo s c d ty win elems es beats = match vloadError s es with
      | some (i, e) => .next (fatalTrap s c .uncorr (elemAddr elems i) c.ir e.place)
      | none => finishBeats s c beats [valuesWrite d.toNat (EType.bits ty) (vloadValues s c ty win es).1]
          (vloadValues s c ty win es).2 := by
  have hown : es.all (fun e => e.keys.all (fun k => ownCore c k.1)) = true :=
    List.all_eq_true.2 fun e he => List.all_eq_true.2 fun k hk => (h e he k hk).1
  have hheld : vloadHeld s c es = false := by
    unfold vloadHeld
    exact List.any_eq_false.2 fun e he => by
      simpa using fun a b hk => (h e he (a, b) hk).2
  unfold vloadGo
  rw [hown, hheld]
  rfl

theorem vloadError_none {s : State} {es : List VElem} (h : ∀ e ∈ es, ∀ k ∈ e.keys, s.errorAt k.1 k.2 = none) :
    vloadError s es = none := by
  refine List.findSome?_eq_none_iff.2 fun e he => ?_
  rw [List.findSome?_eq_none_iff.2 fun k hk => h e he k hk]
  rfl

theorem elemsWrite_congr_active {r w : Nat} {act act' : Nat → Bool} {f g : Nat → Nat} (hact : ∀ i, i < 4096 / w → act i = act' i)
    (h : ∀ i, i < 4096 / w → act i = true → f i = g i) : elemsWrite r w act f = elemsWrite r w act' g := by
  have hmask (u v : Nat → Nat) (huv : ∀ i, i < 4096 / w → act i = true → u i = v i) :
      vOfElems w (fun i => if act i then u i else 0) = vOfElems w (fun i => if act' i then v i else 0) := by
    unfold vOfElems
    refine congrArg _ (ofElemsN_congr w fun i hi => ?_)
    rw [← hact i hi]
    split
    · next ha => exact huv i hi ha
    · rfl
  simp only [elemsWrite]
  rw [hmask f g h, hmask (fun _ => 2 ^ w - 1) (fun _ => 2 ^ w - 1) fun _ _ _ => rfl]

/-- The values of the active elements, written to their register. -/
theorem valuesWrite_active (d w : Nat) (act : Nat → Bool) (f : Nat → Nat) :
    valuesWrite d w (((upTo (4096 / w)).filter act).map (fun j => (j, f j))) = elemsWrite d w act f := by
  have hmem (i : Nat) (hi : i < 4096 / w) : ((upTo (4096 / w)).filter act).contains i = act i := by
    rw [Bool.eq_iff_iff, List.contains_iff_mem, List.mem_filter]
    exact ⟨fun h => h.2, fun h => ⟨List.mem_range.2 hi, h⟩⟩
  unfold valuesWrite
  refine elemsWrite_congr_active (fun i hi => ?_) fun i hi ha => ?_
  · dsimp only
    rw [find_map_key, hmem i hi]
    cases act i <;> rfl
  · dsimp only at ha ⊢
    rw [find_map_key] at ha ⊢
    split
    · rfl
    · next h => rw [if_neg h] at ha; cases ha

theorem elemAddr_map {idx : List Nat} (addr : Nat → Word) {j : Nat} (hj : j ∈ idx) :
    elemAddr (idx.map (fun j => (j, addr j))) j = addr j := by
  unfold elemAddr
  rw [find_map_key, if_pos (by simpa using hj)]
  rfl

/-- A plain access of a load checks its active elements, and loads them. -/
theorem exec_eq_vloadPlain {i : Instr} {s : State} {c : Slot} {regs : List Reg5} {d : Reg5} {ty : EType} {m : BitVec 3} {acc : Acc}
    {addr : Nat → Word} {k : Nat} (h : VAccess i s c regs d ty m false acc addr k) (hregs : ∀ r ∈ regs, r.toNat < s.cur.decl.vregs) :
    exec i s = vloadPlain s c d ty acc (((upTo (4096 / EType.bits ty)).filter (c.active m (EType.bits ty))).map (fun j => (j, addr j))) k := by
  cases h with
  | vld _ a _ _ _ base _ ha hw =>
    change execVld d a ty m s = _
    rw [execVld, withVregs_declared _ _ _ (by simpa using hregs), withSrc1_of_read _ ha]
    simp only [hw]
    rfl
  | vlds _ a b _ _ _ base st c₁ _ ha hb =>
    change execVlds d a b ty m s = _
    rw [execVlds, withVregs_declared _ _ _ (by simpa using hregs), withSrc2_of_reads _ ha hb]
    rfl
  | vldx _ a b _ _ _ base _ ha =>
    change execVldx d a b ty m s = _
    rw [execVldx, withVregs_declared _ _ _ (by simpa [fieldNums] using hregs), withSrc1_of_read _ ha]
    rfl

/-- What VLD through a format window does (R220, R221). -/
theorem exec_vld_window {s : State} {d a : Reg5} {ty : EType} {m : BitVec 3} {base desc : Word} {c : Slot} {w o : Nat} {x : Ctx}
    (hd : d.toNat < s.cur.decl.vregs) (ha : s.cur.readReg a = some (base, c)) (hw : formatWindow s c base = some (desc, w, o, x)) :
    exec (.vld d a ty m) s = if activeIdx c m (EType.bits ty) = [] then finishBeats s c 4 [] 0
      else match winCheck x c ty false desc base w o (activeIdx c m (EType.bits ty)) with
        | some (cause, tval) => trap s c cause tval
        | none => vloadGo s c d ty (some (desc, o))
            ((activeIdx c m (EType.bits ty)).map (fun i => (i, base + BitVec.ofNat 64 (winData desc o i).1 - BitVec.ofNat 64 o)))
            (windowElems x c desc o (activeIdx c m (EType.bits ty))) 4 := by
  change execVld d a ty m s = _
  rw [execVld, withVregs_declared _ _ _ (by simpa using hd), withSrc1_of_read _ ha]
  simp only [hw, List.isEmpty_iff]
  split
  · rfl
  · cases winCheck x c ty false desc base w o (activeIdx c m (EType.bits ty)) <;> rfl

/-- A load through a window reads its active elements, and raises the flags of their conversion. -/
theorem vloadValues_window {s : State} {c : Slot} {x : Ctx} (hx : s.ctxOf c = some x) (ty : EType) (desc : Word) (o : Nat)
    (idx : List Nat) :
    vloadValues s c ty (some (desc, o)) (windowElems x c desc o idx) =
      (idx.map (fun j => (j, (winLoad s x c ty desc o j).1)), idx.foldl (fun f j => f ||| (winLoad s x c ty desc o j).2) 0) := by
  unfold vloadValues windowElems
  simp only [hx, List.map_map, List.foldl_map, Function.comp_def]

section Plain

variable {s : State} {c : Slot} {ty : EType} {key : Nat → Nat} {idx : List Nat} {n : Nat}

theorem vloadValues_plain (hown : ∀ j ∈ idx, ownCore c (key j) = true) :
    vloadValues s c ty none (idx.map (fun j => { i := j, keys := [(key j, n)] })) =
      (idx.map (fun j => (j, leNat (s.readCoreN (coreOf c.phys) (key j) n))), 0) := by
  unfold vloadValues
  simp only [List.map_map, Function.comp_def]
  refine congrArg (·, 0) (List.map_congr_left fun j hj => ?_)
  rw [readSlotN_of_ownCore n (hown j hj)]

theorem vloadError_plain {pre post : List Nat} {j : Nat} {e : MemErr} (hidx : idx = pre ++ j :: post)
    (hj : s.errorAt (key j) n = some e) (hpre : ∀ l ∈ pre, s.errorAt (key l) n = none) :
    vloadError s (idx.map (fun j => { i := j, keys := [(key j, n)] })) = some (j, e) := by
  have hnone : pre.findSome? (fun l => (s.errorAt (key l) n).map (fun m => (l, m))) = none :=
    List.findSome?_eq_none_iff.2 fun l hl => by rw [hpre l hl]; rfl
  have hsingle : (fun l => (List.findSome? (fun k => s.errorAt k.1 k.2) [(key l, n)]).map (fun m => (l, m))) =
      fun l => (s.errorAt (key l) n).map (fun m => (l, m)) := by
    funext l
    cases h : s.errorAt (key l) n <;> simp [h]
  unfold vloadError
  rw [List.findSome?_map]
  refine (congrArg (List.findSome? · idx) hsingle).trans ?_
  rw [hidx, List.findSome?_append, hnone, Option.none_or, List.findSome?_cons, hj]
  rfl

end Plain

/-- Settles O40: the plain loads by their elements, and VLD through a format window. -/
theorem vectorLoadResults : Obligations.VectorLoadResults := by
  refine ⟨fun i s c regs d ty m acc addr k hi hc hregs => ?_, fun s d a ty m base desc c w o x hc hd ha hw => ?_⟩
  · have hex := exec_eq_vloadPlain hi hregs
    have hk : 0 < k := Nat.zero_lt_of_lt (vaccess_beats hi)
    refine ⟨fun key hkey => ?_, fun j cause tval hj hact hr hpre => ?_⟩
    · have hall : ∀ j ∈ (upTo (4096 / EType.bits ty)).filter (c.active m (EType.bits ty)),
          j < 4096 / EType.bits ty ∧ c.active m (EType.bits ty) j = true := fun j hj => by
        obtain ⟨hjn, hjact⟩ := List.mem_filter.1 hj
        exact ⟨List.mem_range.1 hjn, hjact⟩
      rw [vloadPlain, elemBytes, plainElems_of_resolve fun j hj => hkey j (hall j hj).1 (hall j hj).2] at hex
      dsimp only at hex
      refine ⟨fun hown => ?_, fun ⟨j, hj, hact, hnot⟩ => ?_⟩
      · rw [vloadGo_of_own _ _ _ _ _ fun e he k hk => by
          obtain ⟨j, hj, rfl⟩ := List.mem_map.1 he
          obtain rfl := List.mem_singleton.1 hk
          exact hown j (hall j hj).1 (hall j hj).2] at hex
        refine ⟨fun hgood => ?_, fun j e hj hact he hpre => ?_⟩
        · rw [vloadError_none fun e he k hk => by
              obtain ⟨j, hj, rfl⟩ := List.mem_map.1 he
              obtain rfl := List.mem_singleton.1 hk
              exact hgood j (hall j hj).1 (hall j hj).2,
            vloadValues_plain fun j hj => (hown j (hall j hj).1 (hall j hj).2).1] at hex
          dsimp only at hex
          rw [valuesWrite_active] at hex
          exact lands_of_finishBeats hex hk hc
        · obtain ⟨pre, post, hsplit, hlow⟩ := activeIdx_split hj hact
          rw [vloadError_plain hsplit he fun l hl => hpre l (hlow l hl).1 (hlow l hl).2] at hex
          dsimp only at hex
          rw [elemAddr_map addr (by rw [hsplit]; simp)] at hex
          exact hex
      · rw [vloadGo, if_neg] at hex
        · exact hex
        · intro h
          have hmem : ({ i := j, keys := [(key j, EType.bits ty / 8)] } : VElem) ∈
              ((upTo (4096 / EType.bits ty)).filter (c.active m (EType.bits ty))).map (fun j =>
                ({ i := j, keys := [(key j, EType.bits ty / 8)] } : VElem)) :=
            List.mem_map_of_mem (List.mem_filter.2 ⟨List.mem_range.2 hj, hact⟩)
          obtain ⟨hall, hheld⟩ := Bool.and_eq_true_iff.1 h
          rcases hnot with hnot | hstall
          · have := List.all_eq_true.1 (List.all_eq_true.1 hall _ hmem) _ (List.mem_singleton.2 rfl)
            rw [hnot] at this
            cases this
          · rw [Bool.not_eq_true', vloadHeld] at hheld
            exact List.any_eq_false.1 hheld _ hmem (List.any_eq_true.2 ⟨_, List.mem_singleton.2 rfl, hstall⟩)
    · obtain ⟨pre, post, hsplit, hlow⟩ := activeIdx_split hj hact
      rw [vloadPlain, elemBytes, hsplit, plainElems_of_error hr post fun l hl => hpre l (hlow l hl).1 (hlow l hl).2] at hex
      exact hex
  · have hex := exec_vld_window (ty := ty) (m := m) hd ha hw
    unfold activeIdx at hex
    refine ⟨fun hidx => ?_, fun hidx hcheck hown => ?_, fun cause tval hidx hcheck => ?_⟩
    · rw [if_pos hidx] at hex
      exact lands_of_finishBeats hex (by decide) hc
    · have hkeys : ∀ e ∈ windowElems x c desc o ((upTo (4096 / EType.bits ty)).filter (c.active m (EType.bits ty))), ∀ k ∈ e.keys,
          ownCore c k.1 = true ∧ s.loadStalls c.phys k.1 k.2 = false ∧ s.errorAt k.1 k.2 = none := fun e he => by
        obtain ⟨j, hj, rfl⟩ := List.mem_map.1 he
        exact hown j hj
      rw [if_neg hidx, hcheck] at hex
      dsimp only at hex
      rw [vloadGo_of_own _ _ _ _ _ fun e he k hk => ⟨(hkeys e he k hk).1, (hkeys e he k hk).2.1⟩,
        vloadError_none fun e he k hk => (hkeys e he k hk).2.2, vloadValues_window (formatWindow_ctxOf hw)] at hex
      dsimp only at hex
      rw [valuesWrite_active] at hex
      exact lands_of_finishBeats hex (by decide) hc
    · rw [if_neg hidx, hcheck] at hex
      exact hex

end Sys2Proof.Machine


/-! Counts, times, queue states and the referee's instructions (R303, R384, R388, R389, R406, R408; O41, O42). -/

namespace Sys2Proof.Machine

/-- A CNTR that the warrant denies, or that names no listed event, answers 0 and sets CNTDENY (R389). -/
theorem exec_cntr_denied {s : State} {x : Ctx} (d : Reg5) {e : BitVec 8} (hx : s.ctxOf s.cur = some x)
    (h : (eventListed e.toNat && x.warrant.allow.getLsbD e.toNat) = false) :
    exec (.cntr d e) s = finishWith s s.cur d 0 s.cur.npc (.deny e) := by
  change execCntr d e s = _
  unfold execCntr
  simp only [hx]
  exact if_neg (by simp [h])

/-- An allowed CNTR answers the count of its unit: at once for a slot or a core, after a wait for a cluster or a context (R388). -/
theorem exec_cntr_allowed {s : State} {x : Ctx} (d : Reg5) {e : BitVec 8} (hx : s.ctxOf s.cur = some x)
    (h : (eventListed e.toNat && x.warrant.allow.getLsbD e.toNat) = true) :
    exec (.cntr d e) s = if e.toNat < 0x80 then finish s s.cur d (BitVec.ofNat 64 (s.counter x.id (eventUnit s.cur e.toNat) e.toNat))
      else withDest s s.cur d (fun _ =>
        waitOn s s.cur (.cntr d (BitVec.ofNat 64 (s.counter x.id (eventUnit s.cur e.toNat) e.toNat)))) := by
  change execCntr d e s = _
  unfold execCntr
  simp only [hx]
  exact if_pos h

theorem exec_threadRejoin_cntr {s : State} {d : Reg5} {v : Word} (hw : s.cur.wait = some (.cntr d v))
    (hs : s.cur.status = .waitMem ∨ s.cur.status = .waitMsg) (hb : s.cur.busy = 0) (hd : d.toNat < 24) :
    exec (.threadRejoin s.cur.phys) s = .next { s with cur := { s.cur.ready.setReg d.toNat v with pc := s.cur.pc + 4 } } := by
  refine exec_threadRejoin_of_rejoin hw hs hb (finish_reg s s.cur.ready v hd) ?_
  simp

/-- Settles O41: QSTAT and TIME end by their result, CNTR by its denial, its count or its wait. -/
theorem countsTimesAndQueueStates : Obligations.CountsTimesAndQueueStates := by
  refine ⟨fun s d => writes_of_exec_eq_finishAt rfl, fun s d => ⟨writes_of_exec_eq_finishAt rfl, writes_of_exec_eq_finishAt rfl⟩,
    fun s d e x hx => ⟨fun hno => ⟨fun hd => ?_, fun hd => ?_⟩, fun hyes => ⟨fun he => ?_, fun he hd hb => ?_⟩⟩⟩
  · exact (exec_cntr_denied d hx hno).trans (if_pos hd)
  · exact (exec_cntr_denied d hx hno).trans (if_neg (Nat.not_lt.2 hd))
  · exact writes_of_exec_eq_finishAt ((exec_cntr_allowed d hx hyes).trans (if_pos he))
  · have hstart := (exec_cntr_allowed d hx hyes).trans ((if_neg (Nat.not_lt.2 he)).trans (withDest_reg s s.cur _ hd))
    have hgo := exec_threadRejoin_cntr (s := waiting s s.cur
      (.cntr d (BitVec.ofNat 64 (s.counter x.id (eventUnit s.cur e.toNat) e.toNat)))) rfl (.inl rfl) hb hd
    exact ⟨_, ⟨_, hstart, _, hgo, rfl⟩, rfl⟩

/-! ### RFETCH into a core of no number (R408) -/

/-- A slot of the core numbered 2^48, which no device has: the number takes a location in its referee scratchpad out of that space. -/
def farSlot : Slot := { State.reset.cur with phys := 8 * 2 ^ 48 }

/-- An item of one byte waits in that core's inbox. -/
def farFetch : State := { State.reset with cur := farSlot, inbox := [{ core := 2 ^ 48, node := 0, kind := 0, bytes := [1] }] }

/-- A write outside the memory spaces leaves memory as it is. -/
theorem State.land_mem_of_outside (s : State) {k : Nat} {b : Byte} (rest : List Host.Cell) (hk : inMem k = false) :
    (s.land ((k, b) :: rest)).mem = s.mem := by
  unfold State.land
  dsimp only
  split
  · rfl
  · rw [hk]
    simp [State.landImage]

/-- Refutes O42: the model bounds no slot's number, and the referee scratchpad of core 2^48 is encoded outside the memory spaces, so
that an item fetched there reaches no memory. -/
theorem not_refereeInstructionResults : ¬ Obligations.RefereeInstructionResults := by
  unfold Obligations.RefereeInstructionResults
  intro ⟨hfetch, _⟩
  obtain ⟨_, _, hitem⟩ := hfetch farFetch 1 2 0 farSlot rfl rfl
  obtain ⟨_, hdone⟩ := hitem { core := 2 ^ 48, node := 0, kind := 0, bytes := [1] } rfl rfl
  obtain ⟨t, ht, -, -, -, hmem⟩ := hdone (by decide) (by decide)
  have hout : exec (.rfetch 1 2) farFetch = .next _ := rfl
  cases ht.symm.trans hout
  have hkept := State.land_mem_of_outside ({ farFetch with inbox := [], cur := farSlot } : State) (b := 1) []
    (show inMem (keyOf Space.ref (coreOf farSlot.phys) 0) = false by decide)
  exact absurd (hkept.symm.trans (hmem (by decide))) (by decide)

end Sys2Proof.Machine


/-! Channels and the requests of the movement engines (R33, R34, R284, R290 to R298; O43, O44). -/

namespace Sys2Proof.Machine

/-! ### Checks at issue -/

theorem firstSome_eq_none_iff {α : Type} {os : List (Option α)} : firstSome os = none ↔ ∀ o ∈ os, o = none := by
  induction os with
  | nil => simp [firstSome]
  | cons o os ih =>
    cases o with
    | none =>
      rw [firstSome, ih, List.forall_mem_cons]
      exact ⟨fun h => ⟨rfl, h⟩, fun h => h.2⟩
    | some r =>
      refine ⟨fun h => ?_, fun h => ?_⟩
      · cases h
      · cases h (some r) (by simp)

theorem firstSome_append_none {α : Type} {os ps : List (Option α)} :
    firstSome (os ++ ps) = none ↔ firstSome os = none ∧ firstSome ps = none := by
  simp only [firstSome_eq_none_iff, List.mem_append, or_imp, forall_and]

theorem firstSome_cons_none {α : Type} {o : Option α} {os : List (Option α)} :
    firstSome (o :: os) = none ↔ o = none ∧ firstSome os = none := by
  simp only [firstSome_eq_none_iff, List.forall_mem_cons]

theorem firstSome_flatMap_none {α β : Type} {f : β → List (Option α)} {bs : List β} :
    firstSome (bs.flatMap f) = none ↔ ∀ b ∈ bs, firstSome (f b) = none := by
  simp only [firstSome_eq_none_iff, List.mem_flatMap]
  exact ⟨fun h b hb o ho => h o ⟨b, hb, ho⟩, fun h o ⟨b, hb, ho⟩ => h b hb o ho⟩

theorem firstSome_pair {α : Type} {o p : Option α} (h : firstSome [o, p] = none) :
    ([o, p][0]?).getD none = none ∧ ([o, p][1]?).getD none = none := by
  rw [firstSome_cons_none, firstSome_cons_none] at h
  exact ⟨h.1, h.2.1⟩

theorem reason_false {b : Bool} (n : Nat) (h : b = false) : reason b n = none := by
  rw [h]
  rfl

theorem mis16_of_aligned {w : Word} (h : w.toNat % 16 = 0) : mis16 w = none := if_neg (Classical.not_not.2 h)

/-! ### Channels -/

theorem exec_chwm_of_checks {s : State} {a b : Reg5} {ch : BitVec 3} {base n : Word} {c₁ c : Slot} {x : Ctx} {h : Chan}
    (ha : s.cur.readReg a = some (base, c₁)) (hb : c₁.readReg b = some (n, c)) (hx : s.ctxOf c = some x)
    (hh : s.chanOf c ch.toNat = some h) (hn : n.toNat ≤ 4194304) (hbase : base.toNat % 16 = 0) (hlen : n.toNat % 16 = 0)
    (hrange : rangeCheck s x c base n.toNat true true = none) :
    exec (.chwm a b ch) s = if s.chanBusy h.core h.ch then done (s.setChan { h with next := some (base, n.toNat) }) c
      else done (s.setChan (h.start base n.toNat)) c := by
  have hcheck : firstSome [reason (decide (4194304 < n.toNat)) 3, mis16 base, mis16 n, rangeCheck s x c base n.toNat true true] =
      none := by
    rw [reason_false 3 (decide_eq_false (by omega)), mis16_of_aligned hbase, mis16_of_aligned hlen, hrange]
    rfl
  refine (withSrc2_of_reads _ ha hb).trans ?_
  simp only [hx, hh, hcheck]

theorem exec_cpwait_of_chan {s : State} {a : Reg5} {ch : BitVec 3} {v : Word} {c : Slot} {h : Chan}
    (ha : s.cur.readReg a = some (v, c)) (hh : s.chanOf c ch.toNat = some h) :
    exec (.cpwait a ch) s = if h.pend ≤ v.toNat then done s c else waitOn s c (.cpwait ch.toNat v) := by
  refine (withSrc1_of_read _ ha).trans ?_
  simp only [hh]

theorem exec_halowait_of_reads {s : State} {a b : Reg5} {dir n : Word} {c₁ c : Slot} (ha : s.cur.readReg a = some (dir, c₁))
    (hb : c₁.readReg b = some (n, c)) :
    exec (.halowait a b) s = if n.toNat % 2 ^ 32 ≤ ((c.halo[dir.toNat % 4]?).getD 0).toNat then done s c
      else waitOn s c (.halowait (dir.toNat % 4) (BitVec.ofNat 32 (n.toNat % 2 ^ 32))) := by
  refine (withSrc2_of_reads _ ha hb).trans ?_
  have hd : bits dir 1 0 = dir.toNat % 4 := by simp [bits]
  have hn : bits n 31 0 = n.toNat % 2 ^ 32 := by simp [bits]
  rw [hd, hn]
  simp only [BitVec.le_def, BitVec.toNat_ofNat, Nat.mod_mod]

/-- Settles O44: CHWM past its checks, CPWAIT by its channel and HALOWAIT by its counter. -/
theorem channelRangesAndWaits : Obligations.ChannelRangesAndWaits := by
  refine ⟨fun s a b ch base n c₁ c x h ha hb hx hh hn hbase hlen hrange => ?_, fun s a ch v c ha => ⟨fun hnone => ?_, fun h hh => ?_⟩,
    fun s a b dir n c₁ c ha hb => ?_⟩
  · have hex := exec_chwm_of_checks ha hb hx hh hn hbase hlen hrange
    refine ⟨fun hbusy => hex.trans (if_pos hbusy), fun hfree hpos => ?_, fun hfree hzero => ?_⟩
    · rw [if_neg (by simp [hfree]), Chan.start, if_neg (Nat.ne_of_gt hpos)] at hex
      exact hex
    · subst hzero
      exact hex.trans (if_neg (by simp [hfree]))
  · refine (withSrc1_of_read _ ha).trans ?_
    simp only [hnone]
  · have hex := exec_cpwait_of_chan ha hh
    exact ⟨fun hle => hex.trans (if_pos hle), fun hlt => hex.trans (if_neg (Nat.not_le.2 hlt))⟩
  · have hex := exec_halowait_of_reads ha hb
    exact ⟨fun hle => hex.trans (if_pos hle), fun hlt => hex.trans (if_neg (Nat.not_le.2 hlt))⟩

/-! ### Requests -/

theorem checkedXfer_of_none {s : State} {c : Slot} {checks : List (Option Refused)} (x : Xfer) (h : firstSome checks = none) :
    checkedXfer s c checks x = pushXfer s c x := by
  simp only [checkedXfer, h]

theorem withDesc_of_reads {s r : State} {x : Ctx} {c : Slot} {spans : List (Word × Nat)} (go : State → Out)
    (h : DescReads s x c spans r) : withDesc s x c spans go = go r := by
  obtain ⟨hspans, hr⟩ := h
  have hwake : (spans.flatMap (fun e => descKeys x c e.1 e.2)).any s.bankWaking = false := by
    rw [List.any_eq_false]
    intro k hk
    obtain ⟨e, he, hke⟩ := List.mem_flatMap.1 hk
    simpa using (hspans e he).1 k hke
  have herr : spans.findSome? (fun e => (s.errorAt ((descKeys x c e.1 1).headD 0) e.2).map (fun m => (e.1, m))) = none :=
    List.findSome?_eq_none_iff.2 fun e he => by rw [(hspans e he).2]; rfl
  unfold withDesc
  dsimp only
  rw [hwake, herr, hr]
  rfl

/-- Where a request enters, its chans, xfers and nextId alone are new. -/
theorem publish_requested (s : State) (c : Slot) (sc : Scope) (chans : List Chan) (xfers : List Xfer) (n : Nat) :
    ({ s with chans := chans, xfers := xfers, nextId := n } : State).publish c sc =
      { s.publish c sc with chans := chans, xfers := xfers, nextId := n } := by
  have hu : ({ s with chans := chans, xfers := xfers, nextId := n } : State).unitAt (clusOf c.phys) = s.unitAt (clusOf c.phys) := rfl
  unfold State.publish
  rw [hu]
  cases s.unitAt (clusOf c.phys) with
  | none => cases sc <;> rfl
  | some u =>
    cases sc with
    | core | clus | die => rfl
    | dev | sys =>
      dsimp only
      split <;> rfl

theorem scope_eq_entryScope (x : Xfer) : x.scope = entryScope x := by
  unfold Xfer.scope entryScope inSystem
  cases x.kind <;> simp

/-- A request that the caddie serves fills the first free entry of its slot's mailbox (R284). -/
theorem enterXfer_of_entry {s : State} {c : Slot} {x : Xfer} {k : Nat} (hk : x.kind.byCaddie = true)
    (hfree : c.mbox.findIdx? MboxEntry.free = some k) :
    s.enterXfer c x = some ({ s with
        chans := withPending s x, xfers := s.xfers ++ [{ x with id := s.nextId, seq := s.seq, entry := k }], nextId := s.nextId + 1 },
      { c with mbox := setNth c.mbox k { words := entryWords x.words, full := Vector.replicate 4 true } }) := by
  unfold State.enterXfer withPending
  simp only [hk, hfree, if_true]
  split <;> rfl

/-- A gather takes a command entry of q4 (R298). -/
theorem enterXfer_of_command {s : State} {c : Slot} {x : Xfer} (hk : x.kind.byCaddie = false) (hroom : c.q4cmd < 4) :
    s.enterXfer c x = some ({ s with
        chans := withPending s x, xfers := s.xfers ++ [{ x with id := s.nextId, seq := s.seq, taken := true }], nextId := s.nextId + 1 },
      { c with q4cmd := c.q4cmd + 1 }) := by
  unfold State.enterXfer withPending
  simp only [hk, hroom, if_true, Bool.false_eq_true, if_false]
  split <;> rfl

theorem enterXfer_of_full {s : State} {c : Slot} {x : Xfer}
    (h : (x.kind.byCaddie = true ∧ c.mbox.findIdx? MboxEntry.free = none) ∨ (x.kind.byCaddie = false ∧ 4 ≤ c.q4cmd)) :
    s.enterXfer c x = none := by
  unfold State.enterXfer
  obtain ⟨hk, hnone⟩ | ⟨hk, hfull⟩ := h
  · simp only [hk, hnone, if_true]
  · simp only [hk, Bool.false_eq_true, if_false, if_neg (Nat.not_lt.2 hfull)]

/-- A request that enters is a release of its issuer, who goes on (R34). -/
theorem pushXfer_of_enter {s : State} {c c' : Slot} {x : Xfer} {chans : List Chan} {xfers : List Xfer} {n : Nat}
    (h : s.enterXfer c x = some ({ s with chans := chans, xfers := xfers, nextId := n }, c')) (hphys : c'.phys = c.phys)
    (htiles : c'.popTiles = c.popTiles) :
    pushXfer s c x = .next { s.publish c x.scope with
      chans := chans, xfers := xfers, nextId := n, cur := (c'.release x.scope s.seq).ready.goto c'.npc } := by
  have hpub : s.publish c' x.scope = s.publish c x.scope := by
    unfold State.publish
    rw [hphys, htiles]
  simp only [pushXfer, h, released]
  rw [publish_requested, hpub]
  rfl

/-- The two fields of a word below 4096 that split it at bit 12. -/
theorem bits_of_lt_4096 {w : Word} (h : w.toNat < 4096) : bits w 11 0 = w.toNat ∧ bits w 63 12 = 0 := by
  simp only [bits]
  omega

section Entries

variable {s : State} {x : Ctx} {c : Slot} {list : Word} {js : List Nat}

theorem mcastEntries_reasons (h : ∀ j ∈ js, firstSome (mcastEntry s x c list j).1 = none) :
    firstSome ((js.map (mcastEntry s x c list)).map (fun e => (e.1[0]?).getD none)) = none := by
  rw [firstSome_eq_none_iff, List.forall_mem_map, List.forall_mem_map]
  exact fun j hj => (firstSome_pair (h j hj)).1

theorem mcastEntries_aligned (h : ∀ j ∈ js, firstSome (mcastEntry s x c list j).1 = none) :
    firstSome ((js.map (mcastEntry s x c list)).map (fun e => (e.1[1]?).getD none)) = none := by
  rw [firstSome_eq_none_iff, List.forall_mem_map, List.forall_mem_map]
  exact fun j hj => (firstSome_pair (h j hj)).2

end Entries

section Issue

variable {s r : State} {c : Slot} {x : Xfer} {d a b : Reg5} {ch : BitVec 3}

theorem exec_cpy_of_requests (h : Requests (.cpy d a b ch) s r c x) : exec (.cpy d a b ch) s = pushXfer r c x := by
  cases h with
  | cpy d a b ch _ dst src n c₁ c₂ _ y g ha hb hd hy hg hn hdst hsrc hlen hfrom hto =>
    refine (withSrc3_of_reads _ ha hb hd).trans ?_
    simp only [hy, hg]
    refine checkedXfer_of_none _ ?_
    simp only [firstSome_cons_none]
    exact ⟨reason_false _ (decide_eq_false (by omega)), mis16_of_aligned hdst, mis16_of_aligned hsrc, mis16_of_aligned hlen, hfrom,
      hto, rfl⟩

theorem exec_cpys_of_requests (h : Requests (.cpys d a b ch) s r c x) : exec (.cpys d a b ch) s = pushXfer r c x := by
  cases h with
  | cpys d a b ch _ _ dst src desc rows len ss ds c₁ c₂ _ y g ha hb hd hy hg hdesc hr hrows hlen hss hds h1 h2 h3 h4 h5 h6 h7 h8 h9 hfrom hto =>
    subst hrows hlen hss hds
    refine (withSrc3_of_reads _ ha hb hd).trans ?_
    simp only [hy, hg, hdesc]
    rw [withDesc_of_reads _ hr]
    refine checkedXfer_of_none _ ?_
    simp only [firstSome_append_none, firstSome_cons_none]
    refine ⟨⟨⟨reason_false _ ?_, reason_false _ ?_, mis16_of_aligned h5, mis16_of_aligned h6, mis16_of_aligned h7, mis16_of_aligned h8,
      mis16_of_aligned h9, rfl⟩, hfrom⟩, hto⟩
    · simp only [Bool.or_eq_false_iff, beq_eq_false_iff_ne, decide_eq_false_iff_not]
      refine ⟨fun h0 => ?_, by omega⟩
      rw [h0] at h1
      exact absurd h1 (by decide)
    · simp only [Bool.or_eq_false_iff, decide_eq_false_iff_not]
      omega

theorem exec_halo_of_requests (h : Requests (.halo a b) s r c x) : exec (.halo a b) s = pushXfer r c x := by
  cases h with
  | halo a b _ _ desc mask c₁ _ y ha hb hy hdesc hr hpos hlt hdirs =>
    refine (withSrc2_of_reads _ ha hb).trans ?_
    simp only [hy, hdesc]
    rw [withDesc_of_reads _ hr]
    refine (checkedXfer_of_none _ ?_).trans (by rw [List.map_map]; rfl)
    simp only [firstSome_append_none, firstSome_cons_none, firstSome_flatMap_none, List.forall_mem_map]
    have hparts : ∀ e ∈ (upTo 4).filter (fun d => mask.getLsbD d), firstSome (haloEntry r y c desc e).reasons = none ∧
        firstSome (haloEntry r y c desc e).aligned = none ∧ firstSome (haloEntry r y c desc e).ranges = none := fun e he => by
      have hdir := hdirs e he
      rw [firstSome_append_none, firstSome_append_none, and_assoc] at hdir
      exact hdir
    refine ⟨⟨⟨⟨reason_false _ ?_, reason_false _ ?_, rfl⟩, fun e he => (hparts e he).1⟩, fun e he => (hparts e he).2.1⟩,
      fun e he => (hparts e he).2.2⟩
    · simp only [bne_eq_false_iff_eq, bits]
      omega
    · rw [beq_eq_false_iff_ne]
      rintro rfl
      exact absurd hpos (by decide)

theorem exec_mcast_of_requests (h : Requests (.mcast d a b) s r c x) : exec (.mcast d a b) s = pushXfer r c x := by
  cases h with
  | mcast d a b _ _ src list selm js c₁ c₂ _ y ha hb hd hy hlist hjs hr hentries hn hsrc hrange =>
    refine (withSrc3_of_reads _ ha hb hd).trans ?_
    have hdescs : firstSome (descCheck y c list 8 8 :: js.map (fun j =>
        descCheck y c (list + BitVec.ofNat 64 (8 + 8 * j)) 8 8)) = none := by
      rw [firstSome_cons_none, firstSome_eq_none_iff, List.forall_mem_map]
      exact ⟨hlist, fun j hj => (hentries j hj).1⟩
    obtain ⟨hlow, hhigh⟩ := bits_of_lt_4096 hn
    simp only [hy, ← hjs, hdescs]
    rw [withDesc_of_reads _ hr]
    simp only [hlow]
    refine (checkedXfer_of_none _ ?_).trans (by rw [List.map_map]; rfl)
    rw [firstSome_append_none, firstSome_append_none, firstSome_append_none, firstSome_append_none, hhigh, mis16_of_aligned hsrc, hrange,
      mcastEntries_reasons fun j hj => (hentries j hj).2, mcastEntries_aligned fun j hj => (hentries j hj).2]
    exact ⟨⟨⟨⟨rfl, rfl⟩, rfl⟩, rfl⟩, rfl⟩

theorem exec_gath_of_requests (h : Requests (.gath d a b ch) s r c x) : exec (.gath d a b ch) s = pushXfer r c x := by
  cases h with
  | gath d a b ch _ _ dst desc n e idx c₁ c₂ _ y g ha hb hd hy hg hdesc hr he hzero hidx h4 h12 hn hdst hbase hlist hto =>
    refine (withSrc3_of_reads _ ha hb hd).trans ?_
    have hcode : bits (descWord r y c desc 1) 63 60 = e := by
      have := (descWord r y c desc 1).isLt
      rw [he, bits]
      omega
    have hlow : BitVec.ofNat 64 (bits (descWord r y c desc 1) 56 0) = idx := by
      rw [hidx, bits, Nat.pow_zero, Nat.div_one]
    simp only [hy, hg, hdesc]
    rw [withDesc_of_reads _ hr]
    simp only [hcode, hlow]
    refine checkedXfer_of_none _ ?_
    simp only [firstSome_cons_none]
    refine ⟨reason_false _ ?_, reason_false _ ?_, mis16_of_aligned hdst, mis16_of_aligned hbase, ?_, ?_, hto, rfl⟩
    · simp only [bne_eq_false_iff_eq, bits]
      omega
    · simp only [Bool.or_eq_false_iff, decide_eq_false_iff_not]
      omega
    · split
      · rfl
      · next hpos =>
        obtain ⟨hown, hrange, -⟩ := hlist (Nat.pos_of_ne_zero hpos)
        rw [hrange]
        exact if_pos hown
    · rcases Nat.eq_zero_or_pos n.toNat with hzero | hpos
      · rw [hzero]
        rfl
      · rw [Nat.min_eq_right hpos]
        exact (hlist hpos).2.2

end Issue

/-- What a request's checks come to: it is pushed, in the state that the reads of its descriptor left (R290). -/
theorem exec_eq_pushXfer_of_requests {i : Instr} {s r : State} {c : Slot} {x : Xfer} (h : Requests i s r c x) :
    exec i s = pushXfer r c x := by
  have hi := h
  cases h with
  | cpy => exact exec_cpy_of_requests hi
  | cpys => exact exec_cpys_of_requests hi
  | halo => exact exec_halo_of_requests hi
  | mcast => exact exec_mcast_of_requests hi
  | gath => exact exec_gath_of_requests hi

/-- Settles O43: a request's checks passed, its queue decides. -/
theorem transferRequestsAreEntered : Obligations.TransferRequestsAreEntered := by
  intro i s r c x sc hreq hsc
  subst hsc
  have hex := exec_eq_pushXfer_of_requests hreq
  rw [← scope_eq_entryScope]
  refine ⟨fun k hk hfree => ?_, fun hk hroom => ?_, fun hfull => ?_⟩
  · exact hex.trans (pushXfer_of_enter (enterXfer_of_entry hk hfree) rfl rfl)
  · exact hex.trans (pushXfer_of_enter (enterXfer_of_command hk hroom) rfl rfl)
  · rw [pushXfer, enterXfer_of_full hfull] at hex
    exact hex

end Sys2Proof.Machine


/-! The umpire's port: which commands it refuses (R402, R403, R409; O58). -/

namespace Sys2Proof.Machine

/-! ### Commands of the port -/

/-- Every command of Table 27-2 goes through the port's own tests. -/
theorem exec_eq_portCmd {i : Instr} {h : PortHdr} {code : Nat} {len : Option Nat} (hi : PortCommand i h code len) (s : State) :
    ∃ name go, exec i s = portCmd h code len name s go ∧ 1 ≤ code ∧ code ≤ 0x13 := by
  cases hi <;> exact ⟨_, _, rfl, by decide, by decide⟩

theorem hdrOk_eq_true_iff {h : PortHdr} {len : Option Nat} : hdrOk h len = true ↔ GoodHeader h len := by
  unfold hdrOk GoodHeader
  cases len <;> simp [and_assoc]

section PortCmd

variable {h : PortHdr} {code : Nat} {len : Option Nat} {name : String} {s : State} {go : Out}

theorem portCmd_uncommissioned (hbusy : s.nodeBusy h.node = false) (hc : s.commission = none) (h1 : h.code ≠ 1) (h2 : h.code ≠ 2) :
    portCmd h code len name s go = .next (s.reply h (h.code % 0x8000) (refusal 0x12 0) []) := by
  unfold portCmd
  rw [if_neg (by simp [hbusy]), if_pos (by simp [hc, h1, h2])]

theorem portCmd_unlisted (hbusy : s.nodeBusy h.node = false) (hc : s.commission ≠ none ∨ h.code = 1 ∨ h.code = 2)
    (hbad : h.code = 0 ∨ 0x13 < h.code ∨ ¬ GoodHeader h len) :
    portCmd h code len name s go = .next (s.reply h (h.code % 0x8000) (refusal 0x01 0) []) := by
  have hopen : (s.commission.isNone && h.code != 1 && h.code != 2) = false := by
    rcases hc with hc | hc | hc <;> simp [hc]
  have hrefused : (!listedCode h.code || !hdrOk h len) = true := by
    rw [Bool.or_eq_true, Bool.not_eq_true', Bool.not_eq_true', ← Bool.not_eq_true (hdrOk h len), hdrOk_eq_true_iff]
    rcases hbad with hzero | hbig | hbad
    · exact .inl (by simp [listedCode, hzero])
    · exact .inl (by simp [listedCode]; omega)
    · exact .inr hbad
  unfold portCmd
  rw [if_neg (by simp [hbusy]), if_neg (by simp [hopen]), if_pos hrefused]

/-- A handled command of a listed code is carried out, once a record is accepted. -/
theorem portCmd_handled (hh : Handled h code len s) (hc : s.commission ≠ none ∨ code = 1 ∨ code = 2) (h1 : 1 ≤ code) (h2 : code ≤ 0x13) :
    portCmd h code len name s go = go := by
  obtain ⟨hbusy, hcode, hgood⟩ := hh
  subst hcode
  have hopen : (s.commission.isNone && h.code != 1 && h.code != 2) = false := by
    rcases hc with hc | hc | hc <;> simp [hc]
  have hlisted : (!listedCode h.code || !hdrOk h len) = false := by
    rw [hdrOk_eq_true_iff.2 hgood]
    simp [listedCode, h1, h2]
  unfold portCmd
  rw [if_neg (by simp [hbusy]), if_neg (by simp [hopen]), if_neg (by simp [hlisted]), if_neg (Classical.not_not.2 rfl)]

end PortCmd

/-- A reply stands among the replies; a message to the node leaves on its link (R402). -/
theorem State.reply_eq (s : State) (h : PortHdr) (code : Nat) (status : Word) (payload : List Byte) : ∃ links,
    s.reply h code status payload = { s with
      replies := s.replies ++ [{ node := h.node, code := code + 0x8000, tag := h.tag, status := status, payload := payload }],
      links := links } := by
  unfold State.reply State.post
  dsimp only
  split <;> exact ⟨_, rfl⟩

/-! ### Marked commands -/

/-- Every marked command tests the context, its node and its state, in this order. -/
theorem exec_eq_boundCmd {i : Instr} {h : PortHdr} {code : Nat} {len : Option Nat} {states : CtxState → Bool}
    (hi : PortCommand i h code len) (hm : Marked i states) (s : State) :
    ∃ name f k, (∀ st, f st = states st) ∧ exec i s = boundCmd h code len name f s k := by
  cases hm with
  | setwin => cases hi; exact ⟨_, fun st => st == .unlocked || st == .locked || st.running, _, by rintro (_ | _ | _ | _ | _) <;> rfl, rfl⟩
  | defq => cases hi; exact ⟨_, fun st => st == .unlocked || st.running, _, by rintro (_ | _ | _ | _ | _) <;> rfl, rfl⟩
  | lock => cases hi; exact ⟨_, fun st => st == .unlocked, _, fun _ => rfl, rfl⟩
  | start => cases hi; exact ⟨_, fun st => st == .locked, _, fun _ => rfl, rfl⟩
  | launch | dbgcfg | dbgrel | dbgres | qctrl => cases hi; exact ⟨_, CtxState.running, _, fun _ => rfl, rfl⟩
  | read | surr | query => cases hi; exact ⟨_, fun _ => true, _, fun _ => rfl, rfl⟩

/-- Settles O58: the port's tests in their order, the marked commands' after them, and what a reply leaves. -/
theorem portRefusesByBinding : Obligations.PortRefusesByBinding := by
  refine ⟨fun i h code len s hi hbusy => ?_, fun i h code len states s hi hm hh hc => ?_, fun h code status payload s => ?_⟩
  · obtain ⟨name, go, hex, -, -⟩ := exec_eq_portCmd hi s
    exact ⟨fun hc h1 h2 => hex.trans (portCmd_uncommissioned hbusy hc h1 h2), fun hc hbad => hex.trans (portCmd_unlisted hbusy hc hbad)⟩
  · obtain ⟨-, -, -, h1, h2⟩ := exec_eq_portCmd hi s
    obtain ⟨name, f, k, hf, hex⟩ := exec_eq_boundCmd hi hm s
    rw [boundCmd, portCmd_handled hh (.inl hc) h1 h2] at hex
    refine ⟨fun hnone => ?_, fun x hx hnode => ?_, fun x hb hst => ?_⟩
    · simpa only [hnone] using hex
    · simpa only [hx, if_pos hnode] using hex
    · obtain ⟨-, hx, hnode⟩ := hb
      simpa only [hx, hnode, hf, hst, ne_eq, not_true_eq_false, Bool.not_false, if_true, if_false] using hex
  · obtain ⟨links, hlinks⟩ := State.reply_eq s h code status payload
    rw [hlinks]
    exact ⟨rfl, rfl, rfl, rfl, rfl⟩

end Sys2Proof.Machine


/-! Messages between slots (R301, R302; O47). -/

namespace Sys2Proof.Machine

theorem State.slotAt_setSlot_of_phys (s : State) {c : Slot} {p : Nat} (hp : c.phys = p) (h : c.occupied = true) :
    (s.setSlot c).slotAt p = c := by
  rw [← hp]
  exact State.slotAt_setSlot_same s h

/-- The oldest complete message of a send queue. -/
theorem firstMessage_of_complete {h : Word} {m : Nat} {ws rest : List (Word × Nat)} (hn : ws.length = headerN h) :
    firstMessage ((h, m) :: ws ++ rest) = some ((h, m) :: ws, rest) := by
  simp [firstMessage, ← hn]

/-- A slot with a message at the end of its receive queue (R302). -/
def Slot.receives (c : Slot) (m : Msg) : Slot :=
  { c with q2recv := c.q2recv ++ m.words, q2seen := c.q2seen ++ List.replicate m.words.length m.seen }

/-- A message that stands k-th leaves the messages under way. -/
theorem exec_messageDelivery_of_room {s : State} {k : Nat} {m : Msg} (hm : s.msgs[k]? = some m)
    (hfirst : ∀ n ∈ s.msgs.take k, ¬(n.src = m.src ∧ n.dst = m.dst)) (hroom : (s.slotAt m.dst).q2recv.length + m.words.length ≤ 32)
    (howner : (s.slotAt m.dst).owner ≠ none) :
    exec (.messageDelivery k) s = .next (({ s with msgs := s.msgs.take k ++ s.msgs.drop (k + 1) } : State).setSlot
      ((s.slotAt m.dst).receives m)) := by
  have hany : (s.msgs.take k).any (fun n => n.src == m.src && n.dst == m.dst) = false := by
    rw [List.any_eq_false]
    intro n hn
    simpa using hfirst n hn
  change execMessageDelivery k s = _
  unfold execMessageDelivery
  simp only [hm, hany, Bool.false_or, decide_eq_true_eq]
  rw [if_neg (Nat.not_lt.2 hroom), if_pos (Option.isSome_iff_ne_none.2 howner)]
  rfl

/-- Settles O47: a complete message leaves its sender, and a delivered one stands at the end of its receiver's queue. -/
theorem messagesAreDelivered : Obligations.MessagesAreDelivered := by
  refine ⟨fun s p dst x h m ws rest hp hx hq hn hdst hroom hpend hopen => ?_, fun s k m hm hfirst hroom howner => ?_⟩
  · subst hp hdst
    change execMessageLeaveSendQueue s.cur.phys s = _
    unfold execMessageLeaveSendQueue
    simp only [State.slotAt_cur, hq, firstMessage_of_complete hn, hx, List.head?_cons, Option.map_some, Option.getD_some, List.foldl_cons,
      Nat.zero_max, List.length_cons]
    rw [if_pos (by simp [hpend, hopen, ← Nat.add_assoc, hroom]), State.setSlot_cur (c := { s.cur with q2send := rest }) rfl]
    rfl
  · have hex := exec_messageDelivery_of_room hm hfirst hroom howner
    refine ⟨_, hex, by simp, by simp, ?_⟩
    rw [State.slotAt_setSlot_of_phys (c := (s.slotAt m.dst).receives m) _ (State.slotAt_phys s m.dst) (by simp [Slot.occupied, Slot.receives, Option.isSome_iff_ne_none.2 howner])]
    exact ⟨rfl, rfl, rfl, rfl⟩

end Sys2Proof.Machine


/-! Translation walks at a station that more contexts share than it has entries (R254; O50). -/

namespace Sys2Proof.Machine

/-- More contexts than a station has entries have their pages behind it, and a walk of it is under way. -/
def crowdedStation : State :=
  { State.reset with ctxs := List.replicate 4097 (placedCtx 0), walks := [(0, 1, 0)] }

theorem crowdedStation_sharers : crowdedStation.stationSharers 0 = 4097 := by
  have hdie : (placedCtx 0).layout.dies.contains (0 / 4) = true := by decide
  unfold State.stationSharers
  simp only [crowdedStation]
  rw [List.filter_replicate, if_pos hdie, List.length_replicate]
  rfl

/-- A station whose share for each context is no entry keeps none. -/
theorem crowdedStation_keeps_none : crowdedStation.tlbInsert (0, 1, 0) = [] := by
  unfold State.tlbInsert
  rw [crowdedStation_sharers]
  rfl

/-- Refutes O50: nothing in the model bounds the contexts at a station, and where their shares of its 4,096 entries are none, a walk
that ends leaves no entry. -/
theorem not_memoryEventsHappen : ¬ Obligations.MemoryEventsHappen := by
  unfold Obligations.MemoryEventsHappen
  intro ⟨_, _, _, _, _, _, _, hwalk, _⟩
  have hunder : ((0, 1, 0) : Nat × Nat × Nat) ∈ crowdedStation.walksUnderWay (0, 1, 0) := by
    unfold State.walksUnderWay
    rw [crowdedStation_sharers]
    exact List.mem_singleton.2 rfl
  obtain ⟨t, ht, hhead, -⟩ := hwalk 0 crowdedStation (0, 1, 0) rfl hunder
  have hex : exec (.translationWalkEnd 0) crowdedStation =
      .next (({ crowdedStation with walks := [], tlb := crowdedStation.tlbInsert (0, 1, 0) } : State).count 1 0 0xC2 1) := by
    change execTranslationWalkEnd 0 crowdedStation = _
    unfold execTranslationWalkEnd
    simp only [show crowdedStation.walks[0]? = some (0, 1, 0) from rfl]
    rw [if_pos (List.contains_iff_mem.2 hunder)]
    rfl
  cases ht.symm.trans hex
  rw [State.count_tlb, crowdedStation_keeps_none] at hhead
  cases hhead

end Sys2Proof.Machine


/-! The events of tasks (R127 to R133; O49). -/

namespace Sys2Proof.Machine

theorem startRecord_of_kernel {x : Ctx} {k : Kernel} (hk : x.kernel = some k) (s : State) (c : Slot) (t : TaskRec) :
    s.startRecord x c t = s.startIn c k t.domain t.entry t.arg 0 0 := by
  unfold State.startRecord
  rw [hk]

/-- The first element of a list that gives an answer. -/
theorem findSome?_append_of_none {α β : Type} {f : α → Option β} {us vs : List α} {a : α} {b : β} (hus : ∀ u ∈ us, f u = none)
    (ha : f a = some b) : (us ++ a :: vs).findSome? f = some b := by
  rw [List.findSome?_append, List.findSome?_eq_none_iff.2 hus, Option.none_or, List.findSome?_cons, ha]

theorem exec_dequeSpillDone_of_room {slot : Nat} {s : State} {t : TaskRec} {x : Ctx} (hw : (s.slotAt slot).wait = some (.spill t))
    (hx : s.ctxOf (s.slotAt slot) = some x)
    (hfull : x.dequeCap (coreOf (s.slotAt slot).phys) ≤ (s.dequeAt x (coreOf (s.slotAt slot).phys)).items.length)
    (hroom : (s.dequeAt x (coreOf (s.slotAt slot).phys)).spill.length + 32 ≤ 1024) {d : Deque}
    (hd : d = s.dequeAt x (coreOf (s.slotAt slot).phys)) :
    exec (.dequeSpillDone slot) s = .next ((s.setDeque { d with
      items := d.items.take (d.items.length - 32),
      spill := d.spill ++ (d.items.drop (d.items.length - 32)).reverse }).count x.id (s.slotAt slot).lcore 0x4A 32) := by
  subst hd
  change execDequeSpillDone slot s = _
  unfold execDequeSpillDone
  simp only [hw, hx]
  exact if_pos ⟨hfull, hroom⟩

theorem exec_dequeRefill_of_spilled {core ctx : Nat} {s : State} {x : Ctx} {d : Deque} {c : Slot} (hx : s.ctxAt ctx = some x)
    (hd : d = s.dequeAt x core) (hitems : d.items = []) (hspill : d.spill ≠ []) (hidle : s.idleSlot ctx core = some c) :
    exec (.dequeRefill core ctx) s = .next (s.setDeque { d with
      items := (d.spill.drop (d.spill.length - 32)).reverse, spill := d.spill.take (d.spill.length - 32) }) := by
  subst hd
  change execDequeRefill core ctx s = _
  unfold execDequeRefill
  simp only [hx]
  exact if_pos (by simp [hitems, hspill, hidle])

theorem exec_idleSlotPop_of_record {slot : Nat} {s : State} {x : Ctx} {d : Deque} {t : TaskRec} {ts : List TaskRec} {k : Kernel}
    (hx : s.ctxOf (s.slotAt slot) = some x) (hd : d = s.dequeAt x (coreOf (s.slotAt slot).phys)) (hitems : d.items = t :: ts)
    (halive : x.alive = true) (hidle : s.idleSlot x.id (coreOf (s.slotAt slot).phys) = some (s.slotAt slot))
    (hrel : s.recordReleased t = true) (hk : x.kernel = some k) :
    exec (.idleSlotPop slot) s =
      .next ((s.setDeque { d with items := ts }).startIn (s.slotAt slot) k t.domain t.entry t.arg 0 0) := by
  subst hd
  change execIdleSlotPop slot s = _
  unfold execIdleSlotPop
  simp only [hx, hitems, startRecord_of_kernel hk]
  exact if_pos (by simp [halive, hidle, hrel])

section Steal

variable {core ctx : Nat} {s : State} {x : Ctx} {d : Deque}

theorem exec_stealRequest_of_idle {c : Slot} (hx : s.ctxAt ctx = some x) (hd : d = s.dequeAt x core) (halive : x.alive = true)
    (hitems : d.items = []) (hspill : d.spill = []) (hsteal : d.steal = .none) (hidle : s.idleSlot ctx core = some c) :
    exec (.stealRequest core ctx) s = .next (s.setDeque { d with steal := .asked s.cycle }) := by
  subst hd
  change execStealRequest core ctx s = _
  unfold execStealRequest
  simp only [hx]
  exact if_pos (by simp [halive, hitems, hspill, hsteal, hidle])

/-- An asking core's answer: the first victim in R131's order whose record the domain admits, or none. -/
theorem exec_stealAnswer_of_asked {at_ : Word} (hx : s.ctxAt ctx = some x) (hd : d = s.dequeAt x core) (hsteal : d.steal = .asked at_)
    (halive : x.alive = true) :
    exec (.stealAnswer core ctx) s = match (victims x core).findSome? (fun k => stealFrom x core (s.dequeAt x k)) with
      | none => .next (s.setDeque { d with steal := .retry s.cycle })
      | some (t, v) => if s.recordReleased t then
          let u := ((s.setDeque v).setDeque { d with steal := .none }).count ctx ((x.lcoreOf core).getD 0) 0x49 1
          match u.idleSlot ctx core with
          | some c => .next (u.startRecord x c t)
          | none => .next (u.setDeque { d with steal := .none, items := t :: d.items })
        else notNow "STEAL_ANSWER" := by
  subst hd
  change execStealAnswer core ctx s = _
  unfold execStealAnswer
  simp only [hx, hsteal, halive]
  rfl

theorem exec_stealRetryTimer_of_due {at_ : Word} (hx : s.ctxAt ctx = some x) (hd : d = s.dequeAt x core) (hsteal : d.steal = .retry at_)
    (hdue : at_.toNat + 64 ≤ s.cycle.toNat) :
    exec (.stealRetryTimer core ctx) s = .next (s.setDeque { d with steal := .none }) := by
  subst hd
  change execStealRetryTimer core ctx s = _
  unfold execStealRetryTimer
  simp only [hx, hsteal]
  exact if_pos hdue

end Steal

/-- The survey of an RFORK: the join cell, the recruits' subranges and the issuer's, once its cell may be written (R132). -/
theorem exec_rforkSurveyDone_of_ready {slot : Nat} {s : State} {x : Ctx} {kn : Kernel} {e n cell : Word} {k : Nat}
    (hw : (s.slotAt slot).wait = some (.rfork e n cell)) (hx : s.ctxOf (s.slotAt slot) = some x) (hkn : x.kernel = some kn)
    (hk : resolve s (s.slotAt slot) cell 8 (.store 8) = .ok k)
    (hready : (decide (n = 0) || s.earlierPending slot (s.seq + 1) || (s.slotAt slot).status == .stopped ||
      s.writePending (coreOf slot) k 8 || s.blockRead slot k 8 || s.earlyHeld (coreOf slot) k 8 || s.bankWaking k) = false)
    (hpage : s.tlbHit k = true) {rs : List Slot} (hrs : rs = s.recruits x (s.slotAt slot) n.toNat) {u : State}
    (hu : u = (upTo rs.length).foldl (fun (u : State) (i : Nat) => match rs[i]? with
        | some r => u.startIn r kn (s.slotAt slot).domain e (subrange n.toNat (rs.length + 1) (i + 1))
            (subrange n.toNat (rs.length + 1) (i + 2)) cell
        | none => u) ((s.land (cellsAt k (leBytes 8 (rs.length + 1)))).noteAccess x.id k 8 true)) :
    exec (.rforkSurveyDone slot) s = .next (u.setSlot ((u.slotAt slot).waitFor (.rforked (subrange n.toNat (rs.length + 1) 1)))) := by
  subst hrs hu
  change execRforkSurveyDone slot s = _
  unfold execRforkSurveyDone
  simp only [hw, hx, hk, hkn]
  rw [if_neg (by rw [hready]; exact Bool.false_ne_true), withPages_of_hits _ _ (by simpa using hpage)] <;> rfl

/-- Settles O49: each event of tasks, under its conditions. -/
theorem taskEventsHappen : Obligations.TaskEventsHappen := by
  refine ⟨fun slot s hp hst hpause => if_pos ⟨hp, hst, hpause⟩,
    fun slot s t x d hw hx hd hfull hroom => exec_dequeSpillDone_of_room hw hx (hd ▸ hfull) (hd ▸ hroom) hd,
    fun core ctx s x d c hx hd hitems hspill hidle => exec_dequeRefill_of_spilled hx hd hitems hspill hidle,
    fun slot s x d t ts k hx hd hitems halive hidle hrel hk => exec_idleSlotPop_of_record hx hd hitems halive hidle hrel hk,
    fun core ctx s x d c hx hd halive hitems hspill hsteal hidle => exec_stealRequest_of_idle hx hd halive hitems hspill hsteal hidle,
    fun core ctx s x d at_ hx hd hsteal halive => ⟨fun hnone => ?_, fun us vs k t v u hvict hus hk hrel hu => ?_⟩,
    fun core ctx s x d at_ hx hd hsteal hdue => exec_stealRetryTimer_of_due hx hd hsteal hdue,
    fun slot s x kn e n cell k rs hw hx hkn hk hn hpend hst hwp hbr heh hbank hpage hrs => ?_⟩
  · rw [exec_stealAnswer_of_asked hx hd hsteal halive, List.findSome?_eq_none_iff.2 hnone]
  · have hex := exec_stealAnswer_of_asked hx hd hsteal halive
    rw [hvict, findSome?_append_of_none hus hk] at hex
    simp only [hrel, if_true, ← hu] at hex
    refine ⟨fun c kn hidle hkn => ?_, fun hidle => ?_⟩
    · rw [hidle] at hex
      exact hex.trans (congrArg _ (startRecord_of_kernel hkn _ _ _))
    · rw [hidle] at hex
      exact hex
  · refine ⟨_, _, exec_rforkSurveyDone_of_ready hw hx hkn hk ?_ hpage hrs rfl, rfl, ?_⟩
    · simpa [hpend, hst, hwp, hbr, heh, hbank] using hn
    · simp only [subrange, Nat.one_mul] <;> rfl

end Sys2Proof.Machine


/-! Claims and the redemption table (R331, Table 21-3; O57). -/

namespace Sys2Proof.Machine

section Claims

variable {s : State} {c : Claim} {cs : List Claim}

theorem exec_claimAtHome_of_own (answer : Nat) (hc : s.claims = c :: cs) (hh : s.homeOf c.who.domain c.msg.root = s.ownNode) :
    exec (.claimAtHome c.msg answer) s =
      .next (State.claimAnswer { s with redemption := (s.tableClaim c.msg).2 } c.who (s.tableClaim c.msg).1) := by
  change execClaimAtHome c.msg answer s = _
  unfold execClaimAtHome
  simp only [hc, hh, if_true]

theorem exec_claimAtHome_of_answer {answer : Nat} (hc : s.claims = c :: cs) (hh : s.homeOf c.who.domain c.msg.root ≠ s.ownNode)
    (ha : answer = 0 ∨ answer = 7 ∨ answer = 9) : exec (.claimAtHome c.msg answer) s = .next (s.claimAnswer c.who answer) := by
  change execClaimAtHome c.msg answer s = _
  unfold execClaimAtHome
  simp only [hc, if_true, if_neg hh, if_pos ha]

theorem exec_claimAtHome_of_other {m : ClaimMsg} (answer : Nat) (hc : ∀ c ∈ s.claims, c.msg ≠ m) (hd : m.device ≠ s.ownNode)
    (hcom : s.commission.isSome = true) :
    exec (.claimAtHome m answer) s = .next (State.post { s with redemption := (s.tableClaim m).2 } m.device 1
      (leBytes 16 m.serial.toNat ++ leBytes 8 (s.tableClaim m).1)) := by
  change execClaimAtHome m answer s = _
  unfold execClaimAtHome
  split
  · next c rest hcs =>
    rw [if_neg (hc c (by rw [hcs]; simp)), if_neg hd]
  · rw [if_neg (by simp [hd, Option.isSome_iff_ne_none.1 hcom])]

theorem exec_claimRetry_of_due (hc : s.claims = c :: cs) (hdue : c.last.toNat + 60000 ≤ s.cycle.toNat) {t : State}
    (ht : t = { s with claims := { c with last := s.cycle } :: cs }) :
    exec (.claimRetry c.msg.serial) s = .next (if s.homeOf c.who.domain c.msg.root = s.ownNode then t
      else t.post (s.homeOf c.who.domain c.msg.root) 1 (claimBytes c.msg)) := by
  subst ht
  change execClaimRetry c.msg.serial s = _
  unfold execClaimRetry
  simp only [hc]
  exact if_pos ⟨trivial, hdue⟩

theorem exec_claimTimeout_of_due (hc : s.claims = c :: cs) (hdue : c.first.toNat + 6000000 ≤ s.cycle.toNat) :
    exec (.claimTimeout c.msg.serial) s = .next (s.claimAnswer c.who 8) := by
  change execClaimTimeout c.msg.serial s = _
  unfold execClaimTimeout
  simp only [hc]
  exact if_pos ⟨trivial, hdue⟩

end Claims

/-! ### The redemption table -/

section Table

variable {s : State} {m : ClaimMsg}

theorem tableClaim_of_noBoot (h : s.bootTime = none) : s.tableClaim m = (9, s.redemption) := by
  unfold State.tableClaim
  rw [h]

theorem tableClaim_of_early {b : Word} (hb : s.bootTime = some b) (h : m.notBefore.toNat < b.toNat) :
    s.tableClaim m = (9, s.redemption) := by
  unfold State.tableClaim
  rw [hb]
  exact if_pos h

theorem tableClaim_of_new {b : Word} (hb : s.bootTime = some b) (h : b.toNat ≤ m.notBefore.toNat)
    (hnew : ∀ e ∈ s.redemption, e.serial ≠ m.serial) :
    s.tableClaim m = (0, s.redemption ++ [{ serial := m.serial, device := m.device, spent := false }]) := by
  have hfind : s.redemption.find? (fun e => e.serial == m.serial) = none :=
    List.find?_eq_none.2 fun e he => by simpa using hnew e he
  unfold State.tableClaim
  rw [hb]
  simp only [if_neg (Nat.not_lt.2 h), hfind]

theorem tableClaim_of_known {b : Word} (hb : s.bootTime = some b) (h : b.toNat ≤ m.notBefore.toNat) {es fs : List Redeemed}
    {e : Redeemed} (hr : s.redemption = es ++ e :: fs) (hes : ∀ g ∈ es, g.serial ≠ m.serial) (he : e.serial = m.serial) :
    s.tableClaim m = if !e.spent && e.device == m.device then (0, s.redemption) else (7, s.redemption) := by
  have hfind : s.redemption.find? (fun e => e.serial == m.serial) = some e := by
    rw [hr]
    exact find_mid _ es fs e (fun g hg => by simpa using hes g hg) (by simpa using he)
  unfold State.tableClaim
  rw [hb]
  simp only [if_neg (Nat.not_lt.2 h), hfind]

end Table

theorem exec_spentAtHome_of_out {s t : State} {es fs : List (ClaimMsg × Word)} {m : ClaimMsg} {dom : Word}
    (hs : s.spentOut = es ++ (m, dom) :: fs) (hes : ∀ e ∈ es, e.1.serial ≠ m.serial) (ht : t = { s with spentOut := es ++ fs }) :
    exec (.spentAtHome m.serial) s = .next (if s.homeOf dom m.root = s.ownNode then
        { t with redemption := markSpent m.serial s.ownNode s.redemption }
      else t.post (s.homeOf dom m.root) 1 (leBytes 16 m.serial.toNat ++ leBytes 16 m.root.toNat)) := by
  subst ht
  have hfirst : ∀ e ∈ es, (e.1.serial == m.serial) = false := fun e he => by simpa using hes e he
  change execSpentAtHome m.serial s = _
  unfold execSpentAtHome
  rw [hs, find_mid _ es fs (m, dom) hfirst (by simp), dropFirst_mid _ es fs (m, dom) hfirst (by simp)]

/-- Settles O57: each claim event, and the table by its rows. -/
theorem claimsAreAnswered : Obligations.ClaimsAreAnswered := by
  refine ⟨fun s c cs answer hc hh => ⟨_, rfl, fun h0 => ?_, fun h0 => ?_⟩, fun s c cs answer hc hh => ⟨fun ha => ?_, fun ha => ?_⟩,
    fun s m answer hc hd hcom => exec_claimAtHome_of_other answer hc hd hcom,
    fun s m => ⟨tableClaim_of_noBoot, fun b hb => tableClaim_of_early hb, fun b hb hle => ⟨tableClaim_of_new hb hle,
      fun es e fs hr hes he => ⟨fun hsp hd => ?_, fun h => ?_⟩⟩⟩,
    fun s t c cs hc hdue ht => ⟨fun hh => ?_, fun hh => ?_⟩, fun s c cs hc hdue => exec_claimTimeout_of_due hc hdue,
    fun s t es fs m dom hs hes ht => ⟨fun hh => ?_, fun hh => ?_⟩⟩
  · rw [exec_claimAtHome_of_own answer hc hh, h0]
    rfl
  · rw [exec_claimAtHome_of_own answer hc hh, State.claimAnswer, if_neg h0]
  · subst ha
    exact exec_claimAtHome_of_answer hc hh (.inl rfl)
  · rw [exec_claimAtHome_of_answer hc hh (.inr ha), State.claimAnswer, if_neg (by omega)]
  · rw [tableClaim_of_known hb hle hr hes he, if_pos (by simp [hsp, hd])]
  · rw [tableClaim_of_known hb hle hr hes he, if_neg (by rcases h with h | h <;> simp [h])]
  · rw [exec_claimRetry_of_due hc hdue ht, if_pos hh]
  · rw [exec_claimRetry_of_due hc hdue ht, if_neg hh]
  · rw [exec_spentAtHome_of_out hs hes ht, if_pos hh]
  · rw [exec_spentAtHome_of_out hs hes ht, if_neg hh]

end Sys2Proof.Machine


/-! The events of the debug modules (R390 to R395; O55). -/

namespace Sys2Proof.Machine

section Trace

variable {slot : Nat} {s : State} {w : TraceWord} {ws : List TraceWord}

/-- The oldest trace word of a slot joins the pending records of the module of its context in its cluster (R390). -/
theorem exec_traceWordMove_of_module {ms ns : List DbgMod} {m : DbgMod} (hq : (s.slotAt slot).q5 = w :: ws) (hm : s.dbg = ms ++ m :: ns)
    (hc : m.clus = clusOf slot) (ho : (s.slotAt slot).owner = some m.holder) (hms : ∀ n ∈ ms, n.clus ≠ clusOf slot)
    (hp : ∀ r ∈ m.pend, ¬ (r.type = 1 ∧ r.lcore = (s.slotAt slot).lcore)) :
    exec (.traceWordMove slot) s = .next { s.setSlot { s.slotAt slot with q5 := ws } with
      dbg := ms ++ { m with
        pend := m.pend ++ [{ type := 1, slot := slotNo slot, lcore := (s.slotAt slot).lcore, cycle := w.cycle, pc := w.pc,
                             value := w.word }] } :: ns } := by
  have hpend : m.pend.any (fun r => r.type == 1 && r.lcore == (s.slotAt slot).lcore) = false :=
    List.any_eq_false.2 fun r hr => by simpa using hp r hr
  have hfind : s.dbg.find? (fun m => m.clus == clusOf slot && (s.slotAt slot).owner == some m.holder) = some m := by
    rw [hm]
    exact find_mid _ ms ns m (fun n hn => by simp [hms n hn]) (by simp [hc, ho])
  change execTraceWordMove slot s = _
  unfold execTraceWordMove
  simp only [hq, hfind, hpend]
  rw [hm, updKey_mid _ _ ms ns m (fun n hn => by simpa [hc] using hms n hn) (by simp)]
  rfl

theorem exec_traceWordMove_of_none (hq : (s.slotAt slot).q5 = w :: ws)
    (hno : ∀ m ∈ s.dbg, ¬ (m.clus = clusOf slot ∧ (s.slotAt slot).owner = some m.holder)) :
    exec (.traceWordMove slot) s = .next (s.setSlot { s.slotAt slot with q5 := ws }) := by
  have hfind : s.dbg.find? (fun m => m.clus == clusOf slot && (s.slotAt slot).owner == some m.holder) = none :=
    List.find?_eq_none.2 fun m hm => by simpa using hno m hm
  change execTraceWordMove slot s = _
  unfold execTraceWordMove
  simp only [hq, hfind]

end Trace

section Module

variable {clus : Nat} {s : State} {ms ns : List DbgMod} {m : DbgMod}

/-- The module of a cluster. -/
theorem find_module (hm : s.dbg = ms ++ m :: ns) (hc : m.clus = clus) (hms : ∀ n ∈ ms, n.clus ≠ clus) :
    s.dbg.find? (fun m => m.clus == clus) = some m := by
  rw [hm]
  exact find_mid _ ms ns m (fun n hn => by simpa using hms n hn) (by simpa using hc)

theorem updKey_module (hm : s.dbg = ms ++ m :: ns) (hc : m.clus = clus) (hms : ∀ n ∈ ms, n.clus ≠ clus) (n : DbgMod) :
    updKey (fun x => x.clus == clus) n s.dbg = ms ++ n :: ns := by
  rw [hm]
  exact updKey_mid _ n ms ns m (fun n hn => by simpa using hms n hn) (by simpa using hc)

theorem sampleRec_eq (cycle : Word) : sampleRec cycle = fun c => {
    type := 4, slot := slotNo c.phys, lcore := c.lcore, cycle := cycle,
    pc := if c.status = .idle ∨ c.status = .vacant then 0 else c.pc,
    value := BitVec.ofNat 64 c.cls } := by
  funext c
  simp only [sampleRec, Bool.or_eq_true, beq_iff_eq]

/-- A sample of every slot that the module's context holds in the cluster (R390). -/
theorem exec_debugSample_of_due {cs : List Slot} (hm : s.dbg = ms ++ m :: ns) (hc : m.clus = clus) (hms : ∀ n ∈ ms, n.clus ≠ clus)
    (hpos : 0 < m.cfg.period) (hdue : s.cycle.toNat % m.cfg.period = 0) (hp : ∀ r ∈ m.pend, r.type ≠ 4)
    (hcs : cs = s.allSlots.filter (fun c => c.owner == some m.holder && clusOf c.phys == clus)) (hne : cs ≠ []) :
    exec (.debugSample clus) s = .next { s with
      dbg := ms ++ { m with pend := m.pend ++ cs.map (sampleRec s.cycle) } :: ns } := by
  have hpend : m.pend.any (fun r => r.type == 4) = false := List.any_eq_false.2 fun r hr => by simpa using hp r hr
  change execDebugSample clus s = _
  unfold execDebugSample
  simp only [find_module hm hc hms, ← hcs, updKey_module hm hc hms, hpend]
  exact if_neg (by simp [Nat.ne_of_gt hpos, hdue, hne])

theorem exec_captureFreeze_of_frozen (hm : s.dbg = ms ++ m :: ns) (hc : m.clus = clus) (hms : ∀ n ∈ ms, n.clus ≠ clus)
    (hf : m.capture = .frozen) (hb : m.buf ≠ []) : exec (.captureFreeze clus) s = .next (s.writeCapture m) := by
  change execCaptureFreeze clus s = _
  unfold execCaptureFreeze
  simp only [find_module hm hc hms]
  exact if_pos ⟨hf, by simpa using hb⟩

theorem exec_captureCycleMatch_of_cond (hm : s.dbg = ms ++ m :: ns) (hc : m.clus = clus) (hms : ∀ n ∈ ms, n.clus ≠ clus)
    (hh : m.hit = false) (hcond : m.cfg.start = .cycleIs s.cycle ∨ m.cfg.stop = .cycleIs s.cycle ∨ m.cfg.trigger = .cycleIs s.cycle) :
    exec (.captureCycleMatch clus) s = .next { s with dbg := ms ++ { m with hit := true } :: ns } := by
  have hany : [m.cfg.start, m.cfg.stop, m.cfg.trigger].any (fun c => condCycle c == some s.cycle) = true := by
    rcases hcond with h | h | h <;> simp [h, condCycle]
  change execCaptureCycleMatch clus s = _
  unfold execCaptureCycleMatch
  simp only [find_module hm hc hms, updKey_module hm hc hms]
  exact if_pos (by rw [hh, hany]; rfl)

end Module

/-- A trigger of another cluster arrives: its record, and the halt of the cluster's slots where it asks for one (R394). -/
theorem exec_crossTriggerArrival_of_cross {clus : Nat} {s : State} {es fs : List (Nat × Nat × Bool)} {holder : Nat} {halts : Bool}
    (hs : s.cross = es ++ (holder, clus, halts) :: fs) (hes : ∀ e ∈ es, e.2.1 ≠ clus) {t : State}
    (ht : t = { s with
        cross := es ++ fs,
        dbg := s.dbg.map (fun m => if m.clus = clus ∧ m.holder = holder then
          { m with pend := m.pend ++ [{ type := 9, slot := 0, lcore := 0, cycle := s.cycle, pc := 0, value := 0 }] } else m) }) :
    exec (.crossTriggerArrival clus) s = .next (if halts then haltCluster t holder clus else t) := by
  subst ht
  have hfirst : ∀ e ∈ es, (e.2.1 == clus) = false := fun e he => by simpa using hes e he
  change execCrossTriggerArrival clus s = _
  unfold execCrossTriggerArrival
  rw [hs, find_mid _ es fs _ hfirst (by simp), dropFirst_mid _ es fs _ hfirst (by simp)]
  simp only [Bool.and_eq_true, beq_iff_eq]

theorem haltCluster_eq (t : State) (holder clus : Nat) : haltCluster t holder clus =
    { t.mapSlots (fun c => c.owner == some holder && clusOf c.phys == clus) (fun c => { c.freeze with dbgHalt := true }) with
      ctxs := t.ctxs.map (fun x => if x.id = holder then { x with halted := true, dbgClus := clus :: x.dbgClus } else x) } := by
  unfold haltCluster
  simp only [beq_iff_eq]
  rfl

/-- The halted slots of a context return in the cycle that was named (R394). -/
theorem exec_debugResumeCycle_of_due {ctx : Nat} {s : State} {x : Ctx} {es fs : List (Nat × Word)} {at_ : Word} (hx : s.ctxAt ctx = some x)
    (hs : s.dbgResume = es ++ (ctx, at_) :: fs) (hes : ∀ e ∈ es, e.1 ≠ ctx) (hdue : at_.toNat ≤ s.cycle.toNat) {t : State}
    (ht : t = (s.atFamily x.root (fun u => u.mapSlots (ownedBy ctx) (fun c => if c.dbgHalt then
        { c with dbgHalt := false, status := if x.stop.running = true ∧ x.err = none then c.held else c.status } else c))).setCtx
          { x with halted := false, dbgClus := [] }) :
    exec (.debugResumeCycle ctx) s = .next { t with dbgResume := es ++ fs } := by
  have hfind : s.dbgResume.find? (fun e => e.1 == ctx && decide (e.2 ≤ s.cycle)) = some (ctx, at_) := by
    rw [hs]
    exact find_mid _ es fs _ (fun e he => by simp [hes e he]) (by simpa [BitVec.le_def] using hdue)
  change execDebugResumeCycle ctx s = _
  unfold execDebugResumeCycle
  simp only [hx, hfind, Slot.unhalt, Bool.and_eq_true, Option.isNone_iff_eq_none]
  rw [ht, hs, dropFirst_mid _ es fs (ctx, at_) (fun e he => ?_) (by simp)]
  rw [beq_eq_false_iff_ne]
  intro h
  exact hes e he (congrArg Prod.fst h)

/-- Settles O55: each event of a debug module. -/
theorem debugModulesRecord : Obligations.DebugModulesRecord := by
  refine ⟨fun slot s ms ns m w ws hq hm hc ho hms hp => ⟨_, _, exec_traceWordMove_of_module hq hm hc ho hms hp, rfl, rfl⟩,
    fun slot s w ws hq hno => exec_traceWordMove_of_none hq hno,
    fun clus s ms ns m cs hm hc hms hpos hdue hp hcs hne => ?_,
    fun clus s ms ns m hm hc hms hf hb => exec_captureFreeze_of_frozen hm hc hms hf hb,
    fun clus s es fs holder halts hs hes => ⟨_, rfl, fun hno => ?_, fun hyes => ⟨_, rfl, ?_⟩⟩,
    fun ctx s x es fs at_ hx hs hes hdue => ⟨_, exec_debugResumeCycle_of_due hx hs hes hdue rfl, rfl⟩,
    fun clus s ms ns m hm hc hms hh hcond => exec_captureCycleMatch_of_cond hm hc hms hh hcond⟩
  · rw [exec_debugSample_of_due hm hc hms hpos hdue hp hcs hne]
    rw [sampleRec_eq]
  · rw [exec_crossTriggerArrival_of_cross hs hes rfl, hno]
    rfl
  · rw [exec_crossTriggerArrival_of_cross hs hes rfl, hyes, if_pos rfl, haltCluster_eq]
    rfl

end Sys2Proof.Machine


/-! The events of user queues (R347 to R357; O53). -/

namespace Sys2Proof.Machine

section Queue

variable {ctx q : Nat} {s : State} {x : Ctx} {e : Queue}

/-! ### Doorbells -/

/-- The scheduler handles the oldest write of WIDX (R348, R352). -/
theorem exec_doorbellWidxWrite_of_write {f : Queue} {w : Word} {ws : List Word} (hx : s.ctxAt ctx = some x) (he : x.queue q = some e)
    (hw : e.widxs = w :: ws) (hs : x.served = true) (hf : f = { e with widx := w, widxs := ws }) :
    exec (.doorbellWidxWrite ctx q) s =
      let t := match queueReason x f with
        | some r => s.suspend x f r
        | none => s.putQueue ctx { f with state := if e.exc || decide (2 ≤ e.state) then e.state else f.going }
      .next (if e.exc then t.deliverHeld ctx q else t) := by
  subst hf
  change execDoorbellWidxWrite ctx q s = _
  unfold execDoorbellWidxWrite
  simp only [hx, he, hw, hs]
  rfl

/-! ### CTRL -/

theorem bits_low_two (w : Word) : bits w 1 0 = w.toNat % 4 := by
  simp [bits]

/-- The CTRL writes that ask for nothing are passed over (R357). -/
theorem nextCtrl_of_asking {w : Word} {vs ws : List Word} (hc : e.ctrls = vs ++ w :: ws) (hvs : ∀ v ∈ vs, v.toNat % 4 = 0)
    (hw : w.toNat % 4 ≠ 0) : e.nextCtrl = some (w, ws) := by
  have hdrop : e.ctrls.dropWhile (fun w => bits w 1 0 == 0) = w :: ws := by
    rw [hc, List.dropWhile_append_of_pos fun v hv => by simpa [bits_low_two] using hvs v hv,
      List.dropWhile_cons_of_neg (by simpa [bits_low_two] using hw)]
  unfold Queue.nextCtrl
  rw [hdrop]

theorem ctrlWrite_of_asking {f : Queue} {w : Word} {vs ws : List Word} {a : Nat} (name : String) (hx : s.ctxAt ctx = some x)
    (he : x.queue q = some e) (hc : e.ctrls = vs ++ w :: ws) (hvs : ∀ v ∈ vs, v.toNat % 4 = 0) (hs : x.served = true)
    (hf : f = { e with ctrl := w, ctrls := ws }) (hw : w.toNat % 4 = a) (ha : a ≠ 0) :
    ctrlWrite ctx q a name s = .next (s.answer x f a) := by
  subst hf hw
  unfold ctrlWrite
  simp only [hx, he, nextCtrl_of_asking hc hvs ha]
  exact if_neg (by simp [hs, bits_low_two])

theorem answer_resume {e : Queue} (h : e.state = 3 ∨ e.state = 4) (s : State) (x : Ctx) : s.answer x e 1 = s.resumeQueue x e :=
  if_neg (by omega)

theorem answer_skip {e : Queue} (h : e.state = 3 ∨ e.state = 4) (s : State) (x : Ctx) :
    s.answer x e 2 = s.resumeQueue x (e.moved x (e.ridx + 1)) := if_neg (by omega)

theorem answer_abort {e : Queue} (h : e.state = 3 ∨ e.state = 4) (s : State) (x : Ctx) :
    s.answer x e 3 = s.putQueue x.id { e.moved x (e.widx.setWidth 32) with state := 4 } := if_neg (by omega)

/-- A queue that runs no launch drops its packet as it moves. -/
theorem moved_of_no_launch {e : Queue} {x : Ctx} (h : ∀ l, x.launch = some l → l.q ≠ e.q) (i : BitVec 32) :
    e.moved x i = { e with ridx := i, comp := i, fetched := none } := by
  unfold Queue.moved
  split
  · next l hl =>
    simp [h l hl]
  · rfl

/-! ### Packets -/

/-- A queue's packet is fetched, or the queue is suspended with its reason (R350 to R353). -/
theorem exec_packetFetch_of_turn {y : Ctx} (hx : s.ctxAt ctx = some x) (he : x.queue q = some e) (hf : x.fetches = true)
    (hn : x.nextServed (x.hwSlot q) = some q)
    (hy : y = { x with lastQ := updKey (fun p => p.1 == x.hwSlot q) (x.hwSlot q, q) x.lastQ }) :
    exec (.packetFetch ctx q) s =
      match queueReason y e, (s.setCtx y).packetError y e with
      | some r, _ => .next ((s.setCtx y).suspend y e r)
      | none, some m => .next ((s.setCtx y).uncorrCtx y e.packetAddr m)
      | none, none => match packetReason (s.setCtx y) y e ((s.setCtx y).packetBytes y e) with
        | some r => .next ((s.setCtx y).suspend y e r)
        | none => .next ((s.setCtx y).putQueue ctx
            { e with ridx := e.ridx + 1, state := 1, fetched := some (packetOf ((s.setCtx y).packetBytes y e)) }) := by
  subst hy
  change execPacketFetch ctx q s = _
  unfold execPacketFetch
  simp only [hx, he]
  exact if_neg (by simp [hf, hn])

theorem exec_fencePacketComplete_of_met {p : Packet} (hx : s.ctxAt ctx = some x) (he : x.queue q = some e) (hp : e.fetched = some p)
    (hfence : p.fence = true) (hs : x.served = true) (hst : e.state = 1) (hw : ∀ w ∈ p.waits, waitMet x w = true) :
    exec (.fencePacketComplete ctx q) s =
      let t := s.putQueue ctx { e.complete (e.ridx - 1) with fence := e.ridx - 1 }
      .next (if q = 0 then t.notify x .fenceDone (leBytes 4 (e.ridx - 1).toNat) else t) := by
  change execFencePacketComplete ctx q s = _
  unfold execFencePacketComplete
  simp only [hx, he, hp]
  exact if_pos (by simpa [hfence, hs, hst] using hw)

theorem exec_launchStart_of_ready {y : Ctx} {u : State} {p : Packet} {k : Kernel} (hx : s.ctxAt ctx = some x)
    (he : x.queue q = some e) (hp : e.fetched = some p) (hk : x.kernels[p.kernel]? = some k) (hfence : p.fence = false)
    (hrun : x.state = .run) (herr : x.err = none) (hstop : x.stop = .none) (hl : x.launch = none) (hst : e.state = 1)
    (hw : ∀ w ∈ p.waits, waitMet x w = true) (hslots : ∀ t ∈ x.slots, (s.slotAt t).status = .idle ∨ (s.slotAt t).status = .vacant)
    (hy : y = { x with launch := some { q := q, idx := e.ridx - 1, wdog := p.wdog, ran := 0 } })
    (hu : u = (s.setCtx y).putQueue ctx { e with state := 2 }) :
    exec (.launchStart ctx q) s = .next (if p.range then u.launchRange y k p else u.launchAll y k p (e.ridx - 1)) := by
  subst hu hy
  change execLaunchStart ctx q s = _
  unfold execLaunchStart
  simp only [hx, he, hp, hk]
  refine if_pos ?_
  simp only [hfence, hrun, herr, hstop, hl, hst, List.all_eq_true.2 hw, Bool.and_eq_true, List.all_eq_true, Bool.or_eq_true, beq_iff_eq]
  exact ⟨by decide, hslots⟩

theorem exec_launchComplete_of_done {n : Nat} {u : State} {l : Launch} (hx : s.ctxAt ctx = some x) (hl : x.launch = some l)
    (he : x.queue l.q = some e) (hrun : x.state = .run) (herr : x.err = none) (hd : s.launchDone x = true)
    (hn : n = ((s.deques.filter (fun d => d.ctx == ctx)).map (fun d => d.items.length + d.spill.length)).foldl (fun a b => a + b) 0)
    (hu : u = ((State.mapSlots { s with deques := s.deques.filter (fun d => d.ctx != ctx) }
        (fun c => ownedBy ctx c && c.status == .idle) (fun c => { c with status := .vacant, held := .vacant })).setCtx
          { x with launch := none, disc := n }).putQueue ctx
        { e.complete l.idx with disc := BitVec.ofNat 32 (min n (2 ^ 32 - 1)) }) :
    exec (.launchComplete ctx) s = .next (if l.q = 0 then
      u.notify x .launchDone (leBytes 4 l.idx.toNat ++ leBytes 4 (min n (2 ^ 32 - 1))) else u) := by
  subst hu hn
  change execLaunchComplete ctx s = _
  unfold execLaunchComplete
  simp only [hx, hl, he]
  exact if_pos (by simp [hrun, herr, hd])

end Queue

/-- Settles O53: each event of a user queue. -/
theorem queueEventsHappen : Obligations.QueueEventsHappen := by
  refine ⟨fun ctx q s x e f w ws hx he hw hs hf => ?_, fun ctx q s x e f w vs ws hx he hc hvs hs hf => ⟨fun h => ?_, fun h => ?_, fun h => ?_⟩,
    fun s x e hst => ⟨?_, fun hl => ⟨?_, ?_⟩⟩, fun s x e a h3 h4 => if_pos ⟨h3, h4⟩, fun ctx q s x y e hx he hf hn hy => ?_,
    fun ctx q s x e p hx he hp hfence hs hst hw => ?_,
    fun ctx q s u x y e p k hx he hp hk hfence hrun herr hstop hl hst hw hslots hy hu => ?_,
    fun ctx n s u x l e hx hl he hrun herr hd hn hu => exec_launchComplete_of_done hx hl he hrun herr hd hn hu⟩
  · have hex := exec_doorbellWidxWrite_of_write hx he hw hs hf
    refine ⟨fun r hr => ?_, fun hr hexc => ?_, fun hr hexc => ?_⟩
    · rw [hr] at hex
      exact hex
    · have hstate : f.state = e.state := by rw [hf]
      rw [hr, hexc] at hex
      refine hex.trans ?_
      simp only [Bool.true_or, if_true, ← hstate]
    · rw [hr, hexc] at hex
      simpa using hex
  · exact ctrlWrite_of_asking _ hx he hc hvs hs hf h (by decide)
  · exact ctrlWrite_of_asking _ hx he hc hvs hs hf h (by decide)
  · exact ctrlWrite_of_asking _ hx he hc hvs hs hf h (by decide)
  · exact answer_resume hst s x
  · rw [answer_skip hst, moved_of_no_launch hl]
  · rw [answer_abort hst, moved_of_no_launch hl]
  · have hex := exec_packetFetch_of_turn hx he hf hn hy
    refine ⟨fun r hr => ?_, fun m hr hm => ?_, fun r hr hm hp => ?_, fun hr hm hp => ?_⟩
    · rw [hr] at hex
      exact hex
    · rw [hr, hm] at hex
      exact hex
    · rw [hr, hm] at hex
      simpa only [hp] using hex
    · rw [hr, hm] at hex
      simpa only [hp] using hex
  · have hex := exec_fencePacketComplete_of_met hx he hp hfence hs hst hw
    exact ⟨fun hq => hex.trans (by simp only [if_neg hq]), fun hq => hex.trans (by simp only [if_pos hq])⟩
  · have hex := exec_launchStart_of_ready hx he hp hk hfence hrun herr hstop hl hst hw hslots hy hu
    exact ⟨fun hr => hex.trans (by rw [hr]; rfl), fun hr => hex.trans (by rw [hr]; rfl)⟩

end Sys2Proof.Machine


/-! The stop of a family, its state's way out and back, and its slices (R148, R265, R356 to R360; O54). -/

namespace Sys2Proof.Machine

/-- The agreed cycle is the first multiple of 64 at least 4,096 cycles on. -/
theorem agreedCycle_eq (c : Word) : agreedCycle c = BitVec.ofNat 64 (64 * ((c.toNat + 4096 + 63) / 64)) := by
  unfold agreedCycle ceilDiv
  rw [Nat.mul_comm]
  rfl

theorem decideStop_eq (s : State) (root : Nat) : s.decideStop root =
    (s.setStop root (.decided (BitVec.ofNat 64 (64 * ((s.cycle.toNat + 4096 + 63) / 64))))).signalRef [refCore0] 4 := by
  unfold State.decideStop
  rw [agreedCycle_eq]

section Stop

variable {root : Nat} {s : State}

theorem exec_stopDecision_of_running (hf : s.family root ≠ []) (hs : s.stopOf root = .none) :
    exec (.stopDecision root) s = .next (s.decideStop root) :=
  if_pos (by simp [hf, hs])

theorem exec_stopHalt_of_due {v : Word} (hs : s.stopOf root = .decided v) (hv : v.toNat ≤ s.cycle.toNat)
    (hr : s.resetPending root = false) :
    exec (.stopHalt root) s =
      .next ((s.mapSlots (fun c => s.inFamily root c && c.block.isNone) Slot.freeze).setStop root .halted) := by
  change execStopHalt root s = _
  unfold execStopHalt
  simp only [hs]
  exact if_pos (by simp [BitVec.le_def, hv, hr])

theorem exec_flushToken_of_swept (hs : s.stopOf root = .halted) (hb : ∀ c ∈ s.allSlots, s.inFamily root c = true → c.block = none)
    (hr : ∀ r ∈ s.hreqs, r.root ≠ root) :
    exec (.flushToken root) s = .next ((s.mapSlots (fun c => s.inFamily root c) Slot.freeze).setStop root .flushed) := by
  have hblocks : s.allSlots.any (fun c => s.inFamily root c && c.block.isSome) = false :=
    List.any_eq_false.2 fun c hc => by
      rw [Bool.and_eq_true, Option.isSome_iff_ne_none]
      exact fun ⟨hin, hsome⟩ => hsome (hb c hc hin)
  have hreqs : s.hreqs.any (fun r => r.root == root) = false := List.any_eq_false.2 fun r hr' => by simpa using hr r hr'
  exact if_pos (by rw [hs, hblocks, hreqs]; rfl)

theorem exec_stateSaveDone_of_flushed (hs : s.stopOf root = .flushed) (hc : s.claimBusy root = false) (hst : s.stepping root = false) :
    exec (.stateSaveDone root) s = match s.saveError root with
      | some (e, x) => .next (State.uncorrCtx { s with errs := s.errs.filter (fun f => f != e) } x 0 e)
      | none => .next (s.saveFamily root) :=
  if_pos (by simp [hs, hc, hst])

end Stop

/-! ### Slices -/

section Slice

variable {ctx : Nat} {s : State} {x : Ctx}

/-- The first waiting family in order that fits takes its place, and its slice begins (R319, R356). -/
theorem exec_slicePlacement_of_first {p : Place} (hx : s.ctxAt ctx = some x) (hw : s.waits x = true)
    (hfirst : ∀ y ∈ s.ctxs, s.waits y = true → placedBefore y x = true → s.slicePlace y.root = none)
    (hp : s.slicePlace x.root = some p) : exec (.slicePlacement ctx) s = .next ((s.takePlace x.root p).beginSlice x.root) := by
  have hany : s.ctxs.any (fun y => s.waits y && placedBefore y x && (s.slicePlace y.root).isSome) = false :=
    List.any_eq_false.2 fun y hy => by
      rw [Bool.and_eq_true, Bool.and_eq_true, Option.isSome_iff_ne_none]
      exact fun ⟨⟨hwy, hb⟩, hsome⟩ => hsome (hfirst y hy hwy hb)
  change execSlicePlacement ctx s = _
  unfold execSlicePlacement
  simp only [hx, hw, hany, hp]
  rfl

theorem beginSlice_eq (t : State) (root : Nat) : t.beginSlice root = { t with
    ctxs := t.ctxs.map (fun y => if y.root = root then { y with stop := .restoring, sliceAt := t.cycle } else y) } := by
  simp only [State.beginSlice, beq_iff_eq]

/-- The end of a slice decides a stop where another family waits for what it holds (R356). -/
theorem exec_sliceEnd_of_due (hx : s.ctxAt ctx = some x) (hh : s.heads x = true) (hc : x.res.cls ≠ 0) (hs : x.stop = .none)
    (hdue : x.sliceAt.toNat + 600 * x.res.latency ≤ s.cycle.toNat) :
    exec (.sliceEnd ctx) s = if s.wanted x.root then .next ((s.setCtx { x with sliceAt := s.cycle }).decideStop x.root)
      else .next (s.setCtx { x with sliceAt := s.cycle }) := by
  change execSliceEnd ctx s = _
  unfold execSliceEnd
  simp only [hx]
  exact if_neg (by simp [hh, hc, hs, hdue])

end Slice

/-! ### Coming back -/

theorem exec_restoreDone_of_saved {root : Nat} {s : State} {vs ws : List Saved} {v : Saved} {x : Ctx} {xs : List Ctx}
    (hs : s.saved = vs ++ v :: ws) (hv : v.root = root) (hvs : ∀ w ∈ vs, w.root ≠ root) (hf : s.family root = x :: xs)
    (hx : x.stop = .restoring ∨ (x.stop = .saved ∧ x.res.cls = 0)) :
    exec (.restoreDone root) s = .next ((s.restoreFamily root v).setStop root (.resumeAt (agreedCycle s.cycle))) := by
  have hsaved : s.savedOf root = some v := by
    unfold State.savedOf
    rw [hs]
    exact find_mid _ vs ws v (fun w hw => by simpa using hvs w hw) (by simpa using hv)
  change execRestoreDone root s = _
  unfold execRestoreDone
  simp only [hsaved, hf, List.head?_cons]
  exact if_pos (by rcases hx with h | ⟨h, h0⟩ <;> simp [*])

/-- The slots of a family rejoin in the agreed cycle (R360). -/
theorem exec_resumeRejoin_of_due {root : Nat} {v : Word} {s u : State} (hs : s.stopOf root = .resumeAt v)
    (hv : v.toNat ≤ s.cycle.toNat)
    (hu : u = (s.mapSlots (fun c => c.status == .stopped && (match s.ctxOf c with
        | some x => x.root == root && x.err.isNone && x.state != .error
        | none => false)) Slot.resume).setStop root .none) :
    exec (.resumeRejoin root) s = .next { u with ctxs := u.ctxs.map (fun x => if x.root = root then
        { x with state := if x.state = .saved then .run else x.state, sliceAt := u.cycle } else x) } := by
  subst hu
  change execResumeRejoin root s = _
  unfold execResumeRejoin
  simp only [hs, beq_iff_eq]
  exact if_pos (by simpa [BitVec.le_def] using hv)

section Resume

variable {c : Slot}

/-- A slot that waits in MWAIT comes back from it (R142, R360). -/
theorem resume_of_mwait (hw : c.wait = some .mwait) (hd : c.dbgHalt = false) :
    c.resume = { c with wait := some (.done 0 0), monitor := none, status := c.held } := by
  unfold Slot.resume
  simp only [hw, hd]
  rfl

theorem resume_of_not_mwait (hw : c.wait ≠ some .mwait) : c.resume = if c.dbgHalt then c else { c with status := c.held } := by
  unfold Slot.resume
  split
  · next h => exact absurd h hw
  · rfl

end Resume

/-- Settles O54: each event of a stop, a save, a restore and a slice. -/
theorem stopsSaveAndRestore : Obligations.StopsSaveAndRestore := by
  refine ⟨fun root s hf hs => ?_, fun root v s hs hv hr => exec_stopHalt_of_due hs hv hr, fun c hc => ?_,
    fun root s hs hb hr => exec_flushToken_of_swept hs hb hr,
    fun root s hs hc hst => ⟨fun hnone => ?_, fun e x hsome => ?_⟩,
    fun root s => ⟨fun hnone => ?_, fun x ps hx hps => ?_⟩,
    fun ctx s t x hx hw hfirst hp => ?_,
    fun root s vs ws v x xs hs hv hvs hf hx => ?_,
    fun root v s hs hv => ⟨_, _, exec_resumeRejoin_of_due hs hv rfl, rfl, rfl⟩,
    fun c => ⟨resume_of_mwait, fun hw hd => ?_, fun hw hd => ?_⟩,
    fun ctx s x hx hh hc hs hdue => ⟨fun hwant => ?_, fun hwant => ?_⟩⟩
  · rw [exec_stopDecision_of_running hf hs, decideStop_eq]
  · exact if_neg (by simpa using hc)
  · rw [exec_stateSaveDone_of_flushed hs hc hst, hnone]
  · rw [exec_stateSaveDone_of_flushed hs hc hst, hsome]
  · unfold State.slicePlace
    rw [hnone]
  · unfold State.slicePlace
    simp only [hx, hps]
  · obtain ⟨m, hm, ht⟩ | ⟨ps, hps, ht⟩ := hp
    · rw [exec_slicePlacement_of_first hx hw hfirst hm, beginSlice_eq, ht]
      rfl
    · rw [exec_slicePlacement_of_first hx hw hfirst hps, beginSlice_eq, ht]
  · rw [exec_restoreDone_of_saved hs hv hvs hf hx, agreedCycle_eq]
  · rw [resume_of_not_mwait hw, if_neg (by simp [hd])]
  · rw [resume_of_not_mwait hw, if_pos hd]
  · rw [exec_sliceEnd_of_due hx hh hc hs hdue, if_pos hwant, decideStop_eq]
    rfl
  · rw [exec_sliceEnd_of_due hx hh hc hs hdue, if_neg (by simp [hwant])]

end Sys2Proof.Machine


/-! Errors and limits (R156 to R162, R258, R329, R358, R380; O51, O52). -/

namespace Sys2Proof.Machine

/-! ### The stop of a context in ERROR -/

theorem resetKind_eq_true_iff (k : Nat) : resetKind k = true ↔ k = 1 ∨ k = 2 := by
  simp [resetKind]

/-- A fault's stop is due after its cycle, and for a reset only while its family runs (R157). -/
theorem Ctx.stopDue_of_err {x : Ctx} {e : ErrorState} {now : Word} (he : x.err = some e) (hs : e.stopped = false)
    (hc : e.cycle < now.toNat) (hk : e.kind = 1 ∨ e.kind = 2 → x.stop.running = true) : x.stopDue now = some e := by
  unfold Ctx.stopDue
  rw [he]
  refine if_neg ?_
  rw [← resetKind_eq_true_iff] at hk
  cases hr : resetKind e.kind <;> simp_all

section ErrorStop

variable {ctx : Nat} {s u : State} {x y : Ctx} {e f : ErrorState}

/-- The first fault of its die that is due stops its context (R157, R159, R160). -/
theorem exec_errorStopCycle_of_due (hx : s.ctxAt ctx = some x) (hdue : x.stopDue s.cycle = some e)
    (hfirst : ∀ z ∈ s.ctxs, ∀ g, z.stopDue s.cycle = some g → enqueuedBefore (g, z.id) (e, ctx) = false)
    (hu : u = (s.haltCtx x (!x.keyValid)).passCharges ctx) (hy : u.ctxAt ctx = some y) :
    exec (.errorStopCycle ctx) s =
      let dropped := !x.keyValid || decide (16 ≤ u.dumpsWaiting e.die)
      let r := recordFlag e.record (if !x.keyValid then 0x10 else if dropped then 4 else 0)
      let t := (((u.setCtx { y with err := some { e with
          record := r, stopped := true, stopAt := BitVec.ofNat 64 (min u.cycle.toNat (e.cycle + 1024)),
          dumped := if dropped then 2 else 1, frozen := s.entriesOf x } }).writeRecord y r).notify y .fault r).signalRef
            (refCores e.die) 2
      .next (if dropped then t.afterDump ctx else { t with dumps := t.dumps ++ [{ die := e.die, ctx := ctx, started := false }] }) := by
  subst hu
  change execErrorStopCycle ctx s = _
  unfold execErrorStopCycle
  simp only [hx, Option.bind_some, hdue, Option.map_some]
  rw [if_neg]
  · simp only [hy]
    rfl
  · rw [List.any_eq_true]
    rintro ⟨z, hz, h⟩
    cases hg : z.stopDue s.cycle with
    | none => simp [hg] at h
    | some g => simp [hg, hfirst z hz g hg] at h

end ErrorStop

/-! ### Dumps -/

theorem exec_dumpStart_of_next {die : Nat} {s : State} {d : Dump} (h : s.nextDump die = some d) :
    exec (.dumpStart die) s = .next { s with
      dumps := s.dumps.map (fun e => if e.die = die ∧ e.ctx = d.ctx then { e with started := true } else e) } := by
  change execDumpStart die s = _
  unfold execDumpStart
  simp only [h, Bool.and_eq_true, beq_iff_eq]

/-- A dump that is written leaves its die's queue, and its record says so (R161, R162). -/
theorem exec_dumpWriteDone_of_started {die : Nat} {s : State} {ds es : List Dump} {d : Dump} {x : Ctx} {e : ErrorState}
    (hs : s.dumps = ds ++ d :: es) (hd : d.die = die) (hst : d.started = true) (hds : ∀ b ∈ ds, ¬ (b.die = die ∧ b.started = true))
    (hx : s.ctxAt d.ctx = some x) (he : x.err = some e) :
    exec (.dumpWriteDone die) s =
      let u := State.setCtx { s with dumps := s.dumps.filter (fun b => !(b.die == die && b.ctx == d.ctx)) }
        { x with err := some (dumpedError x e) }
      .next ((if x.keyValid then { u with
          mem := putBytes u.mem (keyOf Space.dev x.id x.layout.dumpOff)
            ((dumpBytes u x (dumpedError x e)).take (x.layout.spillOff - x.layout.dumpOff)) } else u).afterDump d.ctx) := by
  have hfind : s.dumps.find? (fun d => d.die == die && d.started) = some d := by
    rw [hs]
    exact find_mid _ ds es d (fun b hb => by simpa using hds b hb) (by simp [hd, hst])
  change execDumpWriteDone die s = _
  unfold execDumpWriteDone
  simp only [hfind, hx, he]
  rfl

/-! ### Energy and power -/

section Limits

variable {ctx : Nat} {s : State} {x : Ctx}

theorem exec_energyAllowanceReached_of_met (hx : s.ctxAt ctx = some x) (hm : x.res.energy * 1000000 ≤ x.meter) (hr : x.raised = false) :
    exec (.energyAllowanceReached ctx) s = .next ((s.mapSlots (fun c => ownedBy ctx c && c.status != .vacant && c.status != .idle &&
        !(c.status == .stopped && (c.held == .vacant || c.held == .idle))) (fun c => { c with energyDue := true })).setCtx
          { x with raised := true }) := by
  change execEnergyAllowanceReached ctx s = _
  unfold execEnergyAllowanceReached
  simp only [hx]
  exact if_pos ⟨hm, by simp [hr]⟩

theorem exec_energyOverrun_of_past {slot : Nat} (hx : s.ctxOf (s.slotAt slot) = some x)
    (hm : 65 * (x.res.energy * 1000000) < 64 * x.meter) (hst : (s.slotAt slot).status = .ready) (hb : (s.slotAt slot).busy = 0)
    (he : ∀ e, x.err = some e → e.stopped = false) :
    exec (.energyOverrun slot) s = .next (fatalTrap s (s.slotAt slot) .energy (csrValue s (s.slotAt slot) 0x033)
      (BitVec.ofNat 32 (leNat (s.readHomeN (devKey x.id (s.slotAt slot).pc) 4))) 0) := by
  have hall : x.err.all (fun e => !e.stopped) = true := by
    cases hx : x.err with
    | none => rfl
    | some e => simp [he e hx]
  change execEnergyOverrun slot s = _
  unfold execEnergyOverrun
  simp only [hx]
  exact if_pos (by simp [Ctx.overrun, Ctx.allowance, hm, hst, hb, hall])

/-- A context's own draw gives its level: up above its power, down below 7/8 of it (Table 26-2). -/
theorem ownLevel_eq_throttleAlone (x : Ctx) (draw modulemW : Nat) : ownLevel x draw modulemW = throttleAlone x draw modulemW := by
  unfold ownLevel throttleAlone
  have hpow : 5 * 2 ^ 20 * x.res.power = x.res.power * (5 * 2 ^ 20) := Nat.mul_comm _ _
  have hpow' : 7 * 5 * 2 ^ 20 * x.res.power = 7 * (x.res.power * (5 * 2 ^ 20)) := by omega
  rw [hpow, hpow']
  generalize x.res.power * (5 * 2 ^ 20) = p
  split
  · exact if_neg (by omega)
  · simp [Nat.mul_comm]

/-- The contexts after a power window: each by its own draw, then, past the module's draw, class 2 and class 1 (Table 26-2). -/
theorem exec_powerWindowEnd_of_end {modulemW : Nat} (hc : s.cycle.toNat % 2 ^ 20 = 0) (hp : s.cycle ≠ s.powerAt) :
    exec (.powerWindowEnd modulemW) s =
      let xs := afterWindow s modulemW
      let hot := decide (9200000 < modulemW)
      let ys := if hot && xs.any (fun x => x.res.cls == 2 && decide (x.throttle < 7)) then xs.map (raiseLevel 2) else xs
      .next { s with
        ctxs := if hot && ys.all (fun x => x.res.cls != 2 || x.throttle == 7) then ys.map (raiseLevel 1) else ys, powerAt := s.cycle } := by
  change execPowerWindowEnd modulemW s = _
  unfold execPowerWindowEnd
  rw [if_neg (not_or.mpr ⟨Classical.not_not.mpr hc, hp⟩)]
  simp only [ownLevel_eq_throttleAlone]
  rfl

theorem anyBelowTop_of_mem {xs : List Ctx} (hx : x ∈ xs) (hcls : x.res.cls = 2) (hlow : x.throttle < 7) :
    xs.any (fun x => x.res.cls == 2 && decide (x.throttle < 7)) = true :=
  List.any_eq_true.mpr ⟨x, hx, by simp [hcls, hlow]⟩

/-- A context of class 2 that was below level 6 is below level 7 when it is raised. -/
theorem allAtTop_raised_of_low {xs : List Ctx} (hx : x ∈ xs) (hcls : x.res.cls = 2) (hlow : x.throttle < 6) :
    (xs.map (raiseLevel 2)).all (fun x => x.res.cls != 2 || x.throttle == 7) = false := by
  rw [List.all_eq_false]
  refine ⟨raiseLevel 2 x, List.mem_map_of_mem hx, ?_⟩
  simp [raiseLevel, hcls]
  omega

theorem allAtTop_raised_of_high {xs : List Ctx} (hall : ∀ x ∈ xs, x.res.cls = 2 → 6 ≤ x.throttle) :
    (xs.map (raiseLevel 2)).all (fun x => x.res.cls != 2 || x.throttle == 7) = true := by
  rw [List.all_eq_true]
  intro y hy
  obtain ⟨x, hx, rfl⟩ := List.mem_map.mp hy
  by_cases hcls : x.res.cls = 2
  · have := hall x hx hcls
    simp [raiseLevel, hcls]
    omega
  · simp [raiseLevel, hcls]

theorem raiseLevel_two_then_one : raiseLevel 1 ∘ raiseLevel 2 =
    fun x => if x.res.cls = 2 ∨ x.res.cls = 1 then { x with throttle := min 7 (x.throttle + 1) } else x := by
  funext x
  by_cases h2 : x.res.cls = 2
  · simp [raiseLevel, h2]
  · simp [raiseLevel, h2]

end Limits

/-! ### Expiry, the watchdog and the scrubber -/

section Ends

variable {ctx : Nat} {s : State} {x : Ctx}

theorem exec_contextExpiry_of_past (hx : s.ctxAt ctx = some x) (ht : x.warrant.notAfter.toNat < s.tearly) :
    exec (.contextExpiry ctx) s = .next ((State.withKin s.ctxs.length s ctx).foldl State.expire (s.signalRef [refCore0] 8)) := by
  change execContextExpiry ctx s = _
  unfold execContextExpiry
  simp only [hx]
  exact if_pos ht

/-- A context without children is alone in its family. -/
theorem State.withKin_of_childless (n : Nat) (h : ∀ y ∈ s.ctxs, y.parent ≠ some ctx) : State.withKin n s ctx = [ctx] := by
  cases n with
  | zero => rfl
  | succ n =>
    unfold State.withKin
    rw [List.filter_eq_nil_iff.mpr fun y hy => by simpa using h y hy]
    rfl

theorem State.expire_of_ctxAt (hx : s.ctxAt ctx = some x) :
    s.expire ctx = (s.notify x .expiry (leBytes 16 x.serial.toNat)).finishEnd x := by
  unfold State.expire
  simp only [hx]

theorem exec_watchdogExpiry_of_run {l : Launch} (hx : s.ctxAt ctx = some x) (hl : x.launch = some l) (hw : l.wdog ≠ 0)
    (hran : l.wdog * 600000 ≤ l.ran) (he : x.err = none) (hs : x.stop.running = true) :
    exec (.watchdogExpiry ctx) s = .next ((s.ctxFault x 1).signalRef [refCore0] 16) := by
  change execWatchdogExpiry ctx s = _
  unfold execWatchdogExpiry
  simp only [hx, hl]
  exact if_pos ⟨hw, hran, by simp [he], hs⟩

end Ends

section Scrub

variable {die stack : Nat} {s : State}

theorem exec_backgroundScrubRead_eq (bad : Option (Nat × Nat)) (hd : die < 24) (hs : stack < 2) :
    exec (.backgroundScrubRead die stack bad) s =
      match bad with
      | none => match s.scrubFinds die stack with
        | none => .next (s.scrubCount die)
        | some (e, x) => .next (State.uncorrCtx { s with errs := s.errs.filter (fun f => f != e) } x
          (BitVec.ofNat 64 (2 ^ 48 + keyOff e.lo)) e)
      | some (0, loc) => .next { s with retired := s.retired ++ [(die, stack, loc)] }
      | some (id, loc) => match s.ctxAt id with
        | none => notNow "BACKGROUND_SCRUB_READ"
        | some x =>
          if x.layout.dies.contains die then
            .next (s.uncorrCtx x 0 { lo := 0, len := 0, place := BitVec.ofNat 64 (die * 2 ^ 40 + stack * 2 ^ 32 + loc % 2 ^ 32) })
          else notNow "BACKGROUND_SCRUB_READ" := by
  change execBackgroundScrubRead die stack bad s = _
  unfold execBackgroundScrubRead
  exact if_neg (by omega)

/-- A background read that finds nothing counts itself. -/
theorem State.scrubCount_frame (s : State) (die : Nat) : (s.scrubCount die).mem = s.mem ∧ (s.scrubCount die).errs = s.errs ∧
    (s.scrubCount die).ctxs = s.ctxs ∧ (s.scrubCount die).cur = s.cur ∧ (s.scrubCount die).slots = s.slots := by
  unfold State.scrubCount State.draw
  dsimp only
  split
  · unfold State.count
    split <;> exact ⟨rfl, rfl, rfl, rfl, rfl⟩
  · exact ⟨rfl, rfl, rfl, rfl, rfl⟩

/-- The place of a location names its die. -/
theorem bits_die_of_place (loc : Nat) (hd : die < 24) (hs : stack < 2) :
    bits (BitVec.ofNat 64 (die * 2 ^ 40 + stack * 2 ^ 32 + loc % 2 ^ 32)) 47 40 = die := by
  simp only [bits, BitVec.toNat_ofNat]
  omega

end Scrub

/-- Settles O51, from the equations of the stop and of the dumps. -/
theorem errorsStopAndDump : Obligations.ErrorsStopAndDump := by
  unfold Obligations.ErrorsStopAndDump
  refine ⟨?_, fun die s d h => exec_dumpStart_of_next h, ?_⟩
  · intro ctx s u x y e f hx he hs hc hk hfirst hu hy hf
    have hexec := exec_errorStopCycle_of_due hx (Ctx.stopDue_of_err he hs hc hk) hfirst hu hy
    subst hf
    refine ⟨?_, ?_⟩
    · intro hkey hwait
      refine ⟨_, rfl, ?_⟩
      rw [hexec]
      simp [hkey, Nat.not_le.mpr hwait]
    · rintro b (⟨hkey, rfl⟩ | ⟨hkey, hwait, rfl⟩)
      · rw [hexec]
        simp [hkey]
      · rw [hexec]
        simp [hkey, hwait]
  · intro die s ds es d x e hs hd hst hds hx he
    exact ⟨_, _, rfl, rfl, exec_dumpWriteDone_of_started hs hd hst hds hx he⟩

/-- Settles O52, from the equation of each event. -/
theorem limitsAreKept : Obligations.LimitsAreKept := by
  unfold Obligations.LimitsAreKept
  refine ⟨?_, ?_, ?_, ?_, ?_, ?_⟩
  · intro ctx s x hx hm hr
    exact ⟨_, exec_energyAllowanceReached_of_met hx hm hr, rfl⟩
  · intro slot s x hx hm hst hb he
    exact exec_energyOverrun_of_past hx hm hst hb he
  · intro modulemW s hc hp
    have hexec := exec_powerWindowEnd_of_end (modulemW := modulemW) hc hp
    refine ⟨?_, ?_, ?_, ?_⟩
    · intro hcool
      rw [hexec]
      simp [Nat.not_lt.mpr hcool]
    · intro hhot hall
      have hany : (afterWindow s modulemW).any (fun x => x.res.cls == 2 && decide (x.throttle < 7)) = false := by
        rw [List.any_eq_false]
        intro x hx
        by_cases hcls : x.res.cls = 2
        · simp [hall x hx hcls]
        · simp [hcls]
      have hfull : (afterWindow s modulemW).all (fun x => x.res.cls != 2 || x.throttle == 7) = true := by
        rw [List.all_eq_true]
        intro x hx
        by_cases hcls : x.res.cls = 2
        · simp [hall x hx hcls]
        · simp [hcls]
      rw [hexec]
      simp [hhot, hany, hfull, raiseLevel]
    · rintro hhot ⟨x, hx, hcls, hlow⟩
      have hlow' : x.throttle < 7 := by omega
      rw [hexec]
      simp only [hhot, decide_true, Bool.true_and, anyBelowTop_of_mem hx hcls hlow', if_true, allAtTop_raised_of_low hx hcls hlow]
      simp [raiseLevel]
    · rintro hhot ⟨x, hx, hcls, hsix⟩ hall
      have hlow : x.throttle < 7 := by omega
      rw [hexec]
      simp only [hhot, decide_true, Bool.true_and, anyBelowTop_of_mem hx hcls hlow, if_true, allAtTop_raised_of_high hall]
      simp only [List.map_map, raiseLevel_two_then_one]
  · intro ctx s x hx ht
    refine ⟨exec_contextExpiry_of_past hx ht, fun hkids => ?_⟩
    rw [exec_contextExpiry_of_past hx ht, State.withKin_of_childless _ hkids]
    exact congrArg _ (State.expire_of_ctxAt hx)
  · intro ctx s x l hx hl hw hran he hs
    exact exec_watchdogExpiry_of_run hx hl hw hran he hs
  · intro die stack s hd hs
    refine ⟨?_, ?_, ?_, ?_⟩
    · intro hnone
      refine ⟨s.scrubCount die, ?_, s.scrubCount_frame die⟩
      rw [exec_backgroundScrubRead_eq none hd hs]
      simp only [hnone]
    · intro e x hfind
      rw [exec_backgroundScrubRead_eq none hd hs]
      simp only [hfind]
    · intro loc
      exact exec_backgroundScrubRead_eq (some (0, loc)) hd hs
    · intro id loc x hx hid hdie
      rw [exec_backgroundScrubRead_eq (some (id, loc)) hd hs]
      split
      · next heq => cases heq
      · next heq => cases heq; exact absurd rfl hid
      · next heq =>
        cases heq
        simp only [hx, hdie, if_true]
        unfold State.uncorrCtx
        rw [bits_die_of_place loc hd hs, State.ctxAt_id hx]

end Sys2Proof.Machine


/-! Huddles: requests, phases and departures (R311 to R324; O27, O28). -/

namespace Sys2Proof.Machine

/-! ### Members and entries -/

theorem mem_insertMember {m n : HMember} {ms : List HMember} : n ∈ insertMember m ms ↔ n = m ∨ n ∈ ms := by
  induction ms with
  | nil => simp [insertMember]
  | cons a as ih =>
    unfold insertMember
    split
    · simp
    · simp only [List.mem_cons, ih]
      grind

theorem mem_rankSort {n : HMember} {ms : List HMember} : n ∈ rankSort ms ↔ n ∈ ms := by
  induction ms with
  | nil => simp [rankSort]
  | cons a as ih => simp [rankSort, mem_insertMember, ← ih]

/-- A phase with a member that has not arrived stands open (R312). -/
theorem settleHuddle_of_open {e : Huddle} {m : HMember} (n : Nat) (hm : m ∈ e.members) (hj : m.joined ≤ e.phase)
    (ha : m.arrived = none) (hg : m.gone = false) : settleHuddle n e = (e, []) := by
  have hpresent : m ∈ e.present := mem_rankSort.mpr (List.mem_filter.mpr ⟨hm, by simpa using hj⟩)
  have hall : e.present.all (fun m => m.arrived.isSome || m.gone) = false :=
    List.all_eq_false.mpr ⟨m, hpresent, by simp [ha, hg]⟩
  cases n with
  | zero => rfl
  | succ n => simp [settleHuddle, hall]

theorem settleHuddle_of_empty {e : Huddle} (n : Nat) (h : e.members = []) : settleHuddle n e = (e, []) := by
  cases n with
  | zero => rfl
  | succ n => simp [settleHuddle, h]

/-- The entry of one member after its phase. -/
def Huddle.afterPhase (e : Huddle) (m : HMember) : Huddle :=
  { e with phase := e.phase + 1, dep := 0, members := [{ m with arrived := none, next := e.phase + 1 }] }

/-- The notice of a phase to its only member (R320). -/
def Huddle.noticeTo (e : Huddle) (m : HMember) (inp : HInput) : HNote :=
  { ctx := m.ctx, thread := m.thread, slot := m.slot, reply := false, name := e.name, value := (combine inp.tag [inp.val]).1,
    flags := (combine inp.tag [inp.val]).2, short := e.dep != 0, dep := e.dep }

theorem Huddle.present_of_alone {e : Huddle} {m : HMember} (he : e.members = [m]) (hj : m.joined ≤ e.phase) : e.present = [m] := by
  simp [Huddle.present, he, hj, rankSort, insertMember]

/-- A rank of 0 and a count of 1 in HINFO's low bits. -/
theorem ofNat_rank_count {rank count : Nat} (a b c : Nat) (hr : rank = 0) (hc : count = 1) :
    BitVec.ofNat 64 (a + b + c + rank * 2 ^ 11 + count) = BitVec.ofNat 64 (a + b + c + 1) := by
  rw [hr, hc, Nat.zero_mul, Nat.add_zero]

/-- HINFO of a lone member: rank 0, one member present (Table 20-3). -/
theorem hinfoWord_of_alone {e : Huddle} {m : HMember} {ctx thread : Nat} (hd : Handle) (he : e.members = [m]) (hj : m.joined ≤ e.phase)
    (hc : m.ctx = ctx) (ht : m.thread = thread) (hl : m.leaving = false) (hg : m.gone = false) : hinfoWord e hd ctx thread =
      BitVec.ofNat 64 (e.phase % 2 ^ 24 * 2 ^ 40 + (if hd.short then 2 ^ 39 else 0) + hd.dep % 2 ^ 11 * 2 ^ 28 + 1) := by
  have hpresent := Huddle.present_of_alone he hj
  have hrank : (e.present.findIdx? (fun m => m.ctx == ctx && m.thread == thread && !m.leaving && !m.gone)).getD 0x3FF = 0 := by
    simp [hpresent, hc, ht, hl, hg]
  have hcount : e.present.length % 2 ^ 11 = 1 := by
    rw [hpresent]
    rfl
  exact ofNat_rank_count _ _ _ hrank hcount

/-- The only member's arrival completes its phase, and the next one stands open (R312). -/
theorem settleHuddle_of_arrival {e : Huddle} {m : HMember} {inp : HInput} (n : Nat) (he : e.members = [m]) (hj : m.joined ≤ e.phase)
    (ha : m.arrived = some inp) (hl : m.leaving = false) (hg : m.gone = false) :
    settleHuddle (n + 1) e = (e.afterPhase m, [e.noticeTo m inp]) := by
  have hpresent := Huddle.present_of_alone he hj
  have hnext : e.next = (e.afterPhase m, [e.noticeTo m inp]) := by
    simp [Huddle.next, hpresent, he, hl, hg, hj, Huddle.afterPhase, Huddle.noticeTo, ha]
  have hopen : settleHuddle n (e.afterPhase m) = (e.afterPhase m, []) :=
    settleHuddle_of_open (m := { m with arrived := none, next := e.phase + 1 }) n (by simp [Huddle.afterPhase]) (Nat.le_succ_of_le hj)
      rfl hg
  simp [settleHuddle, he, hpresent, ha, hnext, hopen]

/-- A phase whose only member goes leaves an entry without members, and no notice (R314, R317). -/
theorem settleHuddle_of_last {e : Huddle} {m : HMember} (n : Nat) (he : e.members = [m]) (hj : m.joined ≤ e.phase)
    (ha : m.arrived.isSome = true) (hl : m.leaving = true ∨ m.gone = true) :
    settleHuddle (n + 1) e = ({ e with phase := e.phase + 1, dep := 0, members := [] }, []) := by
  have hpresent := Huddle.present_of_alone he hj
  obtain ⟨inp, hinp⟩ := Option.isSome_iff_exists.mp ha
  have hnext : e.next = ({ e with phase := e.phase + 1, dep := 0, members := [] }, []) := by
    have hkeep : (!m.leaving && !m.gone) = false := by rcases hl with h | h <;> simp [h]
    have hlt : ¬ e.phase < m.joined := Nat.not_lt.mpr hj
    have hgo : m.gone = false → m.leaving = true := by rcases hl with h | h <;> simp [h]
    simpa [Huddle.next, hpresent, he, hinp, hkeep, hlt] using hgo
  simp [settleHuddle, he, hpresent, ha, hnext, settleHuddle_of_empty]

section Entries

variable {s : State} {e f : Huddle}

theorem State.entryOf_key {root : Nat} {name : Word} (h : s.entryOf root name = some e) : e.root = root ∧ e.name = name := by
  simpa using List.find?_some h

/-- An entry that keeps a member stands in the place of its name. -/
theorem State.setEntry_of_member (h : e.members ≠ []) :
    s.setEntry e = { s with huddles := updKey (fun g : Huddle => g.root == e.root && g.name == e.name) e s.huddles } := by
  unfold State.setEntry
  exact if_neg (by simpa using h)

theorem State.setEntry_of_empty (h : e.members = []) :
    s.setEntry e = { s with huddles := s.huddles.filter (fun g => !(g.root == e.root && g.name == e.name)) } := by
  unfold State.setEntry
  exact if_pos (by simp [h])

theorem State.settleEntry_eq {ns : List HNote} (h : settleHuddle 3 e = (f, ns)) :
    s.settleEntry e = { s.setEntry f with hnotes := (s.setEntry f).hnotes ++ ns } := by
  unfold State.settleEntry
  rw [h]

/-- An entry whose phase stands open is put back as it is. -/
theorem State.settleEntry_of_open {m : HMember} (hm : m ∈ e.members) (hj : m.joined ≤ e.phase) (ha : m.arrived = none)
    (hg : m.gone = false) :
    s.settleEntry e = { s with huddles := updKey (fun g : Huddle => g.root == e.root && g.name == e.name) e s.huddles } := by
  rw [State.settleEntry_eq (settleHuddle_of_open 3 hm hj ha hg), State.setEntry_of_member (List.ne_nil_of_mem hm), List.append_nil]

theorem entryOf_updKey {root : Nat} {name : Word} {hs : List Huddle} (t : State) (hk : e.root = root ∧ e.name = name)
    (ht : t.huddles = updKey (fun g : Huddle => g.root == e.root && g.name == e.name) e hs) : t.entryOf root name = some e := by
  obtain ⟨rfl, rfl⟩ := hk
  unfold State.entryOf
  rw [ht]
  exact find_updKey_same _ _ (by simp) _

/-- The only entry's last member takes the entry with it (R310). -/
theorem State.settleEntry_of_last {m : HMember} (hs : s.huddles = [f]) (hk : f.root = e.root ∧ f.name = e.name) (he : e.members = [m])
    (hj : m.joined ≤ e.phase) (ha : m.arrived.isSome = true) (hl : m.leaving = true ∨ m.gone = true) :
    s.settleEntry e = { s with huddles := [] } := by
  rw [State.settleEntry_eq (settleHuddle_of_last 2 he hj ha hl), State.setEntry_of_empty rfl]
  simp [hs, hk]

theorem State.settleEntry_of_empty (hs : s.huddles = [f]) (hk : f.root = e.root ∧ f.name = e.name) (he : e.members = []) :
    s.settleEntry e = { s with huddles := [] } := by
  rw [State.settleEntry_eq (settleHuddle_of_empty 3 he), State.setEntry_of_empty he]
  simp [hs, hk]

end Entries

/-- The only member's arrival completes the phase of the only entry, and its notice leaves (R312, R320). -/
theorem State.settleEntry_of_arrival {s : State} {e f : Huddle} {m : HMember} {inp : HInput} (hs : s.huddles = [f])
    (hk : f.root = e.root ∧ f.name = e.name) (he : e.members = [m]) (hj : m.joined ≤ e.phase) (ha : m.arrived = some inp)
    (hl : m.leaving = false) (hg : m.gone = false) :
    s.settleEntry e = { s with huddles := [e.afterPhase m], hnotes := s.hnotes ++ [e.noticeTo m inp] } := by
  rw [State.settleEntry_eq (settleHuddle_of_arrival 2 he hj ha hl hg), State.setEntry_of_member (by simp [Huddle.afterPhase])]
  simp [hs, hk, updKey, Huddle.afterPhase]

/-! ### Requests at the home -/

/-- A member that a change of another thread's membership leaves as it is. -/
theorem Huddle.mem_updMember_of_other {e : Huddle} {m : HMember} {ctx thread : Nat} (f : HMember → HMember) (hm : m ∈ e.members)
    (h : ¬(m.ctx = ctx ∧ m.thread = thread)) : m ∈ (e.updMember ctx thread f).members := by
  refine List.mem_map.mpr ⟨m, hm, if_neg ?_⟩
  simp only [Bool.and_eq_true, beq_iff_eq]
  exact fun h' => h h'.1.1

theorem Huddle.updMember_of_alone {e : Huddle} {m : HMember} {ctx thread : Nat} (f : HMember → HMember) (he : e.members = [m])
    (hc : m.ctx = ctx) (ht : m.thread = thread) (hl : m.leaving = false) (hg : m.gone = false) :
    e.updMember ctx thread f = { e with members := [f m] } := by
  simp [Huddle.updMember, he, hc, ht, hl, hg]

section Requests

variable {s : State} {k : Nat} {r : HReq} {e : Huddle}

theorem exec_huddleArrivalHandled_of_ready {inp : HInput} (hr : s.hreqs[k]? = some r) (hk : r.kind = .arrive inp)
    (hready : s.hreqReady k r = true) (he : s.entryOf r.root r.name = some e) :
    ∃ cs, exec (.huddleArrivalHandled k) s = .next (State.settleEntry
      { s with hreqs := s.hreqs.take k ++ s.hreqs.drop (k + 1), counters := cs }
      (e.updMember r.ctx r.thread (fun m => { m with arrived := some inp }))) := by
  obtain ⟨cs, hcs⟩ := (s.dropHreq k).count_eq r.ctx 0 0xC5 1
  refine ⟨cs, ?_⟩
  have hent : (State.entryOf { s.dropHreq k with counters := cs } r.root r.name) = some e := he
  change execHuddleArrivalHandled k s = _
  unfold execHuddleArrivalHandled
  simp only [hr, hk, hready, Bool.not_true, Bool.false_eq_true, if_false, hcs, hent]
  rfl

theorem exec_huddleLeaveHandled_of_ready (hr : s.hreqs[k]? = some r) (hk : r.kind = .leave)
    (hready : s.hreqReady k r = true) (he : s.entryOf r.root r.name = some e) :
    exec (.huddleLeaveHandled k) s = .next (State.settleEntry { s with hreqs := s.hreqs.take k ++ s.hreqs.drop (k + 1) }
      (e.updMember r.ctx r.thread (fun m => { m with leaving := true, arrived := some (m.arrived.getD { tag := 0, val := 0 }) }))) := by
  have hent : (s.dropHreq k).entryOf r.root r.name = some e := he
  change execHuddleLeaveHandled k s = _
  unfold execHuddleLeaveHandled
  simp only [hr, hk, hready, Bool.not_true, Bool.false_eq_true, if_false, hent]
  rfl

theorem exec_huddleJoinHandled_of_ready {ex : Bool} (hr : s.hreqs[k]? = some r) (hk : r.kind = .join ex)
    (hready : s.hreqReady k r = true) :
    exec (.huddleJoinHandled k) s =
      let t : State := { s with hreqs := s.hreqs.take k ++ s.hreqs.drop (k + 1),
                                hnotes := s.hnotes ++ [r.reply (BitVec.ofNat 64 (s.joinStatus r ex))] }
      if s.joinStatus r ex ≠ 0 then .next t
      else match s.entryOf r.root r.name with
        | some h => .next (t.settleEntry { h with members := h.members ++ [r.member (h.phase + 1)] })
        | none => .next (t.setEntry { root := r.root, name := r.name, home := s.huddleHome r.root r.name, phase := 0,
                                      charged := r.ctx, dep := 0, members := [r.member 0] }) := by
  change execHuddleJoinHandled k s = _
  unfold execHuddleJoinHandled
  simp only [hr, hk, hready, Bool.not_true, Bool.false_eq_true, if_false]
  rfl

theorem exec_hinfoHandled_of_ready {d : Reg5} {h : Nat} {hd : Handle} (hr : s.hreqs[k]? = some r) (hready : s.hreqReady k r = true)
    (hk : r.kind = .info) (hw : (s.slotAt r.slot).wait = some (.hinfo d h)) (hh : (s.slotAt r.slot).handle h = some hd)
    (he : s.entryOf r.root r.name = some e) :
    exec (.hinfoHandled k) s = .next { s with
      hreqs := s.hreqs.take k ++ s.hreqs.drop (k + 1), hnotes := s.hnotes ++ [r.reply (hinfoWord e hd r.ctx r.thread)] } := by
  change execHinfoHandled k s = _
  unfold execHinfoHandled
  simp only [hr, hk, hw, hready, he, hh, Bool.not_true, Bool.false_eq_true, if_false]
  rfl

/-- Table 20-2 has six statuses. -/
theorem State.joinStatus_le (s : State) (r : HReq) (ex : Bool) : s.joinStatus r ex ≤ 5 := by
  unfold State.joinStatus
  dsimp only
  split
  · split
    · omega
    · split
      · omega
      · split <;> omega
  · split
    · omega
    · split <;> split <;> omega

end Requests

/-! ### Notices -/

theorem exec_huddleNoticeArrival_of_own {s : State} {slot : Nat} {n : HNote} (hn : s.hnotes.find? (fun n => n.slot == slot) = some n)
    (ho : (s.slotAt slot).owner = some n.ctx) (ht : (s.slotAt slot).thread = n.thread) :
    exec (.huddleNoticeArrival slot) s = .next (State.setSlot
      { s with hnotes := dropFirst (fun m => m.slot == slot) s.hnotes } ((s.slotAt slot).takeNote n)) := by
  have hmine : ((s.slotAt slot).owner == some n.ctx && (s.slotAt slot).thread == n.thread) = true := by
    rw [ho, ht]
    simp
  change execHuddleNoticeArrival slot s = _
  unfold execHuddleNoticeArrival
  simp only [hn]
  exact if_pos hmine

/-! ### Handles and arrivals -/

/-- A read of a source keeps the handles, the thread's number and its beats. -/
theorem Slot.readReg_keeps_handles {c d : Slot} {r : Reg5} {w : Word} (h : c.readReg r = some (w, d)) :
    d.handles = c.handles ∧ d.decl = c.decl ∧ d.thread = c.thread ∧ d.busy = c.busy := by
  unfold Slot.readReg at h
  split at h
  · cases h; simp
  · unfold Slot.popQueue at h
    split at h
    case h_6 => cases h; simp
    all_goals (split at h <;> cases h; simp)

theorem Slot.handle_congr {c d : Slot} (hh : d.handles = c.handles) (hd : d.decl = c.decl) (h : Nat) : d.handle h = c.handle h := by
  unfold Slot.handle
  rw [hh, hd]

/-- A handle register that the kernel declares reads what was put into it. -/
theorem Slot.handle_of_set {c : Slot} {hs : Vector (Option Handle) 4} {h : Nat} {v : Option Handle} (hd : h < c.decl.huddles)
    (h4 : h < 4) (hc : c.handles = hs.setIfInBounds h v) : c.handle h = v := by
  simp [Slot.handle, hd, hc, h4]

theorem Slot.declared_of_handle {c : Slot} {h : Nat} {x : Handle} (hh : c.handle h = some x) : h < c.decl.huddles := by
  refine Classical.byContradiction fun hn => ?_
  simp [Slot.handle, hn] at hh

/-- The thread after its arrival was sent: it waits for the phase, or goes on (R323). -/
def Slot.arriving (c : Slot) (d : Reg5) (h : Nat) (x : Handle) (inp : HInput) (wait : Bool) (mark : Nat) : Slot :=
  let c := (c.release .dev mark).setHandle h (some { x with due := none })
  if wait then { c with wait := some (.hphase d h (inp.tag != 0)), status := (Wait.hphase d h (inp.tag != 0)).status }
  else { c with pc := c.npc }

/-- A request of a slot to a huddle. -/
def State.huddleReq (s : State) (c : Slot) (name : Word) (kind : HReqKind) : HReq :=
  { root := s.rootOf c, name := name, ctx := c.owner.getD 0, thread := c.thread, slot := c.phys, seq := s.seq, kind := kind }

theorem sendArrival_eq (s : State) (c : Slot) (d : Reg5) (h : Nat) (x : Handle) (inp : HInput) (wait : Bool) :
    ∃ units pubs, sendArrival s c d h x inp wait = .next { s with
      matrix := units, pubs := pubs, hreqs := s.hreqs ++ [s.huddleReq c x.name (.arrive inp)],
      cur := c.arriving d h x inp wait s.seq } := by
  obtain ⟨units, pubs, hpub⟩ := publish_eq s c .dev
  refine ⟨units, pubs, ?_⟩
  unfold sendArrival released
  rw [hpub]
  cases wait <;> rfl

/-! ### The phase of a lone member -/

theorem rootOf_of_ctx {s : State} {c : Slot} {x : Ctx} (hx : s.ctxOf s.cur = some x) (ho : c.owner = s.cur.owner) :
    s.rootOf c = x.root := by
  have hc : s.ctxOf c = some x := by
    unfold State.ctxOf at hx ⊢
    rwa [ho]
  unfold State.rootOf
  rw [hc]
  rfl

theorem owner_of_ctxOf {s : State} {c : Slot} {x : Ctx} (hx : s.ctxOf c = some x) : c.owner = some x.id := by
  unfold State.ctxOf at hx
  split at hx
  · next id ho => rw [ho, State.ctxAt_id hx]
  · exact absurd hx (by simp)

/-- With no request and no notice under way, and the only member not arrived, no arrival is outstanding (R315). -/
theorem State.arrivalOutstanding_of_quiet {s : State} {e : Huddle} {m : HMember} (hr : s.hreqs = []) (hn : s.hnotes = [])
    (hs : s.huddles = [e]) (he : e.members = [m]) (ha : m.arrived = none) (c : Slot) (name : Word) :
    s.arrivalOutstanding c name = false := by
  simp [State.arrivalOutstanding, hr, hn, hs, he, ha]

theorem State.entryOf_of_only {s : State} {e : Huddle} {root : Nat} {name : Word} (hs : s.huddles = [e]) (hr : e.root = root)
    (hn : e.name = name) : s.entryOf root name = some e := by
  simp [State.entryOf, hs, hr, hn]

theorem Slot.takeNote_phys (c : Slot) (n : HNote) : (c.takeNote n).phys = c.phys := by
  unfold Slot.takeNote
  split
  · split <;> rfl
  · rfl
  · split
    · split <;> rfl
    · rfl
  · rfl
  · rfl

/-- The only notice under way reaches the current thread, for which it is meant (R320). -/
theorem exec_huddleNoticeArrival_of_only {s : State} {n : HNote} {slot : Nat} (hn : s.hnotes = [n]) (hp : s.cur.phys = slot)
    (hslot : n.slot = slot) (ho : s.cur.owner = some n.ctx) (ht : s.cur.thread = n.thread) :
    exec (.huddleNoticeArrival slot) s = .next { s with hnotes := [], cur := s.cur.takeNote n } := by
  have hfind : s.hnotes.find? (fun n => n.slot == slot) = some n := by simp [hn, hslot]
  have hdrop : dropFirst (fun m => m.slot == slot) s.hnotes = [] := by simp [hn, hslot, dropFirst]
  have hcur : s.slotAt slot = s.cur := hp ▸ State.slotAt_cur s
  rw [exec_huddleNoticeArrival_of_own hfind (by rw [hcur]; exact ho) (by rw [hcur]; exact ht), hcur, hdrop]
  exact congrArg Host.Outcome.next (State.setSlot_cur (s.cur.takeNote_phys n).symm)

section Alone

variable {s : State} {e : Huddle} {m : HMember} {r : HReq} {inp : HInput}

/-- The arrival of a lone member is counted, completes its phase, and the notice comes back (R312, R320). -/
theorem runs_arrival_notice (hreqs : s.hreqs = [r]) (hk : r.kind = .arrive inp) (hpend : s.earlierPending r.slot r.seq = false)
    (hnotes : s.hnotes = []) (hs : s.huddles = [e]) (hkey : e.root = r.root ∧ e.name = r.name) (hm : e.members = [m])
    (hctx : m.ctx = r.ctx) (hthread : m.thread = r.thread) {slot : Nat} (hp : s.cur.phys = slot) (hslot : m.slot = slot) (hj : m.joined ≤ e.phase)
    (hl : m.leaving = false) (hg : m.gone = false) (ho : s.cur.owner = some m.ctx) (ht : s.cur.thread = m.thread) :
    ∃ t, Runs [.huddleArrivalHandled 0, .huddleNoticeArrival slot] s t ∧ t.cur = s.cur.takeNote (e.noticeTo m inp) ∧
      t.huddles = [e.afterPhase m] ∧ t.mem = s.mem ∧ t.hreqs = [] ∧ t.hnotes = [] := by
  obtain ⟨cs, hhandled⟩ := exec_huddleArrivalHandled_of_ready (k := 0) (by rw [hreqs]; rfl) hk (by simp [State.hreqReady, hk, hpend])
    (State.entryOf_of_only hs hkey.1 hkey.2)
  rw [Huddle.updMember_of_alone _ hm hctx hthread hl hg] at hhandled
  have hhandled := hhandled.trans (congrArg Host.Outcome.next (State.settleEntry_of_arrival (f := e) hs ⟨rfl, rfl⟩ rfl hj rfl hl hg))
  rw [hreqs, hnotes] at hhandled
  refine ⟨_, ⟨_, hhandled, _, exec_huddleNoticeArrival_of_only rfl hp hslot ho ht, rfl⟩, rfl, rfl, rfl, rfl, rfl⟩

end Alone

/-! ### Instructions of a lone member -/

theorem runs_snoc {is : List Instr} {j : Instr} {s t u : State} (h : Runs is s t) (hj : exec j t = .next u) : Runs (is ++ [j]) s u := by
  induction is generalizing s with
  | nil => exact ⟨u, by rw [h]; exact hj, rfl⟩
  | cons i is ih =>
    obtain ⟨v, hv, hrest⟩ := h
    exact ⟨v, hv, ih hrest⟩

theorem Slot.takeNote_of_phase {c : Slot} {d : Reg5} {h : Nat} {fl : Bool} {x : Handle} {n : HNote}
    (hw : c.wait = some (.hphase d h fl)) (hr : n.reply = false) (hh : c.handle h = some x) (hn : x.name = n.name) :
    c.takeNote n = c.waitFor (.doneWith d n.value (.phase n.flags h (some { x with short := n.short, dep := n.dep, due := none }))) := by
  unfold Slot.takeNote
  rw [hr, hw]
  simp only [hh, hn, beq_self_eq_true, if_true]

/-- A notice that finds no wait stands with its handle. -/
theorem Slot.takeNote_of_running {c : Slot} {n : HNote} (hw : c.wait = none) (hr : n.reply = false) : c.takeNote n = c.noteDue n := by
  unfold Slot.takeNote
  rw [hr, hw]

theorem Slot.handle_noteDue {c : Slot} {h : Nat} {x : Handle} {n : HNote} (hh : c.handle h = some x) (hn : x.name = n.name) :
    (c.noteDue n).handle h = some { x with due := some (n.short, n.dep) } := by
  have hdecl := Slot.declared_of_handle hh
  simp only [Slot.handle, if_pos hdecl] at hh
  simp only [Slot.handle, Slot.noteDue, if_pos hdecl, Vector.getElem?_map]
  cases hg : c.handles[h]? with
  | none => simp [hg] at hh
  | some y =>
    simp only [hg, Option.getD_some] at hh
    simp [hh, hn]

theorem Slot.setReg_regs_congr {c c' : Slot} (h : c.regs = c'.regs) (n : Nat) (w : Word) :
    (c.setReg n w).regs = (c'.setReg n w).regs := by
  unfold Slot.setReg
  split <;> simp [h]

/-- A thread whose phase has completed goes on with the result and its handle. -/
theorem exec_threadRejoin_phase {s : State} {slot : Nat} {d : Reg5} {v : Word} {fl : BitVec 5} {h : Nat} {x : Option Handle}
    (hp : s.cur.phys = slot) (hw : s.cur.wait = some (.doneWith d v (.phase fl h x)))
    (hs : s.cur.status = .waitMem ∨ s.cur.status = .waitMsg) (hb : s.cur.busy = 0) (hd : d.toNat < 24) :
    ∃ t, exec (.threadRejoin slot) s = .next t ∧ t.cur.pc = s.cur.pc + 4 ∧ t.cur.regs = (s.cur.setReg d.toNat v).regs ∧
      t.cur.handles = s.cur.handles.setIfInBounds h x ∧ t.cur.decl = s.cur.decl ∧ t.huddles = s.huddles ∧ t.mem = s.mem := by
  subst hp
  refine ⟨_, exec_threadRejoin_of_rejoin hw hs hb (if_pos hd) (by simp [Slot.after, Slot.ready, Slot.raise]), rfl,
    Slot.setReg_regs_congr (c := s.cur.ready.after (.phase fl h x)) (c' := s.cur) rfl _ _, ?_, ?_, rfl, rfl⟩
  · simp [Slot.after, Slot.ready, Slot.raise]
  · simp [Slot.after, Slot.ready, Slot.raise]

theorem withHandle_of_handle {s : State} {h : BitVec 2} {x : Handle} (k : Handle → Out) (hh : s.cur.handle h.toNat = some x) :
    withHandle s h k = k x := by
  unfold withHandle
  rw [hh]

theorem voteInput_eq (sel : VoteSel) (v : Word) : ({ tag := voteTag sel, val := inputOf (voteTag sel) v } : HInput) = voteInput sel v := by
  cases sel <;> simp [voteTag, inputOf, voteInput, truth]

theorem redInput_eq (sel : RedSel) (v : Word) : ({ tag := redTag sel, val := inputOf (redTag sel) v } : HInput) = redInput sel v := by
  have hcut : (v.setWidth 32).setWidth 64 = BitVec.ofNat 64 (v.toNat % 2 ^ 32) := by
    apply BitVec.eq_of_toNat_eq
    simp
  cases sel <;> simp [redTag, inputOf, redInput, hcut]

/-- The four kinds of arrival send their input or wait for the last arrival (R315, R318, R323). -/
theorem exec_eq_arrive {i : Instr} {s : State} {c : Slot} {d : Reg5} {h : BitVec 2} {inp : HInput} {wait : Bool} {hd : Handle}
    (ha : Arrives i s c d h inp wait) (hh : s.cur.handle h.toNat = some hd) (hd24 : d.toNat < 24) :
    exec i s = arrive s c d h.toNat hd inp wait := by
  cases ha with
  | hbar _ _ => exact withHandle_of_handle _ hh
  | harrv _ _ => exact withHandle_of_handle _ hh
  | hvote _ _ sel _ _ v _ hr =>
    rw [← voteInput_eq]
    exact (withHandle_of_handle _ hh).trans ((withSrc1_of_read _ hr).trans (withDest_reg _ _ _ hd24))
  | hred _ _ sel _ _ v _ hr =>
    rw [← redInput_eq]
    exact (withHandle_of_handle _ hh).trans ((withSrc1_of_read _ hr).trans (withDest_reg _ _ _ hd24))

/-- What an arrival's sources keep of its thread. -/
theorem Arrives.keeps {i : Instr} {s : State} {c : Slot} {d : Reg5} {h : BitVec 2} {inp : HInput} {wait : Bool}
    (ha : Arrives i s c d h inp wait) : c.owner = s.cur.owner ∧ c.thread = s.cur.thread ∧ c.phys = s.cur.phys ∧
      c.busy = s.cur.busy ∧ c.decl = s.cur.decl ∧ c.pc = s.cur.pc ∧ c.regs = s.cur.regs := by
  have hread : ∀ {a : Reg5} {v : Word}, s.cur.readReg a = some (v, c) → c.owner = s.cur.owner ∧ c.thread = s.cur.thread ∧
      c.phys = s.cur.phys ∧ c.busy = s.cur.busy ∧ c.decl = s.cur.decl ∧ c.pc = s.cur.pc ∧ c.regs = s.cur.regs := by
    intro a v hr
    obtain ⟨hpc, hregs, -, -, -, -, hphys, howner, -, -⟩ := Slot.readReg_keeps hr
    obtain ⟨-, hdecl, hthread, hbusy⟩ := Slot.readReg_keeps_handles hr
    exact ⟨howner, hthread, hphys, hbusy, hdecl, hpc, hregs⟩
  cases ha with
  | hbar _ _ => exact ⟨rfl, rfl, rfl, rfl, rfl, rfl, rfl⟩
  | harrv _ _ => exact ⟨rfl, rfl, rfl, rfl, rfl, rfl, rfl⟩
  | hvote _ _ _ _ _ _ _ hr => exact hread hr
  | hred _ _ _ _ _ _ _ hr => exact hread hr

theorem arrive_of_none {s : State} {c : Slot} {x : Handle} (d : Reg5) (h : Nat) (inp : HInput) (wait : Bool)
    (ho : s.arrivalOutstanding c x.name = false) : arrive s c d h x inp wait = sendArrival s c.ready d h x inp wait := by
  unfold arrive
  rw [if_neg (by simp [ho])]

theorem arrive_of_outstanding {s : State} {c : Slot} {x : Handle} (d : Reg5) (h : Nat) (inp : HInput) (wait : Bool)
    (ho : s.arrivalOutstanding c x.name = true) : arrive s c d h x inp wait = waitOn s c (.harrive d h inp wait) :=
  if_pos ho

/-- The result of one member's input is that input (R318). -/
theorem Votes.arrives {i : Instr} {d a : Reg5} {h : BitVec 2} {f : Word → Word} {s : State} {v : Word} {c : Slot}
    (hv : Votes i d a h f) (hr : s.cur.readReg a = some (v, c)) :
    ∃ inp, Arrives i s c d h inp true ∧ (combine inp.tag [inp.val]).1 = f v := by
  cases hv with
  | hvoteAny _ _ _ => exact ⟨_, .hvote _ _ _ _ _ _ _ hr, by by_cases h0 : v = 0 <;> simp [voteInput, combine, truth, h0]⟩
  | hvoteAll _ _ _ => exact ⟨_, .hvote _ _ _ _ _ _ _ hr, by by_cases h0 : v = 0 <;> simp [voteInput, combine, truth, h0]⟩
  | hvoteEq _ _ _ => exact ⟨_, .hvote _ _ _ _ _ _ _ hr, by simp [voteInput, combine]⟩
  | addI64 _ _ _ => exact ⟨_, .hred _ _ _ _ _ _ _ hr, by simp [redInput, combine]⟩
  | minI64 _ _ _ => exact ⟨_, .hred _ _ _ _ _ _ _ hr, by simp [redInput, combine]⟩
  | maxI64 _ _ _ => exact ⟨_, .hred _ _ _ _ _ _ _ hr, by simp [redInput, combine]⟩
  | addF32 _ _ _ => exact ⟨_, .hred _ _ _ _ _ _ _ hr, by simp [redInput, combine]⟩

section Instructions

variable {s : State} {x : Ctx} {e : Huddle} {m : HMember} {hd : Handle} {c : Slot} {h : Nat}

/-- The arrival of a lone member is sent and counted, and its notice stands with the thread. -/
theorem runs_sendArrival {i : Instr} {d : Reg5} {inp : HInput} {wait : Bool} (hi : exec i s = sendArrival s c d h hd inp wait)
    (hx : s.ctxOf s.cur = some x) (halone : AloneIn s x hd.name e m) (hq : Quiet s)
    (ho : c.owner = s.cur.owner) (ht : c.thread = s.cur.thread) (hp : c.phys = s.cur.phys) :
    ∃ t, Runs [i, .huddleArrivalHandled 0, .huddleNoticeArrival s.cur.phys] s t ∧
      t.cur = (c.arriving d h hd inp wait s.seq).takeNote (e.noticeTo m inp) ∧ t.huddles = [e.afterPhase m] ∧ t.mem = s.mem ∧
      t.hreqs = [] ∧ t.hnotes = [] := by
  obtain ⟨hs, hroot, hname, hmem, hctx, hthread, hslot, hj, -, hl, hg⟩ := halone
  obtain ⟨hreqs, hnotes, hpend, -⟩ := hq
  obtain ⟨units, pubs, hsend⟩ := sendArrival_eq s c d h hd inp wait
  have hown := owner_of_ctxOf hx
  have hrctx : c.owner.getD 0 = m.ctx := by
    rw [ho, hown, hctx]
    rfl
  have hphys : (c.arriving d h hd inp wait s.seq).phys = s.cur.phys := by cases wait <;> exact hp
  have howner : (c.arriving d h hd inp wait s.seq).owner = some m.ctx := by
    rw [hctx, ← hown, ← ho]
    cases wait <;> rfl
  have hthr : (c.arriving d h hd inp wait s.seq).thread = m.thread := by
    rw [hthread, ← ht]
    cases wait <;> rfl
  obtain ⟨t, hruns, ht⟩ := runs_arrival_notice
    (s := { s with matrix := units, pubs := pubs, hreqs := s.hreqs ++ [s.huddleReq c hd.name (.arrive inp)],
                   cur := c.arriving d h hd inp wait s.seq }) (inp := inp)
    (by rw [hreqs]; rfl) rfl (by rw [← hp] at hpend; exact hpend) hnotes hs ⟨hroot.trans (rootOf_of_ctx hx ho).symm, hname⟩ hmem
    hrctx.symm (hthread.trans ht.symm) hphys hslot hj hl hg howner hthr
  exact ⟨t, ⟨_, hi.trans hsend, hruns⟩, ht⟩

/-- An arrival of a lone member that waits takes the phase's result and its SHORT and DEP (R318, R323). -/
theorem runs_arrival_rejoin {i : Instr} {d : Reg5} {inp : HInput} (hi : exec i s = sendArrival s c d h hd inp true)
    (hx : s.ctxOf s.cur = some x) (halone : AloneIn s x hd.name e m) (hq : Quiet s) (h4 : h < 4) (hdecl : h < c.decl.huddles)
    (ho : c.owner = s.cur.owner) (ht : c.thread = s.cur.thread) (hp : c.phys = s.cur.phys) (hb : c.busy = s.cur.busy)
    (hd24 : d.toNat < 24) :
    ∃ t, Runs [i, .huddleArrivalHandled 0, .huddleNoticeArrival s.cur.phys, .threadRejoin s.cur.phys] s t ∧
      t.cur.pc = c.pc + 4 ∧ t.cur.regs = (c.setReg d.toNat (combine inp.tag [inp.val]).1).regs ∧
      t.cur.handle h = some { hd with short := e.dep != 0, dep := e.dep, due := none } ∧ t.huddles = [e.afterPhase m] ∧
      t.mem = s.mem := by
  obtain ⟨t, hruns, hcur, hhud, hmem, -⟩ := runs_sendArrival hi hx halone hq ho ht hp
  obtain ⟨-, -, hname, -⟩ := halone
  have hwait := hcur.trans (Slot.takeNote_of_phase (n := e.noticeTo m inp) rfl rfl (Slot.handle_of_set hdecl h4 rfl) hname.symm)
  obtain ⟨u, hrejoin, hpc, hregs, hhandles, hdeclu, hhudu, hmemu⟩ := exec_threadRejoin_phase (s := t) (slot := s.cur.phys)
    (by rw [hwait]; exact hp) (by rw [hwait]; rfl) (.inr (by rw [hwait]; rfl)) (by rw [hwait]; exact hb.trans hq.2.2.2) hd24
  refine ⟨u, runs_snoc hruns hrejoin, ?_, ?_, ?_, hhudu.trans hhud, hmemu.trans hmem⟩
  · rw [hpc, hwait]; rfl
  · rw [hregs]
    exact Slot.setReg_regs_congr (by rw [hwait]; rfl) _ _
  · exact Slot.handle_of_set (by rw [hdeclu, hwait]; exact hdecl) h4 hhandles

/-- An arrival of a lone member finds none outstanding, and is sent. -/
theorem exec_eq_sendArrival_of_alone {i : Instr} {d : Reg5} {h : BitVec 2} {inp : HInput} {wait : Bool}
    (ha : Arrives i s c d h inp wait) (hh : s.cur.handle h.toNat = some hd) (hd24 : d.toNat < 24)
    (halone : AloneIn s x hd.name e m) (hq : Quiet s) : exec i s = sendArrival s c.ready d h.toNat hd inp wait := by
  obtain ⟨hs, -, -, hmem, -, -, -, -, harr, -, -⟩ := halone
  obtain ⟨hreqs, hnotes, -⟩ := hq
  exact (exec_eq_arrive ha hh hd24).trans (arrive_of_none _ _ _ _
    (State.arrivalOutstanding_of_quiet hreqs hnotes hs hmem harr c hd.name))

/-- HBAR, HVOTE and HRED of a lone member (R318, R323). -/
theorem runs_waiting_arrival {i : Instr} {d : Reg5} {h : BitVec 2} {inp : HInput} (ha : Arrives i s c d h inp true)
    (hh : s.cur.handle h.toNat = some hd) (hd24 : d.toNat < 24) (hx : s.ctxOf s.cur = some x)
    (halone : AloneIn s x hd.name e m) (hq : Quiet s) :
    ∃ t, Runs [i, .huddleArrivalHandled 0, .huddleNoticeArrival s.cur.phys, .threadRejoin s.cur.phys] s t ∧
      t.cur.pc = s.cur.pc + 4 ∧ t.cur.regs = (s.cur.setReg d.toNat (combine inp.tag [inp.val]).1).regs ∧
      t.cur.handle h.toNat = some { hd with short := e.dep != 0, dep := e.dep, due := none } ∧
      t.huddles = [e.afterPhase m] ∧ t.mem = s.mem := by
  obtain ⟨howner, hthread, hphys, hbusy, hdecl, hpc, hregs⟩ := ha.keeps
  obtain ⟨t, hruns, hpct, hregst, hrest⟩ := runs_arrival_rejoin (exec_eq_sendArrival_of_alone ha hh hd24 halone hq) hx halone hq
    h.isLt (by change _ < c.decl.huddles; rw [hdecl]; exact Slot.declared_of_handle hh) howner hthread hphys hbusy hd24
  refine ⟨t, hruns, hpct.trans (congrArg (· + 4) hpc), hregst.trans (Slot.setReg_regs_congr (c := c.ready) hregs _ _), hrest⟩

/-- HARRV and HWAIT of a lone member: the wait takes the completion (R323). -/
theorem runs_harrv_hwait {h : BitVec 2} (hh : s.cur.handle h.toNat = some hd) (hx : s.ctxOf s.cur = some x)
    (halone : AloneIn s x hd.name e m) (hq : Quiet s) :
    ∃ t, Runs [.harrv h, .huddleArrivalHandled 0, .huddleNoticeArrival s.cur.phys, .hwait h] s t ∧
      t.cur.pc = s.cur.pc + 8 ∧ t.cur.regs = s.cur.regs ∧
      t.cur.handle h.toNat = some { hd with short := e.dep != 0, dep := e.dep, due := none } ∧
      t.huddles = [e.afterPhase m] ∧ t.mem = s.mem := by
  have hdecl := Slot.declared_of_handle hh
  obtain ⟨t, hruns, hcur, hhud, hmem, hreqs, hnotes⟩ := runs_sendArrival
    (exec_eq_sendArrival_of_alone (.harrv h s) hh (by simp) halone hq) hx halone hq rfl rfl rfl
  obtain ⟨-, -, hname, -⟩ := halone
  have hnote := hcur.trans (Slot.takeNote_of_running (n := e.noticeTo m _) rfl rfl)
  have hht : t.cur.handle h.toNat = some { hd with due := some (e.dep != 0, e.dep) } := by
    rw [hnote]
    exact Slot.handle_noteDue (x := { hd with due := none }) (Slot.handle_of_set hdecl h.isLt rfl) hname.symm
  have hout := State.arrivalOutstanding_of_quiet (m := { m with arrived := none, next := e.phase + 1 }) hreqs hnotes hhud rfl rfl t.cur
    hd.name
  have hwait : exec (.hwait h) t = .next { t with
      cur := { t.cur.setHandle h.toNat (some { hd with short := e.dep != 0, dep := e.dep, due := none }) with pc := t.cur.pc + 4 } } := by
    refine (withHandle_of_handle _ hht).trans ?_
    simp only [hout, Bool.false_eq_true, if_false]
    rfl
  refine ⟨_, runs_snoc hruns hwait, ?_, ?_, ?_, hhud, hmem⟩
  · have hpc : t.cur.pc = s.cur.pc + 4 := by rw [hnote]; rfl
    change t.cur.pc + 4 = s.cur.pc + 8
    rw [hpc, BitVec.add_assoc]
    rfl
  · change t.cur.regs = s.cur.regs
    rw [hnote]
    rfl
  · have hdeclt : t.cur.decl = s.cur.decl := by rw [hnote]; rfl
    rw [← hdeclt] at hdecl
    exact Slot.handle_of_set hdecl h.isLt rfl

/-- The home answers a request for the entry, and the answer reaches the thread (R324). -/
theorem runs_hinfo_answer {r : HReq} {d : Reg5} {slot : Nat} (hreqs : s.hreqs = [r]) (hk : r.kind = .info) (hslot : r.slot = slot)
    (hp : s.cur.phys = slot) (hnotes : s.hnotes = []) (hw : s.cur.wait = some (.hinfo d h)) (hh : s.cur.handle h = some hd)
    (he : s.entryOf r.root r.name = some e) (ho : s.cur.owner = some r.ctx) (ht : s.cur.thread = r.thread) :
    ∃ t, Runs [.hinfoHandled 0, .huddleNoticeArrival slot] s t ∧
      t.cur = s.cur.waitFor (.done d (hinfoWord e hd r.ctx r.thread)) ∧ t.huddles = s.huddles ∧ t.mem = s.mem := by
  have hcur : s.slotAt r.slot = s.cur := by
    rw [hslot, ← hp]
    exact s.slotAt_cur
  have hhandled := exec_hinfoHandled_of_ready (k := 0) (by rw [hreqs]; rfl) (by simp [State.hreqReady, hk]) hk (by rw [hcur]; exact hw)
    (by rw [hcur]; exact hh) he
  rw [hreqs, hnotes] at hhandled
  have htake : s.cur.takeNote (r.reply (hinfoWord e hd r.ctx r.thread)) = s.cur.waitFor (.done d (hinfoWord e hd r.ctx r.thread)) := by
    unfold Slot.takeNote
    rw [hw]
    rfl
  exact ⟨_, ⟨_, hhandled, _, exec_huddleNoticeArrival_of_only rfl hp hslot ho ht, rfl⟩, htake, rfl, rfl⟩

/-- HINFO reports the entry of a lone member: its phase, the handle's SHORT and DEP, rank 0 of 1 (R324). -/
theorem runs_hinfo {h : BitVec 2} {d : Reg5} (hh : s.cur.handle h.toNat = some hd) (hd24 : d.toNat < 24)
    (hx : s.ctxOf s.cur = some x) (halone : AloneIn s x hd.name e m) (hq : Quiet s) :
    ∃ t, Runs [.hinfo d h, .hinfoHandled 0, .huddleNoticeArrival s.cur.phys, .threadRejoin s.cur.phys] s t ∧
      t.cur.pc = s.cur.pc + 4 ∧ t.huddles = s.huddles ∧ t.mem = s.mem ∧
      (0 < d.toNat → t.cur.reg d.toNat = hinfoWord e hd x.id s.cur.thread) := by
  obtain ⟨hs, hroot, hname, -⟩ := halone
  obtain ⟨hreqs, hnotes, -, hbusy⟩ := hq
  have hown := owner_of_ctxOf hx
  have hctx : s.cur.owner.getD 0 = x.id := by
    rw [hown]
    rfl
  have hsend : exec (.hinfo d h) s = .next { waiting s s.cur (.hinfo d h.toNat) with
      hreqs := s.hreqs ++ [s.huddleReq s.cur hd.name .info] } :=
    (withHandle_of_handle _ hh).trans (withDest_reg _ _ _ hd24)
  obtain ⟨t, hruns, hcur, hhud, hmem⟩ := runs_hinfo_answer (r := s.huddleReq s.cur hd.name .info) (d := d) (slot := s.cur.phys)
    (s := { waiting s s.cur (.hinfo d h.toNat) with hreqs := s.hreqs ++ [s.huddleReq s.cur hd.name .info] })
    (by rw [hreqs]; rfl) rfl rfl rfl hnotes rfl hh (State.entryOf_of_only hs (hroot.trans (rootOf_of_ctx hx rfl).symm) hname)
    (hown.trans (congrArg some hctx.symm)) rfl
  have hpt : t.cur.phys = s.cur.phys := by rw [hcur]; rfl
  have hrejoin := exec_threadRejoin_done (s := t) (by rw [hcur]; rfl) (.inl (by rw [hcur]; rfl)) (by rw [hcur]; exact hbusy) hd24
  rw [hpt] at hrejoin
  refine ⟨_, runs_snoc (is := [.hinfo d h, .hinfoHandled 0, .huddleNoticeArrival s.cur.phys]) ⟨_, hsend, hruns⟩ hrejoin, ?_, hhud, hmem, fun h0 => ?_⟩
  · rw [hcur]
    rfl
  · rw [← hctx]
    exact Slot.reg_setReg_same _ _ (Nat.ne_of_gt h0) hd24

/-- HLEAVE of the last member: the handle is invalid at once, and the entry is freed (R310, R314). -/
theorem runs_hleave {h : BitVec 2} (hh : s.cur.handle h.toNat = some hd) (hx : s.ctxOf s.cur = some x)
    (halone : AloneIn s x hd.name e m) (hq : Quiet s) :
    ∃ t, Runs [.hleave h, .huddleLeaveHandled 0] s t ∧ t.cur.pc = s.cur.pc + 4 ∧ t.cur.regs = s.cur.regs ∧
      t.cur.handle h.toNat = none ∧ t.huddles = [] ∧ t.mem = s.mem := by
  obtain ⟨hs, hroot, hname, hmem, hctx, hthread, -, hj, -, hl, hg⟩ := halone
  obtain ⟨hreqs, -, hpend, -⟩ := hq
  have hdecl := Slot.declared_of_handle hh
  obtain ⟨units, pubs, hpub⟩ := publish_eq s s.cur .dev
  have hown := owner_of_ctxOf hx
  have hrctx : s.cur.owner.getD 0 = m.ctx := by
    rw [hown, hctx]
    rfl
  have hsend : exec (.hleave h) s = .next { s with
      matrix := units, pubs := pubs, hreqs := s.hreqs ++ [s.huddleReq s.cur hd.name .leave],
      cur := { (s.cur.release .dev s.seq).setHandle h.toNat none with pc := s.cur.pc + 4 } } := by
    refine (withHandle_of_handle _ hh).trans ?_
    unfold released
    rw [hpub]
    rfl
  have hhandled := exec_huddleLeaveHandled_of_ready (k := 0) (r := s.huddleReq s.cur hd.name .leave) (e := e)
    (s := { s with matrix := units, pubs := pubs, hreqs := s.hreqs ++ [s.huddleReq s.cur hd.name .leave],
                   cur := { (s.cur.release .dev s.seq).setHandle h.toNat none with pc := s.cur.pc + 4 } })
    (by rw [hreqs]; rfl) rfl (congrArg not hpend)
    (State.entryOf_of_only hs (hroot.trans (rootOf_of_ctx hx rfl).symm) hname)
  rw [Huddle.updMember_of_alone (ctx := (s.huddleReq s.cur hd.name .leave).ctx)
    (thread := (s.huddleReq s.cur hd.name .leave).thread) _ hmem hrctx.symm hthread hl hg] at hhandled
  have hfreed := hhandled.trans (congrArg Host.Outcome.next (State.settleEntry_of_last (f := e) hs ⟨rfl, rfl⟩ rfl hj rfl (.inl rfl)))
  exact ⟨_, ⟨_, hsend, _, hfreed, rfl⟩, rfl, rfl, Slot.handle_of_set hdecl h.isLt rfl, rfl, rfl⟩

end Instructions

/-! ### The obligations -/

/-- A request that leaves its phase open changes its member only. -/
theorem settle_updMember_open {s : State} {r : HReq} {e : Huddle} (f : HMember → HMember) (he : s.entryOf r.root r.name = some e)
    (hopen : StillOpen e r.ctx r.thread) :
    (s.settleEntry (e.updMember r.ctx r.thread f)).hnotes = s.hnotes ∧ (s.settleEntry (e.updMember r.ctx r.thread f)).hreqs = s.hreqs ∧
      (s.settleEntry (e.updMember r.ctx r.thread f)).entryOf r.root r.name = some (e.updMember r.ctx r.thread f) := by
  obtain ⟨m, hm, hj, ha, -, hg, hother⟩ := hopen
  have hkey := State.entryOf_key he
  rw [State.settleEntry_of_open (Huddle.mem_updMember_of_other f hm hother) hj ha hg]
  exact ⟨rfl, rfl, entryOf_updKey _ hkey rfl⟩

/-- Settles O27: the phases of a lone member by their runs, and each event of an entry. -/
theorem huddlePhasesComplete : Obligations.HuddlePhasesComplete := by
  unfold Obligations.HuddlePhasesComplete
  refine ⟨?_, ?_, ?_, ?_, ?_⟩
  · intro s x h hd e m hx hh halone hq
    have hafter : e.afterPhase m = { e with phase := e.phase + 1, dep := 0, members := [{ m with next := e.phase + 1 }] } := by
      obtain ⟨-, -, -, -, -, -, -, -, ha, -⟩ := halone
      simp [Huddle.afterPhase, ha]
    refine ⟨⟨?_, ?_, ?_⟩, ?_⟩
    · rw [← hafter]
      exact runs_waiting_arrival (.hbar h s) hh (by simp) hx halone hq
    · rw [← hafter]
      exact runs_harrv_hwait hh hx halone hq
    · intro i d a f v c hv hd24 hr
      obtain ⟨inp, harr, hval⟩ := hv.arrives hr
      obtain ⟨t, hruns, hpc, hregs, hrest⟩ := runs_waiting_arrival harr hh hd24 hx halone hq
      rw [hafter] at hrest
      refine ⟨t, hruns, hpc, fun h0 => ?_, hrest⟩
      have hreg : t.cur.reg d.toNat = (s.cur.setReg d.toNat (f v)).reg d.toNat := by
        unfold Slot.reg
        rw [hregs, hval]
      rw [hreg]
      exact Slot.reg_setReg_same _ _ (Nat.ne_of_gt h0) hd24
    · intro d hd24
      obtain ⟨t, hruns, hpc, hhud, hmem, hreg⟩ := runs_hinfo hh hd24 hx halone hq
      refine ⟨t, hruns, hpc, hhud, hmem, fun h0 => ?_⟩
      obtain ⟨-, -, -, hm, hctx, hthread, -, hj, -, hl, hg⟩ := halone
      exact (hreg h0).trans (hinfoWord_of_alone hd hm hj hctx hthread hl hg)
  · intro s c d h i hd inp wait harr hh hd24
    have hexec := exec_eq_arrive harr hh hd24
    refine ⟨fun ho => hexec.trans (arrive_of_outstanding _ _ _ _ ho), fun ho => ?_⟩
    obtain ⟨units, pubs, hsend⟩ := sendArrival_eq s c.ready d h.toNat hd inp wait
    refine ⟨_, hexec.trans ((arrive_of_none _ _ _ _ ho).trans hsend), rfl, rfl, rfl, ?_, ?_⟩
    · rintro rfl
      exact ⟨rfl, rfl⟩
    · rintro rfl
      exact ⟨rfl, rfl⟩
  · intro s k r e hr hready he hopen
    refine ⟨fun inp hk => ?_, fun hk => ?_⟩
    · obtain ⟨cs, hexec⟩ := exec_huddleArrivalHandled_of_ready hr hk hready he
      exact ⟨_, hexec, settle_updMember_open
        (s := { s with hreqs := s.hreqs.take k ++ s.hreqs.drop (k + 1), counters := cs }) _ he hopen⟩
    · exact ⟨_, exec_huddleLeaveHandled_of_ready hr hk hready he, settle_updMember_open
        (s := { s with hreqs := s.hreqs.take k ++ s.hreqs.drop (k + 1) }) _ he hopen⟩
  · intro s k r e d h hd hr hready hk hw hh he
    exact exec_hinfoHandled_of_ready hr hready hk hw hh he
  · intro s slot n c d h hn hc ho ht hocc hst
    subst hc
    have hexec := exec_huddleNoticeArrival_of_own hn ho ht
    have hphys : ∀ w, ((s.slotAt slot).waitFor w).phys = slot := fun w => s.slotAt_phys slot
    refine ⟨fun fl hd hrep hw hh hname => ?_, fun hrep hw => ?_⟩
    · rw [Slot.takeNote_of_phase hw hrep hh hname] at hexec
      exact ⟨_, hexec, by simp, by rw [State.slotAt_setSlot_of_phys _ (hphys _) hocc]; rfl⟩
    · have htake : (s.slotAt slot).takeNote n = (s.slotAt slot).waitFor (.done d n.value) := by
        unfold Slot.takeNote
        rw [hrep, hw]
      rw [htake] at hexec
      exact ⟨_, hexec, by simp, by rw [State.slotAt_setSlot_of_phys _ (hphys _) hocc]; rfl⟩

/-! ### Joins and departures -/

theorem exec_hjoin_of_free {s : State} {d a : Reg5} {t₀ ex : Bool} {h : BitVec 2} {nm : Word} {c : Slot}
    (hdecl : h.toNat < s.cur.decl.huddles) (hh : s.cur.handle h.toNat = none) (hr : s.cur.readReg a = some (nm, c))
    (hd24 : d.toNat < 24) : exec (.hjoin d a t₀ ex h) s = .next { waiting s c (.hjoin d h.toNat nm t₀) with
      hreqs := s.hreqs ++ [s.huddleReq c nm (.join ex)] } := by
  change execHjoin d a t₀ ex h s = _
  unfold execHjoin
  rw [if_neg (by simp [hdecl, hh]), withSrc1_of_read _ hr, withDest_reg _ _ _ hd24]
  rfl

/-- The answer to a join: the handle with the huddle's name, or the status (R311, R322). -/
theorem Slot.takeNote_of_join {c : Slot} {d : Reg5} {h : Nat} {name : Word} {t : Bool} {n : HNote} (hr : n.reply = true)
    (hw : c.wait = some (.hjoin d h name t)) :
    c.takeNote n = if n.value != 0 && t then c.waitFor (.trapped .handle (BitVec.ofNat 64 (h + 0x100 * n.value.toNat)))
      else c.waitFor (.doneWith d n.value
        (.phase 0 h (if n.value == 0 then some { name := name, short := false, dep := 0, due := none } else none))) := by
  unfold Slot.takeNote
  rw [hr, hw]

/-- The entry that a join creates (R310, R313). -/
def State.createdEntry (s : State) (r : HReq) : Huddle :=
  { root := r.root, name := r.name, home := s.huddleHome r.root r.name, phase := 0, charged := r.ctx, dep := 0, members := [r.member 0] }

/-- The home answers a join, and the answer reaches the thread; with no entry before, status 0 makes one (R313, R322). -/
theorem runs_join_answer {s : State} {r : HReq} {ex : Bool} {slot st : Nat} (hreqs : s.hreqs = [r]) (hk : r.kind = .join ex)
    (hslot : r.slot = slot) (hp : s.cur.phys = slot) (hnotes : s.hnotes = []) (ho : s.cur.owner = some r.ctx)
    (ht : s.cur.thread = r.thread) (hs : s.huddles = []) (hst : st = s.joinStatus r ex) :
    ∃ t, Runs [.huddleJoinHandled 0, .huddleNoticeArrival slot] s t ∧
      t.cur = s.cur.takeNote (r.reply (BitVec.ofNat 64 st)) ∧ t.huddles = (if st = 0 then [s.createdEntry r] else []) ∧
      t.mem = s.mem := by
  have hhandled := exec_huddleJoinHandled_of_ready (k := 0) (by rw [hreqs]; rfl) hk (by simp [State.hreqReady, hk])
  have hent : s.entryOf r.root r.name = none := by simp [State.entryOf, hs]
  rw [hreqs, hnotes, ← hst, hent] at hhandled
  by_cases h0 : st = 0
  · subst h0
    have hput := hhandled.trans (congrArg Host.Outcome.next (State.setEntry_of_member (e := s.createdEntry r) (by simp [State.createdEntry])))
    refine ⟨_, ⟨_, hput, _, exec_huddleNoticeArrival_of_only rfl hp hslot ho ht, rfl⟩, rfl, ?_, rfl⟩
    change updKey _ _ s.huddles = _
    rw [hs]
    rfl
  · rw [if_neg h0]
    exact ⟨_, ⟨_, hhandled.trans (if_pos h0), _, exec_huddleNoticeArrival_of_only rfl hp hslot ho ht, rfl⟩, rfl, hs, rfl⟩

section Joins

variable {s : State} {x : Ctx} {d a : Reg5} {t₀ ex : Bool} {h : BitVec 2} {nm : Word} {c : Slot} {st : Nat}

/-- A join is sent, handled, and its status reaches the thread; with no entry before, status 0 makes one (R311, R313). -/
theorem runs_hjoin_notice (hx : s.ctxOf s.cur = some x) (hreqs : s.hreqs = []) (hnotes : s.hnotes = [])
    (hdecl : h.toNat < s.cur.decl.huddles) (hh : s.cur.handle h.toNat = none) (hr : s.cur.readReg a = some (nm, c))
    (hd24 : d.toNat < 24) (hs : s.huddles = []) (hst : st = s.joinStatus (s.huddleReq c nm (.join ex)) ex) :
    ∃ t, Runs [.hjoin d a t₀ ex h, .huddleJoinHandled 0, .huddleNoticeArrival s.cur.phys] s t ∧
      t.cur = Slot.takeNote (waiting s c (.hjoin d h.toNat nm t₀)).cur ((s.huddleReq c nm (.join ex)).reply (BitVec.ofNat 64 st)) ∧
      t.huddles = (if st = 0 then [s.createdEntry (s.huddleReq c nm (.join ex))] else []) ∧ t.mem = s.mem := by
  obtain ⟨-, -, -, -, -, -, hphys, howner, -, -⟩ := Slot.readReg_keeps hr
  have hthread := (Slot.readReg_keeps_handles hr).2.2.1
  have hcown : c.owner = some (c.owner.getD 0) := by
    rw [howner, owner_of_ctxOf hx]
    rfl
  have hsend := exec_hjoin_of_free (t₀ := t₀) (ex := ex) hdecl hh hr hd24
  obtain ⟨t, hruns, ht⟩ := runs_join_answer (ex := ex) (r := s.huddleReq c nm (.join ex)) (slot := s.cur.phys)
    (s := { waiting s c (.hjoin d h.toNat nm t₀) with hreqs := s.hreqs ++ [s.huddleReq c nm (.join ex)] })
    (by rw [hreqs]; rfl) rfl hphys hphys hnotes hcown rfl hs hst
  exact ⟨t, ⟨_, hsend, hruns⟩, ht⟩

/-- A thread that waited for its join goes on with the status in d and the handle it was given (R311, R322). -/
theorem runs_hjoin_rejoin {t : State} {v : Word} {hv : Option Handle} {slot : Nat} (hcd : c.decl = s.cur.decl) (hcb : c.busy = 0)
    (hcp : c.phys = slot) (hdecl : h.toNat < s.cur.decl.huddles) (hd24 : d.toNat < 24)
    (hcur : t.cur = (waiting s c (.hjoin d h.toNat nm t₀)).cur.waitFor (.doneWith d v (.phase 0 h.toNat hv))) :
    ∃ u, exec (.threadRejoin slot) t = .next u ∧ u.cur.pc = c.pc + 4 ∧ (0 < d.toNat → u.cur.reg d.toNat = v) ∧
      u.cur.handle h.toNat = hv ∧ u.huddles = t.huddles ∧ u.mem = t.mem := by
  obtain ⟨u, hrejoin, hpc, hregs, hhandles, hdeclu, hhud, hmem⟩ := exec_threadRejoin_phase (s := t) (slot := slot)
    (by rw [hcur]; exact hcp) (by rw [hcur]; rfl) (.inr (by rw [hcur]; rfl)) (by rw [hcur]; exact hcb) hd24
  refine ⟨u, hrejoin, ?_, fun h0 => ?_, ?_, hhud, hmem⟩
  · rw [hpc, hcur]
    rfl
  · have hreg : u.cur.reg d.toNat = (t.cur.setReg d.toNat v).reg d.toNat := by
      unfold Slot.reg
      rw [hregs]
    rw [hreg]
    exact Slot.reg_setReg_same _ _ (Nat.ne_of_gt h0) hd24
  · refine Slot.handle_of_set ?_ h.isLt hhandles
    rw [hdeclu, hcur]
    change h.toNat < c.decl.huddles
    rw [hcd]
    exact hdecl

end Joins

theorem Huddle.recharge_keeps (e : Huddle) (ctx : Nat) : (e.recharge ctx).members = e.members ∧ e.root = (e.recharge ctx).root ∧
    e.name = (e.recharge ctx).name ∧ (e.recharge ctx).phase = e.phase := by
  unfold Huddle.recharge
  dsimp only
  split
  · exact ⟨rfl, rfl, rfl, rfl⟩
  · split <;> exact ⟨rfl, rfl, rfl, rfl⟩

/-- A lone member that departs before it arrived leaves none; one that arrived stands as gone until its phase ends (R317). -/
theorem Huddle.depart_members_of_only {e : Huddle} {m : HMember} (hm : e.members = [m]) (hg : m.gone = false) :
    (e.depart m.ctx m.thread).members = if e.phase < m.joined ∨ m.arrived = none then [] else [{ m with gone := true }] := by
  unfold Huddle.depart
  by_cases hj : e.phase < m.joined
  · simp [hm, hg, hj]
  · by_cases ha : m.arrived = none
    · simp [hm, hg, ha]
    · obtain ⟨inp, hinp⟩ := Option.ne_none_iff_exists'.mp ha
      simp [hm, hg, hj, hinp]

/-- A member's departure from the entry that only it has frees the entry (R310, R317). -/
theorem exec_huddleDeparture_of_only {s : State} {e : Huddle} {m : HMember} (hs : s.huddles = [e]) (hm : e.members = [m])
    (hg : m.gone = false) (hdep : s.departing m.ctx = true) : exec (.huddleDeparture m.ctx m.thread) s = .next { s with
      huddles := [], hreqs := s.hreqs.filter (fun r => !(r.ctx == m.ctx && r.thread == m.thread)),
      hnotes := s.hnotes.filter (fun n => !(n.ctx == m.ctx && n.thread == m.thread)) } := by
  have hsettle : s.settleEntry ((e.depart m.ctx m.thread).recharge m.ctx) = { s with huddles := [] } := by
    obtain ⟨hmem, hroot, hname, hphase⟩ := (e.depart m.ctx m.thread).recharge_keeps m.ctx
    rw [Huddle.depart_members_of_only hm hg] at hmem
    by_cases hearly : e.phase < m.joined ∨ m.arrived = none
    · rw [if_pos hearly] at hmem
      exact State.settleEntry_of_empty hs ⟨hroot, hname⟩ hmem
    · rw [if_neg hearly] at hmem
      obtain ⟨hj, ha⟩ := not_or.mp hearly
      have hjoined : m.joined ≤ ((e.depart m.ctx m.thread).recharge m.ctx).phase := by
        rw [hphase]
        exact Nat.le_of_not_lt hj
      exact State.settleEntry_of_last hs ⟨hroot, hname⟩ hmem hjoined (Option.isSome_iff_ne_none.mpr ha) (.inr rfl)
  have hmine : (s.huddles.filter (fun h => h.members.any (fun n => n.ctx == m.ctx && n.thread == m.thread && !n.gone))) = [e] := by
    simp [hs, hm, hg]
  have hany : s.huddles.any (fun h => h.members.any (fun n => n.ctx == m.ctx && n.thread == m.thread && !n.gone)) = true := by
    simp [hs, hm, hg]
  change execHuddleDeparture m.ctx m.thread s = _
  unfold execHuddleDeparture
  rw [if_pos (by rw [hdep, hany]; rfl)]
  unfold State.departThread
  simp only [hmine, List.foldl_cons, List.foldl_nil, hsettle]

theorem State.settleEntry_hreqs (s : State) (e : Huddle) : (s.settleEntry e).hreqs = s.hreqs := by
  unfold State.settleEntry State.setEntry
  dsimp only
  split <;> rfl

/-- Settles O28: joins by their runs, the last leave and the last departure by the entry they free. -/
theorem huddleMembership : Obligations.HuddleMembership := by
  unfold Obligations.HuddleMembership
  refine ⟨?_, ?_, ?_, ?_, ?_⟩
  · intro s x d a t₀ ex h nm c st hx hreqs hnotes hbusy hdecl hh hr hd24 hs hst
    obtain ⟨-, -, -, -, -, -, hphys, howner, -, -⟩ := Slot.readReg_keeps hr
    obtain ⟨-, hcdecl, -, hcbusy⟩ := Slot.readReg_keeps_handles hr
    have hroot := rootOf_of_ctx hx howner
    have hctx : c.owner.getD 0 = x.id := by
      rw [howner, owner_of_ctxOf hx]
      rfl
    have hreq : s.huddleReq c nm (.join ex) =
        { root := x.root, name := nm, ctx := x.id, thread := c.thread, slot := c.phys, seq := s.seq, kind := .join ex } := by
      unfold State.huddleReq
      rw [hroot, hctx]
    rw [← hreq] at hst
    obtain ⟨t, hruns, hcur, hhud, hmem⟩ := runs_hjoin_notice (t₀ := t₀) (ex := ex) hx hreqs hnotes hdecl hh hr hd24 hs hst
    rw [Slot.takeNote_of_join (n := (s.huddleReq c nm (.join ex)).reply (BitVec.ofNat 64 st)) rfl rfl] at hcur
    have hvalue : st ≠ 0 → BitVec.ofNat 64 st ≠ 0 := by
      intro h0 h
      have hle := s.joinStatus_le (s.huddleReq c nm (.join ex)) ex
      have := congrArg BitVec.toNat h
      simp at this
      omega
    refine ⟨?_, ?_, ?_⟩
    · rintro rfl
      obtain ⟨u, hrejoin, hpc, hreg, hhandle, hhudu, hmemu⟩ := runs_hjoin_rejoin hcdecl (hcbusy.trans hbusy) hphys hdecl hd24 hcur
      refine ⟨u, runs_snoc hruns hrejoin, hpc, ?_, hhandle, hmemu.trans hmem, s.createdEntry (s.huddleReq c nm (.join ex)), _,
        hhudu.trans hhud, hroot, rfl, rfl, rfl, hctx, rfl, rfl⟩
      by_cases h0 : d.toNat = 0
      · rw [h0]
        rfl
      · exact hreg (Nat.pos_of_ne_zero h0)
    · rintro h0 rfl
      simp only [Bool.and_false, Bool.false_eq_true, if_false] at hcur
      obtain ⟨u, hrejoin, hpc, hreg, hhandle, hhudu, hmemu⟩ := runs_hjoin_rejoin hcdecl (hcbusy.trans hbusy) hphys hdecl hd24 hcur
      rw [if_neg h0] at hhud
      refine ⟨u, runs_snoc hruns hrejoin, hpc, hreg, ?_, hhudu.trans hhud⟩
      rw [hhandle]
      exact if_neg (by simpa [HReq.reply] using hvalue h0)
    · rintro h0 rfl
      rw [if_neg h0] at hhud
      have htrap : (BitVec.ofNat 64 st != 0 && true) = true := by simpa using hvalue h0
      exact ⟨t, hruns, by rw [hcur]; exact congrArg Slot.wait (if_pos htrap), hhud⟩
  · intro s x h hd e m hx hh halone hq
    exact runs_hleave hh hx halone hq
  · intro s d a t₀ ex h nm c hdecl hh hr hd24
    exact exec_hjoin_of_free hdecl hh hr hd24
  · intro s k r ex hr hready hk
    have hexec := exec_huddleJoinHandled_of_ready hr hk hready
    by_cases h0 : s.joinStatus r ex = 0
    · cases he : s.entryOf r.root r.name with
      | none =>
        rw [if_neg (Classical.not_not.mpr h0), he] at hexec
        have hput := hexec.trans (congrArg Host.Outcome.next (State.setEntry_of_member (e := s.createdEntry r) (by simp [State.createdEntry])))
        refine ⟨_, hput, rfl, fun h => absurd h0 h, ?_, ?_⟩
        · intro _ _ h
          cases h
        · intro _ _
          exact ⟨entryOf_updKey (e := s.createdEntry r) _ ⟨rfl, rfl⟩ rfl, congrArg (fun n => s.hnotes ++ [r.reply (BitVec.ofNat 64 n)]) h0⟩
      | some e =>
        rw [if_neg (Classical.not_not.mpr h0), he] at hexec
        refine ⟨_, hexec, State.settleEntry_hreqs .., fun h => absurd h0 h, ?_, ?_⟩
        · intro f _ h hopen
          cases h
          obtain ⟨m, hm, hj, ha, -, hg, -⟩ := hopen
          have hkey := State.entryOf_key he
          rw [State.settleEntry_of_open (e := { e with members := e.members ++ [r.member (e.phase + 1)] }) (m := m)
            (List.mem_append_left _ hm) hj ha hg]
          exact ⟨entryOf_updKey _ hkey rfl, congrArg (fun n => s.hnotes ++ [r.reply (BitVec.ofNat 64 n)]) h0⟩
        · intro _ h
          cases h
    · rw [if_pos h0] at hexec
      exact ⟨_, hexec, rfl, fun _ => ⟨rfl, rfl⟩, fun _ h => absurd h h0, fun h => absurd h h0⟩
  · intro s e m hs hm hg hdep
    exact ⟨_, exec_huddleDeparture_of_only hs hm hg hdep, rfl, rfl, rfl, rfl⟩

end Sys2Proof.Machine


/-! The commands of the port and their effect (R257, R402 to R411; O59, O60). -/

namespace Sys2Proof.Machine

theorem CtxState.running_iff (st : CtxState) : st.running = true ↔ st = .run ∨ st = .saved := by
  cases st <;> simp [CtxState.running]

section Bound

variable {h : PortHdr} {s : State} {x : Ctx}

/-- A command of the bound node in a state that the table lists is carried out (R403). -/
theorem boundCmd_handled {code : Nat} {len : Option Nat} {name : String} {states : CtxState → Bool} (k : Ctx → State)
    (hb : Binds h s x) (hh : Handled h code len s) (h1 : 1 ≤ code) (h2 : code ≤ 0x13) (hst : states x.state = true) :
    boundCmd h code len name states s k = .next (k x) := by
  obtain ⟨hc, hx, hnode⟩ := hb
  unfold boundCmd
  rw [portCmd_handled hh (.inl (Option.isSome_iff_ne_none.mp hc)) h1 h2, hx]
  simp only [hnode, hst, ne_eq, not_true_eq_false, Bool.not_true, Bool.false_eq_true, if_false]

theorem GoodHeader.with_len {h : PortHdr} (hg : GoodHeader h none) (n : Nat) (hn : h.len = n) : GoodHeader h (some n) :=
  ⟨hg.1, hg.2.1, fun m hm => by cases hm; exact hn⟩

section Windows

/-- SETWIN of a context that still takes windows (R404). -/
theorem exec_setwin_of_unlocked (hb : Binds h s x) (hh : Handled h 0x07 none s) (hst : x.state = .unlocked) (w : BitVec 1) (base len : Word) :
    exec (.setwin h w base len) s = .next (
      if base.toNat % 65536 ≠ 0 ∨ len.toNat % 65536 ≠ 0 then s.reply h 0x07 (refusal 0x01 0) []
      else (s.setCtx (if w = 0 then { x with winOut := some (base, len) } else { x with winIn := some (base, len) })).reply h 0x07 0 []) := by
  change execSetwin h w base len s = _
  unfold execSetwin
  rw [boundCmd_handled _ hb hh (by omega) (by omega) (by simp [hst])]
  simp only [hst, bne_self_eq_false, Bool.false_eq_true, if_false]

theorem exec_setwin_of_frozen (hb : Binds h s x) (hh : Handled h 0x07 none s) (hst : x.state = .locked ∨ x.state = .run ∨ x.state = .saved)
    (w : BitVec 1) (base len : Word) : exec (.setwin h w base len) s = .next ((s.ctxFault x 4).reply h 0x07 0 []) := by
  have hfrozen : (x.state != .unlocked) = true := by rcases hst with h | h | h <;> rw [h] <;> rfl
  change execSetwin h w base len s = _
  unfold execSetwin
  rw [boundCmd_handled _ hb hh (by omega) (by omega) (by rcases hst with h | h | h <;> rw [h] <;> rfl), if_pos hfrozen]

end Windows

/-- DEFQ of a queue number that the context has (R347, R348). -/
theorem exec_defq_of_open {q : Nat} {d : QueueDef} (hb : Binds h s x) (hh : Handled h 0x08 none s)
    (hst : x.state = .unlocked ∨ x.state = .run ∨ x.state = .saved) (h1 : 1 ≤ q) (hq : q < x.res.queues) :
    exec (.defq h q d) s = .next (
      if (x.queue q).isSome then s.reply h 0x08 (refusal 0x12 0) []
      else if !defOk x d then s.reply h 0x08 (refusal 0x01 0) []
      else (s.putQueue x.id (Queue.fresh q d)).reply h 0x08 0 []) := by
  change execDefq h q d s = _
  unfold execDefq
  rw [boundCmd_handled _ hb hh (by omega) (by omega) (by rcases hst with h | h | h <;> rw [h] <;> rfl), if_neg (by omega)]

theorem exec_lock_of_unlocked (hb : Binds h s x) (hh : Handled h 0x09 none s) (hst : x.state = .unlocked) :
    exec (.lock h) s = .next ((s.setCtx { x with state := .locked }).reply h 0x09 0 (interfaceReport s x)) := by
  change execLock h s = _
  unfold execLock
  rw [boundCmd_handled _ hb hh (by omega) (by omega) (by simp [hst])]

theorem Slot.toIdle_eq : Slot.toIdle = fun c => if c.status = .vacant then { c with status := .idle, held := .idle } else c := by
  funext c
  unfold Slot.toIdle
  simp only [beq_iff_eq]

/-- START makes the vacant slots of the context idle (R404). -/
theorem exec_start_of_locked (hb : Binds h s x) (hh : Handled h 0x0A none s) (hst : x.state = .locked) :
    exec (.start h) s = .next (((s.setCtx (if x.away then { x with state := .saved } else
      { x with state := .run, sliceAt := s.cycle })).atFamily x.root (fun u => u.mapSlots (ownedBy x.id) Slot.toIdle)).reply
        h 0x0A 0 []) := by
  change execStart h s = _
  unfold execStart
  rw [boundCmd_handled _ hb hh (by omega) (by omega) (by simp [hst])]

/-- LAUNCH appends its packet to queue 0 (R348, R352). -/
theorem exec_launch_of_packet {pkt : List Byte} {q r : Queue} (hb : Binds h s x) (hh : Handled h 0x0B (some pkt.length) s)
    (hst : x.state.running = true) (hlen : pkt.length = 64) (hq : x.queue 0 = some q)
    (hr : r = { q with ring := setNth q.ring (q.widx.toNat % 64) pkt, widx := (q.widx.setWidth 32 + 1).setWidth 64 }) :
    exec (.launch h pkt) s = .next ((match queueReason x r with
      | some n => s.suspend x r n
      | none => s.putQueue x.id { r with state := if 2 ≤ q.state then q.state else r.going }).reply h 0x0B 0
        (leBytes 4 (q.widx.toNat % 2 ^ 32))) := by
  have hidx : (q.widx.setWidth 32).toNat = q.widx.toNat % 2 ^ 32 := BitVec.toNat_setWidth ..
  have hslot : (q.widx.setWidth 32).toNat % 64 = q.widx.toNat % 64 := by omega
  subst hr
  change execLaunch h pkt s = _
  unfold execLaunch
  rw [boundCmd_handled _ hb hh (by omega) (by omega) hst]
  simp only [hlen, ne_eq, not_true_eq_false, if_false, hq, hslot]
  rw [hidx] <;> rfl

theorem exec_launch_of_size {pkt : List Byte} (hb : Binds h s x) (hh : Handled h 0x0B (some pkt.length) s)
    (hst : x.state.running = true) (hlen : pkt.length ≠ 64) :
    exec (.launch h pkt) s = .next (s.reply h 0x0B (refusal 0x01 0) []) := by
  change execLaunch h pkt s = _
  unfold execLaunch
  rw [boundCmd_handled _ hb hh (by omega) (by omega) hst, if_pos hlen]

/-- READ gives a unit of the dump area, and notes an error in it once (R256, R258). -/
theorem exec_read_of_unit {unit : Nat} (hb : Binds h s x) (hh : Handled h 0x0C none s)
    (hu : x.layout.dumpOff + 64 * unit < x.layout.spillOff) :
    exec (.read h unit) s = .next (
      let va := BitVec.ofNat 64 (textLink + (x.layout.dumpOff + 64 * unit))
      let k := keyOf Space.dev x.id (x.layout.dumpOff + 64 * unit)
      (s.noteError x k va).reply h 0x0C 0 (xtsEncrypt x.key va (s.readHomeN k 64) ++ leBytes 8 va.toNat)) := by
  change execRead h unit s = _
  unfold execRead
  rw [boundCmd_handled _ hb hh (by omega) (by omega) rfl, if_neg (by omega)]

theorem State.noteError_of_none {k : Nat} (va : Word) (he : s.errorAt k 64 = none) : s.noteError x k va = s := by
  unfold State.noteError
  rw [he]

theorem State.noteError_of_some {k : Nat} {e : MemErr} (va : Word) (he : s.errorAt k 64 = some e) (hx : x.err = none) :
    s.noteError x k va = s.uncorrCtx x va e := by
  unfold State.noteError
  rw [he, hx]
  rfl

/-- A debug module that a context has armed (R391). -/
def armedModule (k : Nat) (x : Ctx) (cfg : DbgConfig) : DbgMod :=
  { clus := k, holder := x.id, cfg := cfg, capture := .armed, hit := false, buf := [], pend := [] }

/-- DBGCFG of a cluster of the context, with a configuration within the limits (R390, R391). -/
theorem exec_dbgcfg_of_ok {n k : Nat} {cfg : DbgConfig} (hb : Binds h s x) (hh : Handled h 0x0F none s) (hst : x.state.running = true)
    (hk : x.clusters[n]? = some k) (hcfg : cfgOk x cfg = true) :
    exec (.dbgcfg h n cfg) s = .next (
      if s.dbg.any (fun m => m.clus == k && m.holder != x.id) then s.reply h 0x0F (refusal 0x12 0) []
      else State.reply { s with dbg := updKey (fun e => e.clus == k) (armedModule k x cfg) s.dbg } h 0x0F 0 []) := by
  change execDbgcfg h n cfg s = _
  unfold execDbgcfg
  rw [boundCmd_handled _ hb hh (by omega) (by omega) hst]
  simp only [hk, hcfg, Bool.not_true, Bool.false_eq_true, if_false]
  rfl

theorem exec_dbgrel_of_held {n k : Nat} {m : DbgMod} (hb : Binds h s x) (hh : Handled h 0x10 none s) (hst : x.state.running = true)
    (hk : x.clusters[n]? = some k) (hm : m ∈ s.dbg) (hclus : m.clus = k) (hown : m.holder = x.id) :
    exec (.dbgrel h n) s = .next ((State.holdModules { s with dbg := s.dbg.filter (fun m => m.clus != k) } x).reply h 0x10 0 []) := by
  have hany : s.dbg.any (fun m => m.clus == k && m.holder == x.id) = true :=
    List.any_eq_true.mpr ⟨m, hm, by simp [hclus, hown]⟩
  change execDbgrel h n s = _
  unfold execDbgrel
  rw [boundCmd_handled _ hb hh (by omega) (by omega) hst]
  simp only [hk, hany, if_true]

theorem State.holdModules_of_open (s : State) (hs : x.warrant.sealed = false) : s.holdModules x = s := by
  unfold State.holdModules
  exact if_pos (by simp [hs])

theorem exec_surr_of_bound (hb : Binds h s x) (hh : Handled h 0x0D none s) :
    exec (.surr h) s = .next ((s.endContext x.id).reply h 0x0D 0 []) := by
  change execSurr h s = _
  unfold execSurr
  rw [boundCmd_handled _ hb hh (by omega) (by omega) rfl]

theorem exec_dbgres_of_running (hb : Binds h s x) (hh : Handled h 0x11 none s) (hst : x.state.running = true) :
    exec (.dbgres h) s = .next (State.reply { s with dbgResume := s.dbgResume ++ [(x.id, agreedCycle s.cycle)] } h 0x11 0 []) := by
  change execDbgres h s = _
  unfold execDbgres
  rw [boundCmd_handled _ hb hh (by omega) (by omega) hst]

theorem exec_query_of_bound (hb : Binds h s x) (hh : Handled h 0x12 none s) (n : Nat) :
    exec (.query h n) s = .next (if n = 16 then s.reply h 0x12 0 (interfaceReport s x)
      else if 16 < n then s.reply h 0x12 (refusal 0x01 0) [] else s.reply h 0x12 0 (leBytes 8 (x.item n).toNat)) := by
  change execQuery h n s = _
  unfold execQuery
  rw [boundCmd_handled _ hb hh (by omega) (by omega) rfl]

theorem exec_qctrl_of_queue {q : Queue} (hb : Binds h s x) (hh : Handled h 0x13 (some 8) s) (hst : x.state.running = true)
    (hq : x.queue 0 = some q) (v : BitVec 2) : exec (.qctrl h v) s = .next ((s.answer x q v.toNat).reply h 0x13 0 []) := by
  change execQctrl h v s = _
  unfold execQctrl
  rw [boundCmd_handled _ hb hh (by omega) (by omega) hst]
  simp only [hq]

end Bound

/-- Settles O59: the tests of the port pass, and each command runs its body. -/
theorem boundCommandsTakeEffect : Obligations.BoundCommandsTakeEffect := by
  unfold Obligations.BoundCommandsTakeEffect
  intro h s x hb hbusy hg
  have hh : ∀ {code : Nat}, h.code = code → Handled h code none s := fun hcode => ⟨hbusy, hcode, hg⟩
  refine ⟨?_, ?_, ?_, ?_, ?_, ?_, ?_, ?_, ?_, ?_, ?_, ?_, ?_⟩
  · intro w base len hcode
    refine ⟨fun hst hbase hlen hw => ?_, fun hst hbase hlen hw => ?_, fun hst hbad => ?_, fun hst => ?_⟩
    · rw [exec_setwin_of_unlocked hb (hh hcode) hst, if_neg (by simp [hbase, hlen]), if_pos hw]
    · rw [exec_setwin_of_unlocked hb (hh hcode) hst, if_neg (by simp [hbase, hlen]), if_neg (by simp [hw])]
    · rw [exec_setwin_of_unlocked hb (hh hcode) hst, if_pos hbad]
    · exact exec_setwin_of_frozen hb (hh hcode) hst w base len
  · intro q d hcode hst h1 hq
    have hexec := exec_defq_of_open (d := d) hb (hh hcode) hst h1 hq
    refine ⟨fun hdef => ?_, fun hfree hdoor hstatus hspan hspan' => ?_⟩
    · rw [hexec, if_pos (Option.isSome_iff_ne_none.mpr hdef)]
    · have hok : defOk x d = true := by simp [defOk, hdoor, hstatus, hspan, hspan']
      simpa [hfree, hok] using hexec
  · intro hcode hst
    exact exec_lock_of_unlocked hb (hh hcode) hst
  · rintro y hcode hst rfl
    rw [← Slot.toIdle_eq]
    exact exec_start_of_locked hb (hh hcode) hst
  · intro pkt q hcode hlen hst h64 hq
    have hexec := exec_launch_of_packet hb ⟨hbusy, hcode, hg.with_len _ hlen⟩ ((CtxState.running_iff _).mpr hst) h64 hq rfl
    refine ⟨_, _, rfl, hexec, fun n hn => ?_, fun hn => ?_⟩
    · simp only [hn]
    · simp only [hn]
  · intro pkt hcode hlen hst h64
    exact exec_launch_of_size hb ⟨hbusy, hcode, hg.with_len _ hlen⟩ ((CtxState.running_iff _).mpr hst) h64
  · rintro unit k va t hcode hu rfl rfl (⟨he, rfl⟩ | ⟨e, he, hx, rfl⟩)
    · rw [exec_read_of_unit hb (hh hcode) hu]
      simp only [State.noteError_of_none _ he]
    · rw [exec_read_of_unit hb (hh hcode) hu]
      simp only [State.noteError_of_some _ he hx]
  · intro hcode
    exact exec_surr_of_bound hb (hh hcode)
  · intro n cfg k hcode hst hk hcfg
    have hexec := exec_dbgcfg_of_ok hb (hh hcode) ((CtxState.running_iff _).mpr hst) hk hcfg
    refine ⟨fun hfree => ?_, fun ⟨m, hm, hclus, hother⟩ => ?_⟩
    · refine hexec.trans (congrArg _ (if_neg ?_))
      rw [List.any_eq_true]
      rintro ⟨m, hm, h⟩
      simp only [Bool.and_eq_true, beq_iff_eq, bne_iff_ne, ne_eq] at h
      exact h.2 (hfree m hm h.1)
    · rw [hexec, if_pos (List.any_eq_true.mpr ⟨m, hm, by simp [hclus, hother]⟩)]
  · intro n k m hcode hst hk hm hclus hown
    have hexec := exec_dbgrel_of_held hb (hh hcode) ((CtxState.running_iff _).mpr hst) hk hm hclus hown
    refine ⟨hexec, fun hopen => ?_⟩
    rw [hexec, State.holdModules_of_open _ hopen]
  · intro hcode hst
    rw [← agreedCycle_eq]
    exact exec_dbgres_of_running hb (hh hcode) ((CtxState.running_iff _).mpr hst)
  · intro n hcode
    have hexec := exec_query_of_bound hb (hh hcode) n
    refine ⟨fun hn => ?_, fun hn => ?_, fun hn => ?_⟩
    · rw [hexec, if_neg (by omega), if_neg (by omega)]
    · rw [hexec, if_pos hn]
    · rw [hexec, if_neg (by omega), if_pos hn]
  · intro v q hcode hlen hst hq
    exact exec_qctrl_of_queue hb ⟨hbusy, hcode, hg.with_len 8 hlen⟩ ((CtxState.running_iff _).mpr hst) hq v

/-! ### Commands of any node -/

section Open

variable {h : PortHdr} {s : State}

theorem exec_ident_of_handled (hh : Handled h 0x01 none s) : exec (.ident h) s = .next (s.reply h 0x01 0
    (Config.identityKey ++ leBytes 8 s.ownNode ++ leBytes 8 Config.romVersion.toNat ++
      leBytes 8 (if s.commission = none then 0 else 1))) := by
  have hboot : (if s.commission.isSome then 1 else 0) = if s.commission = none then 0 else 1 := by
    cases s.commission <;> rfl
  change execIdent h s = _
  unfold execIdent
  rw [portCmd_handled hh (.inr (.inl rfl)) (by omega) (by omega), hboot]

/-- The limits of a record that the statement lists are the model's (R331, R332, R398). -/
theorem recordOk_of_limits {r : CommissionRecord} (h1 : 1 ≤ r.factor) (h4 : r.factor ≤ 4)
    (hd : ∀ e ∈ r.domains, e.2.length ≤ 256 ∧ ∀ n ∈ e.2, n < 2 ^ 16) (hn : r.node < 2 ^ 16) (hl : ∀ e ∈ r.linkNode, e.2 < 2 ^ 16) :
    recordOk r = true := by
  unfold recordOk
  rw [Bool.and_eq_true, Bool.and_eq_true, Bool.and_eq_true]
  refine ⟨⟨⟨decide_eq_true h1, decide_eq_true h4⟩, List.all_eq_true.mpr fun e he => decide_eq_true (hd e he).1⟩, ?_⟩
  refine List.all_eq_true.mpr fun n hmem => decide_eq_true ?_
  rcases List.mem_append.mp hmem with hmem | hmem
  · rcases List.mem_cons.mp hmem with rfl | hmem
    · exact hn
    · obtain ⟨e, he, rfl⟩ := List.mem_map.mp hmem
      exact hl e he
  · obtain ⟨e, he, hne⟩ := List.mem_flatMap.mp hmem
    exact (hd e he).2 n hne

theorem exec_commission_of_handled (hh : Handled h 0x02 none s) (r : CommissionRecord) (sig : List Byte) :
    exec (.commission h r sig) s = if s.commission.isSome then .next (s.reply h 0x02 (refusal 0x12 0) [])
      else if !Config.recordVerifies r sig then .next (s.reply h 0x02 (refusal 0x02 0) [])
      else if !recordOk r then .next (s.reply h 0x02 (refusal 0x01 0) [])
      else .next (State.reply { s with commission := some r } h 0x02 0 []) := by
  change execCommission h r sig s = _
  unfold execCommission
  rw [portCmd_handled hh (.inr (.inr rfl)) (by omega) (by omega)]

theorem exec_beacon_of_image {image : List Byte} {seq dom e l : Word} (hh : Handled h 0x03 (some image.length) s)
    (hc : s.commission ≠ none) (hb : beaconOf image = some (seq, dom, e, l)) :
    exec (.beacon h image) s = if s.beaconOk image seq dom e l then .next (State.reply { s with
        beacon := some { cb := s.cycle, eb := BitVec.ofNat 64 (max e.toNat s.tearly), lb := BitVec.ofNat 64 (min l.toNat s.tlate),
                         seq := seq },
        bootTime := some (s.bootTime.getD (BitVec.ofNat 64 (max e.toNat s.tearly))) } h 0x03 0 [])
      else .next (s.reply h 0x03 (refusal 0x14 0) []) := by
  change execBeacon h image s = _
  unfold execBeacon
  rw [portCmd_handled hh (.inl hc) (by omega) (by omega)]
  simp only [hb]

theorem exec_nonce_of_handled (hh : Handled h 0x04 none s) (hc : s.commission ≠ none) :
    exec (.nonce h) s = .next (State.reply { s with
      nonces := updKey (fun e => e.node == h.node) { node := h.node, value := Config.nonceBytes s.fresh, cycle := s.cycle } s.nonces,
      fresh := s.fresh + 1 } h 0x04 0 (leBytes 32 (Config.nonceBytes s.fresh).toNat)) := by
  change execNonce h s = _
  unfold execNonce
  rw [portCmd_handled hh (.inl hc) (by omega) (by omega)]

/-- PRESENT uses the node's nonce up, and puts a claim for a warrant that its checks accept (R328, R330). -/
theorem exec_present_of_handled {image obj sig : List Byte}
    (hh : Handled h 0x05 (some (image.length + obj.length + sig.length)) s) (hc : s.commission ≠ none) :
    exec (.present h image obj sig) s = match s.examineImage image (s.portProof h.node sig) with
      | .error st => .next ((s.useNonce h.node).reply h 0x05 (refusal st 0) [])
      | .ok w => .next ((s.useNonce h.node).addClaim
          { serial := w.serial, root := w.serial, notBefore := w.notBefore, device := s.ownNode } (.port h w obj)) := by
  change execPresent h image obj sig s = _
  unfold execPresent
  rw [portCmd_handled hh (.inl hc) (by omega) (by omega)] <;> rfl

/-- REDEEM uses the node's nonce up, and puts a claim for a receipt that its checks accept (R338). -/
theorem exec_redeem_of_handled {receipt sig : List Byte} (hh : Handled h 0x06 (some (receipt.length + sig.length)) s)
    (hc : s.commission ≠ none) :
    exec (.redeem h receipt sig) s = match s.checkReceipt receipt (s.portProof h.node sig) with
      | .error st => .next ((s.useNonce h.node).reply h 0x06 (refusal st 0) [])
      | .ok (x, who) => .next ((s.useNonce h.node).addClaim (s.claimMsg x x.serial) (.redeemPort h x.id who x.warrant.domain)) := by
  change execRedeem h receipt sig s = _
  unfold execRedeem
  rw [portCmd_handled hh (.inl hc) (by omega) (by omega)] <;> rfl

/-- REVOKE of a context's serial: the issuer's signature, and the key that is still valid (R257). -/
theorem exec_revoke_of_ctx {serial : BitVec 128} {sig : List Byte} {x : Ctx} (hh : Handled h 0x0E (some (16 + sig.length)) s)
    (hc : s.commission ≠ none) (hx : s.ctxs.find? (fun x => x.serial == serial) = some x) :
    exec (.revoke h serial sig) s =
      if !Config.sigVerifies x.warrant.issuer (leBytes 16 serial.toNat ++ leBytes 8 s.ownNode) sig then
        .next (s.reply h 0x0E (refusal 0x02 0) [])
      else if !x.keyValid then .next (s.reply h 0x0E 0 [])
      else
        let u := s.setCtx { x with keyValid := false }
        .next ((State.ctxFault { u with keys := u.keys.map (fun k => if k.ctx == x.id then { k with key := [] } else k) }
          { x with keyValid := false } 3).reply h 0x0E 0 []) := by
  change execRevoke h serial sig s = _
  unfold execRevoke
  rw [portCmd_handled hh (.inl hc) (by omega) (by omega)]
  simp only [hx]

theorem exec_nonceExpiry_of_over {node : Nat} {n : Nonce} (hm : n ∈ s.nonces) (hn : n.node = node)
    (ho : n.cycle.toNat + 36000000000 < s.cycle.toNat) :
    exec (.nonceExpiry node) s = .next { s with nonces := s.nonces.filter (fun n => n.node != node) } := by
  have hany : s.nonces.any (fun n => n.node == node && n.over s.cycle) = true :=
    List.any_eq_true.mpr ⟨n, hm, by simp [hn, Nonce.over, nonceLife, ho]⟩
  exact if_pos hany

end Open

/-- Settles O60: the tests of the port pass, and each command runs its body. -/
theorem openCommandsTakeEffect : Obligations.OpenCommandsTakeEffect := by
  unfold Obligations.OpenCommandsTakeEffect
  refine ⟨?_, fun s node n hm hn ho => exec_nonceExpiry_of_over hm hn ho, fun _ => rfl⟩
  intro h s hbusy hg
  have hh : ∀ {code : Nat}, h.code = code → Handled h code none s := fun hcode => ⟨hbusy, hcode, hg⟩
  have hhl : ∀ {code n : Nat}, h.code = code → h.len = n → Handled h code (some n) s := fun hcode hlen =>
    ⟨hbusy, hcode, hg.with_len _ hlen⟩
  refine ⟨?_, ?_, ?_, ?_, ?_, ?_, ?_, ?_, ?_⟩
  · intro hcode
    exact exec_ident_of_handled (hh hcode)
  · intro r sig hcode hc
    rw [exec_commission_of_handled (hh hcode), if_pos (Option.isSome_iff_ne_none.mpr hc)]
  · intro r sig hcode hc hv h1 h4 hd hn hl
    rw [exec_commission_of_handled (hh hcode), hc, hv, recordOk_of_limits h1 h4 hd hn hl]
    rfl
  · intro r sig hcode hc hv
    rw [exec_commission_of_handled (hh hcode), hc, hv]
    rfl
  · intro image seq dom e l hcode hlen hc hb
    refine ⟨fun hok => ?_, fun hok => ?_⟩
    · rw [exec_beacon_of_image (hhl hcode hlen) hc hb, if_pos hok]
    · rw [exec_beacon_of_image (hhl hcode hlen) hc hb, if_neg (by simp [hok])]
  · intro hcode hc
    exact exec_nonce_of_handled (hh hcode) hc
  · intro image obj sig hcode hlen hc
    refine ⟨fun st hst => ?_, fun w hw => ?_⟩
    · rw [exec_present_of_handled (hhl hcode hlen) hc, hst]
    · rw [exec_present_of_handled (hhl hcode hlen) hc, hw]
  · intro receipt sig hcode hlen hc
    refine ⟨fun st hst => ?_, fun x who hw => ?_⟩
    · rw [exec_redeem_of_handled (hhl hcode hlen) hc, hst]
    · rw [exec_redeem_of_handled (hhl hcode hlen) hc, hw]
  · intro serial sig x hcode hlen hc hx
    have hexec := exec_revoke_of_ctx (hhl hcode hlen) hc hx
    refine ⟨fun hbad => ?_, fun hgood hkey => ?_, fun hgood hkey => ?_⟩
    · rw [hexec, hbad]
      rfl
    · refine ⟨_, rfl, ?_⟩
      rw [hexec, hgood, hkey]
      simp only [Bool.not_true, Bool.false_eq_true, if_false, beq_iff_eq]
    · rw [hexec, hgood, hkey]
      rfl

end Sys2Proof.Machine


/-! Links, flits and inbound accesses (R397 to R404; O56). -/

namespace Sys2Proof.Machine

/-! ### Training -/

/-- The node that a record names for a link is that of the link's first entry. -/
theorem find_linkNode_eq_iff {es : List (Nat × Nat)} {link node : Nat} :
    (match es.find? (fun e => e.1 == link) with
      | some e => e.2 == node
      | none => true) = true ↔ ∀ as bs e, es = as ++ e :: bs → (∀ g ∈ as, g.1 ≠ link) → e.1 = link → e.2 = node := by
  constructor
  · rintro h as bs e rfl has he
    rw [find_mid _ as bs e (fun g hg => by simpa using has g hg) (by simpa using he)] at h
    simpa using h
  · intro h
    cases hf : es.find? (fun e => e.1 == link) with
    | none => rfl
    | some e =>
      obtain ⟨he, as, bs, hes, has⟩ := List.find?_eq_some_iff_append.mp hf
      simpa using h as bs e hes (fun g hg => by simpa using has g hg) (by simpa using he)

theorem exec_linkTraining_of_known {link node : Nat} {s : State} {known : Bool} (hl : link < 96)
    (hk : known = true ↔ ∀ r, s.commission = some r →
      ∀ es fs e, r.linkNode = es ++ e :: fs → (∀ g ∈ es, g.1 ≠ link) → e.1 = link → e.2 = node) :
    exec (.linkTraining link node) s = .next (s.setLink { s.linkAt link with
      node := if known then some node else none, up := known, fails := 0, nacks := 0, credits := Vector.replicate 16 32, sent := [],
      got := [] }) := by
  have hknown : (match s.commission.bind (fun r => r.linkNode.find? (fun e => e.1 == link)) with
      | some e => e.2 == node
      | none => true) = known := by
    rw [Bool.eq_iff_iff, hk]
    cases hc : s.commission with
    | none => simp
    | some r =>
      refine find_linkNode_eq_iff.trans ⟨fun h r' hr' => ?_, fun h => h r rfl⟩
      cases hr'
      exact h
  subst hknown
  change execLinkTraining link node s = _
  unfold execLinkTraining
  rw [if_neg (by omega)] <;> rfl

/-! ### Flits that come -/

section Receive

variable {link : Nat} {s : State} {l : Link} {f : Flit}

theorem Link.spent_of_below (hf : l.fails < 9) (hn : l.nacks < 9) : l.spent = false := by
  simp [Link.spent, hf, hn]

theorem Link.spent_of_failed (h : 9 ≤ l.fails ∨ 9 ≤ l.nacks) : l.spent = true := by
  simpa [Link.spent] using h

/-- A link that is up takes a flit: its check, its source and destination, and what it says (R397, R398). -/
theorem exec_flitReceive_of_up (hl : l = s.linkAt link) (hup : l.up = true) (hf : l.fails < 9) (hn : l.nacks < 9) :
    exec (.flitReceive link f) s =
      if !flitCrcOk f then .next (s.setLink { l with fails := l.fails + 1, out := s.bareFlit l f.vc Config.replayType :: l.out })
      else if some f.src.toNat ≠ l.node ∨ f.dst.toNat ≠ s.ownNode then .next s
      else if f.len = 0 then .next (s.setLink (Link.takeBare { l with fails := 0 } f))
      else if s.mayEnter { l with fails := 0 } f then .next (s.takeFlit { l with fails := 0 } f)
      else .next (s.setLink (s.giveBack { l with fails := 0 } f.vc)) := by
  subst hl
  change execFlitReceive link f s = _
  unfold execFlitReceive
  rw [if_neg (by simp [hup, Link.spent_of_below hf hn])]

/-- A free slot of the channel stands again, and the last answered flit is kept no more (R399). -/
theorem Link.takeBare_of_credit {gs hs : List Flit} {g : Flit} (ht : f.ftype ≠ Config.replayType) (hsent : l.sent = gs ++ g :: hs)
    (hg : g.vc = f.vc) (hgs : ∀ h ∈ gs, h.vc ≠ f.vc) :
    l.takeBare f = { l with
      nacks := 0, sent := gs ++ hs, credits := l.credits.setIfInBounds f.vc.toNat (min 32 (l.free f.vc + 1)) } := by
  unfold Link.takeBare
  rw [if_neg ht, hsent, dropFirst_mid _ gs hs g (fun h hh => by simpa using hgs h hh) (by simpa using hg)]
  rfl

/-- A request for replay sends the channel's last flit again (R397). -/
theorem Link.takeBare_of_replay {gs hs : List Flit} {g : Flit} (ht : f.ftype = Config.replayType) (hsent : l.sent = gs ++ g :: hs)
    (hg : g.vc = f.vc) (hhs : ∀ h ∈ hs, h.vc ≠ f.vc) :
    l.takeBare f = { l with
      nacks := l.nacks + 1, out := g :: l.out, sent := gs ++ hs,
      credits := l.credits.setIfInBounds f.vc.toNat (min 32 (l.free f.vc + 1)) } := by
  have hlast : ((gs ++ g :: hs).filter (fun (g : Flit) => g.vc == f.vc)).getLast? = some g := by
    have hnone : hs.filter (fun (g : Flit) => g.vc == f.vc) = [] := List.filter_eq_nil_iff.mpr fun h hh => by simpa using hhs h hh
    simp [hg, hnone]
  have hdrop : (dropFirst (fun (h : Flit) => h.vc == f.vc) (gs ++ g :: hs).reverse).reverse = gs ++ hs := by
    rw [List.reverse_append, List.reverse_cons, List.append_assoc, List.singleton_append,
      dropFirst_mid _ hs.reverse gs.reverse g (fun h hh => by simpa using hhs h (List.mem_reverse.mp hh)) (by simpa using hg)]
    simp
  unfold Link.takeBare
  rw [if_pos ht, hsent, hlast, hdrop]
  rfl

theorem mayEnter_of_umpire (h : f.vc.toNat ≤ 1) : s.mayEnter l f = true := by
  simp [State.mayEnter, h]

/-- Which pair of channels a context's flits may enter (R400). -/
theorem mayEnter_of_ctx {x : Ctx} (h : 1 < f.vc.toNat) (hx : s.ctxAt f.ctx.toNat = some x) :
    s.mayEnter l f = if x.warrant.sealed then x.pairs.any (fun e => e.1 == dieOfLink l.link && 4 + e.2 == f.vc.toNat / 2)
      else x.res.cls + 1 == f.vc.toNat / 2 := by
  have hvc : decide (f.vc.toNat ≤ 1) = false := by simpa using h
  unfold State.mayEnter
  rw [hvc, hx, Bool.false_or]

theorem takeFlit_of_umpire (h : f.vc.toNat ≤ 1) : s.takeFlit l f = { s.setLink (s.giveBack l f.vc) with
    inbox := s.inbox ++ [{ core := refCore0, node := f.src.toNat, kind := f.vc.toNat, bytes := f.payload.take f.len.toNat }] } :=
  if_pos h

theorem takeFlit_of_response (h : 1 < f.vc.toNat) (ho : f.vc.toNat % 2 = 1) : s.takeFlit l f = s.setLink (s.giveBack l f.vc) := by
  unfold State.takeFlit
  rw [if_neg (by omega), if_pos ho]

theorem takeFlit_of_request (h : 1 < f.vc.toNat) (he : f.vc.toNat % 2 = 0)
    (hroom : (l.got.filter (fun g => g.vc == f.vc)).length < 32) : s.takeFlit l f = s.setLink { l with got := l.got ++ [f] } := by
  unfold State.takeFlit
  rw [if_neg (by omega), if_neg (by omega), if_pos hroom]

end Receive

/-! ### Flits that leave -/

section Send

variable {link : Nat} {vc : BitVec 4} {s : State} {l : Link} {f : Flit}

/-- The first flit of the channel leaves, where it takes no slot or has one (R397, R399, R400). -/
theorem exec_flitSend_of_out {fs gs : List Flit} (hl : l = s.linkAt link) (hup : l.up = true) (hfail : l.fails < 9) (hn : l.nacks < 9)
    (hout : l.out = fs ++ f :: gs) (hf : f.vc = vc) (hfs : ∀ g ∈ fs, g.vc ≠ vc) :
    exec (.flitSend link vc) s =
      if f.len = 0 then .next (s.setLink { l with out := fs ++ gs })
      else if 0 < l.free vc ∧ l.turnOf vc = true then
        .next (s.setLink { l with out := fs ++ gs, sent := l.sent ++ [f], share := l.shareAfter vc,
                                  credits := l.credits.setIfInBounds vc.toNat (l.free vc - 1) })
      else notNow "FLIT_SEND" := by
  subst hl
  have hany : (s.linkAt link).out.any (fun f => f.vc == vc) = true :=
    List.any_eq_true.mpr ⟨f, by rw [hout]; simp, by simp [hf]⟩
  have hfirst : ∀ g ∈ fs, (g.vc == vc) = false := fun g hg => by simpa using hfs g hg
  change execFlitSend link vc s = _
  unfold execFlitSend
  simp only [hany, if_true]
  rw [hout, find_mid _ fs gs f hfirst (by simpa using hf), dropFirst_mid _ fs gs f hfirst (by simpa using hf)]
  simp only [hup, Link.spent_of_below hfail hn, Bool.not_true, Bool.or_self, Bool.false_eq_true, if_false]

/-- Two elastic flits go for one batch flit, where both may leave (R400). -/
theorem Link.turnOf_elastic (h : vc.toNat / 2 = 2) :
    (l.turnOf vc = true ↔ (l.waits 6 = false ∧ l.waits 7 = false) ∨ l.share < 2) ∧ l.shareAfter vc = min 2 (l.share + 1) := by
  simp [Link.turnOf, Link.shareAfter, h]

theorem Link.turnOf_batch (h : vc.toNat / 2 = 3) :
    (l.turnOf vc = true ↔ (l.waits 4 = false ∧ l.waits 5 = false) ∨ 2 ≤ l.share) ∧ l.shareAfter vc = 0 := by
  simp [Link.turnOf, Link.shareAfter, h]

theorem Link.turnOf_other (h2 : vc.toNat / 2 ≠ 2) (h3 : vc.toNat / 2 ≠ 3) : l.turnOf vc = true ∧ l.shareAfter vc = l.share := by
  simp [Link.turnOf, Link.shareAfter, h2, h3]

/-- With no flit of the channel, the oldest message for it goes into flits first (R397, R408). -/
theorem exec_flitSend_of_message {ms ns : List OutMsg} {m : OutMsg} {k : Link} {t : State} (hnone : ∀ f ∈ (s.linkAt link).out, f.vc ≠ vc)
    (hq : s.outq = ms ++ m :: ns) (hm : m.vc = vc) (hto : s.linkTo m.node = some k) (hk : k.link = link)
    (hms : ∀ b ∈ ms, ¬ (b.vc = vc ∧ ∃ j, s.linkTo b.node = some j ∧ j.link = link))
    (ht : t = State.post { s with outq := ms ++ ns } m.node vc m.bytes) (hsome : ∃ f ∈ (t.linkAt link).out, f.vc = vc) :
    exec (.flitSend link vc) s = exec (.flitSend link vc) t := by
  have hsnone : (s.linkAt link).out.any (fun f => f.vc == vc) = false := List.any_eq_false.mpr fun f hf => by simpa using hnone f hf
  obtain ⟨f, hf, hfvc⟩ := hsome
  have htany : (t.linkAt link).out.any (fun f => f.vc == vc) = true := List.any_eq_true.mpr ⟨f, hf, by simp [hfvc]⟩
  have hfirst : ∀ b ∈ ms, (b.vc == vc && (s.linkTo b.node).any (fun l => l.link == link)) = false := by
    intro b hb
    have hnot := hms b hb
    cases hj : s.linkTo b.node with
    | none => simp
    | some j =>
      rw [hj] at hnot
      simp only [Option.any_some, Bool.and_eq_false_iff, beq_eq_false_iff_ne]
      refine Classical.byContradiction fun hboth => ?_
      simp only [not_or, Classical.not_not] at hboth
      exact hnot ⟨hboth.1, j, rfl, hboth.2⟩
  have hfill : s.fillLink link vc = t := by
    unfold State.fillLink
    dsimp only
    rw [hq, find_mid _ ms ns m hfirst (by simp [hm, hto, hk]), dropFirst_mid _ ms ns m hfirst (by simp [hm, hto, hk])]
    simp only [ht]
  change execFlitSend link vc s = execFlitSend link vc t
  unfold execFlitSend
  simp only [hsnone, htany, hfill, Bool.false_eq_true, if_false, if_true]

end Send

/-- A link on which a flit has failed its replays goes down; its flits move, or what waits for them faults (R358, R397). -/
theorem exec_linkDown_of_failed {link : Nat} {s t : State} {l : Link} (hl : l = s.linkAt link) (hup : l.up = true)
    (hfail : 9 ≤ l.fails ∨ 9 ≤ l.nacks) (ht : t = s.setLink { l with up := false, out := [], sent := [] }) :
    exec (.linkDown link) s = match t.links.find? (fun m => m.link / 4 == link / 4 && m.up) with
      | some m => .next (t.setLink { m with out := m.out ++ l.out.filter (fun f => f.len != 0) })
      | none => .next ((t.ctxs.filter (fun x => t.hostPending x (link / 4))).foldl (fun (t : State) x => t.ctxFault x 2) t) := by
  subst hl ht
  change execLinkDown link s = _
  unfold execLinkDown
  rw [if_neg (by simp [hup, Link.spent_of_failed hfail])] <;> rfl

/-! ### Inbound accesses -/

theorem mem_spanKeys_of_mem_spanPoints {k n q : Nat} (h : q ∈ spanPoints k n) : q ∈ spanKeys k n := by
  obtain ⟨hq, hlt⟩ := List.mem_filter.mp h
  have hlt : q < k + n := by simpa using hlt
  have hle : k ≤ q := by
    rcases List.mem_cons.mp hq with rfl | hq
    · exact Nat.le_refl _
    · obtain ⟨i, -, rfl⟩ := List.mem_map.mp hq
      omega
  refine List.mem_map.mpr ⟨q - k, ?_, by omega⟩
  simp only [upTo, List.mem_range]
  omega

section Inbound

variable {node ctx off len : Nat} {s : State} {x : Ctx} {base size : Word} {k j : Nat}

/-- The bound node's access within window 1 has its address and its location (R404). -/
theorem Ctx.inbound_of_window {n : Nat} {acc : Acc} (hw : x.winIn = some (base, size)) (hnode : x.node = node) (hkey : x.keyValid = true)
    (hbase : 0x1000000000000 ≤ base.toNat) (hn : 0 < n) (hsize : off + n ≤ size.toNat)
    (hk : resolveDev x (BitVec.ofNat 64 (base.toNat + off)) (base.toNat + off - 0x1000000000000) acc = .ok k)
    (hj : resolveDev x (BitVec.ofNat 64 (base.toNat + off)) (base.toNat + off - 0x1000000000000 + n - 1) acc = .ok j) :
    x.inbound node off n acc = some (BitVec.ofNat 64 (base.toNat + off), k) := by
  unfold Ctx.inbound
  simp only [hw]
  rw [if_neg, hk, hj]
  simp only [hnode, hkey, ne_eq, not_true_eq_false, Bool.not_true, Bool.false_eq_true, false_or]
  omega

theorem Ctx.inbound_of_refused (n : Nat) (acc : Acc) (h : x.winIn = none ∨ x.node ≠ node) : x.inbound node off n acc = none := by
  unfold Ctx.inbound
  cases hw : x.winIn with
  | none => rfl
  | some e =>
    have hnode : x.node ≠ node := h.resolve_left (by simp [hw])
    exact if_pos (.inl hnode)

theorem exec_inboundAccess_of_refused (hx : s.ctxAt ctx = some x) (h : x.winIn = none ∨ x.node ≠ node) (data : Option (List Byte)) :
    exec (.inboundAccess node ctx off len data) s = .next (s.takeGot node ctx) := by
  change execInboundAccess node ctx off len data s = _
  unfold execInboundAccess
  cases data <;> simp only [hx, Ctx.inbound_of_refused _ _ h]

/-- A read by the bound node: its bytes leave, or the error in them takes the context (R258, R404). -/
theorem exec_inboundAccess_of_read {va : Word} (hx : s.ctxAt ctx = some x) (hin : x.inbound node off len .engRead = some (va, k))
    (hpage : ∀ q ∈ spanKeys k len, s.tlbHit q = true) :
    exec (.inboundAccess node ctx off len none) s = match s.errorAt k len with
      | some e => .next (if x.err.isSome then s.takeGot node ctx
          else (s.takeGot node ctx).uncorrCtx x (va + BitVec.ofNat 64 (e.lo - k)) e)
      | none => .next ((State.noteAccess (s.takeGot node ctx) ctx k len false).respond x node (s.readHomeN k len)) := by
  change execInboundAccess node ctx off len none s = _
  unfold execInboundAccess
  simp only [hx, hin]
  rw [withPages_of_hits _ _ fun q hq => hpage q (mem_spanKeys_of_mem_spanPoints hq)] <;> rfl

theorem exec_inboundAccess_of_write {va : Word} {bs : List Byte} (hx : s.ctxAt ctx = some x)
    (hin : x.inbound node off bs.length .engWrite = some (va, k)) (hpage : ∀ q ∈ spanKeys k bs.length, s.tlbHit q = true) :
    exec (.inboundAccess node ctx off len (some bs)) s =
      .next (((s.takeGot node ctx).land (cellsAt k bs)).noteAccess ctx k bs.length true) := by
  change execInboundAccess node ctx off len (some bs) s = _
  unfold execInboundAccess
  simp only [hx, hin]
  rw [withPages_of_hits _ _ fun q hq => hpage q (mem_spanKeys_of_mem_spanPoints hq)]

/-- The slots of taken flits are free again, and the far end is told of each (R399). -/
theorem giveBack_foldl (s : State) (fs : List Flit) (l : Link) :
    fs.foldl (fun l f => s.giveBack l f.vc) l =
      { l with out := l.out ++ fs.map (fun f => s.bareFlit l f.vc (Config.flitType f.vc)) } := by
  induction fs generalizing l with
  | nil => simp
  | cons f fs ih =>
    rw [List.foldl_cons, ih, List.map_cons]
    simp [State.giveBack, State.bareFlit]

theorem State.takeGot_links (s : State) (node ctx : Nat) : (s.takeGot node ctx).links = s.links.map (fun l => { l with
    got := l.got.filter (fun f => !(f.src.toNat == node && f.ctx.toNat == ctx)),
    out := l.out ++ (l.got.filter (fun f => f.src.toNat == node && f.ctx.toNat == ctx)).map
      (fun f => s.bareFlit l f.vc (Config.flitType f.vc)) }) := by
  unfold State.takeGot
  simp only [giveBack_foldl] <;> rfl

/-- The channel on which a context's bytes leave for a node (R400). -/
theorem dataLink_spec {response : Bool} {l : Link} {vc : BitVec 4} (h : s.dataLink x node response = some (l, vc)) :
    l ∈ s.links ∧ l.up = true ∧ l.node = some node ∧
    (x.warrant.sealed = false → l.link / 4 ∈ x.layout.dies ∧
      vc = BitVec.ofNat 4 (2 * x.res.cls + 2 + (if response then 1 else 0))) ∧
    (x.warrant.sealed = true → ∃ e ∈ x.pairs, e.1 = l.link / 4 ∧ vc = BitVec.ofNat 4 (8 + 2 * e.2 + (if response then 1 else 0))) := by
  unfold State.dataLink at h
  cases hs : x.warrant.sealed with
  | false =>
    simp only [hs, Bool.false_eq_true, if_false, Option.map_eq_some_iff, Prod.mk.injEq] at h
    obtain ⟨m, hm, rfl, rfl⟩ := h
    have hp := List.find?_some hm
    simp only [Bool.and_eq_true, beq_iff_eq, List.contains_iff_mem, dieOfLink] at hp
    exact ⟨List.mem_of_find?_eq_some hm, hp.1.1, hp.1.2, fun _ => ⟨hp.2, rfl⟩, fun h => absurd h (by simp)⟩
  | true =>
    simp only [hs, if_true] at h
    obtain ⟨m, hm, hpair⟩ := List.exists_of_findSome?_eq_some h
    simp only [Option.map_eq_some_iff, Prod.mk.injEq] at hpair
    obtain ⟨e, he, rfl, rfl⟩ := hpair
    obtain ⟨hmem, hp⟩ := List.mem_filter.mp hm
    simp only [Bool.and_eq_true, beq_iff_eq] at hp
    have hdie := List.find?_some he
    simp only [beq_iff_eq, dieOfLink] at hdie
    exact ⟨hmem, hp.1, hp.2, fun h => absurd h (by simp), fun _ => ⟨e, List.mem_of_find?_eq_some he, hdie, rfl⟩⟩

theorem exec_inboundAccess_of_host {bs : List Byte} (hx : s.ctxAt 0 = none) (hn : node < 2 ^ 16) (ho : off + bs.length ≤ 2 ^ 64) :
    exec (.inboundAccess node 0 off len (some bs)) s = .next ((s.takeGot node 0).land (cellsAt (keyOf Space.host node off) bs)) := by
  change execInboundAccess node 0 off len (some bs) s = _
  unfold execInboundAccess
  simp only [hx]
  exact if_pos ⟨trivial, hn, ho⟩

end Inbound

/-- Settles O56: each event of a link, and the inbound accesses. -/
theorem linksCarryFlits : Obligations.LinksCarryFlits := by
  unfold Obligations.LinksCarryFlits
  refine ⟨?_, ?_, ?_, ?_, ?_, ?_, ?_, ?_, ?_, ?_, ?_, ?_⟩
  · intro link node s known hl hk
    exact exec_linkTraining_of_known hl hk
  · intro link f s l hl hup hf hn
    have hexec := exec_flitReceive_of_up (f := f) hl hup hf hn
    refine ⟨fun hbad => ?_, fun hgood hother => ?_, fun hgood hsrc hdst => ?_⟩
    · rw [hexec, hbad]
      rfl
    · rw [hexec, hgood]
      exact if_pos (hother.imp (fun h => Ne.symm h) id)
    · have hmine : ¬ (some f.src.toNat ≠ l.node ∨ f.dst.toNat ≠ s.ownNode) := by simp [hsrc, hdst]
      rw [if_neg (by simp [hgood]), if_neg hmine] at hexec
      refine ⟨fun hlen hvc => ?_, fun hlen hvc hno => ?_, fun hlen hvc hmay heven hroom => ?_, ?_, ?_⟩
      · rw [hexec, if_neg hlen, if_pos (mayEnter_of_umpire hvc), takeFlit_of_umpire hvc]
        rfl
      · rw [hexec, if_neg hlen]
        by_cases hmay : s.mayEnter { l with fails := 0 } f = true
        · have hodd : f.vc.toNat % 2 = 1 := hno.resolve_left (by intro h; exact absurd (h.symm.trans hmay) (by simp))
          rw [if_pos hmay, takeFlit_of_response hvc hodd]
          rfl
        · rw [if_neg hmay]
          rfl
      · have hmay' : s.mayEnter { l with fails := 0 } f = true := hmay
        rw [hexec, if_neg hlen, if_pos hmay', takeFlit_of_request (l := { l with fails := 0 }) hvc heven hroom]
      · intro hlen ht gs g hs hsent hg hgs
        rw [hexec, if_pos hlen, Link.takeBare_of_credit (l := { l with fails := 0 }) ht hsent hg hgs]
        rfl
      · intro hlen ht gs g hs hsent hg hhs
        rw [hexec, if_pos hlen, Link.takeBare_of_replay (l := { l with fails := 0 }) ht hsent hg hhs]
        rfl
  · intro s l f x hvc hx
    refine ⟨fun hs => ?_, fun hs => ?_⟩
    · rw [mayEnter_of_ctx hvc hx, hs]
      simp only [Bool.false_eq_true, if_false, beq_iff_eq]
      exact eq_comm
    · rw [mayEnter_of_ctx hvc hx, hs]
      simp only [if_true, List.any_eq_true, Bool.and_eq_true, beq_iff_eq, dieOfLink]
      exact exists_congr fun e => and_congr_right fun _ => and_congr_right fun _ => eq_comm
  · intro link vc s l fs gs f hl hup hfail hn hout hf hfs
    have hexec := exec_flitSend_of_out hl hup hfail hn hout hf hfs
    refine ⟨fun hlen => ?_, fun n hlen hcredit hturn => ?_⟩
    · rw [hexec, if_pos hlen]
    · have hfree : l.free vc = n + 1 := by simp [Link.free, hcredit]
      rw [hexec, if_neg hlen, if_pos ⟨by omega, hturn⟩, hfree]
      rfl
  · intro l vc
    exact ⟨Link.turnOf_elastic, Link.turnOf_batch, Link.turnOf_other⟩
  · intro link vc s t ms ns m k hnone hq hm hto hk hms ht hsome
    exact exec_flitSend_of_message hnone hq hm hto hk hms ht hsome
  · intro link s t l hl hup hfail ht
    have hexec := exec_linkDown_of_failed hl hup hfail ht
    refine ⟨fun m hm => ?_, fun hm => ?_⟩
    · rw [hexec, hm]
    · rw [hexec, hm]
  · intro node ctx off len s x base size k j bs hx hw hnode hkey hbase
    refine ⟨fun hn hsize hk hj hpage => ?_, fun hbs hsize hk hj hpage => ?_⟩
    · have hexec := exec_inboundAccess_of_read hx (Ctx.inbound_of_window hw hnode hkey hbase hn hsize hk hj) hpage
      refine ⟨fun he => ?_, fun e he herr => ?_⟩
      · rw [hexec, he]
      · rw [hexec, he]
        simp [herr]
    · exact exec_inboundAccess_of_write hx
        (Ctx.inbound_of_window hw hnode hkey hbase (List.length_pos_iff.mpr hbs) hsize hk hj) hpage
  · intro node ctx off len data s x hx h
    exact exec_inboundAccess_of_refused hx h data
  · intro node ctx s
    exact s.takeGot_links node ctx
  · intro node s x response l vc h
    exact dataLink_spec h
  · intro node off len s bs hx hn ho
    exact exec_inboundAccess_of_host hx hn ho

end Sys2Proof.Machine


/-! A warrant instruction and the claims of its thread's slot (R336, R337; O29). -/

namespace Sys2Proof.Machine

/-- Context 1 with the handle 64 of itself. -/
def selfHandled : Ctx := { placedCtx 0 with handles := [{ gen := 1, target := some 1 }] }

/-- A thread of it. -/
def asker : Slot := placedSlot 0

/-- Its unit, with another thread at hand in its slot, one of no context, and with a claim of that slot under way. -/
def claiming : State :=
  { State.reset with
    cur := { asker with owner := none }, ctxs := [selfHandled], auto := false,
    claims := [{ msg := { serial := 0, root := 0, notBefore := 0, device := 0 }, first := 0, last := 0, who := .redeemThread 0 1 0 0 }] }

/-- In that unit no claim is one of context 1's family: the slot that claims holds no thread of it. -/
theorem claiming_free : UmpireFree claiming asker selfHandled := ⟨rfl, rfl, rfl, rfl, by decide, by decide⟩

/-- Once the asker stands in the slot, the claim is its family's, and the umpire takes up no request of it (R337). -/
theorem claiming_asked_not_now :
    exec (.warrantRequestHandled 0) (asked claiming asker .wqry 5 64 0) = notNow "WARRANT_REQUEST_HANDLED" := rfl

/-- Refutes O29: the statement asks that no claim of the family is under way before the asker stands in its slot, not after. With
another thread in the slot, one of no family, whose claim is under way, the claim becomes the asker's family's own as the asker
takes the slot, and WQRY is not answered. -/
theorem not_warrantInstructionsAreAnswered : ¬ Obligations.WarrantInstructionsAreAnswered := by
  unfold Obligations.WarrantInstructionsAreAnswered
  rintro ⟨-, answered, -⟩
  obtain ⟨wqry, -⟩ := answered claiming _ asker 5 64 0 selfHandled selfHandled (by decide) claiming_free rfl
  obtain ⟨t, v, handled, -⟩ := wqry rfl
  have stands : exec (.warrantRequestHandled 0) (asked claiming asker .wqry 5 64 0) = .next t := handled
  rw [claiming_asked_not_now] at stands
  cases stands

end Sys2Proof.Machine


/-! What the engines' reads and writes leave (R231, R254): what a note counts, what a landing serves (O45, O46, O48). -/

namespace Sys2Proof.Machine

/-! ### What a landing leaves of the engines' own state -/

/-- The requests, the matrix units, the collectives and the contexts' shares stand. -/
structure EnginesKept (s t : State) : Prop where
  xfers : t.xfers = s.xfers
  matrix : t.matrix = s.matrix
  colls : t.colls = s.colls
  shares : ∀ id, (t.ctxAt id).map Ctx.shares = (s.ctxAt id).map Ctx.shares

namespace EnginesKept

variable {s t u : State}

theorem refl (s : State) : EnginesKept s s := ⟨rfl, rfl, rfl, fun _ => rfl⟩

theorem trans (h : EnginesKept s t) (h' : EnginesKept t u) : EnginesKept s u :=
  ⟨h'.xfers.trans h.xfers, h'.matrix.trans h.matrix, h'.colls.trans h.colls, fun id => (h'.shares id).trans (h.shares id)⟩

theorem of_ctxs (hx : t.xfers = s.xfers) (hm : t.matrix = s.matrix) (hc : t.colls = s.colls) (h : t.ctxs = s.ctxs) :
    EnginesKept s t :=
  ⟨hx, hm, hc, fun id => by rw [State.ctxAt, State.ctxAt, h]⟩

theorem setCtx {x y : Ctx} (hy : s.ctxAt x.id = some y) (h : x.shares = y.shares) : EnginesKept s (s.setCtx x) := by
  refine ⟨rfl, rfl, rfl, fun id => ?_⟩
  by_cases hid : id = x.id
  · rw [hid, State.ctxAt_setCtx_same, hy, Option.map_some, Option.map_some, h]
  · rw [State.ctxAt_setCtx_other _ _ hid]

theorem setSlot (s : State) (c : Slot) : EnginesKept s (s.setSlot c) := by
  unfold State.setSlot
  repeat' split
  all_goals exact of_ctxs rfl rfl rfl rfl

theorem notify (s : State) (x : Ctx) (k : NoticeKind) (bs : List Byte) : EnginesKept s (s.notify x k bs) := by
  unfold State.notify State.post
  dsimp only
  split <;> exact of_ctxs rfl rfl rfl rfl

theorem foldl {α : Type} {f : State → α → State} (h : ∀ s a, EnginesKept s (f s a)) (as : List α) (s : State) :
    EnginesKept s (as.foldl f s) := by
  induction as generalizing s with
  | nil => exact refl s
  | cons a as ih => exact (h s a).trans (ih _)

theorem enterError (s : State) (id kind die : Nat) (r : List Byte) : EnginesKept s (s.enterError id kind die r) := by
  unfold State.enterError
  split
  · exact refl s
  · next x hx =>
    have hid : s.ctxAt x.id = some x := by rw [State.ctxAt_id hx, hx]
    split
    · exact setCtx hid rfl
    · split
      · exact notify ..
      · exact setCtx hid rfl

theorem fatalTrap (s : State) (c : Slot) (cause : TrapCause) (value : Word) (word : IWord) (loc : Word) :
    EnginesKept s (fatalTrap s c cause value word loc) := by
  unfold Machine.fatalTrap fatalTrapAt
  dsimp only
  split
  · exact setSlot ..
  · exact (setSlot ..).trans (enterError ..)

theorem setFull (s : State) (k : Nat) (b : Bool) : EnginesKept s (s.setFull k b) := of_ctxs rfl rfl rfl rfl

theorem ringDoorbells (s : State) (cs : List Host.Cell) (k : Nat) : EnginesKept s (s.ringDoorbells cs k) := by
  unfold State.ringDoorbells
  split
  · split
    · next x hx =>
      split
      · exact refl s
      · exact setCtx (y := x) (by rw [← hx, State.ctxAt_id hx]) rfl
    · exact refl s
  · exact refl s

theorem land (s : State) (cs : List Host.Cell) : EnginesKept s (s.land cs) := by
  unfold State.land
  split
  · exact refl s
  · split
    · exact refl s
    · split
      · refine trans (t := State.trigger { s with mem := _, errs := _ } _) ?_ (ringDoorbells ..)
        exact of_ctxs rfl rfl rfl rfl
      · unfold State.landImage
        exact setSlot ..

theorem feLoaded (s : State) (c : Slot) (d : Reg5) (va : Word) (k : Nat) : EnginesKept s (s.feLoaded c d va k) := by
  unfold State.feLoaded
  split
  · exact fatalTrap ..
  · exact setSlot ..

end EnginesKept

/-! ### Counting and charging -/

/-- A context but for what it has used. -/
def Ctx.unmetered (x : Ctx) : Ctx := { x with meter := 0 }

/-- Counts, charges and requests to the host alone are new. -/
structure Noted (s t : State) : Prop where
  rest : ∃ cs xs ls, t = { s with counters := cs, ctxs := xs, links := ls }
  ctx : ∀ id, (t.ctxAt id).map Ctx.unmetered = (s.ctxAt id).map Ctx.unmetered

namespace Noted

variable {s t u : State}

theorem refl (s : State) : Noted s s := ⟨⟨_, _, _, rfl⟩, fun _ => rfl⟩

theorem trans (h : Noted s t) (h' : Noted t u) : Noted s u := by
  obtain ⟨_, _, _, rfl⟩ := h.rest
  obtain ⟨_, _, _, rfl⟩ := h'.rest
  exact ⟨⟨_, _, _, rfl⟩, fun id => (h'.ctx id).trans (h.ctx id)⟩

theorem foldl {α : Type} {f : State → α → State} (h : ∀ s a, Noted s (f s a)) (as : List α) (s : State) : Noted s (as.foldl f s) := by
  induction as generalizing s with
  | nil => exact refl s
  | cons a as ih => exact (h s a).trans (ih _)

theorem count (s : State) (id u e n : Nat) : Noted s (s.count id u e n) := by
  obtain ⟨cs, h⟩ := s.count_eq id u e n
  rw [h]
  exact ⟨⟨_, _, _, rfl⟩, fun _ => rfl⟩

theorem charge (s : State) (id cls n : Nat) : Noted s (s.charge id cls n) := by
  obtain ⟨xs, h⟩ := s.charge_eq id cls n
  refine ⟨⟨s.counters, xs, s.links, h⟩, fun q => ?_⟩
  unfold State.charge
  split
  · next x hx =>
    split
    · rfl
    · by_cases hq : q = x.id
      · subst hq
        rw [show x.id = ({ x with meter := x.meter + s.energyCost cls * n } : Ctx).id from rfl, State.ctxAt_setCtx_same]
        rw [show s.ctxAt ({ x with meter := x.meter + s.energyCost cls * n } : Ctx).id = some x from State.ctxAt_id hx ▸ hx]
        rfl
      · rw [State.ctxAt_setCtx_other _ _ (show q ≠ ({ x with meter := x.meter + s.energyCost cls * n } : Ctx).id from hq)]
  · rfl

theorem request (s : State) (x : Ctx) (k n : Nat) (w : Bool) : Noted s (s.request x k n w) := by
  obtain ⟨ls, h⟩ := s.request_eq x k n w
  rw [h]
  exact ⟨⟨_, _, _, rfl⟩, fun _ => rfl⟩

theorem noteAccess (s : State) (id k n : Nat) (w : Bool) : Noted s (s.noteAccess id k n w) := by
  unfold State.noteAccess
  split
  · exact refl s
  · dsimp only
    split
    · exact (count ..).trans (charge ..)
    split
    · exact (count ..).trans (charge ..)
    split
    · exact (count ..).trans (charge ..)
    split
    · split
      · exact ((request ..).trans (count ..)).trans (charge ..)
      · exact request ..
    · exact refl s

theorem noteBlocks (s : State) (id : Nat) (ks : List Nat) (w : Bool) : Noted s (s.noteBlocks id ks w) :=
  foldl (fun s (r : Nat × Nat) => noteAccess s id r.1 r.2 w) _ s

theorem noteFar (s : State) (e : Coll) (n : Nat) : Noted s (s.noteFar e n) := (count ..).trans (charge ..)

theorem noteStep (s : State) (x : Ctx) (clus : Nat) (w : Word) : Noted s (s.noteStep x clus w) :=
  ((count ..).trans (count ..)).trans (charge ..)

theorem noteEngine (s : State) (t : Xfer) (ks : List Nat) (landed : Nat) (start own : Bool) :
    Noted s (s.noteEngine t ks landed start own) := by
  unfold State.noteEngine
  split
  · next x k _ _ =>
    have hbytes : Noted s (if t.kind == .gath then s.charge t.ctx 5 (unitsLanded landed ks.length)
        else if own || t.inOwn k then
          (s.charge t.ctx 5 (unitsLanded landed ks.length)).count t.ctx ((x.lcoreOf t.core).getD 0) 0x4D ks.length
        else (s.charge t.ctx 5 (unitsLanded landed ks.length)).count t.ctx ((x.lclusOf (t.core / 8)).getD 0) 0x83 ks.length) := by
      split
      · exact charge ..
      split
      · exact (charge ..).trans (count ..)
      · exact (charge ..).trans (count ..)
    dsimp only
    split
    · exact hbytes.trans (noteBlocks ..)
    split
    · exact hbytes.trans (count ..)
    · exact hbytes
  · exact refl s

section Keeps
variable (h : Noted s t)
include h

theorem keeps : EnginesKept s t := by
  obtain ⟨_, _, _, rfl⟩ := h.rest
  refine ⟨rfl, rfl, rfl, fun id => ?_⟩
  have hs := congrArg (Option.map Ctx.shares) (h.ctx id)
  rwa [Option.map_map, Option.map_map] at hs

theorem mem : t.mem = s.mem := by
  obtain ⟨_, _, _, rfl⟩ := h.rest
  rfl

theorem feq : t.feq = s.feq := by
  obtain ⟨_, _, _, rfl⟩ := h.rest
  rfl

theorem cur : t.cur = s.cur := by
  obtain ⟨_, _, _, rfl⟩ := h.rest
  rfl

theorem slots : t.slots = s.slots := by
  obtain ⟨_, _, _, rfl⟩ := h.rest
  rfl

theorem keyHeld (k : Nat) : t.keyHeld k = s.keyHeld k := by
  have hv := congrArg (Option.map Ctx.keyValid) (h.ctx (keyUnit k))
  rw [Option.map_map, Option.map_map] at hv
  unfold State.keyHeld
  change (t.ctxAt (keyUnit k)).map Ctx.keyValid = (s.ctxAt (keyUnit k)).map Ctx.keyValid at hv
  cases ht : t.ctxAt (keyUnit k) <;> cases hs : s.ctxAt (keyUnit k) <;> rw [ht, hs] at hv <;> simp_all

end Keeps

end Noted

namespace EnginesKept

/-! ### Full/empty requests that a landing serves -/

theorem serveFe (s : State) (c : Slot) (op : FeOp) (d : Reg5) (va : Word) (k : Nat) (v : Word) :
    EnginesKept s (s.serveFe c op d va k v) := by
  have hfirst (fs : List Nat) : EnginesKept s { s.noteAccess (c.owner.getD 0) k 8 (op == .stfe) with feq := fs } :=
    (Noted.noteAccess ..).keeps.trans (of_ctxs rfl rfl rfl rfl)
  unfold State.serveFe
  dsimp only
  split
  · exact (hfirst _).trans (feLoaded ..)
  · refine trans ((hfirst ((s.noteAccess (c.owner.getD 0) k 8 false).feq.filter (fun p => p != c.phys))).trans ?_) (feLoaded ..)
    split
    · exact refl _
    · exact setFull ..
  · exact (hfirst _).trans (setSlot ..)
  · exact (((hfirst _).trans (setSlot ..)).trans (land ..)).trans (setFull ..)

theorem settleGranule (g n : Nat) (s : State) : EnginesKept s (settleGranule g n s) := by
  induction n generalizing s with
  | zero => exact refl s
  | succ n ih =>
    unfold Machine.settleGranule
    split
    · split
      · exact (serveFe ..).trans (ih _)
      · exact refl s
    · split
      · exact (serveFe ..).trans (ih _)
      · exact refl s

theorem settle (s : State) (gs : List Nat) : EnginesKept s (s.settle gs) := foldl (fun s g => settleGranule g _ s) gs s

/-- The granules that some cells name are set full. -/
theorem fill (cs : List Host.Cell) (s : State) :
    EnginesKept s (cs.foldl (fun (s : State) (x : Host.Cell) => if s.isFull x.1 then s else s.setFull x.1 true) s) :=
  foldl (fun s x => by
    split
    · exact refl s
    · exact setFull ..) cs s

theorem engineEvent (s : State) (cs : List Host.Cell) (last : Bool) : EnginesKept s (s.engineEvent cs last) :=
  ((land ..).trans (fill ..)).trans (settle ..)

theorem engineWrite (s : State) (cs : List Host.Cell) : EnginesKept s (s.engineWrite cs) :=
  ((land ..).trans (fill ..)).trans (settle ..)

theorem landXfer (s : State) (t : Xfer) (ks : List Nat) (bs : List Byte) (landed : Nat) (start own : Bool) :
    EnginesKept s (s.landXfer t ks bs landed start own) := by
  have hev := (Noted.noteEngine s t ks landed start own).keeps.trans (engineEvent _ (ks.zip bs) false)
  unfold State.landXfer
  dsimp only
  split
  · exact hev.trans (of_ctxs rfl rfl rfl rfl)
  · exact hev

end EnginesKept

/-! ### What has landed -/

theorem spanKeys_cons (k n : Nat) : spanKeys k (n + 1) = k :: spanKeys (k + 1) n := by
  simp only [spanKeys, upTo, List.range_succ_eq_map, List.map_cons, List.map_map, Nat.add_zero]
  congr 1
  refine List.map_congr_left fun i _ => ?_
  simp only [Function.comp_apply]
  omega

theorem zip_spanKeys (k : Nat) (bs : List Byte) : (spanKeys k bs.length).zip bs = cellsAt k bs := by
  induction bs generalizing k with
  | nil => rfl
  | cons b bs ih => rw [List.length_cons, spanKeys_cons, List.zip_cons_cons, ih, cellsAt]

theorem cellsAt_keys (k : Nat) (bs : List Byte) : (cellsAt k bs).map (fun y => y.1) = spanKeys k bs.length := by
  induction bs generalizing k with
  | nil => rfl
  | cons b bs ih => rw [List.length_cons, spanKeys_cons, cellsAt, List.map_cons, ih]

/-- The bits that are set full. -/
theorem fill_eq (cs : List Host.Cell) (s : State) :
    ∃ fs, cs.foldl (fun (s : State) (x : Host.Cell) => if s.isFull x.1 then s else s.setFull x.1 true) s = { s with full := fs } := by
  induction cs generalizing s with
  | nil => exact ⟨s.full, rfl⟩
  | cons x cs ih =>
    rw [List.foldl_cons]
    by_cases hx : s.isFull x.1 = true
    · rw [if_pos hx]
      exact ih s
    · rw [if_neg hx]
      obtain ⟨fs, h⟩ := ih (s.setFull x.1 true)
      exact ⟨fs, h⟩

section Landing
variable {s : State} {cs : List Host.Cell} (hfeq : s.feq = []) (hmem : ∀ y ∈ cs, inMem y.1 = true) (hkey : ∀ y ∈ cs, s.keyHeld y.1 = true)
include hfeq hmem hkey

theorem State.settle_fill_mem (fs gs : List Nat) : (({ s.land cs with full := fs } : State).settle gs).mem = writeCells s.mem cs := by
  rw [State.settle_of_feq_nil gs (show ({ s.land cs with full := fs } : State).feq = [] from (State.land_feq s hmem).trans hfeq)]
  exact State.land_mem_eq s fun y hy => ⟨hmem y hy, hkey y hy⟩

theorem State.engineEvent_mem (last : Bool) : (s.engineEvent cs last).mem = writeCells s.mem cs := by
  obtain ⟨fs, h⟩ := fill_eq (granuleEnds cs last) (s.land cs)
  unfold State.engineEvent
  dsimp only
  rw [h]
  exact State.settle_fill_mem hfeq hmem hkey fs _

theorem State.engineWrite_mem : (s.engineWrite cs).mem = writeCells s.mem cs := by
  obtain ⟨fs, h⟩ := fill_eq (cs.filter (fun x => hasGranule x.1)) (s.land cs)
  unfold State.engineWrite State.landFull
  rw [h]
  exact State.settle_fill_mem hfeq hmem hkey fs _

end Landing

/-! ### Reads and writes that go on -/

theorem MayWrite.keyHeld {s : State} {core k : Nat} {ks : List Nat} (h : MayWrite s core ks) (hk : k ∈ ks) : s.keyHeld k = true := by
  have hhit := (h k hk).2
  unfold State.tlbHit at hhit
  exact (Bool.and_eq_true_iff.1 hhit).2

theorem engWrites_of_mayWrite {s : State} {core : Nat} {ks : List Nat} (event : String) (go : Unit → Out) (h : MayWrite s core ks) :
    engWrites s core ks event go = go () := by
  have hall : ks.all (s.engMayWrite core) = true := List.all_eq_true.2 fun k hk => (h k hk).1
  unfold engWrites
  rw [hall]
  exact withPages_of_hits _ _ fun k hk => (h k hk).2

theorem withWalks_of_hits {s : State} {ks : List Nat} (seen : Nat) (mark : Nat → State → State) (event : String) (go : Unit → Out)
    (h : ∀ k ∈ ks, s.tlbHit k = true) : withWalks s ks seen mark event go = go () := by
  have hboth : ∀ k ∈ ks, s.tlbHas k = true ∧ s.keyHeld k = true := fun k hk => by
    simpa [State.tlbHit] using h k hk
  have hmissing : s.missing ks seen = none := by
    refine List.findSome?_eq_none_iff.2 fun e he => if_pos ?_
    exact (hboth _ (List.fst_mem_of_mem_zipIdx (List.mem_of_mem_drop he))).1
  have hkeys : ks.any (fun k => !s.keyHeld k) = false := List.any_eq_false.2 fun k hk => by simp [(hboth k hk).2]
  unfold withWalks
  rw [hmissing, hkeys]
  rfl

theorem engReads_of_open {s : State} {x : Ctx} {isOpen : Nat → Bool} {ks : List Nat} (seen : Nat) (mark : Nat → State → State)
    (va : Nat → Word) (event : String) (go : Unit → Out)
    (h : ∀ k ∈ ks, isOpen k = true ∧ s.tlbHit k = true ∧ s.errorAt k 1 = none) :
    engReads s x isOpen ks seen mark va event go = go () := by
  have hall : ks.all isOpen = true := List.all_eq_true.2 fun k hk => (h k hk).1
  have herr : ks.zipIdx.find? (fun e => (s.errorAt e.1 1).isSome) = none := by
    refine List.find?_eq_none.2 fun e he => ?_
    rw [(h _ (List.fst_mem_of_mem_zipIdx he)).2.2]
    decide
  unfold engReads
  rw [hall, withWalks_of_hits _ _ _ _ fun k hk => (h k hk).2.1, herr]
  rfl

theorem engReads_of_mayRead {s : State} {x : Ctx} {core : Nat} {ks : List Nat} (seen : Nat) (mark : Nat → State → State)
    (va : Nat → Word) (event : String) (go : Unit → Out) (h : MayRead s core ks) :
    engReads s x (s.engOpen core) ks seen mark va event go = go () :=
  engReads_of_open seen mark va event go h

theorem engReads_of_caddieReads {s : State} {x : Ctx} {core : Nat} {ks : List Nat} (seen : Nat) (mark : Nat → State → State)
    (va : Nat → Word) (event : String) (go : Unit → Out) (h : CaddieReads s core ks) :
    engReads s x (s.caddieSees core) ks seen mark va event go = go () :=
  engReads_of_open seen mark va event go fun k hk => ⟨by
    unfold State.caddieSees
    rw [(h.1 k hk).1, h.2 k hk]
    rfl, (h.1 k hk).2⟩

end Sys2Proof.Machine


/-! The movement engines carry out their transfers (R15, R231, R284, R288, R291, R293, R297, R298; O45). -/

namespace Sys2Proof.Machine

/-! ### The caddie's turn -/

theorem findSome?_of_only {α β : Type} {f : α → Option β} {xs : List α} {x : α} {b : β} (hx : x ∈ xs) (hb : f x = some b)
    (honly : ∀ y ∈ xs, y ≠ x → f y = none) : xs.findSome? f = some b := by
  induction xs with
  | nil => cases hx
  | cons y ys ih =>
    by_cases hy : y = x
    · rw [hy, List.findSome?_cons, hb]
    · rw [List.findSome?_cons, honly y (by simp) hy]
      refine ih ?_ fun z hz => honly z (by simp [hz])
      rcases List.mem_cons.1 hx with h | h
      · exact absurd h.symm hy
      · exact h

/-- The slots of a core, from the one after that served last, take in every one of them. -/
theorem mem_caddieOrder {slot : Nat} (last : Nat) (h : slotNo slot < 7) :
    slot ∈ (upTo 7).map (fun k => coreOf slot * 8 + (last + 1 + k) % 7) := by
  unfold slotNo coreOf at *
  refine List.mem_map.2 ⟨(slot % 8 + 6 * (last + 1)) % 7, ?_, ?_⟩
  · simp only [upTo, List.mem_range]
    omega
  · omega

theorem place_of_mem_caddieOrder {core last p : Nat} (h : p ∈ (upTo 7).map (fun k => core * 8 + (last + 1 + k) % 7)) :
    coreOf p = core ∧ slotNo p < 7 := by
  obtain ⟨k, -, rfl⟩ := List.mem_map.1 h
  unfold slotNo coreOf
  omega

/-- The state once a core's caddie has taken a request: its entry is empty, and the caddie has had its turn of this cycle (R284). -/
def State.caddieTook (s : State) (core : Nat) (t : Xfer) : State :=
  let s := { s with caddies := updKey (fun e => e.1 == core) (core, slotNo t.slot, s.cycle) s.caddies }
  let c := s.slotAt t.slot
  (s.setSlot { c with mbox := (c.mbox[t.entry]?).elim c.mbox (fun e =>
    setNth c.mbox t.entry { e with full := Vector.replicate 4 false }) }).setXfer { t with taken := true }

theorem State.caddieTook_mem (s : State) (core : Nat) (t : Xfer) : (s.caddieTook core t).mem = s.mem := by
  unfold State.caddieTook
  simp

theorem State.mem_setXfer {s : State} {t v : Xfer} (ht : t ∈ s.xfers) (hv : v.id = t.id) : v ∈ (s.setXfer v).xfers :=
  List.mem_map.2 ⟨t, ht, if_pos (by simp [hv])⟩

theorem State.mem_caddieTook {s : State} {core : Nat} {t v : Xfer} (ht : t ∈ s.xfers) (hv : v.id = t.id) :
    { v with taken := true } ∈ (s.caddieTook core v).xfers := by
  unfold State.caddieTook
  exact State.mem_setXfer (t := t) (by simpa using ht) hv

theorem State.mem_of_takable {s : State} {slot : Nat} {t : Xfer} (h : s.takable slot = some t) : t ∈ s.xfers := by
  unfold State.takable at h
  split at h
  · cases h
  · next x hx =>
    dsimp only at h
    split at h
    · obtain rfl : x = t := by simpa using h
      exact List.mem_of_find?_eq_some hx
    · cases h

section Take
variable {s : State} {t : Xfer} (hslot : slotNo t.slot < 7) (htake : s.takable t.slot = some t)
  (hroom : (s.inProgress (coreOf t.slot)).length < 4) (hcycle : s.cycle.toNat % 8 = 7)
  (hfresh : ∀ e ∈ s.caddies, e.1 = coreOf t.slot → e.2.2 ≠ s.cycle)
  (honly : ∀ p, coreOf p = coreOf t.slot → slotNo p < 7 → p ≠ t.slot → s.takable p = none)
include hslot htake hroom hcycle hfresh honly

/-- At its turn, with one slot alone that has a request for it, the caddie takes that one (R123, R284). -/
theorem exec_caddieTakeRequest_of_only :
    exec (.caddieTakeRequest (coreOf t.slot)) s = (match s.ctxAt t.ctx with
      | none => .next (s.caddieTook (coreOf t.slot) t)
      | some x =>
        if t.kind == .cpy || t.kind == .cpys then
          let (ks, st) := t.keys s x (s.xferSlot t) t.bytes
          let src := ks.map (fun k => k.1)
          engReads s x (s.caddieSees (coreOf t.slot)) src t.seen (fun i s => s.setXfer { t with seen := i }) (fun i => (t.place i).1)
            "CADDIE_TAKE_REQUEST" (fun _ => .next ((s.noteBlocks t.ctx src false).caddieTook (coreOf t.slot)
              { t with data := src.map (s.engByte t.slot), status := st }))
        else .next (s.caddieTook (coreOf t.slot) t)) := by
  change execCaddieTakeRequest _ s = _
  have hturn : ¬(s.cycle.toNat % 8 ≠ 7 ∨ (s.caddies.find? (fun e => e.1 == coreOf t.slot)).any (fun e => e.2.2 == s.cycle) = true) := by
    rintro (h | h)
    · exact h hcycle
    · obtain ⟨e, he, hc⟩ := (Option.any_eq_true _ _).1 h
      have hkey : e.1 = coreOf t.slot := by simpa using List.find?_some he
      exact hfresh e (List.mem_of_find?_eq_some he) hkey (by simpa using hc)
  have hnext (last : Nat) :
      ((upTo 7).map (fun k => coreOf t.slot * 8 + (last + 1 + k) % 7)).findSome? s.takable = some t := by
    refine findSome?_of_only (mem_caddieOrder last hslot) htake fun p hp hne => ?_
    obtain ⟨hcore, hno⟩ := place_of_mem_caddieOrder hp
    exact honly p hcore hno hne
  unfold execCaddieTakeRequest
  dsimp only
  rw [if_neg hturn, if_pos hroom, hnext]
  rfl

end Take

theorem State.noteBlocks_xfers (s : State) (id : Nat) (ks : List Nat) (w : Bool) : (s.noteBlocks id ks w).xfers = s.xfers :=
  (Noted.noteBlocks ..).keeps.xfers

/-- A transfer that the caddie takes is taken, and a copy has read its source (R15, R284). -/
theorem caddie_takes {s : State} {t : Xfer} (hslot : slotNo t.slot < 7) (htake : s.takable t.slot = some t)
    (hroom : (s.inProgress (coreOf t.slot)).length < 4) (hcycle : s.cycle.toNat % 8 = 7)
    (hfresh : ∀ e ∈ s.caddies, e.1 = coreOf t.slot → e.2.2 ≠ s.cycle)
    (honly : ∀ p, coreOf p = coreOf t.slot → slotNo p < 7 → p ≠ t.slot → s.takable p = none)
    (hread : ∀ x, s.ctxAt t.ctx = some x → t.kind = .cpy ∨ t.kind = .cpys →
      CaddieReads s (coreOf t.slot) ((t.keys s x (s.xferSlot t) t.bytes).1.map (fun k => k.1))) :
    ∃ u, exec (.caddieTakeRequest (coreOf t.slot)) s = .next u ∧ u.mem = s.mem ∧ ∃ v ∈ u.xfers, v.id = t.id ∧ v.taken = true ∧
      (∀ x, s.ctxAt t.ctx = some x → t.kind = .cpy ∨ t.kind = .cpys →
        v.data = (t.keys s x (s.xferSlot t) t.bytes).1.map (fun k => s.readFrom (s.slotAt t.slot) k.1) ∧
        v.status = (t.keys s x (s.xferSlot t) t.bytes).2) := by
  have hex := exec_caddieTakeRequest_of_only hslot htake hroom hcycle hfresh honly
  have hmem := State.mem_of_takable htake
  cases hx : s.ctxAt t.ctx with
  | none =>
    rw [hx] at hex
    exact ⟨_, hex, State.caddieTook_mem .., _, State.mem_caddieTook hmem rfl, rfl, rfl, fun x h => by cases h⟩
  | some x =>
    rw [hx] at hex
    dsimp only at hex
    by_cases hkind : t.kind = .cpy ∨ t.kind = .cpys
    · rw [if_pos (by simpa using hkind), engReads_of_caddieReads _ _ _ _ _ (hread x hx hkind)] at hex
      refine ⟨_, hex, (State.caddieTook_mem ..).trans (State.noteBlocks_mem ..), _,
        State.mem_caddieTook (t := t) (by rw [State.noteBlocks_xfers]; exact hmem) rfl, rfl, rfl, fun y hy _ => ?_⟩
      obtain rfl : x = y := by simpa using hy
      exact ⟨by rw [List.map_map]; rfl, rfl⟩
    · rw [if_neg (by simpa using hkind)] at hex
      exact ⟨_, hex, State.caddieTook_mem .., _, State.mem_caddieTook hmem rfl, rfl, rfl, fun _ _ h => absurd h hkind⟩

/-! ### An event of a transfer's write -/

theorem landed_of_writes {s t : State} {k core : Nat} {bs : List Byte} {last : Bool} (hn : Noted s t)
    (hw : MayWrite s core (spanKeys k bs.length)) : Landed s (t.engineEvent ((spanKeys k bs.length).zip bs) last) k bs := by
  intro hfeq hin
  have hkeys : ∀ y ∈ cellsAt k bs, y.1 ∈ spanKeys k bs.length := fun y hy => by
    rw [← cellsAt_keys]
    exact List.mem_map_of_mem hy
  rw [zip_spanKeys, State.engineEvent_mem (hn.feq.trans hfeq) (fun y hy => hin _ (hkeys y hy))
    (fun y hy => (hn.keyHeld _).trans (hw.keyHeld (hkeys y hy))), hn.mem]

theorem landXfer_mem (s : State) (t : Xfer) (ks : List Nat) (bs : List Byte) (landed : Nat) (start own : Bool) :
    (s.landXfer t ks bs landed start own).mem = ((s.noteEngine t ks landed start own).engineEvent (ks.zip bs) false).mem := by
  unfold State.landXfer
  dsimp only
  split <;> rfl

theorem landed_landXfer {s : State} {k core : Nat} {bs : List Byte} (t : Xfer) (landed : Nat) (start own : Bool)
    (hw : MayWrite s core (spanKeys k bs.length)) : Landed s (s.landXfer t (spanKeys k bs.length) bs landed start own) k bs := by
  intro hfeq hin
  rw [landXfer_mem]
  exact landed_of_writes (Noted.noteEngine ..) hw hfeq hin

theorem autoAdvance_xfers (s : State) (id core ch b : Nat) : (s.autoAdvance id core ch b).xfers = s.xfers := by
  unfold State.autoAdvance
  split <;> rfl

theorem autoAdvance_mem (s : State) (id core ch b : Nat) : (s.autoAdvance id core ch b).mem = s.mem := by
  unfold State.autoAdvance
  split <;> rfl

/-- A copy's end advances rings by the shares that its context holds (R272). -/
theorem autoAdvance_congr {s t : State} {id : Nat} (core ch b : Nat) (hmatrix : t.matrix = s.matrix)
    (hshares : (t.ctxAt id).map Ctx.shares = (s.ctxAt id).map Ctx.shares) :
    (t.autoAdvance id core ch b).matrix = (s.autoAdvance id core ch b).matrix := by
  unfold State.autoAdvance Ctx.holdsShare
  cases ht : t.ctxAt id with
  | none =>
    rw [ht] at hshares
    cases hs : s.ctxAt id with
    | none => exact hmatrix
    | some x => rw [hs] at hshares; cases hshares
  | some y =>
    rw [ht] at hshares
    cases hs : s.ctxAt id with
    | none => rw [hs] at hshares; cases hshares
    | some x =>
      rw [hs] at hshares
      have hxy : y.shares = x.shares := by simpa using hshares
      dsimp only
      rw [hmatrix, hxy]

theorem eventLen_le (k n : Nat) : eventLen k n ≤ n := Nat.min_le_left ..

theorem length_take_event (k : Nat) (bs : List Byte) : (bs.take (eventLen k bs.length)).length = eventLen k bs.length := by
  rw [List.length_take, Nat.min_eq_left (eventLen_le ..)]

theorem drop_isEmpty_iff {bs : List Byte} {n : Nat} : (bs.drop n).isEmpty = true ↔ bs.length ≤ n := by
  rw [List.isEmpty_iff, List.drop_eq_nil_iff]

section LandNext
variable {s : State} {t : Xfer} {kd n : Nat} (own : Bool) (hn : n = eventLen kd t.data.length)
include hn

/-- The state before the rings of a copy's channel advance. -/
theorem landNext_eq : s.landNext t kd own =
    (let u := (s.landXfer t (spanKeys kd (t.data.take n).length) (t.data.take n) t.landed
        (kd % 64 == 0 || t.landed % max 1 t.rowLen == 0) own).setXfer { t with landed := t.landed + n, data := t.data.drop n }
     if (t.data.drop n).isEmpty && t.status == 0 && t.kind != .gath then u.autoAdvance t.ctx t.core t.ch t.bytes else u) := by
  subst hn
  unfold State.landNext
  dsimp only
  rw [length_take_event]

theorem landNext_xfers :
    (s.landNext t kd own).xfers = s.xfers.map (fun y => if y.id == t.id then { t with landed := t.landed + n, data := t.data.drop n } else y) := by
  rw [landNext_eq own hn]
  have hx := (EnginesKept.landXfer s t (spanKeys kd (t.data.take n).length) (t.data.take n) t.landed
    (kd % 64 == 0 || t.landed % max 1 t.rowLen == 0) own).xfers
  dsimp only
  split
  · rw [autoAdvance_xfers, State.setXfer, hx]
  · rw [State.setXfer, hx]

theorem landed_landNext {core : Nat} (hw : MayWrite s core (spanKeys kd n)) : Landed s (s.landNext t kd own) kd (t.data.take n) := by
  have hlen : (t.data.take n).length = n := by rw [hn, length_take_event]
  have hland := landed_landXfer (core := core) (bs := t.data.take n) t t.landed (kd % 64 == 0 || t.landed % max 1 t.rowLen == 0) own
    (by rw [hlen]; exact hw)
  intro hfeq hin
  rw [landNext_eq own hn]
  dsimp only
  split
  · rw [autoAdvance_mem]
    exact hland hfeq hin
  · exact hland hfeq hin

theorem landNext_matrix_of_more (h : n < t.data.length ∨ t.status ≠ 0 ∨ t.kind = .gath) : (s.landNext t kd own).matrix = s.matrix := by
  have hno : ((t.data.drop n).isEmpty && t.status == 0 && t.kind != .gath) = false := by
    rw [Bool.eq_false_iff]
    intro hall
    simp only [Bool.and_eq_true, drop_isEmpty_iff, beq_iff_eq, bne_iff_ne] at hall
    obtain ⟨⟨hle, hst⟩, hk⟩ := hall
    rcases h with h | h | h
    · omega
    · exact h hst
    · exact hk h
  rw [landNext_eq own hn]
  dsimp only
  rw [hno]
  exact (EnginesKept.landXfer ..).matrix

theorem landNext_matrix_of_last (hlast : n = t.data.length) (hst : t.status = 0) (hk : t.kind ≠ .gath) :
    (s.landNext t kd own).matrix = (s.autoAdvance t.ctx t.core t.ch t.bytes).matrix := by
  have hyes : ((t.data.drop n).isEmpty && t.status == 0 && t.kind != .gath) = true := by
    simp only [Bool.and_eq_true, drop_isEmpty_iff, beq_iff_eq, bne_iff_ne]
    exact ⟨⟨Nat.le_of_eq hlast.symm, hst⟩, hk⟩
  rw [landNext_eq own hn]
  dsimp only
  rw [if_pos hyes]
  have hkept := EnginesKept.landXfer s t (spanKeys kd (t.data.take n).length) (t.data.take n) t.landed
    (kd % 64 == 0 || t.landed % max 1 t.rowLen == 0) own
  exact autoAdvance_congr _ _ _ hkept.matrix (hkept.shares _)

end LandNext

/-! ### The events of a transfer -/

theorem eventBytes_eq_eventLen (k n : Nat) : eventBytes k n = eventLen k n := rfl

section Transfer
variable {s : State} {k : Nat} {t : Xfer} {x : Ctx} (hk : s.xfers[k]? = some t) (hx : s.ctxAt t.ctx = some x)
  (hopen : s.clusOpen t.ctx (t.core / 8) = true)
include hk hx hopen

/-- Data that a copy or a gather has read lands. -/
theorem exec_copyGranuleLand_of_data (h : ((t.kind = .cpy ∨ t.kind = .cpys) ∧ t.taken = true) ∨ t.kind = .gath) (hdata : t.data ≠ []) :
    exec (.copyGranuleLand k) s = landGo s x t "COPY_GRANULE_LAND" := by
  have hsome : t.data.isEmpty = false := by simpa using hdata
  change execCopyGranuleLand k s = _
  unfold execCopyGranuleLand
  simp only [hk, hx, hopen, hsome]
  rcases h with ⟨hkind, htaken⟩ | hkind
  · rw [htaken]
    rcases hkind with hkind | hkind <;> rw [hkind] <;> rfl
  · rw [hkind]
    rfl

theorem exec_copyGranuleLand_of_writes (h : ((t.kind = .cpy ∨ t.kind = .cpys) ∧ t.taken = true) ∨ t.kind = .gath)
    (hdata : t.data ≠ []) {kd : Nat} (hd : engResolve s x (s.xferSlot t) (t.place t.landed).2 true = .ok kd)
    (hw : MayWrite s t.core (spanKeys kd (eventLen kd t.data.length))) :
    exec (.copyGranuleLand k) s = .next (s.landNext t kd (fromOwn s x t)) := by
  rw [exec_copyGranuleLand_of_data hk hx hopen h hdata, landGo, hd]
  exact engWrites_of_mayWrite _ _ hw

theorem exec_copyGranuleLand_of_refused (h : ((t.kind = .cpy ∨ t.kind = .cpys) ∧ t.taken = true) ∨ t.kind = .gath)
    (hdata : t.data ≠ []) {cause : TrapCause} {tval : Word}
    (hd : engResolve s x (s.xferSlot t) (t.place t.landed).2 true = .error (cause, tval)) :
    exec (.copyGranuleLand k) s = .next (s.setXfer { t with data := [], status := if cause = .xlate then 1 else 2 }) := by
  rw [exec_copyGranuleLand_of_data hk hx hopen h hdata, landGo, hd]
  simp [statusOf]

/-- The next element of a gather is read (R298). -/
theorem exec_copyGranuleLand_of_element {ki : Nat} {src : Word} {ks : List (Nat × Nat)} (hkind : t.kind = .gath) (hdata : t.data = [])
    (hst : t.status = 0) (hlt : t.landed < t.bytes) (hfirst : s.gatherFirst t = true) (he : gatherElem s x t = .ok (ki, src, ks, 0))
    (hr : MayRead s t.core (spanKeys ki 4 ++ ks.map (fun e => e.1))) :
    exec (.copyGranuleLand k) s = .next ((s.noteBlocks t.ctx (spanKeys ki 4 ++ ks.map (fun e => e.1)) false).setXfer
      { t with data := ks.map (fun e => s.readFrom (s.slotAt t.slot) e.1), seen := 0 }) := by
  change execCopyGranuleLand k s = _
  unfold execCopyGranuleLand
  simp only [hk, hx, hopen, hkind, hdata, hst, hfirst, he, decide_eq_true hlt]
  rw [if_neg (by decide), if_neg (by simp), if_neg (by decide), if_pos (by decide)]
  exact engReads_of_mayRead _ _ _ _ _ hr

section Complete
variable (htaken : t.taken = true) (hnext : s.recordNext t = true)
include htaken hnext

omit hx in
/-- A copy whose data has landed, or that has been refused, ends with its record (R291). -/
theorem exec_copyComplete_of_landed (hkind : t.kind = .cpy ∨ t.kind = .cpys) (hdata : t.data = []) :
    exec (.copyComplete k false) s = .next ((s.endXfer t (t.status != 0)).pushQ1 t [xferRecord t t.status t.landed]) := by
  change execCopyComplete k false s = _
  unfold execCopyComplete
  simp only [hk, hopen, htaken, hnext, hdata]
  have hend : (if t.status = 0 then Host.Outcome.next ((s.endXfer t false).pushQ1 t [xferRecord t 0 t.landed])
      else .next ((s.endXfer t true).pushQ1 t [xferRecord t t.status t.landed])) =
      (.next ((s.endXfer t (t.status != 0)).pushQ1 t [xferRecord t t.status t.landed]) : Out) := by
    by_cases hst : t.status = 0
    · rw [if_pos hst, hst]
      rfl
    · rw [if_neg hst, show (t.status != 0) = true by simpa using hst]
  rcases hkind with hkind | hkind <;> rw [hkind] <;> exact hend

theorem exec_copyComplete_of_host (hkind : t.kind = .cpy ∨ t.kind = .cpys) (hhost : t.nextInHost = true) {u : State} {v : Xfer}
    (huv : s.hostRefuses x t = (u, v)) :
    exec (.copyComplete k true) s = .next ((u.endXfer v true).pushQ1 v [xferRecord v 3 v.landed]) := by
  change execCopyComplete k true s = _
  unfold execCopyComplete
  simp only [hk, hopen, htaken, hnext, hhost]
  rcases hkind with hkind | hkind <;> simp [hkind, hx, huv]

omit hx in
theorem exec_copyComplete_of_halo (hkind : t.kind = .halo) (hdone : t.halos.all (fun h => h.done) = true) :
    exec (.copyComplete k false) s = .next (s.endHalo t) := by
  change execCopyComplete k false s = _
  unfold execCopyComplete
  simp only [hk, hopen, htaken, hnext, hkind, hdone]
  rfl

theorem exec_mcastDelivery_of_delivered (hkind : t.kind = .mcast) (hbegun : t.begun = true) (hdests : t.dests = []) :
    exec (.mcastDelivery k) s = .next ((s.endXfer t false).pushQ1 t
      [xferRecord t 0 t.bytes, BitVec.ofNat 64 t.masks.1, BitVec.ofNat 64 t.masks.2.1, BitVec.ofNat 64 t.masks.2.2]) := by
  change execMcastDelivery k s = _
  unfold execMcastDelivery
  simp only [hk, hx, hopen, htaken, hkind, hbegun, hdests, hnext]
  rfl

end Complete

section Multicast
variable (hkind : t.kind = .mcast) (htaken : t.taken = true)
include hkind htaken

theorem exec_mcastDelivery_of_source {src : List Nat} (hbegun : t.begun = false) (hsrc : mcastSrc s x t = .ok src)
    (hr : CaddieReads s t.core src) :
    exec (.mcastDelivery k) s = .next ((s.noteBlocks t.ctx src false).setXfer
      { t with begun := true, data := src.map (s.readFrom (s.slotAt t.slot)) }) := by
  change execMcastDelivery k s = _
  unfold execMcastDelivery
  simp only [hk, hx, hopen, htaken, hkind, hbegun, hsrc]
  rw [if_neg (by decide), if_pos (by decide)]
  exact engReads_of_caddieReads _ _ _ _ _ hr

/-- The next receiver's turn comes (R297). -/
theorem exec_mcastDelivery_of_receiver {d : McastDest} {rest : List McastDest} (hbegun : t.begun = true) (hdests : t.dests = d :: rest) :
    exec (.mcastDelivery k) s = engWrites s t.core (match mcastKey x t d with
        | some q => spanKeys q t.data.length
        | none => []) "MCAST_DELIVERY" (fun _ =>
      .next ((mcastOne x t s d).1.setXfer { t with dests := rest, masks := (mcastOne x t s d).2 })) := by
  change execMcastDelivery k s = _
  unfold execMcastDelivery
  simp only [hk, hx, hopen, htaken, hkind, hbegun, hdests]
  rfl

theorem exec_mcastDelivery_of_faulted {d : McastDest} {rest : List McastDest} (hbegun : t.begun = true) (hdests : t.dests = d :: rest)
    (hq : mcastKey x t d = none) :
    exec (.mcastDelivery k) s = .next (s.setXfer { t with dests := rest, masks := (t.masks.1, t.masks.2.1, t.masks.2.2 + 2 ^ d.j) }) := by
  rw [exec_mcastDelivery_of_receiver hk hx hopen hkind htaken hbegun hdests, mcastOne, hq]
  exact engWrites_of_mayWrite _ _ (fun q hq => by cases hq)

theorem exec_mcastDelivery_of_full {d : McastDest} {rest : List McastDest} {q : Nat} (hbegun : t.begun = true)
    (hdests : t.dests = d :: rest) (hq : mcastKey x t d = some q) (hw : MayWrite s t.core (spanKeys q t.data.length))
    (hfull : s.isFull q = true) :
    exec (.mcastDelivery k) s = .next (s.setXfer { t with dests := rest, masks := (t.masks.1, t.masks.2.1 + 2 ^ d.j, t.masks.2.2) }) := by
  rw [exec_mcastDelivery_of_receiver hk hx hopen hkind htaken hbegun hdests, mcastOne, hq]
  simp only [hfull, if_true]
  exact engWrites_of_mayWrite _ _ hw

theorem exec_mcastDelivery_of_empty {d : McastDest} {rest : List McastDest} {q : Nat} (hbegun : t.begun = true)
    (hdests : t.dests = d :: rest) (hq : mcastKey x t d = some q) (hw : MayWrite s t.core (spanKeys q t.data.length))
    (hfree : s.isFull q = false) :
    ∃ u, exec (.mcastDelivery k) s = .next u ∧ Landed s u q t.data ∧ u.xfers = (s.setXfer
      { t with dests := rest, masks := (t.masks.1 + 2 ^ d.j, t.masks.2.1, t.masks.2.2) }).xfers := by
  rw [exec_mcastDelivery_of_receiver hk hx hopen hkind htaken hbegun hdests, mcastOne, hq]
  simp only [hfree, Bool.false_eq_true, if_false]
  have hnote := Noted.noteEngine s t (spanKeys q t.data.length) 0 true (decide (t.src.toNat < 0x40000))
  refine ⟨_, engWrites_of_mayWrite _ _ hw, fun hfeq hin => ?_, ?_⟩
  · have hkeys : ∀ y ∈ cellsAt q t.data, y.1 ∈ spanKeys q t.data.length := fun y hy => by
      rw [← cellsAt_keys]
      exact List.mem_map_of_mem hy
    rw [State.setXfer_mem, zip_spanKeys, State.engineWrite_mem (hnote.feq.trans hfeq) (fun y hy => hin _ (hkeys y hy))
      (fun y hy => (hnote.keyHeld _).trans (hw.keyHeld (hkeys y hy))), hnote.mem]
  · rw [State.setXfer, (hnote.keeps.trans (EnginesKept.engineWrite ..)).xfers]
    rfl

end Multicast

end Transfer

theorem hostRefuses_spec (s : State) (x : Ctx) (t : Xfer) : ∃ u n, s.hostRefuses x t = (u, { t with landed := t.landed + n }) ∧
    n ≤ t.data.length := by
  unfold State.hostRefuses
  split
  · exact ⟨s, 0, rfl, Nat.zero_le _⟩
  · next kd _ =>
    dsimp only
    split
    · exact ⟨_, 0, rfl, Nat.zero_le _⟩
    · next hne =>
      refine ⟨_, _, rfl, ?_⟩
      have hle := eventLen_le kd t.data.length
      have hlt := Nat.mod_lt (s.draw.1.toNat) (show 0 < max 1 (eventLen kd t.data.length) by omega)
      omega

/-! ### A direction of a halo -/

section Halo
variable {s : State} {k : Nat} {t : Xfer} {x : Ctx} {h : HaloDir} {dir : BitVec 2} (hk : s.xfers[k]? = some t)
  (hx : s.ctxAt t.ctx = some x) (hopen : s.clusOpen t.ctx (t.core / 8) = true)
  (hdir : t.halos.find? (fun h => h.dir == dir.toNat && !h.done) = some h) (htaken : t.taken = true)
include hk hx hopen hdir htaken

theorem exec_haloDirectionArrival_of_source (hbegun : h.begun = false)
    (hr : CaddieReads s t.core ((h.keys s x (s.xferSlot t) t).1.map (fun e => e.1))) :
    exec (.haloDirectionArrival k dir) s =
      .next ((s.noteBlocks t.ctx ((h.keys s x (s.xferSlot t) t).1.map (fun e => e.1)) false).setXfer
        (t.setDir { h with begun := true, status := (h.keys s x (s.xferSlot t) t).2,
                           data := ((h.keys s x (s.xferSlot t) t).1.map (fun e => e.1)).map (s.readFrom (s.slotAt t.slot)) })) := by
  change execHaloDirectionArrival k dir s = _
  unfold execHaloDirectionArrival
  simp only [hk, hx, hopen, hdir, htaken, hbegun]
  rw [if_neg (by decide), if_pos (by decide)]
  exact engReads_of_caddieReads _ _ _ _ _ hr

theorem exec_haloDirectionArrival_of_writes (hbegun : h.begun = true) (hdata : h.data ≠ []) {kd n : Nat}
    (hd : haloResolve s x (s.xferSlot t) h.lcore ((h.rowsOf t).place h.landed).2 = .ok kd) (hn : n = eventLen kd h.data.length)
    (hw : MayWrite s t.core (spanKeys kd n)) :
    ∃ u, exec (.haloDirectionArrival k dir) s = .next u ∧ Landed s u kd (h.data.take n) ∧
      u.xfers = (s.setXfer (t.setDir { h with landed := h.landed + n, data := h.data.drop n })).xfers := by
  have hsome : h.data.isEmpty = false := by simpa using hdata
  have hex : exec (.haloDirectionArrival k dir) s = .next (s.landDir t h kd) := by
    change execHaloDirectionArrival k dir s = _
    unfold execHaloDirectionArrival
    simp only [hk, hx, hopen, hdir, htaken, hbegun, hsome, hd]
    rw [if_neg (by decide), if_neg (by decide), if_neg (by decide)]
    exact engWrites_of_mayWrite _ _ (hn ▸ hw)
  have hlen : (h.data.take n).length = n := by rw [hn, length_take_event]
  refine ⟨_, hex, ?_, ?_⟩
  · have hland := landed_landXfer (core := t.core) (bs := h.data.take n) t h.landed
      (kd % 64 == 0 || h.landed % max 1 h.rowLen == 0) true (by rw [hlen]; exact hw)
    rw [hlen] at hland
    unfold State.landDir
    dsimp only
    rw [← hn, hlen]
    exact hland
  · unfold State.landDir
    dsimp only
    rw [← hn, hlen, State.setXfer, (EnginesKept.landXfer ..).xfers]
    rfl

theorem exec_haloDirectionArrival_of_refused (hbegun : h.begun = true) (hdata : h.data ≠ []) {cause : TrapCause} {tval : Word}
    (hd : haloResolve s x (s.xferSlot t) h.lcore ((h.rowsOf t).place h.landed).2 = .error (cause, tval)) :
    exec (.haloDirectionArrival k dir) s =
      .next (s.setXfer (t.setDir { h with data := [], status := if cause = .xlate then 1 else 2 })) := by
  have hsome : h.data.isEmpty = false := by simpa using hdata
  change execHaloDirectionArrival k dir s = _
  unfold execHaloDirectionArrival
  simp only [hk, hx, hopen, hdir, htaken, hbegun, hsome, hd]
  rw [if_neg (by decide), if_neg (by decide), if_neg (by decide)]
  simp [statusOf]

theorem exec_haloDirectionArrival_of_landed (hbegun : h.begun = true) (hdata : h.data = []) :
    let v := t.setDir { h with done := true }
    let u := State.setXfer (if h.status = 0 then s.raiseHalo t h else s) v
    exec (.haloDirectionArrival k dir) s =
      .next (if v.halos.all (fun g => g.done) = true ∧ u.recordNext v = true then u.endHalo v else u) := by
  have hend : exec (.haloDirectionArrival k dir) s = .next (s.endDir t h) := by
    change execHaloDirectionArrival k dir s = _
    unfold execHaloDirectionArrival
    simp only [hk, hx, hopen, hdir, htaken, hbegun, hdata]
    rfl
  unfold State.endDir at hend
  simp only [Bool.and_eq_true] at hend
  exact hend

end Halo

/-! ### The end of a gather -/

/-- A gather's end with a STATUS: its record on q4 (R298). -/
def State.gatherEnd (s : State) (t : Xfer) (st : Nat) : State :=
  let u := s.endXfer t (st != 0)
  u.setSlot { u.slotAt t.slot with
    q4cmd := (u.slotAt t.slot).q4cmd - 1,
    q4read := (u.slotAt t.slot).q4read ++ [xferRecord t st (t.landed / max 1 t.rowLen)] }

section Gather
variable {s : State} {k : Nat} {t : Xfer} {x : Ctx} (hk : s.xfers[k]? = some t) (hx : s.ctxAt t.ctx = some x)
  (hopen : s.clusOpen t.ctx (t.core / 8) = true) (hkind : t.kind = .gath) (hdata : t.data = []) (hfirst : s.gatherFirst t = true)
  (hroom : (s.slotAt t.slot).q4read.length < 4)
include hk hx hopen hkind hdata hfirst hroom

/-- A gather that has no element read ends by what it has landed, by its STATUS, or by its next element. -/
theorem exec_gatherComplete_of_idle (refused : Bool) :
    exec (.gatherComplete k refused) s =
      if t.landed = t.bytes then (if refused then notNow "GATHER_COMPLETE" else .next (s.gatherEnd t 0))
      else if refused then (if inSystem t.src then .next (s.gatherEnd t 3) else notNow "GATHER_COMPLETE")
      else if t.status ≠ 0 then .next (s.gatherEnd t t.status)
      else match gatherElem s x t with
        | .error st | .ok (_, _, _, st) => if st = 0 then notNow "GATHER_COMPLETE" else .next (s.gatherEnd t st) := by
  change execGatherComplete k refused s = _
  unfold execGatherComplete
  simp only [hk, hx, hopen, hkind, hdata, hfirst]
  rw [if_neg (by simpa using hroom)]
  rfl

theorem exec_gatherComplete_of_landed (h : t.landed = t.bytes) : exec (.gatherComplete k false) s = .next (s.gatherEnd t 0) := by
  rw [exec_gatherComplete_of_idle hk hx hopen hkind hdata hfirst hroom, if_pos h]
  rfl

theorem exec_gatherComplete_of_status (h : t.landed ≠ t.bytes) (hst : t.status ≠ 0) :
    exec (.gatherComplete k false) s = .next (s.gatherEnd t t.status) := by
  rw [exec_gatherComplete_of_idle hk hx hopen hkind hdata hfirst hroom, if_neg h, if_neg (by decide), if_pos hst]

theorem exec_gatherComplete_of_refused (h : t.landed ≠ t.bytes) (hst : t.status = 0) {st : Nat}
    (he : gatherElem s x t = .error st ∨ ∃ ki src ks, gatherElem s x t = .ok (ki, src, ks, st)) (hne : st ≠ 0) :
    exec (.gatherComplete k false) s = .next (s.gatherEnd t st) := by
  rw [exec_gatherComplete_of_idle hk hx hopen hkind hdata hfirst hroom, if_neg h, if_neg (by decide), if_neg (Classical.not_not.2 hst)]
  rcases he with he | ⟨ki, src, ks, he⟩
  · rw [he]
    exact if_neg hne
  · rw [he]
    exact if_neg hne

theorem exec_gatherComplete_of_host (h : t.landed ≠ t.bytes) (hsys : 2 ^ 56 ≤ t.src.toNat) :
    exec (.gatherComplete k true) s = .next (s.gatherEnd t 3) := by
  rw [exec_gatherComplete_of_idle hk hx hopen hkind hdata hfirst hroom, if_neg h, if_pos rfl, if_pos (by simpa [inSystem] using hsys)]

end Gather

/-- Settles O45: the caddie's turn, the events of each kind of transfer, and their ends. -/
theorem enginesCarryOutTransfers : Obligations.EnginesCarryOutTransfers := by
  refine ⟨fun s t hslot htake hroom hcycle hfresh honly hread => caddie_takes hslot htake hroom hcycle hfresh honly hread,
    fun s k t x hk hx hopen => ⟨fun hkind hdata => ⟨fun kd n hd hn hw => ?_, fun cause tval hd => ?_⟩, ?_, fun htaken hnext => ⟨?_, ?_, ?_, ?_⟩,
      fun hkind htaken => ⟨?_, fun d rest hbegun hdests => ⟨?_, fun q hq hw => ⟨?_, ?_⟩⟩⟩, fun h dir hdir htaken => ⟨?_, ?_, ?_⟩, ?_⟩⟩
  · rw [eventBytes_eq_eventLen] at hn
    exact ⟨_, exec_copyGranuleLand_of_writes hk hx hopen hkind hdata hd (hn ▸ hw), landNext_xfers _ hn, landed_landNext _ hn hw,
      landNext_matrix_of_more _ hn, landNext_matrix_of_last _ hn⟩
  · exact exec_copyGranuleLand_of_refused hk hx hopen hkind hdata hd
  · intro ki src ks hkind hdata hst hlt hfirst he hr
    exact exec_copyGranuleLand_of_element hk hx hopen hkind hdata hst hlt hfirst he hr
  · exact exec_copyComplete_of_landed hk hopen htaken hnext
  · intro hkind hhost
    obtain ⟨u, n, huv, hn⟩ := hostRefuses_spec s x t
    exact ⟨u, _, n, huv.symm, hn, rfl, exec_copyComplete_of_host hk hx hopen htaken hnext hkind hhost huv⟩
  · exact exec_copyComplete_of_halo hk hopen htaken hnext
  · exact exec_mcastDelivery_of_delivered hk hx hopen htaken hnext
  · exact fun src => exec_mcastDelivery_of_source hk hx hopen hkind htaken
  · exact exec_mcastDelivery_of_faulted hk hx hopen hkind htaken hbegun hdests
  · exact exec_mcastDelivery_of_full hk hx hopen hkind htaken hbegun hdests hq hw
  · exact exec_mcastDelivery_of_empty hk hx hopen hkind htaken hbegun hdests hq hw
  · exact exec_haloDirectionArrival_of_source hk hx hopen hdir htaken
  · exact fun hbegun hdata => ⟨fun kd n hd hn hw => exec_haloDirectionArrival_of_writes hk hx hopen hdir htaken hbegun hdata hd hn hw,
      fun cause tval hd => exec_haloDirectionArrival_of_refused hk hx hopen hdir htaken hbegun hdata hd⟩
  · exact exec_haloDirectionArrival_of_landed hk hx hopen hdir htaken
  · intro hkind hdata hfirst hroom
    exact ⟨exec_gatherComplete_of_landed hk hx hopen hkind hdata hfirst hroom,
      exec_gatherComplete_of_status hk hx hopen hkind hdata hfirst hroom,
      fun st h hst he hne => exec_gatherComplete_of_refused hk hx hopen hkind hdata hfirst hroom h hst he hne,
      exec_gatherComplete_of_host hk hx hopen hkind hdata hfirst hroom⟩

end Sys2Proof.Machine


/-! Collectives (R34, R231, R299, R300; O46). -/

namespace Sys2Proof.Machine

/-! ### A collective's issue -/

theorem any_beyond_eq_false {ws : List Word} {hi lo : Nat} (h : ∀ w ∈ ws, w.toNat < 2 ^ lo) :
    ws.any (fun w => bits w hi lo != 0) = false := by
  refine List.any_eq_false.2 fun w hw => ?_
  simp only [bits, bne_iff_ne, ne_eq, Classical.not_not]
  rw [Nat.div_eq_of_lt (h w hw), Nat.zero_mod]

section Issue
variable {s r₁ r : State} {d a b : Reg5} {ty : CType} {sel : CollSel} {src dst desc table : Word} {c₁ c₂ c : Slot} {x : Ctx}
  {p n₀ n : Nat} {sc : Scope}

/-- The contribution that COLL enters. -/
def enteredColl (r₁ r : State) (c : Slot) (x : Ctx) (desc src dst : Word) (p n₀ n : Nat) (ty : CType) (sel : CollSel) : Coll :=
  { id := r.nextId, far := false, slot := c.phys, ctx := x.id, thread := c.thread, node := r.ownNode, decl := c.decl, seq := r.seq,
    name := descWord r₁ x c desc 0, p := p, r := n₀, n := n, ty := ty, sel := sel, src := src, dst := dst,
    peers := (upTo p).map (fun q => descWord r x c (descWord r₁ x c desc 3) q),
    arrived := false, data := [], dead := false, result := none, landed := 0, seen := 0 }

theorem enteredColl_asks (r₁ r : State) (c : Slot) (x : Ctx) (desc src dst : Word) (p n₀ n : Nat) (ty : CType) (sel : CollSel) :
    (enteredColl r₁ r c x desc src dst p n₀ n ty sel).asks r₁ r c x desc src dst p n₀ n ty sel :=
  ⟨rfl, rfl, rfl, rfl, rfl, rfl, rfl, rfl, rfl, rfl, rfl, rfl, rfl, rfl, rfl, rfl, rfl, rfl, rfl, rfl, rfl⟩

theorem publish_colls (s : State) (c : Slot) (sc : Scope) : (s.publish c sc).colls = s.colls ∧ (s.publish c sc).nextId = s.nextId := by
  unfold State.publish
  split
  · split <;> exact ⟨rfl, rfl⟩
  · split <;> exact ⟨rfl, rfl⟩
  · exact ⟨rfl, rfl⟩

/-- A peer stands on another module exactly where some rank's entry names one. -/
theorem any_peer_far {ws : Nat → Word} {node : Nat} :
    ((upTo p).map ws).any (fun w => (peerOf w).2.2 != node) = true ↔ ∃ q, q < p ∧ (peerOf (ws q)).2.2 ≠ node := by
  simp [upTo, List.any_eq_true]

theorem exec_coll_of_checks (ha : s.cur.readReg a = some (src, c₁)) (hb : c₁.readReg b = some (dst, c₂)) (hd : c₂.readReg d = some (desc, c))
    (hx : s.ctxOf c = some x) (hdesc : descCheck x c desc 32 32 = none) (hr₁ : DescReads s x c [(desc, 32)] r₁)
    (hp : p = (descWord r₁ x c desc 1).toNat % 2 ^ 32) (hn₀ : n₀ = (descWord r₁ x c desc 1).toNat / 2 ^ 32)
    (hn : n = (descWord r₁ x c desc 2).toNat) (htable : table = descWord r₁ x c desc 3) (hn1 : 1 ≤ n) (hnmax : n ≤ 16777216)
    (hp1 : 1 ≤ p) (hpmax : p ≤ 4096) (hrank : n₀ < p) (hpeers : descCheck x c table 8 (8 * p) = none)
    (hr : DescReads r₁ x c [(table, 8 * p)] r) (hwords : ∀ q, q < p → (descWord r x c table q).toNat < 2 ^ 52)
    (hself : peerOf (descWord r x c table n₀) = (c.thread, x.id, r.ownNode))
    (hsrc : rangeCheck r x c src (ctypeBytes ty * collElems sel n p true) false false = none)
    (hdst : rangeCheck r x c dst (ctypeBytes ty * collElems sel n p false) true false = none)
    (hsrcR : (regionOf src.toNat).1 ∈ [0, 2, 6]) (hdstR : (regionOf dst.toNat).1 ∈ [0, 2, 6])
    (hsc : sc = (if ∃ q, q < p ∧ (peerOf (descWord r x c table q)).2.2 ≠ r.ownNode then .sys else .dev)) :
    exec (.coll d a b ty sel) s =
      .next (goesOn { r.publish c sc with colls := r.colls ++ [enteredColl r₁ r c x desc src dst p n₀ n ty sel], nextId := r.nextId + 1 }
        (c.release sc r.seq)) := by
  subst htable
  change execColl d a b ty sel s = _
  unfold execColl
  have hpbits : bits (descWord r₁ x c desc 1) 31 0 = p := by
    rw [hp, bits]
    simp
  have hrbits : bits (descWord r₁ x c desc 1) 63 32 = n₀ := by
    have := (descWord r₁ x c desc 1).isLt
    rw [hn₀, bits]
    omega
  have hbeyond : ((upTo p).map (fun q => descWord r x c (descWord r₁ x c desc 3) q)).any (fun w => bits w 63 52 != 0) = false := by
    refine any_beyond_eq_false fun w hw => ?_
    obtain ⟨q, hq, rfl⟩ := List.mem_map.1 hw
    exact hwords q (by simpa [upTo] using hq)
  have hown : (((upTo p).map (fun q => descWord r x c (descWord r₁ x c desc 3) q))[n₀]?.map peerOf !=
      some (c.thread, x.id, r.ownNode)) = false := by
    have hget : ((upTo p).map (fun q => descWord r x c (descWord r₁ x c desc 3) q))[n₀]? =
        some (descWord r x c (descWord r₁ x c desc 3) n₀) := by
      simp [upTo, hrank]
    rw [hget, Option.map_some, hself, bne_self_eq_false]
  have hscope : (if ((upTo p).map (fun q => descWord r x c (descWord r₁ x c desc 3) q)).any
      (fun w => (peerOf w).2.2 != r.ownNode) then Scope.sys else .dev) = sc := by
    rw [hsc]
    exact ite_congr (propext any_peer_far) (fun _ => rfl) (fun _ => rfl)
  have hfirst : firstSome [reason (decide (16777216 < n)) 3,
      reason (p == 0 || decide (4096 < p) || decide (p ≤ n₀) || n == 0) 6, descCheck x c (descWord r₁ x c desc 3) 8 (8 * p)] = none := by
    simp only [firstSome_cons_none]
    refine ⟨reason_false _ (decide_eq_false (by omega)), reason_false _ ?_, hpeers, rfl⟩
    simp only [Bool.or_eq_false_iff, beq_eq_false_iff_ne, decide_eq_false_iff_not]
    omega
  rw [withSrc3_of_reads _ ha hb hd]
  simp -zeta only [hx, hdesc]
  rw [withDesc_of_reads _ hr₁]
  extract_lets +onlyGivenNames name ranks count peersAt parts rank
  rw [show parts = p from hpbits, show rank = n₀ from hrbits, show count = n from hn.symm]
  simp -zeta only [peersAt, hfirst]
  rw [withDesc_of_reads _ hr]
  extract_lets +onlyGivenNames peers eb
  have hsecond : firstSome [reason (peers.any (fun w => bits w 63 52 != 0)) 2,
      reason (peers[n₀]?.map peerOf != some (c.thread, x.id, r.ownNode)) 6,
      rangeCheck r x c src (eb * collElems sel n p true) false false, rangeCheck r x c dst (eb * collElems sel n p false) true false,
      (if [0, 2, 6].contains (regionOf src.toNat).1 then none else some (.perm, src)),
      (if [0, 2, 6].contains (regionOf dst.toNat).1 then none else some (.perm, dst))] = none := by
    simp only [firstSome_cons_none]
    exact ⟨reason_false _ hbeyond, reason_false _ hown, hsrc, hdst, if_pos (List.contains_iff_mem.2 hsrcR),
      if_pos (List.contains_iff_mem.2 hdstR), rfl⟩
  simp -zeta only [hsecond]
  rw [show (if peers.any (fun w => (peerOf w).2.2 != r.ownNode) then Scope.sys else .dev) = sc from hscope]
  simp only [released, (publish_colls r c sc).1, (publish_colls r c sc).2]
  rfl

end Issue

/-! ### Contributions -/

theorem exec_collContributionArrival_of_ready {s : State} {k : Nat} {e : Coll} {x : Ctx} {ks : List Nat} (hk : s.colls[k]? = some e)
    (hx : s.ctxAt e.ctx = some x) (hfar : e.far = false) (harr : e.arrived = false) (hearlier : s.earlierPending e.slot e.seq = false)
    (hopen : s.clusOpen e.ctx (clusOf e.slot) = true)
    (hks : ks = spanOf s x (s.collSlot e) e.src (ctypeBytes e.ty * collElems e.sel e.n e.p true)) (hr : MayRead s (coreOf e.slot) ks) :
    exec (.collContributionArrival k none) s = .next (((s.noteBlocks e.ctx ks false).noteFar e ks.length).setColl
      { e with arrived := true, data := ks.map (s.readFrom (s.slotAt e.slot)), seen := 0 }) := by
  subst hks
  change execCollContributionArrival k none s = _
  unfold execCollContributionArrival
  simp only [hk, hx, hfar, harr, hearlier, hopen]
  rw [if_neg (by decide)]
  exact engReads_of_mayRead _ _ _ _ _ hr

/-- The contribution of another module (R299). -/
def farColl (s : State) (r : CollRemote) : Coll :=
  { id := s.nextId, far := true, slot := 0, ctx := r.ctx, thread := r.thread, node := r.node, decl := Decl.none, seq := 0,
    name := r.name, p := r.ranks, r := r.rank, n := r.n, ty := r.ty, sel := r.sel, src := 0, dst := 0, peers := [],
    arrived := true, data := r.data, dead := false, result := none, landed := 0, seen := 0 }

section Remote
variable {s : State} {r : CollRemote} (k : Nat) (hnode : r.node ≠ s.ownNode)
include hnode

theorem exec_collContributionArrival_of_departed (h : r.departed = true) :
    exec (.collContributionArrival k (some r)) s = .next (s.peerGone r.ctx r.node) := by
  change execCollContributionArrival k (some r) s = _
  unfold execCollContributionArrival
  dsimp only
  rw [if_neg (by simpa using hnode), if_pos h]

theorem exec_collContributionArrival_of_stranger (h : r.departed = false) (hnames : r.names = false) :
    exec (.collContributionArrival k (some r)) s = .next s := by
  change execCollContributionArrival k (some r) s = _
  unfold execCollContributionArrival
  dsimp only
  rw [if_neg (by simpa using hnode), if_neg (by simp [h]), if_neg (by simp [hnames])]

theorem exec_collContributionArrival_of_named (h : r.departed = false) (hnames : r.names = true) :
    ∃ e : Coll, e.far = true ∧ e.arrived = true ∧ e.ctx = r.ctx ∧ e.thread = r.thread ∧
      e.node = r.node ∧ e.name = r.name ∧ e.p = r.ranks ∧ e.r = r.rank ∧ e.n = r.n ∧ e.ty = r.ty ∧ e.sel = r.sel ∧ e.data = r.data ∧
      exec (.collContributionArrival k (some r)) s = .next { s with colls := s.colls ++ [e], nextId := s.nextId + 1 } := by
  refine ⟨farColl s r, rfl, rfl, rfl, rfl, rfl, rfl, rfl, rfl, rfl, rfl, rfl, rfl, ?_⟩
  change execCollContributionArrival k (some r) s = _
  unfold execCollContributionArrival
  dsimp only
  rw [if_neg (by simpa using hnode), if_neg (by simp [h]), if_pos hnames]
  rfl

end Remote

/-! ### A participant's end -/

theorem finishColl_eq {s : State} {e : Coll} (st : Nat) (fl : BitVec 5) (hslot : e.slot = s.cur.phys) (howner : s.cur.owner = some e.ctx) :
    finishColl s e st fl = collDone s e st fl := by
  have hcur : ({ s with colls := s.colls.filter (fun g => g.id != e.id) } : State).slotAt e.slot = s.cur := by
    rw [hslot]
    exact if_pos rfl
  unfold finishColl
  dsimp only
  rw [hcur, if_pos (by simp [howner]), State.setSlot, if_pos rfl]
  simp [collRecord, collDone, bits]

section Complete
variable {s : State} {k : Nat} {e : Coll} {x : Ctx} (hk : s.colls[k]? = some e) (hfar : e.far = false) (harr : e.arrived = true)
  (hslot : e.slot = s.cur.phys) (howner : s.cur.owner = some e.ctx) (hx : s.ctxAt e.ctx = some x)
  (hopen : s.clusOpen e.ctx (clusOf e.slot) = true)

section Go
include hslot howner

theorem collGo_record {st : Nat} (fl : BitVec 5) (hroom : s.cur.q3read.length < 4) :
    (if 4 ≤ (s.slotAt e.slot).q3read.length then notNow "COLL_COMPLETE" else Host.Outcome.next (finishColl s e st fl)) =
      .next (collDone s e st fl) := by
  have hcur : s.slotAt e.slot = s.cur := by rw [hslot]; exact if_pos rfl
  rw [hcur, if_neg (by omega), finishColl_eq st fl hslot howner]

include hx

theorem collGo_of_ended {st : Nat} {fl : BitVec 5} {bs : List Byte} (h : st ≠ 0 ∨ bs.length ≤ e.landed) (hroom : s.cur.q3read.length < 4) :
    collGo s e (st, fl, bs) = .next (collDone s e st fl) := by
  unfold collGo
  simp only [hx]
  rw [if_pos h]
  exact collGo_record hslot howner fl hroom

theorem collGo_of_closed {fl : BitVec 5} {bs : List Byte} (hlt : e.landed < bs.length) (hzero : e.landed = 0)
    (hdst : collDst s x e bs.length = none) (hroom : s.cur.q3read.length < 4) :
    collGo s e (0, fl, bs) = .next (collDone s e 2 fl) := by
  unfold collGo
  simp only [hx]
  rw [if_neg (by omega), if_pos ⟨hzero, by rw [hdst]; rfl⟩]
  exact collGo_record hslot howner fl hroom

end Go

include hx in
theorem collGo_of_writes {fl : BitVec 5} {bs : List Byte} {kd n : Nat} (hlt : e.landed < bs.length)
    (hbegun : 0 < e.landed ∨ collDst s x e bs.length ≠ none)
    (hd : engResolve s x (s.collSlot e) (e.dst + BitVec.ofNat 64 e.landed) true = .ok kd) (hn : n = eventLen kd (bs.length - e.landed))
    (hw : MayWrite s (coreOf e.slot) (spanKeys kd n)) :
    collGo s e (0, fl, bs) = .next (s.landColl e bs kd) := by
  have hopened : ¬(e.landed = 0 ∧ (collDst s x e bs.length).isNone = true) := by
    rintro ⟨hzero, hnone⟩
    rcases hbegun with h | h
    · omega
    · exact h (by simpa using hnone)
  unfold collGo
  simp only [hx]
  rw [if_neg (by omega), if_neg hopened, hd]
  exact engWrites_of_mayWrite _ _ (hn ▸ hw)

theorem landColl_spec {bs : List Byte} {kd n : Nat} (hn : n = eventLen kd (bs.length - e.landed))
    (hw : MayWrite s (coreOf e.slot) (spanKeys kd n)) :
    Landed s (s.landColl e bs kd) kd ((bs.drop e.landed).take n) ∧
      (s.landColl e bs kd).colls = (s.setColl { e with landed := e.landed + n }).colls := by
  have hlen : ((bs.drop e.landed).take n).length = n := by
    have hle := eventLen_le kd (bs.length - e.landed)
    rw [List.length_take, List.length_drop]
    omega
  have hnoted (cs : List Host.Cell) (last : Bool) (ks : List Nat) (m : Nat) :
      Noted (s.engineEvent cs last) ((((s.engineEvent cs last).noteBlocks e.ctx ks true).charge e.ctx 5 m)) :=
    (Noted.noteBlocks ..).trans (Noted.charge ..)
  unfold State.landColl
  dsimp only
  rw [← hn]
  constructor
  · intro hfeq hin
    have hland := landed_of_writes (core := coreOf e.slot) (bs := (bs.drop e.landed).take n) (last := e.landed + n == bs.length)
      (Noted.refl s) (by rw [hlen]; exact hw) hfeq hin
    rw [hlen] at hland
    exact (hnoted ..).mem.trans hland
  · exact congrArg (List.map _) ((EnginesKept.engineEvent ..).trans (hnoted ..).keeps).colls

section Exec
include hk hfar harr hopen

/-- A participant with a result goes on with it. -/
theorem exec_collComplete_of_result {r : Nat × BitVec 5 × List Byte} (hr : e.result = some r) :
    exec (.collComplete k) s = collGo s e r := by
  change execCollComplete k s = _
  unfold execCollComplete
  simp only [hk, hfar, harr, hopen, hr]
  rfl

theorem exec_collComplete_of_gone (hr : e.result = none) (hdown : e.dead = true ∨ s.peerDown e = true) :
    exec (.collComplete k) s = collGo s e (1, 0, []) := by
  change execCollComplete k s = _
  unfold execCollComplete
  simp only [hk, hfar, harr, hopen, hr]
  rw [if_neg (by decide), if_pos (by simpa using hdown)]

theorem exec_collComplete_of_group {gs : List Coll} (hr : e.result = none) (hdead : e.dead = false) (hdown : s.peerDown e = false)
    (hg : s.collGroup e = some gs) : exec (.collComplete k) s = .next (s.resolveColls gs) := by
  change execCollComplete k s = _
  unfold execCollComplete
  simp only [hk, hfar, harr, hopen, hr, hdead, hdown, hg]
  rfl

end Exec

/-- A peer is down where one of this module has a context in ERROR or one to be reset (R300). -/
theorem peerDown_of_peer (h : ∃ w ∈ e.peers, (peerOf w).2.2 = s.ownNode ∧ ∃ y, s.ctxAt (peerOf w).2.1 = some y ∧
    (y.state = .error ∨ y.err ≠ none)) : s.peerDown e = true := by
  obtain ⟨w, hw, hnode, y, hy, hbad⟩ := h
  refine List.any_eq_true.2 ⟨w, hw, ?_⟩
  simp only [hnode, hy, beq_self_eq_true, Bool.true_and, Bool.or_eq_true, beq_iff_eq]
  exact hbad.imp id Option.isSome_iff_ne_none.2

/-- The participant's own contribution has its result once its group is resolved. -/
theorem resolveColls_result {gs : List Coll} {g : Coll} (hfar : e.far = false) (hg : s.collGroup e = some gs) (he : e ∈ gs)
    (hmem : g ∈ (s.resolveColls gs).colls) (hid : g.id = e.id) (honly : ∀ h ∈ s.colls, h.id = e.id → h = e) :
    g.result = some (collResult e gs) := by
  obtain ⟨h, hh, hres⟩ := List.mem_filterMap.1 hmem
  have hhid : g.id = h.id := by
    split at hres
    · cases hres
    · split at hres
      · obtain rfl := Option.some.inj hres
        rfl
      · obtain rfl := Option.some.inj hres
        split <;> rfl
  obtain rfl : h = e := honly h hh (hhid.symm.trans hid)
  have hcontains : gs.contains h = true := List.contains_iff_mem.2 he
  simp only [hcontains, hfar, hg] at hres
  obtain rfl := Option.some.inj hres
  rfl

end Complete

/-! ### The results of two ranks -/

/-- Two contributions that match a participant of two ranks (R300). -/
structure PairMatches (e g h : Coll) : Prop where
  ranks : e.p = 2 ∧ g.p = 2 ∧ h.p = 2
  count : g.n = e.n ∧ h.n = e.n
  type : g.ty = e.ty ∧ h.ty = e.ty
  select : g.sel = e.sel ∧ h.sel = e.sel
  length : g.data.length = ctypeBytes e.ty * collElems e.sel e.n 2 true ∧ h.data.length = ctypeBytes e.ty * collElems e.sel e.n 2 true

section Pair
variable {e g h : Coll} (hm : PairMatches e g h)
include hm

theorem PairMatches.no_mismatch : [g, h].any (fun q => q.p != e.p || q.n != e.n || q.ty != e.ty || q.sel != e.sel ||
    q.data.length != ctypeBytes e.ty * collElems e.sel e.n e.p true) = false := by
  obtain ⟨⟨hp, hgp, hhp⟩, ⟨hgn, hhn⟩, ⟨hgt, hht⟩, ⟨hgs, hhs⟩, hgl, hhl⟩ := hm
  simp [hp, hgp, hhp, hgn, hhn, hgt, hht, hgs, hhs, hgl, hhl]

theorem collResult_gather (hsel : e.sel = .ag) : collResult e [g, h] = (0, 0, g.data ++ h.data) := by
  unfold collResult
  dsimp only
  rw [hm.no_mismatch, hsel]
  simp

omit hm in
/-- The sum of two elements of an integer type. -/
theorem collSum_pair (hty : ctypeFmt e.ty = none) (i : Nat) :
    collSum e.ty [g, h] i = ((g.elem i + h.elem i) % 2 ^ (8 * ctypeBytes e.ty), 0) := by
  simp only [collSum, List.map_cons, List.map_nil, hty, List.foldl_cons, List.foldl_nil]

theorem collResult_sums (hty : ctypeFmt e.ty = none) {base : Nat} (hsel : (e.sel = .ar ∧ base = 0) ∨ (e.sel = .rs ∧ base = e.r * e.n)) :
    collResult e [g, h] = (0, 0, (upTo e.n).flatMap (fun i =>
      leBytes (ctypeBytes e.ty) ((g.elem (base + i) + h.elem (base + i)) % 2 ^ (8 * ctypeBytes e.ty)))) := by
  have hflags (is : List Nat) : (is.map (fun i => collSum e.ty [g, h] (base + i))).foldl (fun f v => f ||| v.2) (0 : BitVec 5) = 0 := by
    induction is with
    | nil => rfl
    | cons i is ih =>
      rw [List.map_cons, List.foldl_cons, collSum_pair hty]
      simpa using ih
  have hbytes (is : List Nat) : (is.map (fun i => collSum e.ty [g, h] (base + i))).flatMap (fun v => leBytes (ctypeBytes e.ty) v.1) =
      is.flatMap (fun i => leBytes (ctypeBytes e.ty) ((g.elem (base + i) + h.elem (base + i)) % 2 ^ (8 * ctypeBytes e.ty))) := by
    rw [List.flatMap_map]
    simp only [collSum_pair hty]
  unfold collResult
  dsimp only
  rw [hm.no_mismatch]
  rcases hsel with ⟨hsel, hbase⟩ | ⟨hsel, hbase⟩
  · simp only [hsel, ← hbase, hflags, hbytes]
    rfl
  · simp only [hsel, ← hbase, hflags, hbytes]
    rfl

end Pair

/-- Settles O46: COLL's issue, the arrival of a contribution, a participant's end, and the results of two ranks. -/
theorem collectivesCombineContributions : Obligations.CollectivesCombineContributions := by
  refine ⟨fun s r₁ r d a b ty sel src dst desc table c₁ c₂ c x p n₀ n sc ha hb hd hx hdesc hr₁ hp hn₀ hn htable hn1 hnmax hp1 hpmax hrank
      hpeers hr hwords hself hsrc hdst hsrcR hdstR hsc => ?_,
    fun s k e x ks hk hx hfar harr hearlier hopen hks hr => exec_collContributionArrival_of_ready hk hx hfar harr hearlier hopen hks hr,
    fun s k r hnode => ⟨exec_collContributionArrival_of_departed k hnode, exec_collContributionArrival_of_stranger k hnode,
      exec_collContributionArrival_of_named k hnode⟩,
    fun s k e x hk hfar harr hslot howner hx hopen => ⟨fun st fl bs hr => ⟨fun hend hroom => ?_, fun hst hlt => ⟨?_, ?_⟩⟩, ?_, ?_⟩, ?_⟩
  · exact ⟨_, enteredColl_asks .., exec_coll_of_checks ha hb hd hx hdesc hr₁ hp hn₀ hn htable hn1 hnmax hp1 hpmax hrank hpeers hr hwords hself
      hsrc hdst hsrcR hdstR hsc⟩
  · exact (exec_collComplete_of_result hk hfar harr hopen hr).trans (collGo_of_ended hslot howner hx hend hroom)
  · intro hzero hclosed hroom
    subst hst
    exact (exec_collComplete_of_result hk hfar harr hopen hr).trans (collGo_of_closed hslot howner hx hlt hzero hclosed hroom)
  · intro kd n hbegun hdst hn hw
    subst hst
    rw [eventBytes_eq_eventLen] at hn
    obtain ⟨hland, hcolls⟩ := landColl_spec hn hw
    exact ⟨_, (exec_collComplete_of_result hk hfar harr hopen hr).trans (collGo_of_writes hx hlt hbegun hdst hn hw), hland, hcolls⟩
  · intro hr hroom hgone
    refine (exec_collComplete_of_gone hk hfar harr hopen hr (hgone.imp_right peerDown_of_peer)).trans ?_
    exact collGo_of_ended hslot howner hx (.inl (by decide)) hroom
  · intro gs hr hdead hdown hg
    exact ⟨exec_collComplete_of_group hk hfar harr hopen hr hdead hdown hg,
      fun he g hmem hid honly => resolveColls_result hfar hg he hmem hid honly⟩
  · intro e g h hep hgp hhp hgn hhn hgt hht hgs hhs hgl hhl
    have hm : PairMatches e g h := ⟨⟨hep, hgp, hhp⟩, ⟨hgn, hhn⟩, ⟨hgt, hht⟩, ⟨hgs, hhs⟩, hgl, hhl⟩
    refine ⟨collResult_gather hm, fun hsel hty => ?_, fun hsel hty => collResult_sums hm hty (.inr ⟨hsel, rfl⟩)⟩
    have hsums := collResult_sums hm hty (.inl ⟨hsel, rfl⟩)
    simpa only [Nat.zero_add] using hsums

end Sys2Proof.Machine


/-! Matrix commands and units (R34, R266 to R281; O48). -/

namespace Sys2Proof.Machine

/-! ### Command words -/

theorem codeOf_cmdWord {code ty opt : Nat} (x : Word) (hc : code < 16) (ht : ty < 8) (ho : opt < 2) :
    codeOf (cmdWord code ty opt x) = code := by
  unfold codeOf cmdWord bits
  rw [BitVec.toNat_ofNat]
  omega

theorem mtypeCode_lt (ty : MType) : ty.code < 8 := by cases ty <;> decide

/-- The words of a command: MXRING's alone are two. -/
theorem Commands.shape {i : Instr} {s : State} {c : Slot} {w : Word} {vs : List Word} (h : Commands i s c (w :: vs)) :
    (codeOf w ≠ 5 ∧ vs = []) ∨ (codeOf w = 5 ∧ ∃ v, vs = [v]) := by
  have hone {code ty opt : Nat} (x : Word) (hc : code < 16 ∧ code ≠ 5) (ht : ty < 8) (ho : opt < 2) :
      codeOf (cmdWord code ty opt x) ≠ 5 := by
    rw [codeOf_cmdWord x hc.1 ht ho]
    exact hc.2
  cases h with
  | mxop a ty sp _ x _ h => exact .inl ⟨hone x (by decide) (mtypeCode_lt ty) (by split <;> decide), rfl⟩
  | mxzero a _ x _ h => exact .inl ⟨hone x (by decide) (by decide) (by decide), rfl⟩
  | mxst a ty sat _ x _ h => exact .inl ⟨hone x (by decide) (mtypeCode_lt ty) (by split <;> decide), rfl⟩
  | mxld a _ x _ h => exact .inl ⟨hone x (by decide) (by decide) (by decide), rfl⟩
  | mxring a b _ x y c₁ _ ha hb => exact .inr ⟨codeOf_cmdWord x (by decide) (by decide) (by decide), y, rfl⟩
  | mxadv a _ x _ h => exact .inl ⟨hone x (by decide) (by decide) (by decide), rfl⟩
  | mxwgt a _ x _ h => exact .inl ⟨hone x (by decide) (by decide) (by decide), rfl⟩

/-- Every command instruction reads its sources and pushes its words. -/
theorem exec_eq_matrixPush_of_commands {i : Instr} {s : State} {c : Slot} {ws : List Word} (h : Commands i s c ws) :
    exec i s = matrixPush s c ws := by
  cases h with
  | mxop a ty sp _ x _ h => exact withSrc1_of_read _ h
  | mxzero a _ x _ h => exact withSrc1_of_read _ h
  | mxst a ty sat _ x _ h => exact withSrc1_of_read _ h
  | mxld a _ x _ h => exact withSrc1_of_read _ h
  | mxring a b _ x y c₁ _ ha hb => exact withSrc2_of_reads _ ha hb
  | mxadv a _ x _ h => exact withSrc1_of_read _ h
  | mxwgt a _ x _ h => exact withSrc1_of_read _ h

/-! ### The checks of R269 -/

section Checks
variable {x : Ctx} {c : Slot} {w : Word}

theorem cmdReason_of_acceptable (h : Acceptable x c w) : cmdReason x c w = none := by
  obtain ⟨hshare, hweight, hres, htile, hrings, hop, hst, -, hring, hadv, hwgt⟩ := h
  unfold codeOf at *
  unfold cmdReason
  dsimp only
  rw [if_neg (by simp [hshare, hweight]), if_neg (by simp [hres]), if_neg, if_neg, if_neg, if_neg, if_neg, if_neg]
  · simp only [Bool.and_eq_true, Bool.or_eq_true, beq_iff_eq, decide_eq_true_eq, not_and, not_or]
    exact fun h7 => ⟨(hwgt h7).1, by have := (hwgt h7).2; omega⟩
  · simp only [Bool.and_eq_true, Bool.or_eq_true, beq_iff_eq, decide_eq_true_eq, not_and, not_or]
    exact ⟨hadv, fun h5 => by have := (hring h5).1; omega⟩
  · simp only [Bool.and_eq_true, Bool.or_eq_true, beq_iff_eq, bne_iff_ne, not_and, not_or, Classical.not_not]
    exact fun h3 => ⟨(hst h3).1, (hst h3).2.1⟩
  · simp only [Bool.and_eq_true, Bool.or_eq_true, beq_iff_eq, not_and, not_or, and_imp]
    intro h1 hsp
    obtain ⟨hodd, hzero, hty⟩ := hop h1 hsp
    omega
  · simp only [List.any_eq_true, Bool.not_eq_true', not_exists, not_and]
    exact fun r hr => by simp [hrings r hr]
  · cases ht : cmdTile w with
    | none => simp
    | some t => simp [htile t ht]

theorem cmdAddress_of_acceptable (h : Acceptable x c w) : cmdAddress x c w = none := by
  obtain ⟨-, -, -, -, -, -, hst, hld, hring, -⟩ := h
  unfold codeOf at *
  unfold cmdAddress
  split
  · next h3 =>
    obtain ⟨-, -, hwin, halign, hdata, hblocks⟩ := hst h3
    dsimp only
    rw [if_neg (by omega), if_neg (by omega), firstBeyond, if_pos hdata]
    dsimp only
    split
    · next hq => rw [firstBeyond, if_pos (hblocks hq)]
    · rfl
  · next h4 =>
    obtain ⟨halign, hdata⟩ := hld h4
    dsimp only
    rw [if_neg (by omega), firstBeyond, if_pos hdata]
    rfl
  · next h5 =>
    obtain ⟨-, halign, hdata⟩ := hring h5
    dsimp only
    rw [if_neg (by omega), firstBeyond, if_pos hdata]
    rfl
  · rfl

theorem checkSecond_of_zero {v : Word} (h : bits v 63 10 = 0 ∧ bits v 2 0 = 0) : checkSecond v = none :=
  if_neg fun hor => hor.elim (fun h' => h' h.1) (fun h' => h' h.2)

/-- The words of a command that the checks pass enter the queue (R267). -/
theorem takeWords_of_acceptable {vs : List Word} (h : Acceptable x c w) (hshape : (codeOf w ≠ 5 ∧ vs = []) ∨ (codeOf w = 5 ∧ ∃ v, vs = [v]))
    (hvs : ∀ v ∈ vs, bits v 63 10 = 0 ∧ bits v 2 0 = 0) : takeWords x c none (w :: vs) = .ok (w :: vs, none) := by
  have hcheck {second : Option Word} (hs : ∀ v ∈ second, checkSecond v = none) : checkCommand x c w second = none := by
    have hsecond : second.bind checkSecond = none := by
      cases second with
      | none => rfl
      | some v => exact hs v rfl
    simp only [checkCommand, cmdReason_of_acceptable h, hsecond, cmdAddress_of_acceptable h]
  rcases hshape with ⟨hcode, rfl⟩ | ⟨hcode, v, rfl⟩
  · exact (takeWords_fresh (hcheck (fun v hv => by cases hv))).trans (if_neg hcode)
  · have hv := checkSecond_of_zero (hvs v (by simp))
    unfold codeOf at hcode
    unfold takeWords
    rw [if_pos hcode, hcheck (fun u hu => by rw [← Option.some.inj hu]; exact hv)]
    simp only [if_pos hcode]
    exact takeWords_second hv

theorem takeWords_of_reason {vs : List Word} {n : Nat} (h : cmdReason x c w = some n) :
    takeWords x c none (w :: vs) = .error (.queue, BitVec.ofNat 64 n) := by
  unfold takeWords
  simp only [checkCommand, h]

end Checks

/-! ### The push -/

/-- The state of the unit with the descriptor of the window of an MXST that enters (R267). -/
def State.keepWindow (s : State) (c : Slot) (w : Word) : State :=
  if codeOf w = 3 then
    match s.unitAt (clusOf c.phys) with
    | some u =>
      { s with matrix := updKey (fun v => v.clus == u.clus) { u with stWins := u.stWins ++ [(c.phys, c.win (bits w 49 47))] } s.matrix }
    | none => s
  else s

section Push
variable {i : Instr} {s : State} {c : Slot} {w : Word} {vs : List Word} {x : Ctx} (hi : Commands i s c (w :: vs)) (hx : s.ctxOf c = some x)
include hi hx

theorem exec_command_of_refused {cause : TrapCause} {tval : Word} (h : takeWords x c.ready c.q0held (w :: vs) = .error (cause, tval)) :
    exec i s = trap s { c.ready with q0held := none } cause tval := by
  rw [exec_eq_matrixPush_of_commands hi, matrixPush, pushMatrix, show s.ctxOf c.ready = some x from hx]
  dsimp only
  rw [show takeWords x c.ready c.ready.q0held (w :: vs) = .error (cause, tval) from h]

section Accepted
variable (hheld : c.q0held = none) (hacc : Acceptable x c w) (hvs : ∀ v ∈ vs, bits v 63 10 = 0 ∧ bits v 2 0 = 0)
include hheld hacc hvs

/-- A command that the checks pass enters where it has room, MXST's with its window, or waits. -/
theorem exec_command_of_accepted :
    exec i s = if c.q0push.length + vs.length + 1 ≤ 4 then
        .next { s.keepWindow c w with
          cur := { c.ready.release .clus s.seq with
            q0push := c.q0push ++ (w :: vs).map (fun v => (v, s.seq)), q0held := none, pc := c.pc + 4 } }
      else .next (waiting s c (.matrix (w :: vs))) := by
  have htake : takeWords x c.ready c.ready.q0held (w :: vs) = .ok (w :: vs, none) := by
    rw [show c.ready.q0held = none from hheld]
    exact takeWords_of_acceptable (c := c.ready) hacc hi.shape hvs
  have hwins : (w :: vs).filterMap (fun w => if bits w 63 60 = 3 then some (c.ready.phys, c.ready.win (bits w 49 47)) else none) =
      if codeOf w = 3 then [(c.phys, c.win (bits w 49 47))] else [] := by
    have hrest : vs.filterMap (fun w => if bits w 63 60 = 3 then some (c.ready.phys, c.ready.win (bits w 49 47)) else none) = [] := by
      refine List.filterMap_eq_nil_iff.2 fun v hv => if_neg ?_
      rw [bits_code_of_second (checkSecond_of_zero (hvs v hv))]
      decide
    rw [List.filterMap_cons, hrest]
    unfold codeOf
    split <;> split <;> simp_all [Slot.ready, Slot.win]
  rw [exec_eq_matrixPush_of_commands hi, matrixPush, pushMatrix, show s.ctxOf c.ready = some x from hx]
  dsimp only
  rw [htake]
  dsimp only
  rw [hwins]
  by_cases hroom : c.q0push.length + vs.length + 1 ≤ 4
  · rw [if_pos hroom, if_pos (show c.ready.q0push.length + (w :: vs).length ≤ 4 from hroom)]
    unfold State.keepWindow
    by_cases hcode : codeOf w = 3
    · rw [if_pos hcode, if_pos hcode, show c.ready.phys = c.phys from rfl]
      cases s.unitAt (clusOf c.phys) <;> rfl
    · rw [if_neg hcode, if_neg hcode]
      rfl
  · rw [if_neg hroom, if_neg (show ¬c.ready.q0push.length + (w :: vs).length ≤ 4 from hroom)]
    rfl

theorem exec_command_of_room (hroom : c.q0push.length + vs.length + 1 ≤ 4) (hcode : codeOf w ≠ 3) :
    exec i s = .next { s with cur := { c.ready.release .clus s.seq with
      q0push := c.q0push ++ (w :: vs).map (fun v => (v, s.seq)), q0held := none, pc := c.pc + 4 } } := by
  rw [exec_command_of_accepted hi hx hheld hacc hvs, if_pos hroom, State.keepWindow, if_neg hcode]

theorem exec_command_of_store {u : MUnit} (hroom : c.q0push.length + vs.length + 1 ≤ 4) (hcode : codeOf w = 3)
    (hu : s.unitAt (clusOf c.phys) = some u) :
    exec i s = .next { s with
      cur := { c.ready.release .clus s.seq with
        q0push := c.q0push ++ (w :: vs).map (fun v => (v, s.seq)), q0held := none, pc := c.pc + 4 },
      matrix := updKey (fun v => v.clus == u.clus) { u with stWins := u.stWins ++ [(c.phys, c.win (bits w 49 47))] } s.matrix } := by
  rw [exec_command_of_accepted hi hx hheld hacc hvs, if_pos hroom, State.keepWindow, if_pos hcode, hu]

theorem exec_command_of_full (hfull : 4 < c.q0push.length + vs.length + 1) :
    exec i s = .next (waiting s c (.matrix (w :: vs))) := by
  rw [exec_command_of_accepted hi hx hheld hacc hvs, if_neg (by omega)]

end Accepted

theorem exec_command_of_reason {n : Nat} (hn : cmdReason x c w = some n) (hheld : c.q0held = none) :
    exec i s = trap s { c.ready with q0held := none } .queue (BitVec.ofNat 64 n) := by
  refine exec_command_of_refused hi hx ?_
  rw [hheld]
  exact takeWords_of_reason (c := c.ready) hn

end Push

/-! ### Tiles, rings and units -/

theorem MUnit.tile_setTile_same (u : MUnit) (t : Nat) (v : Vector (BitVec 32) 1024) : (u.setTile t v).tile t = v := by
  unfold MUnit.setTile
  split
  · next hzero =>
    have hnone : (u.tiles.filter (fun e => e.1 != t)).find? (fun e => e.1 == t) = none := by
      refine List.find?_eq_none.2 fun e he => ?_
      simpa using (List.mem_filter.1 he).2
    unfold MUnit.tile
    rw [hnone]
    refine Vector.ext fun i hi => ?_
    have hi0 := List.all_eq_true.1 hzero v[i] (by simp)
    simpa using (beq_iff_eq.1 hi0).symm
  · unfold MUnit.tile
    dsimp only
    rw [find_updKey_same _ _ (by simp)]
    rfl

theorem MUnit.tile_setTile_other (u : MUnit) {t q : Nat} (v : Vector (BitVec 32) 1024) (h : q ≠ t) :
    (u.setTile t v).tile q = u.tile q := by
  unfold MUnit.setTile
  split
  · unfold MUnit.tile
    dsimp only
    rw [List.find?_filter]
    have hsame : (fun e : Nat × Vector (BitVec 32) 1024 => e.1 != t && e.1 == q) = (fun e => e.1 == q) := by
      funext e
      by_cases he : e.1 = q <;> simp [he, h]
    simp only [Bool.decide_and, Bool.decide_eq_true, hsame]
  · unfold MUnit.tile
    dsimp only
    rw [find_updKey_other _ _ _ (by simp [Ne.symm h]) fun e he => by rw [beq_iff_eq.1 he]; simp [Ne.symm h]]

theorem MUnit.ring_setRing_same (u : MUnit) (r : Nat) (v : Ring) : (u.setRing r v).ring r = v := by
  unfold MUnit.setRing MUnit.ring
  dsimp only
  rw [find_updKey_same _ _ (by simp)]
  rfl

theorem MUnit.ring_setRing_other (u : MUnit) {r q : Nat} (v : Ring) (h : q ≠ r) : (u.setRing r v).ring q = u.ring q := by
  unfold MUnit.setRing MUnit.ring
  dsimp only
  rw [find_updKey_other _ _ _ (by simp [Ne.symm h]) fun e he => by rw [beq_iff_eq.1 he]; simp [Ne.symm h]]

theorem State.unitAt_setUnit (s : State) (u : MUnit) : (s.setUnit u).unitAt u.clus = some u :=
  find_updKey_same _ _ (by simp) _

theorem State.clus_of_unitAt {s : State} {clus : Nat} {u : MUnit} (h : s.unitAt clus = some u) : u.clus = clus := by
  simpa using List.find?_some h

theorem MUnit.setTile_clus (u : MUnit) (t : Nat) (v : Vector (BitVec 32) 1024) : (u.setTile t v).clus = u.clus := by
  unfold MUnit.setTile
  split <;> rfl

/-- A completed command leaves its unit's tiles as they are. -/
theorem State.completeCmd_unitAt (s : State) (u : MUnit) (slot : Nat) (w : Word) (st : Nat) (fl : BitVec 5) :
    ∃ v, (s.completeCmd u slot w st fl).unitAt u.clus = some v ∧ v.tiles = u.tiles := by
  unfold State.completeCmd State.dropPush
  dsimp only
  unfold State.unitAt
  rw [State.setSlot_matrix]
  exact ⟨_, find_updKey_same _ _ (by simp) _, rfl⟩

/-- The end of a visit leaves the tiles as they are. -/
theorem State.endVisit_unitAt {s : State} {clus : Nat} {u : MUnit} (h : s.unitAt clus = some u) :
    ∃ v, (s.endVisit clus).unitAt clus = some v ∧ v.tiles = u.tiles := by
  unfold State.endVisit
  simp only [h]
  split
  · obtain rfl := State.clus_of_unitAt h
    exact ⟨{ u with left := 0 }, State.unitAt_setUnit s { u with left := 0 }, rfl⟩
  · exact ⟨u, h, rfl⟩

theorem Noted.unitAt {s t : State} (h : Noted s t) (clus : Nat) : t.unitAt clus = s.unitAt clus := by
  rw [State.unitAt, State.unitAt, h.keeps.matrix]

theorem MUnit.tile_congr {u v : MUnit} (h : v.tiles = u.tiles) (t : Nat) : v.tile t = u.tile t := by
  rw [MUnit.tile, MUnit.tile, h]

/-! ### What MXLD reads -/

/-- An access of a register image is neither counted nor charged. -/
theorem State.noteAccess_of_image (s : State) (id n : Nat) (w : Bool) {k : Nat} (h : Space.pool ≤ keySpace k) :
    s.noteAccess id k n w = s := by
  have hne (sp : Nat) (hsp : sp < Space.pool) : (keySpace k == sp) = false := by
    simp only [Space.pool] at *
    simp only [beq_eq_false_iff_ne]
    omega
  unfold State.noteAccess
  split
  · rfl
  · simp only [hne Space.core (by decide), hne Space.clus (by decide), hne Space.dev (by decide), hne Space.host (by decide)]
    rfl

theorem mem_of_mem_blockRuns {ks : List Nat} {r : Nat × Nat} (h : r ∈ blockRuns ks) : r.1 ∈ ks := by
  induction ks generalizing r with
  | nil => cases h
  | cons k ks ih =>
    unfold blockRuns at h
    split at h
    · next q n rest hruns =>
      split at h
      · rcases List.mem_cons.1 h with rfl | h
        · simp
        · exact List.mem_cons_of_mem _ (ih (by rw [hruns]; exact List.mem_cons_of_mem _ h))
      · rcases List.mem_cons.1 h with rfl | h
        · simp
        · exact List.mem_cons_of_mem _ (ih (by rw [hruns]; exact h))
    · obtain rfl := List.mem_singleton.1 h
      simp

theorem State.noteBlocks_of_images (s : State) (id : Nat) (w : Bool) {ks : List Nat} (h : ∀ k ∈ ks, Space.pool ≤ keySpace k) :
    s.noteBlocks id ks w = s := by
  have hall : ∀ r ∈ blockRuns ks, Space.pool ≤ keySpace r.1 := fun r hr => h _ (mem_of_mem_blockRuns hr)
  unfold State.noteBlocks
  generalize blockRuns ks = rs at hall
  induction rs with
  | nil => rfl
  | cons r rs ih =>
    rw [List.foldl_cons, s.noteAccess_of_image id r.2 w (hall r (by simp))]
    exact ih fun q hq => hall q (by simp [hq])

theorem keySpace_core_add {unit off i : Nat} (h : off + i < 2 ^ 64) : keySpace (keyOf Space.core unit off + i) = unit / 2 ^ 48 := by
  unfold keySpace keyOf Space.core
  omega

/-- The bytes of a tile read as before the note of the read. -/
theorem readHomeN_noteBlocks (s : State) (id unit : Nat) {off i n : Nat} (hoff : off < 2 ^ 18) (hi : i + n ≤ 4096) :
    (s.noteBlocks id (spanKeys (keyOf Space.core unit off) 4096) false).readHomeN (keyOf Space.core unit off + i) n =
      s.readHomeN (keyOf Space.core unit off + i) n := by
  rcases Nat.lt_or_ge (unit / 2 ^ 48) Space.pool with hlt | hge
  · refine readHomeN_congr (m := n) (Noted.noteBlocks ..).mem n ?_ (by omega)
    unfold inMem
    rw [Nat.add_assoc, keySpace_core_add (by omega)]
    exact decide_eq_true hlt
  · rw [s.noteBlocks_of_images id false fun k hk => ?_]
    obtain ⟨j, hj, rfl⟩ := List.mem_map.1 hk
    have hj : j < 4096 := by simpa [upTo] using hj
    rw [keySpace_core_add (by omega)]
    exact hge

theorem loadTile_noteBlocks (s : State) {c d : Slot} (id unit : Nat) {w : Word} (hd : d.phys = c.phys)
    (hunit : unit = shareUnit (coreOf c.phys) id) :
    loadTile (s.noteBlocks id (spanKeys (keyOf Space.core unit (bits w 17 0)) 4096) false) d id w = loadTile s c id w := by
  subst hunit
  have hoff : bits w 17 0 < 2 ^ 18 := Nat.mod_lt _ (by decide)
  unfold loadTile
  rw [hd]
  dsimp only
  refine congrArg Vector.ofFn (funext fun i => ?_)
  have hi := i.isLt
  have hpos : posIndex (bits w 46 46 == 1) i.val < 1024 := by
    unfold posIndex
    split <;> omega
  rw [readHomeN_noteBlocks s id _ hoff (by omega)]

theorem loadTile_getElem (s : State) (c : Slot) (id : Nat) (w : Word) (j : Nat) (h : j < 1024) :
    (loadTile s c id w)[j] = BitVec.ofNat 32 (leNat (s.readHomeN (keyOf Space.core (shareUnit (coreOf c.phys) id) (bits w 17 0) +
      4 * (if bits w 46 46 = 1 then j % 32 * 32 + j / 32 else j)) 4)) := by
  unfold loadTile posIndex
  simp

/-! ### Steps of a unit -/

/-- A load writes no scratchpad, so it notes no write. -/
theorem loadTile_noteBlocks_nil (s : State) (c : Slot) (id : Nat) (w : Word) (ks : List Nat) :
    loadTile ((s.noteBlocks id ks false).noteBlocks id [] true) c id w = loadTile (s.noteBlocks id ks false) c id w := rfl

theorem Noted.slotAt {s t : State} (h : Noted s t) (n : Nat) : t.slotAt n = s.slotAt n := by
  rw [State.slotAt, State.slotAt, h.cur, h.slots]

section Arbited
variable {s : State} {slot m : Nat} {u : MUnit} {w : Word} {ws : List (Word × Nat)} {x : Ctx} (hu : s.unitAt u.clus = some u)
  (hstoring : u.storing = none) (harb : s.arbiter u = some slot) (hpush : (s.slotAt slot).q0push = (w, m) :: ws)
  (hx : s.ctxOf (s.slotAt slot) = some x)
include hu hstoring harb hpush hx

theorem exec_matrixStep_of_refusal (hcode : codeOf w = 1) (hacc : u.accOf slot = none) (href : u.refusal w ≠ 0) :
    exec (.matrixStep u.clus) s = .next ((s.completeCmd u slot w (u.refusal w) 0).endVisit u.clus) := by
  change execMatrixStep u.clus s = _
  unfold execMatrixStep
  simp only [hu, hstoring, harb, hpush, hx]
  rw [if_neg (by omega), if_pos ⟨hcode, by simp [hacc], href⟩]

section Step
variable (hphys : (s.slotAt slot).phys = slot) (h5 : codeOf w ≠ 5) (h7 : codeOf w ≠ 7)
  (hruns : codeOf w = 1 → u.accOf slot ≠ none ∨ u.refusal w = 0) (hr : MayRead s (coreOf slot) (stepKeys u (s.slotAt slot) x.id w).1)
  (hw : MayWrite s (coreOf slot) (stepKeys u (s.slotAt slot) x.id w).2)
include hphys h5 h7 hruns hr hw

/-- The arbiter's command runs its step (R274, R275). -/
theorem exec_matrixStep_of_step :
    exec (.matrixStep u.clus) s = .next (((runStep ((s.noteBlocks x.id (stepKeys u (s.slotAt slot) x.id w).1 false).noteBlocks x.id
      (stepKeys u (s.slotAt slot) x.id w).2 true) u x slot w).noteStep x u.clus w).endVisit u.clus) := by
  have hgo : ¬(codeOf w = 1 ∧ (u.accOf slot).isNone = true ∧ u.refusal w ≠ 0) := by
    rintro ⟨hcode, hacc, href⟩
    rcases hruns hcode with h | h
    · exact h (by simpa using hacc)
    · exact href h
  change execMatrixStep u.clus s = _
  unfold execMatrixStep
  simp only [hu, hstoring, harb, hpush, hx]
  rw [if_neg (by omega), if_neg hgo, stepGo, hphys]
  exact (engReads_of_mayRead _ _ _ _ _ hr).trans (engWrites_of_mayWrite _ _ hw)

/-- A command that a step completes leaves the unit with the tile that it has written. -/
theorem exec_matrixStep_tile {t : Nat} {v : Vector (BitVec 32) 1024}
    (hstep : runStep ((s.noteBlocks x.id (stepKeys u (s.slotAt slot) x.id w).1 false).noteBlocks x.id
      (stepKeys u (s.slotAt slot) x.id w).2 true) u x slot w =
      State.completeCmd ((s.noteBlocks x.id (stepKeys u (s.slotAt slot) x.id w).1 false).noteBlocks x.id
        (stepKeys u (s.slotAt slot) x.id w).2 true) ((u.served slot).setTile t v) slot w 0 0) :
    ∃ r z, exec (.matrixStep u.clus) s = .next r ∧ r.unitAt u.clus = some z ∧ z.tile t = v := by
  have hex := exec_matrixStep_of_step hu hstoring harb hpush hx hphys h5 h7 hruns hr hw
  rw [hstep] at hex
  obtain ⟨y, hy, hytiles⟩ := State.completeCmd_unitAt ((s.noteBlocks x.id (stepKeys u (s.slotAt slot) x.id w).1 false).noteBlocks x.id
    (stepKeys u (s.slotAt slot) x.id w).2 true) ((u.served slot).setTile t v) slot w 0 0
  rw [MUnit.setTile_clus, show (u.served slot).clus = u.clus from rfl] at hy
  obtain ⟨z, hz, hztiles⟩ := State.endVisit_unitAt (((Noted.noteStep _ x u.clus w).unitAt u.clus).trans hy)
  exact ⟨_, z, hex, hz, (MUnit.tile_congr (hztiles.trans hytiles) t).trans (MUnit.tile_setTile_same ..)⟩

theorem exec_matrixStep_zero (hcode : codeOf w = 2) : ∃ r z, exec (.matrixStep u.clus) s = .next r ∧ r.unitAt u.clus = some z ∧
    z.tile (bits w 55 50) = Vector.replicate 1024 0 :=
  exec_matrixStep_tile hu hstoring harb hpush hx hphys h5 h7 hruns hr hw (by simp only [runStep, hcode])

theorem exec_matrixStep_load (hcode : codeOf w = 4) : ∃ r z, exec (.matrixStep u.clus) s = .next r ∧ r.unitAt u.clus = some z ∧
    z.tile (bits w 55 50) = loadTile s (s.slotAt slot) x.id w := by
  refine exec_matrixStep_tile hu hstoring harb hpush hx hphys h5 h7 hruns hr hw ?_
  have hkeys : stepKeys u (s.slotAt slot) x.id w =
      (spanKeys (keyOf Space.core (shareUnit (coreOf (s.slotAt slot).phys) x.id) (bits w 17 0)) 4096, []) := by simp only [stepKeys, hcode]
  have hfst : (stepKeys u (s.slotAt slot) x.id w).1 =
      spanKeys (keyOf Space.core (shareUnit (coreOf (s.slotAt slot).phys) x.id) (bits w 17 0)) 4096 := by rw [hkeys]
  have hsnd : (stepKeys u (s.slotAt slot) x.id w).2 = [] := by rw [hkeys]
  have hslot : (((s.noteBlocks x.id (stepKeys u (s.slotAt slot) x.id w).1 false).noteBlocks x.id
      (stepKeys u (s.slotAt slot) x.id w).2 true).slotAt slot) = s.slotAt slot :=
    ((Noted.noteBlocks ..).trans (Noted.noteBlocks ..)).slotAt slot
  have hload : loadTile ((s.noteBlocks x.id (stepKeys u (s.slotAt slot) x.id w).1 false).noteBlocks x.id
      (stepKeys u (s.slotAt slot) x.id w).2 true) (s.slotAt slot) x.id w = loadTile s (s.slotAt slot) x.id w := by
    rw [hfst, hsnd, loadTile_noteBlocks_nil]
    exact loadTile_noteBlocks s x.id _ rfl rfl
  simp only [runStep, hcode, hslot, hload]

end Step

theorem exec_mxringTakeEffect_of_arbiter {v : Word} {n : Nat} {vs : List (Word × Nat)} (hcode : codeOf w = 5) (hclus : u.clus = clusOf slot)
    (hws : ws = (v, n) :: vs) :
    exec (.mxringTakeEffect slot) s =
      .next ((((s.setUnit ((u.served slot).setRing (bits w 55 52) (ringOfWords w v))).dropPush slot 2).noteStep x u.clus w).endVisit u.clus) := by
  subst hws
  rw [hclus] at hu
  change execMxringTakeEffect slot s = _
  unfold execMxringTakeEffect
  simp only [hu, hpush, hx]
  rw [if_pos ⟨hcode, by simp [hstoring], harb⟩]

theorem exec_mxwgtTakeEffect_of_arbiter (hcode : codeOf w = 7) (hclus : u.clus = clusOf slot) :
    exec (.mxwgtTakeEffect slot) s =
      .next ((((s.setUnit { u.served slot with weights := (u.served slot).weights.setIfInBounds (coreOf slot % 8) (bits w 55 52) }).dropPush
        slot 1).noteStep x u.clus w).endVisit u.clus) := by
  rw [hclus] at hu
  change execMxwgtTakeEffect slot s = _
  unfold execMxwgtTakeEffect
  simp only [hu, hpush, hx]
  rw [if_pos ⟨hcode, by simp [hstoring], harb⟩]

end Arbited

/-! ### MXST's bytes -/

section Storing
variable {s : State} {slot m : Nat} {u : MUnit} {w : Word} {ws : List (Word × Nat)} {cs : List Host.Cell} {fl : BitVec 5}
  (hu : s.unitAt u.clus = some u) (hstoring : u.storing = some (slot, cs, fl)) (hpush : (s.slotAt slot).q0push = (w, m) :: ws)
include hu hstoring hpush

theorem exec_matrixStep_of_stored (hcs : cs = []) :
    exec (.matrixStep u.clus) s = .next ((s.completeCmd { u with storing := none } slot w 0 fl).endVisit u.clus) := by
  change execMatrixStep u.clus s = _
  unfold execMatrixStep storeGo
  simp only [hu, hstoring, hpush, hcs]
  rfl

omit hu hstoring hpush in
/-- The first event of some cells takes those of its aligned 8 bytes. -/
theorem firstEvent_eq {k n : Nat} (hk : cs.head?.map (fun y => y.1) = some k) (hn : n = (cs.takeWhile (fun y => y.1 / 8 == k / 8)).length) :
    firstEvent cs = cs.take n ∧ (firstEvent cs).length = n ∧ cs.isEmpty = false := by
  cases cs with
  | nil => cases hk
  | cons y rest =>
    obtain rfl : y.1 = k := by simpa using hk
    subst hn
    exact ⟨List.prefix_iff_eq_take.1 (List.takeWhile_prefix _), rfl, rfl⟩

theorem exec_matrixStep_of_storing {k n : Nat} (hk : cs.head?.map (fun y => y.1) = some k)
    (hn : n = (cs.takeWhile (fun y => y.1 / 8 == k / 8)).length) (hw : MayWrite s (coreOf slot) ((cs.take n).map (fun y => y.1))) :
    ∃ t, exec (.matrixStep u.clus) s = .next t ∧
      (s.feq = [] → (∀ y ∈ cs.take n, inMem y.1 = true) → t.mem = writeCells s.mem (cs.take n)) ∧
      t.matrix = (s.setUnit { u with storing := some (slot, cs.drop n, fl) }).matrix := by
  obtain ⟨hev, hlen, hsome⟩ := firstEvent_eq hk hn
  refine ⟨(s.engineEvent (cs.take n) (cs.drop n).isEmpty).setUnit { u with storing := some (slot, cs.drop n, fl) }, ?_, fun hfeq hin => ?_, ?_⟩
  · change execMatrixStep u.clus s = _
    unfold execMatrixStep storeGo
    simp only [hu, hstoring, hpush, hsome, hlen]
    rw [if_neg (by decide), hev]
    exact engWrites_of_mayWrite _ _ hw
  · exact State.engineEvent_mem hfeq hin (fun y hy => hw.keyHeld (List.mem_map_of_mem hy)) _
  · rw [State.setUnit, (EnginesKept.engineEvent ..).matrix]
    rfl

end Storing

/-! ### Advances and records -/

theorem exec_mxadvReachUnit_of_head {s : State} {slot m : Nat} {u : MUnit} {w : Word} {ws : List (Word × Nat)}
    (hu : s.unitAt (clusOf slot) = some u) (hslot : slot = s.cur.phys) (hpush : s.cur.q0push = (w, m) :: ws) (hcode : codeOf w = 6)
    (hopen : s.unitOpen slot = true) (hearlier : s.earlierPending slot m = false) :
    exec (.mxadvReachUnit slot) s = .next { s.setUnit (u.setRing (bits w 55 52) ((u.ring (bits w 55 52)).advance (bits w 51 44))) with
      cur := { s.cur with q0push := ws } } := by
  have hcur : s.slotAt slot = s.cur := by rw [hslot]; exact if_pos rfl
  have hindex : s.advIndex u slot = some 0 := by
    unfold State.advIndex
    dsimp only
    rw [hcur, hpush, List.map_cons, List.findIdx?_cons, if_pos (by simp [hcode])]
    simp [hcode]
  change execMxadvReachUnit slot s = _
  unfold execMxadvReachUnit
  simp only [hu, hindex, hcur, hpush, hopen, List.getElem?_cons_zero, Option.getD_some, hearlier]
  rw [if_neg (by decide)]
  exact congrArg Host.Outcome.next (State.setSlot_cur rfl)

theorem exec_matrixRecordPush_of_due {s : State} {clus : Nat} {u : MUnit} {r : MxRecord} (hu : s.unitAt clus = some u)
    (hr : u.recs.find? (fun r => decide ((s.slotAt r.slot).q0read.length < 8)) = some r) (hslot : r.slot = s.cur.phys) :
    exec (.matrixRecordPush clus) s = .next (State.endVisit { s.setUnit { u with recs := dropFirst (fun e => e.slot == r.slot) u.recs } with
      cur := { s.cur with q0read := s.cur.q0read ++ [r.word + BitVec.ofNat 64 (s.cycle.toNat % 2 ^ 32)],
                          q0tiles := s.cur.q0tiles ++ [r.snap] } } clus) := by
  have hcur : (s.setUnit { u with recs := dropFirst (fun e => e.slot == r.slot) u.recs }).slotAt r.slot = s.cur := by
    rw [hslot]
    exact if_pos rfl
  have hcycle : bits s.cycle 31 0 = s.cycle.toNat % 2 ^ 32 := by simp [bits]
  change execMatrixRecordPush clus s = _
  unfold execMatrixRecordPush
  simp only [hu, hr, hcur]
  rw [show bits (s.setUnit _).cycle 31 0 = _ from hcycle]
  exact congrArg (fun t => Host.Outcome.next (State.endVisit t clus)) (State.setSlot_cur rfl)

/-- Settles O48: the push of a command's words, the steps of a unit, MXST's bytes, and the laws of tiles and rings. -/
theorem matrixCommandsRun : Obligations.MatrixCommandsRun := by
  refine ⟨fun i s c w vs x hi hx => ⟨fun hheld hacc hvs => ⟨?_, ?_, ?_⟩, ?_, ?_⟩, ?_, ?_, ?_, ?_, ?_, ?_, ?_⟩
  · exact exec_command_of_room hi hx hheld hacc hvs
  · exact fun u => exec_command_of_store hi hx hheld hacc hvs
  · exact exec_command_of_full hi hx hheld hacc hvs
  · exact fun cause tval => exec_command_of_refused hi hx
  · exact fun n => exec_command_of_reason hi hx
  · intro s clus slot m u w ws x hu hstoring harb hpush hx hphys
    obtain rfl := State.clus_of_unitAt hu
    refine ⟨exec_matrixStep_of_refusal hu hstoring harb hpush hx, ⟨fun h5 h7 hruns hr hw => ⟨?_, ?_, ?_⟩, ?_, ?_⟩⟩
    · exact exec_matrixStep_of_step hu hstoring harb hpush hx hphys h5 h7 hruns hr hw
    · exact exec_matrixStep_zero hu hstoring harb hpush hx hphys h5 h7 hruns hr hw
    · intro hcode
      obtain ⟨t, v, hex, hv, htile⟩ := exec_matrixStep_load hu hstoring harb hpush hx hphys h5 h7 hruns hr hw hcode
      refine ⟨t, v, hex, hv, fun j hj => ?_⟩
      rw [htile, loadTile_getElem, hphys]
    · intro hcode v n vs hclus hws
      exact exec_mxringTakeEffect_of_arbiter hu hstoring harb hpush hx hcode hclus hws
    · exact exec_mxwgtTakeEffect_of_arbiter hu hstoring harb hpush hx
  · intro s clus slot m u w ws cs fl hu hstoring hpush
    obtain rfl := State.clus_of_unitAt hu
    exact ⟨exec_matrixStep_of_stored hu hstoring hpush, fun k n => exec_matrixStep_of_storing hu hstoring hpush⟩
  · exact fun u t v => ⟨u.tile_setTile_same t v, fun q hq => u.tile_setTile_other v hq⟩
  · exact fun u r v => ⟨u.ring_setRing_same r v, fun q hq => u.ring_setRing_other v hq⟩
  · exact fun r n => ⟨fun h => if_pos h, fun h => if_neg (Nat.not_lt.2 h)⟩
  · exact fun s slot m u w ws => exec_mxadvReachUnit_of_head
  · exact fun s clus u r => exec_matrixRecordPush_of_due

end Sys2Proof.Machine
